-- ==== Sys2Proof/Word.lean ====
section
/-!
DEFINITION. The word types of the KM4: a 32-bit register word, a byte, and a mask with one bit per lane of a warp.
-/

namespace Sys2Proof

/-- A 32-bit register value (R145, R159). -/
abbrev Word := BitVec 32

/-- One byte of memory or of a typed buffer. -/
abbrev Byte := BitVec 8

/-- One bit per lane of a warp of 32 lanes (R8). -/
abbrev Mask := BitVec 32

/-- One value per lane of a warp. -/
abbrev Lanes (α : Type) := Vector α 32

/-- A 64-bit value. -/
abbrev DWord := BitVec 64

end Sys2Proof
end

