-- ==== Sys2Proof/Syntax.lean ====
section
/-!
DEFINITION. The syntax of every step of spec/opcode_table.json: the 181 instructions a warp issues, with their operands
and modifiers resolved into constructors (R124-R131 and the entries), and the 94 steps of the device, the host and the
package (spec/95), with the agent or the input each one names.
-/

namespace Sys2Proof

/-- The operand codes of R131. `imm c` is the code 448 + c, whose value is c - 32. -/
inductive Operand where
  | v (n : Fin 256)
  | s (n : Fin 64)
  | w (n : Fin 32)
  | x (n : Fin 8)
  | z (n : Fin 8)
  | p (n : Fin 8)
  | k (n : Fin 8)
  | lat (n : Fin 3)
  | zero
  | m (n : Fin 16)
  | imm (c : Fin 64)
deriving DecidableEq, Repr, Inhabited

/-- A source field with its hold bit (R125, R155). -/
structure Src where
  op : Operand
  hold : Bool
deriving DecidableEq, Repr, Inhabited

/-- A destination field with its consumer count (R125, R146). -/
structure Dst where
  op : Operand
  cc : Fin 8
deriving DecidableEq, Repr, Inhabited

/-- The guard of R124: a predicate with its negate bit, or a path of a meld region (codes 0b1110, 0b1111). -/
inductive Guard where
  | pred (neg : Bool) (p : Fin 8)
  | path (one : Bool)
deriving DecidableEq, Repr, Inhabited

/-- The rounding modes of R32. -/
inductive Rm where
  | rn | rz | ru | rd
deriving DecidableEq, Repr, Inhabited

/-- How an integer result is narrowed (R195): wrapping, `.sat`, or `.sat.u`. -/
inductive IntMode where
  | wrap | sat | satU
deriving DecidableEq, Repr, Inhabited

/-- The comparison codes of R194. -/
inductive Cmp where
  | eq | ne | lt | le | gt | ge | num | nan
deriving DecidableEq, Repr, Inhabited

/-- Sign modifiers of an FP32 instruction (R205): negate a, b, c and absolute value of a, b. -/
structure FMods where
  na : Bool
  nb : Bool
  nc : Bool
  aa : Bool
  ab : Bool
deriving DecidableEq, Repr, Inhabited

/-- Modifiers of the packed instructions (R212). -/
structure HMods where
  rm : Rm
  bf : Bool
  sat : Bool
  na : Bool
  nb : Bool
  nc : Bool
deriving DecidableEq, Repr, Inhabited

/-- The element types of `CVT` (R214), in the order of their codes 0 to 11. -/
inductive Ty where
  | f64 | f32 | bf16 | f16 | e4m3 | e5m2 | e2m1 | i8 | ui8 | i4 | i32 | ui32
deriving DecidableEq, Repr, Inhabited

/-- The overflow modifier of `CVT` (R36, R214). -/
inductive CvtSat where
  | none | sat | nsat
deriving DecidableEq, Repr, Inhabited

/-- The block formats of `QBLK` (R215), in the order of their codes 0 to 5. -/
inductive BFmt where
  | q4x | e2m1 | int4 | e4m3 | e5m2 | int8
deriving DecidableEq, Repr, Inhabited

/-- Subword widths of `PACK` and `UNPK` (R218). -/
inductive SubW where
  | nib | byte | half
deriving DecidableEq, Repr, Inhabited

/-- Modes of `SHFL` (R220). -/
inductive ShflMode where
  | pick | sh | rot | xsw
deriving DecidableEq, Repr, Inhabited

/-- Kinds of `VOTE`, with the test of `.level` (R221). -/
inductive VoteKind where
  | mask | count | first | some | every | same
deriving DecidableEq, Repr, Inhabited

/-- Operations of `LRED` and `LSCAN` (R222), in the order of their codes 0 to 10. -/
inductive RedOp where
  | iadd | imin | imax | umin | umax | and | or | xor | fadd | fmin | fmax
deriving DecidableEq, Repr, Inhabited

/-- Modes of `MATCH` (R223). -/
inductive MatchMode where
  | peers | leader | rank | unan
deriving DecidableEq, Repr, Inhabited

/-- Modes of `ELECT` (R225). -/
inductive ElectMode where
  | lo | hi | rr
deriving DecidableEq, Repr, Inhabited

/-- Load sizes of R263, codes 0 to 6. -/
inductive LdSize where
  | u8 | s8 | u16 | s16 | b32 | b64 | b128
deriving DecidableEq, Repr, Inhabited

/-- Store sizes of R263. -/
inductive StSize where
  | b8 | b16 | b32 | b64 | b128
deriving DecidableEq, Repr, Inhabited

/-- Scopes of R397, codes 1 to 6. -/
inductive Scope where
  | wrp | blk | clu | flr | grd | sys
deriving DecidableEq, Repr, Inhabited

/-- Orders of an atomic (R276). -/
inductive AOrder where
  | relaxed | acq | rel | acqrel
deriving DecidableEq, Repr, Inhabited

/-- Atomic operations of R275, codes 0 to 10. -/
inductive AtomOp where
  | add | fadd | smin | umin | smax | umax | and | or | xor | exch | inc
deriving DecidableEq, Repr, Inhabited

/-- The typed buffers a thread can name (R271). -/
inductive Buf where
  | abuf | cbuf
deriving DecidableEq, Repr, Inhabited

/-- The space of an `ATOMC` (R281). -/
inductive ASpace where
  | global | abuf | cbuf
deriving DecidableEq, Repr, Inhabited

/-- Cache levels of `PREF` (R283). -/
inductive PrefLevel where
  | l1 | l2 | vat
deriving DecidableEq, Repr, Inhabited

/-- Line operations of `CCTL` with an address (R284). -/
inductive CctlOp where
  | il1 | wb | wbi
deriving DecidableEq, Repr, Inhabited

/-- A count given in a register or in imm20 (R318, R405). -/
inductive CountArg where
  | reg (op : Operand)
  | imm (n : BitVec 20)
deriving DecidableEq, Repr, Inhabited

/-- The value of `TLWAIT` (R321): an even s or w pair, or a 17-bit immediate. -/
inductive TlArg where
  | reg (op : Operand)
  | imm (n : BitVec 17)
deriving DecidableEq, Repr, Inhabited

/-- Barrier scopes of R400. -/
inductive BarScope where
  | wrp | blk | clu | flr | grd
deriving DecidableEq, Repr, Inhabited

/-- A barrier name: a scope and an index (R387, R400). -/
structure Bar where
  scope : BarScope
  idx : Fin 16
deriving DecidableEq, Repr, Inhabited

/-- Order of a `FENCE` (R403). -/
inductive FenceOrd where
  | acq | rel | both
deriving DecidableEq, Repr, Inhabited

/-- Distributions of `NOISE` (R439). -/
inductive NoiseKind where
  | uni | gum | nrm
deriving DecidableEq, Repr, Inhabited

/-- The score adjustment of `NORMB` (R354). -/
inductive NormKind where
  | plain | int | rs
deriving DecidableEq, Repr, Inhabited

/-- A host access over the GNL (R491): a register page write or read, a device page write, or a memory window write or read. -/
inductive HostAcc where
  | pageWrite (ctx : Fin 64) (off : BitVec 12) (secure : Bool) (data : BitVec 64)
  | pageRead (ctx : Fin 64) (off : BitVec 12)
  | gnlstRead
  | vectorRead (n : Fin 72)
  | vectorWrite (n : Fin 72) (addr : BitVec 64) (data : BitVec 32)
  | reportRead
  | nonceWrite (n : BitVec 256)
  | memWrite (pa : Nat) (secure : Bool) (bytes : List Byte)
  | memRead (pa : Nat) (len : Nat) (secure : Bool)
  /-- The host writes its own memory, at an address as the device sees it. -/
  | ownWrite (pa : Nat) (bytes : List Byte)
deriving DecidableEq, Repr, Inhabited

/-- The configuration that the body of the signed image carries (R488, R489); `records` are the reserved areas of chunk records
(R257): a range of memory by base and size, and where the records of its chunks lie; `remaps` are the spare rows that stand in for
disabled rows of the arrays (R55): the core, the row and the spare; `predKeys` are the predicate signing keys, by their hashes. -/
structure ImageCfg where
  fabid : BitVec 12
  vatcfg : Vector (BitVec 8) 4
  srb : List (Nat × Nat × Word × Word)
  harvest : List (Nat × Nat)
  records : List (Nat × Nat × Nat)
  remaps : List (Nat × Nat × Nat)
  predKeys : List (BitVec 256)
deriving DecidableEq, Repr, Inhabited

/-- What the control core answers for a predicate (R78, R79): its verdict word, or a fault or overrun. -/
inductive Verdict where
  | word (w : Word)
  | fault
deriving DecidableEq, Repr, Inhabited

/-- A fabric message that another device sends here (R427, R429). -/
structure RemoteMsg where
  world : Bool
  addr : Word
  doff : BitVec 32
  ctr : Fin 16
  bytes : List Byte
deriving DecidableEq, Repr, Inhabited

/-- One constructor per row of spec/opcode_table.json. -/
inductive Instr where
  -- family 000: integer and logic (R195-R204)
  | iadd (g : Guard) (d : Dst) (a b : Src) (md : IntMode)
  | iaddI (g : Guard) (d a : Operand) (i : Word)
  | isub (g : Guard) (d : Dst) (a b : Src) (md : IntMode)
  | isubI (g : Guard) (d a : Operand) (i : Word)
  | imul (g : Guard) (d : Dst) (a b : Src) (md : IntMode)
  | imulI (g : Guard) (d a : Operand) (i : Word)
  | imulh (g : Guard) (d : Dst) (a b : Src) (u : Bool)
  | imad (g : Guard) (d : Dst) (a b c : Src) (md : IntMode)
  | idiv (g : Guard) (d : Dst) (a b : Src) (u : Bool)
  | irem (g : Guard) (d : Dst) (a b : Src) (u : Bool)
  | imin (g : Guard) (d : Dst) (a b : Src) (u : Bool)
  | imax (g : Guard) (d : Dst) (a b : Src) (u : Bool)
  | iabs (g : Guard) (d : Dst) (a : Src) (sat : Bool)
  | iset (g : Guard) (d : Dst) (a b : Src) (c : Cmp) (u : Bool)
  | lea (g : Guard) (d : Dst) (a b : Src) (sh : Fin 32)
  | and (g : Guard) (d : Dst) (a b : Src)
  | andI (g : Guard) (d a : Operand) (i : Word)
  | or (g : Guard) (d : Dst) (a b : Src)
  | orI (g : Guard) (d a : Operand) (i : Word)
  | xor (g : Guard) (d : Dst) (a b : Src)
  | xorI (g : Guard) (d a : Operand) (i : Word)
  | andn (g : Guard) (d : Dst) (a b : Src)
  | andnI (g : Guard) (d a : Operand) (i : Word)
  | lop3 (g : Guard) (d : Dst) (a b c : Src) (g0 g1 : BitVec 4)
  | shl (g : Guard) (d : Dst) (a b : Src)
  | shlI (g : Guard) (d a : Operand) (i : Word)
  | shr (g : Guard) (d : Dst) (a b : Src)
  | shrI (g : Guard) (d a : Operand) (i : Word)
  | sar (g : Guard) (d : Dst) (a b : Src)
  | sarI (g : Guard) (d a : Operand) (i : Word)
  | rot (g : Guard) (d : Dst) (a b : Src) (r : Bool)
  | rotI (g : Guard) (d a : Operand) (i : Word)
  | bfx (g : Guard) (d : Dst) (a f : Src) (sg : Bool)
  | bfi (g : Guard) (d : Dst) (a b f : Src)
  | popc (g : Guard) (d : Dst) (a : Src)
  | clz (g : Guard) (d : Dst) (a : Src)
  | brev (g : Guard) (d : Dst) (a : Src)
  -- family 001: FP32 (R205-R210)
  | fadd (g : Guard) (d : Dst) (a b : Src) (rm : Rm) (md : FMods)
  | faddI (g : Guard) (d a : Operand) (i : Word)
  | fmul (g : Guard) (d : Dst) (a b : Src) (rm : Rm) (md : FMods)
  | fmulI (g : Guard) (d a : Operand) (i : Word)
  | ffma (g : Guard) (d : Dst) (a b c : Src) (rm : Rm) (md : FMods)
  | fmin (g : Guard) (d : Dst) (a b : Src) (md : FMods)
  | fmax (g : Guard) (d : Dst) (a b : Src) (md : FMods)
  | fset (g : Guard) (d : Dst) (a b : Src) (c : Cmp) (md : FMods)
  | frcp (g : Guard) (d : Dst) (a : Src)
  | frsq (g : Guard) (d : Dst) (a : Src)
  | fsqrt (g : Guard) (d : Dst) (a : Src) (rm : Rm)
  | fexp2 (g : Guard) (d : Dst) (a : Src)
  | flog2 (g : Guard) (d : Dst) (a : Src)
  | fsin (g : Guard) (d : Dst) (a : Src)
  | fcos (g : Guard) (d : Dst) (a : Src)
  | ftanh (g : Guard) (d : Dst) (a : Src)
  | fclass (g : Guard) (d : Dst) (a : Src) (mask : Option Src)
  -- family 010: FP64, packed and conversion (R211-R218)
  | dadd (g : Guard) (d : Dst) (a b : Src) (rm : Rm) (md : FMods)
  | dmul (g : Guard) (d : Dst) (a b : Src) (rm : Rm) (md : FMods)
  | dfma (g : Guard) (d : Dst) (a b c : Src) (rm : Rm) (md : FMods)
  | dmin (g : Guard) (d : Dst) (a b : Src) (md : FMods)
  | dmax (g : Guard) (d : Dst) (a b : Src) (md : FMods)
  | dset (g : Guard) (d : Dst) (a b : Src) (c : Cmp) (md : FMods)
  | hadd2 (g : Guard) (d : Dst) (a b : Src) (md : HMods)
  | hmul2 (g : Guard) (d : Dst) (a b : Src) (md : HMods)
  | hfma2 (g : Guard) (d : Dst) (a b c : Src) (md : HMods)
  | idot4 (g : Guard) (d : Dst) (a b c : Src) (sat ua ub : Bool)
  | idot8 (g : Guard) (d : Dst) (a b c : Src) (sat ua ub : Bool)
  | cvt (g : Guard) (d : Dst) (a : Src) (dt st : Ty) (rm : Rm) (ov : CvtSat) (el : Fin 8)
  | qblk (g : Guard) (d : Dst) (a b c : Src) (fmt : BFmt) (rm : Rm)
  | dqblk (g : Guard) (d : Dst) (a : Src) (hi : Bool) (rm : Rm) (strict : Bool)
  | pack (g : Guard) (d : Dst) (a b : Src) (w : SubW) (n : Fin 8) (md : IntMode)
  | unpk (g : Guard) (d : Dst) (a : Src) (w : SubW) (n : Fin 8) (sg : Bool)
  -- family 011: moves and lane operations
  | mov (g : Guard) (d : Dst) (a : Src)
  | movi (g : Guard) (d : Operand) (i : Word)
  | movx (g : Guard) (d : Dst) (x : Fin 8) (o : Fin 128) (inc : Bool)
  | movxw (g : Guard) (x : Fin 8) (o : Fin 128) (a : Src) (cc : Fin 8) (inc : Bool)
  | setx (g : Guard) (x : Fin 8) (a b c : Src)
  | setxCur (g : Guard) (x : Fin 8) (a : Src)
  | setxAdd (g : Guard) (x : Fin 8) (a : Src)
  | sel (g : Guard) (d : Dst) (a b c : Src)
  | plop3 (g : Guard) (d : Operand) (a b c : Src) (g0 g1 : BitVec 4)
  | pmovGet (g : Guard) (d : Dst)
  | pmovSet (g : Guard) (a mask : Src)
  | killv (g : Guard) (a b c : Operand)
  | rdsr (g : Guard) (d : Operand) (num : BitVec 12) (wide : Bool)
  | wrsr (g : Guard) (a : Operand) (num : BitVec 12)
  | nop (g : Guard)
  | shfl (g : Guard) (d : Dst) (a b c : Src) (md : ShflMode) (lgw : Fin 6)
  | vote (g : Guard) (d : Dst) (a : Src) (kd : VoteKind)
  | lred (g : Guard) (d : Dst) (a : Src) (op : RedOp) (rm : Rm)
  | lscan (g : Guard) (d : Dst) (a : Src) (op : RedOp) (excl : Bool) (rm : Rm)
  | matchL (g : Guard) (d : Dst) (a : Src) (md : MatchMode)
  | rdlane (g : Guard) (d : Dst) (a b : Src)
  | elect (g : Guard) (d : Dst) (md : ElectMode)
  -- family 100: memory (R261-R289)
  | ld (g : Guard) (d : Dst) (sz : LdSize) (acq : Option Scope) (base : Operand) (off : BitVec 20)
  | lds (g : Guard) (d : Operand) (sz : LdSize) (acq : Option Scope) (base : Operand) (off : BitVec 20)
  | ldc (g : Guard) (d : Dst) (sz : LdSize) (base : Src) (off : BitVec 20)
  | st (g : Guard) (a : Src) (sz : StSize) (rel : Option Scope) (base : Operand) (off : BitVec 20)
  | stnt (g : Guard) (a : Src) (sz : StSize) (base : Operand) (off : BitVec 20)
  | drainnt (g : Guard)
  | ldb (g : Guard) (d : Dst) (sz : LdSize) (buf : Buf) (base : Src) (off : BitVec 20)
  | stb (g : Guard) (a : Src) (sz : StSize) (buf : Buf) (base : Src) (off : BitVec 20)
  | ldbq (g : Guard) (d : Dst) (c8 hi strict abuf : Bool) (rm : Rm) (base : Src) (off : BitVec 20)
  | atom (g : Guard) (d : Dst) (hold : Bool) (op : AtomOp) (sc : Scope) (od : AOrder) (base : Operand) (off : BitVec 16)
  | atomc (g : Guard) (d : Dst) (a cmp x : Src) (sc : Scope) (od : AOrder) (sp : ASpace)
  | red (g : Guard) (a : Src) (op : AtomOp) (sc : Scope) (rel : Bool) (base : Operand) (off : BitVec 16)
  | batom (g : Guard) (d : Dst) (hold : Bool) (op : AtomOp) (sc : Scope) (od : AOrder) (buf : Buf) (base : Src) (off : BitVec 16)
  | pref (g : Guard) (lv : PrefLevel) (base : Operand) (off : BitVec 20)
  | cctl (g : Guard) (op : CctlOp) (base : Operand) (off : BitVec 20)
  | cctlIl1all (g : Guard)
  | stream (g : Guard) (z : Fin 8) (desc : Operand) (pd : Vector (BitVec 3) 4)
  | strmq (g : Guard) (d : Operand) (z : Fin 8)
  | strmend (g : Guard) (z : Fin 8)
  -- family 101: engines, winner lists, attention
  | cekick (g : Guard) (d off : Operand) (count : CountArg)
  | arrset (g : Guard) (c : Fin 16) (a : Operand) (add : Bool)
  | arrwait (g : Guard) (mask : BitVec 16)
  | arrtest (g : Guard) (d : Operand) (mask : BitVec 16)
  | tlrd (g : Guard) (d : Operand) (tl : Fin 5) (enq : Bool)
  | tlwait (g : Guard) (tl : Fin 5) (val : TlArg)
  | lstat (g : Guard) (woff gen fmt : Operand)
  | swap (g : Guard)
  | tenq (g : Guard) (d off : Operand) (high : Bool)
  | tqrd (g : Guard) (d : Operand) (sel : Fin 4) (clr : Bool)
  | wlinit (g : Guard) (k : Fin 8) (off : Operand) (kw : BitVec 6) (f32 : Bool) (rowsM1 : BitVec 13)
  | wlinitReg (g : Guard) (k : Fin 8) (off : Operand) (kw : BitVec 6) (f32 : Bool) (rows : Operand)
  | wlthr (g : Guard) (k : Fin 8) (row val : Operand) (max : Bool)
  | wlthrClr (g : Guard) (k : Fin 8) (row : Operand)
  | wlrd (g : Guard) (d : Operand) (k : Fin 8) (row : Operand) (e : Fin 32) (lane : Bool)
  | wlrdt (g : Guard) (d : Operand) (k : Fin 8) (row : Operand) (seed : Bool)
  | wlmrg (g : Guard) (kd ks : Fin 8) (row : Operand) (soff : BitVec 13)
  | wlclr (g : Guard) (k : Fin 8) (row : Option Operand) (seed : Bool)
  | normb (g : Guard) (d : Dst) (a b : Src) (kd : NormKind)
  | attn (g : Guard) (d off : Operand)
  | rotq (g : Guard) (d : Dst) (a b : Src) (sin : Bool)
  | kvslab (g : Guard) (n : Fin 8) (off : Operand)
  | kvslabLen (g : Guard) (n : Fin 8) (len : Operand)
  | kvslabRd (g : Guard) (d : Operand) (n : Fin 8)
  | kvgrow (g : Guard) (d : Operand) (n : Fin 8) (base off : Operand) (fw : Fin 4) (c : Fin 16)
  | smerge (g : Guard) (d a : Operand) (rowsM1 : BitVec 7) (hd : Bool)
  | smergeFin (g : Guard) (d : Operand) (rowsM1 : BitVec 7) (hd : Bool) (rm : Rm)
  | splice (g : Guard) (n e : Fin 8) (first delta : Operand)
  | spliceFix (g : Guard) (n e : Fin 8)
  | spliceClr (g : Guard) (n e : Fin 8)
  -- family 110: synchronisation and fabric
  | bar (g : Guard) (b : Bar)
  | bara (g : Guard) (b : Bar)
  | barw (g : Guard) (b : Bar)
  | barq (g : Guard) (d : Operand) (b : Bar)
  | fence (g : Guard) (od : FenceOrd) (sc : Scope)
  | cljoin (g : Guard) (d : Operand) (set : Fin 8)
  | clleave (g : Guard)
  | sleep (g : Guard) (n : BitVec 20)
  | sleepReg (g : Guard) (a : Operand)
  | fmsg (g : Guard) (addr soff doff : Operand) (lenM1 : BitVec 8) (c : Fin 16)
  | fpoll (g : Guard) (d : Operand) (c : Fin 16) (clr : Bool)
  | fpollBind (g : Guard) (e : Operand)
  | fpollUnbind (g : Guard)
  | coll (g : Guard) (d off : Operand)
  | noise (g : Guard) (d : Dst) (key step idx : Src) (kd : NoiseKind)
  | cbpost (g : Guard) (pred off : Operand) (c : Fin 16) (budget : BitVec 16)
  -- family 111: control and system
  | bra (g : Guard) (target : Word)
  | brx (g : Guard) (a : Operand)
  | ret (g : Guard) (a : Operand)
  | call (g : Guard) (link : Operand) (target : Word)
  | callIndirect (g : Guard) (link : Operand) (a : Operand)
  | exit (g : Guard)
  | meld (g : Guard) (p : Fin 8) (t : Bool)
  | melde (g : Guard)
  | rnset (g : Guard) (t path : Bool) (first : Fin 16) (va : Fin 256) (vb vc : Option (Fin 256))
  | rnsetClr (g : Guard) (t : Bool)
  | serb (g : Guard) (e : BitVec 20)
  | sere (g : Guard)
  | refill (g : Guard) (p : Fin 8)
  | yield (g : Guard)
  | nopre (g : Guard)
  | preok (g : Guard)
  | brk (g : Guard) (code : BitVec 20)
  | trap (g : Guard) (code : BitVec 20)
  | trapret (g : Guard) (skip : Bool)
  | tlbir (g : Guard) (base len : Operand) (asid : Option Operand)
  | tlback (g : Guard)
  | errq (g : Guard) (d : Operand) (peek : Bool)
  | errqLog (g : Guard) (d : Operand) (peek : Bool)
  | bblog (g : Guard) (code : BitVec 6) (a : Operand)
  -- queue entries and the life of a launch
  | entryNop (die : Fin 4)
  | entryLaunch (die : Fin 4)
  | entryGraph (die : Fin 4)
  | entryWait (die : Fin 4)
  | entrySignal (die : Fin 4)
  | launchCompletion (uid : Nat)
  | launchFailure (uid : Nat)
  | launchReplay (uid : Nat)
  -- resident task graphs
  | kernelNode (die : Fin 4) (gr node : Nat)
  | copyNode (die : Fin 4) (gr node : Nat)
  | condNode (die : Fin 4) (gr node : Nat)
  | whileNode (die : Fin 4) (gr node : Nat)
  | waitmsgNode (die : Fin 4) (gr node : Nat)
  | signalNode (die : Fin 4) (gr node : Nat)
  | callbackNode (die : Fin 4) (gr node : Nat)
  | graphFailure (die : Fin 4) (gr : Nat)
  -- placement, gangs, pre-emption, in-field test
  | placement (die : Fin 4)
  | gangAdmission (ctx : Fin 64) (gang : Fin 4)
  | gangArmed (ctx : Fin 64) (gang : Fin 4)
  | save (uid : Nat)
  | flush (uid : Nat)
  | resume (uid : Nat)
  | nonPreemptibleOverrun (uid warp : Nat)
  | inFieldTest (die : Fin 4) (cluster : Fin 12)
  -- selection, time, strikes
  | selection (core : Nat) (sub : Fin 4)
  | sleepEnd (uid warp split : Nat)
  -- copy engine
  | copy (core : Nat)
  | copy2d (core : Nat)
  | gather (core : Nat)
  | scatter (core : Nat)
  | fill (core : Nat)
  | decode (core : Nat)
  | compact (core : Nat)
  | relocate (core : Nat)
  | pagein (core : Nat)
  | requestRetirement (core : Nat) (op : Nat)
  -- tile tasks, planes, attention
  | dispatchPoint (die : Fin 4) (cluster : Fin 12)
  | mma (core : Nat)
  | mtopk (core : Nat)
  | raggedMma (core : Nat)
  | taskCommit (core : Nat)
  | swapTakesEffect (core : Nat)
  | planeLoadEnd (core : Nat)
  | narrowMode (core : Nat)
  | attentionTask (core : Nat)
  | attentionCommit (core : Nat)
  -- collectives and fabric
  | collSum (tag seq : Word)
  | collMax (tag seq : Word)
  | collMin (tag seq : Word)
  | collWlmerge (tag seq : Word)
  | collArgmax (tag seq : Word)
  | collAccept (tag seq : Word)
  | messageDelivery (die : Fin 4) (remote : Option RemoteMsg)
  | acknowledge (msg : Nat)
  | tlbAcknowledge (op : Nat) (holder : Nat)
  | leaveAcknowledge (uid : Nat)
  -- the package
  | memoryOperationCompletion (uid warp op : Nat)
  | fshareOperationEnd (die : Fin 4)
  | predicateBudgetOverrun (die : Fin 4)
  | clusterTestPass (die : Fin 4) (cluster : Fin 12)
  | preEmptionRequest (uid : Nat) (bound : Nat) (saveOnly : Bool)
  -- steps from outside the device, and steps that decide nothing by themselves
  | controlWordWrite (ctx : Fin 64) (secure : Bool) (v : DWord)
  | doorbell (ctx : Fin 64) (q : Fin 8) (tail : Word)
  | skip (ctx : Fin 64) (q : Fin 8)
  | timelineValueWrite (ctx : Fin 64) (n : Fin 16) (v : DWord)
  | arm (ctx : Fin 64) (gang : Fin 4)
  | release (ctx : Fin 64) (gang : Fin 4)
  | fshareHi (die : Fin 4) (secure : Bool) (v : Word)
  | ovfadd (die : Fin 4) (secure : Bool) (v : Word)
  | fqrespRetry (die : Fin 4) (slot : Fin 64)
  | fqrespDeliver (die : Fin 4) (slot : Fin 64)
  | fqrespFail (die : Fin 4) (slot : Fin 64)
  | recover (secure : Bool)
  | registerWrite (die : Fin 4) (num : BitVec 12) (secure : Bool) (v : DWord)
  | callbackVerdict (die : Fin 4) (v : Verdict)
  | clusterTestFailure (die : Fin 4) (cluster : Fin 12)
  | strike (die : Fin 4) (core : Option (Fin 48)) (cluster : Fin 12)
  | shadowMismatch (uid warp : Nat)
  | postVerdict (die : Fin 4) (v : Verdict)
  | powerAlarmRise (die : Fin 4) (temp : List (BitVec 16)) (vmon : List (BitVec 16)) (board : Bool)
  | powerAlarmFall (die : Fin 4) (temp : List (BitVec 16)) (vmon : List (BitVec 16)) (board : Bool)
  | thermalShutdown (die : Fin 4) (cluster : Fin 12) (temp : BitVec 16)
  | boot (image : List Byte)
  | gnlActive (lanes : BitVec 6)
  | gnlWakeN (cycles : Nat)
  | hostAccess (a : HostAcc)
  | portDown (p : Fin 12)
  | epochBoundary
  | raceCheckAtHome
  | gnlTrain
  | gnlRetrain
  | gnlDown
  | storePerformedAtHome
  | mainPowerLoss
deriving DecidableEq, Repr, Inhabited

end Sys2Proof
end

