-- ==== Sys2Proof/Config.lean ====
section
/-!
DEFINITION. What the spec leaves open and one implementation fixes. Every constant here is opaque: nothing in Lean can
evaluate it or prove a value of it, so a statement holds whatever the constant is. The log entries name each one.
-/

namespace Sys2Proof.Config

/-- Free natural numbers: delays, choices (R497, log 8). -/
opaque freeNat : Nat → Nat

/-- What the world outside the device does next, if anything (log 2): a host write, a strike, an answer of the control
core's firmware. Only a step that comes from outside is taken from it. -/
opaque outside : Nat → Option Instr

/-- Free choices between two outcomes that the spec allows (R413, R418, log 21). -/
opaque freeBool : Nat → Bool

/-- Free choices that differ from place to place of one access: a byte address or a line number, at one count (log 21). -/
opaque freeAt : Nat → Nat → Bool

/-- What a register name that holds no value reads as for a lane that takes no fault for it (log 25). -/
opaque deadWord : Nat → Word

/-- Free 64-bit words (log 22). -/
opaque freeWord : Nat → DWord

/-- The identity key of the part, the same on every boot: its RSA-3072 modulus and its private exponent; and the salt of a
signature (R489, log 22). -/
opaque identityModulus : Nat
opaque identityExponent : Nat
opaque pssSalt : Nat → BitVec 256

/-- The hash of the image's key that the ROM holds, and the configuration that a body of an image holds, whose layout no rule
gives (R488, log 165). -/
opaque romKeyHash : BitVec 256
opaque imageBody : List Byte → ImageCfg

/-- New readings of a die's temperatures, voltages and oscillators and of its board input, if there are any (R485, log 22). -/
opaque reading : Nat → Option (Nat × List (BitVec 16) × List (BitVec 16) × BitVec 16 × Bool)

/-- Which of the two bracketing FP32 values FRCP and FRSQ return (R209, log 20); the same on every part (R193). -/
opaque faithfulUp : Nat → Word → Bool

/-- A result of the approximated FP32 functions, which is what they return where it lies within the bound (R209, log 20): a
function of which function it is and of its operand, because every part returns the same bits (R193). -/
opaque approxWord : Nat → Word → Word

/-- The same for the rotary generator (R361, log 20): a function of sine or cosine, the position and the frequency. -/
opaque rotaryWord : Bool → Nat → Word → Word

/-- The compressed form of a 32-byte sector, and what a compressed form stands for (R256, log 23): the method is internal. -/
opaque packed : List Byte → List Byte
opaque unpacked : List Byte → List Byte

/-- The errors that DRAM shows next, if any (R259, log 149): a sector, and in the bytes of its codeword what is flipped. -/
opaque dramError : Nat → Option (Nat × List (Nat × Byte))

/-- A sector of tier 1 that a CXL device reports as poisoned next, if any (R495, log 149). -/
opaque cxlPoison : Nat → Option Nat

/-- A frame that system software gives to the snapshot pool next, if any (R81, log 88): its base, and the base-2 logarithm of
its size. -/
opaque snapFrame : Nat → Option (Nat × Nat)

/-- The kind byte that records why a predicate counts as STOP (R79, log 150): 0 it faulted, 1 it overran, 2 none is registered,
3 it returned an undefined code. -/
opaque stopCause : Nat → Nat

/-- The key with which the predicate under a handle is signed, by its hash, if system software has registered one there (R77, R488,
log 24). -/
opaque predSigner : Nat → Option (BitVec 256)

/-- What a participant of another device contributes to a collective instance, by position, and whether its table and
parameters agree (R434, log 47). -/
opaque remotePart : Nat → Nat → List Byte
opaque remoteAgrees : Nat → Nat → Bool

/-- Byte `i` of a record of a save area with some contents (R461, log 89): the layout inside a record is not stated. -/
opaque recordByte : List Nat → Nat → Byte

/-- A value that no rule states and that all participants of an instance receive alike (R441, log 48). -/
opaque instWord : Nat → Word

end Sys2Proof.Config
end

