-- ==== Sys2Proof/WellFormed.lean ====
section
/-!
DEFINITION. Which operands, holds, counts and modifiers an instruction may carry (R124, R130, R131, R190, R191, R261-R263
and each entry). A use outside is no instruction: its words raise an illegal-instruction fault (R134), so the decoder
refuses them. Conditions that depend on the clause or on run-time state (R135) are checked when the instruction issues.
-/

namespace Sys2Proof

namespace Operand

/-- A v register or an m name: the destinations whose slots carry a consumer count (R130, R146). -/
def counted : Operand → Bool
  | .v _ => true
  | .m _ => true
  | _ => false

/-- R190: v, s, w, p0-p6, m or zero. -/
def dst : Operand → Bool
  | .v _ | .s _ | .w _ | .m _ | .zero => true
  | .p n => n.val != 7
  | _ => false

/-- R190: v, s, w, x, z, p, L, m, zero or a small immediate. -/
def src : Operand → Bool
  | .k _ => false
  | _ => true

/-- v, s or w. -/
def vsw : Operand → Bool
  | .v _ | .s _ | .w _ => true
  | _ => false

/-- An optional v, s or w destination; zero stands for the omitted field. -/
def vswOpt (o : Operand) : Bool := o.vsw || o == .zero

/-- The register index is a multiple of `n`, for v, s and w names. -/
def aligned (n : Nat) : Operand → Bool
  | .v i => i.val % n == 0
  | .s i => i.val % n == 0
  | .w i => i.val % n == 0
  | _ => false

/-- R191 pair source: even v, s or w, zero or a small immediate. -/
def pairSrc : Operand → Bool
  | .zero | .imm _ => true
  | o => o.aligned 2

/-- R191 pair destination: even v, s or w, or zero. -/
def pairDst (o : Operand) : Bool := o == .zero || o.aligned 2

/-- R261: the base of a global address. -/
def gbase (o : Operand) : Bool := o == .zero || o.aligned 2

/-- R262: the base of a buffer or constant-bank address. -/
def bbase : Operand → Bool
  | .v _ | .s _ | .w _ | .m _ | .lat _ | .imm _ | .zero => true
  | _ => false

/-- A uniform operand (R158, log 9): v, s, w, zero or a small immediate. -/
def uni : Operand → Bool
  | .v _ | .s _ | .w _ | .zero | .imm _ => true
  | _ => false

/-- A row operand (R348): v, s, w, x, L, zero or a small immediate. -/
def row : Operand → Bool
  | .v _ | .s _ | .w _ | .x _ | .lat _ | .zero | .imm _ => true
  | _ => false

/-- v, s, w or L: an indirect code offset (R180, R181). -/
def codeOff : Operand → Bool
  | .v _ | .s _ | .w _ | .lat _ => true
  | _ => false

/-- An even s or w pair (R321, R381, R448, R471). -/
def swPair : Operand → Bool
  | .s n => n.val % 2 == 0
  | .w n => n.val % 2 == 0
  | _ => false

/-- p0 to p7 as data. -/
def pred : Operand → Bool
  | .p _ => true
  | _ => false

/-- p0 to p6 as a destination. -/
def predDst : Operand → Bool
  | .p n => n.val != 7
  | _ => false

/-- A store's or a RED's data of up to four bytes (R273, R280). -/
def data : Operand → Bool
  | .v _ | .s _ | .w _ | .lat _ | .m _ | .zero | .imm _ => true
  | _ => false

/-- A source of `SETX`: v, s, w, L, zero or a small immediate (its entry and its example). -/
def setxSrc : Operand → Bool
  | .v _ | .s _ | .w _ | .lat _ | .zero | .imm _ => true
  | _ => false

/-- The value operand of `WLTHR` (R350): v, s, w, L, zero or a small immediate. -/
def wlVal : Operand → Bool
  | .v _ | .s _ | .w _ | .lat _ | .zero | .imm _ => true
  | _ => false

/-- The destination of `LDC` (R270): v, s, w, m or zero. -/
def ldcDst : Operand → Bool
  | .v _ | .s _ | .w _ | .m _ | .zero => true
  | _ => false

/-- The link of a call (R181): v or s. -/
def linkDst : Operand → Bool
  | .v _ | .s _ => true
  | _ => false

/-- A v register or an m name. -/
def vm : Operand → Bool := counted

/-- v, m or zero. -/
def vmz (o : Operand) : Bool := o.counted || o == .zero

end Operand

/-- R130: a hold bit is 0 for an immediate, zero or a latch. -/
def Src.holdOk (a : Src) : Bool :=
  !a.hold || (match a.op with | .zero | .imm _ | .lat _ => false | _ => true)

/-- A source of the classes of R190. -/
def Src.wf (a : Src) : Bool := a.op.src && a.holdOk

/-- R191: a pair source, whose hold bit must be 0. -/
def Src.wfPair (a : Src) : Bool := a.op.pairSrc && !a.hold

/-- R130: the consumer count is 0 unless the destination is a v register or an m name. -/
def Dst.ccOk (d : Dst) : Bool := d.op.counted || d.cc == 0

/-- A destination of the classes of R190. -/
def Dst.wf (d : Dst) : Bool := d.op.dst && d.ccOk

/-- R191: a pair destination. -/
def Dst.wfPair (d : Dst) : Bool := d.op.pairDst && d.ccOk

/-- R124: the guards !p6 and !p7 cannot be expressed. -/
def Guard.wf : Guard → Bool
  | .pred neg p => !(neg && decide (6 ≤ p.val))
  | .path _ => true

/-- The guard that is always true, 0b0111 (R124). -/
def Guard.always : Guard := .pred false 7

/-- No sign modifier of operand c, and none of the absolute values (R205, R211). -/
def FMods.noC (m : FMods) : Bool := !m.nc

/-- R211: FP64 has no absolute-value modifiers. -/
def FMods.noAbs (m : FMods) : Bool := !m.aa && !m.ab

/-- Bytes of a load size (R263). -/
def LdSize.bytes : LdSize → Nat
  | .u8 | .s8 => 1
  | .u16 | .s16 => 2
  | .b32 => 4
  | .b64 => 8
  | .b128 => 16

/-- Bytes of a store size (R263). -/
def StSize.bytes : StSize → Nat
  | .b8 => 1
  | .b16 => 2
  | .b32 => 4
  | .b64 => 8
  | .b128 => 16

/-- Registers of a data group of `n` bytes (R263). -/
def groupRegs (n : Nat) : Nat := if n ≤ 4 then 1 else n / 4

/-- R263: a register group of `n` bytes: zero, or a v, s or w register whose index is a multiple of the group's size. -/
def Operand.group (o : Operand) (n : Nat) : Bool := o == .zero || o.aligned (groupRegs n)

/-- R263, R270: the destination of a load of `n` bytes whose class is `cls`. -/
def Dst.ldOk (d : Dst) (n : Nat) (cls : Operand → Bool) : Bool :=
  d.ccOk && cls d.op && (decide (n ≤ 4) || d.op.group n)

/-- R263, R273: the data of a store of `n` bytes. -/
def Src.stOk (a : Src) (n : Nat) : Bool :=
  if n ≤ 4 then a.op.data && a.holdOk else a.op.group n && !a.hold

/-- R262: the base of a buffer address, whose hold bit may be set for v, s, w and m. -/
def Src.bbaseOk (a : Src) : Bool := a.op.bbase && a.holdOk

/-- R214: bits of an element type. -/
def Ty.width : Ty → Nat
  | .f64 => 64
  | .f32 | .i32 | .ui32 => 32
  | .bf16 | .f16 => 16
  | .e4m3 | .e5m2 | .i8 | .ui8 => 8
  | .e2m1 | .i4 => 4

/-- R214: which element index a source type admits. -/
def Ty.elOk (t : Ty) (el : Fin 8) : Bool := el == 0 || (decide (t.width < 32) && decide (el.val < 32 / t.width))

/-- R218: bits of a subword. -/
def SubW.bits : SubW → Nat
  | .nib => 4
  | .byte => 8
  | .half => 16

/-- R387, R400: barriers per group of a scope. -/
def BarScope.count : BarScope → Nat
  | .wrp => 4
  | .blk => 16
  | .clu => 8
  | .flr => 4
  | .grd => 2

/-- R400: the index lies below the per-group count. -/
def Bar.wf (b : Bar) : Bool := decide (b.idx.val < b.scope.count)

/-- The operand conditions of every instruction that a word can encode. The steps of the other agents carry no operand
that a word could spell wrongly. -/
def Instr.wf : Instr → Bool
  | .iadd g d a b _ => g.wf && d.wf && a.wf && b.wf
  | .iaddI g d a _ => g.wf && d.dst && a.src
  | .isub g d a b _ => g.wf && d.wf && a.wf && b.wf
  | .isubI g d a _ => g.wf && d.dst && a.src
  | .imul g d a b _ => g.wf && d.wf && a.wf && b.wf
  | .imulI g d a _ => g.wf && d.dst && a.src
  | .imulh g d a b _ => g.wf && d.wf && a.wf && b.wf
  | .imad g d a b c _ => g.wf && d.wf && a.wf && b.wf && c.wf
  | .idiv g d a b _ => g.wf && d.wf && a.wf && b.wf
  | .irem g d a b _ => g.wf && d.wf && a.wf && b.wf
  | .imin g d a b _ => g.wf && d.wf && a.wf && b.wf
  | .imax g d a b _ => g.wf && d.wf && a.wf && b.wf
  | .iabs g d a _ => g.wf && d.wf && a.wf
  | .iset g d a b c _ => g.wf && d.wf && a.wf && b.wf && c != .num && c != .nan
  | .lea g d a b _ => g.wf && d.wf && a.wf && b.wf
  | .and g d a b => g.wf && d.wf && a.wf && b.wf
  | .andI g d a _ => g.wf && d.dst && a.src
  | .or g d a b => g.wf && d.wf && a.wf && b.wf
  | .orI g d a _ => g.wf && d.dst && a.src
  | .xor g d a b => g.wf && d.wf && a.wf && b.wf
  | .xorI g d a _ => g.wf && d.dst && a.src
  | .andn g d a b => g.wf && d.wf && a.wf && b.wf
  | .andnI g d a _ => g.wf && d.dst && a.src
  | .lop3 g d a b c _ _ => g.wf && d.wf && a.wf && b.wf && c.wf
  | .shl g d a b => g.wf && d.wf && a.wf && b.wf
  | .shlI g d a _ => g.wf && d.dst && a.src
  | .shr g d a b => g.wf && d.wf && a.wf && b.wf
  | .shrI g d a _ => g.wf && d.dst && a.src
  | .sar g d a b => g.wf && d.wf && a.wf && b.wf
  | .sarI g d a _ => g.wf && d.dst && a.src
  | .rot g d a b _ => g.wf && d.wf && a.wf && b.wf
  | .rotI g d a _ => g.wf && d.dst && a.src
  | .bfx g d a f _ => g.wf && d.wf && a.wf && f.wf
  | .bfi g d a b f => g.wf && d.wf && a.wf && b.wf && f.wf
  | .popc g d a => g.wf && d.wf && a.wf
  | .clz g d a => g.wf && d.wf && a.wf
  | .brev g d a => g.wf && d.wf && a.wf
  | .fadd g d a b _ md => g.wf && d.wf && a.wf && b.wf && md.noC
  | .faddI g d a _ => g.wf && d.dst && a.src
  | .fmul g d a b _ md => g.wf && d.wf && a.wf && b.wf && md.noC
  | .fmulI g d a _ => g.wf && d.dst && a.src
  | .ffma g d a b c _ _ => g.wf && d.wf && a.wf && b.wf && c.wf
  | .fmin g d a b md => g.wf && d.wf && a.wf && b.wf && md.noC
  | .fmax g d a b md => g.wf && d.wf && a.wf && b.wf && md.noC
  | .fset g d a b _ md => g.wf && d.wf && a.wf && b.wf && md.noC
  | .frcp g d a => g.wf && d.wf && a.wf
  | .frsq g d a => g.wf && d.wf && a.wf
  | .fsqrt g d a _ => g.wf && d.wf && a.wf
  | .fexp2 g d a => g.wf && d.wf && a.wf
  | .flog2 g d a => g.wf && d.wf && a.wf
  | .fsin g d a => g.wf && d.wf && a.wf
  | .fcos g d a => g.wf && d.wf && a.wf
  | .ftanh g d a => g.wf && d.wf && a.wf
  | .fclass g d a mk => g.wf && d.wf && a.wf && mk.all Src.wf
  | .dadd g d a b _ md => g.wf && d.wfPair && a.wfPair && b.wfPair && md.noC && md.noAbs
  | .dmul g d a b _ md => g.wf && d.wfPair && a.wfPair && b.wfPair && md.noC && md.noAbs
  | .dfma g d a b c _ md => g.wf && d.wfPair && a.wfPair && b.wfPair && c.wfPair && md.noAbs
  | .dmin g d a b md => g.wf && d.wfPair && a.wfPair && b.wfPair && md.noC && md.noAbs
  | .dmax g d a b md => g.wf && d.wfPair && a.wfPair && b.wfPair && md.noC && md.noAbs
  | .dset g d a b _ md => g.wf && d.wf && a.wfPair && b.wfPair && md.noC && md.noAbs
  | .hadd2 g d a b md => g.wf && d.wf && a.wf && b.wf && !md.nc
  | .hmul2 g d a b md => g.wf && d.wf && a.wf && b.wf && !md.nc
  | .hfma2 g d a b c _ => g.wf && d.wf && a.wf && b.wf && c.wf
  | .idot4 g d a b c _ _ _ => g.wf && d.wf && a.wf && b.wf && c.wf
  | .idot8 g d a b c _ _ _ => g.wf && d.wf && a.wf && b.wf && c.wf
  | .cvt g d a dty sty _ ov el =>
    g.wf && (if dty = .f64 then d.wfPair else d.wf) && (if sty = .f64 then a.wfPair else a.wf) && sty.elOk el &&
      (ov != .nsat || dty == .e4m3)
  | .qblk g d a b c _ _ => g.wf && d.wf && a.wf && b.wf && c.op.uni && c.holdOk
  | .dqblk g d a _ _ _ => g.wf && d.wf && a.wf
  | .pack g d a b w n _ => g.wf && d.wf && a.wf && b.wf && decide (n.val < 32 / w.bits)
  | .unpk g d a w n _ => g.wf && d.wf && a.wf && decide (n.val < 32 / w.bits)
  | .mov g d a => g.wf && d.wf && a.wf
  | .movi g d _ => g.wf && d.dst
  | .movx g d _ _ _ => g.wf && d.op.vsw && d.ccOk
  | .movxw g _ _ a _ _ => g.wf && (a.op.vsw || (match a.op with | .imm _ | .lat _ => true | _ => false)) && a.holdOk
  | .setx g _ a b c => g.wf && a.op.setxSrc && b.op.setxSrc && c.op.setxSrc && a.holdOk && b.holdOk && c.holdOk
  | .setxCur g _ a => g.wf && a.op.setxSrc && a.holdOk
  | .setxAdd g _ a => g.wf && a.op.setxSrc && a.holdOk
  | .sel g d a b c => g.wf && d.wf && a.wf && b.wf && c.wf && c.op.pred
  | .plop3 g d a b c _ _ => g.wf && d.predDst && a.wf && b.wf && c.wf && a.op.pred && b.op.pred && c.op.pred
  | .pmovGet g d => g.wf && d.op.vsw && d.ccOk
  | .pmovSet g a mk => g.wf && a.wf && mk.op.uni && mk.holdOk
  | .killv g a b c => g.wf && a.vmz && b.vmz && c.vmz
  | .rdsr g d _ wide => g.wf && (match d with | .v n => !wide || n.val % 2 == 0 | .s n => !wide || n.val % 2 == 0 | _ => false)
  | .wrsr g a _ => g.wf && a.uni
  | .nop g => g.wf
  | .shfl g d a b c _ _ => g.wf && d.wf && a.wf && b.wf && c.wf
  | .vote g d a _ => g.wf && d.wf && a.wf
  | .lred g d a op rm => g.wf && d.wf && a.wf && (op == .fadd || rm == .rn)
  | .lscan g d a op _ rm => g.wf && d.wf && a.wf && (op == .fadd || rm == .rn)
  | .matchL g d a _ => g.wf && d.wf && a.wf
  | .rdlane g d a b => g.wf && d.wf && a.wf && b.op.uni && b.holdOk
  | .elect g d _ => g.wf && d.wf
  | .ld g d sz _ base _ => g.wf && d.ldOk sz.bytes Operand.vmz && base.gbase
  | .lds g d sz _ base _ =>
    g.wf && (match d with | .s n => n.val % groupRegs sz.bytes == 0 | _ => false) && base.gbase
  | .ldc g d sz base _ => g.wf && d.ldOk sz.bytes Operand.ldcDst && base.bbaseOk
  | .st g a sz _ base _ => g.wf && a.stOk sz.bytes && base.gbase
  | .stnt g a sz base _ => g.wf && a.stOk sz.bytes && base.gbase
  | .drainnt g => g.wf
  | .ldb g d sz _ base _ => g.wf && d.ldOk sz.bytes Operand.vmz && base.bbaseOk
  | .stb g a sz _ base _ => g.wf && a.stOk sz.bytes && base.bbaseOk
  | .ldbq g d _ _ _ abuf _ base _ =>
    g.wf && d.ccOk && d.op.vmz && (if abuf then base.bbaseOk else base.op.gbase && !base.hold)
  | .atom g d _ _ _ _ base _ => g.wf && d.op.vm && base.gbase
  | .atomc g d a c x _ _ sp =>
    g.wf && d.op.vm && (if sp = .global then a.op.gbase && !a.hold else a.bbaseOk) &&
      c.op.data && c.holdOk && x.op.data && x.holdOk
  | .red g a _ _ _ base _ => g.wf && a.op.data && a.holdOk && base.gbase
  | .batom g d _ _ sc _ _ base _ =>
    g.wf && d.op.vm && (match sc with | .wrp | .blk | .clu => true | _ => false) && base.bbaseOk
  | .pref g _ base _ => g.wf && base.gbase
  | .cctl g _ base _ => g.wf && base.gbase
  | .cctlIl1all g => g.wf
  | .stream g _ desc _ => g.wf && desc.uni
  | .strmq g d _ => g.wf && d.vswOpt
  | .strmend g _ => g.wf
  | .cekick g d off n => g.wf && d.vswOpt && off.uni && (match n with | .reg o => o.vsw | .imm _ => true)
  | .arrset g _ a _ => g.wf && a.uni
  | .arrwait g mk => g.wf && mk != 0
  | .arrtest g d mk => g.wf && (d.vsw || d.predDst) && mk != 0
  | .tlrd g d _ _ => g.wf && d.aligned 2
  | .tlwait g _ a => g.wf && (match a with | .reg o => o.swPair | .imm _ => true)
  | .lstat g a b c => g.wf && a.uni && b.uni && c.uni
  | .swap g => g.wf
  | .tenq g d off _ => g.wf && d.vswOpt && off.uni
  | .tqrd g d sl clr => g.wf && d.vsw && (!clr || sl == 1)
  | .wlinit g _ off _ _ _ => g.wf && off.uni
  | .wlinitReg g _ off _ _ rows => g.wf && off.uni && rows.vsw
  | .wlthr g _ row a _ => g.wf && row.row && a.wlVal
  | .wlthrClr g _ row => g.wf && row.row
  | .wlrd g d _ row _ _ => g.wf && d.aligned 2 && row.row
  | .wlrdt g d _ row _ => g.wf && d.aligned 2 && row.row
  | .wlmrg g _ _ row _ => g.wf && row.row
  | .wlclr g _ row _ => g.wf && row.all (fun o => o.row && o != .zero)
  | .normb g d a b _ => g.wf && d.op.vsw && d.ccOk && a.wf && b.wf
  | .attn g d off => g.wf && d.vswOpt && off.uni
  | .rotq g d a b _ => g.wf && d.wf && a.wf && b.wf
  | .kvslab g _ off => g.wf && off.uni
  | .kvslabLen g _ n => g.wf && n.uni
  | .kvslabRd g d _ => g.wf && d.vsw
  | .kvgrow g d _ base off _ _ => g.wf && d.vswOpt && base.swPair && off.uni
  | .smerge g d a _ _ => g.wf && d.uni && a.uni
  | .smergeFin g d _ _ _ => g.wf && d.uni
  | .splice g _ _ a b => g.wf && a.uni && b.uni
  | .spliceFix g _ _ => g.wf
  | .spliceClr g _ _ => g.wf
  | .bar g b => g.wf && b.wf
  | .bara g b => g.wf && b.wf
  | .barw g b => g.wf && b.wf
  | .barq g d b => g.wf && (d.vsw || d.predDst) && b.wf
  | .fence g _ _ => g.wf
  | .cljoin g d _ => g.wf && d.vsw
  | .clleave g => g.wf
  | .sleep g _ => g.wf
  | .sleepReg g a => g.wf && a.uni && a != .zero
  | .fmsg g a b c _ _ => g.wf && a.uni && b.uni && c.uni
  | .fpoll g d _ _ => g.wf && (d.vsw || d.predDst)
  | .fpollBind g e => g.wf && e.uni
  | .fpollUnbind g => g.wf
  | .coll g d off => g.wf && d.vswOpt && off.uni
  | .noise g d key step idx _ =>
    g.wf && d.op.vmz && d.ccOk && key.op.swPair && !key.hold && step.op.uni && step.holdOk && idx.wf
  | .cbpost g a off _ budget => g.wf && a.uni && off.uni && budget != 0
  | .bra g _ => g.wf
  | .brx g a => g.wf && a.codeOff
  | .ret g a => g.wf && a.codeOff
  | .call g link _ => g.wf && link.linkDst
  | .callIndirect g link a => g.wf && link.linkDst && a.codeOff
  | .exit g => g.wf
  | .meld g _ _ => g == Guard.always
  | .melde g => g == Guard.always
  | .rnset g _ _ first _ vb vc =>
    g.wf && decide (first.val + (if vb.isNone then 0 else if vc.isNone then 1 else 2) < 16)
  | .rnsetClr g _ => g.wf
  | .serb g e => g == Guard.always && e != 0
  | .sere g => g == Guard.always
  | .refill g p => g.wf && p.val != 7
  | .yield g => g.wf
  | .nopre g => g.wf
  | .preok g => g.wf
  | .brk g _ => g.wf
  | .trap g _ => g.wf
  | .trapret g _ => g == Guard.always
  | .tlbir g base len asid => g.wf && base.swPair && len.uni && asid.all (fun o => o.uni)
  | .tlback g => g.wf
  | .errq g d _ => g.wf && (match d with | .s n => n.val % 4 == 0 | _ => false)
  | .errqLog g d _ => g.wf && (match d with | .s n => n.val % 4 == 0 | _ => false)
  | .bblog g _ a => g.wf && (a.swPair || a == .zero)
  | .controlWordWrite _ _ _ => true
  | .doorbell _ _ _ => true
  | .skip _ _ => true
  | .timelineValueWrite _ _ _ => true
  | .arm _ _ => true
  | .release _ _ => true
  | .fshareHi _ _ _ => true
  | .ovfadd _ _ _ => true
  | .fqrespRetry _ _ => true
  | .fqrespDeliver _ _ => true
  | .fqrespFail _ _ => true
  | .recover _ => true
  | .registerWrite _ _ _ _ => true
  | .entryNop _ => true
  | .entryLaunch _ => true
  | .entryGraph _ => true
  | .entryWait _ => true
  | .entrySignal _ => true
  | .launchCompletion _ => true
  | .launchFailure _ => true
  | .launchReplay _ => true
  | .kernelNode _ _ _ => true
  | .copyNode _ _ _ => true
  | .condNode _ _ _ => true
  | .whileNode _ _ _ => true
  | .waitmsgNode _ _ _ => true
  | .signalNode _ _ _ => true
  | .callbackNode _ _ _ => true
  | .callbackVerdict _ _ => true
  | .graphFailure _ _ => true
  | .placement _ => true
  | .gangAdmission _ _ => true
  | .gangArmed _ _ => true
  | .preEmptionRequest _ _ _ => true
  | .save _ => true
  | .flush _ => true
  | .resume _ => true
  | .nonPreemptibleOverrun _ _ => true
  | .inFieldTest _ _ => true
  | .clusterTestFailure _ _ => true
  | .selection _ _ => true
  | .sleepEnd _ _ _ => true
  | .epochBoundary => true
  | .raceCheckAtHome => true
  | .strike _ _ _ => true
  | .shadowMismatch _ _ => true
  | .copy _ => true
  | .copy2d _ => true
  | .gather _ => true
  | .scatter _ => true
  | .fill _ => true
  | .decode _ => true
  | .compact _ => true
  | .relocate _ => true
  | .pagein _ => true
  | .requestRetirement _ _ => true
  | .dispatchPoint _ _ => true
  | .mma _ => true
  | .mtopk _ => true
  | .raggedMma _ => true
  | .taskCommit _ => true
  | .swapTakesEffect _ => true
  | .planeLoadEnd _ => true
  | .narrowMode _ => true
  | .attentionTask _ => true
  | .attentionCommit _ => true
  | .collSum _ _ => true
  | .collMax _ _ => true
  | .collMin _ _ => true
  | .collWlmerge _ _ => true
  | .collArgmax _ _ => true
  | .collAccept _ _ => true
  | .messageDelivery _ _ => true
  | .acknowledge _ => true
  | .postVerdict _ _ => true
  | .tlbAcknowledge _ _ => true
  | .leaveAcknowledge _ => true
  | .powerAlarmRise _ _ _ _ => true
  | .powerAlarmFall _ _ _ _ => true
  | .thermalShutdown _ _ _ => true
  | .boot _ => true
  | .gnlTrain => true
  | .gnlActive _ => true
  | .gnlRetrain => true
  | .gnlDown => true
  | .gnlWakeN _ => true
  | .hostAccess _ => true
  | .portDown _ => true
  | .memoryOperationCompletion _ _ _ => true
  | .storePerformedAtHome => true
  | .fshareOperationEnd _ => true
  | .predicateBudgetOverrun _ => true
  | .clusterTestPass _ _ => true
  | .mainPowerLoss => true

end Sys2Proof
end

