-- ==== Sys2Proof/Decode.lean ====
section
/-!
DEFINITION. The decoder of the five 64-bit formats (R124-R131) over the opcode map of R133, and the encoder written from
the same encoding tables. Decoding is total: a word whose opcode is not assigned, whose operand codes or modifiers are not
defined, or whose unused fields do not hold their fixed values (R130) gives no instruction (R134).
-/

namespace Sys2Proof

/-! ### Fields -/

/-- Bits `[lo + n - 1 : lo]` of a word. -/
def fld (w : DWord) (lo n : Nat) : BitVec n := w.extractLsb' lo n

/-- Bit `i` of a word. -/
def flag (w : DWord) (i : Nat) : Bool := w.getLsbD i

/-- The operand codes of R131. -/
def Operand.code : Operand → BitVec 9
  | .v n => BitVec.ofNat 9 n.val
  | .s n => BitVec.ofNat 9 (256 + n.val)
  | .w n => BitVec.ofNat 9 (320 + n.val)
  | .x n => BitVec.ofNat 9 (352 + n.val)
  | .z n => BitVec.ofNat 9 (360 + n.val)
  | .p n => BitVec.ofNat 9 (368 + n.val)
  | .k n => BitVec.ofNat 9 (376 + n.val)
  | .lat n => BitVec.ofNat 9 (384 + n.val)
  | .zero => 387#9
  | .m n => BitVec.ofNat 9 (388 + n.val)
  | .imm c => BitVec.ofNat 9 (448 + c.val)

/-- The operand of a code; codes 404 to 447 are reserved (R131). -/
def Operand.ofCode (b : BitVec 9) : Option Operand :=
  let c := b.toNat
  if h : c < 256 then some (.v ⟨c, h⟩)
  else if c < 320 then some (.s (Fin.ofNat 64 (c - 256)))
  else if c < 352 then some (.w (Fin.ofNat 32 (c - 320)))
  else if c < 360 then some (.x (Fin.ofNat 8 (c - 352)))
  else if c < 368 then some (.z (Fin.ofNat 8 (c - 360)))
  else if c < 376 then some (.p (Fin.ofNat 8 (c - 368)))
  else if c < 384 then some (.k (Fin.ofNat 8 (c - 376)))
  else if c < 387 then some (.lat (Fin.ofNat 3 (c - 384)))
  else if c = 387 then some .zero
  else if c < 404 then some (.m (Fin.ofNat 16 (c - 388)))
  else if c < 448 then none
  else some (.imm (Fin.ofNat 64 (c - 448)))

/-- The guard code of R124. -/
def Guard.code : Guard → BitVec 4
  | .pred neg p => BitVec.ofBool neg ++ BitVec.ofNat 3 p.val
  | .path one => if one then 15#4 else 14#4

/-- R124: codes 0b1110 and 0b1111 are the path guards. -/
def Guard.ofCode (b : BitVec 4) : Guard :=
  if b = 14#4 then .path false else if b = 15#4 then .path true
  else .pred (b.getLsbD 3) (Fin.ofNat 8 (b.toNat % 8))

def Rm.code : Rm → BitVec 2
  | .rn => 0 | .rz => 1 | .ru => 2 | .rd => 3

/-- R32. -/
def Rm.ofCode (b : BitVec 2) : Rm :=
  if b = 0 then .rn else if b = 1 then .rz else if b = 2 then .ru else .rd

def Cmp.code : Cmp → BitVec 3
  | .eq => 0 | .ne => 1 | .lt => 2 | .le => 3 | .gt => 4 | .ge => 5 | .num => 6 | .nan => 7

/-- R194. -/
def Cmp.ofCode (b : BitVec 3) : Cmp :=
  if b = 0 then .eq else if b = 1 then .ne else if b = 2 then .lt else if b = 3 then .le
  else if b = 4 then .gt else if b = 5 then .ge else if b = 6 then .num else .nan

def Ty.code : Ty → Nat
  | .f64 => 0 | .f32 => 1 | .bf16 => 2 | .f16 => 3 | .e4m3 => 4 | .e5m2 => 5
  | .e2m1 => 6 | .i8 => 7 | .ui8 => 8 | .i4 => 9 | .i32 => 10 | .ui32 => 11

/-- R214: the source or destination type named by a small-immediate code 480 + type. -/
def Ty.ofOperand : Operand → Option Ty
  | .imm c =>
    [Ty.f64, .f32, .bf16, .f16, .e4m3, .e5m2, .e2m1, .i8, .ui8, .i4, .i32, .ui32][c.val - 32]?.bind
      (fun t => if 32 ≤ c.val then some t else none)
  | _ => none

/-- The operand that stands for a type code. -/
def Ty.operand (t : Ty) : Operand := .imm (Fin.ofNat 64 (32 + t.code))

def IntMode.bits : IntMode → BitVec 2
  | .wrap => 0 | .sat => 1 | .satU => 3

/-- R195: `.u` without `.sat` is illegal. -/
def IntMode.ofBits (b : BitVec 2) : Option IntMode :=
  if b = 0 then some .wrap else if b = 1 then some .sat else if b = 3 then some .satU else none

def LdSize.code : LdSize → BitVec 3
  | .u8 => 0 | .s8 => 1 | .u16 => 2 | .s16 => 3 | .b32 => 4 | .b64 => 5 | .b128 => 6

/-- R263. -/
def LdSize.ofCode (b : BitVec 3) : Option LdSize :=
  [LdSize.u8, .s8, .u16, .s16, .b32, .b64, .b128][b.toNat]?

def StSize.code : StSize → BitVec 3
  | .b8 => 0 | .b16 => 2 | .b32 => 4 | .b64 => 5 | .b128 => 6

/-- R263: codes 1, 3 and 7 are illegal for a store. -/
def StSize.ofCode (b : BitVec 3) : Option StSize :=
  [some StSize.b8, none, some .b16, none, some .b32, some .b64, some .b128, none][b.toNat]?.join

def Scope.code : Scope → BitVec 3
  | .wrp => 1 | .blk => 2 | .clu => 3 | .flr => 4 | .grd => 5 | .sys => 6

/-- R397. -/
def Scope.ofCode (b : BitVec 3) : Option Scope :=
  [none, some Scope.wrp, some .blk, some .clu, some .flr, some .grd, some .sys, none][b.toNat]?.join

def ordCode : Option Scope → BitVec 3
  | none => 0
  | some s => s.code

/-- R265: 0 is plain, 7 is illegal. -/
def ordOf (b : BitVec 3) : Option (Option Scope) :=
  if b = 0 then some none else (Scope.ofCode b).map some

def AOrder.code : AOrder → BitVec 2
  | .relaxed => 0 | .acq => 1 | .rel => 2 | .acqrel => 3

/-- R276. -/
def AOrder.ofCode (b : BitVec 2) : AOrder :=
  if b = 0 then .relaxed else if b = 1 then .acq else if b = 2 then .rel else .acqrel

def AtomOp.code : AtomOp → BitVec 4
  | .add => 0 | .fadd => 1 | .smin => 2 | .umin => 3 | .smax => 4 | .umax => 5
  | .and => 6 | .or => 7 | .xor => 8 | .exch => 9 | .inc => 10

/-- R275. -/
def AtomOp.ofCode (b : BitVec 4) : Option AtomOp :=
  [AtomOp.add, .fadd, .smin, .umin, .smax, .umax, .and, .or, .xor, .exch, .inc][b.toNat]?

def RedOp.code : RedOp → BitVec 4
  | .iadd => 0 | .imin => 1 | .imax => 2 | .umin => 3 | .umax => 4 | .and => 5
  | .or => 6 | .xor => 7 | .fadd => 8 | .fmin => 9 | .fmax => 10

/-- R222. -/
def RedOp.ofCode (b : BitVec 4) : Option RedOp :=
  [RedOp.iadd, .imin, .imax, .umin, .umax, .and, .or, .xor, .fadd, .fmin, .fmax][b.toNat]?

def BFmt.code : BFmt → BitVec 3
  | .q4x => 0 | .e2m1 => 1 | .int4 => 2 | .e4m3 => 3 | .e5m2 => 4 | .int8 => 5

/-- R215. -/
def BFmt.ofCode (b : BitVec 3) : Option BFmt :=
  [BFmt.q4x, .e2m1, .int4, .e4m3, .e5m2, .int8][b.toNat]?

def SubW.code : SubW → BitVec 2
  | .nib => 0 | .byte => 1 | .half => 2

/-- R218. -/
def SubW.ofCode (b : BitVec 2) : Option SubW := [SubW.nib, .byte, .half][b.toNat]?

def ShflMode.code : ShflMode → BitVec 2
  | .pick => 0 | .sh => 1 | .rot => 2 | .xsw => 3

/-- R220. -/
def ShflMode.ofCode (b : BitVec 2) : ShflMode :=
  if b = 0 then .pick else if b = 1 then .sh else if b = 2 then .rot else .xsw

/-- R221: the kind in [1:0] and the test of `.level` in [3:2]. -/
def VoteKind.bits : VoteKind → BitVec 4
  | .mask => 0 | .count => 1 | .first => 2 | .some => 3 | .every => 7 | .same => 11

def VoteKind.ofBits (b : BitVec 4) : Option VoteKind :=
  if b = 0 then Option.some .mask else if b = 1 then Option.some .count else if b = 2 then Option.some .first
  else if b = 3 then Option.some .some else if b = 7 then Option.some .every
  else if b = 11 then Option.some .same else none

def MatchMode.code : MatchMode → BitVec 2
  | .peers => 0 | .leader => 1 | .rank => 2 | .unan => 3

/-- R223. -/
def MatchMode.ofCode (b : BitVec 2) : MatchMode :=
  if b = 0 then .peers else if b = 1 then .leader else if b = 2 then .rank else .unan

def ElectMode.code : ElectMode → BitVec 2
  | .lo => 0 | .hi => 1 | .rr => 2

/-- R225. -/
def ElectMode.ofCode (b : BitVec 2) : Option ElectMode := [ElectMode.lo, .hi, .rr][b.toNat]?

def Buf.bit : Buf → Bool
  | .abuf => false | .cbuf => true

/-- R271. -/
def Buf.ofBit (b : Bool) : Buf := if b then .cbuf else .abuf

def ASpace.code : ASpace → BitVec 2
  | .global => 0 | .abuf => 1 | .cbuf => 2

/-- R281. -/
def ASpace.ofCode (b : BitVec 2) : Option ASpace := [ASpace.global, .abuf, .cbuf][b.toNat]?

def PrefLevel.code : PrefLevel → BitVec 2
  | .l1 => 0 | .l2 => 1 | .vat => 2

/-- R283. -/
def PrefLevel.ofCode (b : BitVec 2) : Option PrefLevel := [PrefLevel.l1, .l2, .vat][b.toNat]?

def CctlOp.code : CctlOp → BitVec 3
  | .il1 => 0 | .wb => 2 | .wbi => 3

/-- R284: code 1 is `.il1all`, which names no address. -/
def CctlOp.ofCode (b : BitVec 3) : Option CctlOp :=
  if b = 0 then some .il1 else if b = 2 then some .wb else if b = 3 then some .wbi else none

def BarScope.code : BarScope → BitVec 3
  | .wrp => 0 | .blk => 1 | .clu => 2 | .flr => 3 | .grd => 4

/-- R400. -/
def BarScope.ofCode (b : BitVec 3) : Option BarScope :=
  [BarScope.wrp, .blk, .clu, .flr, .grd][b.toNat]?

def FenceOrd.code : FenceOrd → BitVec 2
  | .acq => 1 | .rel => 2 | .both => 3

/-- R403. -/
def FenceOrd.ofCode (b : BitVec 2) : Option FenceOrd :=
  if b = 1 then some .acq else if b = 2 then some .rel else if b = 3 then some .both else none

def NoiseKind.code : NoiseKind → BitVec 2
  | .uni => 0 | .gum => 1 | .nrm => 2

/-- R448. -/
def NoiseKind.ofCode (b : BitVec 2) : Option NoiseKind := [NoiseKind.uni, .gum, .nrm][b.toNat]?

def NormKind.code : NormKind → BitVec 2
  | .plain => 0 | .int => 1 | .rs => 2

/-- R354. -/
def NormKind.ofCode (b : BitVec 2) : Option NormKind := [NormKind.plain, .int, .rs][b.toNat]?

/-! ### Packing the formats -/

/-- Format A (R125). -/
def encA (op : BitVec 10) (g : Guard) (d a b c : Operand) (cc : Fin 8) (ha hb hc : Bool) (md : BitVec 8) : DWord :=
  op ++ g.code ++ d.code ++ a.code ++ b.code ++ c.code ++ BitVec.ofNat 3 cc.val ++
    BitVec.ofBool ha ++ BitVec.ofBool hb ++ BitVec.ofBool hc ++ md

/-- Format I (R126). -/
def encI (op : BitVec 10) (g : Guard) (d a : Operand) (i : Word) : DWord := op ++ g.code ++ d.code ++ a.code ++ i

/-- Format M (R127). -/
def encM (op : BitVec 10) (g : Guard) (d b : Operand) (off : BitVec 20) (cc : Fin 8) (hd hb : Bool) (md : BitVec 6) :
    DWord :=
  op ++ g.code ++ d.code ++ b.code ++ off ++ BitVec.ofNat 3 cc.val ++ BitVec.ofBool hd ++ BitVec.ofBool hb ++ 0#1 ++ md

/-- Format E (R128). -/
def encE (op : BitVec 10) (g : Guard) (a b c : Operand) (i : BitVec 20) (md : BitVec 3) : DWord :=
  op ++ g.code ++ a.code ++ b.code ++ c.code ++ i ++ md

/-- Format B (R129). -/
def encB (op : BitVec 10) (g : Guard) (l s : Operand) (t : Word) : DWord := op ++ g.code ++ l.code ++ s.code ++ t

/-- One, two and three sources of Format A. -/
def enc1 (op : BitVec 10) (g : Guard) (d : Dst) (a : Src) (md : BitVec 8) : DWord :=
  encA op g d.op a.op .zero .zero d.cc a.hold false false md

def enc2 (op : BitVec 10) (g : Guard) (d : Dst) (a b : Src) (md : BitVec 8) : DWord :=
  encA op g d.op a.op b.op .zero d.cc a.hold b.hold false md

def enc3 (op : BitVec 10) (g : Guard) (d : Dst) (a b c : Src) (md : BitVec 8) : DWord :=
  encA op g d.op a.op b.op c.op d.cc a.hold b.hold c.hold md

/-- Bits of a modifier byte from single flags, the highest first. -/
def bit1 (b : Bool) : BitVec 1 := BitVec.ofBool b

def uBits (u : Bool) : BitVec 8 := 0#6 ++ bit1 u ++ 0#1

def fBits (rm : Rm) (m : FMods) : BitVec 8 :=
  0#1 ++ bit1 m.ab ++ bit1 m.aa ++ bit1 m.nc ++ bit1 m.nb ++ bit1 m.na ++ rm.code

def fsetBits (c : Cmp) (m : FMods) : BitVec 8 :=
  0#1 ++ bit1 m.ab ++ bit1 m.aa ++ bit1 m.nb ++ bit1 m.na ++ c.code

def hBits (m : HMods) : BitVec 8 :=
  0#1 ++ bit1 m.nc ++ bit1 m.nb ++ bit1 m.na ++ bit1 m.sat ++ bit1 m.bf ++ m.rm.code

def barImm (b : Bar) : BitVec 20 := 0#13 ++ BitVec.ofNat 4 b.idx.val ++ b.scope.code

/-! ### The encoder -/

/-- The word of an instruction, from the entries' encoding lines; the steps of the other agents have none. -/
def encode : Instr → Option DWord
  | .iadd g d a b md => some (enc2 0x000 g d a b (0#6 ++ md.bits))
  | .iaddI g d a i => some (encI 0x040 g d a i)
  | .isub g d a b md => some (enc2 0x001 g d a b (0#6 ++ md.bits))
  | .isubI g d a i => some (encI 0x041 g d a i)
  | .imul g d a b md => some (enc2 0x002 g d a b (0#6 ++ md.bits))
  | .imulI g d a i => some (encI 0x042 g d a i)
  | .imulh g d a b u => some (enc2 0x003 g d a b (uBits u))
  | .imad g d a b c md => some (enc3 0x004 g d a b c (0#6 ++ md.bits))
  | .idiv g d a b u => some (enc2 0x005 g d a b (uBits u))
  | .irem g d a b u => some (enc2 0x006 g d a b (uBits u))
  | .imin g d a b u => some (enc2 0x007 g d a b (uBits u))
  | .imax g d a b u => some (enc2 0x008 g d a b (uBits u))
  | .iabs g d a sat => some (enc1 0x009 g d a (0#7 ++ bit1 sat))
  | .iset g d a b c u => some (enc2 0x00A g d a b (0#3 ++ c.code ++ bit1 u ++ 0#1))
  | .lea g d a b sh => some (enc2 0x00B g d a b (0#3 ++ BitVec.ofNat 5 sh.val))
  | .and g d a b => some (enc2 0x010 g d a b 0)
  | .andI g d a i => some (encI 0x050 g d a i)
  | .or g d a b => some (enc2 0x011 g d a b 0)
  | .orI g d a i => some (encI 0x051 g d a i)
  | .xor g d a b => some (enc2 0x012 g d a b 0)
  | .xorI g d a i => some (encI 0x052 g d a i)
  | .andn g d a b => some (enc2 0x013 g d a b 0)
  | .andnI g d a i => some (encI 0x053 g d a i)
  | .lop3 g d a b c g0 g1 => some (enc3 0x014 g d a b c (g1 ++ g0))
  | .shl g d a b => some (enc2 0x018 g d a b 0)
  | .shlI g d a i => some (encI 0x058 g d a i)
  | .shr g d a b => some (enc2 0x019 g d a b 0)
  | .shrI g d a i => some (encI 0x059 g d a i)
  | .sar g d a b => some (enc2 0x01A g d a b 0)
  | .sarI g d a i => some (encI 0x05A g d a i)
  | .rot g d a b r => some (enc2 0x01B g d a b (0#7 ++ bit1 r))
  | .rotI g d a i => some (encI 0x05B g d a i)
  | .bfx g d a f sg => some (enc2 0x01C g d a f (0#7 ++ bit1 sg))
  | .bfi g d a b f => some (enc3 0x01D g d a b f 0)
  | .popc g d a => some (enc1 0x020 g d a 0)
  | .clz g d a => some (enc1 0x021 g d a 0)
  | .brev g d a => some (enc1 0x022 g d a 0)
  | .fadd g d a b rm m => some (enc2 0x080 g d a b (fBits rm m))
  | .faddI g d a i => some (encI 0x0C0 g d a i)
  | .fmul g d a b rm m => some (enc2 0x081 g d a b (fBits rm m))
  | .fmulI g d a i => some (encI 0x0C1 g d a i)
  | .ffma g d a b c rm m => some (enc3 0x082 g d a b c (fBits rm m))
  | .fmin g d a b m => some (enc2 0x083 g d a b (fBits .rn m))
  | .fmax g d a b m => some (enc2 0x084 g d a b (fBits .rn m))
  | .fset g d a b c m => some (enc2 0x085 g d a b (fsetBits c m))
  | .frcp g d a => some (enc1 0x088 g d a 0)
  | .frsq g d a => some (enc1 0x089 g d a 0)
  | .fsqrt g d a rm => some (enc1 0x08A g d a (0#6 ++ rm.code))
  | .fexp2 g d a => some (enc1 0x08B g d a 0)
  | .flog2 g d a => some (enc1 0x08C g d a 0)
  | .fsin g d a => some (enc1 0x08D g d a 0)
  | .fcos g d a => some (enc1 0x08E g d a 0)
  | .ftanh g d a => some (enc1 0x08F g d a 0)
  | .fclass g d a none => some (enc1 0x090 g d a 0)
  | .fclass g d a (some mk) => some (enc2 0x090 g d a mk 1)
  | .dadd g d a b rm m => some (enc2 0x100 g d a b (fBits rm m))
  | .dmul g d a b rm m => some (enc2 0x101 g d a b (fBits rm m))
  | .dfma g d a b c rm m => some (enc3 0x102 g d a b c (fBits rm m))
  | .dmin g d a b m => some (enc2 0x103 g d a b (fBits .rn m))
  | .dmax g d a b m => some (enc2 0x104 g d a b (fBits .rn m))
  | .dset g d a b c m => some (enc2 0x105 g d a b (fsetBits c m))
  | .hadd2 g d a b m => some (enc2 0x110 g d a b (hBits m))
  | .hmul2 g d a b m => some (enc2 0x111 g d a b (hBits m))
  | .hfma2 g d a b c m => some (enc3 0x112 g d a b c (hBits m))
  | .idot4 g d a b c sat ua ub => some (enc3 0x118 g d a b c (0#5 ++ bit1 ub ++ bit1 ua ++ bit1 sat))
  | .idot8 g d a b c sat ua ub => some (enc3 0x119 g d a b c (0#5 ++ bit1 ub ++ bit1 ua ++ bit1 sat))
  | .cvt g d a dt ft rm ov el =>
    some (encA 0x120 g d.op a.op ft.operand dt.operand d.cc a.hold false false
      (0#1 ++ BitVec.ofNat 3 el.val ++ bit1 (ov == .nsat) ++ bit1 (ov == .sat) ++ rm.code))
  | .qblk g d a b c fmt rm => some (enc3 0x121 g d a b c (0#3 ++ fmt.code ++ rm.code))
  | .dqblk g d a hi rm strict => some (enc1 0x122 g d a (0#4 ++ bit1 strict ++ bit1 hi ++ rm.code))
  | .pack g d a b w n md => some (enc2 0x123 g d a b (0#1 ++ md.bits ++ BitVec.ofNat 3 n.val ++ w.code))
  | .unpk g d a w n sg => some (enc1 0x124 g d a (0#2 ++ bit1 sg ++ BitVec.ofNat 3 n.val ++ w.code))
  | .mov g d a => some (enc1 0x180 g d a 0)
  | .movi g d i => some (encI 0x181 g d .zero i)
  | .movx g d x o inc => some (enc1 0x182 g d ⟨.x x, false⟩ (bit1 inc ++ BitVec.ofNat 7 o.val))
  | .movxw g x o a cc inc =>
    some (encA 0x183 g .zero (.x x) a.op .zero cc false a.hold false (bit1 inc ++ BitVec.ofNat 7 o.val))
  | .setx g x a b c => some (enc3 0x184 g ⟨.x x, 0⟩ a b c 0)
  | .setxCur g x a => some (enc1 0x184 g ⟨.x x, 0⟩ a 1)
  | .setxAdd g x a => some (enc1 0x184 g ⟨.x x, 0⟩ a 2)
  | .sel g d a b c => some (enc3 0x185 g d a b c 0)
  | .plop3 g d a b c g0 g1 => some (enc3 0x186 g ⟨d, 0⟩ a b c (g1 ++ g0))
  | .pmovGet g d => some (encA 0x187 g d.op .zero .zero .zero d.cc false false false 0)
  | .pmovSet g a mk => some (enc2 0x187 g ⟨.zero, 0⟩ a mk 1)
  | .killv g a b c => some (encA 0x188 g .zero a b c 0 false false false 0)
  | .rdsr g d num wide => some (encE 0x189 g d .zero .zero (0#8 ++ num) (0#2 ++ bit1 wide))
  | .wrsr g a num => some (encE 0x18A g .zero a .zero (0#8 ++ num) 0)
  | .nop g => some (encA 0x18F g .zero .zero .zero .zero 0 false false false 0)
  | .shfl g d a b c md lgw => some (enc3 0x190 g d a b c (0#3 ++ BitVec.ofNat 3 lgw.val ++ md.code))
  | .vote g d a kd => some (enc1 0x191 g d a (0#4 ++ kd.bits))
  | .lred g d a op rm => some (enc1 0x192 g d a (0#2 ++ op.code ++ rm.code))
  | .lscan g d a op excl rm => some (enc1 0x193 g d a (0#1 ++ bit1 excl ++ op.code ++ rm.code))
  | .matchL g d a md => some (enc1 0x194 g d a (0#6 ++ md.code))
  | .rdlane g d a b => some (enc2 0x195 g d a b 0)
  | .elect g d md => some (encA 0x196 g d.op .zero .zero .zero d.cc false false false (0#6 ++ md.code))
  | .ld g d sz acq base off => some (encM 0x200 g d.op base off d.cc false false (ordCode acq ++ sz.code))
  | .lds g d sz acq base off => some (encM 0x201 g d base off 0 false false (ordCode acq ++ sz.code))
  | .ldc g d sz base off => some (encM 0x202 g d.op base.op off d.cc false base.hold (0#3 ++ sz.code))
  | .st g a sz rel base off => some (encM 0x203 g a.op base off 0 a.hold false (ordCode rel ++ sz.code))
  | .stnt g a sz base off => some (encM 0x204 g a.op base off 0 a.hold false (0#3 ++ sz.code))
  | .drainnt g => some (encM 0x205 g .zero .zero 0 0 false false 0)
  | .ldb g d sz buf base off =>
    some (encM 0x208 g d.op base.op off d.cc false base.hold (bit1 buf.bit ++ 0#2 ++ sz.code))
  | .stb g a sz buf base off =>
    some (encM 0x209 g a.op base.op off 0 a.hold base.hold (bit1 buf.bit ++ 0#2 ++ sz.code))
  | .ldbq g d c8 hi strict abuf rm base off =>
    some (encM 0x20A g d.op base.op off d.cc false base.hold (rm.code ++ bit1 abuf ++ bit1 strict ++ bit1 hi ++ bit1 c8))
  | .atom g d hold op sc od base off =>
    some (encM 0x210 g d.op base (op.code ++ off) d.cc hold false (0#1 ++ od.code ++ sc.code))
  | .atomc g d a cmp x sc od sp => some (enc3 0x211 g d a cmp x (0#1 ++ sp.code ++ od.code ++ sc.code))
  | .red g a op sc rel base off =>
    some (encM 0x212 g a.op base (op.code ++ off) 0 a.hold false (0#1 ++ bit1 rel ++ 0#1 ++ sc.code))
  | .batom g d hold op sc od buf base off =>
    some (encM 0x213 g d.op base.op (op.code ++ off) d.cc hold base.hold (bit1 buf.bit ++ od.code ++ sc.code))
  | .pref g lv base off => some (encM 0x218 g .zero base off 0 false false (0#4 ++ lv.code))
  | .cctl g op base off => some (encM 0x219 g .zero base off 0 false false (0#3 ++ op.code))
  | .cctlIl1all g => some (encM 0x219 g .zero .zero 0 0 false false 1)
  | .stream g z desc pd => some (encE 0x220 g (.z z) desc .zero (0#8 ++ pd[3] ++ pd[2] ++ pd[1] ++ pd[0]) 0)
  | .strmq g d z => some (encA 0x221 g d (.z z) .zero .zero 0 false false false 0)
  | .strmend g z => some (encA 0x222 g .zero (.z z) .zero .zero 0 false false false 0)
  | .cekick g d off (.reg n) => some (encE 0x280 g d off n 0 0)
  | .cekick g d off (.imm n) => some (encE 0x280 g d off .zero n 0)
  | .arrset g c a add => some (encE 0x281 g .zero a .zero (0#16 ++ BitVec.ofNat 4 c.val) (0#2 ++ bit1 add))
  | .arrwait g mk => some (encE 0x282 g .zero .zero .zero (0#4 ++ mk) 0)
  | .arrtest g d mk => some (encE 0x283 g d .zero .zero (0#4 ++ mk) 0)
  | .tlrd g d tl enq => some (encE 0x284 g d .zero .zero (0#17 ++ BitVec.ofNat 3 tl.val) (0#2 ++ bit1 enq))
  | .tlwait g tl (.reg a) => some (encE 0x285 g .zero a .zero (0#17 ++ BitVec.ofNat 3 tl.val) 0)
  | .tlwait g tl (.imm n) => some (encE 0x285 g .zero .zero .zero (n ++ BitVec.ofNat 3 tl.val) 0)
  | .lstat g a b c => some (encE 0x288 g a b c 0 0)
  | .swap g => some (encE 0x289 g .zero .zero .zero 0 0)
  | .tenq g d off high => some (encE 0x28A g d off .zero (0#19 ++ bit1 high) 0)
  | .tqrd g d sl clr => some (encE 0x28B g d .zero .zero (0#18 ++ BitVec.ofNat 2 sl.val) (0#2 ++ bit1 clr))
  | .wlinit g k off kw f32 rows => some (encE 0x290 g (.k k) off .zero (rows ++ bit1 f32 ++ kw) 0)
  | .wlinitReg g k off kw f32 rows => some (encE 0x290 g (.k k) off rows (0#13 ++ bit1 f32 ++ kw) 0)
  | .wlthr g k row a max => some (encE 0x291 g (.k k) row a 0 (0#2 ++ bit1 max))
  | .wlthrClr g k row => some (encE 0x291 g (.k k) row .zero 0 2)
  | .wlrd g d k row e lane => some (encE 0x292 g d (.k k) row (0#15 ++ BitVec.ofNat 5 e.val) (0#2 ++ bit1 lane))
  | .wlrdt g d k row seed => some (encE 0x293 g d (.k k) row 0 (0#2 ++ bit1 seed))
  | .wlmrg g kd ks row soff => some (encE 0x294 g (.k kd) (.k ks) row (0#7 ++ soff) 0)
  | .wlclr g k row seed => some (encE 0x295 g (.k k) (row.getD .zero) .zero 0 (0#2 ++ bit1 seed))
  | .normb g d a b kd => some (enc2 0x296 g d a b (0#6 ++ kd.code))
  | .attn g d off => some (encE 0x2A0 g d off .zero 0 0)
  | .rotq g d a b sin => some (enc2 0x2A1 g d a b (0#7 ++ bit1 sin))
  | .kvslab g n off => some (encE 0x2A2 g .zero off .zero (0#17 ++ BitVec.ofNat 3 n.val) 0)
  | .kvslabLen g n len => some (encE 0x2A2 g .zero len .zero (0#17 ++ BitVec.ofNat 3 n.val) 1)
  | .kvslabRd g d n => some (encE 0x2A2 g d .zero .zero (0#17 ++ BitVec.ofNat 3 n.val) 2)
  | .kvgrow g d n base off fw c =>
    some (encE 0x2A3 g d base off
      (0#11 ++ BitVec.ofNat 4 c.val ++ BitVec.ofNat 2 fw.val ++ BitVec.ofNat 3 n.val) 0)
  | .smerge g d a rows hd => some (encE 0x2A4 g d a .zero (0#12 ++ bit1 hd ++ rows) 0)
  | .smergeFin g d rows hd rm => some (encE 0x2A4 g d .zero .zero (0#12 ++ bit1 hd ++ rows) (rm.code ++ 1#1))
  | .splice g n e a b => some (encE 0x2A5 g a b .zero (0#14 ++ BitVec.ofNat 3 e.val ++ BitVec.ofNat 3 n.val) 0)
  | .spliceFix g n e => some (encE 0x2A5 g .zero .zero .zero (0#14 ++ BitVec.ofNat 3 e.val ++ BitVec.ofNat 3 n.val) 1)
  | .spliceClr g n e => some (encE 0x2A5 g .zero .zero .zero (0#14 ++ BitVec.ofNat 3 e.val ++ BitVec.ofNat 3 n.val) 2)
  | .bar g b => some (encE 0x300 g .zero .zero .zero (barImm b) 0)
  | .bara g b => some (encE 0x301 g .zero .zero .zero (barImm b) 0)
  | .barw g b => some (encE 0x302 g .zero .zero .zero (barImm b) 0)
  | .barq g d b => some (encE 0x303 g d .zero .zero (barImm b) 0)
  | .fence g od sc => some (encE 0x304 g .zero .zero .zero (0#15 ++ od.code ++ sc.code) 0)
  | .cljoin g d n => some (encE 0x305 g d .zero .zero (0#17 ++ BitVec.ofNat 3 n.val) 0)
  | .clleave g => some (encE 0x306 g .zero .zero .zero 0 0)
  | .sleep g n => some (encE 0x307 g .zero .zero .zero n 0)
  | .sleepReg g a => some (encE 0x307 g .zero a .zero 0 0)
  | .fmsg g a b c len n => some (encE 0x310 g a b c (0#8 ++ BitVec.ofNat 4 n.val ++ len) 0)
  | .fpoll g d c clr => some (encE 0x311 g d .zero .zero (0#16 ++ BitVec.ofNat 4 c.val) (bit1 clr ++ 0#2))
  | .fpollBind g e => some (encE 0x311 g .zero e .zero 0 1)
  | .fpollUnbind g => some (encE 0x311 g .zero .zero .zero 0 2)
  | .coll g d off => some (encE 0x312 g d off .zero 0 0)
  | .noise g d key stp idx kd => some (enc3 0x313 g d key stp idx (0#6 ++ kd.code))
  | .cbpost g a off c budget => some (encE 0x314 g a off .zero (budget ++ BitVec.ofNat 4 c.val) 0)
  | .bra g t => some (encB 0x380 g .zero .zero t)
  | .brx g a => some (encB 0x381 g .zero a 0)
  | .call g link t => some (encB 0x382 g link .zero t)
  | .callIndirect g link a => some (encB 0x382 g link a 0)
  | .ret g a => some (encB 0x383 g .zero a 0)
  | .exit g => some (encB 0x384 g .zero .zero 0)
  | .meld g p t => some (encE 0x388 g (.p p) .zero .zero (0#19 ++ bit1 t) 0)
  | .melde g => some (encE 0x389 g .zero .zero .zero 0 0)
  | .rnset g t path first va vb vc =>
    some (encE 0x38A g (.v va) ((vb.map Operand.v).getD .zero) ((vc.map Operand.v).getD .zero)
      (0#14 ++ bit1 t ++ bit1 path ++ BitVec.ofNat 4 first.val) 0)
  | .rnsetClr g t => some (encE 0x38A g .zero .zero .zero (0#14 ++ bit1 t ++ 0#5) 1)
  | .serb g e => some (encE 0x38B g .zero .zero .zero e 0)
  | .sere g => some (encE 0x38C g .zero .zero .zero 0 0)
  | .refill g p => some (encE 0x38D g (.p p) .zero .zero 0 0)
  | .yield g => some (encE 0x38E g .zero .zero .zero 0 0)
  | .nopre g => some (encE 0x38F g .zero .zero .zero 0 0)
  | .preok g => some (encE 0x390 g .zero .zero .zero 0 0)
  | .brk g c => some (encE 0x391 g .zero .zero .zero c 0)
  | .trap g c => some (encE 0x392 g .zero .zero .zero c 0)
  | .trapret g skip => some (encE 0x3A0 g .zero .zero .zero 0 (0#2 ++ bit1 skip))
  | .tlbir g base len (some a) => some (encE 0x3A1 g base len a 0 0)
  | .tlbir g base len none => some (encE 0x3A1 g base len .zero 0 1)
  | .tlback g => some (encE 0x3A2 g .zero .zero .zero 0 0)
  | .errq g d peek => some (encE 0x3A3 g d .zero .zero 0 (0#1 ++ bit1 peek ++ 0#1))
  | .errqLog g d peek => some (encE 0x3A3 g d .zero .zero 0 (0#1 ++ bit1 peek ++ 1#1))
  | .bblog g c a => some (encE 0x3A4 g .zero a .zero (0#14 ++ c) 0)
  | _ => none

/-! ### Reading the fields -/

/-- The guard of a word. -/
def gOf (w : DWord) : Guard := Guard.ofCode (fld w 50 4)

/-- The operand whose 9-bit code starts at bit `lo`: 41 dst, data, ra, link; 32 srcA, base, rb, sel; 23 srcB, rc; 14 srcC. -/
def opAt (w : DWord) (lo : Nat) : Option Operand := Operand.ofCode (fld w lo 9)

/-- dst with the count of Format A. -/
def dstA (w : DWord) : Option Dst := (opAt w 41).map fun o => ⟨o, (fld w 11 3).toFin⟩

/-- data with the count of Format M. -/
def dstM (w : DWord) : Option Dst := (opAt w 41).map fun o => ⟨o, (fld w 9 3).toFin⟩

/-- A source with its hold bit. -/
def srcAt (w : DWord) (lo hold : Nat) : Option Src := (opAt w lo).map fun o => ⟨o, flag w hold⟩

def aA (w : DWord) : Option Src := srcAt w 32 10
def bA (w : DWord) : Option Src := srcAt w 23 9
def cA (w : DWord) : Option Src := srcAt w 14 8
def dM (w : DWord) : Option Src := srcAt w 41 8
def bM (w : DWord) : Option Src := srcAt w 32 7

def fmods (w : DWord) : FMods :=
  { na := flag w 2, nb := flag w 3, nc := flag w 4, aa := flag w 5, ab := flag w 6 }

def setMods (w : DWord) : FMods :=
  { na := flag w 3, nb := flag w 4, nc := false, aa := flag w 5, ab := flag w 6 }

def hmods (w : DWord) : HMods :=
  { rm := Rm.ofCode (fld w 0 2), bf := flag w 2, sat := flag w 3, na := flag w 4, nb := flag w 5, nc := flag w 6 }

/-- Register names by their codes. -/
def zOf : Operand → Option (Fin 8) | .z n => some n | _ => none
def xOf : Operand → Option (Fin 8) | .x n => some n | _ => none
def kOf : Operand → Option (Fin 8) | .k n => some n | _ => none
def pOf : Operand → Option (Fin 8) | .p n => some n | _ => none
def vOf : Operand → Option (Fin 256) | .v n => some n | _ => none

/-- An optional v field: zero is none. -/
def vOptOf : Operand → Option (Option (Fin 256)) | .v n => some (some n) | .zero => some none | _ => none

def barOf (w : DWord) : Option Bar :=
  (BarScope.ofCode (fld w 3 3)).map fun s => ⟨s, (fld w 6 4).toFin⟩

/-- Two sources of Format A and its destination. -/
def two (w : DWord) (f : Dst → Src → Src → Instr) : Option Instr :=
  (dstA w).bind fun d => (aA w).bind fun a => (bA w).map fun b => f d a b

def three (w : DWord) (f : Dst → Src → Src → Src → Instr) : Option Instr :=
  (dstA w).bind fun d => (aA w).bind fun a => (bA w).bind fun b => (cA w).map fun c => f d a b c

def one (w : DWord) (f : Dst → Src → Instr) : Option Instr :=
  (dstA w).bind fun d => (aA w).map fun a => f d a

/-- Format I: destination, srcA and imm32. -/
def immF (w : DWord) (f : Operand → Operand → Word → Instr) : Option Instr :=
  (opAt w 41).bind fun d => (opAt w 32).map fun a => f d a (fld w 0 32)

/-- The three register fields of Format E. -/
def regsE (w : DWord) (f : Operand → Operand → Operand → Option Instr) : Option Instr :=
  (opAt w 41).bind fun a => (opAt w 32).bind fun b => (opAt w 23).bind fun c => f a b c

/-- data and base of Format M. -/
def regsM (w : DWord) (f : Operand → Operand → Option Instr) : Option Instr :=
  (opAt w 41).bind fun a => (opAt w 32).bind fun b => f a b

/-- imm20 of Format E at bit 3. -/
def immE (w : DWord) (lo n : Nat) : BitVec n := fld w (3 + lo) n

/-! ### The opcode map (R133) -/

/-- One row: an opcode, and what a word with that opcode says. -/
structure Row where
  op : Nat
  build : DWord → Option Instr

/-- Family 000. -/
def rows0 : List Row := [
  ⟨0x000, fun w => (IntMode.ofBits (fld w 0 2)).bind fun m => two w (.iadd (gOf w) · · · m)⟩,
  ⟨0x001, fun w => (IntMode.ofBits (fld w 0 2)).bind fun m => two w (.isub (gOf w) · · · m)⟩,
  ⟨0x002, fun w => (IntMode.ofBits (fld w 0 2)).bind fun m => two w (.imul (gOf w) · · · m)⟩,
  ⟨0x003, fun w => two w (.imulh (gOf w) · · · (flag w 1))⟩,
  ⟨0x004, fun w => (IntMode.ofBits (fld w 0 2)).bind fun m => three w (.imad (gOf w) · · · · m)⟩,
  ⟨0x005, fun w => two w (.idiv (gOf w) · · · (flag w 1))⟩,
  ⟨0x006, fun w => two w (.irem (gOf w) · · · (flag w 1))⟩,
  ⟨0x007, fun w => two w (.imin (gOf w) · · · (flag w 1))⟩,
  ⟨0x008, fun w => two w (.imax (gOf w) · · · (flag w 1))⟩,
  ⟨0x009, fun w => one w (.iabs (gOf w) · · (flag w 0))⟩,
  ⟨0x00A, fun w => two w (.iset (gOf w) · · · (Cmp.ofCode (fld w 2 3)) (flag w 1))⟩,
  ⟨0x00B, fun w => two w (.lea (gOf w) · · · (fld w 0 5).toFin)⟩,
  ⟨0x010, fun w => two w (.and (gOf w) · · ·)⟩,
  ⟨0x011, fun w => two w (.or (gOf w) · · ·)⟩,
  ⟨0x012, fun w => two w (.xor (gOf w) · · ·)⟩,
  ⟨0x013, fun w => two w (.andn (gOf w) · · ·)⟩,
  ⟨0x014, fun w => three w (.lop3 (gOf w) · · · · (fld w 0 4) (fld w 4 4))⟩,
  ⟨0x018, fun w => two w (.shl (gOf w) · · ·)⟩,
  ⟨0x019, fun w => two w (.shr (gOf w) · · ·)⟩,
  ⟨0x01A, fun w => two w (.sar (gOf w) · · ·)⟩,
  ⟨0x01B, fun w => two w (.rot (gOf w) · · · (flag w 0))⟩,
  ⟨0x01C, fun w => two w (.bfx (gOf w) · · · (flag w 0))⟩,
  ⟨0x01D, fun w => three w (.bfi (gOf w) · · · ·)⟩,
  ⟨0x020, fun w => one w (.popc (gOf w) · ·)⟩,
  ⟨0x021, fun w => one w (.clz (gOf w) · ·)⟩,
  ⟨0x022, fun w => one w (.brev (gOf w) · ·)⟩,
  ⟨0x040, fun w => immF w (.iaddI (gOf w) · · ·)⟩,
  ⟨0x041, fun w => immF w (.isubI (gOf w) · · ·)⟩,
  ⟨0x042, fun w => immF w (.imulI (gOf w) · · ·)⟩,
  ⟨0x050, fun w => immF w (.andI (gOf w) · · ·)⟩,
  ⟨0x051, fun w => immF w (.orI (gOf w) · · ·)⟩,
  ⟨0x052, fun w => immF w (.xorI (gOf w) · · ·)⟩,
  ⟨0x053, fun w => immF w (.andnI (gOf w) · · ·)⟩,
  ⟨0x058, fun w => immF w (.shlI (gOf w) · · ·)⟩,
  ⟨0x059, fun w => immF w (.shrI (gOf w) · · ·)⟩,
  ⟨0x05A, fun w => immF w (.sarI (gOf w) · · ·)⟩,
  ⟨0x05B, fun w => immF w (.rotI (gOf w) · · ·)⟩]

/-- Family 001. -/
def rows1 : List Row := [
  ⟨0x080, fun w => two w (.fadd (gOf w) · · · (Rm.ofCode (fld w 0 2)) (fmods w))⟩,
  ⟨0x081, fun w => two w (.fmul (gOf w) · · · (Rm.ofCode (fld w 0 2)) (fmods w))⟩,
  ⟨0x082, fun w => three w (.ffma (gOf w) · · · · (Rm.ofCode (fld w 0 2)) (fmods w))⟩,
  ⟨0x083, fun w => two w (.fmin (gOf w) · · · (fmods w))⟩,
  ⟨0x084, fun w => two w (.fmax (gOf w) · · · (fmods w))⟩,
  ⟨0x085, fun w => two w (.fset (gOf w) · · · (Cmp.ofCode (fld w 0 3)) (setMods w))⟩,
  ⟨0x088, fun w => one w (.frcp (gOf w) · ·)⟩,
  ⟨0x089, fun w => one w (.frsq (gOf w) · ·)⟩,
  ⟨0x08A, fun w => one w (.fsqrt (gOf w) · · (Rm.ofCode (fld w 0 2)))⟩,
  ⟨0x08B, fun w => one w (.fexp2 (gOf w) · ·)⟩,
  ⟨0x08C, fun w => one w (.flog2 (gOf w) · ·)⟩,
  ⟨0x08D, fun w => one w (.fsin (gOf w) · ·)⟩,
  ⟨0x08E, fun w => one w (.fcos (gOf w) · ·)⟩,
  ⟨0x08F, fun w => one w (.ftanh (gOf w) · ·)⟩,
  ⟨0x090, fun w => if flag w 0 then two w (fun d a b => .fclass (gOf w) d a (some b))
    else one w (.fclass (gOf w) · · none)⟩,
  ⟨0x0C0, fun w => immF w (.faddI (gOf w) · · ·)⟩,
  ⟨0x0C1, fun w => immF w (.fmulI (gOf w) · · ·)⟩]

/-- Family 010. -/
def rows2 : List Row := [
  ⟨0x100, fun w => two w (.dadd (gOf w) · · · (Rm.ofCode (fld w 0 2)) (fmods w))⟩,
  ⟨0x101, fun w => two w (.dmul (gOf w) · · · (Rm.ofCode (fld w 0 2)) (fmods w))⟩,
  ⟨0x102, fun w => three w (.dfma (gOf w) · · · · (Rm.ofCode (fld w 0 2)) (fmods w))⟩,
  ⟨0x103, fun w => two w (.dmin (gOf w) · · · (fmods w))⟩,
  ⟨0x104, fun w => two w (.dmax (gOf w) · · · (fmods w))⟩,
  ⟨0x105, fun w => two w (.dset (gOf w) · · · (Cmp.ofCode (fld w 0 3)) (setMods w))⟩,
  ⟨0x110, fun w => two w (.hadd2 (gOf w) · · · (hmods w))⟩,
  ⟨0x111, fun w => two w (.hmul2 (gOf w) · · · (hmods w))⟩,
  ⟨0x112, fun w => three w (.hfma2 (gOf w) · · · · (hmods w))⟩,
  ⟨0x118, fun w => three w (.idot4 (gOf w) · · · · (flag w 0) (flag w 1) (flag w 2))⟩,
  ⟨0x119, fun w => three w (.idot8 (gOf w) · · · · (flag w 0) (flag w 1) (flag w 2))⟩,
  ⟨0x120, fun w => (bA w).bind fun b => (cA w).bind fun c => (Ty.ofOperand b.op).bind fun ft =>
    (Ty.ofOperand c.op).bind fun dt => one w (.cvt (gOf w) · · dt ft (Rm.ofCode (fld w 0 2))
      (if flag w 2 then .sat else if flag w 3 then .nsat else .none) (fld w 4 3).toFin)⟩,
  ⟨0x121, fun w => (BFmt.ofCode (fld w 2 3)).bind fun f =>
    three w (.qblk (gOf w) · · · · f (Rm.ofCode (fld w 0 2)))⟩,
  ⟨0x122, fun w => one w (.dqblk (gOf w) · · (flag w 2) (Rm.ofCode (fld w 0 2)) (flag w 3))⟩,
  ⟨0x123, fun w => (SubW.ofCode (fld w 0 2)).bind fun sw => (IntMode.ofBits (fld w 5 2)).bind fun m =>
    two w (.pack (gOf w) · · · sw (fld w 2 3).toFin m)⟩,
  ⟨0x124, fun w => (SubW.ofCode (fld w 0 2)).bind fun sw => one w (.unpk (gOf w) · · sw (fld w 2 3).toFin (flag w 5))⟩]

/-- Family 011. -/
def rows3 : List Row := [
  ⟨0x180, fun w => one w (.mov (gOf w) · ·)⟩,
  ⟨0x181, fun w => (opAt w 41).map fun d => .movi (gOf w) d (fld w 0 32)⟩,
  ⟨0x182, fun w => ((opAt w 32).bind xOf).bind fun x =>
    (dstA w).map fun d => .movx (gOf w) d x (fld w 0 7).toFin (flag w 7)⟩,
  ⟨0x183, fun w => ((opAt w 32).bind xOf).bind fun x =>
    (bA w).map fun a => .movxw (gOf w) x (fld w 0 7).toFin a (fld w 11 3).toFin (flag w 7)⟩,
  ⟨0x184, fun w => ((opAt w 41).bind xOf).bind fun x => (aA w).bind fun a =>
    if fld w 0 2 = 1#2 then some (.setxCur (gOf w) x a)
    else if fld w 0 2 = 2#2 then some (.setxAdd (gOf w) x a)
    else (bA w).bind fun b => (cA w).map fun c => .setx (gOf w) x a b c⟩,
  ⟨0x185, fun w => three w (.sel (gOf w) · · · ·)⟩,
  ⟨0x186, fun w => three w (fun d a b c => .plop3 (gOf w) d.op a b c (fld w 0 4) (fld w 4 4))⟩,
  ⟨0x187, fun w => if flag w 0 then (aA w).bind fun a => (bA w).map fun b => .pmovSet (gOf w) a b
    else (dstA w).map fun d => .pmovGet (gOf w) d⟩,
  ⟨0x188, fun w => (opAt w 32).bind fun a => (opAt w 23).bind fun b => (opAt w 14).map fun c => .killv (gOf w) a b c⟩,
  ⟨0x189, fun w => (opAt w 41).map fun d => .rdsr (gOf w) d (immE w 0 12) (flag w 0)⟩,
  ⟨0x18A, fun w => (opAt w 32).map fun a => .wrsr (gOf w) a (immE w 0 12)⟩,
  ⟨0x18F, fun w => some (.nop (gOf w))⟩,
  ⟨0x190, fun w => if h : (fld w 2 3).toNat < 6 then
    three w (.shfl (gOf w) · · · · (ShflMode.ofCode (fld w 0 2)) ⟨(fld w 2 3).toNat, h⟩) else none⟩,
  ⟨0x191, fun w => (VoteKind.ofBits (fld w 0 4)).bind fun k => one w (.vote (gOf w) · · k)⟩,
  ⟨0x192, fun w => (RedOp.ofCode (fld w 2 4)).bind fun o => one w (.lred (gOf w) · · o (Rm.ofCode (fld w 0 2)))⟩,
  ⟨0x193, fun w => (RedOp.ofCode (fld w 2 4)).bind fun o =>
    one w (.lscan (gOf w) · · o (flag w 6) (Rm.ofCode (fld w 0 2)))⟩,
  ⟨0x194, fun w => one w (.matchL (gOf w) · · (MatchMode.ofCode (fld w 0 2)))⟩,
  ⟨0x195, fun w => two w (.rdlane (gOf w) · · ·)⟩,
  ⟨0x196, fun w => (ElectMode.ofCode (fld w 0 2)).bind fun m => (dstA w).map fun d => .elect (gOf w) d m⟩]

/-- Family 100. -/
def rows4 : List Row := [
  ⟨0x200, fun w => (LdSize.ofCode (fld w 0 3)).bind fun sz => (ordOf (fld w 3 3)).bind fun o => (dstM w).bind fun d =>
    (opAt w 32).map fun b => .ld (gOf w) d sz o b (fld w 12 20)⟩,
  ⟨0x201, fun w => (LdSize.ofCode (fld w 0 3)).bind fun sz => (ordOf (fld w 3 3)).bind fun o =>
    regsM w fun d b => some (.lds (gOf w) d sz o b (fld w 12 20))⟩,
  ⟨0x202, fun w => (LdSize.ofCode (fld w 0 3)).bind fun sz => (dstM w).bind fun d =>
    (bM w).map fun b => .ldc (gOf w) d sz b (fld w 12 20)⟩,
  ⟨0x203, fun w => (StSize.ofCode (fld w 0 3)).bind fun sz => (ordOf (fld w 3 3)).bind fun o => (dM w).bind fun a =>
    (opAt w 32).map fun b => .st (gOf w) a sz o b (fld w 12 20)⟩,
  ⟨0x204, fun w => (StSize.ofCode (fld w 0 3)).bind fun sz => (dM w).bind fun a =>
    (opAt w 32).map fun b => .stnt (gOf w) a sz b (fld w 12 20)⟩,
  ⟨0x205, fun w => some (.drainnt (gOf w))⟩,
  ⟨0x208, fun w => (LdSize.ofCode (fld w 0 3)).bind fun sz => (dstM w).bind fun d =>
    (bM w).map fun b => .ldb (gOf w) d sz (Buf.ofBit (flag w 5)) b (fld w 12 20)⟩,
  ⟨0x209, fun w => (StSize.ofCode (fld w 0 3)).bind fun sz => (dM w).bind fun a =>
    (bM w).map fun b => .stb (gOf w) a sz (Buf.ofBit (flag w 5)) b (fld w 12 20)⟩,
  ⟨0x20A, fun w => (dstM w).bind fun d => (bM w).map fun b =>
    .ldbq (gOf w) d (flag w 0) (flag w 1) (flag w 2) (flag w 3) (Rm.ofCode (fld w 4 2)) b (fld w 12 20)⟩,
  ⟨0x210, fun w => (AtomOp.ofCode (fld w 28 4)).bind fun op => (Scope.ofCode (fld w 0 3)).bind fun sc =>
    (dstM w).bind fun d => (opAt w 32).map fun b =>
      .atom (gOf w) d (flag w 8) op sc (AOrder.ofCode (fld w 3 2)) b (fld w 12 16)⟩,
  ⟨0x211, fun w => (Scope.ofCode (fld w 0 3)).bind fun sc => (ASpace.ofCode (fld w 5 2)).bind fun sp =>
    three w (.atomc (gOf w) · · · · sc (AOrder.ofCode (fld w 3 2)) sp)⟩,
  ⟨0x212, fun w => (AtomOp.ofCode (fld w 28 4)).bind fun op => (Scope.ofCode (fld w 0 3)).bind fun sc =>
    (dM w).bind fun a => (opAt w 32).map fun b => .red (gOf w) a op sc (flag w 4) b (fld w 12 16)⟩,
  ⟨0x213, fun w => (AtomOp.ofCode (fld w 28 4)).bind fun op => (Scope.ofCode (fld w 0 3)).bind fun sc =>
    (dstM w).bind fun d => (bM w).map fun b =>
      .batom (gOf w) d (flag w 8) op sc (AOrder.ofCode (fld w 3 2)) (Buf.ofBit (flag w 5)) b (fld w 12 16)⟩,
  ⟨0x218, fun w => (PrefLevel.ofCode (fld w 0 2)).bind fun lv =>
    (opAt w 32).map fun b => .pref (gOf w) lv b (fld w 12 20)⟩,
  ⟨0x219, fun w => if fld w 0 3 = 1#3 then some (.cctlIl1all (gOf w)) else
    (CctlOp.ofCode (fld w 0 3)).bind fun o => (opAt w 32).map fun b => .cctl (gOf w) o b (fld w 12 20)⟩,
  ⟨0x220, fun w => ((opAt w 41).bind zOf).bind fun z => (opAt w 32).map fun d =>
    .stream (gOf w) z d #v[immE w 0 3, immE w 3 3, immE w 6 3, immE w 9 3]⟩,
  ⟨0x221, fun w => ((opAt w 32).bind zOf).bind fun z => (opAt w 41).map fun d => .strmq (gOf w) d z⟩,
  ⟨0x222, fun w => ((opAt w 32).bind zOf).map fun z => .strmend (gOf w) z⟩]

/-- Family 101. -/
def rows5 : List Row := [
  ⟨0x280, fun w => regsE w fun d off n =>
    some (.cekick (gOf w) d off (if n = .zero then .imm (immE w 0 20) else .reg n))⟩,
  ⟨0x281, fun w => (opAt w 32).map fun a => .arrset (gOf w) (immE w 0 4).toFin a (flag w 0)⟩,
  ⟨0x282, fun w => some (.arrwait (gOf w) (immE w 0 16))⟩,
  ⟨0x283, fun w => (opAt w 41).map fun d => .arrtest (gOf w) d (immE w 0 16)⟩,
  ⟨0x284, fun w => if h : (immE w 0 3).toNat < 5 then
    (opAt w 41).map fun d => .tlrd (gOf w) d ⟨(immE w 0 3).toNat, h⟩ (flag w 0) else none⟩,
  ⟨0x285, fun w => if h : (immE w 0 3).toNat < 5 then
    (opAt w 32).map fun a => .tlwait (gOf w) ⟨(immE w 0 3).toNat, h⟩
      (if a = .zero then .imm (immE w 3 17) else .reg a) else none⟩,
  ⟨0x288, fun w => regsE w fun a b c => some (.lstat (gOf w) a b c)⟩,
  ⟨0x289, fun w => some (.swap (gOf w))⟩,
  ⟨0x28A, fun w => regsE w fun d off _ => some (.tenq (gOf w) d off (flag w 3))⟩,
  ⟨0x28B, fun w => (opAt w 41).map fun d => .tqrd (gOf w) d (immE w 0 2).toFin (flag w 0)⟩,
  ⟨0x290, fun w => regsE w fun k off n => (kOf k).map fun k =>
    if n = .zero then .wlinit (gOf w) k off (immE w 0 6) (flag w 9) (immE w 7 13)
    else .wlinitReg (gOf w) k off (immE w 0 6) (flag w 9) n⟩,
  ⟨0x291, fun w => regsE w fun k row a => (kOf k).map fun k =>
    if flag w 1 then .wlthrClr (gOf w) k row else .wlthr (gOf w) k row a (flag w 0)⟩,
  ⟨0x292, fun w => regsE w fun d k row => (kOf k).map fun k => .wlrd (gOf w) d k row (immE w 0 5).toFin (flag w 0)⟩,
  ⟨0x293, fun w => regsE w fun d k row => (kOf k).map fun k => .wlrdt (gOf w) d k row (flag w 0)⟩,
  ⟨0x294, fun w => regsE w fun a b row => (kOf a).bind fun a => (kOf b).map fun b =>
    .wlmrg (gOf w) a b row (immE w 0 13)⟩,
  ⟨0x295, fun w => regsE w fun k row _ => (kOf k).map fun k =>
    .wlclr (gOf w) k (if row = .zero then none else some row) (flag w 0)⟩,
  ⟨0x296, fun w => (NormKind.ofCode (fld w 0 2)).bind fun k => two w (.normb (gOf w) · · · k)⟩,
  ⟨0x2A0, fun w => regsE w fun d off _ => some (.attn (gOf w) d off)⟩,
  ⟨0x2A1, fun w => two w (.rotq (gOf w) · · · (flag w 0))⟩,
  ⟨0x2A2, fun w => regsE w fun d a _ =>
    if fld w 0 2 = 0#2 then some (.kvslab (gOf w) (immE w 0 3).toFin a)
    else if fld w 0 2 = 1#2 then some (.kvslabLen (gOf w) (immE w 0 3).toFin a)
    else some (.kvslabRd (gOf w) d (immE w 0 3).toFin)⟩,
  ⟨0x2A3, fun w => regsE w fun d b off =>
    some (.kvgrow (gOf w) d (immE w 0 3).toFin b off (immE w 3 2).toFin (immE w 5 4).toFin)⟩,
  ⟨0x2A4, fun w => regsE w fun d a _ =>
    if flag w 0 then some (.smergeFin (gOf w) d (immE w 0 7) (flag w 10) (Rm.ofCode (fld w 1 2)))
    else some (.smerge (gOf w) d a (immE w 0 7) (flag w 10))⟩,
  ⟨0x2A5, fun w => regsE w fun a b _ =>
    if fld w 0 2 = 0#2 then some (.splice (gOf w) (immE w 0 3).toFin (immE w 3 3).toFin a b)
    else if fld w 0 2 = 1#2 then some (.spliceFix (gOf w) (immE w 0 3).toFin (immE w 3 3).toFin)
    else some (.spliceClr (gOf w) (immE w 0 3).toFin (immE w 3 3).toFin)⟩]

/-- Family 110. -/
def rows6 : List Row := [
  ⟨0x300, fun w => (barOf w).map fun b => .bar (gOf w) b⟩,
  ⟨0x301, fun w => (barOf w).map fun b => .bara (gOf w) b⟩,
  ⟨0x302, fun w => (barOf w).map fun b => .barw (gOf w) b⟩,
  ⟨0x303, fun w => (barOf w).bind fun b => (opAt w 41).map fun d => .barq (gOf w) d b⟩,
  ⟨0x304, fun w => (Scope.ofCode (immE w 0 3)).bind fun sc =>
    (FenceOrd.ofCode (immE w 3 2)).map fun o => .fence (gOf w) o sc⟩,
  ⟨0x305, fun w => (opAt w 41).map fun d => .cljoin (gOf w) d (immE w 0 3).toFin⟩,
  ⟨0x306, fun w => some (.clleave (gOf w))⟩,
  ⟨0x307, fun w => (opAt w 32).map fun a =>
    if a = .zero then .sleep (gOf w) (immE w 0 20) else .sleepReg (gOf w) a⟩,
  ⟨0x310, fun w => regsE w fun a b c => some (.fmsg (gOf w) a b c (immE w 0 8) (immE w 8 4).toFin)⟩,
  ⟨0x311, fun w => regsE w fun d e _ =>
    if fld w 0 2 = 0#2 then some (.fpoll (gOf w) d (immE w 0 4).toFin (flag w 2))
    else if fld w 0 2 = 1#2 then some (.fpollBind (gOf w) e)
    else some (.fpollUnbind (gOf w))⟩,
  ⟨0x312, fun w => regsE w fun d off _ => some (.coll (gOf w) d off)⟩,
  ⟨0x313, fun w => (NoiseKind.ofCode (fld w 0 2)).bind fun k => three w (.noise (gOf w) · · · · k)⟩,
  ⟨0x314, fun w => regsE w fun a off _ => some (.cbpost (gOf w) a off (immE w 0 4).toFin (immE w 4 16))⟩]

/-- Family 111. -/
def rows7 : List Row := [
  ⟨0x380, fun w => some (.bra (gOf w) (fld w 0 32))⟩,
  ⟨0x381, fun w => (opAt w 32).map fun a => .brx (gOf w) a⟩,
  ⟨0x382, fun w => (opAt w 41).bind fun l => (opAt w 32).map fun a =>
    if a = .zero then .call (gOf w) l (fld w 0 32) else .callIndirect (gOf w) l a⟩,
  ⟨0x383, fun w => (opAt w 32).map fun a => .ret (gOf w) a⟩,
  ⟨0x384, fun w => some (.exit (gOf w))⟩,
  ⟨0x388, fun w => ((opAt w 41).bind pOf).map fun p => .meld (gOf w) p (flag w 3)⟩,
  ⟨0x389, fun w => some (.melde (gOf w))⟩,
  ⟨0x38A, fun w => if flag w 0 then some (.rnsetClr (gOf w) (flag w 8)) else
    ((opAt w 41).bind vOf).bind fun a => ((opAt w 32).bind vOptOf).bind fun b => ((opAt w 23).bind vOptOf).map fun c =>
      .rnset (gOf w) (flag w 8) (flag w 7) (immE w 0 4).toFin a b c⟩,
  ⟨0x38B, fun w => some (.serb (gOf w) (immE w 0 20))⟩,
  ⟨0x38C, fun w => some (.sere (gOf w))⟩,
  ⟨0x38D, fun w => ((opAt w 41).bind pOf).map fun p => .refill (gOf w) p⟩,
  ⟨0x38E, fun w => some (.yield (gOf w))⟩,
  ⟨0x38F, fun w => some (.nopre (gOf w))⟩,
  ⟨0x390, fun w => some (.preok (gOf w))⟩,
  ⟨0x391, fun w => some (.brk (gOf w) (immE w 0 20))⟩,
  ⟨0x392, fun w => some (.trap (gOf w) (immE w 0 20))⟩,
  ⟨0x3A0, fun w => some (.trapret (gOf w) (flag w 0))⟩,
  ⟨0x3A1, fun w => regsE w fun b l a => some (.tlbir (gOf w) b l (if flag w 0 then none else some a))⟩,
  ⟨0x3A2, fun w => some (.tlback (gOf w))⟩,
  ⟨0x3A3, fun w => (opAt w 41).map fun d =>
    if flag w 0 then .errqLog (gOf w) d (flag w 1) else .errq (gOf w) d (flag w 1)⟩,
  ⟨0x3A4, fun w => (opAt w 32).map fun a => .bblog (gOf w) (immE w 0 6) a⟩]

/-- The rows of a family (R133: the high three bits of the opcode select it). -/
def familyRows (f : Nat) : List Row :=
  match f with
  | 0 => rows0
  | 1 => rows1
  | 2 => rows2
  | 3 => rows3
  | 4 => rows4
  | 5 => rows5
  | 6 => rows6
  | _ => rows7

/-- What the fields of a word say, before the checks of R130 and of the operand classes. -/
def candidate (w : DWord) : Option Instr :=
  ((familyRows (fld w 61 3).toNat).find? (fun r => r.op == (fld w 54 10).toNat)).bind (fun r => r.build w)

/-- The decoder: a word stands for `i` when its fields say `i`, `i` is well formed, and no other field of the word holds
anything but its fixed value (R130). -/
def decode (w : DWord) : Option Instr :=
  match candidate w with
  | none => none
  | some i => if i.wf && encode i == some w then some i else none

/-- The little-endian 64-bit value of a list of bytes (R4). -/
def leWord (bs : List Byte) : DWord :=
  BitVec.ofNat 64 (bs.foldr (fun b acc => b.toNat + 256 * acc) 0)

/-- The `n` little-endian bytes of a number (R4). -/
def leBytes (n x : Nat) : List Byte := (List.range n).map fun i => BitVec.ofNat 8 (x / 256 ^ i)

/-- The decoder on an instruction as the table numbers its bits: one 64-bit word, stored little-endian (R4). -/
def decodeTableWord (nbits w : Nat) : Option Instr :=
  decode (leWord (leBytes 8 (w % 2 ^ nbits)))

end Sys2Proof
end

