-- ==== Sys2Proof/Machine/State.lean ====
section
/-!
DEFINITION. The state of the machine: everything the spec gives it, as plain data, and State.reset. INVENTORY.md lists
each field with its rule and its start value.
-/

namespace Sys2Proof.Machine

/-- A map by number: the keys strictly rise. -/
abbrev AMap (α : Type) := List (Nat × α)

/-- Bytes by address in the canonical form of log 3: addresses strictly rise and no byte listed is 0. -/
abbrev Mem := List Host.Cell

/-! ### Registers of a warp -/

/-- A physical slot bound to a v name (R145): 32 lane values, the live-lane mask and the consumer count (R146). -/
structure Slot where
  vals : Lanes Word
  mask : Mask
  count : Nat
deriving DecidableEq, Repr, Inhabited

/-- An index register of one lane (R156). -/
structure XReg where
  base : BitVec 16
  limit : BitVec 16
  cursor : BitVec 16
deriving DecidableEq, Repr, Inhabited

/-- A stream descriptor (R285). -/
structure StreamDesc where
  base : DWord
  space : Nat
  esize : Nat
  rank : Nat
  counts : Vector Nat 4
  strides : Vector Word 4
  laneStride : Word
deriving DecidableEq, Repr, Inhabited

/-- The z state of a bound stream (R286). `ahead` are the elements fetched ahead of delivery, the next one first: of each, the
bytes that were read for its lanes (R287). -/
structure Stream where
  desc : StreamDesc
  idx : Vector Nat 4
  sel : Vector (BitVec 3) 4
  exhausted : Bool
  delivered : Nat
  ahead : List (List (Fin 32 × List Byte))
deriving DecidableEq, Repr, Inhabited

/-- An operand latch (R154, R155): the lane values, and for each lane how many further instructions may read it. -/
structure Latch where
  vals : Lanes Word
  life : Lanes Nat
deriving DecidableEq, Repr, Inhabited

/-- The register files of a warp. -/
structure Regs where
  v : AMap Slot
  s : Vector Word 64
  p : Vector Mask 7
  x : Vector (Lanes XReg) 8
  z : Vector (Option Stream) 8
  k : Vector DWord 8
  lat : Vector Latch 3
  /-- Renaming entries (R171); table t, path q is row 2t + q. -/
  ren : Vector (Vector (Option (Fin 256)) 16) 4
  nstat : Word
  elect : Fin 32
deriving DecidableEq, Repr, Inhabited

/-! ### Lanes and splits -/

/-- A program counter (R116): the code offset of a clause header and an instruction index. -/
structure Pc where
  hdr : Nat
  idx : Nat
deriving DecidableEq, Repr, Inhabited

/-- Lane state of a warp (R166): live, in-meld with path and table, in-serial, serial-waiting and in-handler, and the
next program counter of each lane that is not at its split's. -/
structure LaneState where
  live : Mask
  inMeld : Mask
  path : Mask
  table : Mask
  inSerial : Mask
  serWait : Mask
  inHandler : Mask
  pcs : Lanes Pc
deriving DecidableEq, Repr, Inhabited

/-- A destination whose value comes back after its instruction has issued (R239, R278): the operand, its lanes, and the v names
that it stood for, each with its lanes. The warp's scoreboard keeps it (R160). -/
structure Late where
  d : Operand
  lanes : Mask
  names : List (Nat × Mask)
deriving DecidableEq, Repr, Inhabited

/-- What holds a split back. -/
inductive Wait where
  /-- Nothing: it runs, or it waits unstarted at its header (R119). -/
  | none
  /-- `ARRWAIT` (R320). -/
  | arr (mask : BitVec 16)
  /-- `TLWAIT` (R321). -/
  | tl (n : Fin 5) (v : DWord)
  /-- `BAR`, `BARW` (R401) by these lanes. -/
  | bar (b : Bar) (lanes : Mask)
  /-- `SLEEP` (R405): the %sync time before which it is not eligible. -/
  | sleep (t : Nat)
  /-- `TLBACK` (R471): the operations awaited. -/
  | tlback (ops : List Nat)
  /-- A posted fault (R456) in this slot of the die's queue. -/
  | fault (slot : Nat)
  /-- `CLJOIN` until its change has taken effect (R399, R404): its number and its destination. -/
  | join (op : Nat) (d : Late)
  /-- `CLLEAVE` until its acknowledgement (R239). -/
  | leave
  /-- An atomic performed beyond the core until its old values return (R278): the operation's number, its destination, and the
  acquire that it makes then (R276). -/
  | atomic (op : Nat) (d : Late) (acq : Option Scope)
  /-- A strict `LSTAT` until its load ends (R322). -/
  | planeLoad
  /-- A pending trap (R177). -/
  | pending
deriving DecidableEq, Repr, Inhabited

/-- A split (R167): its lanes, its clause and position, its pass count and what holds it. `left` are the lanes that have
left the clause early (R116); `port` is the fetch port it runs on; `serb` is the end of the region a `SERB` waits to open
(R175), `tlv` the value of its header's timeline wait, once read (R119), and `sel` its place in the order of
selection (R153). `code` are the instructions of the clause as they were fetched (R118, R19). `fence` says that its `FENCE` has
begun (R403), `mark` is the instant from which a release of its waits for earlier output (R265, R403), `stalled` says that its instruction
has waited at issue, and `plane`, of a strict `LSTAT` whose load has ended, whether the plane was malformed (R322). -/
structure Split where
  lanes : Mask
  left : Mask
  hdr : Nat
  idx : Nat
  pass : Nat
  port : Option (Fin 2)
  header : DWord
  latPtr : Fin 3
  yields : Bool
  sel : Nat
  serb : Option Nat
  tlv : Option DWord
  code : List DWord
  fence : Bool
  mark : Option Nat
  stalled : Bool
  plane : Option Bool
  wait : Wait
deriving DecidableEq, Repr, Inhabited

/-- A serial region in progress (R175): its first clause, its last, and the running lane. -/
structure SerialRegion where
  first : Nat
  last : Nat
  lane : Fin 32
deriving DecidableEq, Repr, Inhabited

/-- A trap that an instruction asks for: kind and cause of R450 and R246, the lanes, the position, the address, and for a
race the word's address, the recorded party, its instant and RACEK [2:1] (R420). -/
structure TrapReq where
  kind : Nat
  cause : Nat
  lanes : Mask
  va : DWord
  write : Bool
  code : Nat
  race : Option (DWord × Word × Nat × Nat)
  pc : Pc
deriving DecidableEq, Repr, Inhabited

/-- The trap record (R453), the race registers (R420) and the traps in hand (R177, R454). -/
structure TrapState where
  info : Word
  code : Word
  mask : Word
  pc : DWord
  va : DWord
  path : Word
  raceVa : DWord
  raceP : Word
  raceT : DWord
  raceK : Word
  /-- The latches as the trap found them, the split's latch pointer (R155), and whether its clause had yielded (R187). -/
  lat : Vector Latch 3
  latPtr : Fin 3
  yields : Bool
  /-- The trap in hand, delivered or posted, and the cycle of its fault where an instruction raised it; the split that the
  delivered one was raised in as that stood then; and the trap that is held (R177). -/
  current : Option (TrapReq × Option Nat)
  whence : Option (Nat × Split)
  pending : Option TrapReq
deriving DecidableEq, Repr, Inhabited

/-- What a release covers (R415): a scope of R397 seen from the warp, or a barrier. -/
inductive Cover where
  | scope (sc : Scope)
  | bar (b : Bar)
deriving DecidableEq, Repr, Inhabited

/-- One entry of a warp's release ring (R415). -/
structure Release where
  t : Nat
  cover : Cover
deriving DecidableEq, Repr, Inhabited

/-- Barrier flags of a warp for one barrier (R389), the arrivals made but not yet counted (R391, R392) with the number of
operations that come before them, those that are in the lager buffer, and those counted in the phase. `excused` are lanes
that a refill revived in the phase, which join the group with the next one (R388). -/
structure BarFlags where
  arrived : Mask
  pending : Mask
  counted : Mask
  sent : Mask
  excused : Mask
  after : Nat
  target : Lanes Word
deriving DecidableEq, Repr, Inhabited

/-- A memory operation in flight (R161), with its number and the instant of its issue. -/
structure MemOp where
  num : Nat
  at_ : Nat
  /-- Completes only after the warp's earlier output has left the core (R265, R269). -/
  afterOut : Bool
  /-- It is a load or an atomic (R403). -/
  read : Bool
  /-- A release store at `.wrp` or `.blk` whose release is made when the warp's earlier operations are complete (R265). -/
  rel : Option Scope
deriving DecidableEq, Repr, Inhabited

/-- Ordering state of a warp: operations in flight (R161), releases and acquires (R415), engine operations acquired
(R299, R301), those on counters with the instant of the latest wait, barrier flags (R389), warp barrier phases (R387), and translations being invalidated (R471). `ordered` is the
model's own: for an agent's code, the instant up to which its accesses are ordered before what the warp does next (R408,
log 137). -/
structure OrdState where
  ops : List MemOp
  opCtr : Nat
  ring : List Release
  lastAcq : Vector Nat 7
  barAcq : AMap Nat
  ordered : AMap Nat
  engTl : Vector DWord 5
  engOps : List (Nat × DWord × Nat)
  bars : AMap BarFlags
  wrpPhase : Vector Word 4
  tlbOps : List Nat
deriving DecidableEq, Repr, Inhabited

/-- An instruction that a warp of a `.paired` kernel has issued and its shadow has yet to execute and compare (R467): its instant,
its word and the lanes that issued it; the registers before it, which are the shadow's when it comes to it; and what the
instruction wrote, among it what the shadow takes from the queue: a loaded value or an atomic's old value. -/
structure ShadowRec where
  t : Nat
  word : DWord
  lanes : Mask
  reg : Regs
  vals : List (Nat × Lanes Word)
deriving DecidableEq, Repr, Inhabited

/-- A warp. `retired` once it has released its slots (R478); `noPre` is the non-preemptible flag with the %sync time
of its `NOPRE` (R178); `refill` is its refill point and the predicate its
`REFILL` names (R176); `recheck` marks a warp that re-executes after a race was
found at a home, whose accesses to that line are checked at issue (R419); `shadow` is what its shadow warp has yet to execute, the
oldest first (R467). -/
structure Warp where
  lane : LaneState
  reg : Regs
  splits : AMap Split
  splitCtr : Nat
  noPre : Bool
  watchAt : Nat
  overrun : Bool
  refill : Option (Nat × Nat)
  serial : Option SerialRegion
  yielded : Bool
  retired : Bool
  autoRefill : Option (Option Nat)
  recheck : List Nat
  trap : TrapState
  ord : OrdState
  shadow : List ShadowRec := []
deriving DecidableEq, Repr, Inhabited

/-! ### Blocks -/

/-- An engine context (R300): the number last assigned, the completed prefix, and numbers complete out of order. -/
structure Ctx where
  enq : DWord
  done : DWord
  late : List DWord
deriving DecidableEq, Repr, Inhabited

/-- A splice entry (R359). -/
structure SpliceEnt where
  valid : Bool
  first : Nat
  delta : Int
  stale : Nat
deriving DecidableEq, Repr, Inhabited

/-- A slab register (R357, R359): its fields, its splice table, its link and whether a growth is pending. -/
structure Slab where
  valid : Bool
  len : Nat
  wrec : Nat
  etype : Nat
  hd : Bool
  lg : Nat
  base : Nat
  splices : Vector SpliceEnt 8
  link : Option (Fin 4)
  growing : Bool
deriving DecidableEq, Repr, Inhabited

/-- A forwarding pair (R364): state 0 idle, 1 moving, 2 done. -/
structure FwPair where
  old : DWord
  new : DWord
  total : Word
  moved : Word
  st : Nat
deriving DecidableEq, Repr, Inhabited

/-- Owner of a copy request: a block, or a COPY node of a resident graph (R75). -/
inductive CopyOwner where
  | blk (uid : Nat)
  | node (gr node : Nat)
deriving DecidableEq, Repr, Inhabited

/-- A kick: its owner, the address of its next request (ABUF offset, or virtual address for a graph), that request's tl0
number, how many requests are left to start, and the slab growth it serves (R381). -/
structure Kick where
  owner : CopyOwner
  off : Nat
  num : DWord
  n : Nat
  grow : Option (Fin 8 × Nat)
deriving DecidableEq, Repr, Inhabited

/-- A request under way (R293-R297): the 32 bytes read, its range-scoreboard entry, the bytes it counts down and those
counted, how far it has come and, for COMPACT, the bytes packed, its code once its work is done or has stopped, the events
of its flags, its tensor descriptors, index list or keep mask as read at its start (log 84), the 64-byte source granules that
it has read, each with its space and address (R241), the pages a tier miss has been raised for, and the fault-queue slot it waits on. -/
structure CopyOp where
  id : Nat
  kick : Kick
  words : List Byte
  sbSpace : Nat
  sbLo : Nat
  sbHi : Nat
  counted : Nat
  total : Nat
  pos : Nat
  out : Nat
  finished : Option Nat
  flags : Nat
  ctl : List Byte
  held : List (Nat × Nat × List Byte)
  pages : List Nat
  waitSlot : Option Nat
deriving DecidableEq, Repr, Inhabited

/-- A queued tile-task record (R302): the enqueuing block and warp, the 64 bytes, its offset, its number, the copy of
the winner-list handle (R330), and its queue (R305). -/
structure TileRec where
  blk : Nat
  off : Nat
  num : DWord
  bytes : List Byte
  handle : DWord
  high : Bool
  members : List (Nat × DWord × List Byte)
  /-- The core on whose array the task ran before a save or a rollback. -/
  ran : Option Nat := none
deriving DecidableEq, Repr, Inhabited

/-- An attention record (R368) with its slab copy (R378), and the pages for which its task has raised a tier-miss event
(R230). -/
structure AttnRec where
  blk : Nat
  off : Nat
  num : DWord
  bytes : List Byte
  slab : Slab
  stale : Bool
  pages : List Nat
deriving DecidableEq, Repr, Inhabited

/-- The queued and aborted work of a saved block (R107, R461): kicks, suspended requests, tile and attention records, each
in its queue's order. -/
structure BlkWork where
  kicks : List Kick
  copies : List CopyOp
  high : List TileRec
  normal : List TileRec
  attn : List AttnRec
deriving DecidableEq, Repr, Inhabited

/-- Race record of a 64-byte typed-buffer granule (R416): 16 words of writer and readers, the earliest instants, the
single reader, the writing agent of each word, the atomic record, and the epoch, plus
one, of the latest write (R238).
`entered`, `done` and `seen` are the model's own (log 30): for each word, the instant at which its write entered the lager buffer
of the writer's core, that at which it was performed, and the reads that its `readers` stands for, with their agents and first
instants. -/
structure GranRec where
  writer : Vector Nat 16
  readers : Vector Nat 16
  wtime : Nat
  rtime : Nat
  reader : Word
  wagent : AMap Word
  amask : BitVec 16
  ascope : Nat
  lastW : Nat
  entered : AMap Nat
  done : AMap Nat
  seen : List (Nat × Word × Nat)
deriving DecidableEq, Repr, Inhabited

/-- Where a block stands in its life (R107, R109): a drain lets it run on, a save stops its warps at their clause
boundaries before it is saved, and a block to be flushed issues nothing more. -/
inductive BlkState where
  | running | draining | saving | flushing | saved
deriving DecidableEq, Repr, Inhabited

/-- A pre-emption request that waits (R102). -/
structure PreReq where
  bound : Nat
  saveOnly : Bool
deriving DecidableEq, Repr, Inhabited

/-- A typed buffer allotment: its size in bytes and its contents (R232). -/
structure Buffer where
  size : Nat
  data : Mem
deriving DecidableEq, Repr, Inhabited

/-- Where a block runs (R9): its index in the grid, its launch cluster, die, core in the die and slot. -/
structure Place where
  index : Nat
  lcluster : Nat
  die : Nat
  core : Nat
  slot : Nat
deriving DecidableEq, Repr, Inhabited

/-- What some operations of one context pass on to the warp that acquires them (R408): the context, the first number and how
many, and, for an agent's code, the instant up to which its accesses come before their enqueue. The model's own (log 137). -/
structure OpOrder where
  ctx : Nat
  first : DWord
  n : Nat
  upTo : AMap Nat
deriving DecidableEq, Repr, Inhabited

/-- Engine-side state of a block: contexts, counters with the operations counted on each and how often each was set, slab
registers, forwarding pairs, fault bits, endpoint and peer set, messages in flight. `orders` is the model's own. -/
structure BlkEng where
  tl : Vector Ctx 5
  c : Vector Word 16
  counted : Vector (List (Nat × DWord)) 16
  sets : Vector Nat 16
  orders : List OpOrder
  kv : Vector Slab 8
  fw : Vector FwPair 4
  tmiss : Word
  tmva : DWord
  tileFault : Bool
  copyFault : Bool
  fabFault : Bool
  fabCode : Nat
  endpoint : Option Nat
  peer : Option (Nat × Nat)
  inFlight : Nat
deriving DecidableEq, Repr, Inhabited

/-- A block (R8-R13). `since` is the %sync time of its start or latest resume (R102), and `past` where it ran before it was
saved, with the times from and to (R415). -/
structure Block where
  launch : Nat
  place : Place
  state : BlkState
  warps : AMap Warp
  w : Vector Word 32
  wOwner : Vector (Option Nat) 32
  wPend : Vector Word 32
  abuf : Buffer
  cbuf : Buffer
  wbuf : Buffer
  bphase : Vector Word 16
  eng : BlkEng
  raceA : AMap GranRec
  raceC : AMap GranRec
  startAt : Nat
  since : Nat
  past : List (Place × Nat × Nat)
  escaped : Bool
  preReq : Option PreReq
  area : Option (Nat × Nat)
  /-- What of the image of a save has not found room in the lager buffer yet (R107, R464). -/
  unsent : List (Nat × Byte)
  work : BlkWork
deriving DecidableEq, Repr, Inhabited

/-! ### Core -/

/-- A copy of a line in an L1 (R228, R411), when it was filled, and which of its two sectors are poisoned (R259). -/
structure L1Line where
  line : Nat
  at_ : Nat
  bytes : List Byte
  poison : BitVec 2
deriving DecidableEq, Repr, Inhabited

/-- A cached translation (R248): ASID, world, the page's virtual base and lg size, and the leaf entry. -/
structure TlbEnt where
  asid : Nat
  world : Bool
  vbase : Nat
  lg : Nat
  leaf : DWord
deriving DecidableEq, Repr, Inhabited

/-- A running task on an array (R306-R308): the record, what an MTOPK task read at its dispatch (thresholds, biases and the norm
tables, R334, R338), how many records of a ragged group have begun to stream (R311, R498), how many passes are known to have
ended (R317), and, once it has run, its results. -/
structure TileRun where
  task : TileRec
  theta : List (Option Word)
  bias : List Word
  an : List (List Word)
  bn : List (List Word)
  streamed : Nat
  ended : Nat
  computed : Bool
  code : Nat
  flags : Nat
  passes : Nat
  mstat : Nat
  /-- Bytes to write in CBUF at commit; for MTOPK the candidates as 8-byte entries by row. -/
  out : List (Nat × Byte)
  cand : List (Nat × List (Word × Word))
deriving DecidableEq, Repr, Inhabited

/-- The head attention task once its waits have held (R370-R372): whether it holds the array, the bytes of its tokens read so far,
and how many key blocks are known to have ended (R317). -/
structure AttnRun where
  holds : Bool
  got : List Byte
  ended : Nat
  computed : Bool
  code : Nat
  flags : Nat
  kread : Nat
  tmpage : Nat
  out : List (Nat × Byte)
  waitSlot : Option Nat
deriving DecidableEq, Repr, Inhabited

/-- A plane of the array (R313): its tag, launch and generation, its format word and its bytes. -/
structure Plane where
  tag : Option (Nat × BitVec 16)
  fmt : Word
  bytes : List Byte
deriving DecidableEq, Repr, Inhabited

/-- A core's array (R313-R317). `loading` holds the block, its launch, what the tag becomes, the format word and the WBUF offset;
`strictSplit` is the split whose strict `LSTAT` loads (R322). -/
structure ArrayState where
  active : Plane
  shadow : Plane
  swapPending : Bool
  loading : Option (Nat × Nat × BitVec 16 × Word × Nat)
  strictSplit : Option (Nat × Nat × Nat)
  run : Option TileRun
  commits : List TileRun
  narrow : Bool
deriving DecidableEq, Repr, Inhabited

/-- A fabric message (R429). Its source is a die of the package, 4 for another device, or, for what a core's log delivers
again to the block `blk` (R432), 5, and 6 where that was the verdict of a post. -/
structure Msg where
  id : Nat
  blk : Nat
  num : DWord
  srcDie : Nat
  world : Bool
  addr : Word
  doff : Nat
  ctr : Nat
  data : List Byte
  agent : Word
  /-- For what a log delivers again: how many `ARRSET`s the counter had seen when it came first. -/
  sets : Nat := 0
  /-- What its enqueue comes after (R408). -/
  upTo : AMap Nat := []
deriving DecidableEq, Repr, Inhabited

/-- What an item of outward output is (R464). -/
inductive OutKind where
  /-- Bytes for physical memory: with `upd` the item is a `RED` at the home (R278). -/
  | store (pa : Nat) (bytes : List (Nat × Byte))
  | red (pa : Nat) (op : AtomOp) (xs : List Word) (sc : Scope)
  /-- Tier-2 atomic (R278): the operation, or compare and exchange, on each lane, with the destination. -/
  | hostAtom (pa : Nat) (op : Option AtomOp) (xs : List (Fin 32 × Word × Word)) (opNum : Nat) (d : Option Dst)
  | window (blk : Nat) (c : Bool) (off : Nat) (bytes : List (Nat × Byte))
  | windowAtom (blk : Nat) (c : Bool) (off : Nat) (op : Option AtomOp) (xs : List (Fin 32 × Word × Word))
      (sc : Scope) (opNum : Nat) (d : Option Dst)
  | arrival (b : Bar) (lanes : Mask)
  | message (m : Msg)
  | contribution (inst : Nat)
  | post (off : Nat) (pred : Nat) (ctr : Nat) (num : DWord) (budget : Nat) (data : List Byte)
  | join (set op : Nat)
  | leave
  | fshare (v : Word)
  | bblog (code asid : Nat) (data : DWord)
deriving DecidableEq, Repr, Inhabited

/-- An item of outward output: the epoch it was made in, the block and warp (16 = an engine), the agent and instant it
carries (R417), whether it is a release, its virtual address, and the instant at which it left the core and its races were
judged (R419). -/
structure OutItem where
  epoch : Nat
  die : Nat
  core : Nat
  blk : Nat
  warp : Nat
  agent : Word
  t : Nat
  rel : Option Scope
  atom : Option Scope
  va : DWord
  left : Option Nat
  /-- When its address was translated, where that was before `t`: drained non-temporal data (R273, R471). -/
  used : Option Nat := none
  kind : OutKind
deriving DecidableEq, Repr, Inhabited

/-- Non-temporal data of one warp not yet drained (R273), and the instant of its `STNT`, which translated its address. -/
structure NtItem where
  blk : Nat
  warp : Nat
  pa : Nat
  va : DWord
  bytes : List (Nat × Byte)
  t : Nat
deriving DecidableEq, Repr, Inhabited

/-- Slots that serve rollback (R149): sub-core, bank, the epoch of the release, how many. -/
structure Retained where
  blk : Nat
  sub : Nat
  bank : Nat
  epoch : Nat
  n : Nat
deriving DecidableEq, Repr, Inhabited

/-- A reservation of a retired warp (R478): sub-core, slots per bank, the epoch of the retirement. -/
structure Leftover where
  blk : Nat
  sub : Nat
  perBank : Nat
  epoch : Nat
deriving DecidableEq, Repr, Inhabited

/-- The part of a core that a checkpoint holds (R463): queues, running operations, array, retention. -/
structure CoreBody where
  kicks : List Kick
  copies : List CopyOp
  high : List TileRec
  normal : List TileRec
  attn : List AttnRec
  attnRun : Option AttnRun
  array : ArrayState
  retained : List Retained
  leftover : List Leftover
  nt : List NtItem
deriving DecidableEq, Repr, Inhabited

/-- A checkpoint (R463): the epoch boundary it was taken at, the core's part and the resident blocks. -/
structure Checkpoint where
  epoch : Nat
  body : CoreBody
  blocks : AMap Block
deriving DecidableEq, Repr, Inhabited

/-- A core: among its logs, the epochs in which its array ran tasks for other cores, with the core (R465). -/
structure CoreState where
  body : CoreBody
  world : Option Bool
  l1 : List L1Line
  tlb : List TlbEnt
  copyTlb : List TlbEnt
  attnTlb : List TlbEnt
  lager : List OutItem
  strikes : Word
  popLog : List (Nat × Nat × Nat × Word)
  popReplay : List (Nat × Nat × Word)
  msgLog : List (Nat × Msg)
  crossRuns : List (Nat × Nat)
  ckpts : List Checkpoint
deriving DecidableEq, Repr, Inhabited

/-! ### Die -/

/-- Who posted a fault and waits for its verdict (R456): a split at an instruction, a copy request, the head attention
task, a collective's read of its table, or an automatic refill (R176). -/
inductive Poster where
  | warp (blk warp split : Nat) (req : TrapReq)
  | copy (core id : Nat)
  | attn (core : Nat)
  | coll (inst blk : Nat)
  | refill (blk warp : Nat)
deriving DecidableEq, Repr, Inhabited

/-- A slot of the fault queue (R456): its words, whether `ERRQ` has read it, its order, and who posted it. -/
structure FaultEnt where
  words : Vector Word 4
  read : Bool
  order : Nat
  poster : Poster
deriving DecidableEq, Repr, Inhabited

/-- A black-box entry (R468). -/
structure BbEnt where
  data1 : DWord
  data0 : DWord
  agent : Word
  type : Nat
  kind : Nat
  asid : Nat
  time : Nat
deriving DecidableEq, Repr, Inhabited

/-- A predicate run of the control core (R77-R79, R449), in ready order: a CALLBACK node that is ready and whose descriptor has
not yet been read, one that has, or a post. -/
inductive Call where
  | ready (gr node : Nat)
  | node (gr node : Nat) (desc : List Byte)
  | post (blk : Nat) (off : Nat) (ctr : Nat) (num : DWord) (pred : Nat) (budget : Nat)
deriving DecidableEq, Repr, Inhabited

/-- Where a graph node stands (R72). -/
inductive NodeState where
  | idle | ready | running | done | skipped
deriving DecidableEq, Repr, Inhabited

/-- A node of a resident graph (R69) with its progress: the predecessors that have finished, each with whether it counts as
completed, and for a WHILE its iterations (R72). -/
structure Node where
  type : Nat
  succ : List Nat
  aux : Nat
  limit : Nat
  npred : Nat
  tl : Nat
  arg0 : DWord
  arg1 : DWord
  st : NodeState
  heard : List (Nat × Bool)
  iters : Nat
  /-- A CALLBACK after a VETO (R78): the first node of its redraw range, and whether the range runs again yet. -/
  redraw : Option (Nat × Bool)
deriving DecidableEq, Repr, Inhabited

/-- A resident graph (R61, R69-R74): its context, queue and entry number, the timeline it raises, and a failure. -/
structure Graph where
  ctx : Nat
  queue : Nat
  entry : Word
  tl : Nat
  value : DWord
  nodes : AMap Node
  failed : Option (Nat × Nat)
deriving DecidableEq, Repr, Inhabited

/-- A test of a cluster that has fallen due (R112): the %sync time from which it may run, whether the placer runs it, so that
no block is placed on the cluster any more, and whether its saves have been requested. -/
structure TestRun where
  cluster : Nat
  from_ : Nat
  begun : Bool
  open_ : Bool
deriving DecidableEq, Repr, Inhabited

/-- What the scheduler of a hardware cluster saw at its latest dispatch point (R305): the cores whose arrays were taken, the
queue heads (core, high queue, block, number) with whether their waits held, and the cores whose arrays loaded a plane. -/
structure DispatchSeen where
  busy : List Nat
  heads : List (Nat × Bool × Nat × DWord × Bool)
  loads : List Nat
deriving DecidableEq, Repr, Inhabited

/-- A hardware cluster: the core that dispatched last (R305), what its scheduler last saw, the cores on whose arrays a swap has
taken effect since, the cycle of its latest dispatch point with the queues (core, high) that lost their heads in it (R316), and
the peer sets (R236) as (index, block) pairs. -/
structure Cluster where
  rr : Nat
  seen : DispatchSeen
  swapped : List Nat
  at_ : Nat
  popped : List (Nat × Bool)
  peers : Vector (List (Nat × Nat)) 8
deriving DecidableEq, Repr, Inhabited

/-- Monitors and the power alarm (R485, R486). -/
structure Monitors where
  temp : Vector (BitVec 16) 12
  vmon : Vector (BitVec 16) 4
  pmon : BitVec 16
  tlim : Nat
  alarm : Bool
  board : Bool
  force : Bool
deriving DecidableEq, Repr, Inhabited

/-- The frame-sharing registers (R252): the pair last written and the status; `pte` while an operation is in progress. -/
structure Fshare where
  lo : Word
  hi : Word
  busy : Bool
  outcome : Nat
  pte : Option (Nat × Nat × Nat)
deriving DecidableEq, Repr, Inhabited

/-- A die. -/
structure Die where
  iftEnable : Bool
  iftPeriod : Nat
  fsh : Fshare
  vatcfg : BitVec 8
  ovfPool : List Nat
  ovfWait : Bool
  srb : Vector Word 16
  srl : Vector Word 16
  saveBase : Word
  saveLen : Word
  areas : List (Nat × Nat)
  fq : AMap FaultEnt
  fqOrder : Nat
  postQ : List (Vector Word 4 × Poster)
  errLog : List (Vector Word 4)
  bb : AMap BbEnt
  bbHead : Nat
  frozen : Bool
  autofreeze : Bool
  bbHost : DWord
  mon : Monitors
  endpoints : AMap Nat
  mail : AMap (List Msg)
  ingress : List Msg
  calls : List Call
  callAt : Nat
  graphs : AMap Graph
  inUse : BitVec 12
  tests : List TestRun
  lastTest : Vector Nat 12
  tlb : List TlbEnt
  tlbBig : List TlbEnt
  rrCtx : Nat
  clusters : Vector Cluster 12
  stopped : Bool
deriving DecidableEq, Repr, Inhabited

/-! ### Contexts -/

/-- A queue block (R58). -/
structure Queue where
  fnode : BitVec 16
  failAt : Word
  tail : Word
  head : Word
  status : BitVec 8
  halted : Bool
  late : Bool
  enable : Bool
  lgsize : Nat
  base : DWord
deriving DecidableEq, Repr, Inhabited

/-- A context timeline (R66). -/
structure Timeline where
  value : DWord
  irqAt : DWord
deriving DecidableEq, Repr, Inhabited

/-- A gang block (R92); `releasing` after arm = 0 while members are admitted (R94). -/
structure Gang where
  deferS : Nat
  admitted : Nat
  members : Nat
  clusters : BitVec 12
  state : Nat
  started : Bool
  releasing : Bool
deriving DecidableEq, Repr, Inhabited

/-- A context (R56). -/
structure Context where
  asid : BitVec 16
  world : Bool
  valid : Bool
  queues : Vector Queue 8
  tls : Vector Timeline 16
  gangs : Vector Gang 4
deriving DecidableEq, Repr, Inhabited

/-! ### Launches -/

/-- The accepted copy of the kernel header (R14, R19). -/
structure Header where
  wbuf : Nat
  cbuf : Nat
  abuf : Nat
  grdBars : Nat
  flrBars : Nat
  cluBars : Nat
  blkBars : Nat
  arrivals : Nat
  uregs : Nat
  sregs : Nat
  regs : Nat
  maxdur : Nat
  trapOff : Nat
  codeSize : Nat
  codeOff : Nat
  constSize : Nat
  constOff : Nat
  features : BitVec 128
  draught : Bool
  cooperative : Bool
  paired : Bool
  lagerOff : Bool
  restartable : Bool
  crc : Word
deriving DecidableEq, Repr, Inhabited

/-- The accepted copy of the launch descriptor (R20, R19). -/
structure Desc where
  wlistCount : Nat
  wlistAddr : Nat
  doneValue : DWord
  doneTl : Nat
  wqItems : Nat
  wqAddr : Nat
  gangId : Nat
  asid : Nat
  argSize : Nat
  argAddr : Nat
  priority : Nat
  world : Bool
  gang : Bool
  replayable : Bool
  homeDie : Nat
  floorClusters : Nat
  clusterBlocks : Nat
  threads : Nat
  gridX : Nat
  gridY : Nat
  gridZ : Nat
  kernel : Nat
deriving DecidableEq, Repr, Inhabited

/-- Who submitted a launch: an entry of a queue, or a KERNEL node (R65). -/
inductive Source where
  | queue (ctx q : Nat) (entry : Word)
  | node (die gr node : Nat)
deriving DecidableEq, Repr, Inhabited

/-- An accepted, incomplete launch. `armed` are the pages of its list (R80) as physical bases and sizes, `covered` the 64 KiB
units that the list covers, `ptes` the entries marked, and `frames` the snapshots (R81). `asked` are the launch clusters
a priority request was made for (R100), and `flushed` the indices of flushed blocks that wait to restart (R107). -/
structure Launch where
  hdr : Header
  desc : Desc
  source : Source
  ctx : Nat
  die : Nat
  bank : Mem
  headers : List Nat
  /-- Launch clusters not yet placed (R86-R91). -/
  waiting : List Nat
  order : Nat
  popped : Nat
  replays : Nat
  phases : AMap Word
  retired : List Nat
  armed : List (Nat × Nat)
  covered : List Nat
  ptes : List Nat
  frames : List (Nat × Nat × Nat)
  snapLost : Bool
  ending : Option Nat
  asked : List Nat
  flushed : List Nat
deriving DecidableEq, Repr, Inhabited

/-! ### Package -/

/-- Race record of a tier-0 line (R417). `entered` and `seen` are the model's own, as in `GranRec`, and so is `done`: for each
word, the instant of the writer's first write (log 30). -/
structure LineRec where
  rtime : Nat
  wtime : Nat
  reader : Word
  writer : Word
  wmask : BitVec 16
  rmask : BitVec 16
  amask : BitVec 16
  ascope : Nat
  multi : Bool
  rvalid : Bool
  wvalid : Bool
  entered : AMap Nat
  done : AMap Nat
  seen : List (Nat × Word × Nat)
deriving DecidableEq, Repr, Inhabited

/-- A warp as one end of a release or an acquire. -/
structure Party where
  blk : Nat
  warp : Nat
  launch : Nat
  place : Place
deriving DecidableEq, Repr, Inhabited

/-- What the latest release of a warp with some cover passes on (R408): for an agent's code, the instant up to which its
accesses come before the release. The model's own (log 137). -/
structure Given where
  who : Party
  cover : Cover
  upTo : AMap Nat
deriving DecidableEq, Repr, Inhabited

/-- A quarantined line (R278, R412): the core, the block and the epoch of the atomic, the bytes that undo it, and the record
of the line before it (R418). -/
structure Quarantine where
  line : Nat
  core : Nat
  blk : Nat
  epoch : Nat
  undo : List (Nat × Byte)
  rec_ : Option LineRec
deriving DecidableEq, Repr, Inhabited

/-- A reserved area of chunk records (R257), as the signed image sets it: the memory it serves and where its records lie. -/
structure RecArea where
  base : Nat
  size : Nat
  recs : Nat
deriving DecidableEq, Repr, Inhabited

/-- A participant of a collective (R434, R437): its record and table, its position and input, whether its contribution has
left, whether its table has been read, the fault slot it waits on, its issue and whether it has its result. -/
structure CollPart where
  blk : Nat
  num : DWord
  off : Nat
  record : List Byte
  table : List Byte
  pos : Nat
  input : List Byte
  sent : Bool
  fetched : Bool
  waitSlot : Option Nat
  t : Nat
  delivered : Bool
deriving DecidableEq, Repr, Inhabited

/-- An instance of a collective (R434): tag and sequence, the participants that have issued, whether its table was declared
unserviceable (R457), and when it was last delivered. -/
structure Coll where
  tag : Word
  seq : Word
  parts : List CollPart
  failed : Bool
  doneAt : Option Nat
deriving DecidableEq, Repr, Inhabited

/-- An invalidation (R471): who issued it, the range, the ASID, and the holders that have not acknowledged, each with the
time at which it dropped the range. A core's L1 TLB is holder c, its engines' 192 + c, a die's 384 + d. -/
structure TlbInv where
  blk : Nat
  warp : Nat
  base : Nat
  len : Nat
  asid : Option Nat
  holders : List (Nat × Option Nat)
deriving DecidableEq, Repr, Inhabited

/-- A write of the device over the link (R468, R494): an interrupt, or the copy of a black-box entry. -/
inductive GnlWrite where
  | irq (n : Nat)
  | mirror (pa : Nat) (bytes : List Byte)
deriving DecidableEq, Repr, Inhabited

/-- The Grennen Link (R492, R493): state 0 DETECT to 4 DOWN, since when, whether a recovery is under way, and the writes of the
device that wait for it to be ACTIVE. -/
structure Gnl where
  bootFail : Bool
  state : Nat
  retrains : Nat
  lanes : Nat
  holdDown : Bool
  since : Nat
  recovering : Bool
  waiting : List GnlWrite
deriving DecidableEq, Repr, Inhabited

/-- The split that issues. -/
structure Cursor where
  blk : Nat
  warp : Nat
  split : Nat
deriving DecidableEq, Repr, Inhabited

/-- Which agent moves next (log 2): a step of another agent, an issue of a split, or a selection of a sub-core. -/
inductive Turn where
  | event (i : Instr)
  | issue (c : Cursor)
deriving DecidableEq, Repr, Inhabited

/-- An attestation report (R489): the host's nonce, the hashes of the image and of the identity public key, FABID, and the
signature. -/
structure Report where
  nonce : BitVec 256
  image : BitVec 256
  fabid : Word
  key : BitVec 256
  signature : Nat
deriving DecidableEq, Repr, Inhabited

/-- The device page of the GNL (R489, R491, R494), and the bytes that the host's latest read was answered with (R56, R491). -/
structure DevPage where
  vectors : AMap (DWord × Word)
  sent : List (Nat × DWord × Word)
  nonce : BitVec 256
  report : Option Report
  answer : List Byte
deriving DecidableEq, Repr, Inhabited

/-- The machine. Cores are numbered 48 times the die plus the core in the die. `tick` and `moved` are the model's own: the
releases and acquires made so far in the cycle `now` (log 136), and whether the time has moved since the last choice of what
happens (log 2). -/
structure State where
  mem : Mem
  now : Nat
  tick : Nat
  moved : Bool
  freeCtr : Nat
  uidCtr : Nat
  turn : Nat
  agenda : List Turn
  cur : Cursor
  booted : Bool
  asidBase : Word
  ftBase : Word
  fabid : Word
  frtBase : Word
  gnl : Gnl
  hdmb : Vector Word 8
  hdms : Vector Word 8
  page : DevPage
  ports : BitVec 12
  imageSha : BitVec 256
  image : ImageCfg
  launches : AMap Launch
  blocks : AMap Block
  contexts : AMap Context
  dies : AMap Die
  cores : AMap CoreState
  inflight : List OutItem
  msgs : List Msg
  acks : List (Msg × Nat)
  colls : AMap Coll
  lines : AMap LineRec
  given : List Given
  quar : List Quarantine
  recAreas : List RecArea
  snapPool : List (Nat × Nat)
  tlbInvs : AMap TlbInv
deriving DecidableEq, Repr, Inhabited

/-- Why the machine stops: never. Every fault of R450 is a trap, a post or an escalation, and a strike, a shutdown and a
loss of power leave a state too, so all of them are next states; no step raises a fault, and the type has no constructor. -/
inductive Fault
deriving DecidableEq, Repr

/-- Why there is no next state though nothing is wrong with the machine. -/
inductive Refusal where
  /-- An instruction with no meaning yet: raised by an arm of the dispatch only. Safe. -/
  | notModelled (mnemonic : String)
  /-- A step of another agent whose conditions do not hold now, so that it cannot come about: raised by the steps of the
  device, the host and the package, and read by the machine's step as "not this one". Safe. -/
  | notEnabled (step : String)
deriving DecidableEq, Repr, Inhabited

/-! ### Start values -/

/-- A latch set that nothing has been held in (R155). -/
def Latch.reset : Latch := { vals := Vector.replicate 32 0, life := Vector.replicate 32 0 }

/-- The registers of a warp at block start: R34, R145, R156, R159, R171, R225, R286, R325; s0-s63 by log 1. -/
def Regs.reset : Regs where
  v := []
  s := Vector.replicate 64 0
  p := Vector.replicate 7 0xFFFFFFFF
  x := Vector.replicate 8 (Vector.replicate 32 { base := 0, limit := 0, cursor := 0 })
  z := Vector.replicate 8 none
  k := Vector.replicate 8 0
  lat := Vector.replicate 3 Latch.reset
  ren := Vector.replicate 4 (Vector.replicate 16 none)
  nstat := 0
  elect := 31

/-- The lanes of a warp at block start (R10, R166): those in `live` stand at index 0 of the entry clause. -/
def LaneState.start (live : Mask) : LaneState where
  live := live
  inMeld := 0
  path := 0
  table := 0
  inSerial := 0
  serWait := 0
  inHandler := 0
  pcs := Vector.replicate 32 { hdr := 0, idx := 0 }

/-- R453, R420: they read as zero until the first trap or race. -/
def TrapState.reset : TrapState where
  info := 0
  code := 0
  mask := 0
  pc := 0
  va := 0
  path := 0
  raceVa := 0
  raceP := 0
  raceT := 0
  raceK := 0
  lat := Vector.replicate 3 Latch.reset
  latPtr := 0
  yields := false
  current := none
  whence := none
  pending := none

/-- A warp that has made no access and no arrival. -/
def OrdState.reset : OrdState where
  ops := []
  opCtr := 0
  ring := []
  lastAcq := Vector.replicate 7 0
  barAcq := []
  ordered := []
  engTl := Vector.replicate 5 0
  engOps := []
  bars := []
  wrpPhase := Vector.replicate 4 0
  tlbOps := []

/-- A split that waits unstarted at a header. -/
def Split.start (lanes : Mask) (hdr : Nat) : Split where
  lanes := lanes
  left := 0
  hdr := hdr
  idx := 0
  pass := 0
  port := none
  header := 0
  latPtr := 0
  yields := false
  sel := 0
  serb := none
  tlv := none
  code := []
  fence := false
  mark := none
  stalled := false
  plane := none
  wait := .none

/-- A warp at block start with these live lanes. -/
def Warp.start (live : Mask) : Warp where
  lane := LaneState.start live
  reg := Regs.reset
  splits := [(0, Split.start live 0)]
  splitCtr := 1
  noPre := false
  watchAt := 0
  overrun := false
  refill := none
  serial := none
  yielded := false
  retired := false
  autoRefill := none
  recheck := []
  trap := TrapState.reset
  ord := OrdState.reset

/-- R359: an invalid slab register. -/
def Slab.reset : Slab where
  valid := false
  len := 0
  wrec := 0
  etype := 0
  hd := false
  lg := 0
  base := 0
  splices := Vector.replicate 8 { valid := false, first := 0, delta := 0, stale := 0 }
  link := none
  growing := false

/-- Engine-side state at block start: R231, R298, R300, R359, R364. -/
def BlkEng.reset : BlkEng where
  tl := Vector.replicate 5 { enq := 0, done := 0, late := [] }
  c := Vector.replicate 16 0
  counted := Vector.replicate 16 []
  sets := Vector.replicate 16 0
  orders := []
  kv := Vector.replicate 8 Slab.reset
  fw := Vector.replicate 4 { old := 0, new := 0, total := 0, moved := 0, st := 0 }
  tmiss := 0
  tmva := 0
  tileFault := false
  copyFault := false
  fabFault := false
  fabCode := 0
  endpoint := none
  peer := none
  inFlight := 0

/-- R313: an invalid plane. -/
def Plane.reset : Plane := { tag := none, fmt := 0, bytes := [] }

/-- R313: both planes invalid, no task. -/
def ArrayState.reset : ArrayState where
  active := Plane.reset
  shadow := Plane.reset
  swapPending := false
  loading := none
  strictSplit := none
  run := none
  commits := []
  narrow := false

/-- A core with nothing queued. -/
def CoreBody.reset : CoreBody where
  kicks := []
  copies := []
  high := []
  normal := []
  attn := []
  attnRun := none
  array := ArrayState.reset
  retained := []
  leftover := []
  nt := []

/-- A core after reset. -/
def CoreState.reset : CoreState where
  body := CoreBody.reset
  world := none
  l1 := []
  tlb := []
  copyTlb := []
  attnTlb := []
  lager := []
  strikes := 0
  popLog := []
  popReplay := []
  msgLog := []
  crossRuns := []
  ckpts := []

/-- A die after reset: R111, R252, R253, R456, R469, R485; the rest by log 1 (VMON at the nominal voltages of R486). -/
def Die.reset : Die where
  iftEnable := true
  iftPeriod := 600
  fsh := { lo := 0, hi := 0, busy := false, outcome := 0, pte := none }
  vatcfg := 0
  ovfPool := []
  ovfWait := false
  srb := Vector.replicate 16 0
  srl := Vector.replicate 16 0
  saveBase := 0
  saveLen := 0
  areas := []
  fq := []
  fqOrder := 0
  postQ := []
  errLog := []
  bb := []
  bbHead := 0
  frozen := false
  autofreeze := true
  bbHost := 0
  mon := {
    temp := Vector.replicate 12 0
    vmon := #v[760, 800, 1200, 1100]
    pmon := 0
    tlim := 95
    alarm := false
    board := false
    force := false }
  endpoints := []
  mail := []
  ingress := []
  calls := []
  callAt := 0
  graphs := []
  inUse := 0xFFF
  tests := []
  lastTest := Vector.replicate 12 0
  tlb := []
  tlbBig := []
  rrCtx := 0
  clusters := Vector.replicate 12 { rr := 0, seen := { busy := [], heads := [], loads := [] }, swapped := [], at_ := 0, popped := [], peers := Vector.replicate 8 [] }
  stopped := false

/-- R58: a queue block at reset. -/
def Queue.reset : Queue where
  fnode := 0xFFFF
  failAt := 0
  tail := 0
  head := 0
  status := 0
  halted := false
  late := false
  enable := false
  lgsize := 0
  base := 0

/-- R92: a gang block at reset. -/
def Gang.reset : Gang where
  deferS := 0
  admitted := 0
  members := 1
  clusters := 0
  state := 0
  started := false
  releasing := false

/-- R56, R58, R66, R92: a context at reset. -/
def Context.reset : Context where
  asid := 0
  world := false
  valid := false
  queues := Vector.replicate 8 Queue.reset
  tls := Vector.replicate 16 { value := 0, irqAt := 0xFFFFFFFFFFFFFFFF }
  gangs := Vector.replicate 4 Gang.reset

/-- R417: an unused record. -/
def LineRec.reset : LineRec where
  rtime := 0
  wtime := 0
  reader := 0
  writer := 0
  wmask := 0
  rmask := 0
  amask := 0
  ascope := 0
  multi := false
  rvalid := false
  wvalid := false
  entered := []
  done := []
  seen := []

/-- R416: a granule that records nothing: writer code 31, readers 0. -/
def GranRec.reset : GranRec where
  writer := Vector.replicate 16 31
  readers := Vector.replicate 16 0
  wtime := 0
  rtime := 0
  reader := 0
  wagent := []
  amask := 0
  ascope := 0
  lastW := 0
  entered := []
  done := []
  seen := []

/-- The machine right after reset. A context, a die or a core that a map does not list stands at its own reset. -/
def State.reset : State where
  mem := []
  now := 0
  tick := 0
  moved := false
  freeCtr := 0
  uidCtr := 1
  turn := 0
  agenda := []
  cur := { blk := 0, warp := 0, split := 0 }
  booted := false
  asidBase := 0
  ftBase := 0
  fabid := 0
  frtBase := 0
  gnl := { bootFail := false, state := 0, retrains := 0, lanes := 0, holdDown := false, since := 0, recovering := false, waiting := [] }
  hdmb := Vector.replicate 8 0
  hdms := Vector.replicate 8 0
  page := { vectors := [], sent := [], nonce := 0, report := none, answer := [] }
  ports := 0xFFF
  imageSha := 0
  image := { fabid := 0, vatcfg := Vector.replicate 4 0, srb := [], harvest := [], records := [], remaps := [], predKeys := [] }
  launches := []
  blocks := []
  contexts := []
  dies := []
  cores := []
  inflight := []
  msgs := []
  acks := []
  colls := []
  lines := []
  given := []
  quar := []
  recAreas := []
  snapPool := []
  tlbInvs := []

end Sys2Proof.Machine
end

