-- ==== Sys2Proof/Machine/Mem.lean ====
section
/-!
DEFINITION. Maps by number, byte memories in their canonical form, byte order (R4), and lane masks.
-/

namespace Sys2Proof.Machine

/-! ### Maps -/

/-- The entry of a key. -/
def AMap.get? {α : Type} (m : AMap α) (k : Nat) : Option α :=
  match m with
  | [] => none
  | (j, a) :: t => if j = k then some a else AMap.get? t k

/-- The entry of a key, or `d`. -/
def AMap.getD {α : Type} (m : AMap α) (k : Nat) (d : α) : α := (AMap.get? m k).getD d

/-- Sets a key, keeping the keys in rising order. -/
def AMap.set {α : Type} (m : AMap α) (k : Nat) (a : α) : AMap α :=
  match m with
  | [] => [(k, a)]
  | (j, b) :: t => if j < k then (j, b) :: AMap.set t k a else if j = k then (k, a) :: t else (k, a) :: (j, b) :: t

/-- Removes a key. -/
def AMap.erase {α : Type} (m : AMap α) (k : Nat) : AMap α :=
  match m with
  | [] => []
  | (j, b) :: t => if j = k then t else (j, b) :: AMap.erase t k

/-- Changes the entry of a key that is present. -/
def AMap.modify {α : Type} (m : AMap α) (k : Nat) (f : α → α) : AMap α :=
  match m with
  | [] => []
  | (j, b) :: t => if j = k then (j, f b) :: t else (j, b) :: AMap.modify t k f

/-- Changes every entry. -/
def AMap.mapVals {α : Type} (m : AMap α) (f : Nat → α → α) : AMap α := m.map fun p => (p.1, f p.1 p.2)

/-- Changes one entry of a vector; an index outside it changes nothing. -/
def vmod {α : Type} {n : Nat} (v : Vector α n) (i : Nat) (f : α → α) : Vector α n :=
  if h : i < n then v.set i (f v[i]) else v

/-! ### Memories -/

/-- What an address that no entry lists reads as (log 3): DESIGN CHOICE, unsafe. -/
def Mem.unlisted : Byte := 0

/-- The byte at an address. -/
def Mem.read (m : Mem) (a : Nat) : Byte := AMap.getD m a Mem.unlisted

/-- Writes one byte, keeping the canonical form: writing what an unlisted address reads as removes the entry. -/
def Mem.write (m : Mem) (a : Nat) (b : Byte) : Mem :=
  if b = Mem.unlisted then AMap.erase m a else AMap.set m a b

/-- The canonical form: addresses strictly rise, and no entry is what an unlisted address reads as. -/
def Mem.wfFrom (lo : Nat) : Mem → Bool
  | [] => true
  | (a, b) :: t => decide (lo ≤ a) && b != Mem.unlisted && Mem.wfFrom (a + 1) t

/-- The canonical form of a whole memory. -/
def Mem.wf (m : Mem) : Bool := Mem.wfFrom 0 m

/-- `n` bytes from `a`. -/
def Mem.readN (m : Mem) (a n : Nat) : List Byte := (List.range n).map fun i => m.read (a + i)

/-- Writes a list of (address, byte) pairs in order. -/
def Mem.writeAll (m : Mem) (l : List (Nat × Byte)) : Mem := l.foldl (fun m p => m.write p.1 p.2) m

/-- The (address, byte) pairs of a run of bytes at `a`. -/
def at_ (a : Nat) (bs : List Byte) : List (Nat × Byte) := bs.zipIdx.map fun p => (a + p.2, p.1)

/-! ### Byte order (R4) -/

/-- The little-endian number of a list of bytes. -/
def leNat : List Byte → Nat
  | [] => 0
  | b :: t => b.toNat + 256 * leNat t

/-- The `n` little-endian bytes of a number. -/
def toLe : Nat → Nat → List Byte
  | 0, _ => []
  | n + 1, x => BitVec.ofNat 8 x :: toLe n (x / 256)

/-- Bits `[lo + n - 1 : lo]` of a number. -/
def nbits (x lo n : Nat) : Nat := x / 2 ^ lo % 2 ^ n

/-- Bit `i` of a number. -/
def nbit (x i : Nat) : Bool := x / 2 ^ i % 2 == 1

/-- A 32-bit word of a number. -/
def w32 (x : Nat) : Word := BitVec.ofNat 32 x

/-- A 64-bit word of a number. -/
def w64 (x : Nat) : DWord := BitVec.ofNat 64 x

/-- The signed value of an `n`-bit number (R136, sext). -/
def sextN (x n : Nat) : Int := if x < 2 ^ (n - 1) then (x : Int) else (x : Int) - 2 ^ n

/-- The low `n` bits of the two's-complement form of an integer, as a number. -/
def lowBits (x : Int) (n : Nat) : Nat := (x % (2 ^ n : Int)).toNat

/-- Rounded-up division. -/
def cdiv (a b : Nat) : Nat := (a + b - 1) / b

/-- The low and the high half of a 64-bit value, and back. -/
def lo32 (d : DWord) : Word := d.extractLsb' 0 32
def hi32 (d : DWord) : Word := d.extractLsb' 32 32
def pair64 (lo hi : Word) : DWord := hi ++ lo

/-! ### Lane masks -/

/-- The lanes of a warp in ascending order. -/
def lanes32 : List (Fin 32) := List.finRange 32

/-- Lane `l` of a mask. -/
def has (m : Mask) (l : Fin 32) : Bool := m.getLsbD l.val

/-- The mask of the lanes that satisfy `f`. -/
def maskOf (f : Fin 32 → Bool) : Mask := lanes32.foldl (fun m l => if f l then m ||| (1#32 <<< l.val) else m) 0

/-- The mask of one lane. -/
def one_ (l : Fin 32) : Mask := 1#32 <<< l.val

/-- The lanes of a mask in ascending order. -/
def lanesOf (m : Mask) : List (Fin 32) := lanes32.filter (has m)

/-- How many lanes a mask holds. -/
def popcount (m : Mask) : Nat := (lanesOf m).length

/-- The lowest lane of a mask. -/
def lowest (m : Mask) : Option (Fin 32) := lanes32.find? (has m)

/-- The highest lane of a mask. -/
def highest (m : Mask) : Option (Fin 32) := lanes32.reverse.find? (has m)

/-- One value per lane. -/
def tab {α : Type} (f : Fin 32 → α) : Lanes α := Vector.ofFn f

/-- The first `n` lanes (R10). -/
def firstLanes (n : Nat) : Mask := maskOf fun l => decide (l.val < n)

/-- Takes `b` where the mask has the lane and `a` elsewhere. -/
def blend {α : Type} (m : Mask) (a b : Lanes α) : Lanes α := tab fun l => if has m l then b[l] else a[l]

/-- Whether all lanes of a mask hold one value. -/
def uniformOn {α : Type} [DecidableEq α] (m : Mask) (v : Lanes α) : Bool :=
  match lowest m with
  | none => true
  | some l0 => (lanesOf m).all fun l => v[l] == v[l0]

/-- R14: CRC-32 of the IEEE 802.3 polynomial, reflected, initial and final value 0xFFFF_FFFF. -/
def crcByte (c : Word) (b : Byte) : Word :=
  (List.range 8).foldl (fun c _ => if c.getLsbD 0 then (c >>> 1) ^^^ 0xEDB88320#32 else c >>> 1) (c ^^^ b.setWidth 32)

def crc32 (bs : List Byte) : Word := ~~~ (bs.foldl crcByte 0xFFFFFFFF#32)

end Sys2Proof.Machine
end

