-- ==== Sys2Proof/Machine/Float.lean ====
section
/-!
DEFINITION. The numbers of spec/02: floating-point values as exact dyadic numbers, the formats of R28, one rounding (R32,
R33, R29), the conversions of R36 and R37, scaled blocks (R39-R44), sparse slices (R45-R48), the internal format of R50,
the total order of R38, and the approximated functions of R209 and R361 within their bounds.
-/

namespace Sys2Proof.Machine

/-- An exact value: NaN, an infinity, or (-1)^neg · m · 2^e; a zero keeps its sign. -/
inductive FVal where
  | nan
  | inf (neg : Bool)
  | fin (neg : Bool) (m : Nat) (e : Int)
deriving DecidableEq, Repr, Inhabited

/-- How a format spends its codes (R28): `ieee` has infinities and NaNs at the top exponent, `e4m3` one NaN code per sign
and no infinity, `e2m1` neither. -/
inductive FKind where
  | ieee | e4m3 | e2m1
deriving DecidableEq, Repr

/-- A format of R28. -/
structure Fmt where
  ebits : Nat
  fbits : Nat
  bias : Nat
  kind : FKind
deriving DecidableEq, Repr

def f64 : Fmt := ⟨11, 52, 1023, .ieee⟩
def f32 : Fmt := ⟨8, 23, 127, .ieee⟩
def bf16 : Fmt := ⟨8, 7, 127, .ieee⟩
def f16 : Fmt := ⟨5, 10, 15, .ieee⟩
def e4m3 : Fmt := ⟨4, 3, 7, .e4m3⟩
def e5m2 : Fmt := ⟨5, 2, 15, .ieee⟩
def e2m1 : Fmt := ⟨2, 1, 1, .e2m1⟩

/-- Width of a format. -/
def Fmt.width (f : Fmt) : Nat := 1 + f.ebits + f.fbits

/-- The bits of the largest finite magnitude (R28). -/
def Fmt.maxBits (f : Fmt) : Nat :=
  match f.kind with
  | .ieee => (2 ^ f.ebits - 1) * 2 ^ f.fbits - 1
  | .e4m3 => 2 ^ (f.ebits + f.fbits) - 2
  | .e2m1 => 2 ^ (f.ebits + f.fbits) - 1

/-- The canonical NaN of a format (R30); E2M1 has none. -/
def Fmt.nanBits (f : Fmt) : Nat :=
  match f.kind with
  | .ieee => (2 ^ f.ebits - 1) * 2 ^ f.fbits + 2 ^ (f.fbits - 1)
  | .e4m3 => 2 ^ (f.ebits + f.fbits) - 1
  | .e2m1 => 0

/-- The bits of +∞ of an IEEE format. -/
def Fmt.infBits (f : Fmt) : Nat := (2 ^ f.ebits - 1) * 2 ^ f.fbits

/-- The value of a magnitude code (R28). -/
def Fmt.magVal (f : Fmt) (neg : Bool) (mag : Nat) : FVal :=
  let e := mag / 2 ^ f.fbits
  let fr := mag % 2 ^ f.fbits
  if e = 0 then .fin neg fr (1 - (f.bias : Int) - f.fbits)
  else .fin neg (2 ^ f.fbits + fr) ((e : Int) - f.bias - f.fbits)

/-- The value of a code (R28, R30). -/
def Fmt.val (f : Fmt) (x : Nat) : FVal :=
  let neg := nbit x (f.ebits + f.fbits)
  let mag := x % 2 ^ (f.ebits + f.fbits)
  match f.kind with
  | .ieee => if f.infBits < mag then .nan else if mag = f.infBits then .inf neg else f.magVal neg mag
  | .e4m3 => if mag = 2 ^ (f.ebits + f.fbits) - 1 then .nan else f.magVal neg mag
  | .e2m1 => f.magVal neg mag

/-- The events of R34, one bit each in the order of NSTAT. -/
structure Flags where
  invalid : Bool := false
  divzero : Bool := false
  overflow : Bool := false
  underflow : Bool := false
  inexact : Bool := false
  sat : Bool := false
  fmterr : Bool := false
deriving DecidableEq, Repr, Inhabited

/-- No event. -/
def Flags.none : Flags := {}

/-- The union of two sets of events. -/
def Flags.or (a b : Flags) : Flags where
  invalid := a.invalid || b.invalid
  divzero := a.divzero || b.divzero
  overflow := a.overflow || b.overflow
  underflow := a.underflow || b.underflow
  inexact := a.inexact || b.inexact
  sat := a.sat || b.sat
  fmterr := a.fmterr || b.fmterr

/-- The bits [6:0] of R34. -/
def Flags.bits (f : Flags) : Nat :=
  f.invalid.toNat + 2 * f.divzero.toNat + 4 * f.overflow.toNat + 8 * f.underflow.toNat + 16 * f.inexact.toNat +
    32 * f.sat.toNat + 64 * f.fmterr.toNat

/-- Floor of log2 of a positive number, 0 for 0. -/
def log2 (n : Nat) : Nat := Nat.log2 n

/-- Whether the magnitude is rounded up, from the kept part `q`, the remainder `r` over `2^s`, and whether a nonzero tail
lies below (`sticky`) (R32). -/
def roundUp (rm : Rm) (neg : Bool) (q r s : Nat) (sticky : Bool) : Bool :=
  let inexact := r != 0 || sticky
  match rm with
  | .rn =>
    let half := 2 ^ s
    let dbl := 2 * r
    decide (half < dbl) || (dbl == half && (sticky || q % 2 == 1))
  | .rz => false
  | .ru => inexact && !neg
  | .rd => inexact && neg

/-- The integer part of m·2^e·2^(-t) and what is lost: (q, remainder over 2^s, s). -/
def splitAt (m : Nat) (e t : Int) : Nat × Nat × Nat :=
  if t ≤ e then (m * 2 ^ (e - t).toNat, 0, 0)
  else let s := (t - e).toNat; (m / 2 ^ s, m % 2 ^ s, s)

/-- A magnitude rounded to a multiple of 2^t: the multiple, and whether the result is inexact. -/
def roundAt (rm : Rm) (neg : Bool) (m : Nat) (e t : Int) (sticky : Bool) : Nat × Bool :=
  let (q, r, s) := splitAt m e t
  (if roundUp rm neg q r s sticky then q + 1 else q, r != 0 || sticky)

/-- What an overflow delivers (R33, R36): `sat` forces ±max finite. -/
def Fmt.overflow (f : Fmt) (rm : Rm) (neg sat nsat : Bool) : Nat :=
  let sgn := if neg then 2 ^ (f.ebits + f.fbits) else 0
  match f.kind with
  | .e2m1 => sgn + f.maxBits
  | .e4m3 => if nsat then f.nanBits else sgn + f.maxBits
  | .ieee =>
    if sat then sgn + f.maxBits else
    match rm with
    | .rn => sgn + f.infBits
    | .rz => sgn + f.maxBits
    | .ru => sgn + (if neg then f.maxBits else f.infBits)
    | .rd => sgn + (if neg then f.infBits else f.maxBits)

/-- The exponent of the unit in the last place of a nonzero m·2^e in the format: at least that of the subnormals. -/
def Fmt.ulpExp (f : Fmt) (m : Nat) (e : Int) : Int :=
  max ((log2 m : Int) + e - f.fbits) (1 - (f.bias : Int) - f.fbits)

/-- R32, R33, R29: (-1)^neg·m·2^e, with a nonzero tail below when `sticky`, rounded once to the format. Tininess is
detected after rounding: the value rounded with an unbounded exponent lies below the smallest normal number. -/
def Fmt.round (f : Fmt) (rm : Rm) (neg : Bool) (m : Nat) (e : Int) (sticky : Bool := false)
    (sat : Bool := false) (nsat : Bool := false) : Nat × Flags :=
  let sgn := if neg then 2 ^ (f.ebits + f.fbits) else 0
  if m = 0 then
    if !sticky then (sgn, {}) else
    let up := roundUp rm neg 0 0 1 true
    (sgn + (if up then 1 else 0), { inexact := true, underflow := true })
  else
    let t := f.ulpExp m e
    let (q, ix) := roundAt rm neg m e t sticky
    -- q·2^t, with q up to 2^(fbits+1)
    let tmin : Int := 1 - (f.bias : Int) - f.fbits
    let (uq, _) := roundAt rm neg m e ((log2 m : Int) + e - f.fbits) sticky
    let ue := (log2 uq : Int) + ((log2 m : Int) + e - f.fbits)
    let tiny := decide (ue < 1 - (f.bias : Int))
    let mag : Nat :=
      if q < 2 ^ f.fbits then q
      else
        let q' := if q = 2 ^ (f.fbits + 1) then 2 ^ f.fbits else q
        let t' := if q = 2 ^ (f.fbits + 1) then t + 1 else t
        ((t' - tmin).toNat + 1) * 2 ^ f.fbits + (q' - 2 ^ f.fbits)
    if f.maxBits < mag then (f.overflow rm neg sat nsat, { overflow := true, inexact := true })
    else (sgn + mag, { inexact := ix, underflow := ix && tiny })

/-- A value rounded to the format; a NaN is canonical and an infinity stays (R30, R206). -/
def Fmt.ofVal (f : Fmt) (rm : Rm) : FVal → Nat × Flags
  | .nan => (f.nanBits, {})
  | .inf neg => ((if neg then 2 ^ (f.ebits + f.fbits) else 0) + f.infBits, {})
  | .fin neg m e => f.round rm neg m e

/-! ### Exact arithmetic -/

/-- Negation, absolute value (R205: exact on the sign). -/
def FVal.neg : FVal → FVal
  | .nan => .nan
  | .inf n => .inf (!n)
  | .fin n m e => .fin (!n) m e

def FVal.abs : FVal → FVal
  | .nan => .nan
  | .inf _ => .inf false
  | .fin _ m e => .fin false m e

/-- The sign modifiers, absolute value before negation (R205). -/
def FVal.mods (x : FVal) (a n : Bool) : FVal :=
  let y := if a then x.abs else x
  if n then y.neg else y

/-- The signed mantissa of a finite value at exponent `e0`, where `e0` is at most its own. -/
def alignInt (neg : Bool) (m : Nat) (e e0 : Int) : Int :=
  let v : Int := (m : Int) * 2 ^ (e - e0).toNat
  if neg then -v else v

/-- The exact sum (R206): an exact zero sum is +0, or −0 under `.rd`, unless both operands are zeros of one sign. -/
def FVal.add (rm : Rm) : FVal → FVal → FVal × Flags
  | .nan, _ | _, .nan => (.nan, {})
  | .inf a, .inf b => if a = b then (.inf a, {}) else (.nan, { invalid := true })
  | .inf a, _ | _, .inf a => (.inf a, {})
  | .fin na ma ea, .fin nb mb eb =>
    let e0 := min ea eb
    let v := alignInt na ma ea e0 + alignInt nb mb eb e0
    if v = 0 then
      if ma = 0 && mb = 0 && na == nb then (.fin na 0 0, {}) else (.fin (rm == .rd) 0 0, {})
    else (.fin (decide (v < 0)) v.natAbs e0, {})

/-- The exact product (R206). -/
def FVal.mul : FVal → FVal → FVal × Flags
  | .nan, _ | _, .nan => (.nan, {})
  | .inf a, .inf b => (.inf (a != b), {})
  | .inf a, .fin n m _ | .fin n m _, .inf a => if m = 0 then (.nan, { invalid := true }) else (.inf (a != n), {})
  | .fin na ma ea, .fin nb mb eb => (.fin (na != nb) (ma * mb) (ea + eb), {})

/-- a·b + c, exact (R206): 0 × ∞ raises invalid even when c is NaN. -/
def FVal.fma (rm : Rm) (a b c : FVal) : FVal × Flags :=
  let (p, fp) := FVal.mul a b
  let (r, fr) := FVal.add rm p c
  (r, fp.or fr)

/-- Comparison of two values that are not NaN: −0 and +0 are equal. -/
def FVal.cmp : FVal → FVal → Ordering
  | .inf a, .inf b => if a = b then .eq else if a then .lt else .gt
  | .inf a, _ => if a then .lt else .gt
  | _, .inf b => if b then .gt else .lt
  | .fin na ma ea, .fin nb mb eb =>
    let e0 := min ea eb
    compare (alignInt na ma ea e0) (alignInt nb mb eb e0)
  | _, _ => .eq

def FVal.isNan : FVal → Bool
  | .nan => true
  | _ => false

def FVal.isZero : FVal → Bool
  | .fin _ 0 _ => true
  | _ => false

def FVal.isNeg : FVal → Bool
  | .nan => false
  | .inf n => n
  | .fin n _ _ => n

/-- R194 on values. -/
def FVal.test (c : Cmp) (a b : FVal) : Bool :=
  let un := a.isNan || b.isNan
  let o := FVal.cmp a b
  match c with
  | .eq => !un && o == .eq
  | .ne => un || o != .eq
  | .lt => !un && o == .lt
  | .le => !un && o != .gt
  | .gt => !un && o == .gt
  | .ge => !un && o != .lt
  | .num => !un
  | .nan => un

/-- R207: when one operand is NaN, the other; −0 ranks below +0. `hi` takes the larger. -/
def FVal.pick (hi : Bool) (a b : FVal) : FVal :=
  if a.isNan then b else if b.isNan then a else
  let lt := FVal.cmp a b == .lt || (a.isZero && b.isZero && a.isNeg && !b.isNeg)
  if lt == hi then b else a

/-- The exact integer value of a small immediate (R132). -/
def FVal.ofInt (i : Int) : FVal := .fin (decide (i < 0)) i.natAbs 0

/-! ### Integers from values and back -/

/-- A finite magnitude rounded to an integer under the mode (R37): the integer and whether it is inexact. -/
def roundInt (rm : Rm) (neg : Bool) (m : Nat) (e : Int) : Int × Bool :=
  let (q, ix) := roundAt rm neg m e 0 false
  (if neg then -(q : Int) else q, ix)

/-- An integer type: width and signedness. -/
structure IFmt where
  bits : Nat
  signed : Bool
deriving DecidableEq, Repr

def IFmt.lo (t : IFmt) : Int := if t.signed then -(2 ^ (t.bits - 1) : Int) else 0
def IFmt.hi (t : IFmt) : Int := if t.signed then (2 ^ (t.bits - 1) : Int) - 1 else (2 ^ t.bits : Int) - 1

/-- Clamping to a range, and whether it changed the value. -/
def clampInt (x lo hi : Int) : Int × Bool :=
  if x < lo then (lo, true) else if hi < x then (hi, true) else (x, false)

/-- R37: a value to an integer. An infinity is out of range. -/
def toIntF (t : IFmt) (rm : Rm) : FVal → Int × Flags
  | .nan => (0, { invalid := true })
  | .inf n => (if n then t.lo else t.hi, { invalid := true, sat := true })
  | .fin n m e =>
    let (i, ix) := roundInt rm n m e
    let (c, ch) := clampInt i t.lo t.hi
    if ch then (c, { invalid := true, sat := true }) else (i, { inexact := ix })

/-- R37: an integer to an integer. -/
def toIntI (t : IFmt) (sat : Bool) (x : Int) : Int × Flags :=
  if t.lo ≤ x ∧ x ≤ t.hi then (x, {})
  else if sat then ((clampInt x t.lo t.hi).1, { sat := true })
  else (x, {})

/-- R36: a value to a floating-point format. `sat` and `nsat` are the modifiers. -/
def toFloat (f : Fmt) (rm : Rm) (sat nsat : Bool) : FVal → Nat × Flags
  | .nan => if f.kind = .e2m1 then (0, { invalid := true }) else (f.nanBits, {})
  | .inf n =>
    let sgn := if n then 2 ^ (f.ebits + f.fbits) else 0
    match f.kind with
    | .ieee => if sat then (sgn + f.maxBits, { overflow := true }) else (sgn + f.infBits, {})
    | .e4m3 => (if nsat then f.nanBits else sgn + f.maxBits, { overflow := true })
    | .e2m1 => (sgn + f.maxBits, { overflow := true })
  | .fin n m e => f.round rm n m e false sat nsat

/-! ### Square root and division, exact with a sticky tail -/

/-- The square root of m·2^e to at least `p` bits: (root, exponent, whether a tail remains). -/
def sqrtApprox (m : Nat) (e : Int) (p : Nat) : Nat × Int × Bool :=
  let e1 := if e % 2 = 0 then e else e - 1
  let m1 := if e % 2 = 0 then m else 2 * m
  let k := p + 2
  let x := m1 * 2 ^ (2 * k)
  let r := Nat.sqrt x
  (r, e1 / 2 - k, r * r != x)

/-- The quotient of two magnitudes to at least `p` bits. -/
def divApprox (m1 : Nat) (e1 : Int) (m2 : Nat) (e2 : Int) (p : Nat) : Nat × Int × Bool :=
  let k := p + 2 + log2 m2
  let x := m1 * 2 ^ k
  (x / m2, e1 - e2 - k, x % m2 != 0)

/-! ### The internal format of the array (R50) -/

/-- Rounding to 24 significant bits; the exponent range never limits a value of the array (R50). -/
def roundInternal (rm : Rm) : FVal → FVal
  | .fin n m e =>
    if m = 0 then .fin n 0 0 else
    let t := (log2 m : Int) + e - 23
    if t ≤ e then .fin n m e else .fin n (roundAt rm n m e t false).1 t
  | v => v

/-- One step of R51: acc + a·b rounded to the internal format. -/
def accStep (rm : Rm) (acc a b : FVal) : FVal × Flags :=
  let (p, fp) := FVal.mul a b
  let (s, fs) := FVal.add rm acc p
  let r := roundInternal rm s
  (r, (fp.or fs).or { inexact := decide (r ≠ s) && (FVal.cmp r s != .eq) })

/-- R51: the dot product of a pass, in ascending K from +0. -/
def passSum (rm : Rm) (ps : List (FVal × FVal)) : FVal × Flags :=
  ps.foldl (fun acc p => let (r, f) := accStep rm acc.1 p.1 p.2; (r, acc.2.or f)) (.fin false 0 0, {})

/-! ### FP32 operations on words -/

/-- The value of an FP32 word. -/
def fv (w : Word) : FVal := f32.val w.toNat

/-- A value rounded to FP32. -/
def toF32 (rm : Rm) (v : FVal) : Word × Flags := let (b, f) := f32.ofVal rm v; (w32 b, f)

/-- FP32 addition, multiplication and fused multiply-add (R206). -/
def fadd32 (rm : Rm) (a b : FVal) : Word × Flags :=
  let (x, f) := FVal.add rm a b; let (r, g) := toF32 rm x; (r, f.or g)
def fmul32 (rm : Rm) (a b : FVal) : Word × Flags :=
  let (x, f) := FVal.mul a b; let (r, g) := toF32 rm x; (r, f.or g)
def ffma32 (rm : Rm) (a b c : FVal) : Word × Flags :=
  let (x, f) := FVal.fma rm a b c; let (r, g) := toF32 rm x; (r, f.or g)

/-- R207 on words: the result is the operand itself, or the canonical NaN. -/
def fpick32 (hi : Bool) (a b : FVal) : Word := (toF32 .rn (FVal.pick hi a b)).1

/-- The key of R38. -/
def key32 (x : Word) : Word := if x.getLsbD 31 then ~~~ x else x ||| 0x80000000#32

/-! ### The functions of R209 -/

/-- The FP32 value just above the magnitude code, or +∞ past the largest. -/
def nextMag (w : Word) : Word := w + 1

/-- A faithful result (R209): one of the two FP32 values that bracket an exact magnitude with sign `neg`; which one is the
part's own choice, the same everywhere (log 20). An exact value is delivered exactly. -/
def faithful (fn : Nat) (x : Word) (neg : Bool) (m : Nat) (e : Int) (sticky : Bool) : Word :=
  let lo := (f32.round .rz false m e sticky).1
  let exact := (f32.round .rz false m e sticky).2.inexact == false
  let mag := if exact then lo else if Config.faithfulUp fn x then lo + 1 else lo
  w32 ((if neg then 2 ^ 31 else 0) + mag)

/-- `FRCP` (R209). -/
def frcpW (x : Word) : Word × Flags :=
  match fv x with
  | .nan => (w32 f32.nanBits, {})
  | .inf n => (if n then 0x80000000#32 else 0#32, {})
  | .fin n m e =>
    if m = 0 then (if n then 0xFF800000#32 else 0x7F800000#32, { divzero := true })
    else if FVal.cmp (.fin false m e) (.fin false 1 (-128)) != .gt then
      (if n then 0xFF800000#32 else 0x7F800000#32, { overflow := true })
    else
      let (q, qe, st) := divApprox 1 0 m e 30
      (faithful 0 x n q qe st, {})

/-- `FRSQ` (R209). -/
def frsqW (x : Word) : Word × Flags :=
  match fv x with
  | .nan => (w32 f32.nanBits, {})
  | .inf n => if n then (w32 f32.nanBits, { invalid := true }) else (0#32, {})
  | .fin n m e =>
    if m = 0 then (if n then 0xFF800000#32 else 0x7F800000#32, { divzero := true })
    else if n then (w32 f32.nanBits, { invalid := true })
    else
      -- 1/√a = √(1/a): the quotient is taken long enough that its root brackets the exact one
      let (q, qe, st) := divApprox 1 0 m e 80
      let (r, re, st2) := sqrtApprox q qe 40
      (faithful 1 x false r re (st || st2), {})

/-- `FSQRT` (R209): correctly rounded. -/
def fsqrtW (rm : Rm) (x : Word) : Word × Flags :=
  match fv x with
  | .nan => (w32 f32.nanBits, {})
  | .inf n => if n then (w32 f32.nanBits, { invalid := true }) else (0x7F800000#32, {})
  | .fin n m e =>
    if m = 0 then (x, {})
    else if n then (w32 f32.nanBits, { invalid := true })
    else
      let (r, re, st) := sqrtApprox m e 40
      let (b, f) := f32.round rm false r re st
      (w32 b, f)

/-! Fixed-point enclosures. A real number is held as an integer in units of 2^-64; each function below is computed by a
series to well within 2^-50 of its value, and the result of R209 is moved from that value by a free error that, with the
enclosure's own, stays within the entry's bound (log 20). -/

/-- One, in units of 2^-64. -/
def fix1 : Int := 2 ^ 64

/-- Product of two fixed-point numbers. -/
def fixMul (a b : Int) : Int := a * b / fix1

/-- exp(x) for |x| < 1 by 24 terms of its series. -/
def fixExp (x : Int) : Int :=
  ((List.range 24).foldl (fun (acc : Int × Int) i =>
    let t := fixMul acc.2 x / ((i : Int) + 1)
    (acc.1 + t, t)) (fix1, fix1)).1

/-- ln 2 in units of 2^-64. -/
def fixLn2 : Int := 12786308645202655660

/-- π in units of 2^-192, for exact argument reduction. -/
def piBig : Int := 19720096697726538562396133364228268891463450865190089732560

/-- 2^f for 0 ≤ f < 1 in fixed point. -/
def fixExp2 (f : Int) : Int := fixExp (fixMul f fixLn2)

/-- atanh series: ln((1+y)/(1-y))/2 = y + y³/3 + …, for |y| ≤ 1/3. -/
def fixAtanh (y : Int) : Int :=
  let y2 := fixMul y y
  ((List.range 40).foldl (fun (acc : Int × Int) i =>
    (acc.1 + acc.2 / (2 * (i : Int) + 1), fixMul acc.2 y2)) (0, y)).1

/-- log2 of a mantissa in [1, 2), in fixed point. -/
def fixLog2 (x : Int) : Int :=
  let y := (x - fix1) * fix1 / (x + fix1)
  2 * fixAtanh y * fix1 / fixLn2

/-- sin and cos of an angle in [0, 2π), by their series. -/
def fixSin (x : Int) : Int :=
  let x2 := fixMul x x
  ((List.range 24).foldl (fun (acc : Int × Int) i =>
    (acc.1 + acc.2, -(fixMul acc.2 x2) / ((2 * (i : Int) + 2) * (2 * (i : Int) + 3)))) (0, x)).1
def fixCos (x : Int) : Int :=
  let x2 := fixMul x x
  ((List.range 24).foldl (fun (acc : Int × Int) i =>
    (acc.1 + acc.2, -(fixMul acc.2 x2) / ((2 * (i : Int) + 1) * (2 * (i : Int) + 2)))) (0, fix1)).1

/-- The angle m·2^e reduced by multiples of 2π, in units of 2^-64. The quotient is taken with π to as many bits as the
angle needs above 2^-64; an FP32 angle has at most 128 integer bits. -/
def reduceAngle (m : Nat) (e : Int) : Int :=
  let x : Int := if 0 ≤ e + 192 then (m : Int) * 2 ^ (e + 192).toNat else (m : Int) / 2 ^ (-(e + 192)).toNat
  (x % (2 * piBig)) / 2 ^ 128

/-- Whether a value lies within `2^eb` of `y · 2^ey`. -/
def within (c : FVal) (y ey eb : Int) : Bool :=
  match c with
  | .fin n m e =>
    let lo := min e (min ey eb)
    let up (v x : Int) : Int := v * 2 ^ (x - lo).toNat
    decide ((up (if n then -(m : Int) else m) e - up y ey).natAbs ≤ 2 ^ (eb - lo).toNat)
  | _ => false

/-- An approximated result (R209): the part's own where it lies within `2^eb` of the exact `y · 2^ey`, and else the nearest
(log 20). -/
def approx (own : Word) (y ey eb : Int) : Word :=
  if within (fv own) y ey eb then own else (toF32 .rn (.fin (decide (y < 0)) y.natAbs ey)).1

/-- The exponent of two units in the last place of `y · 2^ey`; the last place of a subnormal is 2^-149. -/
def twoUlp (y ey : Int) : Int := max ((log2 y.natAbs : Int) + ey - 22) (-148)

/-- `FEXP2` (R209, R384): exact at the integers from −149 to 127. -/
def fexp2W (x : Word) : Word × Flags :=
  match fv x with
  | .nan => (w32 f32.nanBits, {})
  | .inf n => if n then (0#32, {}) else (0x7F800000#32, { overflow := true })
  | .fin n m e =>
    if FVal.cmp (.fin n m e) (.fin false 128 0) != .lt then (0x7F800000#32, { overflow := true })
    else if FVal.cmp (.fin n m e) (.fin true 150 0) != .gt then (0#32, {})
    else
      let (i, ix) := roundInt .rd n m e
      if !ix then (w32 (f32.round .rn false 1 i).1, {})
      else
        -- x = i + f, 0 < f < 1, f in units of 2^-64
        let (q, _, _) := splitAt m e (-64)
        let xq : Int := if n then -(q : Int) else q
        let y := fixExp2 (xq - i * fix1)
        -- two ulp, or one subnormal step; a result below 2^128 is finite
        let r := approx (Config.approxWord 2 x) y (i - 64) (if i < -126 then -149 else i - 22)
        (if r = 0x7F800000#32 then 0x7F7FFFFF#32 else r, {})

/-- `FLOG2` (R209). -/
def flog2W (x : Word) : Word × Flags :=
  match fv x with
  | .nan => (w32 f32.nanBits, {})
  | .inf n => if n then (w32 f32.nanBits, { invalid := true }) else (0x7F800000#32, {})
  | .fin n m e =>
    if m = 0 then (0xFF800000#32, { divzero := true })
    else if n then (w32 f32.nanBits, { invalid := true })
    else if x = 0x3F800000#32 then (0#32, {})
    else
      let k : Int := (log2 m : Int) + e
      let mant : Int := (m : Int) * 2 ^ (64 - log2 m)
      let y := k * fix1 + fixLog2 mant
      let inMid := FVal.cmp (.fin false m e) (.fin false 1 (-1)) != .lt && FVal.cmp (.fin false m e) (.fin false 2 0) != .gt
      (approx (Config.approxWord 3 x) y (-64) (if inMid then -22 else twoUlp y (-64)), {})

/-- sin or cos of an angle `m·2^e`, of which the sine of a negative one is negative, in units of 2^-64. -/
def trigFix (cos neg : Bool) (m : Nat) (e : Int) : Int :=
  let a := reduceAngle m e
  if cos then fixCos a else if neg then -(fixSin a) else fixSin a

/-- `FSIN`, `FCOS` (R209): absolute error 2^-21. -/
def fsinW (x : Word) : Word × Flags :=
  match fv x with
  | .nan => (w32 f32.nanBits, {})
  | .inf _ => (w32 f32.nanBits, { invalid := true })
  | .fin n m e =>
    if m = 0 then (x, {}) else (approx (Config.approxWord 4 x) (trigFix false n m e) (-64) (-21), {})

def fcosW (x : Word) : Word × Flags :=
  match fv x with
  | .nan => (w32 f32.nanBits, {})
  | .inf _ => (w32 f32.nanBits, { invalid := true })
  | .fin n m e =>
    if m = 0 then (0x3F800000#32, {}) else (approx (Config.approxWord 5 x) (trigFix true n m e) (-64) (-21), {})

/-- tanh of `m·2^e` as a fixed-point number and its exponent: x − x³/3 for a small argument, else (1 − q)/(1 + q) with
q = exp(−2x), by halving the argument below 1. -/
def tanhFix (m : Nat) (e : Int) : Int × Int :=
  if FVal.cmp (.fin false m e) (.fin false 1 (-12)) == .lt then
    ((m : Int) * 2 ^ (8 - 2 * e).toNat - (m : Int) ^ 3 * 256 / 3, 3 * e - 8)
  else
    let (q, _, _) := splitAt m e (-64)
    let yq : Int := min (2 * (q : Int)) (64 * fix1)
    let ex := (List.range 7).foldl (fun (a : Int) _ => fixMul a a) (fixExp (-(yq / 128)))
    ((fix1 - ex) * fix1 / (fix1 + ex), -64)

/-- `FTANH` (R209): two ulp below 0.5 and 2^-22 elsewhere, within [−1, 1]. -/
def ftanhW (x : Word) : Word × Flags :=
  match fv x with
  | .nan => (w32 f32.nanBits, {})
  | .inf n => (if n then 0xBF800000#32 else 0x3F800000#32, {})
  | .fin n m e =>
    if m = 0 then (x, {}) else
    let (y, ey) := tanhFix m e
    let small := FVal.cmp (.fin false m e) (.fin false 1 (-1)) == .lt
    let r := approx (Config.approxWord 6 x) (if n then -y else y) ey (if small then twoUlp y ey else -22)
    (if 0x3F800000#32 < r &&& 0x7FFFFFFF#32 then w32 ((if n then 2 ^ 31 else 0) + 0x3F800000) else r, {})

/-- R361: cos or sin of p·ω for an integer position and a finite FP32 frequency, within 2^-22. -/
def rotary (sin : Bool) (p : Nat) (w : Word) : Word × Flags :=
  match fv w with
  | .nan => (w32 f32.nanBits, {})
  | .inf _ => (w32 f32.nanBits, { invalid := true })
  | .fin n m e => (approx (Config.rotaryWord sin p w) (trigFix (!sin) n (p * m) e) (-64) (-22), {})

/-! ### Scaled blocks (R39-R44) -/

/-- The element format of a block's format code for the class (R41): `c8` is the 8-bit class. -/
inductive BlkFmt where
  | q4x | e2m1 | int4 | e4m3 | e5m2 | int8
deriving DecidableEq, Repr

def blkFmtOf (c8 : Bool) (code : Nat) : Option BlkFmt :=
  if c8 then (if code = 0x11 then some .e4m3 else if code = 0x12 then some .e5m2 else if code = 0x13 then some .int8 else none)
  else (if code = 0x01 then some .q4x else if code = 0x02 then some .e2m1 else if code = 0x03 then some .int4 else none)

/-- R39: the scan of a Q4X body; the elements, and whether it is malformed. `skip` counts given-up slots. -/
def q4xScan : List Nat → Nat → List FVal × Bool
  | [], _ => ([], false)
  | c :: t, i =>
    if c != 8 then
      let (r, b) := q4xScan t (i + 1)
      (FVal.ofInt (sextN c 4) :: r, b)
    else
      match t with
      | hi :: lo :: t' =>
        if i ≥ 62 then ((c :: t).map (fun _ => .fin false 0 0), true) else
        let (r, b) := q4xScan t' (i + 3)
        (e4m3.val (16 * hi + lo) :: .fin false 0 0 :: .fin false 0 0 :: r, b)
      | _ => ((c :: t).map (fun _ => .fin false 0 0), true)

/-- The nibbles of bytes, the lower first (R31). -/
def nibbles (bs : List Byte) : List Nat := bs.flatMap fun b => [b.toNat % 16, b.toNat / 16]

/-- The raw elements of a block body, and whether a Q4X body is malformed. -/
def blkElems (f : BlkFmt) (body : List Byte) : List FVal × Bool :=
  match f with
  | .q4x => q4xScan (nibbles body) 0
  | .e2m1 => ((nibbles body).map e2m1.val, false)
  | .int4 => ((nibbles body).map fun c => FVal.ofInt (sextN c 4), false)
  | .e4m3 => (body.map fun b => e4m3.val b.toNat, false)
  | .e5m2 => (body.map fun b => e5m2.val b.toNat, false)
  | .int8 => (body.map fun b => FVal.ofInt (sextN b.toNat 8), false)

/-- An exact product with 2^(s − 127) (R42, R43). -/
def scaleBy (s : Nat) : FVal → FVal
  | .fin n m e => .fin n m (e + (s : Int) - 127)
  | v => v

/-- The 64 decoded elements of a block, and whether it is malformed (R42-R44). -/
def decodeBlock (c8 : Bool) (code s : Nat) (body : List Byte) : List FVal × Bool :=
  match blkFmtOf c8 code with
  | none => (List.replicate 64 (.fin false 0 0), true)
  | some f =>
    let (es, bad) := blkElems f body
    (if s = 0xFF then List.replicate 64 .nan else es.map (scaleBy s), bad)

/-- Bytes of a scaled block of a class (R40). -/
def blkBytes (c8 : Bool) : Nat := if c8 then 66 else 34

end Sys2Proof.Machine
end

