-- ==== Sys2Proof/Machine/Walk.lean ====
section
/-!
DEFINITION. The physical space (R227), the walk of the translation tables (R242-R247) and the secure ranges (R253).
-/

namespace Sys2Proof.Machine

/-- A die by number. -/
def State.die (s : State) (d : Nat) : Die := AMap.getD s.dies d Die.reset

/-! ### The physical space (R227, R495) -/

/-- The lowest enabled HDM decoder that covers an address (R495). -/
def hdmPort (s : State) (pa : Nat) : Option Nat :=
  let u := (pa - 0x8000000000000) / 0x10000000
  (List.range 8).find? fun n =>
    let b := (s.hdmb[n]?.getD 0).toNat
    nbit b 31 && decide (nbits b 0 14 ≤ u) && decide (u ≤ nbits b 0 14 + nbits (s.hdms[n]?.getD 0).toNat 0 14)

/-- Tier and home die of a physical address; none where R227 reserves it. A CXL address's home is the die that carries
the port: port 0 is on die 1 and port 1 on die 2 (R483). -/
def tierOf (s : State) (pa : Nat) : Option (Nat × Nat) :=
  if pa < 0x6000000000 then some (0, pa / 0x1800000000)
  else if 0x1000000000000 ≤ pa ∧ pa < 0x1000040000000 then
    let d := (pa - 0x1000000000000) / 0x10000000
    if (pa - 0x1000000000000) % 0x10000000 < (s.die d).vatcfg.toNat * 0x1000000 then some (0, d) else none
  else if 0x8000000000000 ≤ pa ∧ pa < 0x8040000000000 then
    (hdmPort s pa).map fun n => (1, if n < 4 then 1 else 2)
  else if 0xC000000000000 ≤ pa ∧ pa < 0x10000000000000 then some (2, 0)
  else none

/-- Whether an address lies in tier 0. -/
def inTier0 (s : State) (pa : Nat) : Bool := (tierOf s pa).any fun t => t.1 == 0

/-- Whether an address lies in a secure range of its home die (R253). -/
def inSecure (s : State) (pa : Nat) : Bool :=
  match tierOf s pa with
  | none => false
  | some (_, d) =>
    let di := s.die d
    (List.range 16).any fun n =>
      let b := (di.srb[n]?.getD 0).toNat
      nbit b 31 && decide (nbits b 0 31 ≤ pa / 2 ^ 21) && decide (pa / 2 ^ 21 ≤ nbits (di.srl[n]?.getD 0).toNat 0 31)

/-! ### The walk (R242-R246) -/

/-- What an access is for. -/
inductive AccKind where
  | read | write | fetch
deriving DecidableEq, Repr

/-- A leaf that a walk reached: the entry, its address, and the base-2 logarithm of the page size. -/
structure Leaf where
  pte : Nat
  at_ : Nat
  lg : Nat
deriving DecidableEq, Repr

def Leaf.tier (l : Leaf) : Nat := nbits l.pte 7 2
def Leaf.cache (l : Leaf) : Nat := nbits l.pte 5 2
def Leaf.frame (l : Leaf) : Nat := nbits l.pte 12 36 * 2 ^ 16

/-- Causes of a translation fault (R246). -/
def causeRange : Nat := 1
def causeUnmapped : Nat := 2
def causeMalformed : Nat := 3
def causePermission : Nat := 4
def causeWorld : Nat := 5

/-- Reads an 8-byte entry. -/
def read8 (s : State) (a : Nat) : Nat := leNat (s.mem.readN a 8)

/-- The number of index bits below a level, and the size of the table of the next one. -/
def levelShift : Nat → Nat
  | 0 => 39
  | 1 => 30
  | 2 => 21
  | _ => 16
def levelBits : Nat → Nat
  | 0 => 17
  | 3 => 5
  | _ => 9

/-- Order 5 of R246 for a leaf of a level. -/
def leafMalformed (s : State) (level e : Nat) : Bool :=
  let lg := levelShift level
  let base := nbits e 12 36 * 2 ^ 16
  nbits e 10 2 != 0 || level == 0 || base % 2 ^ lg != 0 || nbits e 7 2 == 3 || nbits e 5 2 == 3 ||
    (tierOf s base).map Prod.fst != some (nbits e 7 2)

/-- Order 5 of R246 for a non-leaf of a level. -/
def nextMalformed (s : State) (level e : Nat) : Bool :=
  let next := nbits e 8 44 * 2 ^ 8
  nbits e 52 12 != 0 || nbits e 2 6 != 0 || level == 3 ||
    (level != 2 && next % 2 ^ 12 != 0) || !inTier0 s next

/-- The levels from `level` on, `n` of them, from the table at `table`. -/
def walkFrom (s : State) (va : Nat) : Nat → Nat → Nat → Except Nat Leaf
  | 0, _, _ => .error causeMalformed
  | n + 1, level, table =>
    let a := table + 8 * nbits va (levelShift level) (levelBits level)
    let e := read8 s a
    if !nbit e 0 then .error causeUnmapped
    else if nbit e 1 then
      if leafMalformed s level e then .error causeMalformed else .ok ⟨e, a, levelShift level⟩
    else if nextMalformed s level e then .error causeMalformed
    else walkFrom s va n (level + 1) (nbits e 8 44 * 2 ^ 8)

/-- The walk of an access (orders 2 to 5). -/
def walk (s : State) (asid : Nat) (secure : Bool) (va : Nat) : Except Nat Leaf :=
  let e := read8 s (nbits s.asidBase.toNat 0 32 * 2 ^ 20 + 8 * asid)
  if !nbit e 63 then .error causeUnmapped
  else if nbit e 62 && !secure then .error causeWorld
  else if nbits e 52 10 != 0 || nbits e 0 20 != 0 || !inTier0 s (nbits e 20 32 * 2 ^ 20) then .error causeMalformed
  else walkFrom s va 4 0 (nbits e 20 32 * 2 ^ 20)

/-- Orders 6 to 8 on a leaf: the physical address, or the cause. -/
def checkLeaf (s : State) (l : Leaf) (secure : Bool) (k : AccKind) (va : Nat) : Except Nat Nat :=
  let pa := l.frame + va % 2 ^ l.lg
  if (k == .write && !nbit l.pte 2) || (k == .fetch && !nbit l.pte 3) then .error causePermission
  else if nbit l.pte 4 && !secure then .error causeWorld
  else if inSecure s pa && !secure then .error causeWorld
  else .ok pa

/-- A whole translation with no cache in between. -/
def translateRaw (s : State) (asid : Nat) (secure : Bool) (k : AccKind) (va : DWord) : Except Nat (Nat × Leaf) :=
  if va.toNat / 2 ^ 56 != 0 then .error causeRange else do
    let l ← walk s asid secure va.toNat
    let pa ← checkLeaf s l secure k va.toNat
    pure (pa, l)

end Sys2Proof.Machine
end

