-- ==== Sys2Proof/Machine/Ops.lean ====
section
/-!
DEFINITION. The shared operations of the machine: who issues, active lanes, time, the black box and interrupts, the fault
queue, taking a trap and returning from one, ending a launch, engine contexts, counters, acquires and releases, and
barrier phases.
-/

namespace Sys2Proof.Machine

/-- What a meaning stops for before it has had its effect: a trap (R452, R456), a wait at issue, or a wait at issue that
has set something going, such as the drain of R278. -/
inductive Stop where
  | trap (q : TrapReq)
  | stall
  | again (t : State)

/-- A meaning on its way to a next state. -/
abbrev Res := Except Stop State

/-! ### Parts of the state -/

/-- A core, a context, a launch and a block by number. -/
def State.core (s : State) (c : Nat) : CoreState := AMap.getD s.cores c CoreState.reset
def State.ctx (s : State) (c : Nat) : Context := AMap.getD s.contexts c Context.reset
def State.launch (s : State) (u : Nat) : Launch := AMap.getD s.launches u default
def State.block (s : State) (u : Nat) : Block := AMap.getD s.blocks u default

/-- Changing a die, a core, a context, a launch, a block. -/
def State.updDie (d : Nat) (f : Die → Die) (s : State) : State := { s with dies := AMap.set s.dies d (f (s.die d)) }
def State.updCore (c : Nat) (f : CoreState → CoreState) (s : State) : State :=
  { s with cores := AMap.set s.cores c (f (s.core c)) }
def State.updBody (c : Nat) (f : CoreBody → CoreBody) (s : State) : State :=
  s.updCore c fun k => { k with body := f k.body }
def State.updCtx (c : Nat) (f : Context → Context) (s : State) : State :=
  { s with contexts := AMap.set s.contexts c (f (s.ctx c)) }
def State.updLaunch (u : Nat) (f : Launch → Launch) (s : State) : State :=
  { s with launches := AMap.modify s.launches u f }
def State.updBlock (u : Nat) (f : Block → Block) (s : State) : State :=
  { s with blocks := AMap.modify s.blocks u f }
def State.updEng (u : Nat) (f : BlkEng → BlkEng) (s : State) : State :=
  s.updBlock u fun b => { b with eng := f b.eng }

/-- The same change to a block in its core's checkpoints: what output of a committed epoch brings back stays through a
rollback. -/
def inCkpts (u : Nat) (f : State → State) (s : State) : State :=
  let later (b : Block) : Block := State.block (f { s with blocks := AMap.set s.blocks u b }) u
  s.updCore (48 * (s.block u).place.die + (s.block u).place.core) fun k =>
    { k with ckpts := k.ckpts.map fun c => { c with blocks := AMap.modify c.blocks u later } }

/-- A change of a block and of its checkpoints. -/
def lasting (u : Nat) (f : State → State) (s : State) : State := f (inCkpts u f s)

/-- Changing a warp of a block. -/
def Block.updWarp (w : Nat) (f : Warp → Warp) (b : Block) : Block := { b with warps := AMap.modify b.warps w f }
def State.updWarpOf (u w : Nat) (f : Warp → Warp) (s : State) : State := s.updBlock u (Block.updWarp w f)

/-- The block, the warp and the split that issue. -/
def State.curBlock (s : State) : Block := s.block s.cur.blk
def State.curWarp (s : State) : Warp := AMap.getD s.curBlock.warps s.cur.warp default
def State.curSplit (s : State) : Split := AMap.getD s.curWarp.splits s.cur.split default
def State.curLaunch (s : State) : Launch := s.launch s.curBlock.launch

/-- The block, the warp and the split that issue are there. -/
def State.Issues (s : State) (b : Block) (w : Warp) (sp : Split) : Prop :=
  AMap.get? s.blocks s.cur.blk = some b ∧ AMap.get? b.warps s.cur.warp = some w ∧
    AMap.get? w.splits s.cur.split = some sp

def State.updCurBlock (f : Block → Block) (s : State) : State := s.updBlock s.cur.blk f
def State.updWarp (f : Warp → Warp) (s : State) : State := s.updWarpOf s.cur.blk s.cur.warp f
def State.updReg (f : Regs → Regs) (s : State) : State := s.updWarp fun w => { w with reg := f w.reg }
def State.updLane (f : LaneState → LaneState) (s : State) : State := s.updWarp fun w => { w with lane := f w.lane }
def State.updOrd (f : OrdState → OrdState) (s : State) : State := s.updWarp fun w => { w with ord := f w.ord }
def State.updSplit (f : Split → Split) (s : State) : State :=
  s.updWarp fun w => { w with splits := AMap.modify w.splits s.cur.split f }

/-- The number of a block's core in the package. -/
def Place.coreNo (p : Place) : Nat := 48 * p.die + p.core

/-- The core that issues. -/
def State.curCore (s : State) : Nat := s.curBlock.place.coreNo

/-- The hardware cluster of a core number, in the die. -/
def clusterOf (core : Nat) : Nat := core % 48 / 4

/-- R9: warp w of a block in slot t runs on sub-core (w + t) mod 4. -/
def subCore (warp slot : Nat) : Nat := (warp + slot) % 4

/-- Whether lagering is on for a launch (R14, R464). -/
def Launch.lagers (l : Launch) : Bool := !l.hdr.lagerOff

/-- The epoch of a time (R462). -/
def epochOf (t : Nat) : Nat := t / 1024

/-- The current epoch. -/
def State.epoch (s : State) : Nat := epochOf s.now

/-- The present instant (R407, log 136): the %sync time, then the releases and acquires made in that cycle; no instant is 0,
which stands for never. -/
def State.instant (s : State) : Nat := s.now * 2 ^ 64 + s.tick + 1

/-- The %sync time of an instant. -/
def instantTime (t : Nat) : Nat := t / 2 ^ 64

/-- A release or an acquire comes after everything that has been done in the cycle. -/
def State.ticked (s : State) : State := { s with tick := s.tick + 1 }

/-! ### Active lanes (R124, R136, R146) -/

/-- The lanes whose guard is true. -/
def guardMask (w : Warp) : Guard → Mask
  | .pred neg p =>
    let m : Mask := if h : p.val < 7 then w.reg.p[p.val] else 0xFFFFFFFF#32
    if neg then ~~~ m else m
  | .path one => if one then w.lane.path else ~~~ w.lane.path

/-- The lanes a split issues for: live, and not gone from the clause (R116). -/
def issuing (w : Warp) (sp : Split) : Mask := sp.lanes &&& ~~~ sp.left &&& w.lane.live

/-- The lanes that read a source field (R146): predicate guards excuse no read, path guards do. -/
def readers (w : Warp) (sp : Split) (g : Guard) : Mask :=
  match g with
  | .pred _ _ => issuing w sp
  | .path _ => issuing w sp &&& guardMask w g

/-- The lanes of the current split. -/
def State.issuing (s : State) : Mask := Machine.issuing s.curWarp s.curSplit

/-- The lanes of the current split, those among them that have left the clause: an encoding faults for all of them (R135). -/
def State.members (s : State) : Mask := s.curSplit.lanes &&& s.curWarp.lane.live

/-- The active lanes of an instruction (R136). -/
def State.active (s : State) (g : Guard) : Mask := s.issuing &&& guardMask s.curWarp g

/-! ### The clause header (R115) -/

def hdrClass (h : DWord) : Nat := (h.extractLsb' 61 3).toNat
def hdrCount (h : DWord) : Nat := (h.extractLsb' 57 4).toNat + 1
def hdrArr (h : DWord) : BitVec 8 := h.extractLsb' 49 8
def hdrTlen (h : DWord) : Bool := h.getLsbD 48
def hdrTlsel (h : DWord) : Nat := (h.extractLsb' 44 4).toNat
def hdrTlreg (h : DWord) : Nat := (h.extractLsb' 38 6).toNat
def hdrOut (h : DWord) : Nat := (h.extractLsb' 32 6).toNat
def hdrMeld (h : DWord) : Bool := h.getLsbD 31
def hdrPtab (h : DWord) : Bool := h.getLsbD 30
def hdrYield (h : DWord) : Bool := h.getLsbD 29
def hdrReserved (h : DWord) : BitVec 29 := h.extractLsb' 0 29

/-- The offset of the clause after the one at `hdr` (R116). -/
def nextClause (hdr : Nat) (h : DWord) : Nat := hdr + 8 * (hdrCount h + 1)

/-- The clause the current split is in. -/
def State.header (s : State) : DWord := s.curSplit.header

/-- Whether the current instruction is the last of its clause. -/
def State.isLast (s : State) : Bool := s.curSplit.idx + 1 == hdrCount s.header

/-! ### Free values (log 4) -/

/-- A fresh free number. -/
def State.free (s : State) : Nat × State := (Config.freeNat s.freeCtr, { s with freeCtr := s.freeCtr + 1 })

/-- A fresh free choice. -/
def State.freeBool (s : State) : Bool × State := (Config.freeBool s.freeCtr, { s with freeCtr := s.freeCtr + 1 })

/-- A fresh name for a launch, a block, an operation (log 4). -/
def State.uid (s : State) : Nat × State := (s.uidCtr, { s with uidCtr := s.uidCtr + 1 })

/-! ### Agents (R420) -/

/-- The code of an agent. -/
def agentCode (engine : Bool) (p : Place) (unit opnum : Nat) : Word :=
  w32 ((if engine then 2 ^ 31 else 0) + p.die % 4 * 2 ^ 29 + p.core % 64 * 2 ^ 23 + p.slot % 8 * 2 ^ 20 +
    unit % 16 * 2 ^ 16 + opnum % 2 ^ 16)

/-- A warp as an agent, and an engine operation. -/
def warpAgent (b : Block) (w : Nat) : Word := agentCode false b.place w 0
def engAgent (b : Block) (ctx : Nat) (num : DWord) : Word := agentCode true b.place ctx num.toNat
def State.curAgent (s : State) : Word := warpAgent s.curBlock s.cur.warp

/-! ### Interrupts, black box, error log (R494, R468, R472) -/

/-- A write of the device over the GNL is delivered: an interrupt writes its vector's pair (R494). -/
def deliverGnl (w : GnlWrite) (s : State) : State :=
  match w with
  | .irq n =>
    let v := AMap.getD s.page.vectors n (0, 0)
    { s with page := { s.page with sent := s.page.sent ++ [(n, v.1, v.2)] } }
  | .mirror pa bs => { s with mem := s.mem.writeAll (at_ pa bs) }

/-- A write of the device over the GNL, which is served while the link is ACTIVE and waits until then (R492). -/
def sendGnl (w : GnlWrite) (s : State) : State :=
  if s.gnl.state = 2 then deliverGnl w s else { s with gnl := { s.gnl with waiting := s.gnl.waiting ++ [w] } }

/-- Sends an interrupt. -/
def sendIrq (n : Nat) (s : State) : State := sendGnl (.irq n) s

/-- The bytes of a black-box entry. -/
def BbEnt.bytes (e : BbEnt) : List Byte :=
  toLe 8 e.time ++ toLe 2 e.asid ++ toLe 1 e.kind ++ toLe 1 e.type ++ toLe 4 e.agent.toNat ++
    toLe 8 e.data0.toNat ++ toLe 8 e.data1.toNat

/-- Writes an entry unless the box is frozen (R468, R469), mirroring it over the GNL when BBHOST is nonzero; while the link is DOWN
the copy is lost (R492). -/
def bbWrite (d : Nat) (e : BbEnt) (s : State) : State :=
  let di := s.die d
  if di.frozen then s else
  let e := { e with time := s.now }
  let s := s.updDie d fun di => { di with bb := AMap.set di.bb di.bbHead e, bbHead := (di.bbHead + 1) % 4096 }
  if di.bbHost = 0 ∨ s.gnl.state = 4 then s
  else sendGnl (.mirror (di.bbHost.toNat + 32 * di.bbHead) e.bytes) s

/-- An entry of a type with the current time; the caller gives the rest. -/
def bbEnt (type kind asid : Nat) (agent : Word) (data0 data1 : DWord) : BbEnt :=
  { data1, data0, agent, type, kind, asid, time := 0 }

/-- Freezes a box, which interrupts the host (R469, R494). -/
def freeze (d : Nat) (s : State) : State :=
  if (s.die d).frozen then s else sendIrq 64 (s.updDie d fun di => { di with frozen := true })

/-- Adds an event to the error log, which holds 256 and drops the newest when full: a dropped event is counted in the
newest entry (R472). -/
def logError (d : Nat) (type : Nat) (w1 : Word) (w23 : DWord) (s : State) : State :=
  s.updDie d fun di =>
    if di.errLog.length < 256 then { di with errLog := di.errLog ++ [#v[w32 (type * 2 ^ 24), w1, lo32 w23, hi32 w23]] }
    else { di with errLog := di.errLog.mapIdx fun i e => if i = 255 then e.set 0 (if e[0] &&& 0xFFFFFF#32 = 0xFFFFFF#32 then e[0] else e[0] + 1) else e }

/-! ### Fault kinds (R450) -/

namespace Kind
def illegal : Nat := 0x01
def clauseFormat : Nat := 0x02
def targetAlign : Nat := 0x03
def deadValue : Nat := 0x04
def latch : Nat := 0x05
def indexBound : Nat := 0x06
def nonUniform : Nat := 0x07
def uniformWriter : Nat := 0x08
def reservation : Nat := 0x09
def misaligned : Nat := 0x0A
def bufferBound : Nat := 0x0B
def peerWindow : Nat := 0x0C
def peerSet : Nat := 0x0D
def barrierPhase : Nat := 0x0E
def barrierRange : Nat := 0x0F
def serialRegion : Nat := 0x10
def descriptor : Nat := 0x11
def blockFormat : Nat := 0x12
def positionRange : Nat := 0x13
def invalidHandle : Nat := 0x14
def streamUnbound : Nat := 0x15
def endpointBusy : Nat := 0x16
def memoryModel : Nat := 0x17
def replayWrite : Nat := 0x18
def overrun : Nat := 0x19
def software : Nat := 0x1A
def privileged : Nat := 0x1B
def translation : Nat := 0x20
def breakpoint : Nat := 0x21
def uncorrectable : Nat := 0x22
end Kind

/-- A trap at the current instruction. -/
def State.trapReq (s : State) (kind : Nat) (lanes : Mask) : TrapReq :=
  { kind, cause := 0, lanes, va := 0, write := false, code := 0, race := none, pc := ⟨s.curSplit.hdr, s.curSplit.idx⟩ }

/-- Stops with a trap of these lanes when there are any. -/
def trapIf (s : State) (kind : Nat) (lanes : Mask) : Except Stop Unit :=
  if lanes = 0 then .ok () else .error (.trap (s.trapReq kind lanes))

/-- Waits at issue while a condition holds. -/
def stallIf (c : Bool) : Except Stop Unit := if c then .error .stall else .ok ()

/-! ### Ending a block's launch (R459, R65) -/

/-- A request for a lane of a block that is no longer there changes nothing; these predicates pick what belongs to a
launch. -/
def ofLaunch (s : State) (l : Nat) (u : Nat) : Bool := (AMap.get? s.blocks u).any fun b => b.launch == l

/-- Leaves a peer set (R236, R239). -/
def dropPeer (u : Nat) (s : State) : State :=
  let b := s.block u
  match b.eng.peer with
  | none => s
  | some (g, _) =>
    let s := s.updDie b.place.die fun di => { di with clusters := vmod di.clusters (b.place.core / 4) fun c =>
      { c with peers := vmod c.peers g fun l => l.filter fun p => p.2 != u } }
    s.updEng u fun e => { e with peer := none }

/-- Frees a fabric endpoint (R426). -/
def dropEndpoint (u : Nat) (s : State) : State :=
  let b := s.block u
  match b.eng.endpoint with
  | none => s
  | some e =>
    let s := s.updDie b.place.die fun di => { di with endpoints := AMap.erase di.endpoints e }
    s.updEng u fun x => { x with endpoint := none }

/-- Whether an entry of the fault queue is a block's (R458). -/
def Poster.isOf (s : State) (u : Nat) : Poster → Bool
  | .warp b _ _ _ => b == u
  | .refill b _ => b == u
  | .copy core id => (s.core core).body.copies.any fun c => c.id == id && c.kick.owner == .blk u
  | .attn core => (s.core core).body.attn.head?.any fun a => a.blk == u
  | .coll _ b => b == u

/-! ### The fault queue (R456, R474) -/

/-- The lowest free slot of a die's queue. -/
def freeSlot (d : Die) : Option Nat := (List.range 64).find? fun i => (AMap.get? d.fq i).isNone

/-- Puts an entry into a slot. -/
def fillSlot (i : Nat) (words : Vector Word 4) (p : Poster) (d : Die) : Die :=
  { d with
    fq := AMap.set d.fq i { words := words.set 0 (words[0] ||| w32 i), read := false, order := d.fqOrder, poster := p }
    fqOrder := d.fqOrder + 1 }

/-- Posts that waited for room take free slots in their order. -/
def Die.promote (d : Die) : Nat → Die
  | 0 => d
  | n + 1 =>
    match d.postQ, freeSlot d with
    | (words, p) :: t, some i => (fillSlot i words p { d with postQ := t }).promote n
    | _, _ => d

/-- The control core's queue becomes this: a new head starts to run now (R79). -/
def Die.setCalls (now : Nat) (calls : List Call) (d : Die) : Die :=
  { d with calls := calls, callAt := if calls.head? = d.calls.head? then d.callAt else now }

/-- Removes everything of one block from the engines, queues and lager buffers: its output vanishes, its tasks stop
(R459, R107). A plane load goes on: planes end with their launch (R313). -/
def stripBlock (u : Nat) (s : State) : State :=
  let kickOf (k : Kick) : Bool := k.owner == .blk u
  let strip (k : CoreState) : CoreState :=
    { k with
      lager := k.lager.filter fun o => o.blk != u
      body := { k.body with
        kicks := k.body.kicks.filter fun x => !kickOf x
        copies := k.body.copies.filter fun x => !kickOf x.kick
        high := k.body.high.filter fun x => x.blk != u
        normal := k.body.normal.filter fun x => x.blk != u
        attn := k.body.attn.filter fun x => x.blk != u
        attnRun := if (k.body.attn.head?.any fun x => x.blk == u) then none else k.body.attnRun
        nt := k.body.nt.filter fun x => x.blk != u
        array := { k.body.array with
          run := if (k.body.array.run.any fun r => r.task.blk == u) then none else k.body.array.run
          commits := k.body.array.commits.filter fun r => r.task.blk != u
          strictSplit := k.body.array.strictSplit.filter fun x => x.1 != u } } }
  { s with
    cores := AMap.mapVals s.cores fun _ k => strip k
    dies := AMap.mapVals s.dies fun _ d =>
      let calls := d.calls.filter fun c => match c with | .post b _ _ _ _ _ => b != u | _ => true
      Die.promote { d.setCalls s.now calls with
        fq := d.fq.filter fun e => !e.2.poster.isOf s u
        postQ := d.postQ.filter fun e => !e.2.isOf s u } 64
    colls := AMap.mapVals s.colls fun _ c => { c with parts := c.parts.filter fun p => p.blk != u || p.sent } }

/-- Discards a block: its peer set, endpoint, engine work, output and slot (R459, R107). -/
def discardBlock (u : Nat) (s : State) : State :=
  let s := stripBlock u (dropEndpoint u (dropPeer u s))
  let b := s.block u
  let s := match b.area with
    | none => s
    | some a => s.updDie b.place.die fun d => { d with areas := d.areas.filter fun x => x != a }
  { s with blocks := s.blocks.filter fun p => p.1 != u }

/-- Discards all blocks of a launch (R459). -/
def discardLaunch (l : Nat) (s : State) : State :=
  ((s.blocks.filter fun p => p.2.launch == l).map Prod.fst).foldl (fun s u => discardBlock u s) s

/-! Status codes (R64). -/
namespace Status
def ok : Nat := 0
def headerFormat : Nat := 1
def codeCheck : Nat := 2
def featureMismatch : Nat := 3
def attributeConflict : Nat := 4
def resource : Nat := 5
def notCoresident : Nat := 6
def descriptorFormat : Nat := 7
def entryFormat : Nat := 8
def graphFormat : Nat := 9
def translation : Nat := 0xA
def failed : Nat := 0xB
def replayLimit : Nat := 0xC
def loopLimit : Nat := 0xD
def snapshot : Nat := 0xE
end Status

/-- R459: an event that ends a launch. Its blocks are discarded; it is then replayed when it is replayable and this is not
its third request (R83), and fails otherwise, by the step that follows. -/
def endLaunch (l : Nat) (s : State) : State :=
  let la := s.launch l
  if la.ending.isSome then s else
  let status := if la.desc.replayable && !la.snapLost then
    (if 2 ≤ la.replays then Status.replayLimit else Status.ok) else Status.failed
  (discardLaunch l s).updLaunch l fun x => { x with ending := some status }

/-- Ends the block of an agent: the black-box entry of R459, then its launch. -/
def terminate (u : Nat) (type kind : Nat) (agent : Word) (data0 : DWord) (s : State) : State :=
  let b := s.block u
  endLaunch b.launch (bbWrite b.place.die (bbEnt type kind (s.launch b.launch).desc.asid agent data0 0) s)

/-! ### Posting faults (R456, R474) -/

/-- Whether a die works: it has booted, and has not stopped for heat (R486, R488). -/
def dieUp (s : State) (d : Nat) : Bool := s.booted && !(s.die d).stopped

/-- The four words of an entry; the slot is filled in when it is posted. -/
def faultWords (asid cause source : Nat) (write world : Bool) (agent : Word) (va : Nat) (kind : Nat) : Vector Word 4 :=
  #v[w32 (asid % 2 ^ 16 * 2 ^ 16 + cause % 16 * 2 ^ 12 + source % 4 * 2 ^ 10 + write.toNat * 2 ^ 9 + world.toNat * 2 ^ 8),
     agent, w32 (va % 2 ^ 32), w32 (kind % 256 * 2 ^ 24 + va / 2 ^ 32 % 2 ^ 24)]

/-- Posts an entry, or waits to post while the queue is full. The slot taken is returned. -/
def postFault (d : Nat) (words : Vector Word 4) (p : Poster) (s : State) : Option Nat × State :=
  match freeSlot (s.die d) with
  | some i => (some i, s.updDie d (fillSlot i words p))
  | none => (none, s.updDie d fun di => { di with postQ := di.postQ ++ [(words, p)] })

/-! ### Traps (R452-R455, R177) -/

/-- The state a trap record takes from a request (R453); `path` and `inmeld` are the lanes' as they stand. -/
def TrapState.record (t : TrapState) (q : TrapReq) (lane : LaneState) (pending : Bool) : TrapState :=
  let inmeld := (lane.inMeld &&& q.lanes) != 0
  let table := (lane.table &&& lane.inMeld &&& q.lanes) != 0
  { t with
    info := w32 (q.kind * 2 ^ 24 + q.cause % 16 * 2 ^ 20 + inmeld.toNat * 2 ^ 19 + table.toNat * 2 ^ 18 +
      q.write.toNat * 2 ^ 17 + pending.toNat * 2 ^ 16)
    code := w32 q.code
    mask := q.lanes
    pc := w64 (q.pc.hdr % 2 ^ 32 + q.pc.idx % 16 * 2 ^ 32)
    va := q.va
    path := lane.path &&& lane.inMeld &&& q.lanes
    raceVa := (q.race.map fun r => r.1).getD 0
    raceP := (q.race.map fun r => r.2.1).getD 0
    raceT := (q.race.map fun r => w64 r.2.2.1).getD 0
    raceK := (q.race.map fun r => w32 (2 * r.2.2.2 + q.write.toNat)).getD 0 }

/-- Takes lanes out of every split of a warp; a split left without lanes ends. -/
def Warp.detach (w : Warp) (m : Mask) : Warp :=
  let cut (sp : Split) : Split := { sp with lanes := sp.lanes &&& ~~~ m, left := sp.left &&& ~~~ m }
  let l := AMap.mapVals w.splits fun _ sp => cut sp
  { w with splits := l.filter fun p => p.2.lanes != 0 }

/-- Adds a split. -/
def Warp.addSplit (w : Warp) (sp : Split) : Warp :=
  { w with splits := AMap.set w.splits w.splitCtr sp, splitCtr := w.splitCtr + 1 }

/-- R452: faulting lanes of the split `k` become a handler split at trap_off, with the record written first; `at_` is the cycle
of the fault where an instruction raised it. -/
def Warp.deliver (w : Warp) (k : Nat) (q : TrapReq) (off : Nat) (at_ : Option Nat) : Warp :=
  let sp := AMap.getD w.splits k default
  let t := { w.trap.record q w.lane w.trap.pending.isSome with
    current := some (q, at_), whence := some (k, sp), lat := w.reg.lat, latPtr := sp.latPtr, yields := sp.yields }
  let lane := { w.lane with inHandler := w.lane.inHandler ||| q.lanes, inMeld := w.lane.inMeld &&& ~~~ q.lanes }
  let w := (w.detach q.lanes).addSplit (Split.start q.lanes off)
  { w with
    splits := AMap.modify w.splits k fun sp => { sp with fence := false, mark := none, stalled := false, plane := none }
    trap := t
    lane := lane
    noPre := w.noPre && q.kind != Kind.overrun
    overrun := w.overrun && q.kind != Kind.overrun }

/-- Order of program counters (R168). -/
def Pc.lt (a b : Pc) : Bool := decide (a.hdr < b.hdr) || (a.hdr == b.hdr && decide (a.idx < b.idx))

/-- Holds a trap of the split `k` pending (R177): the split issues nothing until the trap is delivered. An overrun that is held
ends the region (R110). -/
def Warp.holdAt (w : Warp) (k : Nat) (q : TrapReq) : Warp :=
  { w with
    splits := AMap.modify w.splits k fun sp => { sp with wait := .pending, port := none, stalled := false }
    trap := { w.trap with pending := some q, info := w.trap.info ||| 0x10000#32 }
    noPre := w.noPre && q.kind != Kind.overrun
    overrun := w.overrun && q.kind != Kind.overrun }

/-- Whether the trap in hand came of a fault of this cycle in another split (R177). -/
def Warp.rival (w : Warp) (q : TrapReq) (now : Nat) : Bool :=
  w.trap.current.any fun x => x.2 == some now && w.trap.pending.isNone && (x.1.lanes &&& q.lanes) == 0

/-- TRAPPC of a trap (R453): the clause and the index of its instruction. -/
def TrapReq.trapPc (q : TrapReq) : DWord := w64 (q.pc.hdr % 2 ^ 32 + q.pc.idx % 16 * 2 ^ 32)

/-- The black-box entry of a trap delivered to a handler (R468). -/
def logTrap (c : Cursor) (q : TrapReq) (s : State) : State :=
  let b := s.block c.blk
  bbWrite b.place.die (bbEnt 0x01 q.kind (s.launch b.launch).desc.asid (warpAgent b c.warp)
    q.trapPc 0) s

/-- R455: a double fault ends the block. -/
def doubleFault (c : Cursor) (q : TrapReq) (s : State) : State :=
  terminate c.blk 0x02 q.kind (warpAgent (s.block c.blk) c.warp) q.trapPc s

/-- R452: a trap enters the handler, or ends the block that has none. A trap_off that R117 does not mark is a target-alignment
fault at the instruction that trapped (R134), and so a double fault (log 163). -/
def enterTrap (c : Cursor) (q : TrapReq) (at_ : Option Nat) (s : State) : State :=
  let b := s.block c.blk
  let la := s.launch b.launch
  if la.hdr.trapOff = 0xFFFFFFFF then terminate c.blk 0x03 q.kind (warpAgent b c.warp) q.trapPc s
  else if !la.headers.contains la.hdr.trapOff then doubleFault c { q with kind := Kind.targetAlign } s
  else logTrap c q (s.updWarpOf c.blk c.warp fun w => w.deliver c.split q la.hdr.trapOff at_)

/-- The black-box entry of a world fault (R254): the virtual address and, where it has one, the physical address. Its
requester is non-secure, for a secure access meets no world fault. -/
def worldEnt (s : State) (asid : Nat) (agent : Word) (va : DWord) : BbEnt :=
  bbEnt 0x0A Kind.translation asid agent va (w64 (match translateRaw s asid true .read va with
    | .ok (pa, _) => pa
    | .error _ => 0))

/-- A translation fault that is posted writes its black-box entry where it is a world fault (R254). -/
def worldNote (d asid cause : Nat) (agent : Word) (va : DWord) (s : State) : State :=
  if cause = 5 then bbWrite d (worldEnt s asid agent va) s else s

/-- R456: a system-class fault of a split is posted, and the split waits at the instruction. -/
def systemTrap (c : Cursor) (q : TrapReq) (s : State) : State :=
  let b := s.block c.blk
  let la := s.launch b.launch
  let va := if q.kind = Kind.translation then q.va.toNat % 2 ^ 56 else q.code
  let words := faultWords la.desc.asid q.cause 0 q.write la.desc.world (warpAgent b c.warp) va q.kind
  let (slot, s) := postFault b.place.die words (.warp c.blk c.warp c.split q) s
  let s := s.updWarpOf c.blk c.warp fun w =>
    { w with splits := AMap.modify w.splits c.split fun sp =>
      { sp with wait := .fault (slot.getD 64), port := none, fence := false, mark := none, stalled := false, plane := none } }
  worldNote b.place.die la.desc.asid (if q.kind = Kind.translation then q.cause else 0) (warpAgent b c.warp) q.va s

/-- Whether a trap goes to system software (R450, R189). -/
def toSystem (la : Launch) (q : TrapReq) : Bool :=
  q.kind == Kind.breakpoint || (q.kind == Kind.software && la.hdr.trapOff == 0xFFFFFFFF)

/-- A breakpoint or software trap is posted, and is the trap in hand until its verdict (R189, R177). -/
def postTrap (c : Cursor) (q : TrapReq) (at_ : Option Nat) (s : State) : State :=
  (systemTrap c q s).updWarpOf c.blk c.warp fun w => { w with trap := { w.trap with current := some (q, at_) } }

/-- Takes a trap at an instruction of the split `c`, by its class (R450): after a trap that another split's instruction raised in
the same cycle, at a lower program counter, it is held, where the kernel has a handler whose `TRAPRET` can end the hold (R177, log
164); while a handler runs it is a double fault (R455). -/
def takeTrap (c : Cursor) (q : TrapReq) (s : State) : State :=
  let b := s.block c.blk
  let w := AMap.getD b.warps c.warp default
  let la := s.launch b.launch
  if q.kind = Kind.uncorrectable then terminate c.blk 0x06 q.kind (warpAgent b c.warp) q.va s
  else if q.kind = Kind.translation then systemTrap c q s
  else if w.rival q s.now && la.hdr.trapOff != 0xFFFFFFFF then s.updWarpOf c.blk c.warp fun w => w.holdAt c.split q
  else if w.lane.inHandler != 0 then doubleFault c q s
  else if toSystem la q then postTrap c q (some s.now) s
  else enterTrap c q (some s.now) s

/-- Whether another split of the warp, at a lower program counter, is yet to issue in this cycle: a fault of its goes first
(R177). -/
def othersFirst (c : Cursor) (q : TrapReq) (s : State) : Bool :=
  let w := AMap.getD (s.block c.blk).warps c.warp default
  q.kind != Kind.uncorrectable && q.kind != Kind.translation && s.agenda.any fun t => match t with
    | .issue d => d.blk == c.blk && d.warp == c.warp && d.split != c.split &&
        (let sp := AMap.getD w.splits d.split default; (Pc.lt ⟨sp.hdr, sp.idx⟩ q.pc))
    | .event _ => false

/-- The split comes again after them; one that has not started its clause is selected again. -/
def comeAgain (c : Cursor) (s : State) : State :=
  let sp := AMap.getD (AMap.getD (s.block c.blk).warps c.warp default).splits c.split default
  if sp.port.isSome then { s with agenda := s.agenda ++ [.issue c] } else s

/-- Raises a trap at an instruction of the split `c`, in the order of R177. -/
def raiseAt (c : Cursor) (q : TrapReq) (s : State) : State :=
  if othersFirst c q s then comeAgain c s else takeTrap c q s

/-- Raises a trap at the current instruction. -/
def raiseTrap (q : TrapReq) (s : State) : State := raiseAt s.cur q s

/-- The split that holds the pending trap. -/
def Warp.heldSplit (w : Warp) : Nat := ((w.splits.find? fun p => p.2.wait == .pending).map Prod.fst).getD 0

/-- The trap in hand is over, and the pending one no longer holds its split. -/
def Warp.endTrap (w : Warp) : Warp :=
  { w with
    splits := AMap.mapVals w.splits fun _ sp => if sp.wait = .pending then { sp with wait := .none } else sp
    trap := { w.trap with current := none, whence := none, pending := none } }

/-- The trap in hand is over when no lane is left in the handler: then the pending one is delivered (R454, R177). -/
def trapEnds (u wn : Nat) (s : State) : State :=
  let b := s.block u
  let w := AMap.getD b.warps wn default
  if w.lane.inHandler != 0 then s else
  let t := s.updWarpOf u wn Warp.endTrap
  match w.trap.pending with
  | none => t
  | some q =>
    let c : Cursor := ⟨u, wn, w.heldSplit⟩
    if toSystem (s.launch b.launch) q then postTrap c q none t else enterTrap c q none t

/-! ### Going on (R116, R155) -/

/-- After an instruction: every latch has one reader less for the split's lanes (R155). -/
def ageLatches (m : Mask) (r : Regs) : Regs :=
  { r with lat := r.lat.map fun l => { l with life := tab fun i => if has m i then l.life[i] - 1 else l.life[i] } }

/-- The current split moves to the next instruction of its clause. -/
def advance (s : State) : State :=
  let m := s.curSplit.lanes
  (s.updReg (ageLatches m)).updSplit fun sp => { sp with idx := sp.idx + 1, fence := false, mark := none, stalled := false, plane := none }

/-- The same for a split that does not issue now. -/
def advanceAt (c : Cursor) (s : State) : State := { advance { s with cur := c } with cur := s.cur }

/-- The current instruction waits at issue. -/
def State.waits (s : State) : State := s.updSplit fun sp => { sp with stalled := true }

/-- What a meaning comes to: its effect, a trap taken, or the instruction still at issue. -/
def finish (r : Res) (s : State) : Host.Outcome State Fault Refusal :=
  match r with
  | .ok t => .next (advance t)
  | .error (.trap q) => .next (raiseTrap q s)
  | .error .stall => .next s.waits
  | .error (.again t) => .next t

/-! ### Checks at issue (R134, R135, R167, R172) -/

/-- Whether an operand is an m name. -/
def isMName : Operand → Bool
  | .m _ => true
  | _ => false

/-- Whether a guard names a path. -/
def isPathGuard : Guard → Bool
  | .path _ => true
  | _ => false

/-- The renaming entry of an m name for a lane (R171): the table and path of the lane's region. -/
def renameOf (w : Warp) (i : Fin 16) (l : Fin 32) : Option (Fin 256) :=
  let row := 2 * (has w.lane.table l).toNat + (has w.lane.path l).toNat
  if h : row < 4 then (w.reg.ren[row])[i] else none

/-- The destinations that the warp's splits await (R160). -/
def Warp.late (w : Warp) : List Late :=
  w.splits.filterMap fun p => match p.2.wait with
    | .join _ d => some d
    | .atomic _ d _ => some d
    | _ => none

/-- Whether a split of the warp awaits a register that an operand names, alone or as the first of a group. -/
def Warp.awaits (w : Warp) (o : Operand) : Bool :=
  w.late.any fun d => match o with
    | .v a => d.names.any fun p => decide (a.val ≤ p.1) && decide (p.1 < a.val + 4)
    | .m i => d.names.any fun p => (List.range 4).any fun t => ((w.reg.ren[t]?).map fun r => r[i]).any (· == some (Fin.ofNat 256 p.1))
    | .s a => (match d.d with | .s b => decide (a ≤ b) && decide (b.val < a.val + 4) | _ => false)
    | .w a => (match d.d with | .w b => decide (a ≤ b) && decide (b.val < a.val + 4) | _ => false)
    | _ => false

/-- Lanes of `m` whose entry of some m operand is invalid. -/
def badNames (w : Warp) (m : Mask) (ops : List Operand) : Mask :=
  maskOf fun l => has m l && ops.any fun o => match o with
    | .m i => (renameOf w i l).isNone
    | _ => false

/-- The faults of the encoding in this clause, for every lane of the split (R134, R135), after the overrun of a non-preemptible
region (R110). -/
def checkEncoding (g : Guard) (ops : List Operand) (last : Bool) (s : State) : Except Stop Unit := do
  trapIf s Kind.overrun (if s.curWarp.overrun then s.issuing else 0)
  trapIf s Kind.illegal
    (if ((isPathGuard g || ops.any isMName) && hdrClass s.header != 4) || (last && !s.isLast) then s.members else 0)

/-- The faults of the lanes' state (R135): their meld regions (R172) and the entries of m names (R171). -/
def checkState (g : Guard) (ops : List Operand) (s : State) : Except Stop Unit := do
  let w := s.curWarp
  let h := s.header
  let m := s.issuing
  trapIf s Kind.illegal
    (if s.curSplit.idx != 0 then 0
     else if hdrClass h = 4 then
       m &&& (~~~ w.lane.inMeld ||| (if hdrPtab h then ~~~ w.lane.table else w.lane.table))
     else m &&& w.lane.inMeld)
  trapIf s Kind.illegal (badNames w (s.active g) ops)

/-- The checks that come before every operand fault. The scoreboard holds the instruction while another split of the warp
awaits a register that it names (R160). -/
def checkIssue (g : Guard) (ops : List Operand) (last : Bool) (s : State) : Except Stop Unit := do
  stallIf (ops.any s.curWarp.awaits)
  checkEncoding g ops last s
  checkState g ops s

/-! ### Arrays and attention tasks (R306, R370) -/

/-- Whether an array is free: no tile task holds it, and no attention task. -/
def CoreBody.arrayFree (k : CoreBody) : Bool := k.array.run.isNone && k.attnRun.all fun r => !r.holds

/-- The flag of an attention task that has raised a tier miss (R368). -/
def missFlag (x : AttnRec) : Nat := if x.pages.isEmpty then 0 else 128

/-! ### Engine contexts and counters (R298-R301) -/

/-- Moves done over a complete prefix (R300); `n` bounds the moves. -/
def Ctx.settle (c : Ctx) : Nat → Ctx
  | 0 => c
  | n + 1 =>
    if c.late.contains (c.done + 1) then
      Ctx.settle { c with done := c.done + 1, late := c.late.erase (c.done + 1) } n
    else c

/-- An operation is complete. -/
def Ctx.complete (c : Ctx) (num : DWord) : Ctx :=
  let c := { c with late := num :: c.late }
  c.settle c.late.length

/-- Whether a context holds an operation that is not complete (R165). -/
def Ctx.busy (c : Ctx) : Bool := c.enq != c.done

def completeOn (t : Fin 5) (num : DWord) (e : BlkEng) : BlkEng := { e with tl := vmod e.tl t fun c => c.complete num }

/-- A counter goes down, saturating at −2^31 (R298), and remembers whose arrival it counted (R299). -/
def countDown (i : Nat) (n : Nat) (op : Nat × DWord) (e : BlkEng) : BlkEng :=
  { e with
    c := vmod e.c i fun w => BitVec.ofInt 32 (max (w.toInt - n) (-(2 ^ 31)))
    counted := vmod e.counted i fun l => if l.contains op then l else l ++ [op] }

/-- Whether a counter is at 0 or below. -/
def ctrDone (e : BlkEng) (i : Nat) : Bool := decide ((e.c[i]?.getD 0).toInt ≤ 0)

/-- Whether every counter of a mask is. -/
def ctrsDone (e : BlkEng) (mask : Nat) : Bool := (List.range 16).all fun i => !nbit mask i || ctrDone e i

/-! ### Acquires and releases (R411, R415) -/

def scopeNo (s : Scope) : Nat := s.code.toNat

/-- The fields of an agent code (R420). -/
def agEngine (a : Word) : Bool := a.getLsbD 31
def agDie (a : Word) : Nat := nbits a.toNat 29 2
def agCore (a : Word) : Nat := nbits a.toNat 23 6
def agSlot (a : Word) : Nat := nbits a.toNat 20 3
def agUnit (a : Word) : Nat := nbits a.toNat 16 4
def agOp (a : Word) : Nat := nbits a.toNat 0 16

/-- Whether a scope seen from one place holds another (R397). `sameWarp` and `sameBlock` say how the two stand. -/
def scopeHolds (sc : Scope) (sameWarp sameBlock : Bool) (p q : Word) : Bool :=
  match sc with
  | .wrp => sameWarp
  | .blk => sameBlock
  | .clu => agDie p == agDie q && agCore p / 4 == agCore q / 4
  | .flr => agDie p == agDie q
  | .grd | .sys => true

/-- The group number of a place for a barrier of a launch: its launch cluster, its floor, or the grid. -/
def groupAt (la : Launch) (p : Place) : BarScope → Nat
  | .clu => p.lcluster
  | .flr => p.lcluster / max la.desc.floorClusters 1
  | _ => 0

/-- That of a block. -/
def groupOf (la : Launch) (b : Block) (sc : BarScope) : Nat := groupAt la b.place sc

/-- A warp as a party, and its code. -/
def State.party (s : State) (u wn : Nat) : Party := ⟨u, wn, (s.block u).launch, (s.block u).place⟩
def Party.code (p : Party) : Word := agentCode false p.place p.warp 0

/-- Whether what a party's release or acquire covers contains another party (R397, R387). -/
def coverHas (s : State) (c : Cover) (x y : Party) : Bool :=
  match c with
  | .scope sc => scopeHolds sc (x.blk == y.blk && x.warp == y.warp) (x.blk == y.blk) x.code y.code
  | .bar b =>
    match b.scope with
    | .wrp => x.blk == y.blk && x.warp == y.warp
    | .blk => x.blk == y.blk
    | sc => x.launch == y.launch && groupAt (s.launch x.launch) x.place sc == groupAt (s.launch y.launch) y.place sc

/-- What the current warp has done and what is ordered before it, agent by agent (R408). -/
def State.passOn (s : State) : AMap Nat :=
  AMap.set s.curWarp.ord.ordered (s.party s.cur.blk s.cur.warp).code.toNat s.instant

/-- The current warp enqueues `n` operations, which take the next numbers of a context (R300). What the warp did before comes
before their accesses (R293, R408). -/
def enqueue (t : Fin 5) (n : Nat) (s : State) : State :=
  (s.updEng s.cur.blk fun e => { e with
    tl := vmod e.tl t fun c => { c with enq := c.enq + w64 n }
    orders := e.orders ++ [⟨t.val, e.tl[t].enq + 1, n, s.passOn⟩] }).ticked

/-- A release passes on what comes before it (R408). -/
def giveOrder (c : Cover) (u wn : Nat) (s : State) : State :=
  let me := s.party u wn
  let o := (AMap.getD (s.block u).warps wn default).ord.ordered
  { s with given := ⟨me, c, AMap.set o me.code.toNat s.instant⟩ ::
      s.given.filter fun g => !(g.who == me && g.cover == c) }

/-- The later of two sets of instants, agent by agent. -/
def laterOf (a b : AMap Nat) : AMap Nat := b.foldl (fun m p => AMap.set m p.1 (max p.2 (AMap.getD m p.1 0))) a

/-- An acquire learns what the releases pass on whose covers contain its warp and whose warps its own cover contains (R408). -/
def takeOrder (c : Cover) (u wn : Nat) (s : State) : State :=
  let me := s.party u wn
  let gs := s.given.filter fun g => coverHas s g.cover g.who me && coverHas s c me g.who
  s.updWarpOf u wn fun w => { w with ord := { w.ord with ordered := gs.foldl (fun m g => laterOf m g.upTo) w.ord.ordered } }

/-- A warp that completes an acquire discards the stream elements that were fetched ahead (R287). -/
def Warp.refetch (w : Warp) : Warp :=
  { w with reg := { w.reg with z := w.reg.z.map fun z => z.map fun x => { x with ahead := [] } } }

/-- An acquire at a scope: its instant, and at `.clu` or wider the core's L1 copies go (R411). -/
def acquireAt (sc : Scope) (u wn : Nat) (s : State) : State :=
  let s := takeOrder (.scope sc) u wn s.ticked
  let s := (s.updWarpOf u wn fun w => { w.refetch with ord := { w.ord with
    lastAcq := w.ord.lastAcq.setIfInBounds (scopeNo sc) s.instant } }).ticked
  if scopeNo sc < 3 then s else s.updCore (s.block u).place.coreNo fun k => { k with l1 := [] }

/-- A release enters the ring of the last four (R415). -/
def pushRelease (r : Release) (o : OrdState) : OrdState := { o with ring := ((o.ring ++ [r]).reverse.take 4).reverse }

def releaseAt (c : Cover) (u wn : Nat) (s : State) : State :=
  let s := giveOrder c u wn s.ticked
  s.updWarpOf u wn fun w => { w with ord := pushRelease ⟨s.instant, c⟩ w.ord }

/-- What a warp that acquires operations learns from those of some `orders` (R408). -/
def OrdState.learn (l : List OpOrder) (o : OrdState) : OrdState :=
  { o with ordered := l.foldl (fun m x => laterOf m x.upTo) o.ordered }

/-- Whether an operation is one of some that one instruction enqueued. -/
def OpOrder.has (x : OpOrder) (ctx : Nat) (num : DWord) : Bool :=
  x.ctx == ctx && decide (x.first.toNat ≤ num.toNat) && decide (num.toNat < x.first.toNat + x.n)

/-- R299: a wait that observes these counters at 0 or below acquires what was counted on them until now. -/
def acquireCtrs (mask : Nat) (u wn : Nat) (s : State) : State :=
  let b := s.block u
  let ops := ((List.range 16).filter (nbit mask)).flatMap fun i => b.eng.counted[i]?.getD []
  if (List.range 16).all (fun i => !nbit mask i) then s else
  let s := s.ticked
  let l := b.eng.orders.filter fun x => ops.any fun o => x.has o.1 o.2
  s.updWarpOf u wn fun w => { w.refetch with ord := OrdState.learn l { w.ord with
    engOps := (w.ord.engOps.filter fun x => !ops.contains (x.1, x.2.1)) ++ ops.map fun o => (o.1, o.2, s.instant) } }

/-- R301: a satisfied timeline wait acquires every operation up to its value. -/
def acquireTl (t : Nat) (v : DWord) (u wn : Nat) (s : State) : State :=
  let l := (s.block u).eng.orders.filter fun x => x.ctx == t && decide (x.first.toNat ≤ v.toNat)
  s.updWarpOf u wn fun w => { w.refetch with ord := OrdState.learn l { w.ord with
    engTl := vmod w.ord.engTl t fun x => if x.toNat < v.toNat then v else x } }

/-! ### Barriers (R387-R393) -/

def scopeIdx (b : BarScope) : Nat := b.code.toNat
def barKey (b : Bar) : Nat := 16 * scopeIdx b.scope + b.idx.val

/-- No arrival, no target. -/
def BarFlags.none : BarFlags := { arrived := 0, pending := 0, counted := 0, sent := 0, excused := 0, after := 0, target := Vector.replicate 32 0 }

def barFlags (w : Warp) (b : Bar) : BarFlags := AMap.getD w.ord.bars (barKey b) BarFlags.none

/-- The key of a launch-wide phase: scope, group and index. -/
def phaseKey (sc : BarScope) (group idx : Nat) : Nat := (group * 8 + scopeIdx sc) * 16 + idx

/-- phase(B) as a block and warp see it (R388). -/
def phaseOf (s : State) (u wn : Nat) (b : Bar) : Word :=
  let bl := s.block u
  match b.scope with
  | .wrp => ((AMap.getD bl.warps wn default).ord.wrpPhase)[b.idx.val]?.getD 0
  | .blk => bl.bphase[b.idx.val]?.getD 0
  | sc =>
    let la := s.launch bl.launch
    AMap.getD la.phases (phaseKey sc (groupOf la bl sc) b.idx.val) 0

/-- The number of blocks of a launch (R20). -/
def Desc.blocks (d : Desc) : Nat := d.gridX * d.gridY * d.gridZ

/-- Whether every lane of a warp has arrived in the phase, is exited or was revived in it (R388). -/
def warpArrived (w : Warp) (b : Bar) : Bool := (w.lane.live &&& ~~~ (barFlags w b).counted &&& ~~~ (barFlags w b).excused) == 0

/-- Whether every warp of a block has. -/
def blockArrived (bl : Block) (b : Bar) : Bool := bl.warps.all fun p => warpArrived p.2 b

/-- Whether the phase of a barrier is complete for the group of a block: every thread of it has arrived or is exited (R388); a
retired block counts as arrived, one not yet placed does not. -/
def phaseComplete (s : State) (u wn : Nat) (b : Bar) : Bool :=
  let bl := s.block u
  match b.scope with
  | .wrp => warpArrived (AMap.getD bl.warps wn default) b
  | .blk => blockArrived bl b
  | sc =>
    let la := s.launch bl.launch
    let g := groupOf la bl sc
    let mine (x : Block) : Bool := x.launch == bl.launch && groupOf la x sc == g
    (s.blocks.all fun p => !mine p.2 || blockArrived p.2 b) &&
      la.waiting.all fun c => (match sc with
        | .clu => c
        | .flr => c / max la.desc.floorClusters 1
        | _ => 0) != g

/-- Clears a warp's arrived and counted flags of a barrier at a completion (R389). -/
def Warp.clearArrived (b : Bar) (w : Warp) : Warp :=
  match AMap.get? w.ord.bars (barKey b) with
  | none => w
  | some f => { w with ord := { w.ord with bars := AMap.set w.ord.bars (barKey b) { f with arrived := 0, counted := 0, sent := 0, excused := 0 } } }

def Block.clearArrived (b : Bar) (bl : Block) : Block :=
  { bl with warps := AMap.mapVals bl.warps fun _ w => w.clearArrived b }

/-- R157, R393: the owners' writes become current. A write whose value has not come back yet is one of the next phase, and its
warp stays the owner (log 142). -/
def Block.commitUniform (bl : Block) : Block :=
  let late (i : Fin 32) : Bool := bl.warps.any fun p => p.2.late.any fun d => d.d == .w i
  { bl with
    w := Vector.ofFn fun i : Fin 32 => if bl.wOwner[i].isSome then bl.wPend[i] else bl.w[i]
    wOwner := Vector.ofFn fun i : Fin 32 => if late i then bl.wOwner[i] else none }

/-- Completes the phase of a barrier when it is due: the number goes up, every arrived flag is cleared, and at b0 the
uniform registers' phase ends. -/
def settleBarrier (u wn : Nat) (b : Bar) (s : State) : State :=
  if !phaseComplete s u wn b then s else
  let bl := s.block u
  match b.scope with
  | .wrp => s.updWarpOf u wn fun w =>
      ({ w with ord := { w.ord with wrpPhase := vmod w.ord.wrpPhase b.idx.val (· + 1) } }).clearArrived b
  | .blk => s.updBlock u fun x =>
      let x := ({ x with bphase := vmod x.bphase b.idx.val (· + 1) }).clearArrived b
      if b.idx = 0 then x.commitUniform else x
  | sc =>
    let la := s.launch bl.launch
    let g := groupOf la bl sc
    let s := s.updLaunch bl.launch fun x =>
      { x with phases := AMap.set x.phases (phaseKey sc g b.idx.val) (phaseOf s u wn b + 1) }
    { s with blocks := AMap.mapVals s.blocks fun _ x =>
        if x.launch = bl.launch ∧ groupOf la x sc = g then x.clearArrived b else x }

/-- Barriers that a block's warps have flags for: the only ones whose phase an exit can complete. -/
def barsInUse (bl : Block) : List Nat := (bl.warps.flatMap fun p => p.2.ord.bars.map Prod.fst).eraseDups

/-- The barrier of a key. -/
def barOfKey (k : Nat) : Bar :=
  ⟨if k / 16 = 0 then .wrp else if k / 16 = 1 then .blk else if k / 16 = 2 then .clu else if k / 16 = 3 then .flr else .grd,
    Fin.ofNat 16 k⟩

/-- An arrival is counted (R392): a release at the barrier, and possibly the phase's completion. -/
def countArrival (u wn : Nat) (b : Bar) (lanes : Mask) (s : State) : State :=
  let s := giveOrder (.bar b) u wn s.ticked
  let s := s.updWarpOf u wn fun w =>
    let f := barFlags w b
    let o := { w.ord with
      bars := AMap.set w.ord.bars (barKey b) { f with counted := f.counted ||| (lanes &&& f.arrived) } }
    { w with ord := pushRelease ⟨s.instant, .bar b⟩ o }
  settleBarrier u wn b s

/-- Lanes of a warp that have exited count as arrived everywhere (R388): every barrier in use in the launch is looked at. -/
def settleExit (u wn : Nat) (s : State) : State :=
  let bl := s.block u
  let keys := ((s.blocks.filter fun p => p.2.launch == bl.launch).flatMap fun p => barsInUse p.2).eraseDups
  keys.foldl (fun s k =>
    let b := barOfKey k
    settleBarrier u wn b s) s

/-- The lanes of a mask whose pending arrival at a barrier may depart (R390). -/
def canDepart (s : State) (u wn : Nat) (b : Bar) (m : Mask) : Mask :=
  let f := barFlags (AMap.getD (s.block u).warps wn default) b
  let ph := phaseOf s u wn b
  maskOf fun l => has m l && has f.pending l && decide (f.target[l].toNat ≤ ph.toNat)

/-- Lanes depart (R390, R391): pending goes, and the departure acquires at the barrier's scope. -/
def depart (u wn : Nat) (b : Bar) (m : Mask) (s : State) : State :=
  if m = 0 then s else
  let s := takeOrder (.bar b) u wn s.ticked
  let s := (s.updWarpOf u wn fun w =>
    let f := barFlags w b
    { w.refetch with ord := { w.ord with
      bars := AMap.set w.ord.bars (barKey b) { f with pending := f.pending &&& ~~~ m }
      barAcq := AMap.set w.ord.barAcq (barKey b) s.instant } }).ticked
  match b.scope with
  | .wrp | .blk => s
  | _ => s.updCore (s.block u).place.coreNo fun k => { k with l1 := [] }

end Sys2Proof.Machine
end

