-- ==== Sys2Proof/Machine/Xlate.lean ====
section
/-!
DEFINITION. Translation through the caches of translations (R246, R248), and the poison of sectors (R259).
-/

namespace Sys2Proof.Machine

/-! ### Cached translations (R248; replacement by log 7) -/

/-- The cached entry for an address. -/
def tlbFind (l : List TlbEnt) (asid : Nat) (secure : Bool) (va : Nat) : Option TlbEnt :=
  l.find? fun e => e.asid == asid && e.world == secure && e.vbase == va / 2 ^ e.lg * 2 ^ e.lg

/-- Keeps the newest `n` entries. -/
def tlbPut (n : Nat) (l : List TlbEnt) (e : TlbEnt) : List TlbEnt := ((e :: l.filter (· != e)).take n)

/-- The entry of a leaf. The entry holds the leaf's bits; its address is found again when the field `cow` matters. -/
def Leaf.ent (l : Leaf) (asid : Nat) (secure : Bool) (va : Nat) : TlbEnt :=
  { asid, world := secure, vbase := va / 2 ^ l.lg * 2 ^ l.lg, lg := l.lg, leaf := w64 l.pte }

/-- Which cache of translations an access goes through first: a core's L1 TLB, the translations that its copy engine or its
attention unit keeps, or, for the command processor and the collective engines, none before the die's. -/
inductive TlbOf where
  | core (c : Nat)
  | copy (c : Nat)
  | attn (c : Nat)
  | die (d : Nat)
deriving DecidableEq, Repr

def TlbOf.die_ : TlbOf → Nat
  | .core c => c / 48
  | .copy c => c / 48
  | .attn c => c / 48
  | .die d => d

/-- The last-level TLB takes an entry: 262,144 for pages of 64 KiB and 2 MiB, and 1,024 for those of 1 GiB (R248). -/
def Die.tlbFill (e : TlbEnt) (d : Die) : Die :=
  if e.lg = 30 then { d with tlbBig := tlbPut 1024 d.tlbBig e } else { d with tlb := tlbPut 262144 d.tlb e }

/-- The holders that stand for a cache in an invalidation: a core's L1 TLB is holder `c`, its engines' 192 + c, a die's 384 + d. -/
def TlbOf.holder : TlbOf → Nat
  | .core c => c
  | .copy c => 192 + c
  | .attn c => 192 + c
  | .die d => 384 + d

/-- Two ranges overlap. -/
def overlaps (a n b m : Nat) : Bool := decide (a < b + m) && decide (b < a + n)

/-- Whether a cached translation overlaps a range of an address space; none means every one. -/
def hitBy (base len : Nat) (asid : Option Nat) (e : TlbEnt) : Bool :=
  (asid.isNone || asid == some e.asid) && overlaps base len e.vbase (2 ^ e.lg)

/-- Whether a holder has dropped a translation that an invalidation under way names: an access that starts now walks the tables
again, though the die's TLB still holds it (R249, R471). -/
def droppedBy (s : State) (who : TlbOf) (e : TlbEnt) : Bool :=
  s.tlbInvs.any fun p => hitBy p.2.base p.2.len p.2.asid e &&
    p.2.holders.all fun h => h.1 != who.holder || h.2.isSome

/-- The leaf of an address through the caches, or from the tables, which fills them. -/
def leafOf (s : State) (who : TlbOf) (asid : Nat) (secure : Bool) (va : Nat) : Except Nat (Leaf × State) :=
  let near := match who with
    | .core c => (s.core c).tlb
    | .copy c => (s.core c).copyTlb
    | .attn c => (s.core c).attnTlb
    | .die _ => []
  match tlbFind near asid secure va with
  | some e => .ok (⟨e.leaf.toNat, 0, e.lg⟩, s)
  | none =>
    let fill (e : TlbEnt) (s : State) : State := match who with
      | .core c => s.updCore c fun k => { k with tlb := tlbPut 256 k.tlb e }
      | .copy c => s.updCore c fun k => { k with copyTlb := tlbPut 16 k.copyTlb e }
      | .attn c => s.updCore c fun k => { k with attnTlb := tlbPut 16 k.attnTlb e }
      | .die _ => s
    let d := s.die who.die_
    match ((tlbFind d.tlb asid secure va).or (tlbFind d.tlbBig asid secure va)).filter fun e => !droppedBy s who e with
    | some e => .ok (⟨e.leaf.toNat, 0, e.lg⟩, fill e s)
    | none =>
      match walk s asid secure va with
      | .error c => .error c
      | .ok l =>
        let e := l.ent asid secure va
        .ok (l, fill e (s.updDie who.die_ (Die.tlbFill e)))

/-- R246 through the caches: the physical address, the leaf, and the state with the caches filled. -/
def translate (s : State) (who : TlbOf) (asid : Nat) (secure : Bool) (k : AccKind) (va : DWord) :
    Except Nat (Nat × Leaf × State) :=
  if va.toNat / 2 ^ 56 != 0 then .error causeRange else do
    let (l, s) ← leafOf s who asid secure va.toNat
    let pa ← checkLeaf s l secure k va.toNat
    pure (pa, l, s)

/-! ### Chunk records and the poison of DRAM sectors (R256-R260) -/

/-- A chunk record (R257): its overflow page, which sectors are poisoned and which are spilled. -/
structure Chunk where
  ovf : Nat
  poison : DWord
  mode : DWord
deriving DecidableEq, Repr

/-- Where the chunk record of an address lies, in the reserved area that serves it. -/
def recordOf (s : State) (pa : Nat) : Option Nat :=
  (s.recAreas.find? fun r => decide (r.base ≤ pa) && decide (pa < r.base + r.size)).map fun r =>
    r.recs + 32 * ((pa - r.base) / 2048)

/-- The record at an address. -/
def readChunk (s : State) (a : Nat) : Chunk :=
  let x := leNat (s.mem.readN a 32)
  { ovf := nbits x 192 52, poison := w64 (nbits x 64 64), mode := w64 (nbits x 0 64) }

/-- A record is written. -/
def writeChunk (a : Nat) (c : Chunk) (s : State) : State :=
  { s with mem := s.mem.writeAll (at_ a (toLe 8 c.mode.toNat ++ toLe 8 c.poison.toNat ++ toLe 8 0 ++ toLe 8 c.ovf)) }

/-- Whether an address is the host's (R491). -/
def isHost (s : State) (pa : Nat) : Bool := (tierOf s pa).any fun t => t.1 == 2

/-- An access to host memory waits while the link is neither ACTIVE nor DOWN (R492). -/
def linkWaits (s : State) (pa : Nat) : Bool := isHost s pa && s.gnl.state != 2 && s.gnl.state != 4

/-- Whether the sector of an address is poisoned. Host memory has no record; while the link is DOWN its accesses complete
as uncorrectable data (R492). -/
def poisoned (s : State) (pa : Nat) : Bool :=
  if isHost s pa then s.gnl.state == 4 else
  match recordOf s pa with
  | none => false
  | some a => nbit (leNat (s.mem.readN (a + 8) 8)) (pa / 32 % 64)

/-- The sectors a run of bytes touches. -/
def anyPoison (s : State) (pa n : Nat) : Bool :=
  decide (n ≠ 0) && (List.range ((pa + n - 1) / 32 - pa / 32 + 1)).any fun i => poisoned s (32 * (pa / 32 + i))

end Sys2Proof.Machine
end

