-- ==== Sys2Proof/Machine/Race.lean ====
section
/-!
DEFINITION. Race records and their verdicts: R414-R420, for tier-0 lines and for typed buffers.
-/

namespace Sys2Proof.Machine

/-- A verdict of R415. -/
inductive RaceVerdict where
  | ordered | unknown | race
deriving DecidableEq, Repr

/-- The accessing warp. -/
structure Who where
  blk : Nat
  warp : Nat
  agent : Word
deriving DecidableEq, Repr

/-- A recorded party that a race was found with (R420): its agent, its instant, and RACEK [2:1]. -/
structure RaceWith where
  p : Word
  t : Nat
  multi : Bool
  wrote : Bool
deriving DecidableEq, Repr

/-- Whether a code names an agent of a block that runs at a place. -/
def namesPlace (a : Word) (p : Place) : Bool := p.die == agDie a && p.core == agCore a && p.slot == agSlot a

/-- The running block whose agent a code named at the instant `t`, where it runs now or where it ran before it was saved: the
agent of a block that has retired or is saved has no ring (R415). -/
def blockOfAgent (s : State) (a : Word) (t : Nat) : Option (Nat × Block) :=
  s.blocks.find? fun p =>
    p.2.state != .saved &&
      ((namesPlace a p.2.place && decide (p.2.since ≤ instantTime t)) ||
        p.2.past.any fun x => namesPlace a x.1 && decide (x.2.1 ≤ instantTime t) && decide (instantTime t < x.2.2))

/-- A recorded party that is known to be of block `u`. -/
def partyIn (s : State) (u : Nat) : Option (Nat × Block) := ((AMap.get? s.blocks u).filter fun b => b.state != .saved).map (u, ·)

/-- The block of an item of output as a party. -/
def partyOfItem (s : State) (o : OutItem) : Option (Nat × Block) := partyIn s o.blk

/-- The block of a recorded party, from the earliest instant that its record holds: the block `own` whose buffer the record is
of, where the party ran there, or one that ran where it says (R415, R416). The instant may be from before the owner moved. -/
def partyOf (s : State) (own : Option Nat) (p : Word) (t : Nat) : Option (Nat × Block) :=
  ((own.bind (partyIn s)).filter fun x => namesPlace p x.2.place ||
    x.2.past.any fun y => namesPlace p y.1 && decide (instantTime t < y.2.2)).or (blockOfAgent s p t)

/-- Whether a recorded party of a block is the accessing warp itself, which may have been saved and resumed elsewhere. -/
def isSelf (pb : Option (Nat × Block)) (p : Word) (a : Who) : Bool :=
  p == a.agent || (!agEngine p && agUnit p == a.warp && pb.any fun x => x.1 == a.blk)

/-- The latest acquire of a warp at a scope or wider. -/
def acqFrom (o : OrdState) (sc : Scope) : Nat :=
  (List.range 7).foldl (fun m i => if scopeNo sc ≤ i then max m (o.lastAcq[i]?.getD 0) else m) 0

/-- The latest acquire of a warp at any scope or barrier. -/
def lastAcqAny (o : OrdState) : Nat := (o.barAcq.map Prod.snd).foldl max (acqFrom o .wrp)

/-- Whether a warp's release entry covers another warp, and that warp's acquire for it (R415). -/
def coversAt (s : State) (p : Party) (a : Who) (e : Release) : Option Nat :=
  let o := (AMap.getD (s.block a.blk).warps a.warp default).ord
  if coverHas s e.cover p (s.party a.blk a.warp) then
    some (match e.cover with
      | .scope sc => acqFrom o sc
      | .bar b => AMap.getD o.barAcq (barKey b) 0)
  else none

/-- Whether a warp has completed a wait that acquires what an operation of its block did at the instant `tp` (R299, R301): a
context number and the low 16 bits of the operation's number. -/
def acquiredOp (s : State) (a : Who) (ctx op tp : Nat) : Bool :=
  let ab := s.block a.blk
  let o := (AMap.getD ab.warps a.warp default).ord
  let enq := (ab.eng.tl[ctx]?.map fun c => c.enq.toNat).getD 0
  let num := enq - (enq + 65536 - op % 65536) % 65536
  (decide (1 ≤ num) && decide (num ≤ (o.engTl[ctx]?.getD 0).toNat)) ||
    o.engOps.any fun x => x.1 == ctx && x.2.1.toNat % 65536 == op && decide (tp < x.2.2)

/-- R415: the verdict on a recorded party of a block. A pair that only a chain of R408 orders is no race (R418, log 137). -/
def verdict (s : State) (pb : Option (Nat × Block)) (p : Word) (tp : Nat) (a : Who) : RaceVerdict :=
  if isSelf pb p a then .ordered else
  let aw := AMap.getD (s.block a.blk).warps a.warp default
  match pb with
  | none => if agEngine p then (if lastAcqAny aw.ord < tp then .race else .unknown) else .unknown
  | some (pu, pb) =>
    if agEngine p then
      if pu = a.blk ∧ acquiredOp s a (agUnit p) (agOp p) tp then .ordered
      else if lastAcqAny aw.ord < tp then .race else .unknown
    else
      let ring := (AMap.getD pb.warps (agUnit p) default).ord.ring
      if ring.any fun e => match coversAt s (s.party pu (agUnit p)) a e with
        | some acq => decide (tp < e.t) && decide (e.t < acq)
        | none => false
      then .ordered
      else if ring.length = 4 ∧ ring.all fun e => decide (tp < e.t) then .unknown
      else if tp ≤ AMap.getD aw.ord.ordered p.toNat 0 then .ordered
      else .race

/-- A check of an atomic against an atomic record (R415). -/
def atomVerdict (s : State) (pb : Option (Nat × Block)) (p : Word) (tp : Nat) (a : Who) (sc : Scope) (ascope : Nat) : RaceVerdict :=
  let pu := pb.map Prod.fst
  let same := pu == some a.blk
  let holds (x : Scope) : Bool := scopeHolds x (same && agUnit p == a.warp) same p a.agent
  let rec_ : Scope := match ascope with
    | 1 => .wrp | 2 => .blk | 3 => .clu | 4 => .flr | 5 => .grd | _ => .sys
  if holds sc then (if holds rec_ then .ordered else .unknown) else verdict s pb p tp a

/-- What a check uses of an access: who, its instant, whether it writes, and its scope when it is an atomic. -/
structure Acc where
  who : Who
  t : Nat
  write : Bool
  atom : Option Scope
deriving DecidableEq, Repr

/-- The verdict on a party recorded for a word, an atomic record included. -/
def judge (s : State) (a : Acc) (pb : Option (Nat × Block)) (isAtom : Bool) (ascope : Nat) (p : Word) (tp : Nat) : RaceVerdict :=
  match a.atom, isAtom with
  | some sc, true => if isSelf pb p a.who then .ordered else atomVerdict s pb p tp a.who sc ascope
  | _, _ => verdict s pb p tp a.who

/-- Whether two agents are of one core. -/
def sameCore (a p : Word) : Bool := agDie a == agDie p && agCore a == agCore p

/-- Pairs of agents of one core are judged when the later access is made on the core, so that a home does not judge a
recorded party of the item's own core made after the item (log 30). -/
def judgedOnCore (item : Option Nat) (a p : Word) (tp : Nat) : Bool :=
  match item with
  | some t => sameCore a p && decide (t ≤ tp)
  | none => false

/-- The earliest instant at which one of a writer's recorded writes entered its core's lager buffer. -/
def firstEntered (entered : AMap Nat) (t : Nat) : Nat := (entered.map Prod.snd).foldl min t

/-- The recorded write of a word against an access. What stands for the writer's writes is, between agents of one core or one
block, the earliest instant at which one entered the core's lager buffer, and else the earliest at the home (log 30). -/
def checkWrite (s : State) (a : Acc) (own : Option Nat) (item : Option Nat) (isAtom : Bool) (ascope : Nat) (p : Word) (wtime : Nat)
    (entered : AMap Nat) (i : Nat) : Option RaceWith :=
  let t0 := firstEntered entered wtime
  let pb := partyOf s own p t0
  let tp := if sameCore a.who.agent p || pb.any (fun x => x.1 == a.who.blk) then t0 else wtime
  if p != a.who.agent && !judgedOnCore item a.who.agent p (AMap.getD entered i wtime) &&
    judge s a pb isAtom ascope p tp == .race then some ⟨p, tp, false, true⟩ else none

/-- The agents whose recorded reads of a word a write is judged against. -/
def readersOf (s : State) (a : Acc) (own : Option Nat) (item : Option Nat) (seen : List (Nat × Word × Nat)) (i : Nat) :
    List (Word × Nat) :=
  (seen.filter fun x => x.1 == i && !isSelf (partyOf s own x.2.1 x.2.2) x.2.1 a.who &&
    !judgedOnCore item a.who.agent x.2.1 x.2.2).map Prod.snd

/-- Whether an agent is an engine operation that the warp has acquired. -/
def acquiredAgent (s : State) (a : Who) (own : Option Nat) (p : Word × Nat) : Bool :=
  agEngine p.1 && (match partyOf s own p.1 p.2 with
    | some (pu, _) => pu == a.blk && acquiredOp s a (agUnit p.1) (agOp p.1) p.2
    | none => false)

/-- The recorded reads of a word against a write: one reader by its verdict, several by the warp's latest acquire, and then
only where another agent has read the word and no wait has acquired it (R415, R418, log 137). -/
def checkReads (s : State) (a : Acc) (own : Option Nat) (isAtom : Bool) (ascope : Nat) (several : Bool) (reader : Word) (rtime : Nat)
    (others : List (Word × Nat)) : Option RaceWith :=
  if others.isEmpty then none
  else if several then
    let o := (AMap.getD (s.block a.who.blk).warps a.who.warp default).ord
    if lastAcqAny o < rtime ∧ others.any fun p => !acquiredAgent s a.who own p then some ⟨reader, rtime, true, false⟩ else none
  else if judge s a (partyOf s own reader rtime) isAtom ascope reader rtime == .race then some ⟨reader, rtime, false, false⟩
  else none

/-- A read added to those of a word. -/
def addSeen (i : Nat) (agent : Word) (t : Nat) (l : List (Nat × Word × Nat)) : List (Nat × Word × Nat) :=
  if l.any fun x => x.1 == i && x.2.1 == agent then l else l ++ [(i, agent, t)]

/-- The reads of a word forgotten. -/
def dropSeen (i : Nat) (l : List (Nat × Word × Nat)) : List (Nat × Word × Nat) := l.filter fun x => x.1 != i

/-! ### Tier-0 lines (R417) -/

/-- The words of a line that a run of bytes touches. -/
def lineWords (pa n : Nat) : List Nat := ((List.range n).map fun i => (pa + i) / 4).eraseDups

/-- Checks an access against the record of one word of a line. -/
def checkWord (s : State) (a : Acc) (item : Option Nat) (w : Nat) : Option RaceWith :=
  match AMap.get? s.lines (w / 16) with
  | none => none
  | some r =>
    let i := w % 16
    let isAt := r.amask.getLsbD i
    let againstW : Option RaceWith :=
      if r.wvalid && r.wmask.getLsbD i then checkWrite s a none item isAt r.ascope r.writer r.wtime r.entered i else none
    match againstW with
    | some x => some x
    | none =>
      if a.write && r.rvalid && r.rmask.getLsbD i then
        checkReads s a none isAt r.ascope r.multi r.reader r.rtime (readersOf s a none item r.seen i)
      else none

/-- Clears or sets bit `i` of a 16-bit mask. -/
def setBit (m : BitVec 16) (i : Nat) (b : Bool) : BitVec 16 := if b then m ||| (1#16 <<< i) else m &&& ~~~ (1#16 <<< i)

/-- The narrower of two scope codes. -/
def narrower (a b : Nat) : Nat := min a b

/-- The words of a line in a mask. -/
def wordsIn (m : BitVec 16) : List Nat := (List.range 16).filter fun i => m.getLsbD i

/-- The record of a line after an access to some of its words: its instant at the home, and that at which it entered its
core's lager buffer. -/
def LineRec.access (r : LineRec) (agent : Word) (t entered : Nat) (write : Bool) (atom : Option Scope) (m : BitVec 16) :
    LineRec :=
  let ws := wordsIn m
  if write then
    let newAgent := !r.wvalid || r.writer != agent
    let r1 : LineRec := if newAgent then
        { r with
          writer := agent
          wtime := t
          wmask := m
          wvalid := true
          entered := ws.map fun i => (i, entered)
          done := ws.map fun i => (i, t) }
      else { r with
        wmask := r.wmask ||| m
        entered := ws.foldl (fun e i => AMap.set e i (min entered (AMap.getD e i entered))) r.entered
        done := ws.foldl (fun e i => AMap.set e i (min t (AMap.getD e i t))) r.done }
    let r2 : LineRec := { r1 with rmask := r1.rmask &&& ~~~ m, seen := ws.foldl (fun l i => dropSeen i l) r1.seen }
    let r3 : LineRec := if r2.rmask = 0 then { r2 with rvalid := false, multi := false } else r2
    match atom with
    | some sc =>
      if newAgent then
        { r3 with
          amask := r3.amask ||| m
          ascope := if r3.amask &&& ~~~ m = 0 then scopeNo sc else narrower r3.ascope (scopeNo sc) }
      else if r3.amask &&& m != 0 then { r3 with ascope := narrower r3.ascope (scopeNo sc) } else r3
    | none => { r3 with amask := r3.amask &&& ~~~ m }
  else
    { r with
      multi := r.multi || (r.rvalid && r.reader != agent)
      rmask := r.rmask ||| m
      reader := agent
      rvalid := true
      rtime := if r.rvalid then min r.rtime t else t
      amask := r.amask &&& ~~~ m
      seen := ws.foldl (fun l i => addSeen i agent t l) r.seen }

/-- The words of a list that lie in a line, as a mask. -/
def maskIn (ws : List Nat) (line : Nat) : BitVec 16 :=
  ws.foldl (fun m w => if w / 16 = line then setBit m (w % 16) true else m) 0

/-- Records one access to words of memory, line by line. -/
def recordWords (s : State) (agent : Word) (t entered : Nat) (write : Bool) (atom : Option Scope) (ws : List Nat) : State :=
  ((ws.map (· / 16)).eraseDups).foldl (fun s ln =>
    let r := (AMap.getD s.lines ln LineRec.reset).access agent t entered write atom (maskIn ws ln)
    { s with lines := AMap.set s.lines ln r }) s

/-- Evicts records of lines, by a free choice: an evicted record holds nothing when the line comes back (R418, log 144). -/
def evictRecords (s : State) : State :=
  { s with lines := s.lines.filter fun p => !Config.freeAt s.freeCtr p.1 }

/-! ### Typed buffers (R416) -/

/-- The granule records of a block's buffer. -/
def granOf (b : Block) (c : Bool) (g : Nat) : GranRec := AMap.getD (if c then b.raceC else b.raceA) g GranRec.reset

/-- The agent that wrote word `i` of a granule. -/
def granWriter (g : GranRec) (i : Nat) : Word := AMap.getD g.wagent i 0

/-- The code of a writing agent for the allotment of a block. -/
def writerCode (b : Block) (agent : Word) : Nat :=
  if agDie agent = b.place.die ∧ agCore agent = b.place.core ∧ agSlot agent = b.place.slot then
    (if agEngine agent then 16 + agUnit agent else agUnit agent)
  else 22

/-- Checks an access against the record of one word of a typed buffer. -/
def checkGran (s : State) (a : Acc) (item : Option Nat) (u : Nat) (c : Bool) (w : Nat) : Option RaceWith :=
  let b := s.block u
  let g := granOf b c (w / 16)
  let i := w % 16
  let code := g.writer[i]?.getD 31
  let rd := g.readers[i]?.getD 0
  let isAt := g.amask.getLsbD i
  let wr := granWriter g i
  let againstW : Option RaceWith :=
    if code != 31 then checkWrite s a (some u) item isAt g.ascope wr g.wtime g.entered i else none
  match againstW with
  | some x => some x
  | none =>
    if !a.write || rd = 0 then none
    else checkReads s a (some u) isAt g.ascope (rd != 1) g.reader g.rtime (readersOf s a (some u) item g.seen i)

/-- The granule after an access to its word `i`. -/
def GranRec.access (b : Block) (g : GranRec) (agent : Word) (t entered epoch : Nat) (write : Bool) (atom : Option Scope)
    (i : Nat) : GranRec :=
  let code := writerCode b agent
  if write then
    let newAgent := g.writer[i]?.getD 31 != code || granWriter g i != agent
    let none_ := g.writer.all (· == 31)
    let g1 : GranRec := if newAgent then
        { g with
          writer := g.writer.setIfInBounds i code
          readers := g.readers.setIfInBounds i 0
          wtime := if none_ then t else min g.wtime t
          wagent := AMap.set g.wagent i agent
          entered := AMap.set g.entered i entered
          done := AMap.set g.done i t
          seen := dropSeen i g.seen }
      else g
    -- a write made on the owner's core can still be withdrawn (R238)
    let g2 : GranRec := { g1 with
      lastW := if agDie agent = b.place.die ∧ agCore agent = b.place.core then epoch + 1 else g1.lastW }
    match atom with
    | some sc =>
      if newAgent then
        let others := setBit g2.amask i false
        { g2 with
          amask := setBit g2.amask i true
          ascope := if others = 0 then scopeNo sc else narrower g2.ascope (scopeNo sc) }
      else if g2.amask.getLsbD i then { g2 with ascope := narrower g2.ascope (scopeNo sc) } else g2
    | none => { g2 with amask := setBit g2.amask i false }
  else
    let isWriter := granWriter g i == agent && g.writer[i]?.getD 31 != 31
    let rd := g.readers[i]?.getD 0
    let noReads := g.readers.all (· == 0)
    let g1 : GranRec := if isWriter then g else
      { g with
        readers := g.readers.setIfInBounds i (if rd = 0 ∧ (noReads ∨ g.reader = agent) then 1
          else if rd = 1 ∧ g.reader = agent then 1 else 2)
        reader := if noReads then agent else g.reader
        rtime := if noReads then t else min g.rtime t
        seen := addSeen i agent t g.seen }
    { g1 with amask := setBit g1.amask i false }

/-- Records an access to one word of a typed buffer. -/
def recordGran (s : State) (u : Nat) (c : Bool) (agent : Word) (entered : Nat) (write : Bool) (atom : Option Scope)
    (w : Nat) : State :=
  s.updBlock u fun b =>
    let g := (granOf b c (w / 16)).access b agent s.instant entered s.epoch write atom (w % 16)
    if c then { b with raceC := AMap.set b.raceC (w / 16) g } else { b with raceA := AMap.set b.raceA (w / 16) g }

/-! ### Output performed after it has left (R407) -/

/-- The instants of words moved from that of leaving to that of performing. -/
def movedTo (t0 t1 : Nat) (ws : List Nat) (m : AMap Nat) : AMap Nat :=
  m.map fun p => if p.2 = t0 ∧ ws.contains p.1 then (p.1, t1) else p

/-- The earliest instant of some words. -/
def earliest (m : AMap Nat) (d : Nat) : Nat :=
  match m with
  | [] => d
  | p :: t => t.foldl (fun x q => min x q.2) p.2

/-- A line's record once output that was recorded as it left, at `t0`, has been performed at `t1`. -/
def LineRec.performed (r : LineRec) (agent : Word) (t0 t1 : Nat) (ws : List Nat) : LineRec :=
  if r.wvalid && r.writer == agent then
    let done := movedTo t0 t1 ws r.done
    { r with done, wtime := if r.wtime = t0 then earliest done t0 else r.wtime }
  else r

/-- The same for a granule. -/
def GranRec.performed (g : GranRec) (agent : Word) (t0 t1 : Nat) (ws : List Nat) : GranRec :=
  let done := movedTo t0 t1 (ws.filter fun i => granWriter g i == agent) g.done
  { g with done, wtime := if g.wtime = t0 then earliest done t0 else g.wtime }

/-- Words of memory that output has written now. -/
def linesPerformed (agent : Word) (t0 : Nat) (ws : List Nat) (s : State) : State :=
  { s with lines := ((ws.map (· / 16)).eraseDups).foldl (fun m ln => AMap.modify m ln fun r =>
      r.performed agent t0 s.instant ((ws.filter fun w => w / 16 == ln).map (· % 16))) s.lines }

/-- Words of a typed buffer that output has written now. -/
def gransPerformed (u : Nat) (c : Bool) (agent : Word) (t0 : Nat) (ws : List Nat) (s : State) : State :=
  let go (m : AMap GranRec) : AMap GranRec := ((ws.map (· / 16)).eraseDups).foldl (fun m g => AMap.modify m g fun r =>
    r.performed agent t0 s.instant ((ws.filter fun w => w / 16 == g).map (· % 16))) m
  s.updBlock u fun b => if c then { b with raceC := go b.raceC } else { b with raceA := go b.raceA }

/-- What a trap record takes of a race on the word at `va` (R420). -/
def RaceWith.regs (r : RaceWith) (va : DWord) : DWord × Word × Nat × Nat :=
  (va, r.p, instantTime r.t, 2 * r.multi.toNat + r.wrote.toNat)

end Sys2Proof.Machine
end

