-- ==== Sys2Proof/Machine/Sector.lean ====
section
/-!
DEFINITION. The code that protects a 32-byte sector (R256): Reed-Solomon over GF(2^8) with the field polynomial
x^8 + x^4 + x^3 + x^2 + 1 and a generator with the roots α^0 to α^3, where α = 0x02. The first byte of a codeword is its term of
the highest degree (log 149).
-/

namespace Sys2Proof.Machine

/-- Twice an element. -/
def gfDouble (a : Byte) : Byte := (a <<< 1) ^^^ (if a.getLsbD 7 then 0x1D#8 else 0)

/-- The product of two elements. -/
def gfMul (a b : Byte) : Byte :=
  ((List.range 8).foldl (fun (p : Byte × Byte) i => (if b.getLsbD i then p.1 ^^^ p.2 else p.1, gfDouble p.2)) (0, a)).1

/-- α to a power. -/
def gfExp : Nat → Byte
  | 0 => 1
  | n + 1 => gfDouble (gfExp n)

/-- The inverse of an element: its power 254. -/
def gfInv (a : Byte) : Byte := (List.range 253).foldl (fun p _ => gfMul p a) a

/-- The value at a point of the polynomial whose coefficients are listed, the highest degree first. -/
def gfEval (x : Byte) (p : List Byte) : Byte := p.foldl (fun acc c => gfMul acc x ^^^ c) 0

/-- The product of a polynomial and x + r, the highest degree first. -/
def polyMul (p : List Byte) (r : Byte) : List Byte := List.zipWith (· ^^^ ·) (p ++ [0]) (0 :: p.map fun c => gfMul c r)

/-- The generator but for its leading 1. -/
def generator : List Byte := (((List.range 4).map gfExp).foldl polyMul [1]).drop 1

/-- The four check bytes of some data: what the data, moved up by four, leaves when the generator divides it. -/
def checkBytes (data : List Byte) : List Byte :=
  data.foldl (fun r d =>
    let f := d ^^^ r.headD 0
    List.zipWith (fun x g => x ^^^ gfMul f g) (r.drop 1 ++ [0]) generator) [0, 0, 0, 0]

/-- The values of a word at the four roots: all zero for a codeword. -/
def syndromes (w : List Byte) : List Byte := (List.range 4).map fun j => gfEval (gfExp j) w

/-- Whether errors `e` at points `x` give the syndromes. -/
def explains (es : List (Byte × Byte)) (sy : List Byte) : Bool :=
  (es.foldl (fun (acc : List Byte) e => List.zipWith (· ^^^ ·) acc ((List.range 4).map fun j => gfMul e.2 ((List.range j).foldl (fun p _ => gfMul p e.1) 1))) [0, 0, 0, 0]) == sy

/-- Errors at two positions, by the first two syndromes; at one position where they are the same. -/
def errorsAt (n i k : Nat) (sy : List Byte) : List (Nat × Byte × Byte) :=
  let x := gfExp (n - 1 - i)
  let y := gfExp (n - 1 - k)
  let s0 := sy[0]?.getD 0
  let s1 := sy[1]?.getD 0
  if i = k then [(i, x, s0)] else
  let f := gfMul (s1 ^^^ gfMul s0 x) (gfInv (x ^^^ y))
  [(i, x, s0 ^^^ f), (k, y, f)]

/-- The correction of a word: the codeword within two bytes of it and how many bytes differ, or none. -/
def correct (w : List Byte) : Option (List Byte × Nat) :=
  let sy := syndromes w
  if sy.all (· == 0) then some (w, 0) else
  let n := w.length
  let ones := (List.range n).map fun i => (i, i)
  let twos := (List.range n).flatMap fun i => (List.range i).map fun k => (k, i)
  (ones ++ twos).findSome? fun p =>
    let es := errorsAt n p.1 p.2 sy
    if es.all (fun e => e.2.2 != 0) && explains (es.map fun e => e.2) sy then
      some (es.foldl (fun w e => w.modify e.1 (· ^^^ e.2.2)) w, es.length)
    else none

end Sys2Proof.Machine
end

