-- ==== Sys2Proof/Machine/Access.lean ====
section
/-!
DEFINITION. What an access does: the checks of R268 in their order, the view of a core (R266, R411), what leaves through
the lager buffer (R464), what is performed at memory (R81, R256-R259), atomics (R275-R279), and the typed buffers with
their windows (R232-R239).
-/

namespace Sys2Proof.Machine

/-! ### Requests and their faults (R268) -/

/-- One access of an instruction: the lanes it is made for, its address and its size. -/
structure Req where
  lanes : Mask
  va : DWord
  n : Nat
deriving DecidableEq, Repr

/-- A translated request. -/
structure Got where
  req : Req
  pa : Nat
  leaf : Leaf
deriving DecidableEq, Repr

/-- Requests that failed, in lane order, each with a translation cause. -/
abbrev Bad := List (Req × Nat)

/-- R268: the trap records the kind, the lanes that met it and the address and cause of the lowest of them. -/
def failWith (s : State) (kind : Nat) (write : Bool) (bad : Bad) : Except Stop Unit :=
  match bad with
  | [] => .ok ()
  | (r, cause) :: _ =>
    .error (.trap { s.trapReq kind (bad.foldl (fun m b => m ||| b.1.lanes) 0) with
      va := r.va, cause := cause, write := write })

/-- The same for a race, with its registers: the address is that of the racing word (R420). -/
def failRace (s : State) (write : Bool) (bad : List (Req × DWord × RaceWith)) : Except Stop Unit :=
  match bad with
  | [] => .ok ()
  | (r, va, x) :: _ =>
    .error (.trap { s.trapReq Kind.memoryModel (bad.foldl (fun m b => m ||| b.1.lanes) 0) with
      va := r.va, write := write, race := some (x.regs va) })

/-- Requests whose address is not a multiple of their size (R264). -/
def misalignedOf (rs : List Req) : Bad := (rs.filter fun r => r.va.toNat % r.n != 0).map fun r => (r, 0)

/-- Translates requests in lane order (R246), with the caches carried along. -/
def xlateAll (s : State) (who : TlbOf) (asid : Nat) (secure : Bool) (k : AccKind) : List Req → List Got × Bad × State
  | [] => ([], [], s)
  | r :: t =>
    match translate s who asid secure k r.va with
    | .error c =>
      let (g, b, s') := xlateAll s who asid secure k t
      (g, (r, c) :: b, s')
    | .ok (pa, l, s1) =>
      let (g, b, s') := xlateAll s1 who asid secure k t
      (⟨r, pa, l⟩ :: g, b, s')

/-- Whether a replayable launch may write an address (R82). DESIGN CHOICE (log 157): one that has lost replayability (R81) is
replayable still for this rule, whose words name the descriptor's bit. -/
def replayCovers (la : Launch) (s : State) (pa : Nat) : Bool :=
  !la.desc.replayable ||
    !isHost s pa && la.covered.contains (pa / 65536)

/-- Entries of a core's range scoreboard: its requests', and those of saved blocks' suspended requests (R240). -/
def sbEntries (s : State) (core : Nat) : List CopyOp :=
  (s.core core).body.copies ++ (s.blocks.filter fun p => p.2.state == .saved && p.2.place.coreNo == core).flatMap fun p => p.2.work.copies

/-- Whether a range meets an entry of the core's range scoreboard (R240): space 0 is virtual under an ASID, 1 and 2 are
the ABUF and CBUF allotment of a block. -/
def sbHits (s : State) (core space key lo n : Nat) : Bool :=
  (sbEntries s core).any fun c =>
    c.sbSpace == space && overlaps lo n c.sbLo (c.sbHi - c.sbLo) &&
      (match c.kick.owner with
        | .blk u => if space = 0 then (s.launch (s.block u).launch).desc.asid == key else u == key
        | .node gr _ => (AMap.get? (s.die (core / 48)).graphs gr).any fun g => (s.ctx g.ctx).asid.toNat == key)

/-- The line of an address in the core's L1. -/
def l1Line (s : State) (core pa : Nat) : Option L1Line := (s.core core).l1.find? fun c => c.line == pa / 64

/-- The copy that a load is served from, which may be older than memory (R411, by free choice, log 21); none where it goes to
memory. -/
def copyFor (s : State) (core : Nat) (cached : Bool) (pa : Nat) : Option L1Line :=
  (if cached then l1Line s core pa else none).filter fun c => Config.freeAt s.freeCtr c.line

/-- Output of a core that is not performed yet, the oldest first. -/
def pendingOf (s : State) (core : Nat) : List OutItem :=
  (s.inflight.filter fun o => 48 * o.die + o.core == core) ++ (s.core core).lager

/-- Whether a write replaces all 32 bytes of a sector. -/
def coversSector (l : List (Nat × Byte)) (sec : Nat) : Bool := (List.range 32).all fun i => l.any fun p => p.1 == sec * 32 + i

/-- Whether an item of output replaces a whole sector. -/
def OutKind.covers (k : OutKind) (sec : Nat) : Bool :=
  match k with
  | .store _ l => coversSector l sec
  | _ => false

/-- Whether an access that reads finds poison: in the copy that serves it, or in memory, and not where the core's own output
replaces the sector (R259, R260). -/
def findsPoison (s : State) (k : AccKind) (g : Got) : Bool :=
  (match if k == .read then copyFor s s.curCore (g.leaf.cache == 0) g.pa else none with
    | some c => c.poison.getLsbD (g.pa / 32 % 2)
    | none => anyPoison s g.pa g.req.n) &&
    !(pendingOf s s.curCore).any fun o => o.kind.covers (g.pa / 32)

/-- An atomic of the warp beyond the core whose old values have not come back, or a `FENCE` that has begun (R265, R276, R403):
it holds back later accesses of the warp that it orders. -/
def Warp.acquiring (w : Warp) (k : Nat) : Bool :=
  w.splits.any fun p => p.1 != k && (p.2.fence || match p.2.wait with
    | .atomic _ _ acq => acq.isSome
    | _ => false)

/-- For the accesses of an instruction to global memory: what the warp acquires first (R265) and R240, then R264, R246, R82, R492
and R260. -/
def globalCheck (s : State) (k : AccKind) (reads align : Bool) (rs : List Req) : Except Stop (List Got × State) := do
  let la := s.curLaunch
  stallIf (!rs.isEmpty && s.curWarp.acquiring s.cur.split)
  stallIf (rs.any fun r => sbHits s s.curCore 0 la.desc.asid r.va.toNat r.n)
  failWith s Kind.misaligned (k == .write) (if align then misalignedOf rs else [])
  let (gs, bad, s1) := xlateAll s (.core s.curCore) la.desc.asid la.desc.world k rs
  failWith s Kind.translation (k == .write) bad
  failWith s Kind.replayWrite true
    (if k == .write then (gs.filter fun g => !replayCovers la s g.pa).map fun g => (g.req, 0) else [])
  stallIf (gs.any fun g => linkWaits s g.pa)
  failWith s Kind.uncorrectable (k == .write)
    (if reads then (gs.filter (findsPoison s k)).map fun g => (g.req, 0) else [])
  pure (gs, s1)

/-! ### Atomic operations (R275) -/

/-- The new value of a word. -/
def atomNew (op : AtomOp) (old x : Word) : Word × Flags :=
  match op with
  | .add => (old + x, {})
  | .fadd => fadd32 .rn (fv old) (fv x)
  | .smin => (if old.toInt ≤ x.toInt then old else x, {})
  | .umin => (if old.toNat ≤ x.toNat then old else x, {})
  | .smax => (if x.toInt ≤ old.toInt then old else x, {})
  | .umax => (if x.toNat ≤ old.toNat then old else x, {})
  | .and => (old &&& x, {})
  | .or => (old ||| x, {})
  | .xor => (old ^^^ x, {})
  | .exch => (x, {})
  | .inc => (if x.toNat ≤ old.toNat then 0 else old + 1, {})

/-- What an atomic does to a word: an operation, or compare and exchange when there is none (R281). -/
def atomStep (op : Option AtomOp) (old cmp x : Word) : Word × Flags :=
  match op with
  | some o => atomNew o old x
  | none => (if old = cmp then x else old, {})

/-- R277: lanes in ascending order on the words they name. Each lane's old value, the words' last values, the flags. -/
def atomFold (op : Option AtomOp) (start : Nat → Word) (xs : List (Fin 32 × Nat × Word × Word)) :
    List (Fin 32 × Word) × AMap Word × Flags :=
  xs.foldl (fun acc x =>
    let (l, a, cmp, v) := x
    let old := AMap.getD acc.2.1 a (start a)
    let (new, f) := atomStep op old cmp v
    (acc.1 ++ [(l, old)], AMap.set acc.2.1 a new, acc.2.2.or f)) ([], [], {})

/-! ### The view of a core (R266, R411) -/

/-- The value after bytes are laid over a run that begins at `a`: the last pair for an address stands. -/
def overlayBytes (a : Nat) (bs : List Byte) (l : List (Nat × Byte)) : List Byte :=
  bs.zipIdx.map fun b => match l.reverse.find? fun p => p.1 == a + b.2 with
    | some p => p.2
    | none => b.1

/-- A word at an offset of a run of bytes. -/
def wordAt (bs : List Byte) (i : Nat) : Word := w32 (leNat ((bs.drop i).take 4))

/-- An item of output laid over a run of bytes of physical memory at `a`, which is whole words. -/
def overlayItem (a : Nat) (bs : List Byte) (k : OutKind) : List Byte :=
  match k with
  | .store _ l => overlayBytes a bs l
  | .red pa op xs _ =>
    if a ≤ pa ∧ pa + 4 ≤ a + bs.length then
      let new := xs.foldl (fun w x => (atomNew op w x).1) (wordAt bs (pa - a))
      overlayBytes a bs (at_ pa (toLe 4 new.toNat))
    else bs
  | _ => bs

/-- What a warp of a core sees of a run of whole words that memory, or a copy, holds as `bs`: the core's output over it,
its own undrained non-temporal data, and another warp's by a free choice of each byte, or, beyond tier 0, of each word (R273,
R413). -/
def viewOver (s : State) (core blk warp a : Nat) (bs : List Byte) : List Byte :=
  let bs := (pendingOf s core).foldl (fun b o => overlayItem a b o.kind) bs
  (s.core core).body.nt.foldl (fun b n =>
    if n.blk = blk ∧ n.warp = warp then overlayBytes a b n.bytes
    else overlayBytes a b (n.bytes.filter fun p =>
      Config.freeAt s.freeCtr (if inTier0 s p.1 then p.1 else p.1 / 4 * 4))) bs

/-- Brings a line into an L1, with its poison (R259). The L1 holds 128 KiB, which is 2,048 lines (R2); with no room some line
goes, by free choice. -/
def fillL1 (core line : Nat) (s : State) : State :=
  let c : L1Line :=
    { line, at_ := s.instant, bytes := s.mem.readN (line * 64) 64,
      poison := BitVec.ofBool (poisoned s (line * 64 + 32)) ++ BitVec.ofBool (poisoned s (line * 64)) }
  s.updCore core fun k =>
    let l := k.l1.filter fun x => x.line != line
    { k with l1 := (if 2048 ≤ l.length then l.eraseIdx (Config.freeNat s.freeCtr % 2048) else l) ++ [c] }

/-- What a load's bytes come from before the core's own output: a copy in L1, or memory, which fills L1 when the page allows
it. The answer holds when the copy was filled. -/
def loadBase (s : State) (core : Nat) (cached : Bool) (a n : Nat) : List Byte × Option Nat × State :=
  match copyFor s core cached a with
  | some c => ((c.bytes.drop (a % 64)).take n, some c.at_, s)
  | none => (s.mem.readN a n, none, if cached then fillL1 core (a / 64) s else s)

/-- Whole words around a run. -/
def wordLo (a : Nat) : Nat := a / 4 * 4
def wordLen (a n : Nat) : Nat := (a + n + 3) / 4 * 4 - a / 4 * 4

/-- The bytes of a load as a warp of the core sees them. -/
def viewLoad (s : State) (core blk warp : Nat) (cached : Bool) (a n : Nat) : List Byte × Option Nat × State :=
  let lo := wordLo a
  let (bs, t, s') := loadBase s core cached lo (wordLen a n)
  (((viewOver s core blk warp lo bs).drop (a - lo)).take n, t, s')

/-- What an engine reads for a block of a core of memory: memory with the core's own output over it. -/
def engView (s : State) (core blk pa n : Nat) : List Byte :=
  let lo := wordLo pa
  ((viewOver s core blk 16 lo (s.mem.readN lo (wordLen pa n))).drop (pa - lo)).take n

/-- A word as a core sees it, with no copy in between. -/
def viewWord (s : State) (core blk warp a : Nat) : Word :=
  wordAt (viewOver s core blk warp a (s.mem.readN a 4)) 0

/-! ### Races at issue (R414, R417, R419) -/

/-- The physical words an item of output touches, and whether it reads as an atomic. -/
def itemWords (k : OutKind) : List Nat :=
  match k with
  | .store _ l => (l.map fun p => p.1 / 4).eraseDups
  | .red pa _ _ _ => [pa / 4]
  | .hostAtom pa _ _ _ _ => [pa / 4]
  | _ => []

/-- The check against the records that the core's lager buffer carries. -/
def checkCarried (s : State) (core : Nat) (a : Acc) (w : Nat) : Option RaceWith :=
  (s.core core).lager.findSome? fun o =>
    if o.agent != a.who.agent && (itemWords o.kind).contains w &&
      judge s a (partyOfItem s o) o.atom.isSome ((o.atom.map scopeNo).getD 0) o.agent o.t == .race then
      some ⟨o.agent, o.t, false, true⟩
    else none

/-- The issuing warp as an accessing agent. -/
def State.who (s : State) : Who := ⟨s.cur.blk, s.cur.warp, s.curAgent⟩

/-- The virtual address of word `w` of a request whose first byte is byte `a` of the same numbering. -/
def wordVa (va : DWord) (a w : Nat) : DWord := va + w64 (4 * w) - w64 a

/-- Races of one request of the issuing warp, with the address of the racing word. A copy older than the write is not checked
(R418); stores are checked at issue only on a line that re-execution watches (R419). -/
def raceOf (s : State) (a : Acc) (g : Got) (copy : Option Nat) (home : Bool) : Option (DWord × RaceWith) :=
  if !inTier0 s g.pa then none else
  (lineWords g.pa g.req.n).findSome? fun w =>
    let stale := match copy, AMap.get? s.lines (w / 16) with
      | some t, some r => r.wvalid && decide (t < AMap.getD r.done (w % 16) r.wtime)
      | _, _ => false
    (match checkCarried s s.curCore a w with
    | some x => some x
    | none =>
      if stale || !(home || s.curWarp.recheck.contains (w / 16)) then none else checkWord s a none w).map
        fun x => (wordVa g.req.va g.pa w, x)

/-- Records an access at its home: its instant there, and that at which it entered its core's lager buffer. -/
def recordAt (s : State) (agent : Word) (t entered : Nat) (write : Bool) (atom : Option Scope) (pa n : Nat) : State :=
  if !inTier0 s pa then s
  else recordWords s agent t entered write atom (lineWords pa n)

/-- Another core's quarantine of a line (R412). -/
def quarantined (s : State) (core pa : Nat) : Bool := s.quar.any fun q => q.line == pa / 64 && q.core != core

/-- Whether bytes within one page wait for another agent's atomic to commit or for the link. -/
def spanHeld (s : State) (pa n : Nat) : Bool :=
  s.quar.any (fun q => decide (pa / 64 ≤ q.line) && decide (q.line ≤ (pa + n - 1) / 64)) || linkWaits s pa

/-! ### Performing at memory (R81, R256-R259) -/

/-- Copies a page of physical memory. -/
def Mem.copyRange (m : Mem) (src dst n : Nat) : Mem :=
  let inR (b : Nat) (a : Nat) : Bool := decide (b ≤ a) && decide (a < b + n)
  let cleared : Mem := m.filter fun p => !inR dst p.1
  cleared.writeAll ((m.filter fun p => inR src p.1).map fun p => (p.1 - src + dst, p.2))

/-- How a sector is stored (R256): spilled, as its 32 bytes with the check bytes in an overflow slot, or packed, compressed and
padded to 28 bytes with the check bytes after them. -/
def codeword (spilled : Bool) (data : List Byte) : List Byte :=
  let body := if spilled then data else (Config.packed data ++ List.replicate 28 0).take 28
  body ++ checkBytes body

/-- Whether a sector's data packs. -/
def packs (data : List Byte) : Bool := decide ((Config.packed data).length ≤ 28)

/-- A sector becomes spilled: its mode bit, the chunk's overflow page, and the check bytes in the sector's slot of it. -/
def spillTo (a : Nat) (c : Chunk) (sec page : Nat) (s : State) : State :=
  let i := sec % 64
  let s := writeChunk a { c with mode := c.mode ||| (1#64 <<< i), ovf := page } s
  { s with mem := s.mem.writeAll (at_ (page + 4 * i) (checkBytes (s.mem.readN (sec * 32) 32))) }

/-- The chunk record after sector `sec` has been written: its mode, an overflow page taken or returned with the sector's check
bytes in its slot, and its poison, which goes when all 32 bytes are replaced. None where a page is needed and the pool is empty
(R258). -/
def sectorWritten (s : State) (sec : Nat) (whole : Bool) : Option State :=
  let pa := sec * 32
  match recordOf s pa with
  | none => some s
  | some a =>
    let die := ((tierOf s pa).map Prod.snd).getD 0
    let c := readChunk s a
    let bit : DWord := 1#64 <<< (sec % 64)
    let c := if whole then { c with poison := c.poison &&& ~~~ bit } else c
    if packs (s.mem.readN pa 32) then
      let mode := c.mode &&& ~~~ bit
      if mode = 0 ∧ c.ovf ≠ 0 then
        some (writeChunk a { c with mode := 0, ovf := 0 } (s.updDie die fun d => { d with ovfPool := c.ovf :: d.ovfPool }))
      else some (writeChunk a { c with mode := mode } s)
    else if c.ovf ≠ 0 then some (spillTo a c sec c.ovf s)
    else
      match (s.die die).ovfPool with
      | [] => none
      | p :: t => some (spillTo a c sec p (s.updDie die fun d => { d with ovfPool := t }))

/-- Sectors in turn. -/
def sectorsWritten (whole : Nat → Bool) (secs : List Nat) (s : State) : Option State :=
  secs.foldl (fun os sec => os.bind fun s => sectorWritten s sec (whole sec)) (some s)

/-- Sets the poison bit of a sector. -/
def setPoison (sec : Nat) (s : State) : State :=
  match recordOf s (sec * 32) with
  | none => s
  | some a =>
    let c := readChunk s a
    writeChunk a { c with poison := c.poison ||| (1#64 <<< (sec % 64)) } s

/-- Copies a page of physical memory, and with it the poison of its sectors (R259). None while an overflow page is
awaited. -/
def copyPage (src dst n : Nat) (s : State) : Option State :=
  let secs := List.range (n / 32)
  (sectorsWritten (fun _ => true) (secs.map (dst / 32 + ·)) { s with mem := s.mem.copyRange src dst n }).map fun t =>
    secs.foldl (fun t i => if poisoned s (src + 32 * i) then setPoison (dst / 32 + i) t else t) t

/-- The page that a launch has armed at an address and not copied yet: its base, and the base-2 logarithm of its size. -/
def armedAt (la : Launch) (pa : Nat) : Option (Nat × Nat) :=
  (la.armed.find? fun q => decide (q.1 ≤ pa) && decide (pa < q.1 + 2 ^ q.2)).filter fun q =>
    !(la.snapLost || la.frames.any fun f => f.1 == q.1)

/-- R81 for one launch: the first write to an armed page is preceded by its copy into a snapshot frame; with none left the launch
loses replayability. -/
def snapStep (pa u : Nat) (s : State) : Option State :=
  let la := s.launch u
  match armedAt la pa with
  | none => some s
  | some (base, lg) =>
    match s.snapPool.find? fun f => f.2 == lg with
    | none =>
      some (bbWrite la.die (bbEnt 0x0F 0 la.desc.asid 0 0 (w64 base)) (s.updLaunch u fun x => { x with snapLost := true }))
    | some (frame, _) =>
      copyPage base frame (2 ^ lg) { s.updLaunch u fun x => { x with frames := x.frames ++ [(base, frame, lg)] } with
        snapPool := s.snapPool.erase (frame, lg) }

/-- The snapshots that a write to a page needs first. -/
def snapshotFor (s : State) (pa : Nat) : Option State :=
  s.launches.foldl (fun os p => os.bind (snapStep pa p.1)) (some s)

/-- Performs a write of bytes at memory; none while a spill waits for an overflow page. -/
def performBytes (s : State) (l : List (Nat × Byte)) : Option State :=
  (((l.map fun p => p.1 / 65536).eraseDups).foldl (fun os g => os.bind fun s => snapshotFor s (g * 65536)) (some s)).bind fun s =>
    sectorsWritten (coversSector l)
      (l.map fun p => p.1 / 32).eraseDups { s with mem := s.mem.writeAll l }

/-- DRAM shows errors in a sector, and a read finds them (R259). One or two bytes are corrected and logged; what the code cannot
correct poisons the sector; three or more bytes may be taken for another codeword. -/
def dramShows (sec : Nat) (errs : List (Nat × Byte)) (s : State) : State :=
  let pa := sec * 32
  match recordOf s pa with
  | none => s
  | some a =>
    let die := ((tierOf s pa).map Prod.snd).getD 0
    let spilled := (readChunk s a).mode.getLsbD (sec % 64)
    let good := codeword spilled (s.mem.readN pa 32)
    match correct (errs.foldl (fun w e => w.modify e.1 (· ^^^ e.2)) good) with
    | none => logError die 2 0 (w64 pa) (setPoison sec s)
    | some (w, n) =>
      let data := if spilled then w.take 32 else (Config.unpacked (w.take 28) ++ List.replicate 32 0).take 32
      let s := if w = good then s else { s with mem := s.mem.writeAll (at_ pa data) }
      if n = 0 then s else logError die 1 (w32 n) (w64 pa) s

/-- What a home does while its overflow pool is empty (R258): a black-box entry and an interrupt, once. -/
def noteOverflow (d : Nat) (s : State) : State :=
  if (s.die d).ovfWait then s else
  sendIrq 65 (bbWrite d (bbEnt 0x0F 0 0 0 0 0) (s.updDie d fun x => { x with ovfWait := true }))

/-- The first of some steps in turn that does not come about, with the state in which it does not. -/
def firstNone {α : Type} (f : α → State → Option State) : List α → State → Option (α × State)
  | [], _ => none
  | a :: t, s => match f a s with
    | none => some (a, s)
    | some s => firstNone f t s

/-- Where a write of bytes that waits for an overflow page waits (R258): at a frame that it would be preceded by a copy into, or at
the sector itself. -/
def lackAt (s : State) (l : List (Nat × Byte)) : Nat :=
  let snaps := (l.map fun p => p.1 / 65536).eraseDups
  match firstNone (fun g s => snapshotFor s (g * 65536)) snaps s with
  | some (g, s) =>
    match firstNone (fun (p : Nat × Launch) s => snapStep (g * 65536) p.1 s) s.launches s with
    | some (p, s) =>
      let lg := ((armedAt (s.launch p.1) (g * 65536)).map Prod.snd).getD 0
      ((s.snapPool.find? fun f => f.2 == lg).map Prod.fst).getD (g * 65536)
    | none => g * 65536
  | none =>
    match snaps.foldl (fun os g => os.bind fun s => snapshotFor s (g * 65536)) (some s) with
    | none => 0
    | some s =>
      match firstNone (fun sec s => sectorWritten s sec (coversSector l sec)) (l.map fun p => p.1 / 32).eraseDups
          { s with mem := s.mem.writeAll l } with
      | some (sec, _) => 32 * sec
      | none => (l.head?.map Prod.fst).getD 0

/-- What is done about a write that waits for an overflow page: its home says so, once. -/
def overflowAt (pa : Nat) (s : State) : Option State :=
  (tierOf s pa).bind fun t => if (s.die t.2).ovfWait then none else some (noteOverflow t.2 s)

/-! ### The lager buffer (R464) -/

/-- Bytes that an item takes in the 64 KiB lager buffer: its data (log 31). -/
def OutKind.size : OutKind → Nat
  | .store _ l => l.length
  | .red _ _ xs _ => 4 * xs.length
  | .hostAtom _ _ xs _ _ => 4 * xs.length
  | .window _ _ _ l => l.length
  | .windowAtom _ _ _ _ xs _ _ _ => 4 * xs.length
  | .message m => m.data.length
  | _ => 8

/-- Bytes held in a core's lager buffer. -/
def lagerUsed (k : CoreState) : Nat := (k.lager.map fun o => o.kind.size).foldl (· + ·) 0

/-- Whether an item of a size has room. -/
def lagerRoom (s : State) (core n : Nat) : Bool := decide (lagerUsed (s.core core) + n ≤ 65536)

/-- R105: the block has escaped. -/
def escape (u : Nat) (s : State) : State := s.updBlock u fun b => { b with escaped := true }

/-- A read of an engine that leaves the core: with lagering off that is an escape (R105). -/
def engEscape (u : Nat) (s : State) : State :=
  if (s.launch (s.block u).launch).lagers then s else escape u s

/-- Sends output of a block: into the lager buffer, or, with lagering off, out at once, which is an escape (R105). -/
def emit (lagers : Bool) (core : Nat) (o : OutItem) (s : State) : State :=
  if lagers then s.updCore core fun k => { k with lager := k.lager ++ [o] }
  else escape o.blk { s with inflight := s.inflight ++ [o] }

/-- An item of the issuing warp. -/
def State.outItem (s : State) (kind : OutKind) (rel atom : Option Scope) (va : DWord) : OutItem :=
  { epoch := s.epoch, die := s.curBlock.place.die, core := s.curBlock.place.core, blk := s.cur.blk, warp := s.cur.warp,
    agent := s.curAgent, t := s.instant, rel, atom, va, left := none, kind }

/-- An item of an engine of a block: unit 16 is no warp. -/
def engItem (s : State) (u : Nat) (agent : Word) (kind : OutKind) : OutItem :=
  let b := s.block u
  { epoch := s.epoch, die := b.place.die, core := b.place.core, blk := u, warp := 16, agent, t := s.instant, rel := none,
    atom := none, va := 0, left := none, kind }

/-- A copy takes a write, which clears the poison of the sectors that it replaces (R259). -/
def L1Line.write (l : List (Nat × Byte)) (c : L1Line) : L1Line :=
  { c with
    bytes := overlayBytes (c.line * 64) c.bytes l
    poison := c.poison &&& BitVec.ofBool (!coversSector l (2 * c.line + 1)) ++ BitVec.ofBool (!coversSector l (2 * c.line)) }

/-- The core's own copies take a write of the core that has been performed (R228, R409): until then the core sees it over
them (`viewOver`). -/
def writeThrough (core : Nat) (l : List (Nat × Byte)) (s : State) : State :=
  s.updCore core fun k => { k with l1 := k.l1.map (L1Line.write l) }

/-- No L1 keeps a copy of these bytes: host accesses are coherent with every cache of the device (R491). -/
def dropCopies (l : List (Nat × Byte)) (s : State) : State :=
  { s with cores := AMap.mapVals s.cores fun _ k =>
      { k with l1 := k.l1.filter fun c => !(l.any fun p => p.1 / 64 == c.line) } }

/-- Output of a warp not yet performed that some predicate picks. -/
def warpPending (s : State) (p : OutItem → Bool) : Bool :=
  (pendingOf s s.curCore).any fun o => o.blk == s.cur.blk && o.warp == s.cur.warp && p o

/-- The events of R407 that a release makes at issue: only at `.wrp` and `.blk`, where everything the core holds is visible;
a wider one is made when it is performed. -/
def releaseNow (sc : Option Scope) (s : State) : State :=
  match sc with
  | some x => if scopeNo x < 3 then releaseAt (.scope x) s.cur.blk s.cur.warp s else s
  | none => s

/-- The release of an instruction whose accesses have all been performed at its issue. -/
def releaseDone (sc : Option Scope) (s : State) : State :=
  match sc with
  | some x => releaseAt (.scope x) s.cur.blk s.cur.warp s
  | none => s

/-- An acquire of the issuing warp (R265). -/
def acquireNow (sc : Option Scope) (s : State) : State :=
  match sc with
  | some x => acquireAt x s.cur.blk s.cur.warp s
  | none => s

/-- The scope of an order's halves (R276). -/
def acqOf (o : AOrder) (sc : Scope) : Option Scope := match o with | .acq | .acqrel => some sc | _ => none
def relOf (o : AOrder) (sc : Scope) : Option Scope := match o with | .rel | .acqrel => some sc | _ => none

/-- Output that still has to bring back old values for an operation. -/
def bringsBack (u wn op : Nat) (o : OutItem) : Bool :=
  o.blk == u && o.warp == wn && match o.kind with
    | .hostAtom _ _ _ n _ => n == op
    | .windowAtom _ _ _ _ _ _ n _ => n == op
    | _ => false

/-- Whether an operation has its old values, and, where it waits for output to leave the core, that output has left. -/
def opReady (s : State) (u wn : Nat) (o : MemOp) : Bool :=
  let core := (s.block u).place.coreNo
  !(pendingOf s core).any (bringsBack u wn o.num) &&
    (!o.afterOut || !(s.core core).lager.any fun x => x.blk == u && x.warp == wn && decide (x.t ≤ o.at_))

/-- Whether every operation of a warp before number `n` could complete now (R265, R269). -/
def opsReady (s : State) (u wn n : Nat) : Bool :=
  (AMap.getD (s.block u).warps wn default).ord.ops.all fun p => decide (n ≤ p.num) || (opReady s u wn p && p.rel.isNone)

/-- Whether an operation can complete: a release also waits for the warp's earlier operations (R265). -/
def opEnds (s : State) (u wn : Nat) (o : MemOp) : Bool :=
  opReady s u wn o && ((!o.afterOut && o.rel.isNone) || opsReady s u wn o.num)

/-- Whether a release waits for some earlier operation of the issuing warp to be complete (R265). -/
def opsWait (s : State) (rel : Option Scope) : Bool := rel.isSome && !opsReady s s.cur.blk s.cur.warp s.curWarp.ord.opCtr

/-- The release of a store at a scope within the core that is made later, when the warp's earlier operations are complete: the
warp goes on issuing meanwhile (R265). -/
def laterRel (s : State) (rel : Option Scope) : Option Scope :=
  rel.filter fun x => decide (scopeNo x < 3) && opsWait s rel

/-- Output of the core that a release of the issuing warp at `.clu` or wider comes after: its warp's, and what was made before
the release was first tried, for what the warp has acquired is among it (R265, R391, log 145). -/
def earlierOut (s : State) : Bool :=
  let t := s.curSplit.mark.getD s.instant
  (pendingOf s s.curCore).any fun o => (o.blk == s.cur.blk && o.warp == s.cur.warp) || decide (o.t ≤ t)

/-- The instruction waits at issue, and remembers since when. -/
def waitFrom (s : State) : Stop := .again (s.updSplit fun sp => { sp with mark := some (sp.mark.getD s.instant) })

/-- Waits at issue for earlier output while a condition holds. -/
def stallFrom (s : State) (c : Bool) : Except Stop Unit := if c then .error (waitFrom s) else .ok ()

/-! ### Outstanding operations (R161, R269) -/

/-- Adds an operation of the issuing warp; `rel` is a release that it makes when it completes. -/
def addOpRel (afterOut read : Bool) (rel : Option Scope) (s : State) : State :=
  s.updOrd fun o => { o with ops := o.ops ++ [⟨o.opCtr, s.instant, afterOut, read, rel⟩], opCtr := o.opCtr + 1 }

/-- Adds an operation that makes no release of its own. -/
def addOp (afterOut read : Bool) (s : State) : State := addOpRel afterOut read none s

/-- R161: an instruction that would raise the count to 64 waits. -/
def opRoom (s : State) : Except Stop Unit := stallIf (decide (63 ≤ s.curWarp.ord.ops.length))

/-! ### Global loads and stores -/

/-- The bytes each request reads, with the races found, in lane order; a read that leaves the core
with lagering off is an escape (R105). -/
def readAllReqs (s : State) (a : Acc) : List Got → List (List Byte × Option (DWord × RaceWith)) × State
  | [] => ([], s)
  | g :: t =>
    let (bs, copy, s1) := viewLoad s s.curCore s.cur.blk s.cur.warp (g.leaf.cache == 0) g.pa g.req.n
    let race := raceOf s a g copy true
    let s1 := if copy.isNone && !s.curLaunch.lagers then escape s.cur.blk s1 else s1
    let (l, s2) := readAllReqs s1 a t
    ((bs, race) :: l, s2)

/-- Whether a load must wait: its line is quarantined by another core (R412), or an atomic of its warp on its words is on its
way to the host (R266). -/
def loadWaits (s : State) (g : Got) : Bool :=
  quarantined s s.curCore g.pa || warpPending s fun o => match o.kind with
    | .hostAtom pa _ _ _ _ => overlaps pa 4 g.pa g.req.n
    | _ => false

/-- Plain or acquiring loads of the issuing warp: the bytes of each request. -/
def loadGlobal (s : State) (acq : Option Scope) (align : Bool) (rs : List Req) : Except Stop (List (List Byte) × State) := do
  let (gs, s1) ← globalCheck s .read true align rs
  stallIf (gs.any (loadWaits s))
  let a : Acc := ⟨s.who, s.instant, false, none⟩
  let (l, s2) := readAllReqs s1 a gs
  failRace s false ((gs.zip l).filterMap fun p => p.2.2.map fun x => (p.1.req, x.1, x.2))
  let s3 := gs.foldl (fun s g => recordAt s s.curAgent s.instant s.instant false none g.pa g.req.n) s2
  let s4 := { s3 with freeCtr := s3.freeCtr + 1 }
  pure (l.map Prod.fst, if rs.isEmpty then s4 else acquireNow acq s4)

/-- The bytes of a store, in ascending lane order, so that the highest lane's remain (R267). -/
def storeBytes (gs : List Got) (data : List (List Byte)) : List (Nat × Byte) :=
  (gs.zip data).flatMap fun p => at_ p.1.pa p.2

/-- A later write of the warp takes the place of its undrained non-temporal data on the same bytes (R266, R410). -/
def overNt (l : List (Nat × Byte)) (s : State) : State :=
  let cut (n : NtItem) : NtItem :=
    if n.blk = s.cur.blk ∧ n.warp = s.cur.warp then { n with bytes := n.bytes.filter fun b => !(l.any fun x => x.1 == b.1) }
    else n
  s.updBody s.curCore fun k => { k with nt := (k.nt.map cut).filter fun n => !n.bytes.isEmpty }

/-- A write of the issuing warp: its streams fetch again what they have fetched ahead (R266, R287). -/
def wrote (s : State) : State := s.updWarp Warp.refetch

/-- Plain or releasing stores of the issuing warp. -/
def storeGlobal (s : State) (rel : Option Scope) (rs : List Req) (data : List (List Byte)) : Except Stop State := do
  let (gs, s1) ← globalCheck s .write false true rs
  let a : Acc := ⟨s.who, s.instant, true, none⟩
  failRace s true (gs.filterMap fun g => (raceOf s a g none false).map fun x => (g.req, x.1, x.2))
  let l := storeBytes gs data
  let lagers := s.curLaunch.lagers
  stallIf (lagers && !lagerRoom s s.curCore l.length)
  let wide := rel.filter fun x => decide (3 ≤ scopeNo x)
  let va := (rs.head?.map fun r => r.va).getD 0
  let o := s.outItem (.store ((l.head?.map Prod.fst).getD 0) l) wide none va
  let s2 := if rs.isEmpty then s1 else wrote (emit lagers s.curCore o (overNt l s1))
  pure (if rs.isEmpty || (laterRel s rel).isSome then s2 else releaseNow rel s2)

/-! ### Non-temporal stores (R273, R274) -/

/-- The undrained data of a warp on the addresses that some predicate picks. -/
def ntOf (pick : Nat → Bool) (s : State) (core blk warp : Nat) : List NtItem :=
  (((s.core core).body.nt.filter fun n => n.blk == blk && n.warp == warp).map fun n =>
    { n with bytes := n.bytes.filter fun p => pick p.1 }).filter fun n => !n.bytes.isEmpty

/-- The addresses of all of a warp's undrained data. -/
def anyPa (_ : Nat) : Bool := true

/-- What is left of a warp's undrained data when these addresses are drained. -/
def ntRest (pick : Nat → Bool) (blk warp : Nat) (l : List NtItem) : List NtItem :=
  (l.map fun n => if n.blk == blk && n.warp == warp then { n with bytes := n.bytes.filter fun p => !pick p.1 } else n).filter
    fun n => !n.bytes.isEmpty

/-- Drains a warp's non-temporal data on some addresses as one plain store made now. -/
def drainPart (pick : Nat → Bool) (s : State) (blk warp : Nat) : State :=
  let b := s.block blk
  let core := b.place.coreNo
  let items := ntOf pick s core blk warp
  if items.isEmpty then s else
  let l := items.flatMap fun n => n.bytes
  let o : OutItem :=
    { epoch := s.epoch, die := b.place.die, core := b.place.core, blk, warp, agent := warpAgent b warp, t := s.instant,
      rel := none, atom := none, va := (items.head?.map fun n => n.va).getD 0, left := none,
      used := (items.map NtItem.t).min?, kind := .store ((l.head?.map Prod.fst).getD 0) l }
  emit (s.launch b.launch).lagers core o (s.updBody core fun k => { k with nt := ntRest pick blk warp k.nt })

/-- Drains all of a warp's non-temporal data. -/
def drainOf (s : State) (blk warp : Nat) : State := drainPart anyPa s blk warp

/-- Races that a drain meets (R419): the address and the recorded party. -/
def drainRace (pick : Nat → Bool) (s : State) (blk warp : Nat) : Option (DWord × RaceWith) :=
  let b := s.block blk
  let a : Acc := ⟨⟨blk, warp, warpAgent b warp⟩, s.instant, true, none⟩
  (ntOf pick s b.place.coreNo blk warp).findSome? fun n =>
    (n.bytes.map fun p => p.1 / 4).eraseDups.findSome? fun w =>
      if !inTier0 s (4 * w) then none else
      match checkCarried s b.place.coreNo a w with
      | some x => some (wordVa n.va n.pa w, x)
      | none => (checkWord s a none w).map fun x => (wordVa n.va n.pa w, x)

/-- Drops a warp's undrained data. -/
def dropNt (s : State) (blk warp : Nat) : State :=
  s.updBody (s.block blk).place.coreNo fun k => { k with nt := k.nt.filter fun n => !(n.blk == blk && n.warp == warp) }

/-! ### Global atomics (R278) -/

/-- Where an atomic on global memory is performed. -/
inductive AtomAt where
  | l1 | home | host
deriving DecidableEq, Repr

def atomAt (s : State) (pa : Nat) (sc : Scope) : AtomAt :=
  if (tierOf s pa).any (fun t => t.1 == 2) then .host else if scopeNo sc < 3 then .l1 else .home

/-- An atomic that is performed when its output is: its old value is not bound before. -/
def OutKind.isLateAtom : OutKind → Bool
  | .red .. | .hostAtom .. | .windowAtom .. => true
  | _ => false

/-- Output of the issuing warp that a later atomic of it is performed after (R410 note 3): atomics not performed yet. -/
def atomsOut (s : State) : Bool := warpPending s fun o => o.kind.isLateAtom || o.atom.any fun x => decide (3 ≤ scopeNo x)

/-- The addresses on the words of some requests. -/
def onWords (gs : List Got) (a : Nat) : Bool := gs.any fun g => g.pa / 4 == a / 4

/-- Undrained data of the warp on the words of an atomic. -/
def ntOn (s : State) (gs : List Got) : Bool := !(ntOf (onWords gs) s s.curCore s.cur.blk s.cur.warp).isEmpty

/-- What an atomic performed outside the core waits for: its warp's earlier atomics (R410 note 3), and the output on its words
of its warp (R278) and of the core, as far as that was made before the atomic was first tried (R409, R411) or is an atomic's,
with which it is indivisible (R279); with a release half everything that the release comes after (R265). -/
def atomWaits (s : State) (rel : Bool) (gs : List Got) : Bool :=
  let t := s.curSplit.mark.getD s.instant
  atomsOut s || (rel && earlierOut s) ||
    (pendingOf s s.curCore).any fun o =>
      ((o.blk == s.cur.blk && o.warp == s.cur.warp) || o.atom.isSome || decide (o.t ≤ t)) &&
        (itemWords o.kind).any fun w => gs.any fun g => g.pa / 4 == w

/-- R412: an access of another core to a line waits at the home for at most 2,048 cycles, so an atomic that would hold one
back once more waits for it. -/
def atomStarves (s : State) (gs : List Got) : Bool :=
  s.inflight.any fun o => 48 * o.die + o.core != s.curCore && decide (o.epoch + 2 < s.epoch) &&
    (itemWords o.kind).any fun w => gs.any fun g => g.pa / 64 == w / 16

/-- Sets NSTAT bits of a warp (R34). -/
def flagWarp (u wn : Nat) (f : Flags) (s : State) : State :=
  if f.bits = 0 then s
  else s.updWarpOf u wn fun w => { w with reg := { w.reg with nstat := w.reg.nstat ||| w32 f.bits } }

/-- One lane of an atomic: its request, compare value and operand. -/
structure AtomLane where
  got : Got
  lane : Fin 32
  cmp : Word
  x : Word
deriving DecidableEq, Repr

/-- The lanes as `atomFold` takes them. -/
def AtomLane.args (l : List AtomLane) : List (Fin 32 × Nat × Word × Word) :=
  l.map fun x => (x.lane, x.got.pa, x.cmp, x.x)

/-- Words as bytes. -/
def wordBytes (m : AMap Word) : List (Nat × Byte) := m.flatMap fun p => at_ p.1 (toLe 4 p.2.toNat)

/-- Performs an atomic at its home at once, with quarantine of its lines while lagering is on. None while a spill waits. -/
def atomHome (s : State) (op : Option AtomOp) (ls : List AtomLane) (sc : Scope) : Option (List (Fin 32 × Word) × State) :=
  let (olds, words, f) := atomFold op (fun a => w32 (leNat (s.mem.readN a 4))) (AtomLane.args ls)
  let lines := (words.map fun p => p.1 / 64).eraseDups
  let quar := lines.map fun ln =>
    ({ line := ln, core := s.curCore, blk := s.cur.blk, epoch := s.epoch, rec_ := AMap.get? s.lines ln,
       undo := (words.filter fun p => p.1 / 64 == ln).flatMap fun p => at_ p.1 (s.mem.readN p.1 4) } : Quarantine)
  (performBytes s (wordBytes words)).map fun t =>
    let t := if s.curLaunch.lagers then { t with quar := quar ++ t.quar } else t
    let t := writeThrough s.curCore (wordBytes words) t
    let t := recordWords t s.curAgent s.instant s.instant true (some sc)
      ((words.map fun p => p.1 / 4).filter fun w => inTier0 s (4 * w))
    (olds, escape s.cur.blk (flagWarp s.cur.blk s.cur.warp f t))

/-- What an atomic does while an overflow page is awaited for it: its home says so (R258). -/
def atomNote (s : State) (op : Option AtomOp) (ls : List AtomLane) : State :=
  let words := (atomFold op (fun a => w32 (leNat (s.mem.readN a 4))) (AtomLane.args ls)).2.1
  (overflowAt (lackAt s (wordBytes words)) s).getD s

/-- Performs an atomic in the core's L1: the old values from the core's view, the new ones out as a store. -/
def atomL1 (s : State) (op : Option AtomOp) (ls : List AtomLane) (sc : Scope) (va : DWord) : List (Fin 32 × Word) × State :=
  let (olds, words, f) := atomFold op (fun a => viewWord s s.curCore s.cur.blk s.cur.warp a) (AtomLane.args ls)
  let l := wordBytes words
  let o := s.outItem (.store ((l.head?.map Prod.fst).getD 0) l) none (some sc) va
  let t := emit s.curLaunch.lagers s.curCore o (overNt l s)
  (olds, flagWarp s.cur.blk s.cur.warp f t)

/-! ### Typed buffers (R232-R239) -/

/-- The block and the offset that a buffer address names, or the fault kind. -/
def bufTarget (s : State) (u : Nat) (c : Bool) (addr n : Nat) : Except Nat (Nat × Nat) :=
  let b := s.block u
  if c then
    if addr / 2 ^ 18 = 0 ∧ addr + n ≤ b.cbuf.size then .ok (u, addr) else .error Kind.bufferBound
  else
    let win := nbits addr 20 5
    let off := nbits addr 0 20
    if addr / 2 ^ 25 != 0 ∨ 17 ≤ win then .error Kind.bufferBound
    else if win = 0 then (if off + n ≤ b.abuf.size then .ok (u, off) else .error Kind.bufferBound)
    else
      match b.eng.peer with
      | none => .error Kind.peerWindow
      | some (g, _) =>
        let set := ((((s.die b.place.die).clusters[b.place.core / 4]?).bind fun cl => cl.peers[g]?)).getD []
        match set.find? fun p => p.1 == win - 1 with
        | none => .error Kind.peerWindow
        | some (_, t) => if off + n ≤ (s.block t).abuf.size then .ok (t, off) else .error Kind.bufferBound

/-- The buffer of a block. -/
def Block.buf (b : Block) (c : Bool) : Buffer := if c then b.cbuf else b.abuf
def Block.setBuf (b : Block) (c : Bool) (m : Mem) : Block :=
  if c then { b with cbuf := { b.cbuf with data := m } } else { b with abuf := { b.abuf with data := m } }

/-- A translated buffer request. -/
structure BGot where
  req : Req
  blk : Nat
  off : Nat
deriving DecidableEq, Repr

/-- Whether a block runs on the issuing core. -/
def State.onCore (s : State) (u : Nat) : Bool := (s.block u).place.coreNo == s.curCore

/-- Whether lagering is on for either of two blocks (R238). -/
def lagerPair (s : State) (u v : Nat) : Bool :=
  (s.launch (s.block u).launch).lagers || (s.launch (s.block v).launch).lagers

/-- R238: whether a read of another core's member waits: its owner wrote a granule of it in its current or previous epoch. -/
def windowYoung (s : State) (u v : Nat) (c : Bool) (off n : Nat) : Bool :=
  lagerPair s u v && (List.range ((off + n - 1) / 64 - off / 64 + 1)).any fun i =>
    let g := granOf (s.block v) c (off / 64 + i)
    decide (s.epoch < g.lastW + 1 ∧ g.lastW ≠ 0)

/-- R238, R239: a window access waits while the member is saved, and a read of another core's member while the granule is
younger than two epochs. -/
def windowWaits (s : State) (c reads : Bool) (g : BGot) : Bool :=
  g.blk != s.cur.blk &&
    ((s.block g.blk).state == .saved ||
      (reads && !s.onCore g.blk && windowYoung s s.cur.blk g.blk c g.off g.req.n))

/-- R265, R240, R264, R233 and R237 for the accesses of an instruction to a typed buffer. -/
def bufCheck (s : State) (c reads write align : Bool) (rs : List Req) : Except Stop (List BGot) := do
  let tg (r : Req) := bufTarget s s.cur.blk c r.va.toNat r.n
  stallIf (!rs.isEmpty && s.curWarp.acquiring s.cur.split)
  stallIf (rs.any fun r => match tg r with
    | .ok (u, o) => sbHits s s.curCore (if c then 2 else 1) u o r.n
    | .error _ => false)
  failWith s Kind.misaligned write (if align then misalignedOf rs else [])
  let bad (k : Nat) : Bad := (rs.filter fun r => match tg r with | .error e => e == k | .ok _ => false).map fun r => (r, 0)
  failWith s Kind.bufferBound write (bad Kind.bufferBound)
  failWith s Kind.peerWindow write (bad Kind.peerWindow)
  let gs := rs.filterMap fun r => match tg r with
    | .ok (u, o) => some (⟨r, u, o⟩ : BGot)
    | .error _ => none
  stallIf (gs.any (windowWaits s c reads))
  pure gs

/-- An item of output laid over a run of another block's buffer. -/
def overlayWindow (u : Nat) (c : Bool) (a : Nat) (bs : List Byte) (k : OutKind) : List Byte :=
  match k with
  | .window v d _ l => if v = u ∧ d = c then overlayBytes a bs l else bs
  | _ => bs

/-- The bytes of a buffer as the core sees them. -/
def bufView (s : State) (core u : Nat) (c : Bool) (a n : Nat) : List Byte :=
  let bs := ((s.block u).buf c).data.readN a n
  (pendingOf s core).foldl (fun b o => overlayWindow u c a b o.kind) bs

/-- The number under which a granule of a block's buffer is watched during re-execution, beyond every line's (R419). -/
def windowKey (u : Nat) (c : Bool) (off : Nat) : Nat := 2 ^ 50 + (2 * u + c.toNat) * 2 ^ 14 + off / 64

/-- Whether an item writes a word of another block's buffer. -/
def writesBuf (u : Nat) (c : Bool) (w : Nat) (k : OutKind) : Bool :=
  match k with
  | .window v d _ l => v == u && d == c && l.any fun p => p.1 / 4 == w
  | .windowAtom v d off _ _ _ _ _ => v == u && d == c && off / 4 == w
  | _ => false

/-- The check of a window access against what the core's own lager buffer carries for the word (R417). -/
def checkCarriedBuf (s : State) (a : Acc) (u : Nat) (c : Bool) (w : Nat) : Option RaceWith :=
  (s.core s.curCore).lager.findSome? fun o =>
    if o.agent != a.who.agent && writesBuf u c w o.kind &&
      judge s a (partyOfItem s o) o.atom.isSome ((o.atom.map scopeNo).getD 0) o.agent o.t == .race then some ⟨o.agent, o.t, false, true⟩
    else none

/-- Races of one buffer request of the issuing warp, with the address of the racing word: a window store to another core is
checked there, an access that returns a value here (R419). -/
def bufRace (s : State) (c : Bool) (a : Acc) (g : BGot) : Option (DWord × RaceWith) :=
  let there (w : Nat) (x : RaceWith) : DWord × RaceWith := (wordVa g.req.va g.off w, x)
  match (lineWords g.off g.req.n).findSome? fun w => (checkCarriedBuf s a g.blk c w).map (there w) with
  | some x => some x
  | none =>
    if a.write && a.atom.isNone && !s.onCore g.blk && !s.curWarp.recheck.contains (windowKey g.blk c g.off) then none
    else (lineWords g.off g.req.n).findSome? fun w => (checkGran s a none g.blk c w).map (there w)

def recordBuf (s : State) (u : Nat) (c : Bool) (agent : Word) (write : Bool) (atom : Option Scope) (off n : Nat) : State :=
  (lineWords off n).foldl (fun s w => recordGran s u c agent s.instant write atom w) s

/-- A read of another core's buffer leaves the core: with lagering off that is an escape (R105). -/
def farRead (s : State) (gs : List BGot) : State :=
  if !s.curLaunch.lagers && gs.any (fun g => !s.onCore g.blk) then escape s.cur.blk s else s

/-- Whether an atomic of the warp on the words of a read is on its way to another core (R238, R266). -/
def windowAtomOut (s : State) (c : Bool) (g : BGot) : Bool :=
  warpPending s fun o => match o.kind with
    | .windowAtom v d off _ _ _ _ _ => v == g.blk && d == c && overlaps off 4 g.off g.req.n
    | _ => false

/-- Loads of the issuing warp from a typed buffer. -/
def loadBuf (s : State) (c align : Bool) (rs : List Req) : Except Stop (List (List Byte) × State) := do
  let gs ← bufCheck s c true false align rs
  stallIf (gs.any (windowAtomOut s c))
  let a : Acc := ⟨s.who, s.instant, false, none⟩
  failRace s false (gs.filterMap fun g => (bufRace s c a g).map fun x => (g.req, x.1, x.2))
  let l := gs.map fun g => bufView s s.curCore g.blk c g.off g.req.n
  pure (l, gs.foldl (fun t g => recordBuf t g.blk c s.curAgent false none g.off g.req.n) (farRead s gs))

/-- Writes bytes into a block's buffer. -/
def writeBuf (u : Nat) (c : Bool) (l : List (Nat × Byte)) (s : State) : State :=
  s.updBlock u fun b => b.setBuf c ((b.buf c).data.writeAll l)

/-- Stores of the issuing warp to a typed buffer. -/
def storeBuf (s : State) (c : Bool) (rs : List Req) (data : List (List Byte)) : Except Stop State := do
  let gs ← bufCheck s c false true true rs
  let a : Acc := ⟨s.who, s.instant, true, none⟩
  failRace s true (gs.filterMap fun g => (bufRace s c a g).map fun x => (g.req, x.1, x.2))
  let far := (gs.filter fun g => !s.onCore g.blk).map fun g => g.req.n
  stallIf (s.curLaunch.lagers && !far.isEmpty && !lagerRoom s s.curCore (far.foldl (· + ·) 0))
  pure (wrote ((gs.zip data).foldl (fun t p =>
    let g := p.1
    if s.onCore g.blk then
      recordBuf (writeBuf g.blk c (at_ g.off p.2) t) g.blk c s.curAgent true none g.off g.req.n
    else emit s.curLaunch.lagers s.curCore (s.outItem (.window g.blk c g.off (at_ g.off p.2)) none none g.req.va) t) s))

/-- Atomics of the issuing warp on allotments of its core: the old values and the state. -/
def atomBuf (s : State) (c : Bool) (op : Option AtomOp) (sc : Scope) (xs : List (BGot × Fin 32 × Word × Word)) :
    List (Fin 32 × Word) × State :=
  let key (g : BGot) : Nat := g.blk * 2 ^ 20 + g.off
  let start (k : Nat) : Word := w32 (leNat (((s.block (k / 2 ^ 20)).buf c).data.readN (k % 2 ^ 20) 4))
  let (olds, words, f) := atomFold op start (xs.map fun x => (x.2.1, key x.1, x.2.2.1, x.2.2.2))
  let t := words.foldl (fun t p =>
    let u := p.1 / 2 ^ 20
    let off := p.1 % 2 ^ 20
    recordBuf (writeBuf u c (at_ off (toLe 4 p.2.toNat)) t) u c s.curAgent true (some sc) off 4) s
  (olds, flagWarp s.cur.blk s.cur.warp f t)

end Sys2Proof.Machine
end

