-- ==== Sys2Proof/Machine/Flags.lean ====
section
/-!
DEFINITION. NSTAT: the numeric events an instruction raises (R34, R35).
-/

namespace Sys2Proof.Machine

/-- The union of the events of the lanes of a mask. -/
def flagsOn (m : Mask) (f : Fin 32 → Flags) : Flags := (lanesOf m).foldl (fun a l => a.or (f l)) {}

/-- Sets the bits of the events in the issuing warp's NSTAT (R34). -/
def setFlags (f : Flags) (s : State) : State := s.updReg fun r => { r with nstat := r.nstat ||| w32 f.bits }

/-- A write of NSTAT: bits [6:0] clear where the value has a 1 (R34). -/
def nstatClear (old x : Word) : Word := old &&& ~~~ (x &&& 0x7F#32)

end Sys2Proof.Machine
end

