-- ==== Sys2Proof/Machine/Operands.lean ====
section
/-!
DEFINITION. Operands: reading sources with their faults, counts, latches and stream walks (R132, R136, R145-R148, R150,
R155-R159, R163, R191, R286), and writing destinations (R145, R148, R149, R157, R158).
-/

namespace Sys2Proof.Machine

/-! ### Sources -/

/-- How a small immediate reads (R132): as an integer, or as its exact value in a format; packed formats hold it twice. -/
inductive ImmK where
  | int | f32 | f64 | bf2 | h2
deriving DecidableEq, Repr

/-- A source field of an instruction: its operand, its hold bit, how many registers it names, how an immediate reads, and
whether it is a uniform operand (R158). -/
structure SrcSpec where
  op : Operand
  hold : Bool := false
  n : Nat := 1
  imm : ImmK := .int
  uni : Bool := false
deriving DecidableEq, Repr

/-- The value read: word i of the operand, per lane. -/
abbrev Rd := Vector (Lanes Word) 4

/-- One value in every lane. -/
def splat (w : Word) : Lanes Word := Vector.replicate 32 w

/-- A one-word value. -/
def rd1 (v : Lanes Word) : Rd := #v[v, splat 0, splat 0, splat 0]

/-- The words of a small immediate (R132). -/
def immWords (k : ImmK) (i : Int) : Word × Word :=
  match k with
  | .int => (BitVec.ofInt 32 i, BitVec.ofInt 32 (i / 2 ^ 32))
  | .f32 => (w32 (f32.ofVal .rn (FVal.ofInt i)).1, 0)
  | .f64 => let d := w64 (f64.ofVal .rn (FVal.ofInt i)).1; (lo32 d, hi32 d)
  | .bf2 => let h := (bf16.ofVal .rn (FVal.ofInt i)).1; (w32 (h * 65537), 0)
  | .h2 => let h := (f16.ofVal .rn (FVal.ofInt i)).1; (w32 (h * 65537), 0)

/-- The value of a small-immediate code (R131). -/
def immOf (c : Fin 64) : Int := (c.val : Int) - 32

/-- The slot of a name; one that was never written holds no lane (R145). -/
def slotOf (r : Regs) (n : Nat) : Slot :=
  AMap.getD r.v n { vals := splat (Config.deadWord n), mask := 0, count := 0 }

/-- The v name of an m name for a lane, or 256 where the entry is invalid. -/
def mName (w : Warp) (i : Fin 16) (l : Fin 32) : Nat := match renameOf w i l with
  | some v => v.val
  | none => 256

/-- The current value of a w register for a warp (R157). -/
def wRead (b : Block) (warp n : Nat) : Word :=
  if b.wOwner[n]?.getD none = some warp then b.wPend[n]?.getD 0 else b.w[n]?.getD 0

/-- Word `i` of an operand, per lane, with no effect: z registers apart. -/
def wordOf (s : State) (k : ImmK) (o : Operand) (i : Nat) : Lanes Word :=
  let w := s.curWarp
  let r := w.reg
  match o with
  | .v n => (slotOf r (n.val + i)).vals
  | .s n => splat (r.s[n.val + i]?.getD 0)
  | .w n => splat (wRead s.curBlock s.cur.warp (n.val + i))
  | .x n => tab fun l => let x := (r.x[n])[l]; x.limit ++ x.cursor
  | .p n => tab fun l => if n.val = 7 ∨ has (r.p[n.val]?.getD 0) l then 1 else 0
  | .k n => splat (if i = 0 then lo32 r.k[n] else hi32 r.k[n])
  | .lat n => r.lat[n].vals
  | .m n => tab fun l => (slotOf r (mName w n l)).vals[l]
  | .imm c => let (a, b) := immWords k (immOf c); splat (if i = 0 then a else b)
  | .z _ | .zero => splat 0

/-- The v names an operand reads for lanes `m`, each once (R146, R150). -/
def namesRead (w : Warp) (m : Mask) (o : Operand) (n : Nat) : List Nat :=
  match o with
  | .v a => if m = 0 then [] else (List.range n).map fun i => a.val + i
  | .m a => ((lanesOf m).map fun l => mName w a l).eraseDups.filter (· < 256)
  | _ => []

/-- The lanes of `m` for which a v or m operand is dead (R147). -/
def deadLanes (s : State) (m : Mask) (o : Operand) (n : Nat) : Mask :=
  let w := s.curWarp
  match o with
  | .v a => m &&& maskOf fun l => (List.range n).any fun i => !has (slotOf w.reg (a.val + i)).mask l
  | .m a => m &&& maskOf fun l => !has (slotOf w.reg (mName w a l)).mask l
  | _ => 0

/-- The lanes of `m` for which a latch is invalid (R155). -/
def badLatch (s : State) (m : Mask) (o : Operand) : Mask :=
  match o with
  | .lat n => m &&& maskOf fun l => (s.curWarp.reg.lat[n]).life[l] == 0
  | _ => 0

/-- Whether an operand has a value of its own in every lane. -/
def perLane : Operand → Bool
  | .v _ | .m _ | .lat _ | .x _ | .p _ | .z _ => true
  | _ => false

/-! ### Streams (R286) -/

/-- Bytes of a stream element, and its extension to a word (R263). -/
def elemBytes (e : Nat) : Nat := match e with | 0 | 1 => 1 | 2 | 3 => 2 | _ => 4
def elemExtend (e x : Nat) : Word :=
  match e with
  | 1 => BitVec.ofInt 32 (sextN x 8)
  | 3 => BitVec.ofInt 32 (sextN x 16)
  | _ => w32 x

/-- The address of a lane's element. -/
def Stream.addr (z : Stream) (l : Fin 32) : DWord :=
  let d := z.desc
  let off : Int := (l.val : Int) * d.laneStride.toInt +
    ((List.range 4).map fun j => ((z.idx[j]?.getD 0 : Nat) : Int) * (d.strides[j]?.getD 0).toInt).foldl (· + ·) 0
  BitVec.ofInt 64 (d.base.toNat + off)

/-- The next indices, and whether the walk is at its end. -/
def Stream.next (z : Stream) : Stream :=
  let step := (List.range 4).foldl (fun (acc : Vector Nat 4 × Bool) j =>
    if !acc.2 then acc
    else
      let i := acc.1[j]?.getD 0
      if i + 1 < z.desc.counts[j]?.getD 1 then (acc.1.setIfInBounds j (i + 1), false)
      else (acc.1.setIfInBounds j 0, true)) (z.idx, true)
  { z with idx := step.1, exhausted := step.2, delivered := z.delivered + 1 }

/-- Whether dimensions 0 to `d` all stand at their last index. -/
def Stream.atEnd (z : Stream) (d : Nat) : Bool :=
  (List.range (d + 1)).all fun j => z.idx[j]?.getD 0 == z.desc.counts[j]?.getD 1 - 1

/-- The predicates after a read by active lanes `m`. -/
def Stream.preds (z : Stream) (m : Mask) (p : Vector Mask 7) : Vector Mask 7 :=
  (List.range z.desc.rank).foldl (fun p d =>
    let sel := (z.sel[d]?.getD 7).toNat
    if sel < 7 then
      let bit := z.exhausted || z.atEnd d
      vmod p sel fun old => if bit then old ||| m else old &&& ~~~ m
    else p) p

/-- The bytes of the element that a stream delivers next, for lanes `m`: a plain load that is no access for races (R287), and
comes after the warp's own writes (R266). -/
def streamBytes (s : State) (m : Mask) (z : Stream) : Except Stop (List (Fin 32 × List Byte) × State) := do
  let n := elemBytes z.desc.esize
  let rs := (lanesOf m).map fun l => (⟨one_ l, z.addr l, n⟩ : Req)
  if z.desc.space = 0 then
    let (gs, s1) ← globalCheck s .read true true rs
    stallIf (gs.any fun g => loadWaits s g)
    let (l, s2) := readAllReqs s1 ⟨s.who, s.instant, false, none⟩ gs
    pure ((lanesOf m).zip (l.map Prod.fst), s2)
  else
    let c := z.desc.space == 2
    let gs ← bufCheck s c true false true rs
    stallIf (gs.any (windowAtomOut s c))
    pure ((lanesOf m).zip (gs.map fun g => bufView s s.curCore g.blk c g.off g.req.n), farRead s gs)

/-- The coming elements, up to `n`, of a stream as they read now; a lane whose element faults is fetched at delivery. -/
def fetchAhead (s : State) (z : Stream) : Nat → List (List (Fin 32 × List Byte))
  | 0 => []
  | n + 1 =>
    if z.exhausted then [] else
    (lanes32.flatMap fun l => match streamBytes s (one_ l) z with
      | .ok (bs, _) => bs
      | .error _ => []) :: fetchAhead s z.next n

/-- A stream fetches up to 64 elements ahead of delivery, how many of them by a free choice (R287, log 143). -/
def Stream.fetch (s : State) (z : Stream) : Stream :=
  let rest := z.ahead.foldl (fun (y : Stream) _ => y.next) z
  { z with ahead := z.ahead ++ fetchAhead s rest (Config.freeNat s.freeCtr % 65 - z.ahead.length) }

/-- The streams of the issuing warp that have fetched nothing ahead do so: after their `STREAM`, and again after an acquire or a
write of the warp (R287). -/
def fetchStreams (s : State) : State :=
  let due (x : Stream) : Bool := !x.exhausted && x.ahead.isEmpty
  if !s.curWarp.reg.z.any fun z => z.any due then s else
  { s.updReg fun r => { r with z := r.z.map fun z => z.map fun x => if due x then x.fetch s else x } with
    freeCtr := s.freeCtr + 1 }

/-- The element a stream delivers to lanes `m`: each byte as it was fetched ahead, or as it is now (R287). -/
def streamLoad (s : State) (m : Mask) (z : Stream) : Except Stop (Lanes Word × State) := do
  let (now, s1) ← streamBytes s m z
  let old := z.ahead.head?.getD []
  let mix (l : Fin 32) (bs : List Byte) : List Byte :=
    match old.find? fun p => p.1 == l with
    | some p => (bs.zip p.2).mapIdx fun i x => if Config.freeAt s.freeCtr (4 * l.val + i) then x.2 else x.1
    | none => bs
  pure (tab fun l => match now.find? fun p => p.1 == l with
      | some p => elemExtend z.desc.esize (leNat (mix l p.2))
      | none => Config.deadWord 256,
    { s1 with freeCtr := s1.freeCtr + 1 })

/-- Reads the stream of a z register for lanes `ml` and moves its walk on; active lanes `m` take its predicates (R286). -/
def readStream (m ml : Mask) (n : Fin 8) (s0 st : State) (preds : Vector Mask 7) :
    Except Stop (Lanes Word × State × Vector Mask 7) :=
  match st.curWarp.reg.z[n] with
  | none => do
    trapIf s0 Kind.streamUnbound m
    pure (splat 0, st, preds)
  | some z =>
    if z.exhausted then pure (splat 0, st, z.preds m preds) else do
      let (v, st) ← streamLoad st ml z
      let next := { z.next with ahead := z.ahead.tail }
      pure (v, { st.updReg (fun g => { g with z := g.z.set n (some (next.fetch st)) }) with freeCtr := st.freeCtr + 1 },
        z.preds m preds)

/-! ### Reading (R163) -/

/-- What reading the sources of an instruction has come to: the values, the state with stream walks advanced and caches
filled, the predicates as streams set them, the names whose counts go down, and the values to hold. -/
structure Reading where
  vals : List Rd
  st : State
  preds : Vector Mask 7
  names : List Nat
  holds : List (Lanes Word)

/-- Reads one source for active lanes `m` of the readers `r`. -/
def readSrc (m r : Mask) (s0 : State) (acc : Reading) (q : SrcSpec) : Except Stop Reading := do
  trapIf s0 Kind.latch (badLatch s0 m q.op)
  trapIf s0 Kind.deadValue (deadLanes s0 m q.op q.n)
  let (v0, st, preds) ← (match q.op with
    | .z n => readStream m m n s0 acc.st acc.preds
    | o => pure (wordOf s0 q.imm o 0, acc.st, acc.preds))
  let rd : Rd := #v[v0, if 2 ≤ q.n then wordOf s0 q.imm q.op 1 else splat 0,
    if 3 ≤ q.n then wordOf s0 q.imm q.op 2 else splat 0, if 4 ≤ q.n then wordOf s0 q.imm q.op 3 else splat 0]
  trapIf s0 Kind.nonUniform
    (if q.uni && perLane q.op && !(uniformOn m rd[0] && uniformOn m rd[1]) then m else 0)
  pure { vals := acc.vals ++ [rd], st, preds,
         names := acc.names ++ namesRead s0.curWarp r q.op q.n,
         holds := if q.hold then acc.holds ++ [rd[0]] else acc.holds }

/-- Reads the sources in order. -/
def readAll (g : Guard) (qs : List SrcSpec) (s : State) : Except Stop Reading :=
  qs.foldlM (readSrc (s.active g) (readers s.curWarp s.curSplit g) s)
    { vals := [], st := s, preds := s.curWarp.reg.p, names := [], holds := [] }

/-- The i-th value. -/
def Reading.at (r : Reading) (i : Nat) : Rd := r.vals[i]?.getD (rd1 (splat 0))
def Reading.w (r : Reading) (i : Nat) : Lanes Word := (r.at i)[0]

/-- A uniform operand's value (R136): that of the lowest active lane, or of lane 0 when the operand has one for all. -/
def uval (m : Mask) (v : Lanes Word) : Word := v[(lowest m).getD 0]

/-- A pair as a 64-bit value. -/
def Rd.pair (r : Rd) (l : Fin 32) : DWord := pair64 (r[0])[l] (r[1])[l]

/-! ### Destinations -/

/-- A value for a destination: the operand, the consumer count, the lanes written and the value. -/
structure Put where
  op : Operand
  cc : Nat
  lanes : Mask
  val : Lanes Word
deriving DecidableEq, Repr

/-- Registers after `o`: the i-th member of a pair or group. -/
def nextReg (o : Operand) (i : Nat) : Operand :=
  match o with
  | .v n => .v (Fin.ofNat 256 (n.val + i))
  | .s n => .s (Fin.ofNat 64 (n.val + i))
  | .w n => .w (Fin.ofNat 32 (n.val + i))
  | x => x

/-- The v names that a destination writes, each with its lanes (R145, R150). -/
def Put.names (w : Warp) (q : Put) : List (Nat × Mask) :=
  if q.lanes = 0 then [] else
  match q.op with
  | .v n => [(n.val, q.lanes)]
  | .m i => ((lanesOf q.lanes).map fun l => mName w i l).eraseDups.map fun n =>
      (n, q.lanes &&& maskOf fun l => mName w i l == n)
  | _ => []

/-- The reservation of a warp in each bank (R148). -/
def State.perBank (s : State) : Nat := cdiv s.curLaunch.hdr.regs 4

/-- Live names of a bank. -/
def heldIn (v : AMap Slot) (bank : Nat) : Nat := (v.filter fun p => p.1 % 4 == bank).length

/-- R146: the counts after the reads, and the names that die. A persistent result counts nothing. -/
def decrement (v : AMap Slot) (names : List Nat) : AMap Slot × List Nat :=
  let after (n : Nat) (sl : Slot) : Nat := sl.count - names.count n
  (AMap.mapVals v fun n sl => { sl with count := after n sl },
   (v.filter fun p => p.2.count != 0 && after p.1 p.2 == 0).map Prod.fst)

/-- Writes one v name (R145): the lanes written take the value, the others keep the old slot's value and mask bit. -/
def writeName (old : Slot) (cc : Nat) (m : Mask) (val : Lanes Word) : Slot :=
  { vals := blend m old.vals val, mask := old.mask ||| m, count := cc }

/-- How many slots of each bank an instruction releases (R145, R146, R149). -/
def releases (v : AMap Slot) (dying written : List Nat) (bank : Nat) : Nat :=
  ((v.map Prod.fst).filter fun n => n % 4 == bank && (dying.contains n || written.contains n)).length

/-- The sub-core of the issuing warp. -/
def State.sub (s : State) : Nat := subCore s.cur.warp s.curBlock.place.slot

/-- Slots of the retention share in use (R149). -/
def sharesHeld (s : State) (core sub bank : Nat) : Nat :=
  (((s.core core).body.retained.filter fun r => r.sub == sub && r.bank == bank).map fun r => r.n).foldl (· + ·) 0

/-- R149: releases that the share has no room for stall; an empty share takes any number (log 33). -/
def shareStall (s : State) (rel : Nat → Nat) : Bool :=
  s.curLaunch.lagers && (List.range 4).any fun b =>
    let h := sharesHeld s s.curCore s.sub b
    rel b != 0 && h != 0 && decide (16 < h + rel b)

/-- Puts released slots in the share. -/
def shareTake (rel : Nat → Nat) (s : State) : State :=
  if !s.curLaunch.lagers then s else
  s.updBody s.curCore fun k => { k with
    retained := k.retained ++ (List.range 4).filterMap fun b =>
      if rel b = 0 then none else some ⟨s.cur.blk, s.sub, b, s.epoch, rel b⟩ }

/-- The faults of the destinations, each kind for all of them (R163): uniform-writer, non-uniform, then the reservation. -/
def putFaults (s : State) (qs : List Put) (vAfter : AMap Slot) : Except Stop Unit := do
  qs.forM fun q => trapIf s Kind.uniformWriter (match q.op with
    | .w n => match s.curBlock.wOwner[n] with
      | some o => if o = s.cur.warp then 0 else q.lanes
      | none => 0
    | _ => 0)
  qs.forM fun q => trapIf s Kind.nonUniform (match q.op with
    | .s _ | .w _ => if uniformOn q.lanes q.val then 0 else q.lanes
    | _ => 0)
  let written := qs.flatMap fun q => q.names s.curWarp
  trapIf s Kind.reservation ((written.filter fun p =>
    !(s.curWarp.reg.v.any fun x => x.1 == p.1) && decide (s.perBank < heldIn vAfter (p.1 % 4))).foldl
      (fun m p => m ||| p.2) 0)

/-- The v file after reads and writes. -/
def vFile (w : Warp) (names : List Nat) (qs : List Put) : AMap Slot × List Nat × List Nat :=
  let (dec, dying) := decrement w.reg.v names
  let kept := dec.filter fun p => !dying.contains p.1
  let writes := qs.flatMap fun q => (q.names w).map fun p => (p.1, p.2, q)
  (writes.foldl (fun v x => AMap.set v x.1
      (writeName (AMap.getD v x.1 (slotOf w.reg x.1)) x.2.2.cc x.2.1 x.2.2.val)) kept,
   dying, writes.map fun x => x.1)

/-- Writes the scalar, uniform and predicate destinations. -/
def putOther (q : Put) (s : State) : State :=
  if q.lanes = 0 then s else
  match q.op with
  | .s n => s.updReg fun r => { r with s := r.s.set n (uval q.lanes q.val) }
  | .w n => s.updCurBlock fun b =>
      { b with wOwner := b.wOwner.set n (some s.cur.warp), wPend := b.wPend.set n (uval q.lanes q.val) }
  | .p n => s.updReg fun r =>
      { r with p := vmod r.p n.val fun old =>
          (old &&& ~~~ q.lanes) ||| (q.lanes &&& maskOf fun l => (q.val[l]).getLsbD 0) }
  | _ => s

/-- Holds values in the latches (R155), for the split's lanes, from the split's pointer on. -/
def holdLatches (holds : List (Lanes Word)) (s : State) : State :=
  let m := s.curSplit.lanes
  holds.foldl (fun s v =>
    let p := s.curSplit.latPtr
    let s := s.updReg fun r => { r with lat := vmod r.lat p.val fun l =>
      { vals := blend m l.vals v, life := tab fun i => if has m i then 3 else l.life[i] } }
    s.updSplit fun sp => { sp with latPtr := p + 1 }) s

/-- The destination's faults and the stall for slots: they come before any effect (R134, R135, R149). -/
def destCheck (r : Reading) (qs : List Put) (s : State) : Except Stop Unit := do
  let (v, dying, written) := vFile s.curWarp r.names qs
  putFaults s qs v
  stallIf (shareStall s (releases s.curWarp.reg.v dying written))

/-- The state after an instruction's reads and writes: counts, latches and stream walks, then the destinations. -/
def written (r : Reading) (qs : List Put) (s : State) : State :=
  let f := vFile s.curWarp r.names qs
  let rel := releases s.curWarp.reg.v f.2.1 f.2.2
  let t := shareTake rel (r.st.updReg fun g => { g with v := f.1, p := r.preds })
  qs.foldl (fun t q => putOther q t) (holdLatches r.holds t)

/-- The end of an instruction's reads and writes. -/
def commit (r : Reading) (qs : List Put) (s : State) : Except Stop State := do
  destCheck r qs s
  pure (written r qs s)

/-! ### Values that come back later (R160, R239, R278) -/

/-- What a destination awaits: its registers were taken, and its faults met, at issue. -/
def lateOf (s : State) (q : Put) : Late := ⟨q.op, q.lanes, q.names s.curWarp⟩

/-- The value of lanes `m` of an awaited destination of a warp comes back. -/
def fillLate (u wn : Nat) (d : Late) (m : Mask) (val : Lanes Word) (s : State) : State :=
  match d.d with
  | .s n => s.updWarpOf u wn fun w => { w with reg := { w.reg with s := w.reg.s.set n (uval d.lanes val) } }
  | .w n => s.updBlock u fun b => { b with wPend := b.wPend.set n (uval d.lanes val) }
  | _ => s.updWarpOf u wn fun w => { w with reg := { w.reg with
      v := d.names.foldl (fun v p => AMap.modify v p.1 fun sl => { sl with vals := blend (p.2 &&& m) sl.vals val }) w.reg.v } }

/-- An instruction whose registers no operand field names waits while the warp awaits any (R160). -/
def noLate (s : State) : Except Stop Unit := stallIf (!s.curWarp.late.isEmpty)

/-! ### Instructions that compute (R190) -/

/-- A one-register source, an FP32 source, a pair, a packed source. -/
def srcI (a : Src) : SrcSpec := { op := a.op, hold := a.hold }
def srcF (a : Src) : SrcSpec := { op := a.op, hold := a.hold, imm := .f32 }
def srcD (a : Src) : SrcSpec := { op := a.op, hold := a.hold, n := 2, imm := .f64 }
def srcU (a : Src) : SrcSpec := { op := a.op, hold := a.hold, uni := true }
def opSrc (o : Operand) : SrcSpec := { op := o }
def opU (o : Operand) : SrcSpec := { op := o, uni := true }

/-- A one-register destination. -/
def putOf (d : Dst) (m : Mask) (v : Lanes Word) : Put := ⟨d.op, d.cc.val, m, v⟩

/-- A pair destination. -/
def put2Of (d : Dst) (m : Mask) (v : Lanes DWord) : List Put :=
  [⟨d.op, d.cc.val, m, tab fun l => lo32 v[l]⟩, ⟨nextReg d.op 1, d.cc.val, m, tab fun l => hi32 v[l]⟩]

/-- The operands of an instruction, for the checks at issue. -/
def opsOf (d : Operand) (qs : List SrcSpec) : List Operand := d :: qs.map fun q => q.op

/-- An instruction that reads sources and writes one word per active lane, with the events of each lane. -/
def runAlu (g : Guard) (qs : List SrcSpec) (d : Dst) (f : Reading → Fin 32 → Word × Flags) (s : State) : Res := do
  checkIssue g (opsOf d.op qs) false s
  let m := s.active g
  let r ← readAll g qs s
  let v := tab fun l => f r l
  let t ← commit r [putOf d m (tab fun l => (v[l]).1)] s
  pure (setFlags (flagsOn m fun l => (v[l]).2) t)

/-- The same with no event. -/
def runInt (g : Guard) (qs : List SrcSpec) (d : Dst) (f : Reading → Fin 32 → Word) (s : State) : Res :=
  runAlu g qs d (fun r l => (f r l, {})) s

/-- An instruction that writes a 64-bit value per active lane. -/
def runPair (g : Guard) (qs : List SrcSpec) (d : Dst) (f : Reading → Fin 32 → DWord × Flags) (s : State) : Res := do
  checkIssue g (opsOf d.op qs) false s
  let m := s.active g
  let r ← readAll g qs s
  let v := tab fun l => f r l
  let t ← commit r (put2Of d m (tab fun l => (v[l]).1)) s
  pure (setFlags (flagsOn m fun l => (v[l]).2) t)

end Sys2Proof.Machine
end

