-- ==== Sys2Proof/Machine/Fetch.lean ====
section
/-!
DEFINITION. Code: fetching it, the header map, the clause check (R116-R119, R122), lanes that move between clauses
(R166, R167, R175), and a warp's end (R176, R477, R478).
-/

namespace Sys2Proof.Machine

/-! ### Code -/

/-- The virtual address of a code offset of a launch (R14, R20). -/
def codeVa (la : Launch) (off : Nat) : DWord := w64 (la.desc.kernel + la.hdr.codeOff + off)

/-- One 8-byte word of code, through translation (R246): the word, or the cause; 0 where the word is poisoned (R260). -/
def fetchWord (s : State) (core : Nat) (la : Launch) (off : Nat) : Except Nat (DWord × State) := do
  let (pa, _, s1) ← translate s (.core core) la.desc.asid la.desc.world .fetch (codeVa la off)
  if anyPoison s pa 8 then .error 0 else pure (w64 (read8 s pa), s1)

/-- The fault kind of a fetch that fails. -/
def fetchKind (cause : Nat) : Nat := if cause = 0 then Kind.uncorrectable else Kind.translation

/-- A word of code as it stands, or 0 where it cannot be fetched: for a clause that has run before. -/
def peekCode (s : State) (u off : Nat) : DWord :=
  let b := s.block u
  match fetchWord s b.place.coreNo (s.launch b.launch) off with
  | .ok (w, _) => w
  | .error _ => 0

/-- Whether an address that something other than a warp's access reads cannot be read now: another core's atomic quarantines its
line (R412), or it lies behind a link that trains (R492). -/
def readHeld (s : State) (core pa : Nat) : Bool := quarantined s core pa || linkWaits s pa

/-- Whether anything in the machine holds reads back. -/
def anyHeld (s : State) : Bool := !s.quar.isEmpty || (s.gnl.state != 2 && s.gnl.state != 4)

/-- Whether a word of code cannot be read now. -/
def codeHeld (s : State) (core : Nat) (la : Launch) (off : Nat) : Bool :=
  match translate s (.core core) la.desc.asid la.desc.world .fetch (codeVa la off) with
  | .ok (pa, _, _) => readHeld s core pa
  | .error _ => false

/-- Whether some word of a clause cannot be read now. -/
def clauseHeld (s : State) (u hdr : Nat) : Bool :=
  let b := s.block u
  let la := s.launch b.launch
  anyHeld s && (codeHeld s b.place.coreNo la hdr ||
    (List.range (hdrCount (peekCode s u hdr))).any fun i => codeHeld s b.place.coreNo la (hdr + 8 + 8 * i))

/-- Whether R117 marks an offset as a header. -/
def isHeader (la : Launch) (off : Nat) : Bool := la.headers.contains off

/-- The offset after the clause at `hdr` (R116). -/
def clauseAfter (s : State) (u hdr : Nat) : Nat := nextClause hdr (peekCode s u hdr)

/-! ### The clause check (R118, R122) -/

/-- The family and the opcode of an instruction word. -/
def famOf (w : DWord) : Nat := (w.extractLsb' 61 3).toNat
def opcOf (w : DWord) : Nat := (w.extractLsb' 54 10).toNat

/-- R122: whether a class admits an instruction word. -/
def admits (cls : Nat) (w : DWord) : Bool :=
  let f := famOf w
  opcOf w == 0x18F ||
    (match cls with
      | 0 => decide (f ≤ 3)
      | 1 => f == 4
      | 2 => f == 5 || f == 6
      | 3 => f == 7 && opcOf w != 0x389
      | _ => decide (f ≤ 4) || opcOf w == 0x389)

/-- The fields of a header (R118). -/
def headerOk (h : DWord) : Bool :=
  decide (hdrClass h ≤ 4) && hdrMeld h == (hdrClass h == 4) && !(hdrPtab h && hdrClass h != 4) &&
    (if hdrTlen h then decide (hdrTlsel h ≤ 4) && hdrTlreg h % 2 == 0 else hdrTlsel h == 0 && hdrTlreg h == 0) &&
    hdrReserved h == 0

/-- What fetching and checking a clause comes to. -/
inductive ClauseStart where
  | ok (h : DWord) (ws : List DWord) (s : State)
  | bad (kind cause : Nat) (va : DWord)

/-- Fetches the words of a clause in order, all as memory stands now: of what a fetch after a rewrite may return, old or new
words by the line, the model takes the new ones (R19, log 146). -/
def fetchClause (s : State) (core : Nat) (la : Launch) (off : Nat) : Nat → Except (Nat × Nat × DWord) (List DWord × State)
  | 0 => .ok ([], s)
  | n + 1 =>
    if la.hdr.codeSize < off + 8 then .error (Kind.targetAlign, 0, 0)
    else match fetchWord s core la off with
      | .error c => .error (fetchKind c, c, codeVa la off)
      | .ok (w, s1) =>
        match fetchClause s1 core la (off + 8) n with
        | .error e => .error e
        | .ok (ws, s2) => .ok (w :: ws, s2)

/-- R118: the whole clause is checked before it starts. -/
def startClause (s : State) (u hdr : Nat) : ClauseStart :=
  let b := s.block u
  let la := s.launch b.launch
  match fetchClause s b.place.coreNo la hdr 1 with
  | .error (k, c, va) => .bad k c va
  | .ok (hs, s1) =>
    let h := hs.head?.getD 0
    if !headerOk h then .bad Kind.clauseFormat 0 0 else
    match fetchClause s1 b.place.coreNo la (hdr + 8) (hdrCount h) with
    | .error (k, c, va) => .bad k c va
    | .ok (ws, s2) => if ws.all (admits (hdrClass h)) then .ok h ws s2 else .bad Kind.clauseFormat 0 0

/-- A clause that goes on at instruction `idx`: its header and the words from there on are fetched again, without a check
(R120). -/
def resumeClause (s : State) (u hdr idx : Nat) : ClauseStart :=
  let b := s.block u
  let la := s.launch b.launch
  match fetchClause s b.place.coreNo la hdr 1 with
  | .error (k, c, va) => .bad k c va
  | .ok (hs, s1) =>
    let h := hs.head?.getD 0
    match fetchClause s1 b.place.coreNo la (hdr + 8 + 8 * idx) (hdrCount h - idx) with
    | .error (k, c, va) => .bad k c va
    | .ok (ws, s2) => .ok h (List.replicate idx 0 ++ ws) s2

/-! ### Lanes between clauses (R116, R167) -/

/-- Whether two unstarted splits at one header may merge (R167). -/
def mergeable (w : Warp) (a b : Split) : Bool :=
  a.hdr == b.hdr && a.idx == 0 && b.idx == 0 && a.port.isNone && b.port.isNone && a.wait == .none && b.wait == .none &&
    ((a.lanes ||| b.lanes) &&& w.lane.inSerial) == 0 &&
    ((a.lanes &&& w.lane.inMeld) != 0) == ((b.lanes &&& w.lane.inMeld) != 0)

/-- Adds an unstarted split, merged with one that waits at its header; the pass count is the highest. -/
def Warp.join (w : Warp) (sp : Split) : Warp :=
  match w.splits.find? fun p => mergeable w p.2 sp with
  | some (k, o) =>
    { w with splits :=
        AMap.set w.splits k { o with lanes := o.lanes ||| sp.lanes, pass := max o.pass sp.pass, tlv := none } }
  | none => w.addSplit sp

/-- Lanes go to the start of a clause as an unstarted split. -/
def Warp.moveTo (w : Warp) (lanes : Mask) (hdr pass : Nat) : Warp :=
  if lanes = 0 then w else w.join { Split.start lanes hdr with pass := pass }

/-- Sets the next program counter of lanes. -/
def setPcs (m : Mask) (pc : Pc) (l : LaneState) : LaneState :=
  { l with pcs := tab fun i => if has m i then pc else l.pcs[i] }

/-- The next program counter of each lane. -/
def setPcsEach (m : Mask) (f : Fin 32 → Nat) (l : LaneState) : LaneState :=
  { l with pcs := tab fun i => if has m i then ⟨f i, 0⟩ else l.pcs[i] }

/-- R116: a transfer. The lanes are inactive for the rest of the clause. -/
def jumpLanes (m : Mask) (f : Fin 32 → Nat) (s : State) : State :=
  (s.updLane (setPcsEach m f)).updSplit fun sp => { sp with left := sp.left ||| m }

/-- Lanes leave their splits by an instruction that ends the clause for them; where a split ends with them, so does its clause,
with the effect of its yield (R121, R187). -/
def Warp.leave (w : Warp) (m : Mask) : Warp :=
  let ends := w.splits.any fun p => p.2.port.isSome && (p.2.lanes &&& ~~~ m) == 0 && (p.2.yields || hdrYield p.2.header)
  { w.detach m with yielded := w.yielded || ends }

/-! ### Serial regions (R175) -/

/-- The turn of the running lane ends: the next waiting lane starts, or the region does. -/
def Warp.serialNext (w : Warp) (after : Nat) : Warp :=
  match w.serial with
  | none => w
  | some r =>
    match lowest (w.lane.serWait &&& w.lane.live) with
    | some l =>
      let lane := { w.lane with serWait := w.lane.serWait &&& ~~~ one_ l }
      { w with lane := lane, serial := some { r with lane := l } }.addSplit (Split.start (one_ l) r.first)
    | none =>
      let m := w.lane.inSerial &&& w.lane.live
      let lane := setPcs m ⟨after, 0⟩ { w.lane with inSerial := 0, serWait := 0 }
      { w with lane := lane, serial := none }.moveTo m after 0

/-! ### Refill (R176, R186) -/

/-- A pop that failed: the address and the cause, or poison (cause 0). -/
structure PopFail where
  va : DWord
  cause : Nat
deriving DecidableEq, Repr

/-- Takes an item of a block's launch: from the log of a rollback first, else from the queue. None when no item remains.
DESIGN CHOICE (log 154): a queue at an address that is not a multiple of 4 is read as it lies. -/
def popItem (u wn : Nat) (s : State) : Except PopFail (Option Word × State) :=
  let b := s.block u
  let la := s.launch b.launch
  let core := b.place.coreNo
  let log (x : Word) (t : State) : State :=
    (t.updCore core fun k => { k with popLog := k.popLog ++ [(u, wn, s.epoch, x)] }).updBlock u fun y => { y with escaped := true }
  match (s.core core).popReplay.find? fun r => r.1 == u && r.2.1 == wn with
  | some r => .ok (some r.2.2, log r.2.2 (s.updCore core fun k => { k with popReplay := k.popReplay.erase r }))
  | none =>
    if la.desc.wqAddr = 0 ∨ la.desc.wqItems ≤ la.popped then .ok (none, s) else
    let va := w64 (la.desc.wqAddr + 4 * la.popped)
    match translate s (.core core) la.desc.asid la.desc.world .read va with
    | .error c => .error ⟨va, c⟩
    | .ok (pa, _, s1) =>
      if anyPoison s pa 4 then .error ⟨va, 0⟩ else
      let x := w32 (leNat (s.mem.readN pa 4))
      .ok (some x, log x (s1.updLaunch b.launch fun l => { l with popped := l.popped + 1 }))

/-- Whether one of the next `n` items of a queue cannot be read now; those of the log need no read. -/
def popHeld (u wn n : Nat) (s : State) : Bool :=
  let b := s.block u
  let la := s.launch b.launch
  let core := b.place.coreNo
  anyHeld s && la.desc.wqAddr != 0 && (List.range (n - ((s.core core).popReplay.filter fun r => r.1 == u && r.2.1 == wn).length)).any fun i =>
    decide (la.popped + i < la.desc.wqItems) &&
      match translate s (.core core) la.desc.asid la.desc.world .read (w64 (la.desc.wqAddr + 4 * (la.popped + i))) with
      | .ok (pa, _, _) => readHeld s core pa
      | .error _ => false

/-- Pops one item for each lane in turn while any remains: the lanes with items, and whether none remains. -/
def popFor (u wn : Nat) : List (Fin 32) → State → Except PopFail (List (Fin 32 × Word) × Bool × State)
  | [], s => .ok ([], (match popItem u wn s with | .ok (none, _) => true | _ => false), s)
  | l :: t, s =>
    match popItem u wn s with
    | .error e => .error e
    | .ok (none, s1) => .ok ([], true, s1)
    | .ok (some x, s1) =>
      match popFor u wn t s1 with
      | .error e => .error e
      | .ok (r, e, s2) => .ok ((l, x) :: r, e, s2)

/-- Every barrier a block may name (R387). -/
def allBars : List Bar :=
  (List.range 34).map fun i =>
    if i < 4 then ⟨.wrp, Fin.ofNat 16 i⟩
    else if i < 20 then ⟨.blk, Fin.ofNat 16 (i - 4)⟩
    else if i < 28 then ⟨.clu, Fin.ofNat 16 (i - 20)⟩
    else if i < 32 then ⟨.flr, Fin.ofNat 16 (i - 28)⟩
    else ⟨.grd, Fin.ofNat 16 (i - 32)⟩

/-- Lanes that revive join the group of a barrier from the next phase on (R388): this one does not wait for them. -/
def Warp.countRevived (w : Warp) (m : Mask) : Warp :=
  { w with ord := { w.ord with bars := allBars.foldl (fun bs b =>
      let f := AMap.getD bs (barKey b) BarFlags.none
      AMap.set bs (barKey b) { f with excused := f.excused ||| m }) w.ord.bars } }

/-- The lanes that items were popped for. -/
def lanesIn (xs : List (Fin 32 × Word)) : Mask := maskOf fun l => xs.any fun x => x.1 == l

/-- The lanes revived with their items (R186): v0 takes the item, predicates are true, index registers 0, flags clear. -/
def Warp.revive (w : Warp) (xs : List (Fin 32 × Word)) (point : Nat) : Warp :=
  let m := lanesIn xs
  if m = 0 then w else
  let vals : Lanes Word := tab fun l => match xs.find? fun x => x.1 == l with
    | some x => x.2
    | none => 0
  let reg := { w.reg with
    v := AMap.set w.reg.v 0 (writeName (slotOf w.reg 0) 0 m vals)
    p := Vector.ofFn fun i : Fin 7 => w.reg.p[i] ||| m
    x := Vector.ofFn fun i : Fin 8 => tab fun l =>
      if has m l then { base := 0, limit := 0, cursor := 0 } else (w.reg.x[i])[l] }
  let lane := setPcs m ⟨point, 0⟩ { w.lane with
    live := w.lane.live ||| m
    inMeld := w.lane.inMeld &&& ~~~ m
    inSerial := w.lane.inSerial &&& ~~~ m
    serWait := w.lane.serWait &&& ~~~ m
    inHandler := w.lane.inHandler &&& ~~~ m }
  ({ w with reg := reg, lane := lane }.countRevived m).moveTo m point 0

/-- Whether reviving lanes would break the reservation of v0 (R148). -/
def reviveBreaks (s : State) (u : Nat) (w : Warp) : Bool :=
  !(w.reg.v.any fun x => x.1 == 0) &&
    decide (cdiv (s.launch (s.block u).launch).hdr.regs 4 < heldIn w.reg.v 0 + 1)

/-- The slot that v0 releases must fit the retention share (R149). -/
def reviveStalls (s : State) (u wn : Nat) (w : Warp) : Bool :=
  let b := s.block u
  let h := sharesHeld s b.place.coreNo (subCore wn b.place.slot) 0
  (s.launch b.launch).lagers && (w.reg.v.any fun x => x.1 == 0) && decide (16 ≤ h)

/-- The slot v0 held passes to the share. -/
def reviveShare (u wn : Nat) (w : Warp) (s : State) : State :=
  let b := s.block u
  if (s.launch b.launch).lagers && (w.reg.v.any fun x => x.1 == 0) then
    s.updBody b.place.coreNo fun k => { k with retained := k.retained ++ [⟨u, subCore wn b.place.slot, 0, s.epoch, 1⟩] }
  else s

/-! ### The end of a warp (R477, R478) -/

/-- Whether the slots that a warp would release by retiring find no room in the retention share yet (R149, R478; log 33). -/
def retireStalls (s : State) (u wn : Nat) : Bool :=
  let b := s.block u
  let v := (AMap.getD b.warps wn default).reg.v
  (s.launch b.launch).lagers && (List.range 4).any fun i =>
    let h := sharesHeld s b.place.coreNo (subCore wn b.place.slot) i
    heldIn v i != 0 && h != 0 && decide (16 < h + heldIn v i)

/-- A warp with no live lane and no refill retires: its slots pass through the share, its reservation stays for two
epochs. -/
def retireWarp (u wn : Nat) (s : State) : State :=
  let b := s.block u
  let la := s.launch b.launch
  let w := AMap.getD b.warps wn default
  let sub := subCore wn b.place.slot
  let s := if la.lagers then
      s.updBody b.place.coreNo fun k => { k with
        retained := k.retained ++ (List.range 4).filterMap fun i =>
          if heldIn w.reg.v i = 0 then none else some ⟨u, sub, i, s.epoch, heldIn w.reg.v i⟩
        leftover := k.leftover ++ [⟨u, sub, cdiv la.hdr.regs 4 * (if la.hdr.paired then 2 else 1), s.epoch⟩] }
    else s
  s.updWarpOf u wn fun w => { w with retired := true, autoRefill := none, reg := { w.reg with v := [] } }

/-- Posts the fault of an automatic refill, the warp as agent (R176). -/
def postRefill (u wn : Nat) (e : PopFail) (s : State) : State :=
  let b := s.block u
  let la := s.launch b.launch
  let words := faultWords la.desc.asid e.cause 0 false la.desc.world (warpAgent b wn) (e.va.toNat % 2 ^ 56) Kind.translation
  let (slot, s) := postFault b.place.die words (.refill u wn) s
  worldNote b.place.die la.desc.asid e.cause (warpAgent b wn) e.va
    (s.updWarpOf u wn fun w => { w with autoRefill := some (some (slot.getD 64)) })

/-- R186: the predicate that takes "no item remains" in lanes. -/
def Warp.setExhausted (w : Warp) (n : Nat) (m : Mask) (e : Bool) : Warp :=
  { w with reg := { w.reg with p := vmod w.reg.p n fun p => if e then p ||| m else p &&& ~~~ m } }

/-- The end of a warp, which waits for a boundary while the share has no room for its slots (R149). -/
def endWarp (u wn : Nat) (s : State) : State :=
  if retireStalls s u wn then s.updWarpOf u wn fun w => { w with autoRefill := some none } else retireWarp u wn s

/-- The refill of R176 for all lanes of a warp whose last lane has exited. -/
def autoRefill (u wn : Nat) (s : State) : State :=
  let b := s.block u
  let w := AMap.getD b.warps wn default
  match w.refill with
  | none => endWarp u wn s
  | some (point, pn) =>
    if popHeld u wn 32 s then s.updWarpOf u wn fun w => { w with autoRefill := some none } else
    match popFor u wn lanes32 s with
    | .error e =>
      if e.cause = 0 then terminate u 0x06 Kind.uncorrectable (warpAgent b wn) e.va s else postRefill u wn e s
    | .ok (xs, e, s1) =>
      if xs.isEmpty then endWarp u wn s1
      else if reviveBreaks s u w then terminate u 0x03 Kind.reservation (warpAgent b wn) 0 s
      else if reviveStalls s u wn w then s.updWarpOf u wn fun w => { w with autoRefill := some none }
      else settleExit u wn ((reviveShare u wn w s1).updWarpOf u wn fun w =>
        (({ w with autoRefill := none }).revive xs point).setExhausted pn (lanesIn xs) e)

/-- Lanes of a warp exit (R182). The drain of the last one's exit has been checked before. -/
def exitLanes (u wn : Nat) (m : Mask) (s : State) : State :=
  if m = 0 then s else
  let w := AMap.getD (s.block u).warps wn default
  let turn := match w.serial with
    | some r => has m r.lane
    | none => false
  let after := match w.serial with
    | some r => clauseAfter s u r.last
    | none => 0
  let s := s.updWarpOf u wn fun w =>
    let lane := { w.lane with
      live := w.lane.live &&& ~~~ m
      inMeld := w.lane.inMeld &&& ~~~ m
      inSerial := w.lane.inSerial &&& ~~~ m
      serWait := w.lane.serWait &&& ~~~ m
      inHandler := w.lane.inHandler &&& ~~~ m }
    let w := { w with lane := lane }.leave m
    if turn then w.serialNext after else w
  let s := if (w.lane.inHandler &&& m) != 0 then trapEnds u wn s else s
  let s := settleExit u wn s
  let w := AMap.getD (s.block u).warps wn default
  if w.lane.live != 0 then s else
  autoRefill u wn ((drainOf s u wn).updWarpOf u wn fun w => { w with noPre := false })

end Sys2Proof.Machine
end

