-- ==== Sys2Proof/Machine/Integer.lean ====
section
/-!
DEFINITION. Family 000, integer and logic: R195-R204.
-/

namespace Sys2Proof.Machine

/-- An operand as an integer: unsigned under `.u`, else two's complement. -/
def intVal (u : Bool) (w : Word) : Int := if u then (w.toNat : Int) else w.toInt

/-- R195: the exact result narrowed. -/
def narrow (md : IntMode) (x : Int) : Word × Flags :=
  match md with
  | .wrap => (BitVec.ofInt 32 x, {})
  | .sat =>
    let (r, ch) := clampInt x (-(2 ^ 31)) (2 ^ 31 - 1)
    (BitVec.ofInt 32 r, { sat := ch })
  | .satU =>
    let (r, ch) := clampInt x 0 (2 ^ 32 - 1)
    (BitVec.ofInt 32 r, { sat := ch })

/-- Whether a mode reads its operands as unsigned. -/
def isU (md : IntMode) : Bool := md == .satU

/-- A Format I destination and sources: count 0, and the immediate for srcB. -/
def dst0 (o : Operand) : Dst := ⟨o, 0⟩

/-- R195: bits [63:32] of the product. -/
def mulHigh (u : Bool) (a b : Word) : Word := BitVec.ofInt 32 (intVal u a * intVal u b / 2 ^ 32)

/-- R196. -/
def quot (u : Bool) (a b : Word) : Word :=
  if b = 0 then 0xFFFFFFFF#32 else BitVec.ofInt 32 ((intVal u a).tdiv (intVal u b))
def remd (u : Bool) (a b : Word) : Word :=
  if b = 0 then a else BitVec.ofInt 32 ((intVal u a).tmod (intVal u b))

/-- R197. -/
def minI (u : Bool) (a b : Word) : Word := if intVal u a ≤ intVal u b then a else b
def maxI (u : Bool) (a b : Word) : Word := if intVal u b ≤ intVal u a then a else b
def absI (sat : Bool) (a : Word) : Word × Flags :=
  if a.toInt < 0 then
    if sat && a == 0x80000000#32 then (0x7FFFFFFF#32, { sat := true }) else (-a, {})
  else (a, {})

/-- R198: an integer comparison. -/
def cmpI (c : Cmp) (u : Bool) (a b : Word) : Bool :=
  let x := intVal u a
  let y := intVal u b
  match c with
  | .eq => x == y
  | .ne => x != y
  | .lt => decide (x < y)
  | .le => decide (x ≤ y)
  | .gt => decide (y < x)
  | .ge => decide (y ≤ x)
  | .num | .nan => false

/-- A truth value as a word. -/
def bit01 (b : Bool) : Word := if b then 1 else 0

/-- R201: a two-input function code at bit pair (a, b). -/
def lutBit (g : BitVec 4) (a b : Bool) : Bool := g.getLsbD (2 * b.toNat + a.toNat)

/-- R201. -/
def lop3W (g0 g1 : BitVec 4) (a b c : Word) : Word :=
  maskOf fun j => lutBit (if c.getLsbD j.val then g1 else g0) (a.getLsbD j.val) (b.getLsbD j.val)

/-- R202. -/
def shlW (a b : Word) : Word := if b.toNat < 32 then a <<< b.toNat else 0
def shrW (a b : Word) : Word := if b.toNat < 32 then a >>> b.toNat else 0
def sarW (a b : Word) : Word := BitVec.sshiftRight a (min b.toNat 31)
def rotW (r : Bool) (a b : Word) : Word :=
  let n := b.toNat % 32
  if r then a.rotateRight n else a.rotateLeft n

/-- R203: position and length of a field word. -/
def fieldPos (f : Word) : Nat := nbits f.toNat 0 8
def fieldLen (f : Word) : Nat := min (nbits f.toNat 8 8) 32

def bfxW (sg : Bool) (a f : Word) : Word :=
  let pos := fieldPos f
  let len := fieldLen f
  let src (i : Nat) : Bool := if pos + i < 32 then a.getLsbD (pos + i) else sg && a.getLsbD 31
  maskOf fun i => if i.val < len then src i.val else sg && decide (0 < len) && src (len - 1)

def bfiW (a b f : Word) : Word :=
  let pos := fieldPos f
  let len := fieldLen f
  maskOf fun i => if pos ≤ i.val ∧ i.val < pos + len then a.getLsbD (i.val - pos) else b.getLsbD i.val

/-- R204. -/
def popcW (a : Word) : Word := w32 (popcount a)
def clzW (a : Word) : Word := match highest a with
  | some h => w32 (31 - h.val)
  | none => 32
def brevW (a : Word) : Word := maskOf fun i => a.getLsbD (31 - i.val)

/-- IADD (R195). -/
def execIadd (g : Guard) (d : Dst) (a b : Src) (md : IntMode) (s : State) : Host.Outcome State Fault Refusal :=
  finish (runAlu g [srcI a, srcI b] d (fun r l => narrow md (intVal (isU md) (r.w 0)[l] + intVal (isU md) (r.w 1)[l])) s) s

/-- IADD with an immediate (R195). -/
def execIaddI (g : Guard) (d a : Operand) (i : Word) (s : State) : Host.Outcome State Fault Refusal :=
  finish (runInt g [opSrc a] (dst0 d) (fun r l => (r.w 0)[l] + i) s) s

/-- ISUB (R195). -/
def execIsub (g : Guard) (d : Dst) (a b : Src) (md : IntMode) (s : State) : Host.Outcome State Fault Refusal :=
  finish (runAlu g [srcI a, srcI b] d (fun r l => narrow md (intVal (isU md) (r.w 0)[l] - intVal (isU md) (r.w 1)[l])) s) s

/-- ISUB with an immediate (R195). -/
def execIsubI (g : Guard) (d a : Operand) (i : Word) (s : State) : Host.Outcome State Fault Refusal :=
  finish (runInt g [opSrc a] (dst0 d) (fun r l => (r.w 0)[l] - i) s) s

/-- IMUL (R195). -/
def execImul (g : Guard) (d : Dst) (a b : Src) (md : IntMode) (s : State) : Host.Outcome State Fault Refusal :=
  finish (runAlu g [srcI a, srcI b] d (fun r l => narrow md (intVal (isU md) (r.w 0)[l] * intVal (isU md) (r.w 1)[l])) s) s

/-- IMUL with an immediate (R195). -/
def execImulI (g : Guard) (d a : Operand) (i : Word) (s : State) : Host.Outcome State Fault Refusal :=
  finish (runInt g [opSrc a] (dst0 d) (fun r l => (r.w 0)[l] * i) s) s

/-- IMULH (R195). -/
def execImulh (g : Guard) (d : Dst) (a b : Src) (u : Bool) (s : State) : Host.Outcome State Fault Refusal :=
  finish (runInt g [srcI a, srcI b] d (fun r l => mulHigh u (r.w 0)[l] (r.w 1)[l]) s) s

/-- IMAD (R195). -/
def execImad (g : Guard) (d : Dst) (a b c : Src) (md : IntMode) (s : State) : Host.Outcome State Fault Refusal :=
  finish (runAlu g [srcI a, srcI b, srcI c] d (fun r l => narrow md (intVal (isU md) (r.w 0)[l] * intVal (isU md) (r.w 1)[l] + intVal (isU md) (r.w 2)[l])) s) s

/-- IDIV (R196). -/
def execIdiv (g : Guard) (d : Dst) (a b : Src) (u : Bool) (s : State) : Host.Outcome State Fault Refusal :=
  finish (runInt g [srcI a, srcI b] d (fun r l => quot u (r.w 0)[l] (r.w 1)[l]) s) s

/-- IREM (R196). -/
def execIrem (g : Guard) (d : Dst) (a b : Src) (u : Bool) (s : State) : Host.Outcome State Fault Refusal :=
  finish (runInt g [srcI a, srcI b] d (fun r l => remd u (r.w 0)[l] (r.w 1)[l]) s) s

/-- IMIN (R197). -/
def execImin (g : Guard) (d : Dst) (a b : Src) (u : Bool) (s : State) : Host.Outcome State Fault Refusal :=
  finish (runInt g [srcI a, srcI b] d (fun r l => minI u (r.w 0)[l] (r.w 1)[l]) s) s

/-- IMAX (R197). -/
def execImax (g : Guard) (d : Dst) (a b : Src) (u : Bool) (s : State) : Host.Outcome State Fault Refusal :=
  finish (runInt g [srcI a, srcI b] d (fun r l => maxI u (r.w 0)[l] (r.w 1)[l]) s) s

/-- IABS (R197). -/
def execIabs (g : Guard) (d : Dst) (a : Src) (sat : Bool) (s : State) : Host.Outcome State Fault Refusal :=
  finish (runAlu g [srcI a] d (fun r l => absI sat (r.w 0)[l]) s) s

/-- ISET (R198). -/
def execIset (g : Guard) (d : Dst) (a b : Src) (c : Cmp) (u : Bool) (s : State) : Host.Outcome State Fault Refusal :=
  finish (runInt g [srcI a, srcI b] d (fun r l => bit01 (cmpI c u (r.w 0)[l] (r.w 1)[l])) s) s

/-- LEA (R199). -/
def execLea (g : Guard) (d : Dst) (a b : Src) (sh : Fin 32) (s : State) : Host.Outcome State Fault Refusal :=
  finish (runInt g [srcI a, srcI b] d (fun r l => ((r.w 0)[l] <<< sh.val) + (r.w 1)[l]) s) s

/-- AND (R200). -/
def execAnd (g : Guard) (d : Dst) (a b : Src) (s : State) : Host.Outcome State Fault Refusal :=
  finish (runInt g [srcI a, srcI b] d (fun r l => (r.w 0)[l] &&& (r.w 1)[l]) s) s

/-- AND with an immediate (R200). -/
def execAndI (g : Guard) (d a : Operand) (i : Word) (s : State) : Host.Outcome State Fault Refusal :=
  finish (runInt g [opSrc a] (dst0 d) (fun r l => (r.w 0)[l] &&& i) s) s

/-- OR (R200). -/
def execOr (g : Guard) (d : Dst) (a b : Src) (s : State) : Host.Outcome State Fault Refusal :=
  finish (runInt g [srcI a, srcI b] d (fun r l => (r.w 0)[l] ||| (r.w 1)[l]) s) s

/-- OR with an immediate (R200). -/
def execOrI (g : Guard) (d a : Operand) (i : Word) (s : State) : Host.Outcome State Fault Refusal :=
  finish (runInt g [opSrc a] (dst0 d) (fun r l => (r.w 0)[l] ||| i) s) s

/-- XOR (R200). -/
def execXor (g : Guard) (d : Dst) (a b : Src) (s : State) : Host.Outcome State Fault Refusal :=
  finish (runInt g [srcI a, srcI b] d (fun r l => (r.w 0)[l] ^^^ (r.w 1)[l]) s) s

/-- XOR with an immediate (R200). -/
def execXorI (g : Guard) (d a : Operand) (i : Word) (s : State) : Host.Outcome State Fault Refusal :=
  finish (runInt g [opSrc a] (dst0 d) (fun r l => (r.w 0)[l] ^^^ i) s) s

/-- ANDN (R200). -/
def execAndn (g : Guard) (d : Dst) (a b : Src) (s : State) : Host.Outcome State Fault Refusal :=
  finish (runInt g [srcI a, srcI b] d (fun r l => (r.w 0)[l] &&& ~~~ (r.w 1)[l]) s) s

/-- ANDN with an immediate (R200). -/
def execAndnI (g : Guard) (d a : Operand) (i : Word) (s : State) : Host.Outcome State Fault Refusal :=
  finish (runInt g [opSrc a] (dst0 d) (fun r l => (r.w 0)[l] &&& ~~~ i) s) s

/-- LOP3 (R201). -/
def execLop3 (g : Guard) (d : Dst) (a b c : Src) (g0 g1 : BitVec 4) (s : State) : Host.Outcome State Fault Refusal :=
  finish (runInt g [srcI a, srcI b, srcI c] d (fun r l => lop3W g0 g1 (r.w 0)[l] (r.w 1)[l] (r.w 2)[l]) s) s

/-- SHL (R202). -/
def execShl (g : Guard) (d : Dst) (a b : Src) (s : State) : Host.Outcome State Fault Refusal :=
  finish (runInt g [srcI a, srcI b] d (fun r l => shlW (r.w 0)[l] (r.w 1)[l]) s) s

/-- SHL with an immediate (R202). -/
def execShlI (g : Guard) (d a : Operand) (i : Word) (s : State) : Host.Outcome State Fault Refusal :=
  finish (runInt g [opSrc a] (dst0 d) (fun r l => shlW (r.w 0)[l] i) s) s

/-- SHR (R202). -/
def execShr (g : Guard) (d : Dst) (a b : Src) (s : State) : Host.Outcome State Fault Refusal :=
  finish (runInt g [srcI a, srcI b] d (fun r l => shrW (r.w 0)[l] (r.w 1)[l]) s) s

/-- SHR with an immediate (R202). -/
def execShrI (g : Guard) (d a : Operand) (i : Word) (s : State) : Host.Outcome State Fault Refusal :=
  finish (runInt g [opSrc a] (dst0 d) (fun r l => shrW (r.w 0)[l] i) s) s

/-- SAR (R202). -/
def execSar (g : Guard) (d : Dst) (a b : Src) (s : State) : Host.Outcome State Fault Refusal :=
  finish (runInt g [srcI a, srcI b] d (fun r l => sarW (r.w 0)[l] (r.w 1)[l]) s) s

/-- SAR with an immediate (R202). -/
def execSarI (g : Guard) (d a : Operand) (i : Word) (s : State) : Host.Outcome State Fault Refusal :=
  finish (runInt g [opSrc a] (dst0 d) (fun r l => sarW (r.w 0)[l] i) s) s

/-- ROT (R202). -/
def execRot (g : Guard) (d : Dst) (a b : Src) (rr : Bool) (s : State) : Host.Outcome State Fault Refusal :=
  finish (runInt g [srcI a, srcI b] d (fun r l => rotW rr (r.w 0)[l] (r.w 1)[l]) s) s

/-- ROT with an immediate (R202). -/
def execRotI (g : Guard) (d a : Operand) (i : Word) (s : State) : Host.Outcome State Fault Refusal :=
  finish (runInt g [opSrc a] (dst0 d) (fun r l => rotW false (r.w 0)[l] i) s) s

/-- BFX (R203). -/
def execBfx (g : Guard) (d : Dst) (a f : Src) (sg : Bool) (s : State) : Host.Outcome State Fault Refusal :=
  finish (runInt g [srcI a, srcI f] d (fun r l => bfxW sg (r.w 0)[l] (r.w 1)[l]) s) s

/-- BFI (R203). -/
def execBfi (g : Guard) (d : Dst) (a b f : Src) (s : State) : Host.Outcome State Fault Refusal :=
  finish (runInt g [srcI a, srcI b, srcI f] d (fun r l => bfiW (r.w 0)[l] (r.w 1)[l] (r.w 2)[l]) s) s

/-- POPC (R204). -/
def execPopc (g : Guard) (d : Dst) (a : Src) (s : State) : Host.Outcome State Fault Refusal :=
  finish (runInt g [srcI a] d (fun r l => popcW (r.w 0)[l]) s) s

/-- CLZ (R204). -/
def execClz (g : Guard) (d : Dst) (a : Src) (s : State) : Host.Outcome State Fault Refusal :=
  finish (runInt g [srcI a] d (fun r l => clzW (r.w 0)[l]) s) s

/-- BREV (R204). -/
def execBrev (g : Guard) (d : Dst) (a : Src) (s : State) : Host.Outcome State Fault Refusal :=
  finish (runInt g [srcI a] d (fun r l => brevW (r.w 0)[l]) s) s

end Sys2Proof.Machine
end

