-- ==== Sys2Proof/Machine/MemInstr.lean ====
section
/-!
DEFINITION. Family 100, memory instructions: R261-R289.
-/

namespace Sys2Proof.Machine

/-! ### Sizes and addresses (R261-R263) -/

def ldBytes : LdSize → Nat
  | .u8 | .s8 => 1
  | .u16 | .s16 => 2
  | .b32 => 4
  | .b64 => 8
  | .b128 => 16

def ldRegs : LdSize → Nat
  | .b64 => 2
  | .b128 => 4
  | _ => 1

def stBytes : StSize → Nat
  | .b8 => 1
  | .b16 => 2
  | .b32 => 4
  | .b64 => 8
  | .b128 => 16

def stRegs : StSize → Nat
  | .b64 => 2
  | .b128 => 4
  | _ => 1

/-- Word `i` of what a load delivers. -/
def ldWord (sz : LdSize) (bs : List Byte) (i : Nat) : Word :=
  match sz with
  | .s8 => BitVec.ofInt 32 (sextN (leNat bs) 8)
  | .s16 => BitVec.ofInt 32 (sextN (leNat bs) 16)
  | _ => w32 (leNat ((bs.drop (4 * i)).take 4))

/-- The bytes a store takes from a group. -/
def stData (sz : StSize) (r : Rd) (l : Fin 32) : List Byte :=
  toLe (stBytes sz) ((r[0])[l].toNat + 2 ^ 32 * ((r[1])[l].toNat + 2 ^ 32 * ((r[2])[l].toNat + 2 ^ 32 * (r[3])[l].toNat)))

/-- A global base operand, and a lane's address (R261). -/
def baseSpec (o : Operand) : SrcSpec := { op := o, n := 2 }
def gAddr (r : Rd) (off : BitVec 20) (l : Fin 32) : DWord := Rd.pair r l + off.signExtend 64
def gAddr16 (r : Rd) (off : BitVec 16) (l : Fin 32) : DWord := Rd.pair r l + off.signExtend 64

/-- A buffer or constant-bank address (R262). -/
def bAddr (r : Rd) (off : BitVec 20) (l : Fin 32) : DWord := ((r[0])[l] + off.signExtend 32).setWidth 64
def bAddr16 (r : Rd) (off : BitVec 16) (l : Fin 32) : DWord := ((r[0])[l] + off.signExtend 32).setWidth 64

/-- One request per active lane. -/
def laneReqs (m : Mask) (n : Nat) (a : Fin 32 → DWord) : List Req := (lanesOf m).map fun l => ⟨one_ l, a l, n⟩

/-- One request for all active lanes. -/
def uniReq (m : Mask) (n : Nat) (a : DWord) : List Req := if m = 0 then [] else [⟨m, a, n⟩]

/-- The value of a lane out of a list in lane order. -/
def pickLane {α : Type} (m : Mask) (xs : List α) (d : α) (l : Fin 32) : α :=
  match ((lanesOf m).zip xs).find? fun p => p.1 == l with
  | some p => p.2
  | none => d

/-- The destinations of a load, from the bytes of each active lane. -/
def ldPuts (d : Dst) (sz : LdSize) (m : Mask) (bs : Fin 32 → List Byte) : List Put :=
  (List.range (ldRegs sz)).map fun i => ⟨nextReg d.op i, d.cc.val, m, tab fun l => ldWord sz (bs l) i⟩

/-- A family-100 instruction with an active lane waits for an acquire of the warp's other split that is under way (R265, R403),
and for room in the count (R161). -/
def memStart (g : Guard) (ops : List Operand) (s : State) : Except Stop Mask := do
  checkIssue g ops false s
  let m := s.active g
  if m = 0 then pure m else do
    stallIf (s.curWarp.acquiring s.cur.split)
    opRoom s
    pure m

/-- R161: the instruction counts as outstanding until it completes. -/
def counted (m : Mask) (afterOut read : Bool) (s : State) : State := if m = 0 then s else addOp afterOut read s

/-- The same for a store, with the release that it makes when it completes. -/
def countedRel (m : Mask) (afterOut : Bool) (rel : Option Scope) (s : State) : State :=
  if m = 0 then s else addOpRel afterOut false rel s

/-! ### Loads (R270, R271, R272) -/

/-- LD. -/
def execLd (g : Guard) (d : Dst) (sz : LdSize) (acq : Option Scope) (base : Operand) (off : BitVec 20) (s : State) :
    Host.Outcome State Fault Refusal :=
  finish (do
    let m ← memStart g [d.op, base] s
    let r ← readAll g [baseSpec base] s
    destCheck r (ldPuts d sz m fun _ => []) s
    let (bs, s1) ← loadGlobal r.st acq true (laneReqs m (ldBytes sz) (gAddr (r.at 0) off))
    let t ← commit { r with st := s1 } (ldPuts d sz m (pickLane m bs [])) s
    pure (counted m false true t)) s

/-- LDS: one access for the warp. -/
def execLds (g : Guard) (d : Operand) (sz : LdSize) (acq : Option Scope) (base : Operand) (off : BitVec 20) (s : State) :
    Host.Outcome State Fault Refusal :=
  finish (do
    let m ← memStart g [d, base] s
    let r ← readAll g [{ baseSpec base with uni := true }] s
    destCheck r (ldPuts (dst0 d) sz m fun _ => []) s
    let a := gAddr (r.at 0) off ((lowest m).getD 0)
    let (bs, s1) ← loadGlobal r.st acq true (uniReq m (ldBytes sz) a)
    let t ← commit { r with st := s1 } (ldPuts (dst0 d) sz m fun _ => bs.head?.getD []) s
    pure (counted m false true t)) s

/-- LDC: the constant bank has no order and never races. -/
def execLdc (g : Guard) (d : Dst) (sz : LdSize) (base : Src) (off : BitVec 20) (s : State) :
    Host.Outcome State Fault Refusal :=
  finish (do
    let m ← memStart g [d.op, base.op] s
    let r ← readAll g [srcI base] s
    destCheck r (ldPuts d sz m fun _ => []) s
    let rs := laneReqs m (ldBytes sz) (bAddr (r.at 0) off)
    failWith s Kind.misaligned false (misalignedOf rs)
    failWith s Kind.bufferBound false ((rs.filter fun q => decide (65536 < q.va.toNat + q.n)).map fun q => (q, 0))
    let bank := s.curLaunch.bank
    let t ← commit r (ldPuts d sz m fun l => bank.readN (bAddr (r.at 0) off l).toNat (ldBytes sz)) s
    pure (counted m false true t)) s

/-- LDB. -/
def execLdb (g : Guard) (d : Dst) (sz : LdSize) (buf : Buf) (base : Src) (off : BitVec 20) (s : State) :
    Host.Outcome State Fault Refusal :=
  finish (do
    let m ← memStart g [d.op, base.op] s
    let r ← readAll g [srcI base] s
    destCheck r (ldPuts d sz m fun _ => []) s
    let (bs, s1) ← loadBuf r.st (buf == .cbuf) true (laneReqs m (ldBytes sz) (bAddr (r.at 0) off))
    let t ← commit { r with st := s1 } (ldPuts d sz m (pickLane m bs [])) s
    pure (counted m false true t)) s

/-- A fault of a uniform access is reported at its own address. -/
def atAddr {α : Type} (a : DWord) (x : Except Stop α) : Except Stop α :=
  match x with
  | .error (.trap q) => .error (.trap { q with va := a })
  | y => y

/-- LDBQ (R272). -/
def execLdbq (g : Guard) (d : Dst) (c8 hi strict abuf : Bool) (rm : Rm) (base : Src) (off : BitVec 20) (s : State) :
    Host.Outcome State Fault Refusal :=
  finish (do
    let m ← memStart g [d.op, base.op] s
    let spec : SrcSpec := if abuf then srcU base else { baseSpec base.op with uni := true }
    let r ← readAll g [spec] s
    destCheck r [putOf d m (splat 0)] s
    let l0 := (lowest m).getD 0
    let a := if abuf then bAddr (r.at 0) off l0 else gAddr (r.at 0) off l0
    let n := blkBytes c8
    let (bs, s1) ← atAddr a (if abuf then loadBuf r.st false false (uniReq m n a)
      else loadGlobal r.st none false (if m = 0 then [] else (List.range n).map fun i => ⟨m, a + w64 i, 1⟩))
    let bytes := bs.flatMap id
    let (es, bad) := decodeBlock c8 ((bytes[0]?.getD 0).toNat) ((bytes[1]?.getD 0).toNat) (bytes.drop 2)
    let bad := bad && m != 0
    trapIf s Kind.blockFormat (if bad && strict then m else 0)
    let v := tab fun l => toF32 rm (es[2 * l.val + hi.toNat]?.getD (.fin false 0 0))
    let t ← commit { r with st := s1 } [putOf d m (tab fun l => (v[l]).1)] s
    pure (counted m false true
      (if m = 0 then t else setFlags ((flagsOn m fun l => (v[l]).2).or { fmterr := bad }) t))) s

/-! ### Stores (R271, R273, R274) -/

/-- A store's data operand. -/
def dataSpec (a : Src) (sz : StSize) : SrcSpec := { op := a.op, hold := a.hold, n := stRegs sz }

/-- ST. -/
def execSt (g : Guard) (a : Src) (sz : StSize) (rel : Option Scope) (base : Operand) (off : BitVec 20) (s : State) :
    Host.Outcome State Fault Refusal :=
  finish (do
    let m ← memStart g [a.op, base] s
    let r ← readAll g [baseSpec base, dataSpec a sz] s
    destCheck r [] s
    let s1 ← storeGlobal r.st rel (laneReqs m (stBytes sz) (gAddr (r.at 0) off))
      ((lanesOf m).map fun l => stData sz (r.at 1) l)
    let t ← commit { r with st := s1 } [] s
    pure (countedRel m (rel.any fun x => decide (3 ≤ scopeNo x)) (laterRel s rel) t)) s

/-- STNT. -/
def execStnt (g : Guard) (a : Src) (sz : StSize) (base : Operand) (off : BitVec 20) (s : State) :
    Host.Outcome State Fault Refusal :=
  finish (do
    let m ← memStart g [a.op, base] s
    let r ← readAll g [baseSpec base, dataSpec a sz] s
    destCheck r [] s
    let rs := laneReqs m (stBytes sz) (gAddr (r.at 0) off)
    let (gs, s1) ← globalCheck r.st .write false true rs
    let items := (gs.zip ((lanesOf m).map fun l => stData sz (r.at 1) l)).map fun p =>
      (⟨s.cur.blk, s.cur.warp, p.1.pa, p.1.req.va, at_ p.1.pa p.2, s.instant⟩ : NtItem)
    let s2 := s1.updBody s.curCore fun k => { k with nt := k.nt ++ items }
    let t ← commit { r with st := wrote s2 } [] s
    pure (counted m false false t)) s

/-- The races and the room of a drain by the issuing warp. -/
def drainCheck (pick : Nat → Bool) (m : Mask) (s : State) : Except Stop Unit := do
  match drainRace pick s s.cur.blk s.cur.warp with
  | some (va, x) => failRace s true [(⟨m, va, 4⟩, va, x)]
  | none => pure ()
  let n := ((ntOf pick s s.curCore s.cur.blk s.cur.warp).map fun x => x.bytes.length).foldl (· + ·) 0
  stallIf (s.curLaunch.lagers && n != 0 && !lagerRoom s s.curCore n)

/-- DRAINNT. -/
def execDrainnt (g : Guard) (s : State) : Host.Outcome State Fault Refusal :=
  finish (do
    let m ← memStart g [] s
    if m = 0 then pure s else do
      drainCheck anyPa m s
      pure (counted m false false (drainOf s s.cur.blk s.cur.warp))) s

/-- STB. -/
def execStb (g : Guard) (a : Src) (sz : StSize) (buf : Buf) (base : Src) (off : BitVec 20) (s : State) :
    Host.Outcome State Fault Refusal :=
  finish (do
    let m ← memStart g [a.op, base.op] s
    let r ← readAll g [srcI base, dataSpec a sz] s
    destCheck r [] s
    let s1 ← storeBuf r.st (buf == .cbuf) (laneReqs m (stBytes sz) (bAddr (r.at 0) off))
      ((lanesOf m).map fun l => stData sz (r.at 1) l)
    let t ← commit { r with st := s1 } [] s
    pure (counted m false false t)) s

/-! ### Atomics (R275-R282) -/

/-- The old values written by the lanes that have them. -/
def oldPut (d : Dst) (olds : List (Fin 32 × Word)) : Put :=
  ⟨d.op, d.cc.val, maskOf fun l => olds.any fun p => p.1 == l,
   tab fun l => match olds.find? fun p => p.1 == l with
     | some p => p.2
     | none => 0⟩

/-- The number the warp's next operation gets. -/
def State.nextOp (s : State) : Nat := s.curWarp.ord.opCtr

/-- The split waits for old values that come back later, and for the acquire that is made then (R278, R276). -/
def waitAtomic (num : Nat) (d : Late) (acq : Option Scope) (s : State) : State :=
  s.updSplit fun sp => { sp with wait := .atomic num d acq }

/-- The destination of an atomic in all its lanes, those whose old values come back later at 0 until then. -/
def atomPut (d : Dst) (m : Mask) (olds : List (Fin 32 × Word)) : Put := putOf d m (oldPut d olds).val

/-- Lanes of an atomic grouped by the word they name. -/
def byWord {α : Type} (key : α → Nat) (xs : List α) : List (Nat × List α) :=
  ((xs.map key).eraseDups).map fun k => (k, xs.filter fun x => key x == k)

/-- Sends atomics on host memory out with the lager buffer, one item per word; the last carries the release. -/
def emitHost (op : Option AtomOp) (ls : List AtomLane) (sc : Scope) (rel : Option Scope) (d : Option Dst) (num : Nat)
    (s : State) : State :=
  let groups := byWord (fun x : AtomLane => x.got.pa) ls
  groups.zipIdx.foldl (fun t p =>
    let xs := p.1.2.map fun x => (x.lane, x.cmp, x.x)
    let va := (p.1.2.head?.map fun x => x.got.req.va).getD 0
    emit s.curLaunch.lagers s.curCore
      (s.outItem (.hostAtom p.1.1 op xs num d) (if p.2 + 1 = groups.length then rel else none) (some sc) va) t) s

/-- The lanes of a global atomic. -/
def atomLanes (m : Mask) (gs : List Got) (cmp x : Fin 32 → Word) : List AtomLane :=
  ((lanesOf m).zip gs).map fun p => ⟨p.2, p.1, cmp p.1, x p.1⟩

/-- A returning atomic on global memory, after the operands are read (R278, R280, R281). -/
def atomGlobal (s : State) (r : Reading) (m : Mask) (d : Dst) (op : Option AtomOp) (sc : Scope) (od : AOrder)
    (addr : Fin 32 → DWord) (cmp x : Fin 32 → Word) : Res := do
  destCheck r [putOf d m (splat 0)] s
  let rs := laneReqs m 4 addr
  let (gs, s1) ← globalCheck r.st .write true true rs
  let ls := atomLanes m gs cmp x
  let pick (w : AtomAt) := ls.filter fun y => atomAt s y.got.pa sc == w
  let home := pick .home
  let hgs := home.map fun y => y.got
  let rel := relOf od sc
  let wide := (ls.filter fun y => atomAt s y.got.pa sc != .l1).map fun y => y.got
  if ntOn s wide then do
    drainCheck (onWords wide) m s
    .error (.again (drainPart (onWords wide) s s.cur.blk s.cur.warp))
  stallFrom s (!home.isEmpty && atomWaits s rel.isSome hgs)
  stallIf (!home.isEmpty && atomStarves s hgs)
  stallIf (!ls.isEmpty && (opsWait s rel || (!(pick .l1).isEmpty && warpPending s fun o => o.kind.isLateAtom)))
  stallIf (ls.any fun y => quarantined s s.curCore y.got.pa)
  let a : Acc := ⟨s.who, s.instant, true, some sc⟩
  failRace s true (ls.filterMap fun y =>
    (raceOf s a y.got none (atomAt s y.got.pa sc == .home)).map fun z => (y.got.req, z.1, z.2))
  stallIf (s.curLaunch.lagers && home.length != ls.length && !lagerRoom s s.curCore (4 * ls.length))
  let num := s.nextOp
  let l1 := pick .l1
  let host := pick .host
  let va := (rs.head?.map fun q => q.va).getD 0
  match if home.isEmpty then some ([], s1) else atomHome s1 op home sc with
  | none => .error (.again (atomNote s op home))
  | some (olds1, s2) => do
    let (olds2, s3) := if l1.isEmpty then ([], s2) else atomL1 s2 op l1 sc va
    -- with lanes on host memory the release is made when the last of them is performed, and the acquire when it returns
    let s4 := if host.isEmpty then s3 else emitHost op host sc rel (some d) num s3
    let s5 := if m = 0 ∨ !host.isEmpty then s4 else acquireNow (acqOf od sc) (releaseDone rel s4)
    let q := atomPut d m (olds1 ++ olds2)
    let t ← commit { r with st := if m = 0 then s5 else wrote s5 } [q] s
    let t := counted m false true t
    pure (if host.isEmpty then t else waitAtomic num (lateOf s q) (acqOf od sc) t)

/-- A returning atomic on a typed buffer: on the core at once, through a window to another core by the lager buffer. -/
def atomBuffer (s : State) (r : Reading) (m : Mask) (d : Dst) (c : Bool) (op : Option AtomOp) (sc : Scope) (od : AOrder)
    (addr : Fin 32 → DWord) (cmp x : Fin 32 → Word) : Res := do
  destCheck r [putOf d m (splat 0)] s
  let rs := laneReqs m 4 addr
  let gs ← bufCheck r.st c true true true rs
  let a : Acc := ⟨s.who, s.instant, true, some sc⟩
  failRace s true (gs.filterMap fun y => (bufRace s c a y).map fun z => (y.req, z.1, z.2))
  let all := ((lanesOf m).zip gs).map fun p => (p.2, p.1, cmp p.1, x p.1)
  let here := all.filter fun y => s.onCore y.1.blk
  let far := all.filter fun y => !s.onCore y.1.blk
  let rel := relOf od sc
  stallIf (m != 0 && (opsWait s rel || (!here.isEmpty && warpPending s fun o => o.kind.isLateAtom)))
  stallFrom s (m != 0 && far.isEmpty && rel.any (fun y => decide (3 ≤ scopeNo y)) && earlierOut s)
  stallIf (s.curLaunch.lagers && !far.isEmpty && !lagerRoom s s.curCore (4 * far.length))
  let num := s.nextOp
  let (olds, s1) := atomBuf r.st c op sc here
  let groups := byWord (fun y : BGot × Fin 32 × Word × Word => y.1.blk * 2 ^ 20 + y.1.off) far
  let s2 := groups.zipIdx.foldl (fun t p =>
    emit s.curLaunch.lagers s.curCore (s.outItem (.windowAtom (p.1.1 / 2 ^ 20) c (p.1.1 % 2 ^ 20) op
      (p.1.2.map fun y => (y.2.1, y.2.2.1, y.2.2.2)) sc num (some d))
      (if p.2 + 1 = groups.length then rel else none) (some sc)
      ((p.1.2.head?.map fun y => y.1.req.va).getD 0)) t) s1
  let s3 := if m = 0 ∨ !far.isEmpty then s2 else acquireNow (acqOf od sc) (releaseDone rel s2)
  let q := atomPut d m olds
  let t ← commit { r with st := if m = 0 then s3 else wrote s3 } [q] s
  let t := counted m false true t
  pure (if far.isEmpty then t else waitAtomic num (lateOf s q) (acqOf od sc) t)

/-- ATOM. -/
def execAtom (g : Guard) (d : Dst) (hold : Bool) (op : AtomOp) (sc : Scope) (od : AOrder) (base : Operand)
    (off : BitVec 16) (s : State) : Host.Outcome State Fault Refusal :=
  finish (do
    let m ← memStart g [d.op, base] s
    let r ← readAll g [baseSpec base, { op := d.op, hold := hold }] s
    atomGlobal s r m d (some op) sc od (gAddr16 (r.at 0) off) (fun _ => 0) (fun l => (r.w 1)[l])) s

/-- ATOMC. -/
def execAtomc (g : Guard) (d : Dst) (a cmp x : Src) (sc : Scope) (od : AOrder) (sp : ASpace) (s : State) :
    Host.Outcome State Fault Refusal :=
  finish (do
    let m ← memStart g [d.op, a.op, cmp.op, x.op] s
    let sa : SrcSpec := match sp with
      | .global => baseSpec a.op
      | _ => srcI a
    let r ← readAll g [sa, srcI cmp, srcI x] s
    match sp with
    | .global => atomGlobal s r m d none sc od (gAddr16 (r.at 0) 0) (fun l => (r.w 1)[l]) (fun l => (r.w 2)[l])
    | _ =>
      atomBuffer s r m d (sp == .cbuf) none sc od (bAddr16 (r.at 0) 0) (fun l => (r.w 1)[l]) (fun l => (r.w 2)[l])) s

/-- BATOM. -/
def execBatom (g : Guard) (d : Dst) (hold : Bool) (op : AtomOp) (sc : Scope) (od : AOrder) (buf : Buf) (base : Src)
    (off : BitVec 16) (s : State) : Host.Outcome State Fault Refusal :=
  finish (do
    let m ← memStart g [d.op, base.op] s
    let r ← readAll g [srcI base, { op := d.op, hold := hold }] s
    atomBuffer s r m d (buf == .cbuf) (some op) sc od (bAddr16 (r.at 0) off) (fun _ => 0) (fun l => (r.w 1)[l])) s

/-- Sends `RED`s out with the lager buffer, one item per word; the last carries the release. -/
def emitRed (op : AtomOp) (ls : List AtomLane) (sc : Scope) (rel : Option Scope) (s : State) : State :=
  let groups := byWord (fun x : AtomLane => x.got.pa) ls
  groups.zipIdx.foldl (fun t p =>
    let va := (p.1.2.head?.map fun x => x.got.req.va).getD 0
    emit s.curLaunch.lagers s.curCore
      (s.outItem (.red p.1.1 op (p.1.2.map fun x => x.x) sc)
        (if p.2 + 1 = groups.length then rel else none) (some sc) va) t) s

/-- The accesses of a RED once its operands are read: at `.wrp` and `.blk` in this core's L1 as a store, wider at its home at
once, on host memory by the host (R278). A release that earlier output holds back goes out behind that output, and the warp
goes on (R265, log 138); so does a `RED` that races, which is found as it leaves (R419). -/
def redGlobal (s s0 : State) (m : Mask) (op : AtomOp) (sc : Scope) (rel : Bool) (rs : List Req) (x : Fin 32 → Word) :
    Except Stop State := do
  let (gs, s1) ← globalCheck s0 .write true true rs
  let ls := atomLanes m gs (fun _ => 0) x
  let relS := if rel then some sc else none
  let pick (w : AtomAt) := ls.filter fun y => atomAt s y.got.pa sc == w
  let wideGots := ((pick .home) ++ (pick .host)).map fun y => y.got
  if ntOn s wideGots then do
    drainCheck (onWords wideGots) m s
    .error (.again (drainPart (onWords wideGots) s s.cur.blk s.cur.warp))
  let ac : Acc := ⟨s.who, s.instant, true, some sc⟩
  failRace s true (ls.filterMap fun y => (raceOf s ac y.got none false).map fun z => (y.got.req, z.1, z.2))
  let held := (rel && (earlierOut s || opsWait s relS)) || (pick .home).any fun y => (raceOf s ac y.got none true).isSome
  let atOnce := if held then [] else pick .home
  let later := if held then pick .home else []
  let gots := atOnce.map fun y => y.got
  stallFrom s (!atOnce.isEmpty && atomWaits s false gots)
  stallIf (!atOnce.isEmpty && atomStarves s gots)
  stallIf (!(pick .l1).isEmpty && (opsWait s relS || warpPending s fun o => o.kind.isLateAtom))
  stallIf (ls.any fun y => quarantined s s.curCore y.got.pa)
  stallIf (s.curLaunch.lagers && atOnce.length != ls.length && !lagerRoom s s.curCore (4 * (ls.length - atOnce.length)))
  let va := (rs.head?.map fun q => q.va).getD 0
  match if atOnce.isEmpty then some ([], s1) else atomHome s1 (some op) atOnce sc with
  | none => .error (.again (atomNote s (some op) atOnce))
  | some (_, s2) =>
    let s3 := if (pick .l1).isEmpty then s2 else (atomL1 s2 (some op) (pick .l1) sc va).2
    let s4 := emitRed op later sc (if (pick .host).isEmpty then relS else none) s3
    let s5 := emitHost (some op) (pick .host) sc relS none s.nextOp s4
    pure (if m = 0 then s5 else wrote (if later.isEmpty && (pick .host).isEmpty then releaseDone relS s5 else s5))

/-- RED. -/
def execRed (g : Guard) (a : Src) (op : AtomOp) (sc : Scope) (rel : Bool) (base : Operand) (off : BitVec 16) (s : State) :
    Host.Outcome State Fault Refusal :=
  finish (do
    let m ← memStart g [a.op, base] s
    let r ← readAll g [baseSpec base, { op := a.op, hold := a.hold, imm := if op = .fadd then .f32 else .int }] s
    destCheck r [] s
    let s1 ← redGlobal s r.st m op sc rel (laneReqs m 4 (gAddr16 (r.at 0) off)) (fun l => (r.w 1)[l])
    let t ← commit { r with st := s1 } [] s
    pure (counted m false false t)) s

/-! ### Prefetch and cache control (R283, R284) -/

/-- Brings a line into the L1 quietly. -/
def prefL1 (va : DWord) (s : State) : State :=
  let la := s.curLaunch
  match translate s (.core s.curCore) la.desc.asid la.desc.world .read va with
  | .error _ => s
  | .ok (pa, l, s1) =>
    if l.cache != 0 || anyPoison s (pa / 64 * 64) 64 || (l1Line s s.curCore pa).isSome || quarantined s s.curCore pa then s1
    else fillL1 s.curCore (pa / 64) s1

/-- PREF: no fault of its access; the L2 and the Vat are invisible (R228), so only `.l1` changes what the model holds. -/
def execPref (g : Guard) (lv : PrefLevel) (base : Operand) (off : BitVec 20) (s : State) :
    Host.Outcome State Fault Refusal :=
  finish (do
    let m ← memStart g [base] s
    let r ← readAll g [baseSpec base] s
    let t ← commit r [] s
    pure (match lv with
      | .l1 => (lanesOf m).foldl (fun t l => prefL1 (gAddr (r.at 0) off l) t) t
      | _ => t)) s

/-- The stores of the warp to some line that have not left the core. -/
def lagersLine (s : State) (line : Nat) : Bool :=
  (s.core s.curCore).lager.any fun o =>
    o.blk == s.cur.blk && o.warp == s.cur.warp && (itemWords o.kind).any fun w => w / 16 == line

/-- CCTL with an address. -/
def execCctl (g : Guard) (op : CctlOp) (base : Operand) (off : BitVec 20) (s : State) :
    Host.Outcome State Fault Refusal :=
  finish (do
    let m ← memStart g [base] s
    let r ← readAll g [baseSpec base] s
    destCheck r [] s
    let la := s.curLaunch
    let (gs, bad, s1) := xlateAll r.st (.core s.curCore) la.desc.asid la.desc.world .read
      (laneReqs m 1 (gAddr (r.at 0) off))
    failWith s Kind.translation false bad
    stallIf (match op with
      | .il1 => false
      | _ => gs.any fun x => lagersLine s (x.pa / 64))
    let drop (k : CoreState) : CoreState := { k with l1 := k.l1.filter fun c => !(gs.any fun x => x.pa / 64 == c.line) }
    let s2 := match op with
      | .il1 => s1.updCore s.curCore drop
      | .wb => s1
      | .wbi => { s1 with cores := AMap.mapVals s1.cores fun _ k => drop k }
    let t ← commit { r with st := s2 } [] s
    pure (counted m false false t)) s

/-- CCTL.il1all. -/
def execCctlIl1all (g : Guard) (s : State) : Host.Outcome State Fault Refusal :=
  finish (do
    let m ← memStart g [] s
    pure (counted m false false (if m = 0 then s else s.updCore s.curCore fun k => { k with l1 := [] }))) s

/-! ### Streams (R285-R289) -/

/-- A stream descriptor out of its 64 bytes; none where it is not valid. -/
def parseStream (bs : List Byte) : Option StreamDesc :=
  let x := leNat bs
  let rank := nbits x 67 2 + 1
  let esize := nbits x 69 3
  let space := nbits x 64 2
  let base := nbits x 0 64
  let counts : Vector Nat 4 := Vector.ofFn fun i : Fin 4 => nbits x (256 + 16 * i.val) 16
  let strides : Vector Word 4 := Vector.ofFn fun i : Fin 4 => w32 (nbits x (320 + 32 * i.val) 32)
  let ls := nbits x 448 32
  let n := elemBytes esize
  let dims : Bool := (List.range 4).all fun i =>
    let c := counts[i]?.getD 0
    let st := (strides[i]?.getD 0).toNat
    if i < rank then decide (1 ≤ c) && st % n == 0 else c == 1 && st == 0
  if nbits x 480 32 = 0 ∧ nbits x 72 184 = 0 ∧ nbits x 66 1 = 0 ∧ esize ≤ 4 ∧ space ≤ 2 ∧ dims ∧
      base % n = 0 ∧ ls % n = 0 ∧ (space = 0 ∨ base < 2 ^ 32) then
    some { base := w64 base, space, esize, rank, counts, strides, laneStride := w32 ls }
  else none

/-- A binding at its start. -/
def Stream.bind (d : StreamDesc) (sel : Vector (BitVec 3) 4) : Stream :=
  { desc := d, idx := Vector.replicate 4 0, sel, exhausted := false, delivered := 0, ahead := [] }

/-- STREAM (R288). -/
def execStream (g : Guard) (z : Fin 8) (desc : Operand) (pd : Vector (BitVec 3) 4) (s : State) :
    Host.Outcome State Fault Refusal :=
  finish (do
    let m ← memStart g [desc] s
    let r ← readAll g [opU desc] s
    destCheck r [] s
    let a : DWord := (uval m (r.w 0)).setWidth 64
    let rs := uniReq m 64 a
    failWith s Kind.misaligned false (misalignedOf rs)
    failWith s Kind.bufferBound false ((rs.filter fun q => decide (2 ^ 20 ≤ q.va.toNat)).map fun q => (q, 0))
    let (bs, s1) ← loadBuf r.st false true rs
    if m = 0 then commit { r with st := s1 } [] s else
    match parseStream (bs.head?.getD []) with
    | none => .error (.trap { s.trapReq Kind.descriptor m with va := a })
    | some d => do
      let t ← commit { r with st := s1 } [] s
      pure (counted m false true (t.updReg fun x => { x with z := x.z.set z (some (Stream.bind d pd)) }))) s

/-- The word of STRMQ. -/
def strmWord (z : Option Stream) : Word :=
  match z with
  | none => 0
  | some x => w32 (2 ^ 31 + x.exhausted.toNat * 2 ^ 30 + min x.delivered (2 ^ 30 - 1))

/-- STRMQ (R289): naming the z register neither reads nor advances it. -/
def execStrmq (g : Guard) (d : Operand) (z : Fin 8) (s : State) : Host.Outcome State Fault Refusal :=
  finish (do
    let m ← memStart g [d] s
    let r ← readAll g [] s
    let t ← commit r [⟨d, 0, m, splat (strmWord s.curWarp.reg.z[z])⟩] s
    pure (counted m false false t)) s

/-- STRMEND (R289). -/
def execStrmend (g : Guard) (z : Fin 8) (s : State) : Host.Outcome State Fault Refusal :=
  finish (do
    let m ← memStart g [] s
    pure (counted m false false
      (if m = 0 then s else s.updReg fun x => { x with z := x.z.set z none }))) s

end Sys2Proof.Machine
end

