-- ==== Sys2Proof/Machine/Control.lean ====
section
/-!
DEFINITION. Family 111, control instructions: R179-R189.
-/

namespace Sys2Proof.Machine

/-! ### Transfers (R116, R117, R175) -/

/-- The lanes of the current split that run inside the serial region: the running lane, while its clause lies in the
region (R175). -/
def State.inRegion (s : State) : Mask :=
  match s.curWarp.serial with
  | none => 0
  | some r =>
    let h := s.curSplit.hdr
    if r.first ≤ h ∧ h ≤ r.last then one_ r.lane &&& s.curSplit.lanes else 0

/-- Lanes of `m` inside the region whose target lies outside it (R175). -/
def leavesRegion (s : State) (m : Mask) (t : Lanes Int) : Mask :=
  match s.curWarp.serial with
  | none => 0
  | some r => m &&& s.inRegion &&& maskOf fun l => decide (t[l] < r.first) || decide ((r.last : Int) < t[l])

/-- Lanes of `m` whose target R117 does not mark. -/
def badTargets (s : State) (m : Mask) (t : Lanes Int) : Mask :=
  m &&& maskOf fun l => decide (t[l] < 0) || !isHeader s.curLaunch (t[l]).toNat

/-- The checks of a transfer of lanes `m`. -/
def checkJump (s : State) (m : Mask) (t : Lanes Int) : Except Stop Unit := do
  trapIf s Kind.targetAlign (badTargets s m t)
  trapIf s Kind.serialRegion (leavesRegion s m t)

/-- The transfer itself. -/
def jumpTo (m : Mask) (t : Lanes Int) (s : State) : State := jumpLanes m (fun l => (t[l]).toNat) s

/-- A direct target (R129), one for all lanes; one that is no header faults for the whole split (R134, R135). -/
def directTarget (s : State) (target : Word) : Int := s.curSplit.hdr + 8 * target.toInt

def checkDirect (s : State) (target : Word) : Except Stop Unit :=
  let t := directTarget s target
  trapIf s Kind.targetAlign (if t < 0 ∨ !isHeader s.curLaunch t.toNat then s.members else 0)

/-- The same target in each lane, and the targets that a register names. -/
def sameTarget (s : State) (target : Word) : Lanes Int := Vector.replicate 32 (directTarget s target)
def regTargets (r : Reading) : Lanes Int := tab fun l => ((r.w 0)[l].toNat : Int)

/-- BRA. -/
def execBra (g : Guard) (target : Word) (s : State) : Host.Outcome State Fault Refusal :=
  finish (do
    checkEncoding g [] false s
    checkDirect s target
    checkState g [] s
    let m := s.active g
    checkJump s m (sameTarget s target)
    pure (jumpTo m (sameTarget s target) s)) s

/-- An indirect transfer, with the operand's reads. -/
def runIndirect (g : Guard) (a : Operand) (s : State) : Res := do
  checkIssue g [a] false s
  let m := s.active g
  let r ← readAll g [opSrc a] s
  checkJump s m (regTargets r)
  let t ← commit r [] s
  pure (jumpTo m (regTargets r) t)

/-- BRX. -/
def execBrx (g : Guard) (a : Operand) (s : State) : Host.Outcome State Fault Refusal := finish (runIndirect g a s) s

/-- RET has the effect of BRX (R180). -/
def execRet (g : Guard) (a : Operand) (s : State) : Host.Outcome State Fault Refusal := finish (runIndirect g a s) s

/-- The return offset, a code offset (R181). -/
def returnOffset (s : State) : Word := w32 (nextClause s.curSplit.hdr s.header)

/-- The link register's write. -/
def linkPut (s : State) (link : Operand) (m : Mask) : Put := ⟨link, 0, m, splat (returnOffset s)⟩

/-- CALL with a direct target. -/
def execCall (g : Guard) (link : Operand) (target : Word) (s : State) : Host.Outcome State Fault Refusal :=
  finish (do
    stallIf (s.curWarp.awaits link)
    checkEncoding g [link] false s
    checkDirect s target
    checkState g [link] s
    let m := s.active g
    checkJump s m (sameTarget s target)
    let r ← readAll g [] s
    let t ← commit r [linkPut s link m] s
    pure (jumpTo m (sameTarget s target) t)) s

/-- CALL through a register. -/
def execCallIndirect (g : Guard) (link : Operand) (a : Operand) (s : State) : Host.Outcome State Fault Refusal :=
  finish (do
    checkIssue g [link, a] false s
    let m := s.active g
    let r ← readAll g [opSrc a] s
    checkJump s m (regTargets r)
    let t ← commit r [linkPut s link m] s
    pure (jumpTo m (regTargets r) t)) s

/-- EXIT: the exit of the last live lane drains the warp's non-temporal stores first (R477), so that a race of the drain
is precise at this instruction; one that ends the warp waits for room for its slots (R149, R478). -/
def execExit (g : Guard) (s : State) : Host.Outcome State Fault Refusal :=
  finish (do
    checkIssue g [] false s
    let m := s.active g
    if m != 0 && (s.curWarp.lane.live &&& ~~~ m) == 0 then do
      drainCheck anyPa m s
      stallIf (s.curWarp.refill.isNone && retireStalls s s.cur.blk s.cur.warp)
    pure (exitLanes s.cur.blk s.cur.warp m s)) s

/-! ### Melding (R172, R183, R184) -/

/-- The lanes enter the region. -/
def enterMeld (m p : Mask) (t : Bool) (l : LaneState) : LaneState :=
  { l with
    inMeld := l.inMeld ||| m
    path := (l.path &&& ~~~ m) ||| (m &&& p)
    table := if t then l.table ||| m else l.table &&& ~~~ m }

/-- MELD. -/
def execMeld (g : Guard) (p : Fin 8) (t : Bool) (s : State) : Host.Outcome State Fault Refusal :=
  finish (do
    checkIssue g [] true s
    let pm : Mask := if h : p.val < 7 then s.curWarp.reg.p[p.val] else 0xFFFFFFFF#32
    pure (s.updLane (enterMeld s.issuing pm t))) s

/-- MELDE. -/
def execMelde (g : Guard) (s : State) : Host.Outcome State Fault Refusal :=
  finish (do
    checkIssue g [] true s
    pure (s.updLane fun l => { l with inMeld := l.inMeld &&& ~~~ s.issuing })) s

/-- The row of a table and a path. -/
def renRow (t path : Bool) : Nat := 2 * t.toNat + path.toNat

/-- Sets consecutive entries. -/
def setEntries (row first : Nat) (names : List (Fin 256)) (r : Regs) : Regs :=
  { r with ren := vmod r.ren row fun e =>
      (names.zipIdx).foldl (fun e x => e.setIfInBounds (first + x.2) (some x.1)) e }

/-- RNSET: the fields name registers and are not read. -/
def execRnset (g : Guard) (t path : Bool) (first : Fin 16) (va : Fin 256) (vb vc : Option (Fin 256)) (s : State) :
    Host.Outcome State Fault Refusal :=
  finish (do
    checkIssue g [] false s
    let names := va :: (match vb with
      | none => []
      | some b => b :: vc.toList)
    pure (if s.active g = 0 then s else s.updReg (setEntries (renRow t path) first.val names))) s

/-- RNSET.clr. -/
def execRnsetClr (g : Guard) (t : Bool) (s : State) : Host.Outcome State Fault Refusal :=
  finish (do
    checkIssue g [] false s
    pure (if s.active g = 0 then s else s.updReg fun r =>
      { r with ren := vmod (vmod r.ren (renRow t false) fun _ => Vector.replicate 16 none) (renRow t true) fun _ =>
          Vector.replicate 16 none })) s

/-! ### Serial regions (R175, R185) -/

/-- Starts the region: every lane of the split waits, and the lowest runs. -/
def Warp.startSerial (w : Warp) (m : Mask) (first last : Nat) : Warp :=
  match lowest m with
  | none => w
  | some l =>
    let lane := { w.lane with inSerial := w.lane.inSerial ||| m, serWait := w.lane.serWait ||| (m &&& ~~~ one_ l) }
    ({ w with lane := lane, serial := some ⟨first, last, l⟩ }.leave m).addSplit (Split.start (one_ l) first)

/-- SERB: while another region of the warp runs, the split waits at the instruction off its port. -/
def execSerb (g : Guard) (e : BitVec 20) (s : State) : Host.Outcome State Fault Refusal :=
  finish (do
    checkIssue g [] true s
    let last := s.curSplit.hdr + 8 * e.toNat
    trapIf s Kind.illegal (if isHeader s.curLaunch last then 0 else s.members)
    trapIf s Kind.serialRegion (s.issuing &&& s.inRegion)
    if s.curWarp.serial.isSome && s.issuing != 0 then
      .error (.again (s.updSplit fun sp => { sp with port := none, serb := some last }))
    pure (s.updWarp fun w => w.startSerial s.issuing (nextClause s.curSplit.hdr s.header) last)) s

/-- Whether the split stands at the end of the region with its running lane. -/
def atRegionEnd (s : State) : Bool :=
  match s.curWarp.serial with
  | none => false
  | some r => r.last == s.curSplit.hdr && s.issuing == one_ r.lane

/-- SERE. -/
def execSere (g : Guard) (s : State) : Host.Outcome State Fault Refusal :=
  finish (do
    checkIssue g [] true s
    trapIf s Kind.serialRegion (if atRegionEnd s then 0 else s.issuing)
    pure (if s.issuing = 0 then s
      else s.updWarp fun w => (w.leave s.issuing).serialNext (nextClause s.curSplit.hdr s.header))) s

/-! ### Refill, yield, non-preemptible regions (R186-R188) -/

/-- REFILL. -/
def execRefill (g : Guard) (p : Fin 8) (s : State) : Host.Outcome State Fault Refusal :=
  finish (do
    checkIssue g [] true s
    let m := s.active g
    if m = 0 then pure s else do
      stallIf (s.curWarp.awaits (.v 0))
      trapIf s Kind.serialRegion (m &&& s.inRegion)
      let point := nextClause s.curSplit.hdr s.header
      stallIf (popHeld s.cur.blk s.cur.warp 32 s)
      match popFor s.cur.blk s.cur.warp (lanes32.filter fun l => !has s.curWarp.lane.live l) s with
      | .error e =>
        .error (.trap { s.trapReq (if e.cause = 0 then Kind.uncorrectable else Kind.translation) m with
          cause := e.cause, va := e.va })
      | .ok (xs, e, s1) =>
        let some_ := !xs.isEmpty
        trapIf s Kind.reservation (if some_ && reviveBreaks s s.cur.blk s.curWarp then m else 0)
        stallIf (some_ && reviveStalls s s.cur.blk s.cur.warp s.curWarp)
        let t := if some_ then reviveShare s.cur.blk s.cur.warp s.curWarp s1 else s1
        pure (settleExit s.cur.blk s.cur.warp (t.updWarp fun w =>
          ({ w with refill := some (point, p.val) }.revive xs point).setExhausted p.val (m ||| lanesIn xs) e))) s

/-- YIELD. -/
def execYield (g : Guard) (s : State) : Host.Outcome State Fault Refusal :=
  finish (do
    checkIssue g [] false s
    pure (if s.active g = 0 then s else s.updSplit fun sp => { sp with yields := true })) s

/-- NOPRE: waits while a pre-emption request for its block is held. -/
def execNopre (g : Guard) (s : State) : Host.Outcome State Fault Refusal :=
  finish (do
    checkIssue g [] false s
    if s.active g = 0 ∨ s.curWarp.noPre then pure s else do
      stallIf (s.curBlock.preReq.isSome || s.curBlock.state == .saving)
      pure (s.updWarp fun w => { w with noPre := true, watchAt := s.now })) s

/-- PREOK. -/
def execPreok (g : Guard) (s : State) : Host.Outcome State Fault Refusal :=
  finish (do
    checkIssue g [] false s
    pure (if s.active g = 0 then s else s.updWarp fun w => { w with noPre := false })) s

/-! ### Breakpoints and software traps (R189) -/

/-- The active lanes complete the instruction and then trap. One that goes to system software waits at the instruction and
completes with its verdict, so that what withdraws its entry has it posted again (R458, R465). -/
def trapAfter (g : Guard) (kind : Nat) (code : BitVec 20) (s : State) : Host.Outcome State Fault Refusal :=
  match checkIssue g [] false s with
  | .error e => finish (.error e) s
  | .ok _ =>
    let m := s.active g
    let q := { s.trapReq kind m with code := code.toNat }
    if m = 0 then .next (advance s)
    else if toSystem s.curLaunch q || othersFirst s.cur q s then .next (raiseTrap q s)
    else .next (takeTrap s.cur q (advance s))

/-- BREAK. -/
def execBrk (g : Guard) (code : BitVec 20) (s : State) : Host.Outcome State Fault Refusal :=
  trapAfter g Kind.breakpoint code s

/-- TRAP. -/
def execTrap (g : Guard) (code : BitVec 20) (s : State) : Host.Outcome State Fault Refusal :=
  trapAfter g Kind.software code s

end Sys2Proof.Machine
end

