-- ==== Sys2Proof/Machine/Sync.lean ====
section
/-!
DEFINITION. Family 110, synchronisation: barriers (R387-R396, R400-R402), fences (R403), peer sets (R236, R239, R399, R404)
and sleep (R405), with the completion of memory operations (R161, R269).
-/

namespace Sys2Proof.Machine

/-! ### Barriers -/

/-- The barriers of a scope that the kernel header declares (R387). -/
def declared (h : Header) : BarScope → Nat
  | .wrp => 4
  | .blk => h.blkBars
  | .clu => h.cluBars
  | .flr => h.flrBars
  | .grd => h.grdBars

/-- R395, R396, R389. -/
def checkBar (s : State) (b : Bar) (arrives waits : Bool) (m : Mask) : Except Stop Unit := do
  trapIf s Kind.barrierRange (if b.idx.val < declared s.curLaunch.hdr b.scope then 0 else m)
  trapIf s Kind.serialRegion (if waits then m &&& s.inRegion else 0)
  trapIf s Kind.barrierPhase (if arrives then m &&& (barFlags s.curWarp b).arrived else 0)

/-- R389: lanes arrive. -/
def arriveFlags (b : Bar) (m : Mask) (target : Word) (o : OrdState) : OrdState :=
  let f := AMap.getD o.bars (barKey b) BarFlags.none
  { o with bars := AMap.set o.bars (barKey b) { f with
      arrived := f.arrived ||| m
      pending := f.pending ||| m
      target := tab fun l => if has m l then target else f.target[l]
      after := o.opCtr } }

/-- The lanes of a warp that have arrived at a barrier, are not counted and not on their way, once every earlier operation
of the warp has completed (R391). -/
def countable (w : Warp) (f : BarFlags) : Mask :=
  if w.ord.ops.all fun o => decide (f.after ≤ o.num) then f.arrived &&& ~~~ f.counted &&& ~~~ f.sent else 0

/-- Whether an arrival of a block finds room in the lager buffer (R464). -/
def arrivalRoom (s : State) (u : Nat) (b : Bar) : Bool :=
  match b.scope with
  | .wrp | .blk => true
  | _ => !(s.launch (s.block u).launch).lagers || lagerRoom s (s.block u).place.coreNo 8

/-- Counts arrivals whose conditions hold (R392): at warp and block scope now, at wider scope through the lager buffer, where one
waits for room. -/
def sendArrivals (u wn : Nat) (s : State) : State :=
  let w := AMap.getD (s.block u).warps wn default
  w.ord.bars.foldl (fun s p =>
    let w := AMap.getD (s.block u).warps wn default
    let f := AMap.getD w.ord.bars p.1 BarFlags.none
    let m := countable w f
    let b := barOfKey p.1
    if m = 0 || !arrivalRoom s u b then s else
    match b.scope with
    | .wrp | .blk => countArrival u wn b m s
    | _ =>
      let bl := s.block u
      let s := s.updWarpOf u wn fun w =>
        { w with ord := { w.ord with bars := AMap.set w.ord.bars p.1 { f with sent := f.sent ||| m } } }
      emit (s.launch bl.launch).lagers bl.place.coreNo
        { epoch := s.epoch, die := bl.place.die, core := bl.place.core, blk := u, warp := wn, agent := warpAgent bl wn,
          t := s.instant, rel := none, atom := none, va := 0, left := none, kind := .arrival b m } s) s

/-- The arrival of lanes of the issuing warp; one at a barrier wider than the block is an escape (R394). -/
def arrive (b : Bar) (m : Mask) (s : State) : State :=
  if m = 0 then s else
  let ph := phaseOf s s.cur.blk s.cur.warp b
  let s := sendArrivals s.cur.blk s.cur.warp (s.updOrd (arriveFlags b m (ph + 1)))
  match b.scope with
  | .wrp | .blk => s
  | _ => escape s.cur.blk s

/-- The wait of a split's lanes. -/
def waitAt (b : Bar) (m : Mask) (s : State) : State :=
  if m = 0 then s else s.updSplit fun sp => { sp with wait := .bar b m }

/-- BAR. -/
def execBar (g : Guard) (b : Bar) (s : State) : Host.Outcome State Fault Refusal :=
  finish (do
    checkIssue g [] true s
    let m := s.active g
    checkBar s b true true m
    stallIf (m != 0 && !arrivalRoom s s.cur.blk b)
    pure (waitAt b m (arrive b m s))) s

/-- BARA. -/
def execBara (g : Guard) (b : Bar) (s : State) : Host.Outcome State Fault Refusal :=
  finish (do
    checkIssue g [] false s
    let m := s.active g
    checkBar s b true false m
    stallIf (m != 0 && !arrivalRoom s s.cur.blk b)
    pure (arrive b m s)) s

/-- BARW. -/
def execBarw (g : Guard) (b : Bar) (s : State) : Host.Outcome State Fault Refusal :=
  finish (do
    checkIssue g [] true s
    let m := s.active g
    checkBar s b false true m
    pure (waitAt b m s)) s

/-- The word that a lane reads of a barrier (R402). -/
def barWord (s : State) (b : Bar) (ready : Mask) (l : Fin 32) : Word :=
  let ph := phaseOf s s.cur.blk s.cur.warp b
  w32 (ph.toNat % 2 ^ 16 * 2 ^ 16 + (has (barFlags s.curWarp b).arrived l).toNat * 2 + (has ready l).toNat)

/-- BARQ. -/
def execBarq (g : Guard) (d : Operand) (b : Bar) (s : State) : Host.Outcome State Fault Refusal :=
  finish (do
    checkIssue g [d] false s
    let m := s.active g
    checkBar s b false false m
    let ready := canDepart s s.cur.blk s.cur.warp b m
    let r ← readAll g [] s
    let t ← commit r [⟨d, 0, m, tab fun l => barWord s b ready l⟩] s
    pure (depart s.cur.blk s.cur.warp b ready t)) s

/-! ### Fence -/

/-- Whether a fence may complete (R403): for its releasing half the warp's earlier accesses have completed, and at `.clu` or
wider earlier output has left the core and is performed; for its acquiring half the warp's loads and atomics have completed. -/
def fenceReady (s : State) (sc : Scope) (rel acq : Bool) : Bool :=
  let ops := s.curWarp.ord.ops
  (!rel || (ops.isEmpty && (decide (scopeNo sc < 3) || !earlierOut s))) && (!acq || ops.all fun o => !o.read)

/-- The fence has begun: no later access of the warp issues before it completes. -/
def fenceBegins (s : State) : State :=
  s.updSplit fun sp => { sp with fence := true, mark := some (sp.mark.getD s.instant) }

/-- FENCE. -/
def execFence (g : Guard) (od : FenceOrd) (sc : Scope) (s : State) : Host.Outcome State Fault Refusal :=
  finish (do
    checkIssue g [] false s
    let rel := od != .acq
    let acq := od != .rel
    if s.active g = 0 then pure s
    else if !fenceReady s sc rel acq then .error (.again (fenceBegins s))
    else do
      let t := if rel then releaseAt (.scope sc) s.cur.blk s.cur.warp s else s
      pure (if acq then acquireAt sc s.cur.blk s.cur.warp t else t)) s

/-! ### Peer sets -/

/-- The members of a set. -/
def peersOf (s : State) (b : Block) (g : Nat) : List (Nat × Nat) :=
  ((((s.die b.place.die).clusters[b.place.core / 4]?).bind fun cl => cl.peers[g]?)).getD []

/-- A join of the block to another set, or a leave, that has not taken effect (R404: they take effect in issue order). -/
def peerChanging (s : State) (u set : Nat) : Bool :=
  (pendingOf s (s.block u).place.coreNo).any fun o => o.blk == u && match o.kind with
    | .join h _ => h != set
    | .leave => true
    | _ => false

/-- A join or leave of the block that has not taken effect. -/
def joinOrLeave (s : State) (u : Nat) : Bool :=
  (pendingOf s (s.block u).place.coreNo).any fun o => o.blk == u && match o.kind with
    | .join _ _ | .leave => true
    | _ => false

/-- The word of R404. -/
def joinWord (members : List (Nat × Nat)) (failed : Bool) (idx : Nat) : Word :=
  w32 ((members.map fun p => 2 ^ p.1).foldl (· + ·) 0 * 2 ^ 16 + failed.toNat * 2 ^ 15 + idx)

/-- Worlds of the launches of two blocks. -/
def worldOf (s : State) (u : Nat) : Bool := (s.launch (s.block u).launch).desc.world

/-- The change of a join when it takes effect: the result word and the state. -/
def joinNow (u g : Nat) (s : State) : Word × State :=
  let b := s.block u
  let l := peersOf s b g
  match b.eng.peer with
  | some (h, i) => (if h = g then joinWord l false i else joinWord l true 0, s)
  | none =>
    if 16 ≤ l.length ∨ l.any (fun p => worldOf s p.2 != worldOf s u) then (joinWord l true 0, s) else
    let idx := ((List.range 16).find? fun i => !l.any fun p => p.1 == i).getD 0
    let l' := l ++ [(idx, u)]
    let s := s.updDie b.place.die fun d => { d with clusters := vmod d.clusters (b.place.core / 4) fun c =>
      { c with peers := vmod c.peers g fun _ => l' } }
    (joinWord l' false idx, s.updEng u fun e => { e with peer := some (g, idx) })

/-- The result of a join goes to the split that waits for it, which goes on. -/
def joinResult (u wn op : Nat) (w : Word) (s : State) : State :=
  match (AMap.getD (s.block u).warps wn default).splits.find? fun p => match p.2.wait with
    | .join n _ => n == op
    | _ => false with
  | some (k, sp) =>
    match sp.wait with
    | .join _ d => (fillLate u wn d d.lanes (splat w) s).updWarpOf u wn fun x =>
        { x with splits := AMap.modify x.splits k fun sp => { sp with wait := .none } }
    | _ => s
  | none => s

/-- A join that leaves the core takes effect. -/
def joinLeaves (u wn g op : Nat) (s : State) : State :=
  let (w, s) := joinNow u g s
  lasting u (joinResult u wn op w) s

/-- CLJOIN: with lagering on the split waits until the change has taken effect. -/
def execCljoin (g : Guard) (d : Operand) (set : Fin 8) (s : State) : Host.Outcome State Fault Refusal :=
  finish (do
    checkIssue g [d] false s
    let m := s.active g
    let r ← readAll g [] s
    if m = 0 then pure s else do
      destCheck r [⟨d, 0, m, splat 0⟩] s
      stallIf (peerChanging s s.cur.blk set.val)
      trapIf s Kind.peerSet (match s.curBlock.eng.peer with
        | some (h, _) => if h = set.val then 0 else m
        | none => 0)
      if s.curLaunch.lagers then do
        stallIf (!lagerRoom s s.curCore 8)
        -- until the result comes back a w register keeps its owner's earlier write (R157)
        let q : Put := ⟨d, 0, m, wordOf s .int d 0⟩
        let t ← commit r [q] s
        let (op, t) := t.uid
        pure ((emit true s.curCore (s.outItem (.join set.val op) none none 0) t).updSplit fun sp =>
          { sp with wait := .join op (lateOf s q) })
      else do
        let (w, t) := joinNow s.cur.blk set.val s
        commit { r with st := t } [⟨d, 0, m, splat w⟩] s) s

/-- Whether an item of output is a window access between a block and another. -/
def windowOf (u : Nat) (o : OutItem) : Bool :=
  match o.kind with
  | .window v _ _ _ | .windowAtom v _ _ _ _ _ _ _ => o.blk == u || v == u
  | _ => false

/-- Window accesses to or from a block that are not done, wherever they stand. -/
def windowItems (s : State) (u : Nat) : List OutItem :=
  (s.inflight ++ s.cores.flatMap fun p => p.2.lager).filter (windowOf u)

/-- Whether there are any. -/
def windowsOut (s : State) (u : Nat) : Bool := !(windowItems s u).isEmpty

/-- Whether a leave can be acknowledged: every window access to or from the block issued before it is done (R239). -/
def leaveFree (s : State) (o : OutItem) : Bool := !(windowItems s o.blk).any fun x => decide (x.t ≤ o.t)

/-- A leave takes effect and is acknowledged: the block is out of its set and its splits go on. -/
def leaveNow (o : OutItem) (s : State) : State :=
  lasting o.blk (fun s => s.updBlock o.blk fun b => { b with warps := AMap.mapVals b.warps fun _ w =>
    { w with splits := AMap.mapVals w.splits fun _ sp => if sp.wait = .leave then { sp with wait := .none } else sp } })
    (dropPeer o.blk { s with inflight := s.inflight.erase o })

/-- CLLEAVE: the split waits for the acknowledgement; changes of the block take effect in issue order, and with lagering off a
leave that no window access holds back does at once (R399). -/
def execClleave (g : Guard) (s : State) : Host.Outcome State Fault Refusal :=
  finish (do
    checkIssue g [] false s
    if s.active g = 0 then pure s else do
      stallIf (joinOrLeave s s.cur.blk)
      if s.curBlock.eng.peer.isNone then pure s else do
        stallIf (s.curLaunch.lagers && !lagerRoom s s.curCore 8)
        let o := s.outItem .leave none none 0
        let t := (emit s.curLaunch.lagers s.curCore o s).updSplit fun sp => { sp with wait := .leave }
        pure (if !s.curLaunch.lagers && leaveFree t o then leaveNow o t else t)) s

/-- LEAVE_ACKNOWLEDGE: once the leave has left the core and every window access issued before it is done, the block is out
of its set and its splits go on. -/
def execLeaveAcknowledge (uid : Nat) (s : State) : Host.Outcome State Fault Refusal :=
  match s.inflight.find? fun o => o.blk == uid && o.kind == .leave with
  | none => .refused (.notEnabled "LEAVE_ACKNOWLEDGE")
  | some o => if leaveFree s o then .next (leaveNow o s) else .refused (.notEnabled "LEAVE_ACKNOWLEDGE")

/-! ### Sleep -/

/-- SLEEP. -/
def execSleep (g : Guard) (n : BitVec 20) (s : State) : Host.Outcome State Fault Refusal :=
  finish (do
    checkIssue g [] true s
    pure (if s.active g = 0 then s else s.updSplit fun sp => { sp with wait := .sleep (s.now + n.toNat) })) s

/-- SLEEP with a register. -/
def execSleepReg (g : Guard) (a : Operand) (s : State) : Host.Outcome State Fault Refusal :=
  finish (do
    checkIssue g [a] true s
    let m := s.active g
    let r ← readAll g [opU a] s
    let t ← commit r [] s
    pure (if m = 0 then t
      else t.updSplit fun sp => { sp with wait := .sleep (s.now + (uval m (r.w 0)).toNat) })) s

/-! ### Completion (R161, R269) -/

/-- An operation is complete: the count goes down, and the release that waited for it is made (R265). -/
def opDone (u wn : Nat) (o : MemOp) (s : State) : State :=
  let s := s.updWarpOf u wn fun w => { w with ord := { w.ord with ops := w.ord.ops.erase o } }
  match o.rel with
  | some sc => releaseAt (.scope sc) u wn s
  | none => s

/-- MEMORY_OPERATION_COMPLETION: the count goes down, and arrivals that waited for it may be counted. -/
def execMemoryOperationCompletion (uid warp op : Nat) (s : State) : Host.Outcome State Fault Refusal :=
  let w := AMap.getD (s.block uid).warps warp default
  match w.ord.ops.find? fun o => o.num == op with
  | none => .refused (.notEnabled "MEMORY_OPERATION_COMPLETION")
  | some o =>
    if !opEnds s uid warp o then .refused (.notEnabled "MEMORY_OPERATION_COMPLETION") else
    .next (sendArrivals uid warp (opDone uid warp o s))

end Sys2Proof.Machine
end

