-- ==== Sys2Proof/Machine/Engines.lean ====
section
/-!
DEFINITION. Family 101, engines: kicks, counters and timelines (R293, R298-R301, R318-R321), tile-task records (R302-R305,
R311, R323, R332, R423), stationary planes (R313-R315, R322) and TQRD (R324).
-/

namespace Sys2Proof.Machine

/-! ### Copy kicks, counters, timelines -/

/-- A fault of a uniform access at an address, for all active lanes. -/
def faultAt (s : State) (kind : Nat) (m : Mask) (a : Nat) (c : Bool) : Except Stop Unit :=
  if c then .error (.trap { s.trapReq kind m with va := w64 a }) else .ok ()

/-- The puts of an optional destination that every lane gets one word in. -/
def putAll (d : Operand) (m : Mask) (w : Word) : List Put :=
  if d = .zero then [] else [⟨d, 0, m, splat w⟩]

/-- The operand of a count. -/
def countOp : CountArg → List SrcSpec
  | .reg o => [opU o]
  | .imm _ => []

/-- CEKICK. -/
def execCekick (g : Guard) (d off : Operand) (count : CountArg) (s : State) : Host.Outcome State Fault Refusal :=
  finish (do
    let qs := opU off :: countOp count
    checkIssue g (opsOf d qs) false s
    let m := s.active g
    let r ← readAll g qs s
    if m = 0 then commit r [] s else do
    let o := (uval m (r.w 0)).toNat
    let n := match count with
      | .reg _ => (uval m (r.w 1)).toNat
      | .imm i => i.toNat
    let num := ((s.curBlock.eng.tl[0]).enq) + w64 n
    let puts := putAll d m (lo32 num)
    destCheck r puts s
    faultAt s Kind.bufferBound m o (decide (2 ^ 20 ≤ o) || decide (s.curBlock.abuf.size < o + 32 * n))
    faultAt s Kind.misaligned m o (o % 32 != 0)
    stallIf (s.curWarp.acquiring s.cur.split)
    stallIf (decide (32 ≤ (s.core s.curCore).body.kicks.length))
    let t ← commit r puts s
    pure (if n = 0 then t else
      (enqueue 0 n t).updBody s.curCore fun k =>
        { k with kicks := k.kicks ++ [⟨.blk s.cur.blk, o, num - w64 n + 1, n, none⟩] })) s

/-- ARRSET: at issue; the sum of `.add` saturates. -/
def execArrset (g : Guard) (c : Fin 16) (a : Operand) (add : Bool) (s : State) : Host.Outcome State Fault Refusal :=
  finish (do
    checkIssue g [a] false s
    let m := s.active g
    let r ← readAll g [opU a] s
    let t ← commit r [] s
    let v := uval m (r.w 0)
    pure (if m = 0 then t else t.updEng s.cur.blk fun e =>
      { e with
        sets := vmod e.sets c.val (· + 1)
        c := vmod e.c c.val fun x =>
          if add then BitVec.ofInt 32 (clampInt (x.toInt + v.toInt) (-(2 ^ 31)) (2 ^ 31 - 1)).1 else v })) s

/-- ARRWAIT. -/
def execArrwait (g : Guard) (mask : BitVec 16) (s : State) : Host.Outcome State Fault Refusal :=
  finish (do
    checkIssue g [] true s
    pure (if s.active g = 0 then s else s.updSplit fun sp => { sp with wait := .arr mask })) s

/-- ARRTEST. -/
def execArrtest (g : Guard) (d : Operand) (mask : BitVec 16) (s : State) : Host.Outcome State Fault Refusal :=
  finish (do
    checkIssue g [d] false s
    let m := s.active g
    let yes := ctrsDone s.curBlock.eng mask.toNat
    let r ← readAll g [] s
    let t ← commit r [⟨d, 0, m, splat (if yes then 1 else 0)⟩] s
    pure (if yes && m != 0 then acquireCtrs mask.toNat s.cur.blk s.cur.warp t else t)) s

/-- TLRD. -/
def execTlrd (g : Guard) (d : Operand) (tl : Fin 5) (enq : Bool) (s : State) : Host.Outcome State Fault Refusal :=
  finish (do
    checkIssue g [d] false s
    let m := s.active g
    let c := s.curBlock.eng.tl[tl]
    let r ← readAll g [] s
    commit r (put2Of (dst0 d) m (tab fun _ => if enq then c.enq else c.done)) s) s

/-- TLWAIT. -/
def execTlwait (g : Guard) (tl : Fin 5) (val : TlArg) (s : State) : Host.Outcome State Fault Refusal :=
  finish (do
    let qs : List SrcSpec := match val with
      | .reg a => [{ op := a, n := 2, uni := true }]
      | .imm _ => []
    checkIssue g (opsOf .zero qs) true s
    let m := s.active g
    let r ← readAll g qs s
    let t ← commit r [] s
    let v : DWord := match val with
      | .reg _ => Rd.pair (r.at 0) ((lowest m).getD 0)
      | .imm n => n.setWidth 64
    pure (if m = 0 then t else t.updSplit fun sp => { sp with wait := .tl tl v })) s

/-! ### Element types (R25, R303) -/

/-- The operand classes of R303. -/
inductive TClass where
  | int | float | fp64
deriving DecidableEq, Repr

/-- The class of an etype; INT32 and the unlisted codes have none. -/
def tclass (e : Nat) : Option TClass :=
  if e = 0 then some .fp64
  else if e = 7 ∨ e = 8 ∨ e = 9 then some .int
  else if (1 ≤ e ∧ e ≤ 6) ∨ e = 0x10 ∨ e = 0x11 then some .float
  else none

/-- Whether an etype names scaled blocks. -/
def isBlockT (e : Nat) : Bool := e == 0x10 || e == 0x11

/-- Bits of an element of a plain etype. -/
def etypeBits (e : Nat) : Nat :=
  match e with
  | 0 => 64
  | 1 | 0xA => 32
  | 2 | 3 => 16
  | 6 | 9 => 4
  | _ => 8

/-- Bytes of `k` elements in a row. -/
def rowBytes (e k : Nat) : Nat :=
  if isBlockT e then k / 64 * blkBytes (e == 0x11) else cdiv (k * etypeBits e) 8

/-- Whether a sparse panel's values are 8 bits wide. -/
def sparse8 (e : Nat) : Bool := e == 0x11 || (!isBlockT e && etypeBits e == 8)

/-- R46. -/
def sliceBytes (e n : Nat) : Nat := cdiv (26 + (if sparse8 e then 4 * n else 2 * n)) 32 * 32

/-! ### Plane formats (R314) -/

/-- The format word of a plane. -/
structure PlaneFmt where
  etype : Nat
  sparse : Nat
  rows : Nat
  strict : Bool
deriving DecidableEq, Repr

def PlaneFmt.of (w : Word) : PlaneFmt :=
  { etype := nbits w.toNat 0 8, sparse := nbits w.toNat 8 8, rows := nbits w.toNat 16 8, strict := nbit w.toNat 24 }

/-- The rules of R314 on the fields. -/
def PlaneFmt.ok (f : PlaneFmt) : Bool :=
  decide (1 ≤ f.rows) && decide (f.rows ≤ 192) &&
    (if f.sparse = 0 then
      (decide (f.etype ≤ 9) || isBlockT f.etype) && (!isBlockT f.etype || f.rows % 64 == 0) &&
        (isBlockT f.etype || etypeBits f.etype != 4 || f.rows % 2 == 0)
     else
      ([8, 12, 16, 24] : List Nat).contains f.sparse && f.rows == 192 &&
        ((decide (4 ≤ f.etype) && decide (f.etype ≤ 9)) || isBlockT f.etype))

/-- Whether a format word is valid. -/
def planeOk (w : Word) : Bool := nbits w.toNat 25 7 == 0 && (PlaneFmt.of w).ok

def PlaneFmt.colBytes (f : PlaneFmt) : Nat :=
  if f.sparse = 0 then rowBytes f.etype f.rows else sliceBytes f.etype f.sparse
def PlaneFmt.bytes (f : PlaneFmt) : Nat := 128 * f.colBytes

/-! ### Tile-task records (R302) -/

/-- The fields of a record, from the number its 64 bytes make. -/
structure TileF where
  wval : Nat
  bias : Nat
  dst : Nat
  aOff : Nat
  aStride : Nat
  m : Nat
  k : Nat
  depth : Nat
  gen : Nat
  wOff : Nat
  aType : Nat
  wType : Nat
  wSparse : Nat
  type : Nat
  acc : Nat
  accum : Bool
  sat : Bool
  rnd : Rm
  selfload : Bool
  close : Bool
  whandle : Nat
  dist : Nat
  wcEn : Bool
  wctr : Nat
  wtlEn : Bool
  wtl : Nat
  sigEn : Bool
  sigCtr : Nat
  sigAmt : Nat
  rgroup : Nat
  strict : Bool
  reserved : Nat
  mext : Nat
deriving DecidableEq, Repr

/-- R32: a mode by its code. -/
def rmOf (n : Nat) : Rm := match n % 4 with | 0 => .rn | 1 => .rz | 2 => .ru | _ => .rd

def TileF.of (bs : List Byte) : TileF :=
  let x := leNat bs
  let f (lo n : Nat) : Nat := nbits x lo n
  { wval := f 448 64, bias := f 416 32, dst := f 384 32, aOff := f 352 32, aStride := f 336 16, m := f 320 16,
    k := f 304 16, depth := f 296 8, gen := f 280 16, wOff := f 256 24, aType := f 248 8, wType := f 240 8,
    wSparse := f 232 8, type := f 228 4, acc := f 226 2, accum := nbit x 225, sat := nbit x 224, rnd := rmOf (f 222 2),
    selfload := nbit x 221, close := nbit x 220, whandle := f 216 4, dist := f 214 2, wcEn := nbit x 213,
    wctr := f 209 4, wtlEn := nbit x 208, wtl := f 205 3, sigEn := nbit x 204, sigCtr := f 200 4, sigAmt := f 184 16,
    rgroup := f 168 16, strict := nbit x 167, reserved := f 160 7, mext := f 0 128 }

/-- The format of the planes of a self-loading record. -/
def TileF.fmt (t : TileF) : PlaneFmt := { etype := t.wType, sparse := t.wSparse, rows := t.depth, strict := t.strict }

/-- Bytes of a result element. -/
def TileF.resBytes (t : TileF) : Nat := if t.aType = 0 then 8 else if t.acc = 0 then 4 else 2

/-- Passes of a task (R307). -/
def TileF.passes (t : TileF) : Nat := cdiv t.k t.depth

/-- R330, R331: the fields of an MTOPK extension. -/
def TileF.anorm (t : TileF) : Nat := nbits t.mext 96 32
def TileF.bnorm (t : TileF) : Nat := nbits t.mext 64 32
def TileF.ibase (t : TileF) : Nat := nbits t.mext 32 32
def TileF.row0 (t : TileF) : Nat := nbits t.mext 19 13
def TileF.ncols (t : TileF) : Nat := nbits t.mext 12 7 + 1
def TileF.bnd (t : TileF) : Bool := nbit t.mext 11

/-- The norm block of R334, and how many a row has. -/
def TileF.normBlk (t : TileF) : Nat := if t.depth % 64 = 0 then 64 else t.depth
def TileF.nb (t : TileF) : Nat := cdiv t.k t.normBlk

/-- The fields of a winner-list handle (R325). -/
def hValid (h : DWord) : Bool := h.getLsbD 63
def hFloat (h : DWord) : Bool := h.getLsbD 62
def hKw (h : DWord) : Nat := nbits h.toNat 56 6
def hRows (h : DWord) : Nat := nbits h.toNat 43 13 + 1
def hOff (h : DWord) : Nat := nbits h.toNat 0 18

/-- A table of `n` words at an offset of ABUF lies in the allotment and is aligned. -/
def tableOk (size off n : Nat) : Bool := off % 4 == 0 && decide (off + 4 * n ≤ size)

/-- R304: the ranges and pairings of every record. -/
def tileBase (t : TileF) : Bool :=
  t.reserved == 0 && decide (t.type ≤ 2) && decide (t.dist ≤ 2) && decide (t.acc ≤ 2) && decide (t.wtl ≤ 4) &&
    (decide (1 ≤ t.m) || (t.type == 2 && t.close)) && decide (t.m ≤ 4096) && decide (1 ≤ t.k) &&
    decide (1 ≤ t.depth) && decide (t.depth ≤ 192) && (tclass t.aType).isSome &&
    (!isBlockT t.aType || t.k % 64 == 0) && (t.acc == 0 || tclass t.aType == some .float)

/-- A's rows lie in ABUF. -/
def tileA (b : Block) (t : TileF) : Bool :=
  t.m == 0 || decide (t.aOff + (t.m - 1) * t.aStride + rowBytes t.aType t.k ≤ b.abuf.size)

/-- The weights: those of a self-loading record, or the depth of a resident plane. -/
def tileW (b : Block) (t : TileF) : Bool :=
  if t.selfload then
    t.gen == 0 && t.wOff % 64 == 0 && t.fmt.ok && tclass t.wType == tclass t.aType &&
      decide (t.wOff + t.passes * t.fmt.bytes ≤ b.wbuf.size)
  else decide (t.k ≤ 192)

/-- A result of `rows` rows lies in CBUF. -/
def tileDst (b : Block) (t : TileF) (rows : Nat) : Bool :=
  decide (t.dst < 2 ^ 18) && decide (t.dst + rows * 128 * t.resBytes ≤ b.cbuf.size)

/-- R304's last rule but one, and R332. -/
def tileTopk (b : Block) (h : DWord) (t : TileF) : Bool :=
  hValid h && hFloat h == (tclass t.aType == some .float) && t.aType != 0 && (!t.selfload || t.wType != 0) &&
    decide (t.row0 + t.m ≤ hRows h) && t.dst == 0 && t.acc == 0 && !t.accum && !t.sat && t.rgroup == 0 && !t.close &&
    nbits t.mext 0 11 == 0 && (t.dist != 2 || t.bias != 0xFFFFFFFF) && (t.dist != 1 || t.bias == 0xFFFFFFFF) &&
    (t.bias == 0xFFFFFFFF || tableOk b.abuf.size t.bias 128) &&
    (!t.bnd || (tableOk b.abuf.size t.anorm (t.m * t.nb) && tableOk b.abuf.size t.bnorm (128 * t.nb) &&
      (decide (t.depth ≤ 64) || t.depth % 64 == 0)))

/-- R304, R332: whether a record may be enqueued; `joins` when its group is open. -/
def tileOk (b : Block) (h : DWord) (joins : Bool) (t : TileF) : Bool :=
  tileBase t && tileA b t && tileW b t &&
    (if t.type = 1 then tileTopk b h t
     else t.bias == 0 && t.whandle == 0 && t.dist == 0 && t.mext == 0 && (joins || tileDst b t t.m))

/-! ### Ragged groups (R311, R423) -/

/-- Whether a queued or running task is an open group of a block. -/
def openGroup (u rg : Nat) (x : TileRec) : Bool :=
  let t := TileF.of x.bytes
  x.blk == u && t.type == 2 && t.rgroup == rg && !t.close && !x.members.any fun p => (TileF.of p.2.2).close

/-- The cores of a core's hardware cluster. -/
def clusterCores (core : Nat) : List Nat := (List.range 4).map fun i => core / 4 * 4 + i

/-- The open group of a block: in a queue of its core, or on an array of the cluster. -/
def groupFind (s : State) (core u rg : Nat) : Option TileRec :=
  let k := (s.core core).body
  ((k.high ++ k.normal).find? (openGroup u rg)).or
    (((clusterCores core).filterMap fun c => (s.core c).body.array.run.map fun x => x.task).find? (openGroup u rg))

/-- A record joins its group. -/
def joinGroup (core u rg : Nat) (x : Nat × DWord × List Byte) (s : State) : State :=
  let add (y : TileRec) : TileRec := if openGroup u rg y then { y with members := y.members ++ [x] } else y
  let s := s.updBody core fun k => { k with high := k.high.map add, normal := k.normal.map add }
  (clusterCores core).foldl (fun s c =>
    if (s.core c).body.array.run.isNone then s else
    s.updBody c fun k => { k with array := { k.array with run := k.array.run.map fun y => { y with task := add y.task } } }) s

/-- The fields that a joining record shares with its group. -/
def groupMatch (a b : TileF) : Bool :=
  a.aType == b.aType && a.k == b.k && a.depth == b.depth && a.gen == b.gen && a.selfload == b.selfload &&
    a.wOff == b.wOff && a.wType == b.wType && a.wSparse == b.wSparse && a.acc == b.acc && a.accum == b.accum &&
    a.sat == b.sat && a.rnd == b.rnd && a.strict == b.strict

/-- The rows of a group. -/
def groupRows (x : TileRec) : Nat :=
  (TileF.of x.bytes).m + (x.members.map fun p => (TileF.of p.2.2).m).foldl (· + ·) 0

/-! ### Retiring a record (R308, R309) -/

/-- An engine's bytes in a typed buffer, with the race record they leave (R414). -/
def engWriteBuf (u : Nat) (c : Bool) (agent : Word) (off : Nat) (bs : List Byte) (s : State) : State :=
  if bs.isEmpty then s else recordBuf (writeBuf u c (at_ off bs) s) u c agent true none off bs.length

/-- An engine's read of a typed buffer, as the race record sees it. -/
def engReadBuf (u : Nat) (c : Bool) (agent : Word) (off n : Nat) (s : State) : State :=
  if n = 0 then s else recordBuf s u c agent false none off n

/-- Status bytes of a record: mstat, passes, of which the field holds 8 bits (log 148), flags, code. -/
def statusBytes (code flags passes mstat : Nat) : List Byte :=
  toLe 4 (mstat + 256 * (passes % 256 + 256 * (flags + 256 * code)))

/-- Steps 2 to 4 of R308 for one record. -/
def retireRecord (u : Nat) (x : Nat × DWord × List Byte) (code flags passes mstat : Nat) (s : State) : State :=
  let t := TileF.of x.2.2
  let agent := engAgent (s.block u) 1 x.2.1
  let s := engWriteBuf u false agent (x.1 + 16) (statusBytes code flags passes mstat) s
  s.updEng u fun e =>
    let e := if code = 0 then e else { e with tileFault := true }
    let e := if t.sigEn then countDown t.sigCtr t.sigAmt (1, x.2.1) e else e
    completeOn 1 x.2.1 e

/-! ### TENQ -/

/-- The offset of a 64-byte record of an engine, or its fault (R233, R237): a window other than the block's own does not
hold it. What the warp acquires comes first (R265). -/
def recordAt64 (s : State) (m : Mask) (o : Nat) : Except Stop Nat := do
  stallIf (s.curWarp.acquiring s.cur.split)
  match bufTarget s s.cur.blk false o 64 with
  | .error k => do
    faultAt s k m o true
    pure 0
  | .ok (u, off) => do
    faultAt s Kind.bufferBound m o (u != s.cur.blk)
    faultAt s Kind.misaligned m o (off % 64 != 0)
    pure off

/-- TENQ. -/
def execTenq (g : Guard) (d off : Operand) (high : Bool) (s : State) : Host.Outcome State Fault Refusal :=
  finish (do
    checkIssue g [d, off] false s
    let m := s.active g
    let r ← readAll g [opU off] s
    if m = 0 then commit r [] s else do
    let b := s.curBlock
    let u := s.cur.blk
    let num := (b.eng.tl[1]).enq + 1
    let puts := putAll d m (lo32 num)
    destCheck r puts s
    let o ← recordAt64 s m (uval m (r.w 0)).toNat
    let bs := b.abuf.data.readN o 64
    let t := TileF.of bs
    let grp := if t.type = 2 then groupFind s s.curCore u t.rgroup else none
    let h := s.curWarp.reg.k[t.whandle]?.getD 0
    faultAt s Kind.descriptor m o (!tileOk b h grp.isSome t)
    let matches_ := grp.all fun x => groupMatch (TileF.of x.bytes) t
    faultAt s Kind.descriptor m o
      (matches_ && grp.any fun x => !tileDst b (TileF.of x.bytes) (groupRows x + t.m))
    stallIf (grp.isNone && decide (64 ≤ (if high then (s.core s.curCore).body.high else (s.core s.curCore).body.normal).length))
    let t1 ← commit r puts s
    let t2 := engReadBuf u false (engAgent b 1 num) o 64 (enqueue 1 1 t1)
    let x : TileRec := { blk := u, off := o, num, bytes := bs, handle := if t.type = 1 then h else 0, high, members := [] }
    pure (match grp with
      | some _ => if matches_ then joinGroup s.curCore u t.rgroup (o, num, bs) t2 else retireRecord u (o, num, bs) 3 0 0 0 t2
      | none => t2.updBody s.curCore fun k =>
          if high then { k with high := k.high ++ [x] } else { k with normal := k.normal ++ [x] })) s

/-! ### Planes -/

/-- Copies in flight that write a WBUF range of a block. -/
def wbufBusy (s : State) (core u lo n : Nat) : Bool :=
  (s.core core).body.copies.any fun c =>
    c.sbSpace == 3 && c.kick.owner == .blk u && overlaps lo n c.sbLo (c.sbHi - c.sbLo)

/-- Whether an array runs a self-loading task. -/
def ArrayState.selfloads (a : ArrayState) : Bool := a.run.any fun x => (TileF.of x.task.bytes).selfload

/-- What an `LSTAT` waits for (R315). -/
def ArrayState.lstatWaits (a : ArrayState) : Bool := a.swapPending || a.loading.isSome || a.selfloads

/-- The shadow begins to load. -/
def startLoad (u launch : Nat) (me : Nat × Nat × Nat) (woff : Nat) (gen : BitVec 16) (fw : Word) (bytes : List Byte)
    (a : ArrayState) : ArrayState :=
  let strict := (PlaneFmt.of fw).strict
  { a with
    shadow := { tag := if strict then none else some (launch, gen), fmt := fw, bytes := bytes }
    loading := some (u, launch, gen, fw, woff)
    strictSplit := if strict then some me else none }

/-- LSTAT. Its load starts in step 3 of a cycle (R316): the instruction waits at issue until the steps before have been taken. A
strict one then waits until its load ends, and is complete or faults (R322). -/
def execLstat (g : Guard) (woff gen fmt : Operand) (s : State) : Host.Outcome State Fault Refusal :=
  finish (do
    checkIssue g [woff, gen, fmt] false s
    let m := s.active g
    let r ← readAll g [opU woff, opU gen, opU fmt] s
    if m = 0 then commit r [] s else do
    let b := s.curBlock
    let a := (s.core s.curCore).body.array
    let me := (s.cur.blk, s.cur.warp, s.cur.split)
    match s.curSplit.plane with
    | some bad => do
      trapIf s Kind.blockFormat (if bad then m else 0)
      commit r [] s
    | none => do
    let o := (uval m (r.w 0)).toNat
    let fw := uval m (r.w 2)
    faultAt s Kind.descriptor m 0 (!planeOk fw)
    faultAt s Kind.misaligned m o (o % 64 != 0)
    faultAt s Kind.bufferBound m o (decide (b.wbuf.size < o + (PlaneFmt.of fw).bytes))
    stallIf (!s.curSplit.stalled || a.lstatWaits || wbufBusy s s.curCore s.cur.blk o (PlaneFmt.of fw).bytes)
    let go := startLoad s.cur.blk b.launch me o ((uval m (r.w 1)).setWidth 16) fw
      (b.wbuf.data.readN o (PlaneFmt.of fw).bytes)
    let start (t : State) : State := t.updBody s.curCore fun k => { k with array := go k.array }
    if (PlaneFmt.of fw).strict then
      .error (.again ((start s).updSplit fun sp => { sp with wait := .planeLoad, stalled := false }))
    else do
      let t ← commit r [] s
      pure (start t)) s

/-- SWAP. -/
def execSwap (g : Guard) (s : State) : Host.Outcome State Fault Refusal :=
  finish (do
    checkIssue g [] false s
    pure (if s.active g = 0 then s else s.updBody s.curCore fun k =>
      let a := k.array
      { k with array := { a with swapPending := a.swapPending || a.shadow.tag.isSome || a.loading.isSome } })) s

/-! ### TQRD -/

/-- The valid bit of a plane for a launch, and its generation. -/
def planeGen (launch : Nat) (p : Plane) : Nat × Nat :=
  match p.tag with
  | some (l, gen) => if l = launch then (1, gen.toNat) else (0, 0)
  | none => (0, 0)

/-- The word of TQRD. -/
def tqrdWord (s : State) (sel : Fin 4) : Word :=
  let b := s.curBlock
  let k := (s.core s.curCore).body
  let a := planeGen b.launch k.array.active
  let h := planeGen b.launch k.array.shadow
  w32 (match sel with
    | 0 => k.high.length * 2 ^ 16 + k.normal.length
    | 1 => b.eng.tileFault.toNat * 2 ^ 31 + b.eng.copyFault.toNat * 2 ^ 30
    | 2 => a.2 * 2 ^ 16 + a.1 * 2 ^ 15 + h.1 * 2 ^ 14 + k.array.swapPending.toNat * 2 ^ 13 +
        k.array.loading.isSome.toNat * 2 ^ 12 + k.array.selfloads.toNat * 2 ^ 11
    | 3 => h.2 * 2 ^ 16 + h.1 * 2 ^ 15)

/-- TQRD. -/
def execTqrd (g : Guard) (d : Operand) (sel : Fin 4) (clr : Bool) (s : State) : Host.Outcome State Fault Refusal :=
  finish (do
    checkIssue g [d] false s
    let m := s.active g
    let r ← readAll g [] s
    let t ← commit r [⟨d, 0, m, splat (tqrdWord s sel)⟩] s
    pure (if clr && m != 0 then t.updEng s.cur.blk fun e => { e with tileFault := false, copyFault := false } else t)) s

end Sys2Proof.Machine
end

