-- ==== Sys2Proof/Machine/Elements.lean ====
section
/-!
DEFINITION. Reading tensors as numbers: the elements of plain types (R25), of scaled blocks (R40-R44) and of
structured-sparse slices (R45-R48), and tensor descriptors (R24, R26, R27).
-/

namespace Sys2Proof.Machine

/-- The value of an element of a plain type from its bits. -/
def plainVal (e x : Nat) : FVal :=
  match e with
  | 0 => f64.val x
  | 1 => f32.val x
  | 2 => bf16.val x
  | 3 => f16.val x
  | 4 => e4m3.val x
  | 5 => e5m2.val x
  | 6 => e2m1.val x
  | 7 => FVal.ofInt (sextN x 8)
  | 8 => FVal.ofInt x
  | 9 => FVal.ofInt (sextN x 4)
  | _ => FVal.ofInt (sextN x 32)

/-- The bits of element `i` of packed elements (R31). -/
def elemBits (e : Nat) (bs : List Byte) (i : Nat) : Nat :=
  if etypeBits e = 4 then nbits ((bs[i / 2]?.getD 0).toNat) (4 * (i % 2)) 4
  else leNat ((bs.drop (i * (etypeBits e / 8))).take (etypeBits e / 8))

/-- `n` elements of a plain type. -/
def plainRow (e n : Nat) (bs : List Byte) : List FVal := (List.range n).map fun i => plainVal e (elemBits e bs i)

/-- Puts values where the mask has a bit, exact zeros elsewhere. -/
def spread : List Bool → List FVal → List FVal
  | [], _ => []
  | false :: t, vs => .fin false 0 0 :: spread t vs
  | true :: t, v :: vs => v :: spread t vs
  | true :: t, [] => .fin false 0 0 :: spread t []

/-- The stored values of a slice, or none where its head breaks R47. -/
def sliceVals (e n : Nat) (bs : List Byte) : Option (List FVal) :=
  let code := (bs[0]?.getD 0).toNat
  let scale := (bs[1]?.getD 0).toNat
  let body := bs.drop 26
  if isBlockT e then
    match blkFmtOf (e == 0x11) code with
    | none => none
    | some .q4x => none
    | some f =>
      let vs := (blkElems f (body.take (if e = 0x11 then 4 * n else 2 * n))).1
      some (if scale = 0xFF then vs.map fun _ => .nan else vs.map (scaleBy scale))
  else if code = 0 ∧ scale = 0x7F then some (plainRow e (4 * n) body) else none

/-- The 192 elements of a slice, and whether it is malformed (R48). -/
def sliceElems (e n : Nat) (bs : List Byte) : List FVal × Bool :=
  let masks := (List.range 4).map fun g => leNat ((bs.drop (2 + 6 * g)).take 6)
  let bits := masks.flatMap fun m => (List.range 48).map (nbit m)
  let zeros : List FVal := List.replicate 192 (.fin false 0 0)
  if masks.any fun m => ((List.range 48).filter (nbit m)).length != n then (zeros, true)
  else match sliceVals e n bs with
    | none => (zeros, true)
    | some vs => (spread bits vs, false)

/-- The elements of one scaled block from its bytes, and whether it is malformed. -/
def blockElems (c8 : Bool) (bs : List Byte) : List FVal × Bool :=
  decodeBlock c8 (bs[0]?.getD 0).toNat (bs[1]?.getD 0).toNat ((bs.drop 2).take (blkBytes c8 - 2))

/-- The elements of a row that lie in one unit of storage, and the unit's size in elements and bytes: a slice, a block, or
a single plain element. -/
def unitElems (e sparse : Nat) : Nat := if sparse ≠ 0 then 192 else if isBlockT e then 64 else 1
def unitBytes (e sparse : Nat) : Nat :=
  if sparse ≠ 0 then sliceBytes e sparse else if isBlockT e then blkBytes (e == 0x11) else etypeBits e / 8
def readUnit (e sparse : Nat) (bs : List Byte) : List FVal × Bool :=
  if sparse ≠ 0 then sliceElems e sparse bs
  else if isBlockT e then blockElems (e == 0x11) bs
  else ([plainVal e (leNat bs)], false)

/-- `n` elements of a row from the row's bytes, and whether a unit of it is malformed. -/
def readRowElems (e sparse n : Nat) (bs : List Byte) : List FVal × Bool :=
  if sparse = 0 ∧ !isBlockT e then (plainRow e n bs, false) else
  let us := (List.range (cdiv n (unitElems e sparse))).map fun i =>
    readUnit e sparse ((bs.drop (i * unitBytes e sparse)).take (unitBytes e sparse))
  ((us.flatMap Prod.fst).take n, us.any Prod.snd)

/-! ### Tensor descriptors -/

/-- The fields of a descriptor (R24). -/
structure TDesc where
  base : Nat
  etype : Nat
  rank : Nat
  strict : Bool
  sparse : Bool
  sparseN : Nat
  dims : List Nat
  strides : List Nat
  reserved : Nat
deriving DecidableEq, Repr

def TDesc.of (bs : List Byte) : TDesc :=
  let x := leNat bs
  { base := nbits x 0 56, etype := nbits x 64 8, rank := nbits x 72 3, strict := nbit x 75, sparse := nbit x 76
    sparseN := nbits x 80 8, dims := (List.range 4).map fun i => nbits x (96 + 16 * i) 16
    strides := (List.range 3).map fun i => nbits x (160 + 32 * i) 32
    reserved := nbits x 56 8 + nbits x 77 3 + nbits x 88 8 }

/-- The extent of a dimension, and the byte stride of dimension 1. -/
def TDesc.dim (t : TDesc) (i : Nat) : Nat := t.dims[i]?.getD 1
def TDesc.stride1 (t : TDesc) : Nat := t.strides.head?.getD 0

/-- R26. -/
def TDesc.ok (t : TDesc) : Bool :=
  let step := if t.sparse then sliceBytes t.etype t.sparseN else if isBlockT t.etype then blkBytes (t.etype == 0x11)
    else max 1 (etypeBits t.etype / 8)
  (decide (t.etype ≤ 0xA) || isBlockT t.etype) && t.reserved == 0 && decide (1 ≤ t.rank) && decide (t.rank ≤ 4) &&
    (t.dims.drop t.rank).all (· == 1) && (t.strides.drop (t.rank - 1)).all (· == 0) &&
    t.strides.all (fun x => x % step == 0) &&
    (if t.sparse then
      ((decide (4 ≤ t.etype) && decide (t.etype ≤ 9)) || isBlockT t.etype) &&
        ([8, 12, 16, 24] : List Nat).contains t.sparseN && t.dim 0 % 192 == 0
     else !isBlockT t.etype || t.dim 0 % 64 == 0)

/-- The sparse count of a descriptor, 0 for a dense one. -/
def TDesc.n48 (t : TDesc) : Nat := if t.sparse then t.sparseN else 0

/-- Bytes of a row of dimension 0. -/
def TDesc.rowLen (t : TDesc) : Nat :=
  if !t.sparse && !isBlockT t.etype then cdiv (t.dim 0 * etypeBits t.etype) 8
  else t.dim 0 / unitElems t.etype t.n48 * unitBytes t.etype t.n48

/-- The rows of a tensor of rank 2 or less, each as its address and length (R27). -/
def TDesc.rows (t : TDesc) : List (Nat × Nat) := (List.range (t.dim 1)).map fun i => (t.base + i * t.stride1, t.rowLen)

end Sys2Proof.Machine
end

