-- ==== Sys2Proof/Machine/Winner.lean ====
section
/-!
DEFINITION. Family 101, winner lists (R325-R329, R338, R348-R353) and NORMB (R354).
-/

namespace Sys2Proof.Machine

/-! ### Entries and their order (R327, R328) -/

/-- An entry: score and index. -/
abbrev WEnt := Word × Word

/-- A score as an unsigned key. -/
def scoreKey (f : Bool) (x : Word) : Nat := if f then (key32 x).toNat else (x ^^^ 0x80000000#32).toNat

/-- A number that is smaller for an entry that goes before; two entries have one number only when they are equal. -/
def entRank (f : Bool) (e : WEnt) : Nat := (2 ^ 32 - 1 - scoreKey f e.1) * 2 ^ 32 + e.2.toNat

/-- The higher of two scores. -/
def higher (f : Bool) (a b : Word) : Word := if scoreKey f a < scoreKey f b then b else a

/-- The score of the empty marker, and the marker. -/
def emptyScore (f : Bool) : Word := if f then 0xFFFFFFFF#32 else 0x80000000#32
def emptyEnt (f : Bool) : WEnt := (emptyScore f, 0xFFFFFFFF#32)

/-- Inserts an entry in its place; of two equal ones, one is kept. -/
def insertEnt (f : Bool) (x : WEnt) : List WEnt → List WEnt
  | [] => [x]
  | y :: t =>
    if entRank f x < entRank f y then x :: y :: t
    else if entRank f x = entRank f y then y :: t
    else y :: insertEnt f x t

/-- A list in the order of R328. -/
def sortEnts (f : Bool) (l : List WEnt) : List WEnt := l.foldr (insertEnt f) []

/-! ### Rows (R325, R326) -/

/-- A row as it stands in CBUF. -/
structure WRow where
  hdr : Nat
  ents : List WEnt
deriving DecidableEq, Repr

def WRow.seeded (r : WRow) : Bool := nbit r.hdr 40
def WRow.fill (r : WRow) : Nat := nbits r.hdr 32 6
def WRow.seed (r : WRow) : Word := w32 (nbits r.hdr 0 32)

/-- Bytes of a row, and its offset. -/
def rowLen (h : DWord) : Nat := 8 * (hKw h + 1)
def rowOff (h : DWord) (i : Nat) : Nat := hOff h + rowLen h * i

/-- Reads a row: its header, and the entries below its fill. -/
def readRow (m : Mem) (h : DWord) (i : Nat) : WRow :=
  let hd := leNat (m.readN (rowOff h i) 8)
  { hdr := hd
    ents := (List.range (min (nbits hd 32 6) (hKw h))).map fun j =>
      (w32 (leNat (m.readN (rowOff h i + 8 + 8 * j) 4)), w32 (leNat (m.readN (rowOff h i + 12 + 8 * j) 4))) }

/-- An entry's bytes. -/
def entBytes (e : WEnt) : List Byte := toLe 4 e.1.toNat ++ toLe 4 e.2.toNat

/-- A header with another fill. -/
def withFill (hdr n : Nat) : Nat := hdr - nbits hdr 32 6 * 2 ^ 32 + n * 2 ^ 32

/-- The bytes of a row that holds these entries. -/
def rowBytesOf (h : DWord) (hdr : Nat) (es : List WEnt) : List Byte :=
  toLe 8 (withFill hdr es.length) ++
    ((List.range (hKw h)).flatMap fun j => entBytes (es[j]?.getD (emptyEnt (hFloat h))))

/-- R329: a row's entries after a merge. -/
def mergeEnts (h : DWord) (r : WRow) (inc : List WEnt) : List WEnt :=
  let f := hFloat h
  let ok (e : WEnt) : Bool := !r.seeded || decide (scoreKey f r.seed ≤ scoreKey f e.1)
  (sortEnts f (r.ents ++ inc.filter ok)).take (hKw h)

/-- R338: the threshold of a row, if it has one. -/
def rowTheta (h : DWord) (r : WRow) : Option Word :=
  let f := hFloat h
  let last := if r.fill = hKw h then r.ents[hKw h - 1]?.map Prod.fst else none
  match r.seeded, last with
  | true, some x => some (higher f r.seed x)
  | true, none => some r.seed
  | false, x => x

/-- R329: under-filled. -/
def WRow.under (h : DWord) (r : WRow) : Bool := r.seeded && decide (r.fill < hKw h)

/-! ### Access (R348) -/

/-- Bytes of CBUF that an instruction touches for some lanes. -/
structure WTouch where
  lanes : Mask
  off : Nat
  n : Nat
  write : Bool
deriving DecidableEq, Repr

def WTouch.req (x : WTouch) : Req := ⟨x.lanes, w64 x.off, x.n⟩

/-- What the warp acquires first (R265), the range scoreboard and the races of accesses to the block's CBUF. -/
def touchCheck (s : State) (ts : List WTouch) : Except Stop Unit := do
  stallIf (!ts.isEmpty && s.curWarp.acquiring s.cur.split)
  stallIf (ts.any fun x => sbHits s s.curCore 2 s.cur.blk x.off x.n)
  let race (x : WTouch) : Option (DWord × RaceWith) :=
    bufRace s true ⟨s.who, s.instant, x.write, none⟩ ⟨x.req, s.cur.blk, x.off⟩
  failRace s (ts.any fun x => x.write && (race x).isSome) (ts.filterMap fun x => (race x).map fun y => (x.req, y.1, y.2))

/-- The record after them; after a write the warp's streams fetch again (R266). -/
def touchRecord (ts : List WTouch) (s : State) : State :=
  ts.foldl (fun t x => recordBuf t s.cur.blk true s.curAgent x.write none x.off x.n)
    (if ts.any fun x => x.write then wrote s else s)

/-- The handle of the issuing warp. -/
def State.handle (s : State) (k : Fin 8) : DWord := s.curWarp.reg.k[k]

/-- R348: an invalid handle, then a row at or above the list's rows. No access is formed yet, so the record's write bit is 0
(R136, log 139). -/
def handleOk (s : State) (m : Mask) (h : DWord) : Except Stop Unit :=
  trapIf s Kind.invalidHandle (if hValid h then 0 else m)

def rowsOk (s : State) (m : Mask) (h : DWord) (row : Fin 32 → Nat) : Except Stop Unit :=
  failWith s Kind.bufferBound false
    (((lanesOf m).filter fun l => decide (hRows h ≤ row l)).map fun l =>
      (⟨one_ l, w64 (rowOff h (row l)), rowLen h⟩, 0))

/-- The block's CBUF. -/
def State.cbuf (s : State) : Mem := s.curBlock.cbuf.data

/-- Writes the block's CBUF. -/
def putCbuf (off : Nat) (bs : List Byte) (s : State) : State := writeBuf s.cur.blk true (at_ off bs) s

/-! ### WLINIT -/

/-- The handle that WLINIT makes. -/
def mkHandle (f32 : Bool) (kw rows off : Nat) : DWord :=
  w64 (2 ^ 63 + f32.toNat * 2 ^ 62 + kw % 64 * 2 ^ 56 + (rows - 1) % 2 ^ 13 * 2 ^ 43 + off % 2 ^ 18)

/-- WLINIT once its operands are read: `n` rows at `o`. -/
def wlinitOp (m : Mask) (k : Fin 8) (kw : BitVec 6) (f32 : Bool) (o n : Nat) (r : Reading) (s : State) : Res := do
  destCheck r [] s
  trapIf s Kind.illegal (if kw = 0 ∨ 32 < kw.toNat then m else 0)
  faultAt s Kind.descriptor m o (n == 0 || decide (4096 < n))
  faultAt s Kind.misaligned m o (o % 8 != 0)
  faultAt s Kind.bufferBound m o (decide (s.curBlock.cbuf.size < o + 8 * (kw.toNat + 1) * n))
  let h := mkHandle f32 kw.toNat n o
  let ts : List WTouch := [⟨m, o, rowLen h * n, true⟩]
  touchCheck s ts
  let t ← commit r [] s
  let t := (List.range n).foldl (fun t i => putCbuf (rowOff h i) (rowBytesOf h 0 []) t) t
  pure ((touchRecord ts t).updReg fun x => { x with k := x.k.set k h })

/-- WLINIT with the rows in the instruction. -/
def execWlinit (g : Guard) (k : Fin 8) (off : Operand) (kw : BitVec 6) (f32 : Bool) (rowsM1 : BitVec 13) (s : State) :
    Host.Outcome State Fault Refusal :=
  finish (do
    checkIssue g [off] false s
    let m := s.active g
    let r ← readAll g [opU off] s
    if m = 0 then commit r [] s else
      wlinitOp m k kw f32 (uval m (r.w 0)).toNat (rowsM1.toNat + 1) r s) s

/-- WLINIT with the rows in a register. -/
def execWlinitReg (g : Guard) (k : Fin 8) (off : Operand) (kw : BitVec 6) (f32 : Bool) (rows : Operand) (s : State) :
    Host.Outcome State Fault Refusal :=
  finish (do
    checkIssue g [off, rows] false s
    let m := s.active g
    let r ← readAll g [opU off, opU rows] s
    if m = 0 then commit r [] s else
      wlinitOp m k kw f32 (uval m (r.w 0)).toNat (uval m (r.w 1)).toNat r s) s

/-! ### WLTHR -/

/-- A header with a seed. -/
def withSeed (hdr : Nat) (v : Word) : Nat :=
  hdr / 2 ^ 41 * 2 ^ 41 + 2 ^ 40 + nbits hdr 32 8 * 2 ^ 32 + v.toNat

/-- A header with no seeded threshold; `clear` makes the seed 0 too. -/
def noSeed (hdr : Nat) (clear : Bool) : Nat :=
  hdr / 2 ^ 41 * 2 ^ 41 + nbits hdr 32 8 * 2 ^ 32 + (if clear then 0 else nbits hdr 0 32)

/-- The headers that lanes touch. -/
def hdrTouches (m : Mask) (h : DWord) (row : Fin 32 → Nat) : List WTouch :=
  (lanesOf m).map fun l => ⟨one_ l, rowOff h (row l), 8, true⟩

/-- Changes the headers of the lanes' rows in ascending lane order. -/
def mapHeaders (m : Mask) (h : DWord) (row : Fin 32 → Nat) (f : Fin 32 → Nat → Nat) (s : State) : State :=
  (lanesOf m).foldl (fun t l =>
    let o := rowOff h (row l)
    putCbuf o (toLe 8 (f l (leNat (t.cbuf.readN o 8)))) t) s

/-- WLTHR. -/
def execWlthr (g : Guard) (k : Fin 8) (row val : Operand) (max : Bool) (s : State) : Host.Outcome State Fault Refusal :=
  finish (do
    checkIssue g [row, val] false s
    let m := s.active g
    let r ← readAll g [opSrc row, opSrc val] s
    if m = 0 then commit r [] s else do
    let h := s.handle k
    destCheck r [] s
    handleOk s m h
    let at_ (l : Fin 32) : Nat := ((r.w 0)[l]).toNat
    rowsOk s m h at_
    touchCheck s (hdrTouches m h at_)
    let t ← commit r [] s
    pure (touchRecord (hdrTouches m h at_) (mapHeaders m h at_ (fun l hd =>
      let v := (r.w 1)[l]
      withSeed hd (if max && nbit hd 40 then higher (hFloat h) (w32 (nbits hd 0 32)) v else v)) t))) s

/-- WLTHR.clr. -/
def execWlthrClr (g : Guard) (k : Fin 8) (row : Operand) (s : State) : Host.Outcome State Fault Refusal :=
  finish (do
    checkIssue g [row] false s
    let m := s.active g
    let r ← readAll g [opSrc row] s
    if m = 0 then commit r [] s else do
    let h := s.handle k
    destCheck r [] s
    handleOk s m h
    let at_ (l : Fin 32) : Nat := ((r.w 0)[l]).toNat
    rowsOk s m h at_
    touchCheck s (hdrTouches m h at_)
    let t ← commit r [] s
    pure (touchRecord (hdrTouches m h at_) (mapHeaders m h at_ (fun _ hd => noSeed hd false) t))) s

/-! ### WLRD, WLRDT -/

/-- A pair destination of words. -/
def putPair (d : Operand) (m : Mask) (lo hi : Lanes Word) : List Put := [⟨d, 0, m, lo⟩, ⟨nextReg d 1, 0, m, hi⟩]

/-- WLRD. -/
def execWlrd (g : Guard) (d : Operand) (k : Fin 8) (row : Operand) (e : Fin 32) (lane : Bool) (s : State) :
    Host.Outcome State Fault Refusal :=
  finish (do
    checkIssue g [d, row] false s
    let m := s.active g
    let r ← readAll g [opSrc row] s
    if m = 0 then commit r [] s else do
    let h := s.handle k
    handleOk s m h
    let at_ (l : Fin 32) : Nat := ((r.w 0)[l]).toNat
    let idx (l : Fin 32) : Nat := e.val + if lane then l.val else 0
    rowsOk s m h at_
    let ent (l : Fin 32) : WEnt := ((readRow s.cbuf h (at_ l)).ents[idx l]?).getD (emptyEnt (hFloat h))
    let puts := putPair d m (tab fun l => (ent l).1) (tab fun l => (ent l).2)
    destCheck r puts s
    let ts : List WTouch := (lanesOf m).flatMap fun l =>
      let o := rowOff h (at_ l)
      ⟨one_ l, o, 8, false⟩ :: (if idx l < hKw h then [⟨one_ l, o + 8 + 8 * idx l, 8, false⟩] else [])
    touchCheck s ts
    let t ← commit r puts s
    pure (touchRecord ts t)) s

/-- The two words of WLRDT. -/
def thetaWords (h : DWord) (seed : Bool) (r : WRow) : Word × Word :=
  let none_ := emptyScore (hFloat h)
  (if seed then (if r.seeded then r.seed else none_) else (rowTheta h r).getD none_,
   w32 ((r.under h).toNat * 2 ^ 10 + (r.fill == hKw h).toNat * 2 ^ 9 + r.seeded.toNat * 2 ^ 8 + r.fill))

/-- WLRDT. -/
def execWlrdt (g : Guard) (d : Operand) (k : Fin 8) (row : Operand) (seed : Bool) (s : State) :
    Host.Outcome State Fault Refusal :=
  finish (do
    checkIssue g [d, row] false s
    let m := s.active g
    let r ← readAll g [opSrc row] s
    if m = 0 then commit r [] s else do
    let h := s.handle k
    handleOk s m h
    let at_ (l : Fin 32) : Nat := ((r.w 0)[l]).toNat
    rowsOk s m h at_
    let v (l : Fin 32) := thetaWords h seed (readRow s.cbuf h (at_ l))
    let puts := putPair d m (tab fun l => (v l).1) (tab fun l => (v l).2)
    destCheck r puts s
    let ts : List WTouch := (lanesOf m).flatMap fun l =>
      let o := rowOff h (at_ l)
      ⟨one_ l, o, 8, false⟩ :: (if seed then [] else [⟨one_ l, o + rowLen h - 8, 8, false⟩])
    touchCheck s ts
    let t ← commit r puts s
    pure (touchRecord ts t)) s

/-! ### WLMRG, WLCLR -/

/-- Merges a row of one list into a row of another; into itself it changes nothing. -/
def mergeRow (hd : DWord) (i : Nat) (hs : DWord) (j : Nat) (s : State) : State :=
  if rowOff hd i = rowOff hs j ∧ hKw hd = hKw hs then s else
  let a := readRow s.cbuf hd i
  putCbuf (rowOff hd i) (rowBytesOf hd a.hdr (mergeEnts hd a (readRow s.cbuf hs j).ents)) s

/-- WLMRG. -/
def execWlmrg (g : Guard) (kd ks : Fin 8) (row : Operand) (soff : BitVec 13) (s : State) :
    Host.Outcome State Fault Refusal :=
  finish (do
    checkIssue g [row] false s
    let m := s.active g
    let r ← readAll g [opSrc row] s
    if m = 0 then commit r [] s else do
    let hd := s.handle kd
    let hs := s.handle ks
    destCheck r [] s
    handleOk s m hd
    handleOk s m hs
    trapIf s Kind.invalidHandle (if hFloat hd = hFloat hs then 0 else m)
    let into (l : Fin 32) : Nat := ((r.w 0)[l]).toNat
    let from_ (l : Fin 32) : Nat := into l + soff.toNat
    rowsOk s m hd into
    rowsOk s m hs from_
    let ts : List WTouch := (lanesOf m).flatMap fun l =>
      [⟨one_ l, rowOff hs (from_ l), rowLen hs, false⟩, ⟨one_ l, rowOff hd (into l), rowLen hd, true⟩]
    touchCheck s ts
    let t ← commit r [] s
    pure (touchRecord ts ((lanesOf m).foldl (fun t l => mergeRow hd (into l) hs (from_ l) t) t))) s

/-- Clears a row. -/
def clearRow (h : DWord) (seed : Bool) (i : Nat) (s : State) : State :=
  let hd := leNat (s.cbuf.readN (rowOff h i) 8)
  putCbuf (rowOff h i) (rowBytesOf h (if seed then noSeed hd true else hd) []) s

/-- The row operand of WLCLR. -/
def rowSpec : Option Operand → List SrcSpec
  | some o => [opSrc o]
  | none => []

/-- WLCLR. -/
def execWlclr (g : Guard) (k : Fin 8) (row : Option Operand) (seed : Bool) (s : State) : Host.Outcome State Fault Refusal :=
  finish (do
    let qs := rowSpec row
    checkIssue g (opsOf .zero qs) false s
    let m := s.active g
    let r ← readAll g qs s
    if m = 0 then commit r [] s else do
    let h := s.handle k
    destCheck r [] s
    handleOk s m h
    let at_ (l : Fin 32) : Nat := ((r.w 0)[l]).toNat
    if row.isSome then rowsOk s m h at_ else pure ()
    let rows := if row.isSome then (lanesOf m).map at_ else List.range (hRows h)
    let ts : List WTouch := if row.isSome then (lanesOf m).map fun l => ⟨one_ l, rowOff h (at_ l), rowLen h, true⟩
      else [⟨m, hOff h, rowLen h * hRows h, true⟩]
    touchCheck s ts
    let t ← commit r [] s
    pure (touchRecord ts (rows.foldl (fun t i => clearRow h seed i t) t))) s

/-! ### NORMB -/

/-- The exact sum of the squares of values. -/
def sumSquares (xs : List FVal) : FVal :=
  xs.foldl (fun t x => (FVal.add .rn t (FVal.mul x x).1).1) (.fin false 0 0)

/-- 1/√(m·2^e) rounded toward zero: the root of a truncated quotient is the truncated root. -/
def rsqrtRz (m : Nat) (e : Int) : Nat × Flags :=
  let m1 := if e % 2 = 0 then m else 2 * m
  let e1 := if e % 2 = 0 then e else e - 1
  let k := 64 + log2 m1
  let r := Nat.sqrt (2 ^ (2 * k) / m1)
  f32.round .rz false r (-(k : Int) - e1 / 2) (r * r * m1 != 2 ^ (2 * k))

/-- The result of NORMB from the elements of the active lanes. -/
def normbW (kd : NormKind) (xs : List Word) : Word × Flags :=
  match kd with
  | .int =>
    let t := (xs.map fun x => x.toInt.natAbs ^ 2).foldl (· + ·) 0
    if 0xFFFFFFFE < t then (0xFFFFFFFF#32, { sat := true }) else (w32 t, {})
  | .plain => toF32 .ru (sumSquares (xs.map fv))
  | .rs =>
    match sumSquares (xs.map fv) with
    | .nan => (w32 f32.nanBits, {})
    | .inf _ => (0, {})
    | .fin _ m e => if m = 0 then (0, {}) else let (b, f) := rsqrtRz m e; (w32 b, f)

/-- NORMB. -/
def execNormb (g : Guard) (d : Dst) (a b : Src) (kd : NormKind) (s : State) : Host.Outcome State Fault Refusal :=
  finish (do
    let qs := if kd = .int then [srcI a, srcI b] else [srcF a, srcF b]
    checkIssue g (opsOf d.op qs) false s
    let m := s.active g
    let r ← readAll g qs s
    let (v, f) := normbW kd ((lanesOf m).flatMap fun l => [(r.w 0)[l], (r.w 1)[l]])
    let t ← commit r [putOf d m (splat v)] s
    pure (if m = 0 then t else setFlags f t)) s

end Sys2Proof.Machine
end

