-- ==== Sys2Proof/Machine/Attn.lean ====
section
/-!
DEFINITION. Family 101, attention and the KV cache: slab registers, positions and splices (R357-R363), growth (R364-R367,
R381), ATTN with its record (R368, R378), ROTQ (R379), KVSLAB (R380), the merges of SMERGE (R376, R382) and SPLICE (R383).
-/

namespace Sys2Proof.Machine

/-! ### Slabs (R357-R363) -/

/-- Head dimension, bytes of an element, bytes of a token. -/
def Slab.dim (k : Slab) : Nat := if k.hd then 128 else 64
def Slab.esize (k : Slab) : Nat := if k.etype < 2 then 2 else 1
def Slab.eb (k : Slab) : Nat := 2 * k.dim * k.esize

/-- The valid splice entries. -/
def Slab.entries (k : Slab) : List SpliceEnt := k.splices.toList.filter fun e => e.valid

/-- The effective position of a token (R360). -/
def Slab.pos (k : Slab) (t : Nat) : Int :=
  let best := (k.entries.filter fun e => decide (e.first ≤ t)).foldl (fun (b : Option SpliceEnt) e =>
    match b with
    | none => some e
    | some x => if x.first < e.first then some e else b) none
  t + (best.map fun e => e.delta).getD 0

/-- Whether every position of a token range can be rotated: positions rise by one between splice boundaries. -/
def Slab.posOk (k : Slab) (t0 t1 : Nat) : Bool :=
  let firsts := (k.entries.map fun e => e.first).filter fun f => decide (t0 < f) && decide (f < t1)
  ([t0, t1 - 1] ++ firsts ++ firsts.map fun f => f - 1).all fun t =>
    decide (0 ≤ k.pos t) && decide (k.pos t < 2 ^ 24)

/-- Whether a token range holds a stale token (R363). -/
def Slab.hasStale (k : Slab) (t0 t1 : Nat) : Bool :=
  k.entries.any fun e => overlaps t0 (t1 - t0) e.first e.stale && e.stale != 0

def State.slab (s : State) (n : Fin 8) : Slab := s.curBlock.eng.kv[n]
def setSlab (u n : Nat) (f : Slab → Slab) (s : State) : State := s.updEng u fun e => { e with kv := vmod e.kv n f }

/-! ### The attention record (R368) -/

/-- The fields of a record. -/
structure AttnF where
  wval : Nat
  scale : Word
  sOff : Nat
  qOff : Nat
  ropeOff : Nat
  qpos : Nat
  t0 : Nat
  t1 : Nat
  m : Nat
  kv : Nat
  init : Bool
  causal : Bool
  rope : Nat
  defer : Bool
  wcEn : Bool
  wctr : Nat
  wtlEn : Bool
  wtl : Nat
  sigEn : Bool
  sigCtr : Nat
  sigAmt : Nat
  reserved : Nat
deriving DecidableEq, Repr

def AttnF.of (bs : List Byte) : AttnF :=
  let x := leNat bs
  let f (lo n : Nat) : Nat := nbits x lo n
  { wval := f 448 64, scale := w32 (f 416 32), sOff := f 384 32, qOff := f 352 32, ropeOff := f 320 32, qpos := f 296 24,
    t0 := f 272 24, t1 := f 248 24, m := f 240 8, kv := f 237 3, init := nbit x 236, causal := nbit x 235,
    rope := f 233 2, defer := nbit x 232, wcEn := nbit x 231, wctr := f 227 4, wtlEn := nbit x 226, wtl := f 223 3,
    sigEn := nbit x 222, sigCtr := f 218 4, sigAmt := f 202 16, reserved := f 192 10 + f 128 24 + f 0 64 }

/-- Bytes of a row of the softmax state (R369). -/
def stateRow (dim : Nat) : Nat := 8 + 4 * dim

/-- R378: whether a record may be enqueued. -/
def attnOk (b : Block) (k : Slab) (a : AttnF) : Bool :=
  a.reserved == 0 && decide (1 ≤ a.m) && decide (a.m ≤ 128) && a.rope != 3 && decide (a.wtl ≤ 4) && k.valid &&
    decide (a.t0 < a.t1) && decide (a.t1 ≤ k.len) && decide (k.base + a.t1 * k.eb ≤ 2 ^ 56) && a.sOff % 8 == 0 &&
    decide (a.sOff + a.m * stateRow k.dim ≤ b.cbuf.size) && decide (a.qOff + 4 * k.dim * a.m ≤ b.abuf.size) &&
    (a.rope == 0 || decide (a.ropeOff + 2 * k.dim ≤ b.abuf.size))

/-- ATTN. -/
def execAttn (g : Guard) (d off : Operand) (s : State) : Host.Outcome State Fault Refusal :=
  finish (do
    checkIssue g [d, off] false s
    let m := s.active g
    let r ← readAll g [opU off] s
    if m = 0 then commit r [] s else do
    let b := s.curBlock
    let u := s.cur.blk
    let num := (b.eng.tl[2]).enq + 1
    let puts := putAll d m (lo32 num)
    destCheck r puts s
    let o ← recordAt64 s m (uval m (r.w 0)).toNat
    let bs := b.abuf.data.readN o 64
    let a := AttnF.of bs
    let k := (b.eng.kv[a.kv]?).getD Slab.reset
    faultAt s Kind.descriptor m o (!attnOk b k a)
    trapIf s Kind.positionRange (if k.posOk a.t0 a.t1 then 0 else m)
    let body := (s.core s.curCore).body
    stallIf (decide (16 + (body.attnRun.any fun r => r.holds).toNat ≤ body.attn.length))
    let t ← commit r puts s
    let t := engReadBuf u false (engAgent b 2 num) o 64 (enqueue 2 1 t)
    pure (t.updBody s.curCore fun x => { x with attn := x.attn ++
      [{ blk := u, off := o, num, bytes := bs, slab := k, stale := k.hasStale a.t0 a.t1, pages := [] }] })) s

/-! ### ROTQ -/

/-- ROTQ. -/
def execRotq (g : Guard) (d : Dst) (a b : Src) (sin : Bool) (s : State) : Host.Outcome State Fault Refusal :=
  finish (do
    let qs := [srcI a, srcF b]
    checkIssue g (opsOf d.op qs) false s
    let m := s.active g
    let r ← readAll g qs s
    let v := tab fun l => rotary sin ((r.w 0)[l]).toNat ((r.w 1)[l])
    let puts := [putOf d m (tab fun l => (v[l]).1)]
    destCheck r puts s
    trapIf s Kind.positionRange (m &&& maskOf fun l => decide (2 ^ 24 ≤ ((r.w 0)[l]).toNat))
    let t ← commit r puts s
    pure (setFlags (flagsOn m fun l => (v[l]).2) t)) s

/-! ### KVSLAB -/

/-- A slab register out of its 16 bytes; none where they break R357. -/
def parseSlab (bs : List Byte) : Option Slab :=
  let x := leNat bs
  let lg := nbits x 64 5
  let len := nbits x 80 24
  if nbits x 104 24 = 0 ∧ nbits x 56 8 = 0 ∧ 6 ≤ lg ∧ lg ≤ 23 ∧ len ≤ 2 ^ lg ∧ nbits x 0 16 = 0 then
    some { Slab.reset with
      valid := true, len, wrec := nbits x 72 8, etype := nbits x 70 2, hd := nbit x 69, lg, base := nbits x 0 56 }
  else none

/-- KVSLAB. -/
def execKvslab (g : Guard) (n : Fin 8) (off : Operand) (s : State) : Host.Outcome State Fault Refusal :=
  finish (do
    checkIssue g [off] false s
    let m := s.active g
    let r ← readAll g [opU off] s
    if m = 0 then commit r [] s else do
    destCheck r [] s
    let o := (uval m (r.w 0)).toNat
    faultAt s Kind.misaligned m o (o % 16 != 0)
    faultAt s Kind.bufferBound m o (decide (2 ^ 20 ≤ o))
    let (bs, s1) ← loadBuf r.st false true (uniReq m 16 (w64 o))
    match parseSlab (bs.head?.getD []) with
    | none => do
      faultAt s Kind.descriptor m o true
      pure s
    | some k => do
      stallIf (s.slab n).growing
      let t ← commit { r with st := s1 } [] s
      pure (setSlab s.cur.blk n (fun _ => k) t)) s

/-- KVSLAB.len. -/
def execKvslabLen (g : Guard) (n : Fin 8) (len : Operand) (s : State) : Host.Outcome State Fault Refusal :=
  finish (do
    checkIssue g [len] false s
    let m := s.active g
    let r ← readAll g [opU len] s
    if m = 0 then commit r [] s else do
    destCheck r [] s
    let x := (uval m (r.w 0)).toNat
    let k := s.slab n
    trapIf s Kind.descriptor (if k.valid && decide (x ≤ 2 ^ (k.lg + k.growing.toNat)) then 0 else m)
    let t ← commit r [] s
    pure (setSlab s.cur.blk n (fun k => { k with len := x }) t)) s

/-- KVSLAB.rd. -/
def execKvslabRd (g : Guard) (d : Operand) (n : Fin 8) (s : State) : Host.Outcome State Fault Refusal :=
  finish (do
    checkIssue g [d] false s
    let m := s.active g
    let k := s.slab n
    let r ← readAll g [] s
    commit r [⟨d, 0, m, splat (if k.valid then w32 k.len else 0xFFFFFFFF#32)⟩] s) s

/-! ### KVGROW -/

/-- The 32 bytes of the relocation that a growth kicks. -/
def growRequest (src dst len : Nat) (fw : Fin 4) (c : Fin 16) : List Byte :=
  toLe 32 (7 + c.val * 2 ^ 68 + fw.val * 2 ^ 76 + len * 2 ^ 96 + src * 2 ^ 128 + dst * 2 ^ 192)

/-- KVGROW. -/
def execKvgrow (g : Guard) (d : Operand) (n : Fin 8) (base off : Operand) (fw : Fin 4) (c : Fin 16) (s : State) :
    Host.Outcome State Fault Refusal :=
  finish (do
    checkIssue g [d, base, off] false s
    let m := s.active g
    let r ← readAll g [{ op := base, n := 2, uni := true }, opU off] s
    if m = 0 then commit r [] s else do
    let u := s.cur.blk
    let k := s.slab n
    let nb := (Rd.pair (r.at 0) ((lowest m).getD 0)).toNat
    let o := (uval m (r.w 1)).toNat
    let num := (s.curBlock.eng.tl[0]).enq + 1
    let puts := putAll d m (lo32 num)
    destCheck r puts s
    let size := 2 ^ k.lg * k.eb
    trapIf s Kind.descriptor
      (if k.valid && decide (k.lg ≤ 22) && decide (size ≤ 2 ^ 30) && nb % 65536 == 0 then 0 else m)
    faultAt s Kind.misaligned m o (o % 32 != 0)
    faultAt s Kind.bufferBound m o (decide (2 ^ 20 ≤ o) || decide (s.curBlock.abuf.size < o + 32))
    stallIf (s.curWarp.acquiring s.cur.split)
    stallIf (k.growing || decide (32 ≤ (s.core s.curCore).body.kicks.length))
    let t ← commit r puts s
    let t := engWriteBuf u false (engAgent s.curBlock 0 num) o (growRequest k.base nb size fw c) t
    let t := setSlab u n (fun k => { k with link := some fw, growing := true }) (enqueue 0 1 t)
    pure (t.updBody s.curCore fun x => { x with kicks := x.kicks ++ [⟨.blk u, o, num, 1, some (n, nb)⟩] })) s

/-- What the retirement of a growth does to its slab register. -/
def growEnds (u : Nat) (n : Fin 8) (base : Nat) (ok : Bool) (s : State) : State :=
  setSlab u n (fun k =>
    let k := { k with link := none, growing := false }
    if ok then { k with base := base, lg := k.lg + 1 } else k) s

/-! ### The softmax state (R369, R371, R376) -/

/-- e(x) of R371 on an exact value. -/
def expW (x : FVal) : Word × Flags :=
  let (p, f1) := FVal.mul x (fv 0x3FB8AA3B#32)
  let (w, f2) := toF32 .rn p
  let (e, f3) := fexp2W w
  (e, (f1.or f2).or f3)

/-- e(a − b). -/
def expDiff (a b : Word) : Word × Flags :=
  let (d, f1) := FVal.add .rn (fv a) (FVal.neg (fv b))
  let (e, f2) := expW d
  (e, f1.or f2)

/-- round(a·x + b·y, FP32, .rn), one rounding. -/
def dot2 (a x b y : FVal) : Word × Flags :=
  let (p, f1) := FVal.mul a x
  let (q, f2) := FVal.mul b y
  let (t, f3) := FVal.add .rn p q
  let (w, f4) := toF32 .rn t
  (w, (f1.or f2).or (f3.or f4))

/-- The state of one row. -/
structure SoftRow where
  mx : Word
  sum : Word
  out : List Word
deriving DecidableEq, Repr

/-- −∞. -/
def negInf : Word := 0xFF800000#32

/-- The empty state (R369). -/
def SoftRow.empty (dim : Nat) : SoftRow := { mx := negInf, sum := 0, out := List.replicate dim 0 }

/-- Reads and writes a row. -/
def readSoft (m : Mem) (off dim : Nat) : SoftRow :=
  let w (i : Nat) : Word := w32 (leNat (m.readN (off + 4 * i) 4))
  { mx := w 0, sum := w 1, out := (List.range dim).map fun d => w (2 + d) }
def SoftRow.bytes (r : SoftRow) : List Byte := (r.mx :: r.sum :: r.out).flatMap fun w => toLe 4 w.toNat

/-- The union of the events of a list. -/
def allFlags (l : List (Word × Flags)) : Flags := l.foldl (fun a x => a.or x.2) {}

/-- R376: a row merged with another. -/
def mergeSoft (d r : SoftRow) : SoftRow × Flags :=
  let m := fpick32 true (fv d.mx) (fv r.mx)
  if m = negInf then (d, {}) else
  let ad := expDiff d.mx m
  let as_ := expDiff r.mx m
  let comb (x y : Word) := dot2 (fv ad.1) (fv x) (fv as_.1) (fv y)
  let sum := comb d.sum r.sum
  let out := (d.out.zip r.out).map fun p => comb p.1 p.2
  ({ mx := m, sum := sum.1, out := out.map Prod.fst }, allFlags (ad :: as_ :: sum :: out))

/-- round(a/b, FP32, rm) for b not zero. -/
def fdiv32 (rm : Rm) (a b : FVal) : Word × Flags :=
  match a, b with
  | .nan, _ | _, .nan => (w32 f32.nanBits, {})
  | .inf _, .inf _ => (w32 f32.nanBits, { invalid := true })
  | .inf n, .fin k _ _ => (if n != k then negInf else 0x7F800000#32, {})
  | .fin n _ _, .inf k => (if n != k then 0x80000000#32 else 0, {})
  | .fin n m e, .fin k m2 e2 =>
    if m = 0 then (if n != k then 0x80000000#32 else 0, {}) else
    let (q, qe, st) := divApprox m e m2 e2 40
    let (w, f) := f32.round rm (n != k) q qe st
    (w32 w, f)

/-- R376: a row divided by its sum. -/
def finishSoft (rm : Rm) (r : SoftRow) : SoftRow × Flags :=
  if (fv r.sum).isZero then ({ r with out := r.out.map fun _ => 0 }, { invalid := true }) else
  let out := r.out.map fun x => fdiv32 rm (fv x) (fv r.sum)
  ({ r with out := out.map Prod.fst }, allFlags out)

/-! ### SMERGE (R382) -/

/-- Alignment, then bounds, of a range of CBUF. -/
def softRange (s : State) (m : Mask) (o n : Nat) : Except Stop Unit := do
  faultAt s Kind.misaligned m o (o % 8 != 0)
  faultAt s Kind.bufferBound m o (decide (2 ^ 18 ≤ o) || decide (s.curBlock.cbuf.size < o + n))

/-- SMERGE. -/
def execSmerge (g : Guard) (d a : Operand) (rowsM1 : BitVec 7) (hd : Bool) (s : State) :
    Host.Outcome State Fault Refusal :=
  finish (do
    checkIssue g [d, a] false s
    let m := s.active g
    let r ← readAll g [opU d, opU a] s
    if m = 0 then commit r [] s else do
    let rows := rowsM1.toNat + 1
    let dim := if hd then 128 else 64
    let n := rows * stateRow dim
    let od := (uval m (r.w 0)).toNat
    let os := (uval m (r.w 1)).toNat
    destCheck r [] s
    softRange s m od n
    softRange s m os n
    trapIf s Kind.descriptor (if od != os && overlaps od n os n then m else 0)
    let ts : List WTouch := [⟨m, os, n, false⟩, ⟨m, od, n, true⟩]
    touchCheck s ts
    let t ← commit r [] s
    let (t, f) := (List.range rows).foldl (fun (acc : State × Flags) i =>
      let (x, f) := mergeSoft (readSoft acc.1.cbuf (od + i * stateRow dim) dim) (readSoft acc.1.cbuf (os + i * stateRow dim) dim)
      (putCbuf (od + i * stateRow dim) x.bytes acc.1, acc.2.or f)) (t, {})
    pure (setFlags f (touchRecord ts t))) s

/-- SMERGE.fin. -/
def execSmergeFin (g : Guard) (d : Operand) (rowsM1 : BitVec 7) (hd : Bool) (rm : Rm) (s : State) :
    Host.Outcome State Fault Refusal :=
  finish (do
    checkIssue g [d] false s
    let m := s.active g
    let r ← readAll g [opU d] s
    if m = 0 then commit r [] s else do
    let rows := rowsM1.toNat + 1
    let dim := if hd then 128 else 64
    let n := rows * stateRow dim
    let od := (uval m (r.w 0)).toNat
    destCheck r [] s
    softRange s m od n
    let ts : List WTouch := [⟨m, od, n, true⟩]
    touchCheck s ts
    let t ← commit r [] s
    let (t, f) := (List.range rows).foldl (fun (acc : State × Flags) i =>
      let (x, f) := finishSoft rm (readSoft acc.1.cbuf (od + i * stateRow dim) dim)
      (putCbuf (od + i * stateRow dim) x.bytes acc.1, acc.2.or f)) (t, {})
    pure (setFlags f (touchRecord ts t))) s

/-! ### SPLICE (R383) -/

/-- Changes a splice entry of the issuing block. -/
def setSplice (u : Nat) (n e : Fin 8) (f : SpliceEnt → Slab → SpliceEnt) (s : State) : State :=
  setSlab u n (fun k => { k with splices := k.splices.set e (f k.splices[e] k) }) s

/-- A form of SPLICE that has no operand. -/
def spliceOp (g : Guard) (n : Fin 8) (f : State → State) (s : State) : Res := do
  checkIssue g [] false s
  let m := s.active g
  trapIf s Kind.descriptor (if (s.slab n).valid then 0 else m)
  pure (if m = 0 then s else f s)

/-- SPLICE. -/
def execSplice (g : Guard) (n e : Fin 8) (first delta : Operand) (s : State) : Host.Outcome State Fault Refusal :=
  finish (do
    checkIssue g [first, delta] false s
    let m := s.active g
    let r ← readAll g [opU first, opU delta] s
    if m = 0 then commit r [] s else do
    let k := s.slab n
    let fst := (uval m (r.w 0)).toNat
    destCheck r [] s
    let taken := (List.finRange 8).any fun i => i != e && (k.splices[i]).valid && (k.splices[i]).first == fst
    trapIf s Kind.descriptor (if k.valid && decide (fst < 2 ^ 23) && !taken then 0 else m)
    let t ← commit r [] s
    pure (setSplice s.cur.blk n e (fun _ k =>
      { valid := true, first := fst, delta := (uval m (r.w 1)).toInt, stale := k.wrec }) t)) s

/-- SPLICE.fix. -/
def execSpliceFix (g : Guard) (n e : Fin 8) (s : State) : Host.Outcome State Fault Refusal :=
  finish (spliceOp g n (setSplice s.cur.blk n e fun x _ => if x.valid then { x with stale := 0 } else x) s) s

/-- SPLICE.clr. -/
def execSpliceClr (g : Guard) (n e : Fin 8) (s : State) : Host.Outcome State Fault Refusal :=
  finish (spliceOp g n (setSplice s.cur.blk n e fun x _ => { x with valid := false }) s) s

end Sys2Proof.Machine
end

