-- ==== Sys2Proof/Machine/Fabric.lean ====
section
/-!
DEFINITION. Family 110, fabric and generation: messages and endpoints (R426-R433, R445, R446), collective records and
tables (R434, R435, R447), NOISE (R439, R448) and CBPOST (R449).
-/

namespace Sys2Proof.Machine

/-! ### Addresses and endpoints (R426, R427) -/

def faDevice (a : Word) : Nat := nbits a.toNat 20 12
def faDie (a : Word) : Nat := nbits a.toNat 18 2
def faEnd (a : Word) : Nat := nbits a.toNat 9 9

/-- The address of a block's endpoint. -/
def addrOf (s : State) (b : Block) (e : Nat) : Word :=
  w32 (nbits s.fabid.toNat 0 12 * 2 ^ 20 + b.place.die % 4 * 2 ^ 18 + e % 512 * 2 ^ 9)

/-- A range of the block's own ABUF that an instruction names (R233, R237), once the warp's acquires are over (R265). -/
def ownRange (s : State) (m : Mask) (o n align : Nat) : Except Stop Nat := do
  stallIf (s.curWarp.acquiring s.cur.split)
  match bufTarget s s.cur.blk false o n with
  | .error k => do
    faultAt s k m o true
    pure 0
  | .ok (u, off) => do
    faultAt s Kind.bufferBound m o (u != s.cur.blk)
    faultAt s Kind.misaligned m o (off % align != 0)
    pure off

/-- The bytes a message sends: a range of window 0 alone; another window is not the block's own to send from (R445, log 62). -/
def sendRange (s : State) (m : Mask) (o n : Nat) : Except Stop Nat := do
  faultAt s Kind.peerWindow m o (decide (1 ≤ o / 2 ^ 20 ∧ o / 2 ^ 20 ≤ 16))
  ownRange s m o n 1

/-! ### FMSG -/

/-- FMSG. -/
def execFmsg (g : Guard) (addr soff doff : Operand) (lenM1 : BitVec 8) (c : Fin 16) (s : State) :
    Host.Outcome State Fault Refusal :=
  finish (do
    checkIssue g [addr, soff, doff] false s
    let m := s.active g
    let r ← readAll g [opU addr, opU soff, opU doff] s
    if m = 0 then commit r [] s else do
    let u := s.cur.blk
    let b := s.curBlock
    let a := uval m (r.w 0)
    let n := lenM1.toNat + 1
    destCheck r [] s
    let o ← sendRange s m (uval m (r.w 1)).toNat n
    trapIf s Kind.illegal (if faEnd a < 256 ∧ doff = .zero then m else 0)
    trapIf s Kind.replayWrite (if s.curLaunch.desc.replayable then m else 0)
    stallIf (decide (64 ≤ b.eng.inFlight))
    stallIf (s.curLaunch.lagers && !lagerRoom s s.curCore n)
    let (bs, s1) ← loadBuf r.st false false (uniReq m n (w64 o))
    let t ← commit { r with st := s1 } [] s
    let num := (b.eng.tl[4]).enq + 1
    let (id, t) := t.uid
    let msg : Msg := { id, blk := u, num, srcDie := b.place.die, world := s.curLaunch.desc.world, addr := a,
                       doff := (uval m (r.w 2)).toNat, ctr := c.val, data := bs.head?.getD [], agent := engAgent b 4 num, upTo := t.passOn }
    let t := (enqueue 4 1 t).updEng u fun e => { e with inFlight := e.inFlight + 1 }
    pure (emit s.curLaunch.lagers s.curCore (s.outItem (.message msg) none none 0) t)) s

/-! ### FPOLL -/

/-- The word of the query form. -/
def fpollWord (e : BlkEng) (c : Fin 16) : Word :=
  w32 ((ctrDone e c.val).toNat * 2 ^ 31 + e.fabFault.toNat * 2 ^ 30 + e.fabCode % 64 * 2 ^ 24 +
    e.endpoint.isSome.toNat * 2 ^ 8 + (e.endpoint.getD 0) % 256)

/-- FPOLL, query form. -/
def execFpoll (g : Guard) (d : Operand) (c : Fin 16) (clr : Bool) (s : State) : Host.Outcome State Fault Refusal :=
  finish (do
    checkIssue g [d] false s
    let m := s.active g
    let e := s.curBlock.eng
    let r ← readAll g [] s
    let t ← commit r [⟨d, 0, m, splat (fpollWord e c)⟩] s
    if m = 0 then pure t else do
    let t := if ctrDone e c.val then acquireCtrs (2 ^ c.val) s.cur.blk s.cur.warp t else t
    pure (if clr then t.updEng s.cur.blk fun e => { e with fabFault := false, fabCode := 0 } else t)) s

/-- A block takes an endpoint. -/
def takeEndpoint (u e : Nat) (s : State) : State :=
  let s := dropEndpoint u s
  let s := s.updDie (s.block u).place.die fun d => { d with endpoints := AMap.set d.endpoints e u }
  s.updEng u fun x => { x with endpoint := some e }

/-- FPOLL.bind: a number above 255 names no endpoint the spec gives; which one it takes is free (log 40). -/
def execFpollBind (g : Guard) (e : Operand) (s : State) : Host.Outcome State Fault Refusal :=
  finish (do
    checkIssue g [e] false s
    let m := s.active g
    let r ← readAll g [opU e] s
    if m = 0 then commit r [] s else do
    destCheck r [] s
    let x := (uval m (r.w 0)).toNat
    let n := if x < 256 then x else Config.freeNat s.freeCtr % 256
    let held := AMap.get? (s.die s.curBlock.place.die).endpoints n
    trapIf s Kind.endpointBusy (if held.any fun u => u != s.cur.blk then m else 0)
    let t ← commit r [] s
    pure (takeEndpoint s.cur.blk n (if x < 256 then t else { t with freeCtr := t.freeCtr + 1 }))) s

/-- FPOLL.unbind. -/
def execFpollUnbind (g : Guard) (s : State) : Host.Outcome State Fault Refusal :=
  finish (do
    checkIssue g [] false s
    pure (if s.active g = 0 then s else dropEndpoint s.cur.blk s)) s

/-! ### Collective records (R435) -/

/-- The fields of a record. -/
structure CollF where
  gtab : Nat
  seq : Word
  dst : Nat
  src : Nat
  count : Nat
  kw : Nat
  op : Nat
  dtype : Nat
  ssp : Nat
  dsp : Nat
  sigEn : Bool
  sigCtr : Nat
  sigAmt : Nat
  reserved : Nat
  aux : Word
deriving DecidableEq, Repr

def CollF.of (bs : List Byte) : CollF :=
  let x := leNat bs
  let f (lo n : Nat) : Nat := nbits x lo n
  { gtab := f 200 56, seq := w32 (f 168 32), dst := f 148 20, src := f 128 20, count := f 112 16, kw := f 106 6,
    op := f 102 4, dtype := f 100 2, ssp := f 98 2, dsp := f 96 2, sigEn := nbit x 95, sigCtr := f 91 4,
    sigAmt := f 75 16, reserved := f 56 19 + f 32 8, aux := w32 (f 0 32) }

/-- Bytes of the input, and of the result. -/
def CollF.inBytes (c : CollF) : Nat :=
  match c.op with
  | 3 => c.count * (8 * (c.kw + 1))
  | 4 => 8 * c.count
  | 5 => 16 + 8 * c.count
  | _ => 4 * c.count
def CollF.outBytes (c : CollF) : Nat := if c.op = 5 then 16 else c.inBytes

/-- The size of a buffer by its space code. -/
def spaceSize (b : Block) (sp : Nat) : Nat := if sp = 1 then b.abuf.size else b.cbuf.size

/-- R435, R436, R233. -/
def collOk (b : Block) (c : CollF) : Bool :=
  c.reserved == 0 && decide (c.op ≤ 5) && decide (c.dtype ≤ 1) && (c.ssp == 1 || c.ssp == 2) &&
    (c.dsp == 1 || c.dsp == 2) && decide (1 ≤ c.count) && decide (c.count ≤ 4096) &&
    (c.op != 3 || (decide (1 ≤ c.kw) && decide (c.kw ≤ 32))) && (c.op == 5 || c.aux == 0) &&
    decide (c.inBytes ≤ 65536) && decide (c.src + c.inBytes ≤ spaceSize b c.ssp) &&
    decide (c.dst + c.outBytes ≤ spaceSize b c.dsp) && c.gtab % 8 == 0

/-! ### Group tables (R434) -/

/-- Why a table cannot be read: it lies outside tier 0 and is no group table, another core's atomic holds its line back for now
(R412), it is poisoned (R260), or its translation fails with a cause. -/
inductive TabStop where
  | noTable
  | held
  | poison (va : Nat)
  | fault (va cause : Nat)
deriving DecidableEq, Repr

/-- Reads bytes of a block's memory by its die's collective engine, as the core of the block sees them (R293). -/
def readDieBytes (s : State) (u : Nat) (agent : Word) (va : Nat) : Nat → Except TabStop (List Byte × State)
  | 0 => .ok ([], s)
  | n + 1 =>
    match readDieBytes s u agent va n with
    | .error e => .error e
    | .ok (bs, s) =>
      let b := s.block u
      let la := s.launch b.launch
      match translate s (.die b.place.die) la.desc.asid la.desc.world .read (w64 (va + n)) with
      | .error c => .error (.fault (va + n) c)
      | .ok (pa, _, s) =>
        if !inTier0 s pa then .error .noTable
        else if quarantined s b.place.coreNo pa then .error .held
        else if anyPoison s pa 1 then .error (.poison (va + n))
        else .ok (bs ++ engView s b.place.coreNo u pa 1, recordAt s agent s.instant s.instant false none pa 1)

/-- The bytes of a table: its eight bytes of head, then its entries. -/
def readTable (s : State) (u : Nat) (agent : Word) (va : Nat) : Except TabStop (List Byte × State) := do
  let (h, s) ← readDieBytes s u agent va 8
  let n := nbits (leNat h) 32 8
  let (t, s) ← readDieBytes s u agent (va + 8) (4 * n)
  pure (h ++ t, s)

def tabTag (t : List Byte) : Word := w32 (nbits (leNat (t.take 8)) 0 32)
def tabN (t : List Byte) : Nat := nbits (leNat (t.take 8)) 32 8
def tabEntry (t : List Byte) (i : Nat) : Word := wordAt t (8 + 4 * i)

/-- Whether a table is well formed. -/
def tabOk (t : List Byte) : Bool :=
  decide (2 ≤ tabN t) && decide (tabN t ≤ 128) && nbits (leNat (t.take 8)) 40 24 == 0

/-- The position of an address in a table. -/
def tabPos (t : List Byte) (a : Word) : Option Nat := (List.range (tabN t)).find? fun i => tabEntry t i == a

/-! ### COLL -/

/-- A participant enters its instance, or makes it. One that executes its `COLL` again contributes nothing new. -/
def joinColl (tag seq : Word) (p : CollPart) (s : State) : State :=
  match s.colls.find? fun c => c.2.tag == tag && c.2.seq == seq && c.2.parts.all fun q => q.fetched with
  | some (i, _) =>
    { s with colls := AMap.modify s.colls i fun c =>
        if c.parts.any fun q => q.blk == p.blk then
          { c with parts := c.parts.map fun q =>
              if q.blk = p.blk then { p with input := q.input, sent := q.sent } else q }
        else { c with parts := c.parts ++ [p] } }
  | none =>
    let (i, s) := s.uid
    { s with colls := AMap.set s.colls i { tag, seq, parts := [p], failed := false, doneAt := none } }

/-- A participant as it issues. -/
def newPart (u : Nat) (num : DWord) (off : Nat) (record : List Byte) (now : Nat) : CollPart :=
  { blk := u, num, off, record, table := [], pos := 0, input := [], sent := false, fetched := false, waitSlot := none,
    t := now, delivered := false }

/-- A participant whose table cannot be read yet posts a fault and waits (R456), with the black-box entry of a world fault
(R254). -/
def collFault (u : Nat) (p : CollPart) (seq : Word) (va cause : Nat) (s : State) : State :=
  let b := s.block u
  let la := s.launch b.launch
  let (i, s) := s.uid
  let words := faultWords la.desc.asid cause 3 false la.desc.world (engAgent b 3 p.num) va Kind.translation
  let (slot, s) := postFault b.place.die words (.coll i u) s
  let q : CollPart := { p with waitSlot := some (slot.getD 64) }
  worldNote b.place.die la.desc.asid cause (engAgent b 3 p.num) (w64 va) { s with colls := AMap.set s.colls i { tag := 0, seq, parts := [q], failed := false, doneAt := none } }

/-- COLL. A poisoned table is an uncorrectable-data fault here, where its bytes are consumed (R260): R438 has no code for it. -/
def execColl (g : Guard) (d off : Operand) (s : State) : Host.Outcome State Fault Refusal :=
  finish (do
    checkIssue g [d, off] false s
    let m := s.active g
    let r ← readAll g [opU off] s
    if m = 0 then commit r [] s else do
    let u := s.cur.blk
    let b := s.curBlock
    let la := s.curLaunch
    let num := (b.eng.tl[3]).enq + 1
    let puts := putAll d m (lo32 num)
    destCheck r puts s
    let o := (uval m (r.w 0)).toNat
    faultAt s Kind.descriptor m o (decide (o % 32 ≠ 0 ∨ b.abuf.size < o + 32))
    let bs := b.abuf.data.readN o 32
    let c := CollF.of bs
    stallIf (s.curWarp.acquiring s.cur.split)
    faultAt s Kind.descriptor m o (!collOk b c || b.eng.endpoint.isNone)
    let agent := engAgent b 3 num
    let p := newPart u num o bs s.now
    let enq (t : State) : State := engReadBuf u false agent o 32 (enqueue 3 1 t)
    match readTable r.st u agent c.gtab with
    | .error .noTable => do
      faultAt s Kind.descriptor m o true
      pure s
    | .error .held => .error .stall
    | .error (.poison va) => do
      faultAt s Kind.uncorrectable m va true
      pure s
    | .error (.fault va cause) => do
      trapIf s Kind.replayWrite (if la.desc.replayable then m else 0)
      let t ← commit r puts s
      pure (collFault u p c.seq va cause (enq t))
    | .ok (tab, s1) => do
      let pos := tabPos tab (addrOf s b (b.eng.endpoint.getD 0))
      faultAt s Kind.descriptor m o (!tabOk tab || pos.isNone)
      trapIf s Kind.replayWrite (if la.desc.replayable then m else 0)
      let t ← commit { r with st := s1 } puts s
      pure (joinColl (tabTag tab) c.seq { p with table := tab, pos := pos.getD 0, fetched := true } (enq t))) s

/-! ### NOISE (R439) -/

/-- One step of the hash. -/
def noiseMix (h w : Word) : Word :=
  let h := (h ^^^ w) * 0x85EBCA6B#32
  let h := h ^^^ (h >>> 13)
  let h := h * 0xC2B2AE35#32
  h ^^^ (h >>> 16)

/-- hash(c). -/
def noiseHash (seed sq step idx c : Word) : Word :=
  noiseMix (noiseMix (noiseMix (noiseMix (seed ^^^ 0x9E3779B9#32) sq) step) idx) c

/-- u(c): half-way values that FP32 does not hold go to one of their neighbours below 1, a free choice (log 41). -/
def noiseU (h : Word) : Word :=
  let x := (h >>> 8).toNat
  let (lo, f) := f32.round .rz false (2 * x + 1) (-25)
  if f.inexact && Config.faithfulUp 3 (w32 x) && x != 2 ^ 24 - 1 then w32 (lo + 1) else w32 lo

/-- A product rounded to nearest. -/
def mulRn (a b : Word) : Word := (fmul32 .rn (fv a) (fv b)).1

/-- The value of a distribution. -/
def noiseW (kd : NoiseKind) (seed sq step idx : Word) : Word :=
  let u (c : Word) : Word := noiseU (noiseHash seed sq step idx c)
  match kd with
  | .uni => u 0
  | .gum =>
    let t := mulRn (flog2W (u 0)).1 0xBF317218#32
    let t := if FVal.test .le (fv t) (.fin false 0 0) then 1#32 else t
    mulRn (flog2W t).1 0xBF317218#32
  | .nrm =>
    let a := (fsqrtW .rn (mulRn (flog2W (u 0)).1 0xBFB17218#32)).1
    mulRn a (fcosW (mulRn (u 1) 0x40C90FDB#32)).1

/-- NOISE. -/
def execNoise (g : Guard) (d : Dst) (key step idx : Src) (kd : NoiseKind) (s : State) :
    Host.Outcome State Fault Refusal :=
  finish (do
    let qs : List SrcSpec := [{ op := key.op, hold := key.hold, n := 2, uni := true }, srcU step, srcI idx]
    checkIssue g (opsOf d.op qs) false s
    let m := s.active g
    let r ← readAll g qs s
    let v := tab fun l => noiseW kd ((r.at 0)[0])[l] ((r.at 0)[1])[l] (r.w 1)[l] (r.w 2)[l]
    commit r [putOf d m v] s) s

/-! ### CBPOST (R449) -/

/-- CBPOST. -/
def execCbpost (g : Guard) (pred off : Operand) (c : Fin 16) (budget : BitVec 16) (s : State) :
    Host.Outcome State Fault Refusal :=
  finish (do
    checkIssue g [pred, off] false s
    let m := s.active g
    let r ← readAll g [opU pred, opU off] s
    if m = 0 then commit r [] s else do
    let u := s.cur.blk
    let b := s.curBlock
    destCheck r [] s
    let o ← ownRange s m (uval m (r.w 1)).toNat 32 32
    stallIf (s.curLaunch.lagers && !lagerRoom s s.curCore 8)
    let num := (b.eng.tl[4]).enq + 1
    let t ← commit r [] s
    let t := engReadBuf u false (engAgent b 4 num) o 32 (enqueue 4 1 t)
    pure (emit s.curLaunch.lagers s.curCore (s.outItem
      (.post o (uval m (r.w 0)).toNat c.val num budget.toNat (b.abuf.data.readN o 32)) none none 0) t)) s

/-- A predicate run joins the control core's queue (R79). -/
def pushCall (d : Nat) (c : Call) (s : State) : State := s.updDie d fun x => x.setCalls s.now (x.calls ++ [c])

/-- The head run has ended. -/
def popCall (d : Nat) (s : State) : State := s.updDie d fun x => x.setCalls s.now (x.calls.drop 1)

/-- R432: a core logs what is delivered to its blocks from outside, so that a rollback can deliver it again. -/
def logMsg (u src : Nat) (m : Msg) (s : State) : State :=
  s.updCore (s.block u).place.coreNo fun k => { k with msgLog := k.msgLog ++ [(s.epoch, { m with blk := u, srcDie := src })] }

/-- What reaches a block goes into its buffer, its counter goes down, and the delivery is logged (R429, R449). -/
def deliverTo (u : Nat) (m : Msg) (s : State) : State :=
  if (AMap.get? s.blocks u).isNone then s else
  let num : DWord := if 5 ≤ m.srcDie then m.num else w64 (65535 - m.id % 32768)
  let agent := engAgent (s.block u) 4 num
  let s := (engWriteBuf u false agent m.doff m.data s).updEng u fun e =>
    let e := countDown m.ctr m.data.length (4, num) { e with orders := e.orders ++ [⟨4, num, 1, m.upTo⟩] }
    if m.srcDie = 6 then completeOn 4 num e else e
  logMsg u (if m.srcDie = 6 then 6 else 5) { m with num, agent, sets := (s.block u).eng.sets[m.ctr]?.getD 0 } s

end Sys2Proof.Machine
end

