-- ==== Sys2Proof/Machine/Nodes.lean ====
section
/-!
DEFINITION. Context timelines (R66), the halt of a queue (R63, R65, R74) and the progress of resident graphs (R71-R74).
-/

namespace Sys2Proof.Machine

/-! ### Timelines and queues -/

/-- A context timeline rises (R66): its interrupt is raised once, unless it is disarmed. -/
def raiseTimeline (c n : Nat) (v : DWord) (s : State) : State :=
  let t := (((s.ctx c).tls)[n]?).getD { value := 0, irqAt := 0xFFFFFFFFFFFFFFFF }
  let value := if t.value.toNat < v.toNat then v else t.value
  let fires := t.irqAt != 0xFFFFFFFFFFFFFFFF && decide (t.irqAt.toNat ≤ value.toNat)
  let s := s.updCtx c fun x => { x with tls := vmod x.tls n fun _ =>
    { value := value, irqAt := if fires then 0xFFFFFFFFFFFFFFFF else t.irqAt } }
  if fires then sendIrq c s else s

/-- Halts a queue; a halted queue keeps its record (R65). -/
def haltQueue (c q : Nat) (f : Queue → Queue) (s : State) : State :=
  s.updCtx c fun x => { x with queues := vmod x.queues q fun y => if y.halted then y else f { y with halted := true } }

/-- A refused entry halts its queue at itself. -/
def haltEarly (c q status : Nat) (s : State) : State :=
  haltQueue c q (fun y => { y with late := false, status := BitVec.ofNat 8 status, fnode := 0xFFFF, failAt := 0 }) s

/-- A failure after start. -/
def haltLate (c q : Nat) (entry : Word) (fnode status : Nat) (s : State) : State :=
  haltQueue c q (fun y => { y with
    late := true, status := BitVec.ofNat 8 status, fnode := BitVec.ofNat 16 fnode, failAt := entry }) s

/-! ### Graphs -/

def State.graph? (s : State) (d gr : Nat) : Option Graph := AMap.get? (s.die d).graphs gr

/-- The CALLBACK nodes of a graph join the queue of their die's control core as they become ready (R79). -/
def queueCalls (now gr : Nat) (x : Die) : Die :=
  let fresh (g : Graph) : List Call :=
    (g.nodes.filter fun p => p.2.type == 6 && p.2.st == .ready && !x.calls.contains (.ready gr p.1)).map fun p => .ready gr p.1
  match AMap.get? x.graphs gr with
  | none => x
  | some g => x.setCalls now (x.calls ++ fresh g)
def Graph.node? (g : Graph) (i : Nat) : Option Node := AMap.get? g.nodes i
def Graph.setNode (g : Graph) (i : Nat) (f : Node → Node) : Graph := { g with nodes := AMap.modify g.nodes i f }

/-- Whether node `i` lies in the body of a WHILE node `w`. -/
def inBody (w i : Nat) (n : Node) : Bool := n.type == 3 && decide (w < i) && decide (i ≤ n.aux)

/-- The innermost WHILE around a node. -/
def Graph.parent (g : Graph) (i : Nat) : Option Nat :=
  ((g.nodes.filter fun p => inBody p.1 i p.2).getLast?).map Prod.fst

/-- Whether a node has finished. -/
def Node.over (n : Node) : Bool := n.st == .done || n.st == .skipped

/-- Whether a node has finished, or lies in the body of a WHILE that has. -/
def Graph.settled (g : Graph) (i : Nat) (n : Node) : Bool :=
  n.over || g.nodes.any fun p => inBody p.1 i p.2 && p.2.over

/-- A node becomes ready: a WHILE counts its iterations anew (log 42). -/
def Node.makeReady (n : Node) : Node := { n with st := .ready, iters := 0 }

/-- Whether every predecessor of a node has finished. -/
def Node.allHeard (n : Node) : Bool := decide (n.npred ≤ n.heard.length)

/-- Whether one of a node's predecessors counts as completed. -/
def Node.anyDone (n : Node) : Bool := n.heard.any fun p => p.2

/-- R72: the predecessor `j` of an idle node `i` has finished; `taken` says that it counts as completed. A node all of whose
predecessors were skipped is skipped, and so on; `fuel` bounds the chain. -/
def Graph.predDone (j : Nat) (taken : Bool) : Nat → Nat → Graph → Graph
  | 0, _, g => g
  | fuel + 1, i, g =>
    match g.node? i with
    | none => g
    | some n =>
      if n.st ≠ .idle then g else
      let n := { n with heard := n.heard ++ [(j, taken)] }
      let g := g.setNode i fun _ => n
      if !n.allHeard then g
      else if n.anyDone then g.setNode i Node.makeReady
      else
        let g := g.setNode i fun x => { x with st := .skipped }
        n.succ.foldl (fun g k => g.predDone i false fuel k) g

/-- A node finishes by completing; `skip` are positions among its successor fields that are not taken. -/
def Graph.complete (i : Nat) (skip : List Nat) (g : Graph) : Graph :=
  match g.node? i with
  | none => g
  | some n =>
    let g := g.setNode i fun x => { x with st := .done }
    n.succ.zipIdx.foldl (fun g p => g.predDone i (!skip.contains p.2) (g.nodes.length + 1) p.1) g

/-- Makes the nodes of one level with no predecessor ready. -/
def Graph.startLevel (p : Option Nat) (g : Graph) : Graph :=
  g.nodes.foldl (fun h x => if x.2.npred = 0 ∧ g.parent x.1 = p then h.setNode x.1 Node.makeReady else h) g

/-- A new iteration of a WHILE. -/
def Graph.iterate (w last : Nat) (g : Graph) : Graph :=
  let g := { g with nodes := AMap.mapVals g.nodes fun i n =>
    if w < i ∧ i ≤ last then { n with st := .idle, heard := [] } else n }
  (g.setNode w fun n => { n with iters := n.iters + 1, st := .running }).startLevel (some w)

/-- A node whose predecessors have all finished becomes ready, or is skipped where none of them counts as completed. -/
def Graph.settleNode (g : Graph) (i : Nat) : Graph :=
  match g.node? i with
  | none => g
  | some n =>
    if n.st ≠ .idle || !n.allHeard then g
    else if n.npred = 0 || n.anyDone then g.setNode i Node.makeReady
    else
      let g := g.setNode i fun x => { x with st := .skipped }
      n.succ.foldl (fun g k => g.predDone i false (g.nodes.length + 1) k) g

/-- The nodes that come after those of a list, as far as `fuel` steps along the successors. -/
def Graph.after (g : Graph) : Nat → List Nat → List Nat
  | 0, l => l
  | fuel + 1, l => g.after fuel (l ++ (l.flatMap fun i => ((g.node? i).map Node.succ).getD []).eraseDups.filter fun i => !l.contains i)

/-- The redraw range of the CALLBACK node `i` from node `lo` on (R77), but for what comes after the CALLBACK itself, which has not
run. -/
def Graph.range (g : Graph) (lo i : Nat) : List Nat :=
  let later := g.after g.nodes.length [i]
  (g.nodes.map Prod.fst).filter fun j => decide (lo ≤ j) && decide (j < i) && !later.contains j

/-- Whether the nodes of a redraw range have finished. -/
def Graph.rangeOver (g : Graph) (lo i : Nat) : Bool :=
  (g.range lo i).all fun j => (g.node? j).all fun n => g.parent j != g.parent i || g.settled j n

/-- Starts the redraw range of the CALLBACK `i` again (R78): what its nodes have heard from each other, and what a node that still
waits has heard from them, will come again; what other nodes have told them stands. -/
def Graph.rerun (lo i : Nat) (g : Graph) : Graph :=
  let inside := g.range lo i
  let back (j : Nat) (n : Node) : Node :=
    let heard := n.heard.filter fun p => !inside.contains p.1
    if inside.contains j then { n with st := .idle, heard := heard, redraw := none }
    else if n.st = .idle then { n with heard := heard } else n
  let g := { g with nodes := AMap.mapVals g.nodes back }
  let g := inside.foldl (fun h j => if g.parent j == g.parent i then h.settleNode j else h) g
  g.setNode i fun n => { n with redraw := some (lo, true) }

/-- One step of a redraw after a VETO (R78): once the range's earlier run is over it runs again, and once that is over the predicate
does. -/
def Graph.redrawStep (g : Graph) (i : Nat) : Graph :=
  match (g.node? i).bind Node.redraw with
  | none => g
  | some (lo, again) =>
    if !g.rangeOver lo i then g
    else if again then g.setNode i fun n => { n.makeReady with redraw := none }
    else g.rerun lo i

/-- The redraws of a graph go on as far as they can. -/
def Graph.redraws (g : Graph) : Graph :=
  if g.failed.isSome then g else
  (g.nodes.map Prod.fst).foldl (fun g i => (g.redrawStep i).redrawStep i) g

/-- A graph changes, and what waits on the change goes on. -/
def State.updGraph (d gr : Nat) (f : Graph → Graph) (s : State) : State :=
  s.updDie d fun x => queueCalls s.now gr { x with graphs := AMap.modify x.graphs gr fun g => (f g).redraws }

/-- The graph is complete once every node has finished (R72): its timeline rises and its place is free. -/
def settleGraph (d gr : Nat) (s : State) : State :=
  match s.graph? d gr with
  | none => s
  | some g =>
    if g.failed.isSome ∨ g.nodes.any (fun p => !g.settled p.1 p.2) then s else
    raiseTimeline g.ctx g.tl g.value (s.updDie d fun x => { x with graphs := AMap.erase x.graphs gr })

/-- R74: the first failure of a graph. Nodes that have not started never do; waits are withdrawn; what runs goes on. -/
def failGraph (d gr node status : Nat) (s : State) : State :=
  match s.graph? d gr with
  | none => s
  | some g =>
    if g.failed.isSome then s else
    let running (i : Nat) : Bool := match (s.die d).calls.head? with
      | some (.node r k _) => r == gr && k == i
      | _ => false
    let stop (i : Nat) (n : Node) : Node :=
      if n.st = .ready ∨ (n.st = .running ∧ (n.type = 3 ∨ n.type = 4 ∨ (n.type = 6 ∧ !running i))) then
        { n with st := .idle } else n
    s.updDie d fun x =>
      { x.setCalls s.now (x.calls.zipIdx.filterMap fun p => match p.1 with
          | .ready r _ => if r = gr then none else some p.1
          | .node r _ _ => if r = gr ∧ p.2 ≠ 0 then none else some p.1
          | c => some c) with
        graphs := AMap.modify x.graphs gr fun g => { g with failed := some (node, status), nodes := AMap.mapVals g.nodes stop } }

/-- A running node ends: a failure of a graph that has failed changes nothing that is recorded. -/
def endNode (d gr i : Nat) (fail : Option Nat) (skip : List Nat) (s : State) : State :=
  match s.graph? d gr with
  | none => s
  | some g =>
    if g.failed.isSome then s.updGraph d gr fun g => g.setNode i fun n => { n with st := .done }
    else match fail with
      | some status => failGraph d gr i status (s.updGraph d gr fun g => g.setNode i fun n => { n with st := .done })
      | none => settleGraph d gr (s.updGraph d gr (Graph.complete i skip))

end Sys2Proof.Machine
end

