-- ==== Sys2Proof/Machine/Fit.lean ====
section
/-!
DEFINITION. What a core holds (R11, R12), how blocks and launch clusters find room (R86, R87), and which hardware clusters
a launch may use (R88, R93, R96, R97, R487).
-/

namespace Sys2Proof.Machine

/-! ### Room on a core -/

/-- What a block needs of a core (R11): its resident warps, each one's slots in every bank, its buffers in KiB, whether its
warps have shadows (R467), whether its launch lagers, and its world. -/
structure Need where
  warps : List Nat
  perBank : Nat
  paired : Bool
  lagers : Bool
  abuf : Nat
  cbuf : Nat
  wbuf : Nat
  world : Bool
deriving DecidableEq, Repr, Inhabited

/-- What is in use on a core; `warps` and `regs` are by sub-core. -/
structure Room where
  slots : List Nat
  warps : List Nat
  regs : List Nat
  share : Bool
  abuf : Nat
  cbuf : Nat
  wbuf : Nat
  world : Option Bool
deriving DecidableEq, Repr, Inhabited

/-- An empty core. -/
def Room.empty : Room :=
  { slots := [], warps := [0, 0, 0, 0], regs := [0, 0, 0, 0], share := false, abuf := 0, cbuf := 0, wbuf := 0, world := none }

/-- The sub-cores of warps in a slot (R9). -/
def subsOf (slot : Nat) (warps : List Nat) : List Nat := warps.map fun w => subCore w slot

/-- Adds to the count of every sub-core. -/
def bump (l subs : List Nat) (k : Nat) : List Nat := l.mapIdx fun i x => x + k * subs.count i

/-- A core with one more block in a slot. -/
def Room.add (r : Room) (slot : Nat) (n : Need) : Room :=
  let k := if n.paired then 2 else 1
  { slots := slot :: r.slots
    warps := bump r.warps (subsOf slot n.warps) k
    regs := bump r.regs (subsOf slot n.warps) (k * n.perBank)
    share := r.share || n.lagers
    abuf := r.abuf + n.abuf
    cbuf := r.cbuf + n.cbuf
    wbuf := r.wbuf + n.wbuf
    world := some n.world }

/-- R11, bank by bank with the retention share of R12. -/
def Room.holds (r : Room) : Bool :=
  decide (r.slots.length ≤ 8) && r.warps.all (fun n => decide (n ≤ 16)) &&
    r.regs.all (fun n => decide (n ≤ if r.share then 112 else 128)) &&
    decide (r.abuf ≤ 768) && decide (r.cbuf ≤ 256) && decide (r.wbuf ≤ 1536)

/-- The lowest free slot of a core and the core with the block in it, when it fits; a core that holds blocks of the other
world is full (R487). -/
def Room.take (r : Room) (n : Need) : Option (Nat × Room) :=
  if !r.slots.isEmpty && r.world != some n.world then none else
  match (List.range 8).find? fun i => !r.slots.contains i with
  | none => none
  | some i => if (r.add i n).holds then some (i, r.add i n) else none

/-- The slots a warp of a kernel reserves in every bank (R148). -/
def Header.perBank (h : Header) : Nat := cdiv h.regs 4

/-- What a fresh block of a launch needs. -/
def needOf (h : Header) (d : Desc) : Need :=
  { warps := List.range (cdiv d.threads 32), perBank := h.perBank, paired := h.paired, lagers := !h.lagerOff
    abuf := h.abuf, cbuf := h.cbuf, wbuf := h.wbuf, world := d.world }

/-- What a block that has started needs: its warps that have not retired. -/
def needNow (s : State) (b : Block) : Need :=
  let la := s.launch b.launch
  { needOf la.hdr la.desc with warps := (b.warps.filter fun p => !p.2.retired).map Prod.fst }

/-- What is in use on a core now: its blocks, and the reservations of warps that retired less than two epochs ago
(R478). -/
def roomOf (s : State) (c : Nat) : Room :=
  let r := (s.blocks.filter fun p => p.2.place.coreNo == c && p.2.state != .saved).foldl
    (fun r p => r.add p.2.place.slot (needNow s p.2)) Room.empty
  (s.core c).body.leftover.foldl (fun r x => { r with regs := bump r.regs [x.sub] x.perBank }) r

/-! ### Hardware clusters -/

/-- A hardware cluster of a die with its four cores. -/
structure Bay where
  die : Nat
  cl : Nat
  rooms : List Room
deriving DecidableEq, Repr, Inhabited

/-- The core for the next block (R87): where it fits, the most free slots, then the lower number. -/
def bestCore (rooms : List Room) (n : Need) : Option (Nat × Nat × Room) :=
  rooms.zipIdx.foldl (fun best p =>
    match p.1.take n with
    | none => best
    | some (slot, r) =>
      match best with
      | none => some (p.2, slot, r)
      | some (_, _, q) => if r.slots.length < q.slots.length then some (p.2, slot, r) else best) none

/-- Places blocks in order on the cores of one hardware cluster: each one's core and slot. -/
def placeBlocks : List Room → List Need → Option (List (Nat × Nat) × List Room)
  | rooms, [] => some ([], rooms)
  | rooms, n :: t =>
    match bestCore rooms n with
    | none => none
    | some (c, slot, r) =>
      match placeBlocks (rooms.set c r) t with
      | none => none
      | some (l, rs) => some ((c, slot) :: l, rs)

/-- What asks for room together on one hardware cluster: a launch cluster or a part of one, its number, its die, the hardware
cluster it is held to if it is, its blocks, by index in the grid or by name, and their needs. -/
structure Ask where
  k : Nat
  die : Nat
  cl : Option Nat
  ids : List Nat
  needs : List Need
deriving DecidableEq, Repr, Inhabited

/-- Whether it may go to a bay. -/
def Ask.suits (a : Ask) (b : Bay) : Bool := b.die == a.die && (a.cl.isNone || a.cl == some b.cl)

/-- The lowest hardware cluster on which it fits. -/
def placeInBays (a : Ask) : List Bay → Option (Nat × List (Nat × Nat) × List Bay)
  | [] => none
  | b :: t =>
    match (if a.suits b then placeBlocks b.rooms a.needs else none) with
    | some (l, rs) => some (b.cl, l, { b with rooms := rs } :: t)
    | none =>
      match placeInBays a t with
      | some (c, l, bs) => some (c, l, b :: bs)
      | none => none

/-- An ask that has found its place: the hardware cluster, and each block's core in that cluster and slot. -/
structure Spot where
  ask : Ask
  cl : Nat
  at_ : List (Nat × Nat)
deriving DecidableEq, Repr, Inhabited

/-- Places several asks together. -/
def placeAll : List Bay → List Ask → Option (List Spot × List Bay)
  | bays, [] => some ([], bays)
  | bays, a :: t =>
    match placeInBays a bays with
    | none => none
    | some (c, l, bs) =>
      match placeAll bs t with
      | none => none
      | some (r, bs) => some (⟨a, c, l⟩ :: r, bs)

/-- Each block's place (R9). -/
def Spot.places (p : Spot) : List (Nat × Place) :=
  (p.ask.ids.zip p.at_).map fun x =>
    (x.1, { index := x.1, lcluster := p.ask.k, die := p.ask.die, core := 4 * p.cl + x.2.1, slot := x.2.2 })

/-! ### The parts of a launch (R23, R88, R97) -/

/-- How many launch clusters and floors. -/
def Desc.nClusters (d : Desc) : Nat := cdiv d.blocks d.clusterBlocks
def Desc.nFloors (d : Desc) : Nat := cdiv d.nClusters d.floorClusters

/-- The blocks of a launch cluster: first index and count. -/
def Desc.blocksIn (d : Desc) (k : Nat) : Nat × Nat :=
  (k * d.clusterBlocks, min d.clusterBlocks (d.blocks - k * d.clusterBlocks))

/-- The die on which the floor of a launch cluster runs. -/
def dieFor (h : Header) (d : Desc) (k : Nat) : Nat :=
  if h.draught then d.homeDie else (d.homeDie + k / d.floorClusters) % 4

/-- The launch clusters of a floor. -/
def Desc.floorOf (d : Desc) (f : Nat) : List Nat :=
  (List.range (min d.floorClusters (d.nClusters - f * d.floorClusters))).map fun i => f * d.floorClusters + i

/-- A launch cluster as a request for places. -/
def askFor (h : Header) (d : Desc) (k : Nat) : Ask :=
  { k, die := dieFor h d k, cl := none, ids := (List.range (d.blocksIn k).2).map fun i => (d.blocksIn k).1 + i
    needs := List.replicate (d.blocksIn k).2 (needOf h d) }

/-! ### Which hardware clusters -/

/-- The hardware clusters of a die in use (R113), each as a bay; `rooms` gives what its cores hold. -/
def baysOf (s : State) (d : Nat) (rooms : Nat → Room) : List Bay :=
  ((List.range 12).filter fun c => (s.die d).inUse.getLsbD c).map fun c =>
    ⟨d, c, (List.range 4).map fun i => rooms (48 * d + 4 * c + i)⟩

/-- Empty bays of the whole package. -/
def emptyBays (s : State) : List Bay := (List.range 4).flatMap fun d => baysOf s d fun _ => Room.empty

/-- The gang blocks of a die's contexts with a cluster reserved: context, gang number, block. -/
def gangsOn (s : State) (d : Nat) : List (Nat × Nat × Gang) :=
  (s.contexts.filter fun p => p.1 / 16 == d).flatMap fun p =>
    (p.2.gangs.toList.zipIdx.filter fun g => g.1.state != 0).map fun g => (p.1, g.2, g.1)

/-- The gang a launch belongs to. -/
def Launch.gangOf (la : Launch) : Option (Nat × Nat) := if la.desc.gang then some (la.ctx, la.desc.gangId) else none

/-- Whether a launch may use a hardware cluster: not one that a gang reserves for others (R87, R93), and a member only its
own (R96); none on which a test is due (R112), and none of a die that has stopped (R486). -/
def mayUse (s : State) (la : Launch) (d c : Nat) : Bool :=
  let gs := (gangsOn s d).filter fun g => g.2.2.clusters.getLsbD c
  (match la.gangOf with
    | none => gs.isEmpty
    | some (x, g) => gs.any fun y => y.1 == x && y.2.1 == g) &&
    !((s.die d).tests.any fun t => t.cluster == c && t.begun) && !(s.die d).stopped

/-- The bays a launch may use now. -/
def baysFor (s : State) (la : Launch) : List Bay :=
  (List.range 4).flatMap fun d => (baysOf s d (roomOf s)).filter fun b => mayUse s la d b.cl

end Sys2Proof.Machine
end

