-- ==== Sys2Proof/Machine/Launch.lean ====
section
/-!
DEFINITION. Queue entries and launches: the checks of R17, R21, R63 and R80, acceptance, the start of queue entries
(R59-R62), the completion, failure and replay of a launch (R65, R67, R83, R481, R482), and the host's writes of a context's
register page (R56-R58, R66).
-/

namespace Sys2Proof.Machine

/-! ### Reads of the command processor (R63) -/

/-- The first address of every 64 KiB unit that a range of addresses meets, the range's own start first. -/
def unitsOf (a n : Nat) : List Nat :=
  if n = 0 then [] else a :: (List.range ((a + n - 1) / 65536 - a / 65536)).map fun i => (a / 65536 + 1 + i) * 65536

/-- Why an access of the command processor or the walker cannot be made: its translation failed, with its ASID, its address and
its cause; or it waits, for an atomic that may still be undone (R412) or the link (R492), or for an overflow page at the home of
an address (R258). -/
inductive NoPage where
  | fault (asid va cause : Nat)
  | held
  | full (pa : Nat)
deriving DecidableEq, Repr

/-- Whether the access only waits. -/
def NoPage.waits : NoPage → Bool
  | .fault _ _ _ => false
  | .held | .full _ => true

/-- What is done while it waits: an empty overflow pool is noted. -/
def NoPage.waiting (p : NoPage) (s : State) : Option State :=
  match p with
  | .full pa => overflowAt pa s
  | _ => none

/-- Translates every page of a range under a die's command processor. -/
def spanOk (s : State) (d asid : Nat) (world : Bool) (k : AccKind) (a n : Nat) : Except NoPage State :=
  (unitsOf a n).foldl (fun r u => do
    let s ← r
    match translate s (.die d) asid world k (w64 u) with
    | .error c => .error (.fault asid u c)
    | .ok (_, _, s) => pure s) (.ok s)

/-- Reads bytes through translation. -/
def readSpan (s : State) (d asid : Nat) (world : Bool) (a n : Nat) : Except NoPage (List Byte × State) :=
  (unitsOf a n).foldl (fun r u => do
    let (l, s) ← r
    match translate s (.die d) asid world .read (w64 u) with
    | .error c => .error (.fault asid u c)
    | .ok (pa, _, s) =>
      let k := min (a + n - u) (65536 - u % 65536)
      if spanHeld s pa k then .error .held else pure (l ++ s.mem.readN pa k, s)) (.ok ([], s))

/-- What a failed translation leaves: a world fault has its entry, with the context as its agent (R254). -/
def noteNoPage (c : Nat) (p : NoPage) (s : State) : State :=
  match p with
  | .fault asid va cause => if cause = causeWorld then bbWrite (c / 16) { worldEnt s asid 0 (w64 va) with agent := w32 c } s else s
  | _ => s

/-- Why a launch or a graph is refused: its status, and the access that failed; or the access that it waits for. -/
structure Refuse where
  status : Nat
  page : Option NoPage
deriving DecidableEq, Repr

/-- A refusal by a check. -/
def refuse {α : Type} (status : Nat) : Except Refuse α := .error ⟨status, none⟩

/-- A step whose accesses must succeed. -/
def paged {α : Type} (r : Except NoPage α) : Except Refuse α :=
  match r with
  | .error p => .error ⟨Status.translation, some p⟩
  | .ok x => .ok x

/-- A step that must wait while an overflow page is awaited at an address. -/
def roomy {α : Type} (pa : Nat) (r : Option α) : Except Refuse α :=
  match r with
  | none => .error ⟨Status.ok, some (.full pa)⟩
  | some x => .ok x

/-- The access that a start waits for. -/
def Refuse.wait (r : Refuse) : Option NoPage := r.page.filter NoPage.waits

/-- What a refusal leaves beside its status. -/
def noteRefuse (c : Nat) (r : Refuse) (s : State) : State :=
  match r.page with
  | none => s
  | some p => noteNoPage c p s

/-! ### The header and the descriptor (R14, R20) -/

/-- The fields of a header. -/
def Header.of (bs : List Byte) : Header :=
  let x := leNat bs
  { wbuf := nbits x 496 16, cbuf := nbits x 480 16, abuf := nbits x 464 16, grdBars := nbits x 448 8, flrBars := nbits x 440 8
    cluBars := nbits x 432 8, blkBars := nbits x 424 8, arrivals := nbits x 416 8, uregs := nbits x 408 8
    sregs := nbits x 400 8, regs := nbits x 384 16, maxdur := nbits x 320 64, trapOff := nbits x 288 32
    codeSize := nbits x 256 32, codeOff := nbits x 192 64, constSize := nbits x 576 32, constOff := nbits x 512 64
    features := BitVec.ofNat 128 (nbits x 64 128), draught := nbit x 52, cooperative := nbit x 51, paired := nbit x 50
    lagerOff := nbit x 49, restartable := nbit x 48, crc := w32 (nbits x 608 32) }

/-- Check 1 of R17, with R15's rule for the trap handler. -/
def headerForm (bs : List Byte) : Bool :=
  let x := leNat bs
  let h := Header.of bs
  nbits x 0 32 == 0x4B484D4B && nbits x 32 16 == 1 && nbits x 53 11 == 0 && nbits x 456 8 == 0 && nbits x 688 1360 == 0 &&
    decide (h.constSize ≤ 65536) && decide (h.wbuf ≤ 1536) && decide (h.cbuf ≤ 256) && decide (h.abuf ≤ 768) &&
    decide (h.grdBars ≤ 2) && decide (h.flrBars ≤ 4) && decide (h.cluBars ≤ 8) && decide (1 ≤ h.blkBars) &&
    decide (h.blkBars ≤ 16) && decide (h.arrivals ≤ 16) && decide (h.uregs ≤ 32) && decide (h.sregs ≤ 64) &&
    decide (1 ≤ h.regs) && decide (h.regs ≤ 448) && h.constOff % 256 == 0 && h.codeOff % 8 == 0 && h.codeSize % 8 == 0 &&
    (h.trapOff == 0xFFFFFFFF || (h.trapOff % 8 == 0 && decide (h.trapOff < h.codeSize)))

/-- The fields of a descriptor. -/
def Desc.of (bs : List Byte) : Desc :=
  let x := leNat bs
  { wlistCount := nbits x 576 16, wlistAddr := nbits x 512 64, doneValue := w64 (nbits x 448 64), doneTl := nbits x 416 16
    wqItems := nbits x 384 32, wqAddr := nbits x 320 64, gangId := nbits x 304 16, asid := nbits x 288 16
    argSize := nbits x 256 32, argAddr := nbits x 192 64, priority := nbits x 176 8, world := nbit x 170, gang := nbit x 169
    replayable := nbit x 168, homeDie := nbits x 160 2, floorClusters := nbits x 152 8, clusterBlocks := nbits x 144 8
    threads := nbits x 128 16, gridX := nbits x 64 32, gridY := nbits x 96 16, gridZ := nbits x 112 16, kernel := nbits x 0 64 }

/-- R21 and step 3 of R63. -/
def descForm (bs : List Byte) (world : Bool) : Bool :=
  let x := leNat bs
  let d := Desc.of bs
  nbits x 592 432 == 0 && nbits x 432 16 == 0 && nbits x 184 8 == 0 && nbits x 171 5 == 0 && nbits x 162 6 == 0 &&
    decide (1 ≤ d.threads) && decide (d.threads ≤ 512) && decide (1 ≤ d.clusterBlocks) && decide (d.clusterBlocks ≤ 32) &&
    decide (1 ≤ d.floorClusters) && decide (d.floorClusters ≤ 12) && decide (d.priority ≤ 7) && decide (d.argSize ≤ 4096) &&
    d.world == world && d.kernel % 256 == 0 && decide (d.doneTl ≤ 15) && decide (d.wlistCount ≤ 256)

/-- R117: the offsets of headers; a clause has at least two words, so that half the words bound the walk. -/
def headerMap (code : List Byte) : Nat → Nat → List Nat
  | 0, _ => []
  | n + 1, off =>
    if code.length ≤ off then []
    else off :: headerMap code n (nextClause off (w64 (leNat ((code.drop off).take 8))))

/-! ### Capacity (R13, R17, R89) -/

/-- Checks 5 and 6 of R17: the status of the first that fails. -/
def capacity (s : State) (h : Header) (d : Desc) : Option Nat :=
  if d.blocks = 0 then
    if (Room.empty.take (needOf h d)).isNone then some Status.resource else none
  else
  let bays := emptyBays s
  let onHome := bays.filter fun b => b.die == d.homeDie
  let floors := (List.range (min 4 d.nFloors)).map fun f => (d.floorOf f).map (askFor h d)
  if (Room.empty.take (needOf h d)).isNone then some Status.resource
  else if (placeBlocks (List.replicate 4 Room.empty) (List.replicate (min d.clusterBlocks d.blocks) (needOf h d))).isNone then
    some Status.resource
  else if h.flrBars ≠ 0 ∧ floors.any (fun f => (placeAll bays f).isNone) then some Status.resource
  else if h.draught ∧ (placeAll onHome ((List.range d.nClusters).map (askFor h d))).isNone then some Status.resource
  else if h.cooperative ∧ (placeAll bays ((List.range d.nClusters).map (askFor h d))).isNone then some Status.notCoresident
  else none

/-! ### The writable-buffer list (R80) -/

/-- One entry: the 64 KiB units of its range, or none where it is ill-formed. -/
def listEntry (bs : List Byte) : Option (List Nat) :=
  let x := leNat bs
  let base := nbits x 0 64
  let len := nbits x 64 64
  if base / 2 ^ 56 ≠ 0 ∨ base % 65536 ≠ 0 ∨ len = 0 ∨ len % 65536 ≠ 0 then none
  else some ((List.range (len / 65536)).map fun i => base + 65536 * i)

/-- What arming a launch needs: the pages, the units covered and the entries to mark. -/
structure Arms where
  pages : List (Nat × Nat)
  covered : List Nat
  ptes : List Nat
deriving DecidableEq, Repr

/-- The pages of a list, or none where one is ill-formed, not mapped, or 1 GiB large. -/
def armsOf (s : State) (asid : Nat) (world : Bool) (units : List Nat) : Option Arms :=
  units.foldl (fun r va => do
    let a ← r
    if va / 2 ^ 56 ≠ 0 then none else
    match walk s asid world va with
    | .error _ => none
    | .ok l =>
      if l.lg = 30 then none else
      some { pages := if a.pages.contains (l.frame, l.lg) then a.pages else a.pages ++ [(l.frame, l.lg)]
             covered := a.covered ++ [(l.frame + va % 2 ^ l.lg) / 65536]
             ptes := if a.ptes.contains l.at_ then a.ptes else a.ptes ++ [l.at_] })
    (some { pages := [], covered := [], ptes := [] })

/-- The list of a replayable launch: R63 step 7, then R80. -/
def readList (s : State) (die : Nat) (d : Desc) : Except Refuse Arms := do
  let (bs, s) ← paged (readSpan s die d.asid d.world d.wlistAddr (16 * d.wlistCount))
  let es := (List.range d.wlistCount).map fun i => listEntry ((bs.drop (16 * i)).take 16)
  if es.any Option.isNone then refuse Status.snapshot else
  match armsOf s d.asid d.world (es.flatMap fun e => e.getD []) with
  | none => refuse Status.snapshot
  | some a => pure a

/-- Sets or clears snapshot-COW (bit 9) in page-table entries. None while an overflow page is awaited. -/
def markCow (on : Bool) (ptes : List Nat) (s : State) : Option State :=
  ptes.foldl (fun os a => os.bind fun s =>
    let e := read8 s a
    let e := if nbit e 9 = on then e else if on then e + 2 ^ 9 else e - 2 ^ 9
    performBytes s (at_ a (toLe 8 e))) (some s)

/-- The entry at which marking waits: the first. -/
def Launch.markAt (la : Launch) : Nat := la.ptes.headD 0

/-! ### Gangs (R95, R96) -/

/-- R95. -/
def gangRefuses (s : State) (ctx : Nat) (d : Desc) : Bool :=
  d.gang && (decide (3 < d.gangId) || ((((s.ctx ctx).gangs)[d.gangId]?).any fun g => g.state == 0) ||
    d.homeDie != ctx / 16 || decide (1 < d.nFloors))

/-- The accepted, incomplete members of a gang, in order of acceptance. -/
def membersOf (s : State) (c g : Nat) : List (Nat × Launch) := s.launches.filter fun p => p.2.gangOf == some (c, g)

/-- The bays a gang reserves, empty. -/
def gangBays (s : State) (c : Nat) (g : Gang) : List Bay :=
  (baysOf s (c / 16) fun _ => Room.empty).filter fun b => g.clusters.getLsbD b.cl

/-- R96: a launch that would complete a set that cannot fit its empty clusters together. -/
def gangTooSmall (s : State) (ctx : Nat) (h : Header) (d : Desc) : Bool :=
  match (if d.gang then ((s.ctx ctx).gangs)[d.gangId]? else none) with
  | none => false
  | some g =>
    let asks (h : Header) (d : Desc) : List Ask := (List.range d.nClusters).map (askFor h d)
    !g.started && g.admitted + 1 == g.members &&
      (placeAll (gangBays s ctx g) (((membersOf s ctx d.gangId).flatMap fun p => asks p.2.hdr p.2.desc) ++ asks h d)).isNone

/-! ### The checks of R63 -/

/-- A launch that has passed, and what it arms. -/
structure Passed where
  hdr : Header
  desc : Desc
  code : List Byte
  bank : Mem
  arms : Arms
  st : State

/-- Runs the checks of a LAUNCH in the order of R63. DESIGN CHOICE: arg_addr and wq_addr are used as they are where they are not
aligned (log 154), and the padding before the constant data counts towards the 65,536 bytes (log 155). -/
def checkLaunch (s : State) (ctx : Nat) (addr : DWord) : Except Refuse Passed := do
  let c := s.ctx ctx
  let die := ctx / 16
  let (db, s) ← paged (readSpan s die c.asid.toNat c.world addr.toNat 128)
  let d := Desc.of db
  let s ← paged (spanOk s die d.asid c.world .read d.kernel 1)
  let s ← paged (spanOk s die d.asid c.world .read d.argAddr d.argSize)
  if !descForm db c.world || gangRefuses s ctx d then refuse Status.descriptorFormat else
  let (hb, s) ← paged (readSpan s die d.asid c.world d.kernel 256)
  if !headerForm hb then refuse Status.headerFormat else
  let h := Header.of hb
  let codeAt := (d.kernel + h.codeOff) % 2 ^ 64
  let constAt := (d.kernel + h.constOff) % 2 ^ 64
  let s ← paged (spanOk s die d.asid c.world .fetch codeAt h.codeSize)
  let s ← paged (spanOk s die d.asid c.world .read constAt h.constSize)
  let (code, s) ← paged (readSpan s die d.asid c.world codeAt h.codeSize)
  let (consts, s) ← paged (readSpan s die d.asid c.world constAt h.constSize)
  let (args, s) ← paged (readSpan s die d.asid c.world d.argAddr d.argSize)
  if crc32 code != h.crc then refuse Status.codeCheck
  else if (h.features &&& ~~~ 0x3F#128) != 0 then refuse Status.featureMismatch
  else if (h.paired && h.lagerOff) || (h.grdBars != 0 && !h.cooperative) then refuse Status.attributeConflict
  else
  let constPos := cdiv d.argSize 256 * 256
  if 65536 < constPos + h.constSize then refuse Status.resource else
  match capacity s h d with
  | some st => refuse st
  | none =>
    let a ← if d.replayable then readList s die d else pure { pages := [], covered := [], ptes := [] }
    if gangTooSmall s ctx h d then refuse Status.resource else
    pure { hdr := h, desc := d, code, bank := Mem.writeAll [] (at_ 0 args ++ at_ constPos consts), arms := a, st := s }

/-! ### Acceptance and completion -/

/-- The graph node or the queue that a launch came from hears of its end. -/
def sourceDone (src : Source) (s : State) : State :=
  match src with
  | .queue _ _ _ => s
  | .node d gr n => endNode d gr n none [] s

/-- Accepts a launch (R19, R22, R80); with no blocks it completes at once (R68). None while the marks of its list wait for an
overflow page. -/
def acceptLaunch (ctx : Nat) (src : Source) (p : Passed) : Option State :=
  let s := p.st
  if p.desc.blocks = 0 then
    some (sourceDone src (raiseTimeline ctx p.desc.doneTl p.desc.doneValue s))
  else
    let (u, s) := s.uid
    let la : Launch :=
      { hdr := p.hdr, desc := p.desc, source := src, ctx, die := ctx / 16, bank := p.bank
        headers := headerMap p.code (p.code.length / 8 + 1) 0, waiting := List.range p.desc.nClusters, order := u, popped := 0
        replays := 0, phases := [], retired := [], armed := p.arms.pages, covered := p.arms.covered, ptes := p.arms.ptes
        frames := [], snapLost := false, ending := none, asked := [], flushed := [] }
    (markCow true la.ptes { s with launches := AMap.set s.launches u la }).map fun s =>
    match la.gangOf with
    | none => s
    | some (c, g) => s.updCtx c fun x => { x with gangs := vmod x.gangs g fun y => { y with admitted := y.admitted + 1 } }

/-- R94, R96: a member has left its gang. -/
def leaveGang (la : Launch) (s : State) : State :=
  match la.gangOf with
  | none => s
  | some (c, g) => s.updCtx c fun x => { x with gangs := vmod x.gangs g fun y =>
      let n := y.admitted - 1
      { y with
        admitted := n
        started := y.started && n != 0
        state := if n = 0 ∧ y.releasing then 0 else y.state
        releasing := y.releasing && n != 0 } }

/-- R85: clears the marks and returns the frames. -/
def disarm (u : Nat) (s : State) : Option State :=
  let la := s.launch u
  (markCow false la.ptes s).map fun s => { s with snapPool := s.snapPool ++ la.frames.map fun f => (f.2.1, f.2.2) }

/-- A step of a launch, unless it waits for an overflow page (R258): the pool's want is noted once. -/
def launchStep (name : String) (la : Launch) (r : Option State) (s : State) : Host.Outcome State Fault Refusal :=
  match r.or (overflowAt la.markAt s) with
  | some t => .next t
  | none => .refused (.notEnabled name)

/-- R313: the planes that a launch loaded become invalid. -/
def dropPlanes (u : Nat) (s : State) : State :=
  let drop (p : Plane) : Plane := if p.tag.any fun t => t.1 == u then Plane.reset else p
  { s with cores := AMap.mapVals s.cores fun _ k =>
      { k with body := { k.body with array := { k.body.array with
          active := drop k.body.array.active, shadow := drop k.body.array.shadow } } } }

/-- Whether any output of a launch has not yet been performed. -/
def outputLeft (s : State) (u : Nat) : Bool :=
  let mine (o : OutItem) : Bool := ofLaunch s u o.blk || (s.launch u).retired.contains o.blk
  s.inflight.any mine || s.cores.any fun k => k.2.lager.any mine

/-- LAUNCH_COMPLETION (R67, R481): all blocks have retired and no output is left. -/
def execLaunchCompletion (uid : Nat) (s : State) : Host.Outcome State Fault Refusal :=
  let la := s.launch uid
  if (AMap.get? s.launches uid).isNone || la.ending.isSome || !la.waiting.isEmpty ||
      s.blocks.any (fun p => p.2.launch == uid) || outputLeft s uid then
    .refused (.notEnabled "LAUNCH_COMPLETION")
  else
    launchStep "LAUNCH_COMPLETION" la ((disarm uid s).map fun s =>
      let s := leaveGang la (dropPlanes uid s)
      let s := { s with launches := AMap.erase s.launches uid }
      sourceDone la.source (raiseTimeline la.ctx la.desc.doneTl la.desc.doneValue s)) s

/-- Writes an entry of type 0x0E and freezes the box where it is set to (R469). -/
def bbFailed (d : Nat) (status asid : Nat) (s : State) : State :=
  let s := bbWrite d (bbEnt 0x0E status asid 0 0 (w64 status)) s
  if (s.die d).autofreeze then freeze d s else s

/-- LAUNCH_FAILURE (R65): the launch ends, and its queue halts or its graph fails. None of the steps of a completion is made (R482,
log 76). -/
def execLaunchFailure (uid : Nat) (s : State) : Host.Outcome State Fault Refusal :=
  let la := s.launch uid
  match la.ending with
  | none => .refused (.notEnabled "LAUNCH_FAILURE")
  | some st =>
    if st = Status.ok then .refused (.notEnabled "LAUNCH_FAILURE") else
    let s := bbFailed la.die st la.desc.asid { s with launches := AMap.erase s.launches uid }
    .next (match la.source with
      | .queue c q e => haltLate c q e 0xFFFF st s
      | .node d gr n => endNode d gr n (some st) [] s)

/-- Restores the copied pages of a launch from their frames (R83). -/
def restoreFrames (fs : List (Nat × Nat × Nat)) (s : State) : Option State :=
  fs.foldl (fun os f => os.bind (copyPage f.2.1 f.1 (2 ^ f.2.2))) (some s)

/-- LAUNCH_REPLAY (R83): the pages come back from their frames, the list is armed again, and the launch starts anew from its
accepted copies. -/
def execLaunchReplay (uid : Nat) (s : State) : Host.Outcome State Fault Refusal :=
  let la := s.launch uid
  if la.ending ≠ some Status.ok ∨ (AMap.get? s.launches uid).isNone ∨ s.inflight.any (fun o => (AMap.get? s.blocks o.blk).isNone) then .refused (.notEnabled "LAUNCH_REPLAY") else
  launchStep "LAUNCH_REPLAY" la ((restoreFrames la.frames s).bind fun s =>
    let s := { s with snapPool := s.snapPool ++ la.frames.map fun f => (f.2.1, f.2.2) }
    (markCow true la.ptes s).map fun s =>
    let s := bbWrite la.die (bbEnt 0x0D 0 la.desc.asid 0 0 0) s
    s.updLaunch uid fun x => { x with
      frames := [], ending := none, replays := x.replays + 1, popped := 0, phases := [], retired := [], asked := [], flushed := []
      waiting := List.range x.desc.nClusters }) s

/-! ### Queue entries (R59-R62) -/

/-- The fields of an entry. -/
structure Entry where
  kind : Nat
  tl : Nat
  wctx : Nat
  nodes : Nat
  addr : DWord
  value : DWord
deriving DecidableEq, Repr

def Entry.of (bs : List Byte) : Entry :=
  let x := leNat bs
  { kind := nbits x 0 4, tl := nbits x 12 4, wctx := nbits x 16 8, nodes := nbits x 32 16, addr := w64 (nbits x 128 64)
    value := w64 (nbits x 192 64) }

/-- R60: whether an entry is well formed in a context of a world. -/
def entryForm (s : State) (world : Bool) (bs : List Byte) : Bool :=
  let x := leNat bs
  let e := Entry.of bs
  nbits x 4 8 == 0 && nbits x 24 8 == 0 && nbits x 48 80 == 0 &&
    (match e.kind with
      | 0 => e.tl == 0 && e.wctx == 0 && e.nodes == 0 && e.addr == 0 && e.value == 0
      | 1 => e.tl == 0 && e.wctx == 0 && e.nodes == 0 && e.value == 0 && e.addr.toNat % 128 == 0
      | 2 => e.wctx == 0 && decide (1 ≤ e.nodes) && decide (e.nodes ≤ 4096) && e.addr.toNat % 32 == 0
      | 3 => e.nodes == 0 && e.addr == 0 && decide (e.wctx ≤ 63) && (s.ctx e.wctx).world == world
      | 4 => e.nodes == 0 && e.wctx == 0 && e.addr == 0
      | _ => false)

/-- Accepted, incomplete launches of a die. -/
def launchesOn (s : State) (d : Nat) : Nat := (s.launches.filter fun p => p.2.die == d).length

/-- Whether an earlier LAUNCH or GRAPH entry of a queue has not completed. -/
def queueBusy (s : State) (c q : Nat) : Bool :=
  (s.launches.any fun p => match p.2.source with
    | .queue c' q' _ => c' == c && q' == q
    | _ => false) || (s.die (c / 16)).graphs.any fun g => g.2.ctx == c && g.2.queue == q

/-- R61: whether a well-formed entry can start. -/
def startable (s : State) (c q : Nat) (e : Entry) : Bool :=
  match e.kind with
  | 0 => true
  | 1 => decide (launchesOn s (c / 16) < 64)
  | 2 => decide ((s.die (c / 16)).graphs.length < 16)
  | 3 => decide (e.value.toNat ≤ ((((s.ctx e.wctx).tls)[e.tl]?).map fun t => t.value.toNat).getD 0)
  | _ => !queueBusy s c q

/-- What the command processor finds at the head of a queue. -/
inductive Head where
  /-- Nothing that can start. -/
  | nothing
  /-- The queue halts with a status; the kind of the entry, where it was read. -/
  | halt (status : Nat) (kind : Nat) (st : State)
  | start (e : Entry) (st : State)

/-- The head of queue `q` of context `c` (R59, R60). -/
def headOf (s : State) (c q : Nat) : Head :=
  let x := s.ctx c
  let y := x.queues[q]?.getD Queue.reset
  if !x.valid || !y.enable || y.halted then .nothing
  else if y.lgsize < 4 ∨ 16 < y.lgsize ∨ 2 ^ y.lgsize < (y.tail - y.head).toNat then .halt Status.entryFormat 0 s
  else if y.tail = y.head then .nothing
  else
    let va := y.base.toNat + 32 * (y.head.toNat % 2 ^ y.lgsize)
    match readSpan s (c / 16) x.asid.toNat x.world va 32 with
    | .error p => if p.waits then .nothing else .halt Status.translation 0 (noteNoPage c p s)
    | .ok (bs, s) =>
      let e := Entry.of bs
      if !entryForm s x.world bs then .halt Status.entryFormat (if e.kind ≤ 4 then e.kind else 0) s
      else if startable s c q e then .start e s else .nothing

/-- The order in which a die's heads are considered (R62): queue 7 first, and within a number the contexts after the one
that started an entry last. -/
def headOrder (s : State) (d : Nat) : List (Nat × Nat) :=
  (List.range 8).flatMap fun q => (List.range 16).map fun i => (16 * d + ((s.die d).rrCtx + 1 + i) % 16, 7 - q)

/-- The first head that starts or halts its queue. -/
def firstHead (s : State) (d : Nat) : Option (Nat × Nat × Head) :=
  (headOrder s d).findSome? fun p => match headOf s p.1 p.2 with
    | .nothing => none
    | h => some (p.1, p.2, h)

/-- A queue has started its head. -/
def headMoves (c q : Nat) (s : State) : State :=
  (s.updCtx c fun x => { x with queues := vmod x.queues q fun y => { y with head := y.head + 1 } }).updDie (c / 16)
    fun d => { d with rrCtx := c % 16 }

/-- A start opportunity of a die at which the entry of one kind starts, or halts its queue: `start` gives the queue's state
after the start, or the status of a refusal. -/
def startEntry (d kind : Nat) (name : String) (start : Nat → Nat → Word → Entry → State → Except Refuse State) (s : State) :
    Host.Outcome State Fault Refusal :=
  match firstHead s d with
  | some (c, q, .halt st k t) => if k = kind then .next (haltEarly c q st t) else .refused (.notEnabled name)
  | some (c, q, .start e t) =>
    if e.kind ≠ kind then .refused (.notEnabled name) else
    match start c q (((t.ctx c).queues[q]?.getD Queue.reset).head) e t with
    | .error r =>
      match r.wait with
      | some p => match p.waiting t with
        | some t => .next t
        | none => .refused (.notEnabled name)
      | none => .next ((haltEarly c q r.status (noteRefuse c r t)).updDie d fun x => { x with rrCtx := c % 16 })
    | .ok t => .next (headMoves c q t)
  | _ => .refused (.notEnabled name)

/-- NOP. -/
def execEntryNop (die : Fin 4) (s : State) : Host.Outcome State Fault Refusal :=
  startEntry die.val 0 "ENTRY_NOP" (fun _ _ _ _ s => .ok s) s

/-- LAUNCH (R63): accepted or refused. -/
def execEntryLaunch (die : Fin 4) (s : State) : Host.Outcome State Fault Refusal :=
  startEntry die.val 1 "ENTRY_LAUNCH" (fun c q n e s => do
    let p ← checkLaunch s c e.addr
    roomy (p.arms.ptes.headD 0) (acceptLaunch c (.queue c q n) p)) s

/-- WAIT: nothing further happens once the timeline has its value. -/
def execEntryWait (die : Fin 4) (s : State) : Host.Outcome State Fault Refusal :=
  startEntry die.val 3 "ENTRY_WAIT" (fun _ _ _ _ s => .ok s) s

/-- SIGNAL. -/
def execEntrySignal (die : Fin 4) (s : State) : Host.Outcome State Fault Refusal :=
  startEntry die.val 4 "ENTRY_SIGNAL" (fun c _ _ e s => .ok (raiseTimeline c e.tl e.value s)) s

/-! ### The register page (R56-R58, R66) -/

/-- R57: no launch of the context is incomplete and no graph resident. -/
def quiescent (s : State) (c : Nat) : Bool :=
  !(s.launches.any fun p => p.2.ctx == c) && !((s.die (c / 16)).graphs.any fun g => g.2.ctx == c)

/-- A write of the control word: an invalid context's graphs fail (R57, R74). -/
def writeControl (c : Nat) (secure : Bool) (v : DWord) (s : State) : State :=
  let free := quiescent s c
  let valid := v.getLsbD 17
  let graphs := ((s.die (c / 16)).graphs.filter fun g => g.2.ctx == c).map Prod.fst
  let s := s.updCtx c fun x => { x with
    valid := valid
    asid := if free then v.extractLsb' 0 16 else x.asid
    world := if free && secure then v.getLsbD 16 else x.world }
  if valid then s else graphs.foldl (fun s g => failGraph (c / 16) g 0xFFFF Status.failed s) s

/-- CONTROL_WORD_WRITE. -/
def execControlWordWrite (ctx : Fin 64) (secure : Bool) (v : DWord) (s : State) : Host.Outcome State Fault Refusal :=
  .next (writeControl ctx.val secure v s)

/-- A doorbell: the queue's tail (R58, R59). -/
def writeTail (c q : Nat) (tail : Word) (s : State) : State :=
  s.updCtx c fun x => { x with queues := vmod x.queues q fun y => { y with tail := tail } }

/-- DOORBELL. -/
def execDoorbell (ctx : Fin 64) (q : Fin 8) (tail : Word) (s : State) : Host.Outcome State Fault Refusal :=
  .next (writeTail ctx.val q.val tail s)

/-- R58: skip resumes a halted queue. -/
def skipQueue (c q : Nat) (s : State) : State :=
  s.updCtx c fun x => { x with queues := vmod x.queues q fun y =>
    if !y.halted then y
    else { y with
      head := if y.late then y.head else y.head + 1
      halted := false, late := false, status := 0, failAt := 0, fnode := 0xFFFF } }

/-- SKIP. -/
def execSkip (ctx : Fin 64) (q : Fin 8) (s : State) : Host.Outcome State Fault Refusal := .next (skipQueue ctx.val q.val s)

/-- TIMELINE_VALUE_WRITE (R66). -/
def execTimelineValueWrite (ctx : Fin 64) (n : Fin 16) (v : DWord) (s : State) : Host.Outcome State Fault Refusal :=
  .next (raiseTimeline ctx.val n.val v s)

end Sys2Proof.Machine
end

