-- ==== Sys2Proof/Machine/Copies.lean ====
section
/-!
DEFINITION. The copy engine (R240, R241, R290-R297, R365): the checks of a request, its start, one 64-byte granule of its
work, and its retirement.
-/

namespace Sys2Proof.Machine

/-! ### Requests (R290) -/

/-- The fields of a request. -/
structure CopyF where
  op : Nat
  reserved : Nat
  rnd : Rm
  defer : Bool
  value : Nat
  ssp : Nat
  dsp : Nat
  arr : Nat
  lgsz : Nat
  aux : Nat
  len : Nat
  src : Nat
  dst : Nat
deriving DecidableEq, Repr

def CopyF.of (bs : List Byte) : CopyF :=
  let x := leNat bs
  { op := nbits x 0 4, reserved := nbits x 4 9, rnd := rmOf (nbits x 13 2), defer := nbit x 15, value := nbits x 32 32
    ssp := nbits x 64 2, dsp := nbits x 66 2, arr := nbits x 68 4, lgsz := nbits x 72 4, aux := nbits x 76 20
    len := nbits x 96 32, src := nbits x 128 64, dst := nbits x 192 64 }

/-- Bytes of an item. -/
def CopyF.item (f : CopyF) : Nat := 2 ^ f.lgsz

/-- The forwarding pair a RELOCATE names. -/
def CopyF.pair (f : CopyF) : Nat := f.aux % 4

/-- Bytes of a DECODE result element. -/
def CopyF.resBytes (f : CopyF) : Nat := if f.value % 4 = 0 then 4 else 2

/-! ### Plans and checks (R291, R292) -/

/-- What a request counts down, and the byte ranges (space, address, length) that it reads and writes. -/
structure Plan where
  n : Nat
  reads : List (Nat × Nat × Nat)
  writes : List (Nat × Nat × Nat)
deriving DecidableEq, Repr

/-- Bytes of a block's ABUF. -/
def Block.abytes (b : Block) (off n : Nat) : List Byte := b.abuf.data.readN off n

/-- What the engine reads of ABUF beside the request when it starts it (log 84): descriptors, an index list, a keep mask, each
as its offset and length. -/
def CopyF.ctlRanges (f : CopyF) : List (Nat × Nat) :=
  match f.op with
  | 1 => [(f.src, 32), (f.dst, 32)]
  | 2 | 3 => [(f.aux, 4 * f.len)]
  | 5 => [(f.src, 32)]
  | 6 => [(f.aux, 4 * cdiv f.len 32)]
  | _ => []

/-- Word `j` of an index list or mask, and a keep bit. -/
def idxAt (ctl : List Byte) (j : Nat) : Nat := leNat ((ctl.drop (4 * j)).take 4)
def keepAt (ctl : List Byte) (j : Nat) : Bool := nbit (idxAt ctl (j / 32)) (j % 32)

/-- The span of copyIndexed items: lowest to the end of the highest. -/
def idxSpan (ctl : List Byte) (f : CopyF) (base : Nat) : Nat × Nat :=
  let l := (List.range f.len).map (idxAt ctl)
  match l with
  | [] => (base, 0)
  | x :: t =>
    let lo := t.foldl min x
    let hi := t.foldl max x
    (base + lo * f.item, (hi - lo + 1) * f.item)

/-- The tensor descriptors of a request. -/
def descSrc (ctl : List Byte) : TDesc := TDesc.of (ctl.take 32)
def descDst (ctl : List Byte) : TDesc := TDesc.of ((ctl.drop 32).take 32)

/-- A descriptor offset in window 0, aligned and inside the allotment. -/
def descOff (b : Block) (off : Nat) : Bool := off % 32 == 0 && decide (off + 32 ≤ b.abuf.size)

/-- The plan of a request, or none where its operation's own rules are broken. -/
def planOf (b : Block) (ctl : List Byte) (f : CopyF) : Option Plan :=
  match f.op with
  | 0 => some ⟨f.len, [(f.ssp, f.src, f.len)], [(f.dsp, f.dst, f.len)]⟩
  | 1 =>
    let s := descSrc ctl
    let d := descDst ctl
    if f.len = 0 ∧ f.dsp ≠ 3 ∧ descOff b f.src ∧ descOff b f.dst ∧ s.ok ∧ d.ok ∧ !isBlockT s.etype ∧ !s.sparse ∧ !d.sparse ∧
        s.rank ≤ 2 ∧ d.rank ≤ 2 ∧ s.etype = d.etype ∧ s.dims = d.dims then
      some ⟨s.rowLen * s.dim 1, (1, f.src, 32) :: (1, f.dst, 32) :: s.rows.map fun r => (f.ssp, r), d.rows.map fun r => (f.dsp, r)⟩
    else none
  | 2 =>
    if f.aux + 4 * f.len ≤ b.abuf.size then
      some ⟨f.len * f.item, [(1, f.aux, 4 * f.len), (f.ssp, idxSpan ctl f f.src)], [(f.dsp, f.dst, f.len * f.item)]⟩
    else none
  | 3 =>
    if f.aux + 4 * f.len ≤ b.abuf.size then
      some ⟨f.len * f.item, [(1, f.aux, 4 * f.len), (f.ssp, f.src, f.len * f.item)], [(f.dsp, idxSpan ctl f f.dst)]⟩
    else none
  | 4 => if f.len % 4 = 0 ∧ f.dst % 4 = 0 then some ⟨f.len, [], [(f.dsp, f.dst, f.len)]⟩ else none
  | 5 =>
    let s := descSrc ctl
    let n := s.dim 0 * s.dim 1 * f.resBytes
    if descOff b f.src ∧ s.ok ∧ isBlockT s.etype ∧ s.rank ≤ 2 ∧ f.value % 4 ≠ 3 then
      some ⟨n, (1, f.src, 32) :: s.rows.map fun r => (f.ssp, r), [(f.dsp, f.dst, n)]⟩
    else none
  | 6 =>
    if f.aux + 4 * cdiv f.len 32 ≤ b.abuf.size then
      some ⟨f.len * f.item, [(1, f.aux, 4 * cdiv f.len 32), (f.ssp, f.src, f.len * f.item)],
        [(f.dsp, f.dst, ((List.range f.len).filter (keepAt ctl)).length * f.item)]⟩
    else none
  | 7 =>
    if f.ssp = 0 ∧ f.dsp = 0 ∧ f.src % 64 = 0 ∧ f.dst % 64 = 0 ∧ f.len % 64 = 0 then
      some ⟨f.len, [(0, f.src, f.len)], [(0, f.dst, f.len)]⟩
    else none
  | 8 =>
    if f.ssp = 0 ∧ f.dsp = 0 ∧ f.src % 65536 = 0 ∧ f.dst % 65536 = 0 ∧ f.len % 65536 = 0 then
      some ⟨f.len, [(0, f.src, f.len)], [(0, f.dst, f.len)]⟩
    else none
  | _ => none

/-- Whether a range lies in its space, an empty one at an address of it: R226 for global addresses, R233 and window 0 for
buffers. -/
def rangeOk (b : Block) (r : Nat × Nat × Nat) : Bool :=
  match r.1 with
  | 0 => decide (r.2.1 < 2 ^ 56) && decide (r.2.1 + r.2.2 ≤ 2 ^ 56)
  | 1 => decide (r.2.1 < 2 ^ 20) && decide (r.2.1 + r.2.2 ≤ b.abuf.size)
  | 2 => decide (r.2.1 < 2 ^ 18) && decide (r.2.1 + r.2.2 ≤ b.cbuf.size)
  | _ => decide (r.2.1 + r.2.2 ≤ b.wbuf.size)

/-- Whether two ranges share bytes of one space. -/
def meets (a b : Nat × Nat × Nat) : Bool := a.1 == b.1 && overlaps a.2.1 a.2.2 b.2.1 b.2.2

/-- R292: the plan of a request that passes. -/
def copyPlan (b : Block) (ctl : List Byte) (f : CopyF) : Option Plan :=
  if 9 ≤ f.op ∨ f.ssp = 3 ∨ f.reserved ≠ 0 ∨ 12 < f.lgsz then none else
  match planOf b ctl f with
  | none => none
  | some p =>
    if 2 ^ 31 - 1 < p.n ∨ !p.reads.all (rangeOk b) ∨ !p.writes.all (rangeOk b) ∨
        p.writes.any (fun w => p.reads.any (meets w)) then none
    else some p

/-- What N is for a request that fails its checks (R291, R294): 0 where its operation, or the descriptor that gives N, is not
there to tell. -/
def failedN (b : Block) (ctl : List Byte) (f : CopyF) : Nat :=
  let s := descSrc ctl
  match f.op with
  | 0 | 4 | 7 | 8 => f.len
  | 2 | 3 | 6 => f.len * f.item
  | 1 => if descOff b f.src && decide (s.etype ≤ 0xA) then cdiv (s.dim 0 * etypeBits s.etype) 8 * s.dim 1 else 0
  | 5 => if descOff b f.src then s.dim 0 * s.dim 1 * f.resBytes else 0
  | _ => 0

/-- The range-scoreboard span of a plan (R240). -/
def sbSpan (p : Plan) : Nat × Nat × Nat :=
  match p.writes with
  | [] => (0, 0, 0)
  | w :: t =>
    let lo := t.foldl (fun m x => min m x.2.1) w.2.1
    let hi := t.foldl (fun m x => max m (x.2.1 + x.2.2)) (w.2.1 + w.2.2)
    if lo = hi then (w.1, lo, lo) else (w.1, lo / 64 * 64, cdiv hi 64 * 64)

/-! ### The engine at work -/

/-- The request at work and the state. -/
structure Cw where
  o : CopyOp
  s : State

/-- Why a granule is not moved. -/
inductive CopyStop where
  | fault (va cause : Nat) (write : Bool)
  | stop (code : Nat)
  | poison (va : Nat)
  /-- It cannot be made now: a lager buffer without room, a quarantined line, an overflow page awaited. -/
  | wait

abbrev CopyM := Except (CopyStop × Cw)

/-- Whose request it is: the block, its agent and ASID; a COPY node's request has none. -/
def ownerBlk (o : CopyOp) : Option Nat := match o.kick.owner with | .blk u => some u | .node _ _ => none
def copyAgent (o : CopyOp) (s : State) : Word :=
  match ownerBlk o with
  | some u => engAgent (s.block u) 0 o.kick.num
  | none => 0
/-- The context of a COPY node. -/
def nodeCtx (core : Nat) (o : CopyOp) (s : State) : Nat :=
  match o.kick.owner with
  | .node gr _ => ((s.graph? (core / 48) gr).map fun g => g.ctx).getD 0
  | .blk _ => 0
/-- ASID and world of its accesses. -/
def copySpace (core : Nat) (o : CopyOp) (s : State) : Nat × Bool :=
  match ownerBlk o with
  | some u => let d := (s.launch (s.block u).launch).desc; (d.asid, d.world)
  | none => let c := s.ctx (nodeCtx core o s); (c.asid.toNat, c.world)

/-- R231: a block's registers take a tier-miss event of an engine. -/
def noteMiss (u engine va : Nat) (s : State) : State :=
  s.updEng u fun e => { e with
    tmiss := w32 (min (nbits e.tmiss.toNat 16 16 + 1) 0xFFFF * 2 ^ 16 + engine)
    tmva := w64 (va / 65536 * 65536) }

/-- Whether an access waits for a quarantined line (R412): a read of the core's engine for another core's atomic, and every access
for a COPY node, whose writes are at memory at once. -/
def heldBack (s : State) (core : Nat) (node : Bool) (k : AccKind) (pa : Nat) : Bool :=
  if node then s.quar.any fun q => q.line == pa / 64 else k == .read && quarantined s core pa

/-- The address of one granule access: translation, tier miss, PAGEIN's destination, replay, quarantine and link. -/
def copyAt (core : Nat) (k : AccKind) (va : Nat) (c : Cw) : CopyM (Nat × Cw) :=
  let f := CopyF.of c.o.words
  let (asid, world) := copySpace core c.o c.s
  match translate c.s (.copy core) asid world k (w64 va) with
  | .error cause => .error (.fault va cause (k == .write), c)
  | .ok (pa, l, s) =>
    let c := { c with s := s }
    let page := va / 2 ^ l.lg * 2 ^ l.lg
    if f.op = 8 ∧ k = .write ∧ l.tier ≠ 0 then .error (.stop 1, c) else
    let miss := l.tier == 1 && f.op != 8 && !c.o.pages.contains page
    let c := if miss then
        { o := { c.o with pages := c.o.pages ++ [page], flags := c.o.flags ||| 0x80 }
          s := match ownerBlk c.o with
            | some u => noteMiss u 0 va c.s
            | none => c.s }
      else c
    if l.tier == 1 && f.op != 8 && f.defer then .error (.stop 3, c)
    else if (k == .write && match ownerBlk c.o with
        | some u => !replayCovers (c.s.launch (c.s.block u).launch) c.s pa
        | none => false) then .error (.stop 6, c)
    else if heldBack c.s core (ownerBlk c.o).isNone k pa || linkWaits c.s pa then .error (.wait, c)
    else .ok (pa, c)

/-- A range in pieces that stay within 64-byte granules. -/
def granules : Nat → Nat → Nat → List (Nat × Nat)
  | 0, _, _ => []
  | fuel + 1, a, n =>
    if n = 0 then []
    else
      let k := min n (64 - a % 64)
      (a, k) :: granules fuel (a + k) (n - k)

/-- The pieces of a short range. -/
def piecesOf (a n : Nat) : List (Nat × Nat) := granules (n / 64 + 2) a n

/-- Translates every piece of a range. -/
def copyAddrs (core : Nat) (k : AccKind) : List (Nat × Nat) → Cw → CopyM (List (Nat × Nat × Nat) × Cw)
  | [], c => .ok ([], c)
  | (va, n) :: t, c => do
    let (pa, c) ← copyAt core k va c
    let (l, c) ← copyAddrs core k t c
    pure ((va, pa, n) :: l, c)

/-- The bytes of a piece of one granule as the request sees them: as the granule stood when the request first read it (R241). -/
def heldBytes (space key at_ n : Nat) (fresh : List Byte) (o : CopyOp) : List Byte × CopyOp :=
  if ([0, 4, 7, 8] : List Nat).contains (CopyF.of o.words).op then ((fresh.drop at_).take n, o) else
  match o.held.find? fun x => x.1 == space && x.2.1 == key with
  | some x => ((x.2.2.drop at_).take n, o)
  | none => ((fresh.drop at_).take n, { o with held := (space, key, fresh) :: o.held })

/-- Reads pieces of memory, each within one granule, as (virtual address, physical address, length). -/
def copyPieces (core u : Nat) : List (Nat × Nat × Nat) → Cw → List Byte × Cw
  | [], c => ([], c)
  | (va, pa, n) :: t, c =>
    let (bs, o) := heldBytes 0 (va / 64) (va % 64) n (engView c.s core u (pa / 64 * 64) 64) c.o
    let agent := copyAgent c.o c.s
    let s := match ownerBlk c.o with
      | some _ => engEscape u (recordAt c.s agent c.s.instant c.s.instant false none pa n)
      | none => c.s
    let (l, c) := copyPieces core u t ⟨o, s⟩
    (bs ++ l, c)

/-- Reads pieces of a typed buffer. -/
def bufPieces (u : Nat) (cb : Bool) : List (Nat × Nat) → Cw → List Byte × Cw
  | [], c => ([], c)
  | (a, n) :: t, c =>
    let b := c.s.block u
    let (bs, o) := heldBytes (1 + cb.toNat) (a / 64) (a % 64) n ((b.buf cb).data.readN (a / 64 * 64) 64) c.o
    let (l, c) := bufPieces u cb t ⟨o, engReadBuf u cb (copyAgent c.o c.s) a n c.s⟩
    (bs ++ l, c)

/-- Reads a range of a space. -/
def copyRead (core space a n : Nat) (c : Cw) : CopyM (List Byte × Cw) :=
  match space, ownerBlk c.o with
  | 0, _ => do
    let (l, c) ← copyAddrs core .read (piecesOf a n) c
    match l.find? fun p => anyPoison c.s p.2.1 p.2.2 with
    | some p => .error (.poison p.1, c)
    | none =>
      let (bs, c) := copyPieces core ((ownerBlk c.o).getD 0) l c
      pure (bs, { c with s := { c.s with freeCtr := c.s.freeCtr + 1 } })
  | 1, some u => .ok (bufPieces u false (piecesOf a n) c)
  | _, some u => .ok (bufPieces u true (piecesOf a n) c)
  | _, none => .ok ([], c)

/-- Writes bytes into WBUF, which no thread sees (R232). -/
def writeWbuf (u off : Nat) (bs : List Byte) (s : State) : State :=
  s.updBlock u fun b => { b with wbuf := { b.wbuf with data := b.wbuf.data.writeAll (at_ off bs) } }

/-- An engine's write of global memory: through the lager path of its block, or to memory for a COPY node (R294, R105). -/
def engStore (core : Nat) (blk : Option Nat) (agent : Word) (l : List (Nat × Byte)) (s : State) : Option State :=
  match blk with
  | none => performBytes s l
  | some u =>
    let lagers := (s.launch (s.block u).launch).lagers
    if l.isEmpty then some s
    else if lagers && !lagerRoom s core l.length then none
    else
      let o := engItem s u agent (.store ((l.head?.map Prod.fst).getD 0) l)
      let s := emit lagers core o s
      some (if lagers then s else s.updBlock u fun b => { b with escaped := true })

/-- Writes a range of a space. -/
def copyWrite (core space a : Nat) (bs : List Byte) (c : Cw) : CopyM Cw :=
  let agent := copyAgent c.o c.s
  match space, ownerBlk c.o with
  | 0, u => do
    let (l, c) ← copyAddrs core .write (piecesOf a bs.length) c
    let bytes := (l.flatMap fun p => (List.range p.2.2).map fun i => p.2.1 + i).zip bs
    match engStore core u agent bytes c.s with
    | none => .error (.wait, c)
    | some s => pure ({ c with s := s })
  | 1, some u => .ok ({ c with s := engWriteBuf u false agent a bs c.s })
  | 2, some u => .ok ({ c with s := engWriteBuf u true agent a bs c.s })
  | _, some u => .ok ({ c with s := writeWbuf u a bs c.s })
  | _, none => .ok (c)

/-- Bytes arrive: the counter goes down by those not counted before (R294, R297). -/
def copyArrive (pos : Nat) (c : Cw) : Cw :=
  let n := pos - c.o.counted
  { o := { c.o with pos := pos, counted := max c.o.counted pos }
    s := match ownerBlk c.o with
      | some u => if n = 0 then c.s else c.s.updEng u (countDown (CopyF.of c.o.words).arr n (0, c.o.kick.num))
      | none => c.s }

/-- Progress of a relocation in its forwarding pair, which only rises: one that runs again catches up first (R365, R297). -/
def pairMoved (u f n : Nat) (s : State) : State :=
  s.updEng u fun e => { e with fw := vmod e.fw f fun p => { p with moved := w32 (max p.moved.toNat n) } }

/-- Moves one granule from one place to another. -/
def moveOne (core : Nat) (src dst : Nat × Nat) (n : Nat) (c : Cw) : CopyM Cw := do
  let (bs, c) ← copyRead core src.1 src.2 n c
  copyWrite core dst.1 dst.2 bs c

/-- The granule of a linear move at a position: within one source granule. -/
def linear (core : Nat) (f : CopyF) (c : Cw) : CopyM Cw := do
  let p := c.o.pos
  let n := min (c.o.total - p) (64 - (f.src + p) % 64)
  let c ← moveOne core (f.ssp, f.src + p) (f.dsp, f.dst + p) n c
  pure (copyArrive (p + n) c)

/-- COPY2D: within a row. Where a row ends in half a byte, the other half of the destination's byte stays. -/
def copyRow (core : Nat) (f : CopyF) (c : Cw) : CopyM Cw := do
  let s := descSrc c.o.ctl
  let d := descDst c.o.ctl
  let r := c.o.pos / s.rowLen
  let q := c.o.pos % s.rowLen
  let a := s.base + r * s.stride1 + q
  let b := d.base + r * d.stride1 + q
  let n := min (s.rowLen - q) (64 - a % 64)
  let half := etypeBits s.etype == 4 && s.dim 0 % 2 == 1 && q + n == s.rowLen
  let (bs, c) ← copyRead core f.ssp a n c
  let (old, c) ← if half then copyRead core f.dsp (b + n - 1) 1 c else pure ([], c)
  let bs := if half then bs.dropLast ++ [((bs.getLast?.getD 0) &&& 0x0F#8) ||| ((old.head?.getD 0) &&& 0xF0#8)] else bs
  let c ← copyWrite core f.dsp b bs c
  pure (copyArrive (c.o.pos + n) c)

/-- GATHER and SCATTER: within an item, whose index the list gives. -/
def copyIndexed (core : Nat) (f : CopyF) (scatter : Bool) (c : Cw) : CopyM Cw := do
  let j := c.o.pos / f.item
  let q := c.o.pos % f.item
  let i := idxAt c.o.ctl j
  let a := f.src + (if scatter then j else i) * f.item + q
  let b := f.dst + (if scatter then i else j) * f.item + q
  let n := min (f.item - q) (64 - a % 64)
  let c ← moveOne core (f.ssp, a) (f.dsp, b) n c
  pure (copyArrive (c.o.pos + n) c)

/-- FILL. -/
def filled (core : Nat) (f : CopyF) (c : Cw) : CopyM Cw := do
  let p := c.o.pos
  let n := min (c.o.total - p) (64 - (f.dst + p) % 64)
  let bs := (List.range n).map fun i => BitVec.ofNat 8 (nbits f.value (8 * ((p + i) % 4)) 8)
  let c ← copyWrite core f.dsp (f.dst + p) bs c
  pure (copyArrive (p + n) c)

/-- COMPACT: within a kept item; items not kept are passed over. Nothing is counted before retirement. -/
def compacted (core : Nat) (f : CopyF) (c : Cw) : CopyM Cw := do
  let j := c.o.pos / f.item
  let q := c.o.pos % f.item
  if !keepAt c.o.ctl j then pure ({ c with o := { c.o with pos := (j + 1) * f.item } }) else
  let a := f.src + c.o.pos
  let n := min (f.item - q) (64 - a % 64)
  let c ← moveOne core (f.ssp, a) (f.dsp, f.dst + c.o.out) n c
  pure ({ c with o := { c.o with pos := c.o.pos + n, out := c.o.out + n } })

/-- The result bytes of an element of a DECODE. -/
def decodeRes (f : CopyF) (v : FVal) : List Byte × Flags :=
  match f.value % 4 with
  | 0 => let (x, fl) := f32.ofVal f.rnd v; (toLe 4 x, fl)
  | 1 => let (x, fl) := bf16.ofVal f.rnd v; (toLe 2 x, fl)
  | _ => let (x, fl) := f16.ofVal f.rnd v; (toLe 2 x, fl)

/-- DECODE: within one block or slice and one granule of the destination. -/
def decoded (core : Nat) (f : CopyF) (c : Cw) : CopyM Cw := do
  let t := descSrc c.o.ctl
  let p := c.o.pos
  let e := p / f.resBytes
  let per := unitElems t.etype t.n48
  let row := e / t.dim 0
  let col := e % t.dim 0
  let len := unitBytes t.etype t.n48
  let (bs, c) ← copyRead core f.ssp (t.base + row * t.stride1 + col / per * len) len c
  let (es, bad) := readUnit t.etype t.n48 bs
  if bad && t.strict then .error (.stop 5, c) else
  let n := min ((per - col % per) * f.resBytes - p % f.resBytes) (64 - (f.dst + p) % 64)
  let rs := (es.drop (col % per)).map (decodeRes f)
  let out := ((rs.flatMap Prod.fst).drop (p % f.resBytes)).take n
  let used := rs.take (cdiv (p % f.resBytes + n) f.resBytes)
  let fl := ((used.foldl (fun a r => a.or r.2) { fmterr := bad }) : Flags)
  let c ← copyWrite core f.dsp (f.dst + p) out c
  pure (copyArrive (p + n) { c with o := { c.o with flags := c.o.flags ||| fl.bits } })

/-- One granule of a request by its operation. -/
def copyGranule (core : Nat) (c : Cw) : CopyM Cw :=
  let f := CopyF.of c.o.words
  match f.op with
  | 1 => copyRow core f c
  | 2 => copyIndexed core f false c
  | 3 => copyIndexed core f true c
  | 4 => filled core f c
  | 5 => decoded core f c
  | 6 => compacted core f c
  | 7 => do
    let c ← linear core f c
    pure ({ c with s := pairMoved ((ownerBlk c.o).getD 0) f.pair (min c.o.pos c.o.total) c.s })
  | _ => linear core f c

/-! ### Starting requests (R293, R97, R241, R365) -/

/-- Puts a request back among the running ones. -/
def putOp (core : Nat) (o : CopyOp) (s : State) : State :=
  s.updBody core fun k => { k with copies := k.copies.map fun x => if x.id = o.id then o else x }

/-- The next kick: a draught block's first, else the oldest. -/
def nextKick (s : State) (core : Nat) : Option Kick :=
  let ks := (s.core core).body.kicks
  let draught (k : Kick) : Bool := match k.owner with
    | .blk u => (s.launch (s.block u).launch).hdr.draught
    | .node _ _ => false
  match ks.find? draught with
  | some k => some k
  | none => ks.head?

/-- A kick with its first request taken. -/
def takeKick (core : Nat) (k : Kick) (s : State) : State :=
  let next (x : Kick) : Kick := if x = k then { x with off := x.off + 32, num := x.num + 1, n := x.n - 1 } else x
  s.updBody core fun b => { b with kicks := if k.n ≤ 1 then b.kicks.erase k else b.kicks.map next }

/-- The requests that an engine runs: at most 8 at a time, those that wait for a fault not counted (R293). -/
def runningOps (s : State) (core : Nat) : List CopyOp :=
  ((s.core core).body.copies.filter fun o => o.waitSlot.isNone).take 8

/-- Whether the engine may start one more request (R241, R293). -/
def engineFree (s : State) (core : Nat) : Bool :=
  decide ((runningOps s core).length < 8) && decide ((sbEntries s core).length < 64)

/-- Whether a forwarding pair is moving, or an attention task in flight has captured it (R365). -/
def pairBusy (s : State) (core u f : Nat) : Bool :=
  (((s.block u).eng.fw[f]?).any fun p => p.st == 1) ||
    (s.core core).body.attn.any fun a => a.blk == u && a.slab.link.any fun l => l.val == f

/-- A new request at work, with its checks' outcome. -/
def newOp (id : Nat) (b : Block) (k : Kick) (words : List Byte) : CopyOp :=
  let f := CopyF.of words
  let ctl := f.ctlRanges.flatMap fun r => b.abytes r.1 r.2
  let base : CopyOp :=
    { id, kick := { k with n := 1 }, words, sbSpace := 0, sbLo := 0, sbHi := 0, counted := 0, total := failedN b ctl f, pos := 0
      out := 0, finished := some 1, flags := 0, ctl, held := [], pages := [], waitSlot := none }
  match copyPlan b ctl f with
  | none => base
  | some p =>
    let (sp, lo, hi) := sbSpan p
    { base with total := p.n, sbSpace := sp, sbLo := lo, sbHi := hi, finished := if p.n = 0 then some 0 else none }

/-- A request that runs again from its beginning, with the checks of its start; what its counter has counted stays counted, and
no page's event is raised twice (R230, R297). -/
def CopyOp.again (b : Block) (o : CopyOp) : CopyOp :=
  { newOp o.id b o.kick o.words with counted := o.counted, pages := o.pages, flags := o.flags &&& 0x80 }

/-- The race records of what the engine reads of ABUF when it starts a request (R414). -/
def startReads (u : Nat) (b : Block) (k : Kick) (f : CopyF) (s : State) : State :=
  ((k.off, 32) :: f.ctlRanges.filter fun r => decide (r.1 + r.2 ≤ b.abuf.size)).foldl
    (fun s r => engReadBuf u false (engAgent b 0 k.num) r.1 r.2 s) s

/-- Starts the next request of a core, when it is of an operation: it reads the request, checks it and takes its
scoreboard entry. -/
def startCopy (core op : Nat) (s : State) : Option State :=
  if !engineFree s core then none else
  match nextKick s core with
  | none => none
  | some k =>
    match k.owner with
    | .node _ _ => none
    | .blk u =>
      let b := s.block u
      let words := b.abytes k.off 32
      let f := CopyF.of words
      if (if 9 ≤ f.op then op != 0 else f.op != op) then none
      else
        let o := newOp s.uidCtr b k words
        if f.op = 7 ∧ pairBusy s core u f.pair then none else
        let s := takeKick core k (startReads u b k f { s with uidCtr := s.uidCtr + 1 })
        let s := s.updBody core fun x => { x with copies := x.copies ++ [o] }
        some (if f.op = 7 ∧ o.finished ≠ some 1 then
          s.updEng u fun e => { e with fw := vmod e.fw f.pair fun _ =>
            { old := w64 f.src, new := w64 f.dst, total := w32 f.len, moved := 0, st := 1 } }
        else s)

/-- A request stops for a translation fault: it is posted, and a COMPACT starts over (R296, R456). The entry of a world fault
names the block, or the context of a COPY node (R254). -/
def copyFaults (core va cause : Nat) (write : Bool) (c : Cw) : State :=
  let f := CopyF.of c.o.words
  let (asid, world) := copySpace core c.o c.s
  let agent := copyAgent c.o c.s
  let words := faultWords asid cause 1 write world agent va Kind.translation
  let (slot, s) := postFault (core / 48) words (.copy core c.o.id) c.s
  let o := { c.o with
    waitSlot := some (slot.getD 64), pos := if f.op = 6 then 0 else c.o.pos, out := if f.op = 6 then 0 else c.o.out
    held := if f.op = 6 then [] else c.o.held }
  let s := putOp core o s
  let who := match ownerBlk c.o with
    | some _ => agent
    | none => w32 (nodeCtx core c.o c.s)
  if cause = causeWorld then bbWrite (core / 48) (worldEnt s asid who (w64 va)) s else s

/-- After a granule: the work is done once everything has been moved. -/
def copyDone (c : Cw) : CopyOp :=
  if c.o.total ≤ c.o.pos then { c.o with finished := some 0 } else c.o

/-- Poison ends the launch of a block (R260); a COPY node's request retires with UNCORRECTABLE. -/
def copyPoison (core va : Nat) (c : Cw) : State :=
  let s := putOp core { c.o with finished := some 4 } c.s
  match ownerBlk c.o with
  | some u => terminate u 0x06 Kind.uncorrectable (copyAgent c.o c.s) (w64 va) s
  | none => s

/-- One step of a request at work: none when it cannot be made now. -/
def copyStep (core : Nat) (o : CopyOp) (s : State) : Option State :=
  match copyGranule core ⟨o, s⟩ with
  | .ok c => some (putOp core (copyDone c) c.s)
  | .error (.fault va cause write, c) => some (copyFaults core va cause write c)
  | .error (.stop code, c) => some (putOp core { c.o with finished := some code } c.s)
  | .error (.poison va, c) => some (copyPoison core va c)
  | .error (.wait, _) => none

/-- Requests of an operation that are at work. -/
def workingOps (s : State) (core op : Nat) : List CopyOp :=
  (runningOps s core).filter fun o => o.finished.isNone && (CopyF.of o.words).op == op

/-- A step of the copy engine on an operation: the start of a request, or a granule of one at work; which of several is a
free choice. -/
def copyEvent (core op : Nat) (name : String) (s : State) : Host.Outcome State Fault Refusal :=
  let starts := (startCopy core op s).toList
  let (n, t) := s.free
  let moves := (workingOps s core op).filterMap fun o => copyStep core o t
  let l := starts ++ moves
  match l[n % max 1 l.length]? with
  | some r => .next r
  | none => .refused (.notEnabled name)

/-- COPY; a request of no operation is started by it too. -/
def execCopy (core : Nat) (s : State) : Host.Outcome State Fault Refusal := copyEvent core 0 "COPY" s
/-- COPY2D. -/
def execCopy2d (core : Nat) (s : State) : Host.Outcome State Fault Refusal := copyEvent core 1 "COPY2D" s
/-- GATHER. -/
def execGather (core : Nat) (s : State) : Host.Outcome State Fault Refusal := copyEvent core 2 "GATHER" s
/-- SCATTER. -/
def execScatter (core : Nat) (s : State) : Host.Outcome State Fault Refusal := copyEvent core 3 "SCATTER" s
/-- FILL. -/
def execFill (core : Nat) (s : State) : Host.Outcome State Fault Refusal := copyEvent core 4 "FILL" s
/-- DECODE. -/
def execDecode (core : Nat) (s : State) : Host.Outcome State Fault Refusal := copyEvent core 5 "DECODE" s
/-- COMPACT. -/
def execCompact (core : Nat) (s : State) : Host.Outcome State Fault Refusal := copyEvent core 6 "COMPACT" s
/-- RELOCATE. -/
def execRelocate (core : Nat) (s : State) : Host.Outcome State Fault Refusal := copyEvent core 7 "RELOCATE" s
/-- PAGEIN. -/
def execPagein (core : Nat) (s : State) : Host.Outcome State Fault Refusal := copyEvent core 8 "PAGEIN" s

/-! ### Retirement (R294, R365, R381, R75) -/

/-- The retirement of a block's request: status into the request, the rest of N, the copy-fault bit, the forwarding pair,
a growth, and then its number. -/
def retireCopy (u : Nat) (o : CopyOp) (code : Nat) (s : State) : State :=
  let f := CopyF.of o.words
  let s := engWriteBuf u false (engAgent (s.block u) 0 o.kick.num) (o.kick.off + 2)
    [BitVec.ofNat 8 o.flags, BitVec.ofNat 8 code] s
  let s := s.updEng u fun e =>
    let e := if o.counted < o.total then countDown f.arr (o.total - o.counted) (0, o.kick.num) e else e
    let e := if code = 0 then e else { e with copyFault := true }
    if f.op = 7 then { e with fw := vmod e.fw f.pair fun p => { p with st := if code = 0 then 2 else 0 } } else e
  let s := match o.kick.grow with
    | some (n, base) => growEnds u n base (code == 0) s
    | none => s
  s.updEng u (completeOn 0 o.kick.num)

/-- The retirement of a COPY node's request: code and flags into the request in memory, and the node ends. DESIGN CHOICE
(log 151): where the place no longer translates nothing is written, and the node ends by its code as otherwise. None while the
write waits. -/
def retireNode (core gr node : Nat) (o : CopyOp) (code : Nat) (s : State) : Option State :=
  let c := s.ctx (nodeCtx core o s)
  let s? := match translate s (.die (core / 48)) c.asid.toNat c.world .write (w64 (o.kick.off + 2)) with
    | .ok (pa, _, s) =>
      if heldBack s core true .write pa || linkWaits s pa then none
      else performBytes s (at_ pa [BitVec.ofNat 8 o.flags, BitVec.ofNat 8 code])
    | .error _ => some s
  s?.map fun s => endNode (core / 48) gr node (if code = 0 then none else some Status.failed) [] s

/-- REQUEST_RETIREMENT. -/
def execRequestRetirement (core op : Nat) (s : State) : Host.Outcome State Fault Refusal :=
  match (s.core core).body.copies.find? fun o => o.id == op with
  | none => .refused (.notEnabled "REQUEST_RETIREMENT")
  | some o =>
    match o.finished with
    | none => .refused (.notEnabled "REQUEST_RETIREMENT")
    | some code =>
      let t := s.updBody core fun k => { k with copies := k.copies.filter fun x => x.id != op }
      match o.kick.owner with
      | .blk u =>
        if (s.block u).state = .saved then .refused (.notEnabled "REQUEST_RETIREMENT") else .next (retireCopy u o code t)
      | .node gr n =>
        match retireNode core gr n o code t with
        | some r => .next r
        | none => .refused (.notEnabled "REQUEST_RETIREMENT")

end Sys2Proof.Machine
end

