-- ==== Sys2Proof/Machine/Select.lean ====
section
/-!
DEFINITION. Selection (R168): waits that end, splits that vote at the end of a clause (R167), and the choice and start of
clauses (R118-R123, R154), with the end of a sleep (R405).
-/

namespace Sys2Proof.Machine

/-! ### The warps of a sub-core -/

/-- Blocks and warps that issue on a sub-core. -/
def subWarps (s : State) (core sub : Nat) : List (Nat × Nat) :=
  (s.blocks.filter fun p => p.2.place.coreNo == core && p.2.state != .saved).flatMap fun p =>
    (p.2.warps.filter fun q => subCore q.1 p.2.place.slot == sub && !q.2.retired).map fun q => (p.1, q.1)

def State.warpOf (s : State) (u wn : Nat) : Warp := AMap.getD (s.block u).warps wn default
def State.splitOf (s : State) (c : Cursor) : Split := AMap.getD (s.warpOf c.blk c.warp).splits c.split default

/-- Every split of a sub-core's warps. -/
def subSplits (s : State) (core sub : Nat) : List Cursor :=
  (subWarps s core sub).flatMap fun p => (s.warpOf p.1 p.2).splits.map fun q => ⟨p.1, p.2, q.1⟩

/-! ### Waits at a clause boundary (R119, R167, R401) -/

/-- Whether a wait is one of those that keep a split at a clause boundary. -/
def boundaryWait : Wait → Bool
  | .none | .arr _ | .tl _ _ | .bar _ _ | .sleep _ | .tlback _ => true
  | _ => false

/-- Whether an instruction wait now holds: a sleep ends by its own step, and a `TLBACK` with its last acknowledgement. -/
def waitDone (s : State) (u wn : Nat) (sp : Split) : Bool :=
  let b := s.block u
  match sp.wait with
  | .arr m => ctrsDone b.eng m.toNat
  | .tl n v => decide (v.toNat ≤ (b.eng.tl[n]).done.toNat)
  | .bar bar m =>
    let w := s.warpOf u wn
    let p := m &&& (barFlags w bar).pending &&& w.lane.live
    (p &&& ~~~ canDepart s u wn bar p) == 0
  | _ => false

/-- The acquire of a wait that holds (R299, R301, R390). -/
def waitAcquires (u wn : Nat) (x : Wait) (s : State) : State :=
  match x with
  | .arr m => acquireCtrs m.toNat u wn s
  | .tl n v => acquireTl n.val v u wn s
  | .bar bar m => depart u wn bar (m &&& (barFlags (s.warpOf u wn) bar).pending) s
  | _ => s

/-- A split whose wait has ended merges with the splits that wait at its header (R167). -/
def Warp.settle (w : Warp) (k : Nat) : Warp :=
  match AMap.get? w.splits k with
  | none => w
  | some sp =>
    let sp := { sp with wait := .none }
    if sp.port.isNone && sp.idx == 0 then ({ w with splits := AMap.erase w.splits k }).join { sp with code := [] }
    else { w with splits := AMap.set w.splits k sp }

/-- Ends a wait. -/
def endWait (c : Cursor) (s : State) : State :=
  (waitAcquires c.blk c.warp (s.splitOf c).wait s).updWarpOf c.blk c.warp fun w => w.settle c.split

/-! ### The vote (R116, R167) -/

/-- Whether a split has ended its clause. One that all its lanes have left runs to the end of it too: it issues the rest with no
lane active (R135, R170). -/
def clauseEnded (sp : Split) : Bool := boundaryWait sp.wait && sp.idx != 0 && decide (hdrCount sp.header ≤ sp.idx)

/-- Latches end with the clause (R154). -/
def dropLatches (m : Mask) (r : Regs) : Regs :=
  { r with lat := r.lat.map fun l => { l with life := tab fun i => if has m i then 0 else l.life[i] } }

/-- The lanes of an ended split go to their next clauses: those that fell through keep a wait that does not hold yet. -/
def Warp.vote (w : Warp) (k : Nat) : Warp :=
  match AMap.get? w.splits k with
  | none => w
  | some sp =>
    let m := sp.lanes &&& w.lane.live
    let fell := m &&& ~~~ sp.left
    let gone := m &&& sp.left
    let after := nextClause sp.hdr sp.header
    let w := { w with
      splits := AMap.erase w.splits k
      reg := dropLatches sp.lanes w.reg
      yielded := w.yielded || hdrYield sp.header || sp.yields }
    let w := if fell = 0 then w
      else if sp.wait = .none then w.moveTo fell after sp.pass
      else w.addSplit { Split.start fell after with pass := sp.pass, wait := sp.wait }
    let targets := ((lanesOf gone).map fun l => (w.lane.pcs[l]).hdr).eraseDups
    targets.foldl (fun w t => w.moveTo (gone &&& maskOf fun l => (w.lane.pcs[l]).hdr == t) t sp.pass) w

/-! ### Eligibility (R168) -/

/-- The pipes of a class: alu, mem, engine, ctrl; a meld clause takes two. -/
def pipesOf (cls : Nat) : List Nat := if cls = 4 then [0, 1] else [cls]

/-- Whether a code names a latch. -/
def isLatchCode (x : BitVec 9) : Bool := decide (384 ≤ x.toNat) && decide (x.toNat ≤ 386)

/-- The opcodes of Format I, and of Format M (R133). -/
def fmtI (op : Nat) : Bool :=
  [0x040, 0x041, 0x042, 0x050, 0x051, 0x052, 0x053, 0x058, 0x059, 0x05A, 0x05B, 0x0C0, 0x0C1, 0x181].contains op
def fmtM (op : Nat) : Bool :=
  [0x200, 0x201, 0x202, 0x203, 0x204, 0x205, 0x208, 0x209, 0x20A, 0x210, 0x212, 0x213, 0x218, 0x219].contains op
def fmtB (op : Nat) : Bool := decide (0x380 ≤ op) && decide (op ≤ 0x384)
def fmtE (op : Nat) : Bool :=
  [0x189, 0x18A, 0x220].contains op || (decide (0x280 ≤ op) && !fmtB op && !([0x296, 0x2A1, 0x313] : List Nat).contains op)

/-- Whether an instruction word sets a hold bit or names a latch (R154). -/
def wordLatches (w : DWord) : Bool :=
  let op := opcOf w
  let at9 (lo : Nat) : Bool := isLatchCode (w.extractLsb' lo 9)
  if fmtI op || fmtB op then at9 41 || at9 32
  else if fmtM op then at9 41 || at9 32 || (w.extractLsb' 6 3) != 0
  else if fmtE op then at9 41 || at9 32 || at9 23
  else at9 41 || at9 32 || at9 23 || at9 14 || (w.extractLsb' 8 3) != 0

/-- Whether a clause takes the latch set. -/
def clauseLatches (s : State) (u hdr : Nat) (h : DWord) : Bool :=
  (List.range (hdrCount h)).any fun i => wordLatches (peekCode s u (hdr + 8 + 8 * i))

/-- The splits of other warps that run on a sub-core. -/
def runningOthers (s : State) (core sub u wn : Nat) : List Cursor :=
  (subSplits s core sub).filter fun c => (s.splitOf c).port.isSome && !(c.blk == u && c.warp == wn)

/-- R123: the pipes are free for a warp. -/
def pipesFree (s : State) (core sub u wn : Nat) (h : DWord) : Bool :=
  (runningOthers s core sub u wn).all fun c =>
    (pipesOf (hdrClass (s.splitOf c).header)).all fun p => !(pipesOf (hdrClass h)).contains p

/-- R154: the latch set is free for a clause of a warp: no clause of another warp that has begun and not ended holds it, be it
one that waits inside at a fault. -/
def latchFree (s : State) (core sub u wn hdr : Nat) (h : DWord) : Bool :=
  let others := (subSplits s core sub).filter fun c => !(c.blk == u && c.warp == wn) && !(s.splitOf c).code.isEmpty
  others.isEmpty || !clauseLatches s u hdr h || others.all fun c => !(s.splitOf c).code.any wordLatches

/-- The value of a header's timeline wait: read once (R119). -/
def tlValue (w : Warp) (sp : Split) (h : DWord) : DWord :=
  sp.tlv.getD (pair64 (w.reg.s[hdrTlreg h]?.getD 0) (w.reg.s[hdrTlreg h + 1]?.getD 0))

/-- R119: the header's waits. The value of a timeline wait is read before it can hold. -/
def headerWaits (s : State) (u wn : Nat) (sp : Split) (h : DWord) : Bool :=
  let b := s.block u
  let w := s.warpOf u wn
  ctrsDone b.eng (hdrArr h).toNat &&
    (!hdrTlen h || sp.tlv.any fun v => decide (v.toNat ≤ ((b.eng.tl[hdrTlsel h]?).getD default).done.toNat)) &&
    decide (w.ord.ops.length ≤ hdrOut h)

/-- The header word of a clause, if it can be fetched. -/
def headerOf (s : State) (u hdr : Nat) : Option DWord :=
  let b := s.block u
  let la := s.launch b.launch
  match fetchWord s b.place.coreNo la hdr with
  | .ok (h, _) => if la.hdr.codeSize < hdr + 8 then none else some h
  | .error _ => none

/-- Whether a trap of the warp has been raised in this cycle: a fault at a header waits for the next, so that it is no fault of
the same cycle (R177, log 164). -/
def Warp.trapNow (w : Warp) (now : Nat) : Bool := w.trap.current.any fun x => x.2 == some now

/-- R168: whether a split can start its clause now, or, at an index other than 0, go on with it as soon as its pipe is free. One
whose header cannot be fetched or is malformed can: it takes its fault. Code on a line that another core's atomic holds, or behind
a link that trains, is not fetched yet (R412, R492). -/
def eligible (s : State) (core sub : Nat) (c : Cursor) : Bool :=
  let w := s.warpOf c.blk c.warp
  let sp := s.splitOf c
  ([.running, .draining] : List BlkState).contains (s.block c.blk).state && !w.trapNow s.now &&
  sp.port.isNone && sp.wait == .none && (sp.lanes &&& w.lane.live) != 0 && (sp.serb.isNone || w.serial.isNone) &&
    !clauseHeld s c.blk sp.hdr &&
    match headerOf s c.blk sp.hdr with
    | none => true
    | some h =>
      if sp.idx != 0 then pipesFree s core sub c.blk c.warp h
      else !headerOk h || (headerWaits s c.blk c.warp sp h && pipesFree s core sub c.blk c.warp h &&
        latchFree s core sub c.blk c.warp sp.hdr h)

/-! ### Starting (R118, R119, R175) -/

/-- Raises a fault of a whole split, or of some of its lanes, where it stands. -/
def splitFault (c : Cursor) (kind cause : Nat) (va : DWord) (m : Mask) (s : State) : State :=
  let sp := s.splitOf c
  raiseAt c { kind, cause, lanes := m, va, write := false, code := 0, race := none, pc := ⟨sp.hdr, sp.idx⟩ } s

/-- The running lane of a serial region that has come to a clause outside the region without `SERE` (R175). -/
def strayed (w : Warp) (sp : Split) : Mask :=
  match w.serial with
  | none => 0
  | some r =>
    if r.first ≤ sp.hdr ∧ sp.hdr ≤ r.last then 0
    else one_ r.lane &&& sp.lanes &&& w.lane.inSerial &&& ~~~ w.lane.inHandler

/-- The start of a clause acquires what its header's waits observed (R119). -/
def headerAcquires (c : Cursor) (h : DWord) (s : State) : State :=
  let sp := s.splitOf c
  let s1 := acquireCtrs (hdrArr h).toNat c.blk c.warp s
  if hdrTlen h then acquireTl (hdrTlsel h) (tlValue (s.warpOf c.blk c.warp) sp h) c.blk c.warp s1 else s1

/-- The split takes a port. -/
def takePort (c : Cursor) (p : Fin 2) (h : DWord) (code : List DWord) (s : State) : State :=
  s.updWarpOf c.blk c.warp fun w => { w with
    splitCtr := w.splitCtr + 1
    splits := AMap.modify w.splits c.split fun sp =>
      let sp := { sp with port := some p, header := h, code := code, serb := none, sel := w.splitCtr }
      if sp.idx = 0 then { sp with latPtr := 0, yields := false, tlv := none, left := 0 } else sp }

/-- Starts a chosen split on a port. -/
def startSplit (c : Cursor) (p : Fin 2) (s : State) : State :=
  let w := s.warpOf c.blk c.warp
  let sp := s.splitOf c
  let m := sp.lanes &&& w.lane.live
  if (AMap.get? s.blocks c.blk).isNone ∨ m = 0 then s
  else if sp.idx != 0 then
    match resumeClause s c.blk sp.hdr sp.idx with
    | .bad k e va => splitFault c k e va m s
    | .ok h ws s1 => takePort c p h ws s1
  else if strayed w sp != 0 then splitFault c Kind.serialRegion 0 0 (strayed w sp) s
  else match startClause s c.blk sp.hdr with
    | .bad k e va => splitFault c k e va m s
    | .ok h ws s1 => takePort c p h ws (headerAcquires c h s1)

/-! ### Choice (R168, R121) -/

/-- R168 step 1: whether a warp goes before another. -/
def warpBefore (s : State) (a b : Nat × Nat) : Bool :=
  let key (x : Nat × Nat) : List Nat :=
    let bl := s.block x.1
    [255 - (s.launch bl.launch).desc.priority, bl.startAt, x.2, bl.place.slot]
  decide (key a < key b)

/-- The first of a list in an order. -/
def firstBy {α : Type} (lt : α → α → Bool) : List α → Option α
  | [] => none
  | a :: t => match firstBy lt t with
    | none => some a
    | some b => if lt b a then some b else some a

/-- R168 step 2: whether a split goes before another of its warp. -/
def splitBefore (a b : Split) : Bool :=
  let pc : Bool := Pc.lt ⟨a.hdr, a.idx⟩ ⟨b.hdr, b.idx⟩
  if 16 ≤ a.pass ∨ 16 ≤ b.pass then decide (b.pass < a.pass) || (a.pass == b.pass && pc)
  else decide (popcount b.lanes < popcount a.lanes) || (popcount a.lanes == popcount b.lanes && pc)

/-- The free ports of a sub-core. -/
def freePorts (s : State) (core sub : Nat) : List (Fin 2) :=
  let used := (subSplits s core sub).filterMap fun c => (s.splitOf c).port
  [0, 1].filter fun p => !used.contains p

/-- R168 step 3: the pass counts of a warp's eligible splits. -/
def passCounts (el chosen : List Cursor) (s : State) : State :=
  el.foldl (fun s c => s.updWarpOf c.blk c.warp fun w =>
    { w with splits := AMap.modify w.splits c.split fun sp =>
        { sp with pass := if chosen.contains c then 0 else sp.pass + 1 } }) s

/-- Every yield of a sub-core has been honoured once a selection is made (R121). -/
def clearYields (core sub : Nat) (s : State) : State :=
  (subWarps s core sub).foldl (fun s p => s.updWarpOf p.1 p.2 fun w => { w with yielded := false }) s

/-- The choice of one selection: its eligible splits of the warp chosen, and those that start. -/
def choose (s : State) (core sub : Nat) : Option (List Cursor × List Cursor) :=
  let ports := freePorts s core sub
  if ports.isEmpty then none else
  let el := (subSplits s core sub).filter (eligible s core sub)
  let ws := (el.map fun c => (c.blk, c.warp)).eraseDups
  let ready := ws.filter fun p => !(s.warpOf p.1 p.2).yielded
  match firstBy (warpBefore s) (if ready.isEmpty then ws else ready) with
  | none => none
  | some p =>
    let mine := el.filter fun c => c.blk == p.1 && c.warp == p.2
    let lt (a b : Cursor) : Bool := splitBefore (s.splitOf a) (s.splitOf b)
    match firstBy lt mine with
    | none => none
    | some a =>
      if ports.length < 2 then some (mine, [a]) else
      match firstBy lt (mine.filter fun c => c != a) with
      | none => some (mine, [a])
      | some b => some (mine, [a, b])

/-- Starts the splits chosen on the free ports. -/
def startAll (ports : List (Fin 2)) (cs : List Cursor) (s : State) : State :=
  (cs.zip ports).foldl (fun s x => startSplit x.1 x.2 s) s

/-- The splits whose header waits for a timeline value that has not been read yet (R119), and which nothing awaited holds up
(R160), each with its header. -/
def tlvDue (core sub : Nat) (s : State) : List (Cursor × DWord) :=
  (subSplits s core sub).filterMap fun c =>
    let sp := s.splitOf c
    if sp.port.isSome || sp.idx != 0 || sp.tlv.isSome || sp.wait != .none || clauseHeld s c.blk sp.hdr then none else
    match headerOf s c.blk sp.hdr with
    | none => none
    | some h => if !hdrTlen h || (s.warpOf c.blk c.warp).awaits (.s (Fin.ofNat 64 (hdrTlreg h))) then none else some (c, h)

/-- Reads those values. -/
def readTlv (l : List (Cursor × DWord)) (s : State) : State :=
  l.foldl (fun s x => s.updWarpOf x.1.blk x.1.warp fun w => { w with splits := AMap.modify w.splits x.1.split fun sp =>
    { sp with tlv := some (tlValue w sp x.2) } }) s

/-- SELECTION: the waits that hold end, ended splits vote, and the free ports are filled from one warp. -/
def execSelection (core : Nat) (sub : Fin 4) (s : State) : Host.Outcome State Fault Refusal :=
  let done := (subSplits s core sub.val).filter fun c => waitDone s c.blk c.warp (s.splitOf c)
  let s1 := done.foldl (fun s c => endWait c s) s
  let ended := (subSplits s1 core sub.val).filter fun c => clauseEnded (s1.splitOf c)
  let s2 := ended.foldl (fun s c => s.updWarpOf c.blk c.warp fun w => w.vote c.split) s1
  let due := tlvDue core sub.val s2
  let s2 := readTlv due s2
  match choose s2 core sub.val with
  | none => if done.isEmpty && ended.isEmpty && due.isEmpty then .refused (.notEnabled "SELECTION") else .next s2
  | some (el, cs) =>
    .next (startAll (freePorts s2 core sub.val) cs (clearYields core sub.val (passCounts el cs s2)))

/-- SLEEP_END (R405). -/
def execSleepEnd (uid warp split : Nat) (s : State) : Host.Outcome State Fault Refusal :=
  match (s.splitOf ⟨uid, warp, split⟩).wait with
  | .sleep t =>
    if t ≤ s.now then .next (s.updWarpOf uid warp fun w => w.settle split)
    else .refused (.notEnabled "SLEEP_END")
  | _ => .refused (.notEnabled "SLEEP_END")

end Sys2Proof.Machine
end

