-- ==== Sys2Proof/Machine/Tasks.lean ====
section
/-!
DEFINITION. Tile tasks and planes at work: the accumulation of the array (R49-R55), dispatch (R305, R306, R309, R316), MMA,
ragged and MTOPK tasks (R307, R311, R333-R341, R344, R423), commits (R308), swaps and plane loads (R313-R316, R322) and
narrow mode (R317).
-/

namespace Sys2Proof.Machine

/-! ### Weights -/

/-- An element of a column of weights; none is a position that adds an exact zero (R48, R51). -/
abbrev WElem := Option FVal

/-- Puts stored values where a mask has a bit. -/
def spreadW : List Bool → List FVal → List WElem
  | [], _ => []
  | false :: t, vs => none :: spreadW t vs
  | true :: t, v :: vs => some v :: spreadW t vs
  | true :: t, [] => none :: spreadW t []

/-- The 192 positions of a slice, and whether it is malformed (R48). -/
def sliceW (e n : Nat) (bs : List Byte) : List WElem × Bool :=
  let masks := (List.range 4).map fun g => leNat ((bs.drop (2 + 6 * g)).take 6)
  let bits := masks.flatMap fun m => (List.range 48).map (nbit m)
  let zeros : List WElem := List.replicate 192 none
  if masks.any fun m => ((List.range 48).filter (nbit m)).length != n then (zeros, true)
  else match sliceVals e n bs with
    | none => (zeros, true)
    | some vs => (spreadW bits vs, false)

/-- The first `n` positions of a column of a plane, and whether what they lie in is malformed. -/
def colW (f : PlaneFmt) (plane : List Byte) (j n : Nat) : List WElem × Bool :=
  let col := (plane.drop (j * f.colBytes)).take f.colBytes
  if f.sparse = 0 then
    let r := readRowElems f.etype 0 n col
    (r.1.map some, r.2)
  else
    let r := sliceW f.etype f.sparse col
    (r.1.take n, r.2)

/-- Whether a plane has a malformed block or slice. -/
def planeBad (f : PlaneFmt) (plane : List Byte) : Bool := (List.range 128).any fun j => (colW f plane j f.rows).2

/-- Whether a row of stored units has a malformed one among the K positions `lo` to `hi` − 1. -/
def rowBad (e sparse : Nat) (bs : List Byte) (lo hi : Nat) : Bool :=
  if sparse = 0 ∧ !isBlockT e then false else
  let n := unitElems e sparse
  (List.range (cdiv hi n)).any fun i =>
    decide (lo < (i + 1) * n) && (readUnit e sparse ((bs.drop (i * unitBytes e sparse)).take (unitBytes e sparse))).2

/-! ### Cells (R50-R54) -/

/-- A list in parts of `d`, at most `n` of them. -/
def chunks {α : Type} (d : Nat) : Nat → List α → List (List α)
  | 0, _ => []
  | n + 1, l => l.take d :: chunks d n (l.drop d)

/-- The numbers of the value that is an integer. -/
def FVal.int : FVal → Int
  | .fin n m e => (if n then -1 else 1) * ((m * 2 ^ e.toNat / 2 ^ (-e).toNat : Nat) : Int)
  | _ => 0

/-- One position of R51: a product, or an exact zero. -/
def accPos (rm : Rm) (acc a : FVal) (w : WElem) : FVal × Flags :=
  match w with
  | some b => accStep rm acc a b
  | none => ((FVal.add rm acc (.fin false 0 0)).1, {})

/-- R51: the sum of a pass. -/
def passW (rm : Rm) (ps : List (FVal × WElem)) : FVal × Flags :=
  ps.foldl (fun acc p => let (r, f) := accPos rm acc.1 p.1 p.2; (r, acc.2.or f)) (.fin false 0 0, {})

/-- R52: a pass result is added to an accumulator of a format. DESIGN CHOICE (log 156): with `.sat` an infinite sum becomes the
largest finite value with overflow, as R36 has it for a conversion. -/
def addPass (f : Fmt) (rm : Rm) (sat : Bool) (acc : Nat) (p : FVal) : Nat × Flags :=
  let (s, f1) := FVal.add rm (f.val acc) p
  let (b, f2) := toFloat f rm sat false s
  (b, f1.or f2)

/-- R53: the exact sum of a pass of plain integers. -/
def passInt (ps : List (FVal × WElem)) : Int :=
  (ps.map fun p => match p.2 with
    | some b => p.1.int * b.int
    | none => 0).foldl (· + ·) 0

/-- R53: a pass is added to the 32-bit accumulator. -/
def addInt (sat : Bool) (acc : Nat) (p : Int) : Nat × Flags :=
  let x := (w32 acc).toInt + p
  if sat then
    let (y, c) := clampInt x (-(2 ^ 31)) (2 ^ 31 - 1)
    ((BitVec.ofInt 32 y).toNat, { sat := c })
  else ((BitVec.ofInt 32 x).toNat, {})

/-- R54: a pass of FP64 products, each added with one rounding; positions beyond its depth add exact zeros. -/
def pass64 (rm : Rm) (acc : Nat) (ps : List (FVal × WElem)) : Nat × Flags :=
  (ps ++ List.replicate (192 - ps.length) (FVal.fin false 0 0, (none : WElem))).foldl (fun (a : Nat × Flags) p =>
    let (x, f0) := match p.2 with
      | some b => FVal.mul p.1 b
      | none => (FVal.fin false 0 0, ({} : Flags))
    let (s, f1) := FVal.add rm (f64.val a.1) x
    let (b, f2) := f64.ofVal rm s
    (b, a.2.or (f0.or (f1.or f2)))) (acc, {})

/-- The format of a result of the float class (R302). -/
def TileF.resFmt (t : TileF) : Fmt := match t.acc with | 0 => f32 | 1 => bf16 | _ => f16

/-- One pass of a cell. -/
def cellPass (t : TileF) (acc : Nat) (ps : List (FVal × WElem)) : Nat × Flags :=
  match tclass t.aType with
  | some .int => addInt t.sat acc (passInt ps)
  | some .fp64 => pass64 t.rnd acc ps
  | _ =>
    let (p, f1) := passW t.rnd ps
    let (b, f2) := addPass t.resFmt t.rnd t.sat acc p
    (b, f1.or f2)

/-- A cell over all passes, from an accumulator (R52). -/
def cellMma (t : TileF) (init : Nat) (a : List FVal) (w : List WElem) : Nat × Flags :=
  (chunks t.depth t.passes (a.zip w)).foldl (fun acc ps =>
    let (b, f) := cellPass t acc.1 ps
    (b, acc.2.or f)) (init, {})

/-! ### A task's operands -/

/-- The columns of weights of a task by K, and whether what was read is malformed: a resident plane, or the self-loaded
planes (R307). -/
structure Weights where
  cols : List (List WElem)
  bad : Bool
deriving DecidableEq, Repr

def residentW (p : Plane) (k : Nat) : Weights :=
  let cs := (List.range 128).map fun j => colW (PlaneFmt.of p.fmt) p.bytes j k
  { cols := cs.map Prod.fst, bad := cs.any Prod.snd }

def selfW (t : TileF) (wbuf : Mem) : Weights :=
  let f := t.fmt
  let planes := (List.range t.passes).map fun p => wbuf.readN (t.wOff + p * f.bytes) f.bytes
  { cols := (List.range 128).map fun j => (planes.zipIdx.flatMap fun p => (colW f p.1 j (min t.depth (t.k - p.2 * t.depth))).1)
    bad := planes.any (planeBad f) }

/-- The weights of a task on the array of a core. -/
def weightsOf (s : State) (core : Nat) (x : TileRec) : Weights :=
  let t := TileF.of x.bytes
  if t.selfload then selfW t (s.block x.blk).wbuf.data else residentW (s.core core).body.array.active t.k

/-- Whether the weights of pass `p` of a task are malformed: those rows of the resident plane, or the plane loaded for it. -/
def passBadW (s : State) (core : Nat) (x : TileRec) (p : Nat) : Bool :=
  let t := TileF.of x.bytes
  if t.selfload then planeBad t.fmt ((s.block x.blk).wbuf.data.readN (t.wOff + p * t.fmt.bytes) t.fmt.bytes)
  else
    let a := (s.core core).body.array.active
    let f := PlaneFmt.of a.fmt
    (List.range 128).any fun j =>
      rowBad f.etype f.sparse ((a.bytes.drop (j * f.colBytes)).take f.colBytes) (p * t.depth) (min t.k ((p + 1) * t.depth))

/-- Whether row `i` of A of a task is malformed among the positions of pass `p`. -/
def passBadA (b : Block) (t : TileF) (p i : Nat) : Bool :=
  rowBad t.aType 0 (b.abuf.data.readN (t.aOff + i * t.aStride) (rowBytes t.aType t.k)) (p * t.depth) (min t.k ((p + 1) * t.depth))

/-- The rows of A of a record. -/
def rowsOfA (b : Block) (t : TileF) : List (List FVal × Bool) :=
  (List.range t.m).map fun i =>
    readRowElems t.aType 0 t.k (b.abuf.data.readN (t.aOff + i * t.aStride) (rowBytes t.aType t.k))

/-- All records of a task with their offsets and numbers. -/
def TileRec.all (x : TileRec) : List (Nat × DWord × List Byte) := (x.off, x.num, x.bytes) :: x.members

/-- The bytes of a row of stored units in which positions `lo` to `hi` − 1 lie: the first, and how many. -/
def unitSpan (e lo hi : Nat) : Nat × Nat :=
  if isBlockT e then
    let b := blkBytes (e == 0x11)
    (lo / 64 * b, (cdiv hi 64 - lo / 64) * b)
  else (lo * etypeBits e / 8, cdiv (hi * etypeBits e) 8 - lo * etypeBits e / 8)

/-- The reads that a pass makes of a row of A, as the race record sees them. -/
def readPassOf (x : TileRec) (p i : Nat) (s : State) : State :=
  let t := TileF.of x.bytes
  let (a, n) := unitSpan t.aType (p * t.depth) (min t.k ((p + 1) * t.depth))
  engReadBuf x.blk false (engAgent (s.block x.blk) 1 x.num) (t.aOff + i * t.aStride + a) n s

/-- The reads of a task's rows of A as the race record sees them. -/
def readsOfA (x : TileRec) (s : State) : State :=
  x.all.foldl (fun s p =>
    let t := TileF.of p.2.2
    let agent := engAgent (s.block x.blk) 1 p.2.1
    (List.range t.m).foldl (fun s i => engReadBuf x.blk false agent (t.aOff + i * t.aStride) (rowBytes t.aType t.k) s) s) s

/-! ### MMA and ragged MMA (R307, R423) -/

/-- The results of a task with their addresses in CBUF, and its events. -/
def mmaOut (b : Block) (t : TileF) (w : Weights) (rows : List (List FVal × Bool)) : List (Nat × Byte) × Flags :=
  let n := t.resBytes
  rows.zipIdx.foldl (fun acc r =>
    w.cols.zipIdx.foldl (fun acc c =>
      let o := t.dst + (r.2 * 128 + c.2) * n
      let init := if t.accum then leNat (b.cbuf.data.readN o n) else 0
      let (x, f) := cellMma t init r.1.1 c.1
      (acc.1 ++ at_ o (toLe n x), acc.2.or f)) acc) ([], {})

/-- A task that has ended: it leaves the array and waits for its commit (R306). -/
def leaveArray (core : Nat) (r : TileRun) (s : State) : State :=
  s.updBody core fun k => { k with array := { k.array with run := none, commits := k.array.commits ++ [r] } }

/-- A strict task that met a malformed block or slice commits nothing (R309); the passes it ran and its events are not
stated. -/
def abortedRun (r : TileRun) (mstat : Nat) (s : State) : TileRun × State :=
  let (n, s) := s.free
  let (f, s) := s.free
  ({ r with computed := true, code := 2, passes := n % ((TileF.of r.task.bytes).passes + 1), flags := f % 128, mstat, out := [], cand := [] }, s)

/-- An MMA or ragged MMA task runs on the array of a core. -/
def runMma (core : Nat) (r : TileRun) (s : State) : State :=
  let t := TileF.of r.task.bytes
  let b := s.block r.task.blk
  let w := weightsOf s core r.task
  let rows := r.task.all.flatMap fun p => rowsOfA b (TileF.of p.2.2)
  let bad := w.bad || rows.any Prod.snd
  let s := readsOfA r.task s
  if t.strict && (rows.any Prod.snd || (t.selfload && w.bad)) then
    let (r, s) := abortedRun r 0 s
    leaveArray core r s
  else
    let (out, f) := mmaOut b t w rows
    leaveArray core { r with computed := true, code := 0, flags := (f.or { fmterr := bad }).bits, passes := t.passes, out := out } s

/-- Whether a record's own waits hold (R302). -/
def recWaits (s : State) (u : Nat) (bytes : List Byte) : Bool :=
  let t := TileF.of bytes
  let e := (s.block u).eng
  (!t.wcEn || ctrDone e t.wctr) && (!t.wtlEn || decide (t.wval ≤ ((e.tl[t.wtl]?).getD default).done.toNat))

/-- The running task of a core's array, of a type. -/
def runningTask (s : State) (core type : Nat) : Option TileRun :=
  ((s.core core).body.array.run).filter fun r => (TileF.of r.task.bytes).type == type

/-- MMA: the task of the array ends. -/
def execMma (core : Nat) (s : State) : Host.Outcome State Fault Refusal :=
  match runningTask s core 0 with
  | some r => .next (runMma core r s)
  | none => .refused (.notEnabled "MMA")

/-- The running task of a core's array becomes this. -/
def setRun (core : Nat) (r : TileRun) (s : State) : State :=
  s.updBody core fun k => { k with array := { k.array with run := some r } }

/-- RAGGED_MMA: the next record of the group streams once its own waits hold; after the closing one the task runs to its end
(R311, R498). -/
def execRaggedMma (core : Nat) (s : State) : Host.Outcome State Fault Refusal :=
  let no : Host.Outcome State Fault Refusal := .refused (.notEnabled "RAGGED_MMA")
  match runningTask s core 2 with
  | some r =>
    match r.task.all[r.streamed]? with
    | some p => if recWaits s r.task.blk p.2.2 then .next (setRun core { r with streamed := r.streamed + 1 } s) else no
    | none => if r.task.all.any fun p => (TileF.of p.2.2).close then .next (runMma core r s) else no
  | none => no

/-! ### MTOPK: bounds (R334-R337) -/

/-- ⌈√n⌉. -/
def ceilSqrt (n : Nat) : Nat := let r := Nat.sqrt n; if r * r = n then r else r + 1

/-- What the norm sums of a row or a column are: for integers none where a norm is unbounded, for floats a word. -/
def normSum (f : Bool) (xs : List Word) : Option Nat :=
  if f then some (toF32 .ru (xs.foldl (fun t x => (FVal.add .ru t (fv x)).1) (.fin false 0 0))).1.toNat
  else if xs.contains 0xFFFFFFFF#32 then none
  else some ((xs.map BitVec.toNat).foldl (· + ·) 0)

/-- R335. -/
def intBound (c : Nat) (sum : Int) (na nb : Option Nat) (bias : Word) : Option Int :=
  match na, nb with
  | some a, some b => some (max (c * (sum + ceilSqrt (a * b)) + bias.toInt) (-(2 ^ 31)))
  | _, _ => none

/-- Whether an FP32 word is finite. -/
def finite32 (w : Word) : Bool := match fv w with | .fin .. => true | _ => false

/-- R336, each operation rounded toward +∞. -/
def floatBound (c : Nat) (sum na nb bias absBias : Word) (n q : Nat) : Option Word :=
  let mul (x y : Word) : Word := (fmul32 .ru (fv x) (fv y)).1
  let add (x y : Word) : Word := (fadd32 .ru (fv x) (fv y)).1
  let num (m : Nat) (e : Int) : Word := (toF32 .ru (.fin false m e)).1
  let root := (fsqrtW .ru (mul na nb)).1
  let d := add (mul (num (n + q + 1) (-22)) (add (mul (num c 0) (add (sum &&& 0x7FFFFFFF#32) root)) absBias)) (num (q + 1) (-149))
  let u := add (add (mul (num c 0) (add sum root)) bias) d
  if finite32 sum && finite32 root && finite32 u then some u else none

/-- A bound of either type, as the bits of its value. -/
def cellBound (f : Bool) (c : Nat) (sum : Int) (na nb : Option Nat) (bias absBias : Word) (n q : Nat) : Option Int :=
  if f then
    (floatBound c (BitVec.ofInt 32 sum) (w32 (na.getD 0)) (w32 (nb.getD 0)) bias absBias n q).map fun w => (w.toNat : Int)
  else intBound c sum na nb bias

/-- R337: strictly below a threshold, by value. -/
def belowTheta (f : Bool) (u : Int) (th : Option Word) : Bool :=
  match th with
  | none => false
  | some x =>
    if f then !(fv x).isNan && FVal.cmp (fv (BitVec.ofInt 32 u)) (fv x) == .lt
    else decide (u < x.toInt)

/-- A live cell: its column, and its partial sum, exact or the FP32 accumulator's bits. -/
structure Cell where
  j : Nat
  sum : Int
deriving DecidableEq, Repr

/-- A row at work: its number in the task, its threshold and its live cells below ncols. -/
structure TopRow where
  i : Nat
  theta : Option Word
  cells : List Cell
deriving DecidableEq, Repr

/-- What an MTOPK task reads from ABUF. -/
structure TopTab where
  f : Bool
  c : Nat
  bias : List Word
  an : List (List Word)
  bn : List (List Word)
deriving DecidableEq, Repr

/-- Words of ABUF. -/
def abufWords (b : Block) (o n : Nat) : List Word := (List.range n).map fun i => w32 (leNat (b.abuf.data.readN (o + 4 * i) 4))

/-- The tables as the task read them at its dispatch (R334). -/
def topTab (r : TileRun) : TopTab where
  f := hFloat r.task.handle
  c := if (TileF.of r.task.bytes).dist = 2 then 2 else 1
  bias := r.bias
  an := r.an
  bn := r.bn

def TopTab.biasOf (x : TopTab) (j : Nat) : Word := x.bias[j]?.getD 0

/-- The norm sums over the blocks from `b0` on. -/
def TopTab.na (x : TopTab) (i b0 : Nat) : Option Nat := normSum x.f ((x.an[i]?.getD []).drop b0)
def TopTab.nb (x : TopTab) (j b0 : Nat) : Option Nat := normSum x.f ((x.bn[j]?.getD []).drop b0)

/-- The bound of a cell after `p` passes. -/
def TopTab.bound (x : TopTab) (t : TileF) (p i : Nat) (c : Cell) : Option Int :=
  let b0 := p * t.depth / t.normBlk
  cellBound x.f x.c c.sum (x.na i b0) (x.nb c.j b0) (x.biasOf c.j) (x.biasOf c.j &&& 0x7FFFFFFF#32) (t.k - p * t.depth) (t.passes - p)

/-- R337: an evaluation of a row after `p` passes; whether a cell had no bound. -/
def evalRow (x : TopTab) (t : TileF) (p : Nat) (r : TopRow) : TopRow × Bool :=
  ({ r with cells := r.cells.filter fun c => !((x.bound t p r.i c).any fun u => belowTheta x.f u r.theta) },
   r.cells.any fun c => (x.bound t p r.i c).isNone)

/-- The largest of some words by value, or a NaN where one is. -/
def largestOf (f : Bool) : List Word → Word
  | [] => 0
  | a :: t => t.foldl (fun m x =>
    if f then
      if (fv m).isNan then m else if (fv x).isNan then x else if FVal.cmp (fv m) (fv x) == .lt then x else m
    else if m.toInt < x.toInt then x else m) a

/-- The largest norm sum: none where one is unbounded. -/
def largestNorm (f : Bool) (xs : List (Option Nat)) : Option Nat :=
  if xs.any Option.isNone then none
  else if f then some (largestOf true (xs.map fun x => w32 (x.getD 0))).toNat
  else some ((xs.map fun x => x.getD 0).foldl max 0)

/-- R339: the summary bound of a row. -/
def TopTab.summary (x : TopTab) (t : TileF) (i : Nat) : Option Int :=
  let js := List.range t.ncols
  let bs := js.map x.biasOf
  let bias := largestOf x.f bs
  if x.f && (fv bias).isNan then none else
  cellBound x.f x.c 0 (x.na i 0) (largestNorm x.f (js.map fun j => x.nb j 0)) bias
    (largestOf x.f (bs.map fun w => w &&& 0x7FFFFFFF#32)) t.k t.passes

/-- R339: whether the task skips its plane. -/
def planeSkip (x : TopTab) (t : TileF) (rows : List TopRow) : Bool :=
  t.bnd && rows.all fun r => (x.summary t r.i).any fun u => belowTheta x.f u r.theta

/-! ### MTOPK: the run -/

/-- One pass of a cell (R333). -/
def topCell (x : TopTab) (t : TileF) (p : Nat) (a : List FVal) (w : List WElem) (c : Cell) : Cell × Flags :=
  let ps := ((a.zip w).drop (p * t.depth)).take t.depth
  if x.f then
    let (v, f1) := passW t.rnd ps
    let (b, f2) := addPass f32 t.rnd false c.sum.toNat v
    ({ c with sum := b }, f1.or f2)
  else ({ c with sum := c.sum + passInt ps }, {})

/-- One pass of a row. -/
def topRowPass (x : TopTab) (t : TileF) (p : Nat) (rows : List (List FVal × Bool)) (w : Weights) (r : TopRow) : TopRow × Flags :=
  let a := (rows[r.i]?.getD ([], false)).1
  let l := r.cells.map fun c => topCell x t p a (w.cols[c.j]?.getD []) c
  ({ r with cells := l.map Prod.fst }, l.foldl (fun f y => f.or y.2) {})

/-- The rows, the events, whether a cell had no bound, the passes run, what they streamed, as passes and rows, and whether it was
malformed, so far; `aborted` once a strict task has met a malformed block or slice (R309). -/
structure TopState where
  rows : List TopRow
  flags : Flags
  unbounded : Bool
  passes : Nat
  read : List (Nat × Nat)
  aborted : Bool
deriving DecidableEq, Repr

/-- The evaluation before a pass. -/
def topEval (x : TopTab) (t : TileF) (p : Nat) (st : TopState) : TopState :=
  if !t.bnd then st else
  let l := st.rows.map (evalRow x t p)
  { st with rows := l.map Prod.fst, unbounded := st.unbounded || l.any Prod.snd }

/-- What a pass streams. -/
structure TopIn where
  rows : List (List FVal × Bool)
  w : Weights
  /-- Whether pass `p` meets malformed weights, or malformed data of row `i` of A. -/
  badW : Nat → Bool
  badA : Nat → Nat → Bool

/-- One pass with the evaluation before it. A row without live cells streams nothing, and a pass without such a row is not
run (R339). -/
def topPass (x : TopTab) (t : TileF) (inp : TopIn) (p : Nat) (st : TopState) : TopState :=
  if st.aborted then st else
  let st := topEval x t p st
  let live := st.rows.filter fun y => !y.cells.isEmpty
  if live.isEmpty then st else
  let st : TopState := { st with read := st.read ++ live.map fun y => (p, y.i) }
  let badA := live.any fun y => inp.badA p y.i
  if t.strict && (badA || (t.selfload && inp.badW p)) then { st with aborted := true } else
  let l := st.rows.map (topRowPass x t p inp.rows inp.w)
  { st with
    rows := l.map Prod.fst
    flags := (l.foldl (fun f y => f.or y.2) st.flags).or { fmterr := badA || inp.badW p }
    passes := st.passes + 1 }

/-- R333: the score of a cell. -/
def topScore (x : TopTab) (t : TileF) (c : Cell) : Word × Flags :=
  let bias := x.biasOf c.j
  if x.f then
    let (v, f1) := FVal.fma t.rnd (.fin false x.c 0) (fv (BitVec.ofInt 32 c.sum)) (fv bias)
    let (b, f2) := toF32 t.rnd v
    (b, f1.or f2)
  else
    let (y, s) := clampInt (x.c * c.sum + bias.toInt) (-(2 ^ 31)) (2 ^ 31 - 1)
    (BitVec.ofInt 32 y, { sat := s })

/-- The candidates of a row with their events. -/
def topCands (x : TopTab) (t : TileF) (r : TopRow) : List WEnt × Flags :=
  let l := r.cells.map fun c => (c.j, topScore x t c)
  (l.map fun y => (y.2.1, w32 ((t.ibase + y.1) % 2 ^ 32)), l.foldl (fun f y => f.or y.2.2) {})

/-- An MTOPK task runs. -/
def runTopk (core : Nat) (r : TileRun) (s : State) : State :=
  let t := TileF.of r.task.bytes
  let b := s.block r.task.blk
  let x := topTab r
  let start : List TopRow := (List.range t.m).map fun i =>
    { i, theta := (r.theta[i]?).join, cells := (List.range t.ncols).map fun j => { j, sum := 0 } }
  if planeSkip x t start then
    leaveArray core { r with computed := true, code := 0, flags := 0, passes := 0, mstat := 128, cand := [] } s
  else
    let inp : TopIn :=
      { rows := rowsOfA b t, w := weightsOf s core r.task, badW := passBadW s core r.task, badA := passBadA b t }
    let st := (List.range t.passes).foldl (fun st p => topPass x t inp p st) ⟨start, {}, false, 0, [], false⟩
    let s := st.read.foldl (fun s x => readPassOf r.task x.1 x.2 s) s
    if st.aborted then
      let (r, s) := abortedRun r (32 * st.unbounded.toNat) s
      leaveArray core r s
    else
      let cs := st.rows.map fun y => (y.i, topCands x t y)
      let flags := cs.foldl (fun f y => f.or y.2.2) st.flags
      leaveArray core { r with
        computed := true, code := 0, flags := flags.bits, passes := st.passes, mstat := 32 * st.unbounded.toNat
        cand := (cs.filter fun y => !y.2.1.isEmpty).map fun y => (y.1, y.2.1) } s

/-- MTOPK: the task of the array ends. -/
def execMtopk (core : Nat) (s : State) : Host.Outcome State Fault Refusal :=
  match runningTask s core 1 with
  | some r => .next (runTopk core r s)
  | none => .refused (.notEnabled "MTOPK")

/-! ### Commits (R308, R340, R341, R344) -/

/-- Merges a row's candidates; the bit `under` of the row afterwards. -/
def commitRow (u : Nat) (h : DWord) (agent : Word) (i : Nat) (es : List WEnt) (s : State) : Bool × State :=
  let row := readRow (s.block u).cbuf.data h i
  let ents := mergeEnts h row es
  let bytes := rowBytesOf h row.hdr ents
  (row.seeded && decide (ents.length < hKw h), engWriteBuf u true agent (rowOff h i) bytes s)

/-- The results of a task. -/
def commitResults (r : TileRun) (s : State) : Nat × State :=
  let t := TileF.of r.task.bytes
  let u := r.task.blk
  let agent := engAgent (s.block u) 1 r.task.num
  if r.code ≠ 0 then (r.mstat, s)
  else if t.type = 1 then
    let (under, s) := r.cand.foldl (fun a y =>
      let (b, s) := commitRow u r.task.handle agent (t.row0 + y.1) y.2 a.2
      (a.1 || b, s)) (false, s)
    (r.mstat + 64 * under.toNat, s)
  else
    let n := groupRows r.task * 128 * t.resBytes
    (0, if r.out.isEmpty then s else recordBuf (writeBuf u true r.out s) u true agent true none t.dst n)

/-- A task commits: its results, then for each record its status, its signal and its number. -/
def commitTask (r : TileRun) (s : State) : State :=
  let (mstat, s) := commitResults r s
  r.task.all.foldl (fun s p => retireRecord r.task.blk p r.code r.flags r.passes mstat s) s

/-- TASK_COMMIT. -/
def execTaskCommit (core : Nat) (s : State) : Host.Outcome State Fault Refusal :=
  match (s.core core).body.array.commits with
  | [] => .refused (.notEnabled "TASK_COMMIT")
  | r :: t => .next (commitTask r (s.updBody core fun k => { k with array := { k.array with commits := t } }))

/-! ### Dispatch (R305, R306, R309, R316) -/

/-- Whether a tag is that of a launch and generation. -/
def Plane.has (p : Plane) (launch gen : Nat) : Bool := p.tag.any fun t => t.1 == launch && t.2.toNat == gen

/-- Whether a core's head attention record could start, which goes before the core's own tile records (R370). -/
def attnReady (s : State) (core : Nat) : Bool :=
  let k := (s.core core).body
  k.attnRun.isNone && k.attn.head?.any fun x => !x.stale && (
    let v := leNat x.bytes
    let e := (s.block x.blk).eng
    (!nbit v 231 || ctrDone e (nbits v 227 4)) && (!nbit v 226 || decide (nbits v 448 64 ≤ ((e.tl[nbits v 223 3]?).getD default).done.toNat)))

/-- The arrays that suit a head of a core, the preferred one first (R306): for a task that runs again after a save or a rollback
the one on which it ran, so that its planes are left as they were (R424, log 166). -/
def suitable (s : State) (core : Nat) (x : TileRec) : List Nat :=
  let t := TileF.of x.bytes
  let l := (s.block x.blk).launch
  let cl := clusterCores core
  let first := (x.ran.filter cl.contains).getD core
  (([first, core] ++ cl).eraseDups).filter fun c =>
    let k := (s.core c).body
    k.arrayFree && !k.array.swapPending && !(c == core && attnReady s core) &&
      (if t.selfload then k.array.loading.isNone else k.array.active.has l t.gen)

/-- R309: whether no plane of the hardware cluster is of the generation and an active one of the launch is newer. -/
def staleHead (s : State) (core : Nat) (x : TileRec) : Bool :=
  let t := TileF.of x.bytes
  let l := (s.block x.blk).launch
  let arrays := (clusterCores core).map fun c => (s.core c).body.array
  !t.selfload && !(arrays.any fun a => a.active.has l t.gen || a.shadow.has l t.gen) &&
    arrays.any fun a => a.active.tag.any fun g => g.1 == l && (
      let d := (g.2.toNat + 65536 - t.gen) % 65536
      decide (1 ≤ d) && decide (d ≤ 32767))

/-- What becomes of a head at a dispatch point: it retires with a code, or goes to an array. -/
inductive HeadVerdict where
  | retire (code : Nat)
  | dispatch (array : Nat)
deriving DecidableEq, Repr

/-- The consideration of a head (R309, R316): none where it waits. -/
def considerHead (s : State) (core : Nat) (x : TileRec) : Option HeadVerdict :=
  let t := TileF.of x.bytes
  if !recWaits s x.blk x.bytes then none
  else if staleHead s core x then some (.retire 1)
  else match suitable s core x with
    | [] => none
    | c :: _ =>
      if t.selfload then some (.dispatch c) else
      let f := PlaneFmt.of (s.core c).body.array.active.fmt
      if f.rows < t.k then some (.retire 1)
      else if tclass f.etype != tclass t.aType then some (.retire 4)
      else some (.dispatch c)

/-- The heads of a hardware cluster in the order in which they are looked at: the core, and whether the queue is the high
one. -/
def dispatchOrder (rr : Nat) : List (Nat × Bool) :=
  ([true, false] : List Bool).flatMap fun q => (List.range 4).map fun i => ((rr + 1 + i) % 4, q)

/-- The first head of which something becomes. -/
def firstHeadOf (s : State) (base : Nat) : List (Nat × Bool) → Option (Nat × Bool × TileRec × HeadVerdict)
  | [] => none
  | (i, q) :: t =>
    let k := (s.core (base + i)).body
    match (if q then k.high else k.normal) with
    | [] => firstHeadOf s base t
    | x :: _ =>
      match considerHead s (base + i) x with
      | some v => some (i, q, x, v)
      | none => firstHeadOf s base t

/-- A record leaves its queue. -/
def popHead (core : Nat) (q : Bool) (s : State) : State :=
  s.updBody core fun k => if q then { k with high := k.high.drop 1 } else { k with normal := k.normal.drop 1 }

/-- The reads of an MTOPK task at its dispatch: list rows, biases, norm tables. -/
def topReads (x : TileRec) (s : State) : State :=
  let t := TileF.of x.bytes
  let u := x.blk
  let agent := engAgent (s.block u) 1 x.num
  let s := engReadBuf u true agent (rowOff x.handle t.row0) (rowLen x.handle * t.m) s
  let s := if t.bias = 0xFFFFFFFF then s else engReadBuf u false agent t.bias 512 s
  if !t.bnd then s else engReadBuf u false agent t.bnorm (512 * t.nb) (engReadBuf u false agent t.anorm (4 * t.m * t.nb) s)

/-- A task as it goes to an array: an MTOPK task has read its thresholds (R338), biases and norm tables (R334). -/
def startRun (b : Block) (x : TileRec) : TileRun :=
  let t := TileF.of x.bytes
  let run : TileRun :=
    { task := x, theta := [], bias := [], an := [], bn := [], streamed := 1, ended := 0, computed := false, code := 0, flags := 0
      passes := 0, mstat := 0, out := [], cand := [] }
  if t.type ≠ 1 then run else
  { run with
    theta := (List.range t.m).map fun i => rowTheta x.handle (readRow b.cbuf.data x.handle (t.row0 + i))
    bias := if t.bias = 0xFFFFFFFF then List.replicate 128 0 else abufWords b t.bias 128
    an := if t.bnd then (List.range t.m).map fun i => abufWords b (t.anorm + 4 * i * t.nb) t.nb else []
    bn := if t.bnd then (List.range 128).map fun j => abufWords b (t.bnorm + 4 * j * t.nb) t.nb else [] }

/-- A record goes to an array; a self-loading one takes both planes (R307). -/
def dispatchTo (array : Nat) (x : TileRec) (s : State) : State :=
  let t := TileF.of x.bytes
  let b := s.block x.blk
  let run := startRun b x
  let s := if t.type = 1 then topReads x s else s
  let s := if b.place.coreNo = array then s else
    s.updCore array fun k => { k with crossRuns := k.crossRuns ++ [(s.epoch, b.place.coreNo)] }
  s.updBody array fun k => { k with array := { k.array with
    run := some run
    narrow := (s.die (array / 48)).mon.alarm
    active := if t.selfload then Plane.reset else k.array.active
    shadow := if t.selfload then Plane.reset else k.array.shadow } }

/-- The scheduler's part of a hardware cluster. -/
def State.cluster (s : State) (d c : Nat) : Cluster := ((s.die d).clusters[c]?).getD default

/-- The queues that have lost their heads in the present cycle: what has come to stand there is considered in the next (R316). -/
def poppedNow (s : State) (d c : Nat) : List (Nat × Bool) :=
  let x := s.cluster d c
  if x.at_ = s.now then x.popped else []

/-- The queue heads of a hardware cluster, with whether their waits hold. -/
def headsSeen (s : State) (d c : Nat) : List (Nat × Bool × Nat × DWord × Bool) :=
  (List.range 4).flatMap fun i =>
    let k := (s.core (48 * d + 4 * c + i)).body
    let of_ (q : Bool) (l : List TileRec) : List (Nat × Bool × Nat × DWord × Bool) :=
      if (poppedNow s d c).contains (i, q) then []
      else l.head?.toList.map fun x => (i, q, x.blk, x.num, recWaits s x.blk x.bytes)
    of_ true k.high ++ of_ false k.normal

/-- What the scheduler of a hardware cluster sees now. -/
def seenNow (s : State) (d c : Nat) : DispatchSeen :=
  let which (f : CoreBody → Bool) : List Nat := (List.range 4).filter fun i => f (s.core (48 * d + 4 * c + i)).body
  { busy := which fun k => !k.arrayFree
    heads := headsSeen s d c
    loads := which fun k => k.array.loading.isSome }

/-- Whether the scheduler has something new to see. -/
def dispatchNews (s : State) (d c : Nat) : Bool :=
  !(s.cluster d c).swapped.isEmpty || (s.cluster d c).seen != seenNow s d c

/-- R305: whether what is new makes a dispatch point. -/
def isDispatchPoint (old new : DispatchSeen) (swapped : List Nat) : Bool :=
  let free (i : Nat) : Bool := !new.busy.contains i
  (List.range 4).any free &&
    (old.busy.any free ||
      new.heads.any (fun h => !old.heads.any fun g => g.1 == h.1 && g.2.1 == h.2.1 && g.2.2.1 == h.2.2.1 && g.2.2.2.1 == h.2.2.2.1) ||
      new.heads.any (fun h => h.2.2.2.2 && !old.heads.contains h) ||
      swapped.any free || old.loads.any fun i => free i && !new.loads.contains i)

/-- DISPATCH_POINT: the scheduler of a hardware cluster takes note of what is new. At a dispatch point it looks at the heads for
the first of which something becomes (R305, R309); the point goes on until there is none (R316). -/
def execDispatchPoint (die : Fin 4) (cluster : Fin 12) (s : State) : Host.Outcome State Fault Refusal :=
  let d := die.val
  let c := cluster.val
  if !dispatchNews s d c then .refused (.notEnabled "DISPATCH_POINT") else
  let base := 48 * d + 4 * c
  let x := s.cluster d c
  let now_ := seenNow s d c
  let gone := poppedNow s d c
  let note (f : Cluster → Cluster) (s : State) : State := s.updDie d fun y => { y with clusters := vmod y.clusters c f }
  let noted := note (fun y => { y with seen := now_, swapped := [] }) s
  if !isDispatchPoint x.seen now_ x.swapped then .next noted else
  match firstHeadOf s base ((dispatchOrder x.rr).filter fun y => !gone.contains y) with
  | none => .next noted
  | some (i, q, r, v) =>
    let s := note (fun y => { y with at_ := s.now, popped := (i, q) :: gone }) (popHead (base + i) q s)
    .next (match v with
      | .retire code => r.all.foldl (fun s p => retireRecord r.blk p code 0 0 0 s) s
      | .dispatch a => note (fun y => { y with rr := i }) (dispatchTo a r s))

/-! ### Planes (R315, R322) -/

/-- SWAP_TAKES_EFFECT: the load is complete and the tile tasks dispatched before have left the array. -/
def execSwapTakesEffect (core : Nat) (s : State) : Host.Outcome State Fault Refusal :=
  let a := (s.core core).body.array
  if a.swapPending && a.loading.isNone && a.run.isNone then
    .next ((s.updBody core fun k => { k with array := { k.array with
      active := k.array.shadow, shadow := k.array.active, swapPending := false } }).updDie (core / 48) fun d =>
      { d with clusters := vmod d.clusters (clusterOf core) fun y => { y with swapped := core % 4 :: y.swapped } })
  else .refused (.notEnabled "SWAP_TAKES_EFFECT")

/-- The bytes of a plane that was read while WBUF may have changed: each granule as it stood at the start or at the end. -/
def mixed (n : Nat) (a b : List Byte) : List Byte :=
  (a.zip b).zipIdx.map fun p => if Config.freeAt n (p.2 / 64) then p.1.1 else p.1.2

/-- A split that waits for a plane goes on, and its `LSTAT` completes or faults. -/
def wakeLoad (x : Nat × Nat × Nat) (bad : Bool) (s : State) : State :=
  s.updWarpOf x.1 x.2.1 fun w => { w with splits := AMap.modify w.splits x.2.2 fun sp =>
    if sp.wait = .planeLoad then { sp with wait := .none, plane := some bad } else sp }

/-- PLANE_LOAD_END: the shadow holds what WBUF held, or, of a block that is gone, what it held as the load began; a malformed
strict one is left invalid, with any swap that waits for it. -/
def execPlaneLoadEnd (core : Nat) (s : State) : Host.Outcome State Fault Refusal :=
  let a := (s.core core).body.array
  match a.loading with
  | none => .refused (.notEnabled "PLANE_LOAD_END")
  | some (u, launch, gen, fw, woff) =>
    let f := PlaneFmt.of fw
    let (n, s) := s.free
    let now_ := match AMap.get? s.blocks u with
      | some b => b.wbuf.data.readN woff f.bytes
      | none => a.shadow.bytes
    let bytes := mixed n a.shadow.bytes now_
    let bad := f.strict && planeBad f bytes
    let s := s.updBody core fun k => { k with array := { k.array with
      shadow := if bad then Plane.reset else { tag := some (launch, gen), fmt := fw, bytes := bytes }
      swapPending := k.array.swapPending && !bad
      loading := none
      strictSplit := none } }
    .next (match a.strictSplit with
      | some x => wakeLoad x bad s
      | none => s)

/-- A pass, or a key block, ends on a core's array that is not its task's last (R317): the array after it. -/
def passEnds (k : CoreBody) : Option CoreBody :=
  match k.array.run, k.attnRun with
  | some r, _ =>
    if r.ended + 1 < (TileF.of r.task.bytes).passes then
      some { k with array := { k.array with run := some { r with ended := r.ended + 1 } } }
    else none
  | none, some r =>
    let n := (k.attn.head?.map fun x => cdiv (nbits (leNat x.bytes) 248 24 - nbits (leNat x.bytes) 272 24) 128).getD 0
    if r.holds && decide (r.ended + 1 < n) then some { k with attnRun := some { r with ended := r.ended + 1 } } else none
  | none, none => none

/-- NARROW_MODE: an array at work takes on the mode of the die's alarm at the end of a pass or key block (R317). -/
def execNarrowMode (core : Nat) (s : State) : Host.Outcome State Fault Refusal :=
  let no : Host.Outcome State Fault Refusal := .refused (.notEnabled "NARROW_MODE")
  let alarm := (s.die (core / 48)).mon.alarm
  if (s.core core).body.array.narrow = alarm then no else
  match passEnds (s.core core).body with
  | none => no
  | some k => .next (s.updBody core fun _ => { k with array := { k.array with narrow := alarm } })

end Sys2Proof.Machine
end

