-- ==== Sys2Proof/Machine/AttnTask.lean ====
section
/-!
DEFINITION. The attention task (R362, R363, R366, R370-R374): its start on the core's array, its reads, the online softmax,
and its commit.
-/

namespace Sys2Proof.Machine

/-! ### Elements -/

/-- The format of a slab's elements (R357). -/
def Slab.fmt (k : Slab) : Fmt := match k.etype with | 0 => bf16 | 1 => f16 | 2 => e4m3 | _ => e5m2

/-- Elements of a key or a value. -/
def Slab.elems (k : Slab) (bs : List Byte) : List FVal :=
  (List.range k.dim).map fun i => k.fmt.val (leNat ((bs.drop (i * k.esize)).take k.esize))

/-- One rounding of a·b ± c·d (R362). -/
def rotPart (a b c d : FVal) (minus : Bool) : Word × Flags := dot2 a b (if minus then c.neg else c) d

/-- The positions of the pair of a frequency (R362). -/
def ropePair (rope dim j : Nat) : Nat × Nat := if rope = 1 then (2 * j, 2 * j + 1) else (j, j + dim / 2)

/-- A key rotated at its position (R362). -/
def rotateKey (rope dim p : Nat) (freqs : List Word) (key : List FVal) : List FVal × Flags :=
  if rope = 0 then (key, {}) else
  freqs.zipIdx.foldl (fun acc w =>
    let (i, j) := ropePair rope dim w.2
    let x := key[i]?.getD .nan
    let y := key[j]?.getD .nan
    let (cw, f1) := rotary false p w.1
    let (sw, f2) := rotary true p w.1
    let (x', f3) := rotPart x (fv cw) y (fv sw) true
    let (y', f4) := rotPart x (fv sw) y (fv cw) false
    ((acc.1.set i (fv x')).set j (fv y'), acc.2.or ((f1.or f2).or (f3.or f4)))) (key, {})

/-! ### One key block (R371) -/

/-- A token of a block: its rotated key, its value, and whether the causal mask hides it. -/
structure Tok where
  key : List FVal
  val : List FVal
  hidden : Bool
deriving DecidableEq, Repr

/-- The score of a token for a query. -/
def tokScore (scale : Word) (q : List FVal) (t : Tok) : Word × Flags :=
  let (a, f1) := passSum .rn (q.zip t.key)
  let (w, f2) := toF32 .rn a
  let (z, f3) := fmul32 .rn (fv w) (fv scale)
  (if t.hidden then negInf else z, f1.or (f2.or f3))

/-- round(a·x + s, FP32, .rn) for a sum in the internal format. -/
def scaleAdd (a : FVal) (x : Word) (s : FVal) : Word × Flags :=
  let (t, f1) := FVal.fma .rn a (fv x) s
  let (w, f2) := toF32 .rn t
  (w, f1.or f2)

/-- A block changes the state of one query row. -/
def softBlock (scale : Word) (q : List FVal) (toks : List Tok) (r : SoftRow) : SoftRow × Flags :=
  let zs := toks.map (tokScore scale q)
  let bm := (zs.map Prod.fst).tail.foldl (fun m z => fpick32 true (fv m) (fv z)) ((zs.map Prod.fst).headD negInf)
  let m := fpick32 true (fv r.mx) (fv bm)
  let f0 := allFlags zs
  if m = negInf then (r, f0) else
  let a := expDiff r.mx m
  let ps := zs.map fun z => expDiff z.1 m
  let pv := ps.map fun p => fv p.1
  let one := fv 0x3F800000#32
  let (s, f1) := passSum .rn (pv.map fun p => (p, one))
  let sum := scaleAdd (fv a.1) r.sum s
  let outs := r.out.zipIdx.map fun o =>
    let (v, f) := passSum .rn (pv.zip (toks.map fun t => t.val[o.2]?.getD .nan))
    let (w, g) := scaleAdd (fv a.1) o.1 v
    (w, f.or g)
  ({ mx := m, sum := sum.1, out := outs.map Prod.fst },
   ((f0.or (allFlags ps)).or (a.2.or f1)).or (sum.2.or (allFlags outs)))

/-- All rows of a task over its blocks of 128 tokens. -/
def softTask (scale : Word) (qs : List (List FVal)) (toks : List Tok) (rows : List SoftRow) : List SoftRow × Flags :=
  (chunks 128 (cdiv toks.length 128) toks).foldl (fun acc blk =>
    let l := (qs.zip acc.1).map fun p => softBlock scale p.1 blk p.2
    (l.map Prod.fst, l.foldl (fun f y => f.or y.2) acc.2)) (rows, {})

/-! ### Reads (R230, R366, R374) -/

/-- R366: the address of a granule at an offset of a slab. -/
def granuleAddr (k : Slab) (p : Option FwPair) (o : Nat) : Nat :=
  match p with
  | none => k.base + o
  | some f =>
    match f.st with
    | 0 => k.base + o
    | 1 => if o < f.moved.toNat ∨ f.total.toNat ≤ o then f.new.toNat + o else k.base + o
    | _ => f.new.toNat + o

/-- Why a task stops. -/
inductive AttnStop where
  | fault (va cause : Nat)
  | defer (page : Nat)
  | poison (va : Nat)
  | wait

/-- What a task carries as it reads: the pages it has raised a tier miss for, and the state. -/
structure Aw where
  pages : List Nat
  s : State

/-- Reads one granule. -/
def attnGranule (core u : Nat) (agent : Word) (defer : Bool) (va : Nat) (w : Aw) : Except (AttnStop × Aw) (List Byte × Aw) :=
  let d := (w.s.launch (w.s.block u).launch).desc
  match translate w.s (.attn core) d.asid d.world .read (w64 va) with
  | .error cause => .error (.fault va cause, w)
  | .ok (pa, l, s) =>
    let w := { w with s := s }
    let page := va / 2 ^ l.lg * 2 ^ l.lg
    let miss := l.tier == 1 && !w.pages.contains page
    let w := if miss then { pages := w.pages ++ [page], s := noteMiss u 2 va w.s } else w
    if l.tier == 1 && defer then .error (.defer (va / 65536 * 65536), w)
    else if quarantined w.s core pa || linkWaits w.s pa then .error (.wait, w)
    else if anyPoison w.s pa 64 then .error (.poison va, w)
    else .ok (engView w.s core u pa 64,
      { w with s := engEscape u (recordAt w.s agent w.s.instant w.s.instant false none pa 64) })

/-- Reads granules in order. -/
def attnGranules (core u : Nat) (agent : Word) (defer : Bool) : List Nat → Aw → Except (AttnStop × Aw) (List Byte × Aw)
  | [], w => .ok ([], w)
  | va :: t, w => do
    let (bs, w) ← attnGranule core u agent defer va w
    let (l, w) ← attnGranules core u agent defer t w
    pure (bs ++ l, w)

/-- The granules of the tokens of a task, in ascending order. -/
def attnAddrs (k : Slab) (p : Option FwPair) (t0 t1 : Nat) : List Nat :=
  (List.range ((t1 - t0) * k.eb / 64)).map fun i => granuleAddr k p (t0 * k.eb + 64 * i)

/-! ### The task -/

/-- The forwarding pair a record is linked to, as it stands. -/
def linkedPair (s : State) (x : AttnRec) : Option FwPair :=
  x.slab.link.map fun f => ((s.block x.blk).eng.fw[f.val]?).getD default

/-- FP32 words of ABUF as values. -/
def abufVals (b : Block) (o n : Nat) : List FVal := (abufWords b o n).map fv

/-- The tokens of a task from the bytes read. -/
def toksOf (k : Slab) (a : AttnF) (freqs : List Word) (bs : List Byte) : List (Tok × Flags) :=
  (List.range (a.t1 - a.t0)).map fun i =>
    let p := k.pos (a.t0 + i)
    let tok := (bs.drop (i * k.eb)).take k.eb
    let (key, f) := rotateKey a.rope k.dim p.toNat freqs (k.elems tok)
    (⟨key, k.elems (tok.drop (k.dim * k.esize)), a.causal && decide ((a.qpos : Int) < p)⟩, f)

/-- The rows of the state a task starts from, and its reads of the typed buffers as the race record sees them. -/
def startRows (b : Block) (k : Slab) (a : AttnF) : List SoftRow :=
  (List.range a.m).map fun i =>
    if a.init then SoftRow.empty k.dim else readSoft b.cbuf.data (a.sOff + i * stateRow k.dim) k.dim

def attnBufReads (u : Nat) (agent : Word) (k : Slab) (a : AttnF) (s : State) : State :=
  let s := engReadBuf u false agent a.qOff (4 * k.dim * a.m) s
  let s := if a.rope = 0 then s else engReadBuf u false agent a.ropeOff (2 * k.dim) s
  if a.init then s else engReadBuf u true agent a.sOff (a.m * stateRow k.dim) s

/-- A task that has read nothing. -/
def AttnRun.fresh : AttnRun :=
  { holds := false, got := [], ended := 0, computed := false, code := 0, flags := 0, kread := 0, tmpage := 0, out := []
    waitSlot := none }

/-- The results of a task from the bytes it read. -/
def attnResult (b : Block) (x : AttnRec) (r : AttnRun) : AttnRun :=
  let a := AttnF.of x.bytes
  let k := x.slab
  let freqs := if a.rope = 0 then [] else abufWords b a.ropeOff (k.dim / 2)
  let toks := toksOf k a freqs r.got
  let qs := (List.range a.m).map fun i => abufVals b (a.qOff + 4 * k.dim * i) k.dim
  let (rows, f) := softTask a.scale qs (toks.map Prod.fst) (startRows b k a)
  let f := toks.foldl (fun g y => g.or y.2) f
  { r with
    computed := true, code := 0, flags := f.bits + missFlag x, kread := a.t1 - a.t0, tmpage := 0
    out := at_ a.sOff (rows.flatMap SoftRow.bytes), waitSlot := none }

/-- A task that ends with a code. -/
def attnCode (code tmpage : Nat) (x : AttnRec) : AttnRun :=
  { AttnRun.fresh with computed := true, code, flags := missFlag x, tmpage }

def setAttn (core : Nat) (r : AttnRun) (s : State) : State := s.updBody core fun k => { k with attnRun := some r }

/-- The head record keeps the pages for which its task has raised an event (R230). -/
def setPages (core : Nat) (x : AttnRec) (s : State) : State :=
  s.updBody core fun k => { k with attn := match k.attn with
    | [] => []
    | _ :: t => x :: t }

/-- Key blocks of a task (R371). -/
def AttnF.nBlocks (a : AttnF) : Nat := cdiv (a.t1 - a.t0) 128

/-- Key blocks whose bytes a task has read. -/
def blocksRead (x : AttnRec) (r : AttnRun) : Nat := cdiv (r.got.length / max 1 x.slab.eb) 128

/-- The head task reads its next key block, or stops (R374). None while it must wait. -/
def readKeys (core : Nat) (x : AttnRec) (r : AttnRun) (s : State) : Option State :=
  let a := AttnF.of x.bytes
  let agent := engAgent (s.block x.blk) 2 x.num
  let t0 := a.t0 + 128 * blocksRead x r
  let addrs := attnAddrs x.slab (linkedPair s x) t0 (min a.t1 (t0 + 128))
  match attnGranules core x.blk agent a.defer addrs ⟨x.pages, s⟩ with
  | .ok (bs, w) =>
    some (setAttn core { r with got := r.got ++ bs }
      (setPages core { x with pages := w.pages } { w.s with freeCtr := w.s.freeCtr + 1 }))
  | .error (.wait, _) => none
  | .error (stop, w) =>
    let x := { x with pages := w.pages }
    let s := setPages core x w.s
    match stop with
    | .defer page => some (setAttn core { attnCode 2 page x with holds := r.holds } s)
    | .poison va => some (terminate x.blk 0x06 Kind.uncorrectable agent (w64 va) s)
    | .fault va cause =>
      let d := (s.launch (s.block x.blk).launch).desc
      let words := faultWords d.asid cause 2 false d.world agent va Kind.translation
      let (slot, s) := postFault (core / 48) words (.attn core) s
      let s := setAttn core { AttnRun.fresh with waitSlot := some (slot.getD 64) } s
      some (if cause = causeWorld then bbWrite (core / 48) (worldEnt s d.asid agent (w64 va)) s else s)
    | .wait => none

/-- The head task forms its state, once it has read all of its tokens. -/
def formState (core : Nat) (x : AttnRec) (r : AttnRun) (s : State) : State :=
  let agent := engAgent (s.block x.blk) 2 x.num
  setAttn core (attnResult (s.block x.blk) x r) (attnBufReads x.blk agent x.slab (AttnF.of x.bytes) s)

/-- Whether a record's own waits hold (R368). -/
def attnWaits (s : State) (x : AttnRec) : Bool :=
  let a := AttnF.of x.bytes
  let e := (s.block x.blk).eng
  (!a.wcEn || ctrDone e a.wctr) && (!a.wtlEn || decide (a.wval ≤ ((e.tl[a.wtl]?).getD default).done.toNat))

/-- Whether the array takes a task that has begun to read: it is free and has no pending swap (R370). -/
def attnTakes (k : CoreBody) (r : AttnRun) : Bool := !r.holds && k.array.run.isNone && !k.array.swapPending

/-- Whether a task may read its next key block: the staging buffer holds two while the array is another's (R370). -/
def attnReads (x : AttnRec) (r : AttnRun) : Bool :=
  decide (blocksRead x r < (AttnF.of x.bytes).nBlocks) && (r.holds || decide (blocksRead x r < 2))

/-- ATTENTION_TASK: the head begins once its waits hold, takes the core's array, reads its key blocks, and forms its state
(R370, R371). -/
def execAttentionTask (core : Nat) (s : State) : Host.Outcome State Fault Refusal :=
  let no : Host.Outcome State Fault Refusal := .refused (.notEnabled "ATTENTION_TASK")
  let k := (s.core core).body
  match k.attn with
  | [] => no
  | x :: _ =>
    match k.attnRun with
    | none => if !x.stale && attnWaits s x then .next (setAttn core AttnRun.fresh s) else no
    | some r =>
      if r.computed || r.waitSlot.isSome then no
      else if attnTakes k r then
        .next (setAttn core { r with holds := true } (s.updBody core fun k =>
          { k with array := { k.array with narrow := (s.die (core / 48)).mon.alarm } }))
      else if attnReads x r then
        match readKeys core x r s with
        | some t => .next t
        | none => no
      else if r.holds then .next (formState core x r s)
      else no

/-! ### Commit (R372, R373) -/

/-- A record retires: its state, its status, its signal and its number. -/
def commitAttn (core : Nat) (x : AttnRec) (r : AttnRun) (s : State) : State :=
  let a := AttnF.of x.bytes
  let u := x.blk
  let agent := engAgent (s.block u) 2 x.num
  let s := s.updBody core fun k => { k with attn := k.attn.drop 1, attnRun := none }
  let s := if r.code = 0 then engWriteBuf u true agent a.sOff (r.out.map Prod.snd) s else s
  let s := engWriteBuf u false agent (x.off + 8) (toLe 8 r.tmpage) s
  let s := engWriteBuf u false agent (x.off + 19) (toLe 3 r.kread ++ [BitVec.ofNat 8 r.flags, BitVec.ofNat 8 r.code]) s
  s.updEng u fun e => completeOn 2 x.num (if a.sigEn then countDown a.sigCtr a.sigAmt (2, x.num) e else e)

/-- ATTENTION_COMMIT: the head task has ended, or its record holds a stale token and its waits hold (R363, R378). -/
def execAttentionCommit (core : Nat) (s : State) : Host.Outcome State Fault Refusal :=
  let no : Host.Outcome State Fault Refusal := .refused (.notEnabled "ATTENTION_COMMIT")
  let k := (s.core core).body
  match k.attn with
  | [] => no
  | x :: _ =>
    match k.attnRun with
    | some r => if r.computed then .next (commitAttn core x r s) else no
    | none => if x.stale && attnWaits s x then .next (commitAttn core x (attnCode 1 0 x) s) else no

end Sys2Proof.Machine
end

