-- ==== Sys2Proof/Machine/Graph.lean ====
section
/-!
DEFINITION. Resident task graphs (R69-R76): the checks at a graph's start, the steps of its nodes and its failure; and the
predicates of the control core (R77-R79, R449).
-/

namespace Sys2Proof.Machine

/-! ### The checks of R71 -/

/-- A node from its 32 bytes. -/
def Node.of (bs : List Byte) : Node :=
  let x := leNat bs
  { type := nbits x 0 4, succ := [nbits x 80 16, nbits x 96 16, nbits x 112 16], aux := nbits x 64 16, limit := nbits x 32 32
    npred := nbits x 24 8, tl := nbits x 12 4, arg0 := w64 (nbits x 128 64), arg1 := w64 (nbits x 192 64), st := .idle
    heard := [], iters := 0, redraw := none }

/-- The reserved fields of a node. -/
def nodeReserved (bs : List Byte) : Bool := let x := leNat bs; nbits x 4 8 == 0 && nbits x 16 8 == 0

/-- What R70 asks of a node's own fields. -/
def Node.fieldsOk (n : Node) : Bool :=
  match n.type with
  | 2 => n.succ[2]? == some 0xFFFF && n.arg0.toNat % 4 == 0
  | 3 => n.arg0.toNat % 4 == 0
  | 4 => decide (n.aux ≤ 63) && decide (1 ≤ n.limit) && decide (n.limit ≤ 16) && n.arg0.toNat % 256 == 0
  | t => decide (t ≤ 6)

/-- Nodes left after taking away, again and again, those that no node left names; nothing is left without a cycle. -/
def Graph.peel (g : Graph) : Nat → List Nat → List Nat
  | 0, l => l
  | n + 1, l => g.peel n (l.filter fun i => l.any fun j => (g.node? j).any fun x => x.succ.contains i)

/-- The checks of R71 on a graph. -/
def Graph.ok (g : Graph) : Bool :=
  let n := g.nodes.length
  let whiles := g.nodes.filter fun p => p.2.type == 3
  g.nodes.all (fun p => p.2.fieldsOk && p.2.succ.all (fun j => j == 0xFFFF || decide (j < n)) &&
      p.2.npred == (g.nodes.map fun q => q.2.succ.count p.1).foldl (· + ·) 0) &&
    whiles.all (fun w => decide (w.1 < w.2.aux) && decide (w.2.aux < n)) &&
    whiles.all (fun w => whiles.all fun v => decide (v.1 ≤ w.1) || decide (w.2.aux < v.1) || decide (v.2.aux ≤ w.2.aux)) &&
    g.nodes.all (fun p => p.2.succ.all fun j => j == 0xFFFF || g.parent p.1 == g.parent j) &&
    (g.peel n (g.nodes.map Prod.fst)).isEmpty

/-! ### Accesses of the walker (R73) -/

/-- The walker reads under its context. -/
def walkRead (ctx va n : Nat) (s : State) : Except NoPage (List Byte × State) :=
  let c := s.ctx ctx
  readSpan s (ctx / 16) c.asid.toNat c.world va n

/-- The walker writes under its context, with release at system scope: performed at once, unless it waits. -/
def walkWrite (ctx va : Nat) (bs : List Byte) (s : State) : Except NoPage State :=
  let c := s.ctx ctx
  match spanOk s (ctx / 16) c.asid.toNat c.world .write va bs.length with
  | .error p => .error p
  | .ok s =>
    let bytes := bs.zipIdx.filterMap fun b => match translate s (.die (ctx / 16)) c.asid.toNat c.world .write (w64 (va + b.2)) with
      | .ok (pa, _, _) => some (pa, b.1)
      | .error _ => none
    if bytes.any fun b => spanHeld s b.1 1 then .error .held else
    match performBytes s bytes with
    | some t => .ok t
    | none => .error (.full (lackAt s bytes))

/-- Several writes in turn. -/
def walkWrites (ctx : Nat) : List (Nat × List Byte) → State → Except NoPage State
  | [], s => .ok s
  | (va, bs) :: t, s => (walkWrite ctx va bs s).bind (walkWrites ctx t)

/-- A node whose access does not translate fails its graph; one whose access waits goes on later. -/
def nodeNoPage (d gr i ctx : Nat) (p : NoPage) (s : State) : Option State :=
  if p.waits then p.waiting s else some (endNode d gr i (some Status.translation) [] (noteNoPage ctx p s))

/-! ### Callback descriptors (R77, R79) -/

/-- Whether a predicate is registered under a handle: its signature is by a key of the image (R77, R488). -/
def predKnown (s : State) (pred : Nat) : Bool :=
  match Config.predSigner pred with
  | none => false
  | some k => s.image.predKeys.contains k

/-- The fields of a descriptor. -/
structure CallF where
  mask : Nat
  token : Nat
  cond : Nat
  redraw : Nat
  budget : Nat
  pred : Nat
  reserved : Nat
deriving DecidableEq, Repr

def CallF.of (bs : List Byte) : CallF :=
  let x := leNat bs
  { mask := nbits x 192 64, token := nbits x 128 64, cond := nbits x 64 64, redraw := nbits x 48 16, budget := nbits x 32 16
    pred := nbits x 16 16, reserved := nbits x 0 16 }

/-- Whether the redraw range lies in the innermost body that holds the node. -/
def redrawOk (g : Graph) (i : Nat) (f : CallF) : Bool :=
  match g.parent i with
  | none => false
  | some w => decide (w < f.redraw) && decide (f.redraw ≤ i)

/-- R79. -/
def CallF.ok (f : CallF) : Bool :=
  f.reserved == 0 && f.budget != 0 && f.mask % 4 == 0 && f.token % 4 == 0 && f.cond % 4 == 0

/-! ### GRAPH entries -/

/-- An access that may fail to translate, but is waited for. -/
def awaited (s : State) (r : Except NoPage State) : Except NoPage State :=
  match r with
  | .error p => if p.waits then .error p else .ok s
  | .ok t => .ok t

/-- Clears the count words of a graph's callbacks, as far as their descriptors can be read (R78). -/
def clearCounts (g : Graph) (s : State) : Except NoPage State :=
  g.nodes.foldl (fun r p => do
    let s ← r
    if p.2.type ≠ 6 then pure s else
    awaited s (do
      let (bs, s) ← walkRead g.ctx p.2.arg0.toNat 32 s
      walkWrite g.ctx (CallF.of bs).mask (toLe 4 0) s)) (.ok s)

/-- Whether a callback names a redraw range outside its body (R77), as far as its descriptor can be read. -/
def badRedraw (g : Graph) (s : State) : Bool :=
  g.nodes.any fun p => p.2.type == 6 && match walkRead g.ctx p.2.arg0.toNat 32 s with
    | .error _ => false
    | .ok (bs, _) => !redrawOk g p.1 (CallF.of bs)

/-- The start of a GRAPH entry: loaded, checked, and its first nodes made ready. -/
def startGraph (c q : Nat) (n : Word) (e : Entry) (s : State) : Except Refuse State := do
  let (bs, s) ← paged (walkRead c e.addr.toNat (32 * e.nodes) s)
  let raw := (List.range e.nodes).map fun i => (bs.drop (32 * i)).take 32
  let g : Graph :=
    { ctx := c, queue := q, entry := n, tl := e.tl, value := e.value, nodes := raw.zipIdx.map fun p => (p.2, Node.of p.1)
      failed := none }
  if !raw.all nodeReserved || !g.ok || badRedraw g s then refuse Status.graphFormat else
  let d := c / 16
  let gr := ((List.range 16).find? fun i => (s.graph? d i).isNone).getD 0
  let s ← paged (clearCounts g s)
  pure (s.updDie d fun x => queueCalls s.now gr { x with graphs := AMap.set x.graphs gr (g.startLevel none) })

/-- GRAPH. -/
def execEntryGraph (die : Fin 4) (s : State) : Host.Outcome State Fault Refusal :=
  startEntry die.val 2 "ENTRY_GRAPH" startGraph s

/-! ### Nodes -/

/-- A step of a node that is ready: `f` has the graph and the node. -/
def readyNode (d gr i type : Nat) (name : String) (s : State) (f : Graph → Node → Option State) :
    Host.Outcome State Fault Refusal :=
  match s.graph? d gr with
  | none => .refused (.notEnabled name)
  | some g =>
    match g.node? i with
    | none => .refused (.notEnabled name)
    | some n =>
      if n.type ≠ type ∨ g.failed.isSome then .refused (.notEnabled name) else
      match f g n with
      | some t => .next t
      | none => .refused (.notEnabled name)

/-- A node starts to run. -/
def nodeRuns (d gr i : Nat) (s : State) : State := s.updGraph d gr fun g => g.setNode i fun n => { n with st := .running }

/-- KERNEL: the launch is checked, and accepted or refused. DESIGN CHOICE (log 153): R70 and R71 give no status for an arg0 that
is not 128-byte aligned, and the descriptor is read where it points. -/
def execKernelNode (die : Fin 4) (gr node : Nat) (s : State) : Host.Outcome State Fault Refusal :=
  readyNode die.val gr node 0 "KERNEL_NODE" s fun g n =>
    if n.st ≠ .ready ∨ 64 ≤ launchesOn s die.val then none else
    match checkLaunch s g.ctx n.arg0 with
    | .error r =>
      match r.wait with
      | some p => p.waiting s
      | none => some (endNode die.val gr node (some r.status) [] (noteRefuse g.ctx r s))
    | .ok p =>
      (acceptLaunch g.ctx (.node die.val gr node) { p with st := nodeRuns die.val gr node p.st }).or
        (overflowAt (p.arms.ptes.headD 0) s)

/-- The cores of a die whose copy engine may start a request. -/
def freeEngines (s : State) (d : Nat) : List Nat := ((List.range 48).map fun c => 48 * d + c).filter (engineFree s)

/-- COPY: the request is read, checked and given to a copy engine of the die (R75). -/
def execCopyNode (die : Fin 4) (gr node : Nat) (s : State) : Host.Outcome State Fault Refusal :=
  readyNode die.val gr node 1 "COPY_NODE" s fun g n =>
    let (k, s) := s.free
    let cores := freeEngines s die.val
    if n.st ≠ .ready then none else
    match cores[k % max 1 cores.length]? with
    | none => none
    | some core =>
      match walkRead g.ctx n.arg0.toNat 32 s with
      | .error p => nodeNoPage die.val gr node g.ctx p s
      | .ok (bs, s) =>
        let f := CopyF.of bs
        let o := newOp s.uidCtr default { owner := .node gr node, off := n.arg0.toNat, num := 0, n := 1, grow := none } bs
        if !(f.op == 0 || f.op == 4 || f.op == 8) || f.ssp != 0 || f.dsp != 0 || (copyPlan default [] f).isNone then
          some (endNode die.val gr node (some Status.descriptorFormat) [] s)
        else
          some (nodeRuns die.val gr node ({ s with uidCtr := s.uidCtr + 1 }.updBody core fun x =>
            { x with copies := x.copies ++ [o] }))

/-- COND: a zero word takes succ0. -/
def execCondNode (die : Fin 4) (gr node : Nat) (s : State) : Host.Outcome State Fault Refusal :=
  readyNode die.val gr node 2 "COND_NODE" s fun g n =>
    if n.st ≠ .ready then none else
    match walkRead g.ctx n.arg0.toNat 4 s with
    | .error p => nodeNoPage die.val gr node g.ctx p s
    | .ok (bs, s) => some (endNode die.val gr node none [if leNat bs = 0 then 1 else 0] s)

/-- Whether every node of a WHILE's body has finished. -/
def Graph.bodyOver (g : Graph) (w : Nat) (n : Node) : Bool :=
  g.nodes.all fun p => !inBody w p.1 n || g.settled p.1 p.2

/-- WHILE: when it becomes ready, and each time its body has finished. -/
def execWhileNode (die : Fin 4) (gr node : Nat) (s : State) : Host.Outcome State Fault Refusal :=
  readyNode die.val gr node 3 "WHILE_NODE" s fun g n =>
    if !(n.st == .ready || (n.st == .running && g.bodyOver node n)) then none else
    match walkRead g.ctx n.arg0.toNat 4 s with
    | .error p => nodeNoPage die.val gr node g.ctx p s
    | .ok (bs, s) =>
      if leNat bs = 0 then some (endNode die.val gr node none [] s)
      else if n.limit ≠ 0 ∧ n.limit < n.iters + 1 then some (endNode die.val gr node (some Status.loopLimit) [] s)
      else some (s.updGraph die.val gr (Graph.iterate node n.aux))

/-- Whether another WAITMSG of the die waits on a mailbox (R76). -/
def mailWaited (s : State) (d gr i box : Nat) : Bool :=
  (s.die d).graphs.any fun g => g.2.nodes.any fun n =>
    n.2.type == 4 && n.2.st == .running && n.2.aux == box && !(g.1 == gr && n.1 == i)

/-- WAITMSG: it waits, and takes its messages once all of them are there. -/
def execWaitmsgNode (die : Fin 4) (gr node : Nat) (s : State) : Host.Outcome State Fault Refusal :=
  readyNode die.val gr node 4 "WAITMSG_NODE" s fun g n =>
    if n.st = .ready then
      if mailWaited s die.val gr node n.aux then none else some (nodeRuns die.val gr node s)
    else if n.st = .running then
      let box := AMap.getD (s.die die.val).mail n.aux []
      if box.length < n.limit then none else
      let msgs := box.take n.limit
      match walkWrites g.ctx (msgs.zipIdx.map fun m => (n.arg0.toNat + 256 * m.2, m.1.data)) s with
      | .error p => nodeNoPage die.val gr node g.ctx p s
      | .ok s =>
        some (endNode die.val gr node none [] (s.updDie die.val fun x =>
          { x with mail := AMap.set x.mail n.aux (box.drop n.limit) }))
    else none

/-- A timeline after an addition. -/
def addTimeline (c n : Nat) (v : DWord) (s : State) : State :=
  raiseTimeline c n ((((s.ctx c).tls[n]?).map fun t => t.value).getD 0 + v) s

/-- SIGNAL. -/
def execSignalNode (die : Fin 4) (gr node : Nat) (s : State) : Host.Outcome State Fault Refusal :=
  readyNode die.val gr node 5 "SIGNAL_NODE" s fun g n =>
    if n.st ≠ .ready then none
    else some (endNode die.val gr node none []
      (if nbit n.aux 0 then addTimeline g.ctx n.tl n.arg0 s else raiseTimeline g.ctx n.tl n.arg0 s))

/-! ### Verdicts (R78, R79) -/

/-- A predicate that could not answer, or answered with no code: it counts as STOP, and an entry records it; `cause` is that of
`Config.stopCause`. -/
def noteStop (d asid : Nat) (agent : Word) (v : Verdict) (cause : Nat) (s : State) : State :=
  bbWrite d (bbEnt 0x0B (Config.stopCause cause % 256) asid agent (match v with | .word w => w.setWidth 64 | .fault => 0) 0) s

/-- Whether a verdict word has a code of R78. -/
def plainVerdict : Verdict → Bool
  | .word w => decide (nbits w.toNat 0 4 ≤ 3)
  | .fault => false

/-- The cause that an entry records for a verdict that the predicate itself gave. -/
def causeOf (v : Verdict) : Nat := match v with | .word _ => 3 | .fault => 0

/-- What the walker does about a verdict. While one of its accesses waits nothing comes of it but, in the state `held` before the
verdict, the note of an empty overflow pool. -/
def applyVerdict (d gr i : Nat) (desc : List Byte) (v : Verdict) (cause : Nat) (held s : State) : Option State :=
  match s.graph? d gr with
  | none => some s
  | some g =>
    if g.failed.isSome then some (endNode d gr i none [] s) else
    let f := CallF.of desc
    let s := if plainVerdict v then s else noteStop d (s.ctx g.ctx).asid.toNat 0 v cause s
    let code := match v with | .word w => if plainVerdict v then nbits w.toNat 0 4 else 1 | .fault => 1
    let tok := match v with | .word w => nbits w.toNat 8 24 | .fault => 0
    let stop : List (Nat × List Byte) := [(f.token, toLe 4 0xFFFFFFFF), (f.cond, toLe 4 0)]
    let no (p : NoPage) : Option State :=
      if p.waits then p.waiting held else nodeNoPage d gr i g.ctx p s
    let finish (r : Except NoPage State) (k : State → State) : Option State :=
      match r with
      | .error p => no p
      | .ok t => some (k t)
    let done : State → State := endNode d gr i none []
    match code with
    | 0 => finish (walkWrite g.ctx f.mask (toLe 4 0) s) done
    | 1 => finish (walkWrites g.ctx (stop ++ [(f.mask, toLe 4 0)]) s) done
    | 2 => finish (walkWrites g.ctx [(f.token, toLe 4 tok), (f.mask, toLe 4 0)] s) done
    | _ =>
      match walkRead g.ctx f.mask 4 s, walkRead g.ctx f.token 4 s with
      | .ok (cb, _), .ok (tb, _) =>
        let n := min 4 (leNat cb)
        if n = 4 then finish (walkWrites g.ctx stop s) done
        else finish (walkWrites g.ctx [(f.mask + 4 + 4 * n, tb), (f.mask, toLe 4 (n + 1))] s) fun t =>
          t.updGraph d gr fun g => g.setNode i fun n => { n with redraw := some (f.redraw, false) }
      | .error p, _ => no p
      | _, .error p => no p

/-- The descriptor of a CALLBACK node that waits in the control core's queue has been read; where no run comes of it, it leaves
the queue. -/
def setCall (d gr node : Nat) (c : List Call) (s : State) : State :=
  s.updDie d fun x => x.setCalls s.now (x.calls.flatMap fun y => if y = .ready gr node then c else [y])

/-- CALLBACK: the descriptor is read, and the predicate can run when its turn comes. -/
def execCallbackNode (die : Fin 4) (gr node : Nat) (s : State) : Host.Outcome State Fault Refusal :=
  readyNode die.val gr node 6 "CALLBACK_NODE" s fun g n =>
    if n.st ≠ .ready then none else
    match walkRead g.ctx n.arg0.toNat 32 s with
    | .error p => nodeNoPage die.val gr node g.ctx p s
    | .ok (bs, s) =>
      let f := CallF.of bs
      if n.arg0.toNat % 32 ≠ 0 ∨ !f.ok ∨ !redrawOk g node f then
        some (endNode die.val gr node (some Status.graphFormat) [] s)
      else if !predKnown s f.pred then applyVerdict die.val gr node bs .fault 2 s (setCall die.val gr node [] (nodeRuns die.val gr node s))
      else some (setCall die.val gr node [.node gr node bs] (nodeRuns die.val gr node s))

/-- Whether the run at the head of a die's queue has had its time (R79). -/
def budgetOver (s : State) (d : Nat) : Bool :=
  match (s.die d).calls with
  | .node _ _ desc :: _ => decide ((s.die d).callAt + 1024 * (CallF.of desc).budget ≤ s.now)
  | .post _ _ _ _ _ budget :: _ => decide ((s.die d).callAt + 1024 * budget ≤ s.now)
  | _ => false

/-- The end of the predicate run at the head of a die's queue, for a CALLBACK node. -/
def endCallback (d : Nat) (v : Verdict) (cause : Nat) (name : String) (s : State) : Host.Outcome State Fault Refusal :=
  match (s.die d).calls with
  | .node gr i desc :: _ =>
    match applyVerdict d gr i desc v cause s (popCall d s) with
    | some t => .next t
    | none => .refused (.notEnabled name)
  | _ => .refused (.notEnabled name)

/-- The same for a post (R449): the verdict word goes to the block's buffer and is not acted on; that of a saved block waits for
its resume where messages do. -/
def endPost (d : Nat) (v : Verdict) (cause : Nat) (name : String) (s : State) : Host.Outcome State Fault Refusal :=
  match (s.die d).calls with
  | .post u off ctr num pred _ :: _ =>
    let b := s.block u
    let agent := engAgent b 4 num
    let known := predKnown s pred
    let good := plainVerdict v && known
    let s := popCall d s
    let s := if good then s else noteStop d (s.launch b.launch).desc.asid agent v (if known then cause else 2) s
    let w : Word := match v with | .word w => if good then w else 1 | .fault => 1
    let msg : Msg := { id := 0, blk := u, num, srcDie := 6, world := false, addr := 0, doff := off, ctr, data := toLe 4 w.toNat, agent }
    .next (if b.state = .saved then s.updDie d fun x => { x with ingress := x.ingress ++ [msg] } else deliverTo u msg s)
  | _ => .refused (.notEnabled name)

/-- CALLBACK_VERDICT: the predicate at the head answers in its time. -/
def execCallbackVerdict (die : Fin 4) (v : Verdict) (s : State) : Host.Outcome State Fault Refusal :=
  if budgetOver s die.val then .refused (.notEnabled "CALLBACK_VERDICT")
  else endCallback die.val v (causeOf v) "CALLBACK_VERDICT" s

/-- POST_VERDICT. -/
def execPostVerdict (die : Fin 4) (v : Verdict) (s : State) : Host.Outcome State Fault Refusal :=
  if budgetOver s die.val then .refused (.notEnabled "POST_VERDICT") else endPost die.val v (causeOf v) "POST_VERDICT" s

/-- PREDICATE_BUDGET_OVERRUN: the head run has had its time (R79). -/
def execPredicateBudgetOverrun (die : Fin 4) (s : State) : Host.Outcome State Fault Refusal :=
  if !budgetOver s die.val then .refused (.notEnabled "PREDICATE_BUDGET_OVERRUN") else
  match (s.die die.val).calls with
  | .node _ _ _ :: _ => endCallback die.val .fault 1 "PREDICATE_BUDGET_OVERRUN" s
  | _ => endPost die.val .fault 1 "PREDICATE_BUDGET_OVERRUN" s

/-! ### The end of a failed graph (R74) -/

/-- GRAPH_FAILURE: no node of a failed graph runs any longer. -/
def execGraphFailure (die : Fin 4) (gr : Nat) (s : State) : Host.Outcome State Fault Refusal :=
  match s.graph? die.val gr with
  | none => .refused (.notEnabled "GRAPH_FAILURE")
  | some g =>
    match g.failed with
    | none => .refused (.notEnabled "GRAPH_FAILURE")
    | some (node, status) =>
      if g.nodes.any fun p => p.2.st == .running then .refused (.notEnabled "GRAPH_FAILURE") else
      let s := s.updDie die.val fun x => { x with graphs := AMap.erase x.graphs gr }
      .next (haltLate g.ctx g.queue g.entry node status (bbFailed die.val status (s.ctx g.ctx).asid.toNat s))

end Sys2Proof.Machine
end

