-- ==== Sys2Proof/Machine/Image.lean ====
section
/-!
DEFINITION. The image of a save area (R461) and its size (R104). The rule names the contents of each part in order and gives
the part's size, but no layout inside a record: what byte of a record holds what is a free function of its contents
(log 89). Slot records and buffers are bytes as they are.
-/

namespace Sys2Proof.Machine

/-! ### Contents of records, in the order of R461 -/

/-- Numbers for absent things. -/
def optNum : Option Nat → Nat
  | none => 0
  | some n => n + 1

def maskNums (l : List Mask) : List Nat := l.map BitVec.toNat
def wordNums (l : List Word) : List Nat := l.map BitVec.toNat
def bytesNum (l : List Byte) : List Nat := [l.length, leNat l]

def BarFlags.nums (f : BarFlags) : List Nat :=
  maskNums [f.arrived, f.pending, f.counted, f.sent, f.excused] ++ [f.after] ++ wordNums f.target.toList

def Stream.nums (z : Stream) : List Nat :=
  [z.desc.base.toNat, z.desc.space, z.desc.esize, z.desc.rank] ++ z.desc.counts.toList ++ wordNums z.desc.strides.toList ++
    [z.desc.laneStride.toNat] ++ z.idx.toList ++ z.sel.toList.map BitVec.toNat ++ [z.exhausted.toNat, z.delivered]

def TrapReq.nums (q : TrapReq) : List Nat :=
  [q.kind, q.cause, q.lanes.toNat, q.va.toNat, q.write.toNat, q.code, q.pc.hdr, q.pc.idx] ++
    (match q.race with
      | none => [0]
      | some r => [1, r.1.toNat, r.2.1.toNat, r.2.2.1, r.2.2.2])

def TrapState.nums (t : TrapState) : List Nat :=
  [t.info.toNat, t.code.toNat, t.mask.toNat, t.pc.toNat, t.va.toNat, t.path.toNat] ++
    ((t.pending.map TrapReq.nums).getD []) ++ [t.raceVa.toNat, t.raceP.toNat, t.raceT.toNat, t.raceK.toNat]

/-- The block record, after its magic number and version: the sizes of the parts, and the block. -/
def Block.recordNums (b : Block) (sizes : List Nat) : List Nat :=
  sizes ++ [b.place.index] ++ wordNums b.w.toList ++ wordNums b.wPend.toList ++ b.wOwner.toList.map optNum ++
    wordNums b.eng.c.toList ++ wordNums b.bphase.toList ++
    (b.warps.flatMap fun w => wordNums w.2.ord.wrpPhase.toList ++ w.2.ord.bars.flatMap fun x => x.1 :: x.2.nums) ++
    [optNum (b.eng.peer.map fun p => p.2), optNum b.eng.endpoint, b.eng.fabFault.toNat, b.eng.fabCode, b.eng.tmiss.toNat,
      b.eng.tmva.toNat]

/-- A warp record at a time. -/
def Warp.recordNums (w : Warp) (now : Nat) : List Nat :=
  wordNums w.reg.s.toList ++ w.reg.k.toList.map BitVec.toNat ++
    (w.reg.ren.toList.flatMap fun r => r.toList.map fun x => optNum (x.map Fin.val)) ++
    (w.reg.z.toList.flatMap fun z => match z with
      | none => [0]
      | some z => 1 :: z.nums) ++
    [w.reg.nstat.toNat, w.noPre.toNat, if w.noPre then now - w.watchAt else 0] ++ w.trap.nums ++ [w.reg.elect.val]

/-- A suspended copy request, with its granule. -/
def CopyOp.nums (o : CopyOp) : List Nat :=
  [o.kick.off, o.kick.num.toNat] ++ bytesNum o.words ++ [o.counted, o.total, o.pos, o.out, optNum o.finished, o.flags]

/-- The context of timeline `t`; the suspended requests stand in tl0's, the forwarding pairs in all. -/
def Block.ctxNums (b : Block) (work : BlkWork) (t : Fin 5) : List Nat :=
  [b.eng.tl[t].enq.toNat, b.eng.tl[t].done.toNat] ++
    (if t.val = 0 then work.copies.flatMap CopyOp.nums else []) ++
    b.eng.fw.toList.flatMap fun p => [p.old.toNat, p.new.toNat, p.total.toNat, p.moved.toNat, p.st]

def Kick.nums (k : Kick) : List Nat := [k.off, k.num.toNat, k.n]
def TileRec.nums (r : TileRec) : List Nat :=
  [r.off, r.num.toNat] ++ bytesNum r.bytes ++ [r.handle.toNat] ++ r.members.flatMap fun m => [m.1, m.2.1.toNat] ++ bytesNum m.2.2
def Slab.nums (x : Slab) : List Nat :=
  [x.valid.toNat, x.len, x.wrec, x.etype, x.hd.toNat, x.lg, x.base] ++
    (x.splices.toList.flatMap fun e => [e.valid.toNat, e.first, e.delta.toNat, (-e.delta).toNat, e.stale]) ++
    [optNum (x.link.map Fin.val), x.growing.toNat]
def AttnRec.nums (r : AttnRec) : List Nat := [r.off, r.num.toNat] ++ bytesNum r.bytes ++ r.slab.nums

/-- What the extension holds of a warp: its lanes, and each live name's count and mask. -/
def Warp.laneNums (w : Warp) : List Nat :=
  (w.lane.pcs.toList.flatMap fun p => [p.hdr, p.idx]) ++
    (w.splits.flatMap fun x => [x.2.lanes.toNat, x.2.left.toNat, x.2.hdr, x.2.idx]) ++
    maskNums [w.lane.live, w.lane.inMeld, w.lane.path, w.lane.table, w.lane.inSerial, w.lane.serWait, w.lane.inHandler] ++
    maskNums w.reg.p.toList ++
    (w.reg.x.toList.flatMap fun x => x.toList.flatMap fun r => [r.base.toNat, r.limit.toNat, r.cursor.toNat]) ++
    (w.reg.lat.toList.flatMap fun l => wordNums l.vals.toList ++ l.life.toList) ++
    w.reg.v.flatMap fun x => [x.1, x.2.count, x.2.mask.toNat]

/-- A message in flight. -/
def Msg.nums (m : Msg) : List Nat := [m.num.toNat, m.addr.toNat, m.doff, m.ctr] ++ bytesNum m.data

/-- The messages of a block that are in flight, the oldest first: answered, at a die, in transit, and on their way out. -/
def msgsOf (s : State) (u : Nat) : List Msg :=
  let out (l : List OutItem) : List Msg := l.filterMap fun o => match o.kind with
    | .message m => some m
    | _ => none
  ((s.acks.map Prod.fst) ++ (s.dies.flatMap fun d => d.2.ingress) ++ s.msgs ++ out s.inflight ++
    s.cores.flatMap fun c => out c.2.lager).filter fun m => m.blk == u && decide (m.srcDie < 4)

/-- The extension: the lanes of every warp, the slab registers, the block's queued and aborted work and its messages in
flight. -/
def Block.extNums (b : Block) (work : BlkWork) (msgs : List Msg) : List Nat :=
  (b.warps.flatMap fun w => w.2.laneNums) ++ (b.eng.kv.toList.flatMap Slab.nums) ++ (work.kicks.flatMap Kick.nums) ++
    (work.high.flatMap TileRec.nums) ++ (work.normal.flatMap TileRec.nums) ++ (work.attn.flatMap AttnRec.nums) ++
    [b.eng.inFlight] ++ msgs.flatMap Msg.nums

/-! ### Sizes -/

/-- Physical slots that a block's warps hold (R104). -/
def liveSlots (b : Block) : Nat := (b.warps.map fun w => w.2.reg.v.length).foldl (· + ·) 0

/-- R104. -/
def saveSize (b : Block) : Nat :=
  128 * liveSlots b + 1024 * b.warps.length + 512 + b.abuf.size + b.cbuf.size + b.wbuf.size + 512 * 5

/-- The size of the extension: 8 bytes for each of its numbers (log 89). -/
def extSize (b : Block) (work : BlkWork) (msgs : List Msg) : Nat := 8 * (b.extNums work msgs).length

/-! ### The image -/

/-- `n` bytes of a record with some contents. -/
def recordBytes (nums : List Nat) (n : Nat) : List Byte := (List.range n).map (Config.recordByte nums)

/-- The 32 lane values of each live name. -/
def Warp.slotBytes (w : Warp) : List Byte := w.reg.v.flatMap fun x => x.2.vals.toList.flatMap fun v => toLe 4 v.toNat

/-- Whether an item of output is part of the image of a saved block. -/
def imageItem (b : Block) (u : Nat) (o : OutItem) : Bool :=
  o.blk == u && o.warp == 16 && match o.kind, b.area with
    | .store pa _, some a => decide (a.1 ≤ pa) && decide (pa < a.1 + a.2)
    | _, _ => false

/-- The image of a save area (R461). -/
def saveImage (b : Block) (work : BlkWork) (msgs : List Msg) (now : Nat) : List Byte :=
  let sizes := [512, 1024 * b.warps.length, 128 * liveSlots b, b.abuf.size, b.cbuf.size, b.wbuf.size, 512 * 5, extSize b work msgs]
  let bytes (x : Buffer) : List Byte := x.data.readN 0 x.size
  List.flatten [toLe 4 0x53564B4D, toLe 4 1, recordBytes (b.recordNums sizes) 504,
    b.warps.flatMap fun w => recordBytes (w.2.recordNums now) 1024,
    b.warps.flatMap fun w => w.2.slotBytes,
    bytes b.abuf, bytes b.cbuf, bytes b.wbuf,
    (List.finRange 5).flatMap fun t => recordBytes (b.ctxNums work t) 512,
    recordBytes (b.extNums work msgs) (extSize b work msgs)]

end Sys2Proof.Machine
end

