-- ==== Sys2Proof/Machine/Preempt.lean ====
section
/-!
DEFINITION. Pre-emption: requests and the choice of a method (R100-R106), save, flush and resume (R107-R109, R460, R461), the
watchdog of a non-preemptible region (R110) and the in-field test (R111-R113).
-/

namespace Sys2Proof.Machine

/-! ### The save pool (R460) -/

/-- The first fit of `n` bytes between areas in rising order. -/
def gapFor (limit n : Nat) : Nat → List (Nat × Nat) → Option Nat
  | at_, [] => if at_ + n ≤ limit then some at_ else none
  | at_, (b, l) :: t => if at_ + n ≤ b then some at_ else gapFor limit n (max at_ (b + l)) t

/-- Takes an area of `n` bytes of a die's pool. -/
def takeArea (n : Nat) (d : Die) : Option ((Nat × Nat) × Die) :=
  let lo := d.saveBase.toNat * 2 ^ 20
  (gapFor (lo + d.saveLen.toNat * 2 ^ 20) n lo d.areas).map fun a => ((a, n), { d with areas := AMap.set d.areas a n })

/-- Takes areas of several sizes together. -/
def takeAreas : List Nat → Die → Option (List (Nat × Nat) × Die)
  | [], d => some ([], d)
  | n :: t, d =>
    match takeArea n d with
    | none => none
    | some (a, d) => (takeAreas t d).map fun r => (a :: r.1, r.2)

/-- Frees a block's area. -/
def freeArea (u : Nat) (s : State) : State :=
  match (s.block u).area with
  | none => s
  | some a =>
    (s.updDie (s.block u).place.die fun d => { d with areas := AMap.erase d.areas a.1 }).updBlock u fun b =>
      { b with area := none }

/-! ### The work of a block (R107, R312) -/

/-- Inserts a record by its number. -/
def insertRec (x : TileRec) : List TileRec → List TileRec
  | [] => [x]
  | y :: t => if x.num.toNat < y.num.toNat then x :: y :: t else y :: insertRec x t

/-- R312: a block's tasks on the arrays of a hardware cluster, committed or not yet begun to commit, in the order of their
numbers. -/
def tasksOf (s : State) (core u : Nat) : List TileRec :=
  (((clusterCores core).flatMap fun c =>
    let a := (s.core c).body.array
    (a.commits ++ a.run.toList).map fun r => { r.task with ran := some c }).filter fun x => x.blk == u).foldr insertRec []

/-- A request that a save suspends: a COMPACT starts over (R297). -/
def CopyOp.suspend (o : CopyOp) : CopyOp :=
  let again : Bool := (CopyF.of o.words).op == 6 && o.finished.isNone
  { o with
    waitSlot := none, pos := if again then 0 else o.pos, out := if again then 0 else o.out
    held := if again then [] else o.held }

/-- The queued and suspended work of a block, in its order. -/
def workOf (s : State) (u : Nat) : BlkWork :=
  let core := (s.block u).place.coreNo
  let k := (s.core core).body
  let mine (x : Kick) : Bool := x.owner == .blk u
  let runs := tasksOf s core u
  { kicks := k.kicks.filter mine
    copies := (k.copies.filter fun o => mine o.kick).map CopyOp.suspend
    high := (runs.filter fun x => x.high) ++ k.high.filter fun x => x.blk == u
    normal := (runs.filter fun x => !x.high) ++ k.normal.filter fun x => x.blk == u
    attn := k.attn.filter fun x => x.blk == u }

/-! ### The choice (R101-R106) -/

/-- Whether a request can reach a block: a save or a flush, once started, runs to its end (R109). -/
def BlkState.open_ (x : BlkState) : Bool := x == .running || x == .draining

/-- R101: the blocks a request applies to. -/
def preGroup (s : State) (u : Nat) : List Nat :=
  let b := s.block u
  let la := s.launch b.launch
  if la.hdr.cooperative || la.desc.gang then
    (s.blocks.filter fun p => p.2.launch == b.launch && p.2.state.open_).map Prod.fst
  else [u]

/-- R102: whether a warp of these blocks is in a non-preemptible region. -/
def regionOpen (s : State) (us : List Nat) : Bool := us.any fun u => (s.block u).warps.any fun w => w.2.noPre

/-- Whether every warp of a block has retired. -/
def allRetired (b : Block) : Bool := b.warps.all fun w => w.2.retired

/-- R103: the cost of a drain; none is unbounded. -/
def drainCost (s : State) (b : Block) : Option Nat :=
  let maxdur := (s.launch b.launch).hdr.maxdur
  let elapsed := s.now - b.since
  if allRetired b then some 0 else if maxdur = 0 ∨ maxdur ≤ elapsed then none else some (maxdur - elapsed)

/-- The larger of two costs. -/
def worse (a b : Option Nat) : Option Nat :=
  match a, b with
  | some x, some y => some (max x y)
  | _, _ => none

/-- Whether a cost is less than another. -/
def cheaper (a b : Option Nat) : Bool :=
  match a, b with
  | some x, some y => decide (x < y)
  | some _, none => true
  | none, _ => false

/-- R103: the legal methods of some blocks with their costs: 0 drain, 1 save, 2 flush. -/
def methods (s : State) (us : List Nat) : List (Nat × Option Nat) :=
  let bs := us.map s.block
  let la := s.launch ((bs.head?.getD default).launch)
  let top (f : Block → Option Nat) : Option Nat := bs.foldl (fun m b => worse m (f b)) (some 0)
  [(0, top (drainCost s))] ++
    (if saveable s us then [(1, top fun b => some (cdiv (saveSize b) 256))] else []) ++
    (if la.hdr.restartable && bs.all (fun b => !b.escaped) then [(2, top fun b => some (s.now - b.since))] else [])
where
  /-- Areas on every die that holds some of the blocks. -/
  saveable (s : State) (us : List Nat) : Bool :=
    (List.range 4).all fun d =>
      (takeAreas ((us.filter fun u => (s.block u).place.die == d).map fun u => saveSize (s.block u)) (s.die d)).isSome

/-- The cheapest of some methods, the earliest on equal costs. -/
def cheapest : List (Nat × Option Nat) → Option Nat
  | [] => none
  | x :: t => some (t.foldl (fun m y => if cheaper y.2 m.2 then y else m) x).1

/-- R106, and R112 for a request of an in-field test: a save, or, by R480, a drain where every warp has retired. -/
def chooseMethod (s : State) (us : List Nat) (bound : Nat) (saveOnly : Bool) : Option Nat :=
  let l := methods s us
  if saveOnly then
    if us.all fun u => allRetired (s.block u) then some 0 else cheapest (l.filter fun x => x.1 == 1)
  else
    let within := l.filter fun x => x.2.any fun c => decide (c ≤ bound)
    cheapest (if within.isEmpty then l else within)

/-- Starts a method on one block (R107), with its black-box entry. -/
def startMethod (m u : Nat) (s : State) : State :=
  let b := s.block u
  let s := bbWrite b.place.die (bbEnt 0x07 m (s.launch b.launch).desc.asid (warpAgent b 0) 0 0) s
  let (area, s) :=
    if m = 1 then
      match takeArea (saveSize b) (s.die b.place.die) with
      | some (a, d) => (some a, s.updDie b.place.die fun _ => d)
      | none => (none, s)
    else (none, s)
  s.updBlock u fun b => { b with
    state := if m = 0 then .draining else if m = 1 then .saving else .flushing
    area := area
    preReq := none }

/-- Makes a request wait at its blocks, with one that waits there already (R102). -/
def holdRequest (us : List Nat) (bound : Nat) (saveOnly : Bool) (s : State) : State :=
  us.foldl (fun s u => s.updBlock u fun b => { b with preReq := some (match b.preReq with
    | none => { bound, saveOnly }
    | some r => { bound := min bound r.bound, saveOnly := saveOnly || r.saveOnly }) }) s

/-- Answers a request that no region holds; none while no method can be chosen. -/
def answerRequest (us : List Nat) (bound : Nat) (saveOnly : Bool) (s : State) : Option State :=
  (chooseMethod s us bound saveOnly).map fun m => us.foldl (fun s u => startMethod m u s) s

/-- A request aimed at a block (R100-R102). -/
def preempt (u bound : Nat) (saveOnly : Bool) (s : State) : State :=
  if (AMap.get? s.blocks u).isNone || !(s.block u).state.open_ then s else
  let us := preGroup s u
  if regionOpen s us then holdRequest us bound saveOnly s
  else (answerRequest us bound saveOnly s).getD (holdRequest us bound saveOnly s)

/-- The blocks on a hardware cluster that are not saved. -/
def blocksOn (s : State) (die cl : Nat) : List (Nat × Block) :=
  s.blocks.filter fun p => p.2.place.die == die && p.2.place.core / 4 == cl && p.2.state != .saved

/-- Whether a requester of R100 stands behind a request at a block: a reservation, or a test. -/
def requested (s : State) (u bound : Nat) (saveOnly : Bool) : Bool :=
  let b := s.block u
  let la := s.launch b.launch
  let cl := b.place.core / 4
  b.state == .running &&
    (if saveOnly then (s.die b.place.die).tests.any fun t => t.open_ && t.cluster == cl
     else bound == 0 && (gangsOn s b.place.die).any fun g =>
        g.2.2.state == 1 && g.2.2.clusters.getLsbD cl && la.gangOf != some (g.1, g.2.1))

/-- PRE_EMPTION_REQUEST: a request that waits is answered once the last region has ended, or one is raised. -/
def execPreEmptionRequest (uid bound : Nat) (saveOnly : Bool) (s : State) : Host.Outcome State Fault Refusal :=
  let no : Host.Outcome State Fault Refusal := .refused (.notEnabled "PRE_EMPTION_REQUEST")
  if (AMap.get? s.blocks uid).isNone then no else
  match (s.block uid).preReq with
  | some r =>
    let us := preGroup s uid
    if r ≠ { bound, saveOnly } ∨ regionOpen s us then no else
    match answerRequest us bound saveOnly s with
    | some t => .next t
    | none => no
  | none => if requested s uid bound saveOnly then .next (preempt uid bound saveOnly s) else no

/-- NON_PREEMPTIBLE_OVERRUN (R110): the warp takes the trap at its next instruction. -/
def execNonPreemptibleOverrun (uid warp : Nat) (s : State) : Host.Outcome State Fault Refusal :=
  let w := s.warpOf uid warp
  if w.noPre && !w.overrun && decide (w.watchAt + 95000 ≤ s.now) then
    .next (s.updWarpOf uid warp fun w => { w with overrun := true })
  else .refused (.notEnabled "NON_PREEMPTIBLE_OVERRUN")

/-! ### Save (R107, R458, R460, R461) -/

/-- Whether a split stands where a save may stop it: at a clause boundary (R107), or inside a clause at an instruction that
waits, at a fault it has posted or at a plane it waits for (R120, R188, R458; log 90). -/
def canStop (sp : Split) : Bool :=
  match sp.wait with
  | .none => (sp.port.isNone || sp.stalled) && !clauseEnded sp
  | .arr _ | .tl _ _ | .bar _ _ | .sleep _ | .tlback _ => !clauseEnded sp
  | .fault _ | .planeLoad | .pending => true
  | .join .. | .leave | .atomic .. => false

/-- Whether a block can be saved now. -/
def canSave (b : Block) : Bool := b.warps.all fun w => w.2.splits.all fun x => canStop x.2

/-- A split leaves its port; the waits of its header and what its instruction has begun come about afresh (R120). -/
def Split.stop (sp : Split) : Split := { sp with port := none, tlv := none, fence := false, mark := none, stalled := false, code := [] }

/-- A warp leaves its ports, and its shadow comes up with it: a sleep ends (R405), and a posted fault or a plane load is forgotten, to come about again. -/
def Warp.stop (w : Warp) : Warp :=
  let w := { w with splits := AMap.mapVals w.splits fun _ sp => sp.stop }
  w.splits.foldl (fun w x => match x.2.wait with
    | .sleep _ | .fault _ | .planeLoad => w.settle x.1
    | _ => w) { w with autoRefill := w.autoRefill.map fun _ => none, shadow := [] }

/-- R458: a block's entries are withdrawn, with the waits of its engine work. -/
def withdrawFaults (u : Nat) (s : State) : State :=
  { s with
    dies := AMap.mapVals s.dies fun _ d => Die.promote { d with
      fq := d.fq.filter fun e => !e.2.poster.isOf s u
      postQ := d.postQ.filter fun e => !e.2.isOf s u } 64
    colls := AMap.mapVals s.colls fun _ c => { c with
      parts := c.parts.map fun p => if p.blk = u then { p with waitSlot := none } else p } }

/-- Takes everything of a block out of a core's queues and arrays; a plane load goes on. -/
def CoreBody.without (u : Nat) (k : CoreBody) : CoreBody :=
  let mine (x : Kick) : Bool := x.owner == .blk u
  { k with
    kicks := k.kicks.filter fun x => !mine x
    copies := k.copies.filter fun x => !mine x.kick
    high := k.high.filter fun x => x.blk != u
    normal := k.normal.filter fun x => x.blk != u
    attn := k.attn.filter fun x => x.blk != u
    attnRun := if k.attn.head?.any (fun x => x.blk == u) then none else k.attnRun
    array := { k.array with
      run := k.array.run.filter fun r => r.task.blk != u
      commits := k.array.commits.filter fun r => r.task.blk != u
      strictSplit := k.array.strictSplit.filter fun x => x.1 != u } }

/-- Puts a saved block's work back on a core: its tasks at the heads of their queues (R312), behind an attention task that is
running (R374). -/
def CoreBody.with_ (x : BlkWork) (k : CoreBody) : CoreBody :=
  let runs := if k.attnRun.isSome then 1 else 0
  { k with
    kicks := k.kicks ++ x.kicks
    copies := k.copies ++ x.copies
    high := x.high ++ k.high
    normal := x.normal ++ k.normal
    attn := k.attn.take runs ++ x.attn ++ k.attn.drop runs }

/-- An area that holds an image of `n` bytes: the one of R104's size taken at the choice, or, for the extension and for what the
block has grown since, another one if the pool has it (log 89). -/
def fitArea (u n : Nat) (s : State) : State :=
  let b := s.block u
  match b.area with
  | none => s
  | some a =>
    if n ≤ a.2 then s else
    let t := freeArea u s
    match takeArea n (t.die b.place.die) with
    | none => s
    | some (x, d) => (t.updDie b.place.die fun _ => d).updBlock u fun b => { b with area := some x }

/-- The image goes on through the lager buffer, as far as there is room for it (R464). -/
def sendImage (u : Nat) (s : State) : State :=
  let b := s.block u
  let lagers := (s.launch b.launch).lagers
  let n := if lagers then 65536 - lagerUsed (s.core b.place.coreNo) else b.unsent.length
  let l := b.unsent.take n
  match l.head? with
  | none => s
  | some p =>
    emit lagers b.place.coreNo { engItem s u (warpAgent b 0) (.store p.1 l) with left := some s.instant }
      (s.updBlock u fun b => { b with unsent := b.unsent.drop n })

/-- The image in its area, which is to leave through the lager buffer. -/
def writeImage (u : Nat) (work : BlkWork) (s : State) : State :=
  let bs := saveImage (s.block u) work (msgsOf s u) s.now
  let s := fitArea u bs.length s
  match (s.block u).area with
  | none => s
  | some (a, n) => sendImage u (s.updBlock u fun b => { b with unsent := at_ a (bs.take n) })

/-- R273: the undrained data of all warps. -/
def drainBlock (u : Nat) (s : State) : State := (s.block u).warps.foldl (fun s w => drainOf s u w.1) s

/-- A race that the drain of a save meets (R419): the warp, its first split, and the trap at the instruction where it stands. -/
def saveRace (s : State) (u : Nat) : Option (Cursor × TrapReq) :=
  (s.block u).warps.findSome? fun w =>
    match drainRace anyPa s u w.1, w.2.splits with
    | some (va, x), (k, sp) :: _ =>
      some (⟨u, w.1, k⟩, { kind := Kind.memoryModel, cause := 0, lanes := sp.lanes, va, write := true, code := 0
                           race := some (x.regs va), pc := ⟨sp.hdr, sp.idx⟩ })
    | _, _ => none

/-- Whether a block's undrained data has room where it must go, or finds the lager buffer empty. -/
def drainFits (s : State) (u : Nat) : Bool :=
  let b := s.block u
  let core := b.place.coreNo
  let n := (b.warps.map fun w => ((ntOf anyPa s core u w.1).flatMap fun x => x.bytes).length).foldl (· + ·) 0
  !(s.launch b.launch).lagers || lagerRoom s core n || lagerUsed (s.core core) == 0

/-- SAVE: the warps stop, and, unless the drain meets a race, which is a fault at the save (R419), the block's state goes
out; and what has found no room yet goes on. -/
def execSave (uid : Nat) (s : State) : Host.Outcome State Fault Refusal :=
  let b := s.block uid
  if (AMap.get? s.blocks uid).isNone then .refused (.notEnabled "SAVE")
  else if b.state = .saved then
    if !b.unsent.isEmpty && lagerRoom s b.place.coreNo 1 then .next (sendImage uid s) else .refused (.notEnabled "SAVE")
  else if b.state ≠ .saving ∨ !canSave b ∨ !drainFits s uid then .refused (.notEnabled "SAVE") else
  let s := (withdrawFaults uid s).updBlock uid fun b => { b with warps := AMap.mapVals b.warps fun _ w => w.stop }
  match saveRace s uid with
  | some (c, q) => .next (raiseAt c q (dropNt s uid c.warp))
  | none =>
    let work := workOf s uid
    let s := writeImage uid work (drainBlock uid s)
    let s := { s with cores := AMap.mapVals s.cores fun _ k => { k with body := k.body.without uid } }
    .next (s.updBlock uid fun b => { b with
      state := .saved
      past := b.past ++ [(b.place, b.since, s.now)]
      work := work })

/-! ### Flush (R107) -/

/-- Inserts a number into a rising list. -/
def insertNat (x : Nat) : List Nat → List Nat
  | [] => [x]
  | y :: t => if x < y then x :: y :: t else if x = y then y :: t else y :: insertNat x t

/-- A block is discarded, and waits to start again from its entry with the same index. -/
def flushBlock (u : Nat) (s : State) : State :=
  let b := s.block u
  (discardBlock u (drainBlock u s)).updLaunch b.launch fun la => { la with
    waiting := insertNat b.place.lcluster la.waiting
    flushed := insertNat b.place.index la.flushed }

/-- FLUSH, of all blocks that one choice covers (R101). -/
def execFlush (uid : Nat) (s : State) : Host.Outcome State Fault Refusal :=
  let b := s.block uid
  if (AMap.get? s.blocks uid).isNone ∨ b.state ≠ .flushing then .refused (.notEnabled "FLUSH") else
  let la := s.launch b.launch
  let us := if la.hdr.cooperative || la.desc.gang then
      (s.blocks.filter fun p => p.2.launch == b.launch && p.2.state == .flushing).map Prod.fst
    else [uid]
  .next (us.foldl (fun s u => flushBlock u s) s)

/-! ### Resume (R108, R109, R113) -/

/-- Whether a save is complete: its data has left (R108). -/
def saveDone (s : State) (u : Nat) : Bool :=
  let b := s.block u
  b.unsent.isEmpty && !((pendingOf s b.place.coreNo).any fun o => imageItem b u o)

/-- Whether a block's hardware cluster is in use. -/
def homeUp (s : State) (b : Block) : Bool := (s.die b.place.die).inUse.getLsbD (b.place.core / 4)

/-- The blocks that resume together with one: all of a cooperative launch or a gang member whose save was requested (R101), or the
whole launch cluster where it moves (R113). -/
def resumeGroup (s : State) (u : Nat) : List Nat :=
  let b := s.block u
  let la := s.launch b.launch
  let all : Bool := la.hdr.cooperative || la.desc.gang
  if !all && homeUp s b then [u]
  else (s.blocks.filter fun p => p.2.launch == b.launch && (p.2.state == .saved || p.2.state == .saving) &&
    (all || p.2.place.lcluster == b.place.lcluster)).map Prod.fst

/-- The asks of blocks that resume: each part on its own hardware cluster, or, where that has failed, the launch cluster on
any other of the die. -/
def resumeAsks (s : State) (us : List Nat) : List Ask :=
  let key (u : Nat) : Nat × Nat × Option Nat :=
    let b := s.block u
    (b.place.lcluster, b.place.die, if homeUp s b then some (b.place.core / 4) else none)
  ((us.map key).eraseDups).map fun x =>
    let ids := us.filter fun u => key u == x
    { k := x.1, die := x.2.1, cl := x.2.2, ids, needs := ids.map fun u => needNow s (s.block u) }

/-- Where blocks could resume now. -/
def resumeSpots (s : State) (us : List Nat) : Option (List Spot) :=
  (placeAll (baysFor s (s.launch (s.block (us.head?.getD 0)).launch)) (resumeAsks s us)).map Prod.fst

/-- Whether some blocks can resume now. -/
def canResume (s : State) (us : List Nat) : Bool :=
  us.all (fun u => (s.block u).state == .saved && saveDone s u) && (resumeSpots s us).isSome

/-- The checkpoint of a core that was as after reset when an epoch began. -/
def Checkpoint.first (epoch : Nat) : Checkpoint := { epoch, body := CoreBody.reset, blocks := [] }

/-- R463: a block that a core takes up in the middle of an epoch is restored to what it is now by a rollback to an earlier
boundary, with what it popped or received since then to come again. -/
def checkpointBlock (u : Nat) (work : BlkWork) (s : State) : State :=
  let b := s.block u
  s.updCore b.place.coreNo fun k => { k with
    popLog := k.popLog.filter fun x => x.1 != u
    msgLog := k.msgLog.filter fun x => x.2.blk != u
    ckpts := (if k.ckpts.isEmpty then [Checkpoint.first s.epoch] else k.ckpts).map fun c =>
      { c with body := (c.body.without u).with_ work, blocks := AMap.set c.blocks u b } }

/-- The core that takes up a block keeps no copies of its own from before, and a new world finds its translations, L1 and
planes empty (R487, log 45). -/
def freshCore (core : Nat) (world : Bool) (s : State) : State :=
  s.updCore core fun k =>
    if k.world = some world then { k with l1 := [] }
    else { k with
      world := some world, l1 := [], tlb := [], copyTlb := [], attnTlb := []
      body := { k.body with array := { k.body.array with active := Plane.reset, shadow := Plane.reset, swapPending := false, loading := none } } }

/-- One block takes up its new place. -/
def resumeBlock (u : Nat) (p : Place) (s : State) : State :=
  let s := freshCore p.coreNo (worldOf s u) (freeArea u s)
  let work := (s.block u).work
  let before := (s.block u).place.coreNo
  let pops := (s.core before).popReplay.filter fun x => x.1 == u
  let s := s.updCore before fun k => { k with popReplay := k.popReplay.filter fun x => x.1 != u }
  let s := s.updCore p.coreNo fun k => { k with popReplay := k.popReplay ++ pops }
  let s := s.updBlock u fun b => { b with
    place := { b.place with core := p.core, slot := p.slot }
    warps := AMap.mapVals b.warps fun _ w => w.refetch
    state := .running
    since := s.now
    work := { kicks := [], copies := [], high := [], normal := [], attn := [] } }
  let s := s.updBody p.coreNo fun k => k.with_ work
  let s := checkpointBlock u work s
  (s.block u).warps.foldl (fun s w => if w.2.autoRefill = some none then autoRefill u w.1 s else s) s

/-! ### In-field test (R111-R113) -/

/-- Cycles in a second. -/
def perSecond : Nat := 1900000000

/-- The %sync time at which the next test of a cluster falls due, unless one is in hand (R112). The first one counts from reset
(log 98). -/
def testDueAt (d : Die) (cl : Nat) : Option Nat :=
  if d.iftEnable && d.inUse.getLsbD cl && !d.tests.any (fun t => t.cluster == cl) then
    some ((d.lastTest[cl]?).getD 0 + d.iftPeriod * perSecond)
  else none

/-- How long the gang in state 2 that reserves a cluster defers its test. -/
def deferral (s : State) (die cl : Nat) : Nat :=
  (((gangsOn s die).filter fun g => g.2.2.state == 2 && g.2.2.clusters.getLsbD cl).map fun g => g.2.2.deferS).foldl max 0 * perSecond

/-- R112: whether the pool has areas for every block of a cluster together. -/
def poolFor (s : State) (die cl : Nat) : Bool :=
  let us := ((blocksOn s die cl).filter fun p => p.2.state.open_ && !allRetired p.2).map Prod.fst
  (takeAreas (us.map fun u => saveSize (s.block u)) (s.die die)).isSome

/-- A cluster's test becomes this, or ends. -/
def setTest (cl : Nat) (t : Option TestRun) (d : Die) : Die :=
  { d with tests := t.toList ++ d.tests.filter fun x => x.cluster != cl }

/-- The placer runs a test: a save of every block of the cluster is requested, or, while the pool lacks room, the test waits,
with its entry written once. -/
def runTest (die cl : Nat) (t : TestRun) (s : State) : Option State :=
  if poolFor s die cl then
    let s := s.updDie die (setTest cl (some { t with begun := true, open_ := true }))
    some ((blocksOn s die cl).foldl (fun s p => preempt p.1 0 true s) s)
  else if t.begun then none
  else some ((bbWrite die (bbEnt 0x0F 0 0 0 0 0) s).updDie die (setTest cl (some { t with begun := true })))

/-- IN_FIELD_TEST: a test falls due, and is deferred or begins, or one that waits goes on. -/
def execInFieldTest (die : Fin 4) (cluster : Fin 12) (s : State) : Host.Outcome State Fault Refusal :=
  let no : Host.Outcome State Fault Refusal := .refused (.notEnabled "IN_FIELD_TEST")
  let d := s.die die.val
  let answer (t : TestRun) : Host.Outcome State Fault Refusal :=
    match runTest die.val cluster.val t s with
    | some x => .next x
    | none => no
  match d.tests.find? fun t => t.cluster == cluster.val with
  | some t => if t.open_ ∨ s.now < t.from_ then no else answer t
  | none =>
    if (testDueAt d cluster.val).any fun t => decide (t ≤ s.now) then
      let t : TestRun := { cluster := cluster.val, from_ := s.now + deferral s die.val cluster.val, begun := false, open_ := false }
      if s.now < t.from_ then .next (s.updDie die.val (setTest cluster.val (some t))) else answer t
    else no

/-- Whether the test of a cluster is under way with every block of it saved. -/
def testRuns (s : State) (die cl : Nat) : Bool :=
  (s.die die).tests.any (fun t => t.cluster == cl && t.open_) && (blocksOn s die cl).isEmpty &&
    s.blocks.all fun p => p.2.place.die != die || p.2.place.core / 4 != cl || saveDone s p.1

/-- The test ends. -/
def endTest (die cl : Nat) (s : State) : State :=
  s.updDie die fun d => { setTest cl none d with lastTest := vmod d.lastTest cl fun _ => s.now }

/-- CLUSTER_TEST_PASS. -/
def execClusterTestPass (die : Fin 4) (cluster : Fin 12) (s : State) : Host.Outcome State Fault Refusal :=
  if testRuns s die.val cluster.val then .next (endTest die.val cluster.val s)
  else .refused (.notEnabled "CLUSTER_TEST_PASS")

/-- CLUSTER_TEST_FAILURE (R113): the cluster goes out of use and the peer sets of its blocks end.
The type of the entry is not stated, so it is free. -/
def execClusterTestFailure (die : Fin 4) (cluster : Fin 12) (s : State) : Host.Outcome State Fault Refusal :=
  if !testRuns s die.val cluster.val then .refused (.notEnabled "CLUSTER_TEST_FAILURE") else
  let s := endTest die.val cluster.val s
  let (type, s) := s.free
  let s := bbWrite die.val (bbEnt (type % 256) 0 0 (agentCode false ⟨0, 0, die.val, 4 * cluster.val, 0⟩ 0 0) 0 0) s
  let mine := s.blocks.filter fun p => p.2.place.die == die.val && p.2.place.core / 4 == cluster.val
  let s := mine.foldl (fun s p => dropPeer p.1 s) s
  .next (s.updDie die.val fun d => { d with
    inUse := d.inUse &&& ~~~ (1#12 <<< cluster.val)
    clusters := vmod d.clusters cluster.val fun c => { c with peers := Vector.replicate 8 [] } })

end Sys2Proof.Machine
end

