-- ==== Sys2Proof/Machine/Collect.lean ====
section
/-!
DEFINITION. The fabric at work: routes and the delivery of messages (R428-R433), and the collective engines (R434-R438,
R441, R442).
-/

namespace Sys2Proof.Machine

/-! ### Routes (R428, R496) -/

/-- Whether an address names this device. -/
def ownDevice (s : State) (a : Word) : Bool := faDevice a == nbits s.fabid.toNat 0 12

/-- The port that the routing table gives for a device: none where it gives no route, or its port is down. -/
def routeOf (s : State) (dev : Nat) : Option Nat :=
  let e := leNat (s.mem.readN (s.frtBase.toNat * 2 ^ 20 + 4 * dev) 4)
  if nbit e 31 && decide (nbits e 0 4 ≤ 11) && s.ports.getLsbD (nbits e 0 4) then some (nbits e 0 4) else none

/-- The die that receives a message or sends it on: for another device the one that carries the port (R483), or the
sender's where there is no route. -/
def msgDie (s : State) (m : Msg) : Nat :=
  if ownDevice s m.addr then faDie m.addr
  else match routeOf s (faDevice m.addr) with
    | some p => p / 3
    | none => m.srcDie

/-! ### Receivers (R426, R430, R433) -/

/-- The block that receives a message. -/
def recvOf (s : State) (d : Nat) (m : Msg) : Option Nat :=
  if 5 ≤ m.srcDie then some m.blk
  else if ownDevice s m.addr then AMap.get? (s.die d).endpoints (faEnd m.addr)
  else none

/-- A number of the receiver: messages to one receiver pass each other never. -/
def recvKey (s : State) (d : Nat) (m : Msg) : Nat :=
  match recvOf s d m with
  | some u => 2 * u
  | none => 2 * nbits m.addr.toNat 9 23 + 1

/-- The route of a message from its die: that to its die of the package, or that of a port (R431, R496). -/
def routeKey (s : State) (m : Msg) : Option Nat :=
  if ownDevice s m.addr then none else some ((routeOf s (faDevice m.addr)).getD 12)

/-- Whether a message that a core's log delivers again is still to come after an `ARRSET` that it followed when it came first:
a run again of the block has not got so far (R424, R432). -/
def tooEarly (s : State) (m : Msg) : Bool :=
  decide (5 ≤ m.srcDie) && decide (((s.block m.blk).eng.sets[m.ctr]?).getD 0 < m.sets)

/-- The messages waiting in a mailbox. -/
def mailOf (s : State) (d box : Nat) : List Msg := AMap.getD (s.die d).mail box []

/-- Whether a message's receiver is saved, or its mailbox full, or it is too early. -/
def isHeld (s : State) (d : Nat) (m : Msg) : Bool :=
  tooEarly s m || (decide (5 ≤ m.srcDie) || ownDevice s m.addr) &&
    (match recvOf s d m with
      | some u => (s.block u).state == .saved
      | none => decide (256 ≤ faEnd m.addr) && decide (faEnd m.addr < 320) && decide (16 ≤ (mailOf s d (faEnd m.addr - 256)).length))

/-- Whether a held message enters the ingress buffer: its receiver is saved and there is room. -/
def mayEnter (s : State) (d : Nat) (m : Msg) : Bool := (recvOf s d m).isSome && decide ((s.die d).ingress.length < 256)

/-- The refusal codes that hold for a message that has arrived at its die (R430). -/
def refusals (s : State) (d : Nat) (m : Msg) : List Nat :=
  let e := faEnd m.addr
  let bad : List Nat := if nbits m.addr.toNat 0 9 ≠ 0 ∨ 320 ≤ e then [5] else []
  if 320 ≤ e then bad
  else if 256 ≤ e then bad ++ (if (s.ctx (e - 256)).world = m.world then [] else [4])
  else match recvOf s d m with
    | none => 2 :: bad
    | some u =>
      let b := s.block u
      let la := s.launch b.launch
      bad ++ (if m.doff + m.data.length ≤ b.abuf.size ∧ m.doff < 2 ^ 20 ∧ m.ctr < la.hdr.arrivals then [] else [3]) ++
        (if la.desc.world = m.world then [] else [4])

/-! ### Delivery (R429) -/

/-- The answer to the sender; what another device sent is answered outside, and what a log delivers is answered already. -/
def answerMsg (m : Msg) (code : Nat) (s : State) : State :=
  if m.srcDie < 4 then { s with acks := s.acks ++ [(m, code)] } else s

/-- A message fills a slot of a mailbox. -/
def deliverMail (d box : Nat) (m : Msg) (s : State) : State :=
  s.updDie d fun x => { x with
    mail := AMap.set x.mail box (AMap.getD x.mail box [] ++ [{ m with data := m.data ++ List.replicate (256 - m.data.length) 0 }]) }

/-- A message that nothing holds back is delivered, refused, or sent on to another device, whose answer is outside. -/
def arriveMsg (d : Nat) (m : Msg) (s : State) : State :=
  if 5 ≤ m.srcDie then deliverTo m.blk m s
  else if !ownDevice s m.addr then
    match routeOf s (faDevice m.addr) with
    | none => answerMsg m 1 s
    | some _ => answerMsg m (Config.freeNat s.freeCtr % 6) { s with freeCtr := s.freeCtr + 1 }
  else
    match refusals s d m with
    | [] =>
      match recvOf s d m with
      | some u => answerMsg m 0 (deliverTo u m s)
      | none => answerMsg m 0 (deliverMail d (faEnd m.addr - 256) m s)
    | c :: l => answerMsg m ((c :: l)[Config.freeNat s.freeCtr % (l.length + 1)]?.getD c) { s with freeCtr := s.freeCtr + 1 }

/-- Whether a message in transit cannot come in yet: its receiver is held back and the ingress buffer takes no more, or an
earlier message of its receiver, which is back, is still in that buffer. -/
def waitsOut (s : State) (d : Nat) (m : Msg) : Bool :=
  if isHeld s d m then !mayEnter s d m else (s.die d).ingress.any fun x => recvKey s d x == recvKey s d m

/-- Positions of the messages in transit to a die that may come next (R431): those of one route in their order, but past those
that are held back (R433). -/
def nextMsgs (s : State) (d : Nat) : List Nat :=
  let ix := s.msgs.zipIdx
  let mine := ix.filter fun p => msgDie s p.1 == d
  (mine.filter fun p =>
    !waitsOut s d p.1 && mine.all fun q =>
      decide (p.2 ≤ q.2) || q.1.srcDie != p.1.srcDie || routeKey s q.1 != routeKey s p.1 ||
        (waitsOut s d q.1 && recvKey s d q.1 != recvKey s d p.1)).map Prod.snd

/-- Positions in the ingress buffer of messages whose receiver is back. -/
def nextIngress (s : State) (d : Nat) : List Nat :=
  let ix := (s.die d).ingress.zipIdx
  (ix.filter fun p => !isHeld s d p.1 &&
    ix.all fun q => decide (p.2 ≤ q.2) || recvKey s d q.1 != recvKey s d p.1).map Prod.snd

/-- A message from the ingress buffer is delivered. -/
def fromIngress (d j : Nat) (s : State) : State :=
  match (s.die d).ingress[j]? with
  | none => s
  | some m => arriveMsg d m (s.updDie d fun x => { x with ingress := x.ingress.eraseIdx j })

/-- A message in transit arrives: it is delivered, or enters the ingress buffer. -/
def fromTransit (d j : Nat) (s : State) : State :=
  match s.msgs[j]? with
  | none => s
  | some m =>
    let s := { s with msgs := s.msgs.eraseIdx j }
    if isHeld s d m then s.updDie d fun x => { x with ingress := x.ingress ++ [m] } else arriveMsg d m s

/-- A message that another device sends. -/
def remoteMsg (r : RemoteMsg) : Msg :=
  { id := 0, blk := 0, num := 0, srcDie := 4, world := r.world, addr := r.addr, doff := r.doff.toNat, ctr := r.ctr.val,
    data := (r.bytes.take 256), agent := 0 }

/-- MESSAGE_DELIVERY. Messages from different dies have no order between them. -/
def execMessageDelivery (die : Fin 4) (remote : Option RemoteMsg) (s : State) : Host.Outcome State Fault Refusal :=
  let d := die.val
  match remote with
  | some r =>
    let m := { remoteMsg r with id := s.uidCtr }
    let s := { s with uidCtr := s.uidCtr + 1 }
    if r.bytes = [] ∨ !ownDevice s m.addr ∨ faDie m.addr ≠ d then .refused (.notEnabled "MESSAGE_DELIVERY")
    else if isHeld s d m || (s.die d).ingress.any fun x => recvKey s d x == recvKey s d m then
      if mayEnter s d m then .next (s.updDie d fun x => { x with ingress := x.ingress ++ [m] })
      else .refused (.notEnabled "MESSAGE_DELIVERY")
    else .next (arriveMsg d m s)
  | none =>
    let l := (nextIngress s d).map (true, ·) ++ (nextMsgs s d).map (false, ·)
    match l[Config.freeNat s.freeCtr % max l.length 1]? with
    | none => .refused (.notEnabled "MESSAGE_DELIVERY")
    | some (inner, j) =>
      let s := { s with freeCtr := s.freeCtr + 1 }
      .next (if inner then fromIngress d j s else fromTransit d j s)

/-- ACKNOWLEDGE: the number completes at the sender, and a refusal is recorded (R430). -/
def execAcknowledge (msg : Nat) (s : State) : Host.Outcome State Fault Refusal :=
  match s.acks.find? fun p => p.1.id == msg with
  | none => .refused (.notEnabled "ACKNOWLEDGE")
  | some (m, code) =>
    let asid := (s.launch (s.block m.blk).launch).desc.asid
    let s := { s with acks := s.acks.erase (m, code) }
    let s := if code = 0 then s else bbWrite m.srcDie (bbEnt 0x0C 0 asid m.agent 0 (w64 code)) s
    .next (lasting m.blk (fun s => s.updEng m.blk fun e =>
      completeOn 4 m.num { e with
        inFlight := e.inFlight - 1
        fabFault := e.fabFault || code != 0
        fabCode := if code = 0 then e.fabCode else code }) s)

/-! ### Reductions (R436) -/

/-- FP32 words of an input. -/
def inWord (p : CollPart) (i : Nat) : Word := wordAt p.input (4 * i)

/-- A fold over the participants in their order. -/
def foldParts (f : Word → Word → Word × Flags) (xs : List Word) : Word × Flags :=
  match xs with
  | [] => (0, {})
  | x :: t => t.foldl (fun acc y => let (z, g) := f acc.1 y; (z, acc.2.or g)) (x, {})

/-- The step of an element-wise operation. -/
def reduceWord (op dtype : Nat) (a b : Word) : Word × Flags :=
  if op = 0 then (if dtype = 0 then (a + b, {}) else fadd32 .rn (fv a) (fv b))
  else if dtype = 0 then (if op = 1 then (if a.toInt ≤ b.toInt then b else a) else (if a.toInt ≤ b.toInt then a else b), {})
  else (fpick32 (op == 1) (fv a) (fv b), {})

/-- SUM, MAX, MIN. -/
def reduceElems (c : CollF) (ps : List CollPart) : List Byte × Flags :=
  let l := (List.range c.count).map fun i => foldParts (reduceWord c.op c.dtype) (ps.map fun p => inWord p i)
  (l.flatMap fun x => toLe 4 x.1.toNat, l.foldl (fun f x => f.or x.2) {})

/-- The handle under which a record's rows lie at offset 0. -/
def collHandle (c : CollF) : DWord := mkHandle (c.dtype == 1) c.kw c.count 0

/-- A run of bytes as a memory from 0. -/
def memOf (bs : List Byte) : Mem := Mem.writeAll [] (at_ 0 bs)

/-- WLMERGE into rows that stand as `old`. -/
def mergeRows (c : CollF) (ps : List CollPart) (old : List Byte) : List Byte :=
  let h := collHandle c
  let ins := ps.map fun p => memOf p.input
  (List.range c.count).flatMap fun i =>
    let r := readRow (memOf old) h i
    rowBytesOf h r.hdr (ins.foldl (fun (es : List WEnt) m => mergeEnts h { r with ents := es } (readRow m h i).ents) [])

/-- ARGMAX. -/
def argmaxPairs (c : CollF) (ps : List CollPart) : List Byte :=
  (List.range c.count).flatMap fun i =>
    match sortEnts (c.dtype == 1) (ps.map fun p => (inWord p (2 * i), inWord p (2 * i + 1))) with
    | e :: _ => entBytes e
    | [] => []

/-! ### Acceptance (R441, R442) -/

/-- The pairs of a participant with their global indices. -/
def acceptPairs (c : CollF) (p : CollPart) : List (Word × Word × Word) :=
  (List.range c.count).map fun i => (inWord p 0 + w32 i, inWord p (4 + 2 * i), inWord p (5 + 2 * i))

/-- Partial sums of a fold, each rounded, and its events. -/
def partials : List Word → List Word × Flags
  | [] => ([], {})
  | x :: t => t.foldl (fun acc y =>
      let (z, g) := fadd32 .rn (fv (acc.1.getLastD 0)) (fv y)
      (acc.1 ++ [z], acc.2.or g)) ([x], {})

/-- What an acceptance comes to: its code, its step record and the events. -/
structure Accepted where
  code : Nat
  record : List Byte
  flags : Flags

/-- The bytes of a step record. -/
def stepRecord (ubits resid token : Word) (bits : Nat) : List Byte :=
  toLe 4 bits ++ toLe 4 token.toNat ++ toLe 4 resid.toNat ++ toLe 4 ubits.toNat

/-- A draw from the residual, or from p. -/
def acceptDraw (inst : Nat) (u1 u2 : Word) (prs : List (Word × Word × Word)) : Accepted :=
  let zero (x : Word) : Word := if FVal.test .lt (fv x) (.fin false 0 0) then 0 else x
  let rs := prs.map fun t => let (d, f) := fadd32 .rn (fv t.2.1) (fv t.2.2).neg; (zero d, f)
  let (sums, f1) := partials (rs.map Prod.fst)
  let resid := sums.getLastD 0
  let back := FVal.test .eq (fv resid) (.fin false 0 0)
  let ws := if back then prs.map fun t => t.2.1 else rs.map Prod.fst
  let (run, f2) := partials ws
  let total := run.getLastD 0
  let (thr, f3) := fmul32 .rn (fv u2) (fv total)
  let f := (allFlags rs).or (f1.or ((if back then f2 else {}).or f3))
  let isFin : Bool := match fv total with | .fin _ _ _ => true | _ => false
  if !isFin then ⟨3, stepRecord u1 resid 0xFFFFFFFF (8 * back.toNat + 4), f⟩ else
  let ix := (prs.zip (ws.zip run))
  let hit := ix.find? fun t => FVal.test .gt (fv t.2.2) (fv thr)
  let last := ix.reverse.find? fun t => FVal.test .gt (fv t.2.1) (.fin false 0 0)
  let token := match hit, last with
    | some t, _ => t.1.1
    | none, some t => t.1.1
    | none, none => Config.instWord inst
  ⟨0, stepRecord u1 resid token (8 * back.toNat + 5), f⟩

/-- ACCEPT, on the participants in their order. -/
def accept (inst : Nat) (c : CollF) (ps : List CollPart) : Accepted :=
  match ps with
  | [] => ⟨1, [], {}⟩
  | p0 :: _ =>
    let x := (CollF.of p0.record).aux
    let u1 := inWord p0 1
    let u2 := inWord p0 2
    let prs := ps.flatMap (acceptPairs c)
    match prs.find? fun t => t.1 == x with
    | none => ⟨1, [], {}⟩
    | some (_, px, qx) =>
      if FVal.test .le (FVal.mul (fv u1) (fv qx)).1 (fv px) then ⟨0, stepRecord u1 0 x 3, {}⟩
      else acceptDraw inst u1 u2 prs

/-- The code, the result over what stands at the destination, and the events. -/
def collResult (inst : Nat) (c : CollF) (ps : List CollPart) (old : List Byte) : Nat × List Byte × Flags :=
  match c.op with
  | 3 => (0, mergeRows c ps old, {})
  | 4 => (0, argmaxPairs c ps, {})
  | 5 => let a := accept inst c ps; (a.code, a.record, a.flags)
  | _ => let (bs, f) := reduceElems c ps; (0, bs, f)

/-! ### The engines at work (R434, R437) -/

/-- Whether a participant's block can be worked for: it is there and not saved, and its die works (R486). -/
def partLives (s : State) (p : CollPart) : Bool :=
  (AMap.get? s.blocks p.blk).any fun b => b.state != .saved && dieUp s b.place.die

/-- Changes a participant of an instance. -/
def updPart (i u : Nat) (num : DWord) (f : CollPart → CollPart) (s : State) : State :=
  { s with colls := AMap.modify s.colls i fun c =>
      { c with parts := c.parts.map fun p => if p.blk = u ∧ p.num = num then f p else p } }

/-- R457: a table declared unserviceable fails the instances of its participants: those that name the same table with the
same sequence number. -/
def failMates (i : Nat) (p : CollPart) (s : State) : State :=
  let f := CollF.of p.record
  let asid (u : Nat) : Nat := (s.launch (s.block u).launch).desc.asid
  { s with colls := AMap.mapVals s.colls fun j c =>
      if j = i ∨ (c.seq = f.seq ∧ c.parts.any fun q => (CollF.of q.record).gtab == f.gtab && asid q.blk == asid p.blk) then
        { c with failed := true, parts := c.parts.map fun q => { q with fetched := true, sent := q.sent || j == i } }
      else c }

/-- A table is read again, and its participant enters its instance; none while it is held back. One that is no table of tier
0, or that the participant's endpoint is not in, fails; a poisoned one ends the launch (R260). -/
def refetch (i : Nat) (p : CollPart) (s : State) : Option State :=
  let b := s.block p.blk
  let f := CollF.of p.record
  let agent := engAgent b 3 p.num
  let s0 := { s with colls := AMap.erase s.colls i }
  match readTable s0 p.blk agent f.gtab with
  | .error .held => none
  | .error .noTable => some (failMates i p s)
  | .error (.poison va) => some (terminate p.blk 0x06 Kind.uncorrectable agent (w64 va) s)
  | .error (.fault va cause) => some (collFault p.blk p f.seq va cause s0)
  | .ok (t, s1) =>
    match tabPos t (addrOf s b (b.eng.endpoint.getD 0)) with
    | some pos =>
      if tabOk t && b.eng.endpoint.isSome then some (joinColl (tabTag t) f.seq { p with table := t, pos, fetched := true } s1)
      else some (failMates i p s)
    | none => some (failMates i p s)

/-- A participant's input is read, and its contribution leaves through the lager buffer. None while that has no room. -/
def contribute (i : Nat) (p : CollPart) (s : State) : Option State :=
  let b := s.block p.blk
  let c := CollF.of p.record
  let inC := c.ssp == 2
  let lagers := (s.launch b.launch).lagers
  if lagers && !lagerRoom s b.place.coreNo 8 then none else
  let agent := engAgent b 3 p.num
  let bs := (b.buf inC).data.readN c.src c.inBytes
  let s := updPart i p.blk p.num (fun q => { q with input := bs }) (engReadBuf p.blk inC agent c.src c.inBytes s)
  some (emit lagers b.place.coreNo (engItem s p.blk agent (.contribution i)) s)

/-- The participants of other devices, with what they contribute (log 47). -/
def remoteParts (s : State) (i : Nat) (t : List Byte) (like : CollPart) : List CollPart :=
  ((List.range (tabN t)).filter fun j => !ownDevice s (tabEntry t j)).map fun j =>
    let n := (CollF.of like.record).inBytes
    { like with pos := j, input := (Config.remotePart i j).take n ++ List.replicate (n - (Config.remotePart i j).length) 0
                record := if j = 0 then (((Config.remotePart i j).drop n ++ [0, 0, 0, 0]).take 4) ++ like.record.drop 4 else like.record }

/-- Whether two participants' tables and parameters agree (R434). -/
def partsAgree (p q : CollPart) : Bool :=
  let a := CollF.of p.record
  let b := CollF.of q.record
  crc32 p.table == crc32 q.table && a.op == b.op && a.dtype == b.dtype && a.count == b.count && a.kw == b.kw

/-- Inserts a participant by its position. -/
def insertPart (p : CollPart) : List CollPart → List CollPart
  | [] => [p]
  | q :: t => if p.pos ≤ q.pos then p :: q :: t else q :: insertPart p t

/-- Whether a failed instance has the same table and sequence number. -/
def failedMate (s : State) (p : CollPart) : Bool :=
  let f := CollF.of p.record
  let asid (u : Nat) : Nat := (s.launch (s.block u).launch).desc.asid
  s.colls.any fun x => x.2.failed && x.2.seq == f.seq &&
    x.2.parts.any fun q => (CollF.of q.record).gtab == f.gtab && asid q.blk == asid p.blk

/-- What an instance comes to for a participant: a code, and with it the participants in their order. None while
contributions are awaited. -/
def collReady (s : State) (i : Nat) (c : Coll) (p : CollPart) : Option (Nat × List CollPart) :=
  let n := tabN p.table
  let sent := c.parts.filter fun q => q.sent
  let far := (List.range n).filter fun j => !ownDevice s (tabEntry p.table j)
  if c.failed ∨ failedMate s p ∨ sent.any (fun q => !partsAgree p q) ∨ far.any (fun j => !Config.remoteAgrees i j) then some (1, [])
  else if far.any fun j => (routeOf s (faDevice (tabEntry p.table j))).isNone then some (2, [])
  else
    let all := (sent ++ remoteParts s i p.table p).foldr insertPart []
    if (List.range n).all fun j => all.any fun q => q.pos == j then some (0, all) else none

/-- Delivery to a participant (R437). -/
def deliverColl (i : Nat) (p : CollPart) (code : Nat) (ps : List CollPart) (s : State) : State :=
  let u := p.blk
  let c := CollF.of p.record
  let agent := engAgent (s.block u) 3 p.num
  let out := c.dsp == 2
  let (code, bs, f) := if code ≠ 0 then (code, [], ({} : Flags))
    else collResult i c ps (((s.block u).buf out).data.readN c.dst c.outBytes)
  let s := if code = 0 ∨ code = 3 then engWriteBuf u out agent c.dst bs s else s
  let s := engWriteBuf u false agent (p.off + 5) [BitVec.ofNat 8 f.bits, BitVec.ofNat 8 code] s
  let s := s.updEng u fun e =>
    completeOn 3 p.num (if c.sigEn then countDown c.sigCtr c.sigAmt (3, p.num) e else e)
  let s := updPart i u p.num (fun q => { q with delivered := true }) s
  { s with colls := AMap.modify s.colls i fun x => { x with doneAt := some s.now } }

/-- What one participant's engine can do now. -/
def partStep (i : Nat) (c : Coll) (p : CollPart) (s : State) : Option State :=
  if !partLives s p || p.delivered then none
  else if !p.fetched then
    if p.waitSlot.isSome then none else if c.failed then some (failMates i p s) else refetch i p s
  else if c.failed then some (deliverColl i p 1 [] s)
  else if p.input.isEmpty && !p.sent then contribute i p s
  else if !p.sent then none
  else (collReady s i c p).map fun r => deliverColl i p r.1 r.2 s

/-- The operation of an instance: its first participant's. -/
def Coll.op (c : Coll) : Nat := (c.parts.head?.map fun p => (CollF.of p.record).op).getD 6

/-- A step of a collective of one operation: some participant's engine goes on, by a free choice. -/
def collStep (op : Nat) (name : String) (tag seq : Word) (s : State) : Host.Outcome State Fault Refusal :=
  let l := (s.colls.filter fun x => x.2.tag == tag && x.2.seq == seq && x.2.op == op).flatMap fun x =>
    x.2.parts.filterMap fun p => partStep x.1 x.2 p s
  match l[Config.freeNat s.freeCtr % max l.length 1]? with
  | some t => .next { t with freeCtr := t.freeCtr + 1 }
  | none => .refused (.notEnabled name)

/-- COLL SUM. -/
def execCollSum (tag seq : Word) (s : State) : Host.Outcome State Fault Refusal := collStep 0 "COLL_SUM" tag seq s

/-- COLL MAX. -/
def execCollMax (tag seq : Word) (s : State) : Host.Outcome State Fault Refusal := collStep 1 "COLL_MAX" tag seq s

/-- COLL MIN. -/
def execCollMin (tag seq : Word) (s : State) : Host.Outcome State Fault Refusal := collStep 2 "COLL_MIN" tag seq s

/-- COLL WLMERGE. -/
def execCollWlmerge (tag seq : Word) (s : State) : Host.Outcome State Fault Refusal := collStep 3 "COLL_WLMERGE" tag seq s

/-- COLL ARGMAX. -/
def execCollArgmax (tag seq : Word) (s : State) : Host.Outcome State Fault Refusal := collStep 4 "COLL_ARGMAX" tag seq s

/-- COLL ACCEPT. -/
def execCollAccept (tag seq : Word) (s : State) : Host.Outcome State Fault Refusal := collStep 5 "COLL_ACCEPT" tag seq s

end Sys2Proof.Machine
end

