-- ==== Sys2Proof/Machine/Convert.lean ====
section
/-!
DEFINITION. Family 010, conversion: R36, R37, R39-R44, R214-R218.
-/

namespace Sys2Proof.Machine

/-! ### CVT (R214) -/

/-- Width in bits of a type. -/
def tyWidth : Ty → Nat
  | .f64 => 64
  | .f32 | .i32 | .ui32 => 32
  | .bf16 | .f16 => 16
  | .e4m3 | .e5m2 | .i8 | .ui8 => 8
  | .e2m1 | .i4 => 4

/-- The format of a floating-point type. -/
def tyFmt : Ty → Option Fmt
  | .f64 => some f64
  | .f32 => some f32
  | .bf16 => some bf16
  | .f16 => some f16
  | .e4m3 => some e4m3
  | .e5m2 => some e5m2
  | .e2m1 => some e2m1
  | _ => none

/-- The integer type of any other type. -/
def tyInt (t : Ty) : IFmt := ⟨tyWidth t, match t with | .ui8 | .ui32 => false | _ => true⟩

/-- A source value: floating-point, or an integer. -/
inductive CVal where
  | f (v : FVal)
  | i (x : Int)
deriving DecidableEq, Repr

/-- The value of a source element. -/
def cvtVal (st : Ty) (x : Nat) : CVal :=
  match tyFmt st with
  | some f => .f (f.val x)
  | none => .i (if (tyInt st).signed then sextN x (tyWidth st) else (x : Int))

/-- The bits of the destination and the events (R36, R37). -/
def cvtTo (dt : Ty) (rm : Rm) (ov : CvtSat) (v : CVal) : Nat × Flags :=
  match tyFmt dt, v with
  | some f, .f x => toFloat f rm (ov == .sat) (ov == .nsat) x
  | some f, .i x => toFloat f rm (ov == .sat) (ov == .nsat) (FVal.ofInt x)
  | none, .f x => let (r, fl) := toIntF (tyInt dt) rm x; (lowBits r (tyWidth dt), fl)
  | none, .i x => let (r, fl) := toIntI (tyInt dt) (ov == .sat) x; (lowBits r (tyWidth dt), fl)

/-- A value of one type kept as it is, but for a NaN, which becomes canonical. -/
def cvtSame (t : Ty) (x : Nat) : Nat :=
  match tyFmt t with
  | some f => if (f.val x).isNan then f.nanBits else x
  | none => x

/-- The result for one lane: an immediate stands for its exact integer, whatever the source type. -/
def cvtLane (a : Operand) (dt st : Ty) (rm : Rm) (ov : CvtSat) (el : Nat) (x : DWord) : Nat × Flags :=
  match a with
  | .imm c => cvtTo dt rm ov (.i (immOf c))
  | _ =>
    let e := nbits x.toNat (tyWidth st * el) (tyWidth st)
    if dt = st then (cvtSame st e, {}) else cvtTo dt rm ov (cvtVal st e)

/-- CVT (R214). -/
def execCvt (g : Guard) (d : Dst) (a : Src) (dt st : Ty) (rm : Rm) (ov : CvtSat) (el : Fin 8) (s : State) :
    Host.Outcome State Fault Refusal :=
  let src : SrcSpec := if st = .f64 then srcD a else srcI a
  let f (r : Reading) (l : Fin 32) : Nat × Flags := cvtLane a.op dt st rm ov el.val (Rd.pair (r.at 0) l)
  finish (if dt = .f64 then runPair g [src] d (fun r l => let (x, fl) := f r l; (w64 x, fl)) s
    else runAlu g [src] d (fun r l => let (x, fl) := f r l; (w32 x, fl)) s) s

/-! ### QBLK (R215, R216) -/

def bfmtCode : BFmt → Nat
  | .q4x => 0x01
  | .e2m1 => 0x02
  | .int4 => 0x03
  | .e4m3 => 0x11
  | .e5m2 => 0x12
  | .int8 => 0x13

def bfmt8 : BFmt → Bool
  | .e4m3 | .e5m2 | .int8 => true
  | _ => false

def bfmtEmax : BFmt → Int
  | .e4m3 => 8
  | .e5m2 => 15
  | .int8 => 6
  | _ => 2

/-- The index of the largest magnitude, the lower index first; the elements are not NaN. -/
def argMaxMag (xs : List FVal) : Nat :=
  (xs.zipIdx.foldl (fun (best : FVal × Nat) p =>
    if FVal.cmp best.1 p.1.abs == .lt then (p.1.abs, p.2) else best) ((xs.head?.map FVal.abs).getD (.fin false 0 0), 0)).2

/-- A list less its `n` largest magnitudes. -/
def dropLargest : Nat → List FVal → List FVal
  | 0, xs => xs
  | n + 1, xs => dropLargest n (xs.eraseIdx (argMaxMag xs))

/-- R215: the automatic scale byte. -/
def autoScale (fmt : BFmt) (xs : List FVal) : Nat :=
  if xs.any FVal.isNan then 0xFF else
  let set := if fmt = .q4x then dropLargest 4 xs else xs
  match (set[argMaxMag set]?.getD (.fin false 0 0)).abs with
  | .inf _ => 254
  | .fin _ m e => if m = 0 then 127 else (clampInt ((log2 m : Int) + e - bfmtEmax fmt + 127) 0 254).1.toNat
  | .nan => 0xFF

/-- An element as an integer of a width, clamped (R216). -/
def encInt (rm : Rm) (lo hi : Int) (w : Nat) : FVal → Nat × Flags
  | .nan => (0, { invalid := true })
  | .inf n => (lowBits (if n then lo else hi) w, { sat := true })
  | .fin n m e =>
    let (i, ix) := roundInt rm n m e
    let (c, ch) := clampInt i lo hi
    (lowBits c w, { inexact := ix, sat := ch })

/-- Whether a scaled element is finite and rounds to at most 7 in magnitude. -/
def fits7 (rm : Rm) : FVal → Bool
  | .fin n m e => decide ((roundInt rm n m e).1.natAbs ≤ 7)
  | _ => false

/-- The scan of R216 from slot `i` on. -/
def q4xEnc (rm : Rm) : List FVal → Nat → List Nat × Flags
  | [], _ => ([], {})
  | y :: t, i =>
    if 62 ≤ i ∨ fits7 rm y then
      let (c, f) := encInt rm (-7) 7 4 y
      let (r, fr) := q4xEnc rm t (i + 1)
      (c :: r, f.or fr)
    else
      match t with
      | y1 :: y2 :: t' =>
        let (e, f) := toFloat e4m3 rm true false y
        let (r, fr) := q4xEnc rm t' (i + 3)
        (8 :: e / 16 :: e % 16 :: r, (f.or fr).or { inexact := !(y1.isZero && y2.isZero) })
      | _ => ([], {})

/-- The element codes of a block and their events. -/
def encBlock (fmt : BFmt) (rm : Rm) (s : Nat) (xs : List FVal) : List Nat × Flags :=
  if s = 0xFF then (List.replicate 64 0, {}) else
  let q := xs.map fun x => match x with
    | .fin n m e => FVal.fin n m (e + 127 - s)
    | v => v
  let each (f : FVal → Nat × Flags) : List Nat × Flags :=
    (q.map fun y => (f y).1, q.foldl (fun a y => a.or (f y).2) {})
  match fmt with
  | .q4x => q4xEnc rm q 0
  | .e2m1 => each (toFloat e2m1 rm true false)
  | .e4m3 => each (toFloat e4m3 rm true false)
  | .e5m2 => each (toFloat e5m2 rm true false)
  | .int8 => each (encInt rm (-128) 127 8)
  | .int4 => each (encInt rm (-8) 7 4)

/-- What lane `l` receives of a block. -/
def qblkLane (fmt : BFmt) (s : Nat) (codes : List Nat) (l : Nat) : Word :=
  let lo := codes[2 * l]?.getD 0
  let hi := codes[2 * l + 1]?.getD 0
  w32 (s * 2 ^ 24 + bfmtCode fmt * 2 ^ 16 + (if bfmt8 fmt then hi * 256 + lo else hi * 16 + lo))

/-- The 64 elements that the lanes supply; lanes that are not active supply +0. -/
def qblkElems (m : Mask) (a b : Lanes Word) : List FVal :=
  lanes32.flatMap fun l => if has m l then [fv a[l], fv b[l]] else [.fin false 0 0, .fin false 0 0]

/-- QBLK (R215, R216): its events are those of every element of the block, for an instruction with an active lane. -/
def execQblk (g : Guard) (d : Dst) (a b c : Src) (fmt : BFmt) (rm : Rm) (s : State) : Host.Outcome State Fault Refusal :=
  let m := s.active g
  let blk (r : Reading) : Nat × List Nat × Flags :=
    let xs := qblkElems m (r.w 0) (r.w 1)
    let cw := uval m (r.w 2)
    let sc := if cw.getLsbD 8 then autoScale fmt xs else nbits cw.toNat 0 8
    (sc, encBlock fmt rm sc xs)
  finish (do
    let qs := [srcF a, srcF b, srcU c]
    checkIssue g (opsOf d.op qs) false s
    let r ← readAll g qs s
    let (sc, codes, fl) := blk r
    let t ← commit r [putOf d m (tab fun l => qblkLane fmt sc codes l.val)] s
    pure (if m = 0 then t else setFlags fl t)) s

/-! ### DQBLK (R217) -/

/-- The body bytes that the lanes supply: one byte a lane in the 4-bit class, two in the 8-bit class. -/
def dqblkBody (m : Mask) (c8 : Bool) (a : Lanes Word) : List Byte :=
  lanes32.flatMap fun l =>
    let x : Word := if has m l then a[l] else 0
    if c8 then [x.extractLsb' 0 8, x.extractLsb' 8 8] else [x.extractLsb' 0 8]

/-- An element as FP32. -/
def elemF32 (rm : Rm) (es : List FVal) (i : Nat) : Word × Flags := toF32 rm (es[i]?.getD (.fin false 0 0))

/-- Delivers elements of a decoded block to the lanes, or the strict fault. -/
def deliverBlock (s : State) (m : Mask) (d : Dst) (r : Reading) (hi strict : Bool) (rm : Rm) (es : List FVal) (bad : Bool) :
    Res := do
  trapIf s Kind.blockFormat (if bad && strict then m else 0)
  let v := tab fun l => elemF32 rm es (2 * l.val + hi.toNat)
  let t ← commit r [putOf d m (tab fun l => (v[l]).1)] s
  pure (if m = 0 then t else setFlags ((flagsOn m fun l => (v[l]).2).or { fmterr := bad }) t)

/-- DQBLK (R217). The upper halves of a are a uniform operand. -/
def execDqblk (g : Guard) (d : Dst) (a : Src) (hi : Bool) (rm : Rm) (strict : Bool) (s : State) :
    Host.Outcome State Fault Refusal :=
  finish (do
    let qs := [srcI a]
    checkIssue g (opsOf d.op qs) false s
    let m := s.active g
    let r ← readAll g qs s
    let up := tab fun l => ((r.w 0)[l]) >>> 16
    trapIf s Kind.nonUniform (if perLane a.op && !uniformOn m up then m else 0)
    let h := (uval m up).toNat
    let code := h % 256
    let c8 := decide (code / 16 = 1)
    let (es, bad) := decodeBlock c8 code (h / 256) (dqblkBody m c8 (r.w 0))
    deliverBlock s m d r hi strict rm es bad) s

/-! ### PACK, UNPK (R218) -/

def subBits : SubW → Nat
  | .nib => 4
  | .byte => 8
  | .half => 16

/-- A word with bits [w·n + w − 1 : w·n] replaced. -/
def packW (w n : Nat) (v b : Word) : Word :=
  maskOf fun i => if w * n ≤ i.val ∧ i.val < w * n + w then v.getLsbD (i.val - w * n) else b.getLsbD i.val

/-- PACK's value, clamped under `.sat`. -/
def packVal (w : Nat) (md : IntMode) (a : Word) : Word × Flags :=
  match md with
  | .wrap => (a, {})
  | .sat => let (r, ch) := clampInt a.toInt (-(2 ^ (w - 1))) (2 ^ (w - 1) - 1); (BitVec.ofInt 32 r, { sat := ch })
  | .satU => let (r, ch) := clampInt a.toInt 0 (2 ^ w - 1); (BitVec.ofInt 32 r, { sat := ch })

/-- PACK (R218). -/
def execPack (g : Guard) (d : Dst) (a b : Src) (w : SubW) (n : Fin 8) (md : IntMode) (s : State) :
    Host.Outcome State Fault Refusal :=
  finish (runAlu g [srcI a, srcI b] d (fun r l =>
    let (v, f) := packVal (subBits w) md (r.w 0)[l]
    (packW (subBits w) n.val v (r.w 1)[l], f)) s) s

/-- UNPK's field. -/
def unpkW (w n : Nat) (sg : Bool) (a : Word) : Word :=
  let f := nbits a.toNat (w * n) w
  if sg then BitVec.ofInt 32 (sextN f w) else w32 f

/-- UNPK (R218). -/
def execUnpk (g : Guard) (d : Dst) (a : Src) (w : SubW) (n : Fin 8) (sg : Bool) (s : State) :
    Host.Outcome State Fault Refusal :=
  finish (runInt g [srcI a] d (fun r l => unpkW (subBits w) n.val sg (r.w 0)[l]) s) s

end Sys2Proof.Machine
end

