-- ==== Sys2Proof/Machine/SysReg.lean ====
section
/-!
DEFINITION. Special and system registers (R164, R165, R255 and the maps of the other chapters): RDSR, WRSR, REGISTER_WRITE,
FSHARE_HI with its operation (R252), OVFADD (R258), and the verdicts of FQRESP (R457).
-/

namespace Sys2Proof.Machine

/-! ### The power alarm (R486) -/

/-- The alarm thresholds of the rails in millivolts. -/
def railMin : List Nat := [722, 760, 1140, 1045]

/-- A temperature register as a signed number of sixteenths of a degree. -/
def tempOf (t : BitVec 16) : Int := t.toInt

/-- Whether some cause of the alarm holds. -/
def alarmCause (m : Monitors) : Bool :=
  m.temp.toList.any (fun t => decide ((16 * m.tlim : Int) ≤ tempOf t)) || m.board || m.force ||
    (m.vmon.toList.zip railMin).any fun p => decide (p.1.toNat < p.2)

/-- Whether every temperature is at least 3 degrees below the limit. -/
def cooled (m : Monitors) : Bool := m.temp.toList.all fun t => decide (tempOf t + 48 ≤ (16 * m.tlim : Int))

/-- The alarm of a die rises, with a black-box entry and an interrupt. -/
def raiseAlarm (d : Nat) (s : State) : State :=
  let s := s.updDie d fun x => { x with mon := { x.mon with alarm := true } }
  sendIrq 66 (bbWrite d (bbEnt 0x09 0 0 (agentCode false ⟨0, 0, d, 0, 0⟩ 0 0) 0 0) s)

/-- After a write of PWRALM the alarm rises where a cause holds, and falls where none does and every cluster has cooled. -/
def settleAlarm (d : Nat) (s : State) : State :=
  let m := (s.die d).mon
  if !m.alarm && alarmCause m then raiseAlarm d s
  else if m.alarm && !alarmCause m && cooled m then s.updDie d fun x => { x with mon := { x.mon with alarm := false } }
  else s

/-! ### The maps -/

/-- Numbers of 64-bit registers. -/
def wideReg (n : Nat) : Bool :=
  [0x005, 0x00A, 0x00B, 0x109, 0x140, 0x142, 0x163, 0x164, 0x16C].contains n ||
    (decide (0x130 ≤ n) && decide (n < 0x140) && n % 4 != 3)

/-- Numbers that a chapter defines. -/
def knownReg (n : Nat) : Bool :=
  decide (n ≤ 0x00D) || n == 0x010 || (decide (0x014 ≤ n) && decide (n ≤ 0x017)) || n == 0x0C0 ||
    (decide (0x100 ≤ n) && decide (n ≤ 0x109)) || (decide (0x110 ≤ n) && decide (n ≤ 0x143)) ||
    n == 0x150 || n == 0x151 || (decide (0x160 ≤ n) && decide (n ≤ 0x16C)) ||
    (decide (0x170 ≤ n) && decide (n ≤ 0x17B)) || (decide (0x180 ≤ n) && decide (n ≤ 0x187)) ||
    (decide (0x190 ≤ n) && decide (n ≤ 0x19F))

/-- Numbers that software may write. -/
def writableReg (n : Nat) : Bool :=
  [0x010, 0x0C0, 0x100, 0x101, 0x102, 0x103, 0x106, 0x108, 0x151, 0x166, 0x167, 0x168, 0x16B, 0x16C, 0x185, 0x187].contains n ||
    (decide (0x110 ≤ n) && decide (n ≤ 0x12F)) || (decide (0x190 ≤ n) && decide (n ≤ 0x19F))

/-- Numbers whose map limits reads to the secure world (R164). IFTCTL and PWRALM may be read from both (R111, R485). -/
def secureRead (n : Nat) : Bool :=
  [0x100, 0x101, 0x102, 0x103, 0x106, 0x151, 0x166, 0x167, 0x168, 0x16B, 0x16C, 0x187].contains n ||
    (decide (0x110 ≤ n) && decide (n ≤ 0x12F)) || (decide (0x190 ≤ n) && decide (n ≤ 0x19F))

/-- Numbers whose map limits writes to the secure world. -/
def secureWrite (n : Nat) : Bool := secureRead n || n == 0x0C0 || n == 0x185

/-! ### Reading -/

/-- The mode of an array: one that runs no task takes on the alarm at once (R317). -/
def inNarrow (s : State) (core : Nat) : Bool :=
  let k := (s.core core).body
  if k.arrayFree then (s.die (core / 48)).mon.alarm else k.array.narrow

/-- R165. -/
def engst (s : State) (b : Block) : Nat :=
  (inNarrow s b.place.coreNo).toNat +
    ((List.range 5).map fun i => ((b.eng.tl[i]?.any Ctx.busy)).toNat * 2 ^ (i + 1)).foldl (· + ·) 0

/-- GNLST (R492). -/
def gnlst (g : Gnl) : Nat := g.bootFail.toNat * 2 ^ 31 + g.state * 2 ^ 16 + g.retrains * 2 ^ 8 + g.lanes

/-- PWRALM (R485). -/
def pwralm (m : Monitors) : Nat := m.tlim * 2 ^ 24 + m.alarm.toNat * 2 ^ 23 + m.board.toNat * 2 ^ 22 + m.force.toNat

/-- A register of a die or of the package. -/
def dieReg (s : State) (d n : Nat) : Nat :=
  let di := s.die d
  if n = 0x0C0 then di.iftPeriod * 2 ^ 16 + di.iftEnable.toNat
  else if n = 0x100 then s.asidBase.toNat
  else if n = 0x101 then s.ftBase.toNat
  else if n = 0x104 then di.fsh.outcome * 2 + di.fsh.busy.toNat
  else if n = 0x105 then di.vatcfg.toNat
  else if n = 0x107 then di.ovfPool.length
  else if 0x110 ≤ n ∧ n ≤ 0x12F then
    if n % 2 = 0 then (di.srb[(n - 0x110) / 2]?.getD 0).toNat else (di.srl[(n - 0x110) / 2]?.getD 0).toNat
  else if n = 0x150 then s.fabid.toNat
  else if n = 0x151 then s.frtBase.toNat
  else if n = 0x166 then di.saveBase.toNat
  else if n = 0x167 then di.saveLen.toNat
  else if n = 0x169 then di.fq.length
  else if n = 0x16B then di.frozen.toNat * 2 ^ 31 + di.autofreeze.toNat * 2 ^ 30 + di.bbHead
  else if n = 0x16C then di.bbHost.toNat
  else if 0x170 ≤ n ∧ n ≤ 0x17B then (di.mon.temp[n - 0x170]?.getD 0).toNat
  else if 0x180 ≤ n ∧ n ≤ 0x183 then (di.mon.vmon[n - 0x180]?.getD 0).toNat
  else if n = 0x184 then di.mon.pmon.toNat
  else if n = 0x185 then pwralm di.mon
  else if n = 0x186 then gnlst s.gnl
  else if n = 0x187 then s.gnl.holdDown.toNat
  else if 0x190 ≤ n ∧ n ≤ 0x19F then
    if n % 2 = 0 then (s.hdmb[(n - 0x190) / 2]?.getD 0).toNat else (s.hdms[(n - 0x190) / 2]?.getD 0).toNat
  else 0

/-- A register as a lane of the issuing warp reads it. -/
def readReg (s : State) (n : Nat) (l : Fin 32) : Nat :=
  let b := s.curBlock
  let w := s.curWarp
  let d := s.curLaunch.desc
  let i := b.place.index
  if n = 0x000 then l.val
  else if n = 0x001 then s.cur.warp
  else if n = 0x002 then i % max d.gridX 1
  else if n = 0x003 then i / max d.gridX 1 % max d.gridY 1
  else if n = 0x004 then i / (max d.gridX 1 * max d.gridY 1)
  else if n = 0x005 then d.blocks
  else if n = 0x006 then b.place.core
  else if n = 0x007 then b.place.core / 4
  else if n = 0x008 then b.place.die
  else if n = 0x009 then w.ord.ops.length
  else if n = 0x00A ∨ n = 0x00B then s.now
  else if n = 0x00C then engst s b
  else if n = 0x00D then d.world.toNat
  else if n = 0x010 then w.reg.nstat.toNat
  else if n = 0x014 then 0x3F
  else if n = 0x108 then b.eng.tmiss.toNat
  else if n = 0x109 then b.eng.tmva.toNat
  else if 0x130 ≤ n ∧ n < 0x140 then
    let f := (b.eng.fw[(n - 0x130) / 4]?.getD { old := 0, new := 0, total := 0, moved := 0, st := 0 })
    if n % 4 = 0 then f.old.toNat else if n % 4 = 1 then f.new.toNat
    else if n % 4 = 2 then f.total.toNat * 2 ^ 32 + f.moved.toNat else f.st
  else if n = 0x140 then w.trap.raceVa.toNat
  else if n = 0x141 then w.trap.raceP.toNat
  else if n = 0x142 then w.trap.raceT.toNat
  else if n = 0x143 then w.trap.raceK.toNat
  else if n = 0x160 then w.trap.info.toNat
  else if n = 0x161 then w.trap.code.toNat
  else if n = 0x162 then w.trap.mask.toNat
  else if n = 0x163 then w.trap.pc.toNat
  else if n = 0x164 then w.trap.va.toNat
  else if n = 0x165 then w.trap.path.toNat
  else if n = 0x16A then (s.core b.place.coreNo).strikes.toNat
  else dieReg s b.place.die n

/-- The value that RDSR delivers: 0 from a register of the other world. -/
def regValue (s : State) (n : Nat) (l : Fin 32) : DWord :=
  if secureRead n && !s.curLaunch.desc.world then 0 else w64 (readReg s n l)

/-- RDSR. -/
def execRdsr (g : Guard) (d : Operand) (num : BitVec 12) (wide : Bool) (s : State) : Host.Outcome State Fault Refusal :=
  finish (do
    checkIssue g [d] false s
    let n := num.toNat
    trapIf s Kind.illegal (if knownReg n && (!wide || wideReg n) then 0 else s.members)
    let m := s.active g
    let r ← readAll g [] s
    let lo : Put := ⟨d, 0, m, tab fun l => lo32 (regValue s n l)⟩
    let hi : Put := ⟨nextReg d 1, 0, m, tab fun l => hi32 (regValue s n l)⟩
    commit r (if wide then [lo, hi] else [lo]) s) s

/-! ### FSHARE (R252) -/

/-- The frame-table entry of a leaf. -/
def ftEntry (s : State) (rcidx : Nat) : Nat := s.ftBase.toNat * 2 ^ 20 + 8 * rcidx

/-- The address of the new sharer's leaf. -/
def fsharePte (d : Nat) (v : Word) (s : State) : Nat := nbits v.toNat 0 20 * 2 ^ 32 + (s.die d).fsh.lo.toNat / 8 * 8

/-- The address of the count that an operation raises. -/
def fshareCount (d : Nat) (v : Word) (s : State) : Nat := ftEntry s (nbits (read8 s (fsharePte d v s)) 48 16)

/-- Whether an operation waits at its home for an atomic on the leaf or the count to commit (R412). -/
def fshareHeld (d : Nat) (v : Word) (s : State) : Bool :=
  !(s.die d).fsh.busy && (spanHeld s (fsharePte d v s) 8 || spanHeld s (fshareCount d v s) 2)

/-- Starts an operation: none while the write that it makes waits for an overflow page. -/
def fshareStart (d : Nat) (v : Word) (s : State) : Option State :=
  let f := (s.die d).fsh
  if f.busy then some s else
  let hi := v.toNat
  let pte := fsharePte d v s
  let size := nbits hi 20 2
  let e := read8 s pte
  let rc := nbits e 48 16
  let done (o : Nat) (s : State) : State := s.updDie d fun x => { x with fsh := { x.fsh with hi := v, outcome := o } }
  if !nbit e 0 || !nbit e 1 || rc == 0 || decide (1 < size) then some (done 2 s) else
  let cnt := leNat (s.mem.readN (ftEntry s rc) 2)
  if cnt < 65535 then (performBytes s (at_ (ftEntry s rc) (toLe 2 (cnt + 1)))).map (done 0)
  else
    let lg := if size = 0 then 16 else 21
    match s.snapPool.find? fun p => p.2 == lg with
    | none => some (done 3 s)
    | some (frame, _) =>
      some (({ s with snapPool := s.snapPool.erase (frame, lg) }).updDie d fun x =>
        { x with fsh := { x.fsh with hi := v, busy := true, pte := some (pte, frame, e) } })

/-- FSHARE_HI: a write that has reached the register. -/
def execFshareHi (die : Fin 4) (secure : Bool) (v : Word) (s : State) : Host.Outcome State Fault Refusal :=
  if !secure then .next s
  else if fshareHeld die.val v s then .refused (.notEnabled "FSHARE_HI") else
  let count := fshareCount die.val v s
  match (fshareStart die.val v s).or (overflowAt (lackAt s (at_ count (s.mem.readN count 2))) s) with
  | some t => .next t
  | none => .refused (.notEnabled "FSHARE_HI")

/-- FSHARE_OPERATION_END: the page is copied, and the leaf becomes private. -/
def execFshareOperationEnd (die : Fin 4) (s : State) : Host.Outcome State Fault Refusal :=
  match (s.die die.val).fsh.pte with
  | none => .refused (.notEnabled "FSHARE_OPERATION_END")
  | some (pte, frame, e) =>
    let lg := if nbits (s.die die.val).fsh.hi.toNat 20 2 = 0 then 16 else 21
    let src := nbits e 12 36 * 2 ^ 16
    let e' := e % 2 ^ 12 + frame / 2 ^ 16 * 2 ^ 12
    if spanHeld s src (2 ^ lg) || spanHeld s pte 8 then .refused (.notEnabled "FSHARE_OPERATION_END") else
    let made := copyPage src frame (2 ^ lg) s
    match made.bind fun s => performBytes s (at_ pte (toLe 8 e')) with
    | none =>
      match overflowAt (match made with | none => frame | some u => lackAt u (at_ pte (toLe 8 e'))) s with
      | some t => .next t
      | none => .refused (.notEnabled "FSHARE_OPERATION_END")
    | some t => .next (t.updDie die.val fun x => { x with fsh := { x.fsh with busy := false, outcome := 1, pte := none } })

/-! ### OVFADD (R258) -/

/-- Adds the 4,096 overflow pages of a 1 MiB block. -/
def addOverflow (d : Nat) (v : Word) (s : State) : State :=
  s.updDie d fun x => { x with
    ovfPool := x.ovfPool ++ (List.range 4096).map fun i => v.toNat * 2 ^ 20 + 256 * i
    ovfWait := false }

/-- OVFADD. -/
def execOvfadd (die : Fin 4) (secure : Bool) (v : Word) (s : State) : Host.Outcome State Fault Refusal :=
  .next (if secure then addOverflow die.val v s else s)

/-! ### Verdicts (R457, R189) -/

/-- A copy request that a verdict ends with TRANSLATION. -/
def copyAnswer (core id : Nat) (retry : Bool) (s : State) : State :=
  s.updBody core fun k => { k with copies := k.copies.map fun c =>
    if c.id = id then { c with waitSlot := none, finished := if retry then c.finished else some 2 } else c }

/-- The head attention task after a verdict: it runs again, or retires. -/
def attnAnswer (core : Nat) (retry : Bool) (s : State) : State :=
  s.updBody core fun k => { k with attnRun := if retry then none else k.attnRun.map fun r =>
    { r with
      computed := true, code := 4, flags := (k.attn.head?.map missFlag).getD 0, kread := 0, tmpage := 0, out := []
      waitSlot := none } }

/-- A collective's table read after a verdict. -/
def collAnswer (inst blk : Nat) (retry : Bool) (s : State) : State :=
  { s with colls := AMap.modify s.colls inst fun c => { c with
      failed := c.failed || !retry
      parts := c.parts.map fun p => if p.blk = blk then { p with waitSlot := none } else p } }

/-- The block a poster belongs to, its agent and its die's terminate type. -/
def failPoster (p : Poster) (kind : Nat) (va : DWord) (s : State) : State :=
  match p with
  | .warp u wn _ _ =>
    let w := AMap.getD (s.block u).warps wn default
    terminate u (if w.lane.inHandler != 0 then 0x02 else 0x03) kind (warpAgent (s.block u) wn) va s
  | .refill u wn => terminate u 0x03 kind (warpAgent (s.block u) wn) va s
  | .copy core id =>
    match (s.core core).body.copies.find? fun c => c.id == id with
    | some c => match c.kick.owner with
      | .blk u => terminate u 0x03 kind (engAgent (s.block u) 0 c.kick.num) va s
      | .node _ _ => copyAnswer core id false s
    | none => s
  | .attn core =>
    match (s.core core).body.attn with
    | a :: _ => terminate a.blk 0x03 kind (engAgent (s.block a.blk) 2 a.num) va s
    | [] => s
  | .coll inst blk =>
    let num := (((AMap.get? s.colls inst).bind fun c => c.parts.find? fun p => p.blk == blk).map fun p => p.num).getD 0
    terminate blk 0x03 kind (engAgent (s.block blk) 3 num) va s

/-- A split goes on after its fault has been answered. -/
def wakeSplit (u wn k : Nat) (s : State) : State := s.updWarpOf u wn fun w => w.settle k

/-- The answer to one entry of a die's queue. -/
def answerFault (d slot verdict : Nat) (s : State) : State :=
  match AMap.get? (s.die d).fq slot with
  | none => s
  | some e =>
    if !e.read ∨ 3 ≤ verdict then s else
    let s := s.updDie d fun x => Die.promote { x with fq := AMap.erase x.fq slot } 64
    let kind := nbits (e.words[3]).toNat 24 8
    let va := w64 ((e.words[2]).toNat + nbits (e.words[3]).toNat 0 24 * 2 ^ 32)
    if verdict = 2 then failPoster e.poster kind va s else
    match e.poster with
    | .warp u wn k q =>
      let c : Cursor := ⟨u, wn, k⟩
      -- a BREAK or TRAP is complete now (R189); another instruction comes again
      let after := if q.kind = Kind.translation then s else advanceAt c s
      if verdict = 0 then
        let t := wakeSplit u wn k after
        if q.kind = Kind.translation then t else trapEnds u wn t
      else if (AMap.getD (s.block u).warps wn default).lane.inHandler != 0 then doubleFault c q s
      else wakeSplit u wn k (enterTrap c q none after)
    | .refill u wn => if verdict = 0 then autoRefill u wn s else failPoster e.poster kind va s
    | .copy core id => copyAnswer core id (verdict == 0) s
    | .attn core => attnAnswer core (verdict == 0) s
    | .coll inst blk => collAnswer inst blk (verdict == 0) s

/-- Answers that come from the control core's firmware. -/
def answerStep (die : Fin 4) (slot : Fin 64) (verdict : Nat) (name : String) (s : State) :
    Host.Outcome State Fault Refusal :=
  match AMap.get? (s.die die.val).fq slot.val with
  | none => .refused (.notEnabled name)
  | some e => if e.read then .next (answerFault die.val slot.val verdict s) else .refused (.notEnabled name)

/-- FQRESP with verdict retry. -/
def execFqrespRetry (die : Fin 4) (slot : Fin 64) (s : State) : Host.Outcome State Fault Refusal :=
  answerStep die slot 0 "FQRESP_RETRY" s

/-- FQRESP with verdict deliver. -/
def execFqrespDeliver (die : Fin 4) (slot : Fin 64) (s : State) : Host.Outcome State Fault Refusal :=
  answerStep die slot 1 "FQRESP_DELIVER" s

/-- FQRESP with verdict fail. -/
def execFqrespFail (die : Fin 4) (slot : Fin 64) (s : State) : Host.Outcome State Fault Refusal :=
  answerStep die slot 2 "FQRESP_FAIL" s

/-! ### Writing -/

/-- The link after a write to GNLCTL (R493). A recovery moves it from DOWN to DETECT. -/
def gnlRecover (s : State) : State :=
  if s.gnl.state != 4 || s.gnl.holdDown then s else
  bbWrite 0 (bbEnt 0x08 0 0 0 0 0) { s with gnl := { s.gnl with state := 0, since := s.now, recovering := true } }

/-- RECOVER. -/
def execRecover (secure : Bool) (s : State) : Host.Outcome State Fault Refusal :=
  .next (if secure then gnlRecover s else s)

/-- R469: the frozen bit, whose rise interrupts the host. -/
def writeBbctl (d : Nat) (v : Nat) (s : State) : State :=
  let s := if nbit v 31 then freeze d s else s.updDie d fun x => { x with frozen := false }
  s.updDie d fun x => { x with autofreeze := nbit v 30 }

/-- Writes a register of a die or the package, past its world check. -/
def writeDieReg (d n : Nat) (v : DWord) (s : State) : State :=
  let x := v.toNat
  let w := lo32 v
  if n = 0x0C0 then s.updDie d fun y => { y with
    iftEnable := nbit x 0
    iftPeriod := if 60 ≤ nbits x 16 16 ∧ nbits x 16 16 ≤ 3600 then nbits x 16 16 else y.iftPeriod }
  else if n = 0x100 then { s with asidBase := w }
  else if n = 0x101 then { s with ftBase := w }
  else if n = 0x102 then s.updDie d fun y => { y with fsh := { y.fsh with lo := w } }
  else if n = 0x106 then addOverflow d w s
  else if 0x110 ≤ n ∧ n ≤ 0x12F then
    if n % 2 = 0 then s.updDie d fun y => { y with srb := y.srb.setIfInBounds ((n - 0x110) / 2) w }
    else s.updDie d fun y => { y with srl := y.srl.setIfInBounds ((n - 0x110) / 2) (w &&& 0x7FFFFFFF#32) }
  else if n = 0x151 then { s with frtBase := w }
  else if n = 0x166 then s.updDie d fun y => { y with saveBase := w }
  else if n = 0x167 then s.updDie d fun y => { y with saveLen := w }
  else if n = 0x168 then answerFault d (nbits x 0 6) (nbits x 8 2) s
  else if n = 0x16B then writeBbctl d x s
  else if n = 0x16C then s.updDie d fun y => { y with bbHost := v }
  else if n = 0x185 then settleAlarm d (s.updDie d fun y => { y with mon := { y.mon with
    force := nbit x 0
    tlim := if 60 ≤ nbits x 24 8 ∧ nbits x 24 8 ≤ 110 then nbits x 24 8 else y.mon.tlim } })
  else if n = 0x187 then
    let s := { s with gnl := { s.gnl with holdDown := nbit x 0 } }
    if nbit x 1 then gnlRecover s else s
  else if 0x190 ≤ n ∧ n ≤ 0x19F then
    if n % 2 = 0 then { s with hdmb := s.hdmb.setIfInBounds ((n - 0x190) / 2) (w &&& 0x80003FFF#32) }
    else { s with hdms := s.hdms.setIfInBounds ((n - 0x190) / 2) (w &&& 0x3FFF#32) }
  else s

/-- R231: TMISS clears its count where a 1 is written. -/
def writeTmiss (v : Word) (e : BlkEng) : BlkEng :=
  if v.toNat / 2 ^ 16 = 0 then e else { e with tmiss := e.tmiss &&& 0xFFFF#32 }

/-- A write by the issuing warp. FSHARE_HI leaves as a store does. -/
def writeReg (n : Nat) (v : Word) (s : State) : State :=
  if secureWrite n && !s.curLaunch.desc.world then s
  else if n = 0x010 then s.updReg fun r => { r with nstat := r.nstat &&& ~~~ v }
  else if n = 0x108 then s.updEng s.cur.blk (writeTmiss v)
  else if n = 0x103 then emit s.curLaunch.lagers s.curCore (s.outItem (.fshare v) none none 0) s
  else writeDieReg s.curBlock.place.die n (v.setWidth 64) s

/-- What a write waits for: FQRESP for the warp's earlier accesses (R457), FSHARE_HI for room in the lager buffer. -/
def writeWaits (n : Nat) (s : State) : Bool :=
  (n == 0x168 && s.curLaunch.desc.world && (!s.curWarp.ord.ops.isEmpty || warpPending s fun _ => true)) ||
    (n == 0x103 && s.curLaunch.lagers && !lagerRoom s s.curCore 8)

/-- WRSR. A 64-bit register takes the operand zero-extended. -/
def execWrsr (g : Guard) (a : Operand) (num : BitVec 12) (s : State) : Host.Outcome State Fault Refusal :=
  finish (do
    checkIssue g [a] false s
    let n := num.toNat
    trapIf s Kind.illegal (if writableReg n then 0 else s.members)
    let m := s.active g
    let r ← readAll g [opU a] s
    if m = 0 then commit r [] s else do
      stallIf (writeWaits n s)
      let t ← commit r [] s
      pure (writeReg n (uval m (r.w 0)) t)) s

/-- Registers that a write only stores into: the others have steps of their own, or belong to a warp or a block. -/
def storedReg (n : Nat) : Bool :=
  writableReg n && !([0x010, 0x103, 0x106, 0x108, 0x168] : List Nat).contains n

/-- REGISTER_WRITE: by firmware, outside any warp. -/
def execRegisterWrite (die : Fin 4) (num : BitVec 12) (secure : Bool) (v : DWord) (s : State) :
    Host.Outcome State Fault Refusal :=
  if !storedReg num.toNat then .refused (.notEnabled "REGISTER_WRITE")
  else .next (if secureWrite num.toNat && !secure then s else writeDieReg die.val num.toNat v s)

end Sys2Proof.Machine
end

