-- ==== Sys2Proof/Machine/Home.lean ====
section
/-!
DEFINITION. Output at its home: the races found when it leaves (R419), the order in which it is performed (R407, R410, R431),
and what each kind of it does there (R278, R279, R392, R411, R412, R464).
-/

namespace Sys2Proof.Machine

/-! ### Races of output (R414, R417, R419) -/

/-- The agent and instant of an item. -/
def OutItem.acc (o : OutItem) : Acc := ⟨⟨o.blk, o.warp, o.agent⟩, o.t, true, o.atom⟩

/-- The buffer words that an item writes: the block, which buffer, and the words. -/
def bufWords (k : OutKind) : Option (Nat × Bool × List Nat) :=
  match k with
  | .window v c _ l => some (v, c, (l.map fun p => p.1 / 4).eraseDups)
  | .windowAtom v c off _ _ _ _ _ => some (v, c, [off / 4])
  | _ => none

/-- The race that an item meets, and what is watched when it is made again. Engine output is not checked. -/
def itemRace (s : State) (o : OutItem) : Option (RaceWith × Nat) :=
  if agEngine o.agent then none else
  match bufWords o.kind with
  | some (v, c, ws) => ws.findSome? fun w => (checkGran s o.acc (some o.t) v c w).map fun x => (x, windowKey v c (4 * w))
  | none => (itemWords o.kind).findSome? fun w =>
      if inTier0 s (4 * w) then (checkWord s o.acc (some o.t) w).map fun x => (x, w / 16) else none

/-- The record of an item's access; that of a block's buffer stays through a rollback of the block, as the access does. -/
def recordItem (o : OutItem) (s : State) : State :=
  match bufWords o.kind with
  | some (v, c, ws) =>
    lasting v (fun s => ws.foldl (fun t w => recordGran t v c o.agent o.t true o.atom w) s) s
  | none =>
    let ws := (itemWords o.kind).filter fun w => inTier0 s (4 * w)
    recordWords s o.agent s.instant o.t true o.atom ws

/-- An item that entered the records as it left the core, at `t0`, stands there with the instant at which it is performed
(R407). -/
def restamp (o : OutItem) (t0 : Nat) (s : State) : State :=
  match bufWords o.kind with
  | some (v, c, ws) => lasting v (gransPerformed v c o.agent t0 ws) s
  | none => linesPerformed o.agent t0 (itemWords o.kind) s

/-! ### Order -/

/-- Places that two items must be performed in order at: words, buffer words, and, for messages, the die (R431). -/
def itemPlaces (o : OutItem) : List Nat :=
  match o.kind with
  | .message _ => [2 ^ 61 + o.die]
  | k => match bufWords k with
    | some (v, c, ws) => ws.map fun w => 2 ^ 60 + (2 * v + c.toNat) * 2 ^ 18 + w
    | none => itemWords k

/-- Whether an item only moves data: its order with other data of its warp is free. -/
def OutKind.isData : OutKind → Bool
  | .store .. | .red .. | .hostAtom .. | .window .. | .windowAtom .. => true
  | _ => false

/-- Whether an item makes a release: a release store or atomic, or an arrival (R391). -/
def OutItem.releases (o : OutItem) : Bool :=
  o.rel.isSome || match o.kind with
    | .arrival _ _ => true
    | _ => false

/-- Whether an item is performed only after an earlier one (R410): messages of a die keep the order in which they left (R431);
of one core, on the same place; where the later makes a release, which is cumulative (R391, log 145); of one warp where either
is no mere data, or both are atomics; and an engine's after its block's warps'. -/
def comesAfter (e o : OutItem) : Bool :=
  (itemPlaces o).any (fun x => decide (2 ^ 61 ≤ x) && (itemPlaces e).contains x) ||
  (o.die == e.die && o.core == e.core &&
    (o.releases || (itemPlaces o).any (fun x => (itemPlaces e).contains x) ||
      (o.blk == e.blk &&
        ((o.warp == 16 && e.warp != 16) ||
          (o.warp == e.warp && (!o.kind.isData || !e.kind.isData || (e.atom.isSome && o.atom.isSome)))))))

/-- The items in flight that nothing earlier holds back; a leave is acknowledged by a step of its own. -/
def readyItems : List OutItem → List OutItem → List OutItem
  | _, [] => []
  | before, o :: t =>
    (if o.kind == .leave || before.any fun e => comesAfter e o then [] else [o]) ++ readyItems (before ++ [o]) t

/-! ### Performing (R407) -/

/-- Whether an item waits at its home: for another core's quarantine or the link (R412, R492), for a saved block to resume
(R239), and an atomic that would read a granule its owner wrote lately, for that epoch to commit (R238). -/
def itemHeld (s : State) (o : OutItem) : Bool :=
  (itemWords o.kind).any (fun w => quarantined s (48 * o.die + o.core) (4 * w) || linkWaits s (4 * w)) ||
    (match bufWords o.kind with
      | some (v, _, _) => (s.block v).state == .saved
      | none => false) ||
    (match o.kind with
      | .windowAtom v c off _ _ _ _ _ => windowYoung s o.blk v c off 4
      | .fshare v => fshareHeld o.die v s
      | _ => false)

/-- A release made as output is performed. -/
def releaseItem (o : OutItem) (s : State) : State :=
  match o.rel with
  | some sc => lasting o.blk (releaseAt (.scope sc) o.blk o.warp) s
  | none => s

/-- Bytes of host memory are lost while the link is DOWN. -/
def keptBytes (s : State) (l : List (Nat × Byte)) : List (Nat × Byte) :=
  if s.gnl.state = 4 then l.filter fun p => !isHost s p.1 else l

/-- The words of an atomic at one place, lane by lane. -/
def atomArgs (a : Nat) (xs : List (Fin 32 × Word × Word)) : List (Fin 32 × Nat × Word × Word) :=
  xs.map fun x => (x.1, a, x.2.1, x.2.2)

/-- Old values come back for the split that waits; with the last of the operation's the acquire is made (R276), and the split
goes on. -/
def atomReturns (u wn op : Nat) (olds : List (Fin 32 × Word)) (last : Bool) (s : State) : State :=
  let w := AMap.getD (s.block u).warps wn default
  match w.splits.find? fun p => match p.2.wait with
    | .atomic n _ _ => n == op
    | _ => false with
  | none => s
  | some (k, sp) =>
    match sp.wait with
    | .atomic _ d acq =>
      let s := fillLate u wn d (maskOf fun l => olds.any fun p => p.1 == l) (tab fun l =>
        match olds.find? fun p => p.1 == l with
        | some p => p.2
        | none => 0) s
      if !last then s else
      let s := s.updWarpOf u wn fun x => x.settle k
      match acq with
      | some sc => acquireAt sc u wn s
      | none => s
    | _ => s

/-- Whether an item is the last of its operation in flight or in the lager buffer. -/
def lastOfOp (s : State) (o : OutItem) (op : Nat) : Bool :=
  ((pendingOf s (48 * o.die + o.core)).filter (bringsBack o.blk o.warp op)).length ≤ 1

/-- An atomic on host memory. While the link is DOWN its old value is uncorrectable data, which ends the block (R260). -/
def hostPerforms (o : OutItem) (pa : Nat) (op : Option AtomOp) (xs : List (Fin 32 × Word × Word)) (num : Nat)
    (d : Option Dst) (s : State) : Option State :=
  if s.gnl.state = 4 then
    some (if d.isSome then terminate o.blk 0x06 Kind.uncorrectable o.agent (w64 pa) s else s)
  else
    let (olds, words, f) := atomFold op (fun a => w32 (leNat (s.mem.readN a 4))) (atomArgs pa xs)
    (performBytes s (wordBytes words)).map fun t =>
      lasting o.blk (fun t => atomReturns o.blk o.warp num olds (lastOfOp s o num) (flagWarp o.blk o.warp f t)) t

/-- An atomic on another core's buffer. What a committed item does there stays through a rollback of the member (R235, R238). -/
def windowPerforms (o : OutItem) (v : Nat) (c : Bool) (off : Nat) (op : Option AtomOp) (xs : List (Fin 32 × Word × Word))
    (num : Nat) (s : State) : State :=
  let start (a : Nat) : Word := w32 (leNat (((s.block v).buf c).data.readN a 4))
  let (olds, words, f) := atomFold op start (atomArgs off xs)
  let t := lasting v (fun s => words.foldl (fun t p => writeBuf v c (at_ p.1 (toLe 4 p.2.toNat)) t) s) s
  lasting o.blk (fun t => atomReturns o.blk o.warp num olds (lastOfOp s o num) (flagWarp o.blk o.warp f t)) t

/-- A `RED` at its home. Uncorrectable data there leaves the word unchanged and ends the launch (R280, R260). -/
def redPerforms (o : OutItem) (pa : Nat) (op : AtomOp) (xs : List Word) (s : State) : Option State :=
  if anyPoison s pa 4 && !isHost s pa then some (terminate o.blk 0x06 Kind.uncorrectable o.agent o.va s) else
  let start := w32 (leNat (s.mem.readN pa 4))
  let (new, f) := xs.foldl (fun acc x => let (w, g) := atomNew op acc.1 x; (w, acc.2.or g)) (start, {})
  (performBytes s (keptBytes s (at_ pa (toLe 4 new.toNat)))).map fun t => lasting o.blk (flagWarp o.blk o.warp f) t

/-- An arrival is counted (R392); the checkpoints learn of it too. -/
def arrivalPerforms (o : OutItem) (b : Bar) (lanes : Mask) (s : State) : State :=
  let s := s.ticked
  let count (t : State) : State := t.updWarpOf o.blk o.warp fun w =>
    let f := barFlags w b
    { w with ord := pushRelease ⟨s.instant, .bar b⟩ { w.ord with
        bars := AMap.set w.ord.bars (barKey b) { f with counted := f.counted ||| (lanes &&& f.arrived) } } }
  countArrival o.blk o.warp b lanes (inCkpts o.blk count s)

/-- What an item does. None while it must wait. -/
def itemEffect (o : OutItem) (s : State) : Option State :=
  match o.kind with
  | .store _ l => performBytes s (keptBytes s l)
  | .red pa op xs _ => redPerforms o pa op xs s
  | .hostAtom pa op xs num d => hostPerforms o pa op xs num d s
  | .window v c _ l => some (lasting v (writeBuf v c l) s)
  | .windowAtom v c off op xs _ num _ => some (windowPerforms o v c off op xs num s)
  | .arrival b lanes => some (arrivalPerforms o b lanes s)
  | .message m => some { s with msgs := s.msgs ++ [m] }
  | .contribution i => some { s with colls := AMap.modify s.colls i fun c =>
      { c with parts := c.parts.map fun p => if p.blk = o.blk then { p with sent := true } else p } }
  | .post off pred ctr num budget _ => some (pushCall o.die (.post o.blk off ctr num pred budget) s)
  | .join g op => some (joinLeaves o.blk o.warp g op s)
  | .leave => none
  | .fshare v => fshareStart o.die v s
  | .bblog code asid data => some (bbWrite o.die (bbEnt (0x40 + code) 0 asid o.agent data 0) s)

/-- What an item that has been performed leaves in the copies of its core (R228, R409). -/
def homeBytes (s : State) (k : OutKind) : List (Nat × Byte) :=
  match k with
  | .store _ l => l
  | .red pa _ _ _ | .hostAtom pa _ _ _ _ => at_ pa (s.mem.readN pa 4)
  | _ => []

/-- The bytes that an item writes at a home, with what they are now where they are computed there. -/
def waitBytes (s : State) (o : OutItem) : List (Nat × Byte) :=
  match o.kind with
  | .store _ l => keptBytes s l
  | .fshare v => at_ (fshareCount o.die v s) (s.mem.readN (fshareCount o.die v s) 2)
  | k => homeBytes s k

/-- A home that cannot perform an item for want of an overflow page says so once (R258). -/
def overflowNote (o : OutItem) (s : State) : Option State := overflowAt (lackAt s (waitBytes s o)) s

/-- An item in flight is performed. With lagering off its races are found here, and end the launch (R419). -/
def performItem (o : OutItem) (s : State) : Option State :=
  if itemHeld s o then none else
  let race := if o.left.isSome then none else itemRace s o
  match race with
  | some _ => some (terminate o.blk 0x11 Kind.memoryModel o.agent o.va { s with inflight := s.inflight.erase o })
  | none =>
    match itemEffect o s with
    | some t =>
      let t := writeThrough (48 * o.die + o.core) (homeBytes t o.kind) { t with inflight := t.inflight.erase o }
      some (releaseItem o (match o.left with
        | some t0 => restamp o t0 t
        | none => recordItem o t))
    | none => overflowNote o s

/-- STORE_PERFORMED_AT_HOME: one of the items that may come next, by a free choice. -/
def execStorePerformedAtHome (s : State) : Host.Outcome State Fault Refusal :=
  let l := (readyItems [] s.inflight).filterMap fun o => performItem o s
  match l[Config.freeNat s.freeCtr % max l.length 1]? with
  | some t => .next { t with freeCtr := t.freeCtr + 1 }
  | none => .refused (.notEnabled "STORE_PERFORMED_AT_HOME")

end Sys2Proof.Machine
end

