-- ==== Sys2Proof/Machine/System.lean ====
section
/-!
DEFINITION. Family 111, system instructions: TRAPRET (R470), TLBIR and TLBACK with the acknowledgements (R471, R249), ERRQ
(R472) and BBLOG (R473).
-/

namespace Sys2Proof.Machine

/-! ### Return from a trap -/

/-- Where the lanes of a handler resume: the trap's instruction, or the next one (R470, R189). -/
def resumePc (s : State) (u : Nat) (t : TrapState) (skip : Bool) : Pc :=
  let hdr := (t.pc.extractLsb' 0 32).toNat
  let idx := (t.pc.extractLsb' 32 4).toNat
  let kind := (t.info.extractLsb' 24 8).toNat
  if skip ∨ kind = Kind.software ∨ kind = Kind.breakpoint then
    let h := peekCode s u hdr
    if idx + 1 < hdrCount h then ⟨hdr, idx + 1⟩ else ⟨nextClause hdr h, 0⟩
  else ⟨hdr, idx⟩

/-- The lanes leave the handler and return to their meld region (R174). -/
def leaveHandler (m : Mask) (t : TrapState) (l : LaneState) : LaneState :=
  let l := { l with inHandler := l.inHandler &&& ~~~ m }
  if t.info.getLsbD 19 then
    { l with
      inMeld := l.inMeld ||| m
      path := (l.path &&& ~~~ m) ||| (t.path &&& m)
      table := if t.info.getLsbD 18 then l.table ||| m else l.table &&& ~~~ m }
  else l

/-- Whether the clause that the trap came from ends with the yield's effect (R121, R187). -/
def TrapState.yielding (t : TrapState) : Bool := t.yields || t.whence.any fun x => hdrYield x.2.header

/-- The lanes as a split at their resume point, with the latches as the trap found them (R155) and the yield of their clause,
which ends where they resume after it (R187). Lanes that had left the clause stay gone from it, and go where they were going. -/
def Warp.resumeAt (w : Warp) (m : Mask) (pc : Pc) (header : DWord) : Warp :=
  let w := w.leave m
  let old := w.trap.lat
  let reg := { w.reg with lat := Vector.ofFn fun i : Fin 3 =>
    { vals := blend m (w.reg.lat[i]).vals (old[i]).vals, life := blend m (w.reg.lat[i]).life (old[i]).life } }
  let w := { w with reg := reg }
  let gone := m &&& (w.trap.whence.map fun x => x.2.left).getD 0
  if m = 0 then w
  else if pc.idx = 0 then
    let past := pc.hdr != (w.trap.pc.extractLsb' 0 32).toNat
    let w := { w with yielded := w.yielded || (past && w.trap.yielding) }.moveTo (m &&& ~~~ gone) pc.hdr 0
    (lanesOf gone).foldl (fun w l => w.moveTo (one_ l) (w.lane.pcs[l]).hdr 0) w
  else w.addSplit { Split.start m pc.hdr with
    left := gone, idx := pc.idx, header := header, latPtr := w.trap.latPtr, yields := w.trap.yields }

/-- TRAPRET. -/
def execTrapret (g : Guard) (skip : Bool) (s : State) : Host.Outcome State Fault Refusal :=
  finish (do
    checkIssue g [] true s
    let m := s.issuing
    trapIf s Kind.illegal (m &&& ~~~ s.curWarp.lane.inHandler)
    let t := s.curWarp.trap
    let pc := resumePc s s.cur.blk t skip
    let h := peekCode s s.cur.blk pc.hdr
    pure (trapEnds s.cur.blk s.cur.warp
      (s.updWarp fun w => ({ w with lane := leaveHandler m t w.lane }).resumeAt m pc h))) s

/-! ### Invalidation of translations -/

/-- Every holder of translations of the package: the L1 TLB and the engines of each core, and the TLB of each die. -/
def allHolders : List (Nat × Option Nat) :=
  ((List.range 192).map fun c => (c, none)) ++ ((List.range 192).map fun c => (192 + c, none)) ++
    (List.range 4).map fun d => (384 + d, none)

/-- A holder drops the translations that overlap the range. -/
def dropRange (holder base len : Nat) (asid : Option Nat) (s : State) : State :=
  let keep (l : List TlbEnt) : List TlbEnt := l.filter fun e => !hitBy base len asid e
  if holder < 192 then s.updCore holder fun k => { k with tlb := keep k.tlb }
  else if holder < 384 then s.updCore (holder - 192) fun k =>
    { k with copyTlb := keep k.copyTlb, attnTlb := keep k.attnTlb }
  else s.updDie (holder - 384) fun d => { d with tlb := keep d.tlb, tlbBig := keep d.tlbBig }

/-- R451. -/
def needSecure (s : State) (m : Mask) : Except Stop Unit :=
  trapIf s Kind.privileged (if s.curLaunch.desc.world then 0 else m)

/-- Whether every earlier access of the warp is performed everywhere. -/
def allPerformed (s : State) : Bool := s.curWarp.ord.ops.isEmpty && !warpPending s fun _ => true

/-- TLBIR. -/
def execTlbir (g : Guard) (base len : Operand) (asid : Option Operand) (s : State) : Host.Outcome State Fault Refusal :=
  finish (do
    let qs : List SrcSpec := { opU base with n := 2 } :: opU len :: (asid.toList.map opU)
    checkIssue g (opsOf .zero qs) false s
    let m := s.active g
    needSecure s m
    let r ← readAll g qs s
    if m = 0 then commit r [] s else do
      let b := (r.at 0).pair ((lowest m).getD 0)
      let n := (uval m (r.w 1)).toNat
      trapIf s Kind.illegal (if n = 0 then m else 0)
      if b.toNat % 65536 != 0 then .error (.trap { s.trapReq Kind.misaligned m with va := b })
      stallIf (decide (8 ≤ s.curWarp.ord.tlbOps.length) || !allPerformed s)
      let t ← commit r [] s
      let (op, t) := t.uid
      let a : Option Nat := asid.map fun _ => (uval m (r.w 2)).toNat % 2 ^ 16
      let inv : TlbInv := ⟨s.cur.blk, s.cur.warp, b.toNat, n * 65536, a, allHolders⟩
      let t := { t with tlbInvs := AMap.set t.tlbInvs op inv }
      pure (t.updOrd fun o => { o with tlbOps := o.tlbOps ++ [op] })) s

/-- TLBACK: with nothing outstanding the acquire is made at once. -/
def execTlback (g : Guard) (s : State) : Host.Outcome State Fault Refusal :=
  finish (do
    checkIssue g [] true s
    let m := s.active g
    needSecure s m
    if m = 0 then pure s else
      match s.curWarp.ord.tlbOps with
      | [] => pure (acquireAt .sys s.cur.blk s.cur.warp s)
      | l => pure (s.updSplit fun sp => { sp with wait := .tlback l })) s

/-- The core whose accesses used a holder's translations, or the die. -/
def usersOf (holder : Nat) (o : OutItem) : Bool :=
  let c := 48 * o.die + o.core
  if holder < 192 then c == holder && o.warp != 16
  else if holder < 384 then c == holder - 192 && o.warp == 16
  else o.die == holder - 384

/-- Whether undrained non-temporal data on a core was translated through a holder. -/
def ntUsing (holder core : Nat) : Bool := core == holder || (decide (384 ≤ holder) && core / 48 == holder - 384)

/-- Whether accesses made before a holder dropped its translations are still in flight, a non-temporal store up to its drain. -/
def stillUsing (s : State) (holder t : Nat) : Bool :=
  let uses (o : OutItem) : Bool := usersOf holder o && decide (o.used.getD o.t ≤ t)
  s.inflight.any uses || s.cores.any fun p => p.2.lager.any uses ||
      (ntUsing holder p.1 && p.2.body.nt.any fun n => decide (n.t ≤ t))

/-- One warp's invalidation is acknowledged by every holder: the splits that wait for it alone go on, with an acquire. -/
def tlbDone (op u wn : Nat) (s : State) : State :=
  let s := { s with tlbInvs := AMap.erase s.tlbInvs op }
  let s := s.updWarpOf u wn fun w => { w with
    ord := { w.ord with tlbOps := w.ord.tlbOps.filter (· != op) }
    splits := AMap.mapVals w.splits fun _ sp => match sp.wait with
      | .tlback l => { sp with wait := .tlback (l.filter (· != op)) }
      | _ => sp }
  let ready := ((AMap.getD (s.block u).warps wn default).splits.filter fun p => p.2.wait == .tlback []).map Prod.fst
  if ready.isEmpty then s
  else acquireAt .sys u wn (ready.foldl (fun s k => s.updWarpOf u wn fun w => w.settle k) s)

/-- TLB_ACKNOWLEDGE: a holder first drops the range, and acknowledges once what used it has been performed. -/
def execTlbAcknowledge (op holder : Nat) (s : State) : Host.Outcome State Fault Refusal :=
  match AMap.get? s.tlbInvs op with
  | none => .refused (.notEnabled "TLB_ACKNOWLEDGE")
  | some x =>
    match x.holders.find? fun h => h.1 == holder with
    | none => .refused (.notEnabled "TLB_ACKNOWLEDGE")
    | some (_, none) =>
      .next (dropRange holder x.base x.len x.asid { s with tlbInvs := AMap.set s.tlbInvs op { x with
        holders := x.holders.map fun h => if h.1 = holder then (holder, some s.instant) else h } })
    | some (_, some t) =>
      if stillUsing s holder t then .refused (.notEnabled "TLB_ACKNOWLEDGE") else
      let rest := x.holders.filter fun h => h.1 != holder
      let s := { s with tlbInvs := AMap.set s.tlbInvs op { x with holders := rest } }
      .next (if rest.isEmpty then tlbDone op x.blk x.warp s else s)

/-! ### ERRQ -/

/-- The four words of an entry into consecutive registers. -/
def errPuts (d : Operand) (m : Mask) (ws : Vector Word 4) : List Put :=
  (List.range 4).map fun i => ⟨nextReg d i, 0, m, splat (ws[i]?.getD 0)⟩

/-- Words 0 to 2 where no entry is unread: the spec states none, so they are free. -/
def noEntry (n : Nat) : Vector Word 4 := #v[lo32 (Config.freeWord n), hi32 (Config.freeWord n), lo32 (Config.freeWord (n + 1)), 0]

/-- The oldest unread entry of a die's queue: its slot and its words. -/
def oldestFault (d : Die) : Option (Nat × FaultEnt) :=
  firstOf (d.fq.filter fun e => !e.2.read)
where
  firstOf : List (Nat × FaultEnt) → Option (Nat × FaultEnt)
    | [] => none
    | e :: t => match firstOf t with
      | none => some e
      | some x => if x.2.order < e.2.order then some x else some e

/-- ERRQ. -/
def execErrq (g : Guard) (d : Operand) (peek : Bool) (s : State) : Host.Outcome State Fault Refusal :=
  finish (do
    checkIssue g [d] false s
    let m := s.active g
    needSecure s m
    let die := s.curBlock.place.die
    let r ← readAll g [] s
    match oldestFault (s.die die) with
    | none =>
      let t ← commit r (errPuts d m (noEntry s.freeCtr)) s
      pure { t with freeCtr := t.freeCtr + 2 }
    | some (i, e) =>
      let t ← commit r (errPuts d m e.words) s
      pure (if m = 0 ∨ peek then t
        else t.updDie die fun x => { x with fq := AMap.modify x.fq i fun e => { e with read := true } })) s

/-- Word 0 where the log is empty has type 0; the rest is not stated. -/
def noLog (n : Nat) : Vector Word 4 :=
  #v[lo32 (Config.freeWord n) &&& 0xFFFFFF#32, hi32 (Config.freeWord n), lo32 (Config.freeWord (n + 1)), hi32 (Config.freeWord (n + 1))]

/-- ERRQ.log. -/
def execErrqLog (g : Guard) (d : Operand) (peek : Bool) (s : State) : Host.Outcome State Fault Refusal :=
  finish (do
    checkIssue g [d] false s
    let m := s.active g
    needSecure s m
    let die := s.curBlock.place.die
    let r ← readAll g [] s
    match (s.die die).errLog with
    | [] =>
      let t ← commit r (errPuts d m (noLog s.freeCtr)) s
      pure { t with freeCtr := t.freeCtr + 2 }
    | e :: rest =>
      let t ← commit r (errPuts d m e) s
      pure (if m = 0 ∨ peek then t else t.updDie die fun x => { x with errLog := rest })) s

/-! ### BBLOG -/

/-- BBLOG: the entry leaves through the lager buffer. -/
def execBblog (g : Guard) (code : BitVec 6) (a : Operand) (s : State) : Host.Outcome State Fault Refusal :=
  finish (do
    let qs : List SrcSpec := [{ opU a with n := 2 }]
    checkIssue g (opsOf .zero qs) false s
    let m := s.active g
    let r ← readAll g qs s
    stallIf (m != 0 && s.curLaunch.lagers && !lagerRoom s s.curCore 8)
    let t ← commit r [] s
    pure (if m = 0 then t
      else emit s.curLaunch.lagers s.curCore
        (s.outItem (.bblog code.toNat s.curLaunch.desc.asid ((r.at 0).pair ((lowest m).getD 0))) none none 0) t)) s

end Sys2Proof.Machine
end

