-- ==== Sys2Proof/Machine/Epoch.lean ====
section
/-!
DEFINITION. Epochs (R462-R464), the retirement of blocks (R479), and rollback: races at homes (R419), strikes (R465, R466)
and shadow mismatches (R467).
-/

namespace Sys2Proof.Machine

/-! ### Output leaves (R464, R419) -/

/-- A race that stops a boundary: the core, the item and what is watched when it is made again. -/
structure LeaveRace where
  core : Nat
  item : OutItem
  watch : Nat

/-- One item leaves its core: its races are judged and it enters the record. The image of a save, which bears an instant from the
first, is no access of R407; what it does to the block is log 101. -/
def leaveItem (core : Nat) (o : OutItem) (s : State) : Except LeaveRace State :=
  match if o.left.isSome then none else itemRace s o with
  | some (_, watch) => .error ⟨core, o, watch⟩
  | none =>
    let s := s.updCore core fun k => { k with lager := k.lager.erase o }
    let s := escape o.blk { s with inflight := s.inflight ++ [{ o with left := some s.instant }] }
    .ok (if o.left.isSome then s else recordItem o s)

/-- Items leave in their order. -/
def leaveItems (core : Nat) : List OutItem → State → Except LeaveRace State
  | [], s => .ok s
  | o :: t, s => (leaveItem core o s).bind (leaveItems core t)

/-- Whether the shadow of the warp that made an item has compared it (R467): it has executed what the warp issued until then. -/
def shadowCompared (s : State) (o : OutItem) : Bool :=
  agEngine o.agent || (AMap.get? (s.block o.blk).warps o.warp).all fun w => w.shadow.all fun r => decide (o.t < r.t)

/-- The output of a core that leaves at the end of epoch `n`: what it made before that epoch, once it has been compared. -/
def leaving (s : State) (core n : Nat) : List OutItem :=
  (s.core core).lager.filter fun o => decide (o.epoch < n) && shadowCompared s o

/-- The cores of the machine, beginning at a free choice: which of two cores' output is at its home first is open. -/
def coreOrder (s : State) : List Nat :=
  let l := s.cores.map Prod.fst
  let k := Config.freeNat s.freeCtr % max l.length 1
  l.drop k ++ l.take k

/-- All output due leaves, or the first race is found. -/
def leaveAll (s : State) : Except LeaveRace State :=
  (coreOrder s).foldl (fun r c => r.bind fun t => leaveItems c (leaving t c s.epoch) t) (.ok s)

/-- What a change of a peer set does as it leaves: a join takes effect, and so does a leave that no window access holds back
(R239). -/
def changeItem (o : OutItem) (s : State) : State :=
  match o.kind with
  | .join g op => joinLeaves o.blk o.warp g op { s with inflight := s.inflight.erase o }
  | .leave => if leaveFree s o then leaveNow o s else s
  | _ => s

/-- Changes of peer sets take effect as they leave, those of a lower %core first (R399). -/
def changesLeave (s : State) : State :=
  s.cores.foldl (fun t c => (s.inflight.filter fun o => 48 * o.die + o.core == c.1).foldl (fun t o => changeItem o t) t) s

/-! ### Retirement of blocks (R479) -/

/-- Whether a block retires at this boundary. Its output has left and its atomics are committed, so that no strike withdraws
them (R480), and, since it leaves its peer set, window accesses to or from it are done (R239). -/
def retiresNow (s : State) (u : Nat) (b : Block) : Bool :=
  b.state != .saved && b.state != .flushing && allRetired b && b.eng.tl.all (fun c => !c.busy) &&
    (!(s.core b.place.coreNo).lager.any fun o => o.blk == u) &&
    (!s.quar.any fun q => q.blk == u && decide (s.epoch ≤ q.epoch)) && !windowsOut s u

/-- A block retires: out of its peer set, its endpoint, its buffers and its slot. -/
def retireBlock (u : Nat) (s : State) : State :=
  let l := (s.block u).launch
  (discardBlock u s).updLaunch l fun la => { la with retired := la.retired ++ [u] }

/-- Every block that is due retires. -/
def retireBlocks (s : State) : State :=
  ((s.blocks.filter fun p => retiresNow s p.1 p.2).map Prod.fst).foldl (fun s u => retireBlock u s) s

/-! ### The boundary (R149, R412, R463, R464, R478) -/

/-- Arrays that run a task of another core's block, as the next epoch begins. -/
def crossNow (s : State) (core : Nat) : List Nat :=
  let a := (s.core core).body.array
  ((a.run.toList ++ a.commits).map fun r => (s.block r.task.blk).place.coreNo).filter (· != core)

/-- Whether the data of a block's save has not all left its core (R108). -/
def saveUnder (s : State) (core : Nat) (p : Nat × Block) : Bool :=
  !p.2.unsent.isEmpty || (s.core core).lager.any fun o => imageItem p.2 p.1 o

/-- The blocks that a checkpoint of a core holds (R108, R463). -/
def heldBlocks (s : State) (core : Nat) : AMap Block :=
  s.blocks.filter fun p => p.2.place.coreNo == core && (p.2.state != .saved || saveUnder s core p)

/-- A core at the beginning of epoch `e`: slots and reservations of two epochs ago are back, logs keep the epoch before, and
the checkpoint is taken. A core with none yet was as after reset when the epoch before began. -/
def coreBoundary (s : State) (e core : Nat) (k : CoreState) : CoreState :=
  let body := { k.body with
    retained := k.body.retained.filter fun r => decide (e ≤ r.epoch + 1)
    leftover := k.body.leftover.filter fun r => decide (e ≤ r.epoch + 1) }
  let old := if k.ckpts.isEmpty then [Checkpoint.first (e - 1)] else k.ckpts
  { k with
    body := body
    popLog := k.popLog.filter fun x => decide (e ≤ x.2.2.1 + 1)
    msgLog := k.msgLog.filter fun x => decide (e ≤ x.1 + 1)
    crossRuns := (k.crossRuns.filter fun x => decide (e ≤ x.1 + 1)) ++ (crossNow s core).map fun c => (e, c)
    ckpts := (old.filter fun c => decide (e ≤ c.epoch + 1)) ++ [{ epoch := e, body := body, blocks := heldBlocks s core }] }

/-- Automatic refills that waited for slots try again. -/
def retryRefills (s : State) : State :=
  s.blocks.foldl (fun s p =>
    if p.2.state = .saved ∨ p.2.state = .flushing then s else
    p.2.warps.foldl (fun s w => if w.2.autoRefill = some none then autoRefill p.1 w.1 s else s) s) s

/-- Whether a participant of a collective needs its result no longer: it has it, or its block is gone. -/
def partDone (s : State) (p : CollPart) : Bool := p.delivered || (AMap.get? s.blocks p.blk).isNone

/-- Whether every participant of this device that a participant's table names has joined (R438). -/
def tableJoined (s : State) (c : Coll) (p : CollPart) : Bool :=
  !p.table.isEmpty && (List.range (tabN p.table)).all fun j =>
    !ownDevice s (tabEntry p.table j) || c.parts.any fun q => tabEntry q.table q.pos == tabEntry p.table j

/-- Collectives that every participant has joined and has had the result of for two epochs are forgotten: none of them can be
rolled back past its delivery any more (R437). -/
def oldColl (s : State) (e : Nat) (c : Coll) : Bool :=
  c.parts.all (fun p => partDone s p && tableJoined s c p) && c.doneAt.any fun t => decide (epochOf t + 2 < e)

/-- Arrivals that found no room in the lager buffer go out (R464). -/
def retryArrivals (s : State) : State :=
  s.blocks.foldl (fun s p => if p.2.state = .saved then s else p.2.warps.foldl (fun s w => sendArrivals p.1 w.1 s) s) s

/-- Epoch `e` begins: the shares have their room back and the checkpoints are taken before what waited for room goes on. -/
def beginEpoch (e : Nat) (s : State) : State :=
  let s := { s with now := 1024 * e }
  retryArrivals <| retryRefills { s with
    quar := s.quar.filter fun q => decide (e ≤ q.epoch + 1)
    colls := s.colls.filter fun c => !oldColl s e c.2
    cores := AMap.mapVals s.cores (coreBoundary s e) }

/-- EPOCH_BOUNDARY: the last cycle of an epoch ends, unless a race is found in what would leave. -/
def execEpochBoundary (s : State) : Host.Outcome State Fault Refusal :=
  if s.now % 1024 ≠ 1023 then .refused (.notEnabled "EPOCH_BOUNDARY") else
  match leaveAll s with
  | .error _ => .refused (.notEnabled "EPOCH_BOUNDARY")
  | .ok t => .next (beginEpoch (s.epoch + 1) (retireBlocks (changesLeave { t with freeCtr := t.freeCtr + 1 })))

/-! ### Rollback of a block (R463, R465, R178, R394) -/

/-- Arrivals at a barrier wider than a block after a rollback: those of phases completed since then are over, and those the
checkpoint holds as counted stay so. -/
def barsBack (s : State) (u wn : Nat) (bars : AMap BarFlags) : AMap BarFlags :=
  AMap.mapVals bars fun k f =>
    let b := barOfKey k
    match b.scope with
    | .wrp | .blk => f
    | _ =>
      let ph := phaseOf s u wn b
      let past := maskOf fun l => has f.arrived l && decide (f.target[l].toNat ≤ ph.toNat)
      { f with arrived := f.arrived &&& ~~~ past, counted := f.counted &&& ~~~ past, sent := f.sent &&& ~~~ past }

/-- A warp comes back from its checkpoint: what a posted fault held runs again, and watched lines stay watched. -/
def warpBack (s : State) (u wn : Nat) (now_ : Warp) (w : Warp) : Warp :=
  let w := { w with
    recheck := (w.recheck ++ now_.recheck).eraseDups
    autoRefill := w.autoRefill.map fun _ => none
    ord := { w.ord with bars := barsBack s u wn w.ord.bars } }
  w.splits.foldl (fun w x => match x.2.wait with
    | .fault _ => w.settle x.1
    | _ => w) w

/-- The engine side comes back; membership of a peer set changes only by committed output. -/
def engBack (now_ e : BlkEng) : BlkEng := { e with peer := now_.peer, endpoint := now_.endpoint, inFlight := e.inFlight }

/-- What the life of a block is after a rollback: a save that was not complete starts again (R108), and requests stand. -/
def stateBack (now_ : BlkState) : BlkState := match now_ with | .saved => .saving | x => x

/-- Whether a block was placed since a boundary, so that its checkpoint is that of its placement (R463). -/
def placedSince (at_ : Nat) (b : Block) : Bool := b.past.isEmpty && decide (at_ ≤ b.since)

/-- A block comes back from its checkpoint, of the boundary at `start`; where it had stopped for its save, its image goes out again
(R108). WBUF has no prior versions: it stays as it is, and the
copies that wrote it since run again (R235, R297). -/
def blockBack (s : State) (u start : Nat) (now_ b : Block) : Block :=
  { b with
    wbuf := if placedSince start b then b.wbuf else now_.wbuf
    place := now_.place
    state := if b.state = .saved then .saved else stateBack now_.state
    escaped := now_.escaped
    preReq := now_.preReq
    area := now_.area
    unsent := match b.state, now_.area with
      | .saved, some a => at_ a.1 ((saveImage b b.work (msgsOf s u) s.now).take a.2)
      | _, _ => []
    work := if b.state = .saved then b.work else { kicks := [], copies := [], high := [], normal := [], attn := [] }
    eng := engBack now_.eng b.eng
    warps := AMap.mapVals b.warps fun wn w => warpBack s u wn (AMap.getD now_.warps wn w) w.refetch }

/-- The endpoint of the checkpoint, where it is still free (R426). -/
def endpointBack (u : Nat) (old : Option Nat) (s : State) : State :=
  if old = (s.block u).eng.endpoint then s else
  let s := dropEndpoint u s
  match old with
  | none => s
  | some e => if (AMap.get? (s.die (s.block u).place.die).endpoints e).isSome then s else takeEndpoint u e s

/-- Invalidations acknowledged in the meantime are over for the warp too. -/
def tlbBack (u : Nat) (s : State) : State :=
  (s.block u).warps.foldl (fun s w =>
    (w.2.ord.tlbOps.filter fun op => (AMap.get? s.tlbInvs op).isNone).foldl (fun s op => tlbDone op u w.1 s) s) s

/-- Participants of collectives (R437): a contribution that has not left is made again, an operation enqueued since is gone, and
a result that the checkpoint lacks is delivered again. -/
def collsBack (u : Nat) (c : Ctx) (s : State) : State :=
  let left_ (i : Nat) (p : CollPart) : Bool := p.sent || s.inflight.any fun o =>
    o.blk == u && o.agent == engAgent (s.block u) 3 p.num && o.kind == .contribution i
  let gone (i : Nat) (p : CollPart) : Bool := p.blk == u && !left_ i p && decide (c.enq.toNat < p.num.toNat)
  let have_ (p : CollPart) : Bool := decide (p.num.toNat ≤ c.done.toNat) || c.late.contains p.num
  { s with colls := AMap.mapVals s.colls fun i x => { x with
      parts := (x.parts.filter fun p => !gone i p).map fun p =>
        if p.blk = u then { p with
          input := if left_ i p then p.input else []
          waitSlot := none
          delivered := p.delivered && have_ p }
        else p } }

/-! ### Rollback of a core (R149, R297, R312, R374, R412, R432) -/

/-- The checkpoint that a core goes back to: the latest of the epoch before, or the earliest there is; a core that has none
was as after reset when that epoch began. -/
def ckptFor (k : CoreState) (e : Nat) : Checkpoint :=
  match (k.ckpts.filter fun c => decide (c.epoch < e)).getLast? with
  | some c => c
  | none => k.ckpts.head?.getD (Checkpoint.first (e - 1))

/-- Whether a block of a core is rolled back: it has not left the core, and its save, if any, is not complete. -/
def rollsBack (s : State) (core : Nat) (p : Nat × Block) : Bool :=
  p.2.place.coreNo == core && (p.2.state != .saved || saveUnder s core p)

/-- A line's record as it was before an atomic that is undone: what did not occur races with nothing (R418). -/
def undoRecord (q : Quarantine) (s : State) : State :=
  { s with lines := match q.rec_ with
    | some r => AMap.set s.lines q.line r
    | none => AMap.erase s.lines q.line }

/-- Undoes the quarantined atomics of cores, the latest first. -/
def undoQuarantine (cores : List Nat) (s : State) : State :=
  let mine := s.quar.filter fun q => cores.contains q.core
  let t := { s with quar := s.quar.filter fun q => !cores.contains q.core }
  mine.foldl (fun t q => undoRecord q (match performBytes t q.undo with
    | some x => x
    | none => { t with mem := t.mem.writeAll q.undo })) t

/-- The tasks that a checkpoint holds on an array. -/
def ckptTasks (c : Checkpoint) : List TileRec :=
  (c.body.array.commits ++ c.body.array.run.toList).map fun r => r.task

/-- A core's queues and array as its checkpoint has them, for the blocks `us` that come back, the tasks `runs` at the heads;
requests of COPY nodes are the current ones, and every request runs again with the checks of its start (R297). What blocks that
have retired meanwhile keep of the share and of the registers stays (R478). -/
def bodyBack (s : State) (now_ : CoreBody) (c : Checkpoint) (us : List Nat) (runs : List TileRec) : CoreBody :=
  let again (o : CopyOp) : CopyOp := match o.kick.owner with
    | .blk u => o.again (s.block u)
    | .node _ _ => o.again default
  let mine (o : CopyOwner) : Bool := match o with | .blk u => us.contains u | .node _ _ => false
  let node (o : CopyOwner) : Bool := match o with | .blk _ => false | .node _ _ => true
  let b := c.body
  { kicks := (b.kicks.filter fun x => mine x.owner) ++ now_.kicks.filter fun x => node x.owner
    copies := ((b.copies.filter fun x => mine x.kick.owner) ++ now_.copies.filter fun x => node x.kick.owner).map again
    high := (runs.filter fun x => x.high) ++ b.high.filter fun x => us.contains x.blk
    normal := (runs.filter fun x => !x.high) ++ b.normal.filter fun x => us.contains x.blk
    attn := b.attn.filter fun x => us.contains x.blk
    attnRun := none
    array := { b.array with run := none, commits := [], narrow := now_.array.narrow }
    retained := now_.retained.filter fun r => !us.contains r.blk || b.retained.contains r
    leftover := now_.leftover.filter fun r => !us.contains r.blk || b.leftover.contains r
    nt := b.nt.filter fun x => us.contains x.blk }

/-- The messages logged since a checkpoint go before newer ones (R432). -/
def redeliver (core : Nat) (us : List Nat) (from_ : Nat) (s : State) : State :=
  let k := s.core core
  let again : List Msg := (k.msgLog.filter fun x => us.contains x.2.blk && decide (from_ ≤ x.1)).map Prod.snd
  let s := s.updDie (core / 48) fun d => { d with ingress := again ++ d.ingress }
  s.updCore core fun k => { k with msgLog := k.msgLog.filter fun x => !(us.contains x.2.blk && decide (from_ ≤ x.1)) }

/-- One core goes back to its checkpoint. -/
def coreBack (core : Nat) (tasks : List TileRec) (s : State) : State :=
  let e := s.epoch
  let c := ckptFor (s.core core) e
  let back := (s.blocks.filter (rollsBack s core)).filter fun p => (AMap.get? c.blocks p.1).isSome
  let us := back.map Prod.fst
  let runs := (tasks.filter fun x => us.contains x.blk).foldr insertRec []
  let s := us.foldl (fun s u => withdrawFaults u s) s
  let s := us.foldl (fun s u =>
    let old := AMap.getD c.blocks u default
    let now_ := s.block u
    let s := collsBack u ((old.eng.tl[3]?).getD default)
      { s with blocks := AMap.set s.blocks u (blockBack s u (1024 * c.epoch) now_ old) }
    tlbBack u (endpointBack u old.eng.endpoint s)) s
  let s := redeliver core us c.epoch s
  let pops := ((s.core core).popLog.filter fun x => us.contains x.1 && decide (c.epoch ≤ x.2.2.1)).map fun x => (x.1, x.2.1, x.2.2.2)
  let s := s.updCore core fun k => { k with
    body := bodyBack s k.body c us runs
    l1 := []
    lager := []
    popReplay := pops ++ k.popReplay
    popLog := k.popLog.filter fun x => !us.contains x.1
    crossRuns := []
    strikes := k.strikes + 1 }
  s.updCore core fun k => { k with
    ckpts := [{ epoch := e, body := k.body, blocks := heldBlocks s core }] }

/-- Cores whose arrays ran tasks of each other's blocks in the interval roll back together: the cluster (R465). -/
def region (s : State) (core : Nat) : List Nat :=
  let cl := clusterCores core
  if !(s.core core).crossRuns.isEmpty || cl.any fun c => (s.core c).crossRuns.any fun x => x.2 == core then cl else [core]

/-- R466: blocks with lagering off in a region end their launches. -/
def endUnlagered (cores : List Nat) (s : State) : State :=
  ((s.blocks.filter fun p => cores.contains p.2.place.coreNo && p.2.state != .saved &&
    !(s.launch p.2.launch).lagers).map fun p => p.2.launch).eraseDups.foldl (fun s l => endLaunch l s) s

/-- The %sync of the boundary that a core goes back to. -/
def restoredTo (s : State) (core : Nat) : Nat := 1024 * (ckptFor (s.core core) s.epoch).epoch

/-- A region rolls back, with the rollback entry of the black box; `agent` names the core it began at. -/
def rollback (cores : List Nat) (agent : Word) (s : State) : State :=
  let core := cores.head?.getD 0
  let s := bbWrite (core / 48) (bbEnt 0x05 0 0 agent 0 (w64 (restoredTo s core))) s
  let s := undoQuarantine cores (endUnlagered cores s)
  let tasks := cores.flatMap fun c => (ckptTasks (ckptFor (s.core c) s.epoch)).map fun x => { x with ran := some c }
  cores.foldl (fun s c => coreBack c tasks s) s

/-- A core as an agent. -/
def coreAgent (core : Nat) : Word := agentCode false ⟨0, 0, core / 48, core % 48, 0⟩ 0 0

/-! ### The steps -/

/-- RACE_CHECK_AT_HOME (R419): output that would leave races, so that nothing leaves; its core's region goes back, and what
raced is watched. -/
def execRaceCheckAtHome (s : State) : Host.Outcome State Fault Refusal :=
  if s.now % 1024 ≠ 1023 then .refused (.notEnabled "RACE_CHECK_AT_HOME") else
  match leaveAll s with
  | .ok _ => .refused (.notEnabled "RACE_CHECK_AT_HOME")
  | .error r =>
    let s := s.updWarpOf r.item.blk r.item.warp fun w => { w with recheck := (r.watch :: w.recheck).eraseDups }
    .next (rollback (region s r.core) (coreAgent r.core) s)

/-- STRIKE (R465): a core detector names its core, an uncore detector its cluster. -/
def execStrike (die : Fin 4) (core : Option (Fin 48)) (cluster : Fin 12) (s : State) : Host.Outcome State Fault Refusal :=
  let first := 48 * die.val + match core with
    | some c => c.val
    | none => 4 * cluster.val
  let s := bbWrite die.val (bbEnt 0x04 core.isNone.toNat 0 (coreAgent first) 0 0) s
  let s := logError die.val 3 (w32 (match core with
    | some c => c.val
    | none => 0x100 + cluster.val)) (w64 s.now) s
  .next (rollback (if core.isSome then region s first else clusterCores first) (coreAgent first) s)

/-- SHADOW_MISMATCH (R467): a warp of a `.paired` kernel and its shadow differ in something that the shadow compares. -/
def execShadowMismatch (uid warp : Nat) (s : State) : Host.Outcome State Fault Refusal :=
  let b := s.block uid
  if (AMap.get? s.blocks uid).isNone || b.state == .saved || (AMap.get? b.warps warp).isNone ||
      !(s.launch b.launch).hdr.paired || (AMap.getD b.warps warp default).shadow.isEmpty then .refused (.notEnabled "SHADOW_MISMATCH") else
  let agent := warpAgent b warp
  let s := bbWrite b.place.die (bbEnt 0x10 0 (s.launch b.launch).desc.asid agent 0 0) s
  let s := logError b.place.die 4 (w32 b.place.core) (w64 s.now) s
  .next (rollback (region s b.place.coreNo) (coreAgent b.place.coreNo) s)

end Sys2Proof.Machine
end

