-- ==== Sys2Proof/Machine/Fp32.lean ====
section
/-!
DEFINITION. Family 001, FP32: R205-R210.
-/

namespace Sys2Proof.Machine

/-- The class word of a value (R210). -/
def classOf (w : Word) : Word :=
  if w = 0x7FC00000#32 then 0x100
  else match fv w with
    | .nan => 0x200
    | .inf n => if n then 0x001 else 0x080
    | .fin n m _ =>
      if m = 0 then (if n then 0x008 else 0x010)
      else if w.toNat / 2 ^ 23 % 256 = 0 then (if n then 0x004 else 0x020)
      else if n then 0x002 else 0x040

/-- The first, second and third operand with their sign modifiers (R205). -/
def opA (md : FMods) (w : Word) : FVal := (fv w).mods md.aa md.na
def opB (md : FMods) (w : Word) : FVal := (fv w).mods md.ab md.nb
def opC (md : FMods) (w : Word) : FVal := (fv w).mods false md.nc

/-- FADD (R206). -/
def execFadd (g : Guard) (d : Dst) (a b : Src) (rm : Rm) (md : FMods) (s : State) : Host.Outcome State Fault Refusal :=
  finish (runAlu g [srcF a, srcF b] d (fun r l => fadd32 rm (opA md (r.w 0)[l]) (opB md (r.w 1)[l])) s) s

/-- FADD with an immediate (R206). -/
def execFaddI (g : Guard) (d a : Operand) (i : Word) (s : State) : Host.Outcome State Fault Refusal :=
  finish (runAlu g [{ op := a, imm := .f32 }] (dst0 d) (fun r l => fadd32 .rn (fv (r.w 0)[l]) (fv i)) s) s

/-- FMUL (R206). -/
def execFmul (g : Guard) (d : Dst) (a b : Src) (rm : Rm) (md : FMods) (s : State) : Host.Outcome State Fault Refusal :=
  finish (runAlu g [srcF a, srcF b] d (fun r l => fmul32 rm (opA md (r.w 0)[l]) (opB md (r.w 1)[l])) s) s

/-- FMUL with an immediate (R206). -/
def execFmulI (g : Guard) (d a : Operand) (i : Word) (s : State) : Host.Outcome State Fault Refusal :=
  finish (runAlu g [{ op := a, imm := .f32 }] (dst0 d) (fun r l => fmul32 .rn (fv (r.w 0)[l]) (fv i)) s) s

/-- FFMA (R206). -/
def execFfma (g : Guard) (d : Dst) (a b c : Src) (rm : Rm) (md : FMods) (s : State) : Host.Outcome State Fault Refusal :=
  finish (runAlu g [srcF a, srcF b, srcF c] d (fun r l => ffma32 rm (opA md (r.w 0)[l]) (opB md (r.w 1)[l]) (opC md (r.w 2)[l])) s) s

/-- FMIN (R207). -/
def execFmin (g : Guard) (d : Dst) (a b : Src) (md : FMods) (s : State) : Host.Outcome State Fault Refusal :=
  finish (runInt g [srcF a, srcF b] d (fun r l => fpick32 false (opA md (r.w 0)[l]) (opB md (r.w 1)[l])) s) s

/-- FMAX (R207). -/
def execFmax (g : Guard) (d : Dst) (a b : Src) (md : FMods) (s : State) : Host.Outcome State Fault Refusal :=
  finish (runInt g [srcF a, srcF b] d (fun r l => fpick32 true (opA md (r.w 0)[l]) (opB md (r.w 1)[l])) s) s

/-- FSET (R208). -/
def execFset (g : Guard) (d : Dst) (a b : Src) (c : Cmp) (md : FMods) (s : State) : Host.Outcome State Fault Refusal :=
  finish (runInt g [srcF a, srcF b] d (fun r l => bit01 (FVal.test c (opA md (r.w 0)[l]) (opB md (r.w 1)[l]))) s) s

/-- FRCP (R209). -/
def execFrcp (g : Guard) (d : Dst) (a : Src) (s : State) : Host.Outcome State Fault Refusal :=
  finish (runAlu g [srcF a] d (fun r l => frcpW (r.w 0)[l]) s) s

/-- FRSQ (R209). -/
def execFrsq (g : Guard) (d : Dst) (a : Src) (s : State) : Host.Outcome State Fault Refusal :=
  finish (runAlu g [srcF a] d (fun r l => frsqW (r.w 0)[l]) s) s

/-- FEXP2 (R209). -/
def execFexp2 (g : Guard) (d : Dst) (a : Src) (s : State) : Host.Outcome State Fault Refusal :=
  finish (runAlu g [srcF a] d (fun r l => fexp2W (r.w 0)[l]) s) s

/-- FLOG2 (R209). -/
def execFlog2 (g : Guard) (d : Dst) (a : Src) (s : State) : Host.Outcome State Fault Refusal :=
  finish (runAlu g [srcF a] d (fun r l => flog2W (r.w 0)[l]) s) s

/-- FSIN (R209). -/
def execFsin (g : Guard) (d : Dst) (a : Src) (s : State) : Host.Outcome State Fault Refusal :=
  finish (runAlu g [srcF a] d (fun r l => fsinW (r.w 0)[l]) s) s

/-- FCOS (R209). -/
def execFcos (g : Guard) (d : Dst) (a : Src) (s : State) : Host.Outcome State Fault Refusal :=
  finish (runAlu g [srcF a] d (fun r l => fcosW (r.w 0)[l]) s) s

/-- FTANH (R209). -/
def execFtanh (g : Guard) (d : Dst) (a : Src) (s : State) : Host.Outcome State Fault Refusal :=
  finish (runAlu g [srcF a] d (fun r l => ftanhW (r.w 0)[l]) s) s

/-- FSQRT (R209). -/
def execFsqrt (g : Guard) (d : Dst) (a : Src) (rm : Rm) (s : State) : Host.Outcome State Fault Refusal :=
  finish (runAlu g [srcF a] d (fun r l => fsqrtW rm (r.w 0)[l]) s) s

/-- FCLASS (R210). -/
def execFclass (g : Guard) (d : Dst) (a : Src) (mask : Option Src) (s : State) : Host.Outcome State Fault Refusal :=
  finish (match mask with
    | none => runInt g [srcF a] d (fun r l => classOf (r.w 0)[l]) s
    | some k => runInt g [srcF a, srcI k] d (fun r l =>
        bit01 ((classOf (r.w 0)[l] &&& (r.w 1)[l] &&& 0x3FF#32) != 0)) s) s

end Sys2Proof.Machine
end

