-- ==== Sys2Proof/Machine/Fp64.lean ====
section
/-!
DEFINITION. Family 010, FP64 and packed arithmetic: R211-R213.
-/

namespace Sys2Proof.Machine

/-- The value of an FP64 pair of a reading. -/
def dv (r : Reading) (i : Nat) (l : Fin 32) : FVal := f64.val (Rd.pair (r.at i) l).toNat

/-- The three operands with their sign modifiers (R211). -/
def dvA (md : FMods) (r : Reading) (l : Fin 32) : FVal := (dv r 0 l).mods md.aa md.na
def dvB (md : FMods) (r : Reading) (l : Fin 32) : FVal := (dv r 1 l).mods md.ab md.nb
def dvC (md : FMods) (r : Reading) (l : Fin 32) : FVal := (dv r 2 l).mods false md.nc

/-- A value rounded to FP64. -/
def toF64 (rm : Rm) (x : FVal × Flags) : DWord × Flags :=
  let (b, f) := f64.ofVal rm x.1
  (w64 b, x.2.or f)

/-- DADD (R211). -/
def execDadd (g : Guard) (d : Dst) (a b : Src) (rm : Rm) (md : FMods) (s : State) : Host.Outcome State Fault Refusal :=
  finish (runPair g [srcD a, srcD b] d (fun r l => toF64 rm (FVal.add rm (dvA md r l) (dvB md r l))) s) s

/-- DMUL (R211). -/
def execDmul (g : Guard) (d : Dst) (a b : Src) (rm : Rm) (md : FMods) (s : State) : Host.Outcome State Fault Refusal :=
  finish (runPair g [srcD a, srcD b] d (fun r l => toF64 rm (FVal.mul (dvA md r l) (dvB md r l))) s) s

/-- DFMA (R211). -/
def execDfma (g : Guard) (d : Dst) (a b c : Src) (rm : Rm) (md : FMods) (s : State) : Host.Outcome State Fault Refusal :=
  finish (runPair g [srcD a, srcD b, srcD c] d (fun r l => toF64 rm (FVal.fma rm (dvA md r l) (dvB md r l) (dvC md r l))) s) s

/-- DMIN (R211). -/
def execDmin (g : Guard) (d : Dst) (a b : Src) (md : FMods) (s : State) : Host.Outcome State Fault Refusal :=
  finish (runPair g [srcD a, srcD b] d (fun r l => ((toF64 .rn (FVal.pick false (dvA md r l) (dvB md r l), {})).1, {})) s) s

/-- DMAX (R211). -/
def execDmax (g : Guard) (d : Dst) (a b : Src) (md : FMods) (s : State) : Host.Outcome State Fault Refusal :=
  finish (runPair g [srcD a, srcD b] d (fun r l => ((toF64 .rn (FVal.pick true (dvA md r l) (dvB md r l), {})).1, {})) s) s

/-- DSET (R211). -/
def execDset (g : Guard) (d : Dst) (a b : Src) (c : Cmp) (md : FMods) (s : State) : Host.Outcome State Fault Refusal :=
  finish (runInt g [srcD a, srcD b] d (fun r l => bit01 (FVal.test c (dvA md r l) (dvB md r l))) s) s

/-- The format of a packed instruction, and its source with the matching immediate (R132, R212). -/
def packFmt (bf : Bool) : Fmt := if bf then bf16 else f16
def srcH (bf : Bool) (a : Src) : SrcSpec := { op := a.op, hold := a.hold, imm := if bf then .bf2 else .h2 }

/-- Element `e` of a packed word. -/
def packEl (bf : Bool) (w : Word) (e : Nat) : FVal := (packFmt bf).val (nbits w.toNat (16 * e) 16)

/-- An exact result rounded to the packed format: under `.sat` an overflow gives the largest finite value (R36, R212); an
infinite exact result stays, as no overflow occurs. -/
def packRound (md : HMods) (x : FVal × Flags) : Nat × Flags :=
  let (b, f) := match x.1 with
    | .fin n m e => (packFmt md.bf).round md.rm n m e false md.sat
    | v => (packFmt md.bf).ofVal md.rm v
  (b, x.2.or f)

/-- Both elements of a packed result. -/
def packed (md : HMods) (f : Nat → FVal × Flags) : Word × Flags :=
  let (r0, f0) := packRound md (f 0)
  let (r1, f1) := packRound md (f 1)
  (w32 (r1 * 65536 + r0), f0.or f1)

/-- The elements with their sign modifiers. -/
def pkA (md : HMods) (w : Word) (e : Nat) : FVal := (packEl md.bf w e).mods false md.na
def pkB (md : HMods) (w : Word) (e : Nat) : FVal := (packEl md.bf w e).mods false md.nb
def pkC (md : HMods) (w : Word) (e : Nat) : FVal := (packEl md.bf w e).mods false md.nc

/-- HADD2 (R212). -/
def execHadd2 (g : Guard) (d : Dst) (a b : Src) (md : HMods) (s : State) : Host.Outcome State Fault Refusal :=
  finish (runAlu g [srcH md.bf a, srcH md.bf b] d (fun r l => packed md fun e => FVal.add md.rm (pkA md (r.w 0)[l] e) (pkB md (r.w 1)[l] e)) s) s

/-- HMUL2 (R212). -/
def execHmul2 (g : Guard) (d : Dst) (a b : Src) (md : HMods) (s : State) : Host.Outcome State Fault Refusal :=
  finish (runAlu g [srcH md.bf a, srcH md.bf b] d (fun r l => packed md fun e => FVal.mul (pkA md (r.w 0)[l] e) (pkB md (r.w 1)[l] e)) s) s

/-- HFMA2 (R212). -/
def execHfma2 (g : Guard) (d : Dst) (a b c : Src) (md : HMods) (s : State) : Host.Outcome State Fault Refusal :=
  finish (runAlu g [srcH md.bf a, srcH md.bf b, srcH md.bf c] d (fun r l => packed md fun e => FVal.fma md.rm (pkA md (r.w 0)[l] e) (pkB md (r.w 1)[l] e) (pkC md (r.w 2)[l] e)) s) s

/-- Element `i` of width `w` of a word, signed or not. -/
def dotEl (x : Word) (w i : Nat) (u : Bool) : Int :=
  let v := nbits x.toNat (w * i) w
  if u then (v : Int) else sextN v w

/-- The exact dot product (R213): `n` elements of width `w`. -/
def dotSum (n w : Nat) (ua ub : Bool) (a b c : Word) : Int :=
  ((List.range n).map fun i => dotEl a w i ua * dotEl b w i ub).foldl (· + ·) c.toInt

/-- The narrowing of R213. -/
def dotOut (sat : Bool) (x : Int) : Word × Flags :=
  if sat then
    let (r, ch) := clampInt x (-(2 ^ 31)) (2 ^ 31 - 1)
    (BitVec.ofInt 32 r, { sat := ch })
  else (BitVec.ofInt 32 x, {})

/-- IDOT4 (R213). -/
def execIdot4 (g : Guard) (d : Dst) (a b c : Src) (sat ua ub : Bool) (s : State) : Host.Outcome State Fault Refusal :=
  finish (runAlu g [srcI a, srcI b, srcI c] d (fun r l => dotOut sat (dotSum 4 8 ua ub (r.w 0)[l] (r.w 1)[l] (r.w 2)[l])) s) s

/-- IDOT8 (R213). -/
def execIdot8 (g : Guard) (d : Dst) (a b c : Src) (sat ua ub : Bool) (s : State) : Host.Outcome State Fault Refusal :=
  finish (runAlu g [srcI a, srcI b, srcI c] d (fun r l => dotOut sat (dotSum 8 4 ua ub (r.w 0)[l] (r.w 1)[l] (r.w 2)[l])) s) s

end Sys2Proof.Machine
end

