-- ==== Sys2Proof/Machine/LaneOps.lean ====
section
/-!
DEFINITION. Family 011, lane operations: R219-R225.
-/

namespace Sys2Proof.Machine

/-- R220: the lane that a lane reads from, when it lies in its group. -/
def shflSrc (md : ShflMode) (lgw : Nat) (l : Fin 32) (d : Word) : Option (Fin 32) :=
  let w := 2 ^ lgw
  let g := l.val / w * w
  let o := l.val % w
  let src : Int := match md with
    | .pick => ((d.toNat % w : Nat) : Int)
    | .sh => (o : Int) - d.toInt
    | .rot => ((o : Int) - (d.toNat : Int)) % (w : Int)
    | .xsw => ((o ^^^ (d.toNat % w) : Nat) : Int)
  if 0 ≤ src ∧ src < w then some (Fin.ofNat 32 (g + src.toNat)) else none

/-- SHFL (R220). -/
def execShfl (g : Guard) (d : Dst) (a b c : Src) (md : ShflMode) (lgw : Fin 6) (s : State) :
    Host.Outcome State Fault Refusal :=
  let m := s.active g
  finish (runInt g [srcI a, srcI b, srcI c] d (fun r l =>
    match shflSrc md lgw.val l (r.w 1)[l] with
    | some n => if has m n then (r.w 0)[n] else (r.w 2)[l]
    | none => (r.w 2)[l]) s) s

/-- R221: the result of a vote, from the active lanes and those whose vote is true. -/
def voteW (kd : VoteKind) (a t : Mask) : Word :=
  let some_ := t != 0
  let every := t == a
  let same := t == 0 || every
  let level (b : Bool) : Word := w32 (b.toNat + 2 * some_.toNat + 4 * every.toNat + 8 * same.toNat)
  match kd with
  | .mask => t
  | .count => w32 (popcount t)
  | .first => w32 ((lowest t).map (·.val) |>.getD 32)
  | .some => level some_
  | .every => level every
  | .same => level same

/-- VOTE (R221). -/
def execVote (g : Guard) (d : Dst) (a : Src) (kd : VoteKind) (s : State) : Host.Outcome State Fault Refusal :=
  let m := s.active g
  finish (runInt g [srcI a] d (fun r _ => voteW kd m (m &&& maskOf fun l => (r.w 0)[l] != 0)) s) s

/-- R222: one step of a reduction, and the identity. -/
def redStep (op : RedOp) (rm : Rm) (x y : Word) : Word × Flags :=
  match op with
  | .iadd => (x + y, {})
  | .imin => (minI false x y, {})
  | .imax => (maxI false x y, {})
  | .umin => (minI true x y, {})
  | .umax => (maxI true x y, {})
  | .and => (x &&& y, {})
  | .or => (x ||| y, {})
  | .xor => (x ^^^ y, {})
  | .fadd => fadd32 rm (fv x) (fv y)
  | .fmin => (fpick32 false (fv x) (fv y), {})
  | .fmax => (fpick32 true (fv x) (fv y), {})

def redId : RedOp → Word
  | .imin => 0x7FFFFFFF#32
  | .imax => 0x80000000#32
  | .umin | .and => 0xFFFFFFFF#32
  | .fadd => 0x80000000#32
  | .fmin => 0x7F800000#32
  | .fmax => 0xFF800000#32
  | _ => 0

/-- The running value over active lanes in ascending order: per lane the value before it and after it, the last value, and
the events. -/
def scan (op : RedOp) (rm : Rm) (m : Mask) (v : Lanes Word) : List (Fin 32 × Option Word × Word) × Option Word × Flags :=
  (lanesOf m).foldl (fun acc l =>
    let (new, f) := match acc.2.1 with
      | none => (v[l], ({} : Flags))
      | some x => redStep op rm x v[l]
    (acc.1 ++ [(l, acc.2.1, new)], some new, acc.2.2.or f)) ([], none, {})

/-- LRED (R222). -/
def execLred (g : Guard) (d : Dst) (a : Src) (op : RedOp) (rm : Rm) (s : State) : Host.Outcome State Fault Refusal :=
  finish (do
    let qs := [srcF a].map fun q => match op with
      | .fadd | .fmin | .fmax => q
      | _ => { q with imm := .int }
    checkIssue g (opsOf d.op qs) false s
    let m := s.active g
    let r ← readAll g qs s
    let (_, last, f) := scan op rm m (r.w 0)
    let t ← commit r [putOf d m (splat (last.getD 0))] s
    pure (setFlags f t)) s

/-- LSCAN (R222). -/
def execLscan (g : Guard) (d : Dst) (a : Src) (op : RedOp) (excl : Bool) (rm : Rm) (s : State) :
    Host.Outcome State Fault Refusal :=
  finish (do
    let qs := [srcF a].map fun q => match op with
      | .fadd | .fmin | .fmax => q
      | _ => { q with imm := .int }
    checkIssue g (opsOf d.op qs) false s
    let m := s.active g
    let r ← readAll g qs s
    let (l, _, f) := scan op rm m (r.w 0)
    let v := tab fun i => match l.find? fun x => x.1 == i with
      | some x => if excl then x.2.1.getD (redId op) else x.2.2
      | none => 0
    let t ← commit r [putOf d m v] s
    pure (setFlags f t)) s

/-- R223: the result of a match for a lane. -/
def matchW (md : MatchMode) (m : Mask) (v : Lanes Word) (l : Fin 32) : Word :=
  let peers := m &&& maskOf fun i => v[i] == v[l]
  match md with
  | .peers => peers
  | .leader => w32 ((lowest peers).map (·.val) |>.getD 0)
  | .rank => w32 (popcount (peers &&& maskOf fun i => decide (i.val < l.val)))
  | .unan => if peers = m then m else 0

/-- MATCH (R223). -/
def execMatchL (g : Guard) (d : Dst) (a : Src) (md : MatchMode) (s : State) : Host.Outcome State Fault Refusal :=
  let m := s.active g
  finish (runInt g [srcI a] d (fun r l => matchW md m (r.w 0) l) s) s

/-- A fault that a lane beside the active ones meets is theirs. -/
def asActive {α : Type} (m : Mask) (x : Except Stop α) : Except Stop α :=
  match x with
  | .error (.trap q) => .error (.trap { q with lanes := if q.lanes &&& ~~~ m = 0 then q.lanes else m })
  | y => y

/-- RDLANE (R224): srcB first; then lane n of srcA, active or not. The counts go down as for the sources in their fields
(R146), and the holds are written in field order (R155). -/
def execRdlane (g : Guard) (d : Dst) (a b : Src) (s : State) : Host.Outcome State Fault Refusal :=
  finish (do
    checkIssue g [d.op, a.op, b.op] false s
    let m := s.active g
    let rb ← readAll g [srcU b] s
    let n : Fin 32 := Fin.ofNat 32 ((uval m (rb.w 0)).toNat % 32)
    -- an m name of lane n needs lane n's entry, and a v or m name lane n's mask bit
    trapIf s Kind.illegal (match a.op with
      | .m _ => if m = 0 ∨ badNames s.curWarp (one_ n) [a.op] = 0 then 0 else m
      | _ => 0)
    trapIf s Kind.latch (if m = 0 ∨ badLatch s (one_ n) a.op = 0 then 0 else m)
    trapIf s Kind.deadValue (if m = 0 ∨ deadLanes s (one_ n) a.op 1 = 0 then 0 else m)
    let r ← (match a.op with
      | .z z => do
        let (v, st, preds) ← asActive m (readStream m (if m = 0 then 0 else m ||| one_ n) z s rb.st rb.preds)
        pure { rb with vals := [rd1 v], st, preds, holds := if a.hold then [v] else [] }
      | _ => pure { rb with
          vals := [rd1 (wordOf s .int a.op 0)]
          names := rb.names ++ namesRead s.curWarp (readers s.curWarp s.curSplit g) a.op 1
          holds := if a.hold then [wordOf s .int a.op 0] else [] })
    let r := { r with holds := r.holds ++ rb.holds }
    let t ← commit r [putOf d m (splat (r.w 0)[n])] s
    pure t) s

/-- R225: the elected lane. -/
def electLane (md : ElectMode) (m : Mask) (ptr : Fin 32) : Option (Fin 32) :=
  match md with
  | .lo => lowest m
  | .hi => highest m
  | .rr => match lowest (m &&& maskOf fun l => decide (ptr.val < l.val)) with
    | some l => some l
    | none => lowest m

/-- ELECT (R225): an s or w destination receives the lane number. -/
def execElect (g : Guard) (d : Dst) (md : ElectMode) (s : State) : Host.Outcome State Fault Refusal :=
  finish (do
    checkIssue g [d.op] false s
    let m := s.active g
    let e := electLane md m s.curWarp.reg.elect
    let v : Lanes Word := match d.op with
      | .s _ | .w _ => splat (w32 ((e.map (·.val)).getD 0))
      | _ => tab fun l => bit01 (e == some l)
    let r ← readAll g [] s
    let t ← commit r [putOf d m v] s
    pure (match md, e with
      | .rr, some l => t.updReg fun x => { x with elect := l }
      | _, _ => t)) s

end Sys2Proof.Machine
end

