-- ==== Sys2Proof/Machine/Moves.lean ====
section
/-!
DEFINITION. Family 011, moves and register management: the entries of R145-R159.
-/

namespace Sys2Proof.Machine

/-- MOV. -/
def execMov (g : Guard) (d : Dst) (a : Src) (s : State) : Host.Outcome State Fault Refusal :=
  finish (runInt g [srcI a] d (fun r l => (r.w 0)[l]) s) s

/-- MOVI. -/
def execMovi (g : Guard) (d : Operand) (i : Word) (s : State) : Host.Outcome State Fault Refusal :=
  finish (runInt g [] (dst0 d) (fun _ _ => i) s) s

/-- SEL: both sources are read. -/
def execSel (g : Guard) (d : Dst) (a b c : Src) (s : State) : Host.Outcome State Fault Refusal :=
  finish (runInt g [srcI a, srcI b, srcI c] d (fun r l => if (r.w 2)[l] = 0 then (r.w 1)[l] else (r.w 0)[l]) s) s

/-- PLOP3. -/
def execPlop3 (g : Guard) (d : Operand) (a b c : Src) (g0 g1 : BitVec 4) (s : State) :
    Host.Outcome State Fault Refusal :=
  finish (runInt g [srcI a, srcI b, srcI c] (dst0 d) (fun r l =>
    bit01 (lutBit (if (r.w 2)[l] = 0 then g0 else g1) ((r.w 0)[l] != 0) ((r.w 1)[l] != 0))) s) s

/-- The predicates of a lane as a byte, p7 the highest. -/
def predByte (p : Vector Mask 7) (l : Fin 32) : Nat :=
  (List.range 7).foldl (fun a i => a + (has (p[i]?.getD 0) l).toNat * 2 ^ i) 128

/-- PMOV.get. -/
def execPmovGet (g : Guard) (d : Dst) (s : State) : Host.Outcome State Fault Refusal :=
  finish (runInt g [] d (fun _ l => w32 (predByte s.curWarp.reg.p l)) s) s

/-- The predicates after PMOV.set. -/
def setPreds (p : Vector Mask 7) (m : Mask) (mask : Word) (a : Lanes Word) : Vector Mask 7 :=
  Vector.ofFn fun i : Fin 7 =>
    if mask.getLsbD i.val then (p[i] &&& ~~~ m) ||| (m &&& maskOf fun l => (a[l]).getLsbD i.val) else p[i]

/-- PMOV.set. -/
def execPmovSet (g : Guard) (a mask : Src) (s : State) : Host.Outcome State Fault Refusal :=
  finish (do
    let qs := [srcI a, srcU mask]
    checkIssue g (opsOf .zero qs) false s
    let m := s.active g
    let r ← readAll g qs s
    let t ← commit r [] s
    pure (if m = 0 then t else t.updReg fun x => { x with p := setPreds x.p m (uval m (r.w 1)) (r.w 0) })) s

/-! ### Index registers (R156) -/

/-- The name that an indexed operand addresses for a lane; none out of bounds. -/
def indexed (r : Regs) (x : Fin 8) (o : Nat) (l : Fin 32) : Option Nat :=
  let e := (r.x[x])[l]
  let c := e.cursor.toNat + o
  if c < e.limit.toNat ∧ e.base.toNat + c < 256 then some (e.base.toNat + c) else none

/-- Active lanes out of bounds. -/
def indexBad (r : Regs) (x : Fin 8) (o : Nat) (m : Mask) : Mask :=
  m &&& maskOf fun l => (indexed r x o l).isNone

/-- Moves the cursors of active lanes on. -/
def cursorInc (x : Fin 8) (m : Mask) (s : State) : State :=
  s.updReg fun r => { r with x := r.x.set x (tab fun l =>
    let e := (r.x[x])[l]
    if has m l then { e with cursor := e.cursor + 1 } else e) }

/-- MOVX: each distinct name that any reading lane names is read once. A lane that is out of bounds but not active reads
nothing. -/
def execMovx (g : Guard) (d : Dst) (x : Fin 8) (o : Fin 128) (inc : Bool) (s : State) :
    Host.Outcome State Fault Refusal :=
  finish (do
    checkIssue g [d.op] false s
    noLate s
    let m := s.active g
    let rg := s.curWarp.reg
    let dead := m &&& maskOf fun l => match indexed rg x o.val l with
      | some n => !has (slotOf rg n).mask l
      | none => false
    -- within one source, dead-value comes before index-bound (R163)
    trapIf s Kind.deadValue dead
    trapIf s Kind.indexBound (indexBad rg x o.val m)
    let rd := readers s.curWarp s.curSplit g
    let names := ((lanesOf rd).filterMap fun l => indexed rg x o.val l).eraseDups
    let v : Lanes Word := tab fun l => match indexed rg x o.val l with
      | some n => (slotOf rg n).vals[l]
      | none => 0
    let r : Reading := { vals := [rd1 v], st := s, preds := rg.p, names, holds := [] }
    let t ← commit r [putOf d m v] s
    pure (if inc then cursorInc x m t else t)) s

/-- MOVXW: each distinct name written follows R145 for the lanes that wrote it. -/
def execMovxw (g : Guard) (x : Fin 8) (o : Fin 128) (a : Src) (cc : Fin 8) (inc : Bool) (s : State) :
    Host.Outcome State Fault Refusal :=
  finish (do
    let qs := [srcI a]
    checkIssue g (opsOf .zero qs) false s
    noLate s
    let m := s.active g
    let rg := s.curWarp.reg
    -- srcA is the index register, srcB the data
    trapIf s Kind.indexBound (indexBad rg x o.val m)
    let r ← readAll g qs s
    let names := ((lanesOf m).filterMap fun l => indexed rg x o.val l).eraseDups
    let puts := names.map fun n =>
      (⟨.v (Fin.ofNat 256 n), cc.val, m &&& maskOf fun l => indexed rg x o.val l == some n, r.w 0⟩ : Put)
    let t ← commit r puts s
    pure (if inc then cursorInc x m t else t)) s

/-- Sets the index register of active lanes. -/
def setX (x : Fin 8) (m : Mask) (f : Fin 32 → XReg → XReg) (s : State) : State :=
  s.updReg fun r => { r with x := r.x.set x (tab fun l => let e := (r.x[x])[l]; if has m l then f l e else e) }

/-- SETX. -/
def execSetx (g : Guard) (x : Fin 8) (a b c : Src) (s : State) : Host.Outcome State Fault Refusal :=
  finish (do
    let qs := [srcI a, srcI b, srcI c]
    checkIssue g (opsOf .zero qs) false s
    let r ← readAll g qs s
    let t ← commit r [] s
    let h (i : Nat) (l : Fin 32) : BitVec 16 := ((r.w i)[l]).extractLsb' 0 16
    pure (setX x (s.active g) (fun l _ => { base := h 0 l, limit := h 1 l, cursor := h 2 l }) t)) s

/-- SETX.cur. -/
def execSetxCur (g : Guard) (x : Fin 8) (a : Src) (s : State) : Host.Outcome State Fault Refusal :=
  finish (do
    let qs := [srcI a]
    checkIssue g (opsOf .zero qs) false s
    let r ← readAll g qs s
    let t ← commit r [] s
    pure (setX x (s.active g) (fun l e => { e with cursor := ((r.w 0)[l]).extractLsb' 0 16 }) t)) s

/-- SETX.add. -/
def execSetxAdd (g : Guard) (x : Fin 8) (a : Src) (s : State) : Host.Outcome State Fault Refusal :=
  finish (do
    let qs := [srcI a]
    checkIssue g (opsOf .zero qs) false s
    let r ← readAll g qs s
    let t ← commit r [] s
    pure (setX x (s.active g) (fun l e => { e with cursor := e.cursor + ((r.w 0)[l]).extractLsb' 0 16 }) t)) s

/-! ### KILLV -/

/-- The v file after mask bits are cleared: (name, lanes) in turn; a slot whose mask becomes empty is released. -/
def killNames (v : AMap Slot) (ks : List (Nat × Mask)) : AMap Slot :=
  ks.foldl (fun v k => match AMap.get? v k.1 with
    | none => v
    | some sl =>
      let mask := sl.mask &&& ~~~ k.2
      if mask = 0 then AMap.erase v k.1 else AMap.set v k.1 { sl with mask := mask }) v

/-- KILLV: no read, no fault for a dead name. -/
def execKillv (g : Guard) (a b c : Operand) (s : State) : Host.Outcome State Fault Refusal :=
  finish (do
    checkIssue g [a, b, c] false s
    let m := s.active g
    let w := s.curWarp
    let ks := [a, b, c].flatMap fun o => (⟨o, 0, m, splat 0⟩ : Put).names w
    let v := killNames w.reg.v ks
    let gone := (w.reg.v.map Prod.fst).filter fun n => !(v.any fun p => p.1 == n)
    let rel := releases w.reg.v gone []
    stallIf (shareStall s rel)
    pure (shareTake rel (s.updReg fun r => { r with v := v }))) s

/-- NOP. -/
def execNop (g : Guard) (s : State) : Host.Outcome State Fault Refusal :=
  finish (do
    checkIssue g [] false s
    pure s) s

end Sys2Proof.Machine
end

