-- ==== Sys2Proof/Machine/Crypto.lean ====
section
/-!
DEFINITION. What R488 and R489 name of cryptography, from the standards themselves (PRESUMED, log 165): SHA-256 (FIPS 180-4), and
RSASSA-PSS with SHA-256, MGF1 with SHA-256 and a salt of 32 bytes (RFC 8017), for an RSA-3072 modulus and the exponent 65,537.
Numbers of 384 bytes are little-endian where they stand in memory (R4); inside the encoded message the standard's order holds.
-/

namespace Sys2Proof.Machine

/-! ### SHA-256 -/

/-- The constants of the rounds. -/
def shaK : List Word :=
  ([0x428a2f98, 0x71374491, 0xb5c0fbcf, 0xe9b5dba5, 0x3956c25b, 0x59f111f1, 0x923f82a4, 0xab1c5ed5,
    0xd807aa98, 0x12835b01, 0x243185be, 0x550c7dc3, 0x72be5d74, 0x80deb1fe, 0x9bdc06a7, 0xc19bf174] : List Word) ++
  [0xe49b69c1, 0xefbe4786, 0x0fc19dc6, 0x240ca1cc, 0x2de92c6f, 0x4a7484aa, 0x5cb0a9dc, 0x76f988da,
    0x983e5152, 0xa831c66d, 0xb00327c8, 0xbf597fc7, 0xc6e00bf3, 0xd5a79147, 0x06ca6351, 0x14292967] ++
  [0x27b70a85, 0x2e1b2138, 0x4d2c6dfc, 0x53380d13, 0x650a7354, 0x766a0abb, 0x81c2c92e, 0x92722c85,
    0xa2bfe8a1, 0xa81a664b, 0xc24b8b70, 0xc76c51a3, 0xd192e819, 0xd6990624, 0xf40e3585, 0x106aa070] ++
  [0x19a4c116, 0x1e376c08, 0x2748774c, 0x34b0bcb5, 0x391c0cb3, 0x4ed8aa4a, 0x5b9cca4f, 0x682e6ff3,
    0x748f82ee, 0x78a5636f, 0x84c87814, 0x8cc70208, 0x90befffa, 0xa4506ceb, 0xbef9a3f7, 0xc67178f2]

/-- The working variables a to h. -/
structure ShaState where
  a : Word
  b : Word
  c : Word
  d : Word
  e : Word
  f : Word
  g : Word
  h : Word
deriving DecidableEq, Repr

/-- The initial hash value. -/
def shaInit : ShaState :=
  ⟨0x6a09e667, 0xbb67ae85, 0x3c6ef372, 0xa54ff53a, 0x510e527f, 0x9b05688c, 0x1f83d9ab, 0x5be0cd19⟩

/-- A number as bytes, the highest first. -/
def toBe (n x : Nat) : List Byte := (toLe n x).reverse

/-- Bytes as a number, the highest first. -/
def beNat (l : List Byte) : Nat := leNat l.reverse

/-- The words of a block of 64 bytes. -/
def shaWords (bs : List Byte) : List Word := (List.range 16).map fun i => w32 (beNat ((bs.drop (4 * i)).take 4))

/-- The message schedule, the latest word first. -/
def shaSchedule (bs : List Byte) : List Word :=
  (List.range 48).foldl (fun l _ =>
    let x := l[1]?.getD 0
    let y := l[14]?.getD 0
    let s1 := x.rotateRight 17 ^^^ x.rotateRight 19 ^^^ (x >>> 10)
    let s0 := y.rotateRight 7 ^^^ y.rotateRight 18 ^^^ (y >>> 3)
    (s1 + l[6]?.getD 0 + s0 + l[15]?.getD 0) :: l) (shaWords bs).reverse

/-- One round. -/
def shaRound (s : ShaState) (k w : Word) : ShaState :=
  let s1 := s.e.rotateRight 6 ^^^ s.e.rotateRight 11 ^^^ s.e.rotateRight 25
  let ch := (s.e &&& s.f) ^^^ (~~~ s.e &&& s.g)
  let t1 := s.h + s1 + ch + k + w
  let s0 := s.a.rotateRight 2 ^^^ s.a.rotateRight 13 ^^^ s.a.rotateRight 22
  let maj := (s.a &&& s.b) ^^^ (s.a &&& s.c) ^^^ (s.b &&& s.c)
  ⟨t1 + (s0 + maj), s.a, s.b, s.c, s.d + t1, s.e, s.f, s.g⟩

/-- One block. -/
def shaBlock (s : ShaState) (bs : List Byte) : ShaState :=
  let t := (shaK.zip (shaSchedule bs).reverse).foldl (fun t p => shaRound t p.1 p.2) s
  ⟨s.a + t.a, s.b + t.b, s.c + t.c, s.d + t.d, s.e + t.e, s.f + t.f, s.g + t.g, s.h + t.h⟩

/-- A message with its padding. -/
def shaPad (bs : List Byte) : List Byte :=
  bs ++ 0x80#8 :: List.replicate ((119 - bs.length % 64) % 64) 0 ++ toBe 8 (8 * bs.length)

/-- The SHA-256 of some bytes. -/
def sha256 (bs : List Byte) : List Byte :=
  let m := shaPad bs
  let s := (List.range (m.length / 64)).foldl (fun s i => shaBlock s ((m.drop (64 * i)).take 64)) shaInit
  [s.a, s.b, s.c, s.d, s.e, s.f, s.g, s.h].flatMap fun w => toBe 4 w.toNat

/-- The same as a number whose bytes, the lowest first, are the digest's. -/
def shaNat (bs : List Byte) : BitVec 256 := BitVec.ofNat 256 (leNat (sha256 bs))

/-! ### RSASSA-PSS -/

/-- `x ^ e mod n`, over the low `k` bits of `e`, the highest first. -/
def powMod (x n e : Nat) : Nat → Nat → Nat
  | 0, r => r
  | k + 1, r => powMod x n e k (r * r % n * (if nbit e k then x else 1) % n)

/-- The mask generation function MGF1. -/
def mgf1 (seed : List Byte) (n : Nat) : List Byte :=
  ((List.range ((n + 31) / 32)).flatMap fun i => sha256 (seed ++ toBe 4 i)).take n

/-- Bytewise exclusive or. -/
def xorBytes (a b : List Byte) : List Byte := List.zipWith (· ^^^ ·) a b

/-- Bytes with the highest bit of the first cleared. -/
def clearTop : List Byte → List Byte
  | [] => []
  | b :: t => (b &&& 0x7F#8) :: t

/-- The hash of a message's hash with a salt. -/
def pssHash (msg salt : List Byte) : List Byte := sha256 (List.replicate 8 0 ++ sha256 msg ++ salt)

/-- The encoded message of 384 bytes (EMSA-PSS). -/
def pssEncode (msg salt : List Byte) : List Byte :=
  let h := pssHash msg salt
  clearTop (xorBytes (List.replicate 318 0 ++ 0x01#8 :: salt) (mgf1 h 351)) ++ h ++ [0xBC#8]

/-- Whether an encoded message is one of a message. -/
def pssOk (msg em : List Byte) : Bool :=
  let masked := em.take 351
  let h := (em.drop 351).take 32
  let db := clearTop (xorBytes masked (mgf1 h 351))
  em.length == 384 && em[383]? == some 0xBC#8 && !(em.headD 0).getLsbD 7 &&
    db.take 319 == List.replicate 318 0 ++ [0x01#8] && pssHash msg (db.drop 319) == h

/-- Whether a signature of a message is one by the key with a modulus. -/
def pssVerify (modulus signature : Nat) (msg : List Byte) : Bool :=
  modulus / 2 ^ 3071 == 1 && decide (signature < modulus) &&
    pssOk msg (toBe 384 (powMod signature modulus 65537 17 1))

/-- The signature of a message with a private exponent and a salt. -/
def pssSign (modulus exponent : Nat) (salt msg : List Byte) : Nat :=
  powMod (beNat (pssEncode msg salt)) modulus exponent 3072 1

end Sys2Proof.Machine
end

