-- ==== Sys2Proof/Machine/Place.lean ====
section
/-!
DEFINITION. The placer: placement (R86-R91, R97), gangs (R92-R96), the priority request (R100) and the order in which saved
blocks resume (R90).
-/

namespace Sys2Proof.Machine

/-! ### What waits -/

/-- A waiting launch cluster as an ask: all of its blocks, or those flushed, which keep to the hardware cluster of the others
(R9, R107). -/
def waitingAsk (s : State) (u : Nat) (la : Launch) (k : Nat) : Ask :=
  let a := askFor la.hdr la.desc k
  let mine (p : Nat × Block) : Bool := p.2.launch == u && p.2.place.lcluster == k
  let back := la.flushed.filter fun i => a.ids.contains i
  if back.isEmpty then a
  else { a with
    ids := back
    needs := back.map fun _ => needOf la.hdr la.desc
    cl := (s.blocks.find? mine).map fun p => p.2.place.core / 4 }

/-- The launch clusters that must be placed in one step with one of a launch: all of them (R91, and a gang member as a whole,
R96, log 95), or its floor's (R88). -/
def together (la : Launch) (k : Nat) : List Nat :=
  if la.hdr.cooperative || la.desc.gang then la.waiting
  else if la.hdr.flrBars != 0 then la.waiting.filter fun i => i / la.desc.floorClusters == k / la.desc.floorClusters
  else [k]

/-- The gang block that a member belongs to (R95). -/
def gangBlock (s : State) (la : Launch) : Option Gang := la.gangOf.bind fun x => ((s.ctx x.1).gangs)[x.2]?

/-- Whether a launch is a member of a gang whose set has started (R96). -/
def setStarted (s : State) (la : Launch) : Bool := (gangBlock s la).any fun x => x.started

/-- The launch clusters that wait on a die: each launch's first one. A member of a gang waits in this order too (R95). -/
def waitingOn (s : State) (d : Nat) : List (Nat × Nat) :=
  s.launches.filterMap fun p =>
    if p.2.ending.isNone then (p.2.waiting.find? fun k => dieFor p.2.hdr p.2.desc k == d).map fun k => (p.1, k) else none

/-- Whether one waiting launch cluster comes before another (R90): the higher priority, then the earlier acceptance. -/
def comesFirst (s : State) (a b : Nat × Nat) : Bool :=
  let key (x : Nat × Nat) : Nat × Nat := (255 - (s.launch x.1).desc.priority, (s.launch x.1).order)
  decide ((key a).1 < (key b).1) || ((key a).1 == (key b).1 && decide ((key a).2 < (key b).2))

/-- The head of R90. -/
def headOn (s : State) (d : Nat) : Option (Nat × Nat) := firstBy (comesFirst s) (waitingOn s d)

/-- Where a launch cluster, and those that must go with it, fit now. A gang's first set has no place before its admission
(R96). -/
def spotsFor (s : State) (u k : Nat) : Option (List Spot) :=
  let la := s.launch u
  if la.desc.gang && !setStarted s la then none else
  (placeAll (baysFor s la) ((together la k).map (waitingAsk s u la))).map Prod.fst

/-! ### Starting blocks -/

/-- The lanes of a warp that start live (R10). -/
def startLanes (threads w : Nat) : Mask := maskOf fun l => decide (32 * w + l.val < threads)

/-- A block at its start. -/
def Block.start (u : Nat) (h : Header) (d : Desc) (p : Place) (now : Nat) : Block where
  launch := u
  place := p
  state := .running
  warps := (List.range (cdiv d.threads 32)).map fun w => (w, Warp.start (startLanes d.threads w))
  w := Vector.replicate 32 0
  wOwner := Vector.replicate 32 none
  wPend := Vector.replicate 32 0
  abuf := { size := 1024 * h.abuf, data := [] }
  cbuf := { size := 1024 * h.cbuf, data := [] }
  wbuf := { size := 1024 * h.wbuf, data := [] }
  bphase := Vector.replicate 16 0
  eng := BlkEng.reset
  raceA := []
  raceC := []
  startAt := now
  since := now
  past := []
  escaped := false
  preReq := none
  area := none
  unsent := []
  work := { kicks := [], copies := [], high := [], normal := [], attn := [] }

/-- Starts one block of a launch, with its placement checkpoint (R463). -/
def startBlock (u : Nat) (p : Place) (s : State) : State :=
  let la := s.launch u
  let (n, s) := s.uid
  let s := freshCore p.coreNo la.desc.world s
  let s := { s with blocks := AMap.set s.blocks n (Block.start u la.hdr la.desc p s.now) }
  checkpointBlock n { kicks := [], copies := [], high := [], normal := [], attn := [] } s

/-- Starts the blocks of launch clusters that have found their places. -/
def placeSpots (u : Nat) (l : List Spot) (s : State) : State :=
  let ps := (l.flatMap Spot.places).map Prod.snd
  let s := ps.foldl (fun s p => startBlock u p s) s
  s.updLaunch u fun la => { la with
    waiting := la.waiting.filter fun k => !(l.any fun x => x.ask.k == k)
    flushed := la.flushed.filter fun i => !(ps.any fun p => p.index == i) }

/-! ### The priority request (R100) -/

/-- All choices of n of a list. -/
def choose_ {α : Type} : Nat → List α → List (List α)
  | 0, _ => [[]]
  | _ + 1, [] => []
  | n + 1, a :: t => (choose_ n t).map (a :: ·) ++ choose_ (n + 1) t

/-- The rooms of a hardware cluster without some blocks. -/
def roomsWithout (s : State) (d cl : Nat) (us : List Nat) : List Room :=
  let t := { s with blocks := s.blocks.filter fun p => !us.contains p.1 }
  (List.range 4).map fun i => roomOf t (48 * d + 4 * cl + i)

/-- The sets of blocks of a hardware cluster that make room for a launch cluster: the smallest ones; the empty one where there is
room. -/
def makeRoom (s : State) (d cl prio : Nat) (a : Ask) : List (List Nat) :=
  let can := (blocksOn s d cl).filter fun p => p.2.state.open_ && decide ((s.launch p.2.launch).desc.priority + 3 ≤ prio)
  let us := can.map Prod.fst
  let fits (l : List Nat) : Bool := (placeBlocks (roomsWithout s d cl l) a.needs).isSome
  firstFull ((List.range (us.length + 1)).map fun n => (choose_ n us).filter fits)
where
  /-- The first list that has something in it. -/
  firstFull : List (List (List Nat)) → List (List Nat)
    | [] => []
    | l :: t => if l.isEmpty then firstFull t else l

/-- The hardware cluster where the fewest blocks make room, the lowest one on ties, with the sets that do. -/
def roomAt (s : State) (la : Launch) (a : Ask) : Option (List (List Nat)) :=
  let cls := (List.range 12).filter fun c =>
    (s.die a.die).inUse.getLsbD c && mayUse s la a.die c && (a.cl.isNone || a.cl == some c)
  let l := (cls.map fun c => makeRoom s a.die c la.desc.priority a).filter fun x => !x.isEmpty
  l.foldl (fun best x => match best with
    | none => some x
    | some y => if (x.headD []).length < (y.headD []).length then some x else some y) none

/-- The request of a head of priority 6 or above that does not fit; which of several smallest sets is a free choice. It makes
room for the head launch cluster alone, whatever must be placed with it, and asks nothing where that has room (DEDUCED from
R100's "the head launch cluster", log 97). -/
def priorityRequest (u k : Nat) (s : State) : Option State :=
  let la := s.launch u
  if la.desc.priority < 6 ∨ la.asked.contains k ∨ la.gangOf.isSome then none else
  match roomAt s la (waitingAsk s u la k) with
  | none => none
  | some sets =>
    let (n, s) := s.free
    let us := (sets[n % max 1 sets.length]?).getD []
    if us.isEmpty then none else
    some ((us.foldl (fun s v => preempt v 9500 false s) s).updLaunch u fun x => { x with asked := insertNat k x.asked })

/-! ### Placement (R86-R91) -/

/-- The priority of a block's launch. -/
def prioOf (s : State) (u : Nat) : Nat := (s.launch (s.block u).launch).desc.priority

/-- Whether a saved block of a die that can resume now comes before a launch cluster (R90). -/
def resumeFirst (s : State) (d prio : Nat) : Bool :=
  s.blocks.any fun p => p.2.place.die == d && p.2.state == .saved && decide (prio ≤ prioOf s p.1) && canResume s (resumeGroup s p.1)

/-- Whether a launch's turn has come on a die: the die works, the launch is at the head of its order and no saved block comes
before it. -/
def turnOn (s : State) (u d : Nat) : Bool :=
  !(s.die d).stopped && (headOn s d).any (fun x => x.1 == u) && !resumeFirst s d (s.launch u).desc.priority

/-- Where the head of a die's order takes its place, if it can: what must go with it needs its turn on every die that it goes
to (R91). -/
def headSpots (s : State) (u k : Nat) : Option (List Spot) :=
  let la := s.launch u
  if (together la k).all fun i => turnOn s u (dieFor la.hdr la.desc i) then spotsFor s u k else none

/-- A later member of a gang whose set has started takes its place as soon as it fits, whatever stands before it (R96). -/
def memberSpots (s : State) (d : Nat) : Option (Nat × List Spot) :=
  if (s.die d).stopped then none else
  ((waitingOn s d).filter fun x => setStarted s (s.launch x.1) && !resumeFirst s d (s.launch x.1).desc.priority).findSome? fun x =>
    (spotsFor s x.1 x.2).map fun l => (x.1, l)

/-- PLACEMENT: a gang member, or the head of a die's order, takes its place, or, where the head does not fit, its priority
request is made. -/
def execPlacement (die : Fin 4) (s : State) : Host.Outcome State Fault Refusal :=
  let no : Host.Outcome State Fault Refusal := .refused (.notEnabled "PLACEMENT")
  match memberSpots s die.val with
  | some (u, l) => .next (placeSpots u l s)
  | none =>
    match headOn s die.val with
    | none => no
    | some (u, k) =>
      if !turnOn s u die.val then no else
      match headSpots s u k with
      | some l => .next (placeSpots u l s)
      | none =>
        if (spotsFor s u k).isSome then no else
        match priorityRequest u k s with
        | some t => .next t
        | none => no

/-- Whether a launch cluster of a die of a higher priority than this fits (R90). -/
def higherFits (s : State) (d prio : Nat) : Bool :=
  (headOn s d).any fun x => decide (prio < (s.launch x.1).desc.priority) && (headSpots s x.1 x.2).isSome

/-- RESUME: no waiting launch cluster of a higher priority fits (R90). -/
def execResume (uid : Nat) (s : State) : Host.Outcome State Fault Refusal :=
  let no : Host.Outcome State Fault Refusal := .refused (.notEnabled "RESUME")
  let us := resumeGroup s uid
  if (AMap.get? s.blocks uid).isNone || !canResume s us || us.any (fun u => higherFits s (s.block u).place.die (prioOf s u)) then no else
  match resumeSpots s us with
  | none => no
  | some l => .next ((l.flatMap Spot.places).foldl (fun s x => resumeBlock x.1 x.2 s) s)

/-! ### Gangs (R93, R94, R96) -/

/-- The gang block of a context. -/
def State.gang (s : State) (c g : Nat) : Gang := (((s.ctx c).gangs)[g]?).getD Gang.reset
def State.updGang (c g : Nat) (f : Gang → Gang) (s : State) : State :=
  s.updCtx c fun x => { x with gangs := vmod x.gangs g f }

/-- The blocks on a gang's clusters that do not belong to it. -/
def strangers (s : State) (c g : Nat) : List Nat :=
  let x := s.gang c g
  (s.blocks.filter fun p => p.2.place.die == c / 16 && p.2.state != .saved && x.clusters.getLsbD (p.2.place.core / 4) &&
    (s.launch p.2.launch).gangOf != some (c, g)).map Prod.fst

/-- R93: whether writing arm = 1 takes effect. -/
def armOk (s : State) (c g : Nat) : Bool :=
  let x := s.gang c g
  x.state == 0 && x.clusters != 0 && decide (1 ≤ x.members) && decide (x.members ≤ 16) && decide (x.deferS ≤ 60) &&
    !(gangsOn s (c / 16)).any fun y => (y.2.2.clusters &&& x.clusters) != 0

/-- Writing arm = 1. DESIGN CHOICE (log 158): while a release waits, the write has no effect and the release stands, since R93
starts a reservation of an idle gang only. -/
def armGang (c g : Nat) (s : State) : State :=
  if !armOk s c g then s else
  let s := s.updGang c g fun x => { x with state := 1, started := false, releasing := false }
  (strangers s c g).foldl (fun s u => preempt u 0 false s) s

/-- ARM. -/
def execArm (ctx : Fin 64) (gang : Fin 4) (s : State) : Host.Outcome State Fault Refusal :=
  .next (armGang ctx.val gang.val s)

/-- Writing arm = 0 (R94). -/
def releaseGang (c g : Nat) (s : State) : State :=
  s.updGang c g fun x =>
    if x.state = 0 then x
    else if x.admitted = 0 then { x with state := 0, started := false, releasing := false }
    else { x with releasing := true }

/-- RELEASE. -/
def execRelease (ctx : Fin 64) (gang : Fin 4) (s : State) : Host.Outcome State Fault Refusal :=
  .next (releaseGang ctx.val gang.val s)

/-- GANG_ARMED. -/
def execGangArmed (ctx : Fin 64) (gang : Fin 4) (s : State) : Host.Outcome State Fault Refusal :=
  if (s.gang ctx.val gang.val).state = 1 ∧ (strangers s ctx.val gang.val).isEmpty then
    .next (s.updGang ctx.val gang.val fun x => { x with state := 2 })
  else .refused (.notEnabled "GANG_ARMED")

/-- GANG_ADMISSION (R96): the members of the set take their places together. -/
def execGangAdmission (ctx : Fin 64) (gang : Fin 4) (s : State) : Host.Outcome State Fault Refusal :=
  let no : Host.Outcome State Fault Refusal := .refused (.notEnabled "GANG_ADMISSION")
  let x := s.gang ctx.val gang.val
  if x.state ≠ 2 ∨ x.started ∨ x.admitted < x.members then no else
  let ms := ((membersOf s ctx.val gang.val).filter fun p => p.2.ending.isNone).take x.members
  match ms with
  | [] => no
  | m :: _ =>
    let asks := ms.flatMap fun p => p.2.waiting.map fun k => (p.1, waitingAsk s p.1 p.2 k)
    match placeAll (baysFor s m.2) (asks.map Prod.snd) with
    | none => no
    | some (l, _) =>
      let of_ (u : Nat) : List Spot := ((asks.zip l).filter fun a => a.1.1 == u).map Prod.snd
      .next ((ms.foldl (fun s p => placeSpots p.1 (of_ p.1) s) s).updGang ctx.val gang.val fun x => { x with started := true })

end Sys2Proof.Machine
end

