-- ==== Sys2Proof/Machine/Package.lean ====
section
/-!
DEFINITION. The package and its surroundings: monitors and the power alarm (R485, R486), boot and attestation (R488, R489),
the loss of power (R490), the Grennen Link and the host's windows (R491-R494), and the fabric ports (R496).
-/

namespace Sys2Proof.Machine

/-! ### The power alarm (R486) -/

/-- New readings of a die; a list that is too short leaves the rest as it stands. -/
def Monitors.read (temp vmon : List (BitVec 16)) (board : Bool) (m : Monitors) : Monitors :=
  { m with
    temp := Vector.ofFn fun i : Fin 12 => temp[i.val]?.getD m.temp[i]
    vmon := Vector.ofFn fun i : Fin 4 => vmon[i.val]?.getD m.vmon[i]
    board := board }

/-- Whether some cluster is at 120 degrees, which stops the die (R486). -/
def tooHot (m : Monitors) : Bool := m.temp.toList.any fun t => decide (120 * 16 ≤ tempOf t)

/-- POWER_ALARM_RISE: readings that give a cause raise the alarm, with a black-box entry and an interrupt. Those of 120 degrees come
with the stop of the die. -/
def execPowerAlarmRise (die : Fin 4) (temp : List (BitVec 16)) (vmon : List (BitVec 16)) (board : Bool) (s : State) :
    Host.Outcome State Fault Refusal :=
  let m := (s.die die.val).mon.read temp vmon board
  if m.alarm || tooHot m || !alarmCause m then .refused (.notEnabled "POWER_ALARM_RISE") else
  .next (raiseAlarm die.val (s.updDie die.val fun d => { d with mon := m }))

/-- POWER_ALARM_FALL: no cause holds and every cluster has cooled. -/
def execPowerAlarmFall (die : Fin 4) (temp : List (BitVec 16)) (vmon : List (BitVec 16)) (board : Bool) (s : State) :
    Host.Outcome State Fault Refusal :=
  let m := (s.die die.val).mon.read temp vmon board
  if !m.alarm || alarmCause m || !cooled m then .refused (.notEnabled "POWER_ALARM_FALL") else
  .next (s.updDie die.val fun d => { d with mon := { m with alarm := false } })

/-- THERMAL_SHUTDOWN: a cluster at 120 degrees raises the alarm, stops the die and freezes its black box. What follows is the loss
of power. -/
def execThermalShutdown (die : Fin 4) (cluster : Fin 12) (temp : BitVec 16) (s : State) : Host.Outcome State Fault Refusal :=
  if tempOf temp < 120 * 16 then .refused (.notEnabled "THERMAL_SHUTDOWN") else
  let s := settleAlarm die.val (s.updDie die.val fun d => { d with mon := { d.mon with temp := d.mon.temp.set cluster temp } })
  .next (freeze die.val (s.updDie die.val fun d => { d with stopped := true }))

/-- R490: the package after main power has gone and come back. Every register, the black box and the monitors are at
their reset values, and the package's own memory (tier 0 of R227) lists nothing; what lies outside it stays: the bytes of CXL
and host memory, and the interrupts the host has received (log 10). -/
def powerCycled (s : State) : State :=
  { State.reset with
    mem := s.mem.filter fun p => decide (0x8000000000000 ≤ p.1)
    freeCtr := s.freeCtr
    page := { State.reset.page with sent := s.page.sent } }

/-- MAIN_POWER_LOSS: nothing of the device's state survives. -/
def execMainPowerLoss (s : State) : Host.Outcome State Fault Refusal := .next (powerCycled s)

/-! ### Boot (R488) -/

/-- The configuration of one die. -/
def bootDie (img : ImageCfg) (d : Nat) (x : Die) : Die :=
  { x with
    vatcfg := img.vatcfg[d]?.getD 0
    srb := (img.srb.filter fun r => r.1 == d).foldl (fun v r => v.setIfInBounds r.2.1 r.2.2.1) x.srb
    srl := (img.srb.filter fun r => r.1 == d).foldl (fun v r => v.setIfInBounds r.2.1 (r.2.2.2 &&& 0x7FFFFFFF#32)) x.srl
    inUse := (img.harvest.filter fun r => r.1 == d).foldl (fun m r => m &&& ~~~ (1#12 <<< r.2)) x.inUse }

/-- Boot firmware covers an area of chunk records with a secure range of its home die (R257), in the highest register pair that
is not in use (log 149). -/
def coverArea (r : RecArea) (s : State) : State :=
  match tierOf s r.recs with
  | none => s
  | some (_, d) =>
    match (List.range 16).reverse.find? fun n => !((s.die d).srb[n]?.getD 0).getLsbD 31 with
    | none => s
    | some n => s.updDie d fun x => { x with
        srb := vmod x.srb n fun _ => w32 (2 ^ 31 + r.recs / 2 ^ 21)
        srl := vmod x.srl n fun _ => w32 ((r.recs + r.size / 64 - 1) / 2 ^ 21) }

/-- `n` bytes of an image at an offset. -/
def imageAt (bs : List Byte) (off n : Nat) : List Byte := (bs.drop off).take n

/-- Whether the ROM accepts an image: its layout, the hash of its key, and the signature over the header and the body. That one
with another magic number, version or length is refused too is the model's choice (log 165). -/
def imageOk (bs : List Byte) : Bool :=
  decide (784 ≤ bs.length) && leNat (imageAt bs 0 4) == 0x49474D4B && leNat (imageAt bs 4 4) == 1 &&
    leNat (imageAt bs 8 4) == bs.length - 784 && leNat (imageAt bs 12 4) == 0 &&
    shaNat (imageAt bs 16 384) == Config.romKeyHash &&
    pssVerify (leNat (imageAt bs 16 384)) (leNat (imageAt bs 400 384)) (bs.take 400 ++ bs.drop 784)

/-- BOOT: an image whose key and signature pass configures the dies and starts the control cores' firmware; with any other
every die stays halted, and the link reports it. -/
def execBoot (image : List Byte) (s : State) : Host.Outcome State Fault Refusal :=
  if s.booted || s.gnl.bootFail then .refused (.notEnabled "BOOT")
  else if !imageOk image then .next { s with gnl := { s.gnl with bootFail := true } }
  else
    let img := Config.imageBody (image.drop 784)
    let s := { s with
      booted := true, fabid := img.fabid.setWidth 32, imageSha := shaNat image, image := img
      recAreas := img.records.map fun (r : Nat × Nat × Nat) => { base := r.1, size := r.2.1, recs := r.2.2 } }
    let s := (List.range 4).foldl (fun s d => s.updDie d (bootDie img d)) s
    .next (sendIrq 68 (s.recAreas.foldl (fun s r => coverArea r s) s))

/-! ### The Grennen Link (R492, R493) -/

/-- A link event: its entry and its interrupt (R492, R494, R496). -/
def linkEvent (d : Nat) (s : State) : State := sendIrq 67 (bbWrite d (bbEnt 0x08 0 0 0 0 0) s)

/-- What waited for the link is delivered, in its order. -/
def linkServes (s : State) : State := s.gnl.waiting.foldl (fun s w => deliverGnl w s) { s with gnl := { s.gnl with waiting := [] } }

/-- Copies of black-box entries that wait are lost as the link goes DOWN. -/
def dropMirrors (g : Gnl) : Gnl :=
  { g with waiting := g.waiting.filter fun w => match w with
    | .irq _ => true
    | .mirror _ _ => false }

/-- The link enters a state. -/
def linkTo (st : Nat) (s : State) : State := { s with gnl := { s.gnl with state := st, since := s.now } }

/-- GNL_TRAIN: a partner is detected. -/
def execGnlTrain (s : State) : Host.Outcome State Fault Refusal :=
  if s.gnl.state = 0 then .next (linkTo 1 s) else .refused (.notEnabled "GNL_TRAIN")

/-- GNL_ACTIVE: training completes on 16 or 32 lanes; what waited is served, and after a recovery the host is interrupted. -/
def execGnlActive (lanes : BitVec 6) (s : State) : Host.Outcome State Fault Refusal :=
  if (s.gnl.state ≠ 1 ∧ s.gnl.state ≠ 3) ∨ (lanes ≠ 16 ∧ lanes ≠ 32) then .refused (.notEnabled "GNL_ACTIVE") else
  let again := s.gnl.recovering
  let s := linkServes (linkTo 2 { s with gnl := { s.gnl with lanes := lanes.toNat, recovering := false } })
  .next (if again then sendIrq 67 s else s)

/-- GNL_RETRAIN: an uncorrected error. -/
def execGnlRetrain (s : State) : Host.Outcome State Fault Refusal :=
  if s.gnl.state ≠ 2 then .refused (.notEnabled "GNL_RETRAIN") else
  .next (linkEvent 0 (linkTo 3 { s with gnl := { s.gnl with retrains := min 255 (s.gnl.retrains + 1) } }))

/-- GNL_DOWN: training has taken more than 95,000 cycles. -/
def execGnlDown (s : State) : Host.Outcome State Fault Refusal :=
  if (s.gnl.state = 1 ∨ s.gnl.state = 3) ∧ s.gnl.since + 95000 < s.now then
    .next (linkEvent 0 (linkTo 4 { s with gnl := dropMirrors { s.gnl with lanes := 0 } }))
  else .refused (.notEnabled "GNL_DOWN")

/-- GNL_WAKE_N held low: acted on only in DOWN, when held for 1,900 cycles and not held down. -/
def execGnlWakeN (cycles : Nat) (s : State) : Host.Outcome State Fault Refusal :=
  .next (if 1900 ≤ cycles then gnlRecover s else s)

/-! ### Fabric ports (R496) -/

/-- PORT_DOWN: a port has failed to retrain. -/
def execPortDown (p : Fin 12) (s : State) : Host.Outcome State Fault Refusal :=
  if !s.ports.getLsbD p.val then .refused (.notEnabled "PORT_DOWN") else
  .next (linkEvent (p.val / 3) { s with ports := s.ports &&& ~~~ (1#12 <<< p.val) })

/-! ### The register page (R56, R58, R66, R92) -/

/-- A write of 8 bytes `i` of a queue block. -/
def writeQueue (c q i : Nat) (v : DWord) (s : State) : State :=
  let x := v.toNat
  let upd (f : Queue → Queue) : State := s.updCtx c fun y => { y with queues := vmod y.queues q f }
  match i with
  | 0 => upd fun y => { y with base := w64 (nbits x 12 44 * 2 ^ 12) }
  | 1 =>
    let s := upd fun y => { y with lgsize := nbits x 0 5, enable := nbit x 31 }
    if nbit x 32 then skipQueue c q s else s
  | 2 => writeTail c q (hi32 v) s
  | _ => s

/-- A write of 8 bytes `i` of a gang block: the fields first, then arm, of which no bit is held (log 152). -/
def writeGang (c g i : Nat) (v : DWord) (s : State) : State :=
  let x := v.toNat
  let idle := (s.gang c g).state == 0
  match i with
  | 0 =>
    let s := if idle then s.updGang c g fun y => { y with clusters := v.extractLsb' 32 12, members := nbits x 48 8 } else s
    if nbit x 2 then armGang c g s else releaseGang c g s
  | 1 => if idle then s.updGang c g fun y => { y with deferS := nbits x 8 8 } else s
  | _ => s

/-- A write of 8 bytes `i` of a timeline block. Whether arming the interrupt at a value already reached raises it is a free
choice. -/
def writeTimeline (c n i : Nat) (v : DWord) (s : State) : State :=
  if i = 0 then raiseTimeline c n v s else
  let s := s.updCtx c fun y => { y with tls := vmod y.tls n fun t => { t with irqAt := v } }
  let (now_, s) := s.freeBool
  if now_ then raiseTimeline c n 0 s else s

/-! What the page reads as (R56-R58, R66, R92). -/

/-- The control word. -/
def readControl (s : State) (c : Nat) : Nat :=
  let x := s.ctx c
  (!quiescent s c).toNat * 2 ^ 18 + x.valid.toNat * 2 ^ 17 + x.world.toNat * 2 ^ 16 + x.asid.toNat

/-- A queue block. -/
def Queue.word (y : Queue) : Nat :=
  y.fnode.toNat * 2 ^ 240 + y.failAt.toNat * 2 ^ 192 + y.tail.toNat * 2 ^ 160 + y.head.toNat * 2 ^ 128 + y.status.toNat * 2 ^ 112 +
    y.halted.toNat * 2 ^ 111 + y.late.toNat * 2 ^ 110 + y.enable.toNat * 2 ^ 95 + y.lgsize % 32 * 2 ^ 64 + y.base.toNat

/-- A gang block. DESIGN CHOICE (log 152): arm reads 1 while the gang is not idle and no release waits. -/
def Gang.word (g : Gang) : Nat :=
  g.deferS * 2 ^ 72 + g.admitted * 2 ^ 56 + g.members * 2 ^ 48 + g.clusters.toNat * 2 ^ 32 +
    (g.state != 0 && !g.releasing).toNat * 2 ^ 2 + g.state

/-- A timeline block. -/
def Timeline.word (t : Timeline) : Nat := t.irqAt.toNat * 2 ^ 64 + t.value.toNat

/-- An aligned 8 bytes of a context's page. -/
def readPage (s : State) (c off : Nat) : DWord :=
  let x := s.ctx c
  w64 (if off = 0 then readControl s c
    else if 0x100 ≤ off ∧ off < 0x200 then (((x.queues[(off - 0x100) / 0x20]?).map Queue.word).getD 0) / 2 ^ (8 * (off % 0x20))
    else if 0x200 ≤ off ∧ off < 0x280 then (((x.gangs[(off - 0x200) / 0x20]?).map Gang.word).getD 0) / 2 ^ (8 * (off % 0x20))
    else if 0x400 ≤ off ∧ off < 0x500 then (((x.tls[(off - 0x400) / 0x10]?).map Timeline.word).getD 0) / 2 ^ (8 * (off % 0x10))
    else 0)

/-- A write of an aligned 8 bytes of a context's page; the rest of the page holds nothing. -/
def writePage (c off : Nat) (secure : Bool) (v : DWord) (s : State) : State :=
  if off = 0 then writeControl c secure v s
  else if 0x100 ≤ off ∧ off < 0x200 then writeQueue c ((off - 0x100) / 0x20) (off % 0x20 / 8) v s
  else if 0x200 ≤ off ∧ off < 0x280 then writeGang c ((off - 0x200) / 0x20) (off % 0x20 / 8) v s
  else if 0x400 ≤ off ∧ off < 0x500 then writeTimeline c ((off - 0x400) / 0x10) (off % 0x10 / 8) v s
  else s

/-! ### The host's windows (R491) -/

/-- Whether the memory window reaches every byte of a range, and no atomic in flight holds a line of it (R412). -/
def windowReach (s : State) (pa n : Nat) : Bool :=
  (List.range n).all fun i => inTier0 s (pa + i) && !s.quar.any fun q => q.line == (pa + i) / 64

/-- Bytes of a range that a non-secure access may not touch (R253). -/
def secureByte (s : State) (pa n : Nat) : Option Nat :=
  ((List.range n).find? fun i => inSecure s (pa + i)).map fun i => pa + i

/-- The world fault of a host access: it has no effect but its black-box entry (R254). The host is no block and no context: the
memory window belongs to none (R491). -/
def hostWorldFault (pa : Nat) (s : State) : State :=
  bbWrite (((tierOf s pa).map Prod.snd).getD 0) (bbEnt 0x0A Kind.translation 0 0 0 (w64 pa)) s

/-- A write through the memory window, which no cache of the device keeps an older copy of. None while an overflow page is
awaited. -/
def hostWrite (pa : Nat) (secure : Bool) (bs : List Byte) (s : State) : Option State :=
  match if secure then none else secureByte s pa bs.length with
  | some a => some (hostWorldFault a s)
  | none => (performBytes s (at_ pa bs)).map (dropCopies (at_ pa bs))

/-- The host writes its own memory, which the device sees (R491). -/
def ownWrite (pa : Nat) (bs : List Byte) (s : State) : State :=
  { s with mem := s.mem.writeAll ((at_ pa bs).filter fun p => isHost s p.1) }

/-- The SHA-256 of the identity public key, which is its modulus as the image holds one. -/
def identityHash : BitVec 256 := shaNat (toLe 384 Config.identityModulus)

/-- What a report holds and its signature covers, in the order of R489, which gives no layout (log 22). -/
def reportBytes (nonce image : BitVec 256) (fabid : Word) (key : BitVec 256) : List Byte :=
  toLe 32 nonce.toNat ++ toLe 32 image.toNat ++ toLe 4 fabid.toNat ++ toLe 32 key.toNat

/-- The attestation report that a nonce asks for (R489): neither the key nor the salt is stated. -/
def attest (n : BitVec 256) (s : State) : State :=
  { s with
    page := { s.page with
      nonce := n
      report := some
        { nonce := n, image := s.imageSha, fabid := s.fabid, key := identityHash
          signature := pssSign Config.identityModulus Config.identityExponent (toLe 32 (Config.pssSalt s.freeCtr).toNat)
            (reportBytes n s.imageSha s.fabid identityHash) } }
    freeCtr := s.freeCtr + 1 }

/-- The bytes of a report with its signature (log 22). -/
def Report.bytes (r : Report) : List Byte := reportBytes r.nonce r.image r.fabid r.key ++ toLe 384 r.signature

/-- Whether an access stays in the host. -/
def isOwn : HostAcc → Bool
  | .ownWrite _ _ => true
  | _ => false

/-- The host is answered with these bytes. -/
def answerHost (bs : List Byte) (s : State) : State := { s with page := { s.page with answer := bs } }

/-- HOST_ACCESS: served while the link is ACTIVE, but for the host's writes of its own memory. A read changes nothing in the
device. -/
def execHostAccess (a : HostAcc) (s : State) : Host.Outcome State Fault Refusal :=
  let no : Host.Outcome State Fault Refusal := .refused (.notEnabled "HOST_ACCESS")
  if s.gnl.state ≠ 2 ∧ !isOwn a then no else
  match a with
  | .ownWrite pa bs => .next (ownWrite pa bs s)
  | .pageWrite ctx off secure v => if off.toNat % 8 = 0 then .next (writePage ctx.val off.toNat secure v s) else no
  | .pageRead ctx off => if off.toNat % 8 = 0 then .next (answerHost (toLe 8 (readPage s ctx.val off.toNat).toNat) s) else no
  | .gnlstRead => .next (answerHost (toLe 4 (gnlst s.gnl)) s)
  | .vectorRead n =>
    let v := AMap.getD s.page.vectors n.val (0, 0)
    .next (answerHost (toLe 8 v.1.toNat ++ toLe 4 v.2.toNat) s)
  | .reportRead => .next (answerHost ((s.page.report.map Report.bytes).getD []) s)
  | .vectorWrite n addr data => .next { s with page := { s.page with vectors := AMap.set s.page.vectors n.val (addr, data) } }
  | .nonceWrite n => .next (attest n s)
  | .memWrite pa secure bs =>
    if !windowReach s pa bs.length then no else
    match (hostWrite pa secure bs s).or (overflowAt (lackAt s (at_ pa bs)) s) with
    | some t => .next t
    | none => no
  | .memRead pa n secure =>
    if !windowReach s pa n then no else
    match if secure then none else secureByte s pa n with
    | some x => .next (hostWorldFault x s)
    | none => .next (answerHost (s.mem.readN pa n) s)

end Sys2Proof.Machine
end

