-- ==== Sys2Proof/Machine/Dispatch.lean ====
section
/-!
DEFINITION. One arm per constructor of Instr, each the call of that instruction's meaning.
-/

namespace Sys2Proof.Machine

def exec (i : Instr) (s : State) : Host.Outcome State Fault Refusal :=
  match i with
  -- family 000: integer and logic (R195-R204)
  | .iadd g d a b md => Sys2Proof.Machine.execIadd g d a b md s
  | .iaddI g d a im => Sys2Proof.Machine.execIaddI g d a im s
  | .isub g d a b md => Sys2Proof.Machine.execIsub g d a b md s
  | .isubI g d a im => Sys2Proof.Machine.execIsubI g d a im s
  | .imul g d a b md => Sys2Proof.Machine.execImul g d a b md s
  | .imulI g d a im => Sys2Proof.Machine.execImulI g d a im s
  | .imulh g d a b u => Sys2Proof.Machine.execImulh g d a b u s
  | .imad g d a b c md => Sys2Proof.Machine.execImad g d a b c md s
  | .idiv g d a b u => Sys2Proof.Machine.execIdiv g d a b u s
  | .irem g d a b u => Sys2Proof.Machine.execIrem g d a b u s
  | .imin g d a b u => Sys2Proof.Machine.execImin g d a b u s
  | .imax g d a b u => Sys2Proof.Machine.execImax g d a b u s
  | .iabs g d a sat => Sys2Proof.Machine.execIabs g d a sat s
  | .iset g d a b c u => Sys2Proof.Machine.execIset g d a b c u s
  | .lea g d a b sh => Sys2Proof.Machine.execLea g d a b sh s
  | .and g d a b => Sys2Proof.Machine.execAnd g d a b s
  | .andI g d a im => Sys2Proof.Machine.execAndI g d a im s
  | .or g d a b => Sys2Proof.Machine.execOr g d a b s
  | .orI g d a im => Sys2Proof.Machine.execOrI g d a im s
  | .xor g d a b => Sys2Proof.Machine.execXor g d a b s
  | .xorI g d a im => Sys2Proof.Machine.execXorI g d a im s
  | .andn g d a b => Sys2Proof.Machine.execAndn g d a b s
  | .andnI g d a im => Sys2Proof.Machine.execAndnI g d a im s
  | .lop3 g d a b c g0 g1 => Sys2Proof.Machine.execLop3 g d a b c g0 g1 s
  | .shl g d a b => Sys2Proof.Machine.execShl g d a b s
  | .shlI g d a im => Sys2Proof.Machine.execShlI g d a im s
  | .shr g d a b => Sys2Proof.Machine.execShr g d a b s
  | .shrI g d a im => Sys2Proof.Machine.execShrI g d a im s
  | .sar g d a b => Sys2Proof.Machine.execSar g d a b s
  | .sarI g d a im => Sys2Proof.Machine.execSarI g d a im s
  | .rot g d a b r => Sys2Proof.Machine.execRot g d a b r s
  | .rotI g d a im => Sys2Proof.Machine.execRotI g d a im s
  | .bfx g d a f sg => Sys2Proof.Machine.execBfx g d a f sg s
  | .bfi g d a b f => Sys2Proof.Machine.execBfi g d a b f s
  | .popc g d a => Sys2Proof.Machine.execPopc g d a s
  | .clz g d a => Sys2Proof.Machine.execClz g d a s
  | .brev g d a => Sys2Proof.Machine.execBrev g d a s
  -- family 001: FP32 (R205-R210)
  | .fadd g d a b rm md => Sys2Proof.Machine.execFadd g d a b rm md s
  | .faddI g d a im => Sys2Proof.Machine.execFaddI g d a im s
  | .fmul g d a b rm md => Sys2Proof.Machine.execFmul g d a b rm md s
  | .fmulI g d a im => Sys2Proof.Machine.execFmulI g d a im s
  | .ffma g d a b c rm md => Sys2Proof.Machine.execFfma g d a b c rm md s
  | .fmin g d a b md => Sys2Proof.Machine.execFmin g d a b md s
  | .fmax g d a b md => Sys2Proof.Machine.execFmax g d a b md s
  | .fset g d a b c md => Sys2Proof.Machine.execFset g d a b c md s
  | .frcp g d a => Sys2Proof.Machine.execFrcp g d a s
  | .frsq g d a => Sys2Proof.Machine.execFrsq g d a s
  | .fsqrt g d a rm => Sys2Proof.Machine.execFsqrt g d a rm s
  | .fexp2 g d a => Sys2Proof.Machine.execFexp2 g d a s
  | .flog2 g d a => Sys2Proof.Machine.execFlog2 g d a s
  | .fsin g d a => Sys2Proof.Machine.execFsin g d a s
  | .fcos g d a => Sys2Proof.Machine.execFcos g d a s
  | .ftanh g d a => Sys2Proof.Machine.execFtanh g d a s
  | .fclass g d a mask => Sys2Proof.Machine.execFclass g d a mask s
  -- family 010: FP64, packed and conversion (R211-R218)
  | .dadd g d a b rm md => Sys2Proof.Machine.execDadd g d a b rm md s
  | .dmul g d a b rm md => Sys2Proof.Machine.execDmul g d a b rm md s
  | .dfma g d a b c rm md => Sys2Proof.Machine.execDfma g d a b c rm md s
  | .dmin g d a b md => Sys2Proof.Machine.execDmin g d a b md s
  | .dmax g d a b md => Sys2Proof.Machine.execDmax g d a b md s
  | .dset g d a b c md => Sys2Proof.Machine.execDset g d a b c md s
  | .hadd2 g d a b md => Sys2Proof.Machine.execHadd2 g d a b md s
  | .hmul2 g d a b md => Sys2Proof.Machine.execHmul2 g d a b md s
  | .hfma2 g d a b c md => Sys2Proof.Machine.execHfma2 g d a b c md s
  | .idot4 g d a b c sat ua ub => Sys2Proof.Machine.execIdot4 g d a b c sat ua ub s
  | .idot8 g d a b c sat ua ub => Sys2Proof.Machine.execIdot8 g d a b c sat ua ub s
  | .cvt g d a dt st rm ov el => Sys2Proof.Machine.execCvt g d a dt st rm ov el s
  | .qblk g d a b c fmt rm => Sys2Proof.Machine.execQblk g d a b c fmt rm s
  | .dqblk g d a hi rm strict => Sys2Proof.Machine.execDqblk g d a hi rm strict s
  | .pack g d a b w n md => Sys2Proof.Machine.execPack g d a b w n md s
  | .unpk g d a w n sg => Sys2Proof.Machine.execUnpk g d a w n sg s
  -- family 011: moves and lane operations
  | .mov g d a => Sys2Proof.Machine.execMov g d a s
  | .movi g d im => Sys2Proof.Machine.execMovi g d im s
  | .movx g d x o inc => Sys2Proof.Machine.execMovx g d x o inc s
  | .movxw g x o a cc inc => Sys2Proof.Machine.execMovxw g x o a cc inc s
  | .setx g x a b c => Sys2Proof.Machine.execSetx g x a b c s
  | .setxCur g x a => Sys2Proof.Machine.execSetxCur g x a s
  | .setxAdd g x a => Sys2Proof.Machine.execSetxAdd g x a s
  | .sel g d a b c => Sys2Proof.Machine.execSel g d a b c s
  | .plop3 g d a b c g0 g1 => Sys2Proof.Machine.execPlop3 g d a b c g0 g1 s
  | .pmovGet g d => Sys2Proof.Machine.execPmovGet g d s
  | .pmovSet g a mask => Sys2Proof.Machine.execPmovSet g a mask s
  | .killv g a b c => Sys2Proof.Machine.execKillv g a b c s
  | .rdsr g d num wide => Sys2Proof.Machine.execRdsr g d num wide s
  | .wrsr g a num => Sys2Proof.Machine.execWrsr g a num s
  | .nop g => Sys2Proof.Machine.execNop g s
  | .shfl g d a b c md lgw => Sys2Proof.Machine.execShfl g d a b c md lgw s
  | .vote g d a kd => Sys2Proof.Machine.execVote g d a kd s
  | .lred g d a op rm => Sys2Proof.Machine.execLred g d a op rm s
  | .lscan g d a op excl rm => Sys2Proof.Machine.execLscan g d a op excl rm s
  | .matchL g d a md => Sys2Proof.Machine.execMatchL g d a md s
  | .rdlane g d a b => Sys2Proof.Machine.execRdlane g d a b s
  | .elect g d md => Sys2Proof.Machine.execElect g d md s
  -- family 100: memory (R261-R289)
  | .ld g d sz acq base off => Sys2Proof.Machine.execLd g d sz acq base off s
  | .lds g d sz acq base off => Sys2Proof.Machine.execLds g d sz acq base off s
  | .ldc g d sz base off => Sys2Proof.Machine.execLdc g d sz base off s
  | .st g a sz rel base off => Sys2Proof.Machine.execSt g a sz rel base off s
  | .stnt g a sz base off => Sys2Proof.Machine.execStnt g a sz base off s
  | .drainnt g => Sys2Proof.Machine.execDrainnt g s
  | .ldb g d sz buf base off => Sys2Proof.Machine.execLdb g d sz buf base off s
  | .stb g a sz buf base off => Sys2Proof.Machine.execStb g a sz buf base off s
  | .ldbq g d c8 hi strict abuf rm base off => Sys2Proof.Machine.execLdbq g d c8 hi strict abuf rm base off s
  | .atom g d hold op sc od base off => Sys2Proof.Machine.execAtom g d hold op sc od base off s
  | .atomc g d a cmp x sc od sp => Sys2Proof.Machine.execAtomc g d a cmp x sc od sp s
  | .red g a op sc rel base off => Sys2Proof.Machine.execRed g a op sc rel base off s
  | .batom g d hold op sc od buf base off => Sys2Proof.Machine.execBatom g d hold op sc od buf base off s
  | .pref g lv base off => Sys2Proof.Machine.execPref g lv base off s
  | .cctl g op base off => Sys2Proof.Machine.execCctl g op base off s
  | .cctlIl1all g => Sys2Proof.Machine.execCctlIl1all g s
  | .stream g z desc pd => Sys2Proof.Machine.execStream g z desc pd s
  | .strmq g d z => Sys2Proof.Machine.execStrmq g d z s
  | .strmend g z => Sys2Proof.Machine.execStrmend g z s
  -- family 101: engines, winner lists, attention
  | .cekick g d off count => Sys2Proof.Machine.execCekick g d off count s
  | .arrset g c a add => Sys2Proof.Machine.execArrset g c a add s
  | .arrwait g mask => Sys2Proof.Machine.execArrwait g mask s
  | .arrtest g d mask => Sys2Proof.Machine.execArrtest g d mask s
  | .tlrd g d tl enq => Sys2Proof.Machine.execTlrd g d tl enq s
  | .tlwait g tl val => Sys2Proof.Machine.execTlwait g tl val s
  | .lstat g woff gen fmt => Sys2Proof.Machine.execLstat g woff gen fmt s
  | .swap g => Sys2Proof.Machine.execSwap g s
  | .tenq g d off high => Sys2Proof.Machine.execTenq g d off high s
  | .tqrd g d sel clr => Sys2Proof.Machine.execTqrd g d sel clr s
  | .wlinit g k off kw f32 rowsM1 => Sys2Proof.Machine.execWlinit g k off kw f32 rowsM1 s
  | .wlinitReg g k off kw f32 rows => Sys2Proof.Machine.execWlinitReg g k off kw f32 rows s
  | .wlthr g k row val max => Sys2Proof.Machine.execWlthr g k row val max s
  | .wlthrClr g k row => Sys2Proof.Machine.execWlthrClr g k row s
  | .wlrd g d k row e lane => Sys2Proof.Machine.execWlrd g d k row e lane s
  | .wlrdt g d k row seed => Sys2Proof.Machine.execWlrdt g d k row seed s
  | .wlmrg g kd ks row soff => Sys2Proof.Machine.execWlmrg g kd ks row soff s
  | .wlclr g k row seed => Sys2Proof.Machine.execWlclr g k row seed s
  | .normb g d a b kd => Sys2Proof.Machine.execNormb g d a b kd s
  | .attn g d off => Sys2Proof.Machine.execAttn g d off s
  | .rotq g d a b sin => Sys2Proof.Machine.execRotq g d a b sin s
  | .kvslab g n off => Sys2Proof.Machine.execKvslab g n off s
  | .kvslabLen g n len => Sys2Proof.Machine.execKvslabLen g n len s
  | .kvslabRd g d n => Sys2Proof.Machine.execKvslabRd g d n s
  | .kvgrow g d n base off fw c => Sys2Proof.Machine.execKvgrow g d n base off fw c s
  | .smerge g d a rowsM1 hd => Sys2Proof.Machine.execSmerge g d a rowsM1 hd s
  | .smergeFin g d rowsM1 hd rm => Sys2Proof.Machine.execSmergeFin g d rowsM1 hd rm s
  | .splice g n e first delta => Sys2Proof.Machine.execSplice g n e first delta s
  | .spliceFix g n e => Sys2Proof.Machine.execSpliceFix g n e s
  | .spliceClr g n e => Sys2Proof.Machine.execSpliceClr g n e s
  -- family 110: synchronisation and fabric
  | .bar g b => Sys2Proof.Machine.execBar g b s
  | .bara g b => Sys2Proof.Machine.execBara g b s
  | .barw g b => Sys2Proof.Machine.execBarw g b s
  | .barq g d b => Sys2Proof.Machine.execBarq g d b s
  | .fence g od sc => Sys2Proof.Machine.execFence g od sc s
  | .cljoin g d set => Sys2Proof.Machine.execCljoin g d set s
  | .clleave g => Sys2Proof.Machine.execClleave g s
  | .sleep g n => Sys2Proof.Machine.execSleep g n s
  | .sleepReg g a => Sys2Proof.Machine.execSleepReg g a s
  | .fmsg g addr soff doff lenM1 c => Sys2Proof.Machine.execFmsg g addr soff doff lenM1 c s
  | .fpoll g d c clr => Sys2Proof.Machine.execFpoll g d c clr s
  | .fpollBind g e => Sys2Proof.Machine.execFpollBind g e s
  | .fpollUnbind g => Sys2Proof.Machine.execFpollUnbind g s
  | .coll g d off => Sys2Proof.Machine.execColl g d off s
  | .noise g d key step idx kd => Sys2Proof.Machine.execNoise g d key step idx kd s
  | .cbpost g pred off c budget => Sys2Proof.Machine.execCbpost g pred off c budget s
  -- family 111: control and system
  | .bra g target => Sys2Proof.Machine.execBra g target s
  | .brx g a => Sys2Proof.Machine.execBrx g a s
  | .ret g a => Sys2Proof.Machine.execRet g a s
  | .call g link target => Sys2Proof.Machine.execCall g link target s
  | .callIndirect g link a => Sys2Proof.Machine.execCallIndirect g link a s
  | .exit g => Sys2Proof.Machine.execExit g s
  | .meld g p t => Sys2Proof.Machine.execMeld g p t s
  | .melde g => Sys2Proof.Machine.execMelde g s
  | .rnset g t path first va vb vc => Sys2Proof.Machine.execRnset g t path first va vb vc s
  | .rnsetClr g t => Sys2Proof.Machine.execRnsetClr g t s
  | .serb g e => Sys2Proof.Machine.execSerb g e s
  | .sere g => Sys2Proof.Machine.execSere g s
  | .refill g p => Sys2Proof.Machine.execRefill g p s
  | .yield g => Sys2Proof.Machine.execYield g s
  | .nopre g => Sys2Proof.Machine.execNopre g s
  | .preok g => Sys2Proof.Machine.execPreok g s
  | .brk g code => Sys2Proof.Machine.execBrk g code s
  | .trap g code => Sys2Proof.Machine.execTrap g code s
  | .trapret g skip => Sys2Proof.Machine.execTrapret g skip s
  | .tlbir g base len asid => Sys2Proof.Machine.execTlbir g base len asid s
  | .tlback g => Sys2Proof.Machine.execTlback g s
  | .errq g d peek => Sys2Proof.Machine.execErrq g d peek s
  | .errqLog g d peek => Sys2Proof.Machine.execErrqLog g d peek s
  | .bblog g code a => Sys2Proof.Machine.execBblog g code a s
  -- queue entries and the life of a launch
  | .entryNop die => Sys2Proof.Machine.execEntryNop die s
  | .entryLaunch die => Sys2Proof.Machine.execEntryLaunch die s
  | .entryGraph die => Sys2Proof.Machine.execEntryGraph die s
  | .entryWait die => Sys2Proof.Machine.execEntryWait die s
  | .entrySignal die => Sys2Proof.Machine.execEntrySignal die s
  | .launchCompletion uid => Sys2Proof.Machine.execLaunchCompletion uid s
  | .launchFailure uid => Sys2Proof.Machine.execLaunchFailure uid s
  | .launchReplay uid => Sys2Proof.Machine.execLaunchReplay uid s
  -- resident task graphs
  | .kernelNode die gr node => Sys2Proof.Machine.execKernelNode die gr node s
  | .copyNode die gr node => Sys2Proof.Machine.execCopyNode die gr node s
  | .condNode die gr node => Sys2Proof.Machine.execCondNode die gr node s
  | .whileNode die gr node => Sys2Proof.Machine.execWhileNode die gr node s
  | .waitmsgNode die gr node => Sys2Proof.Machine.execWaitmsgNode die gr node s
  | .signalNode die gr node => Sys2Proof.Machine.execSignalNode die gr node s
  | .callbackNode die gr node => Sys2Proof.Machine.execCallbackNode die gr node s
  | .graphFailure die gr => Sys2Proof.Machine.execGraphFailure die gr s
  -- placement, gangs, pre-emption, in-field test
  | .placement die => Sys2Proof.Machine.execPlacement die s
  | .gangAdmission ctx gang => Sys2Proof.Machine.execGangAdmission ctx gang s
  | .gangArmed ctx gang => Sys2Proof.Machine.execGangArmed ctx gang s
  | .save uid => Sys2Proof.Machine.execSave uid s
  | .flush uid => Sys2Proof.Machine.execFlush uid s
  | .resume uid => Sys2Proof.Machine.execResume uid s
  | .nonPreemptibleOverrun uid warp => Sys2Proof.Machine.execNonPreemptibleOverrun uid warp s
  | .inFieldTest die cluster => Sys2Proof.Machine.execInFieldTest die cluster s
  -- selection, time, strikes
  | .selection core sub => Sys2Proof.Machine.execSelection core sub s
  | .sleepEnd uid warp split => Sys2Proof.Machine.execSleepEnd uid warp split s
  -- copy engine
  | .copy core => Sys2Proof.Machine.execCopy core s
  | .copy2d core => Sys2Proof.Machine.execCopy2d core s
  | .gather core => Sys2Proof.Machine.execGather core s
  | .scatter core => Sys2Proof.Machine.execScatter core s
  | .fill core => Sys2Proof.Machine.execFill core s
  | .decode core => Sys2Proof.Machine.execDecode core s
  | .compact core => Sys2Proof.Machine.execCompact core s
  | .relocate core => Sys2Proof.Machine.execRelocate core s
  | .pagein core => Sys2Proof.Machine.execPagein core s
  | .requestRetirement core op => Sys2Proof.Machine.execRequestRetirement core op s
  -- tile tasks, planes, attention
  | .dispatchPoint die cluster => Sys2Proof.Machine.execDispatchPoint die cluster s
  | .mma core => Sys2Proof.Machine.execMma core s
  | .mtopk core => Sys2Proof.Machine.execMtopk core s
  | .raggedMma core => Sys2Proof.Machine.execRaggedMma core s
  | .taskCommit core => Sys2Proof.Machine.execTaskCommit core s
  | .swapTakesEffect core => Sys2Proof.Machine.execSwapTakesEffect core s
  | .planeLoadEnd core => Sys2Proof.Machine.execPlaneLoadEnd core s
  | .narrowMode core => Sys2Proof.Machine.execNarrowMode core s
  | .attentionTask core => Sys2Proof.Machine.execAttentionTask core s
  | .attentionCommit core => Sys2Proof.Machine.execAttentionCommit core s
  -- collectives and fabric
  | .collSum tag seq => Sys2Proof.Machine.execCollSum tag seq s
  | .collMax tag seq => Sys2Proof.Machine.execCollMax tag seq s
  | .collMin tag seq => Sys2Proof.Machine.execCollMin tag seq s
  | .collWlmerge tag seq => Sys2Proof.Machine.execCollWlmerge tag seq s
  | .collArgmax tag seq => Sys2Proof.Machine.execCollArgmax tag seq s
  | .collAccept tag seq => Sys2Proof.Machine.execCollAccept tag seq s
  | .messageDelivery die remote => Sys2Proof.Machine.execMessageDelivery die remote s
  | .acknowledge msg => Sys2Proof.Machine.execAcknowledge msg s
  | .tlbAcknowledge op holder => Sys2Proof.Machine.execTlbAcknowledge op holder s
  | .leaveAcknowledge uid => Sys2Proof.Machine.execLeaveAcknowledge uid s
  -- the package
  | .memoryOperationCompletion uid warp op => Sys2Proof.Machine.execMemoryOperationCompletion uid warp op s
  | .fshareOperationEnd die => Sys2Proof.Machine.execFshareOperationEnd die s
  | .predicateBudgetOverrun die => Sys2Proof.Machine.execPredicateBudgetOverrun die s
  | .clusterTestPass die cluster => Sys2Proof.Machine.execClusterTestPass die cluster s
  | .preEmptionRequest uid bound saveOnly => Sys2Proof.Machine.execPreEmptionRequest uid bound saveOnly s
  -- steps from outside the device, and steps that decide nothing by themselves
  | .controlWordWrite ctx secure v => Sys2Proof.Machine.execControlWordWrite ctx secure v s
  | .doorbell ctx q tail => Sys2Proof.Machine.execDoorbell ctx q tail s
  | .skip ctx q => Sys2Proof.Machine.execSkip ctx q s
  | .timelineValueWrite ctx n v => Sys2Proof.Machine.execTimelineValueWrite ctx n v s
  | .arm ctx gang => Sys2Proof.Machine.execArm ctx gang s
  | .release ctx gang => Sys2Proof.Machine.execRelease ctx gang s
  | .fshareHi die secure v => Sys2Proof.Machine.execFshareHi die secure v s
  | .ovfadd die secure v => Sys2Proof.Machine.execOvfadd die secure v s
  | .fqrespRetry die slot => Sys2Proof.Machine.execFqrespRetry die slot s
  | .fqrespDeliver die slot => Sys2Proof.Machine.execFqrespDeliver die slot s
  | .fqrespFail die slot => Sys2Proof.Machine.execFqrespFail die slot s
  | .recover secure => Sys2Proof.Machine.execRecover secure s
  | .registerWrite die num secure v => Sys2Proof.Machine.execRegisterWrite die num secure v s
  | .callbackVerdict die v => Sys2Proof.Machine.execCallbackVerdict die v s
  | .clusterTestFailure die cluster => Sys2Proof.Machine.execClusterTestFailure die cluster s
  | .strike die core cluster => Sys2Proof.Machine.execStrike die core cluster s
  | .shadowMismatch uid warp => Sys2Proof.Machine.execShadowMismatch uid warp s
  | .postVerdict die v => Sys2Proof.Machine.execPostVerdict die v s
  | .powerAlarmRise die temp vmon board => Sys2Proof.Machine.execPowerAlarmRise die temp vmon board s
  | .powerAlarmFall die temp vmon board => Sys2Proof.Machine.execPowerAlarmFall die temp vmon board s
  | .thermalShutdown die cluster temp => Sys2Proof.Machine.execThermalShutdown die cluster temp s
  | .boot image => Sys2Proof.Machine.execBoot image s
  | .gnlActive lanes => Sys2Proof.Machine.execGnlActive lanes s
  | .gnlWakeN cycles => Sys2Proof.Machine.execGnlWakeN cycles s
  | .hostAccess a => Sys2Proof.Machine.execHostAccess a s
  | .portDown p => Sys2Proof.Machine.execPortDown p s
  | .epochBoundary => Sys2Proof.Machine.execEpochBoundary s
  | .raceCheckAtHome => Sys2Proof.Machine.execRaceCheckAtHome s
  | .gnlTrain => Sys2Proof.Machine.execGnlTrain s
  | .gnlRetrain => Sys2Proof.Machine.execGnlRetrain s
  | .gnlDown => Sys2Proof.Machine.execGnlDown s
  | .storePerformedAtHome => Sys2Proof.Machine.execStorePerformedAtHome s
  | .mainPowerLoss => Sys2Proof.Machine.execMainPowerLoss s

end Sys2Proof.Machine
end

