-- ==== Sys2Proof/Machine/Sched.lean ====
section
/-!
DEFINITION. Which step comes next (log 2). The agenda holds the steps of the present cycle in their order. When it is empty
time goes on, and the next cycle's agenda is chosen: a step from outside, the issue of some of the running splits, a
selection or a step of the device. The choice is free; the order within a cycle is the spec's (R153, R157).
-/

namespace Sys2Proof.Machine

/-! ### Issue -/

/-- Whether a split issues: it runs on a port and nothing holds it. -/
def runs (w : Warp) (sp : Split) : Bool :=
  sp.port.isSome && sp.wait == .none && !clauseEnded sp && !w.retired

/-- The splits that can issue now, in the order of blocks, warps and selection. -/
def running (s : State) : List Cursor :=
  (s.blocks.filter fun p => p.2.state != .saved && p.2.state != .flushing && dieUp s p.2.place.die).flatMap fun p =>
    p.2.warps.flatMap fun q =>
      let mine := (q.2.splits.filter fun x => runs q.2 x.2).map fun x => (x.2.sel, (⟨p.1, q.1, x.1⟩ : Cursor))
      match mine with
      | [a, b] => if a.1 ≤ b.1 then [a.2, b.2] else [b.2, a.2]
      | l => l.map Prod.snd

/-- The word at the current instruction, of the clause as it was fetched (R118, R19). -/
def curWord (s : State) : Option DWord := s.curSplit.code[s.curSplit.idx]?

/-! ### Shadow warps (R467) -/

/-- Where a split stands. -/
def standing (s : State) (c : Cursor) : Option (Nat × Nat × Mask × Option Nat) :=
  (AMap.get? (AMap.getD (s.block c.blk).warps c.warp default).splits c.split).map fun sp => (sp.hdr, sp.idx, sp.left, sp.port)

/-- The v registers that differ from what they were. -/
def wroteRegs (a b : Regs) : List (Nat × Lanes Word) :=
  (b.v.filter fun x => AMap.get? a.v x.1 != some x.2).map fun x => (x.1, x.2.vals)

/-- An instruction that a warp of a `.paired` kernel has issued stands in the queue of its shadow. -/
def handOver (s t : State) : State :=
  match curWord s with
  | some w =>
    if s.curLaunch.hdr.paired && standing t s.cur != standing s s.cur then
      t.updWarpOf s.cur.blk s.cur.warp fun x => { x with shadow := x.shadow ++
        [⟨s.instant, w, s.members, s.curWarp.reg, wroteRegs s.curWarp.reg x.reg⟩] }
    else t
  | none => t

/-- What an instruction answers, with the instruction in the queue of its warp's shadow when the state goes on. -/
def handed (s : State) (o : Host.Outcome State Fault Refusal) : Host.Outcome State Fault Refusal :=
  match o with
  | .next t => .next (handOver s t)
  | x => x

/-- Whether a warp is as far ahead of its shadow as it may be. -/
def tooFar (s : State) : Bool := s.curLaunch.hdr.paired && decide (64 ≤ s.curWarp.shadow.length)

/-- Changes what the shadows have yet to execute. -/
def updShadows (f : List ShadowRec → List ShadowRec) (s : State) : State :=
  if s.blocks.all fun p => p.2.warps.all fun w => w.2.shadow.isEmpty then s else
  { s with blocks := AMap.mapVals s.blocks fun _ b => { b with
      warps := AMap.mapVals b.warps fun _ w => { w with shadow := f w.shadow } } }

/-- As time goes on every shadow executes some instructions, by a free choice, and at the end of an epoch all of the epoch before,
so that output that is due has been compared (R464, log 167). -/
def shadowsMove (s : State) : State :=
  if s.now % 1024 = 1023 then updShadows (fun l => l.filter fun r => decide (s.epoch ≤ epochOf (instantTime r.t))) s
  else updShadows (fun l => l.drop (1 + Config.freeNat s.freeCtr % 64)) s

/-- Issues the current instruction of a split (R134), after its warp's streams have fetched ahead (R287): an encoding that is no
instruction faults every lane. A warp that is too far ahead of its shadow waits (R467). -/
def issue (c : Cursor) (s : State) : Host.Outcome State Fault Refusal :=
  let s := { s with cur := c }
  if s.curBlock.state = .saved ∨ s.curBlock.state = .flushing ∨ !runs s.curWarp s.curSplit then .next s
  else if tooFar s then .next s.waits else
  match (curWord s).bind decode with
  | none => .next (handOver s (raiseTrap (s.trapReq Kind.illegal s.members) s))
  | some i => handed (fetchStreams s) (exec i (fetchStreams s))

/-- A step that could not come about changes nothing. -/
def cameAbout (o : Host.Outcome State Fault Refusal) (s : State) : Host.Outcome State Fault Refusal :=
  match o with
  | .refused (.notEnabled _) => .next s
  | x => x

/-- Takes one step of the agenda. -/
def runTurn (t : Turn) (s : State) : Host.Outcome State Fault Refusal :=
  match t with
  | .issue c => issue c s
  | .event i => cameAbout (exec i s) s

/-! ### What falls due (R79, R110, R112, R492) -/

/-- The %sync time at which the watchdog of a warp falls due (R110). -/
def overrunAt (w : Warp) : Option Nat := if w.noPre && !w.overrun then some (w.watchAt + 95000) else none

/-- The watchdogs that run. -/
def watchdogs (s : State) : List (Nat × Instr) :=
  (s.blocks.filter fun p => dieUp s p.2.place.die).flatMap fun p => p.2.warps.filterMap fun q =>
    (overrunAt q.2).map fun t => (t, .nonPreemptibleOverrun p.1 q.1)

/-- The time at which the next step of a cluster's in-field test falls due (R112). -/
def testAt (d : Die) (cl : Nat) : Option Nat :=
  match d.tests.find? fun t => t.cluster == cl with
  | some t => if t.open_ then none else some t.from_
  | none => testDueAt d cl

/-- The time at which the control core's head run has had its budget (R79). -/
def budgetAt (d : Die) : Option Nat :=
  match d.calls with
  | .node _ _ desc :: _ => some (d.callAt + 1024 * (CallF.of desc).budget)
  | .post _ _ _ _ _ budget :: _ => some (d.callAt + 1024 * budget)
  | _ => none

/-- The time at which a link that trains or retrains goes DOWN (R492). -/
def downAt (s : State) : List (Nat × Instr) :=
  if s.gnl.state = 1 ∨ s.gnl.state = 3 then [(s.gnl.since + 95001, .gnlDown)] else []

/-- What falls due on a die. -/
def dieDuties (s : State) (d : Fin 4) : List (Nat × Instr) :=
  List.append ((List.finRange 12).filterMap fun c => (testAt (s.die d.val) c.val).map fun t => (t, .inFieldTest d c))
    ((budgetAt (s.die d.val)).toList.map fun t => (t, .predicateBudgetOverrun d))

/-- The steps that come about at times of their own, with those times. -/
def duties (s : State) : List (Nat × Instr) :=
  List.flatten [downAt s, watchdogs s, ((List.finRange 4).filter fun d => dieUp s d.val).flatMap (dieDuties s)]

/-- Whether a step of the device can come about now. -/
def enabled (s : State) (i : Instr) : Bool :=
  match exec i s with
  | .refused _ => false
  | _ => true

/-- What is due now and can come about. -/
def dueNow (s : State) : Option Instr := ((duties s).find? fun x => decide (x.1 ≤ s.now) && enabled s x.2).map Prod.snd

/-- Whether a head of a hardware cluster's queues is to be considered in the very next cycle (R316). -/
def nextCycle (s : State) : Bool :=
  s.dies.any fun d => d.2.clusters.toList.any fun c => c.at_ == s.now && !c.popped.isEmpty

/-- The latest time that the next cycle may have: the last one of the epoch, no later than what falls due next, and the very
next one where a queue's new head is to be considered. -/
def latest (s : State) : Nat :=
  let soon := ((duties s).filter fun x => decide (s.now < x.1)).foldl (fun m x => min m x.1) (s.epoch * 1024 + 1023)
  if nextCycle s then min soon (s.now + 1) else soon

/-! ### Steps of the device -/

/-- Steps that only the world outside takes, and those of the device that it alone decides on. -/
def isOutside : Instr → Bool
  | .controlWordWrite .. | .doorbell .. | .skip .. | .timelineValueWrite .. | .arm .. | .release .. | .fshareHi ..
  | .ovfadd .. | .fqrespRetry .. | .fqrespDeliver .. | .fqrespFail .. | .recover .. | .registerWrite .. | .strike ..
  | .shadowMismatch .. | .powerAlarmRise .. | .powerAlarmFall .. | .thermalShutdown .. | .boot .. | .gnlTrain
  | .gnlActive .. | .gnlRetrain | .gnlDown | .gnlWakeN .. | .hostAccess .. | .portDown .. | .mainPowerLoss
  | .clusterTestFailure .. | .callbackVerdict .. | .postVerdict .. | .messageDelivery _ (some _) => true
  | _ => false

/-- The steps of a graph's nodes. -/
def nodeEvents (d : Fin 4) (gr n : Nat) (x : Node) : List Instr :=
  if x.st = .ready ∨ x.st = .running then
    match x.type with
    | 0 => [.kernelNode d gr n]
    | 1 => [.copyNode d gr n]
    | 2 => [.condNode d gr n]
    | 3 => [.whileNode d gr n]
    | 4 => [.waitmsgNode d gr n]
    | 5 => [.signalNode d gr n]
    | _ => [.callbackNode d gr n]
  else []

/-- The steps of a die that have no argument but the die. -/
def dieAlone (d : Fin 4) : List Instr :=
  [.entryNop d, .entryLaunch d, .entryGraph d, .entryWait d, .entrySignal d, .placement d, .messageDelivery d none,
    .fshareOperationEnd d, .predicateBudgetOverrun d]

/-- The steps of a hardware cluster. -/
def clusterEvents (d : Fin 4) (c : Fin 12) : List Instr := [.inFieldTest d c, .clusterTestPass d c, .dispatchPoint d c]

/-- The steps of a resident graph. -/
def graphEvents (d : Fin 4) (gr : Nat) (g : Graph) : List Instr :=
  .graphFailure d gr :: g.nodes.flatMap fun n => nodeEvents d gr n.1 n.2

/-- The steps of a die. -/
def dieEvents (s : State) (d : Fin 4) : List Instr :=
  List.append (dieAlone d) (List.append ((s.die d.val).graphs.flatMap fun g => graphEvents d g.1 g.2)
    ((List.finRange 12).flatMap (clusterEvents d)))

/-- The steps of a core and its engines that have no argument but the core. -/
def coreAlone (c : Nat) : List Instr :=
  [.selection c 0, .selection c 1, .selection c 2, .selection c 3, .copy c, .copy2d c, .gather c, .scatter c, .fill c,
    .decode c, .compact c, .relocate c, .pagein c, .mma c, .mtopk c, .raggedMma c, .taskCommit c, .swapTakesEffect c,
    .planeLoadEnd c, .narrowMode c, .attentionTask c, .attentionCommit c]

/-- The steps of a core and its engines. -/
def coreEvents (s : State) (c : Nat) : List Instr :=
  List.append (coreAlone c) ((s.core c).body.copies.map fun o => .requestRetirement c o.id)

/-- The steps of a warp. -/
def warpEvents (u wn : Nat) (w : Warp) : List Instr :=
  .nonPreemptibleOverrun u wn :: List.append (w.splits.map fun x => .sleepEnd u wn x.1)
    (w.ord.ops.map fun o => .memoryOperationCompletion u wn o.num)

/-- The steps of a block. -/
def blockEvents (u : Nat) (b : Block) : List Instr :=
  .save u :: .flush u :: .resume u :: .leaveAcknowledge u :: .preEmptionRequest u 0 true :: .preEmptionRequest u 0 false ::
    List.append (b.preReq.toList.map fun r => .preEmptionRequest u r.bound r.saveOnly)
      (b.warps.flatMap fun w => warpEvents u w.1 w.2)

/-- The steps of a launch, a context and a collective. -/
def launchEvents (l : Nat) : List Instr := [.launchCompletion l, .launchFailure l, .launchReplay l]
def gangEvents (c : Nat) (g : Fin 4) : List Instr := [.gangAdmission (Fin.ofNat 64 c) g, .gangArmed (Fin.ofNat 64 c) g]
def collEvents (t q : Word) : List Instr :=
  [.collSum t q, .collMax t q, .collMin t q, .collWlmerge t q, .collArgmax t q, .collAccept t q]

/-- The die of a holder of translations. -/
def holderDie (h : Nat) : Nat := if h < 192 then h / 48 else if h < 384 then (h - 192) / 48 else h - 384

/-- The steps of the package. -/
def packageEvents (s : State) : List Instr :=
  .storePerformedAtHome :: List.flatten [
    (s.launches.filter fun p => dieUp s p.2.die).flatMap fun p => launchEvents p.1,
    (s.contexts.filter fun p => dieUp s (p.1 / 16)).flatMap fun p => (List.finRange 4).flatMap (gangEvents p.1),
    s.colls.flatMap fun p => collEvents p.2.tag p.2.seq,
    s.acks.map fun p => .acknowledge p.1.id,
    s.tlbInvs.flatMap fun p => (p.2.holders.filter fun h => dieUp s (holderDie h.1)).map fun h => .tlbAcknowledge p.1 h.1]

/-- The cores that hold a block or have work of their own. -/
def activeCores (s : State) : List Nat :=
  ((List.append (s.blocks.map fun p => p.2.place.coreNo) (s.cores.map Prod.fst)).eraseDups).filter fun c => dieUp s (c / 48)

/-- Every step of the device that could come about now, and some that could not. -/
def deviceEvents (s : State) : List Instr :=
  List.flatten [((List.finRange 4).filter fun d => dieUp s d.val).flatMap (dieEvents s), (activeCores s).flatMap (coreEvents s),
    (s.blocks.filter fun p => dieUp s p.2.place.die).flatMap fun p => blockEvents p.1 p.2, packageEvents s]

/-- The steps of the device that could come about. -/
def enabledEvents (s : State) : List Instr := (deviceEvents s).filter (enabled s)

/-! ### What comes about at once -/

/-- A flush that has been chosen, and the answer to a request that no region holds any longer (R102, R107). -/
def blockUrgent (u : Nat) (b : Block) : List Instr :=
  List.append (if b.state = .flushing then [.flush u] else [])
    (b.preReq.toList.map fun r => .preEmptionRequest u r.bound r.saveOnly)

/-- Whether a core's attention unit begins a task, or its task takes the array. -/
def attnBegins (s : State) (c : Nat) : Bool :=
  let k := (s.core c).body
  attnReady s c || k.attnRun.any fun r => !r.computed && r.waitSlot.isNone && attnTakes k r

/-- The clusters of some cores. -/
def clustersOf (cs : List Nat) : List (Fin 4 × Fin 12) :=
  ((cs.map fun c => (c / 48, c % 48 / 4)).eraseDups).map fun x => (Fin.ofNat 4 x.1, Fin.ofNat 12 x.2)

/-- Steps that the spec gives no time to wait, in their order within a cycle: swaps, the start of attention tasks, dispatch
points (R316, R370). -/
def atOnce (s : State) : List Instr :=
  let cs := activeCores s
  List.flatten [(s.blocks.filter fun p => dieUp s p.2.place.die).flatMap fun p => blockUrgent p.1 p.2,
    cs.map .swapTakesEffect, (cs.filter (attnBegins s)).map .attentionTask, (clustersOf cs).map fun x => .dispatchPoint x.1 x.2]

/-- Whether a split's instruction is an `LSTAT` that waits no longer (R316). -/
def loadStarts (s : State) (c : Cursor) : Bool :=
  let t := { s with cur := c }
  t.curSplit.stalled && (match (curWord t).bind decode with
    | some (.lstat ..) => true
    | _ => false) && match issue c s with
    | .next x => !x.curSplit.stalled
    | _ => false

/-- What comes about before time goes on. -/
def urgent (s : State) : Option Turn :=
  match (atOnce s).find? (enabled s) with
  | some i => some (.event i)
  | none => ((running s).find? (loadStarts s)).map .issue

/-! ### The choice -/

/-- A free choice of the running splits that issue in a cycle. -/
def issueGroup (n : Nat) (s : State) : List Turn :=
  let l := running s
  let p := l.zipIdx.filter fun x => Config.freeAt n x.2
  (if p.isEmpty then l else p.map Prod.fst).map .issue

/-- The choices for the agenda of the next cycle. -/
def choices (n : Nat) (s : State) : List (List Turn) :=
  let g := issueGroup n s
  (if g.isEmpty then [] else [g]) ++ (enabledEvents s).map fun i => [.event i]

/-- Steps from outside that come about before the device has booted: the image, the link, the host and the power. -/
def isEarly : Instr → Bool
  | .boot .. | .gnlTrain | .gnlActive .. | .gnlRetrain | .gnlDown | .gnlWakeN .. | .hostAccess .. | .mainPowerLoss => true
  | _ => false

/-- What comes from outside at the n-th free choice. -/
def outsideTurns (s : State) (n : Nat) : List Turn :=
  match Config.outside n with
  | some i => if isOutside i && (s.booted || isEarly i) then [.event i] else []
  | none => []

/-! ### The next cycle -/

/-- A frame that system software gives to the snapshot pool (R81): aligned to its size, in HBM, and not in the pool. -/
def frameOk (s : State) (f : Nat × Nat) : Bool :=
  (f.2 == 16 || f.2 == 21) && f.1 % 2 ^ f.2 == 0 && decide (f.1 < 0x6000000000) && !s.snapPool.contains f

/-- What happens to memory from outside as time goes on: DRAM errors show (R259), CXL devices report poison (R495), and system
software reserves frames (R81). -/
def memoryNews (s : State) : State :=
  let s := match Config.dramError s.freeCtr with
    | some (sec, errs) => dramShows sec errs s
    | none => s
  let s := match Config.cxlPoison s.freeCtr with
    | some sec => if (tierOf s (sec * 32)).any fun t => t.1 == 1 then setPoison sec s else s
    | none => s
  match Config.snapFrame s.freeCtr with
  | some f => if frameOk s f then { s with snapPool := s.snapPool ++ [f] } else s
  | none => s

/-- New readings of a die's monitors (R485), where they leave its alarm as it stands and no cluster is at 120 degrees: others come by
the steps of the alarm (R486). -/
def takeReading (s : State) : State :=
  match Config.reading s.freeCtr with
  | none => s
  | some (d, temp, vmon, pmon, board) =>
    let m := { ((s.die d).mon.read temp vmon board) with pmon := pmon }
    let moves := if m.alarm then !alarmCause m && cooled m else alarmCause m
    if 4 ≤ d || moves || m.temp.toList.any (fun t => decide (120 * 16 ≤ tempOf t)) then s
    else s.updDie d fun x => { x with mon := m }

/-- Time goes on: to the boundary at the end of an epoch, or by a free choice. -/
def timeMoves (s : State) : State :=
  let s := shadowsMove s
  if s.now % 1024 = 1023 then
    if enabled s .epochBoundary then { s with agenda := [.event .epochBoundary], tick := 0, moved := true }
    else { s with agenda := [.event .raceCheckAtHome] }
  else
    let (n, s) := (takeReading (memoryNews (evictRecords s))).free
    { s with now := min (s.now + 1 + n) (latest s), tick := 0, moved := true }

/-- What happens in the present cycle: what is due, or a free choice. -/
def happens (s : State) : State :=
  match dueNow s with
  | some i => { s with agenda := [.event i] }
  | none =>
    let (n, s) := s.free
    let cs := choices s.freeCtr s
    { s with
      turn := n
      moved := false
      agenda := outsideTurns s s.freeCtr ++ (if cs.isEmpty then [] else cs[n % cs.length]?.getD [])
      freeCtr := s.freeCtr + 1 }

/-- What comes next: what waits for nothing, then what happens in a cycle that has begun, then the next cycle. -/
def plan (s : State) : State :=
  match urgent s with
  | some t => { s with agenda := [t] }
  | none => if s.moved then happens s else timeMoves s

/-- One step: the head of the agenda, or, when it is empty, the choice of the next cycle. -/
def stepOnce (s : State) : Host.Outcome State Fault Refusal :=
  match s.agenda with
  | [] => .next (plan s)
  | t :: rest => runTurn t { s with agenda := rest }

/-! ### Placing an instruction word for the next step (log 5) -/

/-- The class of a clause that admits a word, a meld clause where its guard or its opcode needs one. -/
def classFor (w : DWord) : Nat :=
  let f := famOf w
  let path := (w.extractLsb' 50 4).toNat
  if opcOf w = 0x389 ∨ (14 ≤ path ∧ f ≤ 4) then 4
  else if f ≤ 3 then 0 else if f = 4 then 1 else if f ≤ 6 then 2 else 3

/-- The header of a clause of one instruction. -/
def headerFor (w : DWord) : DWord :=
  BitVec.ofNat 64 (classFor w * 2 ^ 61 + 63 * 2 ^ 32 + (if classFor w = 4 then 2 ^ 31 else 0))

/-- A launch of one block with one warp whose code is at virtual address 0x10000. -/
def probeLaunch : Launch :=
  { (default : Launch) with
    hdr := { (default : Header) with regs := 256, sregs := 64, blkBars := 16, arrivals := 16, codeSize := 16, trapOff := 0xFFFFFFFF }
    desc := { (default : Desc) with gridX := 1, gridY := 1, gridZ := 1, threads := 32, clusterBlocks := 1, floorClusters := 1, kernel := 0x10000 }
    headers := [0] }

/-- Its warp, at the one instruction of its clause. -/
def probeWarp (w : DWord) : Warp :=
  let all : Mask := 0xFFFFFFFF
  let lane := LaneState.start all
  { Warp.start all with
    lane := if classFor w = 4 then { lane with inMeld := all } else lane
    splits := [(0, { Split.start all 0 with port := some 0, header := headerFor w, code := [w] })] }

/-- Its block, on core 0 of die 0. -/
def probeBlock (u : Nat) (w : DWord) : Block :=
  { (default : Block) with
    launch := u
    warps := [(0, probeWarp w)]
    w := Vector.replicate 32 0
    wOwner := Vector.replicate 32 none
    wPend := Vector.replicate 32 0
    bphase := Vector.replicate 16 0
    eng := BlkEng.reset }

/-- The word stands in a clause that is running, and the next step issues it. -/
def placeWord (s : State) (w : DWord) : State :=
  let u := s.uidCtr
  let t := { s with
    booted := true
    uidCtr := u + 1
    launches := AMap.set s.launches u probeLaunch
    blocks := AMap.set s.blocks u (probeBlock u w)
    mem := s.mem.writeAll (at_ 0x10000 (toLe 8 (headerFor w).toNat ++ toLe 8 w.toNat))
    agenda := [.issue ⟨u, 0, 0⟩] }
  t.updCore 0 fun k => { k with tlb := tlbPut 256 k.tlb { asid := 0, world := false, vbase := 0x10000, lg := 16, leaf := 0x100B } }

end Sys2Proof.Machine
end

