-- ==== Sys2Proof/Certificates/Slice0/Compute.lean ====
section
/-!
DEFINITION. What the entries of families 000 to 011 say of the instructions that read sources and write one destination: the
guard, the sources, the destination and, lane by lane, the result and its events. The results are written from the rules in
their own arithmetic, not by the meanings' functions, where the rule gives one.
-/

namespace Sys2Proof.Machine

/-- An instruction that computes: its guard, sources and destination, whether it writes a pair, and the low word, the high
word and the events of each active lane. -/
structure Compute where
  g : Guard
  qs : List SrcSpec
  d : Dst
  wide : Bool := false
  val : State → Reading → Fin 32 → Word × Word × Flags

/-- The values it puts into its destination. -/
def Compute.puts (o : Compute) (s : State) (r : Reading) : List Put :=
  ⟨o.d.op, o.d.cc.val, s.active o.g, tab fun l => (o.val s r l).1⟩ ::
    (if o.wide then [⟨nextReg o.d.op 1, o.d.cc.val, s.active o.g, tab fun l => (o.val s r l).2.1⟩] else [])

/-- The state after it: reads and writes, the events of its active lanes, the next instruction. -/
def Compute.after (o : Compute) (s : State) (r : Reading) : State :=
  advance (setFlags (flagsOn (s.active o.g) fun l => (o.val s r l).2.2) (written r (o.puts s r) s))

/-- When it executes normally: its checks at issue pass, its sources can be read, its destination written. -/
def Compute.Normal (o : Compute) (s : State) (r : Reading) : Prop :=
  checkIssue o.g (opsOf o.d.op o.qs) false s = .ok () ∧ readAll o.g o.qs s = .ok r ∧
    destCheck r (o.puts s r) s = .ok ()

/-! ### Shapes -/

/-- One word from one, two or three one-word sources. -/
def c1 (g : Guard) (d : Dst) (a : SrcSpec) (f : Word → Word × Flags) : Compute :=
  { g, d, qs := [a], val := fun _ r l => let x := f (r.w 0)[l]; (x.1, 0, x.2) }
def c2 (g : Guard) (d : Dst) (a b : SrcSpec) (f : Word → Word → Word × Flags) : Compute :=
  { g, d, qs := [a, b], val := fun _ r l => let x := f (r.w 0)[l] (r.w 1)[l]; (x.1, 0, x.2) }
def c3 (g : Guard) (d : Dst) (a b c : SrcSpec) (f : Word → Word → Word → Word × Flags) : Compute :=
  { g, d, qs := [a, b, c], val := fun _ r l => let x := f (r.w 0)[l] (r.w 1)[l] (r.w 2)[l]; (x.1, 0, x.2) }

/-- A result with no event. -/
def quiet (w : Word) : Word × Flags := (w, {})

/-! ### Family 000 (R195-R204) -/

/-- R195: the exact result in the signed and the unsigned reading of the operands, narrowed. -/
def narrowed (md : IntMode) (sg un : Int) : Word × Flags :=
  match md with
  | .wrap => (BitVec.ofInt 32 sg, {})
  | .sat =>
    if sg < -2147483648 then (0x80000000#32, { sat := true })
    else if 2147483647 < sg then (0x7FFFFFFF#32, { sat := true })
    else (BitVec.ofInt 32 sg, {})
  | .satU =>
    if un < 0 then (0#32, { sat := true })
    else if 4294967295 < un then (0xFFFFFFFF#32, { sat := true })
    else (BitVec.ofInt 32 un, {})

/-- R195: bits [63:32] of the 64-bit product. -/
def highProduct (u : Bool) (a b : Word) : Word :=
  if u then (a.setWidth 64 * b.setWidth 64).extractLsb' 32 32
  else (a.signExtend 64 * b.signExtend 64).extractLsb' 32 32

/-- R196: truncating division; by 0 the quotient is all ones and the remainder the dividend. -/
def quotient (u : Bool) (a b : Word) : Word :=
  if b = 0 then 0xFFFFFFFF#32 else if u then BitVec.ofNat 32 (a.toNat / b.toNat) else a.sdiv b
def remainder (u : Bool) (a b : Word) : Word :=
  if b = 0 then a else if u then BitVec.ofNat 32 (a.toNat % b.toNat) else a.srem b

/-- R197. -/
def lesser (u : Bool) (a b : Word) : Word := if (if u then b.ult a else b.slt a) then b else a
def greater (u : Bool) (a b : Word) : Word := if (if u then a.ult b else a.slt b) then b else a
def magnitude (sat : Bool) (a : Word) : Word × Flags :=
  if !a.msb then (a, {})
  else if sat ∧ a = 0x80000000#32 then (0x7FFFFFFF#32, { sat := true }) else (0#32 - a, {})

/-- R198: an integer comparison as 1 or 0. -/
def compared (c : Cmp) (u : Bool) (a b : Word) : Word :=
  let lt := if u then a.ult b else a.slt b
  let yes := match c with
    | .eq => a == b
    | .ne => a != b
    | .lt => lt
    | .le => lt || a == b
    | .gt => !(lt || a == b)
    | .ge => !lt
    | .num | .nan => false
  if yes then 1 else 0

/-- R202: a shift by 32 or more gives 0, or the sign; a rotation takes the count modulo 32. -/
def rotated (r : Bool) (a b : Word) : Word :=
  let n := b.toNat % 32
  if r then (a >>> n) ||| (a <<< (32 - n)) else (a <<< n) ||| (a >>> (32 - n))

/-- R203: the field named by a field word. -/
def fPos (f : Word) : Nat := f.toNat % 256
def fLen (f : Word) : Nat := min (f.toNat / 256 % 256) 32
def fieldOf (sg : Bool) (a f : Word) : Word :=
  if fLen f = 0 then 0
  else if sg then BitVec.ofInt 32 (Int.bmod (a.toInt / 2 ^ fPos f) (2 ^ fLen f))
  else BitVec.ofNat 32 (a.toNat / 2 ^ fPos f % 2 ^ fLen f)
def fieldInto (a b f : Word) : Word :=
  let mask : Word := BitVec.ofNat 32 ((2 ^ fLen f - 1) * 2 ^ fPos f)
  (b &&& ~~~ mask) ||| ((a <<< fPos f) &&& mask)

/-- R204. -/
def onesIn (a : Word) : Word := BitVec.ofNat 32 ((List.range 32).countP fun i => a.getLsbD i)
def leadingZeros (a : Word) : Word := BitVec.ofNat 32 (if a = 0 then 32 else 31 - Nat.log2 a.toNat)

/-- R201: result bit j is the bit of g1 or g0, by c's bit, that a's and b's bits select. -/
def tableWord (g0 g1 : BitVec 4) (a b c : Word) : Word :=
  maskOf fun j => (if c.getLsbD j.val then g1 else g0).getLsbD ((if b.getLsbD j.val then 2 else 0) + if a.getLsbD j.val then 1 else 0)

/-- The arithmetic and comparing instructions of family 000. -/
def intArith : Instr → Option Compute
  | .iadd g d a b md => some (c2 g d (srcI a) (srcI b) fun x y => narrowed md (x.toInt + y.toInt) (x.toNat + y.toNat))
  | .iaddI g d a i => some (c1 g (dst0 d) (opSrc a) fun x => quiet (BitVec.ofNat 32 (x.toNat + i.toNat)))
  | .isub g d a b md => some (c2 g d (srcI a) (srcI b) fun x y => narrowed md (x.toInt - y.toInt) (x.toNat - y.toNat))
  | .isubI g d a i => some (c1 g (dst0 d) (opSrc a) fun x => quiet (BitVec.ofInt 32 (x.toNat - i.toNat)))
  | .imul g d a b md => some (c2 g d (srcI a) (srcI b) fun x y => narrowed md (x.toInt * y.toInt) (x.toNat * y.toNat))
  | .imulI g d a i => some (c1 g (dst0 d) (opSrc a) fun x => quiet (BitVec.ofNat 32 (x.toNat * i.toNat)))
  | .imulh g d a b u => some (c2 g d (srcI a) (srcI b) fun x y => quiet (highProduct u x y))
  | .imad g d a b c md => some (c3 g d (srcI a) (srcI b) (srcI c) fun x y z =>
      narrowed md (x.toInt * y.toInt + z.toInt) (x.toNat * y.toNat + z.toNat))
  | .idiv g d a b u => some (c2 g d (srcI a) (srcI b) fun x y => quiet (quotient u x y))
  | .irem g d a b u => some (c2 g d (srcI a) (srcI b) fun x y => quiet (remainder u x y))
  | .imin g d a b u => some (c2 g d (srcI a) (srcI b) fun x y => quiet (lesser u x y))
  | .imax g d a b u => some (c2 g d (srcI a) (srcI b) fun x y => quiet (greater u x y))
  | .iabs g d a sat => some (c1 g d (srcI a) (magnitude sat))
  | .iset g d a b c u => some (c2 g d (srcI a) (srcI b) fun x y => quiet (compared c u x y))
  | .lea g d a b sh => some (c2 g d (srcI a) (srcI b) fun x y => quiet (BitVec.ofNat 32 (x.toNat * 2 ^ sh.val + y.toNat)))
  | _ => none

/-- The bitwise instructions of family 000. -/
def intBits : Instr → Option Compute
  | .and g d a b => some (c2 g d (srcI a) (srcI b) fun x y => quiet (x &&& y))
  | .andI g d a i => some (c1 g (dst0 d) (opSrc a) fun x => quiet (x &&& i))
  | .or g d a b => some (c2 g d (srcI a) (srcI b) fun x y => quiet (x ||| y))
  | .orI g d a i => some (c1 g (dst0 d) (opSrc a) fun x => quiet (x ||| i))
  | .xor g d a b => some (c2 g d (srcI a) (srcI b) fun x y => quiet (x ^^^ y))
  | .xorI g d a i => some (c1 g (dst0 d) (opSrc a) fun x => quiet (x ^^^ i))
  | .andn g d a b => some (c2 g d (srcI a) (srcI b) fun x y => quiet (x &&& ~~~ y))
  | .andnI g d a i => some (c1 g (dst0 d) (opSrc a) fun x => quiet (x &&& ~~~ i))
  | .lop3 g d a b c g0 g1 => some (c3 g d (srcI a) (srcI b) (srcI c) fun x y z => quiet (tableWord g0 g1 x y z))
  | .shl g d a b => some (c2 g d (srcI a) (srcI b) fun x y => quiet (x <<< y))
  | .shlI g d a i => some (c1 g (dst0 d) (opSrc a) fun x => quiet (x <<< i))
  | .shr g d a b => some (c2 g d (srcI a) (srcI b) fun x y => quiet (x >>> y))
  | .shrI g d a i => some (c1 g (dst0 d) (opSrc a) fun x => quiet (x >>> i))
  | .sar g d a b => some (c2 g d (srcI a) (srcI b) fun x y => quiet (x.sshiftRight' y))
  | .sarI g d a i => some (c1 g (dst0 d) (opSrc a) fun x => quiet (x.sshiftRight' i))
  | .rot g d a b r => some (c2 g d (srcI a) (srcI b) fun x y => quiet (rotated r x y))
  | .rotI g d a i => some (c1 g (dst0 d) (opSrc a) fun x => quiet (rotated false x i))
  | .bfx g d a f sg => some (c2 g d (srcI a) (srcI f) fun x y => quiet (fieldOf sg x y))
  | .bfi g d a b f => some (c3 g d (srcI a) (srcI b) (srcI f) fun x y z => quiet (fieldInto x y z))
  | .popc g d a => some (c1 g d (srcI a) fun x => quiet (onesIn x))
  | .clz g d a => some (c1 g d (srcI a) fun x => quiet (leadingZeros x))
  | .brev g d a => some (c1 g d (srcI a) fun x => quiet x.reverse)
  | _ => none

/-! ### Family 001 (R205-R210) -/

/-- R205: an FP32 operand with its sign modifiers: the absolute value is taken before the sign is changed. -/
def signed (abs neg : Bool) (w : Word) : FVal :=
  let x := f32.val w.toNat
  let y := if abs then x.abs else x
  if neg then y.neg else y

/-- An exact result rounded once to FP32, with the events of the operation and of the rounding. -/
def rounded32 (rm : Rm) (x : FVal × Flags) : Word × Flags :=
  let y := f32.ofVal rm x.1
  (BitVec.ofNat 32 y.1, x.2.or y.2)

/-- R207: the lesser or the greater of two values as FP32. -/
def picked32 (hi : Bool) (a b : FVal) : Word := BitVec.ofNat 32 (f32.ofVal .rn (FVal.pick hi a b)).1

/-- A truth value as 1 or 0. -/
def truth (b : Bool) : Word := if b then 1 else 0

/-- R210: the class of a value. -/
def classWord (w : Word) : Word :=
  if w = 0x7FC00000#32 then 0x100
  else
    let neg := w.getLsbD 31
    let ex := w.toNat / 2 ^ 23 % 256
    let fr := w.toNat % 2 ^ 23
    if ex = 255 then (if fr ≠ 0 then 0x200 else if neg then 0x001 else 0x080)
    else if ex = 0 then (if fr = 0 then (if neg then 0x008 else 0x010) else if neg then 0x004 else 0x020)
    else if neg then 0x002 else 0x040

def fp32Compute : Instr → Option Compute
  | .fadd g d a b rm md => some (c2 g d (srcF a) (srcF b) fun x y =>
      rounded32 rm (FVal.add rm (signed md.aa md.na x) (signed md.ab md.nb y)))
  | .faddI g d a i => some (c1 g (dst0 d) { op := a, imm := .f32 } fun x =>
      rounded32 .rn (FVal.add .rn (f32.val x.toNat) (f32.val i.toNat)))
  | .fmul g d a b rm md => some (c2 g d (srcF a) (srcF b) fun x y =>
      rounded32 rm (FVal.mul (signed md.aa md.na x) (signed md.ab md.nb y)))
  | .fmulI g d a i => some (c1 g (dst0 d) { op := a, imm := .f32 } fun x =>
      rounded32 .rn (FVal.mul (f32.val x.toNat) (f32.val i.toNat)))
  | .ffma g d a b c rm md => some (c3 g d (srcF a) (srcF b) (srcF c) fun x y z =>
      rounded32 rm (FVal.fma rm (signed md.aa md.na x) (signed md.ab md.nb y) (signed false md.nc z)))
  | .fmin g d a b md => some (c2 g d (srcF a) (srcF b) fun x y =>
      quiet (picked32 false (signed md.aa md.na x) (signed md.ab md.nb y)))
  | .fmax g d a b md => some (c2 g d (srcF a) (srcF b) fun x y =>
      quiet (picked32 true (signed md.aa md.na x) (signed md.ab md.nb y)))
  | .fset g d a b c md => some (c2 g d (srcF a) (srcF b) fun x y =>
      quiet (truth (FVal.test c (signed md.aa md.na x) (signed md.ab md.nb y))))
  | .frcp g d a => some (c1 g d (srcF a) frcpW)
  | .frsq g d a => some (c1 g d (srcF a) frsqW)
  | .fsqrt g d a rm => some (c1 g d (srcF a) (fsqrtW rm))
  | .fexp2 g d a => some (c1 g d (srcF a) fexp2W)
  | .flog2 g d a => some (c1 g d (srcF a) flog2W)
  | .fsin g d a => some (c1 g d (srcF a) fsinW)
  | .fcos g d a => some (c1 g d (srcF a) fcosW)
  | .ftanh g d a => some (c1 g d (srcF a) ftanhW)
  | .fclass g d a none => some (c1 g d (srcF a) fun x => quiet (classWord x))
  | .fclass g d a (some k) => some (c2 g d (srcF a) (srcI k) fun x y =>
      quiet (truth ((classWord x).toNat &&& y.toNat &&& 0x3FF != 0)))
  | _ => none

/-! ### Family 010 (R211-R218) -/

/-- A 64-bit source pair as an FP64 value with its sign modifier. -/
def signed64 (neg : Bool) (r : Reading) (i : Nat) (l : Fin 32) : FVal :=
  let x := f64.val (((r.at i)[1])[l] ++ ((r.at i)[0])[l]).toNat
  if neg then x.neg else x

/-- A pair result: two sources or three. -/
def cPair (g : Guard) (d : Dst) (qs : List SrcSpec) (f : Reading → Fin 32 → FVal × Flags) (rm : Rm) : Compute :=
  { g, d, qs, wide := true
    val := fun _ r l =>
      let x := f r l
      let y := f64.ofVal rm x.1
      (BitVec.ofNat 32 y.1, BitVec.ofNat 32 (y.1 / 2 ^ 32), x.2.or y.2) }

/-- The same with the result as it is picked, without events. -/
def cPick (g : Guard) (d : Dst) (qs : List SrcSpec) (f : Reading → Fin 32 → FVal) : Compute :=
  { g, d, qs, wide := true
    val := fun _ r l =>
      let y := (f64.ofVal .rn (f r l)).1
      (BitVec.ofNat 32 y, BitVec.ofNat 32 (y / 2 ^ 32), {}) }

def fp64Compute : Instr → Option Compute
  | .dadd g d a b rm md => some (cPair g d [srcD a, srcD b] (fun r l =>
      FVal.add rm (signed64 md.na r 0 l) (signed64 md.nb r 1 l)) rm)
  | .dmul g d a b rm md => some (cPair g d [srcD a, srcD b] (fun r l =>
      FVal.mul (signed64 md.na r 0 l) (signed64 md.nb r 1 l)) rm)
  | .dfma g d a b c rm md => some (cPair g d [srcD a, srcD b, srcD c] (fun r l =>
      FVal.fma rm (signed64 md.na r 0 l) (signed64 md.nb r 1 l) (signed64 md.nc r 2 l)) rm)
  | .dmin g d a b md => some (cPick g d [srcD a, srcD b] fun r l =>
      FVal.pick false (signed64 md.na r 0 l) (signed64 md.nb r 1 l))
  | .dmax g d a b md => some (cPick g d [srcD a, srcD b] fun r l =>
      FVal.pick true (signed64 md.na r 0 l) (signed64 md.nb r 1 l))
  | .dset g d a b c md => some { g, d, qs := [srcD a, srcD b], val := fun _ r l =>
      (truth (FVal.test c (signed64 md.na r 0 l) (signed64 md.nb r 1 l)), 0, {}) }
  | _ => none

/-- Element `e` of a packed word with its sign modifier. -/
def half (bf neg : Bool) (w : Word) (e : Nat) : FVal :=
  let x := (if bf then bf16 else f16).val (w.toNat / 2 ^ (16 * e) % 65536)
  if neg then x.neg else x

/-- R212: both elements rounded, the second in the high half. -/
def halves (md : HMods) (f : Nat → FVal × Flags) : Word × Flags :=
  let lo := packRound md (f 0)
  let hi := packRound md (f 1)
  (BitVec.ofNat 32 (lo.1 + 65536 * hi.1), lo.2.or hi.2)

/-- R213: element `i` of `w` bits as an integer. -/
def element (x : Word) (w i : Nat) (u : Bool) : Int :=
  if u then (x.toNat / 2 ^ (w * i) % 2 ^ w : Nat) else Int.bmod (x.toNat / 2 ^ (w * i)) (2 ^ w)

def dotProduct (n w : Nat) (ua ub : Bool) (a b c : Word) : Int :=
  c.toInt + ((List.range n).map fun i => element a w i ua * element b w i ub).sum

def packedCompute : Instr → Option Compute
  | .hadd2 g d a b md => some (c2 g d (srcH md.bf a) (srcH md.bf b) fun x y =>
      halves md fun e => FVal.add md.rm (half md.bf md.na x e) (half md.bf md.nb y e))
  | .hmul2 g d a b md => some (c2 g d (srcH md.bf a) (srcH md.bf b) fun x y =>
      halves md fun e => FVal.mul (half md.bf md.na x e) (half md.bf md.nb y e))
  | .hfma2 g d a b c md => some (c3 g d (srcH md.bf a) (srcH md.bf b) (srcH md.bf c) fun x y z =>
      halves md fun e => FVal.fma md.rm (half md.bf md.na x e) (half md.bf md.nb y e) (half md.bf md.nc z e))
  | .idot4 g d a b c sat ua ub => some (c3 g d (srcI a) (srcI b) (srcI c) fun x y z =>
      narrowed (if sat then .sat else .wrap) (dotProduct 4 8 ua ub x y z) 0)
  | .idot8 g d a b c sat ua ub => some (c3 g d (srcI a) (srcI b) (srcI c) fun x y z =>
      narrowed (if sat then .sat else .wrap) (dotProduct 8 4 ua ub x y z) 0)
  | .pack g d a b w n md => some (c2 g d (srcI a) (srcI b) fun x y =>
      let v := packVal w.bits md x
      (fieldInto v.1 y (BitVec.ofNat 32 (w.bits * n.val + 256 * w.bits)), v.2))
  | .unpk g d a w n sg => some (c1 g d (srcI a) fun x =>
      quiet (BitVec.ofInt 32 (element x w.bits n.val (!sg))))
  | .cvt g d a dt st rm ov el => some { g, d, qs := [if st = .f64 then srcD a else srcI a], wide := dt == .f64, val := fun _ r l =>
      let x := cvtLane a.op dt st rm ov el.val ((r.at 0)[1][l] ++ (r.at 0)[0][l])
      (BitVec.ofNat 32 x.1, BitVec.ofNat 32 (x.1 / 2 ^ 32), x.2) }
  | _ => none

/-! ### Family 011: moves and lane operations -/

/-- Bit i of a lane's predicates, p7 the highest (PMOV.get). -/
def predicateByte (p : Vector Mask 7) (l : Fin 32) : Word :=
  BitVec.ofNat 32 (128 + ((List.range 7).map fun i => if (p[i]?.getD 0).getLsbD l.val then 2 ^ i else 0).sum)

def moveCompute : Instr → Option Compute
  | .mov g d a => some (c1 g d (srcI a) quiet)
  | .movi g d i => some { g, d := dst0 d, qs := [], val := fun _ _ _ => (i, 0, {}) }
  | .sel g d a b c => some (c3 g d (srcI a) (srcI b) (srcI c) fun x y z => quiet (if z ≠ 0 then x else y))
  | .plop3 g d a b c g0 g1 => some (c3 g (dst0 d) (srcI a) (srcI b) (srcI c) fun x y z =>
      quiet (truth ((if z ≠ 0 then g1 else g0).getLsbD ((if y ≠ 0 then 2 else 0) + if x ≠ 0 then 1 else 0))))
  | .pmovGet g d => some { g, d, qs := [], val := fun s _ l => (predicateByte s.curWarp.reg.p l, 0, {}) }
  | _ => none

/-- R220: the lane read from; none outside the group. -/
def shuffleLane (md : ShflMode) (w : Nat) (l : Nat) (d : Word) : Option Nat :=
  let base := l - l % w
  match md with
  | .pick => some (base + d.toNat % w)
  | .sh => let x : Int := (l : Int) - d.toInt
    if (base : Int) ≤ x ∧ x < (base + w : Nat) then some x.toNat else none
  | .rot => some (base + (((l % w : Nat) : Int) - (d.toNat : Int)).emod w |>.toNat)
  | .xsw => some (base + ((l % w) ^^^ (d.toNat % w)))

/-- R221: what a vote gives, from the active lanes and those whose value is not zero. -/
def voteResult (kd : VoteKind) (m t : Mask) : Word :=
  let n (b : Bool) (k : Nat) : Nat := if b then k else 0
  let level (b : Bool) : Word := BitVec.ofNat 32 (n b 1 + n (t != 0) 2 + n (t == m) 4 + n (t == 0 || t == m) 8)
  match kd with
  | .mask => t
  | .count => onesIn t
  | .first => BitVec.ofNat 32 (((List.range 32).find? fun i => t.getLsbD i).getD 32)
  | .some => level (t != 0)
  | .every => level (t == m)
  | .same => level (t == 0 || t == m)

/-- R223: the lanes that hold the same value, and what is made of them. -/
def matchResult (md : MatchMode) (m : Mask) (v : Lanes Word) (l : Fin 32) : Word :=
  let peers : Mask := maskOf fun i => m.getLsbD i.val && v[i] == v[l]
  match md with
  | .peers => peers
  | .leader => BitVec.ofNat 32 (((List.range 32).find? fun i => peers.getLsbD i).getD 0)
  | .rank => BitVec.ofNat 32 ((List.range l.val).countP fun i => peers.getLsbD i)
  | .unan => if peers = m then m else 0

def laneCompute : Instr → Option Compute
  | .shfl g d a b c md lgw => some { g, d, qs := [srcI a, srcI b, srcI c], val := fun s r l =>
      (match shuffleLane md (2 ^ lgw.val) l.val (r.w 1)[l] with
        | some n => if (s.active g).getLsbD n then (r.w 0)[n]?.getD 0 else (r.w 2)[l]
        | none => (r.w 2)[l], 0, {}) }
  | .vote g d a kd => some { g, d, qs := [srcI a], val := fun s r _ =>
      (voteResult kd (s.active g) (maskOf fun l => (s.active g).getLsbD l.val && (r.w 0)[l] != 0), 0, {}) }
  | .matchL g d a md => some { g, d, qs := [srcI a], val := fun s r l => (matchResult md (s.active g) (r.w 0) l, 0, {}) }
  | _ => none

/-- Every instruction that computes. -/
def computes (i : Instr) : Option Compute :=
  ((intArith i).or (intBits i)).or (((fp32Compute i).or (fp64Compute i)).or
    ((packedCompute i).or ((moveCompute i).or (laneCompute i))))

end Sys2Proof.Machine
end

