-- ==== Sys2Proof/Certificates/Slice0/Forms.lean ====
section
/-!
DEFINITION. Words that the statements share: when an instruction's operands are ready, and what an instruction leaves alone.
-/

namespace Sys2Proof.Machine

/-- An instruction's checks at issue pass, its sources can be read as `r`, and its destinations can be written. -/
structure Ready (g : Guard) (ops : List Operand) (qs : List SrcSpec) (puts : List Put) (s : State) (r : Reading) : Prop where
  issue : checkIssue g ops false s = .ok ()
  sources : readAll g qs s = .ok r
  dests : destCheck r puts s = .ok ()

/-- What an instruction does only when some lane is active. -/
def onActive (g : Guard) (s : State) (f : State → State) (t : State) : State := if s.active g = 0 then t else f t

/-- The values of the active lanes combined in ascending lane order; the first is taken as it is (R222). -/
def combined (op : RedOp) (rm : Rm) : List Word → Option Word
  | [] => none
  | x :: t => some (t.foldl (fun a y => (redStep op rm a y).1) x)

/-- A memory instruction may be made and counted: no acquire of the warp's other splits is under way (R265, R403) and fewer than 63
operations of its warp are outstanding (R161), or no lane is active. -/
def Counts (g : Guard) (s : State) : Prop :=
  s.active g = 0 ∨ s.curWarp.acquiring s.cur.split = false ∧ s.curWarp.ord.ops.length < 63

/-- A memory instruction's operands are ready, and it may be counted; `pre` are its destinations before the access. -/
structure MemReady (g : Guard) (ops : List Operand) (qs : List SrcSpec) (pre : List Put) (s : State) (r : Reading) :
    Prop where
  ready : Ready g ops qs pre s r
  counts : Counts g s

/-- Checks at issue of an instruction with no source and no destination. -/
def Issuable (g : Guard) (last : Bool) (s : State) : Prop := checkIssue g [] last s = .ok ()

/-- What an instruction leaves alone outside the block that issues it: every byte of memory, every other block, and the state
of the package. The cores' translations and copies and the retention share may change. -/
structure Outside (s t : State) : Prop where
  mem : ∀ a, t.mem.read a = s.mem.read a
  now : t.now = s.now
  cur : t.cur = s.cur
  blocks : ∀ u, u ≠ s.cur.blk → AMap.get? t.blocks u = AMap.get? s.blocks u
  launches : t.launches = s.launches
  contexts : t.contexts = s.contexts
  inflight : t.inflight = s.inflight
  msgs : t.msgs = s.msgs
  acks : t.acks = s.acks
  colls : t.colls = s.colls
  lines : t.lines = s.lines
  quar : t.quar = s.quar
  recAreas : t.recAreas = s.recAreas
  tlbInvs : t.tlbInvs = s.tlbInvs
  lager : ∀ c, (t.core c).lager = (s.core c).lager

/-- The same in the issuing block: its buffers, its engine-side state and its other warps. -/
structure BlockOutside (s t : State) : Prop where
  abuf : t.curBlock.abuf = s.curBlock.abuf
  cbuf : t.curBlock.cbuf = s.curBlock.cbuf
  wbuf : t.curBlock.wbuf = s.curBlock.wbuf
  eng : t.curBlock.eng = s.curBlock.eng
  bphase : t.curBlock.bphase = s.curBlock.bphase
  w : t.curBlock.w = s.curBlock.w
  warps : ∀ n, n ≠ s.cur.warp → AMap.get? t.curBlock.warps n = AMap.get? s.curBlock.warps n

/-- In the issuing warp: its lanes' state, its traps, its ordering state, its other splits, and the registers that only
instructions for them write. -/
structure WarpOutside (s t : State) : Prop where
  lane : t.curWarp.lane = s.curWarp.lane
  trap : t.curWarp.trap = s.curWarp.trap
  ord : t.curWarp.ord = s.curWarp.ord
  splits : ∀ n, n ≠ s.cur.split → AMap.get? t.curWarp.splits n = AMap.get? s.curWarp.splits n
  k : t.curWarp.reg.k = s.curWarp.reg.k
  ren : t.curWarp.reg.ren = s.curWarp.reg.ren

/-- The guard, the operands and the sources of the instructions of an engine, a list, a message or an invalidation, which do
nothing but read their sources when no lane is active. -/
def idleForm : Instr → Option (Guard × List Operand × List SrcSpec)
  | .cekick g d off (.reg o) => some (g, [d, off, o], [opU off, opU o])
  | .cekick g d off (.imm _) => some (g, [d, off], [opU off])
  | .lstat g a b c => some (g, [a, b, c], [opU a, opU b, opU c])
  | .tenq g d off _ => some (g, [d, off], [opU off])
  | .wlinit g _ off _ _ _ => some (g, [off], [opU off])
  | .wlinitReg g _ off _ _ rows => some (g, [off, rows], [opU off, opU rows])
  | .wlthr g _ row val _ => some (g, [row, val], [opSrc row, opSrc val])
  | .wlthrClr g _ row => some (g, [row], [opSrc row])
  | .wlrd g d _ row _ _ => some (g, [d, row], [opSrc row])
  | .wlrdt g d _ row _ => some (g, [d, row], [opSrc row])
  | .wlmrg g _ _ row _ => some (g, [row], [opSrc row])
  | .wlclr g _ (some row) _ => some (g, [.zero, row], [opSrc row])
  | .attn g d off => some (g, [d, off], [opU off])
  | .kvslab g _ off => some (g, [off], [opU off])
  | .kvslabLen g _ len => some (g, [len], [opU len])
  | .kvgrow g d _ base off _ _ => some (g, [d, base, off], [{ op := base, n := 2, uni := true }, opU off])
  | .smerge g d a _ _ => some (g, [d, a], [opU d, opU a])
  | .smergeFin g d _ _ _ => some (g, [d], [opU d])
  | .splice g _ _ first delta => some (g, [first, delta], [opU first, opU delta])
  | .fmsg g addr soff doff _ _ => some (g, [addr, soff, doff], [opU addr, opU soff, opU doff])
  | .fpollBind g e => some (g, [e], [opU e])
  | .coll g d off => some (g, [d, off], [opU off])
  | .cbpost g pred off _ _ => some (g, [pred, off], [opU pred, opU off])
  | _ => none

/-- The guard, the operands that are checked at issue, and whether it must be the last of its clause, of the instructions that do
not compute. -/
def otherForm : Instr → Option (Guard × List Operand × Bool)
  | .qblk g d a b c _ _ => some (g, [d.op, a.op, b.op, c.op], false)
  | .dqblk g d a _ _ _ => some (g, [d.op, a.op], false)
  | .movx g d _ _ _ => some (g, [d.op], false)
  | .movxw g _ _ a _ _ | .setxCur g _ a | .setxAdd g _ a => some (g, [.zero, a.op], false)
  | .setx g _ a b c => some (g, [.zero, a.op, b.op, c.op], false)
  | .pmovSet g a mask => some (g, [.zero, a.op, mask.op], false)
  | .killv g a b c => some (g, [a, b, c], false)
  | .rdsr g d _ _ | .arrtest g d _ | .tlrd g d _ _ | .tqrd g d _ _ | .kvslabRd g d _ | .smergeFin g d _ _ _ | .barq g d _
  | .cljoin g d _ | .fpoll g d _ _ | .errq g d _ | .errqLog g d _ | .strmq g d _ => some (g, [d], false)
  | .wrsr g a _ | .arrset g _ a _ | .brx g a | .ret g a => some (g, [a], false)
  | .lred g d a _ _ | .lscan g d a _ _ _ => some (g, [d.op, a.op], false)
  | .rdlane g d a b | .rotq g d a b _ | .normb g d a b _ => some (g, [d.op, a.op, b.op], false)
  | .elect g d _ => some (g, [d.op], false)
  | .ld g d _ _ base _ | .atom g d _ _ _ _ base _ => some (g, [d.op, base], false)
  | .lds g d _ _ base _ => some (g, [d, base], false)
  | .ldc g d _ base _ | .ldb g d _ _ base _ | .ldbq g d _ _ _ _ _ base _ | .batom g d _ _ _ _ _ base _ =>
    some (g, [d.op, base.op], false)
  | .st g a _ _ base _ | .stnt g a _ base _ | .red g a _ _ _ base _ => some (g, [a.op, base], false)
  | .stb g a _ _ base _ => some (g, [a.op, base.op], false)
  | .atomc g d a cmp x _ _ _ => some (g, [d.op, a.op, cmp.op, x.op], false)
  | .pref g _ base _ | .cctl g _ base _ => some (g, [base], false)
  | .stream g _ desc _ => some (g, [desc], false)
  | .cekick g d off (.reg n) => some (g, [d, off, n], false)
  | .cekick g d off (.imm _) | .tenq g d off _ | .attn g d off | .coll g d off => some (g, [d, off], false)
  | .tlwait g _ (.reg a) => some (g, [.zero, a], true)
  | .tlwait g _ (.imm _) => some (g, [.zero], true)
  | .lstat g a b c => some (g, [a, b, c], false)
  | .wlinit g _ off _ _ _ | .kvslab g _ off => some (g, [off], false)
  | .wlinitReg g _ off _ _ rows => some (g, [off, rows], false)
  | .wlthr g _ row val _ => some (g, [row, val], false)
  | .wlthrClr g _ row | .wlmrg g _ _ row _ => some (g, [row], false)
  | .wlrd g d _ row _ _ | .wlrdt g d _ row _ => some (g, [d, row], false)
  | .wlclr g _ (some row) _ => some (g, [.zero, row], false)
  | .wlclr g _ none _ => some (g, [.zero], false)
  | .kvslabLen g _ len => some (g, [len], false)
  | .kvgrow g d _ base off _ _ => some (g, [d, base, off], false)
  | .smerge g d a _ _ => some (g, [d, a], false)
  | .splice g _ _ first delta => some (g, [first, delta], false)
  | .fmsg g addr soff doff _ _ => some (g, [addr, soff, doff], false)
  | .fpollBind g e => some (g, [e], false)
  | .noise g d key step idx _ => some (g, [d.op, key.op, step.op, idx.op], false)
  | .cbpost g pred off _ _ => some (g, [pred, off], false)
  | .call g link _ => some (g, [link], false)
  | .callIndirect g link a => some (g, [link, a], false)
  | .sleepReg g a => some (g, [a], true)
  | .tlbir g base len none => some (g, [.zero, base, len], false)
  | .tlbir g base len (some a) => some (g, [.zero, base, len, a], false)
  | .bblog g _ a => some (g, [.zero, a], false)
  | .nop g | .drainnt g | .cctlIl1all g | .strmend g _ | .swap g | .spliceFix g _ _ | .spliceClr g _ _ | .bara g _ | .fence g _ _
  | .clleave g | .fpollUnbind g | .bra g _ | .exit g | .rnset g _ _ _ _ _ _ | .rnsetClr g _ | .yield g | .nopre g | .preok g
  | .brk g _ | .trap g _ => some (g, [], false)
  | .arrwait g _ | .bar g _ | .barw g _ | .sleep g _ | .meld g _ _ | .melde g | .serb g _ | .sere g | .refill g _
  | .trapret g _ | .tlback g => some (g, [], true)
  | _ => none

/-- The same of every instruction. -/
def issueForm (i : Instr) : Option (Guard × List Operand × Bool) :=
  match computes i with
  | some o => some (o.g, opsOf o.d.op o.qs, false)
  | none => otherForm i

/-- A direct transfer goes to an offset that R117 marks: another one faults before the state of the lanes is looked at (R135). -/
def directOk (s : State) : Instr → Bool
  | .bra _ t | .call _ _ t =>
    decide (0 ≤ (s.curSplit.hdr : Int) + 8 * t.toInt) && s.curLaunch.headers.contains ((s.curSplit.hdr : Int) + 8 * t.toInt).toNat
  | _ => true

/-- An access of memory: what is checked at issue, the sources, the destinations before it, its requests, and whether it writes;
`space` is 0 for global memory, 1 for ABUF, 2 for CBUF and 3 for the constant bank. -/
structure Access where
  g : Guard
  ops : List Operand
  qs : List SrcSpec
  pre : List Put
  reqs : List Req
  write : Bool
  space : Nat

/-- The data operand of an atomic: a small immediate of `.fadd` is floating point. -/
def redSrc (a : Src) (op : AtomOp) : SrcSpec := { op := a.op, hold := a.hold, imm := if op = .fadd then .f32 else .int }

/-- A buffer as the space of an access. -/
def bufSpace (b : Buf) : Nat := if b == .cbuf then 2 else 1

/-- The accesses of the memory instructions, from the sources as they have been read (R262, R270 to R274, R280 to R282). -/
def accessOf (s : State) (r : Reading) : Instr → Option Access
  | .ld g d sz _ base off => some ⟨g, [d.op, base], [{ op := base, n := 2 }], ldPuts d sz (s.active g) fun _ => [],
      laneReqs (s.active g) (ldBytes sz) (gAddr (r.at 0) off), false, 0⟩
  | .lds g d sz _ base off => some ⟨g, [d, base], [{ op := base, n := 2, uni := true }],
      ldPuts ⟨d, 0⟩ sz (s.active g) fun _ => [],
      uniReq (s.active g) (ldBytes sz) (gAddr (r.at 0) off ((lowest (s.active g)).getD 0)), false, 0⟩
  | .ldc g d sz base off => some ⟨g, [d.op, base.op], [srcI base], ldPuts d sz (s.active g) fun _ => [],
      laneReqs (s.active g) (ldBytes sz) (bAddr (r.at 0) off), false, 3⟩
  | .ldb g d sz buf base off => some ⟨g, [d.op, base.op], [srcI base], ldPuts d sz (s.active g) fun _ => [],
      laneReqs (s.active g) (ldBytes sz) (bAddr (r.at 0) off), false, bufSpace buf⟩
  | .st g a sz _ base off => some ⟨g, [a.op, base], [{ op := base, n := 2 }, { op := a.op, hold := a.hold, n := stRegs sz }], [],
      laneReqs (s.active g) (stBytes sz) (gAddr (r.at 0) off), true, 0⟩
  | .stnt g a sz base off => some ⟨g, [a.op, base], [{ op := base, n := 2 }, { op := a.op, hold := a.hold, n := stRegs sz }], [],
      laneReqs (s.active g) (stBytes sz) (gAddr (r.at 0) off), true, 0⟩
  | .stb g a sz buf base off => some ⟨g, [a.op, base.op], [srcI base, { op := a.op, hold := a.hold, n := stRegs sz }], [],
      laneReqs (s.active g) (stBytes sz) (bAddr (r.at 0) off), true, bufSpace buf⟩
  | .red g a op _ _ base off => some ⟨g, [a.op, base], [{ op := base, n := 2 }, redSrc a op], [],
      laneReqs (s.active g) 4 (gAddr16 (r.at 0) off), true, 0⟩
  | .atom g d hold _ _ _ base off => some ⟨g, [d.op, base], [{ op := base, n := 2 }, { op := d.op, hold := hold }],
      [putOf d (s.active g) (splat 0)], laneReqs (s.active g) 4 (gAddr16 (r.at 0) off), true, 0⟩
  | .atomc g d a cmp x _ _ .global => some ⟨g, [d.op, a.op, cmp.op, x.op], [{ op := a.op, n := 2 }, srcI cmp, srcI x],
      [putOf d (s.active g) (splat 0)], laneReqs (s.active g) 4 (gAddr16 (r.at 0) 0), true, 0⟩
  | .atomc g d a cmp x _ _ sp => some ⟨g, [d.op, a.op, cmp.op, x.op], [srcI a, srcI cmp, srcI x],
      [putOf d (s.active g) (splat 0)], laneReqs (s.active g) 4 (bAddr16 (r.at 0) 0), true, if sp == .cbuf then 2 else 1⟩
  | .batom g d hold _ _ _ buf base off => some ⟨g, [d.op, base.op], [srcI base, { op := d.op, hold := hold }],
      [putOf d (s.active g) (splat 0)], laneReqs (s.active g) 4 (bAddr16 (r.at 0) off), true, bufSpace buf⟩
  | _ => none

/-- No copy under way holds the access back (R240). -/
def Access.free (x : Access) (s : State) : Prop :=
  ∀ q ∈ x.reqs,
    if x.space = 0 then sbHits s s.curCore 0 s.curLaunch.desc.asid q.va.toNat q.n = false
    else if x.space = 3 then True
    else ∀ u o, bufTarget s s.cur.blk (x.space == 2) q.va.toNat q.n = .ok (u, o) → sbHits s s.curCore x.space u o q.n = false

/-- What a memory instruction leaves alone: every byte of memory, the other blocks and the other warps, the package's
launches and contexts, and the registers and lane state of its warp that it does not name. Its ordering state changes; an
acquire and a write discard what the warp's streams have fetched ahead (R287). -/
structure MemFrame (s t : State) : Prop where
  mem : ∀ a, t.mem.read a = s.mem.read a
  now : t.now = s.now
  cur : t.cur = s.cur
  blocks : ∀ u, u ≠ s.cur.blk → AMap.get? t.blocks u = AMap.get? s.blocks u
  launches : t.launches = s.launches
  contexts : t.contexts = s.contexts
  msgs : t.msgs = s.msgs
  colls : t.colls = s.colls
  abuf : t.curBlock.abuf = s.curBlock.abuf
  cbuf : t.curBlock.cbuf = s.curBlock.cbuf
  wbuf : t.curBlock.wbuf = s.curBlock.wbuf
  eng : t.curBlock.eng = s.curBlock.eng
  warps : ∀ n, n ≠ s.cur.warp → AMap.get? t.curBlock.warps n = AMap.get? s.curBlock.warps n
  lane : t.curWarp.lane = s.curWarp.lane
  trap : t.curWarp.trap = s.curWarp.trap
  splits : ∀ n, n ≠ s.cur.split → AMap.get? t.curWarp.splits n = AMap.get? s.curWarp.splits n
  p : t.curWarp.reg.p = s.curWarp.reg.p
  x : t.curWarp.reg.x = s.curWarp.reg.x
  z : t.curWarp.reg.z = s.curWarp.reg.z ∨ t.curWarp.reg.z = s.curWarp.refetch.reg.z
  k : t.curWarp.reg.k = s.curWarp.reg.k
  ren : t.curWarp.reg.ren = s.curWarp.reg.ren
  elect : t.curWarp.reg.elect = s.curWarp.reg.elect

/-- An address that the bookkeeping of a write to a sector may change: its chunk's record, and the overflow page that the chunk
has or takes (R256 to R258). -/
def Bookkept (s : State) (pa a : Nat) : Prop :=
  ∃ r, recordOf s pa = some r ∧ (r ≤ a ∧ a < r + 32 ∨ ∃ p, p ≤ a ∧ a < p + 256 ∧
    (p = (readChunk s r).ovf ∨ ∃ d, p ∈ (s.die d).ovfPool))

/-- The opcodes that R133 lists, as ranges. -/
def listedOpcodes : List (Nat × Nat) :=
  [(0x000, 0x00B), (0x010, 0x014), (0x018, 0x01D), (0x020, 0x022), (0x040, 0x042), (0x050, 0x053), (0x058, 0x05B),
   (0x080, 0x085), (0x088, 0x090), (0x0C0, 0x0C1), (0x100, 0x105), (0x110, 0x112), (0x118, 0x119), (0x120, 0x124),
   (0x180, 0x18A), (0x18F, 0x196), (0x200, 0x205), (0x208, 0x20A), (0x210, 0x213), (0x218, 0x219), (0x220, 0x222),
   (0x280, 0x285), (0x288, 0x28B), (0x290, 0x296), (0x2A0, 0x2A5), (0x300, 0x307), (0x310, 0x314), (0x380, 0x384),
   (0x388, 0x392), (0x3A0, 0x3A4)]

/-- The agenda's head issues the split `c` of a block that is neither saved nor being flushed; it runs on a port, and the word at
its program counter, of the clause as it was fetched, is `w`. `t` is the state it issues in. -/
def Fetches (s : State) (c : Cursor) (w : DWord) (t : State) : Prop :=
  ∃ rest, s.agenda = .issue c :: rest ∧ t = { s with agenda := rest, cur := c } ∧ curWord t = some w ∧
    runs t.curWarp t.curSplit = true ∧ t.curBlock.state ≠ .saved ∧ t.curBlock.state ≠ .flushing

/-- The state in which the words of `Fetches` are executed: the streams of the warp that have fetched nothing ahead have done so
(R287, log 143), and nothing else has changed. -/
def Ahead (s t : State) : Prop :=
  t.mem = s.mem ∧ t.now = s.now ∧ t.cur = s.cur ∧ t.cores = s.cores ∧ t.launches = s.launches ∧
    ∀ u, u ≠ s.cur.blk → AMap.get? t.blocks u = AMap.get? s.blocks u

/-- The nine operations of a core's copy engines, in the order of their codes. -/
def copyKinds (core : Nat) : List Instr :=
  [.copy core, .copy2d core, .gather core, .scatter core, .fill core, .decode core, .compact core, .relocate core, .pagein core]

/-- The steps of the other agents: those of the host, of firmware and of the device, which no word stands for. -/
def isDeviceStep : Instr → Bool
  | .controlWordWrite _ _ _ | .doorbell _ _ _ | .skip _ _ | .timelineValueWrite _ _ _ | .arm _ _ | .release _ _
  | .fshareHi _ _ _ | .ovfadd _ _ _ | .fqrespRetry _ _ | .fqrespDeliver _ _ | .fqrespFail _ _ | .recover _
  | .registerWrite _ _ _ _ | .entryNop _ | .entryLaunch _ | .entryGraph _ | .entryWait _ | .entrySignal _
  | .launchCompletion _ | .launchFailure _ | .launchReplay _ | .kernelNode _ _ _ | .copyNode _ _ _ | .condNode _ _ _
  | .whileNode _ _ _ | .waitmsgNode _ _ _ | .signalNode _ _ _ | .callbackNode _ _ _ | .callbackVerdict _ _
  | .graphFailure _ _ | .placement _ | .gangAdmission _ _ | .gangArmed _ _ | .preEmptionRequest _ _ _ | .save _
  | .flush _ | .resume _ | .nonPreemptibleOverrun _ _ | .inFieldTest _ _ | .clusterTestFailure _ _ | .selection _ _
  | .sleepEnd _ _ _ | .epochBoundary | .raceCheckAtHome | .strike _ _ _ | .shadowMismatch _ _ | .copy _ | .copy2d _
  | .gather _ | .scatter _ | .fill _ | .decode _ | .compact _ | .relocate _ | .pagein _ | .requestRetirement _ _
  | .dispatchPoint _ _ | .mma _ | .mtopk _ | .raggedMma _ | .taskCommit _ | .swapTakesEffect _ | .planeLoadEnd _
  | .narrowMode _ | .attentionTask _ | .attentionCommit _ | .collSum _ _ | .collMax _ _ | .collMin _ _
  | .collWlmerge _ _ | .collArgmax _ _ | .collAccept _ _ | .messageDelivery _ _ | .acknowledge _ | .postVerdict _ _
  | .tlbAcknowledge _ _ | .leaveAcknowledge _ | .powerAlarmRise _ _ _ _ | .powerAlarmFall _ _ _ _
  | .thermalShutdown _ _ _ | .boot _ | .gnlTrain | .gnlActive _ | .gnlRetrain | .gnlDown | .gnlWakeN _
  | .hostAccess _ | .portDown _ | .memoryOperationCompletion _ _ _ | .storePerformedAtHome | .fshareOperationEnd _
  | .predicateBudgetOverrun _ | .clusterTestPass _ _ | .mainPowerLoss => true
  | _ => false

end Sys2Proof.Machine
end

