-- ==== Sys2Proof/Certificates/Slice0/Obligations.lean ====
section
/-!
DEFINITION. The statements for the provers, family by family. A statement that an instruction completes names, in its
hypotheses, the checks that the rules make at issue, and in its conclusion the next state. A statement of several parts has
them as clauses of their own names.
-/

open Sys2Proof Sys2Proof.Machine

/-! ### Encoding -/

/-- R123 to R131: every well-formed instruction of the warps has a word, and is read back from it, every operand and
modifier at every value. -/
def Obligations.DecodeEncodedInstruction : Prop :=
  ∀ i : Instr, i.wf = true → isDeviceStep i = false → ∃ w, encode i = some w ∧ decode w = some i

/-- R123 to R134: what a word stands for is well formed, no step of another agent, and has that word alone as its encoding:
no bit of a word is ignored, and no two words stand for one instruction. -/
def Obligations.DecodedWordsEncode : Prop :=
  ∀ (w : DWord) (i : Instr), decode w = some i → i.wf = true ∧ isDeviceStep i = false ∧ encode i = some w

/-- R133, R134, R131: a word whose opcode is not listed is no instruction, and no operand has a code from 404 to 447, in
particular none in the four operand fields of a Format A instruction of the first four families. -/
def Obligations.UnlistedWordsRefused : Prop :=
  (∀ w : DWord, (∀ p ∈ listedOpcodes, ¬ (p.1 ≤ opcOf w ∧ opcOf w ≤ p.2)) → decode w = none) ∧
    (∀ c : BitVec 9, 404 ≤ c.toNat → c.toNat ≤ 447 → Operand.ofCode c = none) ∧
    (∀ (w : DWord) (lo : Nat), famOf w ≤ 3 → opcOf w % 128 < 64 → opcOf w ≠ 0x181 → opcOf w ≠ 0x189 → opcOf w ≠ 0x18A →
      lo ∈ [14, 23, 32, 41] → 404 ≤ (w.extractLsb' lo 9).toNat → (w.extractLsb' lo 9).toNat ≤ 447 → decode w = none)

/-- Words written out from the encodings of R124 to R133 and of the entries, one or more of each family. -/
def Obligations.SpecWordsDecode : Prop :=
  decode 0x001C0A030260D000#64 = some (.iadd (.pred false 7) ⟨.v 5, 2⟩ ⟨.v 3, false⟩ ⟨.v 4, false⟩ .wrap) ∧
    decode 0x209C14010100C001#64 = some (.ffma (.pred false 7) ⟨.v 10, 0⟩ ⟨.v 1, false⟩ ⟨.v 2, false⟩ ⟨.v 3, false⟩ .rz
      ⟨false, false, false, false, false⟩) ∧
    decode 0x609C0B62C1E0C091#64 = some (.movx (.pred false 7) ⟨.v 5, 0⟩ 2 17 true) ∧
    decode 0xA01E1102C1800020#64 = some (.cekick (.pred false 7) (.s 8) (.s 2) (.imm 4)) ∧
    decode 0xC01F0783C1800048#64 = some (.bar (.pred false 7) ⟨.blk, 1⟩) ∧
    decode 0xE0070783FFFFFFFD#64 = some (.bra (.pred false 1) 0xFFFFFFFD#32)

/-! ### Steps -/

/-- A step runs the instruction that the word at the program counter stands for, in the state in which the streams of its warp
have fetched ahead (R287; when they do is log 143), and, in a launch with shadow warps, hands it over to the shadow (R467, log 167);
where no stream is due and no shadow runs it is what the instruction answers, as it stands. A warp that is as far ahead of its
shadow as it may be waits. A step of another agent is run as it stands, and one that cannot come about changes nothing but the
agenda. The order of the steps is log 2. -/
def Clause.StepRunsInstruction : Prop :=
  (∀ s c w t i, Fetches s c w t → tooFar t = false → decode w = some i →
    step s = handed (fetchStreams t) (exec i (fetchStreams t))) ∧
    (∀ t, Ahead t (fetchStreams t)) ∧
    (∀ t : State, (∀ n x, t.curWarp.reg.z[(n : Fin 8)] = some x → x.exhausted = true ∨ x.ahead ≠ []) → fetchStreams t = t) ∧
    (∀ t o, t.curLaunch.hdr.paired = false → handed t o = o ∧ tooFar t = false) ∧
    (∀ t u : State, handed t (.next u) = .next u ∨ ∃ r, handed t (.next u) =
      .next (u.updWarpOf t.cur.blk t.cur.warp fun x => { x with shadow := x.shadow ++ [r] })) ∧
    (∀ s c w t, Fetches s c w t → tooFar t = true → step s = .next t.waits) ∧
    (∀ (s : State) (i : Instr) rest t, s.agenda = .event i :: rest → exec i { s with agenda := rest } = .next t →
      step s = .next t) ∧
    ∀ (s : State) (i : Instr) rest n, s.agenda = .event i :: rest →
      exec i { s with agenda := rest } = .refused (.notEnabled n) → step s = .next { s with agenda := rest }

/-- R134, R135: a word that is no instruction raises an illegal-instruction fault when it issues, for every lane of the
split whatever its guard bits say, those among them that have left the clause. -/
def Clause.UndecodedWordFaults : Prop :=
  (∀ s c w t, Fetches s c w t → tooFar t = false → t.curLaunch.hdr.paired = false → decode w = none →
    step s = .next (raiseTrap (t.trapReq 0x01 t.members) t)) ∧
  ∀ s c w t, Fetches s c w t → tooFar t = false → decode w = none →
    step s = handed t (.next (raiseTrap (t.trapReq 0x01 t.members) t))

/-- R14, R20, R118: the words that a clause runs are those of its launch's code at its header: the header first, whose count says
how many follow, each 8 bytes through the core's translation, and a split that starts a clause holds them. That they are those in
memory when it starts, where R19 leaves open whether old or new code is seen, is the model's choice (log 146; log 27 is the split
that goes on in the middle of a clause). -/
def Clause.ClausesHoldTheirWords : Prop :=
  (∀ s core la off w t, fetchWord s core la off = .ok (w, t) → ∃ pa l,
    translate s (.core core) la.desc.asid la.desc.world .fetch (w64 (la.desc.kernel + la.hdr.codeOff + off)) = .ok (pa, l, t) ∧
      w = w64 (leNat (s.mem.readN pa 8))) ∧
  (∀ s core la off n ws t, fetchClause s core la off n = .ok (ws, t) → ws.length = n ∧ ∀ w rest, ws = w :: rest →
    off + 8 ≤ la.hdr.codeSize ∧ ∃ s1, fetchWord s core la off = .ok (w, s1) ∧
      fetchClause s1 core la (off + 8) (n - 1) = .ok (rest, t)) ∧
  (∀ s u hdr h ws t, startClause s u hdr = .ok h ws t →
    let core := (s.block u).place.coreNo
    let la := s.launch (s.block u).launch
    headerOk h = true ∧ ws.all (admits (hdrClass h)) = true ∧ ∃ s1, fetchWord s core la hdr = .ok (h, s1) ∧
      fetchClause s1 core la (hdr + 8) (hdrCount h) = .ok (ws, t)) ∧
  ∀ (c : Cursor) p s h ws t, (AMap.get? s.blocks c.blk).isSome = true →
    (s.splitOf c).lanes &&& (s.warpOf c.blk c.warp).lane.live ≠ 0 → (s.splitOf c).idx = 0 →
    strayed (s.warpOf c.blk c.warp) (s.splitOf c) = 0 → startClause s c.blk (s.splitOf c).hdr = .ok h ws t →
    startSplit c p s = takePort c p h ws (headerAcquires c h t)

/-- R134, R135, R19: a step runs the instruction at the program counter, or its illegal-instruction fault; the words are those in memory when the clause started. -/
def Obligations.StepRunsDecodedInstruction : Prop := Clause.StepRunsInstruction ∧ Clause.UndecodedWordFaults ∧ Clause.ClausesHoldTheirWords


/-! ### The machine as a whole -/

/-- Every step keeps memory in its canonical form: addresses strictly rise, and no byte listed is what an unlisted address
reads as. The form is the model's (log 3). -/
def Obligations.StepKeepsMemoryCanonical : Prop :=
  ∀ s t : State, s.mem.wf → step s = .next t → t.mem.wf

/-- What reset leaves: R34, R56, R58, R66, R92, R111, R456, R469, R485. The values that no rule gives (log 1) are not named here.
That memory lists nothing, so that every byte reads as one that nothing has written, is the model's choice (log 3). -/
def Clause.ResetState : Prop :=
  State.reset.mem.wf ∧ State.reset.mem = [] ∧ State.reset.blocks = [] ∧ State.reset.launches = [] ∧ State.reset.colls = [] ∧
    (∀ c, State.reset.ctx c = Context.reset) ∧
    (∀ q : Fin 8, (Context.reset.queues[q]).enable = false ∧ (Context.reset.queues[q]).fnode = 0xFFFF) ∧
    (∀ t : Fin 16, (Context.reset.tls[t]).value = 0 ∧ (Context.reset.tls[t]).irqAt = 0xFFFFFFFFFFFFFFFF#64) ∧
    (∀ k : Fin 4, (Context.reset.gangs[k]).members = 1 ∧ (Context.reset.gangs[k]).state = 0) ∧
    (∀ d, (State.reset.die d).iftEnable = true ∧ (State.reset.die d).iftPeriod = 600 ∧ (State.reset.die d).fq = [] ∧
      (State.reset.die d).autofreeze = true ∧ (State.reset.die d).frozen = false ∧ (State.reset.die d).mon.tlim = 95)

/-- R145, R156, R34, R171, R286, R325: the registers of a warp at block start: no v name has a slot, predicates are true,
index registers, handles and NSTAT are zero, streams are unbound and renaming entries invalid. -/
def Clause.BlockStartRegisters : Prop :=
  ∀ m : Mask, let w := Warp.start m
    w.reg.v = [] ∧ (∀ i : Fin 7, w.reg.p[i] = 0xFFFFFFFF#32) ∧
      (∀ (i : Fin 8) (l : Fin 32), (w.reg.x[i])[l] = { base := 0, limit := 0, cursor := 0 }) ∧
      (∀ i : Fin 8, w.reg.z[i] = none ∧ w.reg.k[i] = 0) ∧ w.reg.nstat = 0 ∧
      (∀ (r : Fin 4) (i : Fin 16), (w.reg.ren[r])[i] = none) ∧ w.lane.live = m ∧ w.lane.inMeld = 0 ∧ w.lane.inSerial = 0 ∧
      ∀ l : Fin 32, w.lane.pcs[l] = { hdr := 0, idx := 0 }

/-- What reset leaves of the machine, and block start of a warp. -/
def Obligations.ResetAndBlockStart : Prop := Clause.ResetState ∧ Clause.BlockStartRegisters


/-! ### Checks at issue -/

/-- R160, R134, R135, R110: every instruction waits at issue while another split of its warp awaits a register that it names; else
a warp whose non-preemptible region has overrun takes that trap first; and then a path guard or an m name outside a meld clause,
and an instruction that must be the last of its clause and is not, are illegal for every lane of the split, those among them that
have left the clause. Nothing of the instruction happens, whatever faults its operands, its address or its record would meet. -/
def Clause.IssueFaults : Prop :=
  (∀ i g ops last s, issueForm i = some (g, ops, last) → ops.any s.curWarp.awaits = true → exec i s = .next s.waits) ∧
  (∀ i g ops last s, issueForm i = some (g, ops, last) → ops.any s.curWarp.awaits = false → s.curWarp.overrun = true →
    s.issuing ≠ 0 → exec i s = .next (raiseTrap (s.trapReq 0x19 s.issuing) s)) ∧
  (∀ i g ops last s, issueForm i = some (g, ops, last) → ops.any s.curWarp.awaits = false →
    ((isPathGuard g || ops.any isMName) = true ∧ hdrClass s.header ≠ 4 ∨ last = true ∧ s.isLast = false) →
    s.curWarp.overrun = false → s.members ≠ 0 →
    exec i s = .next (raiseTrap (s.trapReq 0x01 s.members) s)) ∧
  ∀ i : Instr, isDeviceStep i = false → (issueForm i).isSome = true

/-- R172, R167, R171: at the first instruction of a meld clause the lanes that are not in a region, or whose region has the other
table, raise an illegal-instruction fault; at that of another clause, the lanes in a region; and at any instruction the active
lanes whose entry of an m name is invalid. -/
def Clause.MeldClauseFaults : Prop :=
  (∀ i g ops last s m, issueForm i = some (g, ops, last) → ops.any s.curWarp.awaits = false → s.curSplit.idx = 0 →
    s.curWarp.overrun = false →
    (hdrClass s.header = 4 ∨ (isPathGuard g || ops.any isMName) = false) → (last = true → s.isLast = true) →
    directOk s i = true → m ≠ 0 →
    m = (if hdrClass s.header = 4 then
        s.issuing &&& (~~~ s.curWarp.lane.inMeld |||
          (if hdrPtab s.header then ~~~ s.curWarp.lane.table else s.curWarp.lane.table))
      else s.issuing &&& s.curWarp.lane.inMeld) →
    exec i s = .next (raiseTrap (s.trapReq 0x01 m) s)) ∧
  ∀ i g ops last s m, issueForm i = some (g, ops, last) → ops.any s.curWarp.awaits = false → s.curSplit.idx ≠ 0 →
    s.curWarp.overrun = false → hdrClass s.header = 4 → (last = true → s.isLast = true) → directOk s i = true → m ≠ 0 →
    (∀ l : Fin 32, m.getLsbD l.val = ((s.active g).getLsbD l.val &&
      ops.any fun o => match o with | .m n => (renameOf s.curWarp n l).isNone | _ => false)) →
    exec i s = .next (raiseTrap (s.trapReq 0x01 m) s)

/-- The checks that every instruction passes at issue. -/
def Obligations.IssueChecksFault : Prop := Clause.IssueFaults ∧ Clause.MeldClauseFaults


/-! ### Sources (R131, R132, R146, R147) -/

/-- R131, R132, R155, R156, R157, R171, R286: what each class of source reads as for a lane: the slot's value, the scalar, the
uniform register as the warp sees it, 1 or 0 for a predicate, 0, the code less 480 for an immediate, the latch, the limit above the
cursor of an index register, the slot of the v name that an m name stands for, and the element that a stream delivers, 0 past its
end. A latch that is read holds a value in every active lane, and a stream is bound. -/
def Obligations.SourcesReadTheirValues : Prop :=
  ∀ g a s r, readAll g [srcI a] s = .ok r → ∀ l : Fin 32,
    (∀ n, a.op = .v n → (r.w 0)[l] = (slotOf s.curWarp.reg n.val).vals[l]) ∧
      (∀ n, a.op = .s n → (r.w 0)[l] = s.curWarp.reg.s[n]) ∧
      (∀ n, a.op = .w n → (r.w 0)[l] =
        if s.curBlock.wOwner[n] = some s.cur.warp then s.curBlock.wPend[n] else s.curBlock.w[n]) ∧
      (∀ n : Fin 8, a.op = .p n → (r.w 0)[l] =
        if h : n.val < 7 then (if (s.curWarp.reg.p[n.val]).getLsbD l.val then 1 else 0) else 1) ∧
      (a.op = .zero → (r.w 0)[l] = 0) ∧
      (∀ c, a.op = .imm c → (r.w 0)[l] = BitVec.ofInt 32 ((c.val : Int) - 32)) ∧
      (∀ n, a.op = .lat n → (r.w 0)[l] = (s.curWarp.reg.lat[n]).vals[l] ∧
        ((s.active g).getLsbD l.val = true → (s.curWarp.reg.lat[n]).life[l] ≠ 0)) ∧
      (∀ n, a.op = .x n → (r.w 0)[l] = ((s.curWarp.reg.x[n])[l]).limit ++ ((s.curWarp.reg.x[n])[l]).cursor) ∧
      (∀ n v, a.op = .m n → renameOf s.curWarp n l = some v → (r.w 0)[l] = (slotOf s.curWarp.reg v.val).vals[l]) ∧
      ∀ n, a.op = .z n →
        (s.curWarp.reg.z[n] = none → s.active g = 0) ∧
        ∀ x, s.curWarp.reg.z[n] = some x →
          (x.exhausted = true → (r.w 0)[l] = 0) ∧
          (x.exhausted = false → x.ahead = [] → ∀ now s1 p, streamBytes s (s.active g) x = .ok (now, s1) →
            (now.find? fun p => p.1 == l) = some p → (r.w 0)[l] = elemExtend x.desc.esize (leNat p.2))

/-- R147, R163: when an active lane reads a v name with no slot or with its mask bit clear, as a source of one register or as one of
a pair, exactly those lanes take a dead-value fault, and so do the active lanes whose m name stands for such a name; nothing else
of the instruction happens. The sources before it have been read with no fault. -/
def Clause.DeadReadFaults : Prop :=
  (∀ i o s pre q rest n m r0, computes i = some o → checkIssue o.g (opsOf o.d.op o.qs) false s = .ok () →
    o.qs = pre ++ q :: rest → readAll o.g pre s = .ok r0 → q.op = .v n → m ≠ 0 →
    (∀ l : Fin 32, m.getLsbD l.val = ((s.active o.g).getLsbD l.val && (List.range q.n).any fun k =>
      !((AMap.get? s.curWarp.reg.v (n.val + k)).any fun x => x.mask.getLsbD l.val))) →
    exec i s = .next (raiseTrap (s.trapReq 0x04 m) s)) ∧
  ∀ i o s pre q rest n m r0, computes i = some o → checkIssue o.g (opsOf o.d.op o.qs) false s = .ok () →
    o.qs = pre ++ q :: rest → readAll o.g pre s = .ok r0 → q.op = .m n → m ≠ 0 →
    (∀ l : Fin 32, m.getLsbD l.val = ((s.active o.g).getLsbD l.val &&
      (renameOf s.curWarp n l).any fun v => !((AMap.get? s.curWarp.reg.v v.val).any fun x => x.mask.getLsbD l.val))) →
    exec i s = .next (raiseTrap (s.trapReq 0x04 m) s)

/-- R146: after an instruction that computes, a name it has read k times and does not write has k less on its count; one
with count 0 stays, and one whose count comes to 0 is released. -/
def Clause.ConsumerCountsFall : Prop :=
  ∀ i o s r b w sp n sl, computes i = some o → o.Normal s r → s.Issues b w sp → AMap.get? w.reg.v n = some sl →
    (w.reg.v.map Prod.fst).Nodup → (∀ q ∈ o.puts s r, ∀ x ∈ q.names w, x.1 ≠ n) →
    ∃ t, exec i s = .next t ∧ AMap.get? t.curWarp.reg.v n =
      if sl.count = 0 then some sl
      else if sl.count ≤ r.names.count n then none
      else some { sl with count := sl.count - r.names.count n }

/-- R145, R150: each name has one slot, before and after an instruction that computes; the premise of the statement on
counts. -/
def Clause.NamesKeepOneSlot : Prop :=
  ∀ i o s r b w sp, computes i = some o → o.Normal s r → s.Issues b w sp → (w.reg.v.map Prod.fst).Nodup →
    ∃ t, exec i s = .next t ∧ (t.curWarp.reg.v.map Prod.fst).Nodup

/-- Consumer counts, and the slots of the names of a bank. -/
def Obligations.SlotsAndCounts : Prop := Clause.ConsumerCountsFall ∧ Clause.NamesKeepOneSlot


/-! ### Destinations (R145, R148, R157, R158) -/

/-- R145, R150, R171: a v destination takes a new slot: active lanes receive the result and their mask bit, every other lane keeps
the old slot's value and mask bit, and the count is the instruction's. A pair takes two, the second with the high word. An m name
writes, in each lane, the v name that it stands for there. -/
def Clause.NameTakesResult : Prop :=
  (∀ i o s r b w sp n, computes i = some o → o.Normal s r → s.Issues b w sp → o.d.op = .v n → (o.wide = true → n.val < 255) →
    s.active o.g ≠ 0 →
    ∃ t sl, exec i s = .next t ∧ AMap.get? t.curWarp.reg.v n.val = some sl ∧ sl.count = o.d.cc.val ∧
      (∀ l : Fin 32,
        if (s.active o.g).getLsbD l.val then sl.mask.getLsbD l.val = true ∧ sl.vals[l] = (o.val s r l).1
        else sl.mask.getLsbD l.val = (slotOf w.reg n.val).mask.getLsbD l.val ∧ sl.vals[l] = (slotOf w.reg n.val).vals[l]) ∧
      (o.wide = true → ∃ sh, AMap.get? t.curWarp.reg.v (n.val + 1) = some sh ∧ sh.count = o.d.cc.val ∧
        ∀ l : Fin 32,
          if (s.active o.g).getLsbD l.val then sh.mask.getLsbD l.val = true ∧ sh.vals[l] = (o.val s r l).2.1
          else sh.mask.getLsbD l.val = (slotOf w.reg (n.val + 1)).mask.getLsbD l.val ∧
            sh.vals[l] = (slotOf w.reg (n.val + 1)).vals[l])) ∧
  ∀ i o s r b w sp n k v, computes i = some o → o.wide = false → o.Normal s r → s.Issues b w sp → o.d.op = .m n →
    (s.active o.g).getLsbD (k : Fin 32).val = true → renameOf w n k = some v →
    ∃ t sl, exec i s = .next t ∧ AMap.get? t.curWarp.reg.v v.val = some sl ∧ sl.count = o.d.cc.val ∧
      ∀ l : Fin 32,
        if (s.active o.g).getLsbD l.val = true ∧ renameOf w n l = some v then
          sl.mask.getLsbD l.val = true ∧ sl.vals[l] = (o.val s r l).1
        else sl.mask.getLsbD l.val = (slotOf w.reg v.val).mask.getLsbD l.val ∧ sl.vals[l] = (slotOf w.reg v.val).vals[l]

/-- R131, R159, R157: an s destination takes the one value of the active lanes, a p destination bit 0 of each active lane's
result, a w destination waits under its writer for the phase to end, and zero discards the result. A pair of s or of w registers
takes the low word in the first and the high word in the second. -/
def Clause.OtherDestinationsTakeResult : Prop :=
  (∀ i o s r b w sp, computes i = some o → o.wide = false → o.Normal s r → s.Issues b w sp → s.active o.g ≠ 0 →
    (∀ q ∈ o.qs, ∀ n, q.op ≠ .z n) →
    ∃ t, exec i s = .next t ∧
      (∀ n l, o.d.op = .s n → lowest (s.active o.g) = some l → t.curWarp.reg.s[n] = (o.val s r l).1) ∧
      (∀ n l, o.d.op = .w n → lowest (s.active o.g) = some l →
        t.curBlock.wPend[n] = (o.val s r l).1 ∧ t.curBlock.wOwner[n] = some s.cur.warp ∧ t.curBlock.w = b.w) ∧
      (∀ (n : Fin 8) (h : n.val < 7) (l : Fin 32), o.d.op = .p n → (t.curWarp.reg.p[n.val]).getLsbD l.val =
        if (s.active o.g).getLsbD l.val then (o.val s r l).1.getLsbD 0 else (w.reg.p[n.val]).getLsbD l.val) ∧
      (o.d.op = .zero → t.curWarp.reg.s = w.reg.s ∧ t.curWarp.reg.p = w.reg.p ∧ t.curBlock.wPend = b.wPend)) ∧
  ∀ i o s r b w sp l, computes i = some o → o.wide = true → o.Normal s r → s.Issues b w sp → lowest (s.active o.g) = some l →
    ∃ t, exec i s = .next t ∧
      (∀ (n : Fin 64) (h : n.val + 1 < 64), o.d.op = .s n →
        t.curWarp.reg.s[n] = (o.val s r l).1 ∧ t.curWarp.reg.s[n.val + 1] = (o.val s r l).2.1) ∧
      ∀ (n : Fin 32) (h : n.val + 1 < 32), o.d.op = .w n → t.curBlock.w = b.w ∧
        t.curBlock.wPend[n] = (o.val s r l).1 ∧ t.curBlock.wOwner[n] = some s.cur.warp ∧
        t.curBlock.wPend[n.val + 1] = (o.val s r l).2.1 ∧ t.curBlock.wOwner[n.val + 1] = some s.cur.warp

/-- What each class of destination takes. -/
def Obligations.DestinationsTakeResult : Prop := Clause.NameTakesResult ∧ Clause.OtherDestinationsTakeResult


/-- R148, R146, R163: a result that would leave the warp with more live names in a bank than a quarter of its registers, rounded up,
faults in the active lanes, and nothing is written. The names that the reads of the instruction release are not among them. -/
def Clause.ReservationFaults : Prop :=
  ∀ i o s r n, computes i = some o → o.wide = false → checkIssue o.g (opsOf o.d.op o.qs) false s = .ok () →
    readAll o.g o.qs s = .ok r → o.d.op = .v n → s.active o.g ≠ 0 → (s.curWarp.reg.v.map Prod.fst).Nodup →
    AMap.get? s.curWarp.reg.v n.val = none →
    (s.curLaunch.hdr.regs + 3) / 4 < (s.curWarp.reg.v.filter fun p =>
      p.1 % 4 == n.val % 4 && !(p.2.count != 0 && decide (p.2.count ≤ r.names.count p.1))).length + 1 →
    exec i s = .next (raiseTrap (s.trapReq 0x09 (s.active o.g)) s)

/-- R157, R158: a w destination whose register another warp has written in this phase faults as a uniform-writer; an s or w
destination whose active lanes do not agree faults as non-uniform. -/
def Clause.UniformDestinationFaults : Prop :=
  (∀ i o s r n u, computes i = some o → o.wide = false → checkIssue o.g (opsOf o.d.op o.qs) false s = .ok () →
    readAll o.g o.qs s = .ok r → o.d.op = .w n → s.active o.g ≠ 0 → s.curBlock.wOwner[n] = some u → u ≠ s.cur.warp →
    exec i s = .next (raiseTrap (s.trapReq 0x08 (s.active o.g)) s)) ∧
  ∀ i o s r l k, computes i = some o → o.wide = false → checkIssue o.g (opsOf o.d.op o.qs) false s = .ok () →
    readAll o.g o.qs s = .ok r → ((∃ n, o.d.op = .s n) ∨
      ∃ n, o.d.op = .w n ∧ (s.curBlock.wOwner[n] = none ∨ s.curBlock.wOwner[n] = some s.cur.warp)) →
    (s.active o.g).getLsbD (l : Fin 32).val = true → (s.active o.g).getLsbD (k : Fin 32).val = true →
    (o.val s r l).1 ≠ (o.val s r k).1 →
    exec i s = .next (raiseTrap (s.trapReq 0x07 (s.active o.g)) s)

/-- The faults of sources and of destinations. -/
def Obligations.OperandFaults : Prop := Clause.DeadReadFaults ∧ Clause.ReservationFaults ∧ Clause.UniformDestinationFaults


/-! ### Families 000 to 011 -/

/-- R195 to R198: the arithmetic and comparing instructions of family 000 complete with these results and events. -/
def Clause.IntegerArithmeticCompletes : Prop :=
  ∀ i o s r, intArith i = some o → o.Normal s r → exec i s = .next (o.after s r)

/-- R199 to R204: the bitwise instructions, shifts, rotations, fields and counts. -/
def Clause.IntegerBitsComplete : Prop :=
  ∀ i o s r, intBits i = some o → o.Normal s r → exec i s = .next (o.after s r)

/-- Family 000. -/
def Obligations.IntegerInstructionsComplete : Prop := Clause.IntegerArithmeticCompletes ∧ Clause.IntegerBitsComplete


/-- R205 to R210: the FP32 instructions. The values of the approximated functions, which R209 bounds and does not fix, are those of
the model (log 20); no bound is stated here. -/
def Clause.Fp32Completes : Prop :=
  ∀ i o s r, fp32Compute i = some o → o.Normal s r → exec i s = .next (o.after s r)

/-- R211: the FP64 instructions, on register pairs. -/
def Clause.Fp64Completes : Prop :=
  ∀ i o s r, fp64Compute i = some o → o.Normal s r → exec i s = .next (o.after s r)

/-- Families 001 and 010: FP32 and FP64. -/
def Obligations.FloatInstructionsComplete : Prop := Clause.Fp32Completes ∧ Clause.Fp64Completes


/-- R212, R213, R214, R218: packed halves, dot products, packing and conversion. -/
def Obligations.PackedAndConversionComplete : Prop :=
  ∀ i o s r, packedCompute i = some o → o.Normal s r → exec i s = .next (o.after s r)

/-- Moves, and the lane operations of R220, R221 and R223. -/
def Obligations.MovesAndLaneOperationsComplete : Prop :=
  (∀ i o s r, moveCompute i = some o → o.Normal s r → exec i s = .next (o.after s r)) ∧
    ∀ i o s r, laneCompute i = some o → o.Normal s r → exec i s = .next (o.after s r)

/-- The frame of every instruction that computes: no byte of memory, no buffer, no other warp or block changes; of its own
warp, only its destination, the names it reads, the latches, its stream sources with their predicates, and NSTAT, whose
bits only come on. -/
def Obligations.ComputingFrame : Prop :=
  ∀ i o s r b w sp, computes i = some o → o.Normal s r → s.Issues b w sp →
    ∃ t, exec i s = .next t ∧ Outside s t ∧ BlockOutside s t ∧ WarpOutside s t ∧
      t.curWarp.reg.x = w.reg.x ∧ t.curWarp.reg.elect = w.reg.elect ∧
      t.curWarp.reg.nstat = w.reg.nstat ||| w32 (flagsOn (s.active o.g) fun l => (o.val s r l).2.2).bits ∧
      (∀ n : Fin 64, (∀ q ∈ o.puts s r, q.op ≠ .s n) → t.curWarp.reg.s[n] = w.reg.s[n]) ∧
      (∀ n : Fin 32, (∀ q ∈ o.puts s r, q.op ≠ .w n) →
        t.curBlock.wOwner[n] = b.wOwner[n] ∧ t.curBlock.wPend[n] = b.wPend[n]) ∧
      (∀ n, n ∉ r.names → (∀ q ∈ o.puts s r, ∀ x ∈ q.names w, x.1 ≠ n) →
        AMap.get? t.curWarp.reg.v n = AMap.get? w.reg.v n) ∧
      ((∀ q ∈ o.qs, ∀ n, q.op ≠ .z n) → t.curWarp.reg.z = w.reg.z ∧
        ∀ n : Fin 7, (∀ q ∈ o.puts s r, ∀ m : Fin 8, q.op = .p m → m.val ≠ n.val) → t.curWarp.reg.p[n] = w.reg.p[n])
/-! ### Families 010 and 011, the rest -/

/-- R215, R216, R217: QBLK gives each active lane its bytes of the encoded block, with the events of every element; DQBLK
gives each its element, and faults when a strict block is malformed. -/
def Clause.ScaledBlocksComplete : Prop :=
  (∀ g d a b c fmt rm s r,
    let xs := qblkElems (s.active g) (r.w 0) (r.w 1)
    let cw := uval (s.active g) (r.w 2)
    let sc := if cw.getLsbD 8 then autoScale fmt xs else cw.toNat % 256
    let e := encBlock fmt rm sc xs
    let qs := [srcF a, srcF b, srcU c]
    let puts := [putOf d (s.active g) (tab fun l => qblkLane fmt sc e.1 l.val)]
    Ready g (opsOf d.op qs) qs puts s r →
    exec (.qblk g d a b c fmt rm) s = .next (advance (onActive g s (setFlags e.2) (written r puts s)))) ∧
  ∀ g d a hi rm strict s (r : Reading),
    let up : Lanes Word := tab fun l => ((r.w 0)[l]) >>> 16
    let h := (uval (s.active g) up).toNat
    let c8 := decide (h % 256 / 16 = 1)
    let blk := decodeBlock c8 (h % 256) (h / 256) (dqblkBody (s.active g) c8 (r.w 0))
    let v := tab fun l => elemF32 rm blk.1 (2 * l.val + if hi then 1 else 0)
    let puts := [putOf d (s.active g) (tab fun l => (v[l]).1)]
    let ev := (flagsOn (s.active g) fun l => (v[l]).2).or { fmterr := blk.2 }
    Ready g (opsOf d.op [srcI a]) [srcI a] puts s r → (perLane a.op = true → uniformOn (s.active g) up = true) →
    (blk.2 = true → strict = true → s.active g = 0) →
    exec (.dqblk g d a hi rm strict) s = .next (advance (onActive g s (setFlags ev) (written r puts s)))

/-- R42, R44, R217: a strict block of an unknown or malformed format faults in the active lanes, with no destination
changed. -/
def Clause.StrictBlockFaults : Prop :=
  ∀ g d a hi rm s (r : Reading),
    let up : Lanes Word := tab fun l => ((r.w 0)[l]) >>> 16
    let h := (uval (s.active g) up).toNat
    let c8 := decide (h % 256 / 16 = 1)
    checkIssue g (opsOf d.op [srcI a]) false s = .ok () → readAll g [srcI a] s = .ok r →
    (perLane a.op = true → uniformOn (s.active g) up = true) →
    (decodeBlock c8 (h % 256) (h / 256) (dqblkBody (s.active g) c8 (r.w 0))).2 = true → s.active g ≠ 0 →
    exec (.dqblk g d a hi rm true) s = .next (raiseTrap (s.trapReq 0x12 (s.active g)) s)

/-- Scaled blocks, and where a strict one faults. -/
def Obligations.ScaledBlocks : Prop := Clause.ScaledBlocksComplete ∧ Clause.StrictBlockFaults


/-- R156: SETX sets the base, the limit and the cursor of the active lanes, its other forms the cursor; MOVX reads the name
base + cursor + offset of each lane, and MOVXW writes it; both wait while another split of the warp awaits a register (R160).
A lane out of bounds faults. -/
def Obligations.IndexRegistersComplete : Prop :=
  (∀ g x a b c s r, let qs := [srcI a, srcI b, srcI c]
    Ready g (opsOf .zero qs) qs [] s r → exec (.setx g x a b c) s = .next (advance (setX x (s.active g) (fun l _ =>
      { base := BitVec.ofNat 16 ((r.w 0)[l]).toNat, limit := BitVec.ofNat 16 ((r.w 1)[l]).toNat,
        cursor := BitVec.ofNat 16 ((r.w 2)[l]).toNat }) (written r [] s)))) ∧
  (∀ g x a s r, Ready g (opsOf .zero [srcI a]) [srcI a] [] s r →
    exec (.setxCur g x a) s = .next (advance (setX x (s.active g) (fun l e =>
      { e with cursor := BitVec.ofNat 16 ((r.w 0)[l]).toNat }) (written r [] s)))) ∧
  (∀ g x a s r, Ready g (opsOf .zero [srcI a]) [srcI a] [] s r →
    exec (.setxAdd g x a) s = .next (advance (setX x (s.active g) (fun l e =>
      { e with cursor := BitVec.ofNat 16 (e.cursor.toNat + ((r.w 0)[l]).toNat) }) (written r [] s)))) ∧
  (∀ g d x o inc s, let rg := s.curWarp.reg
    let r : Reading :=
      { vals := [rd1 (tab fun l => match indexed rg x o.val l with
          | some n => (slotOf rg n).vals[l]
          | none => 0)]
        st := s, preds := rg.p, holds := []
        names := ((lanesOf (readers s.curWarp s.curSplit g)).filterMap fun l => indexed rg x o.val l).eraseDups }
    let t := written r [putOf d (s.active g) (r.w 0)] s
    checkIssue g [d.op] false s = .ok () → s.curWarp.late = [] →
    (∀ l : Fin 32, (s.active g).getLsbD l.val = true →
      ∃ n, indexed rg x o.val l = some n ∧ (slotOf rg n).mask.getLsbD l.val = true) →
    destCheck r [putOf d (s.active g) (r.w 0)] s = .ok () →
    exec (.movx g d x o inc) s = .next (advance (if inc then cursorInc x (s.active g) t else t))) ∧
  (∀ g x o a cc inc s r, let rg := s.curWarp.reg
    let names := ((lanesOf (s.active g)).filterMap fun l => indexed rg x o.val l).eraseDups
    let puts := names.map fun n =>
      (⟨.v (Fin.ofNat 256 n), cc.val, s.active g &&& maskOf fun l => indexed rg x o.val l == some n, r.w 0⟩ : Put)
    let t := written r puts s
    Ready g (opsOf .zero [srcI a]) [srcI a] puts s r → s.curWarp.late = [] →
    (∀ l : Fin 32, (s.active g).getLsbD l.val = true → (indexed rg x o.val l).isSome = true) →
    exec (.movxw g x o a cc inc) s = .next (advance (if inc then cursorInc x (s.active g) t else t))) ∧
  (∀ (r : Regs) (x : Fin 8) (o : Nat) (l : Fin 32), let e := (r.x[x])[l]
    indexed r x o l = if e.cursor.toNat + o < e.limit.toNat ∧ e.base.toNat + e.cursor.toNat + o < 256
      then some (e.base.toNat + e.cursor.toNat + o) else none) ∧
  (∀ g d x o inc s, checkIssue g [d.op] false s = .ok () → s.curWarp.late ≠ [] →
    exec (.movx g d x o inc) s = .next s.waits) ∧
  (∀ g x o a cc inc s, checkIssue g [.zero, a.op] false s = .ok () → s.curWarp.late ≠ [] →
    exec (.movxw g x o a cc inc) s = .next s.waits) ∧
  ∀ g d x o inc s m, checkIssue g [d.op] false s = .ok () → s.curWarp.late = [] → m ≠ 0 →
    (∀ l : Fin 32, (s.active g).getLsbD l.val = true → ∀ n, indexed s.curWarp.reg x o.val l = some n →
      (slotOf s.curWarp.reg n).mask.getLsbD l.val = true) →
    (∀ l : Fin 32, m.getLsbD l.val = ((s.active g).getLsbD l.val && (indexed s.curWarp.reg x o.val l).isNone)) →
    exec (.movx g d x o inc) s = .next (raiseTrap (s.trapReq 0x06 m) s)

/-- PMOV.set writes the chosen predicates of the active lanes from the bits of its source; KILLV clears the mask bits of
the active lanes in its names without reading them, and releases a name that no lane holds; NOP does nothing. -/
def Obligations.PredicatesAndReleasesComplete : Prop :=
  (∀ g a mask s r, let qs := [srcI a, srcU mask]
    let m := s.active g
    let w := uval m (r.w 1)
    Ready g (opsOf .zero qs) qs [] s r →
    exec (.pmovSet g a mask) s = .next (advance (onActive g s (fun t => t.updReg fun x => { x with
      p := Vector.ofFn fun i : Fin 7 => maskOf fun l =>
        if w.getLsbD i.val && m.getLsbD l.val then ((r.w 0)[l]).getLsbD i.val else (x.p[i]).getLsbD l.val })
      (written r [] s)))) ∧
  (∀ g a b c s,
    let ks := [a, b, c].flatMap fun o => (⟨o, 0, s.active g, splat 0⟩ : Put).names s.curWarp
    let v := killNames s.curWarp.reg.v ks
    let rel := releases s.curWarp.reg.v ((s.curWarp.reg.v.map Prod.fst).filter fun n => !(v.any fun p => p.1 == n)) []
    checkIssue g [a, b, c] false s = .ok () → shareStall s rel = false →
    exec (.killv g a b c) s = .next (advance (shareTake rel (s.updReg fun r => { r with v := v })))) ∧
  (∀ (v : AMap Slot) n m sl, (v.map Prod.fst).Nodup → AMap.get? v n = some sl →
    AMap.get? (killNames v [(n, m)]) n =
      if sl.mask &&& ~~~ m = 0 then none else some { sl with mask := sl.mask &&& ~~~ m }) ∧
  ∀ g s, checkIssue g [] false s = .ok () → exec (.nop g) s = .next (advance s)

/-- R222: LRED gives every active lane the combination of all active lanes, LSCAN that of the lanes up to its own, or, with
`.excl`, of those before it, the identity where there is none. R225: ELECT names one active lane. R224: RDLANE gives the
value of one lane, active or not. -/
def Clause.ReductionsAndElectionsComplete : Prop :=
  (∀ g d a op rm s r,
    let qs := [{ srcI a with imm := if op = .fadd ∨ op = .fmin ∨ op = .fmax then .f32 else .int }]
    let x := combined op rm ((lanesOf (s.active g)).map fun l => (r.w 0)[l])
    let puts := [putOf d (s.active g) (splat (x.getD 0))]
    Ready g (opsOf d.op qs) qs puts s r →
    exec (.lred g d a op rm) s = .next (advance (setFlags (scan op rm (s.active g) (r.w 0)).2.2 (written r puts s)))) ∧
  (∀ g d a op excl rm s r,
    let qs := [{ srcI a with imm := if op = .fadd ∨ op = .fmin ∨ op = .fmax then .f32 else .int }]
    let upTo (l : Fin 32) := combined op rm (((lanesOf (s.active g)).filter fun k =>
      decide (k.val < l.val) || (!excl && k == l)).map fun k => (r.w 0)[k])
    let puts := [putOf d (s.active g) (tab fun l =>
      if (s.active g).getLsbD l.val then (upTo l).getD (redId op) else 0)]
    Ready g (opsOf d.op qs) qs puts s r →
    exec (.lscan g d a op excl rm) s = .next (advance (setFlags (scan op rm (s.active g) (r.w 0)).2.2 (written r puts s)))) ∧
  (∀ g d md s r,
    let e := electLane md (s.active g) s.curWarp.reg.elect
    let puts := [putOf d (s.active g) (match d.op with
      | .s _ | .w _ => splat (BitVec.ofNat 32 ((e.map Fin.val).getD 0))
      | _ => tab fun l => if e = some l then 1 else 0)]
    Ready g [d.op] [] puts s r →
    exec (.elect g d md) s = .next (advance (match md, e with
      | .rr, some l => (written r puts s).updReg fun x => { x with elect := l }
      | _, _ => written r puts s))) ∧
  (∀ g d a b s rb z v st preds,
    let n : Fin 32 := Fin.ofNat 32 ((uval (s.active g) (rb.w 0)).toNat % 32)
    let r : Reading := { rb with
      vals := [rd1 v]
      st, preds
      holds := (if a.hold then [v] else []) ++ rb.holds }
    let puts := [putOf d (s.active g) (splat v[n])]
    checkIssue g [d.op, a.op, b.op] false s = .ok () → readAll g [srcU b] s = .ok rb → a.op = .z z →
    readStream (s.active g) (if s.active g = 0 then 0 else s.active g ||| one_ n) z s rb.st rb.preds = .ok (v, st, preds) →
    destCheck r puts s = .ok () →
    exec (.rdlane g d a b) s = .next (advance (written r puts s))) ∧
  ∀ g d a b s rb,
    let n : Fin 32 := Fin.ofNat 32 ((uval (s.active g) (rb.w 0)).toNat % 32)
    let r : Reading := { rb with
      vals := [rd1 (wordOf s .int a.op 0)]
      names := rb.names ++ namesRead s.curWarp (readers s.curWarp s.curSplit g) a.op 1
      holds := (if a.hold then [wordOf s .int a.op 0] else []) ++ rb.holds }
    let puts := [putOf d (s.active g) (splat (wordOf s .int a.op 0)[n])]
    checkIssue g [d.op, a.op, b.op] false s = .ok () → readAll g [srcU b] s = .ok rb → (∀ z, a.op ≠ .z z) →
    (s.active g ≠ 0 → badNames s.curWarp (one_ n) [a.op] = 0 ∧ badLatch s (one_ n) a.op = 0 ∧
      deadLanes s (one_ n) a.op 1 = 0) →
    destCheck r puts s = .ok () →
    exec (.rdlane g d a b) s = .next (advance (written r puts s))

/-- R225: the lane that is elected. -/
def Clause.ElectionChooses : Prop :=
  ∀ (m : Mask) (ptr : Fin 32), m ≠ 0 →
    (∃ l, electLane .lo m ptr = some l ∧ m.getLsbD l.val = true ∧ ∀ k : Fin 32, m.getLsbD k.val = true → l ≤ k) ∧
    (∃ l, electLane .hi m ptr = some l ∧ m.getLsbD l.val = true ∧ ∀ k : Fin 32, m.getLsbD k.val = true → k ≤ l) ∧
    ∃ l, electLane .rr m ptr = some l ∧ m.getLsbD l.val = true ∧
      ((∃ k : Fin 32, ptr < k ∧ m.getLsbD k.val = true) → ptr < l) ∧
      ∀ k : Fin 32, m.getLsbD k.val = true → (ptr < k ↔ ptr < l) → l ≤ k

/-- Operations across the lanes of a warp. -/
def Obligations.ReductionsAndElections : Prop := Clause.ReductionsAndElectionsComplete ∧ Clause.ElectionChooses


/-! ### NSTAT and the system registers (R34, R164, R165) -/

/-- R34: the word that the events of an instruction set in NSTAT, and a write of ones clears. -/
def Clause.NumericStatus : Prop :=
  (∀ (f : Flags) (i : Nat), (w32 f.bits).getLsbD i =
    match i with
    | 0 => f.invalid | 1 => f.divzero | 2 => f.overflow | 3 => f.underflow | 4 => f.inexact | 5 => f.sat | 6 => f.fmterr
    | _ => false) ∧
  ∀ g a s r, Ready g [a] [opU a] [] s r → s.active g ≠ 0 →
    ∃ t, exec (.wrsr g a 0x010) s = .next t ∧
      t = advance ((written r [] s).updReg fun x => { x with nstat := x.nstat &&& ~~~ (uval (s.active g) (r.w 0)) })

/-- R164, R165: RDSR delivers a register's value to each active lane, 0 from a register of the other world; WRSR writes
the value of its uniform operand; a register that the maps do not have, or do not let software write, is illegal. REGISTER_WRITE,
firmware's own write, stores into a register of a die; the five registers whose writing is an action of a warp or a block (NSTAT,
FSHARE_HI, the overflow pool, TMISS, FQRESP) it does not have: WRSR acts on them. -/
def Clause.SystemRegistersComplete : Prop :=
  (∀ g d num wide s r,
    let lo : Put := ⟨d, 0, s.active g, tab fun l => lo32 (regValue s num.toNat l)⟩
    let hi : Put := ⟨nextReg d 1, 0, s.active g, tab fun l => hi32 (regValue s num.toNat l)⟩
    let puts := if wide then [lo, hi] else [lo]
    Ready g [d] [] puts s r → knownReg num.toNat = true → (wide = true → wideReg num.toNat = true) →
    exec (.rdsr g d num wide) s = .next (advance (written r puts s))) ∧
  (∀ g d num wide s, checkIssue g [d] false s = .ok () → s.members ≠ 0 →
    (knownReg num.toNat && (!wide || wideReg num.toNat)) = false →
    exec (.rdsr g d num wide) s = .next (raiseTrap (s.trapReq 0x01 s.members) s)) ∧
  (∀ g a num s r, Ready g [a] [opU a] [] s r → writableReg num.toNat = true →
    (s.active g ≠ 0 → writeWaits num.toNat s = false) →
    exec (.wrsr g a num) s =
      .next (advance (onActive g s (writeReg num.toNat (uval (s.active g) (r.w 0))) (written r [] s)))) ∧
  (∀ g a num s, checkIssue g [a] false s = .ok () → s.members ≠ 0 → writableReg num.toNat = false →
    exec (.wrsr g a num) s = .next (raiseTrap (s.trapReq 0x01 s.members) s)) ∧
  (∀ s n l, secureRead n = true → s.curLaunch.desc.world = false → regValue s n l = 0) ∧
  (∀ s n v, secureWrite n = true → s.curLaunch.desc.world = false → writeReg n v s = s) ∧
  (∀ die num secure v s, storedReg num.toNat = true →
    exec (.registerWrite die num secure v) s =
      .next (if secureWrite num.toNat && !secure then s else writeDieReg die.val num.toNat v s)) ∧
  (∀ die num secure v s, storedReg num.toNat = false →
    exec (.registerWrite die num secure v) s = .refused (.notEnabled "REGISTER_WRITE")) ∧
  (∀ n, storedReg n = true ↔
    writableReg n = true ∧ n ≠ 0x010 ∧ n ≠ 0x103 ∧ n ≠ 0x106 ∧ n ≠ 0x108 ∧ n ≠ 0x168) ∧
  ∀ v s, let d := s.curBlock.place.die
    writeReg 0x010 v s = s.updReg (fun r => { r with nstat := r.nstat &&& ~~~ v }) ∧
    writeReg 0x108 v s = s.updEng s.cur.blk (writeTmiss v) ∧
    (s.curLaunch.desc.world = true →
      writeReg 0x103 v s = emit s.curLaunch.lagers s.curCore (s.outItem (.fshare v) none none 0) s ∧
      writeReg 0x106 v s = addOverflow d v s ∧
      writeReg 0x168 v s = answerFault d (nbits v.toNat 0 6) (nbits v.toNat 8 2) s)

/-- NSTAT and the system registers. -/
def Obligations.StatusAndSystemRegisters : Prop := Clause.NumericStatus ∧ Clause.SystemRegistersComplete

/-! ### Family 100 -/

/-- R270, R271, R272, R262, R269: a load whose operands are ready and whose access has no fault writes, for each active
lane, what the access gave it, extended by its size, and is counted. LDS makes one access for the warp. -/
def Obligations.LoadsComplete : Prop :=
  (∀ g d sz acq base off s r bs s1,
    let puts := ldPuts d sz (s.active g) (pickLane (s.active g) bs [])
    MemReady g [d.op, base] [{ op := base, n := 2 }] (ldPuts d sz (s.active g) fun _ => []) s r →
    loadGlobal r.st acq true (laneReqs (s.active g) (ldBytes sz) (gAddr (r.at 0) off)) = .ok (bs, s1) →
    destCheck { r with st := s1 } puts s = .ok () →
    exec (.ld g d sz acq base off) s =
      .next (advance (counted (s.active g) false true (written { r with st := s1 } puts s)))) ∧
  (∀ g d sz acq base off s r bs s1,
    let puts := ldPuts ⟨d, 0⟩ sz (s.active g) fun _ => bs.head?.getD []
    MemReady g [d, base] [{ op := base, n := 2, uni := true }] (ldPuts ⟨d, 0⟩ sz (s.active g) fun _ => []) s r →
    loadGlobal r.st acq true (uniReq (s.active g) (ldBytes sz)
      (gAddr (r.at 0) off ((lowest (s.active g)).getD 0))) = .ok (bs, s1) →
    destCheck { r with st := s1 } puts s = .ok () →
    exec (.lds g d sz acq base off) s =
      .next (advance (counted (s.active g) false true (written { r with st := s1 } puts s)))) ∧
  (∀ g d sz base off s r,
    let addr (l : Fin 32) : Nat := (bAddr (r.at 0) off l).toNat
    let puts := ldPuts d sz (s.active g) fun l => s.curLaunch.bank.readN (addr l) (ldBytes sz)
    MemReady g [d.op, base.op] [srcI base] (ldPuts d sz (s.active g) fun _ => []) s r →
    (∀ l : Fin 32, (s.active g).getLsbD l.val = true → addr l % ldBytes sz = 0 ∧ addr l + ldBytes sz ≤ 65536) →
    destCheck r puts s = .ok () →
    exec (.ldc g d sz base off) s = .next (advance (counted (s.active g) false true (written r puts s)))) ∧
  (∀ g d sz buf base off s r bs s1,
    let puts := ldPuts d sz (s.active g) (pickLane (s.active g) bs [])
    MemReady g [d.op, base.op] [srcI base] (ldPuts d sz (s.active g) fun _ => []) s r →
    loadBuf r.st (buf == .cbuf) true (laneReqs (s.active g) (ldBytes sz) (bAddr (r.at 0) off)) = .ok (bs, s1) →
    destCheck { r with st := s1 } puts s = .ok () →
    exec (.ldb g d sz buf base off) s =
      .next (advance (counted (s.active g) false true (written { r with st := s1 } puts s)))) ∧
  ∀ g d c8 hi strict abuf rm base off s r bs s1,
    let l0 := (lowest (s.active g)).getD 0
    let a := if abuf then bAddr (r.at 0) off l0 else gAddr (r.at 0) off l0
    let n := if c8 then 66 else 34
    let bytes : List Byte := bs.flatten
    let blk := decodeBlock c8 (bytes[0]?.getD 0).toNat (bytes[1]?.getD 0).toNat (bytes.drop 2)
    let v := tab fun l => toF32 rm (blk.1[2 * l.val + if hi then 1 else 0]?.getD (.fin false 0 0))
    let puts := [putOf d (s.active g) (tab fun l => (v[l]).1)]
    let ev := (flagsOn (s.active g) fun l => (v[l]).2).or { fmterr := blk.2 }
    MemReady g [d.op, base.op] [if abuf then srcU base else { op := base.op, n := 2, uni := true }]
      [putOf d (s.active g) (splat 0)] s r →
    (if abuf then loadBuf r.st false false (uniReq (s.active g) n a)
      else loadGlobal r.st none false (if s.active g = 0 then [] else (List.range n).map fun i =>
        ⟨s.active g, a + BitVec.ofNat 64 i, 1⟩)) = .ok (bs, s1) →
    (blk.2 = true → strict = true → s.active g = 0) → destCheck { r with st := s1 } puts s = .ok () →
    exec (.ldbq g d c8 hi strict abuf rm base off) s = .next (advance (counted (s.active g) false true
      (onActive g s (setFlags ev) (written { r with st := s1 } puts s))))

/-- R263: what each size of load delivers, and what each size of store takes, of little-endian bytes (R4). -/
def Clause.SizesExtend : Prop :=
  (∀ (b : Byte), ldWord .u8 [b] 0 = b.setWidth 32 ∧ ldWord .s8 [b] 0 = b.signExtend 32) ∧
  (∀ (a b : Byte), ldWord .u16 [a, b] 0 = (b ++ a).setWidth 32 ∧ ldWord .s16 [a, b] 0 = (b ++ a).signExtend 32) ∧
  (∀ a b c d : Byte, ldWord .b32 [a, b, c, d] 0 = d ++ c ++ b ++ a) ∧
  (∀ (r : Rd) (l : Fin 32), stData .b8 r l = [((r[0])[l]).extractLsb' 0 8] ∧
    stData .b16 r l = [((r[0])[l]).extractLsb' 0 8, ((r[0])[l]).extractLsb' 8 8] ∧
    leNat (stData .b32 r l) = ((r[0])[l]).toNat ∧ leNat (stData .b64 r l) = ((r[1])[l] ++ (r[0])[l]).toNat ∧
    leNat (stData .b128 r l) = ((r[3])[l] ++ (r[2])[l] ++ (r[1])[l] ++ (r[0])[l]).toNat) ∧
  (∀ sz bs i, (sz = .b64 ∧ i < 2 ∨ sz = .b128 ∧ i < 4) → ldWord sz bs i = ldWord .b32 ((bs.drop (4 * i)).take 4) 0) ∧
  ∀ (r : Rd) (off : BitVec 20) (l : Fin 32),
    gAddr r off l = ((r[1])[l] ++ (r[0])[l]) + off.signExtend 64 ∧
    bAddr r off l = ((r[0])[l] + off.signExtend 32).setWidth 64

/-- R266, R267: a plain load of one lane takes its bytes from memory when the core holds no copy of the line and no output
that is not yet performed; a word that a store of the core's own covers, from that store. -/
def Clause.LoadReadsLatestWrite : Prop :=
  (∀ s va n g s1, globalCheck s .read true true [⟨1, va, n⟩] = .ok ([g], s1) → g.req.n = n →
    quarantined s s.curCore g.pa = false → g.leaf.cache ≠ 0 →
    pendingOf s s.curCore = [] → (s.core s.curCore).body.nt = [] →
    raceOf s1 ⟨s.who, s.instant, false, none⟩ g none true = none →
    ∃ t, loadGlobal s none true [⟨1, va, n⟩] = .ok ([s.mem.readN g.pa n], t)) ∧
  ∀ s core blk warp o p bs a, pendingOf s core = [o] → o.kind = .store p (at_ a bs) → (s.core core).body.nt = [] →
    bs.length = 4 → viewWord s core blk warp a = wordAt bs 0

/-- What a load delivers. -/
def Obligations.LoadedValues : Prop := Clause.SizesExtend ∧ Clause.LoadReadsLatestWrite


/-- R264, R268, R271: where some request of a memory instruction has an address that is no multiple of its size, the instruction
faults as misaligned in exactly the lanes of those requests, at the address of the first of them in lane order, and nothing else
happens: no translation, no bound, no access. This is so of LD, LDS, LDC, LDB, ST, STNT, STB, RED, ATOM, ATOMC and BATOM (LDBQ
has no alignment). -/
def Obligations.MisalignedFaults : Prop :=
  (∀ i s r (x : Access) m q0, accessOf s r i = some x → MemReady x.g x.ops x.qs x.pre s r → x.free r.st →
    (∀ k : Fin 32, m.getLsbD k.val = true ↔ ∃ q ∈ x.reqs, q.lanes.getLsbD k.val = true ∧ q.va.toNat % q.n ≠ 0) →
    (x.reqs.find? fun q => q.va.toNat % q.n != 0) = some q0 →
    exec i s = .next (raiseTrap { s.trapReq 0x0A m with va := q0.va, write := x.write } s)) ∧
  ∀ (i : Instr) s r, (match i with
      | .ld .. | .lds .. | .ldc .. | .ldb .. | .st .. | .stnt .. | .stb .. | .red .. | .atom .. | .atomc .. | .batom .. => true
      | _ => false) = (accessOf s r i).isSome

/-- R273, R271, R274, R280, R269: a store whose operands are ready and whose access has no fault leaves its bytes with the
core and is counted, with the release that it makes when it completes, if an earlier operation holds that back (R265); `RED`
likewise performs its operations or leaves them with the core. -/
def Obligations.StoresComplete : Prop :=
  (∀ g a sz rel base off s r s1,
    MemReady g [a.op, base] [{ op := base, n := 2 }, { op := a.op, hold := a.hold, n := stRegs sz }] [] s r →
    storeGlobal r.st rel (laneReqs (s.active g) (stBytes sz) (gAddr (r.at 0) off))
      ((lanesOf (s.active g)).map fun l => stData sz (r.at 1) l) = .ok s1 →
    exec (.st g a sz rel base off) s = .next (advance (countedRel (s.active g) (rel.any fun x => decide (3 ≤ scopeNo x))
      (laterRel s rel) (written { r with st := s1 } [] s)))) ∧
  (∀ g a sz base off s r gs s1,
    let items := (gs.zip ((lanesOf (s.active g)).map fun l => stData sz (r.at 1) l)).map fun p =>
      (⟨s.cur.blk, s.cur.warp, p.1.pa, p.1.req.va, at_ p.1.pa p.2, s.instant⟩ : NtItem)
    MemReady g [a.op, base] [{ op := base, n := 2 }, { op := a.op, hold := a.hold, n := stRegs sz }] [] s r →
    globalCheck r.st .write false true (laneReqs (s.active g) (stBytes sz) (gAddr (r.at 0) off)) = .ok (gs, s1) →
    exec (.stnt g a sz base off) s = .next (advance (counted (s.active g) false false
      (written { r with st := wrote (s1.updBody s.curCore fun k => { k with nt := k.nt ++ items }) } [] s)))) ∧
  (∀ g s, Issuable g false s → Counts g s → (s.active g ≠ 0 → drainCheck anyPa (s.active g) s = .ok ()) →
    exec (.drainnt g) s = .next (advance (onActive g s
      (fun t => counted (s.active g) false false (drainOf t s.cur.blk s.cur.warp)) s))) ∧
  (∀ g a sz buf base off s r s1,
    MemReady g [a.op, base.op] [srcI base, { op := a.op, hold := a.hold, n := stRegs sz }] [] s r →
    storeBuf r.st (buf == .cbuf) (laneReqs (s.active g) (stBytes sz) (bAddr (r.at 0) off))
      ((lanesOf (s.active g)).map fun l => stData sz (r.at 1) l) = .ok s1 →
    exec (.stb g a sz buf base off) s =
      .next (advance (counted (s.active g) false false (written { r with st := s1 } [] s)))) ∧
  ∀ g a op sc rel base off s r s1,
    MemReady g [a.op, base] [{ op := base, n := 2 }, redSrc a op] [] s r →
    redGlobal s r.st (s.active g) op sc rel (laneReqs (s.active g) 4 (gAddr16 (r.at 0) off)) (fun l => (r.w 1)[l]) =
      .ok s1 →
    exec (.red g a op sc rel base off) s = .next (advance (counted (s.active g) false false
      (written { r with st := s1 } [] s)))

/-- R267, R464: a plain store of a launch with lagering on puts one item into the core's lager buffer: the bytes at the
translated addresses, in ascending lane order, so that the highest lane's remain. Not a byte of memory changes until the
store is performed. -/
def Obligations.StoreWaitsInLagerBuffer : Prop :=
  ∀ s rs data t gs s1, storeGlobal s none rs data = .ok t → globalCheck s .write false true rs = .ok (gs, s1) → rs ≠ [] →
    s.curLaunch.lagers = true →
    (∀ a, t.mem.read a = s.mem.read a) ∧
      ∃ o, (t.core s.curCore).lager = (s1.core s.curCore).lager ++ [o] ∧ o.t = s.instant ∧ o.blk = s.cur.blk ∧
        o.warp = s.cur.warp ∧
        ∃ p, o.kind = .store p ((gs.zip data).flatMap fun x => x.2.zipIdx.map fun b => (x.1.pa + b.2, b.1))

/-- The frame of the global memory instructions LD, LDC, ST and STNT: no byte of memory changes at issue, nor any other
warp or block, nor a register but the destination of a load and the names read. The stored bytes are those of
StoreWaitsInLagerBuffer, and change memory when StorePerformedAtHome says so. -/
def Clause.MemoryInstructionFrame : Prop :=
  (∀ g d sz acq base off s r bs s1 b w sp, (Instr.ld g d sz acq base off).wf = true → s.Issues b w sp →
    MemReady g [d.op, base] [{ op := base, n := 2 }] (ldPuts d sz (s.active g) fun _ => []) s r →
    loadGlobal r.st acq true (laneReqs (s.active g) (ldBytes sz) (gAddr (r.at 0) off)) = .ok (bs, s1) →
    ∃ t, exec (.ld g d sz acq base off) s = .next t ∧ MemFrame s t ∧ t.inflight = s.inflight ∧
      (∀ c, (t.core c).lager = (s.core c).lager) ∧ t.curWarp.reg.s = w.reg.s ∧ t.curWarp.reg.nstat = w.reg.nstat ∧
      ∀ n, n ∉ r.names → (∀ q ∈ ldPuts d sz (s.active g) (fun _ => []), ∀ x ∈ q.names w, x.1 ≠ n) →
        AMap.get? t.curWarp.reg.v n = AMap.get? w.reg.v n) ∧
  (∀ g d sz base off s r b w sp, (Instr.ldc g d sz base off).wf = true → s.Issues b w sp →
    let addr (l : Fin 32) : Nat := (bAddr (r.at 0) off l).toNat
    let puts := ldPuts d sz (s.active g) fun l => s.curLaunch.bank.readN (addr l) (ldBytes sz)
    MemReady g [d.op, base.op] [srcI base] (ldPuts d sz (s.active g) fun _ => []) s r →
    (∀ l : Fin 32, (s.active g).getLsbD l.val = true → addr l % ldBytes sz = 0 ∧ addr l + ldBytes sz ≤ 65536) →
    destCheck r puts s = .ok () →
    ∃ t, exec (.ldc g d sz base off) s = .next t ∧ MemFrame s t ∧ t.lines = s.lines ∧ t.inflight = s.inflight ∧
      (∀ c, (t.core c).lager = (s.core c).lager) ∧ t.curWarp.reg.nstat = w.reg.nstat ∧
      (∀ n : Fin 64, (∀ q ∈ puts, q.op ≠ .s n) → t.curWarp.reg.s[n] = w.reg.s[n]) ∧
      ∀ n, n ∉ r.names → (∀ q ∈ puts, ∀ x ∈ q.names w, x.1 ≠ n) →
        AMap.get? t.curWarp.reg.v n = AMap.get? w.reg.v n) ∧
  (∀ g a sz rel base off s r s1 b w sp, (Instr.st g a sz rel base off).wf = true → s.Issues b w sp →
    MemReady g [a.op, base] [{ op := base, n := 2 }, { op := a.op, hold := a.hold, n := stRegs sz }] [] s r →
    storeGlobal r.st rel (laneReqs (s.active g) (stBytes sz) (gAddr (r.at 0) off))
      ((lanesOf (s.active g)).map fun l => stData sz (r.at 1) l) = .ok s1 →
    ∃ t, exec (.st g a sz rel base off) s = .next t ∧ MemFrame s t ∧ t.lines = s.lines ∧
      t.curWarp.reg.s = w.reg.s ∧ t.curWarp.reg.nstat = w.reg.nstat ∧
      ∀ n, n ∉ r.names → AMap.get? t.curWarp.reg.v n = AMap.get? w.reg.v n) ∧
  ∀ g a sz base off s r gs s1 b w sp, (Instr.stnt g a sz base off).wf = true → s.Issues b w sp →
    MemReady g [a.op, base] [{ op := base, n := 2 }, { op := a.op, hold := a.hold, n := stRegs sz }] [] s r →
    globalCheck r.st .write false true (laneReqs (s.active g) (stBytes sz) (gAddr (r.at 0) off)) = .ok (gs, s1) →
    ∃ t, exec (.stnt g a sz base off) s = .next t ∧ MemFrame s t ∧ t.lines = s.lines ∧ t.inflight = s.inflight ∧
      t.curWarp.reg.s = w.reg.s ∧ t.curWarp.reg.nstat = w.reg.nstat ∧
      ∀ n, n ∉ r.names → AMap.get? t.curWarp.reg.v n = AMap.get? w.reg.v n

/-- R271, R233, R267: STB changes no byte of any buffer but those its active lanes' addresses name, and no byte of memory. -/
def Clause.BufferStoreFrame : Prop :=
  ∀ g a sz buf base off s r s1 b w sp, (Instr.stb g a sz buf base off).wf = true → s.Issues b w sp →
    MemReady g [a.op, base.op] [srcI base, { op := a.op, hold := a.hold, n := stRegs sz }] [] s r →
    storeBuf r.st (buf == .cbuf) (laneReqs (s.active g) (stBytes sz) (bAddr (r.at 0) off))
      ((lanesOf (s.active g)).map fun l => stData sz (r.at 1) l) = .ok s1 →
    ∃ t, exec (.stb g a sz buf base off) s = .next t ∧ (∀ x, t.mem.read x = s.mem.read x) ∧
      (∀ u c x, (∀ l : Fin 32, (s.active g).getLsbD l.val = true → ∀ o,
          bufTarget s s.cur.blk (buf == .cbuf) (bAddr (r.at 0) off l).toNat (stBytes sz) = .ok (u, o) →
          c = (buf == .cbuf) → ¬ (o ≤ x ∧ x < o + stBytes sz)) →
        ((t.block u).buf c).data.read x = ((s.block u).buf c).data.read x) ∧
      t.curWarp.reg.s = w.reg.s ∧ t.curWarp.reg.p = w.reg.p ∧ t.curWarp.reg.nstat = w.reg.nstat ∧
      t.curWarp.lane = w.lane ∧ t.launches = s.launches ∧ t.contexts = s.contexts

/-- What the memory instructions leave alone. -/
def Obligations.MemoryFrames : Prop := Clause.MemoryInstructionFrame ∧ Clause.BufferStoreFrame


/-! ### Atomics (R275 to R282) -/

/-- R275, R281: the new value of a word. -/
def Clause.AtomicNewValues : Prop :=
  ∀ old x cmp : Word,
    (atomStep (some .add) old cmp x).1 = BitVec.ofNat 32 (old.toNat + x.toNat) ∧
    (atomStep (some .fadd) old cmp x) = rounded32 .rn (FVal.add .rn (f32.val old.toNat) (f32.val x.toNat)) ∧
    (atomStep (some .smin) old cmp x).1 = lesser false old x ∧ (atomStep (some .umin) old cmp x).1 = lesser true old x ∧
    (atomStep (some .smax) old cmp x).1 = greater false old x ∧ (atomStep (some .umax) old cmp x).1 = greater true old x ∧
    (atomStep (some .and) old cmp x).1 = old &&& x ∧ (atomStep (some .or) old cmp x).1 = old ||| x ∧
    (atomStep (some .xor) old cmp x).1 = old ^^^ x ∧ (atomStep (some .exch) old cmp x).1 = x ∧
    (atomStep (some .inc) old cmp x).1 = (if x.toNat ≤ old.toNat then 0 else BitVec.ofNat 32 (old.toNat + 1)) ∧
    (atomStep none old cmp x).1 = (if old = cmp then x else old)

/-- R277: the lanes of an atomic that name one word run one at a time in ascending order: each lane's old value is the
value before its own operation, and the word ends at the value after the last. -/
def Clause.AtomicLanesInOrder : Prop :=
  ∀ (op : Option AtomOp) (start : Nat → Word) (a : Nat) (xs : List (Fin 32 × Word × Word)),
    let run := atomFold op start (xs.map fun x => (x.1, a, x.2.1, x.2.2))
    let after (n : Nat) : Word := (xs.take n).foldl (fun w x => (atomStep op w x.2.1 x.2.2).1) (start a)
    run.1 = xs.zipIdx.map (fun x => (x.1.1, after x.2)) ∧
      (xs ≠ [] → AMap.get? run.2.1 a = some (after xs.length))

/-- What an atomic operation does to a word. -/
def Obligations.AtomicSemantics : Prop := Clause.AtomicNewValues ∧ Clause.AtomicLanesInOrder


/-- R280, R281, R282, R269: ATOM, ATOMC and BATOM whose operands are ready and whose access has no fault and no wait perform
it, write the old values and are counted. -/
def Clause.AtomicsComplete : Prop :=
  (∀ g d hold op sc od base off s r t, checkIssue g [d.op, base] false s = .ok () → Counts g s →
    readAll g [{ op := base, n := 2 }, { op := d.op, hold := hold }] s = .ok r →
    atomGlobal s r (s.active g) d (some op) sc od (gAddr16 (r.at 0) off) (fun _ => 0) (fun l => (r.w 1)[l]) = .ok t →
    exec (.atom g d hold op sc od base off) s = .next (advance t)) ∧
  (∀ g d a cmp x sc od s r t, checkIssue g [d.op, a.op, cmp.op, x.op] false s = .ok () → Counts g s →
    readAll g [{ op := a.op, n := 2 }, srcI cmp, srcI x] s = .ok r →
    atomGlobal s r (s.active g) d none sc od (gAddr16 (r.at 0) 0) (fun l => (r.w 1)[l]) (fun l => (r.w 2)[l]) = .ok t →
    exec (.atomc g d a cmp x sc od .global) s = .next (advance t)) ∧
  (∀ g d a cmp x sc od sp s r t, sp ≠ .global → checkIssue g [d.op, a.op, cmp.op, x.op] false s = .ok () → Counts g s →
    readAll g [srcI a, srcI cmp, srcI x] s = .ok r →
    atomBuffer s r (s.active g) d (sp == .cbuf) none sc od (bAddr16 (r.at 0) 0) (fun l => (r.w 1)[l])
      (fun l => (r.w 2)[l]) = .ok t →
    exec (.atomc g d a cmp x sc od sp) s = .next (advance t)) ∧
  ∀ g d hold op sc od buf base off s r t, checkIssue g [d.op, base.op] false s = .ok () → Counts g s →
    readAll g [srcI base, { op := d.op, hold := hold }] s = .ok r →
    atomBuffer s r (s.active g) d (buf == .cbuf) (some op) sc od (bAddr16 (r.at 0) off) (fun _ => 0)
      (fun l => (r.w 1)[l]) = .ok t →
    exec (.batom g d hold op sc od buf base off) s = .next (advance t)

/-- R278, R280: ATOM by one active lane at `.wrp` or `.blk` on device memory returns the word as the core sees it and sends
the new one out as a store; at wider scope it changes the word of memory at once, and beside it only what R256 to R258 keep of
its sector, where no launch keeps snapshots, and with lagering on quarantines its line. A `RED` with no release that meets no
race changes memory in the same way: that a `RED` is at its home at once, whatever its core still has to send out, is the model's
choice (log 138). -/
def Clause.AtomicPerformed : Prop :=
  (∀ s m op sc addr x g s1 l t, s.mem.wf → lowest m = some l → m = one_ l →
    globalCheck s .write true true (laneReqs m 4 addr) = .ok ([g], s1) → g.req = ⟨one_ l, addr l, 4⟩ →
    (tierOf s g.pa).any (fun t => t.1 == 2) = false → raceOf s ⟨s.who, s.instant, true, some sc⟩ g none true = none →
    redGlobal s s m op sc false (laneReqs m 4 addr) x = .ok t →
    (scopeNo sc < 3 → t.mem = s.mem) ∧
    (3 ≤ scopeNo sc → (∀ p ∈ s1.launches, p.2.armed = []) → (∀ a, g.pa ≤ a → a < g.pa + 4 → ¬ Bookkept s g.pa a) →
      (∀ a, ¬ (g.pa ≤ a ∧ a < g.pa + 4) → ¬ Bookkept s g.pa a → t.mem.read a = s.mem.read a) ∧
      w32 (leNat (t.mem.readN g.pa 4)) = (atomNew op (w32 (leNat (s.mem.readN g.pa 4))) (x l)).1 ∧
      (s.curLaunch.lagers = true → ∃ q ∈ t.quar, q.line = g.pa / 64 ∧ q.core = s1.curCore))) ∧
  ∀ s r m d op sc od addr cmp x g s1 l t, s.mem.wf → lowest m = some l → m = one_ l →
    globalCheck r.st .write true true (laneReqs m 4 addr) = .ok ([g], s1) → g.req = ⟨one_ l, addr l, 4⟩ →
    (tierOf s g.pa).any (fun t => t.1 == 2) = false →
    atomGlobal s r m d (some op) sc od addr cmp x = .ok t → r.st = s →
    (scopeNo sc < 3 → t.mem = s.mem ∧ (s.curLaunch.lagers = true →
      ∃ o, (t.core s.curCore).lager = (s1.core s.curCore).lager ++ [o] ∧
        o.kind = .store g.pa (at_ g.pa (toLe 4
          (atomStep (some op) (viewWord s1 s1.curCore s1.cur.blk s1.cur.warp g.pa) (cmp l) (x l)).1.toNat)))) ∧
    (3 ≤ scopeNo sc → (∀ p ∈ s1.launches, p.2.armed = []) → (∀ a, g.pa ≤ a → a < g.pa + 4 → ¬ Bookkept s g.pa a) →
      (∀ a, ¬ (g.pa ≤ a ∧ a < g.pa + 4) → ¬ Bookkept s g.pa a → t.mem.read a = s.mem.read a) ∧
      w32 (leNat (t.mem.readN g.pa 4)) = (atomStep (some op) (w32 (leNat (s.mem.readN g.pa 4))) (cmp l) (x l)).1 ∧
      (s.curLaunch.lagers = true → ∃ q ∈ t.quar, q.line = g.pa / 64 ∧ q.core = s1.curCore))

/-- Where and when an atomic is performed. -/
def Obligations.AtomicsPerformed : Prop := Clause.AtomicsComplete ∧ Clause.AtomicPerformed


/-! ### Prefetch, cache control and streams (R283 to R289) -/

/-- R283, R284, R288, R289: PREF, CCTL, STREAM, STRMQ and STRMEND complete: PREF and CCTL change no value that a program
reads, STREAM binds the descriptor it read, STRMQ reads the binding and STRMEND ends it. -/
def Clause.CacheAndStreamsComplete : Prop :=
  (∀ g lv base off s r, MemReady g [base] [{ op := base, n := 2 }] [] s r →
    ∃ t, exec (.pref g lv base off) s = .next (advance t) ∧ t.mem = (written r [] s).mem ∧
      t.blocks = (written r [] s).blocks ∧ (lv ≠ .l1 → t = written r [] s)) ∧
  (∀ g op base off s r gs s1, MemReady g [base] [{ op := base, n := 2 }] [] s r →
    xlateAll r.st (.core s.curCore) s.curLaunch.desc.asid s.curLaunch.desc.world .read
      (laneReqs (s.active g) 1 (gAddr (r.at 0) off)) = (gs, [], s1) →
    (op ≠ .il1 → ∀ x ∈ gs, lagersLine s (x.pa / 64) = false) →
    ∃ s2, s2.mem = s1.mem ∧ s2.blocks = s1.blocks ∧
      (∀ c x, x ∈ (s2.core c).l1 → x ∈ (s1.core c).l1) ∧
      (op ≠ .wb → ∀ x ∈ (s2.core s.curCore).l1, ∀ y ∈ gs, y.pa / 64 ≠ x.line) ∧
      exec (.cctl g op base off) s =
        .next (advance (counted (s.active g) false false (written { r with st := s2 } [] s)))) ∧
  (∀ g s, Issuable g false s → Counts g s →
    exec (.cctlIl1all g) s = .next (advance (counted (s.active g) false false
      (onActive g s (fun t => t.updCore s.curCore fun k => { k with l1 := [] }) s)))) ∧
  (∀ g z desc pd s r bs s1 d,
    let a : DWord := (uval (s.active g) (r.w 0)).setWidth 64
    MemReady g [desc] [{ op := desc, uni := true }] [] s r → s.active g ≠ 0 → a.toNat % 64 = 0 → a.toNat < 2 ^ 20 →
    loadBuf r.st false true (uniReq (s.active g) 64 a) = .ok (bs, s1) → parseStream (bs.head?.getD []) = some d →
    exec (.stream g z desc pd) s = .next (advance (counted (s.active g) false true
      ((written { r with st := s1 } [] s).updReg fun x => { x with z := x.z.set z (some
        { desc := d, idx := #v[0, 0, 0, 0], sel := pd, exhausted := false, delivered := 0, ahead := [] }) })))) ∧
  (∀ g z desc pd s r s1, MemReady g [desc] [{ op := desc, uni := true }] [] s r → s.active g = 0 →
    loadBuf r.st false true [] = .ok ([], s1) →
    exec (.stream g z desc pd) s = .next (advance (written { r with st := s1 } [] s))) ∧
  (∀ g d z s r,
    let w : Word := match s.curWarp.reg.z[z] with
      | none => 0
      | some x => BitVec.ofNat 32 (2 ^ 31 + (if x.exhausted then 2 ^ 30 else 0) + min x.delivered (2 ^ 30 - 1))
    MemReady g [d] [] [⟨d, 0, s.active g, splat w⟩] s r →
    exec (.strmq g d z) s =
      .next (advance (counted (s.active g) false false (written r [⟨d, 0, s.active g, splat w⟩] s)))) ∧
  ∀ g z s, Issuable g false s → Counts g s →
    exec (.strmend g z) s = .next (advance (counted (s.active g) false false
      (onActive g s (fun t => t.updReg fun x => { x with z := x.z.set z none }) s)))

/-- R286: the walk of a stream delivers one more element and moves the indices on with carry, and past the last element it is
exhausted. R287: an element that was not fetched ahead is what a plain load of it gives now, extended by its size. -/
def Clause.StreamWalk : Prop :=
  (∀ z : Stream,
    (z.next).delivered = z.delivered + 1 ∧
    ((z.next).exhausted = true ↔ ∀ j : Fin 4, ¬ z.idx[j] + 1 < z.desc.counts[j]) ∧
    (∀ j : Fin 4, (z.next).idx[j] =
      if (∀ k : Fin 4, k < j → ¬ z.idx[k] + 1 < z.desc.counts[k]) then
        (if z.idx[j] + 1 < z.desc.counts[j] then z.idx[j] + 1 else 0)
      else z.idx[j])) ∧
  ∀ s m (z : Stream) now s1, z.ahead = [] → streamBytes s m z = .ok (now, s1) →
    ∃ v t, streamLoad s m z = .ok (v, t) ∧ t.mem = s1.mem ∧
      ∀ l p, (now.find? fun p => p.1 == l) = some p → v[l] = elemExtend z.desc.esize (leNat p.2)

/-- Cache control and streams. -/
def Obligations.CachesAndStreams : Prop := Clause.CacheAndStreamsComplete ∧ Clause.StreamWalk

/-! ### Family 101 -/

/-- An instruction of an engine, a winner list, the KV cache, a message or a post does nothing but read its sources when no
lane is active (R293, R322, R323, R348, R378, R380 to R383, R445 to R449). -/
def Obligations.IdleEngineInstructions : Prop :=
  ∀ i g ops qs s r, idleForm i = some (g, ops, qs) → Ready g ops qs [] s r → s.active g = 0 →
    exec i s = .next (advance (written r [] s))

/-- R318 to R321, R298 to R301: CEKICK numbers its requests and queues them; ARRSET sets a counter or adds to it with
saturation; ARRWAIT and TLWAIT leave their split waiting; ARRTEST and TLRD deliver what they test and read. R300: an enqueue gives
its operations the next numbers of its context, and changes no other timeline and no counter. -/
def Obligations.CountersComplete : Prop :=
  (∀ (s : State) (x : Fin 5) n b, AMap.get? s.blocks s.cur.blk = some b →
    let e := (enqueue x n s).curBlock.eng
    (∀ y : Fin 5, e.tl[y] = if y = x then { b.eng.tl[x] with enq := b.eng.tl[x].enq + BitVec.ofNat 64 n } else b.eng.tl[y]) ∧
      e.c = b.eng.c ∧ (enqueue x n s).mem = s.mem) ∧
  (∀ g d off count s r,
    let o := (uval (s.active g) (r.w 0)).toNat
    let n := match count with
      | .reg _ => (uval (s.active g) (r.w 1)).toNat
      | .imm i => i.toNat
    let num := s.curBlock.eng.tl[0].enq + BitVec.ofNat 64 n
    let puts := if d = .zero then [] else [⟨d, 0, s.active g, splat (num.setWidth 32)⟩]
    let qs := opU off :: (match count with | .reg c => [opU c] | .imm _ => [])
    Ready g (d :: qs.map SrcSpec.op) qs puts s r → s.active g ≠ 0 →
    o < 2 ^ 20 → o + 32 * n ≤ s.curBlock.abuf.size → o % 32 = 0 → s.curWarp.acquiring s.cur.split = false →
    (s.core s.curCore).body.kicks.length < 32 →
    exec (.cekick g d off count) s = .next (advance (if n = 0 then written r puts s else
      (enqueue 0 n (written r puts s)).updBody s.curCore fun k => { k with kicks := k.kicks ++
          [{ owner := .blk s.cur.blk, off := o, num := s.curBlock.eng.tl[0].enq + 1, n := n, grow := none }] }))) ∧
  (∀ g (c : Fin 16) a add s r, Ready g [a] [opU a] [] s r →
    exec (.arrset g c a add) s = .next (advance (onActive g s (fun t => t.updEng s.cur.blk fun e =>
      { e with sets := e.sets.set c (e.sets[c] + 1), c := e.c.set c (if add then
          BitVec.ofInt 32 (max (-(2 ^ 31)) (min (2 ^ 31 - 1) ((e.c[c]).toInt + (uval (s.active g) (r.w 0)).toInt)))
        else uval (s.active g) (r.w 0)) }) (written r [] s)))) ∧
  (∀ g mask s, Issuable g true s →
    exec (.arrwait g mask) s =
      .next (advance (onActive g s (fun t => t.updSplit fun sp => { sp with wait := .arr mask }) s))) ∧
  (∀ g d mask s r,
    let yes := (List.finRange 16).all fun i => !mask.getLsbD i.val || decide ((s.curBlock.eng.c[i]).toInt ≤ 0)
    let puts := [(⟨d, 0, s.active g, splat (if yes then 1 else 0)⟩ : Put)]
    Ready g [d] [] puts s r →
    exec (.arrtest g d mask) s = .next (advance (if yes then
      onActive g s (acquireCtrs mask.toNat s.cur.blk s.cur.warp) (written r puts s) else written r puts s))) ∧
  (∀ g d (tl : Fin 5) enq s r,
    let v := if enq then (s.curBlock.eng.tl[tl]).enq else (s.curBlock.eng.tl[tl]).done
    let puts := [(⟨d, 0, s.active g, splat (v.setWidth 32)⟩ : Put), ⟨nextReg d 1, 0, s.active g, splat (v.extractLsb' 32 32)⟩]
    Ready g [d] [] puts s r →
    exec (.tlrd g d tl enq) s = .next (advance (written r puts s))) ∧
  ∀ g tl val s r,
    let qs : List SrcSpec := match val with
      | .reg a => [{ op := a, n := 2, uni := true }]
      | .imm _ => []
    let v : DWord := match val with
      | .reg _ => Rd.pair (r.at 0) ((lowest (s.active g)).getD 0)
      | .imm n => n.setWidth 64
    checkIssue g (opsOf .zero qs) true s = .ok () → readAll g qs s = .ok r → destCheck r [] s = .ok () →
    exec (.tlwait g tl val) s =
      .next (advance (onActive g s (fun t => t.updSplit fun sp => { sp with wait := .tl tl v }) (written r [] s)))

/-- R316, R322, R313, R315: LSTAT waits at its first issue, for a load starts in step 3 of a cycle; LSTAT whose format, range and waits allow it starts the load of the shadow plane, tagged with the
launch and the generation; a strict one waits at issue and, once its load has ended, is complete or takes a block-format
fault. SWAP marks a swap pending when
the shadow is valid or loading. R324: TQRD delivers its word. -/
def Obligations.PlanesComplete : Prop :=
  (∀ g woff gen fmt s r,
    let o := (uval (s.active g) (r.w 0)).toNat
    let fw := uval (s.active g) (r.w 2)
    let n := (PlaneFmt.of fw).bytes
    let a := (s.core s.curCore).body.array
    let go := startLoad s.cur.blk s.curBlock.launch (s.cur.blk, s.cur.warp, s.cur.split) o
      (BitVec.ofNat 16 (uval (s.active g) (r.w 1)).toNat) fw (s.curBlock.wbuf.data.readN o n)
    let start (t : State) : State := t.updBody s.curCore fun k => { k with array := go k.array }
    Ready g [woff, gen, fmt] [opU woff, opU gen, opU fmt] [] s r → s.active g ≠ 0 →
    s.curSplit.plane = none → planeOk fw = true → o % 64 = 0 →
    o + n ≤ s.curBlock.wbuf.size → s.curSplit.stalled = true → a.lstatWaits = false → wbufBusy s s.curCore s.cur.blk o n = false →
    exec (.lstat g woff gen fmt) s = .next (if (PlaneFmt.of fw).strict
      then (start s).updSplit fun sp => { sp with wait := .planeLoad, stalled := false }
      else advance (start (written r [] s)))) ∧
  (∀ g woff gen fmt s r,
    let o := (uval (s.active g) (r.w 0)).toNat
    let fw := uval (s.active g) (r.w 2)
    Ready g [woff, gen, fmt] [opU woff, opU gen, opU fmt] [] s r → s.active g ≠ 0 →
    s.curSplit.plane = none → planeOk fw = true → o % 64 = 0 →
    o + (PlaneFmt.of fw).bytes ≤ s.curBlock.wbuf.size → s.curSplit.stalled = false →
    exec (.lstat g woff gen fmt) s = .next s.waits) ∧
  (∀ g woff gen fmt s r, Ready g [woff, gen, fmt] [opU woff, opU gen, opU fmt] [] s r → s.active g ≠ 0 →
    s.curSplit.plane = some false → exec (.lstat g woff gen fmt) s = .next (advance (written r [] s))) ∧
  (∀ g woff gen fmt s r, Ready g [woff, gen, fmt] [opU woff, opU gen, opU fmt] [] s r → s.active g ≠ 0 →
    s.curSplit.plane = some true →
    exec (.lstat g woff gen fmt) s = .next (raiseTrap (s.trapReq 0x12 (s.active g)) s)) ∧
  (∀ g s, Issuable g false s →
    exec (.swap g) s = .next (advance (onActive g s (fun t => t.updBody s.curCore fun k =>
      { k with array := { k.array with
        swapPending := k.array.swapPending || (k.array.shadow.tag.isSome || k.array.loading.isSome) } }) s))) ∧
  ∀ g d sel clr s r,
    let puts := [(⟨d, 0, s.active g, splat (tqrdWord s sel)⟩ : Put)]
    Ready g [d] [] puts s r →
    exec (.tqrd g d sel clr) s = .next (advance (if clr then onActive g s
      (fun t => t.updEng s.cur.blk fun e => { e with tileFault := false, copyFault := false }) (written r puts s)
      else written r puts s))

/-- R323, R302, R305, R311: TENQ whose record is in order numbers it, and appends it to its queue, or adds it to its open
group; the destination takes the number. -/
def Clause.TaskEnqueueCompletes : Prop :=
  ∀ g d off high s r o,
    let b := s.curBlock
    let num := b.eng.tl[1].enq + 1
    let puts := if d = .zero then [] else [(⟨d, 0, s.active g, splat (num.setWidth 32)⟩ : Put)]
    let bs := b.abuf.data.readN o 64
    let t := TileF.of bs
    let h := s.curWarp.reg.k[t.whandle]?.getD 0
    let q := if high then (s.core s.curCore).body.high else (s.core s.curCore).body.normal
    let t1 := engReadBuf s.cur.blk false (engAgent b 1 num) o 64 (enqueue 1 1 (written r puts s))
    Ready g [d, off] [opU off] puts s r → s.active g ≠ 0 →
    recordAt64 s (s.active g) (uval (s.active g) (r.w 0)).toNat = .ok o →
    (t.type = 2 → groupFind s s.curCore s.cur.blk t.rgroup = none) →
      tileOk b h false t = true → q.length < 64 →
      exec (.tenq g d off high) s = .next (advance (t1.updBody s.curCore fun k =>
        let x : TileRec :=
          { blk := s.cur.blk, off := o, num, bytes := bs, handle := if t.type = 1 then h else 0, high, members := [] }
        if high then { k with high := k.high ++ [x] } else { k with normal := k.normal ++ [x] }))

/-- R311: a ragged record whose group is open joins it when its fields match, and retires with
GROUP_MISMATCH when they do not (R309). -/
def Clause.RaggedJoinCompletes : Prop :=
  ∀ g d off high s r o x,
    let b := s.curBlock
    let num := b.eng.tl[1].enq + 1
    let puts := if d = .zero then [] else [(⟨d, 0, s.active g, splat (num.setWidth 32)⟩ : Put)]
    let bs := b.abuf.data.readN o 64
    let t := TileF.of bs
    let t1 := engReadBuf s.cur.blk false (engAgent b 1 num) o 64 (enqueue 1 1 (written r puts s))
    Ready g [d, off] [opU off] puts s r → s.active g ≠ 0 →
    recordAt64 s (s.active g) (uval (s.active g) (r.w 0)).toNat = .ok o → t.type = 2 → groupFind s s.curCore s.cur.blk t.rgroup = some x →
    tileOk b (s.curWarp.reg.k[t.whandle]?.getD 0) true t = true →
    (groupMatch (TileF.of x.bytes) t = true → tileDst b (TileF.of x.bytes) (groupRows x + t.m) = true) →
    exec (.tenq g d off high) s = .next (advance (if groupMatch (TileF.of x.bytes) t
      then joinGroup s.curCore s.cur.blk t.rgroup (o, num, bs) t1
      else retireRecord s.cur.blk (o, num, bs) 3 0 0 0 t1))

/-- TENQ, of a task of its own or of a group. -/
def Obligations.TaskEnqueues : Prop := Clause.TaskEnqueueCompletes ∧ Clause.RaggedJoinCompletes


/-! ### Winner lists (R325 to R329, R338, R348 to R353) -/

/-- R349 to R353: the winner-list instructions complete when the handle is valid, the rows are in the list and nothing else
holds the rows' bytes (that an instruction's touched words are those of whole rows where it rewrites them is log 64, the model's
choice): WLINIT empties its rows and makes the handle; WLTHR seeds or unseeds the rows' headers; WLRD and WLRDT
deliver an entry, and a threshold with the row's state; WLMRG merges rows; WLCLR empties them. -/
def Obligations.WinnerListsComplete : Prop :=
  (∀ g k off (kw : BitVec 6) f32 (rowsM1 : BitVec 13) s r,
    let o := (uval (s.active g) (r.w 0)).toNat
    let n := rowsM1.toNat + 1
    let h := mkHandle f32 kw.toNat n o
    let ts : List WTouch := [⟨s.active g, o, 8 * (hKw h + 1) * n, true⟩]
    Ready g [off] [opU off] [] s r → s.active g ≠ 0 → kw ≠ 0 → kw.toNat ≤ 32 → n ≤ 4096 → o % 8 = 0 →
    o + 8 * (kw.toNat + 1) * n ≤ s.curBlock.cbuf.size → touchCheck s ts = .ok () →
    exec (.wlinit g k off kw f32 rowsM1) s = .next (advance ((touchRecord ts ((List.range n).foldl
      (fun t i => putCbuf (rowOff h i) (rowBytesOf h 0 []) t) (written r [] s))).updReg fun x =>
        { x with k := x.k.set k h }))) ∧
  (∀ g k off (kw : BitVec 6) f32 rows s r,
    let o := (uval (s.active g) (r.w 0)).toNat
    let n := (uval (s.active g) (r.w 1)).toNat
    let h := mkHandle f32 kw.toNat n o
    let ts : List WTouch := [⟨s.active g, o, 8 * (hKw h + 1) * n, true⟩]
    Ready g [off, rows] [opU off, opU rows] [] s r → s.active g ≠ 0 → kw ≠ 0 → kw.toNat ≤ 32 → 1 ≤ n → n ≤ 4096 →
    o % 8 = 0 → o + 8 * (kw.toNat + 1) * n ≤ s.curBlock.cbuf.size → touchCheck s ts = .ok () →
    exec (.wlinitReg g k off kw f32 rows) s = .next (advance ((touchRecord ts ((List.range n).foldl
      (fun t i => putCbuf (rowOff h i) (rowBytesOf h 0 []) t) (written r [] s))).updReg fun x =>
        { x with k := x.k.set k h }))) ∧
  (∀ g (k : Fin 8) row val max s r,
    let h := s.curWarp.reg.k[k]
    let at_ (l : Fin 32) : Nat := ((r.w 0)[l]).toNat
    let ts := hdrTouches (s.active g) h at_
    Ready g [row, val] [opSrc row, opSrc val] [] s r → s.active g ≠ 0 → hValid h = true →
    (∀ l : Fin 32, (s.active g).getLsbD l.val = true → at_ l < hRows h) → touchCheck s ts = .ok () →
    exec (.wlthr g k row val max) s = .next (advance (touchRecord ts (mapHeaders (s.active g) h at_ (fun l hd =>
      withSeed hd (if max && hd.testBit 40 then higher (hFloat h) (BitVec.ofNat 32 hd) (r.w 1)[l] else (r.w 1)[l]))
      (written r [] s))))) ∧
  (∀ g (k : Fin 8) row s r,
    let h := s.curWarp.reg.k[k]
    let at_ (l : Fin 32) : Nat := ((r.w 0)[l]).toNat
    let ts := hdrTouches (s.active g) h at_
    Ready g [row] [opSrc row] [] s r → s.active g ≠ 0 → hValid h = true →
    (∀ l : Fin 32, (s.active g).getLsbD l.val = true → at_ l < hRows h) → touchCheck s ts = .ok () →
    exec (.wlthrClr g k row) s = .next (advance (touchRecord ts (mapHeaders (s.active g) h at_ (fun _ hd => noSeed hd false)
      (written r [] s))))) ∧
  (∀ g d (k : Fin 8) row (e : Fin 32) lane s r,
    let h := s.curWarp.reg.k[k]
    let at_ (l : Fin 32) : Nat := ((r.w 0)[l]).toNat
    let idx (l : Fin 32) : Nat := e.val + if lane then l.val else 0
    let ent (l : Fin 32) : WEnt :=
      ((readRow s.curBlock.cbuf.data h (at_ l)).ents[idx l]?).getD (emptyScore (hFloat h), 0xFFFFFFFF#32)
    let puts := putPair d (s.active g) (tab fun l => (ent l).1) (tab fun l => (ent l).2)
    let ts : List WTouch := (lanesOf (s.active g)).flatMap fun l =>
      ⟨one_ l, rowOff h (at_ l), 8, false⟩ ::
        (if idx l < hKw h then [⟨one_ l, rowOff h (at_ l) + 8 + 8 * idx l, 8, false⟩] else [])
    Ready g [d, row] [opSrc row] puts s r → s.active g ≠ 0 → hValid h = true →
    (∀ l : Fin 32, (s.active g).getLsbD l.val = true → at_ l < hRows h) → touchCheck s ts = .ok () →
    exec (.wlrd g d k row e lane) s = .next (advance (touchRecord ts (written r puts s)))) ∧
  (∀ g d (k : Fin 8) row seed s r,
    let h := s.curWarp.reg.k[k]
    let at_ (l : Fin 32) : Nat := ((r.w 0)[l]).toNat
    let v (l : Fin 32) := thetaWords h seed (readRow s.curBlock.cbuf.data h (at_ l))
    let puts := putPair d (s.active g) (tab fun l => (v l).1) (tab fun l => (v l).2)
    let ts : List WTouch := (lanesOf (s.active g)).flatMap fun l =>
      ⟨one_ l, rowOff h (at_ l), 8, false⟩ ::
        (if seed then [] else [⟨one_ l, rowOff h (at_ l) + 8 * (hKw h + 1) - 8, 8, false⟩])
    Ready g [d, row] [opSrc row] puts s r → s.active g ≠ 0 → hValid h = true →
    (∀ l : Fin 32, (s.active g).getLsbD l.val = true → at_ l < hRows h) → touchCheck s ts = .ok () →
    exec (.wlrdt g d k row seed) s = .next (advance (touchRecord ts (written r puts s)))) ∧
  (∀ g (kd ks : Fin 8) row (soff : BitVec 13) s r,
    let hd := s.curWarp.reg.k[kd]
    let hs := s.curWarp.reg.k[ks]
    let into (l : Fin 32) : Nat := ((r.w 0)[l]).toNat
    let ts : List WTouch := (lanesOf (s.active g)).flatMap fun l =>
      [⟨one_ l, rowOff hs (into l + soff.toNat), 8 * (hKw hs + 1), false⟩,
        ⟨one_ l, rowOff hd (into l), 8 * (hKw hd + 1), true⟩]
    Ready g [row] [opSrc row] [] s r → s.active g ≠ 0 → hValid hd = true → hValid hs = true → hFloat hd = hFloat hs →
    (∀ l : Fin 32, (s.active g).getLsbD l.val = true → into l < hRows hd ∧ into l + soff.toNat < hRows hs) →
    touchCheck s ts = .ok () →
    exec (.wlmrg g kd ks row soff) s = .next (advance (touchRecord ts ((lanesOf (s.active g)).foldl
      (fun t l => mergeRow hd (into l) hs (into l + soff.toNat) t) (written r [] s))))) ∧
  (∀ g (k : Fin 8) row seed s r,
    let h := s.curWarp.reg.k[k]
    let at_ (l : Fin 32) : Nat := ((r.w 0)[l]).toNat
    let ts : List WTouch := (lanesOf (s.active g)).map fun l => ⟨one_ l, rowOff h (at_ l), 8 * (hKw h + 1), true⟩
    Ready g [.zero, row] [opSrc row] [] s r → s.active g ≠ 0 → hValid h = true →
    (∀ l : Fin 32, (s.active g).getLsbD l.val = true → at_ l < hRows h) → touchCheck s ts = .ok () →
    exec (.wlclr g k (some row) seed) s = .next (advance (touchRecord ts ((lanesOf (s.active g)).foldl
      (fun t l => clearRow h seed (at_ l) t) (written r [] s))))) ∧
  ∀ g (k : Fin 8) seed s r,
    let h := s.curWarp.reg.k[k]
    let ts : List WTouch := [⟨s.active g, hOff h, 8 * (hKw h + 1) * hRows h, true⟩]
    Ready g [.zero] [] [] s r → s.active g ≠ 0 → hValid h = true → touchCheck s ts = .ok () →
    exec (.wlclr g k none seed) s = .next (advance (touchRecord ts ((List.range (hRows h)).foldl
      (fun t i => clearRow h seed i t) (written r [] s))))

/-- R327, R328, R329: a merged row holds at most kw entries, in order, the best of the row's and of the incoming ones that
pass the seed; R338: its threshold. -/
def Obligations.MergeKeepsBest : Prop :=
  ∀ h row inc, let f := hFloat h
    let out := mergeEnts h row inc
    out.length ≤ hKw h ∧ out.Pairwise (fun a b => entRank f a < entRank f b) ∧
    (∀ e ∈ out, e ∈ row.ents ∨ e ∈ inc ∧ (row.seeded = true → scoreKey f row.seed ≤ scoreKey f e.1)) ∧
    ∀ e, (e ∈ row.ents ∨ e ∈ inc ∧ (row.seeded = true → scoreKey f row.seed ≤ scoreKey f e.1)) → e ∉ out →
      out.length = hKw h ∧ ∀ x ∈ out, entRank f x < entRank f e

/-! ### Norms, attention and the KV cache (R354, R357 to R383) -/

/-- R354, R379: NORMB gives every active lane the norm of all active lanes' elements; ROTQ each its rotation, and faults for
a position of 2^24 or more. -/
def Clause.NormsAndRotationsComplete : Prop :=
  (∀ g d a b kd s r,
    let qs := if kd = .int then [srcI a, srcI b] else [srcF a, srcF b]
    let x := normbW kd ((lanesOf (s.active g)).flatMap fun l => [(r.w 0)[l], (r.w 1)[l]])
    let puts := [putOf d (s.active g) (splat x.1)]
    Ready g (opsOf d.op qs) qs puts s r →
    exec (.normb g d a b kd) s = .next (advance (onActive g s (setFlags x.2) (written r puts s)))) ∧
  (∀ g d a b sin s r, let qs := [srcI a, srcF b]
    let v (l : Fin 32) := rotary sin ((r.w 0)[l]).toNat (r.w 1)[l]
    let puts := [putOf d (s.active g) (tab fun l => (v l).1)]
    Ready g (opsOf d.op qs) qs puts s r →
    (∀ l : Fin 32, (s.active g).getLsbD l.val = true → ((r.w 0)[l]).toNat < 2 ^ 24) →
    exec (.rotq g d a b sin) s =
      .next (advance (setFlags (flagsOn (s.active g) fun l => (v l).2) (written r puts s)))) ∧
  ∀ g d a b sin s r m, let qs := [srcI a, srcF b]
    let puts := [putOf d (s.active g) (tab fun l => (rotary sin ((r.w 0)[l]).toNat (r.w 1)[l]).1)]
    Ready g (opsOf d.op qs) qs puts s r → m ≠ 0 →
    (∀ l : Fin 32, m.getLsbD l.val = ((s.active g).getLsbD l.val && decide (2 ^ 24 ≤ ((r.w 0)[l]).toNat))) →
    exec (.rotq g d a b sin) s = .next (raiseTrap (s.trapReq 0x13 m) s)

/-- R380, R381, R383, R357, R359: KVSLAB loads a slab register, or sets or reads its length; KVGROW writes the relocation's
request and kicks it; SPLICE sets an entry, and its other forms mend it or clear it. -/
def Obligations.SlabsComplete : Prop :=
  (∀ g (n : Fin 8) off s r bs s1 k,
    let o := (uval (s.active g) (r.w 0)).toNat
    Ready g [off] [opU off] [] s r → s.active g ≠ 0 → o % 16 = 0 → o < 2 ^ 20 →
    loadBuf r.st false true (uniReq (s.active g) 16 (BitVec.ofNat 64 o)) = .ok (bs, s1) →
    parseSlab (bs.head?.getD []) = some k → (s.curBlock.eng.kv[n]).growing = false →
    exec (.kvslab g n off) s = .next (advance ((written { r with st := s1 } [] s).updEng s.cur.blk fun e =>
      { e with kv := e.kv.set n k }))) ∧
  (∀ g (n : Fin 8) len s r,
    let x := (uval (s.active g) (r.w 0)).toNat
    let k := s.curBlock.eng.kv[n]
    Ready g [len] [opU len] [] s r → s.active g ≠ 0 → k.valid = true →
    x ≤ 2 ^ (k.lg + if k.growing then 1 else 0) →
    exec (.kvslabLen g n len) s = .next (advance ((written r [] s).updEng s.cur.blk fun e =>
      { e with kv := e.kv.set n { e.kv[n] with len := x } }))) ∧
  (∀ g d (n : Fin 8) s r,
    let k := s.curBlock.eng.kv[n]
    let puts := [(⟨d, 0, s.active g, splat (if k.valid then BitVec.ofNat 32 k.len else 0xFFFFFFFF#32)⟩ : Put)]
    Ready g [d] [] puts s r → exec (.kvslabRd g d n) s = .next (advance (written r puts s))) ∧
  (∀ g d (n : Fin 8) base off fw c s r,
    let k := s.curBlock.eng.kv[n]
    let nb := (Rd.pair (r.at 0) ((lowest (s.active g)).getD 0)).toNat
    let o := (uval (s.active g) (r.w 1)).toNat
    let num := s.curBlock.eng.tl[0].enq + 1
    let puts := if d = .zero then [] else [(⟨d, 0, s.active g, splat (num.setWidth 32)⟩ : Put)]
    Ready g [d, base, off] [{ op := base, n := 2, uni := true }, opU off] puts s r → s.active g ≠ 0 →
    k.valid = true → k.lg ≤ 22 → 2 ^ k.lg * k.eb ≤ 2 ^ 30 → nb % 65536 = 0 → o % 32 = 0 → o < 2 ^ 20 →
    o + 32 ≤ s.curBlock.abuf.size → s.curWarp.acquiring s.cur.split = false → k.growing = false → (s.core s.curCore).body.kicks.length < 32 →
    exec (.kvgrow g d n base off fw c) s = .next (advance
      ((setSlab s.cur.blk n (fun k => { k with link := some fw, growing := true })
        (enqueue 0 1 (engWriteBuf s.cur.blk false (engAgent s.curBlock 0 num) o
          (growRequest k.base nb (2 ^ k.lg * k.eb) fw c) (written r puts s)))).updBody s.curCore fun x => { x with
            kicks := x.kicks ++ [{ owner := .blk s.cur.blk, off := o, num, n := 1, grow := some (n, nb) }] }))) ∧
  (∀ g (n e : Fin 8) first delta s r,
    let k := s.curBlock.eng.kv[n]
    let fst := (uval (s.active g) (r.w 0)).toNat
    Ready g [first, delta] [opU first, opU delta] [] s r → s.active g ≠ 0 → k.valid = true → fst < 2 ^ 23 →
    (∀ i : Fin 8, i ≠ e → (k.splices[i]).valid = true → (k.splices[i]).first ≠ fst) →
    exec (.splice g n e first delta) s = .next (advance (setSlab s.cur.blk n (fun k => { k with
      splices := k.splices.set e { valid := true, first := fst, delta := (uval (s.active g) (r.w 1)).toInt, stale := k.wrec } })
      (written r [] s)))) ∧
  (∀ g (n e : Fin 8) s, Issuable g false s → (s.curBlock.eng.kv[n]).valid = true →
    exec (.spliceFix g n e) s = .next (advance (onActive g s (setSlab s.cur.blk n fun k => { k with
      splices := k.splices.set e (if (k.splices[e]).valid then { k.splices[e] with stale := 0 } else k.splices[e]) }) s))) ∧
  ∀ g (n e : Fin 8) s, Issuable g false s → (s.curBlock.eng.kv[n]).valid = true →
    exec (.spliceClr g n e) s = .next (advance (onActive g s (setSlab s.cur.blk n fun k => { k with
      splices := k.splices.set e { k.splices[e] with valid := false } }) s))

/-- R378, R368: ATTN whose record and slab are in order numbers it and appends it to its core's queue, which has room for
16 records and, while one record holds the array, for one more (the room is the model's choice, log 68). R382, R376: SMERGE
merges each row of softmax state into its destination row, and its other form divides each row by its sum. -/
def Clause.AttentionInstructionsComplete : Prop :=
  (∀ g d off s r o,
    let b := s.curBlock
    let num := b.eng.tl[2].enq + 1
    let puts := if d = .zero then [] else [(⟨d, 0, s.active g, splat (num.setWidth 32)⟩ : Put)]
    let bs := b.abuf.data.readN o 64
    let a := AttnF.of bs
    let k := (b.eng.kv[a.kv]?).getD Slab.reset
    Ready g [d, off] [opU off] puts s r → s.active g ≠ 0 →
    recordAt64 s (s.active g) (uval (s.active g) (r.w 0)).toNat = .ok o → attnOk b k a = true → k.posOk a.t0 a.t1 = true →
    (s.core s.curCore).body.attn.length < 16 + (if (s.core s.curCore).body.attnRun.any (fun r => r.holds) then 1 else 0) →
    exec (.attn g d off) s = .next (advance ((engReadBuf s.cur.blk false (engAgent b 2 num) o 64
      (enqueue 2 1 (written r puts s))).updBody s.curCore fun x => { x with attn := x.attn ++
        [{ blk := s.cur.blk, off := o, num, bytes := bs, slab := k, stale := k.hasStale a.t0 a.t1, pages := [] }] }))) ∧
  (∀ g d a (rowsM1 : BitVec 7) hd s r,
    let dim := if hd then 128 else 64
    let row := 8 + 4 * dim
    let n := (rowsM1.toNat + 1) * row
    let od := (uval (s.active g) (r.w 0)).toNat
    let os := (uval (s.active g) (r.w 1)).toNat
    let ts : List WTouch := [⟨s.active g, os, n, false⟩, ⟨s.active g, od, n, true⟩]
    Ready g [d, a] [opU d, opU a] [] s r → s.active g ≠ 0 → od % 8 = 0 → os % 8 = 0 → od < 2 ^ 18 → os < 2 ^ 18 →
    od + n ≤ s.curBlock.cbuf.size → os + n ≤ s.curBlock.cbuf.size → (od = os ∨ od + n ≤ os ∨ os + n ≤ od) →
    touchCheck s ts = .ok () →
    ∃ t f, exec (.smerge g d a rowsM1 hd) s = .next (advance (setFlags f (touchRecord ts t))) ∧
      (t, f) = (List.range (rowsM1.toNat + 1)).foldl (fun (acc : State × Flags) i =>
        let x := mergeSoft (readSoft acc.1.cbuf (od + i * row) dim) (readSoft acc.1.cbuf (os + i * row) dim)
        (putCbuf (od + i * row) x.1.bytes acc.1, acc.2.or x.2)) (written r [] s, {})) ∧
  ∀ g d (rowsM1 : BitVec 7) hd rm s r,
    let dim := if hd then 128 else 64
    let row := 8 + 4 * dim
    let n := (rowsM1.toNat + 1) * row
    let od := (uval (s.active g) (r.w 0)).toNat
    let ts : List WTouch := [⟨s.active g, od, n, true⟩]
    Ready g [d] [opU d] [] s r → s.active g ≠ 0 → od % 8 = 0 → od < 2 ^ 18 → od + n ≤ s.curBlock.cbuf.size →
    touchCheck s ts = .ok () →
    ∃ t f, exec (.smergeFin g d rowsM1 hd rm) s = .next (advance (setFlags f (touchRecord ts t))) ∧
      (t, f) = (List.range (rowsM1.toNat + 1)).foldl (fun (acc : State × Flags) i =>
        let x := finishSoft rm (readSoft acc.1.cbuf (od + i * row) dim)
        (putCbuf (od + i * row) x.1.bytes acc.1, acc.2.or x.2)) (written r [] s, {})

/-- Norms, rotations and attention. -/
def Obligations.NormsRotationsAttention : Prop := Clause.NormsAndRotationsComplete ∧ Clause.AttentionInstructionsComplete

/-! ### Family 110: barriers, fences, peer sets, sleep (R387 to R405) -/

/-- R401, R389: BAR arrives and waits, BARA arrives, BARW waits; R402: BARQ delivers the phase, arrived and ready, and the
lanes that may depart do. An arrival wider than the block waits for room in the lager buffer (R464). A barrier that the kernel
does not declare, a wait inside a serial region (R396) and a second arrival in a phase fault. -/
def Obligations.BarriersComplete : Prop :=
  (∀ g b s, Issuable g true s → checkBar s b true true (s.active g) = .ok () →
    (s.active g ≠ 0 → arrivalRoom s s.cur.blk b = true) →
    exec (.bar g b) s = .next (advance (waitAt b (s.active g) (arrive b (s.active g) s)))) ∧
  (∀ g b s, Issuable g false s → checkBar s b true false (s.active g) = .ok () →
    (s.active g ≠ 0 → arrivalRoom s s.cur.blk b = true) →
    exec (.bara g b) s = .next (advance (arrive b (s.active g) s))) ∧
  (∀ g b s, Issuable g true s → checkBar s b false true (s.active g) = .ok () →
    exec (.barw g b) s = .next (advance (waitAt b (s.active g) s))) ∧
  (∀ g d b s r,
    let ready := canDepart s s.cur.blk s.cur.warp b (s.active g)
    let puts := [(⟨d, 0, s.active g, tab fun l => BitVec.ofNat 32
      ((phaseOf s s.cur.blk s.cur.warp b).toNat % 2 ^ 16 * 2 ^ 16 +
        (if (barFlags s.curWarp b).arrived.getLsbD l.val then 2 else 0) + if ready.getLsbD l.val then 1 else 0)⟩ : Put)]
    Ready g [d] [] puts s r → checkBar s b false false (s.active g) = .ok () →
    exec (.barq g d b) s = .next (advance (depart s.cur.blk s.cur.warp b ready (written r puts s)))) ∧
  (∀ g b s, Issuable g true s → s.active g ≠ 0 → declared s.curLaunch.hdr b.scope ≤ b.idx.val →
    exec (.bar g b) s = .next (raiseTrap (s.trapReq 0x0F (s.active g)) s)) ∧
  (∀ i g b s m, (i = .bar g b ∨ i = .barw g b) → Issuable g true s → b.idx.val < declared s.curLaunch.hdr b.scope → m ≠ 0 →
    m = s.active g &&& s.inRegion →
    exec i s = .next (raiseTrap (s.trapReq 0x10 m) s)) ∧
  ∀ g b s m, Issuable g false s → b.idx.val < declared s.curLaunch.hdr b.scope → m ≠ 0 →
    m = s.active g &&& (barFlags s.curWarp b).arrived →
    exec (.bara g b) s = .next (raiseTrap (s.trapReq 0x0E m) s)

/-- R388, R389: when every live lane of a block has arrived at a block barrier and is counted, but for those revived in the
phase, its phase number goes up by one and every arrived flag of it is cleared; while some lane has not, neither changes. At b0
the uniform registers take their owners' writes (R157, R393), and have no owner; that a warp which still awaits a value for one
stays its owner is the model's choice (log 142). -/
def Obligations.BlockBarrierPhase : Prop :=
  ∀ s u wn (b : Bar) bl, AMap.get? s.blocks u = some bl → b.scope = .blk →
    ((bl.warps.all (fun p => (p.2.lane.live &&& ~~~ (barFlags p.2 b).counted &&& ~~~ (barFlags p.2 b).excused) == 0) = true →
        let t := settleBarrier u wn b s
        (t.block u).bphase[b.idx] = bl.bphase[b.idx] + 1 ∧
          (∀ p ∈ (t.block u).warps, (barFlags p.2 b).arrived = 0) ∧
          (b.idx = 0 → ∀ n : Fin 32,
            (t.block u).w[n] = (if bl.wOwner[n].isSome then bl.wPend[n] else bl.w[n]) ∧
            (bl.warps.any (fun p => p.2.late.any fun d => d.d == .w n) = false → (t.block u).wOwner[n] = none))) ∧
      (bl.warps.all (fun p => (p.2.lane.live &&& ~~~ (barFlags p.2 b).counted &&& ~~~ (barFlags p.2 b).excused) == 0) = false →
        settleBarrier u wn b s = s))

/-- R390: a lane departs from a barrier when its pending flag is set and the phase has come to its target. Its departure
clears pending. Lanes with no pending arrival depart at once and acquire nothing. A completed phase leaves every pending flag
and every target as it was. -/
def Obligations.BarrierDepartures : Prop :=
  (∀ s u wn (b : Bar) m (l : Fin 32), let f := barFlags (s.warpOf u wn) b
    (canDepart s u wn b m).getLsbD l.val =
      (m.getLsbD l.val && f.pending.getLsbD l.val && decide (f.target[l].toNat ≤ (phaseOf s u wn b).toNat))) ∧
  (∀ s u wn (b : Bar) m bl w, AMap.get? s.blocks u = some bl → AMap.get? bl.warps wn = some w → m ≠ 0 →
    let f := barFlags ((depart u wn b m s).warpOf u wn) b
    f.pending = (barFlags w b).pending &&& ~~~ m ∧ f.arrived = (barFlags w b).arrived ∧
      f.target = (barFlags w b).target) ∧
  (∀ s u wn sp (b : Bar) m, sp.wait = .bar b m → m &&& (barFlags (s.warpOf u wn) b).pending = 0 →
    waitDone s u wn sp = true ∧ waitAcquires u wn sp.wait s = s) ∧
  ∀ s u wn (b c : Bar) v n, let f := barFlags ((settleBarrier u wn b s).warpOf v n) c
    f.pending = (barFlags (s.warpOf v n) c).pending ∧ f.target = (barFlags (s.warpOf v n) c).target

/-- R403: FENCE completes once, for its releasing half, every earlier access of the warp has completed and, at `.clu` or wider,
earlier output of the core is performed (that it is the core's, and not the warp's own alone, is the model's choice, log 145; how
the waits fall on the halves is log 58), and, for its acquiring half, its earlier loads and atomics have; until then it stays at
issue, and the warp's other splits make no access. Its releasing half enters the warp's ring and its acquiring half is made at
that instant. -/
def Clause.FenceCompletes : Prop :=
  (∀ g od sc s, Issuable g false s → s.active g ≠ 0 →
    (od ≠ .acq → s.curWarp.ord.ops = [] ∧ (3 ≤ scopeNo sc → earlierOut s = false)) →
    (od ≠ .rel → ∀ o ∈ s.curWarp.ord.ops, o.read = false) →
    exec (.fence g od sc) s = .next (advance
      (let t := if od = .acq then s else releaseAt (.scope sc) s.cur.blk s.cur.warp s
       if od = .rel then t else acquireAt sc s.cur.blk s.cur.warp t))) ∧
  (∀ g od sc s, Issuable g false s → s.active g = 0 → exec (.fence g od sc) s = .next (advance s)) ∧
  (∀ g od sc s, Issuable g false s → s.active g ≠ 0 →
    (od ≠ .acq ∧ (s.curWarp.ord.ops ≠ [] ∨ 3 ≤ scopeNo sc ∧ earlierOut s = true) ∨
      od ≠ .rel ∧ ∃ o ∈ s.curWarp.ord.ops, o.read = true) →
    exec (.fence g od sc) s = .next (s.updSplit fun sp =>
      { sp with fence := true, mark := some (sp.mark.getD s.instant) })) ∧
  ∀ g d sz acq base off s, checkIssue g [d.op, base] false s = .ok () → s.active g ≠ 0 →
    (∃ p ∈ s.curWarp.splits, p.1 ≠ s.cur.split ∧ p.2.fence = true) →
    exec (.ld g d sz acq base off) s = .next s.waits

/-- R404, R239: CLJOIN joins its set, at once with lagering off and when its change leaves the core with lagering on, and
CLLEAVE sends its leave, which takes effect at once with lagering off when no window access holds it back; a block in another set
faults, and a change waits for one of the block that has not taken effect (that it waits is the model's choice, log 59).
R405: SLEEP makes its split wait for its count of cycles. -/
def Clause.PeerSetsAndSleepComplete : Prop :=
  (∀ g d (set : Fin 8) s r, let q : Put := ⟨d, 0, s.active g, wordOf s .int d 0⟩
    let t := written r [q] s
    Ready g [d] [] [⟨d, 0, s.active g, splat 0⟩] s r → destCheck r [q] s = .ok () → s.active g ≠ 0 → s.curLaunch.lagers = true → peerChanging s s.cur.blk set.val = false →
    (∀ h i, s.curBlock.eng.peer = some (h, i) → h = set.val) → lagerRoom s s.curCore 8 = true →
    exec (.cljoin g d set) s = .next (advance ((emit true s.curCore (s.outItem (.join set.val t.uidCtr) none none 0)
      { t with uidCtr := t.uidCtr + 1 }).updSplit fun sp => { sp with wait := .join t.uidCtr (lateOf s q) }))) ∧
  (∀ g d (set : Fin 8) s r, Ready g [d] [] [⟨d, 0, s.active g, splat 0⟩] s r → s.active g ≠ 0 → s.curLaunch.lagers = false →
    peerChanging s s.cur.blk set.val = false → (∀ h i, s.curBlock.eng.peer = some (h, i) → h = set.val) →
    let j := joinNow s.cur.blk set.val s
    destCheck { r with st := j.2 } [⟨d, 0, s.active g, splat j.1⟩] s = .ok () →
    exec (.cljoin g d set) s = .next (advance (written { r with st := j.2 } [⟨d, 0, s.active g, splat j.1⟩] s))) ∧
  (∀ g d (set : Fin 8) s r h i, Ready g [d] [] [⟨d, 0, s.active g, splat 0⟩] s r → s.active g ≠ 0 →
    peerChanging s s.cur.blk set.val = false → s.curBlock.eng.peer = some (h, i) → h ≠ set.val →
    exec (.cljoin g d set) s = .next (raiseTrap (s.trapReq 0x0D (s.active g)) s)) ∧
  (∀ g d set s r, Ready g [d] [] [] s r → s.active g = 0 → exec (.cljoin g d set) s = .next (advance s)) ∧
  (∀ g s, Issuable g false s → (s.active g ≠ 0 → joinOrLeave s s.cur.blk = false) →
    (s.curLaunch.lagers = true → lagerRoom s s.curCore 8 = true) → exec (.clleave g) s = .next (advance
    (let x := s.outItem .leave none none 0
     let t := (emit s.curLaunch.lagers s.curCore x s).updSplit fun sp => { sp with wait := .leave }
     if s.active g = 0 ∨ s.curBlock.eng.peer = none then s
     else if s.curLaunch.lagers = false ∧ leaveFree t x = true then leaveNow x t else t))) ∧
  (∀ g s, Issuable g false s → s.active g ≠ 0 → joinOrLeave s s.cur.blk = true →
    exec (.clleave g) s = .next s.waits) ∧
  (∀ g (n : BitVec 20) s, Issuable g true s → exec (.sleep g n) s = .next (advance (onActive g s
    (fun t => t.updSplit fun sp => { sp with wait := .sleep (s.now + n.toNat) }) s))) ∧
  ∀ g a s r, checkIssue g [a] true s = .ok () → readAll g [opU a] s = .ok r → destCheck r [] s = .ok () →
    exec (.sleepReg g a) s = .next (advance (onActive g s
      (fun t => t.updSplit fun sp => { sp with wait := .sleep (s.now + (uval (s.active g) (r.w 0)).toNat) })
      (written r [] s)))

/-- Fences, peer sets and sleep. -/
def Obligations.FencesPeerSetsSleep : Prop := Clause.FenceCompletes ∧ Clause.PeerSetsAndSleepComplete


/-- R445, R429, R446, R426: FMSG sends the bytes of its range as a message numbered on tl4; FPOLL delivers its word and, with
`.clr`, clears the block's fault; its other forms bind and free an endpoint, and one that another block holds faults. -/
def Clause.FabricInstructionsComplete : Prop :=
  (∀ g addr soff doff (lenM1 : BitVec 8) (c : Fin 16) s r o bs s1,
    let a := uval (s.active g) (r.w 0)
    let n := lenM1.toNat + 1
    let num := s.curBlock.eng.tl[4].enq + 1
    let t := (written { r with st := s1 } [] s).uid.2
    Ready g [addr, soff, doff] [opU addr, opU soff, opU doff] [] s r → s.active g ≠ 0 →
    sendRange s (s.active g) (uval (s.active g) (r.w 1)).toNat n = .ok o →
    ¬ (faEnd a < 256 ∧ doff = .zero) → s.curLaunch.desc.replayable = false →
    loadBuf r.st false false (uniReq (s.active g) n (BitVec.ofNat 64 o)) = .ok (bs, s1) → s.curBlock.eng.inFlight < 64 →
    (s.curLaunch.lagers = true → lagerRoom s s.curCore n = true) →
    exec (.fmsg g addr soff doff lenM1 c) s = .next (advance (emit s.curLaunch.lagers s.curCore
      (s.outItem (.message {
        id := (written { r with st := s1 } [] s).uidCtr, blk := s.cur.blk, num, srcDie := s.curBlock.place.die
        world := s.curLaunch.desc.world, addr := a, doff := (uval (s.active g) (r.w 2)).toNat, ctr := c.val
        data := bs.head?.getD [], agent := engAgent s.curBlock 4 num, upTo := t.passOn }) none none 0)
      ((enqueue 4 1 t).updEng s.cur.blk fun e => { e with inFlight := e.inFlight + 1 })))) ∧
  (∀ g d (c : Fin 16) clr s r,
    let e := s.curBlock.eng
    let done := decide ((e.c[c]).toInt ≤ 0)
    let puts := [(⟨d, 0, s.active g, splat (fpollWord e c)⟩ : Put)]
    Ready g [d] [] puts s r →
    exec (.fpoll g d c clr) s = .next (advance (onActive g s (fun t =>
      let t := if done then acquireCtrs (2 ^ c.val) s.cur.blk s.cur.warp t else t
      if clr then t.updEng s.cur.blk fun e => { e with fabFault := false, fabCode := 0 } else t) (written r puts s)))) ∧
  (∀ g e s r, let x := (uval (s.active g) (r.w 0)).toNat
    Ready g [e] [opU e] [] s r → s.active g ≠ 0 → x < 256 →
    (∀ u, AMap.get? (s.die s.curBlock.place.die).endpoints x = some u → u = s.cur.blk) →
    exec (.fpollBind g e) s = .next (advance (takeEndpoint s.cur.blk x (written r [] s)))) ∧
  (∀ g e s r u, let x := (uval (s.active g) (r.w 0)).toNat
    Ready g [e] [opU e] [] s r → s.active g ≠ 0 → x < 256 →
    AMap.get? (s.die s.curBlock.place.die).endpoints x = some u → u ≠ s.cur.blk →
    exec (.fpollBind g e) s = .next (raiseTrap (s.trapReq 0x16 (s.active g)) s)) ∧
  ∀ g s, Issuable g false s →
    exec (.fpollUnbind g) s = .next (advance (onActive g s (dropEndpoint s.cur.blk) s))

/-- R447, R434, R435: COLL whose record is in order and whose group table can be read joins its instance, numbered on tl3; a
record that fails its check, a table that is no group table and one that does not name the block's endpoint fault as a descriptor.
A table outside tier 0 is taken for no group table (log 69), and a poisoned one faults as uncorrectable data (R260): both are the
model's choice. One that cannot be translated posts its fault, and the participant waits (R456).
R448: NOISE delivers its distribution's value in each lane. R449: CBPOST sends a post numbered on tl4. -/
def Clause.GenerationInstructionsComplete : Prop :=
  (∀ g d off s r tab s1 pos,
    let o := (uval (s.active g) (r.w 0)).toNat
    let b := s.curBlock
    let num := b.eng.tl[3].enq + 1
    let puts := if d = .zero then [] else [(⟨d, 0, s.active g, splat (num.setWidth 32)⟩ : Put)]
    let bs := b.abuf.data.readN o 32
    let agent := engAgent b 3 num
    let p : CollPart := { newPart s.cur.blk num o bs s.now with table := tab, pos := pos, fetched := true }
    Ready g [d, off] [opU off] puts s r → destCheck { r with st := s1 } puts s = .ok () → s.active g ≠ 0 →
    o % 32 = 0 → o + 32 ≤ b.abuf.size → s.curWarp.acquiring s.cur.split = false → collOk b (CollF.of bs) = true →
    b.eng.endpoint.isSome = true → s.curLaunch.desc.replayable = false →
    readTable r.st s.cur.blk agent (CollF.of bs).gtab = .ok (tab, s1) → tabOk tab = true →
    tabPos tab (addrOf s b (b.eng.endpoint.getD 0)) = some pos →
    exec (.coll g d off) s = .next (advance (joinColl (tabTag tab) (CollF.of bs).seq p
      (engReadBuf s.cur.blk false agent o 32 (enqueue 3 1 (written { r with st := s1 } puts s)))))) ∧
  (∀ g d off s r,
    let o := (uval (s.active g) (r.w 0)).toNat
    let b := s.curBlock
    let bs := b.abuf.data.readN o 32
    let puts := if d = .zero then [] else [(⟨d, 0, s.active g, splat ((b.eng.tl[3].enq + 1).setWidth 32)⟩ : Put)]
    let read := readTable r.st s.cur.blk (engAgent b 3 (b.eng.tl[3].enq + 1)) (CollF.of bs).gtab
    Ready g [d, off] [opU off] puts s r → s.active g ≠ 0 → s.curWarp.acquiring s.cur.split = false →
    (o % 32 ≠ 0 ∨ b.abuf.size < o + 32 ∨ collOk b (CollF.of bs) = false ∨ b.eng.endpoint = none ∨ read = .error .noTable ∨
      ∃ tab s1, read = .ok (tab, s1) ∧ (tabOk tab = false ∨ tabPos tab (addrOf s b (b.eng.endpoint.getD 0)) = none)) →
    exec (.coll g d off) s = .next (raiseTrap { s.trapReq 0x11 (s.active g) with va := BitVec.ofNat 64 o } s)) ∧
  (∀ g d off s r x,
    let o := (uval (s.active g) (r.w 0)).toNat
    let b := s.curBlock
    let bs := b.abuf.data.readN o 32
    let num := b.eng.tl[3].enq + 1
    let puts := if d = .zero then [] else [(⟨d, 0, s.active g, splat (num.setWidth 32)⟩ : Put)]
    let agent := engAgent b 3 num
    Ready g [d, off] [opU off] puts s r → s.active g ≠ 0 → s.curWarp.acquiring s.cur.split = false →
    o % 32 = 0 → o + 32 ≤ b.abuf.size → collOk b (CollF.of bs) = true → b.eng.endpoint.isSome = true →
    readTable r.st s.cur.blk agent (CollF.of bs).gtab = .error x →
    exec (.coll g d off) s = (match x with
      | .noTable => .next (raiseTrap { s.trapReq 0x11 (s.active g) with va := BitVec.ofNat 64 o } s)
      | .held => .next s.waits
      | .poison va => .next (raiseTrap { s.trapReq 0x22 (s.active g) with va := BitVec.ofNat 64 va } s)
      | .fault va cause => if s.curLaunch.desc.replayable = true then .next (raiseTrap (s.trapReq 0x18 (s.active g)) s)
        else .next (advance (collFault s.cur.blk (newPart s.cur.blk num o bs s.now) (CollF.of bs).seq va cause
          (engReadBuf s.cur.blk false agent o 32 (enqueue 3 1 (written r puts s))))))) ∧
  (∀ g d key step idx kd s r,
    let qs : List SrcSpec := [{ op := key.op, hold := key.hold, n := 2, uni := true }, srcU step, srcI idx]
    let puts := [putOf d (s.active g) (Machine.tab fun l =>
      noiseW kd ((r.at 0)[0])[l] ((r.at 0)[1])[l] (r.w 1)[l] (r.w 2)[l])]
    Ready g (opsOf d.op qs) qs puts s r → exec (.noise g d key step idx kd) s = .next (advance (written r puts s))) ∧
  ∀ g pred off (c : Fin 16) (budget : BitVec 16) s r o,
    let b := s.curBlock
    let num := b.eng.tl[4].enq + 1
    Ready g [pred, off] [opU pred, opU off] [] s r → s.active g ≠ 0 →
    ownRange s (s.active g) (uval (s.active g) (r.w 1)).toNat 32 32 = .ok o →
    (s.curLaunch.lagers = true → lagerRoom s s.curCore 8 = true) →
    exec (.cbpost g pred off c budget) s = .next (advance (emit s.curLaunch.lagers s.curCore (s.outItem
      (.post o (uval (s.active g) (r.w 0)).toNat c.val num budget.toNat (b.abuf.data.readN o 32)) none none 0)
      (engReadBuf s.cur.blk false (engAgent b 4 num) o 32 (enqueue 4 1 (written r [] s)))))

/-- Messages, collectives, noise and posts. -/
def Obligations.FabricAndGeneration : Prop := Clause.FabricInstructionsComplete ∧ Clause.GenerationInstructionsComplete


/-! ### Family 111: control (R179 to R189) -/

/-- R179 to R181, R116, R129: BRA, BRX, CALL and RET send the active lanes to index 0 of the clause at the target, a direct
one at the clause header's address plus eight times its field; a call's link takes the offset of the next clause. A target
that no header stands at faults: a direct one in all lanes of the split, before the state of the lanes is looked at (R135), an
indirect one in the active lanes that go there. -/
def Obligations.TransfersComplete : Prop :=
  (∀ g (target : Word) s,
    let a := (s.curSplit.hdr : Int) + 8 * target.toInt
    Issuable g false s → 0 ≤ a → s.curLaunch.headers.contains a.toNat = true →
    leavesRegion s (s.active g) (Vector.replicate 32 a) = 0 →
    exec (.bra g target) s = .next (advance (jumpLanes (s.active g) (fun _ => a.toNat) s))) ∧
  (∀ g (target : Word) s,
    let a := (s.curSplit.hdr : Int) + 8 * target.toInt
    checkEncoding g [] false s = .ok () → s.members ≠ 0 → (a < 0 ∨ s.curLaunch.headers.contains a.toNat = false) →
    exec (.bra g target) s = .next (raiseTrap (s.trapReq 0x03 s.members) s)) ∧
  (∀ g link (target : Word) s,
    let a := (s.curSplit.hdr : Int) + 8 * target.toInt
    s.curWarp.awaits link = false → checkEncoding g [link] false s = .ok () → s.members ≠ 0 →
    (a < 0 ∨ s.curLaunch.headers.contains a.toNat = false) →
    exec (.call g link target) s = .next (raiseTrap (s.trapReq 0x03 s.members) s)) ∧
  (∀ i g ops a s r m, ((i = .brx g a ∨ i = .ret g a) ∧ ops = [a] ∨ ∃ link, i = .callIndirect g link a ∧ ops = [link, a]) →
    checkIssue g ops false s = .ok () → readAll g [opSrc a] s = .ok r → m ≠ 0 →
    (∀ l : Fin 32, m.getLsbD l.val = ((s.active g).getLsbD l.val && !s.curLaunch.headers.contains ((r.w 0)[l]).toNat)) →
    exec i s = .next (raiseTrap (s.trapReq 0x03 m) s)) ∧
  (∀ i g a s r, (i = .brx g a ∨ i = .ret g a) → Ready g [a] [opSrc a] [] s r →
    (∀ l : Fin 32, (s.active g).getLsbD l.val = true → s.curLaunch.headers.contains ((r.w 0)[l]).toNat = true) →
    leavesRegion s (s.active g) (tab fun l => (((r.w 0)[l]).toNat : Int)) = 0 →
    exec i s = .next (advance (jumpLanes (s.active g) (fun l => ((r.w 0)[l]).toNat) (written r [] s)))) ∧
  (∀ g link (target : Word) s r,
    let a := (s.curSplit.hdr : Int) + 8 * target.toInt
    let puts := [(⟨link, 0, s.active g, splat (BitVec.ofNat 32 (s.curSplit.hdr + 8 * (hdrCount s.header + 1)))⟩ : Put)]
    Ready g [link] [] puts s r → 0 ≤ a → s.curLaunch.headers.contains a.toNat = true →
    leavesRegion s (s.active g) (Vector.replicate 32 a) = 0 →
    exec (.call g link target) s = .next (advance (jumpLanes (s.active g) (fun _ => a.toNat) (written r puts s)))) ∧
  ∀ g link a s r,
    let puts := [(⟨link, 0, s.active g, splat (BitVec.ofNat 32 (s.curSplit.hdr + 8 * (hdrCount s.header + 1)))⟩ : Put)]
    Ready g [link, a] [opSrc a] puts s r →
    (∀ l : Fin 32, (s.active g).getLsbD l.val = true → s.curLaunch.headers.contains ((r.w 0)[l]).toNat = true) →
    leavesRegion s (s.active g) (tab fun l => (((r.w 0)[l]).toNat : Int)) = 0 →
    exec (.callIndirect g link a) s =
      .next (advance (jumpLanes (s.active g) (fun l => ((r.w 0)[l]).toNat) (written r puts s)))

/-- R182, R166: EXIT ends the active lanes: they are live no more and in no region; the exit of the last live lane drains
the warp's non-temporal stores first, and where it ends the warp its slots find room in the share (R149, R478). -/
def Obligations.ExitCompletes : Prop :=
  (∀ g s, Issuable g false s →
    (s.active g ≠ 0 → s.curWarp.lane.live &&& ~~~ s.active g = 0 → drainCheck anyPa (s.active g) s = .ok () ∧
      (s.curWarp.refill = none → retireStalls s s.cur.blk s.cur.warp = false)) →
    exec (.exit g) s = .next (advance (exitLanes s.cur.blk s.cur.warp (s.active g) s))) ∧
  ∀ g s b w sp, Issuable g false s → s.Issues b w sp → s.active g ≠ 0 → w.lane.live &&& ~~~ s.active g ≠ 0 →
    w.serial = none → w.lane.inHandler = 0 →
    ∃ t x, exec (.exit g) s = .next t ∧ AMap.get? (t.block s.cur.blk).warps s.cur.warp = some x ∧
      x.lane.live = w.lane.live &&& ~~~ s.active g ∧ x.lane.inMeld = w.lane.inMeld &&& ~~~ s.active g

/-- R172, R183, R184, R171, R185, R175: MELD takes the split into a region, by its predicate on path 1 or 0, and MELDE out of
it; RNSET sets renaming entries and clears a table's; SERB starts a serial region with the lowest lane running and the
others waiting, and SERE passes on to the next. -/
def Clause.MeldAndSerialComplete : Prop :=
  (∀ g (p : Fin 8) t s, Issuable g true s →
    exec (.meld g p t) s = .next (advance (s.updLane fun l => { l with
      inMeld := l.inMeld ||| s.issuing
      path := maskOf fun i => if s.issuing.getLsbD i.val then
        (if h : p.val < 7 then (s.curWarp.reg.p[p.val]).getLsbD i.val else true) else l.path.getLsbD i.val
      table := if t then l.table ||| s.issuing else l.table &&& ~~~ s.issuing }))) ∧
  (∀ g s, Issuable g true s →
    exec (.melde g) s = .next (advance (s.updLane fun l => { l with inMeld := l.inMeld &&& ~~~ s.issuing }))) ∧
  (∀ g t path (first : Fin 16) va vb vc s, Issuable g false s →
    exec (.rnset g t path first va vb vc) s = .next (advance (onActive g s (fun x => x.updReg
      (setEntries (renRow t path) first.val (va :: (match vb with | none => [] | some b => b :: vc.toList)))) s))) ∧
  (∀ g t s, let cleared (r : Regs) := Vector.ofFn fun k : Fin 4 =>
      if k.val / 2 = Bool.toNat t then Vector.replicate 16 none else r.ren[k]
    Issuable g false s →
    exec (.rnsetClr g t) s =
      .next (advance (onActive g s (fun x => x.updReg fun r => { r with ren := cleared r }) s))) ∧
  (∀ g (e : BitVec 20) s, Issuable g true s → s.curLaunch.headers.contains (s.curSplit.hdr + 8 * e.toNat) = true →
    s.issuing &&& s.inRegion = 0 → s.curWarp.serial = none →
    exec (.serb g e) s = .next (advance (s.updWarp fun w =>
      w.startSerial s.issuing (nextClause s.curSplit.hdr s.header) (s.curSplit.hdr + 8 * e.toNat)))) ∧
  (∀ g s r, Issuable g true s → s.curWarp.serial = some r → r.last = s.curSplit.hdr → s.issuing = one_ r.lane →
    exec (.sere g) s = .next (advance (s.updWarp fun w =>
      (w.leave s.issuing).serialNext (nextClause s.curSplit.hdr s.header)))) ∧
  ∀ g s, Issuable g true s → s.curWarp.serial = none → s.issuing ≠ 0 →
    exec (.sere g) s = .next (raiseTrap (s.trapReq 0x10 s.issuing) s)

/-- R186, R176: REFILL revives one exited lane for each item that the queue gives, at the clause after it, with v0 the item.
R187, R188, R178: YIELD, NOPRE and PREOK; NOPRE waits while a pre-emption request is held. -/
def Clause.RefillAndRegionsComplete : Prop :=
  (∀ g (p : Fin 8) s xs e s1,
    let point := nextClause s.curSplit.hdr s.header
    Issuable g true s → s.active g ≠ 0 → s.curWarp.awaits (.v 0) = false → s.active g &&& s.inRegion = 0 →
    popHeld s.cur.blk s.cur.warp 32 s = false →
    popFor s.cur.blk s.cur.warp (lanes32.filter fun l => !s.curWarp.lane.live.getLsbD l.val) s = .ok (xs, e, s1) →
    (xs ≠ [] → reviveBreaks s s.cur.blk s.curWarp = false ∧ reviveStalls s s.cur.blk s.cur.warp s.curWarp = false) →
    exec (.refill g p) s = .next (advance (settleExit s.cur.blk s.cur.warp
      ((if xs = [] then s1 else reviveShare s.cur.blk s.cur.warp s.curWarp s1).updWarp fun w =>
        ({ w with refill := some (point, p.val) }.revive xs point).setExhausted p.val (s.active g ||| lanesIn xs) e)))) ∧
  (∀ g p s, Issuable g true s → s.active g = 0 → exec (.refill g p) s = .next (advance s)) ∧
  (∀ g s, Issuable g false s →
    exec (.yield g) s = .next (advance (onActive g s (fun t => t.updSplit fun sp => { sp with yields := true }) s))) ∧
  (∀ g s, Issuable g false s → s.active g ≠ 0 → s.curWarp.noPre = false → s.curBlock.preReq = none →
    s.curBlock.state ≠ .saving →
    exec (.nopre g) s = .next (advance (s.updWarp fun w => { w with noPre := true, watchAt := s.now }))) ∧
  (∀ g s, Issuable g false s → (s.active g = 0 ∨ s.curWarp.noPre = true) → exec (.nopre g) s = .next (advance s)) ∧
  (∀ g s q, Issuable g false s → s.active g ≠ 0 → s.curWarp.noPre = false → s.curBlock.preReq = some q →
    exec (.nopre g) s = .next s.waits) ∧
  ∀ g s, Issuable g false s →
    exec (.preok g) s = .next (advance (onActive g s (fun t => t.updWarp fun w => { w with noPre := false }) s))

/-- Meld, serial and non-preemptible regions, and refilling. -/
def Obligations.RegionsComplete : Prop := Clause.MeldAndSerialComplete ∧ Clause.RefillAndRegionsComplete


/-! ### Traps (R450 to R456, R470 to R473) -/

/-- R189, R177: BREAK and TRAP complete, and then the active lanes trap with their code; one that goes to system software, or
that a split at a lower program counter is to come before, stays at the instruction until it is taken. -/
def Clause.SoftwareTrapsComplete : Prop :=
  ∀ i g (code : BitVec 20) kind s, (i = .brk g code ∧ kind = 0x21 ∨ i = .trap g code ∧ kind = 0x1A) → Issuable g false s →
    let q : TrapReq := { s.trapReq kind (s.active g) with code := code.toNat }
    exec i s = .next (if s.active g = 0 then advance s
      else if toSystem s.curLaunch q = true ∨ othersFirst s.cur q s = true then raiseTrap q s
      else takeTrap s.cur q (advance s))

/-- R452, R453, R174: a user-class trap of a warp with no handler running, that no trap of the warp raised in the same cycle comes
before (R177), makes its lanes a split of their own at trap_off,
out of their meld region and in the handler, after the trap registers have taken the kind, the code, the lanes, the position
and the address. Every other lane, warp, register and byte of memory stays but for the black box. -/
def Obligations.TrapEntry : Prop :=
  ∀ s q b w sp, s.Issues b w sp → q.kind ∉ [0x1A, 0x20, 0x21, 0x22] → q.lanes ≠ 0 → w.lane.inHandler = 0 →
    s.curLaunch.hdr.trapOff ≠ 0xFFFFFFFF → s.curLaunch.headers.contains s.curLaunch.hdr.trapOff = true →
    othersFirst s.cur q s = false → w.rival q s.now = false →
    let t := raiseTrap q s
    ∃ x y k, AMap.get? (t.block s.cur.blk).warps s.cur.warp = some x ∧ AMap.get? x.splits k = some y ∧
      y.lanes = q.lanes ∧ y.hdr = s.curLaunch.hdr.trapOff ∧ y.idx = 0 ∧
      x.lane.inHandler = q.lanes ∧ x.lane.inMeld = w.lane.inMeld &&& ~~~ q.lanes ∧ x.lane.live = w.lane.live ∧
      x.reg = w.reg ∧ x.trap.mask = q.lanes ∧ x.trap.code = BitVec.ofNat 32 q.code ∧ x.trap.va = q.va ∧
      x.trap.pc.extractLsb' 0 32 = BitVec.ofNat 32 q.pc.hdr ∧ x.trap.pc.extractLsb' 32 4 = BitVec.ofNat 4 q.pc.idx ∧
      x.trap.info.extractLsb' 24 8 = BitVec.ofNat 8 q.kind ∧
      x.trap.info.getLsbD 19 = (w.lane.inMeld &&& q.lanes != 0) ∧
      x.trap.path = w.lane.path &&& w.lane.inMeld &&& q.lanes ∧
      (∀ n, n ≠ s.cur.warp → AMap.get? (t.block s.cur.blk).warps n = AMap.get? b.warps n) ∧
      (∀ u, u ≠ s.cur.blk → AMap.get? t.blocks u = AMap.get? s.blocks u) ∧
      ((s.die b.place.die).bbHost = 0 → t.mem = s.mem) ∧ t.launches = s.launches

/-- R455, R459: a user-class fault of lanes in a handler, and one of a launch without a handler or whose handler offset is no
header's (log 163), end the launch: every block of it is gone, and it is to be replayed or to fail. A fault that another of the
warp raised in the same cycle holds back is not yet delivered (R177). -/
def Clause.UnhandledFaultEndsLaunch : Prop :=
  ∀ s q b w sp (la : Launch), s.Issues b w sp → q.kind ∉ [0x1A, 0x20, 0x21, 0x22] →
    AMap.get? s.launches b.launch = some la → la.ending = none → othersFirst s.cur q s = false → w.rival q s.now = false →
    (w.lane.inHandler ≠ 0 ∨ la.hdr.trapOff = 0xFFFFFFFF ∨ la.headers.contains la.hdr.trapOff = false) →
    let t := raiseTrap q s
    (∀ u x, AMap.get? t.blocks u = some x → x.launch ≠ b.launch) ∧
      AMap.get? t.blocks s.cur.blk = none ∧ (AMap.get? t.launches b.launch).any (fun l => l.ending.isSome) = true

/-- R456, R474: a translation fault is posted in the lowest free slot of the die's queue with its words, and the split waits
at the instruction. -/
def Clause.SystemFaultPosts : Prop :=
  ∀ s q b w sp i, s.Issues b w sp → q.kind = 0x20 → q.cause ≠ 5 → freeSlot (s.die b.place.die) = some i →
    let t := raiseTrap q s
    ∃ x e, AMap.get? (t.die b.place.die).fq i = some e ∧ e.read = false ∧
      e.words[1] = warpAgent b s.cur.warp ∧ (e.words[3]).extractLsb' 24 8 = 0x20 ∧
      (e.words[0]).extractLsb' 12 4 = BitVec.ofNat 4 q.cause ∧
      (e.words[3]).extractLsb' 0 24 ++ e.words[2] = BitVec.ofNat 56 q.va.toNat ∧
      AMap.get? (t.block s.cur.blk).warps s.cur.warp = some x ∧
      AMap.get? x.splits s.cur.split = some { sp with
        wait := .fault i, port := none, fence := false, mark := none, stalled := false, plane := none } ∧ t.mem = s.mem

/-- Where a fault with no handler goes, and where one of the system's. -/
def Obligations.FaultDelivery : Prop := Clause.UnhandledFaultEndsLaunch ∧ Clause.SystemFaultPosts


/-- R470: TRAPRET of lanes in a handler takes them out of it and to the trapped instruction, or past it, with the meld region as
the trap found it; outside a handler it is illegal, as an ordinary trap (the model's choice, log 159). The latches of lanes that
resume inside a clause are as the trap found them: the model's choice (log 52). -/
def Clause.TrapReturnCompletes : Prop :=
  (∀ g skip s, checkIssue g [] true s = .ok () → s.issuing &&& ~~~ s.curWarp.lane.inHandler = 0 →
    let pc := resumePc s s.cur.blk s.curWarp.trap skip
    exec (.trapret g skip) s = .next (advance (trapEnds s.cur.blk s.cur.warp (s.updWarp fun w =>
      ({ w with lane := leaveHandler s.issuing s.curWarp.trap w.lane }).resumeAt s.issuing pc
        (peekCode s s.cur.blk pc.hdr))))) ∧
  (∀ g skip s m, checkIssue g [] true s = .ok () → m = s.issuing &&& ~~~ s.curWarp.lane.inHandler → m ≠ 0 →
    exec (.trapret g skip) s = .next (raiseTrap (s.trapReq 0x01 m) s)) ∧
  (∀ s u (t : TrapState), (t.info.extractLsb' 24 8).toNat ∉ [0x1A, 0x21] →
    resumePc s u t false = { hdr := (t.pc.extractLsb' 0 32).toNat, idx := (t.pc.extractLsb' 32 4).toNat }) ∧
  (∀ (w : Warp) (m : Mask) (pc : Pc) h (i : Fin 3) (l : Fin 32), pc.idx ≠ 0 → m ≠ 0 →
    let x := (w.resumeAt m pc h).reg.lat[i]
    let y := if m.getLsbD l.val = true then w.trap.lat[i] else w.reg.lat[i]
    x.vals[l] = y.vals[l] ∧ x.life[l] = y.life[l]) ∧
  ∀ (m : Mask) (t : TrapState) (l : LaneState), (leaveHandler m t l).inHandler = l.inHandler &&& ~~~ m ∧
    (t.info.getLsbD 19 = true → (leaveHandler m t l).inMeld = l.inMeld ||| m ∧
      ∀ i : Fin 32, m.getLsbD i.val = true → (leaveHandler m t l).path.getLsbD i.val = t.path.getLsbD i.val)

/-- Traps that an instruction takes, and the return from a handler. -/
def Obligations.TrapsAndReturn : Prop := Clause.SoftwareTrapsComplete ∧ Clause.TrapReturnCompletes


/-- R451: TLBIR, TLBACK, ERRQ and ERRQ.log of a launch that is not of the secure world fault as privileged in the active
lanes. -/
def Obligations.PrivilegedFaults : Prop :=
  ∀ i g ops last s,
    ((∃ b n, i = .tlbir g b n none ∧ ops = [.zero, b, n] ∧ last = false) ∨
      (∃ b n a, i = .tlbir g b n (some a) ∧ ops = [.zero, b, n, a] ∧ last = false) ∨
      (i = .tlback g ∧ ops = [] ∧ last = true) ∨ (∃ d p, i = .errq g d p ∧ ops = [d] ∧ last = false) ∨
      ∃ d p, i = .errqLog g d p ∧ ops = [d] ∧ last = false) →
    checkIssue g ops last s = .ok () → s.active g ≠ 0 → s.curLaunch.desc.world = false →
    exec i s = .next (raiseTrap (s.trapReq 0x1B (s.active g)) s)

/-- R471, R249: TLBIR issues an invalidation to every holder of translations once the warp's earlier accesses are performed,
and TLBACK waits for those outstanding, or acquires when there is none. R472, R473: ERRQ delivers the oldest unread entry,
ERRQ.log the oldest event, and BBLOG sends a black-box entry. With no entry the words that the spec does not state are free, and the
free values move on: the model's choice (logs 56, 147). -/
def Obligations.SystemInstructionsComplete : Prop :=
  (∀ g base len asid s r,
    let qs : List SrcSpec := { op := base, n := 2, uni := true } :: opU len :: asid.toList.map opU
    let b := (r.at 0).pair ((lowest (s.active g)).getD 0)
    let n := (uval (s.active g) (r.w 1)).toNat
    let a : Option Nat := asid.map fun _ => (uval (s.active g) (r.w 2)).toNat % 2 ^ 16
    let t := written r [] s
    Ready g (opsOf .zero qs) qs [] s r → s.active g ≠ 0 → s.curLaunch.desc.world = true → n ≠ 0 → b.toNat % 65536 = 0 →
    s.curWarp.ord.tlbOps.length < 8 → s.curWarp.ord.ops = [] → warpPending s (fun _ => true) = false →
    exec (.tlbir g base len asid) s = .next (advance (State.updOrd
      (fun o => { o with tlbOps := o.tlbOps ++ [t.uidCtr] })
      { t with
        uidCtr := t.uidCtr + 1
        tlbInvs := AMap.set t.tlbInvs t.uidCtr ⟨s.cur.blk, s.cur.warp, b.toNat, n * 65536, a, allHolders⟩ }))) ∧
  (∀ g base len asid s r,
    let qs : List SrcSpec := { op := base, n := 2, uni := true } :: opU len :: asid.toList.map opU
    Ready g (opsOf .zero qs) qs [] s r → s.active g = 0 →
    exec (.tlbir g base len asid) s = .next (advance (written r [] s))) ∧
  (∀ g s, checkIssue g [] true s = .ok () → (s.active g ≠ 0 → s.curLaunch.desc.world = true) →
    exec (.tlback g) s = .next (advance (onActive g s (fun t => match s.curWarp.ord.tlbOps with
      | [] => acquireAt .sys s.cur.blk s.cur.warp t
      | l => t.updSplit fun sp => { sp with wait := .tlback l }) s))) ∧
  (∀ g d peek s r i e,
    let puts := errPuts d (s.active g) e.words
    Ready g [d] [] puts s r → (s.active g ≠ 0 → s.curLaunch.desc.world = true) →
    oldestFault (s.die s.curBlock.place.die) = some (i, e) →
    exec (.errq g d peek) s = .next (advance (if peek then written r puts s else onActive g s
      (fun t => t.updDie s.curBlock.place.die fun x => { x with
        fq := AMap.modify x.fq i fun e => { e with read := true } }) (written r puts s)))) ∧
  (∀ g d peek s r,
    let puts := errPuts d (s.active g) (noEntry s.freeCtr)
    Ready g [d] [] puts s r → (s.active g ≠ 0 → s.curLaunch.desc.world = true) →
    oldestFault (s.die s.curBlock.place.die) = none →
    exec (.errq g d peek) s = .next (advance
      { written r puts s with freeCtr := (written r puts s).freeCtr + 2 })) ∧
  (∀ g d peek s r e rest,
    let puts := errPuts d (s.active g) e
    Ready g [d] [] puts s r → (s.active g ≠ 0 → s.curLaunch.desc.world = true) →
    (s.die s.curBlock.place.die).errLog = e :: rest →
    exec (.errqLog g d peek) s = .next (advance (if peek then written r puts s else onActive g s
      (fun t => t.updDie s.curBlock.place.die fun x => { x with errLog := rest }) (written r puts s)))) ∧
  (∀ g d peek s r,
    let puts := errPuts d (s.active g) (noLog s.freeCtr)
    Ready g [d] [] puts s r → (s.active g ≠ 0 → s.curLaunch.desc.world = true) →
    (s.die s.curBlock.place.die).errLog = [] →
    exec (.errqLog g d peek) s = .next (advance
      { written r puts s with freeCtr := (written r puts s).freeCtr + 2 })) ∧
  ∀ g (code : BitVec 6) a s r, let qs : List SrcSpec := [{ op := a, n := 2, uni := true }]
    Ready g (opsOf .zero qs) qs [] s r → (s.active g ≠ 0 → s.curLaunch.lagers = true → lagerRoom s s.curCore 8 = true) →
    exec (.bblog g code a) s = .next (advance (onActive g s (emit s.curLaunch.lagers s.curCore
      (s.outItem (.bblog code.toNat s.curLaunch.desc.asid ((r.at 0).pair ((lowest (s.active g)).getD 0))) none none 0)) (written r [] s)))

/-! ### The command processor (R56 to R66, R75 to R83) -/

/-- R59, R61, R63, R64, R66: an entry at the head of a queue that may start is started and the head moves on: NOP and WAIT
do nothing more, SIGNAL raises its timeline, LAUNCH is accepted, GRAPH starts. R60: one that is refused halts its queue; that a malformed entry is refused through the step of its form, here
ENTRY_NOP's, is the model's choice (log 73). The
host's writes: a doorbell moves the tail, a skip resumes a halted queue past its entry, a control word and a timeline
value are taken. -/
def Clause.QueueEntriesStart : Prop :=
  (∀ die s c q e t, firstHead s die.val = some (c, q, .start e t) → e.kind = 0 →
    exec (.entryNop die) s = .next (headMoves c q t)) ∧
  (∀ die s c q e t, firstHead s die.val = some (c, q, .start e t) → e.kind = 3 →
    exec (.entryWait die) s = .next (headMoves c q t)) ∧
  (∀ die s c q e t, firstHead s die.val = some (c, q, .start e t) → e.kind = 4 →
    exec (.entrySignal die) s = .next (headMoves c q (raiseTimeline c e.tl e.value t))) ∧
  (∀ die s c q e t p, firstHead s die.val = some (c, q, .start e t) → e.kind = 1 → checkLaunch t c e.addr = .ok p →
    ∀ u, acceptLaunch c (.queue c q (((t.ctx c).queues[q]?.getD Queue.reset).head)) p = some u →
    exec (.entryLaunch die) s = .next (headMoves c q u)) ∧
  (∀ die s c q e t r, firstHead s die.val = some (c, q, .start e t) → e.kind = 1 → checkLaunch t c e.addr = .error r →
    r.wait = none → exec (.entryLaunch die) s =
      .next ((haltEarly c q r.status (noteRefuse c r t)).updDie die.val fun x => { x with rrCtx := c % 16 })) ∧
  (∀ die s c q e t u, firstHead s die.val = some (c, q, .start e t) → e.kind = 2 →
    startGraph c q (((t.ctx c).queues[q]?.getD Queue.reset).head) e t = .ok u →
    exec (.entryGraph die) s = .next (headMoves c q u)) ∧
  (∀ die s c q e t r, firstHead s die.val = some (c, q, .start e t) → e.kind = 2 →
    startGraph c q (((t.ctx c).queues[q]?.getD Queue.reset).head) e t = .error r → r.wait = none →
    exec (.entryGraph die) s =
      .next ((haltEarly c q r.status (noteRefuse c r t)).updDie die.val fun x => { x with rrCtx := c % 16 })) ∧
  (∀ die s c q st t, firstHead s die.val = some (c, q, .halt st 0 t) → exec (.entryNop die) s = .next (haltEarly c q st t)) ∧
  (∀ (ctx : Fin 64) (q : Fin 8) tail s, exec (.doorbell ctx q tail) s =
    .next (s.updCtx ctx.val fun x => { x with queues := vmod x.queues q.val fun y => { y with tail := tail } })) ∧
  (∀ (ctx : Fin 64) (q : Fin 8) s, exec (.skip ctx q) s =
    .next (s.updCtx ctx.val fun x => { x with queues := vmod x.queues q.val fun y => if y.halted then { y with
      head := if y.late then y.head else y.head + 1
      halted := false, late := false, status := 0, failAt := 0, fnode := 0xFFFF } else y })) ∧
  (∀ (ctx : Fin 64) secure v s, exec (.controlWordWrite ctx secure v) s = .next (writeControl ctx.val secure v s)) ∧
  ∀ (ctx : Fin 64) (n : Fin 16) v s, exec (.timelineValueWrite ctx n v) s = .next (raiseTimeline ctx.val n.val v s)

/-- R65, R67, R83, R481, R482: a launch whose blocks have all retired completes and raises its done timeline; one that is to fail
halts its queue or fails its node, with none of the steps of a completion (R482; what becomes of its frames is log 76, and its
black-box entry log 77); one that is to be replayed takes its snapshots back and waits again with every cluster. -/
def Clause.LaunchesEnd : Prop :=
  (∀ uid s la x, AMap.get? s.launches uid = some la → la.ending = none → la.waiting = [] →
    s.blocks.any (fun p => p.2.launch == uid) = false → outputLeft s uid = false → disarm uid s = some x →
    exec (.launchCompletion uid) s = .next (sourceDone la.source (raiseTimeline la.ctx la.desc.doneTl la.desc.doneValue
      (let t := leaveGang la (dropPlanes uid x)
       { t with launches := AMap.erase t.launches uid })))) ∧
  (∀ uid s la st, AMap.get? s.launches uid = some la → la.ending = some st → st ≠ Status.ok →
    let t := bbFailed la.die st la.desc.asid { s with launches := AMap.erase s.launches uid }
    exec (.launchFailure uid) s = .next (match la.source with
      | .queue c q e => haltLate c q e 0xFFFF st t
      | .node d gr n => endNode d gr n (some st) [] t)) ∧
  ∀ uid s la t m, AMap.get? s.launches uid = some la → la.ending = some Status.ok →
    s.inflight.any (fun o => (AMap.get? s.blocks o.blk).isNone) = false → restoreFrames la.frames s = some t →
    markCow true la.ptes { t with snapPool := t.snapPool ++ la.frames.map fun f => (f.2.1, f.2.2) } = some m →
    exec (.launchReplay uid) s = .next ((bbWrite la.die (bbEnt 0x0D 0 la.desc.asid 0 0 0) m).updLaunch uid fun x => { x with
      frames := [], ending := none, replays := x.replays + 1, popped := 0, phases := [], retired := [], asked := []
      flushed := [], waiting := List.range x.desc.nClusters })

/-- The command processor: entries start, launches end. -/
def Obligations.QueuesAndLaunches : Prop := Clause.QueueEntriesStart ∧ Clause.LaunchesEnd


/-- R69 to R79: a node that is ready and whose graph has not failed runs as its type says: a KERNEL node is accepted as a
launch, a COPY node becomes a request of a free engine, COND skips a branch, WHILE iterates or ends, WAITMSG waits for its
messages and takes them, SIGNAL raises or adds to its timeline, CALLBACK joins the firmware's queue. A verdict, or a budget
that is over, ends the call at the head; a failed graph ends when no node of it runs. The model's choices: WAITMSG takes its
messages at once (log 80); what an unknown predicate and a veto come to, and a post of a saved block (logs 81, 82, 150). -/
def Obligations.GraphNodesRun : Prop :=
  (∀ die gr node s g n p, s.graph? (die : Fin 4).val gr = some g → g.node? node = some n → g.failed = none → n.type = 0 →
    n.st = .ready → launchesOn s die.val < 64 → checkLaunch s g.ctx n.arg0 = .ok p →
    ∀ t, acceptLaunch g.ctx (.node die.val gr node) { p with st := nodeRuns die.val gr node p.st } = some t →
    exec (.kernelNode die gr node) s = .next t) ∧
  (∀ die gr node s g n r, s.graph? (die : Fin 4).val gr = some g → g.node? node = some n → g.failed = none → n.type = 0 →
    n.st = .ready → launchesOn s die.val < 64 → checkLaunch s g.ctx n.arg0 = .error r → r.wait = none →
    exec (.kernelNode die gr node) s =
      .next (endNode die.val gr node (some r.status) [] (noteRefuse g.ctx r s))) ∧
  (∀ die gr node s g n bs t core, s.graph? (die : Fin 4).val gr = some g → g.node? node = some n → g.failed = none →
    n.type = 1 → n.st = .ready → freeEngines s.free.2 die.val = [core] →
    walkRead g.ctx n.arg0.toNat 32 s.free.2 = .ok (bs, t) →
    let f := CopyF.of bs
    let o := newOp t.uidCtr default { owner := .node gr node, off := n.arg0.toNat, num := 0, n := 1, grow := none } bs
    (f.op = 0 ∨ f.op = 4 ∨ f.op = 8) → f.ssp = 0 → f.dsp = 0 → (copyPlan default [] f).isSome = true →
    exec (.copyNode die gr node) s = .next (nodeRuns die.val gr node ({ t with uidCtr := t.uidCtr + 1 }.updBody core fun x =>
      { x with copies := x.copies ++ [o] }))) ∧
  (∀ die gr node s g n bs t, s.graph? (die : Fin 4).val gr = some g → g.node? node = some n → g.failed = none → n.type = 2 →
    n.st = .ready → walkRead g.ctx n.arg0.toNat 4 s = .ok (bs, t) →
    exec (.condNode die gr node) s = .next (endNode die.val gr node none [if leNat bs = 0 then 1 else 0] t)) ∧
  (∀ die gr node s g n bs t, s.graph? (die : Fin 4).val gr = some g → g.node? node = some n → g.failed = none → n.type = 3 →
    (n.st = .ready ∨ n.st = .running ∧ g.bodyOver node n = true) → walkRead g.ctx n.arg0.toNat 4 s = .ok (bs, t) →
    exec (.whileNode die gr node) s = .next (if leNat bs = 0 then endNode die.val gr node none [] t
      else if n.limit ≠ 0 ∧ n.limit ≤ n.iters then endNode die.val gr node (some Status.loopLimit) [] t
      else t.updGraph die.val gr (Graph.iterate node n.aux))) ∧
  (∀ die gr node s g n, s.graph? (die : Fin 4).val gr = some g → g.node? node = some n → g.failed = none → n.type = 4 →
    n.st = .ready → mailWaited s die.val gr node n.aux = false →
    exec (.waitmsgNode die gr node) s = .next (nodeRuns die.val gr node s)) ∧
  (∀ die gr node s g n t, s.graph? (die : Fin 4).val gr = some g → g.node? node = some n → g.failed = none → n.type = 4 →
    n.st = .running → let box := AMap.getD (s.die die.val).mail n.aux []
    n.limit ≤ box.length →
    walkWrites g.ctx ((box.take n.limit).zipIdx.map fun m => (n.arg0.toNat + 256 * m.2, m.1.data)) s = .ok t →
    exec (.waitmsgNode die gr node) s = .next (endNode die.val gr node none [] (t.updDie die.val fun x =>
      { x with mail := AMap.set x.mail n.aux (box.drop n.limit) }))) ∧
  (∀ die gr node s g n, s.graph? (die : Fin 4).val gr = some g → g.node? node = some n → g.failed = none → n.type = 5 →
    n.st = .ready → exec (.signalNode die gr node) s = .next (endNode die.val gr node none []
      (if nbit n.aux 0 then addTimeline g.ctx n.tl n.arg0 s else raiseTimeline g.ctx n.tl n.arg0 s))) ∧
  (∀ die gr node s g n bs t, s.graph? (die : Fin 4).val gr = some g → g.node? node = some n → g.failed = none → n.type = 6 →
    n.st = .ready → walkRead g.ctx n.arg0.toNat 32 s = .ok (bs, t) → n.arg0.toNat % 32 = 0 → (CallF.of bs).ok = true →
    redrawOk g node (CallF.of bs) = true →
    ∀ u, applyVerdict die.val gr node bs .fault 2 t (setCall die.val gr node [] (nodeRuns die.val gr node t)) = some u →
    exec (.callbackNode die gr node) s = .next (if predKnown t (CallF.of bs).pred
      then setCall die.val gr node [.node gr node bs] (nodeRuns die.val gr node t) else u)) ∧
  (∀ die v s gr i desc rest t, (s.die (die : Fin 4).val).calls = .node gr i desc :: rest →
    s.now < (s.die die.val).callAt + 1024 * (CallF.of desc).budget →
    applyVerdict die.val gr i desc v (causeOf v) s (popCall die.val s) = some t →
    exec (.callbackVerdict die v) s = .next t) ∧
  (∀ die w s u off ctr num pred budget rest, (s.die (die : Fin 4).val).calls = .post u off ctr num pred budget :: rest →
    s.now < (s.die die.val).callAt + 1024 * budget → plainVerdict (.word w) = true → (s.block u).state ≠ .saved →
    let agent := engAgent (s.block u) 4 num
    let known := predKnown s pred
    exec (.postVerdict die (.word w)) s = .next (deliverTo u
      { id := 0, blk := u, num, srcDie := 6, world := false, addr := 0, doff := off, ctr
        data := toLe 4 (if known then w else 1).toNat, agent }
      (if known then popCall die.val s
       else noteStop die.val (s.launch (s.block u).launch).desc.asid agent (.word w) 2 (popCall die.val s)))) ∧
  (∀ die s gr i desc rest t, (s.die (die : Fin 4).val).calls = .node gr i desc :: rest →
    (s.die die.val).callAt + 1024 * (CallF.of desc).budget ≤ s.now →
    applyVerdict die.val gr i desc .fault 1 s (popCall die.val s) = some t →
    exec (.predicateBudgetOverrun die) s = .next t ∧ ∀ v, exec (.callbackVerdict die v) s ≠ .next t) ∧
  ∀ die gr s g node status, s.graph? (die : Fin 4).val gr = some g → g.failed = some (node, status) →
    (g.nodes.any fun p => p.2.st == .running) = false →
    exec (.graphFailure die gr) s = .next (haltLate g.ctx g.queue g.entry node status (bbFailed die.val status
      ((s.updDie die.val fun x => { x with graphs := AMap.erase x.graphs gr }).ctx g.ctx).asid.toNat
      (s.updDie die.val fun x => { x with graphs := AMap.erase x.graphs gr })))

/-! ### Placement, gangs and pre-emption (R67 to R79, R92 to R106) -/

/-- R86 to R97: the head cluster of a die is placed where it has room; a gang is armed, becomes ready when no
block of another holds its clusters, starts when its members are admitted, and is released. That a gang is admitted to in state 2 only, and starts when no more members
than it has are admitted, is the model's choice (logs 96, 86). -/
def Clause.PlacementAndGangs : Prop :=
  (∀ die s u k l, memberSpots s (die : Fin 4).val = none → headOn s die.val = some (u, k) → turnOn s u die.val = true →
    headSpots s u k = some l → exec (.placement die) s = .next (placeSpots u l s)) ∧
  (∀ die s u l, memberSpots s (die : Fin 4).val = some (u, l) → exec (.placement die) s = .next (placeSpots u l s)) ∧
  (∀ (ctx : Fin 64) (gang : Fin 4) s, exec (.arm ctx gang) s = .next (armGang ctx.val gang.val s) ∧
    exec (.release ctx gang) s = .next (releaseGang ctx.val gang.val s)) ∧
  (∀ (ctx : Fin 64) (gang : Fin 4) s, (s.gang ctx.val gang.val).state = 1 → strangers s ctx.val gang.val = [] →
    exec (.gangArmed ctx gang) s = .next (s.updGang ctx.val gang.val fun x => { x with state := 2 })) ∧
  ∀ (ctx : Fin 64) (gang : Fin 4) s m ms l rest,
    let x := s.gang ctx.val gang.val
    x.state = 2 → x.started = false → x.members ≤ x.admitted →
    ((membersOf s ctx.val gang.val).filter fun p => p.2.ending.isNone).take x.members = m :: ms →
    let asks := (m :: ms).flatMap fun p => p.2.waiting.map fun k => (p.1, waitingAsk s p.1 p.2 k)
    placeAll (baysFor s m.2) (asks.map Prod.snd) = some (l, rest) →
    exec (.gangAdmission ctx gang) s = .next (((m :: ms).foldl (fun s p =>
      placeSpots p.1 (((asks.zip l).filter fun a => a.1.1 == p.1).map Prod.snd) s) s).updGang ctx.val gang.val fun x =>
        { x with started := true })

/-- R100 to R113, R460: a request to pre-empt is made and answered, a block whose splits can all stop is saved, a flushed one goes back
to its launch, a saved group resumes where it has room; a non-preemptible region that has run 95,000 cycles overruns; an
in-field test opens, passes or takes its cluster out of use. That the entry of a failed test has a free type and when a test first
falls due is log 98, and that a failure ends the cluster's peer sets is log 99. -/
def Clause.PreemptionAndTests : Prop :=
  (∀ uid bound saveOnly s b, AMap.get? s.blocks uid = some b → b.preReq = none → requested s uid bound saveOnly = true →
    exec (.preEmptionRequest uid bound saveOnly) s = .next (preempt uid bound saveOnly s)) ∧
  (∀ uid bound saveOnly s b t, AMap.get? s.blocks uid = some b → b.preReq = some { bound, saveOnly } →
    regionOpen s (preGroup s uid) = false → answerRequest (preGroup s uid) bound saveOnly s = some t →
    exec (.preEmptionRequest uid bound saveOnly) s = .next t) ∧
  (∀ uid s b, AMap.get? s.blocks uid = some b → b.state = .saving → canSave b = true → drainFits s uid = true →
    let t := (withdrawFaults uid s).updBlock uid fun b => { b with warps := AMap.mapVals b.warps fun _ w => w.stop }
    let u := writeImage uid (workOf t uid) (drainBlock uid t)
    (saveRace t uid = none → exec (.save uid) s = .next (
      { u with cores := AMap.mapVals u.cores fun _ k => { k with body := k.body.without uid } }.updBlock uid fun b => { b with
        state := .saved, past := b.past ++ [(b.place, b.since, u.now)], work := workOf t uid })) ∧
    ∀ c q, saveRace t uid = some (c, q) → exec (.save uid) s = .next (raiseAt c q (dropNt t uid c.warp))) ∧
  (∀ uid s b, AMap.get? s.blocks uid = some b → b.state = .saved → b.unsent ≠ [] → lagerRoom s b.place.coreNo 1 = true →
    exec (.save uid) s = .next (sendImage uid s)) ∧
  (∀ uid s b, AMap.get? s.blocks uid = some b → b.state = .flushing →
    exec (.flush uid) s = .next (if (s.launch b.launch).hdr.cooperative || (s.launch b.launch).desc.gang
      then ((s.blocks.filter fun p => p.2.launch == b.launch && p.2.state == .flushing).map Prod.fst).foldl
        (fun s u => flushBlock u s) s
      else (discardBlock uid (drainBlock uid s)).updLaunch b.launch fun la => { la with
        waiting := insertNat b.place.lcluster la.waiting, flushed := insertNat b.place.index la.flushed })) ∧
  (∀ uid s b l, AMap.get? s.blocks uid = some b → canResume s (resumeGroup s uid) = true →
    (resumeGroup s uid).any (fun u => higherFits s (s.block u).place.die (prioOf s u)) = false → resumeSpots s (resumeGroup s uid) = some l →
    exec (.resume uid) s = .next ((l.flatMap Spot.places).foldl (fun s x => resumeBlock x.1 x.2 s) s)) ∧
  (∀ uid warp s, (s.warpOf uid warp).noPre = true → (s.warpOf uid warp).overrun = false →
    (s.warpOf uid warp).watchAt + 95000 ≤ s.now →
    exec (.nonPreemptibleOverrun uid warp) s = .next (s.updWarpOf uid warp fun w => { w with overrun := true })) ∧
  (∀ (die : Fin 4) (cluster : Fin 12) s n,
    let d := s.die die.val
    let r : TestRun := { cluster := cluster.val, from_ := s.now + deferral s die.val cluster.val, begun := false, open_ := false }
    d.tests.find? (fun t => t.cluster == cluster.val) = none → testDueAt d cluster.val = some n → n ≤ s.now →
    (0 < deferral s die.val cluster.val →
      exec (.inFieldTest die cluster) s = .next (s.updDie die.val (setTest cluster.val (some r)))) ∧
    ∀ t, deferral s die.val cluster.val = 0 → runTest die.val cluster.val r s = some t →
      exec (.inFieldTest die cluster) s = .next t) ∧
  (∀ (die : Fin 4) (cluster : Fin 12) s r t, (s.die die.val).tests.find? (fun t => t.cluster == cluster.val) = some r →
    r.open_ = false → r.from_ ≤ s.now → runTest die.val cluster.val r s = some t →
    exec (.inFieldTest die cluster) s = .next t) ∧
  (∀ (die : Fin 4) (cluster : Fin 12) s, testRuns s die.val cluster.val = true →
    exec (.clusterTestPass die cluster) s = .next (endTest die.val cluster.val s)) ∧
  ∀ (die : Fin 4) (cluster : Fin 12) s, testRuns s die.val cluster.val = true →
    let u := (endTest die.val cluster.val s).free
    let t := bbWrite die.val (bbEnt (u.1 % 256) 0 0 (agentCode false ⟨0, 0, die.val, 4 * cluster.val, 0⟩ 0 0) 0 0) u.2
    let mine := t.blocks.filter fun p => p.2.place.die == die.val && p.2.place.core / 4 == cluster.val
    exec (.clusterTestFailure die cluster) s = .next ((mine.foldl (fun s p => dropPeer p.1 s) t).updDie die.val fun d => { d with
      inUse := d.inUse &&& ~~~ (1#12 <<< cluster.val)
      clusters := vmod d.clusters cluster.val fun c => { c with peers := Vector.replicate 8 [] } })

/-- Clusters of blocks are placed, pre-empted and tested. -/
def Obligations.PlacementAndPreemption : Prop := Clause.PlacementAndGangs ∧ Clause.PreemptionAndTests


/-! ### Selection and the engines -/

/-- R167 to R170, R161, R265, R405, R471, R239: a selection starts the instructions that its sub-core chooses; a split whose
sleep is over goes on; an operation that can complete leaves the warp's count and makes the release that waited for it; a holder
of translations drops an invalidated range and then acknowledges it, the last ending the invalidation; a block leaves its peer set
once the window accesses to and from it that were made before are done. -/
def Clause.SelectionAndCompletions : Prop :=
  (∀ core (sub : Fin 4) s el cs,
    let done := (subSplits s core sub.val).filter fun c => waitDone s c.blk c.warp (s.splitOf c)
    let s1 := done.foldl (fun s c => endWait c s) s
    let ended := (subSplits s1 core sub.val).filter fun c => clauseEnded (s1.splitOf c)
    let voted := ended.foldl (fun s c => s.updWarpOf c.blk c.warp fun w => w.vote c.split) s1
    let s2 := readTlv (tlvDue core sub.val voted) voted
    choose s2 core sub.val = some (el, cs) →
    exec (.selection core sub) s =
      .next (startAll (freePorts s2 core sub.val) cs (clearYields core sub.val (passCounts el cs s2)))) ∧
  (∀ uid warp split s t, (s.splitOf ⟨uid, warp, split⟩).wait = .sleep t → t ≤ s.now →
    exec (.sleepEnd uid warp split) s = .next (s.updWarpOf uid warp fun w => w.settle split)) ∧
  (∀ uid warp op s o, ((AMap.getD (s.block uid).warps warp default).ord.ops.find? fun o => o.num == op) = some o →
    opEnds s uid warp o = true →
    let t := s.updWarpOf uid warp fun w => { w with ord := { w.ord with ops := w.ord.ops.erase o } }
    exec (.memoryOperationCompletion uid warp op) s = .next (sendArrivals uid warp (match o.rel with
      | some sc => releaseAt (.scope sc) uid warp t
      | none => t))) ∧
  (∀ op holder s x h, AMap.get? s.tlbInvs op = some x → (x.holders.find? fun h => h.1 == holder) = some (h, none) →
    exec (.tlbAcknowledge op holder) s = .next (dropRange holder x.base x.len x.asid { s with
      tlbInvs := AMap.set s.tlbInvs op { x with
        holders := x.holders.map fun h => if h.1 = holder then (holder, some s.instant) else h } })) ∧
  (∀ op holder s x h t, AMap.get? s.tlbInvs op = some x → (x.holders.find? fun h => h.1 == holder) = some (h, some t) →
    stillUsing s holder t = false →
    let rest := x.holders.filter fun h => h.1 != holder
    let u := { s with tlbInvs := AMap.set s.tlbInvs op { x with holders := rest } }
    exec (.tlbAcknowledge op holder) s = .next (if rest = [] then tlbDone op x.blk x.warp u else u)) ∧
  ∀ uid s o, (s.inflight.find? fun x => x.blk == uid && x.kind == .leave) = some o →
    (∀ x ∈ s.inflight ++ s.cores.flatMap fun p => p.2.lager, windowOf o.blk x = true → o.t < x.t) →
    exec (.leaveAcknowledge uid) s = .next (lasting o.blk (fun s => s.updBlock o.blk fun b => { b with
      warps := AMap.mapVals b.warps fun _ w => { w with splits := AMap.mapVals w.splits fun _ sp =>
        if sp.wait = .leave then { sp with wait := .none } else sp } })
      (dropPeer o.blk { s with inflight := s.inflight.erase o }))

/-- R240, R241, R290 to R297: an engine of a core moves one granule of one of its requests, or starts the next, by a
free choice among those that can; a request that has finished retires: its code is written to its descriptor and its
counter and timeline go on. -/
def Clause.CopyEnginesWork : Prop :=
  (∀ core s, ∀ p ∈ (copyKinds core).zipIdx,
    let l := (startCopy core p.2 s).toList ++ (workingOps s core p.2).filterMap fun o => copyStep core o s.free.2
    l ≠ [] → ∃ r ∈ l, exec p.1 s = .next r) ∧
  ∀ core op s o code u, ((s.core core).body.copies.find? fun o => o.id == op) = some o → o.finished = some code →
    o.kick.owner = .blk u → (s.block u).state ≠ .saved →
    exec (.requestRetirement core op) s = .next (retireCopy u o code
      (s.updBody core fun k => { k with copies := k.copies.filter fun x => x.id != op }))

/-- Selections, completions and the copy engines. -/
def Obligations.SelectionsAndCopies : Prop := Clause.SelectionAndCompletions ∧ Clause.CopyEnginesWork


/-- R305 to R317, R333 to R346, R370 to R375: at a dispatch point the first head of which something becomes is dispatched to
a free array, or retired; a running task ends with its results and waits for its commit, which retires each of its records;
a pending swap takes effect when the array is idle; a loaded plane is the shadow, tagged; the array's narrow mode follows the
alarm; an attention task starts, computes and commits. That each byte of a plane is as WBUF held it at some time of the load is a
free choice (log 67; for operands of a task, logs 108 and 109). -/
def Obligations.TaskEnginesWork : Prop :=
  (∀ (die : Fin 4) (cluster : Fin 12) s,
    let d := die.val
    let c := cluster.val
    let x := s.cluster d c
    let heads := (dispatchOrder x.rr).filter fun y => !(poppedNow s d c).contains y
    let note (f : Cluster → Cluster) (t : State) : State := t.updDie d fun y => { y with clusters := vmod y.clusters c f }
    dispatchNews s d c = true →
    ((isDispatchPoint x.seen (seenNow s d c) x.swapped = false ∨ firstHeadOf s (48 * d + 4 * c) heads = none) →
      exec (.dispatchPoint die cluster) s = .next (note (fun y => { y with seen := seenNow s d c, swapped := [] }) s)) ∧
    ∀ i q r v, isDispatchPoint x.seen (seenNow s d c) x.swapped = true →
      firstHeadOf s (48 * d + 4 * c) heads = some (i, q, r, v) →
      let t := note (fun y => { y with at_ := s.now, popped := (i, q) :: poppedNow s d c }) (popHead (48 * d + 4 * c + i) q s)
      (∀ code, v = .retire code → exec (.dispatchPoint die cluster) s =
        .next (r.all.foldl (fun s p => retireRecord r.blk p code 0 0 0 s) t)) ∧
      ∀ a, v = .dispatch a → exec (.dispatchPoint die cluster) s =
        .next (note (fun y => { y with rr := i }) (dispatchTo a r t))) ∧
  (∀ core s r, (s.core core).body.array.run = some r → (TileF.of r.task.bytes).type = 0 →
    exec (.mma core) s = .next (runMma core r s)) ∧
  (∀ core s r, (s.core core).body.array.run = some r → (TileF.of r.task.bytes).type = 1 →
    exec (.mtopk core) s = .next (runTopk core r s)) ∧
  (∀ core s r, (s.core core).body.array.run = some r → (TileF.of r.task.bytes).type = 2 →
    (∀ p, r.task.all[r.streamed]? = some p → recWaits s r.task.blk p.2.2 = true →
      exec (.raggedMma core) s = .next (setRun core { r with streamed := r.streamed + 1 } s)) ∧
    (r.task.all.length ≤ r.streamed → (∃ p ∈ r.task.all, (TileF.of p.2.2).close = true) →
      exec (.raggedMma core) s = .next (runMma core r s))) ∧
  (∀ core s r t, (s.core core).body.array.commits = r :: t →
    exec (.taskCommit core) s =
      .next (commitTask r (s.updBody core fun k => { k with array := { k.array with commits := t } }))) ∧
  (∀ core s, let a := (s.core core).body.array
    a.swapPending = true → a.loading = none → a.run = none →
    exec (.swapTakesEffect core) s = .next ((s.updBody core fun k => { k with array := { k.array with
      active := k.array.shadow, shadow := k.array.active, swapPending := false } }).updDie (core / 48) fun d =>
      { d with clusters := vmod d.clusters (clusterOf core) fun y => { y with swapped := core % 4 :: y.swapped } })) ∧
  (∀ core s u launch gen fw woff, let a := (s.core core).body.array
    let f := PlaneFmt.of fw
    let bytes := mixed s.free.1 a.shadow.bytes (match AMap.get? s.blocks u with
      | some b => b.wbuf.data.readN woff f.bytes
      | none => a.shadow.bytes)
    let bad := f.strict && planeBad f bytes
    let t := s.free.2.updBody core fun k => { k with array := { k.array with
      shadow := if bad then Plane.reset else { tag := some (launch, gen), fmt := fw, bytes := bytes }
      swapPending := k.array.swapPending && !bad, loading := none, strictSplit := none } }
    a.loading = some (u, launch, gen, fw, woff) →
    (a.strictSplit = none → exec (.planeLoadEnd core) s = .next t) ∧
    ∀ x, a.strictSplit = some x → exec (.planeLoadEnd core) s = .next (wakeLoad x bad t)) ∧
  (∀ core s k, (s.core core).body.array.narrow ≠ (s.die (core / 48)).mon.alarm → passEnds (s.core core).body = some k →
    exec (.narrowMode core) s = .next (s.updBody core fun _ => { k with
      array := { k.array with narrow := (s.die (core / 48)).mon.alarm } })) ∧
  (∀ core s x rest, (s.core core).body.attn = x :: rest → (s.core core).body.attnRun = none → x.stale = false →
    attnWaits s x = true → exec (.attentionTask core) s = .next (setAttn core AttnRun.fresh s)) ∧
  (∀ core s x rest r, (s.core core).body.attn = x :: rest → (s.core core).body.attnRun = some r → r.computed = false →
    r.waitSlot = none →
    (attnTakes (s.core core).body r = true → exec (.attentionTask core) s =
      .next (setAttn core { r with holds := true } (s.updBody core fun k =>
        { k with array := { k.array with narrow := (s.die (core / 48)).mon.alarm } }))) ∧
    (∀ t, attnTakes (s.core core).body r = false → attnReads x r = true → readKeys core x r s = some t →
      exec (.attentionTask core) s = .next t) ∧
    (r.holds = true → attnReads x r = false → exec (.attentionTask core) s = .next (formState core x r s))) ∧
  (∀ core s x rest r, (s.core core).body.attn = x :: rest → (s.core core).body.attnRun = some r → r.computed = true →
    exec (.attentionCommit core) s = .next (commitAttn core x r s)) ∧
  ∀ core s x rest, (s.core core).body.attn = x :: rest → (s.core core).body.attnRun = none → x.stale = true →
    attnWaits s x = true → exec (.attentionCommit core) s = .next (commitAttn core x (attnCode 1 0 x) s)

/-! ### Messages, collectives, the home of memory -/

/-- R429 to R442, R407 to R413: a message of another device arrives, or waits behind others for its receiver; a message or a participant of a collective that can go on does, by a free choice; an
acknowledgement counts its message down and completes its number on tl4; an item of output that can be performed is. Which of several reasons a refusal gives,
what a message of another device may do and how redelivered ones count are the model's choices (logs 112, 113, 115, 116, 118). -/
def Clause.MessagesAndHome : Prop :=
  (∀ (die : Fin 4) s, let l := (nextIngress s die.val).map (true, ·) ++ (nextMsgs s die.val).map (false, ·)
    l ≠ [] → ∃ p ∈ l, exec (.messageDelivery die none) s = .next (if p.1
      then fromIngress die.val p.2 { s with freeCtr := s.freeCtr + 1 }
      else fromTransit die.val p.2 { s with freeCtr := s.freeCtr + 1 })) ∧
  (∀ (die : Fin 4) (r : RemoteMsg) s, let d := die.val
    let m : Msg := { remoteMsg r with id := s.uidCtr }
    let t := { s with uidCtr := s.uidCtr + 1 }
    r.bytes ≠ [] → ownDevice s m.addr = true → faDie m.addr = d →
    let waits := isHeld t d m || (t.die d).ingress.any fun x => recvKey t d x == recvKey t d m
    (waits = false → exec (.messageDelivery die (some r)) s = .next (arriveMsg d m t)) ∧
    (waits = true → mayEnter t d m = true → exec (.messageDelivery die (some r)) s =
      .next (t.updDie d fun x => { x with ingress := x.ingress ++ [m] }))) ∧
  (∀ (r : RemoteMsg), let m := remoteMsg r
    m.data = r.bytes.take 256 ∧ m.addr = r.addr ∧ m.doff = r.doff.toNat ∧ m.ctr = r.ctr.val ∧ m.world = r.world) ∧
  (∀ msg s m code, (s.acks.find? fun p => p.1.id == msg) = some (m, code) →
    let t := { s with acks := s.acks.erase (m, code) }
    exec (.acknowledge msg) s = .next (lasting m.blk (fun s => s.updEng m.blk fun e => completeOn 4 m.num { e with
      inFlight := e.inFlight - 1
      fabFault := e.fabFault || code != 0
      fabCode := if code = 0 then e.fabCode else code }) (if code = 0 then t else
        bbWrite m.srcDie (bbEnt 0x0C 0 (s.launch (s.block m.blk).launch).desc.asid m.agent 0 (w64 code)) t))) ∧
  (∀ tag seq s, ∀ p ∈ (collEvents tag seq).zipIdx,
    let l := (s.colls.filter fun x => x.2.tag == tag && x.2.seq == seq && x.2.op == p.2).flatMap fun x =>
      x.2.parts.filterMap fun q => partStep x.1 x.2 q s
    l ≠ [] → ∃ t ∈ l, exec p.1 s = .next { t with freeCtr := t.freeCtr + 1 }) ∧
  ∀ s, let l := (readyItems [] s.inflight).filterMap fun o => performItem o s
    l ≠ [] → ∃ t ∈ l, exec .storePerformedAtHome s = .next { t with freeCtr := t.freeCtr + 1 }

/-- R252, R258, R457: FSHARE shares, breaks or answers for a leaf, and OVFADD gives the die 4,096 overflow pages, each only
when a secure agent writes; a verdict that firmware writes for a slot that has been read answers its poster. -/
def Clause.FirmwareWrites : Prop :=
  (∀ die v s, exec (.fshareHi die false v) s = .next s ∧ exec (.ovfadd die false v) s = .next s) ∧
  (∀ (die : Fin 4) v s t, fshareHeld die.val v s = false → fshareStart die.val v s = some t → exec (.fshareHi die true v) s = .next t) ∧
  (∀ (die : Fin 4) (v : Word) s, exec (.ovfadd die true v) s = .next (s.updDie die.val fun x => { x with
    ovfPool := x.ovfPool ++ (List.range 4096).map fun i => v.toNat * 2 ^ 20 + 256 * i, ovfWait := false })) ∧
  (∀ (die : Fin 4) s pte frame e t, (s.die die.val).fsh.pte = some (pte, frame, e) →
    let lg := if nbits (s.die die.val).fsh.hi.toNat 20 2 = 0 then 16 else 21
    spanHeld s (nbits e 12 36 * 2 ^ 16) (2 ^ lg) = false → spanHeld s pte 8 = false →
    ∀ u, copyPage (nbits e 12 36 * 2 ^ 16) frame (2 ^ lg) s = some u →
    performBytes u (at_ pte (toLe 8 (e % 2 ^ 12 + frame / 2 ^ 16 * 2 ^ 12))) = some t →
    exec (.fshareOperationEnd die) s = .next (t.updDie die.val fun x => { x with
      fsh := { x.fsh with busy := false, outcome := 1, pte := none } })) ∧
  ∀ (die : Fin 4) (slot : Fin 64) s e, AMap.get? (s.die die.val).fq slot.val = some e → e.read = true →
    exec (.fqrespRetry die slot) s = .next (answerFault die.val slot.val 0 s) ∧
    exec (.fqrespDeliver die slot) s = .next (answerFault die.val slot.val 1 s) ∧
    exec (.fqrespFail die slot) s = .next (answerFault die.val slot.val 2 s)

/-- Messages, collectives, performed stores, and what firmware writes. -/
def Obligations.MessagesMemoryFirmware : Prop := Clause.MessagesAndHome ∧ Clause.FirmwareWrites


/-! ### Epochs, errors and the package -/

/-- R407, R410, R414 to R420, R462 to R467: at the last cycle of an epoch every core's output leaves it and the next epoch
begins, unless a pair of accesses races: then the region of the core rolls back, as it does for a strike or, in a paired
launch, a shadow that does not match. The instant and the order of what leaves at a boundary, the checkpoint that is restored,
and what the entries of a rollback hold are the model's choices (logs 121, 123 to 129); so is how far a shadow warp has come (log
167). -/
def Obligations.EpochsAndRollback : Prop :=
  (∀ s t, s.now % 1024 = 1023 → leaveAll s = .ok t → exec .epochBoundary s =
    .next (beginEpoch (s.epoch + 1) (retireBlocks (changesLeave { t with freeCtr := t.freeCtr + 1 })))) ∧
  (∀ s r, s.now % 1024 = 1023 → leaveAll s = .error r → exec .raceCheckAtHome s =
    .next (rollback (region (s.updWarpOf r.item.blk r.item.warp fun w =>
      { w with recheck := (r.watch :: w.recheck).eraseDups }) r.core) (coreAgent r.core)
      (s.updWarpOf r.item.blk r.item.warp fun w => { w with recheck := (r.watch :: w.recheck).eraseDups }))) ∧
  (∀ (die : Fin 4) (c : Fin 48) cluster s, let core := 48 * die.val + c.val
    let u := bbWrite die.val (bbEnt 0x04 0 0 (coreAgent core) 0 0) s
    let t := logError die.val 3 (w32 c.val) (w64 u.now) u
    exec (.strike die (some c) cluster) s = .next (rollback (region t core) (coreAgent core) t)) ∧
  (∀ (die : Fin 4) (cluster : Fin 12) s, let core := 48 * die.val + 4 * cluster.val
    let u := bbWrite die.val (bbEnt 0x04 1 0 (coreAgent core) 0 0) s
    exec (.strike die none cluster) s = .next (rollback (clusterCores core) (coreAgent core)
      (logError die.val 3 (w32 (0x100 + cluster.val)) (w64 u.now) u))) ∧
  ∀ uid warp s b w, AMap.get? s.blocks uid = some b → b.state ≠ .saved → AMap.get? b.warps warp = some w →
    (s.launch b.launch).hdr.paired = true → w.shadow ≠ [] →
    let u := bbWrite b.place.die (bbEnt 0x10 0 (s.launch b.launch).desc.asid (warpAgent b warp) 0 0) s
    let t := logError b.place.die 4 (w32 b.place.core) (w64 u.now) u
    exec (.shadowMismatch uid warp) s = .next (rollback (region t b.place.coreNo) (coreAgent b.place.coreNo) t)

/-- R485 to R496: the alarm rises and falls with its causes, a die at 120 degrees stops, main power loss leaves no state of the device;
boot (R488: an image that is not in order is refused), the link's states, a port that goes down, a recovery and the accesses of the
host, its own writes of its memory among them. What a register page takes,
when the link goes down of its own, how an image's body is read, and when an interrupt reaches the host are the model's choices
(logs 10, 130, 131, 132, 133, 140, 161, 165). -/
def Obligations.PackageEvents : Prop :=
  (∀ (die : Fin 4) temp vmon board s, let m := (s.die die.val).mon.read temp vmon board
    m.alarm = false → tooHot m = false → alarmCause m = true → exec (.powerAlarmRise die temp vmon board) s = .next (sendIrq 66 (bbWrite die.val
      (bbEnt 0x09 0 0 (agentCode false ⟨0, 0, die.val, 0, 0⟩ 0 0) 0 0) (s.updDie die.val fun d =>
        { d with mon := { m with alarm := true } })))) ∧
  (∀ (die : Fin 4) temp vmon board s, let m := (s.die die.val).mon.read temp vmon board
    m.alarm = true → alarmCause m = false → cooled m = true →
    exec (.powerAlarmFall die temp vmon board) s =
      .next (s.updDie die.val fun d => { d with mon := { m with alarm := false } })) ∧
  (∀ (die : Fin 4) (cluster : Fin 12) temp s, 120 * 16 ≤ tempOf temp →
    exec (.thermalShutdown die cluster temp) s = .next (freeze die.val ((settleAlarm die.val (s.updDie die.val fun d =>
      { d with mon := { d.mon with temp := d.mon.temp.set cluster temp } })).updDie die.val fun d => { d with stopped := true }))) ∧
  (∀ s, exec .mainPowerLoss s = .next (powerCycled s) ∧ (powerCycled s).dies = [] ∧ (powerCycled s).booted = false ∧
    ∀ a < 0x8000000000000, (powerCycled s).mem.read a = 0) ∧
  (∀ image s, s.booted = false → s.gnl.bootFail = false → exec (.boot image) s = .next (if imageOk image
    then
      let img := Config.imageBody (image.drop 784)
      let areas := img.records.map fun (r : Nat × Nat × Nat) => ({ base := r.1, size := r.2.1, recs := r.2.2 } : RecArea)
      sendIrq 68 (areas.foldl (fun s r => coverArea r s) ((List.range 4).foldl (fun s d => s.updDie d (bootDie img d))
        { s with booted := true, fabid := img.fabid.setWidth 32, imageSha := shaNat image, image := img, recAreas := areas }))
    else { s with gnl := { s.gnl with bootFail := true } })) ∧
  (∀ image : List Byte, (image.length < 784 ∨ leNat (image.take 4) ≠ 0x49474D4B ∨ leNat ((image.drop 4).take 4) ≠ 1 ∨
    leNat ((image.drop 8).take 4) ≠ image.length - 784 ∨ leNat ((image.drop 12).take 4) ≠ 0 ∨
    shaNat ((image.drop 16).take 384) ≠ Config.romKeyHash) → imageOk image = false) ∧
  (∀ s, s.gnl.state = 0 → exec .gnlTrain s = .next { s with gnl := { s.gnl with state := 1, since := s.now } }) ∧
  (∀ (lanes : BitVec 6) s, (s.gnl.state = 1 ∨ s.gnl.state = 3) → (lanes = 16 ∨ lanes = 32) →
    let t := { s with gnl := { s.gnl with state := 2, since := s.now, lanes := lanes.toNat, recovering := false } }
    exec (.gnlActive lanes) s = .next (if s.gnl.recovering then sendIrq 67 (linkServes t) else linkServes t)) ∧
  (∀ s, s.gnl.state = 2 → exec .gnlRetrain s = .next (linkEvent 0 { s with gnl := { s.gnl with
    state := 3, since := s.now, retrains := min 255 (s.gnl.retrains + 1) } })) ∧
  (∀ s, (s.gnl.state = 1 ∨ s.gnl.state = 3) → s.gnl.since + 95000 < s.now →
    exec .gnlDown s = .next (linkEvent 0 { s with gnl := dropMirrors { s.gnl with state := 4, since := s.now, lanes := 0 } })) ∧
  (∀ n s, 1900 ≤ n → s.gnl.state = 4 → s.gnl.holdDown = false → exec (.gnlWakeN n) s =
    .next (bbWrite 0 (bbEnt 0x08 0 0 0 0 0) { s with gnl := { s.gnl with state := 0, since := s.now, recovering := true } })) ∧
  (∀ s, exec (.recover true) s = .next (gnlRecover s) ∧ exec (.recover false) s = .next s) ∧
  (∀ (p : Fin 12) s, s.ports.getLsbD p.val = true →
    exec (.portDown p) s = .next (linkEvent (p.val / 3) { s with ports := s.ports &&& ~~~ (1#12 <<< p.val) })) ∧
  (∀ (ctx : Fin 64) off secure v s, s.gnl.state = 2 → off.toNat % 8 = 0 →
    exec (.hostAccess (.pageWrite ctx off secure v)) s = .next (writePage ctx.val off.toNat secure v s)) ∧
  (∀ pa bs s, exec (.hostAccess (.ownWrite pa bs)) s = .next { s with
    mem := s.mem.writeAll ((at_ pa bs).filter fun p => isHost s p.1) }) ∧
  (∀ pa secure bs s t, s.gnl.state = 2 → windowReach s pa bs.length = true → hostWrite pa secure bs s = some t →
    exec (.hostAccess (.memWrite pa secure bs)) s = .next t) ∧
  (∀ (ctx : Fin 64) off s, s.gnl.state = 2 → off.toNat % 8 = 0 → exec (.hostAccess (.pageRead ctx off)) s =
    .next { s with page := { s.page with answer := toLe 8 (readPage s ctx.val off.toNat).toNat } }) ∧
  (∀ pa n secure s, s.gnl.state = 2 → windowReach s pa n = true → (secure = true ∨ secureByte s pa n = none) →
    exec (.hostAccess (.memRead pa n secure)) s = .next { s with page := { s.page with answer := s.mem.readN pa n } }) ∧
  (∀ pa n x s, s.gnl.state = 2 → windowReach s pa n = true → secureByte s pa n = some x →
    exec (.hostAccess (.memRead pa n false)) s = .next (hostWorldFault x s)) ∧
  (∀ s, s.gnl.state = 2 →
    let told (bs : List Byte) : State := { s with page := { s.page with answer := bs } }
    exec (.hostAccess .gnlstRead) s = .next (told (toLe 4 (gnlst s.gnl))) ∧
    exec (.hostAccess .reportRead) s = .next (told ((s.page.report.map Report.bytes).getD [])) ∧
    (∀ n, let v := AMap.getD s.page.vectors n.val (0, 0)
      exec (.hostAccess (.vectorRead n)) s = .next (told (toLe 8 v.1.toNat ++ toLe 4 v.2.toNat))) ∧
    (∀ n addr data, exec (.hostAccess (.vectorWrite n addr data)) s = .next { s with page := { s.page with
      vectors := AMap.set s.page.vectors n.val (addr, data) } }) ∧
    ∀ nonce, ∃ t, exec (.hostAccess (.nonceWrite nonce)) s = .next t ∧ t.page.nonce = nonce ∧ ∃ r, t.page.report = some r ∧
      r.nonce = nonce ∧ r.image = s.imageSha ∧ r.fabid = s.fabid ∧ r.key = identityHash) ∧
  ∀ (c : Fin 64) s, let x := s.ctx c.val
    readPage s c.val 0 = w64 ((!quiescent s c.val).toNat * 2 ^ 18 + x.valid.toNat * 2 ^ 17 + x.world.toNat * 2 ^ 16 + x.asid.toNat)
end

