-- ==== Sys2Proof/Laws/Maps.lean ====
section
/-!
SUPPORT. The laws of maps by number and of lane masks: reading after setting, changing and erasing.
-/

namespace Sys2Proof.Machine

variable {α : Type}

/-! ### Setting -/

@[simp] theorem AMap.get?_set_same (m : AMap α) (k : Nat) (a : α) : AMap.get? (AMap.set m k a) k = some a := by
  induction m with
  | nil => simp [AMap.set, AMap.get?]
  | cons p t ih =>
    obtain ⟨j, b⟩ := p
    simp only [AMap.set]
    split
    · rw [AMap.get?, if_neg (by omega), ih]
    · split <;> simp [AMap.get?]

theorem AMap.get?_set_other (m : AMap α) {k j : Nat} (a : α) (h : j ≠ k) :
    AMap.get? (AMap.set m k a) j = AMap.get? m j := by
  induction m with
  | nil => simp [AMap.set, AMap.get?, h.symm]
  | cons p t ih =>
    obtain ⟨i, b⟩ := p
    simp only [AMap.set]
    split
    · simp only [AMap.get?, ih]
    · split
      · next hi => subst hi; simp [AMap.get?, h.symm]
      · simp [AMap.get?, h.symm]

theorem AMap.get?_set (m : AMap α) (k j : Nat) (a : α) :
    AMap.get? (AMap.set m k a) j = if j = k then some a else AMap.get? m j := by
  split
  · next h => subst h; exact AMap.get?_set_same m j a
  · next h => exact AMap.get?_set_other m a h

@[simp] theorem AMap.getD_set_same (m : AMap α) (k : Nat) (a d : α) : AMap.getD (AMap.set m k a) k d = a := by
  simp [AMap.getD]

theorem AMap.getD_set_other (m : AMap α) {k j : Nat} (a d : α) (h : j ≠ k) :
    AMap.getD (AMap.set m k a) j d = AMap.getD m j d := by
  simp [AMap.getD, AMap.get?_set_other m a h]

/-! ### Changing -/

theorem AMap.get?_modify (m : AMap α) (k j : Nat) (f : α → α) :
    AMap.get? (AMap.modify m k f) j = if j = k then (AMap.get? m k).map f else AMap.get? m j := by
  induction m with
  | nil => simp [AMap.modify, AMap.get?]
  | cons p t ih =>
    obtain ⟨i, b⟩ := p
    by_cases h : i = k
    · subst h
      by_cases hj : j = i
      · subst hj; simp [AMap.modify, AMap.get?]
      · simp [AMap.modify, AMap.get?, hj, Ne.symm hj]
    · by_cases hj : j = k
      · subst hj; simp_all [AMap.modify, AMap.get?]
      · simp [AMap.modify, AMap.get?, h, ih, hj]

@[simp] theorem AMap.get?_modify_same (m : AMap α) (k : Nat) (f : α → α) :
    AMap.get? (AMap.modify m k f) k = (AMap.get? m k).map f := by
  simp [AMap.get?_modify]

theorem AMap.get?_modify_other (m : AMap α) {k j : Nat} (f : α → α) (h : j ≠ k) :
    AMap.get? (AMap.modify m k f) j = AMap.get? m j := by
  simp [AMap.get?_modify, h]

theorem AMap.getD_modify_other (m : AMap α) {k j : Nat} (f : α → α) (d : α) (h : j ≠ k) :
    AMap.getD (AMap.modify m k f) j d = AMap.getD m j d := by
  simp [AMap.getD, AMap.get?_modify_other m f h]

theorem AMap.getD_modify_of {m : AMap α} {k : Nat} {a : α} (f : α → α) (d : α) (h : AMap.get? m k = some a) :
    AMap.getD (AMap.modify m k f) k d = f a := by
  simp [AMap.getD, h]

theorem AMap.getD_of {m : AMap α} {k : Nat} {a : α} (d : α) (h : AMap.get? m k = some a) : AMap.getD m k d = a := by
  simp [AMap.getD, h]

@[simp] theorem AMap.get?_mapVals (m : AMap α) (f : Nat → α → α) (k : Nat) :
    AMap.get? (AMap.mapVals m f) k = (AMap.get? m k).map (f k) := by
  induction m with
  | nil => simp [AMap.mapVals, AMap.get?]
  | cons p t ih =>
    obtain ⟨i, b⟩ := p
    by_cases h : i = k
    · subst h; simp [AMap.mapVals, AMap.get?]
    · have e : AMap.mapVals ((i, b) :: t) f = (i, f i b) :: AMap.mapVals t f := rfl
      rw [e, AMap.get?, if_neg h, AMap.get?, if_neg h, ih]

/-- Erasing another key leaves an entry alone. -/
theorem AMap.get?_erase_other (m : AMap α) {k j : Nat} (h : j ≠ k) : AMap.get? (AMap.erase m k) j = AMap.get? m j := by
  induction m with
  | nil => rfl
  | cons p t ih =>
    obtain ⟨i, b⟩ := p
    simp only [AMap.erase]
    split
    · next hi => subst hi; simp [AMap.get?, h.symm]
    · simp only [AMap.get?, ih]

/-- A filter by keys keeps the entries of the keys it keeps. -/
theorem AMap.get?_filter (m : AMap α) (f : Nat → Bool) (k : Nat) :
    AMap.get? (m.filter fun p => f p.1) k = if f k then AMap.get? m k else none := by
  induction m with
  | nil => simp [AMap.get?]
  | cons p t ih =>
    obtain ⟨i, b⟩ := p
    by_cases hf : f i
    · rw [List.filter_cons_of_pos (by simpa using hf)]
      by_cases h : i = k
      · subst h; simp [AMap.get?, hf]
      · simp only [AMap.get?, h, if_false, ih]
    · rw [List.filter_cons_of_neg (by simpa using hf), ih]
      by_cases h : i = k
      · subst h; simp [hf]
      · simp [AMap.get?, h]

/-! ### Vectors by number -/

@[simp] theorem vmod_eq {n : Nat} (v : Vector α n) (i : Nat) (f : α → α) (h : i < n) : vmod v i f = v.set i (f v[i]) := by
  simp [vmod, h]

theorem vmod_out {n : Nat} (v : Vector α n) (i : Nat) (f : α → α) (h : n ≤ i) : vmod v i f = v := by
  simp [vmod, Nat.not_lt.mpr h]

@[simp] theorem tab_get (f : Fin 32 → α) (l : Fin 32) : (tab f)[l] = f l := by
  simp [tab]

@[simp] theorem tab_getNat (f : Fin 32 → α) (i : Nat) (h : i < 32) : (tab f)[i] = f ⟨i, h⟩ := by
  simp [tab]

@[simp] theorem blend_get (m : Mask) (a b : Lanes α) (l : Fin 32) : (blend m a b)[l] = if has m l then b[l] else a[l] := by
  simp [blend]

/-! ### Masks -/

theorem has_ext {a b : Mask} (h : ∀ l : Fin 32, has a l = has b l) : a = b := by
  apply BitVec.eq_of_getLsbD_eq
  intro i hi
  exact h ⟨i, hi⟩

@[simp] theorem has_and (a b : Mask) (l : Fin 32) : has (a &&& b) l = (has a l && has b l) := by simp [has]

@[simp] theorem has_or (a b : Mask) (l : Fin 32) : has (a ||| b) l = (has a l || has b l) := by simp [has]

@[simp] theorem has_not (a : Mask) (l : Fin 32) : has (~~~ a) l = !has a l := by simp [has, l.isLt]

@[simp] theorem has_zero (l : Fin 32) : has 0 l = false := by simp [has]

/-- The mask of one lane. -/
theorem has_shift : ∀ a l : Fin 32, has (1#32 <<< a.val) l = (l == a) := by decide

@[simp] theorem has_one (a l : Fin 32) : has (one_ a) l = (l == a) := has_shift a l

/-- A lane is in the mask of a test when it is there before or is among those tested and passes. -/
theorem has_maskFold (f : Fin 32 → Bool) (ls : List (Fin 32)) (m : Mask) (l : Fin 32) :
    has (ls.foldl (fun m l => if f l then m ||| (1#32 <<< l.val) else m) m) l =
      (has m l || (ls.contains l && f l)) := by
  induction ls generalizing m with
  | nil => simp
  | cons a t ih =>
    rw [List.foldl_cons, ih, List.contains_cons]
    by_cases e : l = a
    · subst e; by_cases hf : f l <;> simp [hf, has_shift]
    · have h : (l == a) = false := by simpa using e
      by_cases hf : f a <;> simp [hf, has_shift, h]

theorem mem_lanes32 (l : Fin 32) : l ∈ lanes32 := List.mem_finRange l

@[simp] theorem has_maskOf (f : Fin 32 → Bool) (l : Fin 32) : has (maskOf f) l = f l := by
  unfold maskOf
  rw [has_maskFold]
  simp [mem_lanes32, has]

theorem mem_lanesOf (m : Mask) (l : Fin 32) : l ∈ lanesOf m ↔ has m l = true := by
  simp [lanesOf, mem_lanes32]

end Sys2Proof.Machine
end

