-- ==== Sys2Proof/Laws/Memory.lean ====
section
/-!
SUPPORT. The laws of byte memories: what is read after a write, and that every operation keeps the canonical form.
-/

namespace Sys2Proof.Machine

/-! ### The canonical form -/

theorem Mem.wfFrom_weaken {lo hi : Nat} (h : lo ≤ hi) {m : Mem} (w : Mem.wfFrom hi m = true) : Mem.wfFrom lo m = true := by
  cases m with
  | nil => rfl
  | cons p t =>
    simp only [Mem.wfFrom, Bool.and_eq_true, decide_eq_true_eq] at w ⊢
    exact ⟨⟨Nat.le_trans h w.1.1, w.1.2⟩, w.2⟩

theorem Mem.wfFrom_set {lo : Nat} {m : Mem} (w : Mem.wfFrom lo m = true) {a : Nat} (ha : lo ≤ a) {b : Byte}
    (hb : b ≠ Mem.unlisted) : Mem.wfFrom lo (AMap.set m a b) = true := by
  induction m generalizing lo with
  | nil => simp [AMap.set, Mem.wfFrom, ha, hb]
  | cons p t ih =>
    obtain ⟨j, c⟩ := p
    simp only [Mem.wfFrom, Bool.and_eq_true, decide_eq_true_eq] at w
    simp only [AMap.set]
    split
    · next h => simp [Mem.wfFrom, w.1.1, w.1.2, ih w.2 (by omega : j + 1 ≤ a)]
    · split
      · next h => subst h; simp [Mem.wfFrom, w.1.1, hb, w.2]
      · next h1 h2 =>
        have : a + 1 ≤ j := by omega
        simp [Mem.wfFrom, ha, hb, this, w.1.2, w.2]

theorem Mem.wfFrom_erase {lo : Nat} {m : Mem} (w : Mem.wfFrom lo m = true) (a : Nat) :
    Mem.wfFrom lo (AMap.erase m a) = true := by
  induction m generalizing lo with
  | nil => rfl
  | cons p t ih =>
    obtain ⟨j, c⟩ := p
    simp only [Mem.wfFrom, Bool.and_eq_true, decide_eq_true_eq] at w
    simp only [AMap.erase]
    split
    · exact Mem.wfFrom_weaken (by omega) w.2
    · simp [Mem.wfFrom, w.1.1, w.1.2, ih w.2]

/-- Writing a byte keeps the canonical form. -/
theorem Mem.wf_write {m : Mem} (w : m.wf = true) (a : Nat) (b : Byte) : (m.write a b).wf = true := by
  unfold Mem.write
  split
  · exact Mem.wfFrom_erase w a
  · next h => exact Mem.wfFrom_set w (Nat.zero_le a) h

/-- Writing any list of bytes keeps the canonical form. -/
theorem Mem.wf_writeAll {m : Mem} (w : m.wf = true) (l : List (Nat × Byte)) : (m.writeAll l).wf = true := by
  unfold Mem.writeAll
  induction l generalizing m with
  | nil => exact w
  | cons p t ih => exact ih (Mem.wf_write w p.1 p.2)

/-- Keeping some of the entries keeps the canonical form. -/
theorem Mem.wfFrom_filter {lo : Nat} {m : Mem} (w : Mem.wfFrom lo m = true) (f : Nat × Byte → Bool) :
    Mem.wfFrom lo (List.filter f m) = true := by
  induction m generalizing lo with
  | nil => rfl
  | cons p t ih =>
    obtain ⟨j, c⟩ := p
    simp only [Mem.wfFrom, Bool.and_eq_true, decide_eq_true_eq] at w
    by_cases hf : f (j, c) = true
    · rw [List.filter_cons_of_pos hf]
      simp only [Mem.wfFrom, Bool.and_eq_true, decide_eq_true_eq]
      exact ⟨w.1, ih w.2⟩
    · rw [List.filter_cons_of_neg hf]
      exact Mem.wfFrom_weaken (by omega) (ih w.2)

theorem Mem.wf_filter {m : Mem} (w : m.wf = true) (f : Nat × Byte → Bool) : Mem.wf (List.filter f m) = true :=
  Mem.wfFrom_filter w f

/-- Copying a page keeps the canonical form. -/
theorem Mem.wf_copyRange {m : Mem} (w : m.wf = true) (src dst n : Nat) : (m.copyRange src dst n).wf = true := by
  unfold Mem.copyRange
  exact Mem.wf_writeAll (Mem.wf_filter w _) _

/-! ### Reading after writing -/

theorem Mem.get?_below {lo a : Nat} {m : Mem} (w : Mem.wfFrom lo m = true) (h : a < lo) : AMap.get? m a = none := by
  induction m generalizing lo with
  | nil => rfl
  | cons p t ih =>
    obtain ⟨j, c⟩ := p
    simp only [Mem.wfFrom, Bool.and_eq_true, decide_eq_true_eq] at w
    rw [AMap.get?, if_neg (by omega)]
    exact ih w.2 (by omega)

theorem Mem.get?_erase_same {lo : Nat} {m : Mem} (w : Mem.wfFrom lo m = true) (a : Nat) :
    AMap.get? (AMap.erase m a) a = none := by
  induction m generalizing lo with
  | nil => rfl
  | cons p t ih =>
    obtain ⟨j, c⟩ := p
    simp only [Mem.wfFrom, Bool.and_eq_true, decide_eq_true_eq] at w
    simp only [AMap.erase]
    split
    · next h => exact Mem.get?_below w.2 (by omega)
    · next h => rw [AMap.get?, if_neg h]; exact ih w.2

/-- A byte that is written reads back. -/
theorem Mem.read_write_same {m : Mem} (w : m.wf = true) (a : Nat) (b : Byte) : (m.write a b).read a = b := by
  unfold Mem.write Mem.read AMap.getD
  split
  · next h => rw [Mem.get?_erase_same w, h]; rfl
  · rw [AMap.get?_set_same]; rfl

/-- A write leaves every other byte alone. -/
theorem Mem.read_write_other (m : Mem) {a c : Nat} (b : Byte) (h : c ≠ a) : (m.write a b).read c = m.read c := by
  unfold Mem.write Mem.read AMap.getD
  split
  · rw [AMap.get?_erase_other m h]
  · rw [AMap.get?_set_other m b h]

/-- Writing bytes leaves every address alone that is not among them. -/
theorem Mem.read_writeAll_other (m : Mem) {c : Nat} (l : List (Nat × Byte)) (h : ∀ p ∈ l, p.1 ≠ c) :
    (m.writeAll l).read c = m.read c := by
  unfold Mem.writeAll
  induction l generalizing m with
  | nil => rfl
  | cons p t ih =>
    rw [List.foldl_cons, ih _ fun q hq => h q (List.mem_cons_of_mem _ hq)]
    exact Mem.read_write_other m p.2 fun e => h p List.mem_cons_self e.symm

/-- The last byte written at an address is what is read there. -/
theorem Mem.read_writeAll_last {m : Mem} (w : m.wf = true) (l : List (Nat × Byte)) (a : Nat) (b : Byte) :
    (m.writeAll (l ++ [(a, b)])).read a = b := by
  unfold Mem.writeAll
  rw [List.foldl_append]
  exact Mem.read_write_same (Mem.wf_writeAll w l) a b

/-- A memory that lists nothing has the canonical form. -/
theorem Mem.wf_nil : Mem.wf [] = true := rfl

end Sys2Proof.Machine
end

