-- ==== Sys2Proof/Laws/State.lean ====
section
/-!
SUPPORT. One law per field of State and update: what each update leaves as it is.
-/

namespace Sys2Proof.Machine

/-! ### updDie -/

@[simp] theorem State.updDie_mem (d : Nat) (f : Die → Die) (s : State) : (s.updDie d f).mem = s.mem := rfl
@[simp] theorem State.updDie_now (d : Nat) (f : Die → Die) (s : State) : (s.updDie d f).now = s.now := rfl
@[simp] theorem State.updDie_tick (d : Nat) (f : Die → Die) (s : State) : (s.updDie d f).tick = s.tick := rfl
@[simp] theorem State.updDie_moved (d : Nat) (f : Die → Die) (s : State) : (s.updDie d f).moved = s.moved := rfl
@[simp] theorem State.updDie_freeCtr (d : Nat) (f : Die → Die) (s : State) : (s.updDie d f).freeCtr = s.freeCtr := rfl
@[simp] theorem State.updDie_uidCtr (d : Nat) (f : Die → Die) (s : State) : (s.updDie d f).uidCtr = s.uidCtr := rfl
@[simp] theorem State.updDie_turn (d : Nat) (f : Die → Die) (s : State) : (s.updDie d f).turn = s.turn := rfl
@[simp] theorem State.updDie_agenda (d : Nat) (f : Die → Die) (s : State) : (s.updDie d f).agenda = s.agenda := rfl
@[simp] theorem State.updDie_cur (d : Nat) (f : Die → Die) (s : State) : (s.updDie d f).cur = s.cur := rfl
@[simp] theorem State.updDie_booted (d : Nat) (f : Die → Die) (s : State) : (s.updDie d f).booted = s.booted := rfl
@[simp] theorem State.updDie_asidBase (d : Nat) (f : Die → Die) (s : State) : (s.updDie d f).asidBase = s.asidBase := rfl
@[simp] theorem State.updDie_ftBase (d : Nat) (f : Die → Die) (s : State) : (s.updDie d f).ftBase = s.ftBase := rfl
@[simp] theorem State.updDie_fabid (d : Nat) (f : Die → Die) (s : State) : (s.updDie d f).fabid = s.fabid := rfl
@[simp] theorem State.updDie_frtBase (d : Nat) (f : Die → Die) (s : State) : (s.updDie d f).frtBase = s.frtBase := rfl
@[simp] theorem State.updDie_gnl (d : Nat) (f : Die → Die) (s : State) : (s.updDie d f).gnl = s.gnl := rfl
@[simp] theorem State.updDie_hdmb (d : Nat) (f : Die → Die) (s : State) : (s.updDie d f).hdmb = s.hdmb := rfl
@[simp] theorem State.updDie_hdms (d : Nat) (f : Die → Die) (s : State) : (s.updDie d f).hdms = s.hdms := rfl
@[simp] theorem State.updDie_page (d : Nat) (f : Die → Die) (s : State) : (s.updDie d f).page = s.page := rfl
@[simp] theorem State.updDie_ports (d : Nat) (f : Die → Die) (s : State) : (s.updDie d f).ports = s.ports := rfl
@[simp] theorem State.updDie_imageSha (d : Nat) (f : Die → Die) (s : State) : (s.updDie d f).imageSha = s.imageSha := rfl
@[simp] theorem State.updDie_image (d : Nat) (f : Die → Die) (s : State) : (s.updDie d f).image = s.image := rfl
@[simp] theorem State.updDie_launches (d : Nat) (f : Die → Die) (s : State) : (s.updDie d f).launches = s.launches := rfl
@[simp] theorem State.updDie_blocks (d : Nat) (f : Die → Die) (s : State) : (s.updDie d f).blocks = s.blocks := rfl
@[simp] theorem State.updDie_contexts (d : Nat) (f : Die → Die) (s : State) : (s.updDie d f).contexts = s.contexts := rfl
@[simp] theorem State.updDie_cores (d : Nat) (f : Die → Die) (s : State) : (s.updDie d f).cores = s.cores := rfl
@[simp] theorem State.updDie_inflight (d : Nat) (f : Die → Die) (s : State) : (s.updDie d f).inflight = s.inflight := rfl
@[simp] theorem State.updDie_msgs (d : Nat) (f : Die → Die) (s : State) : (s.updDie d f).msgs = s.msgs := rfl
@[simp] theorem State.updDie_acks (d : Nat) (f : Die → Die) (s : State) : (s.updDie d f).acks = s.acks := rfl
@[simp] theorem State.updDie_colls (d : Nat) (f : Die → Die) (s : State) : (s.updDie d f).colls = s.colls := rfl
@[simp] theorem State.updDie_lines (d : Nat) (f : Die → Die) (s : State) : (s.updDie d f).lines = s.lines := rfl
@[simp] theorem State.updDie_given (d : Nat) (f : Die → Die) (s : State) : (s.updDie d f).given = s.given := rfl
@[simp] theorem State.updDie_quar (d : Nat) (f : Die → Die) (s : State) : (s.updDie d f).quar = s.quar := rfl
@[simp] theorem State.updDie_recAreas (d : Nat) (f : Die → Die) (s : State) : (s.updDie d f).recAreas = s.recAreas := rfl
@[simp] theorem State.updDie_snapPool (d : Nat) (f : Die → Die) (s : State) : (s.updDie d f).snapPool = s.snapPool := rfl
@[simp] theorem State.updDie_tlbInvs (d : Nat) (f : Die → Die) (s : State) : (s.updDie d f).tlbInvs = s.tlbInvs := rfl

/-! ### updCore -/

@[simp] theorem State.updCore_mem (c : Nat) (f : CoreState → CoreState) (s : State) : (s.updCore c f).mem = s.mem := rfl
@[simp] theorem State.updCore_now (c : Nat) (f : CoreState → CoreState) (s : State) : (s.updCore c f).now = s.now := rfl
@[simp] theorem State.updCore_tick (c : Nat) (f : CoreState → CoreState) (s : State) : (s.updCore c f).tick = s.tick := rfl
@[simp] theorem State.updCore_moved (c : Nat) (f : CoreState → CoreState) (s : State) : (s.updCore c f).moved = s.moved := rfl
@[simp] theorem State.updCore_freeCtr (c : Nat) (f : CoreState → CoreState) (s : State) : (s.updCore c f).freeCtr = s.freeCtr := rfl
@[simp] theorem State.updCore_uidCtr (c : Nat) (f : CoreState → CoreState) (s : State) : (s.updCore c f).uidCtr = s.uidCtr := rfl
@[simp] theorem State.updCore_turn (c : Nat) (f : CoreState → CoreState) (s : State) : (s.updCore c f).turn = s.turn := rfl
@[simp] theorem State.updCore_agenda (c : Nat) (f : CoreState → CoreState) (s : State) : (s.updCore c f).agenda = s.agenda := rfl
@[simp] theorem State.updCore_cur (c : Nat) (f : CoreState → CoreState) (s : State) : (s.updCore c f).cur = s.cur := rfl
@[simp] theorem State.updCore_booted (c : Nat) (f : CoreState → CoreState) (s : State) : (s.updCore c f).booted = s.booted := rfl
@[simp] theorem State.updCore_asidBase (c : Nat) (f : CoreState → CoreState) (s : State) : (s.updCore c f).asidBase = s.asidBase := rfl
@[simp] theorem State.updCore_ftBase (c : Nat) (f : CoreState → CoreState) (s : State) : (s.updCore c f).ftBase = s.ftBase := rfl
@[simp] theorem State.updCore_fabid (c : Nat) (f : CoreState → CoreState) (s : State) : (s.updCore c f).fabid = s.fabid := rfl
@[simp] theorem State.updCore_frtBase (c : Nat) (f : CoreState → CoreState) (s : State) : (s.updCore c f).frtBase = s.frtBase := rfl
@[simp] theorem State.updCore_gnl (c : Nat) (f : CoreState → CoreState) (s : State) : (s.updCore c f).gnl = s.gnl := rfl
@[simp] theorem State.updCore_hdmb (c : Nat) (f : CoreState → CoreState) (s : State) : (s.updCore c f).hdmb = s.hdmb := rfl
@[simp] theorem State.updCore_hdms (c : Nat) (f : CoreState → CoreState) (s : State) : (s.updCore c f).hdms = s.hdms := rfl
@[simp] theorem State.updCore_page (c : Nat) (f : CoreState → CoreState) (s : State) : (s.updCore c f).page = s.page := rfl
@[simp] theorem State.updCore_ports (c : Nat) (f : CoreState → CoreState) (s : State) : (s.updCore c f).ports = s.ports := rfl
@[simp] theorem State.updCore_imageSha (c : Nat) (f : CoreState → CoreState) (s : State) : (s.updCore c f).imageSha = s.imageSha := rfl
@[simp] theorem State.updCore_image (c : Nat) (f : CoreState → CoreState) (s : State) : (s.updCore c f).image = s.image := rfl
@[simp] theorem State.updCore_launches (c : Nat) (f : CoreState → CoreState) (s : State) : (s.updCore c f).launches = s.launches := rfl
@[simp] theorem State.updCore_blocks (c : Nat) (f : CoreState → CoreState) (s : State) : (s.updCore c f).blocks = s.blocks := rfl
@[simp] theorem State.updCore_contexts (c : Nat) (f : CoreState → CoreState) (s : State) : (s.updCore c f).contexts = s.contexts := rfl
@[simp] theorem State.updCore_dies (c : Nat) (f : CoreState → CoreState) (s : State) : (s.updCore c f).dies = s.dies := rfl
@[simp] theorem State.updCore_inflight (c : Nat) (f : CoreState → CoreState) (s : State) : (s.updCore c f).inflight = s.inflight := rfl
@[simp] theorem State.updCore_msgs (c : Nat) (f : CoreState → CoreState) (s : State) : (s.updCore c f).msgs = s.msgs := rfl
@[simp] theorem State.updCore_acks (c : Nat) (f : CoreState → CoreState) (s : State) : (s.updCore c f).acks = s.acks := rfl
@[simp] theorem State.updCore_colls (c : Nat) (f : CoreState → CoreState) (s : State) : (s.updCore c f).colls = s.colls := rfl
@[simp] theorem State.updCore_lines (c : Nat) (f : CoreState → CoreState) (s : State) : (s.updCore c f).lines = s.lines := rfl
@[simp] theorem State.updCore_given (c : Nat) (f : CoreState → CoreState) (s : State) : (s.updCore c f).given = s.given := rfl
@[simp] theorem State.updCore_quar (c : Nat) (f : CoreState → CoreState) (s : State) : (s.updCore c f).quar = s.quar := rfl
@[simp] theorem State.updCore_recAreas (c : Nat) (f : CoreState → CoreState) (s : State) : (s.updCore c f).recAreas = s.recAreas := rfl
@[simp] theorem State.updCore_snapPool (c : Nat) (f : CoreState → CoreState) (s : State) : (s.updCore c f).snapPool = s.snapPool := rfl
@[simp] theorem State.updCore_tlbInvs (c : Nat) (f : CoreState → CoreState) (s : State) : (s.updCore c f).tlbInvs = s.tlbInvs := rfl

/-! ### updBody -/

@[simp] theorem State.updBody_mem (c : Nat) (f : CoreBody → CoreBody) (s : State) : (s.updBody c f).mem = s.mem := rfl
@[simp] theorem State.updBody_now (c : Nat) (f : CoreBody → CoreBody) (s : State) : (s.updBody c f).now = s.now := rfl
@[simp] theorem State.updBody_tick (c : Nat) (f : CoreBody → CoreBody) (s : State) : (s.updBody c f).tick = s.tick := rfl
@[simp] theorem State.updBody_moved (c : Nat) (f : CoreBody → CoreBody) (s : State) : (s.updBody c f).moved = s.moved := rfl
@[simp] theorem State.updBody_freeCtr (c : Nat) (f : CoreBody → CoreBody) (s : State) : (s.updBody c f).freeCtr = s.freeCtr := rfl
@[simp] theorem State.updBody_uidCtr (c : Nat) (f : CoreBody → CoreBody) (s : State) : (s.updBody c f).uidCtr = s.uidCtr := rfl
@[simp] theorem State.updBody_turn (c : Nat) (f : CoreBody → CoreBody) (s : State) : (s.updBody c f).turn = s.turn := rfl
@[simp] theorem State.updBody_agenda (c : Nat) (f : CoreBody → CoreBody) (s : State) : (s.updBody c f).agenda = s.agenda := rfl
@[simp] theorem State.updBody_cur (c : Nat) (f : CoreBody → CoreBody) (s : State) : (s.updBody c f).cur = s.cur := rfl
@[simp] theorem State.updBody_booted (c : Nat) (f : CoreBody → CoreBody) (s : State) : (s.updBody c f).booted = s.booted := rfl
@[simp] theorem State.updBody_asidBase (c : Nat) (f : CoreBody → CoreBody) (s : State) : (s.updBody c f).asidBase = s.asidBase := rfl
@[simp] theorem State.updBody_ftBase (c : Nat) (f : CoreBody → CoreBody) (s : State) : (s.updBody c f).ftBase = s.ftBase := rfl
@[simp] theorem State.updBody_fabid (c : Nat) (f : CoreBody → CoreBody) (s : State) : (s.updBody c f).fabid = s.fabid := rfl
@[simp] theorem State.updBody_frtBase (c : Nat) (f : CoreBody → CoreBody) (s : State) : (s.updBody c f).frtBase = s.frtBase := rfl
@[simp] theorem State.updBody_gnl (c : Nat) (f : CoreBody → CoreBody) (s : State) : (s.updBody c f).gnl = s.gnl := rfl
@[simp] theorem State.updBody_hdmb (c : Nat) (f : CoreBody → CoreBody) (s : State) : (s.updBody c f).hdmb = s.hdmb := rfl
@[simp] theorem State.updBody_hdms (c : Nat) (f : CoreBody → CoreBody) (s : State) : (s.updBody c f).hdms = s.hdms := rfl
@[simp] theorem State.updBody_page (c : Nat) (f : CoreBody → CoreBody) (s : State) : (s.updBody c f).page = s.page := rfl
@[simp] theorem State.updBody_ports (c : Nat) (f : CoreBody → CoreBody) (s : State) : (s.updBody c f).ports = s.ports := rfl
@[simp] theorem State.updBody_imageSha (c : Nat) (f : CoreBody → CoreBody) (s : State) : (s.updBody c f).imageSha = s.imageSha := rfl
@[simp] theorem State.updBody_image (c : Nat) (f : CoreBody → CoreBody) (s : State) : (s.updBody c f).image = s.image := rfl
@[simp] theorem State.updBody_launches (c : Nat) (f : CoreBody → CoreBody) (s : State) : (s.updBody c f).launches = s.launches := rfl
@[simp] theorem State.updBody_blocks (c : Nat) (f : CoreBody → CoreBody) (s : State) : (s.updBody c f).blocks = s.blocks := rfl
@[simp] theorem State.updBody_contexts (c : Nat) (f : CoreBody → CoreBody) (s : State) : (s.updBody c f).contexts = s.contexts := rfl
@[simp] theorem State.updBody_dies (c : Nat) (f : CoreBody → CoreBody) (s : State) : (s.updBody c f).dies = s.dies := rfl
@[simp] theorem State.updBody_inflight (c : Nat) (f : CoreBody → CoreBody) (s : State) : (s.updBody c f).inflight = s.inflight := rfl
@[simp] theorem State.updBody_msgs (c : Nat) (f : CoreBody → CoreBody) (s : State) : (s.updBody c f).msgs = s.msgs := rfl
@[simp] theorem State.updBody_acks (c : Nat) (f : CoreBody → CoreBody) (s : State) : (s.updBody c f).acks = s.acks := rfl
@[simp] theorem State.updBody_colls (c : Nat) (f : CoreBody → CoreBody) (s : State) : (s.updBody c f).colls = s.colls := rfl
@[simp] theorem State.updBody_lines (c : Nat) (f : CoreBody → CoreBody) (s : State) : (s.updBody c f).lines = s.lines := rfl
@[simp] theorem State.updBody_given (c : Nat) (f : CoreBody → CoreBody) (s : State) : (s.updBody c f).given = s.given := rfl
@[simp] theorem State.updBody_quar (c : Nat) (f : CoreBody → CoreBody) (s : State) : (s.updBody c f).quar = s.quar := rfl
@[simp] theorem State.updBody_recAreas (c : Nat) (f : CoreBody → CoreBody) (s : State) : (s.updBody c f).recAreas = s.recAreas := rfl
@[simp] theorem State.updBody_snapPool (c : Nat) (f : CoreBody → CoreBody) (s : State) : (s.updBody c f).snapPool = s.snapPool := rfl
@[simp] theorem State.updBody_tlbInvs (c : Nat) (f : CoreBody → CoreBody) (s : State) : (s.updBody c f).tlbInvs = s.tlbInvs := rfl

/-! ### updCtx -/

@[simp] theorem State.updCtx_mem (c : Nat) (f : Context → Context) (s : State) : (s.updCtx c f).mem = s.mem := rfl
@[simp] theorem State.updCtx_now (c : Nat) (f : Context → Context) (s : State) : (s.updCtx c f).now = s.now := rfl
@[simp] theorem State.updCtx_tick (c : Nat) (f : Context → Context) (s : State) : (s.updCtx c f).tick = s.tick := rfl
@[simp] theorem State.updCtx_moved (c : Nat) (f : Context → Context) (s : State) : (s.updCtx c f).moved = s.moved := rfl
@[simp] theorem State.updCtx_freeCtr (c : Nat) (f : Context → Context) (s : State) : (s.updCtx c f).freeCtr = s.freeCtr := rfl
@[simp] theorem State.updCtx_uidCtr (c : Nat) (f : Context → Context) (s : State) : (s.updCtx c f).uidCtr = s.uidCtr := rfl
@[simp] theorem State.updCtx_turn (c : Nat) (f : Context → Context) (s : State) : (s.updCtx c f).turn = s.turn := rfl
@[simp] theorem State.updCtx_agenda (c : Nat) (f : Context → Context) (s : State) : (s.updCtx c f).agenda = s.agenda := rfl
@[simp] theorem State.updCtx_cur (c : Nat) (f : Context → Context) (s : State) : (s.updCtx c f).cur = s.cur := rfl
@[simp] theorem State.updCtx_booted (c : Nat) (f : Context → Context) (s : State) : (s.updCtx c f).booted = s.booted := rfl
@[simp] theorem State.updCtx_asidBase (c : Nat) (f : Context → Context) (s : State) : (s.updCtx c f).asidBase = s.asidBase := rfl
@[simp] theorem State.updCtx_ftBase (c : Nat) (f : Context → Context) (s : State) : (s.updCtx c f).ftBase = s.ftBase := rfl
@[simp] theorem State.updCtx_fabid (c : Nat) (f : Context → Context) (s : State) : (s.updCtx c f).fabid = s.fabid := rfl
@[simp] theorem State.updCtx_frtBase (c : Nat) (f : Context → Context) (s : State) : (s.updCtx c f).frtBase = s.frtBase := rfl
@[simp] theorem State.updCtx_gnl (c : Nat) (f : Context → Context) (s : State) : (s.updCtx c f).gnl = s.gnl := rfl
@[simp] theorem State.updCtx_hdmb (c : Nat) (f : Context → Context) (s : State) : (s.updCtx c f).hdmb = s.hdmb := rfl
@[simp] theorem State.updCtx_hdms (c : Nat) (f : Context → Context) (s : State) : (s.updCtx c f).hdms = s.hdms := rfl
@[simp] theorem State.updCtx_page (c : Nat) (f : Context → Context) (s : State) : (s.updCtx c f).page = s.page := rfl
@[simp] theorem State.updCtx_ports (c : Nat) (f : Context → Context) (s : State) : (s.updCtx c f).ports = s.ports := rfl
@[simp] theorem State.updCtx_imageSha (c : Nat) (f : Context → Context) (s : State) : (s.updCtx c f).imageSha = s.imageSha := rfl
@[simp] theorem State.updCtx_image (c : Nat) (f : Context → Context) (s : State) : (s.updCtx c f).image = s.image := rfl
@[simp] theorem State.updCtx_launches (c : Nat) (f : Context → Context) (s : State) : (s.updCtx c f).launches = s.launches := rfl
@[simp] theorem State.updCtx_blocks (c : Nat) (f : Context → Context) (s : State) : (s.updCtx c f).blocks = s.blocks := rfl
@[simp] theorem State.updCtx_dies (c : Nat) (f : Context → Context) (s : State) : (s.updCtx c f).dies = s.dies := rfl
@[simp] theorem State.updCtx_cores (c : Nat) (f : Context → Context) (s : State) : (s.updCtx c f).cores = s.cores := rfl
@[simp] theorem State.updCtx_inflight (c : Nat) (f : Context → Context) (s : State) : (s.updCtx c f).inflight = s.inflight := rfl
@[simp] theorem State.updCtx_msgs (c : Nat) (f : Context → Context) (s : State) : (s.updCtx c f).msgs = s.msgs := rfl
@[simp] theorem State.updCtx_acks (c : Nat) (f : Context → Context) (s : State) : (s.updCtx c f).acks = s.acks := rfl
@[simp] theorem State.updCtx_colls (c : Nat) (f : Context → Context) (s : State) : (s.updCtx c f).colls = s.colls := rfl
@[simp] theorem State.updCtx_lines (c : Nat) (f : Context → Context) (s : State) : (s.updCtx c f).lines = s.lines := rfl
@[simp] theorem State.updCtx_given (c : Nat) (f : Context → Context) (s : State) : (s.updCtx c f).given = s.given := rfl
@[simp] theorem State.updCtx_quar (c : Nat) (f : Context → Context) (s : State) : (s.updCtx c f).quar = s.quar := rfl
@[simp] theorem State.updCtx_recAreas (c : Nat) (f : Context → Context) (s : State) : (s.updCtx c f).recAreas = s.recAreas := rfl
@[simp] theorem State.updCtx_snapPool (c : Nat) (f : Context → Context) (s : State) : (s.updCtx c f).snapPool = s.snapPool := rfl
@[simp] theorem State.updCtx_tlbInvs (c : Nat) (f : Context → Context) (s : State) : (s.updCtx c f).tlbInvs = s.tlbInvs := rfl

/-! ### updLaunch -/

@[simp] theorem State.updLaunch_mem (u : Nat) (f : Launch → Launch) (s : State) : (s.updLaunch u f).mem = s.mem := rfl
@[simp] theorem State.updLaunch_now (u : Nat) (f : Launch → Launch) (s : State) : (s.updLaunch u f).now = s.now := rfl
@[simp] theorem State.updLaunch_tick (u : Nat) (f : Launch → Launch) (s : State) : (s.updLaunch u f).tick = s.tick := rfl
@[simp] theorem State.updLaunch_moved (u : Nat) (f : Launch → Launch) (s : State) : (s.updLaunch u f).moved = s.moved := rfl
@[simp] theorem State.updLaunch_freeCtr (u : Nat) (f : Launch → Launch) (s : State) : (s.updLaunch u f).freeCtr = s.freeCtr := rfl
@[simp] theorem State.updLaunch_uidCtr (u : Nat) (f : Launch → Launch) (s : State) : (s.updLaunch u f).uidCtr = s.uidCtr := rfl
@[simp] theorem State.updLaunch_turn (u : Nat) (f : Launch → Launch) (s : State) : (s.updLaunch u f).turn = s.turn := rfl
@[simp] theorem State.updLaunch_agenda (u : Nat) (f : Launch → Launch) (s : State) : (s.updLaunch u f).agenda = s.agenda := rfl
@[simp] theorem State.updLaunch_cur (u : Nat) (f : Launch → Launch) (s : State) : (s.updLaunch u f).cur = s.cur := rfl
@[simp] theorem State.updLaunch_booted (u : Nat) (f : Launch → Launch) (s : State) : (s.updLaunch u f).booted = s.booted := rfl
@[simp] theorem State.updLaunch_asidBase (u : Nat) (f : Launch → Launch) (s : State) : (s.updLaunch u f).asidBase = s.asidBase := rfl
@[simp] theorem State.updLaunch_ftBase (u : Nat) (f : Launch → Launch) (s : State) : (s.updLaunch u f).ftBase = s.ftBase := rfl
@[simp] theorem State.updLaunch_fabid (u : Nat) (f : Launch → Launch) (s : State) : (s.updLaunch u f).fabid = s.fabid := rfl
@[simp] theorem State.updLaunch_frtBase (u : Nat) (f : Launch → Launch) (s : State) : (s.updLaunch u f).frtBase = s.frtBase := rfl
@[simp] theorem State.updLaunch_gnl (u : Nat) (f : Launch → Launch) (s : State) : (s.updLaunch u f).gnl = s.gnl := rfl
@[simp] theorem State.updLaunch_hdmb (u : Nat) (f : Launch → Launch) (s : State) : (s.updLaunch u f).hdmb = s.hdmb := rfl
@[simp] theorem State.updLaunch_hdms (u : Nat) (f : Launch → Launch) (s : State) : (s.updLaunch u f).hdms = s.hdms := rfl
@[simp] theorem State.updLaunch_page (u : Nat) (f : Launch → Launch) (s : State) : (s.updLaunch u f).page = s.page := rfl
@[simp] theorem State.updLaunch_ports (u : Nat) (f : Launch → Launch) (s : State) : (s.updLaunch u f).ports = s.ports := rfl
@[simp] theorem State.updLaunch_imageSha (u : Nat) (f : Launch → Launch) (s : State) : (s.updLaunch u f).imageSha = s.imageSha := rfl
@[simp] theorem State.updLaunch_image (u : Nat) (f : Launch → Launch) (s : State) : (s.updLaunch u f).image = s.image := rfl
@[simp] theorem State.updLaunch_blocks (u : Nat) (f : Launch → Launch) (s : State) : (s.updLaunch u f).blocks = s.blocks := rfl
@[simp] theorem State.updLaunch_contexts (u : Nat) (f : Launch → Launch) (s : State) : (s.updLaunch u f).contexts = s.contexts := rfl
@[simp] theorem State.updLaunch_dies (u : Nat) (f : Launch → Launch) (s : State) : (s.updLaunch u f).dies = s.dies := rfl
@[simp] theorem State.updLaunch_cores (u : Nat) (f : Launch → Launch) (s : State) : (s.updLaunch u f).cores = s.cores := rfl
@[simp] theorem State.updLaunch_inflight (u : Nat) (f : Launch → Launch) (s : State) : (s.updLaunch u f).inflight = s.inflight := rfl
@[simp] theorem State.updLaunch_msgs (u : Nat) (f : Launch → Launch) (s : State) : (s.updLaunch u f).msgs = s.msgs := rfl
@[simp] theorem State.updLaunch_acks (u : Nat) (f : Launch → Launch) (s : State) : (s.updLaunch u f).acks = s.acks := rfl
@[simp] theorem State.updLaunch_colls (u : Nat) (f : Launch → Launch) (s : State) : (s.updLaunch u f).colls = s.colls := rfl
@[simp] theorem State.updLaunch_lines (u : Nat) (f : Launch → Launch) (s : State) : (s.updLaunch u f).lines = s.lines := rfl
@[simp] theorem State.updLaunch_given (u : Nat) (f : Launch → Launch) (s : State) : (s.updLaunch u f).given = s.given := rfl
@[simp] theorem State.updLaunch_quar (u : Nat) (f : Launch → Launch) (s : State) : (s.updLaunch u f).quar = s.quar := rfl
@[simp] theorem State.updLaunch_recAreas (u : Nat) (f : Launch → Launch) (s : State) : (s.updLaunch u f).recAreas = s.recAreas := rfl
@[simp] theorem State.updLaunch_snapPool (u : Nat) (f : Launch → Launch) (s : State) : (s.updLaunch u f).snapPool = s.snapPool := rfl
@[simp] theorem State.updLaunch_tlbInvs (u : Nat) (f : Launch → Launch) (s : State) : (s.updLaunch u f).tlbInvs = s.tlbInvs := rfl

/-! ### updBlock -/

@[simp] theorem State.updBlock_mem (u : Nat) (f : Block → Block) (s : State) : (s.updBlock u f).mem = s.mem := rfl
@[simp] theorem State.updBlock_now (u : Nat) (f : Block → Block) (s : State) : (s.updBlock u f).now = s.now := rfl
@[simp] theorem State.updBlock_tick (u : Nat) (f : Block → Block) (s : State) : (s.updBlock u f).tick = s.tick := rfl
@[simp] theorem State.updBlock_moved (u : Nat) (f : Block → Block) (s : State) : (s.updBlock u f).moved = s.moved := rfl
@[simp] theorem State.updBlock_freeCtr (u : Nat) (f : Block → Block) (s : State) : (s.updBlock u f).freeCtr = s.freeCtr := rfl
@[simp] theorem State.updBlock_uidCtr (u : Nat) (f : Block → Block) (s : State) : (s.updBlock u f).uidCtr = s.uidCtr := rfl
@[simp] theorem State.updBlock_turn (u : Nat) (f : Block → Block) (s : State) : (s.updBlock u f).turn = s.turn := rfl
@[simp] theorem State.updBlock_agenda (u : Nat) (f : Block → Block) (s : State) : (s.updBlock u f).agenda = s.agenda := rfl
@[simp] theorem State.updBlock_cur (u : Nat) (f : Block → Block) (s : State) : (s.updBlock u f).cur = s.cur := rfl
@[simp] theorem State.updBlock_booted (u : Nat) (f : Block → Block) (s : State) : (s.updBlock u f).booted = s.booted := rfl
@[simp] theorem State.updBlock_asidBase (u : Nat) (f : Block → Block) (s : State) : (s.updBlock u f).asidBase = s.asidBase := rfl
@[simp] theorem State.updBlock_ftBase (u : Nat) (f : Block → Block) (s : State) : (s.updBlock u f).ftBase = s.ftBase := rfl
@[simp] theorem State.updBlock_fabid (u : Nat) (f : Block → Block) (s : State) : (s.updBlock u f).fabid = s.fabid := rfl
@[simp] theorem State.updBlock_frtBase (u : Nat) (f : Block → Block) (s : State) : (s.updBlock u f).frtBase = s.frtBase := rfl
@[simp] theorem State.updBlock_gnl (u : Nat) (f : Block → Block) (s : State) : (s.updBlock u f).gnl = s.gnl := rfl
@[simp] theorem State.updBlock_hdmb (u : Nat) (f : Block → Block) (s : State) : (s.updBlock u f).hdmb = s.hdmb := rfl
@[simp] theorem State.updBlock_hdms (u : Nat) (f : Block → Block) (s : State) : (s.updBlock u f).hdms = s.hdms := rfl
@[simp] theorem State.updBlock_page (u : Nat) (f : Block → Block) (s : State) : (s.updBlock u f).page = s.page := rfl
@[simp] theorem State.updBlock_ports (u : Nat) (f : Block → Block) (s : State) : (s.updBlock u f).ports = s.ports := rfl
@[simp] theorem State.updBlock_imageSha (u : Nat) (f : Block → Block) (s : State) : (s.updBlock u f).imageSha = s.imageSha := rfl
@[simp] theorem State.updBlock_image (u : Nat) (f : Block → Block) (s : State) : (s.updBlock u f).image = s.image := rfl
@[simp] theorem State.updBlock_launches (u : Nat) (f : Block → Block) (s : State) : (s.updBlock u f).launches = s.launches := rfl
@[simp] theorem State.updBlock_contexts (u : Nat) (f : Block → Block) (s : State) : (s.updBlock u f).contexts = s.contexts := rfl
@[simp] theorem State.updBlock_dies (u : Nat) (f : Block → Block) (s : State) : (s.updBlock u f).dies = s.dies := rfl
@[simp] theorem State.updBlock_cores (u : Nat) (f : Block → Block) (s : State) : (s.updBlock u f).cores = s.cores := rfl
@[simp] theorem State.updBlock_inflight (u : Nat) (f : Block → Block) (s : State) : (s.updBlock u f).inflight = s.inflight := rfl
@[simp] theorem State.updBlock_msgs (u : Nat) (f : Block → Block) (s : State) : (s.updBlock u f).msgs = s.msgs := rfl
@[simp] theorem State.updBlock_acks (u : Nat) (f : Block → Block) (s : State) : (s.updBlock u f).acks = s.acks := rfl
@[simp] theorem State.updBlock_colls (u : Nat) (f : Block → Block) (s : State) : (s.updBlock u f).colls = s.colls := rfl
@[simp] theorem State.updBlock_lines (u : Nat) (f : Block → Block) (s : State) : (s.updBlock u f).lines = s.lines := rfl
@[simp] theorem State.updBlock_given (u : Nat) (f : Block → Block) (s : State) : (s.updBlock u f).given = s.given := rfl
@[simp] theorem State.updBlock_quar (u : Nat) (f : Block → Block) (s : State) : (s.updBlock u f).quar = s.quar := rfl
@[simp] theorem State.updBlock_recAreas (u : Nat) (f : Block → Block) (s : State) : (s.updBlock u f).recAreas = s.recAreas := rfl
@[simp] theorem State.updBlock_snapPool (u : Nat) (f : Block → Block) (s : State) : (s.updBlock u f).snapPool = s.snapPool := rfl
@[simp] theorem State.updBlock_tlbInvs (u : Nat) (f : Block → Block) (s : State) : (s.updBlock u f).tlbInvs = s.tlbInvs := rfl

/-! ### updEng -/

@[simp] theorem State.updEng_mem (u : Nat) (f : BlkEng → BlkEng) (s : State) : (s.updEng u f).mem = s.mem := rfl
@[simp] theorem State.updEng_now (u : Nat) (f : BlkEng → BlkEng) (s : State) : (s.updEng u f).now = s.now := rfl
@[simp] theorem State.updEng_tick (u : Nat) (f : BlkEng → BlkEng) (s : State) : (s.updEng u f).tick = s.tick := rfl
@[simp] theorem State.updEng_moved (u : Nat) (f : BlkEng → BlkEng) (s : State) : (s.updEng u f).moved = s.moved := rfl
@[simp] theorem State.updEng_freeCtr (u : Nat) (f : BlkEng → BlkEng) (s : State) : (s.updEng u f).freeCtr = s.freeCtr := rfl
@[simp] theorem State.updEng_uidCtr (u : Nat) (f : BlkEng → BlkEng) (s : State) : (s.updEng u f).uidCtr = s.uidCtr := rfl
@[simp] theorem State.updEng_turn (u : Nat) (f : BlkEng → BlkEng) (s : State) : (s.updEng u f).turn = s.turn := rfl
@[simp] theorem State.updEng_agenda (u : Nat) (f : BlkEng → BlkEng) (s : State) : (s.updEng u f).agenda = s.agenda := rfl
@[simp] theorem State.updEng_cur (u : Nat) (f : BlkEng → BlkEng) (s : State) : (s.updEng u f).cur = s.cur := rfl
@[simp] theorem State.updEng_booted (u : Nat) (f : BlkEng → BlkEng) (s : State) : (s.updEng u f).booted = s.booted := rfl
@[simp] theorem State.updEng_asidBase (u : Nat) (f : BlkEng → BlkEng) (s : State) : (s.updEng u f).asidBase = s.asidBase := rfl
@[simp] theorem State.updEng_ftBase (u : Nat) (f : BlkEng → BlkEng) (s : State) : (s.updEng u f).ftBase = s.ftBase := rfl
@[simp] theorem State.updEng_fabid (u : Nat) (f : BlkEng → BlkEng) (s : State) : (s.updEng u f).fabid = s.fabid := rfl
@[simp] theorem State.updEng_frtBase (u : Nat) (f : BlkEng → BlkEng) (s : State) : (s.updEng u f).frtBase = s.frtBase := rfl
@[simp] theorem State.updEng_gnl (u : Nat) (f : BlkEng → BlkEng) (s : State) : (s.updEng u f).gnl = s.gnl := rfl
@[simp] theorem State.updEng_hdmb (u : Nat) (f : BlkEng → BlkEng) (s : State) : (s.updEng u f).hdmb = s.hdmb := rfl
@[simp] theorem State.updEng_hdms (u : Nat) (f : BlkEng → BlkEng) (s : State) : (s.updEng u f).hdms = s.hdms := rfl
@[simp] theorem State.updEng_page (u : Nat) (f : BlkEng → BlkEng) (s : State) : (s.updEng u f).page = s.page := rfl
@[simp] theorem State.updEng_ports (u : Nat) (f : BlkEng → BlkEng) (s : State) : (s.updEng u f).ports = s.ports := rfl
@[simp] theorem State.updEng_imageSha (u : Nat) (f : BlkEng → BlkEng) (s : State) : (s.updEng u f).imageSha = s.imageSha := rfl
@[simp] theorem State.updEng_image (u : Nat) (f : BlkEng → BlkEng) (s : State) : (s.updEng u f).image = s.image := rfl
@[simp] theorem State.updEng_launches (u : Nat) (f : BlkEng → BlkEng) (s : State) : (s.updEng u f).launches = s.launches := rfl
@[simp] theorem State.updEng_contexts (u : Nat) (f : BlkEng → BlkEng) (s : State) : (s.updEng u f).contexts = s.contexts := rfl
@[simp] theorem State.updEng_dies (u : Nat) (f : BlkEng → BlkEng) (s : State) : (s.updEng u f).dies = s.dies := rfl
@[simp] theorem State.updEng_cores (u : Nat) (f : BlkEng → BlkEng) (s : State) : (s.updEng u f).cores = s.cores := rfl
@[simp] theorem State.updEng_inflight (u : Nat) (f : BlkEng → BlkEng) (s : State) : (s.updEng u f).inflight = s.inflight := rfl
@[simp] theorem State.updEng_msgs (u : Nat) (f : BlkEng → BlkEng) (s : State) : (s.updEng u f).msgs = s.msgs := rfl
@[simp] theorem State.updEng_acks (u : Nat) (f : BlkEng → BlkEng) (s : State) : (s.updEng u f).acks = s.acks := rfl
@[simp] theorem State.updEng_colls (u : Nat) (f : BlkEng → BlkEng) (s : State) : (s.updEng u f).colls = s.colls := rfl
@[simp] theorem State.updEng_lines (u : Nat) (f : BlkEng → BlkEng) (s : State) : (s.updEng u f).lines = s.lines := rfl
@[simp] theorem State.updEng_given (u : Nat) (f : BlkEng → BlkEng) (s : State) : (s.updEng u f).given = s.given := rfl
@[simp] theorem State.updEng_quar (u : Nat) (f : BlkEng → BlkEng) (s : State) : (s.updEng u f).quar = s.quar := rfl
@[simp] theorem State.updEng_recAreas (u : Nat) (f : BlkEng → BlkEng) (s : State) : (s.updEng u f).recAreas = s.recAreas := rfl
@[simp] theorem State.updEng_snapPool (u : Nat) (f : BlkEng → BlkEng) (s : State) : (s.updEng u f).snapPool = s.snapPool := rfl
@[simp] theorem State.updEng_tlbInvs (u : Nat) (f : BlkEng → BlkEng) (s : State) : (s.updEng u f).tlbInvs = s.tlbInvs := rfl

/-! ### updWarpOf -/

@[simp] theorem State.updWarpOf_mem (u w : Nat) (f : Warp → Warp) (s : State) : (s.updWarpOf u w f).mem = s.mem := rfl
@[simp] theorem State.updWarpOf_now (u w : Nat) (f : Warp → Warp) (s : State) : (s.updWarpOf u w f).now = s.now := rfl
@[simp] theorem State.updWarpOf_tick (u w : Nat) (f : Warp → Warp) (s : State) : (s.updWarpOf u w f).tick = s.tick := rfl
@[simp] theorem State.updWarpOf_moved (u w : Nat) (f : Warp → Warp) (s : State) : (s.updWarpOf u w f).moved = s.moved := rfl
@[simp] theorem State.updWarpOf_freeCtr (u w : Nat) (f : Warp → Warp) (s : State) : (s.updWarpOf u w f).freeCtr = s.freeCtr := rfl
@[simp] theorem State.updWarpOf_uidCtr (u w : Nat) (f : Warp → Warp) (s : State) : (s.updWarpOf u w f).uidCtr = s.uidCtr := rfl
@[simp] theorem State.updWarpOf_turn (u w : Nat) (f : Warp → Warp) (s : State) : (s.updWarpOf u w f).turn = s.turn := rfl
@[simp] theorem State.updWarpOf_agenda (u w : Nat) (f : Warp → Warp) (s : State) : (s.updWarpOf u w f).agenda = s.agenda := rfl
@[simp] theorem State.updWarpOf_cur (u w : Nat) (f : Warp → Warp) (s : State) : (s.updWarpOf u w f).cur = s.cur := rfl
@[simp] theorem State.updWarpOf_booted (u w : Nat) (f : Warp → Warp) (s : State) : (s.updWarpOf u w f).booted = s.booted := rfl
@[simp] theorem State.updWarpOf_asidBase (u w : Nat) (f : Warp → Warp) (s : State) : (s.updWarpOf u w f).asidBase = s.asidBase := rfl
@[simp] theorem State.updWarpOf_ftBase (u w : Nat) (f : Warp → Warp) (s : State) : (s.updWarpOf u w f).ftBase = s.ftBase := rfl
@[simp] theorem State.updWarpOf_fabid (u w : Nat) (f : Warp → Warp) (s : State) : (s.updWarpOf u w f).fabid = s.fabid := rfl
@[simp] theorem State.updWarpOf_frtBase (u w : Nat) (f : Warp → Warp) (s : State) : (s.updWarpOf u w f).frtBase = s.frtBase := rfl
@[simp] theorem State.updWarpOf_gnl (u w : Nat) (f : Warp → Warp) (s : State) : (s.updWarpOf u w f).gnl = s.gnl := rfl
@[simp] theorem State.updWarpOf_hdmb (u w : Nat) (f : Warp → Warp) (s : State) : (s.updWarpOf u w f).hdmb = s.hdmb := rfl
@[simp] theorem State.updWarpOf_hdms (u w : Nat) (f : Warp → Warp) (s : State) : (s.updWarpOf u w f).hdms = s.hdms := rfl
@[simp] theorem State.updWarpOf_page (u w : Nat) (f : Warp → Warp) (s : State) : (s.updWarpOf u w f).page = s.page := rfl
@[simp] theorem State.updWarpOf_ports (u w : Nat) (f : Warp → Warp) (s : State) : (s.updWarpOf u w f).ports = s.ports := rfl
@[simp] theorem State.updWarpOf_imageSha (u w : Nat) (f : Warp → Warp) (s : State) : (s.updWarpOf u w f).imageSha = s.imageSha := rfl
@[simp] theorem State.updWarpOf_image (u w : Nat) (f : Warp → Warp) (s : State) : (s.updWarpOf u w f).image = s.image := rfl
@[simp] theorem State.updWarpOf_launches (u w : Nat) (f : Warp → Warp) (s : State) : (s.updWarpOf u w f).launches = s.launches := rfl
@[simp] theorem State.updWarpOf_contexts (u w : Nat) (f : Warp → Warp) (s : State) : (s.updWarpOf u w f).contexts = s.contexts := rfl
@[simp] theorem State.updWarpOf_dies (u w : Nat) (f : Warp → Warp) (s : State) : (s.updWarpOf u w f).dies = s.dies := rfl
@[simp] theorem State.updWarpOf_cores (u w : Nat) (f : Warp → Warp) (s : State) : (s.updWarpOf u w f).cores = s.cores := rfl
@[simp] theorem State.updWarpOf_inflight (u w : Nat) (f : Warp → Warp) (s : State) : (s.updWarpOf u w f).inflight = s.inflight := rfl
@[simp] theorem State.updWarpOf_msgs (u w : Nat) (f : Warp → Warp) (s : State) : (s.updWarpOf u w f).msgs = s.msgs := rfl
@[simp] theorem State.updWarpOf_acks (u w : Nat) (f : Warp → Warp) (s : State) : (s.updWarpOf u w f).acks = s.acks := rfl
@[simp] theorem State.updWarpOf_colls (u w : Nat) (f : Warp → Warp) (s : State) : (s.updWarpOf u w f).colls = s.colls := rfl
@[simp] theorem State.updWarpOf_lines (u w : Nat) (f : Warp → Warp) (s : State) : (s.updWarpOf u w f).lines = s.lines := rfl
@[simp] theorem State.updWarpOf_given (u w : Nat) (f : Warp → Warp) (s : State) : (s.updWarpOf u w f).given = s.given := rfl
@[simp] theorem State.updWarpOf_quar (u w : Nat) (f : Warp → Warp) (s : State) : (s.updWarpOf u w f).quar = s.quar := rfl
@[simp] theorem State.updWarpOf_recAreas (u w : Nat) (f : Warp → Warp) (s : State) : (s.updWarpOf u w f).recAreas = s.recAreas := rfl
@[simp] theorem State.updWarpOf_snapPool (u w : Nat) (f : Warp → Warp) (s : State) : (s.updWarpOf u w f).snapPool = s.snapPool := rfl
@[simp] theorem State.updWarpOf_tlbInvs (u w : Nat) (f : Warp → Warp) (s : State) : (s.updWarpOf u w f).tlbInvs = s.tlbInvs := rfl

/-! ### updCurBlock -/

@[simp] theorem State.updCurBlock_mem (f : Block → Block) (s : State) : (s.updCurBlock f).mem = s.mem := rfl
@[simp] theorem State.updCurBlock_now (f : Block → Block) (s : State) : (s.updCurBlock f).now = s.now := rfl
@[simp] theorem State.updCurBlock_tick (f : Block → Block) (s : State) : (s.updCurBlock f).tick = s.tick := rfl
@[simp] theorem State.updCurBlock_moved (f : Block → Block) (s : State) : (s.updCurBlock f).moved = s.moved := rfl
@[simp] theorem State.updCurBlock_freeCtr (f : Block → Block) (s : State) : (s.updCurBlock f).freeCtr = s.freeCtr := rfl
@[simp] theorem State.updCurBlock_uidCtr (f : Block → Block) (s : State) : (s.updCurBlock f).uidCtr = s.uidCtr := rfl
@[simp] theorem State.updCurBlock_turn (f : Block → Block) (s : State) : (s.updCurBlock f).turn = s.turn := rfl
@[simp] theorem State.updCurBlock_agenda (f : Block → Block) (s : State) : (s.updCurBlock f).agenda = s.agenda := rfl
@[simp] theorem State.updCurBlock_cur (f : Block → Block) (s : State) : (s.updCurBlock f).cur = s.cur := rfl
@[simp] theorem State.updCurBlock_booted (f : Block → Block) (s : State) : (s.updCurBlock f).booted = s.booted := rfl
@[simp] theorem State.updCurBlock_asidBase (f : Block → Block) (s : State) : (s.updCurBlock f).asidBase = s.asidBase := rfl
@[simp] theorem State.updCurBlock_ftBase (f : Block → Block) (s : State) : (s.updCurBlock f).ftBase = s.ftBase := rfl
@[simp] theorem State.updCurBlock_fabid (f : Block → Block) (s : State) : (s.updCurBlock f).fabid = s.fabid := rfl
@[simp] theorem State.updCurBlock_frtBase (f : Block → Block) (s : State) : (s.updCurBlock f).frtBase = s.frtBase := rfl
@[simp] theorem State.updCurBlock_gnl (f : Block → Block) (s : State) : (s.updCurBlock f).gnl = s.gnl := rfl
@[simp] theorem State.updCurBlock_hdmb (f : Block → Block) (s : State) : (s.updCurBlock f).hdmb = s.hdmb := rfl
@[simp] theorem State.updCurBlock_hdms (f : Block → Block) (s : State) : (s.updCurBlock f).hdms = s.hdms := rfl
@[simp] theorem State.updCurBlock_page (f : Block → Block) (s : State) : (s.updCurBlock f).page = s.page := rfl
@[simp] theorem State.updCurBlock_ports (f : Block → Block) (s : State) : (s.updCurBlock f).ports = s.ports := rfl
@[simp] theorem State.updCurBlock_imageSha (f : Block → Block) (s : State) : (s.updCurBlock f).imageSha = s.imageSha := rfl
@[simp] theorem State.updCurBlock_image (f : Block → Block) (s : State) : (s.updCurBlock f).image = s.image := rfl
@[simp] theorem State.updCurBlock_launches (f : Block → Block) (s : State) : (s.updCurBlock f).launches = s.launches := rfl
@[simp] theorem State.updCurBlock_contexts (f : Block → Block) (s : State) : (s.updCurBlock f).contexts = s.contexts := rfl
@[simp] theorem State.updCurBlock_dies (f : Block → Block) (s : State) : (s.updCurBlock f).dies = s.dies := rfl
@[simp] theorem State.updCurBlock_cores (f : Block → Block) (s : State) : (s.updCurBlock f).cores = s.cores := rfl
@[simp] theorem State.updCurBlock_inflight (f : Block → Block) (s : State) : (s.updCurBlock f).inflight = s.inflight := rfl
@[simp] theorem State.updCurBlock_msgs (f : Block → Block) (s : State) : (s.updCurBlock f).msgs = s.msgs := rfl
@[simp] theorem State.updCurBlock_acks (f : Block → Block) (s : State) : (s.updCurBlock f).acks = s.acks := rfl
@[simp] theorem State.updCurBlock_colls (f : Block → Block) (s : State) : (s.updCurBlock f).colls = s.colls := rfl
@[simp] theorem State.updCurBlock_lines (f : Block → Block) (s : State) : (s.updCurBlock f).lines = s.lines := rfl
@[simp] theorem State.updCurBlock_given (f : Block → Block) (s : State) : (s.updCurBlock f).given = s.given := rfl
@[simp] theorem State.updCurBlock_quar (f : Block → Block) (s : State) : (s.updCurBlock f).quar = s.quar := rfl
@[simp] theorem State.updCurBlock_recAreas (f : Block → Block) (s : State) : (s.updCurBlock f).recAreas = s.recAreas := rfl
@[simp] theorem State.updCurBlock_snapPool (f : Block → Block) (s : State) : (s.updCurBlock f).snapPool = s.snapPool := rfl
@[simp] theorem State.updCurBlock_tlbInvs (f : Block → Block) (s : State) : (s.updCurBlock f).tlbInvs = s.tlbInvs := rfl

/-! ### updWarp -/

@[simp] theorem State.updWarp_mem (f : Warp → Warp) (s : State) : (s.updWarp f).mem = s.mem := rfl
@[simp] theorem State.updWarp_now (f : Warp → Warp) (s : State) : (s.updWarp f).now = s.now := rfl
@[simp] theorem State.updWarp_tick (f : Warp → Warp) (s : State) : (s.updWarp f).tick = s.tick := rfl
@[simp] theorem State.updWarp_moved (f : Warp → Warp) (s : State) : (s.updWarp f).moved = s.moved := rfl
@[simp] theorem State.updWarp_freeCtr (f : Warp → Warp) (s : State) : (s.updWarp f).freeCtr = s.freeCtr := rfl
@[simp] theorem State.updWarp_uidCtr (f : Warp → Warp) (s : State) : (s.updWarp f).uidCtr = s.uidCtr := rfl
@[simp] theorem State.updWarp_turn (f : Warp → Warp) (s : State) : (s.updWarp f).turn = s.turn := rfl
@[simp] theorem State.updWarp_agenda (f : Warp → Warp) (s : State) : (s.updWarp f).agenda = s.agenda := rfl
@[simp] theorem State.updWarp_cur (f : Warp → Warp) (s : State) : (s.updWarp f).cur = s.cur := rfl
@[simp] theorem State.updWarp_booted (f : Warp → Warp) (s : State) : (s.updWarp f).booted = s.booted := rfl
@[simp] theorem State.updWarp_asidBase (f : Warp → Warp) (s : State) : (s.updWarp f).asidBase = s.asidBase := rfl
@[simp] theorem State.updWarp_ftBase (f : Warp → Warp) (s : State) : (s.updWarp f).ftBase = s.ftBase := rfl
@[simp] theorem State.updWarp_fabid (f : Warp → Warp) (s : State) : (s.updWarp f).fabid = s.fabid := rfl
@[simp] theorem State.updWarp_frtBase (f : Warp → Warp) (s : State) : (s.updWarp f).frtBase = s.frtBase := rfl
@[simp] theorem State.updWarp_gnl (f : Warp → Warp) (s : State) : (s.updWarp f).gnl = s.gnl := rfl
@[simp] theorem State.updWarp_hdmb (f : Warp → Warp) (s : State) : (s.updWarp f).hdmb = s.hdmb := rfl
@[simp] theorem State.updWarp_hdms (f : Warp → Warp) (s : State) : (s.updWarp f).hdms = s.hdms := rfl
@[simp] theorem State.updWarp_page (f : Warp → Warp) (s : State) : (s.updWarp f).page = s.page := rfl
@[simp] theorem State.updWarp_ports (f : Warp → Warp) (s : State) : (s.updWarp f).ports = s.ports := rfl
@[simp] theorem State.updWarp_imageSha (f : Warp → Warp) (s : State) : (s.updWarp f).imageSha = s.imageSha := rfl
@[simp] theorem State.updWarp_image (f : Warp → Warp) (s : State) : (s.updWarp f).image = s.image := rfl
@[simp] theorem State.updWarp_launches (f : Warp → Warp) (s : State) : (s.updWarp f).launches = s.launches := rfl
@[simp] theorem State.updWarp_contexts (f : Warp → Warp) (s : State) : (s.updWarp f).contexts = s.contexts := rfl
@[simp] theorem State.updWarp_dies (f : Warp → Warp) (s : State) : (s.updWarp f).dies = s.dies := rfl
@[simp] theorem State.updWarp_cores (f : Warp → Warp) (s : State) : (s.updWarp f).cores = s.cores := rfl
@[simp] theorem State.updWarp_inflight (f : Warp → Warp) (s : State) : (s.updWarp f).inflight = s.inflight := rfl
@[simp] theorem State.updWarp_msgs (f : Warp → Warp) (s : State) : (s.updWarp f).msgs = s.msgs := rfl
@[simp] theorem State.updWarp_acks (f : Warp → Warp) (s : State) : (s.updWarp f).acks = s.acks := rfl
@[simp] theorem State.updWarp_colls (f : Warp → Warp) (s : State) : (s.updWarp f).colls = s.colls := rfl
@[simp] theorem State.updWarp_lines (f : Warp → Warp) (s : State) : (s.updWarp f).lines = s.lines := rfl
@[simp] theorem State.updWarp_given (f : Warp → Warp) (s : State) : (s.updWarp f).given = s.given := rfl
@[simp] theorem State.updWarp_quar (f : Warp → Warp) (s : State) : (s.updWarp f).quar = s.quar := rfl
@[simp] theorem State.updWarp_recAreas (f : Warp → Warp) (s : State) : (s.updWarp f).recAreas = s.recAreas := rfl
@[simp] theorem State.updWarp_snapPool (f : Warp → Warp) (s : State) : (s.updWarp f).snapPool = s.snapPool := rfl
@[simp] theorem State.updWarp_tlbInvs (f : Warp → Warp) (s : State) : (s.updWarp f).tlbInvs = s.tlbInvs := rfl

/-! ### updReg -/

@[simp] theorem State.updReg_mem (f : Regs → Regs) (s : State) : (s.updReg f).mem = s.mem := rfl
@[simp] theorem State.updReg_now (f : Regs → Regs) (s : State) : (s.updReg f).now = s.now := rfl
@[simp] theorem State.updReg_tick (f : Regs → Regs) (s : State) : (s.updReg f).tick = s.tick := rfl
@[simp] theorem State.updReg_moved (f : Regs → Regs) (s : State) : (s.updReg f).moved = s.moved := rfl
@[simp] theorem State.updReg_freeCtr (f : Regs → Regs) (s : State) : (s.updReg f).freeCtr = s.freeCtr := rfl
@[simp] theorem State.updReg_uidCtr (f : Regs → Regs) (s : State) : (s.updReg f).uidCtr = s.uidCtr := rfl
@[simp] theorem State.updReg_turn (f : Regs → Regs) (s : State) : (s.updReg f).turn = s.turn := rfl
@[simp] theorem State.updReg_agenda (f : Regs → Regs) (s : State) : (s.updReg f).agenda = s.agenda := rfl
@[simp] theorem State.updReg_cur (f : Regs → Regs) (s : State) : (s.updReg f).cur = s.cur := rfl
@[simp] theorem State.updReg_booted (f : Regs → Regs) (s : State) : (s.updReg f).booted = s.booted := rfl
@[simp] theorem State.updReg_asidBase (f : Regs → Regs) (s : State) : (s.updReg f).asidBase = s.asidBase := rfl
@[simp] theorem State.updReg_ftBase (f : Regs → Regs) (s : State) : (s.updReg f).ftBase = s.ftBase := rfl
@[simp] theorem State.updReg_fabid (f : Regs → Regs) (s : State) : (s.updReg f).fabid = s.fabid := rfl
@[simp] theorem State.updReg_frtBase (f : Regs → Regs) (s : State) : (s.updReg f).frtBase = s.frtBase := rfl
@[simp] theorem State.updReg_gnl (f : Regs → Regs) (s : State) : (s.updReg f).gnl = s.gnl := rfl
@[simp] theorem State.updReg_hdmb (f : Regs → Regs) (s : State) : (s.updReg f).hdmb = s.hdmb := rfl
@[simp] theorem State.updReg_hdms (f : Regs → Regs) (s : State) : (s.updReg f).hdms = s.hdms := rfl
@[simp] theorem State.updReg_page (f : Regs → Regs) (s : State) : (s.updReg f).page = s.page := rfl
@[simp] theorem State.updReg_ports (f : Regs → Regs) (s : State) : (s.updReg f).ports = s.ports := rfl
@[simp] theorem State.updReg_imageSha (f : Regs → Regs) (s : State) : (s.updReg f).imageSha = s.imageSha := rfl
@[simp] theorem State.updReg_image (f : Regs → Regs) (s : State) : (s.updReg f).image = s.image := rfl
@[simp] theorem State.updReg_launches (f : Regs → Regs) (s : State) : (s.updReg f).launches = s.launches := rfl
@[simp] theorem State.updReg_contexts (f : Regs → Regs) (s : State) : (s.updReg f).contexts = s.contexts := rfl
@[simp] theorem State.updReg_dies (f : Regs → Regs) (s : State) : (s.updReg f).dies = s.dies := rfl
@[simp] theorem State.updReg_cores (f : Regs → Regs) (s : State) : (s.updReg f).cores = s.cores := rfl
@[simp] theorem State.updReg_inflight (f : Regs → Regs) (s : State) : (s.updReg f).inflight = s.inflight := rfl
@[simp] theorem State.updReg_msgs (f : Regs → Regs) (s : State) : (s.updReg f).msgs = s.msgs := rfl
@[simp] theorem State.updReg_acks (f : Regs → Regs) (s : State) : (s.updReg f).acks = s.acks := rfl
@[simp] theorem State.updReg_colls (f : Regs → Regs) (s : State) : (s.updReg f).colls = s.colls := rfl
@[simp] theorem State.updReg_lines (f : Regs → Regs) (s : State) : (s.updReg f).lines = s.lines := rfl
@[simp] theorem State.updReg_given (f : Regs → Regs) (s : State) : (s.updReg f).given = s.given := rfl
@[simp] theorem State.updReg_quar (f : Regs → Regs) (s : State) : (s.updReg f).quar = s.quar := rfl
@[simp] theorem State.updReg_recAreas (f : Regs → Regs) (s : State) : (s.updReg f).recAreas = s.recAreas := rfl
@[simp] theorem State.updReg_snapPool (f : Regs → Regs) (s : State) : (s.updReg f).snapPool = s.snapPool := rfl
@[simp] theorem State.updReg_tlbInvs (f : Regs → Regs) (s : State) : (s.updReg f).tlbInvs = s.tlbInvs := rfl

/-! ### updLane -/

@[simp] theorem State.updLane_mem (f : LaneState → LaneState) (s : State) : (s.updLane f).mem = s.mem := rfl
@[simp] theorem State.updLane_now (f : LaneState → LaneState) (s : State) : (s.updLane f).now = s.now := rfl
@[simp] theorem State.updLane_tick (f : LaneState → LaneState) (s : State) : (s.updLane f).tick = s.tick := rfl
@[simp] theorem State.updLane_moved (f : LaneState → LaneState) (s : State) : (s.updLane f).moved = s.moved := rfl
@[simp] theorem State.updLane_freeCtr (f : LaneState → LaneState) (s : State) : (s.updLane f).freeCtr = s.freeCtr := rfl
@[simp] theorem State.updLane_uidCtr (f : LaneState → LaneState) (s : State) : (s.updLane f).uidCtr = s.uidCtr := rfl
@[simp] theorem State.updLane_turn (f : LaneState → LaneState) (s : State) : (s.updLane f).turn = s.turn := rfl
@[simp] theorem State.updLane_agenda (f : LaneState → LaneState) (s : State) : (s.updLane f).agenda = s.agenda := rfl
@[simp] theorem State.updLane_cur (f : LaneState → LaneState) (s : State) : (s.updLane f).cur = s.cur := rfl
@[simp] theorem State.updLane_booted (f : LaneState → LaneState) (s : State) : (s.updLane f).booted = s.booted := rfl
@[simp] theorem State.updLane_asidBase (f : LaneState → LaneState) (s : State) : (s.updLane f).asidBase = s.asidBase := rfl
@[simp] theorem State.updLane_ftBase (f : LaneState → LaneState) (s : State) : (s.updLane f).ftBase = s.ftBase := rfl
@[simp] theorem State.updLane_fabid (f : LaneState → LaneState) (s : State) : (s.updLane f).fabid = s.fabid := rfl
@[simp] theorem State.updLane_frtBase (f : LaneState → LaneState) (s : State) : (s.updLane f).frtBase = s.frtBase := rfl
@[simp] theorem State.updLane_gnl (f : LaneState → LaneState) (s : State) : (s.updLane f).gnl = s.gnl := rfl
@[simp] theorem State.updLane_hdmb (f : LaneState → LaneState) (s : State) : (s.updLane f).hdmb = s.hdmb := rfl
@[simp] theorem State.updLane_hdms (f : LaneState → LaneState) (s : State) : (s.updLane f).hdms = s.hdms := rfl
@[simp] theorem State.updLane_page (f : LaneState → LaneState) (s : State) : (s.updLane f).page = s.page := rfl
@[simp] theorem State.updLane_ports (f : LaneState → LaneState) (s : State) : (s.updLane f).ports = s.ports := rfl
@[simp] theorem State.updLane_imageSha (f : LaneState → LaneState) (s : State) : (s.updLane f).imageSha = s.imageSha := rfl
@[simp] theorem State.updLane_image (f : LaneState → LaneState) (s : State) : (s.updLane f).image = s.image := rfl
@[simp] theorem State.updLane_launches (f : LaneState → LaneState) (s : State) : (s.updLane f).launches = s.launches := rfl
@[simp] theorem State.updLane_contexts (f : LaneState → LaneState) (s : State) : (s.updLane f).contexts = s.contexts := rfl
@[simp] theorem State.updLane_dies (f : LaneState → LaneState) (s : State) : (s.updLane f).dies = s.dies := rfl
@[simp] theorem State.updLane_cores (f : LaneState → LaneState) (s : State) : (s.updLane f).cores = s.cores := rfl
@[simp] theorem State.updLane_inflight (f : LaneState → LaneState) (s : State) : (s.updLane f).inflight = s.inflight := rfl
@[simp] theorem State.updLane_msgs (f : LaneState → LaneState) (s : State) : (s.updLane f).msgs = s.msgs := rfl
@[simp] theorem State.updLane_acks (f : LaneState → LaneState) (s : State) : (s.updLane f).acks = s.acks := rfl
@[simp] theorem State.updLane_colls (f : LaneState → LaneState) (s : State) : (s.updLane f).colls = s.colls := rfl
@[simp] theorem State.updLane_lines (f : LaneState → LaneState) (s : State) : (s.updLane f).lines = s.lines := rfl
@[simp] theorem State.updLane_given (f : LaneState → LaneState) (s : State) : (s.updLane f).given = s.given := rfl
@[simp] theorem State.updLane_quar (f : LaneState → LaneState) (s : State) : (s.updLane f).quar = s.quar := rfl
@[simp] theorem State.updLane_recAreas (f : LaneState → LaneState) (s : State) : (s.updLane f).recAreas = s.recAreas := rfl
@[simp] theorem State.updLane_snapPool (f : LaneState → LaneState) (s : State) : (s.updLane f).snapPool = s.snapPool := rfl
@[simp] theorem State.updLane_tlbInvs (f : LaneState → LaneState) (s : State) : (s.updLane f).tlbInvs = s.tlbInvs := rfl

/-! ### updOrd -/

@[simp] theorem State.updOrd_mem (f : OrdState → OrdState) (s : State) : (s.updOrd f).mem = s.mem := rfl
@[simp] theorem State.updOrd_now (f : OrdState → OrdState) (s : State) : (s.updOrd f).now = s.now := rfl
@[simp] theorem State.updOrd_tick (f : OrdState → OrdState) (s : State) : (s.updOrd f).tick = s.tick := rfl
@[simp] theorem State.updOrd_moved (f : OrdState → OrdState) (s : State) : (s.updOrd f).moved = s.moved := rfl
@[simp] theorem State.updOrd_freeCtr (f : OrdState → OrdState) (s : State) : (s.updOrd f).freeCtr = s.freeCtr := rfl
@[simp] theorem State.updOrd_uidCtr (f : OrdState → OrdState) (s : State) : (s.updOrd f).uidCtr = s.uidCtr := rfl
@[simp] theorem State.updOrd_turn (f : OrdState → OrdState) (s : State) : (s.updOrd f).turn = s.turn := rfl
@[simp] theorem State.updOrd_agenda (f : OrdState → OrdState) (s : State) : (s.updOrd f).agenda = s.agenda := rfl
@[simp] theorem State.updOrd_cur (f : OrdState → OrdState) (s : State) : (s.updOrd f).cur = s.cur := rfl
@[simp] theorem State.updOrd_booted (f : OrdState → OrdState) (s : State) : (s.updOrd f).booted = s.booted := rfl
@[simp] theorem State.updOrd_asidBase (f : OrdState → OrdState) (s : State) : (s.updOrd f).asidBase = s.asidBase := rfl
@[simp] theorem State.updOrd_ftBase (f : OrdState → OrdState) (s : State) : (s.updOrd f).ftBase = s.ftBase := rfl
@[simp] theorem State.updOrd_fabid (f : OrdState → OrdState) (s : State) : (s.updOrd f).fabid = s.fabid := rfl
@[simp] theorem State.updOrd_frtBase (f : OrdState → OrdState) (s : State) : (s.updOrd f).frtBase = s.frtBase := rfl
@[simp] theorem State.updOrd_gnl (f : OrdState → OrdState) (s : State) : (s.updOrd f).gnl = s.gnl := rfl
@[simp] theorem State.updOrd_hdmb (f : OrdState → OrdState) (s : State) : (s.updOrd f).hdmb = s.hdmb := rfl
@[simp] theorem State.updOrd_hdms (f : OrdState → OrdState) (s : State) : (s.updOrd f).hdms = s.hdms := rfl
@[simp] theorem State.updOrd_page (f : OrdState → OrdState) (s : State) : (s.updOrd f).page = s.page := rfl
@[simp] theorem State.updOrd_ports (f : OrdState → OrdState) (s : State) : (s.updOrd f).ports = s.ports := rfl
@[simp] theorem State.updOrd_imageSha (f : OrdState → OrdState) (s : State) : (s.updOrd f).imageSha = s.imageSha := rfl
@[simp] theorem State.updOrd_image (f : OrdState → OrdState) (s : State) : (s.updOrd f).image = s.image := rfl
@[simp] theorem State.updOrd_launches (f : OrdState → OrdState) (s : State) : (s.updOrd f).launches = s.launches := rfl
@[simp] theorem State.updOrd_contexts (f : OrdState → OrdState) (s : State) : (s.updOrd f).contexts = s.contexts := rfl
@[simp] theorem State.updOrd_dies (f : OrdState → OrdState) (s : State) : (s.updOrd f).dies = s.dies := rfl
@[simp] theorem State.updOrd_cores (f : OrdState → OrdState) (s : State) : (s.updOrd f).cores = s.cores := rfl
@[simp] theorem State.updOrd_inflight (f : OrdState → OrdState) (s : State) : (s.updOrd f).inflight = s.inflight := rfl
@[simp] theorem State.updOrd_msgs (f : OrdState → OrdState) (s : State) : (s.updOrd f).msgs = s.msgs := rfl
@[simp] theorem State.updOrd_acks (f : OrdState → OrdState) (s : State) : (s.updOrd f).acks = s.acks := rfl
@[simp] theorem State.updOrd_colls (f : OrdState → OrdState) (s : State) : (s.updOrd f).colls = s.colls := rfl
@[simp] theorem State.updOrd_lines (f : OrdState → OrdState) (s : State) : (s.updOrd f).lines = s.lines := rfl
@[simp] theorem State.updOrd_given (f : OrdState → OrdState) (s : State) : (s.updOrd f).given = s.given := rfl
@[simp] theorem State.updOrd_quar (f : OrdState → OrdState) (s : State) : (s.updOrd f).quar = s.quar := rfl
@[simp] theorem State.updOrd_recAreas (f : OrdState → OrdState) (s : State) : (s.updOrd f).recAreas = s.recAreas := rfl
@[simp] theorem State.updOrd_snapPool (f : OrdState → OrdState) (s : State) : (s.updOrd f).snapPool = s.snapPool := rfl
@[simp] theorem State.updOrd_tlbInvs (f : OrdState → OrdState) (s : State) : (s.updOrd f).tlbInvs = s.tlbInvs := rfl

/-! ### updSplit -/

@[simp] theorem State.updSplit_mem (f : Split → Split) (s : State) : (s.updSplit f).mem = s.mem := rfl
@[simp] theorem State.updSplit_now (f : Split → Split) (s : State) : (s.updSplit f).now = s.now := rfl
@[simp] theorem State.updSplit_tick (f : Split → Split) (s : State) : (s.updSplit f).tick = s.tick := rfl
@[simp] theorem State.updSplit_moved (f : Split → Split) (s : State) : (s.updSplit f).moved = s.moved := rfl
@[simp] theorem State.updSplit_freeCtr (f : Split → Split) (s : State) : (s.updSplit f).freeCtr = s.freeCtr := rfl
@[simp] theorem State.updSplit_uidCtr (f : Split → Split) (s : State) : (s.updSplit f).uidCtr = s.uidCtr := rfl
@[simp] theorem State.updSplit_turn (f : Split → Split) (s : State) : (s.updSplit f).turn = s.turn := rfl
@[simp] theorem State.updSplit_agenda (f : Split → Split) (s : State) : (s.updSplit f).agenda = s.agenda := rfl
@[simp] theorem State.updSplit_cur (f : Split → Split) (s : State) : (s.updSplit f).cur = s.cur := rfl
@[simp] theorem State.updSplit_booted (f : Split → Split) (s : State) : (s.updSplit f).booted = s.booted := rfl
@[simp] theorem State.updSplit_asidBase (f : Split → Split) (s : State) : (s.updSplit f).asidBase = s.asidBase := rfl
@[simp] theorem State.updSplit_ftBase (f : Split → Split) (s : State) : (s.updSplit f).ftBase = s.ftBase := rfl
@[simp] theorem State.updSplit_fabid (f : Split → Split) (s : State) : (s.updSplit f).fabid = s.fabid := rfl
@[simp] theorem State.updSplit_frtBase (f : Split → Split) (s : State) : (s.updSplit f).frtBase = s.frtBase := rfl
@[simp] theorem State.updSplit_gnl (f : Split → Split) (s : State) : (s.updSplit f).gnl = s.gnl := rfl
@[simp] theorem State.updSplit_hdmb (f : Split → Split) (s : State) : (s.updSplit f).hdmb = s.hdmb := rfl
@[simp] theorem State.updSplit_hdms (f : Split → Split) (s : State) : (s.updSplit f).hdms = s.hdms := rfl
@[simp] theorem State.updSplit_page (f : Split → Split) (s : State) : (s.updSplit f).page = s.page := rfl
@[simp] theorem State.updSplit_ports (f : Split → Split) (s : State) : (s.updSplit f).ports = s.ports := rfl
@[simp] theorem State.updSplit_imageSha (f : Split → Split) (s : State) : (s.updSplit f).imageSha = s.imageSha := rfl
@[simp] theorem State.updSplit_image (f : Split → Split) (s : State) : (s.updSplit f).image = s.image := rfl
@[simp] theorem State.updSplit_launches (f : Split → Split) (s : State) : (s.updSplit f).launches = s.launches := rfl
@[simp] theorem State.updSplit_contexts (f : Split → Split) (s : State) : (s.updSplit f).contexts = s.contexts := rfl
@[simp] theorem State.updSplit_dies (f : Split → Split) (s : State) : (s.updSplit f).dies = s.dies := rfl
@[simp] theorem State.updSplit_cores (f : Split → Split) (s : State) : (s.updSplit f).cores = s.cores := rfl
@[simp] theorem State.updSplit_inflight (f : Split → Split) (s : State) : (s.updSplit f).inflight = s.inflight := rfl
@[simp] theorem State.updSplit_msgs (f : Split → Split) (s : State) : (s.updSplit f).msgs = s.msgs := rfl
@[simp] theorem State.updSplit_acks (f : Split → Split) (s : State) : (s.updSplit f).acks = s.acks := rfl
@[simp] theorem State.updSplit_colls (f : Split → Split) (s : State) : (s.updSplit f).colls = s.colls := rfl
@[simp] theorem State.updSplit_lines (f : Split → Split) (s : State) : (s.updSplit f).lines = s.lines := rfl
@[simp] theorem State.updSplit_given (f : Split → Split) (s : State) : (s.updSplit f).given = s.given := rfl
@[simp] theorem State.updSplit_quar (f : Split → Split) (s : State) : (s.updSplit f).quar = s.quar := rfl
@[simp] theorem State.updSplit_recAreas (f : Split → Split) (s : State) : (s.updSplit f).recAreas = s.recAreas := rfl
@[simp] theorem State.updSplit_snapPool (f : Split → Split) (s : State) : (s.updSplit f).snapPool = s.snapPool := rfl
@[simp] theorem State.updSplit_tlbInvs (f : Split → Split) (s : State) : (s.updSplit f).tlbInvs = s.tlbInvs := rfl

/-! ### free -/

@[simp] theorem State.free_mem (s : State) : (s.free).2.mem = s.mem := rfl
@[simp] theorem State.free_now (s : State) : (s.free).2.now = s.now := rfl
@[simp] theorem State.free_tick (s : State) : (s.free).2.tick = s.tick := rfl
@[simp] theorem State.free_moved (s : State) : (s.free).2.moved = s.moved := rfl
@[simp] theorem State.free_freeCtr (s : State) : (s.free).2.freeCtr = s.freeCtr + 1 := rfl
@[simp] theorem State.free_uidCtr (s : State) : (s.free).2.uidCtr = s.uidCtr := rfl
@[simp] theorem State.free_turn (s : State) : (s.free).2.turn = s.turn := rfl
@[simp] theorem State.free_agenda (s : State) : (s.free).2.agenda = s.agenda := rfl
@[simp] theorem State.free_cur (s : State) : (s.free).2.cur = s.cur := rfl
@[simp] theorem State.free_booted (s : State) : (s.free).2.booted = s.booted := rfl
@[simp] theorem State.free_asidBase (s : State) : (s.free).2.asidBase = s.asidBase := rfl
@[simp] theorem State.free_ftBase (s : State) : (s.free).2.ftBase = s.ftBase := rfl
@[simp] theorem State.free_fabid (s : State) : (s.free).2.fabid = s.fabid := rfl
@[simp] theorem State.free_frtBase (s : State) : (s.free).2.frtBase = s.frtBase := rfl
@[simp] theorem State.free_gnl (s : State) : (s.free).2.gnl = s.gnl := rfl
@[simp] theorem State.free_hdmb (s : State) : (s.free).2.hdmb = s.hdmb := rfl
@[simp] theorem State.free_hdms (s : State) : (s.free).2.hdms = s.hdms := rfl
@[simp] theorem State.free_page (s : State) : (s.free).2.page = s.page := rfl
@[simp] theorem State.free_ports (s : State) : (s.free).2.ports = s.ports := rfl
@[simp] theorem State.free_imageSha (s : State) : (s.free).2.imageSha = s.imageSha := rfl
@[simp] theorem State.free_image (s : State) : (s.free).2.image = s.image := rfl
@[simp] theorem State.free_launches (s : State) : (s.free).2.launches = s.launches := rfl
@[simp] theorem State.free_blocks (s : State) : (s.free).2.blocks = s.blocks := rfl
@[simp] theorem State.free_contexts (s : State) : (s.free).2.contexts = s.contexts := rfl
@[simp] theorem State.free_dies (s : State) : (s.free).2.dies = s.dies := rfl
@[simp] theorem State.free_cores (s : State) : (s.free).2.cores = s.cores := rfl
@[simp] theorem State.free_inflight (s : State) : (s.free).2.inflight = s.inflight := rfl
@[simp] theorem State.free_msgs (s : State) : (s.free).2.msgs = s.msgs := rfl
@[simp] theorem State.free_acks (s : State) : (s.free).2.acks = s.acks := rfl
@[simp] theorem State.free_colls (s : State) : (s.free).2.colls = s.colls := rfl
@[simp] theorem State.free_lines (s : State) : (s.free).2.lines = s.lines := rfl
@[simp] theorem State.free_given (s : State) : (s.free).2.given = s.given := rfl
@[simp] theorem State.free_quar (s : State) : (s.free).2.quar = s.quar := rfl
@[simp] theorem State.free_recAreas (s : State) : (s.free).2.recAreas = s.recAreas := rfl
@[simp] theorem State.free_snapPool (s : State) : (s.free).2.snapPool = s.snapPool := rfl
@[simp] theorem State.free_tlbInvs (s : State) : (s.free).2.tlbInvs = s.tlbInvs := rfl

/-! ### freeBool -/

@[simp] theorem State.freeBool_mem (s : State) : (s.freeBool).2.mem = s.mem := rfl
@[simp] theorem State.freeBool_now (s : State) : (s.freeBool).2.now = s.now := rfl
@[simp] theorem State.freeBool_tick (s : State) : (s.freeBool).2.tick = s.tick := rfl
@[simp] theorem State.freeBool_moved (s : State) : (s.freeBool).2.moved = s.moved := rfl
@[simp] theorem State.freeBool_freeCtr (s : State) : (s.freeBool).2.freeCtr = s.freeCtr + 1 := rfl
@[simp] theorem State.freeBool_uidCtr (s : State) : (s.freeBool).2.uidCtr = s.uidCtr := rfl
@[simp] theorem State.freeBool_turn (s : State) : (s.freeBool).2.turn = s.turn := rfl
@[simp] theorem State.freeBool_agenda (s : State) : (s.freeBool).2.agenda = s.agenda := rfl
@[simp] theorem State.freeBool_cur (s : State) : (s.freeBool).2.cur = s.cur := rfl
@[simp] theorem State.freeBool_booted (s : State) : (s.freeBool).2.booted = s.booted := rfl
@[simp] theorem State.freeBool_asidBase (s : State) : (s.freeBool).2.asidBase = s.asidBase := rfl
@[simp] theorem State.freeBool_ftBase (s : State) : (s.freeBool).2.ftBase = s.ftBase := rfl
@[simp] theorem State.freeBool_fabid (s : State) : (s.freeBool).2.fabid = s.fabid := rfl
@[simp] theorem State.freeBool_frtBase (s : State) : (s.freeBool).2.frtBase = s.frtBase := rfl
@[simp] theorem State.freeBool_gnl (s : State) : (s.freeBool).2.gnl = s.gnl := rfl
@[simp] theorem State.freeBool_hdmb (s : State) : (s.freeBool).2.hdmb = s.hdmb := rfl
@[simp] theorem State.freeBool_hdms (s : State) : (s.freeBool).2.hdms = s.hdms := rfl
@[simp] theorem State.freeBool_page (s : State) : (s.freeBool).2.page = s.page := rfl
@[simp] theorem State.freeBool_ports (s : State) : (s.freeBool).2.ports = s.ports := rfl
@[simp] theorem State.freeBool_imageSha (s : State) : (s.freeBool).2.imageSha = s.imageSha := rfl
@[simp] theorem State.freeBool_image (s : State) : (s.freeBool).2.image = s.image := rfl
@[simp] theorem State.freeBool_launches (s : State) : (s.freeBool).2.launches = s.launches := rfl
@[simp] theorem State.freeBool_blocks (s : State) : (s.freeBool).2.blocks = s.blocks := rfl
@[simp] theorem State.freeBool_contexts (s : State) : (s.freeBool).2.contexts = s.contexts := rfl
@[simp] theorem State.freeBool_dies (s : State) : (s.freeBool).2.dies = s.dies := rfl
@[simp] theorem State.freeBool_cores (s : State) : (s.freeBool).2.cores = s.cores := rfl
@[simp] theorem State.freeBool_inflight (s : State) : (s.freeBool).2.inflight = s.inflight := rfl
@[simp] theorem State.freeBool_msgs (s : State) : (s.freeBool).2.msgs = s.msgs := rfl
@[simp] theorem State.freeBool_acks (s : State) : (s.freeBool).2.acks = s.acks := rfl
@[simp] theorem State.freeBool_colls (s : State) : (s.freeBool).2.colls = s.colls := rfl
@[simp] theorem State.freeBool_lines (s : State) : (s.freeBool).2.lines = s.lines := rfl
@[simp] theorem State.freeBool_given (s : State) : (s.freeBool).2.given = s.given := rfl
@[simp] theorem State.freeBool_quar (s : State) : (s.freeBool).2.quar = s.quar := rfl
@[simp] theorem State.freeBool_recAreas (s : State) : (s.freeBool).2.recAreas = s.recAreas := rfl
@[simp] theorem State.freeBool_snapPool (s : State) : (s.freeBool).2.snapPool = s.snapPool := rfl
@[simp] theorem State.freeBool_tlbInvs (s : State) : (s.freeBool).2.tlbInvs = s.tlbInvs := rfl

/-! ### uid -/

@[simp] theorem State.uid_mem (s : State) : (s.uid).2.mem = s.mem := rfl
@[simp] theorem State.uid_now (s : State) : (s.uid).2.now = s.now := rfl
@[simp] theorem State.uid_tick (s : State) : (s.uid).2.tick = s.tick := rfl
@[simp] theorem State.uid_moved (s : State) : (s.uid).2.moved = s.moved := rfl
@[simp] theorem State.uid_freeCtr (s : State) : (s.uid).2.freeCtr = s.freeCtr := rfl
@[simp] theorem State.uid_uidCtr (s : State) : (s.uid).2.uidCtr = s.uidCtr + 1 := rfl
@[simp] theorem State.uid_turn (s : State) : (s.uid).2.turn = s.turn := rfl
@[simp] theorem State.uid_agenda (s : State) : (s.uid).2.agenda = s.agenda := rfl
@[simp] theorem State.uid_cur (s : State) : (s.uid).2.cur = s.cur := rfl
@[simp] theorem State.uid_booted (s : State) : (s.uid).2.booted = s.booted := rfl
@[simp] theorem State.uid_asidBase (s : State) : (s.uid).2.asidBase = s.asidBase := rfl
@[simp] theorem State.uid_ftBase (s : State) : (s.uid).2.ftBase = s.ftBase := rfl
@[simp] theorem State.uid_fabid (s : State) : (s.uid).2.fabid = s.fabid := rfl
@[simp] theorem State.uid_frtBase (s : State) : (s.uid).2.frtBase = s.frtBase := rfl
@[simp] theorem State.uid_gnl (s : State) : (s.uid).2.gnl = s.gnl := rfl
@[simp] theorem State.uid_hdmb (s : State) : (s.uid).2.hdmb = s.hdmb := rfl
@[simp] theorem State.uid_hdms (s : State) : (s.uid).2.hdms = s.hdms := rfl
@[simp] theorem State.uid_page (s : State) : (s.uid).2.page = s.page := rfl
@[simp] theorem State.uid_ports (s : State) : (s.uid).2.ports = s.ports := rfl
@[simp] theorem State.uid_imageSha (s : State) : (s.uid).2.imageSha = s.imageSha := rfl
@[simp] theorem State.uid_image (s : State) : (s.uid).2.image = s.image := rfl
@[simp] theorem State.uid_launches (s : State) : (s.uid).2.launches = s.launches := rfl
@[simp] theorem State.uid_blocks (s : State) : (s.uid).2.blocks = s.blocks := rfl
@[simp] theorem State.uid_contexts (s : State) : (s.uid).2.contexts = s.contexts := rfl
@[simp] theorem State.uid_dies (s : State) : (s.uid).2.dies = s.dies := rfl
@[simp] theorem State.uid_cores (s : State) : (s.uid).2.cores = s.cores := rfl
@[simp] theorem State.uid_inflight (s : State) : (s.uid).2.inflight = s.inflight := rfl
@[simp] theorem State.uid_msgs (s : State) : (s.uid).2.msgs = s.msgs := rfl
@[simp] theorem State.uid_acks (s : State) : (s.uid).2.acks = s.acks := rfl
@[simp] theorem State.uid_colls (s : State) : (s.uid).2.colls = s.colls := rfl
@[simp] theorem State.uid_lines (s : State) : (s.uid).2.lines = s.lines := rfl
@[simp] theorem State.uid_given (s : State) : (s.uid).2.given = s.given := rfl
@[simp] theorem State.uid_quar (s : State) : (s.uid).2.quar = s.quar := rfl
@[simp] theorem State.uid_recAreas (s : State) : (s.uid).2.recAreas = s.recAreas := rfl
@[simp] theorem State.uid_snapPool (s : State) : (s.uid).2.snapPool = s.snapPool := rfl
@[simp] theorem State.uid_tlbInvs (s : State) : (s.uid).2.tlbInvs = s.tlbInvs := rfl

end Sys2Proof.Machine
end

