-- ==== Sys2Proof/Laws/Parts.lean ====
section
/-!
SUPPORT. What the parts of the state (dies, cores, blocks, the issuing warp and its split) are after an update.
-/

namespace Sys2Proof.Machine

/-! ### Dies, cores, blocks -/

@[simp] theorem State.die_updDie_same (s : State) (d : Nat) (f : Die → Die) : (s.updDie d f).die d = f (s.die d) := by
  simp [State.die, State.updDie]

theorem State.die_updDie_other (s : State) {d e : Nat} (f : Die → Die) (h : e ≠ d) : (s.updDie d f).die e = s.die e := by
  simp [State.die, State.updDie, AMap.getD_set_other _ _ _ h]

@[simp] theorem State.core_updCore_same (s : State) (c : Nat) (f : CoreState → CoreState) :
    (s.updCore c f).core c = f (s.core c) := by
  simp [State.core, State.updCore]

theorem State.core_updCore_other (s : State) {c e : Nat} (f : CoreState → CoreState) (h : e ≠ c) :
    (s.updCore c f).core e = s.core e := by
  simp [State.core, State.updCore, AMap.getD_set_other _ _ _ h]

@[simp] theorem State.body_updBody_same (s : State) (c : Nat) (f : CoreBody → CoreBody) :
    ((s.updBody c f).core c).body = f (s.core c).body := by
  simp [State.updBody]

theorem State.block_updBlock_of {s : State} {u : Nat} {b : Block} (f : Block → Block) (h : AMap.get? s.blocks u = some b) :
    (s.updBlock u f).block u = f b := by
  simp [State.block, State.updBlock, AMap.getD_modify_of f _ h]

theorem State.block_updBlock_other (s : State) {u v : Nat} (f : Block → Block) (h : v ≠ u) :
    (s.updBlock u f).block v = s.block v := by
  simp [State.block, State.updBlock, AMap.getD_modify_other _ _ _ h]

theorem State.block_of {s : State} {u : Nat} {b : Block} (h : AMap.get? s.blocks u = some b) : s.block u = b := by
  simp [State.block, AMap.getD_of _ h]

/-! ### The issuing split -/

theorem State.Issues.curBlock {s : State} {b : Block} {w : Warp} {sp : Split} (h : s.Issues b w sp) : s.curBlock = b := by
  simp [State.curBlock, State.block_of h.1]

theorem State.Issues.curWarp {s : State} {b : Block} {w : Warp} {sp : Split} (h : s.Issues b w sp) : s.curWarp = w := by
  simp [State.curWarp, h.curBlock, AMap.getD_of _ h.2.1]

theorem State.Issues.curSplit {s : State} {b : Block} {w : Warp} {sp : Split} (h : s.Issues b w sp) : s.curSplit = sp := by
  simp [State.curSplit, h.curWarp, AMap.getD_of _ h.2.2]

/-- Changing the issuing warp changes it in its block and nothing else of the block. -/
theorem State.Issues.updWarp {s : State} {b : Block} {w : Warp} {sp : Split} (h : s.Issues b w sp) (f : Warp → Warp)
    {sp' : Split} (hs : AMap.get? (f w).splits s.cur.split = some sp') :
    (s.updWarp f).Issues { b with warps := AMap.modify b.warps s.cur.warp f } (f w) sp' := by
  refine ⟨?_, ?_, hs⟩
  · simp [State.updWarp, State.updWarpOf, State.updBlock, Block.updWarp, h.1]
  · simp [State.updWarp, State.updWarpOf, h.2.1]

theorem State.Issues.updReg {s : State} {b : Block} {w : Warp} {sp : Split} (h : s.Issues b w sp) (f : Regs → Regs) :
    (s.updReg f).Issues { b with warps := AMap.modify b.warps s.cur.warp fun w => { w with reg := f w.reg } }
      { w with reg := f w.reg } sp :=
  h.updWarp (fun w => { w with reg := f w.reg }) h.2.2

theorem State.Issues.updOrd {s : State} {b : Block} {w : Warp} {sp : Split} (h : s.Issues b w sp) (f : OrdState → OrdState) :
    (s.updOrd f).Issues { b with warps := AMap.modify b.warps s.cur.warp fun w => { w with ord := f w.ord } }
      { w with ord := f w.ord } sp :=
  h.updWarp (fun w => { w with ord := f w.ord }) h.2.2

theorem State.Issues.updLane {s : State} {b : Block} {w : Warp} {sp : Split} (h : s.Issues b w sp)
    (f : LaneState → LaneState) :
    (s.updLane f).Issues { b with warps := AMap.modify b.warps s.cur.warp fun w => { w with lane := f w.lane } }
      { w with lane := f w.lane } sp :=
  h.updWarp (fun w => { w with lane := f w.lane }) h.2.2

theorem State.Issues.updSplit {s : State} {b : Block} {w : Warp} {sp : Split} (h : s.Issues b w sp) (f : Split → Split) :
    (s.updSplit f).Issues
      { b with warps := AMap.modify b.warps s.cur.warp fun w => { w with splits := AMap.modify w.splits s.cur.split f } }
      { w with splits := AMap.modify w.splits s.cur.split f } (f sp) :=
  h.updWarp (fun w => { w with splits := AMap.modify w.splits s.cur.split f }) (by simp [h.2.2])

end Sys2Proof.Machine
end

