-- ==== Sys2Proof/Laws/Ops.lean ====
section
/-!
SUPPORT. What the shared operations can do: how a meaning ends, the checks at issue, and, for each operation, what it
leaves of memory and of time.
-/

namespace Sys2Proof.Machine

/-! ### How a meaning ends -/

@[simp] theorem finish_ok (t s : State) : finish (.ok t) s = .next (advance t) := rfl

@[simp] theorem finish_trap (q : TrapReq) (s : State) : finish (.error (.trap q)) s = .next (raiseTrap q s) := rfl

@[simp] theorem finish_stall (s : State) : finish (.error .stall) s = .next s.waits := rfl

@[simp] theorem finish_again (t s : State) : finish (.error (.again t)) s = .next t := rfl

/-- A meaning always has a next state. -/
theorem finish_next (r : Res) (s : State) : ∃ t, finish r s = .next t := by
  rcases r with ⟨_ | _ | _⟩ | t <;> exact ⟨_, rfl⟩

/-! ### Checks -/

@[simp] theorem trapIf_zero (s : State) (k : Nat) : trapIf s k 0 = .ok () := rfl

theorem trapIf_some {s : State} {k : Nat} {m : Mask} (h : m ≠ 0) : trapIf s k m = .error (.trap (s.trapReq k m)) := by
  unfold trapIf; exact if_neg h

theorem trapIf_ok {s : State} {k : Nat} {m : Mask} (h : trapIf s k m = .ok ()) : m = 0 := by
  unfold trapIf at h; split at h
  · assumption
  · cases h

@[simp] theorem stallIf_false : stallIf false = .ok () := rfl

@[simp] theorem stallIf_true : stallIf true = .error .stall := rfl

theorem stallIf_ok {c : Bool} (h : stallIf c = .ok ()) : c = false := by
  cases c with
  | false => rfl
  | true => cases h

@[simp] theorem failWith_nil (s : State) (k : Nat) (w : Bool) : failWith s k w [] = .ok () := rfl

@[simp] theorem failRace_nil (s : State) (w : Bool) : failRace s w [] = .ok () := rfl

/-- A result followed by more work: the work is done on the value. -/
theorem bind_ok_eq {ε α β : Type} {x : Except ε α} {a : α} (h : x = .ok a) (f : α → Except ε β) : (x >>= f) = f a := by
  subst h; rfl

/-- What comes out of a sequence has come through its first part. -/
theorem bind_eq_ok {ε α β : Type} {x : Except ε α} {f : α → Except ε β} {b : β} (h : (x >>= f) = .ok b) :
    ∃ a, x = .ok a ∧ f a = .ok b := by
  cases x with
  | error e => cases h
  | ok a => exact ⟨a, rfl, h⟩

/-- An instruction that computes completes when its operands can be read and its destination written. -/
theorem runAlu_ok {g : Guard} {qs : List SrcSpec} {d : Dst} {f : Reading → Fin 32 → Word × Flags} {s : State} {r : Reading}
    (hc : checkIssue g (opsOf d.op qs) false s = .ok ()) (hr : readAll g qs s = .ok r)
    (hd : destCheck r [putOf d (s.active g) (tab fun l => (f r l).1)] s = .ok ()) :
    runAlu g qs d f s = .ok (setFlags (flagsOn (s.active g) fun l => (f r l).2)
      (written r [putOf d (s.active g) (tab fun l => (f r l).1)] s)) := by
  simp only [runAlu, commit]
  rw [bind_ok_eq hc, bind_ok_eq hr]
  simp only [hd, tab_get]
  rfl

/-- The same for an instruction that writes a pair. -/
theorem runPair_ok {g : Guard} {qs : List SrcSpec} {d : Dst} {f : Reading → Fin 32 → DWord × Flags} {s : State}
    {r : Reading} (hc : checkIssue g (opsOf d.op qs) false s = .ok ()) (hr : readAll g qs s = .ok r)
    (hd : destCheck r (put2Of d (s.active g) (tab fun l => (f r l).1)) s = .ok ()) :
    runPair g qs d f s = .ok (setFlags (flagsOn (s.active g) fun l => (f r l).2)
      (written r (put2Of d (s.active g) (tab fun l => (f r l).1)) s)) := by
  simp only [runPair, commit]
  rw [bind_ok_eq hc, bind_ok_eq hr]
  simp only [hd, tab_get]
  rfl

/-- The end of reads and writes has the effect `written` when no check of the destination fails. -/
theorem commit_ok {r : Reading} {qs : List Put} {s : State} (h : destCheck r qs s = .ok ()) :
    commit r qs s = .ok (written r qs s) := by
  simp only [commit]; rw [bind_ok_eq h]; rfl

theorem commit_eq_ok {r : Reading} {qs : List Put} {s t : State} (h : commit r qs s = .ok t) :
    destCheck r qs s = .ok () ∧ t = written r qs s := by
  obtain ⟨_, h1, h2⟩ := bind_eq_ok h
  cases h2
  exact ⟨h1, rfl⟩

/-! ### What stays of memory -/

/-- What every step of a fold keeps, the fold keeps. -/
theorem foldl_keeps {α β γ : Type} (p : β → γ) (f : β → α → β) (hf : ∀ b a, p (f b a) = p b) (l : List α) (b : β) :
    p (l.foldl f b) = p b := by
  induction l generalizing b with
  | nil => rfl
  | cons a t ih => rw [List.foldl_cons, ih, hf]

@[simp] theorem setFlags_mem (f : Flags) (s : State) : (setFlags f s).mem = s.mem := rfl

@[simp] theorem waits_mem (s : State) : s.waits.mem = s.mem := rfl

@[simp] theorem ticked_mem (s : State) : s.ticked.mem = s.mem := rfl

@[simp] theorem advance_mem (s : State) : (advance s).mem = s.mem := rfl

@[simp] theorem shareTake_mem (rel : Nat → Nat) (s : State) : (shareTake rel s).mem = s.mem := by
  unfold shareTake; split <;> rfl

@[simp] theorem putOther_mem (q : Put) (s : State) : (putOther q s).mem = s.mem := by
  unfold putOther; split
  · rfl
  · split <;> rfl

@[simp] theorem holdLatches_mem (h : List (Lanes Word)) (s : State) : (holdLatches h s).mem = s.mem := by
  unfold holdLatches; simp only []
  refine foldl_keeps State.mem _ ?_ h s
  intro _ _; rfl

@[simp] theorem written_mem (r : Reading) (qs : List Put) (s : State) : (written r qs s).mem = r.st.mem := by
  unfold written
  rw [foldl_keeps State.mem _ (fun b q => putOther_mem q b)]
  simp

@[simp] theorem sendIrq_mem (n : Nat) (s : State) : (sendIrq n s).mem = s.mem := by
  unfold sendIrq sendGnl; split <;> rfl

@[simp] theorem freeze_mem (d : Nat) (s : State) : (freeze d s).mem = s.mem := by
  unfold freeze; split <;> simp

@[simp] theorem logError_mem (d t : Nat) (w : Word) (x : DWord) (s : State) : (logError d t w x s).mem = s.mem := rfl

@[simp] theorem dropPeer_mem (u : Nat) (s : State) : (dropPeer u s).mem = s.mem := by
  unfold dropPeer; simp only []; split <;> simp

@[simp] theorem dropEndpoint_mem (u : Nat) (s : State) : (dropEndpoint u s).mem = s.mem := by
  unfold dropEndpoint; simp only []; split <;> simp

@[simp] theorem stripBlock_mem (u : Nat) (s : State) : (stripBlock u s).mem = s.mem := rfl

@[simp] theorem discardBlock_mem (u : Nat) (s : State) : (discardBlock u s).mem = s.mem := by
  unfold discardBlock; simp only []; split <;> simp

@[simp] theorem discardLaunch_mem (l : Nat) (s : State) : (discardLaunch l s).mem = s.mem := by
  unfold discardLaunch
  exact foldl_keeps State.mem _ (fun b u => discardBlock_mem u b) _ s

@[simp] theorem endLaunch_mem (l : Nat) (s : State) : (endLaunch l s).mem = s.mem := by
  unfold endLaunch; simp only []; split <;> simp

@[simp] theorem postFault_mem (d : Nat) (w : Vector Word 4) (p : Poster) (s : State) : (postFault d w p s).2.mem = s.mem := by
  unfold postFault; split <;> simp

/-- A write of the device over the GNL keeps the form of memory, whether it goes out or waits. -/
theorem sendGnl_wf {s : State} (w : s.mem.wf = true) (g : GnlWrite) : (sendGnl g s).mem.wf = true := by
  unfold sendGnl; split
  · cases g with
    | irq n => exact w
    | mirror pa bs => exact Mem.wf_writeAll w _
  · exact w

/-- An entry of the black box changes memory only where it is mirrored, and keeps its form. -/
theorem bbWrite_wf {s : State} (w : s.mem.wf = true) (d : Nat) (e : BbEnt) : (bbWrite d e s).mem.wf = true := by
  unfold bbWrite; simp only []; split
  · exact w
  · split
    · simpa using w
    · exact sendGnl_wf (by simpa using w) _

theorem terminate_wf {s : State} (w : s.mem.wf = true) (u t k : Nat) (a : Word) (x : DWord) :
    (terminate u t k a x s).mem.wf = true := by
  unfold terminate; simp only [endLaunch_mem]; exact bbWrite_wf w _ _

theorem doubleFault_wf {s : State} (w : s.mem.wf = true) (c : Cursor) (q : TrapReq) : (doubleFault c q s).mem.wf = true :=
  terminate_wf w _ _ _ _ _

theorem logTrap_wf {s : State} (w : s.mem.wf = true) (c : Cursor) (q : TrapReq) : (logTrap c q s).mem.wf = true :=
  bbWrite_wf w _ _

theorem enterTrap_wf {s : State} (w : s.mem.wf = true) (c : Cursor) (q : TrapReq) (a : Option Nat) :
    (enterTrap c q a s).mem.wf = true := by
  unfold enterTrap; simp only []
  split
  · exact terminate_wf w _ _ _ _ _
  · split
    · exact doubleFault_wf w _ _
    · exact logTrap_wf (by simpa using w) _ _

theorem worldNote_wf {s : State} (w : s.mem.wf = true) (d asid c : Nat) (a : Word) (va : DWord) :
    (worldNote d asid c a va s).mem.wf = true := by
  unfold worldNote; split
  · exact bbWrite_wf w _ _
  · exact w

theorem systemTrap_wf {s : State} (w : s.mem.wf = true) (c : Cursor) (q : TrapReq) : (systemTrap c q s).mem.wf = true := by
  unfold systemTrap; simp only []
  exact worldNote_wf (by simpa using w) _ _ _ _ _

theorem postTrap_wf {s : State} (w : s.mem.wf = true) (c : Cursor) (q : TrapReq) (a : Option Nat) :
    (postTrap c q a s).mem.wf = true := by
  simpa [postTrap] using systemTrap_wf w c q

/-- Taking an exception keeps the form of memory. -/
theorem takeTrap_wf {s : State} (w : s.mem.wf = true) (c : Cursor) (q : TrapReq) : (takeTrap c q s).mem.wf = true := by
  unfold takeTrap; simp only []
  split
  · exact terminate_wf w _ _ _ _ _
  · split
    · exact systemTrap_wf w _ _
    · split
      · simpa using w
      · split
        · exact doubleFault_wf w _ _
        · split
          · exact postTrap_wf w _ _ _
          · exact enterTrap_wf w _ _ _

/-- A trap that waits for another split's changes no memory. -/
@[simp] theorem comeAgain_mem (c : Cursor) (s : State) : (comeAgain c s).mem = s.mem := by
  unfold comeAgain; simp only []; split <;> rfl

theorem raiseAt_wf {s : State} (w : s.mem.wf = true) (c : Cursor) (q : TrapReq) : (raiseAt c q s).mem.wf = true := by
  unfold raiseAt; split
  · simpa using w
  · exact takeTrap_wf w _ _

/-- Returning from one keeps it too: a trap held pending is delivered then (R177). -/
theorem trapEnds_wf {s : State} (w : s.mem.wf = true) (u wn : Nat) : (trapEnds u wn s).mem.wf = true := by
  unfold trapEnds; simp only []
  split
  · exact w
  · split
    · simpa using w
    · split
      · exact postTrap_wf (by simpa using w) _ _ _
      · exact enterTrap_wf (by simpa using w) _ _ _

theorem raiseTrap_wf {s : State} (w : s.mem.wf = true) (q : TrapReq) : (raiseTrap q s).mem.wf = true :=
  raiseAt_wf w s.cur q

/-- A meaning whose effect keeps the form of memory keeps it however it ends. -/
theorem finish_wf {r : Res} {s t : State} (w : s.mem.wf = true) (ho : ∀ t, r = .ok t → t.mem.wf = true)
    (ha : ∀ t, r = .error (.again t) → t.mem.wf = true) (h : finish r s = .next t) : t.mem.wf = true := by
  rcases r with ⟨q | _ | x⟩ | x <;> simp only [finish, Host.Outcome.next.injEq] at h <;> subst h
  · exact raiseTrap_wf w q
  · simpa using w
  · exact ha _ rfl
  · simpa using ho _ rfl

@[simp] theorem giveOrder_mem (c : Cover) (u w : Nat) (s : State) : (giveOrder c u w s).mem = s.mem := rfl

@[simp] theorem takeOrder_mem (c : Cover) (u w : Nat) (s : State) : (takeOrder c u w s).mem = s.mem := rfl

@[simp] theorem acquireAt_mem (sc : Scope) (u w : Nat) (s : State) : (acquireAt sc u w s).mem = s.mem := by
  unfold acquireAt; simp only []; split <;> simp

@[simp] theorem releaseAt_mem (c : Cover) (u w : Nat) (s : State) : (releaseAt c u w s).mem = s.mem := by simp [releaseAt]

@[simp] theorem acquireCtrs_mem (m u w : Nat) (s : State) : (acquireCtrs m u w s).mem = s.mem := by
  unfold acquireCtrs; simp only []; split <;> rfl

@[simp] theorem acquireTl_mem (t : Nat) (v : DWord) (u w : Nat) (s : State) : (acquireTl t v u w s).mem = s.mem := rfl

@[simp] theorem settleBarrier_mem (u w : Nat) (b : Bar) (s : State) : (settleBarrier u w b s).mem = s.mem := by
  unfold settleBarrier; split
  · rfl
  · simp only []; split <;> simp

@[simp] theorem countArrival_mem (u w : Nat) (b : Bar) (m : Mask) (s : State) : (countArrival u w b m s).mem = s.mem := by
  unfold countArrival; simp

@[simp] theorem settleExit_mem (u w : Nat) (s : State) : (settleExit u w s).mem = s.mem := by
  unfold settleExit
  exact foldl_keeps State.mem _ (fun b k => settleBarrier_mem u w (barOfKey k) b) _ s

@[simp] theorem depart_mem (u w : Nat) (b : Bar) (m : Mask) (s : State) : (depart u w b m s).mem = s.mem := by
  unfold depart; split
  · rfl
  · simp only []; split <;> simp

@[simp] theorem escape_mem (u : Nat) (s : State) : (escape u s).mem = s.mem := rfl

/-- Output waits in the buffer, or leaves: memory does not change yet (R464). -/
@[simp] theorem emit_mem (l : Bool) (c : Nat) (o : OutItem) (s : State) : (emit l c o s).mem = s.mem := by
  unfold emit; split <;> simp

@[simp] theorem writeThrough_mem (c : Nat) (l : List (Nat × Byte)) (s : State) : (writeThrough c l s).mem = s.mem := rfl

@[simp] theorem addOp_mem (a r : Bool) (s : State) : (addOp a r s).mem = s.mem := rfl

@[simp] theorem counted_mem (m : Mask) (a r : Bool) (s : State) : (counted m a r s).mem = s.mem := by
  unfold counted; split <;> simp

@[simp] theorem releaseNow_mem (sc : Option Scope) (s : State) : (releaseNow sc s).mem = s.mem := by
  unfold releaseNow; split
  · split <;> simp
  · rfl

@[simp] theorem acquireNow_mem (sc : Option Scope) (s : State) : (acquireNow sc s).mem = s.mem := by
  unfold acquireNow; split <;> simp

/-! ### Performing writes -/

/-- What every step of a fold keeps, a fold that may stop keeps. -/
theorem foldl_some_keeps {α β : Type} (p : β → Prop) (f : β → α → Option β) (hf : ∀ b a c, p b → f b a = some c → p c)
    (l : List α) (os : Option β) (h : ∀ b, os = some b → p b) {t : β}
    (ht : l.foldl (fun os a => os.bind fun b => f b a) os = some t) : p t := by
  induction l generalizing os with
  | nil => exact h t ht
  | cons a r ih =>
    rw [List.foldl_cons] at ht
    refine ih _ ?_ ht
    intro c hc
    obtain ⟨b, hb, hbc⟩ := Option.bind_eq_some_iff.mp hc
    exact hf b a c (h b hb) hbc

theorem writeChunk_wf {s : State} (w : s.mem.wf = true) (a : Nat) (c : Chunk) : (writeChunk a c s).mem.wf = true :=
  Mem.wf_writeAll w _

theorem spillTo_wf {s : State} (w : s.mem.wf = true) (a : Nat) (c : Chunk) (sec page : Nat) :
    (spillTo a c sec page s).mem.wf = true := by
  unfold spillTo; simp only []
  generalize at_ _ _ = l
  exact Mem.wf_writeAll (writeChunk_wf w _ _) l

/-- A sector's bookkeeping keeps the form of memory: it writes the chunk's record and its check bytes. -/
theorem sectorWritten_wf {s t : State} (w : s.mem.wf = true) (sec : Nat) (wh : Bool) (h : sectorWritten s sec wh = some t) :
    t.mem.wf = true := by
  unfold sectorWritten at h
  simp only [] at h
  split at h
  · cases h; exact w
  · generalize hc : (if wh = true then _ else _ : Chunk) = c at h
    clear hc
    split at h
    · split at h <;> (rw [← Option.some.inj h]; exact writeChunk_wf (by simpa using w) _ _)
    · split at h
      · rw [← Option.some.inj h]; exact spillTo_wf w _ _ _ _
      · split at h
        · exact absurd h (Option.some_ne_none t).symm
        · rw [← Option.some.inj h]; exact spillTo_wf (by simpa using w) _ _ _ _

theorem sectorsWritten_wf {s t : State} (w : s.mem.wf = true) (wh : Nat → Bool) (secs : List Nat)
    (h : sectorsWritten wh secs s = some t) : t.mem.wf = true :=
  foldl_some_keeps (fun s => s.mem.wf = true) (fun s sec => sectorWritten s sec (wh sec))
    (fun _ _ _ hb hc => sectorWritten_wf hb _ _ hc) secs (some s) (fun _ hb => by cases hb; exact w) h

theorem setPoison_wf {s : State} (w : s.mem.wf = true) (sec : Nat) : (setPoison sec s).mem.wf = true := by
  unfold setPoison; split
  · exact w
  · exact writeChunk_wf w _ _

theorem poisonAll_wf {p : Nat → Bool} {f : Nat → Nat} (l : List Nat) {s : State} (w : s.mem.wf = true) :
    (l.foldl (fun t i => if p i then setPoison (f i) t else t) s).mem.wf = true := by
  induction l generalizing s with
  | nil => exact w
  | cons a r ih =>
    rw [List.foldl_cons]
    refine ih ?_
    split
    · exact setPoison_wf w _
    · exact w

theorem copyPage_wf {s t : State} (w : s.mem.wf = true) (src dst n : Nat) (h : copyPage src dst n s = some t) :
    t.mem.wf = true := by
  unfold copyPage at h
  obtain ⟨x, hx, rfl⟩ := Option.map_eq_some_iff.mp h
  have hm : ({ s with mem := s.mem.copyRange src dst n } : State).mem.wf = true := Mem.wf_copyRange w src dst n
  exact poisonAll_wf _ (sectorsWritten_wf hm _ _ hx)

theorem snapStep_wf {s t : State} (w : s.mem.wf = true) (pa u : Nat) (h : snapStep pa u s = some t) : t.mem.wf = true := by
  unfold snapStep at h
  simp only [] at h
  split at h
  · cases h; exact w
  · split at h
    · cases h; exact bbWrite_wf (by simpa using w) _ _
    · exact copyPage_wf (by simpa using w) _ _ _ h

theorem snapshotFor_wf {s t : State} (w : s.mem.wf = true) (pa : Nat) (h : snapshotFor s pa = some t) : t.mem.wf = true :=
  foldl_some_keeps (fun s : State => s.mem.wf = true) (fun (s : State) (p : Nat × Launch) => snapStep pa p.1 s)
    (fun _ _ _ hb hc => snapStep_wf hb _ _ hc) s.launches (some s) (fun _ hb => by cases hb; exact w) h

theorem snapshots_wf {s t : State} (w : s.mem.wf = true) (gs : List Nat)
    (h : gs.foldl (fun os g => os.bind fun s => snapshotFor s (g * 65536)) (some s) = some t) : t.mem.wf = true :=
  foldl_some_keeps (fun s => s.mem.wf = true) (fun s g => snapshotFor s (g * 65536))
    (fun _ _ _ hb hc => snapshotFor_wf hb _ hc) gs (some s) (fun _ hb => by cases hb; exact w) h

/-- Performing a write of bytes keeps the form of memory. -/
theorem performBytes_wf {s t : State} (w : s.mem.wf = true) (l : List (Nat × Byte)) (h : performBytes s l = some t) :
    t.mem.wf = true := by
  unfold performBytes at h
  obtain ⟨x, hx, ht⟩ := Option.bind_eq_some_iff.mp h
  exact sectorsWritten_wf (Mem.wf_writeAll (snapshots_wf w _ hx) _) _ _ ht

/-- What a DRAM error does keeps it too. -/
theorem dramShows_wf {s : State} (w : s.mem.wf = true) (sec : Nat) (es : List (Nat × Byte)) :
    (dramShows sec es s).mem.wf = true := by
  unfold dramShows; simp only []
  split
  · exact w
  · split
    · simpa using setPoison_wf w _
    · have key : ∀ (c : Prop) [Decidable c] (l : List (Nat × Byte)),
          (if c then s else { s with mem := s.mem.writeAll l }).mem.wf = true := by
        intro c _ l; split
        · exact w
        · exact Mem.wf_writeAll w _
      split
      · exact key _ _
      · rw [logError_mem]; exact key _ _

end Sys2Proof.Machine
end

