-- ==== Sys2Proof/Safety.lean ====
section
/-!
DEFINITION. What a safe run is: no step of it stops in a fault or a refusal.
-/

namespace Sys2Proof

/-- The state after `n` steps, if every step so far had a next state. -/
def runFor : Nat → Machine.State → Option Machine.State
  | 0, s => some s
  | n + 1, s =>
    match Machine.step s with
    | .next t => runFor n t
    | _ => none

/-- A run of any length from a state meets no fault and no refusal. -/
def SafeFrom (s : Machine.State) : Prop := ∀ n, (runFor n s).isSome = true

end Sys2Proof
end

