-- ==== Sys2Proof/Tests/Slice0.lean ====
section
/-!
SUPPORT. Our own tests: ill-formed terms that the checks refuse, words written out from the spec's encodings, a few of the
spec's worked examples, and for every statement with hypotheses a state and operands that meet them (`meets_…`).
-/

namespace Sys2Proof.Tests

-- one theorem is elaborated after another: side by side they need more memory than the check allows
set_option Elab.async false

open Sys2Proof.Machine

/-! ### Small states -/

def always : Guard := .pred false 7
def v_ (n : Fin 256) : Src := ⟨.v n, false⟩
def s_ (n : Fin 64) : Src := ⟨.s n, false⟩
def dv (n : Fin 256) : Dst := ⟨.v n, 0⟩
def ds (n : Fin 64) : Dst := ⟨.s n, 0⟩

/-- Warp 0 of block 1 at the word `w`, alone in its clause. -/
def atWord (w : DWord) : State := { placeWord State.reset w with agenda := [], cur := ⟨1, 0, 0⟩ }

/-- A word of each class of clause: `NOP` as an alu, a memory, an engine and a control word, and `MELDE`. -/
def alu : State := atWord 0x001C0A030260D000#64
def memory : State := atWord 0x801C0F0400040000#64
def engine : State := atWord 0xC01F0783C1800048#64
def ctrl : State := atWord 0xE01F0783C1800000#64
def melded : State := atWord 0xE25F0783C1800000#64

def setS (n : Fin 64) (x : Word) (s : State) : State := s.updReg fun r => { r with s := r.s.set n x }
def setV (n : Nat) (sl : Slot) (s : State) : State := s.updReg fun r => { r with v := AMap.set r.v n sl }
def full (x : Word) (count : Nat) : Slot := { vals := splat x, mask := 0xFFFFFFFF, count := count }
def onlyLane (l : Fin 32) (s : State) : State :=
  s.updWarp fun w => { w with splits := AMap.mapVals w.splits fun _ x => { x with lanes := one_ l } }
def setLaunch (f : Launch → Launch) (s : State) : State := { s with launches := AMap.mapVals s.launches fun _ l => f l }

/-! ### Results -/

def isOk {ε α : Type} : Except ε α → Bool
  | .ok _ => true
  | .error _ => false

def got {ε α : Type} (d : α) : Except ε α → α
  | .ok a => a
  | .error _ => d

theorem got_ok {ε α : Type} {d : α} {x : Except ε α} (h : isOk x = true) : x = .ok (got d x) := by
  cases x with
  | ok a => rfl
  | error e => cases h

theorem unit_ok {x : Except Stop Unit} (h : isOk x = true) : x = .ok () := by
  cases x with
  | ok a => rfl
  | error e => cases h

def noReading : Reading :=
  { vals := [], st := State.reset, preds := Vector.replicate 7 0, names := [], holds := [] }

/-- What is read. -/
def rd (g : Guard) (qs : List SrcSpec) (s : State) : Reading := got noReading (readAll g qs s)

def readyB (g : Guard) (ops : List Operand) (qs : List SrcSpec) (puts : List Put) (s : State) : Bool :=
  isOk (checkIssue g ops false s) && isOk (readAll g qs s) && isOk (destCheck (rd g qs s) puts s)

theorem ready {g : Guard} {ops : List Operand} {qs : List SrcSpec} {puts : List Put} {s : State}
    (h : readyB g ops qs puts s = true) : Ready g ops qs puts s (rd g qs s) := by
  simp only [readyB, Bool.and_eq_true] at h
  exact ⟨unit_ok h.1.1, got_ok h.1.2, unit_ok h.2⟩

def normalB (o : Compute) (s : State) : Bool := readyB o.g (opsOf o.d.op o.qs) o.qs (o.puts s (rd o.g o.qs s)) s

theorem normal {o : Compute} {s : State} (h : normalB o s = true) : o.Normal s (rd o.g o.qs s) :=
  let x := ready h
  ⟨x.issue, x.sources, x.dests⟩

theorem issuable {g : Guard} {last : Bool} {s : State} (h : isOk (checkIssue g [] last s) = true) : Issuable g last s :=
  unit_ok h

/-- The block, the warp and the split of a small state. -/
def blkOf (s : State) : Block := s.curBlock
def wrpOf (s : State) : Warp := s.curWarp
def splOf (s : State) : Split := s.curSplit

theorem issues {s : State} (h : AMap.get? s.blocks s.cur.blk = some s.curBlock)
    (h2 : AMap.get? s.curBlock.warps s.cur.warp = some s.curWarp)
    (h3 : AMap.get? s.curWarp.splits s.cur.split = some s.curSplit) : s.Issues (blkOf s) (wrpOf s) (splOf s) := ⟨h, h2, h3⟩

theorem ok_ex {ε α : Type} {x : Except ε α} (h : isOk x = true) : ∃ a, x = .ok a := by
  cases x with
  | ok a => exact ⟨a, rfl⟩
  | error e => cases h

theorem some_ex {α : Type} {x : Option α} (h : x.isSome = true) : ∃ a, x = some a := Option.isSome_iff_exists.mp h

/-! ### Encoding, steps and the checks at issue -/

theorem meets_DecodeEncodedInstruction :
    (Instr.iadd always ⟨.v 5, 2⟩ (v_ 3) (v_ 4) .wrap).wf = true ∧
      isDeviceStep (.iadd always ⟨.v 5, 2⟩ (v_ 3) (v_ 4) .wrap) = false := by decide +kernel

theorem meets_DecodedWordsEncode :
    decode 0x001C0A030260D000#64 = some (.iadd always ⟨.v 5, 2⟩ (v_ 3) (v_ 4) .wrap) := by decide +kernel

theorem meets_UnlistedWordsRefused :
    (∀ p ∈ listedOpcodes, ¬ (p.1 ≤ opcOf 0x031C000000000000#64 ∧ opcOf 0x031C000000000000#64 ≤ p.2)) ∧
      (404 ≤ (404#9).toNat ∧ (447#9).toNat ≤ 447) ∧
      (let w := 0x001C0A0302650000#64
       famOf w ≤ 3 ∧ opcOf w % 128 < 64 ∧ opcOf w ≠ 0x181 ∧ 404 ≤ (w.extractLsb' 14 9).toNat ∧
        (w.extractLsb' 14 9).toNat ≤ 447) := by decide +kernel

/-- The state in which the next step issues a word. -/
def fetching (w : DWord) : State := placeWord State.reset w

/-- It is fetched, from a split on a port. -/
def fetchB (w : DWord) : Bool :=
  let s := { fetching w with agenda := [], cur := ⟨1, 0, 0⟩ }
  decide ((fetching w).agenda = [.issue ⟨1, 0, 0⟩]) && curWord s == some w && runs s.curWarp s.curSplit &&
    s.curBlock.state != .saved && s.curBlock.state != .flushing

/-- The state it issues in. -/
def fetched (w : DWord) : State := { fetching w with agenda := [], cur := ⟨1, 0, 0⟩ }

theorem fetches {w : DWord} (h : fetchB w = true) : Fetches (fetching w) ⟨1, 0, 0⟩ w (fetched w) := by
  simp only [fetchB, Bool.and_eq_true, decide_eq_true_eq, beq_iff_eq, bne_iff_ne] at h
  obtain ⟨⟨⟨⟨h1, h2⟩, h3⟩, h4⟩, h5⟩ := h
  exact ⟨[], h1, rfl, h2, h3, h4, h5⟩

theorem meets_StepRunsInstruction : let t := fetched 0x001C0A030260D000#64
    Fetches (fetching 0x001C0A030260D000#64) ⟨1, 0, 0⟩ 0x001C0A030260D000#64 t ∧ tooFar t = false ∧
      t.curLaunch.hdr.paired = false ∧ (decode 0x001C0A030260D000#64).isSome = true ∧
      ∀ n : Fin 8, t.curWarp.reg.z[n] = none :=
  ⟨fetches (by decide +kernel), by decide +kernel⟩

/-- The warp is 64 instructions ahead of its shadow. -/
def ahead64 (s : State) : State :=
  (s.updLaunch 1 fun l => { l with hdr := { l.hdr with paired := true } }).updBlock 1 fun b => { b with
    warps := AMap.mapVals b.warps fun _ w => { w with shadow := List.replicate 64 ⟨0, 0, 1, w.reg, []⟩ } }

theorem meets_StepRunsInstruction_shadow : let w := 0x001C0A030260D000#64
    let t := { ahead64 (fetching w) with agenda := [], cur := ⟨1, 0, 0⟩ }
    Fetches (ahead64 (fetching w)) ⟨1, 0, 0⟩ w t ∧ tooFar t = true :=
  ⟨⟨[], by decide +kernel, rfl, by decide +kernel, by decide +kernel, by decide +kernel, by decide +kernel⟩,
    by decide +kernel⟩

theorem meets_StepRunsInstruction_event :
    (∃ t, exec .gnlTrain { State.reset with agenda := [] } = .next t) ∧
      ∃ n, exec .gnlRetrain { State.reset with agenda := [] } = .refused (.notEnabled n) :=
  ⟨⟨_, rfl⟩, ⟨_, rfl⟩⟩

theorem meets_UndecodedWordFaults :
    let t := fetched 0x031C000000000000#64
    Fetches (fetching 0x031C000000000000#64) ⟨1, 0, 0⟩ 0x031C000000000000#64 t ∧ tooFar t = false ∧
      t.curLaunch.hdr.paired = false ∧ decode 0x031C000000000000#64 = none :=
  ⟨fetches (by decide +kernel), by decide +kernel⟩

/-- Whether a step goes on. -/
def goesOn : Host.Outcome State Fault Refusal → Bool
  | .next _ => true
  | _ => false

theorem next_of {o : Host.Outcome State Fault Refusal} (h : goesOn o = true) : ∃ t, o = .next t := by
  cases o with
  | next t => exact ⟨t, rfl⟩
  | _ => cases h

theorem meets_StepKeepsMemoryCanonical :
    (fetching 0x001C0A030260D000#64).mem.wf = true ∧ ∃ t, step (fetching 0x001C0A030260D000#64) = .next t :=
  ⟨by decide +kernel, next_of (by decide +kernel)⟩

/-! ### Checks at issue, sources and destinations -/

def addV : Instr := .iadd always ⟨.v 5, 2⟩ (v_ 3) (v_ 3) .wrap
/-- What an instruction computes, and that it does. -/
def comp (i : Instr) (h : (computes i).isSome = true) : Compute := (computes i).get h
theorem comp_eq {i : Instr} (h : (computes i).isSome = true) : computes i = some (comp i h) := by simp [comp]
def addS (d : Dst) (a b : Src) : Compute := comp (.iadd always d a b .wrap) rfl

/-- The warp's other split awaits the value of a join in v3; and in s40. -/
def awaiting (d : Operand) (names : List (Nat × Mask)) (s : State) : State := s.updWarp fun w => { w with
  splits := AMap.set w.splits 7 { (default : Split) with wait := .join 9 { d := d, lanes := 0xF, names := names } } }
def late1 : State := awaiting (.v 3) [(3, 0xF)] alu
def late40 (s : State) : State := awaiting (.s 40) [] s

/-- Instructions of several forms, each with a register that it names. -/
def forms1 : List (Instr × Operand) := [(addV, .v 3), (.ld always (dv 4) .b32 none (.s 40) 0, .s 40),
  (.cekick always (.s 8) (.s 40) (.imm 1), .s 40), (.brx always (.s 40), .s 40), (.sleepReg always (.s 40), .s 40)]
/-- Another split of the warp awaits the register. -/
def awaitingIt (d : Operand) : State := awaiting d [(3, 0xF)] ctrl
def formB (f : Guard → List Operand → Bool → Bool) (i : Instr) : Bool :=
  match issueForm i with
  | some (g, ops, last) => f g ops last
  | none => false

theorem form_ex {f : Guard → List Operand → Bool → Bool} {i : Instr} (h : formB f i = true) :
    ∃ g ops last, issueForm i = some (g, ops, last) ∧ f g ops last = true := by
  unfold formB at h
  split at h
  · exact ⟨_, _, _, ‹_›, h⟩
  · cases h

theorem meets_IssueFaults :
    (∀ p ∈ forms1, ∃ g ops last, issueForm p.1 = some (g, ops, last) ∧ (ops.any (awaitingIt p.2).curWarp.awaits) = true) ∧
    (let s := ctrl.updWarp fun w => { w with overrun := true }
     s.curWarp.overrun = true ∧ s.issuing ≠ 0 ∧
      ∀ p ∈ forms1, ∃ g ops last, issueForm p.1 = some (g, ops, last) ∧ (!ops.any s.curWarp.awaits) = true) ∧
    (∀ i ∈ ([.iadd (.path true) (dv 5) (v_ 3) (v_ 3) .wrap, .ld always (dv 4) .b32 none (.m 1) 0, .sleep always 3] : List Instr),
      let s := ctrl.updSplit fun sp => { sp with header := sp.header ||| 0x200000000000000#64 }
      s.curWarp.overrun = false ∧ s.members ≠ 0 ∧ ∃ g ops last, issueForm i = some (g, ops, last) ∧
        (!ops.any s.curWarp.awaits && ((isPathGuard g || ops.any isMName) && hdrClass s.header != 4 || last && !s.isLast)) = true) := by
  refine ⟨?_, ⟨by decide +kernel, by decide +kernel, ?_⟩, ?_⟩
  · have h : ∀ p ∈ forms1, formB (fun _ ops _ => ops.any (awaitingIt p.2).curWarp.awaits) p.1 = true := by decide +kernel
    exact fun p hp => form_ex (h p hp)
  · have h : ∀ p ∈ forms1, formB (fun _ ops _ => !ops.any (ctrl.updWarp fun w => { w with overrun := true }).curWarp.awaits)
      p.1 = true := by decide +kernel
    exact fun p hp => form_ex (h p hp)
  · intro i hi s
    refine ⟨by decide +kernel, by decide +kernel, ?_⟩
    have h : ∀ i ∈ ([.iadd (.path true) (dv 5) (v_ 3) (v_ 3) .wrap, .ld always (dv 4) .b32 none (.m 1) 0, .sleep always 3] : List Instr),
      formB (fun g ops last => !ops.any s.curWarp.awaits && ((isPathGuard g || ops.any isMName) && hdrClass s.header != 4 || last && !s.isLast))
        i = true := by decide +kernel
    exact form_ex (h i hi)

theorem meets_MeldClauseFaults :
    (let s := alu.updLane fun l => { l with inMeld := 1 }
     ∀ i ∈ [addV, .nop always, .ld always (dv 4) .b32 none (.s 2) 0], s.curSplit.idx = 0 ∧ s.curWarp.overrun = false ∧ hdrClass s.header ≠ 4 ∧
      directOk s i = true ∧ (1 : Mask) = s.issuing &&& s.curWarp.lane.inMeld ∧
      ∃ g ops last, issueForm i = some (g, ops, last) ∧
        (!ops.any s.curWarp.awaits && !(isPathGuard g || ops.any isMName) && (!last || s.isLast)) = true) ∧
    (let s := melded.updLane fun l => { l with inMeld := 0xFFFFFFFE, table := 0xFFFFFFFF }
     let m : Mask := s.issuing &&& (~~~ s.curWarp.lane.inMeld |||
      (if hdrPtab s.header then ~~~ s.curWarp.lane.table else s.curWarp.lane.table))
     ∀ i ∈ [addV, .nop always], s.curSplit.idx = 0 ∧ s.curWarp.overrun = false ∧ hdrClass s.header = 4 ∧ directOk s i = true ∧ m ≠ 0 ∧
      ∃ g ops last, issueForm i = some (g, ops, last) ∧ (!ops.any s.curWarp.awaits && (!last || s.isLast)) = true) ∧
    let s := (melded.updLane fun l => { l with inMeld := 0xFFFFFFFF }).updSplit fun sp => { sp with idx := 1 }
    ∀ i ∈ ([.iadd always (dv 5) ⟨.m 15, false⟩ (v_ 3) .wrap, .ld always (dv 4) .b32 none (.m 15) 0] : List Instr), s.curSplit.idx ≠ 0 ∧
      s.curWarp.overrun = false ∧ hdrClass s.header = 4 ∧ directOk s i = true ∧
      ∃ g ops last, issueForm i = some (g, ops, last) ∧ (!ops.any s.curWarp.awaits && (!last || s.isLast) &&
        (List.finRange 32).all fun l => (s.active g).getLsbD l.val &&
          ops.any fun o => match o with | .m n => (renameOf s.curWarp n l).isNone | _ => false) = true := by
  refine ⟨?_, ?_, ?_⟩
  · intro s i hi
    refine ⟨by decide +kernel, by decide +kernel, by decide +kernel, ?_, by decide +kernel, ?_⟩
    · revert i; decide +kernel
    · have h : ∀ i ∈ [addV, .nop always, .ld always (dv 4) .b32 none (.s 2) 0],
        formB (fun g ops last => !ops.any s.curWarp.awaits && !(isPathGuard g || ops.any isMName) && (!last || s.isLast)) i = true := by
        decide +kernel
      exact form_ex (h i hi)
  · intro s m i hi
    refine ⟨by decide +kernel, by decide +kernel, by decide +kernel, ?_, by decide +kernel, ?_⟩
    · revert i; decide +kernel
    · have h : ∀ i ∈ [addV, .nop always], formB (fun _ ops last => !ops.any s.curWarp.awaits && (!last || s.isLast)) i = true := by
        decide +kernel
      exact form_ex (h i hi)
  · intro s i hi
    refine ⟨by decide +kernel, by decide +kernel, by decide +kernel, ?_, ?_⟩
    · revert i; decide +kernel
    · have h : ∀ i ∈ ([.iadd always (dv 5) ⟨.m 15, false⟩ (v_ 3) .wrap, .ld always (dv 4) .b32 none (.m 15) 0] : List Instr),
        formB (fun g ops last => !ops.any s.curWarp.awaits && (!last || s.isLast) && (List.finRange 32).all fun l =>
          (s.active g).getLsbD l.val && ops.any fun o => match o with | .m n => (renameOf s.curWarp n l).isNone | _ => false) i = true := by
        decide +kernel
      exact form_ex (h i hi)

/-- Latch 1 holds a value in every lane; m1 stands for v3 in every lane of path 1; z2 is bound to an exhausted stream. -/
def sources0 : State :=
  let z : Stream := { desc := { base := 128, space := 1, esize := 2, rank := 1, counts := #v[1, 1, 1, 1], strides := #v[4, 4, 4, 4]
                                laneStride := 4 }
                      idx := #v[0, 0, 0, 0], sel := #v[7, 7, 7, 7], exhausted := true, delivered := 1, ahead := [] }
  (setV 3 (full 7 0) (setV 255 (full 9 1) (melded.updLane fun l => { l with inMeld := 0xFFFFFFFF, path := 0xFFFFFFFF }))).updReg fun r =>
    { r with lat := r.lat.set 1 { vals := splat 5, life := Vector.replicate 32 1 }
             ren := Vector.replicate 4 (Vector.replicate 16 (some 3)), z := r.z.set 2 (some z) }
def sourceList : List Src := [v_ 3, v_ 255, s_ 0, s_ 63, ⟨.w 31, false⟩, ⟨.p 6, false⟩, ⟨.p 7, false⟩,
  ⟨.zero, false⟩, ⟨.imm 0, false⟩, ⟨.imm 63, false⟩, ⟨.lat 1, false⟩, ⟨.x 7, false⟩, ⟨.m 1, false⟩, ⟨.z 2, false⟩]

theorem meets_SourcesReadTheirValues : (∀ a ∈ sourceList, ∃ r, readAll always [srcI a] sources0 = .ok r) ∧
    (∀ l : Fin 32, renameOf sources0.curWarp 1 l = some 3) ∧ sources0.active always ≠ 0 := by
  have h : ∀ a ∈ sourceList, isOk (readAll always [srcI a] sources0) = true := by decide +kernel
  exact ⟨fun a ha => ⟨_, got_ok (d := noReading) (h a ha)⟩, by decide +kernel, by decide +kernel⟩

/-- Lane 0 holds no value of v3, nor of v5. -/
def dead0 : State := setV 5 { full 7 0 with mask := 0xFFFFFFFE } (setV 4 (full 1 0) (setV 3 { full 7 0 with mask := 0xFFFFFFFE } sources0))
/-- As a first source, as a later one, in the high half of a pair, and by an m name. -/
def deadList : List (Instr × Nat × Operand × Nat) := [(.iadd (.path true) (dv 9) (v_ 3) (v_ 4) .wrap, 0, .v 3, 1),
  (.iadd (.path true) (dv 9) (v_ 4) (v_ 3) .wrap, 1, .v 3, 1), (.dadd (.path true) (dv 8) (v_ 4) (v_ 4) .rn ⟨false, false, false, false, false⟩, 0, .v 4, 2)]

def deadB (p : Instr × Nat × Operand × Nat) : Bool :=
  match computes p.1 with
  | none => false
  | some o => isOk (checkIssue o.g (opsOf o.d.op o.qs) false dead0) && isOk (readAll o.g (o.qs.take p.2.1) dead0) &&
    match o.qs.drop p.2.1 with
    | [] => false
    | q :: _ => decide (q.op = p.2.2.1) && q.n == p.2.2.2 && (List.finRange 32).all fun l =>
        (1 : Mask).getLsbD l.val == ((dead0.active o.g).getLsbD l.val && match q.op with
          | .v n => (List.range q.n).any fun k => !((AMap.get? dead0.curWarp.reg.v (n.val + k)).any fun x => x.mask.getLsbD l.val)
          | .m n => (renameOf dead0.curWarp n l).any fun v => !((AMap.get? dead0.curWarp.reg.v v.val).any fun x => x.mask.getLsbD l.val)
          | _ => false)

def DeadMeets (p : Instr × Nat × Operand × Nat) : Prop :=
  ∃ o r0 q rest, computes p.1 = some o ∧
    checkIssue o.g (opsOf o.d.op o.qs) false dead0 = .ok () ∧ o.qs = o.qs.take p.2.1 ++ q :: rest ∧
    readAll o.g (o.qs.take p.2.1) dead0 = .ok r0 ∧ q.op = p.2.2.1 ∧ (∀ l : Fin 32, (1 : Mask).getLsbD l.val =
      ((dead0.active o.g).getLsbD l.val && match q.op with
        | .v n => (List.range q.n).any fun k => !((AMap.get? dead0.curWarp.reg.v (n.val + k)).any fun x => x.mask.getLsbD l.val)
        | .m n => (renameOf dead0.curWarp n l).any fun v => !((AMap.get? dead0.curWarp.reg.v v.val).any fun x => x.mask.getLsbD l.val)
        | _ => false))

theorem dead_ex {p : Instr × Nat × Operand × Nat} (h : deadB p = true) : DeadMeets p := by
  unfold deadB at h
  split at h
  · cases h
  · rename_i o ho
    simp only [Bool.and_eq_true] at h
    obtain ⟨⟨h1, h2⟩, h3⟩ := h
    split at h3
    · cases h3
    · rename_i q rest hq
      simp only [Bool.and_eq_true, decide_eq_true_eq, List.all_eq_true, beq_iff_eq] at h3
      refine ⟨o, _, q, rest, ho, unit_ok h1, ?_, got_ok (d := noReading) h2, h3.1.1, fun l => h3.2 l (List.mem_finRange l)⟩
      rw [← hq, List.take_append_drop]

theorem meets_DeadReadFaults : ∀ p ∈ deadList ++ [(.iadd (.path true) (dv 9) (v_ 4) ⟨.m 1, false⟩ .wrap, 1, .m 1, 1)],
    DeadMeets p := by
  have h : ∀ p ∈ deadList ++ [(.iadd (.path true) (dv 9) (v_ 4) ⟨.m 1, false⟩ .wrap, 1, .m 1, 1)], deadB p = true := by
    decide +kernel
  exact fun p hp => dead_ex (h p hp)

/-- `IADD v5^2, v3, v3` where v3 has two reads to come, and one more. -/
def twice (count : Nat) : State := setV 3 (full 7 count) alu

theorem meets_ConsumerCountsFall : ∀ k ∈ [0, 2, 3],
    let s := twice k
    let o := comp addV rfl
    computes addV = some o ∧ (∃ r, o.Normal s r ∧ ∀ q ∈ o.puts s r, ∀ x ∈ q.names (wrpOf s), x.1 ≠ 3) ∧
      s.Issues (blkOf s) (wrpOf s) (splOf s) ∧ AMap.get? (wrpOf s).reg.v 3 = some (full 7 k) ∧
      ((wrpOf s).reg.v.map Prod.fst).Nodup := by
  intro k hk
  simp only [List.mem_cons, List.not_mem_nil, or_false] at hk
  rcases hk with rfl | rfl | rfl <;>
  exact ⟨comp_eq _, ⟨_, normal (by decide +kernel), by decide +kernel⟩,
    issues (by decide +kernel) (by decide +kernel) (by decide +kernel), by decide +kernel, by decide +kernel⟩

theorem meets_NamesKeepOneSlot :
    computes addV = some (comp addV rfl) ∧ (∃ r, (comp addV rfl).Normal (twice 2) r) ∧
      (twice 2).Issues (blkOf (twice 2)) (wrpOf (twice 2)) (splOf (twice 2)) ∧
      ((wrpOf (twice 2)).reg.v.map Prod.fst).Nodup :=
  ⟨comp_eq _, ⟨_, normal (by decide +kernel)⟩, issues (by decide +kernel) (by decide +kernel) (by decide +kernel),
    by decide +kernel⟩

/-- A pair of names; and an m name that stands for v3. -/
def pair0 : Compute := comp (.dadd (.path true) (dv 8) (s_ 2) (s_ 4) .rn ⟨false, false, false, false, false⟩) rfl
def mName0 : Compute := comp (.iadd (.path true) ⟨.m 1, 2⟩ (s_ 2) (s_ 4) .wrap) rfl

theorem meets_NameTakesResult :
    (let o := comp addV rfl
     o.wide = false ∧ o.d.op = .v 5 ∧ (∃ r, o.Normal (twice 2) r) ∧ (twice 2).active o.g ≠ 0) ∧
    (pair0.wide = true ∧ pair0.d.op = .v 8 ∧ (∃ r, pair0.Normal sources0 r) ∧ sources0.active pair0.g ≠ 0) ∧
    (mName0.wide = false ∧ mName0.d.op = .m 1 ∧ (∃ r, mName0.Normal sources0 r) ∧
      sources0.Issues (blkOf sources0) (wrpOf sources0) (splOf sources0) ∧ (sources0.active mName0.g).getLsbD 7 = true ∧
      renameOf (wrpOf sources0) 1 7 = some 3) :=
  ⟨⟨rfl, rfl, ⟨_, normal (by decide +kernel)⟩, by decide +kernel⟩,
    ⟨rfl, rfl, ⟨_, normal (by decide +kernel)⟩, by decide +kernel⟩,
    rfl, rfl, ⟨_, normal (by decide +kernel)⟩, issues (by decide +kernel) (by decide +kernel) (by decide +kernel),
    by decide +kernel, by decide +kernel⟩

/-- The destinations s63, w31, p6 and zero, each with its sum of two scalars; and the pairs s62 and w30. -/
theorem meets_OtherDestinationsTakeResult : (∀ d ∈ [Operand.s 63, .w 31, .p 6, .zero],
    let o := addS ⟨d, 0⟩ (s_ 3) (s_ 4)
    o.wide = false ∧ o.d.op = d ∧ (∃ r, o.Normal alu r) ∧ alu.Issues (blkOf alu) (wrpOf alu) (splOf alu) ∧
      alu.active o.g ≠ 0 ∧ lowest (alu.active o.g) = some 0 ∧ ∀ q ∈ o.qs, ∀ n, q.op ≠ .z n) ∧
    ∀ d ∈ [Operand.s 62, .w 30], let o := comp (.dadd always ⟨d, 0⟩ (s_ 2) (s_ 4) .rn ⟨false, false, false, false, false⟩) rfl
      o.wide = true ∧ o.d.op = d ∧ (∃ r, o.Normal alu r) ∧ lowest (alu.active o.g) = some 0 := by
  constructor <;> intro d hd <;> simp only [List.mem_cons, List.not_mem_nil, or_false] at hd
  · rcases hd with rfl | rfl | rfl | rfl <;>
    exact ⟨rfl, rfl, ⟨_, normal (by decide +kernel)⟩,
      issues (by decide +kernel) (by decide +kernel) (by decide +kernel), by decide +kernel, by decide +kernel, by decide +kernel⟩
  · rcases hd with rfl | rfl <;> exact ⟨rfl, rfl, ⟨_, normal (by decide +kernel)⟩, by decide +kernel⟩

/-- A kernel of 5 registers has two names in a bank; the instruction releases v13 and would make a third. -/
theorem meets_ReservationFaults :
    let s := setV 1 (full 0 0) (setV 5 (full 0 0) (setV 13 (full 0 1) (alu.updLaunch 1 fun l => { l with hdr := { l.hdr with regs := 5 } })))
    let o := addS (dv 9) (v_ 13) (s_ 4)
    o.wide = false ∧ checkIssue o.g (opsOf o.d.op o.qs) false s = .ok () ∧
      (∃ r, readAll o.g o.qs s = .ok r ∧ (s.curLaunch.hdr.regs + 3) / 4 < (s.curWarp.reg.v.filter fun p =>
        p.1 % 4 == 9 % 4 && !(p.2.count != 0 && decide (p.2.count ≤ r.names.count p.1))).length + 1) ∧ o.d.op = .v 9 ∧
      s.active o.g ≠ 0 ∧ (s.curWarp.reg.v.map Prod.fst).Nodup ∧ AMap.get? s.curWarp.reg.v 9 = none :=
  ⟨rfl, unit_ok (by decide +kernel), ⟨_, got_ok (d := noReading) (by decide +kernel), by decide +kernel⟩, rfl,
    by decide +kernel⟩

theorem meets_UniformDestinationFaults :
    (let s := alu.updBlock 1 fun b => { b with wOwner := b.wOwner.set 31 (some 1) }
     let o := addS ⟨.w 31, 0⟩ (s_ 3) (s_ 4)
     o.wide = false ∧ checkIssue o.g (opsOf o.d.op o.qs) false s = .ok () ∧ (∃ r, readAll o.g o.qs s = .ok r) ∧
      o.d.op = .w 31 ∧ s.active o.g ≠ 0 ∧ s.curBlock.wOwner[(31 : Fin 32)] = some 1 ∧ 1 ≠ s.cur.warp) ∧
    let s := setV 3 { full 7 0 with vals := tab fun l => w32 l.val } alu
    ∀ d ∈ [Operand.s 0, .w 0],
      let o := addS ⟨d, 0⟩ (v_ 3) (s_ 4)
      o.wide = false ∧ checkIssue o.g (opsOf o.d.op o.qs) false s = .ok () ∧
        ((∃ n, o.d.op = .s n) ∨ ∃ n, o.d.op = .w n ∧ s.curBlock.wOwner[n] = none) ∧
        (∃ r, readAll o.g o.qs s = .ok r ∧ (o.val s r 0).1 ≠ (o.val s r 31).1) ∧
        (s.active o.g).getLsbD (0 : Fin 32).val = true ∧ (s.active o.g).getLsbD (31 : Fin 32).val = true := by
  refine ⟨⟨rfl, unit_ok (by decide +kernel), ⟨_, got_ok (d := noReading) (by decide +kernel)⟩, rfl, by decide +kernel⟩, ?_⟩
  intro s d hd
  simp only [List.mem_cons, List.not_mem_nil, or_false] at hd
  rcases hd with rfl | rfl
  · exact ⟨rfl, unit_ok (by decide +kernel), .inl ⟨0, rfl⟩,
      ⟨_, got_ok (d := noReading) (by decide +kernel), by decide +kernel⟩, by decide +kernel, by decide +kernel⟩
  · exact ⟨rfl, unit_ok (by decide +kernel), .inr ⟨0, rfl, by decide +kernel⟩,
      ⟨_, got_ok (d := noReading) (by decide +kernel), by decide +kernel⟩, by decide +kernel, by decide +kernel⟩

/-! ### Families 000 to 011 -/

def normalOf (f : Instr → Option Compute) (s : State) (i : Instr) : Bool :=
  match f i with
  | some o => normalB o s
  | none => false

theorem all_normal {f : Instr → Option Compute} {l : List Instr} {s : State} (h : ∀ i ∈ l, normalOf f s i = true) :
    ∀ i ∈ l, ∃ o r, f i = some o ∧ o.Normal s r := by
  intro i hi
  have := h i hi
  simp only [normalOf] at this
  split at this
  · exact ⟨_, _, ‹_›, normal this⟩
  · cases this

def m0 : FMods := ⟨false, false, false, false, false⟩
def h0 : HMods := ⟨.rn, false, false, false, false, false⟩

theorem meets_IntegerArithmeticCompletes : ∀ i ∈ ([.iadd always (ds 9) (s_ 1) (s_ 2) .sat, .iaddI always (.s 9) (.s 1) 5,
    .isub always (ds 9) (s_ 1) (s_ 2) .satU, .isubI always (.s 9) (.s 1) 5, .imul always (dv 9) (s_ 1) (s_ 2) .wrap,
    .imulI always (.s 9) (.s 1) 5, .imulh always (ds 9) (s_ 1) (s_ 2) true, .imad always (dv 9) (s_ 1) (s_ 2) (s_ 3) .sat,
    .idiv always (ds 9) (s_ 1) (s_ 2) true, .irem always (ds 9) (s_ 1) (s_ 2) false,
    .imin always (ds 9) (s_ 1) (s_ 2) true, .imax always (ds 9) (s_ 1) (s_ 2) false, .iabs always (ds 9) (s_ 1) true,
    .iset always (ds 9) (s_ 1) (s_ 2) .le true, .lea always (ds 9) (s_ 1) (s_ 2) 31] : List Instr),
    ∃ o r, intArith i = some o ∧ o.Normal alu r := all_normal (by decide +kernel)

theorem meets_IntegerBitsComplete : ∀ i ∈ ([.and always (ds 9) (s_ 1) (s_ 2), .andI always (.s 9) (.s 1) 5,
    .or always (ds 9) (s_ 1) (s_ 2), .orI always (.s 9) (.s 1) 5, .xor always (ds 9) (s_ 1) (s_ 2),
    .xorI always (.s 9) (.s 1) 5, .andn always (ds 9) (s_ 1) (s_ 2), .andnI always (.s 9) (.s 1) 5,
    .lop3 always (ds 9) (s_ 1) (s_ 2) (s_ 3) 6 9, .shl always (ds 9) (s_ 1) (s_ 2), .shlI always (.s 9) (.s 1) 32,
    .shr always (ds 9) (s_ 1) (s_ 2), .shrI always (.s 9) (.s 1) 32, .sar always (ds 9) (s_ 1) (s_ 2),
    .sarI always (.s 9) (.s 1) 31, .rot always (ds 9) (s_ 1) (s_ 2) true, .rotI always (.s 9) (.s 1) 33,
    .bfx always (ds 9) (s_ 1) (s_ 2) true, .bfi always (ds 9) (s_ 1) (s_ 2) (s_ 3), .popc always (ds 9) (s_ 1),
    .clz always (ds 9) (s_ 1), .brev always (ds 9) (s_ 1)] : List Instr),
    ∃ o r, intBits i = some o ∧ o.Normal alu r := all_normal (by decide +kernel)

theorem meets_Fp32Completes : ∀ i ∈ ([.fadd always (ds 9) (s_ 1) (s_ 2) .rz m0, .faddI always (.s 9) (.s 1) 5,
    .fmul always (ds 9) (s_ 1) (s_ 2) .rn m0, .fmulI always (.s 9) (.s 1) 5,
    .ffma always (ds 9) (s_ 1) (s_ 2) (s_ 3) .rn m0, .fmin always (ds 9) (s_ 1) (s_ 2) m0,
    .fmax always (ds 9) (s_ 1) (s_ 2) m0, .fset always (ds 9) (s_ 1) (s_ 2) .nan m0, .frcp always (ds 9) (s_ 1),
    .frsq always (ds 9) (s_ 1), .fsqrt always (ds 9) (s_ 1) .rn, .fclass always (ds 9) (s_ 1) none,
    .fclass always (ds 9) (s_ 1) (some (s_ 2))] : List Instr),
    ∃ o r, fp32Compute i = some o ∧ o.Normal alu r := all_normal (by decide +kernel)

/-- The approximated functions write zero here, so that no value of theirs is needed. -/
theorem meets_Fp32Completes_functions : ∀ i ∈ ([.fexp2 always ⟨.zero, 0⟩ (s_ 1), .flog2 always ⟨.zero, 0⟩ (s_ 1),
    .fsin always ⟨.zero, 0⟩ (s_ 1), .fcos always ⟨.zero, 0⟩ (s_ 1), .ftanh always ⟨.zero, 0⟩ (s_ 1)] : List Instr),
    ∃ o r, fp32Compute i = some o ∧ o.Normal alu r := all_normal (by decide +kernel)

theorem meets_Fp64Completes : ∀ i ∈ ([.dadd always (ds 8) (s_ 2) (s_ 4) .rn m0, .dmul always (ds 8) (s_ 2) (s_ 4) .rz m0,
    .dfma always (ds 8) (s_ 2) (s_ 4) (s_ 6) .rn m0, .dmin always (ds 8) (s_ 2) (s_ 4) m0,
    .dmax always (dv 254) (s_ 2) (s_ 62) m0, .dset always (ds 9) (s_ 2) (s_ 4) .lt m0] : List Instr),
    ∃ o r, fp64Compute i = some o ∧ o.Normal alu r := all_normal (by decide +kernel)

theorem meets_PackedAndConversionComplete : ∀ i ∈ ([.hadd2 always (ds 9) (s_ 1) (s_ 2) h0,
    .hmul2 always (ds 9) (s_ 1) (s_ 2) h0, .hfma2 always (ds 9) (s_ 1) (s_ 2) (s_ 3) h0,
    .idot4 always (ds 9) (s_ 1) (s_ 2) (s_ 3) true false true, .idot8 always (ds 9) (s_ 1) (s_ 2) (s_ 3) false true false,
    .cvt always (ds 8) (s_ 2) .f64 .f32 .rn .none 0, .cvt always (ds 9) (s_ 2) .e4m3 .f64 .rn .nsat 0,
    .pack always (ds 9) (s_ 1) (s_ 2) .nib 7 .sat, .unpk always (ds 9) (s_ 1) .half 1 true] : List Instr),
    ∃ o r, packedCompute i = some o ∧ o.Normal alu r := all_normal (by decide +kernel)

theorem meets_MovesAndLaneOperationsComplete :
    (∀ i ∈ ([.mov always (ds 9) (s_ 1), .movi always (.s 9) 5, .sel always (ds 9) (s_ 1) (s_ 2) ⟨.p 1, false⟩,
      .plop3 always (.p 2) ⟨.p 1, false⟩ ⟨.p 2, false⟩ ⟨.p 7, false⟩ 6 9, .pmovGet always (dv 9)] : List Instr),
      ∃ o r, moveCompute i = some o ∧ o.Normal alu r) ∧
    ∀ i ∈ ([.shfl always (dv 9) (s_ 1) (s_ 2) ⟨.zero, false⟩ .xsw 5, .vote always (ds 9) ⟨.p 1, false⟩ .mask,
      .matchL always (dv 9) (s_ 1) .rank] : List Instr), ∃ o r, laneCompute i = some o ∧ o.Normal alu r :=
  ⟨all_normal (by decide +kernel), all_normal (by decide +kernel)⟩

theorem meets_ComputingFrame :
    computes addV = some (comp addV rfl) ∧ (∃ r, (comp addV rfl).Normal (twice 2) r) ∧
      (twice 2).Issues (blkOf (twice 2)) (wrpOf (twice 2)) (splOf (twice 2)) :=
  ⟨comp_eq _, ⟨_, normal (by decide +kernel)⟩, issues (by decide +kernel) (by decide +kernel) (by decide +kernel)⟩

/-! ### Scaled blocks, index registers, predicates, lanes, system registers -/

theorem meets_ScaledBlocksComplete :
    (let qs := [srcF (v_ 3), srcF (v_ 4), srcU (s_ 5)]
     let s := setV 3 (full 0x3F800000 0) (setV 4 (full 0x40000000 0) (setS 5 0x100 alu))
     ∃ r, Ready always (opsOf (.v 9) qs) qs
      [putOf (dv 9) (s.active always) (tab fun l =>
        let xs := qblkElems (s.active always) (r.w 0) (r.w 1)
        let sc := if (uval (s.active always) (r.w 2)).getLsbD 8 then autoScale .e2m1 xs
          else (uval (s.active always) (r.w 2)).toNat % 256
        qblkLane .e2m1 sc (encBlock .e2m1 .rn sc xs).1 l.val)] s r) ∧
    let s := setV 3 (full 0x7F021122 0) alu
    let r := rd always [srcI (v_ 3)] s
    let up : Lanes Word := tab fun l => ((r.w 0)[l]) >>> 16
    let h := (uval (s.active always) up).toNat
    let c8 := decide (h % 256 / 16 = 1)
    let blk := decodeBlock c8 (h % 256) (h / 256) (dqblkBody (s.active always) c8 (r.w 0))
    let v := tab fun l => elemF32 .rn blk.1 (2 * l.val + if false then 1 else 0)
    Ready always (opsOf (.v 9) [srcI (v_ 3)]) [srcI (v_ 3)] [putOf (dv 9) (s.active always) (tab fun l => (v[l]).1)] s r ∧
      uniformOn (s.active always) up = true ∧ blk.2 = false :=
  ⟨⟨_, ready (by decide +kernel)⟩, ready (by decide +kernel), by decide +kernel⟩

/-- Format code 0x05 is unknown. -/
theorem meets_StrictBlockFaults :
    let s := setV 3 (full 0x7F051122 0) alu
    let r := rd always [srcI (v_ 3)] s
    let up : Lanes Word := tab fun l => ((r.w 0)[l]) >>> 16
    let h := (uval (s.active always) up).toNat
    let c8 := decide (h % 256 / 16 = 1)
    checkIssue always (opsOf (.v 9) [srcI (v_ 3)]) false s = .ok () ∧ readAll always [srcI (v_ 3)] s = .ok r ∧
      uniformOn (s.active always) up = true ∧
      (decodeBlock c8 (h % 256) (h / 256) (dqblkBody (s.active always) c8 (r.w 0))).2 = true ∧ s.active always ≠ 0 :=
  ⟨unit_ok (by decide +kernel), got_ok (by decide +kernel), by decide +kernel⟩

/-- x2 names v4 to v7; offset 3 is the last in bounds, and 4 is out of them. -/
def indexing : State := setV 4 (full 1 0) (setV 7 (full 2 2) (alu.updReg fun r => { r with
  x := r.x.set 2 (Vector.replicate 32 { base := 4, limit := 4, cursor := 0 }) }))

theorem meets_IndexRegistersComplete :
    (let qs := [srcI (s_ 1), srcI (s_ 2), srcI (s_ 3)]
     ∃ r, Ready always (opsOf .zero qs) qs [] alu r) ∧
    (∃ r, Ready always (opsOf .zero [srcI (s_ 1)]) [srcI (s_ 1)] [] alu r) ∧
    (let s := indexing
     let rg := s.curWarp.reg
     let r : Reading :=
      { vals := [rd1 (tab fun l => match indexed rg 2 3 l with
          | some n => (slotOf rg n).vals[l]
          | none => 0)]
        st := s, preds := rg.p, holds := []
        names := ((lanesOf (readers s.curWarp s.curSplit always)).filterMap fun l => indexed rg 2 3 l).eraseDups }
     checkIssue always [.v 9] false s = .ok () ∧ s.curWarp.late = [] ∧
      (∀ l : Fin 32, (s.active always).getLsbD l.val = true →
        ∃ n, indexed rg 2 3 l = some n ∧ (slotOf rg n).mask.getLsbD l.val = true) ∧
      destCheck r [putOf (dv 9) (s.active always) (r.w 0)] s = .ok ()) ∧
    (let s := indexing
     let rg := s.curWarp.reg
     let names := ((lanesOf (s.active always)).filterMap fun l => indexed rg 2 3 l).eraseDups
     (∃ r, Ready always (opsOf .zero [srcI (s_ 1)]) [srcI (s_ 1)] (names.map fun n =>
      (⟨.v (Fin.ofNat 256 n), 1, s.active always &&& maskOf fun l => indexed rg 2 3 l == some n, r.w 0⟩ : Put)) s r) ∧
      ∀ l : Fin 32, (s.active always).getLsbD l.val = true → (indexed rg 2 3 l).isSome = true) ∧
    (let s := late40 indexing
     checkIssue always [.v 9] false s = .ok () ∧ checkIssue always [.zero, .s 1] false s = .ok () ∧ s.curWarp.late ≠ []) ∧
    let s := indexing
    checkIssue always [.v 9] false s = .ok () ∧ s.curWarp.late = [] ∧
      (∀ l : Fin 32, (s.active always).getLsbD l.val = true → ∀ n, indexed s.curWarp.reg 2 4 l = some n →
        (slotOf s.curWarp.reg n).mask.getLsbD l.val = true) ∧ ∀ l : Fin 32, (0xFFFFFFFF : Mask).getLsbD l.val =
      ((s.active always).getLsbD l.val && (indexed s.curWarp.reg 2 4 l).isNone) := by
  refine ⟨⟨_, ready (by decide +kernel)⟩, ⟨_, ready (by decide +kernel)⟩, ⟨unit_ok (by decide +kernel),
    by decide +kernel, ?_, unit_ok (by decide +kernel)⟩, ⟨⟨_, ready (by decide +kernel)⟩, by decide +kernel⟩,
    ⟨unit_ok (by decide +kernel), unit_ok (by decide +kernel), by decide +kernel⟩, unit_ok (by decide +kernel),
    by decide +kernel, ?_, by decide +kernel⟩
  rotate_left
  · have h : ∀ l : Fin 32, indexed indexing.curWarp.reg 2 4 l = none := by decide +kernel
    intro l _ n hn
    rw [h l] at hn
    cases hn
  have h : ∀ l : Fin 32, indexed indexing.curWarp.reg 2 3 l = some 7 ∧
    (slotOf indexing.curWarp.reg 7).mask.getLsbD l.val = true := by decide +kernel
  exact fun l _ => ⟨7, h l⟩

theorem meets_PredicatesAndReleasesComplete :
    (∃ r, Ready always (opsOf .zero [srcI (s_ 1), srcU (s_ 2)]) [srcI (s_ 1), srcU (s_ 2)] [] alu r) ∧
    (let s := setV 3 (full 0 0) alu
     let ks := [Operand.v 3, .zero, .zero].flatMap fun o => (⟨o, 0, s.active always, splat 0⟩ : Put).names s.curWarp
     let v := killNames s.curWarp.reg.v ks
     checkIssue always [.v 3, .zero, .zero] false s = .ok () ∧
      shareStall s (releases s.curWarp.reg.v ((s.curWarp.reg.v.map Prod.fst).filter fun n => !(v.any fun p => p.1 == n)) [])
        = false) ∧
    (let v : AMap Slot := [(3, full 0 0)]
     (v.map Prod.fst).Nodup ∧ AMap.get? v 3 = some (full 0 0)) ∧
    checkIssue always [] false alu = .ok () :=
  ⟨⟨_, ready (by decide +kernel)⟩, ⟨unit_ok (by decide +kernel), by decide +kernel⟩, by decide +kernel,
    unit_ok (by decide +kernel)⟩

theorem meets_ReductionsAndElectionsComplete :
    (∃ r, Ready always [.v 9, .s 1] [srcI (s_ 1)]
      [putOf (dv 9) (alu.active always)
        (splat ((combined .iadd .rn ((lanesOf (alu.active always)).map fun l => (r.w 0)[l])).getD 0))] alu r) ∧
    (∃ r, Ready always [.v 9, .s 1] [srcF (s_ 1)]
      [putOf (dv 9) (alu.active always) (tab fun l => if (alu.active always).getLsbD l.val then
        ((combined .fmax .rn (((lanesOf (alu.active always)).filter fun k => decide (k.val < l.val) || (!true && k == l)).map
          fun k => (r.w 0)[k])).getD (redId .fmax)) else 0)] alu r) ∧
    (∀ d ∈ [Operand.v 9, .p 4, .s 9, .w 9], ∃ r, Ready always [d] [] [putOf ⟨d, 0⟩ (alu.active always) (match d with
      | .s _ | .w _ => splat (BitVec.ofNat 32 (((electLane .rr (alu.active always) alu.curWarp.reg.elect).map Fin.val).getD 0))
      | _ => tab fun l => if electLane .rr (alu.active always) alu.curWarp.reg.elect = some l then 1 else 0)] alu r) ∧
    let s := setV 3 (full 7 0) (setS 4 31 (onlyLane 0 alu))
    let rb := rd always [srcU (s_ 4)] s
    let n : Fin 32 := Fin.ofNat 32 ((uval (s.active always) (rb.w 0)).toNat % 32)
    let r : Reading := { rb with
      vals := [rd1 (wordOf s .int (.v 3) 0)]
      names := rb.names ++ namesRead s.curWarp (readers s.curWarp s.curSplit always) (.v 3) 1
      holds := [] ++ rb.holds }
    checkIssue always [.v 9, .v 3, .s 4] false s = .ok () ∧ readAll always [srcU (s_ 4)] s = .ok rb ∧ n = 31 ∧
      (badNames s.curWarp (one_ n) [.v 3] = 0 ∧ badLatch s (one_ n) (.v 3) = 0 ∧ deadLanes s (one_ n) (.v 3) 1 = 0) ∧
      destCheck r [putOf (dv 9) (s.active always) (splat (wordOf s .int (.v 3) 0)[n])] s = .ok () := by
  refine ⟨⟨_, ready (by decide +kernel)⟩, ⟨_, ready (by decide +kernel)⟩, ?_, unit_ok (by decide +kernel),
    got_ok (by decide +kernel), by decide +kernel, by decide +kernel, unit_ok (by decide +kernel)⟩
  intro d hd
  simp only [List.mem_cons, List.not_mem_nil, or_false] at hd
  rcases hd with rfl | rfl | rfl | rfl <;> exact ⟨_, ready (by decide +kernel)⟩

theorem meets_ElectionChooses : (1 : Mask) ≠ 0 ∧ (0x80000000 : Mask) ≠ 0 := by decide

theorem meets_NumericStatus :
    (∃ r, Ready always [.s 1] [opU (.s 1)] [] alu r) ∧ alu.active always ≠ 0 :=
  ⟨⟨_, ready (by decide +kernel)⟩, by decide +kernel⟩

theorem meets_SystemRegistersComplete :
    (∃ r, Ready always [.s 8] [] [⟨.s 8, 0, alu.active always, tab fun l => lo32 (regValue alu 0x010 l)⟩] alu r) ∧
    knownReg 0x010 = true ∧
    (checkIssue always [.s 8] false alu = .ok () ∧ alu.members ≠ 0 ∧ (knownReg 0xFFF && (!false || wideReg 0xFFF)) = false) ∧
    ((∃ r, Ready always [.s 1] [opU (.s 1)] [] alu r) ∧ writableReg 0x010 = true ∧ writeWaits 0x010 alu = false) ∧
    (checkIssue always [.s 1] false alu = .ok () ∧ writableReg 0xFFF = false) ∧
    (∃ n, secureRead n = true) ∧ (∃ n, secureWrite n = true) ∧ alu.curLaunch.desc.world = false ∧
    storedReg (0x100#12).toNat = true ∧ storedReg (0x010#12).toNat = false ∧
    ({ alu with launches := AMap.mapVals alu.launches fun _ l => { l with desc := { l.desc with world := true } } }).curLaunch.desc.world
      = true := by
  refine ⟨⟨_, ready (by decide +kernel)⟩, by decide +kernel, ⟨unit_ok (by decide +kernel), by decide +kernel⟩,
    ⟨⟨_, ready (by decide +kernel)⟩, by decide +kernel⟩, ⟨unit_ok (by decide +kernel), by decide +kernel⟩, ?_, ?_,
    by decide +kernel, by decide +kernel, by decide +kernel, by decide +kernel⟩ <;> exact ⟨0x100, by decide +kernel⟩

/-! ### Memory -/

/-- A page at 0x2_0000 that may be written, mapped to itself and cached at every level or, with `c` 1, not in L1; s2 and s3
hold its address, and s4 an offset in a buffer. -/
def pageAt (c : Nat) (s : State) : State :=
  let e : TlbEnt := { asid := 0, world := false, vbase := 0x20000, lg := 16, leaf := w64 (0x2007 + 32 * c) }
  setS 2 0x20000 (setS 4 64 (s.updCore 0 fun k => { k with tlb := tlbPut 256 k.tlb e }))
def withBufs (s : State) : State := s.updBlock 1 fun b => { b with
  abuf := { b.abuf with size := 4096 }, cbuf := { b.cbuf with size := 4096 }, wbuf := { b.wbuf with size := 65536 } }
def mem0 : State := withBufs (pageAt 0 memory)
def mem1 : State := withBufs (pageAt 1 memory)
/-- The page is in the Vat of die 0, whose sectors have no compression. -/
def vat : State :=
  let e : TlbEnt := { asid := 0, world := false, vbase := 0x20000, lg := 16, leaf := 0x100000000007 }
  (mem0.updDie 0 fun d => { d with vatcfg := 1 }).updCore 0 fun k => { k with tlb := [e] }

theorem memReady {g : Guard} {ops : List Operand} {qs : List SrcSpec} {puts : List Put} {s : State}
    (h : readyB g ops qs puts s = true) (h2 : s.active g = 0 ∨ s.curWarp.acquiring s.cur.split = false ∧ s.curWarp.ord.ops.length < 63) :
    MemReady g ops qs puts s (rd g qs s) := ⟨ready h, h2⟩

/-- What a load delivers, where it has no fault. -/
def loaded (acq : Option Scope) (al : Bool) (rs : List Req) (s : State) : List (List Byte) × State :=
  got ([], s) (loadGlobal s acq al rs)
def loadedB (c st : Bool) (rs : List Req) (s : State) : List (List Byte) × State := got ([], s) (loadBuf s c st rs)

theorem meets_LoadsComplete :
    (let s := mem1
     let r := rd always [{ op := .s 2, n := 2 }] s
     let rs := laneReqs (s.active always) (ldBytes .b128) (gAddr (r.at 0) 0x10)
     let x := loaded (some .clu) true rs r.st
     MemReady always [.v 4, .s 2] [{ op := .s 2, n := 2 }] (ldPuts (dv 4) .b128 (s.active always) fun _ => []) s r ∧
      loadGlobal r.st (some .clu) true rs = .ok x ∧
      destCheck { r with st := x.2 } (ldPuts (dv 4) .b128 (s.active always) (pickLane (s.active always) x.1 [])) s = .ok ()) ∧
    (let s := mem0
     let r := rd always [{ op := .s 2, n := 2, uni := true }] s
     let rs := uniReq (s.active always) (ldBytes .u8) (gAddr (r.at 0) 0 ((lowest (s.active always)).getD 0))
     let x := loaded none true rs r.st
     MemReady always [.s 9, .s 2] [{ op := .s 2, n := 2, uni := true }] (ldPuts ⟨.s 9, 0⟩ .u8 (s.active always) fun _ => [])
      s r ∧ loadGlobal r.st none true rs = .ok x ∧
      destCheck { r with st := x.2 } (ldPuts ⟨.s 9, 0⟩ .u8 (s.active always) fun _ => x.1.head?.getD []) s = .ok ()) ∧
    (let s := setS 5 65520 mem0
     let r := rd always [srcI (s_ 5)] s
     let addr (l : Fin 32) : Nat := (bAddr (r.at 0) 0 l).toNat
     MemReady always [.v 4, .s 5] [srcI (s_ 5)] (ldPuts (dv 4) .b128 (s.active always) fun _ => []) s r ∧
      (∀ l : Fin 32, (s.active always).getLsbD l.val = true →
        addr l % ldBytes .b128 = 0 ∧ addr l + ldBytes .b128 ≤ 65536) ∧
      destCheck r (ldPuts (dv 4) .b128 (s.active always) fun l => s.curLaunch.bank.readN (addr l) (ldBytes .b128)) s = .ok ()) ∧
    (let s := mem0
     let r := rd always [srcI (s_ 4)] s
     let rs := laneReqs (s.active always) (ldBytes .s16) (bAddr (r.at 0) 0)
     let x := loadedB true true rs r.st
     MemReady always [.v 9, .s 4] [srcI (s_ 4)] (ldPuts (dv 9) .s16 (s.active always) fun _ => []) s r ∧
      loadBuf r.st (Buf.cbuf == .cbuf) true rs = .ok x ∧
      destCheck { r with st := x.2 } (ldPuts (dv 9) .s16 (s.active always) (pickLane (s.active always) x.1 [])) s = .ok ()) ∧
    let s := mem0
    let r := rd always [srcU (s_ 4)] s
    let x := loadedB false false (uniReq (s.active always) 34 (bAddr (r.at 0) 0 ((lowest (s.active always)).getD 0))) r.st
    MemReady always [.v 9, .s 4] [srcU (s_ 4)] [putOf (dv 9) (s.active always) (splat 0)] s r ∧
      loadBuf r.st false false (uniReq (s.active always) 34 (bAddr (r.at 0) 0 ((lowest (s.active always)).getD 0))) = .ok x :=
  ⟨⟨memReady (by decide +kernel) (by decide +kernel), got_ok (by decide +kernel), unit_ok (by decide +kernel)⟩,
    ⟨memReady (by decide +kernel) (by decide +kernel), got_ok (by decide +kernel), unit_ok (by decide +kernel)⟩,
    ⟨memReady (by decide +kernel) (by decide +kernel), by decide +kernel, unit_ok (by decide +kernel)⟩,
    ⟨memReady (by decide +kernel) (by decide +kernel), got_ok (by decide +kernel), unit_ok (by decide +kernel)⟩,
    memReady (by decide +kernel) (by decide +kernel), got_ok (by decide +kernel)⟩

/-- The operands of a store of s10 (s10 and up for a group) at the page. -/
def stQs (n : Nat) : List SrcSpec := [{ op := .s 2, n := 2 }, { op := .s 8, n := n }]
def stReqs (n : Nat) (s : State) : List Req := laneReqs (s.active always) n (gAddr ((rd always (stQs 1) s).at 0) 0)

theorem meets_StoresComplete :
    (let s := onlyLane 0 mem0
     let r := rd always (stQs 4) s
     MemReady always [.s 8, .s 2] (stQs 4) [] s r ∧ ∃ s1, storeGlobal r.st (some .sys)
      (laneReqs (s.active always) (stBytes .b128) (gAddr (r.at 0) 0))
      ((lanesOf (s.active always)).map fun l => stData .b128 (r.at 1) l) = .ok s1) ∧
    (let s := mem0
     let r := rd always (stQs 1) s
     MemReady always [.s 8, .s 2] (stQs 1) [] s r ∧ ∃ x, globalCheck r.st .write false true
      (laneReqs (s.active always) (stBytes .b8) (gAddr (r.at 0) 0)) = .ok x) ∧
    (Issuable always false mem0 ∧ Counts always mem0 ∧ drainCheck anyPa (mem0.active always) mem0 = .ok ()) ∧
    (let s := mem0
     let qs : List SrcSpec := [srcI (s_ 4), { op := .s 8, n := 2 }]
     let r := rd always qs s
     MemReady always [.s 8, .s 4] qs [] s r ∧ ∃ s1, storeBuf r.st (Buf.abuf == .cbuf)
      (laneReqs (s.active always) (stBytes .b64) (bAddr (r.at 0) 4024))
      ((lanesOf (s.active always)).map fun l => stData .b64 (r.at 1) l) = .ok s1) ∧
    let s := onlyLane 0 vat
    let qs : List SrcSpec := [{ op := .s 2, n := 2 }, { op := .s 8, imm := .int }]
    let r := rd always qs s
    MemReady always [.s 8, .s 2] qs [] s r ∧ ∀ sc ∈ [Scope.blk, .clu, .grd], ∃ s1,
      redGlobal s r.st (s.active always) .add sc true (laneReqs (s.active always) 4 (gAddr16 (r.at 0) 0)) (fun l => (r.w 1)[l]) =
        .ok s1 :=
  ⟨⟨memReady (by decide +kernel) (by decide +kernel), ⟨_, got_ok (d := mem0) (by decide +kernel)⟩⟩,
    ⟨memReady (by decide +kernel) (by decide +kernel), ⟨_, got_ok (d := ([], mem0)) (by decide +kernel)⟩⟩,
    ⟨issuable (by decide +kernel), .inr (by decide +kernel), unit_ok (by decide +kernel)⟩,
    ⟨memReady (by decide +kernel) (by decide +kernel), ⟨_, got_ok (d := mem0) (by decide +kernel)⟩⟩,
    memReady (by decide +kernel) (by decide +kernel), fun sc h => by
      simp only [List.mem_cons, List.not_mem_nil, or_false] at h
      rcases h with rfl | rfl | rfl <;> exact ⟨_, got_ok (d := vat) (by decide +kernel)⟩⟩

/-- A load of two bytes from an address that is not in L1, and a store of the core's own that covers it. -/
theorem meets_LoadReadsLatestWrite :
    (∃ g s1, globalCheck mem1 .read true true [⟨1, 0x20002, 2⟩] = .ok ([g], s1) ∧ g.req.n = 2 ∧
      quarantined mem1 mem1.curCore g.pa = false ∧ g.leaf.cache ≠ 0 ∧ pendingOf mem1 mem1.curCore = [] ∧
      (mem1.core mem1.curCore).body.nt = [] ∧ raceOf s1 ⟨mem1.who, mem1.instant, false, none⟩ g none true = none) ∧
    let o := mem1.outItem (.store 0x20000 (at_ 0x20000 [1, 2, 3, 4])) none none 0
    let s := mem1.updCore 0 fun k => { k with lager := [o] }
    pendingOf s 0 = [o] ∧ (s.core 0).body.nt = [] := by
  refine ⟨⟨(got ([], mem1) (globalCheck mem1 .read true true [⟨1, 0x20002, 2⟩])).1.head?.getD ⟨⟨0, 0, 0⟩, 0, ⟨0, 0, 0⟩⟩,
    (got ([], mem1) (globalCheck mem1 .read true true [⟨1, 0x20002, 2⟩])).2, ?_, by decide +kernel⟩, by decide +kernel⟩
  have h := got_ok (d := ([], mem1)) (x := globalCheck mem1 .read true true [⟨1, 0x20002, 2⟩]) (by decide +kernel)
  have h2 : (got ([], mem1) (globalCheck mem1 .read true true [⟨1, 0x20002, 2⟩])).1 =
    [(got ([], mem1) (globalCheck mem1 .read true true [⟨1, 0x20002, 2⟩])).1.head?.getD ⟨⟨0, 0, 0⟩, 0, ⟨0, 0, 0⟩⟩] := by
    decide +kernel
  rw [← h2]
  exact h

/-- An instruction of each kind at a word that is not aligned. -/
def misaligned : List Instr := [.ld always (dv 9) .u16 none (.s 2) 1, .lds always (.s 9) .b32 none (.s 2) 2, .ldc always (dv 9) .b32 (s_ 4) 3,
  .ldb always (dv 9) .b32 .cbuf (s_ 4) 2, .st always (s_ 8) .b32 none (.s 2) 2, .stnt always (s_ 8) .b64 (.s 2) 4,
  .stb always (s_ 8) .b16 .abuf (s_ 4) 1, .red always (s_ 8) .add .grd false (.s 2) 2, .atom always (dv 9) false .add .blk .relaxed (.s 2) 1,
  .atomc always (dv 9) (s_ 2) (s_ 8) (s_ 10) .blk .relaxed .global, .atomc always (dv 9) (s_ 5) (s_ 8) (s_ 10) .blk .relaxed .cbuf,
  .batom always (dv 9) false .add .blk .relaxed .abuf (s_ 4) 3]
/-- s2 is 0x2_0001 where the instruction has no offset of its own; s5 is 2. -/
def misState : Instr → State
  | .atomc .. => setS 2 0x20001 (setS 5 2 mem0)
  | _ => setV 9 (full 5 0) mem0

def misB (i : Instr) : Bool :=
  let s := misState i
  match accessOf s noReading i with
  | none => false
  | some y =>
    let r := rd y.g y.qs s
    match accessOf s r i with
    | none => false
    | some x => readyB x.g x.ops x.qs x.pre s && decide (x.qs = y.qs) && decide (x.g = y.g) &&
      (x.reqs.find? fun q => q.va.toNat % q.n != 0).isSome &&
      (List.finRange 32).all fun k => x.reqs.any fun q => q.lanes.getLsbD k.val && q.va.toNat % q.n != 0

theorem free_of {x : Access} {s : State} (h : sbEntries s s.curCore = []) : x.free s := by
  intro q _
  split
  · simp [sbHits, h]
  · split
    · trivial
    · intros; simp [sbHits, h]

/-- What the statement of misalignment supposes, with the lanes of `m`. -/
def MisMeets (i : Instr) (m : Mask) : Prop := ∃ r x q0, accessOf (misState i) r i = some x ∧
  MemReady x.g x.ops x.qs x.pre (misState i) r ∧ x.free (misState i) ∧
  (∀ k : Fin 32, m.getLsbD k.val = true → ∃ q ∈ x.reqs, q.lanes.getLsbD k.val = true ∧ q.va.toNat % q.n ≠ 0) ∧
  (x.reqs.find? fun q => q.va.toNat % q.n != 0) = some q0

theorem mis_ex {i : Instr} (h : misB i = true) (hc : sbEntries (misState i) (misState i).curCore = [])
    (ho : (misState i).curWarp.acquiring (misState i).cur.split = false ∧ (misState i).curWarp.ord.ops.length < 63) :
    MisMeets i 0xFFFFFFFF := by
  unfold misB at h
  simp only at h
  split at h
  · cases h
  · rename_i y hy
    split at h
    · cases h
    · rename_i x hx
      simp only [Bool.and_eq_true, decide_eq_true_eq] at h
      obtain ⟨⟨⟨⟨h1, h2⟩, h3⟩, h4⟩, h5⟩ := h
      rw [← h2, ← h3] at hx
      obtain ⟨q0, hq⟩ := some_ex h4
      refine ⟨_, x, q0, hx, memReady h1 (.inr ho), free_of hc, fun k _ => ?_, hq⟩
      simp only [List.all_eq_true, List.any_eq_true, Bool.and_eq_true, bne_iff_ne] at h5
      exact h5 k (List.mem_finRange k)

theorem meets_MisalignedFaults : ∀ i ∈ misaligned, MisMeets i 0xFFFFFFFF := by
  have h : ∀ i ∈ misaligned, misB i = true ∧ sbEntries (misState i) (misState i).curCore = [] ∧
    (misState i).curWarp.acquiring (misState i).cur.split = false ∧ (misState i).curWarp.ord.ops.length < 63 := by decide +kernel
  exact fun i hi => mis_ex (h i hi).1 (h i hi).2.1 (h i hi).2.2

/-- The launch has lagering on. -/
def lagering (s : State) : State := s.updLaunch 1 fun l => { l with hdr := { l.hdr with lagerOff := false } }

theorem meets_StoreWaitsInLagerBuffer :
    let s := onlyLane 0 (lagering mem0)
    (∃ t, storeGlobal s none (stReqs 4 s) [[1, 2, 3, 4]] = .ok t) ∧
      (∃ x, globalCheck s .write false true (stReqs 4 s) = .ok x) ∧ stReqs 4 s ≠ [] ∧ s.curLaunch.lagers = true :=
  ⟨⟨_, got_ok (d := mem0) (by decide +kernel)⟩, ⟨_, got_ok (d := ([], mem0)) (by decide +kernel)⟩, by decide +kernel⟩

/-- Its other hypotheses are those of LoadsComplete and StoresComplete, at the same states. -/
theorem meets_MemoryFrames :
    (Instr.ld always (dv 4) .b128 (some .clu) (.s 2) 0x10).wf = true ∧ (Instr.ldc always (dv 4) .b128 (s_ 5) 0).wf = true ∧
      (Instr.st always (s_ 8) .b128 (some .sys) (.s 2) 0).wf = true ∧ (Instr.stnt always (s_ 8) .b8 (.s 2) 0).wf = true ∧
      (Instr.stb always (s_ 8) .b64 .abuf (s_ 4) 4024).wf = true ∧
      mem0.Issues (blkOf mem0) (wrpOf mem0) (splOf mem0) ∧ mem1.Issues (blkOf mem1) (wrpOf mem1) (splOf mem1) :=
  ⟨by decide +kernel, by decide +kernel, by decide +kernel, by decide +kernel, by decide +kernel,
    issues (by decide +kernel) (by decide +kernel) (by decide +kernel),
    issues (by decide +kernel) (by decide +kernel) (by decide +kernel)⟩

/-- A buffer atomic waits for nothing; the others are at the page. -/
theorem meets_AtomicsComplete :
    (let s := onlyLane 0 vat
     let qs : List SrcSpec := [{ op := .s 2, n := 2 }, { op := .v 9 }]
     let t := setV 9 (full 5 0) s
     checkIssue always [.v 9, .s 2] false t = .ok () ∧ Counts always t ∧ (∃ r, readAll always qs t = .ok r ∧
      ∃ u, atomGlobal t r (t.active always) (dv 9) (some .add) .grd .relaxed (gAddr16 (r.at 0) 0) (fun _ => 0)
        (fun l => (r.w 1)[l]) = .ok u)) ∧
    (let s := onlyLane 0 mem0
     let qs : List SrcSpec := [{ op := .s 2, n := 2 }, srcI (s_ 8), srcI (s_ 9)]
     checkIssue always [.v 9, .s 2, .s 8, .s 9] false s = .ok () ∧ Counts always s ∧ (∃ r, readAll always qs s = .ok r ∧
      ∃ u, atomGlobal s r (s.active always) (dv 9) none .blk .acqrel (gAddr16 (r.at 0) 0) (fun l => (r.w 1)[l])
        (fun l => (r.w 2)[l]) = .ok u)) ∧
    (let s := onlyLane 0 mem0
     let qs : List SrcSpec := [srcI (s_ 4), srcI (s_ 8), srcI (s_ 9)]
     checkIssue always [.v 9, .s 4, .s 8, .s 9] false s = .ok () ∧ Counts always s ∧
      (∃ r, readAll always qs s = .ok r ∧ ∃ u, atomBuffer s r (s.active always) (dv 9) (ASpace.cbuf == .cbuf) none .blk .acq
        (bAddr16 (r.at 0) 0) (fun l => (r.w 1)[l]) (fun l => (r.w 2)[l]) = .ok u)) ∧
    let s := setV 9 (full 5 0) mem0
    let qs : List SrcSpec := [srcI (s_ 4), { op := .v 9 }]
    checkIssue always [.v 9, .s 4] false s = .ok () ∧ Counts always s ∧
      ∃ r, readAll always qs s = .ok r ∧ ∃ u, atomBuffer s r (s.active always) (dv 9) (Buf.abuf == .cbuf) (some .inc) .blk
        .relaxed (bAddr16 (r.at 0) 0) (fun _ => 0) (fun l => (r.w 1)[l]) = .ok u :=
  ⟨⟨unit_ok (by decide +kernel), .inr (by decide +kernel), _, got_ok (d := noReading) (by decide +kernel), _,
      got_ok (d := mem0) (by decide +kernel)⟩,
    ⟨unit_ok (by decide +kernel), .inr (by decide +kernel), _, got_ok (d := noReading) (by decide +kernel), _,
      got_ok (d := mem0) (by decide +kernel)⟩,
    ⟨unit_ok (by decide +kernel), .inr (by decide +kernel), _, got_ok (d := noReading) (by decide +kernel), _,
      got_ok (d := mem0) (by decide +kernel)⟩,
    unit_ok (by decide +kernel), .inr (by decide +kernel), _, got_ok (d := noReading) (by decide +kernel), _,
      got_ok (d := mem0) (by decide +kernel)⟩

theorem meets_AtomicPerformed : ∀ sc ∈ [Scope.blk, .clu, .sys],
    let s := onlyLane 7 (lagering vat)
    let r := { noReading with st := s }
    let m := one_ 7
    s.mem.wf = true ∧ lowest m = some 7 ∧ (∃ g s1, globalCheck r.st .write true true (laneReqs m 4 fun _ => 0x20004) = .ok ([g], s1) ∧
      g.req = ⟨one_ 7, 0x20004, 4⟩ ∧ (tierOf s g.pa).any (fun t => t.1 == 2) = false ∧
      raceOf s ⟨s.who, s.instant, true, some sc⟩ g none true = none ∧ (∀ a, ¬ Bookkept s g.pa a) ∧
      (∀ p ∈ s1.launches, p.2.armed = [])) ∧
      (∃ t, redGlobal s s m .add sc false (laneReqs m 4 fun _ => 0x20004) (fun _ => 5) = .ok t) ∧
      (∃ t, atomGlobal s r m (dv 9) (some .add) sc .relaxed (fun _ => 0x20004) (fun _ => 0) (fun _ => 5) = .ok t) ∧
      s.curLaunch.lagers = true := by
  have h : isOk (globalCheck (onlyLane 7 (lagering vat)) .write true true (laneReqs (one_ 7) 4 fun _ => 0x20004)) = true := by
    decide +kernel
  intro sc hsc
  refine ⟨by decide +kernel, by decide +kernel, ?_, ?_, ?_, by decide +kernel⟩
  · cases e : globalCheck (onlyLane 7 (lagering vat)) .write true true (laneReqs (one_ 7) 4 fun _ => 0x20004) with
    | error x => rw [e] at h; cases h
    | ok x =>
      have k : x = got ([], vat) (globalCheck (onlyLane 7 (lagering vat)) .write true true
          (laneReqs (one_ 7) 4 fun _ => 0x20004)) := by rw [e]; rfl
      have k1 : x.1 = [⟨⟨one_ 7, 0x20004, 4⟩, 0x1000000000004, ⟨0x100000000007, 0, 16⟩⟩] := by rw [k]; decide +kernel
      have k2 : ∀ p ∈ x.2.launches, p.2.armed = [] := by rw [k]; decide +kernel
      obtain ⟨gs, s1⟩ := x
      subst k1
      have k3 : recordOf (onlyLane 7 (lagering vat)) 0x1000000000004 = none := by decide +kernel
      refine ⟨_, s1, rfl, rfl, by decide +kernel, ?_, ?_, k2⟩
      · simp only [List.mem_cons, List.not_mem_nil, or_false] at hsc
        rcases hsc with rfl | rfl | rfl <;> decide +kernel
      · rintro a ⟨r, hr, -⟩
        rw [k3] at hr
        cases hr
  · simp only [List.mem_cons, List.not_mem_nil, or_false] at hsc
    rcases hsc with rfl | rfl | rfl <;> exact ⟨_, got_ok (d := vat) (by decide +kernel)⟩
  · simp only [List.mem_cons, List.not_mem_nil, or_false] at hsc
    rcases hsc with rfl | rfl | rfl <;> exact ⟨_, got_ok (d := vat) (by decide +kernel)⟩

/-! ### Caches and streams -/

/-- The descriptor of a stream of 3 words in ABUF from offset 128, 4 bytes apart in every lane, at offset 64. -/
def streamBytes : List Byte :=
  toLe 64 (128 + 2 ^ 64 + 2 * 2 ^ 69 + (3 + 2 ^ 16 + 2 ^ 32 + 2 ^ 48) * 2 ^ 256 + 4 * 2 ^ 320 + 4 * 2 ^ 448)
def withAbuf (o : Nat) (bs : List Byte) (s : State) : State :=
  s.updBlock 1 fun b => { b with abuf := { b.abuf with data := b.abuf.data.writeAll (at_ o bs) } }
def withCbuf (o : Nat) (bs : List Byte) (s : State) : State :=
  s.updBlock 1 fun b => { b with cbuf := { b.cbuf with data := b.cbuf.data.writeAll (at_ o bs) } }

theorem meets_CacheAndStreamsComplete :
    MemReady always [.s 2] [{ op := .s 2, n := 2 }] [] mem0 (rd always [{ op := .s 2, n := 2 }] mem0) ∧
    (let s := onlyLane 0 mem0
     let r := rd always [{ op := .s 2, n := 2 }] s
     MemReady always [.s 2] [{ op := .s 2, n := 2 }] [] s r ∧
      (let x := xlateAll r.st (.core s.curCore) s.curLaunch.desc.asid s.curLaunch.desc.world .read
        (laneReqs (s.active always) 1 (gAddr (r.at 0) 0))
       x.2.1 = [] ∧ ∀ y ∈ x.1, lagersLine s (y.pa / 64) = false)) ∧
    (Issuable always false mem0 ∧ Counts always mem0) ∧
    (let s := withAbuf 64 streamBytes mem0
     let r := rd always [{ op := .s 4, uni := true }] s
     let a : DWord := (uval (s.active always) (r.w 0)).setWidth 64
     MemReady always [.s 4] [{ op := .s 4, uni := true }] [] s r ∧ s.active always ≠ 0 ∧ a.toNat % 64 = 0 ∧
      a.toNat < 2 ^ 20 ∧ (let x := got ([], s) (loadBuf r.st false true (uniReq (s.active always) 64 a))
        loadBuf r.st false true (uniReq (s.active always) 64 a) = .ok x ∧
          (parseStream (x.1.head?.getD [])).isSome = true)) ∧
    (let s := mem0.updReg fun g => { g with p := g.p.set 0 0 }
     let r := rd (.pred false 0) [{ op := .s 4, uni := true }] s
     MemReady (.pred false 0) [.s 4] [{ op := .s 4, uni := true }] [] s r ∧ s.active (.pred false 0) = 0 ∧
      ∃ s1, loadBuf r.st false true [] = .ok ([], s1)) ∧
    ∃ r, MemReady always [.s 9] [] [⟨.s 9, 0, mem0.active always, splat 0⟩] mem0 r :=
  ⟨memReady (by decide +kernel) (by decide +kernel),
    ⟨memReady (by decide +kernel) (by decide +kernel), by decide +kernel, by decide +kernel⟩,
    ⟨issuable (by decide +kernel), .inr (by decide +kernel)⟩,
    ⟨memReady (by decide +kernel) (by decide +kernel), by decide +kernel, by decide +kernel, by decide +kernel,
      got_ok (by decide +kernel), by decide +kernel⟩,
    ⟨memReady (by decide +kernel) (by decide +kernel), by decide +kernel, ⟨_, rfl⟩⟩,
    _, memReady (by decide +kernel) (by decide +kernel)⟩

/-! ### Family 101 -/

/-- Offsets in a buffer: s4 is 64, s5 is 0, s6 is 4096, s7 is 1. -/
def eng0 : State := setS 4 64 (setS 6 4096 (setS 7 1 (withBufs engine)))
/-- Predicate 0 is false in every lane. -/
def idle0 : State := eng0.updReg fun g => { g with p := g.p.set 0 0 }

/-- The instructions of engines, with their operands. -/
def idleOk (i : Instr) : Bool :=
  match idleForm i with
  | some (g, ops, qs) => readyB g ops qs [] idle0 && decide (idle0.active g = 0)
  | none => false

theorem meets_IdleEngineInstructions : ∀ i ∈ (let g := Guard.pred false 0
    [.cekick g (.s 8) (.s 4) (.reg (.s 5)), .cekick g (.s 8) (.s 4) (.imm 4), .lstat g (.s 4) (.s 5) (.s 6),
      .tenq g (.s 9) (.s 4) true, .wlinit g 0 (.s 4) 3 false 6, .wlinitReg g 0 (.s 4) 3 false (.s 5),
      .wlthr g 0 (.s 4) (.s 5) true, .wlthrClr g 0 (.s 4), .wlrd g (.s 8) 0 (.s 4) 0 false,
      .wlrdt g (.s 8) 0 (.s 4) true, .wlmrg g 0 1 (.s 4) 0, .wlclr g 0 (some (.s 4)) true, .attn g (.s 9) (.s 4),
      .kvslab g 0 (.s 4), .kvslabLen g 0 (.s 4), .kvgrow g (.s 8) 0 (.s 4) (.s 6) 1 2, .smerge g (.s 4) (.s 5) 0 false,
      .smergeFin g (.s 4) 0 true .rn, .splice g 0 0 (.s 4) (.s 5), .fmsg g (.s 4) (.s 5) (.s 6) 0 0, .fpollBind g (.s 4),
      .coll g (.s 9) (.s 4), .cbpost g (.s 4) (.s 5) 0 1] : List Instr), ∃ g ops qs r,
    idleForm i = some (g, ops, qs) ∧ Ready g ops qs [] idle0 r ∧ idle0.active g = 0 := by
  intro i hi
  have h : idleOk i = true := by
    revert i
    decide +kernel
  simp only [idleOk] at h
  split at h
  · simp only [Bool.and_eq_true, decide_eq_true_eq] at h
    exact ⟨_, _, _, _, ‹_›, ready h.1, h.2⟩
  · cases h

theorem meets_CountersComplete :
    (∃ b, AMap.get? eng0.blocks eng0.cur.blk = some b) ∧
    (let s := eng0
     let r := rd always [opU (.s 4)] s
     let o := (uval (s.active always) (r.w 0)).toNat
     Ready always [.s 8, .s 4] [opU (.s 4)] [⟨.s 8, 0, s.active always, splat 4⟩] s r ∧ s.active always ≠ 0 ∧ o < 2 ^ 20 ∧
      o + 32 * (126 : BitVec 20).toNat ≤ s.curBlock.abuf.size ∧ o % 32 = 0 ∧ s.curWarp.acquiring s.cur.split = false ∧
      (s.core s.curCore).body.kicks.length < 32) ∧
    (∃ r, Ready always [.s 4] [opU (.s 4)] [] eng0 r) ∧ Issuable always true eng0 ∧
    (∃ r, Ready always [.s 8] [] [⟨.s 8, 0, eng0.active always, splat 1⟩] eng0 r) ∧
    (∃ r, Ready always [.s 8] [] [⟨.s 8, 0, eng0.active always, splat 0⟩, ⟨nextReg (.s 8) 1, 0, eng0.active always, splat 0⟩]
      eng0 r) ∧
    ∀ q ∈ ([[{ op := .s 4, n := 2, uni := true }], []] : List (List SrcSpec)),
      checkIssue always (opsOf .zero q) true eng0 = .ok () ∧ ∃ r, readAll always q eng0 = .ok r ∧ destCheck r [] eng0 = .ok () := by
  refine ⟨some_ex (by decide +kernel), ⟨ready (by decide +kernel), by decide +kernel⟩, ⟨_, ready (by decide +kernel)⟩, issuable (by decide +kernel),
    ⟨_, ready (by decide +kernel)⟩, ⟨_, ready (by decide +kernel)⟩, ?_⟩
  intro q hq
  simp only [List.mem_cons, List.not_mem_nil, or_false] at hq
  rcases hq with rfl | rfl <;> exact ⟨unit_ok (by decide +kernel), _, got_ok (d := noReading) (by decide +kernel),
    unit_ok (by decide +kernel)⟩

/-- A strict plane of two rows: its format word is in s6. -/
def plane0 (fmt : Word) : State := setS 6 fmt eng0
def lstatQs : List SrcSpec := [opU (.s 4), opU (.s 5), opU (.s 6)]

theorem meets_PlanesComplete :
    (∀ st ∈ [true, false], let s := (plane0 0x01020004).updSplit fun sp => { sp with stalled := st }
     let r := rd always lstatQs s
     let o := (uval (s.active always) (r.w 0)).toNat
     let fw := uval (s.active always) (r.w 2)
     let a := (s.core s.curCore).body.array
     Ready always [.s 4, .s 5, .s 6] lstatQs [] s r ∧ s.active always ≠ 0 ∧
      s.curSplit.plane = none ∧ planeOk fw = true ∧ o % 64 = 0 ∧
      o + (PlaneFmt.of fw).bytes ≤ s.curBlock.wbuf.size ∧ s.curSplit.stalled = st ∧ a.lstatWaits = false ∧
      wbufBusy s s.curCore s.cur.blk o (PlaneFmt.of fw).bytes = false) ∧
    (∀ bad ∈ [false, true], let s := (plane0 0x01020004).updSplit fun sp => { sp with plane := some bad }
     (∃ r, Ready always [.s 4, .s 5, .s 6] lstatQs [] s r) ∧ s.active always ≠ 0 ∧ s.curSplit.plane = some bad) ∧
    Issuable always false eng0 ∧
    ∃ r, Ready always [.s 8] [] [⟨.s 8, 0, eng0.active always, splat (tqrdWord eng0 3)⟩] eng0 r :=
  ⟨fun st h => by
      simp only [List.mem_cons, List.not_mem_nil, or_false] at h
      rcases h with rfl | rfl <;> exact ⟨ready (by decide +kernel), by decide +kernel⟩,
    fun bad h => by
      simp only [List.mem_cons, List.not_mem_nil, or_false] at h
      rcases h with rfl | rfl <;> exact ⟨⟨_, ready (by decide +kernel)⟩, by decide +kernel⟩,
    issuable (by decide +kernel), ⟨_, ready (by decide +kernel)⟩⟩

/-! ### Tasks and winner lists -/

/-- A record of one row of one element of FP8 (code 2), of a type, from ABUF 0 to CBUF 0; `rg` is its ragged group. -/
def tileBytes (type rg : Nat) : List Byte :=
  toLe 64 (rg * 2 ^ 168 + type * 2 ^ 228 + 2 * 2 ^ 248 + 2 ^ 296 + 2 ^ 304 + 2 ^ 320)
def task0 : State := withAbuf 64 (tileBytes 0 0) eng0
def tenqQs : List SrcSpec := [opU (.s 4)]

theorem meets_TaskEnqueueCompletes : let s := task0
    let b := s.curBlock
    let num := b.eng.tl[1].enq + 1
    let puts := if Operand.s 9 = .zero then [] else [(⟨.s 9, 0, s.active always, splat (num.setWidth 32)⟩ : Put)]
    let t := TileF.of (b.abuf.data.readN 64 64)
    let h := s.curWarp.reg.k[t.whandle]?.getD 0
    Ready always [.s 9, .s 4] tenqQs puts s (rd always tenqQs s) ∧ s.active always ≠ 0 ∧
      recordAt64 s (s.active always) (uval (s.active always) ((rd always tenqQs s).w 0)).toNat = .ok 64 ∧
      (t.type = 2 → groupFind s s.curCore s.cur.blk t.rgroup = none) ∧ tileOk b h false t = true ∧
      (s.core s.curCore).body.normal.length < 64 :=
  ⟨ready (by decide +kernel), by decide +kernel, got_ok (d := 64) (by decide +kernel), by decide +kernel, by decide +kernel,
    by decide +kernel⟩

/-- A queued task whose ragged group 3 is open. -/
def ragged : TileRec := { blk := 1, off := 128, num := 1, bytes := tileBytes 2 3, handle := 0, high := false, members := [] }
def join0 : State := (withAbuf 64 (tileBytes 2 3) eng0).updBody 0 fun k => { k with normal := [ragged] }

theorem meets_RaggedJoinCompletes : let s := join0
    let b := s.curBlock
    let num := b.eng.tl[1].enq + 1
    let puts := if Operand.s 9 = .zero then [] else [(⟨.s 9, 0, s.active always, splat (num.setWidth 32)⟩ : Put)]
    let t := TileF.of (b.abuf.data.readN 64 64)
    Ready always [.s 9, .s 4] tenqQs puts s (rd always tenqQs s) ∧ s.active always ≠ 0 ∧
      recordAt64 s (s.active always) (uval (s.active always) ((rd always tenqQs s).w 0)).toNat = .ok 64 ∧ t.type = 2 ∧
      groupFind s s.curCore s.cur.blk t.rgroup = some ragged ∧
      tileOk b (s.curWarp.reg.k[t.whandle]?.getD 0) true t = true ∧ groupMatch (TileF.of ragged.bytes) t = true ∧
      tileDst b (TileF.of ragged.bytes) (groupRows ragged + t.m) = true :=
  ⟨ready (by decide +kernel), by decide +kernel, got_ok (d := 64) (by decide +kernel), by decide +kernel, by decide +kernel,
    by decide +kernel, by decide +kernel, by decide +kernel⟩

/-- Lists of 2 and 4 rows of 3 entries at CBUF 0 and 256; every lane's v1 is 1 and its v2 is 9. -/
def wl0 : State := (setV 1 (full 1 0) (setV 2 (full 9 0) (setS 8 2 eng0))).updReg fun r =>
  { r with k := (r.k.set 0 (mkHandle false 3 2 0)).set 1 (mkHandle false 3 4 256) }

theorem meets_WinnerListsComplete :
    (let s := wl0
     let r := rd always [opU (.s 4)] s
     let o := (uval (s.active always) (r.w 0)).toNat
     let h := mkHandle false 3 2 o
     Ready always [.s 4] [opU (.s 4)] [] s r ∧ s.active always ≠ 0 ∧ o % 8 = 0 ∧ o + 8 * 4 * 2 ≤ s.curBlock.cbuf.size ∧
      touchCheck s [⟨s.active always, o, 8 * (hKw h + 1) * 2, true⟩] = .ok ()) ∧
    (let s := wl0
     let r := rd always [opU (.s 4), opU (.s 8)] s
     let o := (uval (s.active always) (r.w 0)).toNat
     let n := (uval (s.active always) (r.w 1)).toNat
     let h := mkHandle false 3 n o
     Ready always [.s 4, .s 8] [opU (.s 4), opU (.s 8)] [] s r ∧ 1 ≤ n ∧ n ≤ 4096 ∧
      o + 8 * 4 * n ≤ s.curBlock.cbuf.size ∧ touchCheck s [⟨s.active always, o, 8 * (hKw h + 1) * n, true⟩] = .ok ()) ∧
    (let s := wl0
     let h := s.curWarp.reg.k[(0 : Fin 8)]
     let r := rd always [opSrc (.v 1), opSrc (.v 2)] s
     let at_ (l : Fin 32) : Nat := ((r.w 0)[l]).toNat
     Ready always [.v 1, .v 2] [opSrc (.v 1), opSrc (.v 2)] [] s r ∧ hValid h = true ∧
      (∀ l : Fin 32, (s.active always).getLsbD l.val = true → at_ l < hRows h) ∧
      touchCheck s (hdrTouches (s.active always) h at_) = .ok ()) ∧
    (let s := wl0
     let h := s.curWarp.reg.k[(0 : Fin 8)]
     let r := rd always [opSrc (.v 1)] s
     let at_ (l : Fin 32) : Nat := ((r.w 0)[l]).toNat
     (Ready always [.v 1] [opSrc (.v 1)] [] s r ∧ (∀ l : Fin 32, (s.active always).getLsbD l.val = true → at_ l < hRows h) ∧
      touchCheck s (hdrTouches (s.active always) h at_) = .ok ()) ∧
     (let ent (l : Fin 32) : WEnt :=
        ((readRow s.curBlock.cbuf.data h (at_ l)).ents[0]?).getD (emptyScore (hFloat h), 0xFFFFFFFF#32)
      let puts := putPair (.v 4) (s.active always) (tab fun l => (ent l).1) (tab fun l => (ent l).2)
      Ready always [.v 4, .v 1] [opSrc (.v 1)] puts s r ∧ touchCheck s ((lanesOf (s.active always)).flatMap fun l =>
        ⟨one_ l, rowOff h (at_ l), 8, false⟩ :: [⟨one_ l, rowOff h (at_ l) + 8, 8, false⟩]) = .ok ()) ∧
     (let v (l : Fin 32) := thetaWords h true (readRow s.curBlock.cbuf.data h (at_ l))
      let puts := putPair (.v 4) (s.active always) (tab fun l => (v l).1) (tab fun l => (v l).2)
      Ready always [.v 4, .v 1] [opSrc (.v 1)] puts s r ∧ touchCheck s ((lanesOf (s.active always)).flatMap fun l =>
        ⟨one_ l, rowOff h (at_ l), 8, false⟩ :: []) = .ok ())) ∧
    (let s := onlyLane 0 wl0
     let hd := s.curWarp.reg.k[(0 : Fin 8)]
     let hs := s.curWarp.reg.k[(1 : Fin 8)]
     let r := rd always [opSrc (.v 1)] s
     let into (l : Fin 32) : Nat := ((r.w 0)[l]).toNat
     Ready always [.v 1] [opSrc (.v 1)] [] s r ∧ hValid hd = true ∧ hValid hs = true ∧ hFloat hd = hFloat hs ∧
      (∀ l : Fin 32, (s.active always).getLsbD l.val = true → into l < hRows hd ∧ into l + 2 < hRows hs) ∧
      touchCheck s ((lanesOf (s.active always)).flatMap fun l => [⟨one_ l, rowOff hs (into l + 2), 8 * (hKw hs + 1), false⟩,
        ⟨one_ l, rowOff hd (into l), 8 * (hKw hd + 1), true⟩]) = .ok () ∧
      Ready always [.zero, .v 1] [opSrc (.v 1)] [] s r ∧
      touchCheck s ((lanesOf (s.active always)).map fun l => ⟨one_ l, rowOff hd (into l), 8 * (hKw hd + 1), true⟩) = .ok ()) ∧
    ∃ r, Ready always [.zero] [] [] wl0 r ∧
      touchCheck wl0 [⟨wl0.active always, hOff (wl0.curWarp.reg.k[(0 : Fin 8)]),
        8 * (hKw (wl0.curWarp.reg.k[(0 : Fin 8)]) + 1) * hRows (wl0.curWarp.reg.k[(0 : Fin 8)]), true⟩] = .ok () :=
  ⟨⟨ready (by decide +kernel), by decide +kernel, by decide +kernel, by decide +kernel, unit_ok (by decide +kernel)⟩,
    ⟨ready (by decide +kernel), by decide +kernel, by decide +kernel, by decide +kernel, unit_ok (by decide +kernel)⟩,
    ⟨ready (by decide +kernel), by decide +kernel, by decide +kernel, unit_ok (by decide +kernel)⟩,
    ⟨⟨ready (by decide +kernel), by decide +kernel, unit_ok (by decide +kernel)⟩,
      ⟨ready (by decide +kernel), unit_ok (by decide +kernel)⟩, ready (by decide +kernel), unit_ok (by decide +kernel)⟩,
    ⟨ready (by decide +kernel), by decide +kernel, by decide +kernel, by decide +kernel, by decide +kernel,
      unit_ok (by decide +kernel), ready (by decide +kernel), unit_ok (by decide +kernel)⟩,
    ⟨_, ready (by decide +kernel), unit_ok (by decide +kernel)⟩⟩

/-! ### Norms, attention and the KV cache -/

theorem meets_NormsAndRotationsComplete :
    (let s := setV 1 (full 0x3F800000 0) (setV 2 (full 0x40000000 0) eng0)
     let qs := [srcF (v_ 1), srcF (v_ 2)]
     let r := rd always qs s
     let x := normbW .plain ((lanesOf (s.active always)).flatMap fun l => [(r.w 0)[l], (r.w 1)[l]])
     Ready always (opsOf (.v 5) qs) qs [putOf (dv 5) (s.active always) (splat x.1)] s r) ∧
    (let s := setV 1 (full 5 0) (setV 2 (full 0x40000000 0) eng0)
     let qs := [srcI (v_ 1), srcF (v_ 2)]
     let r := rd always qs s
     Ready always (opsOf (.v 5) qs) qs
        [putOf (dv 5) (s.active always) (tab fun l => (rotary true ((r.w 0)[l]).toNat (r.w 1)[l]).1)] s r ∧
      ∀ l : Fin 32, (s.active always).getLsbD l.val = true → ((r.w 0)[l]).toNat < 2 ^ 24) ∧
    (let s := setV 1 (full 0x1000000 0) (setV 2 (full 0x40000000 0) eng0)
     let qs := [srcI (v_ 1), srcF (v_ 2)]
     let r := rd always qs s
     Ready always (opsOf (.v 5) qs) qs
        [putOf (dv 5) (s.active always) (tab fun l => (rotary true ((r.w 0)[l]).toNat (r.w 1)[l]).1)] s r ∧
      ∀ l : Fin 32, (0xFFFFFFFF#32).getLsbD l.val =
        ((s.active always).getLsbD l.val && decide (2 ^ 24 ≤ ((r.w 0)[l]).toNat))) :=
  ⟨ready (by decide +kernel), ⟨ready (by decide +kernel), by decide +kernel⟩, ready (by decide +kernel), by decide +kernel⟩

/-- A slab of 64 FP16 tokens of 64 elements at byte 2^16, of which 8 are written. -/
def slab0 : Slab := { Slab.reset with valid := true, len := 8, etype := 1, lg := 6, base := 2 ^ 16 }
def slabbed : State := (setS 8 8 eng0).updEng 1 fun e => { e with kv := e.kv.set 2 slab0 }

theorem meets_SlabsComplete :
    (let s := withAbuf 64 (toLe 16 (2 ^ 16 + 6 * 2 ^ 64 + 8 * 2 ^ 80)) eng0
     let r := rd always [opU (.s 4)] s
     let o := (uval (s.active always) (r.w 0)).toNat
     Ready always [.s 4] [opU (.s 4)] [] s r ∧ s.active always ≠ 0 ∧ o % 16 = 0 ∧ o < 2 ^ 20 ∧
      (let x := got ([], s) (loadBuf r.st false true (uniReq (s.active always) 16 (BitVec.ofNat 64 o)))
       loadBuf r.st false true (uniReq (s.active always) 16 (BitVec.ofNat 64 o)) = .ok x ∧
        (parseSlab (x.1.head?.getD [])).isSome = true) ∧ (s.curBlock.eng.kv[(2 : Fin 8)]).growing = false) ∧
    (let s := slabbed
     let r := rd always [opU (.s 8)] s
     let k := s.curBlock.eng.kv[(2 : Fin 8)]
     Ready always [.s 8] [opU (.s 8)] [] s r ∧ s.active always ≠ 0 ∧ k.valid = true ∧
      (uval (s.active always) (r.w 0)).toNat ≤ 2 ^ (k.lg + if k.growing then 1 else 0)) ∧
    (let k := slabbed.curBlock.eng.kv[(2 : Fin 8)]
     ∃ r, Ready always [.s 9] [] [⟨.s 9, 0, slabbed.active always,
       splat (if k.valid then BitVec.ofNat 32 k.len else 0xFFFFFFFF#32)⟩] slabbed r) ∧
    (let s := setS 10 0x20000 slabbed
     let qs : List SrcSpec := [{ op := .s 10, n := 2, uni := true }, opU (.s 4)]
     let r := rd always qs s
     let k := s.curBlock.eng.kv[(2 : Fin 8)]
     let nb := (Rd.pair (r.at 0) ((lowest (s.active always)).getD 0)).toNat
     let o := (uval (s.active always) (r.w 1)).toNat
     let num := s.curBlock.eng.tl[0].enq + 1
     let puts := if Operand.s 9 = .zero then [] else [(⟨.s 9, 0, s.active always, splat (num.setWidth 32)⟩ : Put)]
     Ready always [.s 9, .s 10, .s 4] qs puts s r ∧ s.active always ≠ 0 ∧ k.valid = true ∧ k.lg ≤ 22 ∧
      2 ^ k.lg * k.eb ≤ 2 ^ 30 ∧ nb % 65536 = 0 ∧ o % 32 = 0 ∧ o < 2 ^ 20 ∧ o + 32 ≤ s.curBlock.abuf.size ∧
      s.curWarp.acquiring s.cur.split = false ∧ k.growing = false ∧ (s.core s.curCore).body.kicks.length < 32) ∧
    (let s := slabbed
     let r := rd always [opU (.s 8), opU (.s 4)] s
     let k := s.curBlock.eng.kv[(2 : Fin 8)]
     let fst := (uval (s.active always) (r.w 0)).toNat
     Ready always [.s 8, .s 4] [opU (.s 8), opU (.s 4)] [] s r ∧ k.valid = true ∧ fst < 2 ^ 23 ∧
      ∀ i : Fin 8, i ≠ 0 → (k.splices[i]).valid = true → (k.splices[i]).first ≠ fst) ∧
    Issuable always false slabbed ∧ (slabbed.curBlock.eng.kv[(2 : Fin 8)]).valid = true :=
  ⟨⟨ready (by decide +kernel), by decide +kernel, by decide +kernel, by decide +kernel,
      ⟨got_ok (by decide +kernel), by decide +kernel⟩, by decide +kernel⟩,
    ⟨ready (by decide +kernel), by decide +kernel⟩, ⟨_, ready (by decide +kernel)⟩,
    ⟨ready (by decide +kernel), by decide +kernel⟩, ⟨ready (by decide +kernel), by decide +kernel⟩,
    issuable (by decide +kernel), by decide +kernel⟩

/-- Its record: the state at CBUF 0, the queries at ABUF 0, tokens 0 to 7 of slab 2, one query. -/
def attnBytes : List Byte := toLe 64 (2 ^ 240 + 2 * 2 ^ 237 + 8 * 2 ^ 248)
def attending : State := withAbuf 64 attnBytes slabbed

theorem meets_AttentionInstructionsComplete :
    (let s := attending
     let b := s.curBlock
     let num := b.eng.tl[2].enq + 1
     let puts := if Operand.s 9 = .zero then [] else [(⟨.s 9, 0, s.active always, splat (num.setWidth 32)⟩ : Put)]
     let a := AttnF.of (b.abuf.data.readN 64 64)
     let k := (b.eng.kv[a.kv]?).getD Slab.reset
     Ready always [.s 9, .s 4] tenqQs puts s (rd always tenqQs s) ∧ s.active always ≠ 0 ∧
      recordAt64 s (s.active always) (uval (s.active always) ((rd always tenqQs s).w 0)).toNat = .ok 64 ∧
      attnOk b k a = true ∧ k.posOk a.t0 a.t1 = true ∧ (s.core s.curCore).body.attn.length < 16) ∧
    (let s := setS 6 1024 eng0
     let r := rd always [opU (.s 4), opU (.s 6)] s
     let n := 264
     let od := (uval (s.active always) (r.w 0)).toNat
     let os := (uval (s.active always) (r.w 1)).toNat
     Ready always [.s 4, .s 6] [opU (.s 4), opU (.s 6)] [] s r ∧ s.active always ≠ 0 ∧ od % 8 = 0 ∧ os % 8 = 0 ∧
      od < 2 ^ 18 ∧ os < 2 ^ 18 ∧ od + n ≤ s.curBlock.cbuf.size ∧ os + n ≤ s.curBlock.cbuf.size ∧ od + n ≤ os ∧
      touchCheck s [⟨s.active always, os, n, false⟩, ⟨s.active always, od, n, true⟩] = .ok ()) ∧
    (let s := eng0
     let r := rd always [opU (.s 4)] s
     let od := (uval (s.active always) (r.w 0)).toNat
     Ready always [.s 4] [opU (.s 4)] [] s r ∧ s.active always ≠ 0 ∧ od % 8 = 0 ∧ od < 2 ^ 18 ∧
      od + 264 ≤ s.curBlock.cbuf.size ∧ touchCheck s [⟨s.active always, od, 264, true⟩] = .ok ()) :=
  ⟨⟨ready (by decide +kernel), by decide +kernel, got_ok (d := 64) (by decide +kernel), by decide +kernel,
      by decide +kernel, by decide +kernel⟩,
    ⟨ready (by decide +kernel), by decide +kernel, by decide +kernel, by decide +kernel, by decide +kernel,
      by decide +kernel, by decide +kernel, by decide +kernel, by decide +kernel, unit_ok (by decide +kernel)⟩,
    ⟨ready (by decide +kernel), by decide +kernel, by decide +kernel, by decide +kernel, by decide +kernel,
      unit_ok (by decide +kernel)⟩⟩

/-! ### Synchronisation -/

def b0 : Bar := ⟨.blk, 0⟩
def g0 : Bar := ⟨.grd, 0⟩
def arrived : State := engine.updOrd (arriveFlags b0 0xFFFFFFFF 1)

/-- A split that runs in a serial region. -/
def inSerial : State := engine.updWarp fun w =>
  { w with serial := some ⟨engine.curSplit.hdr, engine.curSplit.hdr, 0⟩, lane := { w.lane with inSerial := 0xFFFFFFFF } }

theorem meets_BarriersComplete :
    (∀ b ∈ [b0, ⟨.clu, 7⟩, ⟨.grd, 1⟩], arrivalRoom engine engine.cur.blk b = true) ∧
    (Issuable always true inSerial ∧ b0.idx.val < declared inSerial.curLaunch.hdr b0.scope ∧
      inSerial.active always &&& inSerial.inRegion ≠ 0) ∧
    Issuable always true engine ∧ checkBar engine b0 true true (engine.active always) = .ok () ∧
    Issuable always false engine ∧ checkBar engine b0 true false (engine.active always) = .ok () ∧
    checkBar engine b0 false true (engine.active always) = .ok () ∧
    (let ready := canDepart engine 1 0 b0 (engine.active always)
     ∃ r, Ready always [.v 5] [] [(⟨.v 5, 0, engine.active always, tab fun l => BitVec.ofNat 32
      ((phaseOf engine 1 0 b0).toNat % 2 ^ 16 * 2 ^ 16 + (if (barFlags engine.curWarp b0).arrived.getLsbD l.val then 2 else 0) +
        if ready.getLsbD l.val then 1 else 0)⟩ : Put)] engine r) ∧
    engine.active always ≠ 0 ∧ declared engine.curLaunch.hdr g0.scope ≤ g0.idx.val ∧
    (Issuable always false arrived ∧ b0.idx.val < declared arrived.curLaunch.hdr b0.scope ∧
      arrived.active always &&& (barFlags arrived.curWarp b0).arrived ≠ 0) :=
  ⟨by decide +kernel, ⟨issuable (by decide +kernel), by decide +kernel, by decide +kernel⟩,
    issuable (by decide +kernel), unit_ok (by decide +kernel), issuable (by decide +kernel), unit_ok (by decide +kernel),
    unit_ok (by decide +kernel), ⟨_, ready (by decide +kernel)⟩, by decide +kernel, by decide +kernel,
    issuable (by decide +kernel), by decide +kernel, by decide +kernel⟩

/-- Every lane is counted at b0; and no lane is. -/
def countedAll : State := arrived.updOrd fun o => { o with
  bars := AMap.mapVals o.bars fun _ f => { f with counted := 0xFFFFFFFF } }

theorem meets_BlockBarrierPhase :
    (∃ bl, AMap.get? countedAll.blocks 1 = some bl ∧ b0.scope = .blk ∧
      bl.warps.all (fun p => (p.2.lane.live &&& ~~~ (barFlags p.2 b0).counted &&& ~~~ (barFlags p.2 b0).excused) == 0) = true ∧
      (∀ n : Fin 32, bl.warps.any (fun p => p.2.late.any fun d => d.d == .w n) = false)) ∧
    ∃ bl, AMap.get? arrived.blocks 1 = some bl ∧
      bl.warps.all (fun p => (p.2.lane.live &&& ~~~ (barFlags p.2 b0).counted &&& ~~~ (barFlags p.2 b0).excused) == 0) = false :=
  ⟨⟨blkOf countedAll, by decide +kernel, rfl, by decide +kernel, by decide +kernel⟩,
    blkOf arrived, by decide +kernel, by decide +kernel⟩

theorem meets_BarrierDepartures :
    (∃ bl w, AMap.get? arrived.blocks 1 = some bl ∧ AMap.get? bl.warps 0 = some w ∧ (1 : Mask) ≠ 0) ∧
    ∃ sp : Split, sp.wait = .bar b0 0xFFFFFFFF ∧ 0xFFFFFFFF &&& (barFlags (engine.warpOf 1 0) b0).pending = 0 :=
  ⟨⟨blkOf arrived, wrpOf arrived, by decide +kernel, by decide +kernel, by decide⟩,
    { splOf engine with wait := .bar b0 0xFFFFFFFF }, rfl, by decide +kernel⟩

def busy : State := engine.updOrd fun o => { o with ops := [{ (default : MemOp) with num := 1 }] }

/-- A load is outstanding; the warp's other split waits at a fence. -/
def loading1 : State := engine.updOrd fun o => { o with ops := [{ (default : MemOp) with num := 1, read := true }] }
def fenced : State := (setS 2 0x20000 memory).updWarp fun w => { w with
  splits := AMap.set w.splits 7 { (default : Split) with fence := true } }

theorem meets_FenceCompletes :
    (Issuable always false engine ∧ engine.active always ≠ 0 ∧ engine.curWarp.ord.ops = [] ∧ earlierOut engine = false) ∧
    (Issuable always false busy ∧ busy.active always ≠ 0 ∧ ∀ o ∈ busy.curWarp.ord.ops, o.read = false) ∧
    (∃ s, Issuable (.pred false 0) false s ∧ s.active (.pred false 0) = 0) ∧
    (Issuable always false busy ∧ busy.active always ≠ 0 ∧ busy.curWarp.ord.ops ≠ []) ∧
    (Issuable always false loading1 ∧ loading1.active always ≠ 0 ∧ ∃ o ∈ loading1.curWarp.ord.ops, o.read = true) ∧
    checkIssue always [.v 4, .s 2] false fenced = .ok () ∧ fenced.active always ≠ 0 ∧
      ∃ p ∈ fenced.curWarp.splits, p.1 ≠ fenced.cur.split ∧ p.2.fence = true :=
  ⟨⟨issuable (by decide +kernel), by decide +kernel, by decide +kernel, by decide +kernel⟩,
    ⟨issuable (by decide +kernel), by decide +kernel, by decide +kernel⟩,
    ⟨idle0, issuable (by decide +kernel), by decide +kernel⟩,
    ⟨issuable (by decide +kernel), by decide +kernel, by decide +kernel⟩,
    ⟨issuable (by decide +kernel), by decide +kernel, by decide +kernel⟩, unit_ok (by decide +kernel), by decide +kernel,
    by decide +kernel⟩

def lagering1 : State := setLaunch (fun l => { l with hdr := { l.hdr with lagerOff := false } }) eng0
def unlagered1 : State := setLaunch (fun l => { l with hdr := { l.hdr with lagerOff := true } }) eng0
def inSet3 : State := eng0.updEng 1 fun e => { e with peer := some (3, 0) }
def unlagered3 : State := setLaunch (fun l => { l with hdr := { l.hdr with lagerOff := true } }) inSet3
/-- A join of the block is on its way. -/
def joins1 : State := { eng0 with inflight := [eng0.outItem (.join 2 9) none none 0] }

theorem meets_PeerSetsAndSleepComplete :
    (∃ r, Ready always [.s 9] [] [⟨.s 9, 0, lagering1.active always, splat 0⟩] lagering1 r ∧ lagering1.active always ≠ 0 ∧
      lagering1.curLaunch.lagers = true ∧ peerChanging lagering1 lagering1.cur.blk 2 = false ∧
      lagering1.curBlock.eng.peer = none ∧ lagerRoom lagering1 lagering1.curCore 8 = true ∧
      destCheck r [⟨.s 9, 0, lagering1.active always, wordOf lagering1 .int (.s 9) 0⟩] lagering1 = .ok ()) ∧
    (∃ r, Ready always [.s 9] [] [⟨.s 9, 0, unlagered1.active always, splat 0⟩] unlagered1 r ∧
      unlagered1.curLaunch.lagers = false ∧ peerChanging unlagered1 unlagered1.cur.blk 2 = false ∧
      unlagered1.curBlock.eng.peer = none ∧
      destCheck { r with st := (joinNow 1 2 unlagered1).2 } [⟨.s 9, 0, unlagered1.active always, splat (joinNow 1 2 unlagered1).1⟩]
        unlagered1 = .ok ()) ∧
    (∃ r, Ready always [.s 9] [] [⟨.s 9, 0, inSet3.active always, splat 0⟩] inSet3 r ∧ inSet3.active always ≠ 0 ∧
      peerChanging inSet3 inSet3.cur.blk 2 = false ∧ inSet3.curBlock.eng.peer = some (3, 0) ∧ 3 ≠ (2 : Fin 8).val) ∧
    (∃ r, Ready (.pred false 0) [.s 9] [] [] idle0 r ∧ idle0.active (.pred false 0) = 0) ∧
    (Issuable always false eng0 ∧ joinOrLeave eng0 eng0.cur.blk = false ∧ lagerRoom eng0 eng0.curCore 8 = true) ∧
    (∃ x, Issuable always false unlagered3 ∧ joinOrLeave unlagered3 unlagered3.cur.blk = false ∧
      unlagered3.curBlock.eng.peer = some (3, 0) ∧ unlagered3.curLaunch.lagers = false ∧
      x = unlagered3.outItem .leave none none 0 ∧
      leaveFree ((emit false unlagered3.curCore x unlagered3).updSplit fun sp => { sp with wait := .leave }) x = true) ∧
    (Issuable always false joins1 ∧ joins1.active always ≠ 0 ∧ joinOrLeave joins1 joins1.cur.blk = true) ∧
    Issuable always true eng0 ∧
    checkIssue always [.s 4] true eng0 = .ok () ∧ readAll always [opU (.s 4)] eng0 = .ok (rd always [opU (.s 4)] eng0) ∧
    destCheck (rd always [opU (.s 4)] eng0) [] eng0 = .ok () :=
  ⟨⟨_, ready (by decide +kernel), by decide +kernel, by decide +kernel, by decide +kernel, by decide +kernel, by decide +kernel,
      unit_ok (by decide +kernel)⟩,
    ⟨_, ready (by decide +kernel), by decide +kernel, by decide +kernel, by decide +kernel, unit_ok (by decide +kernel)⟩,
    ⟨_, ready (by decide +kernel), by decide +kernel, by decide +kernel, by decide +kernel, by decide +kernel⟩,
    ⟨_, ready (by decide +kernel), by decide +kernel⟩,
    ⟨issuable (by decide +kernel), by decide +kernel, by decide +kernel⟩,
    ⟨_, issuable (by decide +kernel), by decide +kernel, by decide +kernel, by decide +kernel, rfl, by decide +kernel⟩,
    ⟨issuable (by decide +kernel), by decide +kernel, by decide +kernel⟩, issuable (by decide +kernel),
    unit_ok (by decide +kernel), got_ok (by decide +kernel), unit_ok (by decide +kernel)⟩

/-! ### The fabric -/

/-- s8 is an address, s4 an offset, s7 is 1. -/
def fab0 : State := setS 8 0xA00 lagering1
def taken : State := fab0.updDie 0 fun d => { d with endpoints := AMap.set d.endpoints 1 7 }

theorem meets_FabricInstructionsComplete :
    (let s := fab0
     let qs := [opU (.s 8), opU (.s 4), opU (.s 7)]
     let r := rd always qs s
     let a := uval (s.active always) (r.w 0)
     Ready always [.s 8, .s 4, .s 7] qs [] s r ∧ s.active always ≠ 0 ∧
      sendRange s (s.active always) (uval (s.active always) (r.w 1)).toNat 16 = .ok 64 ∧
      ¬ (faEnd a < 256 ∧ Operand.s 7 = .zero) ∧ s.curLaunch.desc.replayable = false ∧
      (∃ bs s1, loadBuf r.st false false (uniReq (s.active always) 16 (BitVec.ofNat 64 64)) = .ok (bs, s1)) ∧
      s.curBlock.eng.inFlight < 64 ∧ lagerRoom s s.curCore 16 = true) ∧
    (∃ r, Ready always [.s 9] [] [⟨.s 9, 0, fab0.active always, splat (fpollWord fab0.curBlock.eng 2)⟩] fab0 r) ∧
    (let s := fab0
     let r := rd always [opU (.s 7)] s
     let x := (uval (s.active always) (r.w 0)).toNat
     Ready always [.s 7] [opU (.s 7)] [] s r ∧ s.active always ≠ 0 ∧ x < 256 ∧
      AMap.get? (s.die s.curBlock.place.die).endpoints x = none) ∧
    (let s := taken
     let r := rd always [opU (.s 7)] s
     Ready always [.s 7] [opU (.s 7)] [] s r ∧
      AMap.get? (s.die s.curBlock.place.die).endpoints (uval (s.active always) (r.w 0)).toNat = some 7 ∧ 7 ≠ s.cur.blk) ∧
    Issuable always false fab0 :=
  ⟨⟨ready (by decide +kernel), by decide +kernel, got_ok (d := 64) (by decide +kernel), by decide +kernel, by decide +kernel,
      ⟨_, _, got_ok (d := ([], fab0)) (by decide +kernel)⟩, by decide +kernel, by decide +kernel⟩,
    ⟨_, ready (by decide +kernel)⟩, ⟨ready (by decide +kernel), by decide +kernel⟩,
    ⟨ready (by decide +kernel), by decide +kernel⟩, issuable (by decide +kernel)⟩

/-- A record of COLL over the group table at 0x2_0000, whose first address is the block's endpoint 5. -/
def collBytes : List Byte :=
  toLe 32 (0x20000 * 2 ^ 200 + 2 ^ 168 + 128 * 2 ^ 148 + 256 * 2 ^ 128 + 4 * 2 ^ 112 + 2 ^ 98 + 2 ^ 96)
def collRead (s : State) : Except TabStop (List Byte × State) := let b := s.curBlock
  readTable (rd always [opU (.s 4)] s).st s.cur.blk (engAgent b 3 (b.eng.tl[3].enq + 1)) (CollF.of (b.abuf.data.readN 64 32)).gtab
def tableRead (s : State) : List Byte × State := got ([], s) (collRead s)
def stopOf (s : State) : Option TabStop :=
  match collRead s with
  | .ok _ => none
  | .error x => some x

theorem stop_ex {s : State} {x : TabStop} (h : stopOf s = some x) : collRead s = .error x := by
  unfold stopOf at h
  split at h
  · cases h
  · rename_i e; simp only [Option.some.injEq] at h; rw [e, h]

def coll0 : State :=
  let e : TlbEnt := { asid := 0, world := false, vbase := 0x20000, lg := 16, leaf := 0x100000000007 }
  let s := (withAbuf 64 collBytes lagering1).updEng 1 fun x => { x with endpoint := some 5 }
  let s := s.updDie 0 fun d => { d with vatcfg := 1, tlb := [e] }
  { s with mem := s.mem.writeAll (at_ (2 ^ 48) (toLe 16 (9 + 2 * 2 ^ 32 + 5 * 2 ^ 73))) }

/-- The table of one entry; that of other blocks' endpoints; one in a page that is not device memory. -/
def oneEntry : State := { coll0 with mem := coll0.mem.writeAll (at_ (2 ^ 48) (toLe 16 (9 + 2 ^ 32 + 5 * 2 ^ 73))) }
def unnamed : State := coll0.updEng 1 fun x => { x with endpoint := some 6 }
def unbound : State := coll0.updEng 1 fun x => { x with endpoint := none }
def elsewhere : State := coll0.updDie 0 fun d => { d with tlb := [{ asid := 0, world := false, vbase := 0x20000, lg := 16, leaf := 0x800000000007 }] }
/-- Another core's atomic holds its line; its first sector is poisoned; it is not mapped. -/
def heldTable : State := { coll0 with quar := [{ (default : Quarantine) with line := 2 ^ 42, core := 5 }] }
def badTable : State := { coll0 with
  recAreas := [{ base := 2 ^ 48, size := 2 ^ 30, recs := 2 ^ 48 + 2 ^ 20 }]
  mem := coll0.mem.writeAll (at_ (2 ^ 48 + 2 ^ 20 + 8) [1]) }
def unmapped : State := coll0.updDie 0 fun d => { d with tlb := [] }
/-- The operands of COLL, and its record's checks. -/
def CollReady (s : State) : Prop :=
  Ready always [.s 9, .s 4] [opU (.s 4)] [⟨.s 9, 0, s.active always, splat ((s.curBlock.eng.tl[3].enq + 1).setWidth 32)⟩] s
    (rd always [opU (.s 4)] s) ∧ s.active always ≠ 0 ∧ s.curWarp.acquiring s.cur.split = false ∧
    (uval (s.active always) ((rd always [opU (.s 4)] s).w 0)).toNat = 64 ∧ 64 + 32 ≤ s.curBlock.abuf.size

theorem meets_GenerationInstructionsComplete_faults :
    (∀ s ∈ [oneEntry, unnamed], CollReady s ∧ collOk s.curBlock (CollF.of (s.curBlock.abuf.data.readN 64 32)) = true ∧
      collRead s = .ok (tableRead s) ∧
      (tabOk (tableRead s).1 = false ∨ tabPos (tableRead s).1 (addrOf s s.curBlock (s.curBlock.eng.endpoint.getD 0)) = none)) ∧
    (CollReady unbound ∧ unbound.curBlock.eng.endpoint = none) ∧
    ∀ p ∈ [(elsewhere, TabStop.noTable), (heldTable, .held), (badTable, .poison 0x20000), (unmapped, .fault 0x20000 2)],
      CollReady p.1 ∧ collOk p.1.curBlock (CollF.of (p.1.curBlock.abuf.data.readN 64 32)) = true ∧
        p.1.curBlock.eng.endpoint.isSome = true ∧ collRead p.1 = .error p.2 := by
  refine ⟨fun s hs => ?_, ⟨⟨ready (by decide +kernel), by decide +kernel⟩, by decide +kernel⟩, fun p hp => ?_⟩
  · simp only [List.mem_cons, List.not_mem_nil, or_false] at hs
    rcases hs with rfl | rfl <;> exact ⟨⟨ready (by decide +kernel), by decide +kernel⟩, by decide +kernel, got_ok (by decide +kernel),
      by decide +kernel⟩
  · simp only [List.mem_cons, List.not_mem_nil, or_false] at hp
    rcases hp with rfl | rfl | rfl | rfl <;> exact ⟨⟨ready (by decide +kernel), by decide +kernel⟩, by decide +kernel,
      by decide +kernel, stop_ex (by decide +kernel)⟩

theorem meets_GenerationInstructionsComplete :
    (let s := coll0
     let b := s.curBlock
     let num := b.eng.tl[3].enq + 1
     let puts := if Operand.s 9 = .zero then [] else [(⟨.s 9, 0, s.active always, splat (num.setWidth 32)⟩ : Put)]
     let bs := b.abuf.data.readN 64 32
     let r := rd always tenqQs s
     Ready always [.s 9, .s 4] tenqQs puts s r ∧ s.active always ≠ 0 ∧
      (uval (s.active always) (r.w 0)).toNat = 64 ∧ 64 + 32 ≤ b.abuf.size ∧ s.curWarp.acquiring s.cur.split = false ∧
      collOk b (CollF.of bs) = true ∧ b.eng.endpoint.isSome = true ∧ s.curLaunch.desc.replayable = false ∧
      (let x := readTable r.st s.cur.blk (engAgent b 3 num) (CollF.of bs).gtab
       let y := got ([], s) x
       x = .ok y ∧ tabOk y.1 = true ∧ destCheck { r with st := y.2 } puts s = .ok () ∧
        tabPos y.1 (addrOf s b (b.eng.endpoint.getD 0)) = some 0)) ∧
    (∀ o ∈ [(65 : Word), 4096], let s := setS 4 o fab0
     Ready always [.s 9, .s 4] tenqQs [⟨.s 9, 0, s.active always, splat ((s.curBlock.eng.tl[3].enq + 1).setWidth 32)⟩] s
        (rd always tenqQs s) ∧ s.active always ≠ 0 ∧
      ((uval (s.active always) ((rd always tenqQs s).w 0)).toNat % 32 ≠ 0 ∨
        s.curBlock.abuf.size < (uval (s.active always) ((rd always tenqQs s).w 0)).toNat + 32)) ∧
    (let s := setV 3 (full 1 0) fab0
     let qs : List SrcSpec := [{ op := .s 8, n := 2, uni := true }, srcU (s_ 4), srcI (v_ 3)]
     let r := rd always qs s
     Ready always (opsOf (.v 8) qs) qs [putOf (dv 8) (s.active always) (Machine.tab fun l =>
      noiseW .gum ((r.at 0)[0])[l] ((r.at 0)[1])[l] (r.w 1)[l] (r.w 2)[l])] s r) ∧
    (let s := fab0
     let r := rd always [opU (.s 7), opU (.s 4)] s
     Ready always [.s 7, .s 4] [opU (.s 7), opU (.s 4)] [] s r ∧ s.active always ≠ 0 ∧
      ownRange s (s.active always) (uval (s.active always) (r.w 1)).toNat 32 32 = .ok 64 ∧ lagerRoom s s.curCore 8 = true) := by
  refine ⟨⟨ready (by decide +kernel), by decide +kernel, by decide +kernel, by decide +kernel, by decide +kernel,
      by decide +kernel, by decide +kernel, by decide +kernel, got_ok (by decide +kernel), by decide +kernel, unit_ok (by decide +kernel),
      by decide +kernel⟩, ?_, ready (by decide +kernel),
    ready (by decide +kernel), by decide +kernel, got_ok (d := 64) (by decide +kernel), by decide +kernel⟩
  intro o ho
  simp only [List.mem_cons, List.not_mem_nil, or_false] at ho
  rcases ho with rfl | rfl <;> exact ⟨ready (by decide +kernel), by decide +kernel, by decide +kernel⟩

/-! ### Control -/

/-- v3 is the offset of the clause in every lane. -/
def ctrlV : State := setV 3 (full (BitVec.ofNat 32 ctrl.curSplit.hdr) 0) ctrl
def linkPut : Put :=
  ⟨.v 6, 0, ctrlV.active always, splat (BitVec.ofNat 32 (ctrlV.curSplit.hdr + 8 * (hdrCount ctrlV.header + 1)))⟩

theorem meets_TransfersComplete :
    (let s := ctrl
     let a := (s.curSplit.hdr : Int) + 8 * (0 : Word).toInt
     Issuable always false s ∧ 0 ≤ a ∧ s.curLaunch.headers.contains a.toNat = true ∧
      leavesRegion s (s.active always) (Vector.replicate 32 a) = 0) ∧
    (let s := ctrl
     let a := (s.curSplit.hdr : Int) + 8 * (1 : Word).toInt
     checkEncoding always [] false s = .ok () ∧ s.members ≠ 0 ∧ s.curLaunch.headers.contains a.toNat = false) ∧
    (let s := ctrl
     let a := (s.curSplit.hdr : Int) + 8 * (1 : Word).toInt
     s.curWarp.awaits (.v 6) = false ∧ checkEncoding always [.v 6] false s = .ok () ∧ s.members ≠ 0 ∧
      s.curLaunch.headers.contains a.toNat = false) ∧
    (let s := setV 3 (full 4 0) ctrl
     let r := rd always [opSrc (.v 3)] s
     (∀ ops ∈ [[Operand.v 3], [.v 6, .v 3]], checkIssue always ops false s = .ok ()) ∧ readAll always [opSrc (.v 3)] s = .ok r ∧
      ∀ l : Fin 32, (0xFFFFFFFF : Mask).getLsbD l.val =
        ((s.active always).getLsbD l.val && !s.curLaunch.headers.contains ((r.w 0)[l]).toNat)) ∧
    (let s := ctrlV
     let r := rd always [opSrc (.v 3)] s
     Ready always [.v 3] [opSrc (.v 3)] [] s r ∧
      (∀ l : Fin 32, (s.active always).getLsbD l.val = true → s.curLaunch.headers.contains ((r.w 0)[l]).toNat = true) ∧
      leavesRegion s (s.active always) (tab fun l => (((r.w 0)[l]).toNat : Int)) = 0 ∧
      Ready always [.v 6, .v 3] [opSrc (.v 3)] [linkPut] s r) ∧
    ∃ r, Ready always [.v 6] [] [linkPut] ctrlV r :=
  ⟨⟨issuable (by decide +kernel), by decide +kernel, by decide +kernel, by decide +kernel⟩,
    ⟨unit_ok (by decide +kernel), by decide +kernel, by decide +kernel⟩,
    ⟨by decide +kernel, unit_ok (by decide +kernel), by decide +kernel, by decide +kernel⟩,
    ⟨fun ops h => by
      simp only [List.mem_cons, List.not_mem_nil, or_false] at h
      rcases h with rfl | rfl <;> exact unit_ok (by decide +kernel), got_ok (by decide +kernel), by decide +kernel⟩,
    ⟨ready (by decide +kernel), by decide +kernel, by decide +kernel, ready (by decide +kernel)⟩,
    ⟨_, ready (by decide +kernel)⟩⟩

/-- Predicate 0 is true in lane 0 alone. -/
def ctrl1 : State := ctrl.updReg fun g => { g with p := g.p.set 0 1 }

theorem meets_ExitCompletes :
    (Issuable always false ctrl ∧ drainCheck anyPa (ctrl.active always) ctrl = .ok () ∧ ctrl.curWarp.refill = none ∧
      retireStalls ctrl ctrl.cur.blk ctrl.cur.warp = false) ∧
    let g := Guard.pred false 0
    Issuable g false ctrl1 ∧ ctrl1.Issues (blkOf ctrl1) (wrpOf ctrl1) (splOf ctrl1) ∧ ctrl1.active g ≠ 0 ∧
      ctrl1.curWarp.lane.live &&& ~~~ ctrl1.active g ≠ 0 ∧ ctrl1.curWarp.serial = none ∧
      ctrl1.curWarp.lane.inHandler = 0 :=
  ⟨⟨issuable (by decide +kernel), unit_ok (by decide +kernel), by decide +kernel, by decide +kernel⟩, issuable (by decide +kernel),
    issues (by decide +kernel) (by decide +kernel) (by decide +kernel), by decide +kernel, by decide +kernel,
    by decide +kernel, by decide +kernel⟩

/-- Lane 0 runs its part of a serial region that ends at the clause. -/
def serial0 : State := onlyLane 0 (ctrl.updWarp fun w =>
  { w with serial := some ⟨ctrl.curSplit.hdr, ctrl.curSplit.hdr, 0⟩, lane := { w.lane with inSerial := 0xFFFFFFFF } })

theorem meets_MeldAndSerialComplete :
    Issuable always true ctrl ∧ Issuable always false ctrl ∧
    (ctrl.curLaunch.headers.contains (ctrl.curSplit.hdr + 8 * (0 : BitVec 20).toNat) = true ∧
      ctrl.issuing &&& ctrl.inRegion = 0 ∧ ctrl.curWarp.serial = none) ∧
    (∃ r, Issuable always true serial0 ∧ serial0.curWarp.serial = some r ∧ r.last = serial0.curSplit.hdr ∧
      serial0.issuing = one_ r.lane) ∧ ctrl.issuing ≠ 0 :=
  ⟨issuable (by decide +kernel), issuable (by decide +kernel),
    ⟨by decide +kernel, by decide +kernel, by decide +kernel⟩,
    ⟨⟨ctrl.curSplit.hdr, ctrl.curSplit.hdr, 0⟩, issuable (by decide +kernel), by decide +kernel, rfl, by decide +kernel⟩,
    by decide +kernel⟩

/-- The launch has a queue of two items, 7 and 8, in the page at 0x2_0000; lanes 2 and up have exited. -/
def refill0 : State :=
  let s := setLaunch (fun l => { l with desc := { l.desc with wqAddr := 0x20000, wqItems := 2 } }) (pageAt 0 ctrl)
  { s.updLane (fun l => { l with live := 3 }) with mem := s.mem.writeAll (at_ 0x20000 (toLe 8 (7 + 8 * 2 ^ 32))) }
def popped (s : State) : List (Fin 32 × Word) × Bool × State :=
  got ([], true, s) (popFor s.cur.blk s.cur.warp (lanes32.filter fun l => !s.curWarp.lane.live.getLsbD l.val) s)
def noPre0 : State := ctrl.updWarp fun w => { w with noPre := true }
def asked0 : State := ctrl.updBlock 1 fun b => { b with preReq := some default }

theorem meets_RefillAndRegionsComplete :
    (let s := refill0
     let x := popped s
     Issuable always true s ∧ s.active always ≠ 0 ∧ s.curWarp.awaits (.v 0) = false ∧ s.active always &&& s.inRegion = 0 ∧
      popHeld s.cur.blk s.cur.warp 32 s = false ∧
      popFor s.cur.blk s.cur.warp (lanes32.filter fun l => !s.curWarp.lane.live.getLsbD l.val) s = .ok x ∧
      x.1 ≠ [] ∧ reviveBreaks s s.cur.blk s.curWarp = false ∧ reviveStalls s s.cur.blk s.cur.warp s.curWarp = false) ∧
    (∃ s, Issuable (.pred false 0) true s ∧ s.active (.pred false 0) = 0) ∧
    (Issuable always false ctrl ∧ ctrl.active always ≠ 0 ∧ ctrl.curWarp.noPre = false ∧ ctrl.curBlock.preReq = none ∧
      ctrl.curBlock.state ≠ .saving) ∧
    (Issuable always false noPre0 ∧ noPre0.curWarp.noPre = true) ∧
    ∃ q, Issuable always false asked0 ∧ asked0.curWarp.noPre = false ∧ asked0.curBlock.preReq = some q :=
  ⟨⟨issuable (by decide +kernel), by decide +kernel, by decide +kernel, by decide +kernel, by decide +kernel, got_ok (by decide +kernel),
      by decide +kernel, by decide +kernel, by decide +kernel⟩,
    ⟨ctrl.updReg fun g => { g with p := g.p.set 0 0 }, issuable (by decide +kernel), by decide +kernel⟩,
    ⟨issuable (by decide +kernel), by decide +kernel, by decide +kernel, by decide +kernel, by decide +kernel⟩,
    ⟨issuable (by decide +kernel), by decide +kernel⟩, _, issuable (by decide +kernel), by decide +kernel,
    (by decide +kernel : asked0.curBlock.preReq = some default)⟩

/-! ### Traps -/

/-- The launch has a handler at its first clause. -/
def handled : State := setLaunch (fun l => { l with hdr := { l.hdr with trapOff := 0 } }) ctrl
def unhandled : State := setLaunch (fun l => { l with hdr := { l.hdr with trapOff := 0xFFFFFFFF } }) ctrl

/-- Its handler's offset is no header's. -/
def unmarked : State := setLaunch (fun l => { l with hdr := { l.hdr with trapOff := 4 } }) ctrl

theorem meets_SoftwareTrapsComplete : Issuable always false handled ∧ handled.active always ≠ 0 ∧
    (let q : TrapReq := { handled.trapReq 0x1A (handled.active always) with code := 7 }
     toSystem handled.curLaunch q = false ∧ othersFirst handled.cur q handled = false) ∧
    toSystem handled.curLaunch (handled.trapReq 0x21 (handled.active always)) = true :=
  ⟨issuable (by decide +kernel), by decide +kernel, by decide +kernel, by decide +kernel⟩

theorem meets_TrapEntry : let s := handled
    let q := s.trapReq 0x05 3
    s.Issues (blkOf s) (wrpOf s) (splOf s) ∧ q.kind ∉ [0x1A, 0x20, 0x21, 0x22] ∧ q.lanes ≠ 0 ∧
      (wrpOf s).lane.inHandler = 0 ∧ s.curLaunch.hdr.trapOff ≠ 0xFFFFFFFF ∧
      s.curLaunch.headers.contains s.curLaunch.hdr.trapOff = true ∧ othersFirst s.cur q s = false ∧
      (wrpOf s).rival q s.now = false ∧ (s.die (blkOf s).place.die).bbHost = 0 :=
  ⟨issues (by decide +kernel) (by decide +kernel) (by decide +kernel), by decide +kernel, by decide +kernel,
    by decide +kernel, by decide +kernel, by decide +kernel, by decide +kernel, by decide +kernel, by decide +kernel⟩

/-- Lane 0 is in a handler that was entered at time 0, at time 5. -/
def inHandler0 : State :=
  { handled.updWarp (fun w => { w with lane := { w.lane with inHandler := 1 }
                                       trap := { w.trap with current := some (handled.trapReq 0x05 1, some 0) } }) with now := 5 }

/-- No handler, a handler offset that is no header's, and lanes that are in a handler. -/
theorem meets_UnhandledFaultEndsLaunch : ∀ s ∈ [unhandled, unmarked, inHandler0], let q := s.trapReq 0x05 3
    s.Issues (blkOf s) (wrpOf s) (splOf s) ∧ q.kind ∉ [0x1A, 0x20, 0x21, 0x22] ∧
      (∃ la, AMap.get? s.launches (blkOf s).launch = some la ∧ la.ending = none ∧
        ((wrpOf s).lane.inHandler ≠ 0 ∨ la.hdr.trapOff = 0xFFFFFFFF ∨ la.headers.contains la.hdr.trapOff = false)) ∧
      othersFirst s.cur q s = false ∧ (wrpOf s).rival q s.now = false := by
  intro s hs
  simp only [List.mem_cons, List.not_mem_nil, or_false] at hs
  rcases hs with rfl | rfl | rfl
  · exact ⟨issues (by decide +kernel) (by decide +kernel) (by decide +kernel), by decide +kernel,
      ⟨unhandled.launch (blkOf unhandled).launch, by decide +kernel, by decide +kernel, by decide +kernel⟩, by decide +kernel,
      by decide +kernel⟩
  · exact ⟨issues (by decide +kernel) (by decide +kernel) (by decide +kernel), by decide +kernel,
      ⟨unmarked.launch (blkOf unmarked).launch, by decide +kernel, by decide +kernel, by decide +kernel⟩, by decide +kernel,
      by decide +kernel⟩
  · exact ⟨issues (by decide +kernel) (by decide +kernel) (by decide +kernel), by decide +kernel,
      ⟨inHandler0.launch (blkOf inHandler0).launch, by decide +kernel, by decide +kernel, by decide +kernel⟩, by decide +kernel,
      by decide +kernel⟩

theorem meets_SystemFaultPosts : let s := ctrl
    let q := { s.trapReq 0x20 3 with cause := 1, va := 0x1234 }
    s.Issues (blkOf s) (wrpOf s) (splOf s) ∧ q.kind = 0x20 ∧ q.cause ≠ 5 ∧
      freeSlot (s.die (blkOf s).place.die) = some 0 :=
  ⟨issues (by decide +kernel) (by decide +kernel) (by decide +kernel), rfl, by decide, by decide +kernel⟩

def returns0 : State := ctrl.updLane fun l => { l with inHandler := 0xFFFFFFFF }

theorem meets_TrapReturnCompletes :
    (checkIssue always [] true returns0 = .ok () ∧ returns0.issuing &&& ~~~ returns0.curWarp.lane.inHandler = 0) ∧
    (checkIssue always [] true ctrl = .ok () ∧ ctrl.issuing &&& ~~~ ctrl.curWarp.lane.inHandler ≠ 0) ∧
    (∃ t : TrapState, (t.info.extractLsb' 24 8).toNat ∉ [0x1A, 0x21]) ∧ (∃ pc : Pc, pc.idx ≠ 0 ∧ (3 : Mask) ≠ 0) ∧ ∃ t : TrapState, t.info.getLsbD 19 = true :=
  ⟨⟨unit_ok (by decide +kernel), by decide +kernel⟩, ⟨unit_ok (by decide +kernel), by decide +kernel⟩,
    ⟨{ ctrl.curWarp.trap with info := 0 }, by decide +kernel⟩, ⟨⟨0, 1⟩, by decide, by decide⟩, { ctrl.curWarp.trap with info := 0x80000 }, by decide +kernel⟩

/-! ### Instructions of the system -/

/-- s2 is 0x2_0000, s4 is 1; a secure launch, and one that is not. -/
def sys1 : State := setLaunch (fun l => { l with desc := { l.desc with world := true }, hdr := { l.hdr with lagerOff := false } })
  (setS 4 1 (setS 2 0x20000 ctrl))
def noPred : State := sys1.updReg fun g => { g with p := g.p.set 0 0 }
def tlbQs : List SrcSpec := { op := .s 2, n := 2, uni := true } :: opU (.s 4) :: (none : Option Operand).toList.map opU

theorem meets_PrivilegedFaults :
    checkIssue always [.zero, .s 2, .s 4] false ctrl = .ok () ∧ checkIssue always [.zero, .s 2, .s 4, .s 6] false ctrl = .ok () ∧
    checkIssue always [] true ctrl = .ok () ∧ checkIssue always [.s 8] false ctrl = .ok () ∧
    ctrl.active always ≠ 0 ∧ ctrl.curLaunch.desc.world = false :=
  ⟨unit_ok (by decide +kernel), unit_ok (by decide +kernel), unit_ok (by decide +kernel), unit_ok (by decide +kernel),
    by decide +kernel, by decide +kernel⟩

def fault1 : FaultEnt := { (default : FaultEnt) with read := false }
def withFault : State := sys1.updDie 0 fun d => { d with fq := AMap.set d.fq 2 fault1 }
def withErr : State := sys1.updDie 0 fun d => { d with errLog := [default] }

theorem meets_SystemInstructionsComplete :
    (let s := sys1
     let r := rd always tlbQs s
     Ready always (opsOf .zero tlbQs) tlbQs [] s r ∧ s.active always ≠ 0 ∧ s.curLaunch.desc.world = true ∧
      (uval (s.active always) (r.w 1)).toNat ≠ 0 ∧
      ((r.at 0).pair ((lowest (s.active always)).getD 0)).toNat % 65536 = 0 ∧ s.curWarp.ord.tlbOps.length < 8 ∧
      s.curWarp.ord.ops = [] ∧ warpPending s (fun _ => true) = false) ∧
    (∃ r, Ready (.pred false 0) (opsOf .zero tlbQs) tlbQs [] noPred r ∧ noPred.active (.pred false 0) = 0) ∧
    checkIssue always [] true sys1 = .ok () ∧
    (∃ i e r, oldestFault (withFault.die withFault.curBlock.place.die) = some (i, e) ∧
      Ready always [.s 8] [] (errPuts (.s 8) (withFault.active always) e.words) withFault r) ∧
    oldestFault (sys1.die sys1.curBlock.place.die) = none ∧
    (∃ e rest r, (withErr.die withErr.curBlock.place.die).errLog = e :: rest ∧
      Ready always [.s 8] [] (errPuts (.s 8) (withErr.active always) e) withErr r) ∧
    (sys1.die sys1.curBlock.place.die).errLog = [] ∧
    ∃ r, Ready always (opsOf .zero [{ op := .s 2, n := 2, uni := true }]) [{ op := .s 2, n := 2, uni := true }] [] sys1 r ∧
      lagerRoom sys1 sys1.curCore 8 = true :=
  ⟨⟨ready (by decide +kernel), by decide +kernel, by decide +kernel, by decide +kernel, by decide +kernel, by decide +kernel,
      by decide +kernel, by decide +kernel⟩,
    ⟨_, ready (by decide +kernel), by decide +kernel⟩, unit_ok (by decide +kernel),
    ⟨2, fault1, _, by decide +kernel, ready (by decide +kernel)⟩, by decide +kernel,
    ⟨_, _, _, (by decide +kernel : _ = [default]), ready (by decide +kernel)⟩, by decide +kernel,
    _, ready (by decide +kernel), by decide +kernel⟩

/-! ### The command processor -/

/-- The page at 0x2_0000 of ASID 0 is in the Vat of die 0, and its bytes are these. -/
def dev0 (bs : List (Nat × Byte)) : State :=
  let e : TlbEnt := { asid := 0, world := false, vbase := 0x20000, lg := 16, leaf := 0x10000000000F }
  let s := { State.reset with booted := true, mem := Mem.writeAll State.reset.mem bs }
  s.updDie 0 fun d => { d with vatcfg := 1, tlb := [e] }
def inPage (o : Nat) (bs : List Byte) : List (Nat × Byte) := at_ (2 ^ 48 + o) bs

/-- Context 0 with a queue whose one entry has these bytes, and the page. -/
def queued (entry : Nat) (bs : List (Nat × Byte)) : State :=
  (dev0 (inPage 0 (toLe 32 entry) ++ bs)).updCtx 0 fun c => { c with
    valid := true, asid := 0, world := false
    queues := vmod c.queues 2 fun q => { q with enable := true, halted := false, lgsize := 4, base := 0x20000, head := 0, tail := 1 } }

/-- A start of a kind. -/
def startsAs (k : Nat) : Option (Nat × Nat × Head) → Bool
  | some (_, _, .start e _) => e.kind == k
  | _ => false

theorem starts {k : Nat} {x : Option (Nat × Nat × Head)} (h : startsAs k x = true) :
    ∃ c q e t, x = some (c, q, .start e t) ∧ e.kind = k := by
  unfold startsAs at h
  split at h
  · exact ⟨_, _, _, _, rfl, by simpa using h⟩
  · cases h

/-- A LAUNCH that passes its checks, or not. -/
def launchIs (ok : Bool) : Option (Nat × Nat × Head) → Bool
  | some (c, q, .start e t) => e.kind == 1 && match checkLaunch t c e.addr with
    | .ok p => ok && (acceptLaunch c (.queue c q (((t.ctx c).queues[q]?.getD Queue.reset).head)) p).isSome
    | .error r => !ok && r.wait.isNone
  | _ => false

theorem launch_ok {x : Option (Nat × Nat × Head)} (h : launchIs true x = true) :
    ∃ c q e t p, x = some (c, q, .start e t) ∧ e.kind = 1 ∧ checkLaunch t c e.addr = .ok p ∧
      ∃ u, acceptLaunch c (.queue c q (((t.ctx c).queues[q]?.getD Queue.reset).head)) p = some u := by
  unfold launchIs at h
  split at h
  · rename_i c q e t
    simp only [Bool.and_eq_true, beq_iff_eq] at h
    cases hp : checkLaunch t c e.addr with
    | error r => simp [hp] at h
    | ok p => exact ⟨c, q, e, t, p, rfl, h.1, hp, some_ex (by simpa [hp] using h.2)⟩
  · cases h

theorem launch_refused {x : Option (Nat × Nat × Head)} (h : launchIs false x = true) :
    ∃ c q e t r, x = some (c, q, .start e t) ∧ e.kind = 1 ∧ checkLaunch t c e.addr = .error r ∧ r.wait = none := by
  unfold launchIs at h
  split at h
  · rename_i c q e t
    simp only [Bool.and_eq_true, beq_iff_eq] at h
    cases hp : checkLaunch t c e.addr with
    | error r => exact ⟨c, q, e, t, r, rfl, h.1, hp, by simpa [hp] using h.2⟩
    | ok p => simp [hp] at h
  · cases h

def graphStarts : Option (Nat × Nat × Head) → Bool
  | some (c, q, .start e t) => e.kind == 2 && isOk (startGraph c q (((t.ctx c).queues[q]?.getD Queue.reset).head) e t)
  | _ => false

theorem graph_starts {x : Option (Nat × Nat × Head)} (h : graphStarts x = true) : ∃ c q e t u, x = some (c, q, .start e t) ∧
    e.kind = 2 ∧ startGraph c q (((t.ctx c).queues[q]?.getD Queue.reset).head) e t = .ok u := by
  unfold graphStarts at h
  split at h
  · rename_i c q e t
    simp only [Bool.and_eq_true, beq_iff_eq] at h
    cases hp : startGraph c q (((t.ctx c).queues[q]?.getD Queue.reset).head) e t with
    | error r => simp [hp, isOk] at h
    | ok u => exact ⟨c, q, e, t, u, rfl, h.1, hp⟩
  · cases h

def graphRefused : Option (Nat × Nat × Head) → Bool
  | some (c, q, .start e t) => e.kind == 2 && match startGraph c q (((t.ctx c).queues[q]?.getD Queue.reset).head) e t with
    | .ok _ => false
    | .error r => r.wait.isNone
  | _ => false

theorem graph_refused {x : Option (Nat × Nat × Head)} (h : graphRefused x = true) : ∃ c q e t r, x = some (c, q, .start e t) ∧
    e.kind = 2 ∧ startGraph c q (((t.ctx c).queues[q]?.getD Queue.reset).head) e t = .error r ∧ r.wait = none := by
  unfold graphRefused at h
  split at h
  · rename_i c q e t
    simp only [Bool.and_eq_true, beq_iff_eq] at h
    cases hp : startGraph c q (((t.ctx c).queues[q]?.getD Queue.reset).head) e t with
    | error r => exact ⟨c, q, e, t, r, rfl, h.1, hp, by simpa [hp] using h.2⟩
    | ok u => simp [hp] at h
  · cases h

def haltsHead : Option (Nat × Nat × Head) → Bool
  | some (_, _, .halt _ 0 _) => true
  | _ => false

theorem halts {x : Option (Nat × Nat × Head)} (h : haltsHead x = true) : ∃ c q st t, x = some (c, q, .halt st 0 t) := by
  unfold haltsHead at h
  split at h
  · exact ⟨_, _, _, _, rfl⟩
  · cases h

/-- Code of two words, its header at 0x2_0800 and its descriptor at 0x2_0400. -/
def code0 : List Byte := toLe 16 0x001C0A030260D0000000003F00000000
def header0 : List Byte := toLe 256 (0x4B484D4B + 2 ^ 32 + 0x100 * 2 ^ 192 + 16 * 2 ^ 256 + 0xFFFFFFFF * 2 ^ 288 + 8 * 2 ^ 384 +
  64 * 2 ^ 400 + 2 ^ 424 + (crc32 code0).toNat * 2 ^ 608)
def desc0 : List Byte := toLe 128 (0x20800 + 2 ^ 64 + 2 ^ 96 + 2 ^ 112 + 32 * 2 ^ 128 + 2 ^ 144 + 2 ^ 152)
def kernel0 : List (Nat × Byte) := inPage 0x400 desc0 ++ inPage 0x800 header0 ++ inPage 0x900 code0

/-- A graph of one SIGNAL node at 0x2_0400. -/
def graphBytes : List (Nat × Byte) := inPage 0x400 (toLe 32 (5 + 0xFFFFFFFFFFFF * 2 ^ 80))

theorem meets_QueueEntriesStart :
    (∃ c q e t, firstHead (queued 0 []) 0 = some (c, q, .start e t) ∧ e.kind = 0) ∧
    (∃ c q e t, firstHead (queued 3 []) 0 = some (c, q, .start e t) ∧ e.kind = 3) ∧
    (∃ c q e t, firstHead (queued (4 + 2 ^ 192) []) 0 = some (c, q, .start e t) ∧ e.kind = 4) ∧
    (∃ c q e t p, firstHead (queued (1 + 0x20400 * 2 ^ 128) kernel0) 0 = some (c, q, .start e t) ∧ e.kind = 1 ∧
      checkLaunch t c e.addr = .ok p ∧
      ∃ u, acceptLaunch c (.queue c q (((t.ctx c).queues[q]?.getD Queue.reset).head)) p = some u) ∧
    (∃ c q e t r, firstHead (queued (1 + 0x20400 * 2 ^ 128) []) 0 = some (c, q, .start e t) ∧ e.kind = 1 ∧
      checkLaunch t c e.addr = .error r ∧ r.wait = none) ∧
    (∃ c q e t u, firstHead (queued (2 + 2 ^ 32 + 0x20400 * 2 ^ 128) graphBytes) 0 = some (c, q, .start e t) ∧ e.kind = 2 ∧
      startGraph c q (((t.ctx c).queues[q]?.getD Queue.reset).head) e t = .ok u) ∧
    (∃ c q e t r, firstHead (queued (2 + 2 ^ 32 + 0x20400 * 2 ^ 128) []) 0 = some (c, q, .start e t) ∧ e.kind = 2 ∧
      startGraph c q (((t.ctx c).queues[q]?.getD Queue.reset).head) e t = .error r ∧ r.wait = none) ∧
    ∃ c q st t, firstHead (queued 9 []) 0 = some (c, q, .halt st 0 t) :=
  ⟨starts (by decide +kernel), starts (by decide +kernel), starts (by decide +kernel), launch_ok (by decide +kernel),
    launch_refused (by decide +kernel), graph_starts (by decide +kernel), graph_refused (by decide +kernel),
    halts (by decide +kernel)⟩

/-- A launch with nothing left to do; one that ends so. -/
def lastLaunch (ending : Option Nat) : State := { dev0 [] with launches := [(4, { probeLaunch with ending })] }

theorem meets_LaunchesEnd :
    (∃ la x, AMap.get? (lastLaunch none).launches 4 = some la ∧ la.ending = none ∧ la.waiting = [] ∧
      (lastLaunch none).blocks.any (fun p => p.2.launch == 4) = false ∧ outputLeft (lastLaunch none) 4 = false ∧
      disarm 4 (lastLaunch none) = some x) ∧
    (∃ la, AMap.get? (lastLaunch (some 7)).launches 4 = some la ∧ la.ending = some 7 ∧ 7 ≠ Status.ok) ∧
    ∃ la t m, AMap.get? (lastLaunch (some Status.ok)).launches 4 = some la ∧ la.ending = some Status.ok ∧
      (lastLaunch (some Status.ok)).inflight.any (fun o => (AMap.get? (lastLaunch (some Status.ok)).blocks o.blk).isNone) = false ∧
      restoreFrames la.frames (lastLaunch (some Status.ok)) = some t ∧
      markCow true la.ptes { t with snapPool := t.snapPool ++ la.frames.map fun f => (f.2.1, f.2.2) } = some m :=
  ⟨⟨{ probeLaunch with ending := none }, _, by decide +kernel, rfl, rfl, by decide +kernel, by decide +kernel, rfl⟩,
    ⟨{ probeLaunch with ending := some 7 }, by decide +kernel, rfl, by decide +kernel⟩,
    { probeLaunch with ending := some Status.ok }, _, _, by decide +kernel, rfl, by decide +kernel, rfl, rfl⟩

/-! ### Graphs -/

/-- A node of a type, whose argument is at 0x2_0400. -/
def node0 (type : Nat) (st : NodeState) : Node :=
  { type, succ := [0xFFFF, 0xFFFF, 0xFFFF], aux := 1, limit := 1, npred := 0, tl := 0, arg0 := 0x20400, arg1 := 0, st
    heard := [], iters := 0, redraw := none }
def graph0 (n : Node) (failed : Option (Nat × Nat)) : Graph :=
  { ctx := 0, queue := 2, entry := 0, tl := 0, value := 1, nodes := [(0, { node0 3 .running with aux := 1 }), (1, n)], failed }
def withGraph (n : Node) (failed : Option (Nat × Nat)) (bs : List (Nat × Byte)) : State :=
  (queued 0 bs).updDie 0 fun d => { d with graphs := [(0, graph0 n failed)] }

/-- The bytes of a callback's descriptor, and their place at the node's argument. -/
def callDesc : List Byte := toLe 32 (2 ^ 32 + 2 ^ 48 + 0x20508 * 2 ^ 64 + 0x20504 * 2 ^ 128 + 0x20500 * 2 ^ 192)
def callBytes : List (Nat × Byte) := inPage 0x400 callDesc
/-- Core 0 of die 0 alone has an engine free. -/
def oneEngine (s : State) : State :=
  (List.range 47).foldl (fun s c => s.updBody (c + 1) fun k => { k with copies := List.replicate 8 default }) s
def copyBytes : List (Nat × Byte) := inPage 0x400 (toLe 32 0)
def mailed (s : State) : State := s.updDie 0 fun d => { d with mail := AMap.set d.mail 1 [default] }
/-- A predicate run at the head of the queue: of a node, and of a post of block 1. -/
def called (c : Call) (s : State) : State := s.updDie 0 fun d => { d with calls := [c] }
def hit (n : Node) (bs : List (Nat × Byte)) : State := withGraph n none bs
def atNode (s : State) (n : Node) (f : Option (Nat × Nat)) : Prop :=
  ∃ g, s.graph? 0 0 = some g ∧ g.node? 1 = some n ∧ g.failed = f

theorem at_node {s : State} {n : Node} {f : Option (Nat × Nat)} (h : s.graph? 0 0 = some (graph0 n f)) : atNode s n f :=
  ⟨graph0 n f, h, rfl, rfl⟩

theorem meets_GraphNodesRun :
    (let s := hit (node0 0 .ready) kernel0
     atNode s (node0 0 .ready) none ∧ launchesOn s 0 < 64 ∧ ∃ p, checkLaunch s 0 0x20400 = .ok p) ∧
    (let s := oneEngine (hit (node0 1 .ready) copyBytes)
     atNode s (node0 1 .ready) none ∧ freeEngines s.free.2 0 = [0] ∧ ∃ x, walkRead 0 0x20400 32 s.free.2 = .ok x ∧
      (CopyF.of x.1).op = 0 ∧ (CopyF.of x.1).ssp = 0 ∧ (CopyF.of x.1).dsp = 0 ∧ (copyPlan default [] (CopyF.of x.1)).isSome = true) ∧
    (let s := hit (node0 2 .ready) []
     atNode s (node0 2 .ready) none ∧ ∃ x, walkRead 0 0x20400 4 s = .ok x) ∧
    (let s := hit (node0 3 .ready) []
     atNode s (node0 3 .ready) none ∧ ∃ x, walkRead 0 0x20400 4 s = .ok x) ∧
    (let s := hit (node0 3 .running) []
     atNode s (node0 3 .running) none ∧ (graph0 (node0 3 .running) none).bodyOver 1 (node0 3 .running) = true ∧
      ∃ x, walkRead 0 0x20400 4 s = .ok x) ∧
    (let s := hit (node0 4 .ready) []
     atNode s (node0 4 .ready) none ∧ mailWaited s 0 0 1 1 = false) ∧
    (let s := mailed (hit (node0 4 .running) [])
     atNode s (node0 4 .running) none ∧ (let box := AMap.getD (s.die 0).mail 1 []
      1 ≤ box.length ∧ ∃ x, walkWrites 0 ((box.take 1).zipIdx.map fun m => (0x20400 + 256 * m.2, m.1.data)) s = .ok x)) ∧
    atNode (hit (node0 5 .ready) []) (node0 5 .ready) none ∧
    (let s := hit (node0 6 .ready) callBytes
     atNode s (node0 6 .ready) none ∧ ∃ x, walkRead 0 0x20400 32 s = .ok x ∧ (0x20400 : DWord).toNat % 32 = 0 ∧ (CallF.of x.1).ok = true ∧
      redrawOk (graph0 (node0 6 .ready) none) 1 (CallF.of x.1) = true ∧
      ∃ u, applyVerdict 0 0 1 x.1 .fault 2 x.2 (setCall 0 0 1 [] (nodeRuns 0 0 1 x.2)) = some u) ∧
    (let s := called (.node 0 1 callDesc) (hit (node0 6 .running) [])
     (s.die 0).calls = [.node 0 1 callDesc] ∧ s.now < (s.die 0).callAt + 1024 * (CallF.of callDesc).budget ∧
      ∃ t, applyVerdict 0 0 1 callDesc (.word 0) (causeOf (.word 0)) s (popCall 0 s) = some t) ∧
    (let s := { called (.node 0 1 callDesc) (hit (node0 6 .running) []) with now := 5000 }
     (s.die 0).calls = [.node 0 1 callDesc] ∧ (s.die 0).callAt + 1024 * (CallF.of callDesc).budget ≤ s.now ∧
      ∃ t, applyVerdict 0 0 1 callDesc .fault 1 s (popCall 0 s) = some t) ∧
    (let s := called (.post 1 0 0 1 0 4) engine
     (s.die 0).calls = [.post 1 0 0 1 0 4] ∧ s.now < (s.die 0).callAt + 1024 * 4 ∧ plainVerdict (.word 0) = true ∧
      (s.block 1).state ≠ .saved) ∧
    (let s := withGraph (node0 5 .done) (some (1, 7)) []
     let s := s.updGraph 0 0 fun g => { g with nodes := AMap.mapVals g.nodes fun _ n => { n with st := .done } }
     ∃ g, s.graph? 0 0 = some g ∧ g.failed = some (1, 7) ∧ (g.nodes.any fun p => p.2.st == .running) = false) := by
  refine ⟨⟨at_node (by decide +kernel), by decide +kernel, ok_ex (by decide +kernel)⟩,
    ⟨at_node (by decide +kernel), by decide +kernel, got ([], State.reset) _, got_ok (by decide +kernel), by decide +kernel⟩,
    ⟨at_node (by decide +kernel), ok_ex (by decide +kernel)⟩, ⟨at_node (by decide +kernel), ok_ex (by decide +kernel)⟩,
    ⟨at_node (by decide +kernel), by decide +kernel, ok_ex (by decide +kernel)⟩,
    ⟨at_node (by decide +kernel), by decide +kernel⟩,
    ⟨at_node (by decide +kernel), by decide +kernel, ok_ex (by decide +kernel)⟩,
    at_node (by decide +kernel),
    ⟨at_node (by decide +kernel), got ([], State.reset) _, got_ok (by decide +kernel), by decide +kernel, by decide +kernel,
      by decide +kernel, some_ex (by decide +kernel)⟩,
    ⟨by decide +kernel, by decide +kernel, some_ex (by decide +kernel)⟩,
    ⟨by decide +kernel, by decide +kernel, some_ex (by decide +kernel)⟩,
    ⟨by decide +kernel, by decide +kernel, by decide +kernel, by decide +kernel⟩, _, rfl, by decide +kernel⟩

/-! ### Placement and pre-emption -/

/-- A launch of one block waits; so do two members of a gang, whose block is this. -/
def waits : State := { dev0 [] with launches := [(4, { probeLaunch with waiting := [0], die := 0 })] }
def gangOn (st : Nat) (s : State) : State :=
  s.updGang 0 1 fun g => { g with state := st, started := false, members := 1, admitted := 1, clusters := 3 }
def member : Launch := { probeLaunch with waiting := [0], ctx := 0, desc := { probeLaunch.desc with gang := true, gangId := 1 } }
def gangWaits : State := gangOn 2 { dev0 [] with launches := [(4, member)] }
/-- The gang's set has started, and a later member waits. -/
def gangLater : State := gangWaits.updGang 0 1 fun g => { g with started := true }

theorem meets_PlacementAndGangs :
    (memberSpots waits 0 = none ∧ headOn waits 0 = some (4, 0) ∧ turnOn waits 4 0 = true ∧ ∃ l, headSpots waits 4 0 = some l) ∧
    (∃ x, memberSpots gangLater 0 = some x) ∧
    ((gangOn 1 waits).gang 0 1).state = 1 ∧ strangers (gangOn 1 waits) 0 1 = [] ∧
    (let s := gangWaits
     let x := s.gang 0 1
     x.state = 2 ∧ x.started = false ∧ x.members ≤ x.admitted ∧
      ((membersOf s 0 1).filter fun p => p.2.ending.isNone).take x.members = [(4, member)] ∧
      ∃ p, placeAll (baysFor s member) ((([(4, member)] : List (Nat × Launch)).flatMap fun p =>
        p.2.waiting.map fun k => (p.1, waitingAsk s p.1 p.2 k)).map Prod.snd) = some p) :=
  ⟨⟨by decide +kernel, by decide +kernel, by decide +kernel, some_ex (by decide +kernel)⟩, some_ex (by decide +kernel),
    by decide +kernel, by decide +kernel, by decide +kernel, by decide +kernel, by decide +kernel, by decide +kernel,
    some_ex (by decide +kernel)⟩

/-- Block 1 in a state of its life, at a clause boundary. -/
def blockIn (st : BlkState) (q : Option PreReq) : State :=
  (engine.updBlock 1 fun b => { b with state := st, preReq := q }).updSplit fun sp => { sp with port := none }
/-- Its cluster is due for a test, which a gang may defer; and under one, which waits or has begun. -/
def testing (tests : List TestRun) (s : State) : State := { s with now := perSecond * 10 }.updDie 0 fun d => { d with
  iftEnable := true, iftPeriod := 1, tests }
def opened : List TestRun := [{ cluster := 0, from_ := 5, begun := true, open_ := true }]
def waiting1 : TestRun := { cluster := 0, from_ := 5, begun := false, open_ := false }
def gangDefers : State := (testing [] (gangOn 2 waits)).updGang 0 1 fun g => { g with deferS := 7 }
def readRec : LineRec :=
  { LineRec.reset with multi := true, rvalid := true, rmask := 1, rtime := 5, seen := [(0, 0x02000000#32, 5)] }
/-- A warp of a block to be saved has stores left that race with another agent's. -/
def savesRace : State :=
  let s := (blockIn .saving none).updDie 0 fun d => { d with vatcfg := 1 }
  ({ s with now := 2047, lines := [(2 ^ 42, readRec)] }).updBody 0 fun k => { k with
    nt := [{ blk := 1, warp := 0, pa := 2 ^ 48, va := 0, bytes := at_ (2 ^ 48) (toLe 4 7), t := 0 }] }
/-- A part of its image has not left. -/
def unsent0 : State := (blockIn .saved none).updBlock 1 fun b => { b with unsent := at_ (2 ^ 48) [1, 2] }
def noPre1 : State := { noPre0 with now := 95000 }

theorem meets_PreemptionAndTests :
    (∃ b, AMap.get? (testing opened (blockIn .running none)).blocks 1 = some b ∧ b.preReq = none ∧
      requested (testing opened (blockIn .running none)) 1 0 true = true) ∧
    (let s := blockIn .running (some ⟨100, false⟩)
     ∃ b, AMap.get? s.blocks 1 = some b ∧ b.preReq = some ⟨100, false⟩ ∧ regionOpen s (preGroup s 1) = false ∧
      ∃ t, answerRequest (preGroup s 1) 100 false s = some t) ∧
    (let s := blockIn .saving none
     (∃ b, AMap.get? s.blocks 1 = some b ∧ b.state = .saving ∧ canSave b = true) ∧ drainFits s 1 = true ∧
      saveRace ((withdrawFaults 1 s).updBlock 1 fun b => { b with warps := AMap.mapVals b.warps fun _ w => w.stop }) 1 = none) ∧
    (let s := savesRace
     (∃ b, AMap.get? s.blocks 1 = some b ∧ b.state = .saving ∧ canSave b = true) ∧ drainFits s 1 = true ∧
      ∃ x, saveRace ((withdrawFaults 1 s).updBlock 1 fun b => { b with
        warps := AMap.mapVals b.warps fun _ w => w.stop }) 1 = some x) ∧
    (∃ b, AMap.get? unsent0.blocks 1 = some b ∧ b.state = .saved ∧ b.unsent ≠ [] ∧
      lagerRoom unsent0 b.place.coreNo 1 = true) ∧
    (∃ b, AMap.get? (blockIn .flushing none).blocks 1 = some b ∧ b.state = .flushing) ∧
    (let s := blockIn .saved none
     ∃ b, AMap.get? s.blocks 1 = some b ∧ canResume s (resumeGroup s 1) = true ∧
      (resumeGroup s 1).any (fun u => higherFits s (s.block u).place.die (prioOf s u)) = false ∧
      ∃ l, resumeSpots s (resumeGroup s 1) = some l) ∧
    ((noPre1.warpOf 1 0).noPre = true ∧ (noPre1.warpOf 1 0).overrun = false ∧ (noPre1.warpOf 1 0).watchAt + 95000 ≤ noPre1.now) ∧
    (let s := testing [] State.reset
     let r : TestRun := { cluster := 0, from_ := s.now + deferral s 0 0, begun := false, open_ := false }
     (s.die 0).tests.find? (fun t => t.cluster == 0) = none ∧ (∃ n, testDueAt (s.die 0) 0 = some n ∧ n ≤ s.now) ∧
      deferral s 0 0 = 0 ∧ ∃ t, runTest 0 0 r s = some t) ∧
    ((gangDefers.die 0).tests.find? (fun t => t.cluster == 0) = none ∧
      (∃ n, testDueAt (gangDefers.die 0) 0 = some n ∧ n ≤ gangDefers.now) ∧ 0 < deferral gangDefers 0 0) ∧
    (let s := testing [waiting1] State.reset
     (s.die 0).tests.find? (fun t => t.cluster == 0) = some waiting1 ∧ waiting1.open_ = false ∧ waiting1.from_ ≤ s.now ∧
      ∃ t, runTest 0 0 waiting1 s = some t) ∧
    testRuns (testing opened (blockIn .saved none)) 0 0 = true :=
  ⟨⟨blkOf (testing opened (blockIn .running none)), by decide +kernel, by decide +kernel, by decide +kernel⟩,
    ⟨blkOf (blockIn .running (some ⟨100, false⟩)), by decide +kernel, by decide +kernel, by decide +kernel,
      some_ex (by decide +kernel)⟩,
    ⟨⟨blkOf (blockIn .saving none), by decide +kernel, by decide +kernel, by decide +kernel⟩, by decide +kernel, by decide +kernel⟩,
    ⟨⟨blkOf savesRace, by decide +kernel, by decide +kernel, by decide +kernel⟩, by decide +kernel, some_ex (by decide +kernel)⟩,
    ⟨blkOf unsent0, by decide +kernel, by decide +kernel, by decide +kernel, by decide +kernel⟩,
    ⟨blkOf (blockIn .flushing none), by decide +kernel, by decide +kernel⟩,
    ⟨blkOf (blockIn .saved none), by decide +kernel, by decide +kernel, by decide +kernel, some_ex (by decide +kernel)⟩,
    ⟨by decide +kernel, by decide +kernel, by decide +kernel⟩,
    ⟨by decide +kernel, ⟨_, rfl, by decide +kernel⟩, by decide +kernel, some_ex (by decide +kernel)⟩,
    ⟨by decide +kernel, ⟨_, rfl, by decide +kernel⟩, by decide +kernel⟩,
    ⟨by decide +kernel, by decide +kernel, by decide +kernel, some_ex (by decide +kernel)⟩, by decide +kernel⟩

/-! ### Selection and the engines -/

/-- The split of block 1 waits at its header; it sleeps until 5. -/
def atHeader : State := ctrl.updSplit fun sp => { sp with port := none }
def asleep : State := { ctrl.updSplit (fun sp => { sp with wait := .sleep 5 }) with now := 5 }
def tlbWaits (t : Option Nat) : State :=
  { ctrl with tlbInvs := [(4, { blk := 1, warp := 0, base := 0x20000, len := 65536, asid := none, holders := [(384, t)] })] }
def leaves0 : State := { eng0 with inflight := [eng0.outItem .leave none none 0] }

theorem meets_SelectionAndCompletions :
    (let s := atHeader
     let done := (subSplits s 0 0).filter fun c => waitDone s c.blk c.warp (s.splitOf c)
     let s1 := done.foldl (fun s c => endWait c s) s
     let ended := (subSplits s1 0 0).filter fun c => clauseEnded (s1.splitOf c)
     let voted := ended.foldl (fun s c => s.updWarpOf c.blk c.warp fun w => w.vote c.split) s1
     let s2 := readTlv (tlvDue 0 0 voted) voted
     ∃ p, choose s2 0 0 = some p) ∧
    ((asleep.splitOf ⟨1, 0, 0⟩).wait = .sleep 5 ∧ 5 ≤ asleep.now) ∧
    (∃ o, ((AMap.getD (busy.block 1).warps 0 default).ord.ops.find? fun o => o.num == 1) = some o ∧ opEnds busy 1 0 o = true) ∧
    (∃ x h, AMap.get? (tlbWaits none).tlbInvs 4 = some x ∧ (x.holders.find? fun h => h.1 == 384) = some (h, none)) ∧
    (∃ x h t, AMap.get? (tlbWaits (some 2)).tlbInvs 4 = some x ∧ (x.holders.find? fun h => h.1 == 384) = some (h, some t) ∧
      stillUsing (tlbWaits (some 2)) 384 t = false) ∧
    ∃ o, leaves0.inflight.find? (fun x => x.blk == 1 && x.kind == .leave) = some o ∧
      ∀ x ∈ leaves0.inflight ++ leaves0.cores.flatMap fun p => p.2.lager, windowOf o.blk x = true → o.t < x.t :=
  ⟨some_ex (by decide +kernel), ⟨by decide +kernel, by decide +kernel⟩,
    ⟨{ (default : MemOp) with num := 1 }, by decide +kernel, by decide +kernel⟩,
    ⟨_, 384, rfl, rfl⟩, ⟨_, 384, 2, rfl, rfl, by decide +kernel⟩,
    eng0.outItem .leave none none 0, by decide +kernel, by decide +kernel⟩

/-- A kick of one request of an operation at ABUF 64. -/
def kicked (op : Nat) : State := (withAbuf 64 (toLe 32 op) eng0).updBody 0 fun k => { k with
  kicks := [{ owner := .blk 1, off := 64, num := 1, n := 1, grow := none }] }
def copyEnds : CopyOp := { (default : CopyOp) with
  id := 3, finished := some 0, kick := { owner := .blk 1, off := 64, num := 1, n := 1, grow := none } }
def retires : State := eng0.updBody 0 fun k => { k with copies := [copyEnds] }

theorem meets_CopyEnginesWork : (∀ p ∈ (copyKinds 0).zipIdx, let s := kicked p.2
      (startCopy 0 p.2 s).toList ++ (workingOps s 0 p.2).filterMap (fun o => copyStep 0 o s.free.2) ≠ []) ∧
    ((retires.core 0).body.copies.find? fun o => o.id == 3) = some copyEnds ∧ copyEnds.finished = some 0 ∧
    copyEnds.kick.owner = .blk 1 ∧ (retires.block 1).state ≠ .saved := by
  refine ⟨?_, by decide +kernel, by decide +kernel, by decide +kernel, by decide +kernel⟩
  have h : ∀ k < 9, ((startCopy 0 k (kicked k)).toList ++
      (workingOps (kicked k) 0 k).filterMap (fun o => copyStep 0 o (kicked k).free.2)).isEmpty = false := by decide +kernel
  intro p hp
  have hk : p.2 < 9 := List.snd_lt_of_mem_zipIdx hp
  intro s e
  have h2 := h p.2 hk
  rw [e] at h2
  cases h2

/-- A tile task of a type, queued, and running. -/
def tileRec (type : Nat) (more : Nat) : TileRec := { blk := 1, off := 64, num := 1, handle := 0, high := false, members := []
                                                     bytes := toLe 64 (leNat (tileBytes type 0) + more) }
def withQueue (x : TileRec) : State := eng0.updBody 0 fun k => { k with normal := [x] }
def withRun (type more : Nat) : State := eng0.updBody 0 fun k => { k with array := { k.array with
  run := some { (default : TileRun) with task := tileRec type more } } }
def withArray (f : ArrayState → ArrayState) : State := eng0.updBody 0 fun k => { k with array := f k.array }
def attn0 : AttnRec := { blk := 1, off := 64, num := 1, bytes := toLe 64 (2 ^ 240), slab := slab0, stale := false, pages := [] }
/-- A task of the one token 0. -/
def attn1 : AttnRec := { attn0 with bytes := toLe 64 (2 ^ 240 + 2 ^ 248) }
/-- The slab's page is mapped for the attention unit. -/
def attnPage (s : State) : State := s.updCore 0 fun k => { k with attnTlb :=
  [{ asid := 0, world := false, vbase := 0x10000, lg := 16, leaf := w64 0x1007 }] }
def withAttn (r : Option AttnRun) : State := eng0.updBody 0 fun k => { k with attn := [attn0], attnRun := r }
def alarmed : State := eng0.updDie 0 fun d => { d with mon := { d.mon with alarm := true } }
/-- A self-loading record; its cluster's scheduler sees its waits hold. -/
def selfRec : TileRec := tileRec 0 (2 ^ 221 + 2 * 2 ^ 240)
/-- The active plane of array 1 is a newer one of the launch, so that a task of an older generation is stale. -/
def staleQueue : State := (withQueue (tileRec 0 0)).updBody 1 fun k => { k with array := { k.array with
  active := { tag := some ((eng0.block 1).launch, 1), fmt := 0, bytes := [] } } }
/-- A group of one record that has streamed; of two, the second of which is to come. -/
def streamed0 (more : List (Nat × DWord × List Byte)) : State := eng0.updBody 0 fun k => { k with array := { k.array with
  run := some { (default : TileRun) with task := { tileRec 2 (2 ^ 220) with members := more }, streamed := 1 } } }
/-- A task of three passes on the array. -/
def longRun : State := (withRun 0 (2 * 2 ^ 304)).updDie 0 fun d => { d with mon := { d.mon with alarm := true } }
/-- A task of two passes; of one. -/
def attnHolds : AttnRun := { AttnRun.fresh with holds := true }
def loaded0 (strict : Option (Nat × Nat × Nat)) : State :=
  withArray fun a => { a with loading := some (1, 1, 3, 0x00020004, 0), strictSplit := strict }

theorem meets_TaskEnginesWork :
    (dispatchNews (withQueue selfRec) 0 0 = true ∧
      isDispatchPoint ((withQueue selfRec).cluster 0 0).seen (seenNow (withQueue selfRec) 0 0)
        ((withQueue selfRec).cluster 0 0).swapped = true ∧
      firstHeadOf (withQueue selfRec) 0 ((dispatchOrder ((withQueue selfRec).cluster 0 0).rr).filter fun y =>
        !(poppedNow (withQueue selfRec) 0 0).contains y) = some (0, false, selfRec, .dispatch 0)) ∧
    (dispatchNews staleQueue 0 0 = true ∧
      isDispatchPoint (staleQueue.cluster 0 0).seen (seenNow staleQueue 0 0) (staleQueue.cluster 0 0).swapped = true ∧
      firstHeadOf staleQueue 0 ((dispatchOrder (staleQueue.cluster 0 0).rr).filter fun y =>
        !(poppedNow staleQueue 0 0).contains y) = some (0, false, tileRec 0 0, .retire 1)) ∧
    (dispatchNews (withRun 0 0) 0 0 = true ∧ firstHeadOf (withRun 0 0) 0 ((dispatchOrder ((withRun 0 0).cluster 0 0).rr).filter
        fun y => !(poppedNow (withRun 0 0) 0 0).contains y) = none) ∧
    (∃ r, ((withRun 0 0).core 0).body.array.run = some r ∧ (TileF.of r.task.bytes).type = 0) ∧
    (∃ r, ((withRun 1 0).core 0).body.array.run = some r ∧ (TileF.of r.task.bytes).type = 1) ∧
    (∃ r p, ((streamed0 [(0, 2, tileBytes 2 0)]).core 0).body.array.run = some r ∧ (TileF.of r.task.bytes).type = 2 ∧
      r.task.all[r.streamed]? = some p ∧ recWaits (streamed0 [(0, 2, tileBytes 2 0)]) r.task.blk p.2.2 = true) ∧
    (∃ r, ((streamed0 []).core 0).body.array.run = some r ∧ (TileF.of r.task.bytes).type = 2 ∧
      r.task.all.length ≤ r.streamed ∧ ∃ p ∈ r.task.all, (TileF.of p.2.2).close = true) ∧
    (∃ r t, ((withArray fun a => { a with commits := [default] }).core 0).body.array.commits = r :: t) ∧
    (let a := ((withArray fun a => { a with swapPending := true }).core 0).body.array
     a.swapPending = true ∧ a.loading = none ∧ a.run = none) ∧
    (∀ x ∈ [none, some (1, 0, 0)], let a := ((loaded0 x).core 0).body.array
     a.loading = some (1, 1, 3, 0x00020004, 0) ∧ a.strictSplit = x) ∧
    ((longRun.core 0).body.array.narrow ≠ (longRun.die 0).mon.alarm ∧ ∃ k, passEnds (longRun.core 0).body = some k) ∧
    (let s := withAttn none
     (s.core 0).body.attn = [attn0] ∧ (s.core 0).body.attnRun = none ∧ attn0.stale = false ∧ attnWaits s attn0 = true) ∧
    (let s := withAttn (some AttnRun.fresh)
     (s.core 0).body.attnRun = some AttnRun.fresh ∧ AttnRun.fresh.computed = false ∧ AttnRun.fresh.waitSlot = none ∧
      attnTakes (s.core 0).body AttnRun.fresh = true) ∧
    (let s := attnPage (withAttn (some attnHolds))
     attnTakes (s.core 0).body attnHolds = false ∧ attnReads attn1 attnHolds = true ∧
      ∃ t, readKeys 0 attn1 attnHolds s = some t) ∧
    (attnHolds.holds = true ∧ attnReads attn0 attnHolds = false) ∧
    ((withAttn (some (attnCode 0 0 attn0))).core 0).body.attnRun = some (attnCode 0 0 attn0) ∧
    (attnCode 0 0 attn0).computed = true ∧
    let x := { attn0 with stale := true }
    let s := eng0.updBody 0 fun k => { k with attn := [x] }
    (s.core 0).body.attn = [x] ∧ (s.core 0).body.attnRun = none ∧ x.stale = true ∧ attnWaits s x = true :=
  ⟨⟨by decide +kernel, by decide +kernel, by decide +kernel⟩, ⟨by decide +kernel, by decide +kernel, by decide +kernel⟩,
    ⟨by decide +kernel, by decide +kernel⟩, ⟨_, rfl, by decide +kernel⟩, ⟨_, rfl, by decide +kernel⟩,
    ⟨_, _, rfl, by decide +kernel, rfl, by decide +kernel⟩, ⟨_, rfl, by decide +kernel, by decide +kernel, by decide +kernel⟩,
    ⟨_, _, rfl⟩, ⟨by decide +kernel, by decide +kernel, by decide +kernel⟩,
    fun x h => by
      simp only [List.mem_cons, List.not_mem_nil, or_false] at h
      rcases h with rfl | rfl <;> exact ⟨by decide +kernel, by decide +kernel⟩,
    ⟨by decide +kernel, some_ex (by decide +kernel)⟩,
    ⟨by decide +kernel, by decide +kernel, by decide +kernel, by decide +kernel⟩,
    ⟨by decide +kernel, by decide +kernel, by decide +kernel, by decide +kernel⟩,
    ⟨by decide +kernel, by decide +kernel, some_ex (by decide +kernel)⟩, ⟨by decide +kernel, by decide +kernel⟩,
    by decide +kernel, by decide +kernel, by decide +kernel, by decide +kernel, by decide +kernel, by decide +kernel⟩

/-! ### Messages and memory -/

/-- A message waits for block 1; another has been acknowledged; a collective of an operation has failed. -/
def msg1 : Msg := { (default : Msg) with id := 9, blk := 1 }
def inTransit : State := { eng0 with msgs := [msg1] }
def acked (code : Nat) : State := { eng0 with acks := [(msg1, code)] }
def collOf (op : Nat) : State := { eng0 with colls := [(4, { tag := 1, seq := 2, failed := true, doneAt := none
                                                             parts := [{ newPart 1 1 64 (toLe 32 (op * 2 ^ 102)) 0 with fetched := true }] })] }
def storing : State := { dev0 [] with inflight := [{ (default : OutItem) with
  left := some 0, kind := .store (2 ^ 48) (at_ (2 ^ 48) (toLe 4 7)) }] }

/-- A message of device 5 to endpoint 5 of die 0, which block 1 holds, and is or is not saved. -/
def remote1 : RemoteMsg := { (default : RemoteMsg) with bytes := toLe 4 7, addr := 0xA05 }
def bound1 (st : BlkState) : State := (eng0.updBlock 1 fun b => { b with state := st }).updDie 0 fun d => { d with
  endpoints := AMap.set d.endpoints 5 1 }

theorem meets_MessagesAndHome_remote : ∀ p ∈ [(BlkState.running, false), (.saved, true)],
    let s := bound1 p.1
    let m : Msg := { remoteMsg remote1 with id := s.uidCtr }
    let t := { s with uidCtr := s.uidCtr + 1 }
    remote1.bytes ≠ [] ∧ ownDevice s m.addr = true ∧ faDie m.addr = 0 ∧
      (isHeld t 0 m || (t.die 0).ingress.any fun x => recvKey t 0 x == recvKey t 0 m) = p.2 ∧ mayEnter t 0 m = true := by
  decide +kernel

theorem meets_MessagesAndHome :
    ((nextIngress inTransit 0).map (true, ·) ++ (nextMsgs inTransit 0).map (false, ·) ≠ []) ∧
    (∀ code ∈ [0, 3], ((acked code).acks.find? fun p => p.1.id == 9) = some (msg1, code)) ∧
    (∀ p ∈ (collEvents 1 2).zipIdx, let s := collOf p.2
      ((s.colls.filter fun x => x.2.tag == 1 && x.2.seq == 2 && x.2.op == p.2).flatMap fun x =>
        x.2.parts.filterMap fun q => partStep x.1 x.2 q s) ≠ []) ∧
    (readyItems [] storing.inflight).filterMap (fun o => performItem o storing) ≠ [] := by
  have h : ∀ k < 6, (((collOf k).colls.filter fun x => x.2.tag == 1 && x.2.seq == 2 && x.2.op == k).flatMap fun x =>
      x.2.parts.filterMap fun q => partStep x.1 x.2 q (collOf k)).isEmpty = false := by decide +kernel
  refine ⟨by decide +kernel, by decide +kernel, ?_, fun e => ?_⟩
  · intro p hp
    have hk : p.2 < 6 := List.snd_lt_of_mem_zipIdx hp
    intro s e
    have h2 := h p.2 hk
    rw [e] at h2
    cases h2
  · have h2 : ((readyItems [] storing.inflight).filterMap (fun o => performItem o storing)).isEmpty = false := by decide +kernel
    rw [e] at h2
    cases h2

/-- A leaf at physical 2^48 that no frame counts; one being broken; a fault that has been read. -/
def sharing : State := (dev0 (inPage 0 (toLe 8 0x10000000000F))).updDie 0 fun d => { d with
  fsh := { d.fsh with busy := true, pte := some (2 ^ 48, 2 ^ 48 + 65536, 0x10000000000F) } }
def readFault : State := sys1.updDie 0 fun d => { d with fq := AMap.set d.fq 2 { fault1 with read := true } }

theorem two_ex {α β : Type} {x : Option α} {f : α → Option β} (h : (x.bind f).isSome = true) :
    ∃ u t, x = some u ∧ f u = some t := by
  cases x with
  | none => cases h
  | some u => exact ⟨u, (some_ex h).choose, rfl, (some_ex h).choose_spec⟩

theorem meets_FirmwareWrites :
    (fshareHeld 0 0 (dev0 []) = false ∧ ∃ t, fshareStart 0 0 (dev0 []) = some t) ∧
    (let e := 0x10000000000F
     let lg := if nbits (sharing.die 0).fsh.hi.toNat 20 2 = 0 then 16 else 21
     (sharing.die 0).fsh.pte = some (2 ^ 48, 2 ^ 48 + 65536, e) ∧ spanHeld sharing (nbits e 12 36 * 2 ^ 16) (2 ^ lg) = false ∧
      spanHeld sharing (2 ^ 48) 8 = false ∧
      ∃ u t, copyPage (nbits e 12 36 * 2 ^ 16) (2 ^ 48 + 65536) (2 ^ lg) sharing = some u ∧
        performBytes u (at_ (2 ^ 48) (toLe 8 (e % 2 ^ 12 + (2 ^ 48 + 65536) / 2 ^ 16 * 2 ^ 12))) = some t) ∧
    ∃ e, AMap.get? (readFault.die 0).fq 2 = some e ∧ e.read = true :=
  ⟨⟨by decide +kernel, some_ex (by decide +kernel)⟩, ⟨by decide +kernel, by decide +kernel, by decide +kernel,
    two_ex (by decide +kernel)⟩, { fault1 with read := true }, by decide +kernel, rfl⟩

/-! ### Epochs and the package -/

def lastCycle : State := { State.reset with now := 1023 }
/-- A store of core 0 is due, into a line that several agents have read since the warp's last acquire. -/
def racing : State :=
  let s := { eng0 with
    now := 2047
    lines := [(2 ^ 42, readRec)] }
  (s.updDie 0 fun d => { d with vatcfg := 1 }).updCore 0 fun k => { k with
    lager := [{ s.outItem (.store (2 ^ 48) (at_ (2 ^ 48) (toLe 4 7))) none none 0 with epoch := 0 }] }
/-- A paired launch, whose shadow has an instruction to come. -/
def paired0 : State := (setLaunch (fun l => { l with hdr := { l.hdr with paired := true } }) ctrl).updWarp fun w =>
  { w with shadow := [⟨0, 0, 1, w.reg, []⟩] }

theorem last_order : coreOrder lastCycle = [] := by
  have h : lastCycle.cores.map Prod.fst = [] := by decide +kernel
  simp [coreOrder, h]

theorem racing_order : coreOrder racing = [0] := by
  have h : racing.cores.map Prod.fst = [0] := by decide +kernel
  simp [coreOrder, h, Nat.mod_one]

def isRace {α : Type} : Except LeaveRace α → Bool
  | .ok _ => false
  | .error _ => true

theorem race_ex {α : Type} {x : Except LeaveRace α} (h : isRace x = true) : ∃ e, x = .error e := by
  cases x with
  | ok a => cases h
  | error e => exact ⟨e, rfl⟩

theorem meets_EpochsAndRollback :
    (lastCycle.now % 1024 = 1023 ∧ ∃ t, leaveAll lastCycle = .ok t) ∧
    (racing.now % 1024 = 1023 ∧ ∃ r, leaveAll racing = .error r) ∧
    ∃ b w, AMap.get? paired0.blocks 1 = some b ∧ b.state ≠ .saved ∧ AMap.get? b.warps 0 = some w ∧
      (paired0.launch b.launch).hdr.paired = true ∧ w.shadow ≠ [] := by
  refine ⟨⟨rfl, lastCycle, by unfold leaveAll; rw [last_order]; rfl⟩, ⟨rfl, ?_⟩, blkOf paired0, wrpOf paired0, by decide +kernel, by decide +kernel, by decide +kernel,
    by decide +kernel, by decide +kernel⟩
  unfold leaveAll
  rw [racing_order]
  exact race_ex (by decide +kernel)

def linkIn (st : Nat) : State := { State.reset with now := 100000, gnl := { State.reset.gnl with
  state := st, since := 0, holdDown := false, recovering := false, bootFail := false } }
def hotTemps : List (BitVec 16) := List.replicate 12 1700
def coldTemps : List (BitVec 16) := List.replicate 12 0
def goodRails : List (BitVec 16) := List.replicate 4 2000
def limited (alarm : Bool) : State := State.reset.updDie 0 fun d => { d with mon := { d.mon with
  tlim := 100, alarm := alarm, force := false } }

theorem meets_PackageEvents :
    (let m := ((limited false).die 0).mon.read hotTemps goodRails false
     m.alarm = false ∧ tooHot m = false ∧ alarmCause m = true) ∧
    (let m := ((limited true).die 0).mon.read coldTemps goodRails false
     m.alarm = true ∧ alarmCause m = false ∧ cooled m = true) ∧
    120 * 16 ≤ tempOf 1920 ∧ State.reset.booted = false ∧ State.reset.gnl.bootFail = false ∧
    ([] : List Byte).length < 784 ∧ leNat ((List.replicate 784 (0 : Byte)).take 4) ≠ 0x49474D4B ∧
    (linkIn 0).gnl.state = 0 ∧ ((linkIn 1).gnl.state = 1 ∧ (linkIn 1).gnl.recovering = false ∧
      (linkIn 1).gnl.since + 95000 < (linkIn 1).now) ∧ (linkIn 2).gnl.state = 2 ∧
    ((linkIn 4).gnl.state = 4 ∧ (linkIn 4).gnl.holdDown = false) ∧ State.reset.ports.getLsbD 5 = true ∧
    (let s := (linkIn 2).updDie 0 fun d => { d with vatcfg := 1 }
     s.gnl.state = 2 ∧ windowReach s (2 ^ 48) 8 = true ∧ secureByte s (2 ^ 48) 8 = none ∧
      ∃ t, hostWrite (2 ^ 48) true (toLe 8 7) s = some t) ∧
    let s := (linkIn 2).updDie 0 fun d => { d with vatcfg := 1, srb := d.srb.set 0 0x88000000, srl := d.srl.set 0 0x88000000 }
    s.gnl.state = 2 ∧ windowReach s (2 ^ 48) 8 = true ∧ secureByte s (2 ^ 48) 8 = some (2 ^ 48) :=
  ⟨⟨by decide +kernel, by decide +kernel, by decide +kernel⟩, ⟨by decide +kernel, by decide +kernel, by decide +kernel⟩, by decide +kernel,
    by decide +kernel, by decide +kernel, by decide +kernel, by decide +kernel, by decide +kernel, ⟨by decide +kernel, by decide +kernel, by decide +kernel⟩,
    by decide +kernel, ⟨by decide +kernel, by decide +kernel⟩, by decide +kernel,
    ⟨by decide +kernel, by decide +kernel, by decide +kernel, some_ex (by decide +kernel)⟩, by decide +kernel, by decide +kernel,
    by decide +kernel⟩

/-! ### Ill-formed terms -/

/-- One term that each check of `Instr.wf` refuses. -/
def illFormed : List Instr :=
  [-- the guards !p6 and !p7 (R124)
   .nop (.pred true 6), .nop (.pred true 7),
   -- a class that is no destination or no source (R190); the immediate form's too
   .iadd always ⟨.x 2, 0⟩ (v_ 3) (v_ 4) .wrap, .iadd always ⟨.p 7, 0⟩ (v_ 3) (v_ 4) .wrap, .iadd always (dv 5) ⟨.k 1, false⟩ (v_ 4) .wrap,
   .iaddI always (.z 1) (.v 2) 7,
   -- a hold bit on an immediate, zero or a latch, and a count on what has none (R130)
   .iadd always (dv 5) ⟨.imm 3, true⟩ (v_ 4) .wrap, .iadd always (dv 5) (v_ 3) ⟨.zero, true⟩ .wrap,
   .mov always (dv 5) ⟨.lat 1, true⟩, .mov always ⟨.s 3, 1⟩ (v_ 2),
   -- pairs (R191) and groups (R263): an odd register, a hold bit, an index out of line
   .dadd always (dv 5) (v_ 2) (v_ 4) .rn ⟨false, false, false, false, false⟩,
   .dadd always (dv 6) (v_ 3) (v_ 4) .rn ⟨false, false, false, false, false⟩,
   .dadd always (dv 6) ⟨.v 2, true⟩ (v_ 4) .rn ⟨false, false, false, false, false⟩,
   .ld always (dv 6) .b128 none (.s 4) 0, .lds always (.s 6) .b128 none (.s 4) 0, .st always (v_ 6) .b128 none (.s 4) 0,
   -- bases: an odd pair (R261), a class no buffer address has (R262)
   .ld always (dv 4) .b32 none (.s 5) 0, .ldb always (dv 4) .b32 .abuf ⟨.x 2, false⟩ 0,
   -- modifiers that an entry has no use for (R205, R211, R201, R214, R218, R222)
   .fadd always (dv 5) (v_ 1) (v_ 2) .rn ⟨false, false, true, false, false⟩,
   .dadd always (dv 6) (v_ 2) (v_ 4) .rn ⟨false, false, false, true, false⟩,
   .iset always (dv 5) (v_ 1) (v_ 2) .nan false, .pack always (dv 5) (v_ 1) (v_ 2) .half 2 .wrap,
   .lred always (dv 5) (v_ 1) .iadd .rz,
   -- predicates as data, and p7 as a destination
   .sel always (dv 5) (v_ 1) (v_ 2) (v_ 3), .plop3 always (.p 7) ⟨.p 1, false⟩ ⟨.p 2, false⟩ ⟨.p 3, false⟩ 0 0,
   .refill always 7,
   -- counts, masks and budgets that may not be zero, and the clear of TQRD.1
   .arrwait always 0, .serb always 0, .cbpost always (.s 4) (.s 5) 0 0, .tqrd always (.s 8) 3 true,
   -- barriers beyond their scope's count (R400)
   .bar always ⟨.wrp, 4⟩, .bar always ⟨.clu, 8⟩, .bar always ⟨.flr, 4⟩, .bar always ⟨.grd, 2⟩,
   -- a fixed guard, a window scope, and classes of uniform, row, link and error-queue operands
   .meld (.pred false 1) 2 true, .trapret (.pred false 1) false, .batom always (dv 4) false .add .sys .relaxed .abuf (v_ 2) 0,
   .sleepReg always .zero, .tenq always (.s 8) (.x 1) true, .wlthrClr always 0 (.p 1), .call always (.w 2) 0,
   .errq always (.s 6) true, .kvgrow always (.s 8) 0 (.s 5) (.s 4) 0 0, .wlrd always (.v 5) 0 (.v 2) 0 false]

theorem test_illFormed_refused : ∀ i ∈ illFormed, i.wf = false ∧ (encode i).bind decode ≠ some i := by decide +kernel

/-! ### Words written out from the entries' encodings -/

theorem test_decode_integer : decode 0x101C0E07000003E8#64 = some (.iaddI always (.v 7) (.v 7) 1000) ∧
    decode 0x011C0C0502810000#64 = some (.imad always (dv 6) (v_ 5) (v_ 5) (v_ 4) .wrap) := by decide +kernel
theorem test_decode_conversions :
    decode 0x481C0602F0F90000#64 = some (.cvt always (dv 3) (v_ 2) .e4m3 .f32 .rn .none 0) ∧
    decode 0x209C14010100C001#64 = some (.ffma always (dv 10) (v_ 1) (v_ 2) (v_ 3) .rz ⟨false, false, false, false, false⟩) := by
  decide +kernel
theorem test_decode_memory :
    decode 0x801C0F040004001C#64 = some (.ld always (dv 7) .b32 (some .clu) (.s 4) 0x40) ∧
    decode 0x881ED303C1807E88#64 = some (.stream always 1 (.s 3) #v[1, 2, 7, 7]) := by decide +kernel
theorem test_decode_engines :
    decode 0xA29E1304C1800008#64 = some (.tenq always (.s 9) (.s 4) true) ∧
    decode 0xA41EF102C1801418#64 = some (.wlinit always 0 (.s 2) 3 false 5) ∧
    decode 0xA81E1304C1800000#64 = some (.attn always (.s 9) (.s 4)) ∧
    decode 0xA85C0C0201E0C001#64 = some (.rotq always (dv 6) (v_ 2) (v_ 3) true) ∧
    decode 0xA89F0704C1800010#64 = some (.kvslab always 2 (.s 4)) := by decide +kernel
theorem test_decode_synchronisation :
    decode 0xC11F0783C1800098#64 = some (.fence always .rel .clu) ∧
    decode 0xC15E0783C1800010#64 = some (.cljoin always (.s 3) 2) ∧
    decode 0xC1DF0783C1801F40#64 = some (.sleep always 1000) ∧
    decode 0xC41E0905830017F8#64 = some (.fmsg always (.s 4) (.s 5) (.s 6) 255 2) ∧
    decode 0xC49E1304C1800000#64 = some (.coll always (.s 9) (.s 4)) ∧
    decode 0xC4DC11028200C001#64 = some (.noise always (dv 8) (s_ 2) (s_ 4) (v_ 3) .gum) := by decide +kernel
theorem test_decode_control :
    decode 0xE21EE583C1800008#64 = some (.meld always 2 true) ∧ decode 0xE81F0783C1800001#64 = some (.trapret always true) ∧
    decode 0xE89F0783C1800000#64 = some (.tlback always) := by decide +kernel

/-! ### The spec's worked examples -/

/-- A name's lanes after an instruction. -/
def lanesAfter (i : Instr) (s : State) (n : Nat) : Option (List Nat) :=
  match exec i s with
  | .next t => (AMap.get? t.curWarp.reg.v n).map fun x => x.vals.toList.map fun w => w.toNat
  | _ => none
def lanesOf_ (f : Nat → Nat) : Slot := { vals := tab fun l => BitVec.ofNat 32 (f l.val), mask := 0xFFFFFFFF, count := 0 }

/-- R222's example: lanes 0, 2 and 3 hold 5, 1 and 4; lane 1 keeps its v3, here 99. -/
def scans : State :=
  setV 2 (lanesOf_ fun l => if l = 0 then 5 else if l = 2 then 1 else 4) (setV 3 (lanesOf_ fun _ => 99)
    (alu.updSplit fun sp => { sp with lanes := 0xD }))
theorem test_lscan_example :
    (lanesAfter (.lscan always (dv 3) (v_ 2) .iadd true .rn) scans 3).map (·.take 5) = some [0, 99, 5, 6, 99] := by decide +kernel

/-- R216's example: 1000.0, -3.0, 0.75 and 2.5 in E4M3 with an automatic scale. -/
def blocks_ : State :=
  setV 4 (lanesOf_ fun l => if l = 0 then 0x447A0000 else if l = 1 then 0x3F400000 else 0)
    (setV 5 (lanesOf_ fun l => if l = 0 then 0xC0400000 else if l = 1 then 0x40200000 else 0) (setS 2 0x100 alu))
theorem test_qblk_example :
    (lanesAfter (.qblk always (dv 9) (v_ 4) (v_ 5) (s_ 2) .e4m3 .rn) blocks_ 9).map (·.take 3) =
      some [0x8011BC7E, 0x80113A2C, 0x80110000] := by decide +kernel

/-- R279's example: lanes 0, 2 and 3 address word A, which holds 10, and lane 1 word B, which holds 100. -/
def atomArgs_ : List (Fin 32 × Nat × Word × Word) := [(0, 0, 0, 5), (1, 4, 0, 1), (2, 0, 0, 2), (3, 0, 0, 3)]
def atomWords (a : Nat) : Word := if a = 0 then 10 else 100
theorem test_atom_example :
    (atomFold (some .add) atomWords atomArgs_).1 = [(0, 10), (1, 100), (2, 15), (3, 17)] ∧
    (atomFold (some .add) atomWords atomArgs_).2.1 = [(0, 20), (4, 101)] ∧
    (atomFold (some .exch) atomWords atomArgs_).1 = [(0, 10), (1, 100), (2, 5), (3, 2)] ∧
    (atomFold (some .exch) atomWords atomArgs_).2.1 = [(0, 3), (4, 1)] := by decide +kernel

/-- R287's example: three elements a row and two rows. -/
def stream0 : Stream := { desc := { base := 0x1000, space := 1, esize := 2, rank := 2, counts := #v[3, 2, 1, 1]
                                    strides := #v[4, 64, 0, 0], laneStride := 256 }
                          idx := #v[0, 0, 0, 0], sel := #v[1, 2, 7, 7], exhausted := false, delivered := 0, ahead := [] }
theorem test_stream_example :
    (stream0.next.next.next.idx = #v[0, 1, 0, 0] ∧ stream0.next.next.next.exhausted = false) ∧
    stream0.next.next.next.next.next.next.exhausted = true ∧ stream0.next.next.next.next.next.next.delivered = 6 := by
  decide +kernel

/-! ### Further clauses at their edges -/

/-- z1 is bound to the stream in ABUF; lane 31, which is not active, has an element too. -/
def walking : Stream := { desc := { base := 128, space := 1, esize := 2, rank := 1, counts := #v[3, 1, 1, 1]
                                    strides := #v[4, 4, 4, 4], laneStride := 4 }
                          idx := #v[0, 0, 0, 0], sel := #v[7, 7, 7, 7], exhausted := false, delivered := 0, ahead := [] }
def streaming : State := withAbuf 252 (toLe 4 77) ((setS 4 31 (onlyLane 0 (withBufs alu))).updReg fun r =>
  { r with z := r.z.set 1 (some walking) })

theorem meets_RdlaneReadsStream :
    let s := streaming
    let rb := rd always [srcU (s_ 4)] s
    let x := got (splat 0, s, rb.preds) (readStream (s.active always) (s.active always ||| one_ 31) 1 s rb.st rb.preds)
    let r : Reading := { rb with vals := [rd1 x.1], st := x.2.1, preds := x.2.2, holds := [] ++ rb.holds }
    checkIssue always [.v 9, .z 1, .s 4] false s = .ok () ∧ readAll always [srcU (s_ 4)] s = .ok rb ∧ s.active always ≠ 0 ∧
      Fin.ofNat 32 ((uval (s.active always) (rb.w 0)).toNat % 32) = 31 ∧
      readStream (s.active always) (s.active always ||| one_ 31) 1 s rb.st rb.preds = .ok x ∧ x.1[31] = 77 ∧
      destCheck r [putOf (dv 9) (s.active always) (splat x.1[31])] s = .ok () :=
  ⟨unit_ok (by decide +kernel), got_ok (by decide +kernel), by decide +kernel, by decide +kernel, got_ok (by decide +kernel),
    by decide +kernel, unit_ok (by decide +kernel)⟩

theorem meets_StreamWalk : walking.ahead = [] ∧ ∃ x, Machine.streamBytes streaming 1 walking = .ok x :=
  ⟨rfl, ok_ex (by decide +kernel)⟩

/-- The split of the placed word before it takes a port. -/
def starting : State := (fetching 0x001C0A030260D000#64).updBlock 1 fun b => { b with warps := AMap.mapVals b.warps fun _ w =>
  { w with splits := AMap.mapVals w.splits fun _ sp => { sp with port := none, idx := 0 } } }
def clauseOf : ClauseStart → Option (DWord × List DWord)
  | .ok h ws _ => some (h, ws)
  | .bad _ _ _ => none
theorem started {x : ClauseStart} {h : DWord} {ws : List DWord} (e : clauseOf x = some (h, ws)) : ∃ t, x = .ok h ws t := by
  cases x with
  | ok a b t => simp only [clauseOf, Option.some.injEq, Prod.mk.injEq] at e; exact ⟨t, by rw [e.1, e.2]⟩
  | bad a b c => cases e

theorem meets_ClausesHoldTheirWords :
    let s := starting
    let c : Cursor := ⟨1, 0, 0⟩
    (∃ x, fetchWord s (s.block 1).place.coreNo (s.launch (s.block 1).launch) (s.splitOf c).hdr = .ok x) ∧
    (AMap.get? s.blocks c.blk).isSome = true ∧ (s.splitOf c).lanes &&& (s.warpOf c.blk c.warp).lane.live ≠ 0 ∧
      (s.splitOf c).idx = 0 ∧ strayed (s.warpOf c.blk c.warp) (s.splitOf c) = 0 ∧
      ∃ h t, startClause s c.blk (s.splitOf c).hdr = .ok h [0x001C0A030260D000#64] t :=
  ⟨ok_ex (by decide +kernel), by decide +kernel, by decide +kernel, by decide +kernel, by decide +kernel,
    _, started (h := (starting.splitOf ⟨1, 0, 0⟩).header) (by decide +kernel)⟩

end Sys2Proof.Tests
end

section
/-!
PROOFS. Little-endian bytes (R4, R263), what a core sees of memory under its own output (R266, R267), and what translating the
requests of an access leaves as it is.
-/

namespace Sys2Proof.Machine

/-! ### Bytes and words (R4, R263) -/

/-- The number of a word that stands above another. -/
theorem toNat_append_eq_add {n m : Nat} (x : BitVec n) (y : BitVec m) : (x ++ y).toNat = y.toNat + 2 ^ m * x.toNat := by
  rw [BitVec.toNat_append, ← Nat.shiftLeft_add_eq_or_of_lt y.isLt, Nat.shiftLeft_eq, Nat.mul_comm, Nat.add_comm]

theorem leNat_singleton (a : Byte) : leNat [a] = a.toNat := by simp [leNat]

/-- A byte before others is the low byte of their word. -/
theorem leNat_cons_of_eq {n : Nat} {t : List Byte} {x : BitVec n} (a : Byte) (h : leNat t = x.toNat) :
    leNat (a :: t) = (x ++ a).toNat := by
  rw [leNat, h, toNat_append_eq_add, show 2 ^ 8 = 256 from rfl]

theorem leNat_pair (a b : Byte) : leNat [a, b] = (b ++ a).toNat := leNat_cons_of_eq a (leNat_singleton b)

theorem leNat_quad (a b c d : Byte) : leNat [a, b, c, d] = (d ++ c ++ b ++ a).toNat :=
  leNat_cons_of_eq a (leNat_cons_of_eq b (leNat_pair c d))

/-- The bytes of a number give back what of it they have room for. -/
theorem leNat_toLe (n x : Nat) : leNat (toLe n x) = x % 256 ^ n := by
  induction n generalizing x with
  | zero => simp [toLe, leNat, Nat.mod_one]
  | succ n ih => rw [toLe, leNat, ih, BitVec.toNat_ofNat, Nat.pow_succ' (m := 256), Nat.mod_mul]

theorem sextN_toNat {n : Nat} (x : BitVec n) (h : 0 < n) : sextN x.toNat n = x.toInt := by
  have half : 2 ^ n = 2 * 2 ^ (n - 1) := by rw [← Nat.pow_succ', Nat.succ_eq_add_one, Nat.sub_add_cancel h]
  have iff_half : x.toNat < 2 ^ (n - 1) ↔ 2 * x.toNat < 2 ^ n := by omega
  simp only [sextN, BitVec.toInt_eq_toNat_cond, iff_half, Nat.cast_pow, Nat.cast_ofNat]

theorem w32_toNat {n : Nat} (x : BitVec n) : w32 x.toNat = x.setWidth 32 := BitVec.ofNat_toNat 32 x

theorem ldWord_u8 (b : Byte) : ldWord .u8 [b] 0 = b.setWidth 32 := by
  rw [← w32_toNat, ← leNat_singleton]; rfl

theorem ldWord_u16 (a b : Byte) : ldWord .u16 [a, b] 0 = (b ++ a).setWidth 32 := by
  rw [← w32_toNat, ← leNat_pair]; rfl

theorem ldWord_s8 (b : Byte) : ldWord .s8 [b] 0 = b.signExtend 32 := by
  rw [ldWord, leNat_singleton, sextN_toNat b (by decide), BitVec.signExtend]

theorem ldWord_s16 (a b : Byte) : ldWord .s16 [a, b] 0 = (b ++ a).signExtend 32 := by
  rw [ldWord, leNat_pair, sextN_toNat (b ++ a) (by decide), BitVec.signExtend]

theorem ldWord_b32 (a b c d : Byte) : ldWord .b32 [a, b, c, d] 0 = d ++ c ++ b ++ a := by
  rw [← BitVec.setWidth_eq (d ++ c ++ b ++ a), ← w32_toNat, ← leNat_quad]; rfl

/-- Each register of a load of several takes its own four bytes. -/
theorem ldWord_wide {sz : LdSize} (h : sz = .b64 ∨ sz = .b128) (bs : List Byte) (i : Nat) :
    ldWord sz bs i = ldWord .b32 ((bs.drop (4 * i)).take 4) 0 := by
  rcases h with rfl | rfl <;> simp [ldWord, List.take_take]

/-- The words a store takes its bytes from, as one number. -/
theorem leNat_stData (sz : StSize) (r : Rd) (l : Fin 32) :
    leNat (stData sz r l) = ((r[3])[l] ++ (r[2])[l] ++ (r[1])[l] ++ (r[0])[l]).toNat % 256 ^ stBytes sz := by
  simp only [stData, leNat_toLe, toNat_append_eq_add]

theorem stData_b8 (r : Rd) (l : Fin 32) : stData .b8 r l = [((r[0])[l]).extractLsb' 0 8] := by
  simp only [stData, stBytes, toLe, List.cons.injEq, and_true]
  apply BitVec.eq_of_toNat_eq
  simp only [BitVec.toNat_ofNat, BitVec.extractLsb'_toNat, Nat.shiftRight_zero]
  omega

theorem stData_b16 (r : Rd) (l : Fin 32) :
    stData .b16 r l = [((r[0])[l]).extractLsb' 0 8, ((r[0])[l]).extractLsb' 8 8] := by
  simp only [stData, stBytes, toLe, List.cons.injEq, and_true]
  constructor <;> apply BitVec.eq_of_toNat_eq <;>
    simp only [BitVec.toNat_ofNat, BitVec.extractLsb'_toNat, Nat.shiftRight_eq_div_pow] <;> omega

theorem leNat_stData_b32 (r : Rd) (l : Fin 32) : leNat (stData .b32 r l) = ((r[0])[l]).toNat := by
  rw [leNat_stData, toNat_append_eq_add, stBytes]
  omega

theorem leNat_stData_b64 (r : Rd) (l : Fin 32) : leNat (stData .b64 r l) = ((r[1])[l] ++ (r[0])[l]).toNat := by
  simp only [leNat_stData, toNat_append_eq_add, stBytes]
  omega

theorem leNat_stData_b128 (r : Rd) (l : Fin 32) :
    leNat (stData .b128 r l) = ((r[3])[l] ++ (r[2])[l] ++ (r[1])[l] ++ (r[0])[l]).toNat := by
  rw [leNat_stData]
  exact Nat.mod_eq_of_lt (BitVec.isLt _)

theorem sizesExtend : Clause.SizesExtend := by
  refine ⟨fun b => ⟨ldWord_u8 b, ldWord_s8 b⟩, fun a b => ⟨ldWord_u16 a b, ldWord_s16 a b⟩, ldWord_b32, fun r l => ?_, ?_,
    fun r off l => ⟨rfl, rfl⟩⟩
  · exact ⟨stData_b8 r l, stData_b16 r l, leNat_stData_b32 r l, leNat_stData_b64 r l, leNat_stData_b128 r l⟩
  · rintro sz bs i (⟨h, -⟩ | ⟨h, -⟩)
    · exact ldWord_wide (.inl h) bs i
    · exact ldWord_wide (.inr h) bs i

/-! ### Runs of bytes -/

theorem mem_at_ {a : Nat} {bs : List Byte} {p : Nat × Byte} : p ∈ at_ a bs ↔ ∃ i, bs[i]? = some p.2 ∧ p.1 = a + i := by
  simp only [at_, List.mem_map, List.mem_zipIdx_iff_getElem?]
  constructor
  · rintro ⟨⟨b, i⟩, h, rfl⟩
    exact ⟨i, h, rfl⟩
  · rintro ⟨i, h, e⟩
    exact ⟨(p.2, i), h, by rw [← e]⟩

/-- A run holds one byte for each of its addresses. -/
theorem find?_reverse_at_ (a : Nat) {bs : List Byte} {i : Nat} (h : i < bs.length) :
    (at_ a bs).reverse.find? (fun p => p.1 == a + i) = some (a + i, bs[i]) := by
  cases e : (at_ a bs).reverse.find? (fun p => p.1 == a + i) with
  | none =>
    have hm : (a + i, bs[i]) ∈ (at_ a bs).reverse := List.mem_reverse.mpr (mem_at_.mpr ⟨i, List.getElem?_eq_getElem h, rfl⟩)
    simpa using List.find?_eq_none.mp e _ hm
  | some p =>
    obtain ⟨j, hj, hp⟩ := mem_at_.mp (List.mem_reverse.mp (List.mem_of_find?_eq_some e))
    have hi : p.1 = a + i := by simpa using List.find?_some e
    obtain rfl : j = i := by omega
    rw [List.getElem?_eq_getElem h, Option.some.injEq] at hj
    rw [hj, ← hi]

/-- A run laid over another of its place and length takes its place. -/
theorem overlayBytes_at_ (a : Nat) {bs cs : List Byte} (h : cs.length = bs.length) : overlayBytes a cs (at_ a bs) = bs := by
  apply List.ext_getElem
  · simpa [overlayBytes] using h
  · intro i _ hi
    simp [overlayBytes, find?_reverse_at_ a hi]

@[simp] theorem Mem.length_readN (m : Mem) (a n : Nat) : (m.readN a n).length = n := by simp [Mem.readN]

/-- A part of what is read of a longer run. -/
theorem Mem.take_drop_readN (m : Mem) (a : Nat) {k n len : Nat} (h : k + n ≤ len) :
    ((m.readN a len).drop k).take n = m.readN (a + k) n := by
  apply List.ext_getElem
  · simp; omega
  · intro i _ _
    simp [Mem.readN, Nat.add_assoc]

/-! ### The view of a core (R266) -/

section
variable {s : State} {core : Nat}

theorem viewOver_of_no_output (hp : pendingOf s core = []) (hn : (s.core core).body.nt = []) (blk warp a : Nat)
    (bs : List Byte) : viewOver s core blk warp a bs = bs := by
  simp [viewOver, hp, hn]

/-- A store that replaces a word is what the core sees of it. -/
theorem viewWord_of_store {o : OutItem} {p a : Nat} {bs : List Byte} (hp : pendingOf s core = [o])
    (hk : o.kind = .store p (at_ a bs)) (hn : (s.core core).body.nt = []) (hl : bs.length = 4) (blk warp : Nat) :
    viewWord s core blk warp a = wordAt bs 0 := by
  have hv : viewOver s core blk warp a (s.mem.readN a 4) = overlayBytes a (s.mem.readN a 4) (at_ a bs) := by
    simp [viewOver, hp, hn, hk, overlayItem]
  rw [viewWord, hv, overlayBytes_at_ a (by simp [hl])]

/-- With no output of the core and no copy allowed, a load's bytes are memory's. -/
theorem viewLoad_of_no_output (hp : pendingOf s core = []) (hn : (s.core core).body.nt = []) (blk warp a n : Nat) :
    viewLoad s core blk warp false a n = (s.mem.readN a n, none, s) := by
  have hin : a - wordLo a + n ≤ wordLen a n := by unfold wordLo wordLen; omega
  have hlo : wordLo a + (a - wordLo a) = a := by unfold wordLo; omega
  simp [viewLoad, loadBase, copyFor, viewOver_of_no_output hp hn, Mem.take_drop_readN _ _ hin, hlo]

end

/-! ### Translation (R246, R248) -/

/-- What a translation may change: the translations that dies, cores and their engines keep. -/
structure OnlyTranslationsFilled (s t : State) : Prop where
  rest : t = { s with dies := t.dies, cores := t.cores }
  die : ∀ d, ∃ x y, t.die d = { s.die d with tlb := x, tlbBig := y }
  core : ∀ c, ∃ x y z, t.core c = { s.core c with tlb := x, copyTlb := y, attnTlb := z }

namespace OnlyTranslationsFilled
variable {s t u : State}

theorem refl (s : State) : OnlyTranslationsFilled s s := ⟨rfl, fun _ => ⟨_, _, rfl⟩, fun _ => ⟨_, _, _, rfl⟩⟩

theorem trans (h : OnlyTranslationsFilled s t) (k : OnlyTranslationsFilled t u) : OnlyTranslationsFilled s u := by
  refine ⟨?_, fun d => ?_, fun c => ?_⟩
  · rw [k.rest, h.rest]
  · obtain ⟨_, _, e⟩ := h.die d
    obtain ⟨x, y, e'⟩ := k.die d
    exact ⟨x, y, by rw [e', e]⟩
  · obtain ⟨_, _, _, e⟩ := h.core c
    obtain ⟨x, y, z, e'⟩ := k.core c
    exact ⟨x, y, z, by rw [e', e]⟩

theorem updDie {d : Nat} {f : Die → Die} (hf : ∀ k, ∃ x y, f k = { k with tlb := x, tlbBig := y }) (s : State) :
    OnlyTranslationsFilled s (s.updDie d f) := by
  refine ⟨rfl, fun e => ?_, fun _ => ⟨_, _, _, rfl⟩⟩
  by_cases h : e = d
  · subst h
    rw [State.die_updDie_same]
    exact hf _
  · rw [State.die_updDie_other s f h]
    exact ⟨_, _, rfl⟩

theorem updCore {c : Nat} {f : CoreState → CoreState}
    (hf : ∀ k, ∃ x y z, f k = { k with tlb := x, copyTlb := y, attnTlb := z }) (s : State) :
    OnlyTranslationsFilled s (s.updCore c f) := by
  refine ⟨rfl, fun _ => ⟨_, _, rfl⟩, fun e => ?_⟩
  by_cases h : e = c
  · subst h
    rw [State.core_updCore_same]
    exact hf _
  · rw [State.core_updCore_other s f h]
    exact ⟨_, _, _, rfl⟩

theorem mem (h : OnlyTranslationsFilled s t) : t.mem = s.mem := (congrArg State.mem h.rest :)

theorem curCore (h : OnlyTranslationsFilled s t) : t.curCore = s.curCore := (congrArg State.curCore h.rest :)

theorem nt (h : OnlyTranslationsFilled s t) (c : Nat) : (t.core c).body.nt = (s.core c).body.nt := by
  obtain ⟨_, _, _, e⟩ := h.core c
  rw [e]

theorem pendingOf (h : OnlyTranslationsFilled s t) (c : Nat) : Machine.pendingOf t c = Machine.pendingOf s c := by
  obtain ⟨_, _, _, e⟩ := h.core c
  have hi : t.inflight = s.inflight := (congrArg State.inflight h.rest :)
  rw [Machine.pendingOf, Machine.pendingOf, hi, e]

end OnlyTranslationsFilled

theorem Die.tlbFill_eq (e : TlbEnt) (d : Die) : ∃ x y, d.tlbFill e = { d with tlb := x, tlbBig := y } := by
  unfold Die.tlbFill
  split <;> exact ⟨_, _, rfl⟩

theorem leafOf_fills {s t : State} {who : TlbOf} {asid : Nat} {secure : Bool} {va : Nat} {l : Leaf}
    (h : leafOf s who asid secure va = .ok (l, t)) : OnlyTranslationsFilled s t := by
  unfold leafOf at h
  extract_lets near at h
  split at h
  · cases h
    exact .refl s
  · next fill _ _ _ =>
    have fills (e : TlbEnt) (u : State) : OnlyTranslationsFilled u (fill e u) := by
      dsimp only [fill]
      split
      · exact .updCore (fun _ => ⟨_, _, _, rfl⟩) u
      · exact .updCore (fun _ => ⟨_, _, _, rfl⟩) u
      · exact .updCore (fun _ => ⟨_, _, _, rfl⟩) u
      · exact .refl u
    split at h
    · cases h
      exact fills _ s
    · split at h
      · cases h
      · cases h
        exact (OnlyTranslationsFilled.updDie (Die.tlbFill_eq _) s).trans (fills _ _)

theorem translate_fills {s t : State} {who : TlbOf} {asid : Nat} {secure : Bool} {k : AccKind} {va : DWord} {pa : Nat}
    {l : Leaf} (h : translate s who asid secure k va = .ok (pa, l, t)) : OnlyTranslationsFilled s t := by
  unfold translate at h
  split at h
  · cases h
  · obtain ⟨⟨_, _⟩, hl, h⟩ := bind_eq_ok h
    obtain ⟨_, _, h⟩ := bind_eq_ok h
    cases h
    exact leafOf_fills hl

theorem xlateAll_fills (s : State) (who : TlbOf) (asid : Nat) (secure : Bool) (k : AccKind) (rs : List Req) :
    OnlyTranslationsFilled s (xlateAll s who asid secure k rs).2.2 := by
  induction rs generalizing s with
  | nil => exact .refl s
  | cons r t ih =>
    rw [xlateAll]
    split
    · exact ih s
    · next h => exact (translate_fills h).trans (ih _)

/-- The checks of an access to global memory change nothing but the translations held. -/
theorem globalCheck_fills {s t : State} {k : AccKind} {reads align : Bool} {rs : List Req} {gs : List Got}
    (h : globalCheck s k reads align rs = .ok (gs, t)) : OnlyTranslationsFilled s t := by
  -- The answer has come through three checks before the translation and four after it.
  obtain ⟨_, -, h⟩ := bind_eq_ok h
  obtain ⟨_, -, h⟩ := bind_eq_ok h
  obtain ⟨_, -, h⟩ := bind_eq_ok h
  obtain ⟨_, -, h⟩ := bind_eq_ok h
  obtain ⟨_, -, h⟩ := bind_eq_ok h
  obtain ⟨_, -, h⟩ := bind_eq_ok h
  obtain ⟨_, -, h⟩ := bind_eq_ok h
  cases h
  exact xlateAll_fills _ _ _ _ _ _

/-! ### Plain loads (R266) -/

/-- No quarantine of another core and no output of its own: nothing holds a load back. -/
theorem loadWaits_of_no_output {s : State} {g : Got} (hq : quarantined s s.curCore g.pa = false)
    (hp : pendingOf s s.curCore = []) : loadWaits s g = false := by
  simp [loadWaits, warpPending, hq, hp]

/-- One request past the checks and past L1, with no output of the core: its bytes are memory's, and its race is the one that
memory's records show. -/
theorem readAllReqs_single {s : State} {g : Got} (a : Acc) (hc : g.leaf.cache ≠ 0) (hp : pendingOf s s.curCore = [])
    (hn : (s.core s.curCore).body.nt = []) :
    (readAllReqs s a [g]).1 = [(s.mem.readN g.pa g.req.n, raceOf s a g none true)] := by
  have hcache : (g.leaf.cache == 0) = false := beq_false_of_ne hc
  simp [readAllReqs, hcache, viewLoad_of_no_output hp hn]

/-- A plain load of one request whose bytes are read with no race delivers them. -/
theorem loadGlobal_single {s s1 : State} {r : Req} {g : Got} {align : Bool} {bs : List Byte}
    (hg : globalCheck s .read true align [r] = .ok ([g], s1)) (hw : loadWaits s g = false)
    (hr : (readAllReqs s1 ⟨s.who, s.instant, false, none⟩ [g]).1 = [(bs, none)]) :
    ∃ t, loadGlobal s none align [r] = .ok ([bs], t) := by
  unfold loadGlobal
  rw [bind_ok_eq hg]
  simp only [List.any_cons, List.any_nil, hw, Bool.or_self, hr]
  exact ⟨_, rfl⟩

theorem loadReadsLatestWrite : Clause.LoadReadsLatestWrite := by
  refine ⟨?_, ?_⟩
  · intro s va n g s1 hg hlen hq hc hp hn hrace
    have fill := globalCheck_fills hg
    refine loadGlobal_single hg (loadWaits_of_no_output hq hp) ?_
    rw [readAllReqs_single _ hc (by rw [fill.curCore, fill.pendingOf, hp]) (by rw [fill.curCore, fill.nt, hn]), hrace, fill.mem,
      hlen]
  · intro s core blk warp o p bs a hp hk hn hl
    exact viewWord_of_store hp hk hn hl blk warp

/-- Settles O24: each size by its bytes, and a load by what is left of its view when the core has no output or one store. -/
theorem loadedValues : Obligations.LoadedValues := ⟨sizesExtend, loadReadsLatestWrite⟩

end Sys2Proof.Machine
end

section
/-!
PROOFS. A step that issues an instruction (R134, R135, R287, R467), and the words that a clause holds (R14, R20, R118).
-/

namespace Sys2Proof.Machine

/-! ### One step of the agenda -/

theorem cameAbout_next (s t : State) : cameAbout (.next t) s = .next t := rfl

theorem cameAbout_notEnabled (n : String) (s : State) : cameAbout (.refused (.notEnabled n)) s = .next s := rfl

theorem step_of_event {s : State} {i : Instr} {rest : List Turn} (h : s.agenda = .event i :: rest) :
    step s = cameAbout (exec i { s with agenda := rest }) { s with agenda := rest } := by
  unfold step stepOnce
  rw [h]
  rfl

namespace Fetches
variable {s t : State} {c : Cursor} {w : DWord}

/-- What issue does with the word that has been fetched. -/
theorem step_eq (h : Fetches s c w t) :
    step s = if tooFar t then .next t.waits else
      (decode w).elim (handed t (.next (raiseTrap (t.trapReq Kind.illegal t.members) t)))
        fun i => handed (fetchStreams t) (exec i (fetchStreams t)) := by
  obtain ⟨rest, hagenda, rfl, hword, hruns, hsaved, hflushing⟩ := h
  unfold step stepOnce
  rw [hagenda]
  simp only [runTurn, issue, hsaved, hflushing, hruns, hword, Bool.not_true, Bool.false_eq_true, or_self, if_false,
    Option.bind_some]
  cases decode w <;> rfl

theorem step_of_tooFar (h : Fetches s c w t) (hfar : tooFar t = true) : step s = .next t.waits := by
  rw [h.step_eq, if_pos hfar]

theorem step_of_decode_some (h : Fetches s c w t) (hfar : tooFar t = false) {i : Instr} (hi : decode w = some i) :
    step s = handed (fetchStreams t) (exec i (fetchStreams t)) := by
  rw [h.step_eq, hfar, hi]
  rfl

theorem step_of_decode_none (h : Fetches s c w t) (hfar : tooFar t = false) (hi : decode w = none) :
    step s = handed t (.next (raiseTrap (t.trapReq Kind.illegal t.members) t)) := by
  rw [h.step_eq, hfar, hi]
  rfl

end Fetches

/-! ### Shadow warps (R467) -/

theorem AMap.modify_congr {α : Type} {m : AMap α} {k : Nat} {f g : α → α}
    (h : ∀ a, AMap.get? m k = some a → f a = g a) :
    AMap.modify m k f = AMap.modify m k g := by
  induction m with
  | nil => rfl
  | cons p m ih =>
    obtain ⟨j, a⟩ := p
    by_cases e : j = k
    · rw [AMap.modify, AMap.modify, if_pos e, if_pos e, h a (by rw [AMap.get?, if_pos e])]
    · rw [AMap.modify, AMap.modify, if_neg e, if_neg e, ih fun b hb => h b (by rw [AMap.get?, if_neg e, hb])]

/-- A change to a warp depends on what it does to that warp alone. -/
theorem State.updWarpOf_congr {s : State} {u wn : Nat} {f g : Warp → Warp} (h : f (s.warpOf u wn) = g (s.warpOf u wn)) :
    s.updWarpOf u wn f = s.updWarpOf u wn g := by
  have hwarps (b : Block) (hb : AMap.get? s.blocks u = some b) : Block.updWarp wn f b = Block.updWarp wn g b := by
    rw [Block.updWarp, Block.updWarp, AMap.modify_congr fun w hw => ?_]
    have hw' : s.warpOf u wn = w := by rw [State.warpOf, State.block_of hb, AMap.getD_of _ hw]
    rwa [hw'] at h
  rw [State.updWarpOf, State.updWarpOf, State.updBlock, State.updBlock, AMap.modify_congr hwarps]

/-- An instruction goes to the shadow as one record at the end of the warp's queue, or not at all. -/
theorem handOver_eq_or_append (s t : State) :
    handOver s t = t ∨ ∃ r, handOver s t =
      t.updWarpOf s.cur.blk s.cur.warp fun x => { x with shadow := x.shadow ++ [r] } := by
  unfold handOver
  split
  · split
    · next w _ _ =>
      exact .inr ⟨⟨s.instant, w, s.members, s.curWarp.reg, wroteRegs s.curWarp.reg (t.warpOf s.cur.blk s.cur.warp).reg⟩,
        State.updWarpOf_congr rfl⟩
    · exact .inl rfl
  · exact .inl rfl

theorem handOver_of_unpaired {s : State} (h : s.curLaunch.hdr.paired = false) (t : State) : handOver s t = t := by
  unfold handOver
  split
  · simp [h]
  · rfl

theorem handed_of_unpaired {s : State} (h : s.curLaunch.hdr.paired = false) (o : Host.Outcome State Fault Refusal) :
    handed s o = o := by
  cases o with
  | next t => rw [handed, handOver_of_unpaired h]
  | fault | refused => rfl

theorem tooFar_of_unpaired {s : State} (h : s.curLaunch.hdr.paired = false) : tooFar s = false := by
  simp [tooFar, h]

/-! ### Streams (R287) -/

theorem State.get?_blocks_updReg_other (f : Regs → Regs) {s : State} {u : Nat} (h : u ≠ s.cur.blk) :
    AMap.get? (s.updReg f).blocks u = AMap.get? s.blocks u :=
  AMap.get?_modify_other s.blocks _ h

/-- Fetching ahead changes nothing, or the registers of the issuing warp by one free choice. -/
theorem fetchStreams_eq_or_updReg (t : State) :
    fetchStreams t = t ∨ ∃ f, fetchStreams t = { t.updReg f with freeCtr := t.freeCtr + 1 } := by
  unfold fetchStreams
  dsimp only
  split
  · exact .inl rfl
  · exact .inr ⟨_, rfl⟩

theorem fetchStreams_ahead (t : State) : Ahead t (fetchStreams t) := by
  obtain e | ⟨f, e⟩ := fetchStreams_eq_or_updReg t <;> rw [e]
  · exact ⟨rfl, rfl, rfl, rfl, rfl, fun _ _ => rfl⟩
  · exact ⟨rfl, rfl, rfl, rfl, rfl, fun _ hu => State.get?_blocks_updReg_other f hu⟩

/-- A stream is due only where it is bound, not exhausted and has nothing ahead. -/
theorem fetchStreams_of_none_due {t : State}
    (h : ∀ n x, t.curWarp.reg.z[(n : Fin 8)] = some x → x.exhausted = true ∨ x.ahead ≠ []) : fetchStreams t = t := by
  unfold fetchStreams
  refine if_pos ?_
  rw [Bool.not_eq_true', Vector.any_eq_false]
  intro n hn
  rw [Bool.not_eq_true, Option.any_eq_false]
  intro x hx
  simpa only [Bool.not_eq_true, Bool.and_eq_false_iff, Bool.not_eq_false', List.isEmpty_eq_false_iff] using h ⟨n, hn⟩ x hx

theorem stepRunsInstruction : Clause.StepRunsInstruction := by
  refine ⟨?decoded, fetchStreams_ahead, fun _ => fetchStreams_of_none_due, ?unpaired, ?paired, ?far, ?event, ?refused⟩
  case decoded => exact fun s c w t i h hfar hi => h.step_of_decode_some hfar hi
  case unpaired => exact fun t o h => ⟨handed_of_unpaired h o, tooFar_of_unpaired h⟩
  case paired =>
    intro t u
    simpa only [handed, Host.Outcome.next.injEq] using handOver_eq_or_append t u
  case far => exact fun s c w t h hfar => h.step_of_tooFar hfar
  case event =>
    intro s i rest t hagenda hnext
    rw [step_of_event hagenda, hnext, cameAbout_next]
  case refused =>
    intro s i rest n hagenda hrefused
    rw [step_of_event hagenda, hrefused, cameAbout_notEnabled]

theorem undecodedWordFaults : Clause.UndecodedWordFaults := by
  refine ⟨?_, fun s c w t h hfar hi => h.step_of_decode_none hfar hi⟩
  intro s c w t h hfar hpaired hi
  rw [h.step_of_decode_none hfar hi, handed_of_unpaired hpaired]
  rfl

/-! ### The words of a clause (R14, R20, R118) -/

theorem fetchWord_eq_ok {s t : State} {core off : Nat} {la : Launch} {w : DWord}
    (h : fetchWord s core la off = .ok (w, t)) : ∃ pa l,
      translate s (.core core) la.desc.asid la.desc.world .fetch (codeVa la off) = .ok (pa, l, t) ∧ w = w64 (read8 s pa) := by
  unfold fetchWord at h
  obtain ⟨⟨pa, l, s1⟩, htranslate, h⟩ := bind_eq_ok h
  dsimp only at h
  split at h
  · cases h
  · obtain ⟨rfl, rfl⟩ := Prod.mk.inj (Except.ok.inj h)
    exact ⟨pa, l, htranslate, rfl⟩

/-- The words of a clause are the one at its offset, within the code, and those of the clause that goes on behind it. -/
theorem fetchClause_succ_eq_ok {s t : State} {core off n : Nat} {la : Launch} {ws : List DWord}
    (h : fetchClause s core la off (n + 1) = .ok (ws, t)) : ∃ w rest s1, ws = w :: rest ∧ off + 8 ≤ la.hdr.codeSize ∧
      fetchWord s core la off = .ok (w, s1) ∧ fetchClause s1 core la (off + 8) n = .ok (rest, t) := by
  rw [fetchClause] at h
  split at h
  · cases h
  · next hsize =>
    split at h
    · cases h
    · next w s1 hword =>
      split at h
      · cases h
      · next rest s2 hrest =>
        cases h
        exact ⟨w, rest, s1, rfl, Nat.le_of_not_lt hsize, hword, hrest⟩

theorem fetchClause_length {s t : State} {core off n : Nat} {la : Launch} {ws : List DWord}
    (h : fetchClause s core la off n = .ok (ws, t)) : ws.length = n := by
  induction n generalizing s off ws with
  | zero => cases h; rfl
  | succ n ih =>
    obtain ⟨w, rest, s1, rfl, -, -, hrest⟩ := fetchClause_succ_eq_ok h
    rw [List.length_cons, ih hrest]

theorem fetchClause_cons_eq_ok {s t : State} {core off n : Nat} {la : Launch} {w : DWord} {rest : List DWord}
    (h : fetchClause s core la off n = .ok (w :: rest, t)) : off + 8 ≤ la.hdr.codeSize ∧ ∃ s1,
      fetchWord s core la off = .ok (w, s1) ∧ fetchClause s1 core la (off + 8) (n - 1) = .ok (rest, t) := by
  cases n with
  | zero => cases h
  | succ n =>
    obtain ⟨_, _, s1, hws, hsize, hword, hrest⟩ := fetchClause_succ_eq_ok h
    cases hws
    exact ⟨hsize, s1, hword, hrest⟩

/-- A fetch of one word is the fetch of that word. -/
theorem fetchClause_one_eq_ok {s t : State} {core off : Nat} {la : Launch} {ws : List DWord}
    (h : fetchClause s core la off 1 = .ok (ws, t)) : ∃ w, ws = [w] ∧ fetchWord s core la off = .ok (w, t) := by
  obtain ⟨w, rest, s1, rfl, -, hword, hrest⟩ := fetchClause_succ_eq_ok h
  cases hrest
  exact ⟨w, rfl, hword⟩

/-- A clause that starts has a header in its format and, behind it, as many words of its class as the header counts. -/
theorem startClause_eq_ok {s t : State} {u hdr : Nat} {h : DWord} {ws : List DWord}
    (hstart : startClause s u hdr = .ok h ws t) :
    headerOk h = true ∧ ws.all (admits (hdrClass h)) = true ∧ ∃ s1,
      fetchWord s (s.block u).place.coreNo (s.launch (s.block u).launch) hdr = .ok (h, s1) ∧
      fetchClause s1 (s.block u).place.coreNo (s.launch (s.block u).launch) (hdr + 8) (hdrCount h) = .ok (ws, t) := by
  unfold startClause at hstart
  dsimp only at hstart
  split at hstart
  · cases hstart
  · next hs s1 hheader =>
    obtain ⟨h', rfl, hword⟩ := fetchClause_one_eq_ok hheader
    rw [List.head?_cons, Option.getD_some] at hstart
    split at hstart
    · cases hstart
    · next hok =>
      split at hstart
      · cases hstart
      · next hwords =>
        split at hstart
        · next hadmits =>
          cases hstart
          exact ⟨by simpa using hok, hadmits, s1, hword, hwords⟩
        · cases hstart

/-- A live split at the start of a clause, and not outside its serial region, holds the words of the clause once it starts. -/
theorem startSplit_of_startClause {c : Cursor} {s t : State} {h : DWord} {ws : List DWord} (p : Fin 2)
    (hblock : (AMap.get? s.blocks c.blk).isSome = true)
    (hlive : (s.splitOf c).lanes &&& (s.warpOf c.blk c.warp).lane.live ≠ 0) (hidx : (s.splitOf c).idx = 0)
    (hstray : strayed (s.warpOf c.blk c.warp) (s.splitOf c) = 0)
    (hstart : startClause s c.blk (s.splitOf c).hdr = .ok h ws t) :
    startSplit c p s = takePort c p h ws (headerAcquires c h t) := by
  have hgone : ¬ ((AMap.get? s.blocks c.blk).isNone ∨ (s.splitOf c).lanes &&& (s.warpOf c.blk c.warp).lane.live = 0) := by
    simp only [hlive, or_false, Option.isNone_iff_eq_none]
    exact Option.isSome_iff_ne_none.mp hblock
  unfold startSplit
  extract_lets w sp m
  rw [if_neg hgone]
  simp [sp, w, hidx, hstray, hstart]

theorem clausesHoldTheirWords : Clause.ClausesHoldTheirWords := by
  refine ⟨fun s core la off w t => fetchWord_eq_ok, fun s core la off n ws t h => ?_,
    fun s u hdr h ws t => startClause_eq_ok, fun c p s h ws t => startSplit_of_startClause p⟩
  refine ⟨fetchClause_length h, ?_⟩
  rintro w rest rfl
  exact fetchClause_cons_eq_ok h

/-- Settles O5: by what issue does with the word fetched, and by what a fetch that succeeds has read. -/
theorem stepRunsDecodedInstruction : Obligations.StepRunsDecodedInstruction :=
  ⟨stepRunsInstruction, undecodedWordFaults, clausesHoldTheirWords⟩

end Sys2Proof.Machine
end

section
/-!
PROOFS. The number formats: scaled blocks and their strict fault (R42, R44, R215 to R217), NSTAT and the system registers (R34,
R164, R165), and what reset and block start leave.
-/

namespace Sys2Proof.Machine

section
variable {g : Guard} {s : State} {r : Reading}

/-! ### QBLK (R215, R216) -/

theorem nbits_low_byte (x : Nat) : nbits x 0 8 = x % 256 := by
  rw [nbits, pow_zero, Nat.div_one]; rfl

/-- The scale byte of the block that the lanes `m` supply: the automatic one, or that of the control word. -/
def qblkScale (fmt : BFmt) (m : Mask) (r : Reading) : Nat :=
  if (uval m (r.w 2)).getLsbD 8 then autoScale fmt (qblkElems m (r.w 0) (r.w 1)) else (uval m (r.w 2)).toNat % 256

/-- The block that the lanes `m` supply, encoded, with the events of all its elements. -/
def qblkEncoded (fmt : BFmt) (rm : Rm) (m : Mask) (r : Reading) : List Nat × Flags :=
  encBlock fmt rm (qblkScale fmt m r) (qblkElems m (r.w 0) (r.w 1))

/-- What QBLK writes. -/
def qblkPut (d : Dst) (fmt : BFmt) (rm : Rm) (m : Mask) (r : Reading) : Put :=
  putOf d m (tab fun l => qblkLane fmt (qblkScale fmt m r) (qblkEncoded fmt rm m r).1 l.val)

theorem execQblk_of_ready {d : Dst} {a b c : Src} {fmt : BFmt} {rm : Rm}
    (h : Ready g (opsOf d.op [srcF a, srcF b, srcU c]) [srcF a, srcF b, srcU c] [qblkPut d fmt rm (s.active g) r] s r) :
    execQblk g d a b c fmt rm s = .next (advance
      (onActive g s (setFlags (qblkEncoded fmt rm (s.active g) r).2) (written r [qblkPut d fmt rm (s.active g) r] s))) := by
  unfold execQblk
  dsimp only
  rw [bind_ok_eq h.issue, bind_ok_eq h.sources, nbits_low_byte]
  exact congrArg (finish · s) (bind_ok_eq (commit_ok h.dests) _)

/-! ### DQBLK (R217) -/

/-- The upper halves of the words read, which are one uniform operand. -/
def dqblkUpper (r : Reading) : Lanes Word := tab fun l => ((r.w 0)[l]) >>> 16

/-- The block that the lanes `m` supply, decoded under the header of the upper halves, and whether it is malformed. -/
def dqblkBlock (m : Mask) (r : Reading) : List FVal × Bool :=
  let h := (uval m (dqblkUpper r)).toNat
  let c8 := decide (h % 256 / 16 = 1)
  decodeBlock c8 (h % 256) (h / 256) (dqblkBody m c8 (r.w 0))

/-- DQBLK delivers the decoded block when its operand can be read and its header is uniform. -/
theorem execDqblk_of_sources {d : Dst} {a : Src} {hi : Bool} {rm : Rm} {strict : Bool}
    (hissue : checkIssue g (opsOf d.op [srcI a]) false s = .ok ()) (hread : readAll g [srcI a] s = .ok r)
    (huniform : perLane a.op = true → uniformOn (s.active g) (dqblkUpper r) = true) :
    execDqblk g d a hi rm strict s = finish (deliverBlock s (s.active g) d r hi strict rm (dqblkBlock (s.active g) r).1
      (dqblkBlock (s.active g) r).2) s := by
  have hmixed : (perLane a.op && !uniformOn (s.active g) (dqblkUpper r)) = false := by
    rw [Bool.and_eq_false_imp]
    intro hlane
    rw [huniform hlane, Bool.not_true]
  have hpass : trapIf s Kind.nonUniform
      (if perLane a.op && !uniformOn (s.active g) (dqblkUpper r) then s.active g else 0) = .ok () := by
    rw [hmixed, if_neg Bool.false_ne_true, trapIf_zero]
  unfold execDqblk
  dsimp only
  rw [bind_ok_eq hissue, bind_ok_eq hread]
  exact congrArg (finish · s) (bind_ok_eq hpass _)

/-- What DQBLK writes of a decoded block. -/
def dqblkPut (d : Dst) (m : Mask) (hi : Bool) (rm : Rm) (es : List FVal) : Put :=
  putOf d m (tab fun l => (elemF32 rm es (2 * l.val + hi.toNat)).1)

/-- A block that is well formed, not strict, or for no lane is delivered. -/
theorem deliverBlock_of_destCheck {d : Dst} {hi strict bad : Bool} {rm : Rm} {es : List FVal}
    (hdests : destCheck r [dqblkPut d (s.active g) hi rm es] s = .ok ())
    (hformat : bad = true → strict = true → s.active g = 0) :
    deliverBlock s (s.active g) d r hi strict rm es bad = .ok (onActive g s
      (setFlags ((flagsOn (s.active g) fun l => (elemF32 rm es (2 * l.val + hi.toNat)).2).or { fmterr := bad }))
      (written r [dqblkPut d (s.active g) hi rm es] s)) := by
  have hpass : (if bad && strict then s.active g else 0) = 0 := by
    split
    · next hbad => exact hformat (Bool.and_eq_true_iff.mp hbad).1 (Bool.and_eq_true_iff.mp hbad).2
    · rfl
  unfold deliverBlock
  simp only [tab_get]
  rw [hpass, bind_ok_eq (trapIf_zero s _)]
  exact bind_ok_eq (commit_ok hdests) _

/-- R42, R217: a malformed strict block faults in the active lanes. -/
theorem deliverBlock_of_strict {d : Dst} {hi : Bool} {rm : Rm} {es : List FVal} (hactive : s.active g ≠ 0) :
    deliverBlock s (s.active g) d r hi true rm es true = .error (.trap (s.trapReq Kind.blockFormat (s.active g))) := by
  unfold deliverBlock
  rw [Bool.and_true, if_pos rfl, trapIf_some hactive]
  rfl

end

theorem scaledBlocksComplete : Clause.ScaledBlocksComplete := by
  refine ⟨fun g d a b c fmt rm s r => execQblk_of_ready, ?_⟩
  intro g d a hi rm strict s r up h c8 blk v puts ev hready huniform hformat
  have hoffset : (if hi then 1 else 0) = hi.toNat := by cases hi <;> rfl
  have hputs : puts = [dqblkPut d (s.active g) hi rm blk.1] := by
    simp only [puts, v, dqblkPut, tab_get, hoffset]
  have hev : ev = (flagsOn (s.active g) fun l => (elemF32 rm blk.1 (2 * l.val + hi.toNat)).2).or { fmterr := blk.2 } := by
    simp only [ev, v, tab_get, hoffset]
  rw [hputs] at hready ⊢
  rw [hev]
  calc exec (.dqblk g d a hi rm strict) s
    _ = finish (deliverBlock s (s.active g) d r hi strict rm blk.1 blk.2) s :=
      execDqblk_of_sources hready.issue hready.sources huniform
    _ = _ := by rw [deliverBlock_of_destCheck hready.dests hformat, finish_ok]

theorem strictBlockFaults : Clause.StrictBlockFaults := by
  intro g d a hi rm s r up h c8 hissue hread huniform hbad hactive
  change (dqblkBlock (s.active g) r).2 = true at hbad
  calc exec (.dqblk g d a hi rm true) s
    _ = finish (deliverBlock s (s.active g) d r hi true rm _ (dqblkBlock (s.active g) r).2) s :=
      execDqblk_of_sources hissue hread huniform
    _ = _ := by rw [hbad, deliverBlock_of_strict hactive, finish_trap]; rfl

/-- Settles O18: by what the encoded block gives the lanes, and by how a decoded block is delivered. -/
theorem scaledBlocks : Obligations.ScaledBlocks := ⟨scaledBlocksComplete, strictBlockFaults⟩

/-! ### NSTAT (R34) -/

/-- A digit of a number written out from its binary digits, the lowest first. -/
theorem testBit_foldr_bit (l : List Bool) (i : Nat) : (l.foldr Nat.bit 0).testBit i = l[i]?.getD false := by
  induction l generalizing i with
  | nil => simp
  | cons b l ih =>
    cases i with
    | zero => simp
    | succ i => simp [Nat.testBit_bit_succ, ih]

/-- The events in the order of their bits in NSTAT (R34). -/
def Flags.events (f : Flags) : List Bool :=
  [f.invalid, f.divzero, f.overflow, f.underflow, f.inexact, f.sat, f.fmterr]

theorem Flags.bits_eq_foldr (f : Flags) : f.bits = f.events.foldr Nat.bit 0 := by
  simp only [Flags.bits, Flags.events, List.foldr_cons, List.foldr_nil, Nat.bit_val]
  ring

theorem Flags.getLsbD_bits (f : Flags) (i : Nat) : (w32 f.bits).getLsbD i = f.events[i]?.getD false := by
  rw [w32, BitVec.getLsbD_ofNat, Flags.bits_eq_foldr, testBit_foldr_bit]
  by_cases hi : i < 32
  · rw [decide_eq_true hi, Bool.true_and]
  · have hlength : f.events.length = 7 := rfl
    rw [List.getElem?_eq_none (by omega), Option.getD_none, Bool.and_false]

/-! ### RDSR, WRSR and REGISTER_WRITE (R164, R165) -/

section
variable {g : Guard} {s : State} {r : Reading}

/-- What RDSR writes: the register, or its low and its high word. -/
def rdsrPuts (d : Operand) (n : Nat) (wide : Bool) (m : Mask) (s : State) : List Put :=
  let lo : Put := ⟨d, 0, m, tab fun l => lo32 (regValue s n l)⟩
  let hi : Put := ⟨nextReg d 1, 0, m, tab fun l => hi32 (regValue s n l)⟩
  if wide then [lo, hi] else [lo]

theorem execRdsr_of_ready {d : Operand} {num : BitVec 12} {wide : Bool}
    (h : Ready g [d] [] (rdsrPuts d num.toNat wide (s.active g) s) s r) (hknown : knownReg num.toNat = true)
    (hwide : wide = true → wideReg num.toNat = true) :
    execRdsr g d num wide s = .next (advance (written r (rdsrPuts d num.toNat wide (s.active g) s) s)) := by
  have hlegal : (knownReg num.toNat && (!wide || wideReg num.toNat)) = true := by
    cases wide with
    | false => rw [hknown]; rfl
    | true => rw [hknown, hwide rfl]; rfl
  unfold execRdsr
  dsimp only
  rw [bind_ok_eq h.issue, if_pos hlegal, bind_ok_eq (trapIf_zero s _), bind_ok_eq h.sources]
  exact congrArg (finish · s) (commit_ok h.dests)

theorem execRdsr_illegal {d : Operand} {num : BitVec 12} {wide : Bool} (hissue : checkIssue g [d] false s = .ok ())
    (hmembers : s.members ≠ 0) (hunknown : (knownReg num.toNat && (!wide || wideReg num.toNat)) = false) :
    execRdsr g d num wide s = .next (raiseTrap (s.trapReq Kind.illegal s.members) s) := by
  unfold execRdsr
  dsimp only
  rw [bind_ok_eq hissue, hunknown, if_neg Bool.false_ne_true, trapIf_some hmembers]
  rfl

theorem execWrsr_of_ready {a : Operand} {num : BitVec 12} (h : Ready g [a] [opU a] [] s r)
    (hwritable : writableReg num.toNat = true) (hwaits : s.active g ≠ 0 → writeWaits num.toNat s = false) :
    execWrsr g a num s =
      .next (advance (onActive g s (writeReg num.toNat (uval (s.active g) (r.w 0))) (written r [] s))) := by
  unfold execWrsr onActive
  dsimp only
  rw [bind_ok_eq h.issue, if_pos hwritable, bind_ok_eq (trapIf_zero s _), bind_ok_eq h.sources, commit_ok h.dests]
  split
  · rw [finish_ok]
  · next hactive =>
    rw [hwaits hactive, bind_ok_eq stallIf_false]
    rfl

theorem execWrsr_illegal {a : Operand} {num : BitVec 12} (hissue : checkIssue g [a] false s = .ok ())
    (hmembers : s.members ≠ 0) (hreadonly : writableReg num.toNat = false) :
    execWrsr g a num s = .next (raiseTrap (s.trapReq Kind.illegal s.members) s) := by
  unfold execWrsr
  dsimp only
  rw [bind_ok_eq hissue, hreadonly, if_neg Bool.false_ne_true, trapIf_some hmembers]
  rfl

end

theorem lo32_setWidth (v : Word) : lo32 (v.setWidth 64) = v := by
  rw [lo32, ← BitVec.setWidth_eq_extractLsb' (by decide), BitVec.setWidth_setWidth_of_le v (by decide), BitVec.setWidth_eq]

theorem writeReg_of_other_world {s : State} {n : Nat} (v : Word) (hsecure : secureWrite n = true)
    (hworld : s.curLaunch.desc.world = false) : writeReg n v s = s := by
  rw [writeReg, hsecure, hworld]
  rfl

/-- A write that its world does not stop. -/
theorem writeReg_of_allowed {s : State} {n : Nat} (v : Word) (h : (secureWrite n && !s.curLaunch.desc.world) = false) :
    writeReg n v s =
      if n = 0x010 then s.updReg fun r => { r with nstat := r.nstat &&& ~~~ v }
      else if n = 0x108 then s.updEng s.cur.blk (writeTmiss v)
      else if n = 0x103 then emit s.curLaunch.lagers s.curCore (s.outItem (.fshare v) none none 0) s
      else writeDieReg s.curBlock.place.die n (v.setWidth 64) s := by
  rw [writeReg, h]
  rfl

theorem writeReg_nstat (v : Word) (s : State) :
    writeReg 0x010 v s = s.updReg fun r => { r with nstat := r.nstat &&& ~~~ v } := writeReg_of_allowed v rfl

theorem writeReg_tmiss (v : Word) (s : State) : writeReg 0x108 v s = s.updEng s.cur.blk (writeTmiss v) :=
  writeReg_of_allowed v rfl

/-- NSTAT takes a write at once. -/
theorem writeWaits_nstat (s : State) : writeWaits 0x010 s = false := rfl

section
variable {s : State} (hworld : s.curLaunch.desc.world = true)
include hworld

/-- The secure world may write every register. -/
theorem secureWrite_allowed_of_secure_world (n : Nat) : (secureWrite n && !s.curLaunch.desc.world) = false := by
  rw [hworld, Bool.not_true, Bool.and_false]

theorem writeReg_fshareHi (v : Word) :
    writeReg 0x103 v s = emit s.curLaunch.lagers s.curCore (s.outItem (.fshare v) none none 0) s :=
  writeReg_of_allowed v (secureWrite_allowed_of_secure_world hworld _)

theorem writeReg_overflowPool (v : Word) : writeReg 0x106 v s = addOverflow s.curBlock.place.die v s := by
  rw [writeReg_of_allowed v (secureWrite_allowed_of_secure_world hworld _)]
  change addOverflow _ (lo32 (v.setWidth 64)) s = _
  rw [lo32_setWidth]

theorem writeReg_fqresp (v : Word) :
    writeReg 0x168 v s = answerFault s.curBlock.place.die (nbits v.toNat 0 6) (nbits v.toNat 8 2) s := by
  rw [writeReg_of_allowed v (secureWrite_allowed_of_secure_world hworld _)]
  change answerFault _ (nbits (v.setWidth 64).toNat 0 6) (nbits (v.setWidth 64).toNat 8 2) s = _
  rw [BitVec.toNat_setWidth_of_le (by decide)]

end

theorem regValue_of_other_world {s : State} {n : Nat} (l : Fin 32) (hsecure : secureRead n = true)
    (hworld : s.curLaunch.desc.world = false) : regValue s n l = 0 := by
  rw [regValue, hsecure, hworld]
  rfl

theorem storedReg_iff (n : Nat) : storedReg n = true ↔
    writableReg n = true ∧ n ≠ 0x010 ∧ n ≠ 0x103 ∧ n ≠ 0x106 ∧ n ≠ 0x108 ∧ n ≠ 0x168 := by
  simp [storedReg]

theorem execRegisterWrite_of_stored {num : BitVec 12} (die : Fin 4) (secure : Bool) (v : DWord) (s : State)
    (h : storedReg num.toNat = true) : execRegisterWrite die num secure v s =
      .next (if secureWrite num.toNat && !secure then s else writeDieReg die.val num.toNat v s) := by
  rw [execRegisterWrite, h]
  rfl

theorem execRegisterWrite_of_not_stored {num : BitVec 12} (die : Fin 4) (secure : Bool) (v : DWord) (s : State)
    (h : storedReg num.toNat = false) : execRegisterWrite die num secure v s = .refused (.notEnabled "REGISTER_WRITE") := by
  rw [execRegisterWrite, h]
  rfl

theorem numericStatus : Clause.NumericStatus := by
  refine ⟨fun f i => ?events, fun g a s r hready hactive => ?clears⟩
  case events =>
    rw [Flags.getLsbD_bits]
    match i with
    | 0 | 1 | 2 | 3 | 4 | 5 | 6 | _ + 7 => rfl
  case clears =>
    refine ⟨_, execWrsr_of_ready hready rfl fun _ => writeWaits_nstat s, ?_⟩
    rw [onActive, if_neg hactive]
    exact congrArg advance (writeReg_nstat _ _)

theorem systemRegistersComplete : Clause.SystemRegistersComplete := by
  refine ⟨?rdsr, ?rdsrIllegal, ?wrsr, ?wrsrIllegal, ?otherRead, ?otherWrite, ?stored, ?notStored, storedReg_iff, ?actions⟩
  case rdsr => exact fun g d num wide s r => execRdsr_of_ready
  case rdsrIllegal => exact fun g d num wide s => execRdsr_illegal
  case wrsr => exact fun g a num s r => execWrsr_of_ready
  case wrsrIllegal => exact fun g a num s => execWrsr_illegal
  case otherRead => exact fun s n l => regValue_of_other_world l
  case otherWrite => exact fun s n v => writeReg_of_other_world v
  case stored => exact fun die num secure v s => execRegisterWrite_of_stored die secure v s
  case notStored => exact fun die num secure v s => execRegisterWrite_of_not_stored die secure v s
  case actions =>
    exact fun v s => ⟨writeReg_nstat v s, writeReg_tmiss v s, fun hworld =>
      ⟨writeReg_fshareHi hworld v, writeReg_overflowPool hworld v, writeReg_fqresp hworld v⟩⟩

/-- Settles O22: by the digits of the events, and by what a read and a write of each kind of register come to. -/
theorem statusAndSystemRegisters : Obligations.StatusAndSystemRegisters := ⟨numericStatus, systemRegistersComplete⟩

/-! ### Reset (R34, R56, R58, R66, R92, R111, R456, R469, R485) -/

theorem ctx_reset (c : Nat) : State.reset.ctx c = Context.reset := rfl

theorem die_reset (d : Nat) : State.reset.die d = Die.reset := rfl

theorem Context.queues_reset (q : Fin 8) : Context.reset.queues[q] = Queue.reset := by simp [Context.reset]

theorem Context.tls_reset (t : Fin 16) : Context.reset.tls[t] = { value := 0, irqAt := 0xFFFFFFFFFFFFFFFF#64 } := by
  simp [Context.reset]

theorem Context.gangs_reset (k : Fin 4) : Context.reset.gangs[k] = Gang.reset := by simp [Context.reset]

theorem resetState : Clause.ResetState := by
  refine ⟨rfl, rfl, rfl, rfl, rfl, ctx_reset, fun q => ?queue, fun t => ?timeline, fun k => ?gang, fun d => ?die⟩
  case queue => rw [Context.queues_reset]; exact ⟨rfl, rfl⟩
  case timeline => rw [Context.tls_reset]; exact ⟨rfl, rfl⟩
  case gang => rw [Context.gangs_reset]; exact ⟨rfl, rfl⟩
  case die => rw [die_reset]; exact ⟨rfl, rfl, rfl, rfl, rfl, rfl⟩

/-! ### Block start (R34, R145, R156, R171, R286, R325) -/

theorem Regs.p_reset (i : Fin 7) : Regs.reset.p[i] = 0xFFFFFFFF#32 := by simp [Regs.reset]

theorem Regs.x_reset (i : Fin 8) (l : Fin 32) : (Regs.reset.x[i])[l] = { base := 0, limit := 0, cursor := 0 } := by
  simp [Regs.reset]

theorem Regs.z_reset (i : Fin 8) : Regs.reset.z[i] = none := by simp [Regs.reset]

theorem Regs.k_reset (i : Fin 8) : Regs.reset.k[i] = 0 := by simp [Regs.reset]

theorem Regs.ren_reset (row : Fin 4) (i : Fin 16) : (Regs.reset.ren[row])[i] = none := by simp [Regs.reset]

theorem LaneState.pcs_start (m : Mask) (l : Fin 32) : (LaneState.start m).pcs[l] = { hdr := 0, idx := 0 } := by
  simp [LaneState.start]

theorem blockStartRegisters : Clause.BlockStartRegisters := fun m =>
  ⟨rfl, Regs.p_reset, Regs.x_reset, fun i => ⟨Regs.z_reset i, Regs.k_reset i⟩, rfl, Regs.ren_reset, rfl, rfl, rfl,
    LaneState.pcs_start m⟩

/-- Settles O7: field by field, every register of a file at the one value that the file is filled with. -/
theorem resetAndBlockStart : Obligations.ResetAndBlockStart := ⟨resetState, blockStartRegisters⟩

end Sys2Proof.Machine
end

section
/-!
PROOFS. The command processor: the heads of queues and the ends of launches (R59 to R67, R83, R481, R482).
-/

namespace Sys2Proof.Machine

/-! ### Steps that may refuse or wait -/

theorem bind_error_eq {ε α β : Type} {x : Except ε α} {e : ε} (h : x = .error e) (f : α → Except ε β) :
    (x >>= f) = .error e := by
  rw [h]; rfl

theorem roomy_some {α : Type} (pa : Nat) (a : α) : roomy pa (some a) = .ok a := rfl

theorem launchStep_some (name : String) (la : Launch) (t s : State) : launchStep name la (some t) s = .next t := rfl

theorem State.launch_of {s : State} {u : Nat} {la : Launch} (h : AMap.get? s.launches u = some la) : s.launch u = la :=
  AMap.getD_of _ h

/-! ### The head of a queue (R59, R60, R62) -/

section
variable {d kind c q st : Nat} {e : Entry} {s t u : State} {r : Refuse}
  {start : Nat → Nat → Word → Entry → State → Except Refuse State}

theorem startEntry_of_ok (name : String) (hhead : firstHead s d = some (c, q, .start e t)) (hkind : e.kind = kind)
    (hstart : start c q ((t.ctx c).queues[q]?.getD Queue.reset).head e t = .ok u) :
    startEntry d kind name start s = .next (headMoves c q u) := by
  simp [startEntry, hhead, hkind, hstart]

/-- A refusal that waits for no page halts the queue, and the die's turn passes. -/
theorem startEntry_of_error (name : String) (hhead : firstHead s d = some (c, q, .start e t)) (hkind : e.kind = kind)
    (hstart : start c q ((t.ctx c).queues[q]?.getD Queue.reset).head e t = .error r) (hwait : r.wait = none) :
    startEntry d kind name start s =
      .next ((haltEarly c q r.status (noteRefuse c r t)).updDie d fun x => { x with rrCtx := c % 16 }) := by
  simp [startEntry, hhead, hkind, hstart, hwait]

theorem startEntry_of_halt (name : String) (hhead : firstHead s d = some (c, q, .halt st kind t)) :
    startEntry d kind name start s = .next (haltEarly c q st t) := by
  simp [startEntry, hhead]

end

/-! ### The entries (R61, R63, R64, R66) -/

section
variable {die : Fin 4} {c q : Nat} {e : Entry} {s t u : State} {r : Refuse}

theorem execEntryNop_of_starts (hhead : firstHead s die.val = some (c, q, .start e t)) (hkind : e.kind = 0) :
    execEntryNop die s = .next (headMoves c q t) :=
  startEntry_of_ok _ hhead hkind rfl

theorem execEntryNop_of_halt {st : Nat} (hhead : firstHead s die.val = some (c, q, .halt st 0 t)) :
    execEntryNop die s = .next (haltEarly c q st t) :=
  startEntry_of_halt _ hhead

theorem execEntryWait_of_starts (hhead : firstHead s die.val = some (c, q, .start e t)) (hkind : e.kind = 3) :
    execEntryWait die s = .next (headMoves c q t) :=
  startEntry_of_ok _ hhead hkind rfl

theorem execEntrySignal_of_starts (hhead : firstHead s die.val = some (c, q, .start e t)) (hkind : e.kind = 4) :
    execEntrySignal die s = .next (headMoves c q (raiseTimeline c e.tl e.value t)) :=
  startEntry_of_ok _ hhead hkind rfl

theorem execEntryLaunch_of_accepted {p : Passed} (hhead : firstHead s die.val = some (c, q, .start e t)) (hkind : e.kind = 1)
    (hcheck : checkLaunch t c e.addr = .ok p)
    (haccept : acceptLaunch c (.queue c q ((t.ctx c).queues[q]?.getD Queue.reset).head) p = some u) :
    execEntryLaunch die s = .next (headMoves c q u) := by
  refine startEntry_of_ok _ hhead hkind ?_
  rw [bind_ok_eq hcheck, haccept, roomy_some]

theorem execEntryLaunch_of_refused (hhead : firstHead s die.val = some (c, q, .start e t)) (hkind : e.kind = 1)
    (hcheck : checkLaunch t c e.addr = .error r) (hwait : r.wait = none) :
    execEntryLaunch die s =
      .next ((haltEarly c q r.status (noteRefuse c r t)).updDie die.val fun x => { x with rrCtx := c % 16 }) :=
  startEntry_of_error _ hhead hkind (bind_error_eq hcheck _) hwait

theorem execSkip_eq (ctx : Fin 64) (i : Fin 8) (s : State) : execSkip ctx i s =
    .next (s.updCtx ctx.val fun x => { x with queues := vmod x.queues i.val fun y => if y.halted then { y with
      head := if y.late then y.head else y.head + 1
      halted := false, late := false, status := 0, failAt := 0, fnode := 0xFFFF } else y }) := by
  simp only [execSkip, skipQueue, Bool.not_eq_true', ← Bool.not_eq_true, ite_not]

end

theorem queueEntriesStart : Clause.QueueEntriesStart := by
  refine ⟨?nop, ?wait, ?signal, ?launch, ?launchRefused, ?graph, ?graphRefused, ?malformed, ?doorbell, ?skip, ?control,
    ?timeline⟩
  case nop => exact fun die s c q e t => execEntryNop_of_starts
  case wait => exact fun die s c q e t => execEntryWait_of_starts
  case signal => exact fun die s c q e t => execEntrySignal_of_starts
  case launch => exact fun die s c q e t p hhead hkind hcheck u => execEntryLaunch_of_accepted hhead hkind hcheck
  case launchRefused => exact fun die s c q e t r => execEntryLaunch_of_refused
  case graph => exact fun die s c q e t u => startEntry_of_ok _
  case graphRefused => exact fun die s c q e t r => startEntry_of_error _
  case malformed => exact fun die s c q st t => execEntryNop_of_halt
  case doorbell => exact fun ctx q tail s => rfl
  case skip => exact execSkip_eq
  case control => exact fun ctx secure v s => rfl
  case timeline => exact fun ctx n v s => rfl

/-! ### The end of a launch (R65, R67, R83, R481, R482) -/

section
variable {uid : Nat} {s : State} {la : Launch} (hlaunch : AMap.get? s.launches uid = some la)
include hlaunch

theorem execLaunchCompletion_of_retired {x : State} (hending : la.ending = none) (hwaiting : la.waiting = [])
    (hblocks : s.blocks.any (fun p => p.2.launch == uid) = false) (houtput : outputLeft s uid = false)
    (hdisarm : disarm uid s = some x) :
    execLaunchCompletion uid s = .next (sourceDone la.source (raiseTimeline la.ctx la.desc.doneTl la.desc.doneValue
      { leaveGang la (dropPlanes uid x) with launches := AMap.erase (leaveGang la (dropPlanes uid x)).launches uid })) := by
  have hready : ((AMap.get? s.launches uid).isNone || la.ending.isSome || !la.waiting.isEmpty ||
      s.blocks.any (fun p => p.2.launch == uid) || outputLeft s uid) = false := by
    rw [hlaunch, hending, hwaiting, hblocks, houtput]; rfl
  unfold execLaunchCompletion
  rw [State.launch_of hlaunch, hdisarm]
  dsimp only
  rw [hready, if_neg Bool.false_ne_true, Option.map_some, launchStep_some]

theorem execLaunchFailure_of_ending {st : Nat} (hending : la.ending = some st) (hfails : st ≠ Status.ok) :
    let t := bbFailed la.die st la.desc.asid { s with launches := AMap.erase s.launches uid }
    execLaunchFailure uid s = .next (match la.source with
      | .queue c q e => haltLate c q e 0xFFFF st t
      | .node d gr n => endNode d gr n (some st) [] t) := by
  intro t
  unfold execLaunchFailure
  rw [State.launch_of hlaunch]
  dsimp only
  rw [hending]
  dsimp only
  exact if_neg hfails

theorem execLaunchReplay_of_restored {t m : State} (hending : la.ending = some Status.ok)
    (hinflight : s.inflight.any (fun o => (AMap.get? s.blocks o.blk).isNone) = false)
    (hrestore : restoreFrames la.frames s = some t)
    (hmark : markCow true la.ptes { t with snapPool := t.snapPool ++ la.frames.map fun f => (f.2.1, f.2.2) } = some m) :
    execLaunchReplay uid s = .next ((bbWrite la.die (bbEnt 0x0D 0 la.desc.asid 0 0 0) m).updLaunch uid fun x => { x with
      frames := [], ending := none, replays := x.replays + 1, popped := 0, phases := [], retired := [], asked := []
      flushed := [], waiting := List.range x.desc.nClusters }) := by
  have hready : ¬ (la.ending ≠ some Status.ok ∨ (AMap.get? s.launches uid).isNone ∨
      s.inflight.any (fun o => (AMap.get? s.blocks o.blk).isNone)) := by
    simp [hending, hlaunch, hinflight]
  unfold execLaunchReplay
  rw [State.launch_of hlaunch]
  dsimp only
  rw [if_neg hready, hrestore, Option.bind_some, hmark, Option.map_some, launchStep_some]

end

theorem launchesEnd : Clause.LaunchesEnd := by
  refine ⟨?completion, ?failure, ?replay⟩
  case completion => exact fun uid s la x hlaunch => execLaunchCompletion_of_retired hlaunch
  case failure => exact fun uid s la st hlaunch => execLaunchFailure_of_ending hlaunch
  case replay => exact fun uid s la t m hlaunch => execLaunchReplay_of_restored hlaunch

/-- Settles O53: each kind of entry by what its start answers, and each end of a launch by its condition. -/
theorem queuesAndLaunches : Obligations.QueuesAndLaunches := ⟨queueEntriesStart, launchesEnd⟩

end Sys2Proof.Machine
end

section
/-!
PROOFS. The nodes of resident graphs: what each type does when it runs, verdicts and budgets, and the end of a failed graph
(R69 to R79, R449).
-/

namespace Sys2Proof.Machine

/-! ### A node that may run (R72, R74) -/

/-- Node `i` of the resident graph `gr` of a die is of a type, and the graph has not failed. -/
structure MayRun (s : State) (d gr i type : Nat) (g : Graph) (n : Node) : Prop where
  graph : s.graph? d gr = some g
  node : g.node? i = some n
  unfailed : g.failed = none
  type : n.type = type

theorem readyNode_of_mayRun {s t : State} {d gr i type : Nat} {g : Graph} {n : Node} {f : Graph → Node → Option State}
    (name : String) (h : MayRun s d gr i type g n) (hstep : f g n = some t) : readyNode d gr i type name s f = .next t := by
  simp [readyNode, h.graph, h.node, h.unfailed, h.type, hstep]

section
variable {die : Fin 4} {gr node : Nat} {s : State} {g : Graph} {n : Node}

/-! ### KERNEL (R69, R70) -/

theorem execKernelNode_of_accepted {p : Passed} {t : State} (h : MayRun s die.val gr node 0 g n) (hready : n.st = .ready)
    (hroom : launchesOn s die.val < 64) (hcheck : checkLaunch s g.ctx n.arg0 = .ok p)
    (haccept : acceptLaunch g.ctx (.node die.val gr node) { p with st := nodeRuns die.val gr node p.st } = some t) :
    execKernelNode die gr node s = .next t := by
  refine readyNode_of_mayRun _ h ?_
  rw [if_neg (by simp [hready, hroom]), hcheck]
  dsimp only
  rw [haccept, Option.some_or]

theorem execKernelNode_of_refused {r : Refuse} (h : MayRun s die.val gr node 0 g n) (hready : n.st = .ready)
    (hroom : launchesOn s die.val < 64) (hcheck : checkLaunch s g.ctx n.arg0 = .error r) (hwait : r.wait = none) :
    execKernelNode die gr node s = .next (endNode die.val gr node (some r.status) [] (noteRefuse g.ctx r s)) := by
  refine readyNode_of_mayRun _ h ?_
  rw [if_neg (by simp [hready, hroom]), hcheck]
  dsimp only
  rw [hwait]

/-! ### COPY (R75) -/

/-- The request of a COPY node goes to the one free engine, whatever the free choice. -/
theorem execCopyNode_of_request {bs : List Byte} {t : State} {core : Nat} (h : MayRun s die.val gr node 1 g n)
    (hready : n.st = .ready) (hengine : freeEngines s.free.2 die.val = [core])
    (hread : walkRead g.ctx n.arg0.toNat 32 s.free.2 = .ok (bs, t))
    (hop : (CopyF.of bs).op = 0 ∨ (CopyF.of bs).op = 4 ∨ (CopyF.of bs).op = 8) (hsource : (CopyF.of bs).ssp = 0)
    (hdest : (CopyF.of bs).dsp = 0) (hplan : (copyPlan default [] (CopyF.of bs)).isSome = true) :
    execCopyNode die gr node s = .next (nodeRuns die.val gr node ({ t with uidCtr := t.uidCtr + 1 }.updBody core fun x =>
      { x with copies := x.copies ++
        [newOp t.uidCtr default { owner := .node gr node, off := n.arg0.toNat, num := 0, n := 1, grow := none } bs] })) := by
  refine readyNode_of_mayRun _ h ?_
  have hchosen : [core][s.free.1 % max 1 [core].length]? = some core := by simp [Nat.mod_one]
  have hgood : (!((CopyF.of bs).op == 0 || (CopyF.of bs).op == 4 || (CopyF.of bs).op == 8) || (CopyF.of bs).ssp != 0 ||
      (CopyF.of bs).dsp != 0 || (copyPlan default [] (CopyF.of bs)).isNone) = false := by
    rw [Option.isSome_iff_exists] at hplan
    obtain ⟨p, hp⟩ := hplan
    simpa [hsource, hdest, hp] using fun h0 h4 => by omega
  dsimp only
  rw [if_neg (by simp [hready]), hengine, hchosen]
  dsimp only
  rw [hread]
  dsimp only
  rw [hgood, if_neg Bool.false_ne_true]

/-! ### COND and WHILE (R72) -/

theorem execCondNode_of_read {bs : List Byte} {t : State} (h : MayRun s die.val gr node 2 g n) (hready : n.st = .ready)
    (hread : walkRead g.ctx n.arg0.toNat 4 s = .ok (bs, t)) :
    execCondNode die gr node s = .next (endNode die.val gr node none [if leNat bs = 0 then 1 else 0] t) := by
  refine readyNode_of_mayRun _ h ?_
  rw [if_neg (by simp [hready]), hread]

theorem execWhileNode_of_read {bs : List Byte} {t : State} (h : MayRun s die.val gr node 3 g n)
    (hdue : n.st = .ready ∨ n.st = .running ∧ g.bodyOver node n = true)
    (hread : walkRead g.ctx n.arg0.toNat 4 s = .ok (bs, t)) :
    execWhileNode die gr node s = .next (if leNat bs = 0 then endNode die.val gr node none [] t
      else if n.limit ≠ 0 ∧ n.limit ≤ n.iters then endNode die.val gr node (some Status.loopLimit) [] t
      else t.updGraph die.val gr (Graph.iterate node n.aux)) := by
  refine readyNode_of_mayRun _ h ?_
  have hdue' : (n.st == .ready || (n.st == .running && g.bodyOver node n)) = true := by simpa using hdue
  rw [hdue', if_neg (by simp), hread]
  dsimp only
  simp only [Nat.lt_succ_iff, apply_ite some]

/-! ### WAITMSG (R76) -/

theorem execWaitmsgNode_of_ready (h : MayRun s die.val gr node 4 g n) (hready : n.st = .ready)
    (halone : mailWaited s die.val gr node n.aux = false) :
    execWaitmsgNode die gr node s = .next (nodeRuns die.val gr node s) := by
  refine readyNode_of_mayRun _ h ?_
  rw [if_pos hready, halone, if_neg Bool.false_ne_true]

theorem execWaitmsgNode_of_messages {t : State} (h : MayRun s die.val gr node 4 g n) (hrunning : n.st = .running)
    (hthere : n.limit ≤ (AMap.getD (s.die die.val).mail n.aux []).length)
    (hwrites : walkWrites g.ctx (((AMap.getD (s.die die.val).mail n.aux []).take n.limit).zipIdx.map fun m =>
      (n.arg0.toNat + 256 * m.2, m.1.data)) s = .ok t) :
    execWaitmsgNode die gr node s = .next (endNode die.val gr node none [] (t.updDie die.val fun x =>
      { x with mail := AMap.set x.mail n.aux ((AMap.getD (s.die die.val).mail n.aux []).drop n.limit) })) := by
  refine readyNode_of_mayRun _ h ?_
  rw [if_neg (by simp [hrunning]), if_pos hrunning]
  dsimp only
  rw [if_neg hthere.not_gt, hwrites]

/-! ### SIGNAL (R66, R69) -/

theorem execSignalNode_of_ready (h : MayRun s die.val gr node 5 g n) (hready : n.st = .ready) :
    execSignalNode die gr node s = .next (endNode die.val gr node none []
      (if nbit n.aux 0 then addTimeline g.ctx n.tl n.arg0 s else raiseTimeline g.ctx n.tl n.arg0 s)) := by
  refine readyNode_of_mayRun _ h ?_
  rw [if_neg (by simp [hready])]

/-! ### CALLBACK (R77, R79) -/

theorem execCallbackNode_of_read {bs : List Byte} {t u : State} (h : MayRun s die.val gr node 6 g n) (hready : n.st = .ready)
    (hread : walkRead g.ctx n.arg0.toNat 32 s = .ok (bs, t)) (halign : n.arg0.toNat % 32 = 0) (hform : (CallF.of bs).ok = true)
    (hredraw : redrawOk g node (CallF.of bs) = true)
    (hunknown : applyVerdict die.val gr node bs .fault 2 t (setCall die.val gr node [] (nodeRuns die.val gr node t)) = some u) :
    execCallbackNode die gr node s = .next (if predKnown t (CallF.of bs).pred
      then setCall die.val gr node [.node gr node bs] (nodeRuns die.val gr node t) else u) := by
  refine readyNode_of_mayRun _ h ?_
  rw [if_neg (by simp [hready]), hread]
  dsimp only
  rw [if_neg (by simp [halign, hform, hredraw])]
  cases predKnown t (CallF.of bs).pred with
  | false => exact hunknown
  | true => rfl

end

/-! ### Verdicts and budgets (R78, R79, R449) -/

section
variable {s : State} {rest : List Call}

theorem launch_popCall (d u : Nat) (s : State) : (popCall d s).launch u = s.launch u := rfl

theorem budgetOver_node {d gr i : Nat} {desc : List Byte} (hcalls : (s.die d).calls = .node gr i desc :: rest) :
    budgetOver s d = decide ((s.die d).callAt + 1024 * (CallF.of desc).budget ≤ s.now) := by
  rw [budgetOver, hcalls]

theorem budgetOver_post {d u off ctr pred budget : Nat} {num : DWord}
    (hcalls : (s.die d).calls = .post u off ctr num pred budget :: rest) :
    budgetOver s d = decide ((s.die d).callAt + 1024 * budget ≤ s.now) := by
  rw [budgetOver, hcalls]

theorem endCallback_of_applied {d gr i cause : Nat} {desc : List Byte} {v : Verdict} {t : State} (name : String)
    (hcalls : (s.die d).calls = .node gr i desc :: rest) (happly : applyVerdict d gr i desc v cause s (popCall d s) = some t) :
    endCallback d v cause name s = .next t := by
  simp [endCallback, hcalls, happly]

theorem execCallbackVerdict_in_time {die : Fin 4} {v : Verdict} {gr i : Nat} {desc : List Byte} {t : State}
    (hcalls : (s.die die.val).calls = .node gr i desc :: rest)
    (htime : s.now < (s.die die.val).callAt + 1024 * (CallF.of desc).budget)
    (happly : applyVerdict die.val gr i desc v (causeOf v) s (popCall die.val s) = some t) :
    execCallbackVerdict die v s = .next t := by
  rw [execCallbackVerdict, budgetOver_node hcalls, if_neg (by simp [htime]), endCallback_of_applied _ hcalls happly]

theorem execCallbackVerdict_of_budgetOver {die : Fin 4} (v : Verdict) (hover : budgetOver s die.val = true) :
    execCallbackVerdict die v s = .refused (.notEnabled "CALLBACK_VERDICT") := by
  rw [execCallbackVerdict, if_pos hover]

theorem execPredicateBudgetOverrun_of_applied {die : Fin 4} {gr i : Nat} {desc : List Byte} {t : State}
    (hcalls : (s.die die.val).calls = .node gr i desc :: rest) (hover : budgetOver s die.val = true)
    (happly : applyVerdict die.val gr i desc .fault 1 s (popCall die.val s) = some t) :
    execPredicateBudgetOverrun die s = .next t := by
  simp only [execPredicateBudgetOverrun, hover, hcalls, Bool.not_true, Bool.false_eq_true, if_false,
    endCallback_of_applied _ hcalls happly]

/-- The word of a post whose predicate answers in its time reaches the block's buffer; 1, with an entry, where nobody registered
the predicate. -/
theorem execPostVerdict_in_time {die : Fin 4} {w : Word} {u off ctr pred budget : Nat} {num : DWord}
    (hcalls : (s.die die.val).calls = .post u off ctr num pred budget :: rest)
    (htime : s.now < (s.die die.val).callAt + 1024 * budget) (hplain : plainVerdict (.word w) = true)
    (hplaced : (s.block u).state ≠ .saved) :
    execPostVerdict die (.word w) s = .next (deliverTo u
      { id := 0, blk := u, num, srcDie := 6, world := false, addr := 0, doff := off, ctr
        data := toLe 4 (if predKnown s pred then w else 1).toNat, agent := engAgent (s.block u) 4 num }
      (if predKnown s pred then popCall die.val s
       else noteStop die.val (s.launch (s.block u).launch).desc.asid (engAgent (s.block u) 4 num) (.word w) 2
        (popCall die.val s))) := by
  rw [execPostVerdict, budgetOver_post hcalls, if_neg (by simp [htime]), endPost, hcalls]
  dsimp only
  rw [if_neg hplaced, hplain, Bool.true_and, launch_popCall]
  cases predKnown s pred with
  | false => simp only [Bool.false_eq_true, if_false]
  | true => simp only [if_true]

end

/-! ### The end of a failed graph (R74) -/

theorem execGraphFailure_of_quiet {die : Fin 4} {gr node status : Nat} {s : State} {g : Graph}
    (hgraph : s.graph? die.val gr = some g) (hfailed : g.failed = some (node, status))
    (hquiet : (g.nodes.any fun p => p.2.st == .running) = false) :
    execGraphFailure die gr s = .next (haltLate g.ctx g.queue g.entry node status (bbFailed die.val status
      ((s.updDie die.val fun x => { x with graphs := AMap.erase x.graphs gr }).ctx g.ctx).asid.toNat
      (s.updDie die.val fun x => { x with graphs := AMap.erase x.graphs gr }))) := by
  simp [execGraphFailure, hgraph, hfailed, hquiet]

/-- Settles O54: each type of node by what its step gives once the node may run. -/
theorem graphNodesRun : Obligations.GraphNodesRun := by
  refine ⟨?kernel, ?kernelRefused, ?copy, ?cond, ?whileLoop, ?waitmsgWaits, ?waitmsgTakes, ?signal, ?callback, ?verdict, ?post,
    ?overrun, ?failure⟩
  case kernel =>
    exact fun die gr node s g n p hg hn hf htype hready hroom hcheck t haccept =>
      execKernelNode_of_accepted ⟨hg, hn, hf, htype⟩ hready hroom hcheck haccept
  case kernelRefused =>
    exact fun die gr node s g n r hg hn hf htype => execKernelNode_of_refused ⟨hg, hn, hf, htype⟩
  case copy =>
    exact fun die gr node s g n bs t core hg hn hf htype => execCopyNode_of_request ⟨hg, hn, hf, htype⟩
  case cond => exact fun die gr node s g n bs t hg hn hf htype => execCondNode_of_read ⟨hg, hn, hf, htype⟩
  case whileLoop => exact fun die gr node s g n bs t hg hn hf htype => execWhileNode_of_read ⟨hg, hn, hf, htype⟩
  case waitmsgWaits => exact fun die gr node s g n hg hn hf htype => execWaitmsgNode_of_ready ⟨hg, hn, hf, htype⟩
  case waitmsgTakes =>
    exact fun die gr node s g n t hg hn hf htype => execWaitmsgNode_of_messages ⟨hg, hn, hf, htype⟩
  case signal => exact fun die gr node s g n hg hn hf htype => execSignalNode_of_ready ⟨hg, hn, hf, htype⟩
  case callback =>
    exact fun die gr node s g n bs t hg hn hf htype hready hread halign hform hredraw u =>
      execCallbackNode_of_read ⟨hg, hn, hf, htype⟩ hready hread halign hform hredraw
  case verdict => exact fun die v s gr i desc rest t => execCallbackVerdict_in_time
  case post => exact fun die w s u off ctr num pred budget rest => execPostVerdict_in_time
  case overrun =>
    intro die s gr i desc rest t hcalls htime happly
    have hover : budgetOver s die.val = true := by rw [budgetOver_node hcalls, decide_eq_true htime]
    refine ⟨execPredicateBudgetOverrun_of_applied hcalls hover happly, fun v hnext => ?_⟩
    have hrefused : exec (.callbackVerdict die v) s = .refused (.notEnabled "CALLBACK_VERDICT") :=
      execCallbackVerdict_of_budgetOver v hover
    rw [hrefused] at hnext
    cases hnext
  case failure => exact fun die gr s g node status => execGraphFailure_of_quiet

end Sys2Proof.Machine
end

section
/-!
PROOFS. The checks that every instruction passes at issue (R110, R134, R135, R160, R167, R171, R172).
-/

namespace Sys2Proof.Machine

/-! ### The checks of an instruction, in their order (R134, R135, R160) -/

/-- A direct transfer looks at its target after the encoding and before the state of the lanes (R135). -/
def checkTarget (s : State) : Instr → Except Stop Unit
  | .bra _ t | .call _ _ t => checkDirect s t
  | _ => .ok ()

/-- The checks at issue of any instruction. -/
def issueChecks (i : Instr) (g : Guard) (ops : List Operand) (last : Bool) (s : State) : Except Stop Unit := do
  stallIf (ops.any s.curWarp.awaits)
  checkEncoding g ops last s
  checkTarget s i
  checkState g ops s

/-- What stops the checks of an instruction at issue is all that comes of it. -/
def StopsAtIssue (i : Instr) (g : Guard) (ops : List Operand) (last : Bool) : Prop :=
  ∀ s e, issueChecks i g ops last s = .error e → exec i s = finish (.error e) s

theorem issueChecks_of_no_target {i : Instr} {g : Guard} {ops : List Operand} {last : Bool} {s : State}
    (h : checkTarget s i = .ok ()) : issueChecks i g ops last s = checkIssue g ops last s := by
  rw [issueChecks, checkIssue, h]
  rfl

namespace StopsAtIssue
variable {i : Instr} {g : Guard} {ops : List Operand} {last : Bool}

/-- A meaning that begins with the checks. -/
theorem of_bind {k : State → Unit → Res} (h : ∀ s, exec i s = finish (issueChecks i g ops last s >>= k s) s) :
    StopsAtIssue i g ops last := fun s e he => by
  rw [h, bind_error_eq he]

section
variable (ht : ∀ s, checkTarget s i = .ok ())
include ht

theorem of_checkIssue {k : State → Unit → Res} (h : ∀ s, exec i s = finish (checkIssue g ops last s >>= k s) s) :
    StopsAtIssue i g ops last :=
  of_bind fun s => by rw [issueChecks_of_no_target (ht s), h]

/-- A memory instruction's meaning, whose count comes after the checks (R161). -/
theorem of_memStart {k : State → Mask → Res} (h : ∀ s, exec i s = finish (memStart g ops s >>= k s) s) :
    StopsAtIssue i g ops false := fun s e he => by
  have hm : memStart g ops s = .error e := bind_error_eq ((issueChecks_of_no_target (ht s)).symm.trans he) _
  rw [h, bind_error_eq hm]

/-- BREAK and TRAP, whose trap comes after the checks (R189). -/
theorem of_trapAfter {kind : Nat} {code : BitVec 20} (h : ∀ s, exec i s = trapAfter g kind code s) :
    StopsAtIssue i g [] false := fun s e he => by
  rw [h, trapAfter, ← issueChecks_of_no_target (ht s), he]

end

end StopsAtIssue

/-! ### The instructions that compute -/

section
variable {i : Instr} {o : Compute}

theorem intArith_stopsAtIssue (h : intArith i = some o) : StopsAtIssue i o.g (opsOf o.d.op o.qs) false := by
  unfold intArith at h
  split at h <;> cases h <;> exact .of_checkIssue (fun _ => rfl) fun _ => rfl

theorem intBits_stopsAtIssue (h : intBits i = some o) : StopsAtIssue i o.g (opsOf o.d.op o.qs) false := by
  unfold intBits at h
  split at h <;> cases h <;> exact .of_checkIssue (fun _ => rfl) fun _ => rfl

theorem fp32_stopsAtIssue (h : fp32Compute i = some o) : StopsAtIssue i o.g (opsOf o.d.op o.qs) false := by
  unfold fp32Compute at h
  split at h <;> cases h <;> exact .of_checkIssue (fun _ => rfl) fun _ => rfl

theorem fp64_stopsAtIssue (h : fp64Compute i = some o) : StopsAtIssue i o.g (opsOf o.d.op o.qs) false := by
  unfold fp64Compute at h
  split at h <;> cases h <;> exact .of_checkIssue (fun _ => rfl) fun _ => rfl

theorem packed_stopsAtIssue (h : packedCompute i = some o) : StopsAtIssue i o.g (opsOf o.d.op o.qs) false := by
  cases i
  case cvt dt _ _ _ _ =>
    cases h
    cases dt <;> exact .of_checkIssue (fun _ => rfl) fun _ => rfl
  all_goals cases h
  all_goals exact .of_checkIssue (fun _ => rfl) fun _ => rfl

theorem move_stopsAtIssue (h : moveCompute i = some o) : StopsAtIssue i o.g (opsOf o.d.op o.qs) false := by
  unfold moveCompute at h
  split at h <;> cases h <;> exact .of_checkIssue (fun _ => rfl) fun _ => rfl

theorem lane_stopsAtIssue (h : laneCompute i = some o) : StopsAtIssue i o.g (opsOf o.d.op o.qs) false := by
  unfold laneCompute at h
  split at h <;> cases h <;> exact .of_checkIssue (fun _ => rfl) fun _ => rfl

theorem computes_stopsAtIssue (h : computes i = some o) : StopsAtIssue i o.g (opsOf o.d.op o.qs) false := by
  simp only [computes, Option.or_eq_some_iff] at h
  rcases h with (h | ⟨-, h⟩) | ⟨-, (h | ⟨-, h⟩) | ⟨-, h | ⟨-, h | ⟨-, h⟩⟩⟩⟩
  · exact intArith_stopsAtIssue h
  · exact intBits_stopsAtIssue h
  · exact fp32_stopsAtIssue h
  · exact fp64_stopsAtIssue h
  · exact packed_stopsAtIssue h
  · exact move_stopsAtIssue h
  · exact lane_stopsAtIssue h

end

/-! ### The others -/

theorem bra_stopsAtIssue (g : Guard) (t : Word) : StopsAtIssue (.bra g t) g [] false :=
  .of_bind fun s => by
    simp only [issueChecks, bind_assoc]
    rfl

theorem call_stopsAtIssue (g : Guard) (link : Operand) (t : Word) : StopsAtIssue (.call g link t) g [link] false :=
  .of_bind fun s => by
    simp only [issueChecks, bind_assoc, List.any_cons, List.any_nil, Bool.or_false]
    rfl

theorem otherForm_stopsAtIssue {i : Instr} {g : Guard} {ops : List Operand} {last : Bool}
    (h : otherForm i = some (g, ops, last)) : StopsAtIssue i g ops last := by
  cases i
  case ld | lds | ldc | ldb | ldbq | st | stnt | stb | drainnt | atom | atomc | batom | red | pref | cctl | cctlIl1all |
      stream | strmq | strmend =>
    cases h
    exact .of_memStart (fun _ => rfl) fun _ => rfl
  case bra => cases h; exact bra_stopsAtIssue _ _
  case call => cases h; exact call_stopsAtIssue _ _ _
  case brk | trap =>
    cases h
    exact .of_trapAfter (fun _ => rfl) fun _ => rfl
  case lred op _ | lscan op _ _ =>
    cases h
    cases op <;> exact .of_checkIssue (fun _ => rfl) fun _ => rfl
  case normb kd =>
    cases h
    cases kd <;> exact .of_checkIssue (fun _ => rfl) fun _ => rfl
  case cekick count => cases count <;> cases h <;> exact .of_checkIssue (fun _ => rfl) fun _ => rfl
  case tlwait v => cases v <;> cases h <;> exact .of_checkIssue (fun _ => rfl) fun _ => rfl
  case wlclr row _ => cases row <;> cases h <;> exact .of_checkIssue (fun _ => rfl) fun _ => rfl
  case tlbir asid => cases asid <;> cases h <;> exact .of_checkIssue (fun _ => rfl) fun _ => rfl
  all_goals cases h
  all_goals exact .of_checkIssue (fun _ => rfl) fun _ => rfl

theorem issueForm_stopsAtIssue {i : Instr} {g : Guard} {ops : List Operand} {last : Bool}
    (h : issueForm i = some (g, ops, last)) : StopsAtIssue i g ops last := by
  unfold issueForm at h
  split at h
  · next o ho =>
    cases h
    exact computes_stopsAtIssue ho
  · exact otherForm_stopsAtIssue h

theorem isDeviceStep_or_issueForm (i : Instr) : (isDeviceStep i || (issueForm i).isSome) = true := by
  cases i
  case cekick count => cases count <;> rfl
  case fclass mask => cases mask <;> rfl
  case tlwait v => cases v <;> rfl
  case wlclr row _ => cases row <;> rfl
  case tlbir asid => cases asid <;> rfl
  all_goals rfl

/-! ### Where the checks stop -/

section
variable {i : Instr} {g : Guard} {ops : List Operand} {last : Bool} {s : State}

theorem issueChecks_of_awaits (hawaits : ops.any s.curWarp.awaits = true) : issueChecks i g ops last s = .error .stall :=
  bind_error_eq (by rw [hawaits, stallIf_true]) _

section
variable (hawaits : ops.any s.curWarp.awaits = false)
include hawaits

theorem issueChecks_of_encoding {e : Stop} (hencoding : checkEncoding g ops last s = .error e) :
    issueChecks i g ops last s = .error e := by
  rw [issueChecks, hawaits, bind_ok_eq stallIf_false, bind_error_eq hencoding]

theorem issueChecks_of_state {e : Stop} (hencoding : checkEncoding g ops last s = .ok ())
    (htarget : checkTarget s i = .ok ()) (hstate : checkState g ops s = .error e) :
    issueChecks i g ops last s = .error e := by
  rw [issueChecks, hawaits, bind_ok_eq stallIf_false, bind_ok_eq hencoding, bind_ok_eq htarget, hstate]

end

/-- R110: the trap of an overrun comes before every fault of the instruction. -/
theorem checkEncoding_of_overrun (hoverrun : s.curWarp.overrun = true) (hlanes : s.issuing ≠ 0) :
    checkEncoding g ops last s = .error (.trap (s.trapReq Kind.overrun s.issuing)) :=
  bind_error_eq (by rw [hoverrun, if_pos rfl, trapIf_some hlanes]) _

section
variable (hoverrun : s.curWarp.overrun = false)
include hoverrun

theorem checkEncoding_eq : checkEncoding g ops last s = trapIf s Kind.illegal
    (if ((isPathGuard g || ops.any isMName) && hdrClass s.header != 4) || (last && !s.isLast) then s.members else 0) := by
  rw [checkEncoding, hoverrun, if_neg Bool.false_ne_true, bind_ok_eq (trapIf_zero _ _)]

/-- R134, R135: what has no place in this clause is illegal for every lane of the split. -/
theorem checkEncoding_of_misplaced
    (hplace : (isPathGuard g || ops.any isMName) = true ∧ hdrClass s.header ≠ 4 ∨ last = true ∧ s.isLast = false)
    (hlanes : s.members ≠ 0) : checkEncoding g ops last s = .error (.trap (s.trapReq Kind.illegal s.members)) := by
  have hillegal : (((isPathGuard g || ops.any isMName) && hdrClass s.header != 4) || (last && !s.isLast)) = true := by
    rcases hplace with ⟨hname, hclass⟩ | ⟨hlast, hmore⟩
    · simp [hname, hclass]
    · simp [hlast, hmore]
  rw [checkEncoding_eq hoverrun, if_pos hillegal, trapIf_some hlanes]

theorem checkEncoding_ok (hname : hdrClass s.header = 4 ∨ (isPathGuard g || ops.any isMName) = false)
    (hlast : last = true → s.isLast = true) : checkEncoding g ops last s = .ok () := by
  have hname' : ((isPathGuard g || ops.any isMName) && hdrClass s.header != 4) = false := by
    rcases hname with h | h <;> simp [h]
  have hlast' : (last && !s.isLast) = false := by
    cases last
    · rfl
    · simp [hlast rfl]
  rw [checkEncoding_eq hoverrun, hname', hlast']
  rfl

end

/-- R117: a target that is marked passes. -/
theorem checkDirect_ok {t : Word}
    (h : (decide (0 ≤ directTarget s t) && isHeader s.curLaunch (directTarget s t).toNat) = true) :
    checkDirect s t = .ok () := by
  obtain ⟨hpos, hmark⟩ := Bool.and_eq_true_iff.mp h
  have hgood : ¬ (directTarget s t < 0 ∨ !isHeader s.curLaunch (directTarget s t).toNat) := by
    simp [hmark, of_decide_eq_true hpos]
  rw [checkDirect, if_neg hgood, trapIf_zero]

theorem checkTarget_ok (h : directOk s i = true) : checkTarget s i = .ok () := by
  unfold checkTarget
  split
  · exact checkDirect_ok h
  · exact checkDirect_ok h
  · rfl

/-- The lanes that R172 faults at the first instruction of a clause. -/
def regionFaults (s : State) : Mask :=
  if hdrClass s.header = 4 then
    s.issuing &&& (~~~ s.curWarp.lane.inMeld |||
      (if hdrPtab s.header then ~~~ s.curWarp.lane.table else s.curWarp.lane.table))
  else s.issuing &&& s.curWarp.lane.inMeld

theorem checkState_of_region (hfirst : s.curSplit.idx = 0) (hlanes : regionFaults s ≠ 0) :
    checkState g ops s = .error (.trap (s.trapReq Kind.illegal (regionFaults s))) := by
  refine bind_error_eq ?_ _
  rw [hfirst, ← trapIf_some hlanes]
  rfl

theorem checkState_of_badNames (hlater : s.curSplit.idx ≠ 0) (hlanes : badNames s.curWarp (s.active g) ops ≠ 0) :
    checkState g ops s = .error (.trap (s.trapReq Kind.illegal (badNames s.curWarp (s.active g) ops))) := by
  rw [checkState, if_pos (bne_iff_ne.mpr hlater), bind_ok_eq (trapIf_zero _ _), trapIf_some hlanes]

theorem badNames_eq {w : Warp} {m n : Mask}
    (h : ∀ l : Fin 32, n.getLsbD l.val = (m.getLsbD l.val &&
      ops.any fun o => match o with | .m j => (renameOf w j l).isNone | _ => false)) : badNames w m ops = n :=
  has_ext fun l => (has_maskOf _ l).trans (h l).symm

end

theorem issueFaults : Clause.IssueFaults := by
  refine ⟨?awaits, ?overrun, ?misplaced, ?everyForm⟩
  case awaits =>
    intro i g ops last s hform hawaits
    rw [issueForm_stopsAtIssue hform s _ (issueChecks_of_awaits hawaits), finish_stall]
  case overrun =>
    intro i g ops last s hform hawaits hoverrun hlanes
    rw [issueForm_stopsAtIssue hform s _ (issueChecks_of_encoding hawaits (checkEncoding_of_overrun hoverrun hlanes)),
      finish_trap]
    rfl
  case misplaced =>
    intro i g ops last s hform hawaits hplace hoverrun hlanes
    rw [issueForm_stopsAtIssue hform s _
      (issueChecks_of_encoding hawaits (checkEncoding_of_misplaced hoverrun hplace hlanes)), finish_trap]
    rfl
  case everyForm =>
    intro i hword
    simpa [hword] using isDeviceStep_or_issueForm i

theorem meldClauseFaults : Clause.MeldClauseFaults := by
  refine ⟨?region, ?names⟩
  case region =>
    intro i g ops last s m hform hawaits hfirst hoverrun hname hlast hdirect hlanes hm
    change m = regionFaults s at hm
    subst hm
    rw [issueForm_stopsAtIssue hform s _ (issueChecks_of_state hawaits (checkEncoding_ok hoverrun hname hlast)
      (checkTarget_ok hdirect) (checkState_of_region hfirst hlanes)), finish_trap]
    rfl
  case names =>
    intro i g ops last s m hform hawaits hlater hoverrun hclass hlast hdirect hlanes hm
    have hbad : badNames s.curWarp (s.active g) ops = m := badNames_eq hm
    subst hbad
    rw [issueForm_stopsAtIssue hform s _ (issueChecks_of_state hawaits (checkEncoding_ok hoverrun (.inl hclass) hlast)
      (checkTarget_ok hdirect) (checkState_of_badNames hlater hlanes)), finish_trap]
    rfl

/-- Settles O8: every instruction's meaning begins with its checks, which stop it in the order of R110, R134, R135 and
R160. -/
theorem issueChecksFault : Obligations.IssueChecksFault := ⟨issueFaults, meldClauseFaults⟩

end Sys2Proof.Machine
end

section
/-!
PROOFS. The placer: placement and gangs (R86 to R97), pre-emption (R100 to R110, R460) and in-field tests (R111 to R113).
-/

namespace Sys2Proof.Machine

/-! ### Placement (R86 to R91, R96) -/

section
variable {die : Fin 4} {s : State} {u k : Nat} {l : List Spot}

theorem execPlacement_of_member (hmember : memberSpots s die.val = some (u, l)) :
    execPlacement die s = .next (placeSpots u l s) := by
  simp [execPlacement, hmember]

theorem execPlacement_of_head (hmember : memberSpots s die.val = none) (hhead : headOn s die.val = some (u, k))
    (hturn : turnOn s u die.val = true) (hfits : headSpots s u k = some l) :
    execPlacement die s = .next (placeSpots u l s) := by
  simp [execPlacement, hmember, hhead, hturn, hfits]

end

/-! ### Gangs (R93, R94, R96) -/

section
variable {ctx : Fin 64} {gang : Fin 4} {s : State}

theorem execGangArmed_of_cleared (hstate : (s.gang ctx.val gang.val).state = 1)
    (hclear : strangers s ctx.val gang.val = []) :
    execGangArmed ctx gang s = .next (s.updGang ctx.val gang.val fun x => { x with state := 2 }) := by
  rw [execGangArmed, if_pos ⟨hstate, by rw [hclear]; rfl⟩]

/-- What the members that are admitted together ask for. -/
def memberAsks (s : State) (ms : List (Nat × Launch)) : List (Nat × Ask) :=
  ms.flatMap fun p => p.2.waiting.map fun k => (p.1, waitingAsk s p.1 p.2 k)

/-- The places of one of them. -/
def memberPlaces (asks : List (Nat × Ask)) (l : List Spot) (u : Nat) : List Spot :=
  ((asks.zip l).filter fun a => a.1.1 == u).map Prod.snd

theorem execGangAdmission_of_placed {m : Nat × Launch} {ms : List (Nat × Launch)} {l : List Spot} {rest : List Bay}
    (hstate : (s.gang ctx.val gang.val).state = 2) (hnew : (s.gang ctx.val gang.val).started = false)
    (hall : (s.gang ctx.val gang.val).members ≤ (s.gang ctx.val gang.val).admitted)
    (hmembers : ((membersOf s ctx.val gang.val).filter fun p => p.2.ending.isNone).take (s.gang ctx.val gang.val).members =
      m :: ms)
    (hplaces : placeAll (baysFor s m.2) ((memberAsks s (m :: ms)).map Prod.snd) = some (l, rest)) :
    execGangAdmission ctx gang s = .next (((m :: ms).foldl (fun t p =>
      placeSpots p.1 (memberPlaces (memberAsks s (m :: ms)) l p.1) t) s).updGang ctx.val gang.val fun x =>
        { x with started := true }) := by
  have hready : ¬ ((s.gang ctx.val gang.val).state ≠ 2 ∨ (s.gang ctx.val gang.val).started ∨
      (s.gang ctx.val gang.val).admitted < (s.gang ctx.val gang.val).members) := by
    simp [hstate, hnew, hall]
  unfold memberAsks at hplaces
  unfold execGangAdmission
  dsimp only
  rw [if_neg hready, hmembers]
  dsimp only
  rw [hplaces]
  rfl

end

theorem placementAndGangs : Clause.PlacementAndGangs := by
  refine ⟨?head, ?member, ?armAndRelease, ?armed, ?admission⟩
  case head => exact fun die s u k l => execPlacement_of_head
  case member => exact fun die s u l => execPlacement_of_member
  case armAndRelease => exact fun ctx gang s => ⟨rfl, rfl⟩
  case armed => exact fun ctx gang s => execGangArmed_of_cleared
  case admission =>
    exact fun ctx gang s m ms l rest hstate hnew hall hmembers => execGangAdmission_of_placed hstate hnew hall hmembers

/-- The block as its save finds it: its faults withdrawn, its warps off their ports. -/
def stopBlock (uid : Nat) (s : State) : State :=
  (withdrawFaults uid s).updBlock uid fun b => { b with warps := AMap.mapVals b.warps fun _ w => w.stop }

/-- A stopped block's state goes out, and its work leaves the cores. -/
def saveStopped (uid : Nat) (t : State) : State :=
  let u := writeImage uid (workOf t uid) (drainBlock uid t)
  { u with cores := AMap.mapVals u.cores fun _ k => { k with body := k.body.without uid } }.updBlock uid fun b =>
    { b with state := .saved, past := b.past ++ [(b.place, b.since, u.now)], work := workOf t uid }

/-! ### Requests (R100 to R106) -/

section
variable {uid : Nat} {s : State} {b : Block} (hblock : AMap.get? s.blocks uid = some b)
include hblock

theorem execPreEmptionRequest_of_requested {bound : Nat} {saveOnly : Bool} (hnone : b.preReq = none)
    (hrequested : requested s uid bound saveOnly = true) :
    execPreEmptionRequest uid bound saveOnly s = .next (preempt uid bound saveOnly s) := by
  simp [execPreEmptionRequest, hblock, State.block_of hblock, hnone, hrequested]

theorem execPreEmptionRequest_of_answered {bound : Nat} {saveOnly : Bool} {t : State}
    (hwaits : b.preReq = some { bound, saveOnly }) (hregion : regionOpen s (preGroup s uid) = false)
    (hanswer : answerRequest (preGroup s uid) bound saveOnly s = some t) :
    execPreEmptionRequest uid bound saveOnly s = .next t := by
  simp [execPreEmptionRequest, hblock, State.block_of hblock, hwaits, hregion, hanswer]

/-! ### Save and flush (R107, R108, R460) -/

section
variable (hsaving : b.state = .saving) (hstands : canSave b = true) (hroom : drainFits s uid = true)
include hsaving hstands hroom

/-- What a save that can begin comes to. -/
theorem execSave_of_saving : execSave uid s =
    match saveRace (stopBlock uid s) uid with
    | some (c, q) => .next (raiseAt c q (dropNt (stopBlock uid s) uid c.warp))
    | none => .next (saveStopped uid (stopBlock uid s)) := by
  have hthere : ¬ (AMap.get? s.blocks uid).isNone := by simp [hblock]
  have hunsaved : ¬ b.state = .saved := by simp [hsaving]
  have hready : ¬ (b.state ≠ .saving ∨ !canSave b ∨ !drainFits s uid) := by simp [hsaving, hstands, hroom]
  unfold execSave
  rw [State.block_of hblock]
  dsimp only
  rw [if_neg hthere, if_neg hunsaved, if_neg hready]
  rfl

theorem execSave_of_no_race (hrace : saveRace (stopBlock uid s) uid = none) :
    execSave uid s = .next (saveStopped uid (stopBlock uid s)) := by
  rw [execSave_of_saving hblock hsaving hstands hroom, hrace]

theorem execSave_of_race {c : Cursor} {q : TrapReq} (hrace : saveRace (stopBlock uid s) uid = some (c, q)) :
    execSave uid s = .next (raiseAt c q (dropNt (stopBlock uid s) uid c.warp)) := by
  rw [execSave_of_saving hblock hsaving hstands hroom, hrace]

end

/-- R464: the rest of the image goes on when the lager buffer has room. -/
theorem execSave_of_saved (hsaved : b.state = .saved) (hunsent : b.unsent ≠ [])
    (hroom : lagerRoom s b.place.coreNo 1 = true) : execSave uid s = .next (sendImage uid s) := by
  simp [execSave, hblock, State.block_of hblock, hsaved, hunsent, hroom]

theorem execFlush_of_flushing (hflushing : b.state = .flushing) : execFlush uid s =
    .next (if (s.launch b.launch).hdr.cooperative || (s.launch b.launch).desc.gang
      then ((s.blocks.filter fun p => p.2.launch == b.launch && p.2.state == .flushing).map Prod.fst).foldl
        (fun s u => flushBlock u s) s
      else (discardBlock uid (drainBlock uid s)).updLaunch b.launch fun la => { la with
        waiting := insertNat b.place.lcluster la.waiting, flushed := insertNat b.place.index la.flushed }) := by
  have hready : ¬ ((AMap.get? s.blocks uid).isNone ∨ b.state ≠ .flushing) := by simp [hblock, hflushing]
  unfold execFlush
  rw [State.block_of hblock]
  dsimp only
  rw [if_neg hready]
  split
  · rfl
  · rw [List.foldl_cons, List.foldl_nil, flushBlock, State.block_of hblock]

/-! ### Resume (R90, R101, R109, R113) -/

theorem execResume_of_placed {l : List Spot} (hcan : canResume s (resumeGroup s uid) = true)
    (hfirst : (resumeGroup s uid).any (fun u => higherFits s (s.block u).place.die (prioOf s u)) = false)
    (hspots : resumeSpots s (resumeGroup s uid) = some l) :
    execResume uid s = .next ((l.flatMap Spot.places).foldl (fun s x => resumeBlock x.1 x.2 s) s) := by
  have hready : ((AMap.get? s.blocks uid).isNone || !canResume s (resumeGroup s uid) ||
      (resumeGroup s uid).any fun u => higherFits s (s.block u).place.die (prioOf s u)) = false := by
    rw [hblock, hcan, hfirst]; rfl
  unfold execResume
  dsimp only
  rw [hready, if_neg Bool.false_ne_true, hspots]

end

/-! ### Non-preemptible regions (R110) -/

theorem execNonPreemptibleOverrun_of_late {uid warp : Nat} {s : State} (hregion : (s.warpOf uid warp).noPre = true)
    (hfirst : (s.warpOf uid warp).overrun = false) (hlate : (s.warpOf uid warp).watchAt + 95000 ≤ s.now) :
    execNonPreemptibleOverrun uid warp s = .next (s.updWarpOf uid warp fun w => { w with overrun := true }) := by
  simp [execNonPreemptibleOverrun, hregion, hfirst, hlate]

/-! ### In-field tests (R111 to R113) -/

section
variable {die : Fin 4} {cluster : Fin 12} {s : State}

/-- The test of a cluster as it falls due. -/
def dueTest (s : State) (die cluster : Nat) : TestRun :=
  { cluster, from_ := s.now + deferral s die cluster, begun := false, open_ := false }

section
variable {n : Nat} (hnone : (s.die die.val).tests.find? (fun t => t.cluster == cluster.val) = none)
  (hdue : testDueAt (s.die die.val) cluster.val = some n) (hnow : n ≤ s.now)
include hnone hdue hnow

theorem execInFieldTest_of_deferred (hdefers : 0 < deferral s die.val cluster.val) :
    execInFieldTest die cluster s =
      .next (s.updDie die.val (setTest cluster.val (some (dueTest s die.val cluster.val)))) := by
  simp [execInFieldTest, hnone, hdue, hnow, hdefers, dueTest]

theorem execInFieldTest_of_due {t : State} (hat : deferral s die.val cluster.val = 0)
    (hrun : runTest die.val cluster.val (dueTest s die.val cluster.val) s = some t) :
    execInFieldTest die cluster s = .next t := by
  unfold dueTest at hrun
  simp only [execInFieldTest, hnone, hdue, Option.any_some, hnow, decide_true, if_true, hrun]
  simp [hat]

end

theorem execInFieldTest_of_waiting {r : TestRun} {t : State}
    (hfind : (s.die die.val).tests.find? (fun t => t.cluster == cluster.val) = some r) (hclosed : r.open_ = false)
    (hfrom : r.from_ ≤ s.now) (hrun : runTest die.val cluster.val r s = some t) :
    execInFieldTest die cluster s = .next t := by
  have hgoes : ¬ (r.open_ ∨ s.now < r.from_) := by simp [hclosed, hfrom]
  unfold execInFieldTest
  dsimp only
  rw [hfind]
  dsimp only
  rw [if_neg hgoes, hrun]

theorem execClusterTestPass_of_runs (hruns : testRuns s die.val cluster.val = true) :
    execClusterTestPass die cluster s = .next (endTest die.val cluster.val s) := by
  rw [execClusterTestPass, if_pos hruns]

end

theorem preemptionAndTests : Clause.PreemptionAndTests := by
  refine ⟨?request, ?answer, ?save, ?image, ?flush, ?resume, ?overrun, ?due, ?waiting, ?pass, ?failure⟩
  case request => exact fun uid bound saveOnly s b hblock => execPreEmptionRequest_of_requested hblock
  case answer => exact fun uid bound saveOnly s b t hblock => execPreEmptionRequest_of_answered hblock
  case save =>
    exact fun uid s b hblock hsaving hstands hroom => ⟨execSave_of_no_race hblock hsaving hstands hroom,
      fun c q => execSave_of_race hblock hsaving hstands hroom⟩
  case image => exact fun uid s b hblock => execSave_of_saved hblock
  case flush => exact fun uid s b hblock => execFlush_of_flushing hblock
  case resume => exact fun uid s b l hblock => execResume_of_placed hblock
  case overrun => exact fun uid warp s => execNonPreemptibleOverrun_of_late
  case due =>
    exact fun die cluster s n hnone hdue hnow => ⟨execInFieldTest_of_deferred hnone hdue hnow,
      fun t => execInFieldTest_of_due hnone hdue hnow⟩
  case waiting => exact fun die cluster s r t => execInFieldTest_of_waiting
  case pass => exact fun die cluster s => execClusterTestPass_of_runs
  case failure =>
    intro die cluster s hruns
    have hready : ¬ (!testRuns s die.val cluster.val) = true := by simp [hruns]
    exact if_neg hready

/-- Settles O55: each step of the placer by what it answers where its conditions hold. -/
theorem placementAndPreemption : Obligations.PlacementAndPreemption := ⟨placementAndGangs, preemptionAndTests⟩

end Sys2Proof.Machine
end

section
/-!
PROOFS. The encoding (R123 to R134): what the fields of an encoded word hold, and which words there are.
-/

namespace Sys2Proof

/-! ### Bits of words that are put together -/

section
variable {n m : Nat} (x : BitVec n) (y : BitVec m)

theorem getLsbD_append_of_lt {i : Nat} (h : i < m) : (x ++ y).getLsbD i = y.getLsbD i := by
  rw [BitVec.getLsbD_append, if_pos h]

theorem getLsbD_append_of_le {i : Nat} (h : m ≤ i) : (x ++ y).getLsbD i = x.getLsbD (i - m) := by
  rw [BitVec.getLsbD_append, if_neg (Nat.not_lt.mpr h)]

end

theorem getLsbD_bit1 (b : Bool) : (bit1 b).getLsbD 0 = b := by simp [bit1]

theorem toFin_ofNat_val {k : Nat} (n : Fin (2 ^ k)) : (BitVec.ofNat k n.val).toFin = n := by simp

/-! ### Codes of operands and modifiers (R131, R124, and the entries) -/

theorem Operand.ofCode_code (o : Operand) : Operand.ofCode o.code = some o := by
  cases o with
  | v n =>
    have h : (Operand.v n).code.toNat = n.val := by
      rw [Operand.code, BitVec.toNat_ofNat, Nat.mod_eq_of_lt (by omega)]
    simp [Operand.ofCode, h]
  | s n | w n | x n | z n | p n | k n | lat n | m n | imm n => revert n; decide
  | zero => rfl

/-- R131: the codes 404 to 447 are no operand's. -/
theorem Operand.ofCode_reserved {c : BitVec 9} (hlo : 404 ≤ c.toNat) (hhi : c.toNat ≤ 447) :
    Operand.ofCode c = none := by
  have hge {k : Nat} (hk : k ≤ 404) : ¬ c.toNat < k := by omega
  have hzero : c.toNat ≠ 387 := by omega
  have hlt : c.toNat < 448 := by omega
  simp [Operand.ofCode, hge, hzero, hlt]

theorem Guard.ofCode_code {g : Guard} (h : g.wf = true) : Guard.ofCode g.code = g := by
  cases g with
  | path one => cases one <;> rfl
  | pred neg p => revert h; revert neg p; decide

@[simp] theorem Rm.ofCode_code (m : Rm) : Rm.ofCode m.code = m := by cases m <;> rfl
@[simp] theorem Cmp.ofCode_code (c : Cmp) : Cmp.ofCode c.code = c := by cases c <;> rfl
@[simp] theorem Ty.ofOperand_operand (t : Ty) : Ty.ofOperand t.operand = some t := by cases t <;> rfl
@[simp] theorem IntMode.ofBits_bits (m : IntMode) : IntMode.ofBits m.bits = some m := by cases m <;> rfl
@[simp] theorem LdSize.ofCode_code (z : LdSize) : LdSize.ofCode z.code = some z := by cases z <;> rfl
@[simp] theorem StSize.ofCode_code (z : StSize) : StSize.ofCode z.code = some z := by cases z <;> rfl
@[simp] theorem Scope.ofCode_code (c : Scope) : Scope.ofCode c.code = some c := by cases c <;> rfl
@[simp] theorem ordOf_ordCode (o : Option Scope) : ordOf (ordCode o) = some o := by
  rcases o with _ | c
  · rfl
  · cases c <;> rfl
@[simp] theorem AOrder.ofCode_code (o : AOrder) : AOrder.ofCode o.code = o := by cases o <;> rfl
@[simp] theorem AtomOp.ofCode_code (o : AtomOp) : AtomOp.ofCode o.code = some o := by cases o <;> rfl
@[simp] theorem RedOp.ofCode_code (o : RedOp) : RedOp.ofCode o.code = some o := by cases o <;> rfl
@[simp] theorem BFmt.ofCode_code (f : BFmt) : BFmt.ofCode f.code = some f := by cases f <;> rfl
@[simp] theorem SubW.ofCode_code (w : SubW) : SubW.ofCode w.code = some w := by cases w <;> rfl
@[simp] theorem ShflMode.ofCode_code (m : ShflMode) : ShflMode.ofCode m.code = m := by cases m <;> rfl
@[simp] theorem VoteKind.ofBits_bits (k : VoteKind) : VoteKind.ofBits k.bits = Option.some k := by cases k <;> rfl
@[simp] theorem MatchMode.ofCode_code (m : MatchMode) : MatchMode.ofCode m.code = m := by cases m <;> rfl
@[simp] theorem ElectMode.ofCode_code (m : ElectMode) : ElectMode.ofCode m.code = some m := by cases m <;> rfl
@[simp] theorem Buf.ofBit_bit (b : Buf) : Buf.ofBit b.bit = b := by cases b <;> rfl
@[simp] theorem ASpace.ofCode_code (a : ASpace) : ASpace.ofCode a.code = some a := by cases a <;> rfl
@[simp] theorem PrefLevel.ofCode_code (l : PrefLevel) : PrefLevel.ofCode l.code = some l := by cases l <;> rfl
@[simp] theorem CctlOp.ofCode_code (o : CctlOp) : CctlOp.ofCode o.code = some o := by cases o <;> rfl
@[simp] theorem BarScope.ofCode_code (c : BarScope) : BarScope.ofCode c.code = some c := by cases c <;> rfl
@[simp] theorem FenceOrd.ofCode_code (o : FenceOrd) : FenceOrd.ofCode o.code = some o := by cases o <;> rfl
@[simp] theorem NoiseKind.ofCode_code (k : NoiseKind) : NoiseKind.ofCode k.code = some k := by cases k <;> rfl
@[simp] theorem NormKind.ofCode_code (k : NormKind) : NormKind.ofCode k.code = some k := by cases k <;> rfl

/-! ### The five formats (R125 to R129) -/

section
variable {op : BitVec 10} {g : Guard} {d a b c : Operand} {cc : Fin 8} {ha hb hc : Bool} {md : BitVec 8}

theorem fld_encA_opcode : fld (encA op g d a b c cc ha hb hc md) 54 10 = op := by
  simp (disch := decide) only [fld, encA, BitVec.extractLsb'_append_eq_of_le, Nat.reduceSub, BitVec.extractLsb'_eq_self]

@[simp] theorem gOf_encA (h : g.wf = true) : gOf (encA op g d a b c cc ha hb hc md) = g := by
  simp (disch := decide) only [gOf, fld, encA, BitVec.extractLsb'_append_eq_of_le,
    BitVec.extractLsb'_append_eq_of_add_le, Nat.reduceSub, BitVec.extractLsb'_eq_self, Guard.ofCode_code h]

@[simp] theorem opAt_encA_41 : opAt (encA op g d a b c cc ha hb hc md) 41 = some d := by
  simp (disch := decide) only [opAt, fld, encA, BitVec.extractLsb'_append_eq_of_le,
    BitVec.extractLsb'_append_eq_of_add_le, Nat.reduceSub, BitVec.extractLsb'_eq_self, Operand.ofCode_code]

@[simp] theorem opAt_encA_32 : opAt (encA op g d a b c cc ha hb hc md) 32 = some a := by
  simp (disch := decide) only [opAt, fld, encA, BitVec.extractLsb'_append_eq_of_le,
    BitVec.extractLsb'_append_eq_of_add_le, Nat.reduceSub, BitVec.extractLsb'_eq_self, Operand.ofCode_code]

@[simp] theorem opAt_encA_23 : opAt (encA op g d a b c cc ha hb hc md) 23 = some b := by
  simp (disch := decide) only [opAt, fld, encA, BitVec.extractLsb'_append_eq_of_le,
    BitVec.extractLsb'_append_eq_of_add_le, Nat.reduceSub, BitVec.extractLsb'_eq_self, Operand.ofCode_code]

@[simp] theorem opAt_encA_14 : opAt (encA op g d a b c cc ha hb hc md) 14 = some c := by
  simp (disch := decide) only [opAt, fld, encA, BitVec.extractLsb'_append_eq_of_le,
    BitVec.extractLsb'_append_eq_of_add_le, Nat.reduceSub, BitVec.extractLsb'_eq_self, Operand.ofCode_code]

@[simp] theorem fld_encA_count : (fld (encA op g d a b c cc ha hb hc md) 11 3).toFin = cc := by
  simp (disch := decide) only [fld, encA, BitVec.extractLsb'_append_eq_of_le,
    BitVec.extractLsb'_append_eq_of_add_le, Nat.reduceSub, BitVec.extractLsb'_eq_self]
  exact toFin_ofNat_val (k := 3) cc

theorem flag_encA_10 : flag (encA op g d a b c cc ha hb hc md) 10 = ha := by
  simp (disch := decide) only [flag, encA, getLsbD_append_of_lt, getLsbD_append_of_le, Nat.reduceSub]
  exact getLsbD_bit1 ha

theorem flag_encA_9 : flag (encA op g d a b c cc ha hb hc md) 9 = hb := by
  simp (disch := decide) only [flag, encA, getLsbD_append_of_lt, getLsbD_append_of_le, Nat.reduceSub]
  exact getLsbD_bit1 hb

theorem flag_encA_8 : flag (encA op g d a b c cc ha hb hc md) 8 = hc := by
  simp (disch := decide) only [flag, encA, getLsbD_append_of_lt, getLsbD_append_of_le, Nat.reduceSub]
  exact getLsbD_bit1 hc

theorem fld_encA {lo n : Nat} (h : lo + n ≤ 8) :
    fld (encA op g d a b c cc ha hb hc md) lo n = md.extractLsb' lo n := by
  simp only [fld, encA, BitVec.extractLsb'_append_eq_of_add_le h]

theorem flag_encA {i : Nat} (h : i < 8) : flag (encA op g d a b c cc ha hb hc md) i = md.getLsbD i := by
  simp only [flag, encA, getLsbD_append_of_lt _ _ h]

@[simp] theorem dstA_encA : dstA (encA op g d a b c cc ha hb hc md) = some ⟨d, cc⟩ := by
  rw [dstA, opAt_encA_41, fld_encA_count, Option.map_some]

@[simp] theorem aA_encA : aA (encA op g d a b c cc ha hb hc md) = some ⟨a, ha⟩ := by
  rw [aA, srcAt, opAt_encA_32, flag_encA_10, Option.map_some]

@[simp] theorem bA_encA : bA (encA op g d a b c cc ha hb hc md) = some ⟨b, hb⟩ := by
  rw [bA, srcAt, opAt_encA_23, flag_encA_9, Option.map_some]

@[simp] theorem cA_encA : cA (encA op g d a b c cc ha hb hc md) = some ⟨c, hc⟩ := by
  rw [cA, srcAt, opAt_encA_14, flag_encA_8, Option.map_some]

@[simp] theorem one_encA (f : Dst → Src → Instr) :
    one (encA op g d a b c cc ha hb hc md) f = some (f ⟨d, cc⟩ ⟨a, ha⟩) := by
  rw [one, dstA_encA, aA_encA]; rfl

@[simp] theorem two_encA (f : Dst → Src → Src → Instr) :
    two (encA op g d a b c cc ha hb hc md) f = some (f ⟨d, cc⟩ ⟨a, ha⟩ ⟨b, hb⟩) := by
  rw [two, dstA_encA, aA_encA, bA_encA]; rfl

@[simp] theorem three_encA (f : Dst → Src → Src → Src → Instr) :
    three (encA op g d a b c cc ha hb hc md) f = some (f ⟨d, cc⟩ ⟨a, ha⟩ ⟨b, hb⟩ ⟨c, hc⟩) := by
  rw [three, dstA_encA, aA_encA, bA_encA, cA_encA]; rfl

end


section
variable {op : BitVec 10} {g : Guard} {d a : Operand} {i : Word}

theorem fld_encI_opcode : fld (encI op g d a i) 54 10 = op := by
  simp (disch := decide) only [fld, encI, BitVec.extractLsb'_append_eq_of_le, Nat.reduceSub, BitVec.extractLsb'_eq_self]

@[simp] theorem gOf_encI (h : g.wf = true) : gOf (encI op g d a i) = g := by
  simp (disch := decide) only [gOf, fld, encI, BitVec.extractLsb'_append_eq_of_le,
    BitVec.extractLsb'_append_eq_of_add_le, Nat.reduceSub, BitVec.extractLsb'_eq_self, Guard.ofCode_code h]

@[simp] theorem opAt_encI_41 : opAt (encI op g d a i) 41 = some d := by
  simp (disch := decide) only [opAt, fld, encI, BitVec.extractLsb'_append_eq_of_le,
    BitVec.extractLsb'_append_eq_of_add_le, Nat.reduceSub, BitVec.extractLsb'_eq_self, Operand.ofCode_code]

@[simp] theorem opAt_encI_32 : opAt (encI op g d a i) 32 = some a := by
  simp (disch := decide) only [opAt, fld, encI, BitVec.extractLsb'_append_eq_of_le,
    BitVec.extractLsb'_append_eq_of_add_le, Nat.reduceSub, BitVec.extractLsb'_eq_self, Operand.ofCode_code]

@[simp] theorem fld_encI_imm : fld (encI op g d a i) 0 32 = i := by
  simp (disch := decide) only [fld, encI, BitVec.extractLsb'_append_eq_of_add_le, BitVec.extractLsb'_eq_self]

@[simp] theorem immF_encI (f : Operand → Operand → Word → Instr) : immF (encI op g d a i) f = some (f d a i) := by
  rw [immF, opAt_encI_41, opAt_encI_32, fld_encI_imm]; rfl

end


section
variable {op : BitVec 10} {g : Guard} {d b : Operand} {off : BitVec 20} {cc : Fin 8} {hd hb : Bool} {md : BitVec 6}

theorem fld_encM_opcode : fld (encM op g d b off cc hd hb md) 54 10 = op := by
  simp (disch := decide) only [fld, encM, BitVec.extractLsb'_append_eq_of_le, Nat.reduceSub, BitVec.extractLsb'_eq_self]

@[simp] theorem gOf_encM (h : g.wf = true) : gOf (encM op g d b off cc hd hb md) = g := by
  simp (disch := decide) only [gOf, fld, encM, BitVec.extractLsb'_append_eq_of_le,
    BitVec.extractLsb'_append_eq_of_add_le, Nat.reduceSub, BitVec.extractLsb'_eq_self, Guard.ofCode_code h]

@[simp] theorem opAt_encM_41 : opAt (encM op g d b off cc hd hb md) 41 = some d := by
  simp (disch := decide) only [opAt, fld, encM, BitVec.extractLsb'_append_eq_of_le,
    BitVec.extractLsb'_append_eq_of_add_le, Nat.reduceSub, BitVec.extractLsb'_eq_self, Operand.ofCode_code]

@[simp] theorem opAt_encM_32 : opAt (encM op g d b off cc hd hb md) 32 = some b := by
  simp (disch := decide) only [opAt, fld, encM, BitVec.extractLsb'_append_eq_of_le,
    BitVec.extractLsb'_append_eq_of_add_le, Nat.reduceSub, BitVec.extractLsb'_eq_self, Operand.ofCode_code]

@[simp] theorem fld_encM_count : (fld (encM op g d b off cc hd hb md) 9 3).toFin = cc := by
  simp (disch := decide) only [fld, encM, BitVec.extractLsb'_append_eq_of_le,
    BitVec.extractLsb'_append_eq_of_add_le, Nat.reduceSub, BitVec.extractLsb'_eq_self]
  exact toFin_ofNat_val (k := 3) cc

@[simp] theorem flag_encM_8 : flag (encM op g d b off cc hd hb md) 8 = hd := by
  simp (disch := decide) only [flag, encM, getLsbD_append_of_lt, getLsbD_append_of_le, Nat.reduceSub]
  exact getLsbD_bit1 hd

theorem flag_encM_7 : flag (encM op g d b off cc hd hb md) 7 = hb := by
  simp (disch := decide) only [flag, encM, getLsbD_append_of_lt, getLsbD_append_of_le, Nat.reduceSub]
  exact getLsbD_bit1 hb

theorem fld_encM {lo n : Nat} (h : lo + n ≤ 6) : fld (encM op g d b off cc hd hb md) lo n = md.extractLsb' lo n := by
  simp only [fld, encM, BitVec.extractLsb'_append_eq_of_add_le h]

theorem flag_encM {i : Nat} (h : i < 6) : flag (encM op g d b off cc hd hb md) i = md.getLsbD i := by
  simp only [flag, encM, getLsbD_append_of_lt _ _ h]

theorem fld_encM_off {lo n : Nat} (h : 12 ≤ lo ∧ lo + n ≤ 32) :
    fld (encM op g d b off cc hd hb md) lo n = off.extractLsb' (lo - 12) n := by
  rw [fld, encM, BitVec.extractLsb'_append_eq_of_le (by omega)]
  iterate 4 rw [BitVec.extractLsb'_append_eq_of_le (by omega)]
  rw [BitVec.extractLsb'_append_eq_of_add_le (by omega)]
  congr 1

@[simp] theorem dstM_encM : dstM (encM op g d b off cc hd hb md) = some ⟨d, cc⟩ := by
  rw [dstM, opAt_encM_41, fld_encM_count, Option.map_some]

@[simp] theorem dM_encM : dM (encM op g d b off cc hd hb md) = some ⟨d, hd⟩ := by
  rw [dM, srcAt, opAt_encM_41, flag_encM_8, Option.map_some]

@[simp] theorem bM_encM : bM (encM op g d b off cc hd hb md) = some ⟨b, hb⟩ := by
  rw [bM, srcAt, opAt_encM_32, flag_encM_7, Option.map_some]

@[simp] theorem regsM_encM (f : Operand → Operand → Option Instr) :
    regsM (encM op g d b off cc hd hb md) f = f d b := by
  rw [regsM, opAt_encM_41, opAt_encM_32]; rfl

end


section
variable {op : BitVec 10} {g : Guard} {a b c : Operand} {i : BitVec 20} {md : BitVec 3}

theorem fld_encE_opcode : fld (encE op g a b c i md) 54 10 = op := by
  simp (disch := decide) only [fld, encE, BitVec.extractLsb'_append_eq_of_le, Nat.reduceSub, BitVec.extractLsb'_eq_self]

@[simp] theorem gOf_encE (h : g.wf = true) : gOf (encE op g a b c i md) = g := by
  simp (disch := decide) only [gOf, fld, encE, BitVec.extractLsb'_append_eq_of_le,
    BitVec.extractLsb'_append_eq_of_add_le, Nat.reduceSub, BitVec.extractLsb'_eq_self, Guard.ofCode_code h]

@[simp] theorem opAt_encE_41 : opAt (encE op g a b c i md) 41 = some a := by
  simp (disch := decide) only [opAt, fld, encE, BitVec.extractLsb'_append_eq_of_le,
    BitVec.extractLsb'_append_eq_of_add_le, Nat.reduceSub, BitVec.extractLsb'_eq_self, Operand.ofCode_code]

@[simp] theorem opAt_encE_32 : opAt (encE op g a b c i md) 32 = some b := by
  simp (disch := decide) only [opAt, fld, encE, BitVec.extractLsb'_append_eq_of_le,
    BitVec.extractLsb'_append_eq_of_add_le, Nat.reduceSub, BitVec.extractLsb'_eq_self, Operand.ofCode_code]

@[simp] theorem opAt_encE_23 : opAt (encE op g a b c i md) 23 = some c := by
  simp (disch := decide) only [opAt, fld, encE, BitVec.extractLsb'_append_eq_of_le,
    BitVec.extractLsb'_append_eq_of_add_le, Nat.reduceSub, BitVec.extractLsb'_eq_self, Operand.ofCode_code]

theorem fld_encE {lo n : Nat} (h : lo + n ≤ 3) : fld (encE op g a b c i md) lo n = md.extractLsb' lo n := by
  simp only [fld, encE, BitVec.extractLsb'_append_eq_of_add_le h]

theorem flag_encE {k : Nat} (h : k < 3) : flag (encE op g a b c i md) k = md.getLsbD k := by
  simp only [flag, encE, getLsbD_append_of_lt _ _ h]

theorem immE_encE {lo n : Nat} (h : lo + n ≤ 20) : immE (encE op g a b c i md) lo n = i.extractLsb' lo n := by
  rw [immE, fld, encE, BitVec.extractLsb'_append_eq_of_le (by omega), BitVec.extractLsb'_append_eq_of_add_le (by omega),
    Nat.add_sub_cancel_left]

theorem flag_encE_imm {k : Nat} (h : 3 ≤ k ∧ k < 23) : flag (encE op g a b c i md) k = i.getLsbD (k - 3) := by
  rw [flag, encE, getLsbD_append_of_le _ _ (by omega), getLsbD_append_of_lt _ _ (by omega)]

@[simp] theorem regsE_encE (f : Operand → Operand → Operand → Option Instr) :
    regsE (encE op g a b c i md) f = f a b c := by
  rw [regsE, opAt_encE_41, opAt_encE_32, opAt_encE_23]; rfl

end


section
variable {op : BitVec 10} {g : Guard} {l r : Operand} {t : Word}

theorem fld_encB_opcode : fld (encB op g l r t) 54 10 = op := by
  simp (disch := decide) only [fld, encB, BitVec.extractLsb'_append_eq_of_le, Nat.reduceSub, BitVec.extractLsb'_eq_self]

@[simp] theorem gOf_encB (h : g.wf = true) : gOf (encB op g l r t) = g := by
  simp (disch := decide) only [gOf, fld, encB, BitVec.extractLsb'_append_eq_of_le,
    BitVec.extractLsb'_append_eq_of_add_le, Nat.reduceSub, BitVec.extractLsb'_eq_self, Guard.ofCode_code h]

@[simp] theorem opAt_encB_41 : opAt (encB op g l r t) 41 = some l := by
  simp (disch := decide) only [opAt, fld, encB, BitVec.extractLsb'_append_eq_of_le,
    BitVec.extractLsb'_append_eq_of_add_le, Nat.reduceSub, BitVec.extractLsb'_eq_self, Operand.ofCode_code]

@[simp] theorem opAt_encB_32 : opAt (encB op g l r t) 32 = some r := by
  simp (disch := decide) only [opAt, fld, encB, BitVec.extractLsb'_append_eq_of_le,
    BitVec.extractLsb'_append_eq_of_add_le, Nat.reduceSub, BitVec.extractLsb'_eq_self, Operand.ofCode_code]

@[simp] theorem fld_encB_imm : fld (encB op g l r t) 0 32 = t := by
  simp (disch := decide) only [fld, encB, BitVec.extractLsb'_append_eq_of_add_le, BitVec.extractLsb'_eq_self]

end


@[simp] theorem barOf_encE {op : BitVec 10} {g : Guard} {a b c : Operand} {md : BitVec 3} (n : Bar) :
    barOf (encE op g a b c (barImm n) md) = some n := by
  change (BarScope.ofCode (immE _ 0 3)).map (fun s => (⟨s, (immE _ 3 4).toFin⟩ : Bar)) = some n
  simp (disch := decide) only [immE_encE, barImm, BitVec.extractLsb'_append_eq_of_le,
    BitVec.extractLsb'_append_eq_of_add_le, Nat.reduceSub, BitVec.extractLsb'_eq_self]
  simp

/-! ### Names of registers -/

@[simp] theorem xOf_x (n : Fin 8) : xOf (.x n) = some n := rfl
@[simp] theorem zOf_z (n : Fin 8) : zOf (.z n) = some n := rfl
@[simp] theorem kOf_k (n : Fin 8) : kOf (.k n) = some n := rfl
@[simp] theorem pOf_p (n : Fin 8) : pOf (.p n) = some n := rfl
@[simp] theorem vOf_v (n : Fin 256) : vOf (.v n) = some n := rfl

@[simp] theorem vOptOf_getD (n : Option (Fin 256)) :
    vOptOf ((n.map Operand.v).getD .zero) = some n := by cases n <;> rfl

theorem FMods.eq_of_noC {m : FMods} (h : m.noC = true) :
    { na := m.na, nb := m.nb, nc := false, aa := m.aa, ab := m.ab } = m := by
  obtain ⟨na, nb, nc, aa, ab⟩ := m
  simpa [FMods.noC] using h

theorem Operand.ne_zero_of_vsw {o : Operand} (h : o.vsw = true) : o ≠ .zero := by rintro rfl; cases h
theorem Operand.ne_zero_of_swPair {o : Operand} (h : o.swPair = true) : o ≠ .zero := by rintro rfl; cases h
theorem Operand.ne_zero_of_codeOff {o : Operand} (h : o.codeOff = true) : o ≠ .zero := by rintro rfl; cases h

/-- A row operand that is given is not zero, which stands for none. -/
theorem row_getD_zero {row : Option Operand} (h : row.all (fun o => o.row && o != .zero) = true) :
    (if row.getD .zero = .zero then none else some (row.getD .zero)) = row := by
  cases row with
  | none => rfl
  | some o => simp at h; simp [h.2]

@[simp] theorem CctlOp.code_ne (o : CctlOp) : o.code ≠ 1#3 := by cases o <;> decide

/-! ### The opcode map (R133) -/

/-- The family is the high three bits of the opcode. -/
theorem fld_family_of_opcode {w : DWord} {op : BitVec 10} (h : fld w 54 10 = op) :
    (fld w 61 3).toNat = op.toNat / 128 := by
  subst h
  simp only [fld, BitVec.extractLsb'_toNat, Nat.shiftRight_eq_div_pow]
  omega

/-- A word of a listed opcode says what its row reads. -/
theorem candidate_of_opcode {w : DWord} {op : BitVec 10} {f : DWord → Option Instr} (h : fld w 54 10 = op)
    (hrow : (familyRows (op.toNat / 128)).find? (fun r => r.op == op.toNat) = some ⟨op.toNat, f⟩) :
    candidate w = f w := by
  rw [candidate, fld_family_of_opcode h, h, hrow]
  rfl

theorem decode_eq_some_iff {w : DWord} {i : Instr} :
    decode w = some i ↔ candidate w = some i ∧ i.wf = true ∧ encode i = some w := by
  unfold decode
  cases candidate w with
  | none => simp
  | some j => 
    simp only [Option.some.injEq]
    constructor
    · intro h
      split at h
      · next hj => cases h; simpa using hj
      · cases h
    · rintro ⟨rfl, hwf, henc⟩
      simp [hwf, henc]

/-- The steps of the other agents have no word. -/
theorem encode_of_isDeviceStep {i : Instr} (h : Machine.isDeviceStep i = true) : encode i = none := by
  cases i
  all_goals cases h <;> rfl

theorem isDeviceStep_of_encode {i : Instr} {w : DWord} (h : encode i = some w) : Machine.isDeviceStep i = false :=
  Bool.eq_false_iff.mpr fun hd => Option.some_ne_none w (h.symm.trans (encode_of_isDeviceStep hd))

/-- Settles O2: a word decodes only to what its candidate is, checked to be well formed and to have this word. -/
theorem decodedWordsEncode : Obligations.DecodedWordsEncode := by
  intro w i h
  obtain ⟨-, hwf, henc⟩ := decode_eq_some_iff.mp h
  exact ⟨hwf, isDeviceStep_of_encode henc, henc⟩

theorem Guard.wf_always : Guard.always.wf = true := rfl

theorem four_getElem {α : Type} (v : Vector α 4) : #v[v[0], v[1], v[2], v[3]] = v := by
  refine Vector.ext fun i hi => ?_
  interval_cases i <;> rfl

/-- An instruction that has a word is what the fields of the word say. -/
theorem candidate_encode {i : Instr} {w : DWord} (hwf : i.wf = true) (h : encode i = some w) : candidate w = some i := by
  cases i
  case and | or | xor | andn | shl | shr | sar | bfi | popc | clz | brev | frcp | frsq | fexp2 | flog2 | fsin |
      fcos | ftanh | mov | sel | killv | nop | rdlane | strmq | strmend | iadd | isub | imul | imad | iabs |
      iset | lea | lop3 | rot | bfx | fsqrt | idot4 | idot8 | qblk | dqblk | pack | unpk | movx | movxw | setx |
      setxCur | setxAdd | plop3 | pmovGet | pmovSet | vote | lred | lscan | matchL | elect | atomc | normb |
      rotq | noise | imulh | idiv | irem | imin | imax | fadd | fmul | ffma | fmin | fmax | dadd | dmul | dfma |
      dmin | dmax | hadd2 | hmul2 | hfma2 | fset | dset =>
    cases h
    simp only [Instr.wf, Bool.and_eq_true] at hwf
    refine (candidate_of_opcode fld_encA_opcode rfl).trans ?_
    simp -failIfUnchanged (disch := decide) only [fld_encA, flag_encA,
      uBits, fBits, fmods, hBits, hmods, fsetBits, setMods,
      BitVec.extractLsb'_append_eq_of_le, BitVec.extractLsb'_append_eq_of_add_le,
      Nat.reduceSub, BitVec.extractLsb'_eq_self, getLsbD_append_of_lt, getLsbD_append_of_le, getLsbD_bit1]
    simp [hwf, FMods.eq_of_noC]
  case cvt ov _ =>
    cases h
    simp only [Instr.wf, Bool.and_eq_true] at hwf
    refine (candidate_of_opcode fld_encA_opcode rfl).trans ?_
    simp (disch := decide) only [fld_encA, flag_encA,
      BitVec.extractLsb'_append_eq_of_le, BitVec.extractLsb'_append_eq_of_add_le,
      Nat.reduceSub, BitVec.extractLsb'_eq_self, getLsbD_append_of_lt, getLsbD_append_of_le, getLsbD_bit1]
    cases ov <;> simp [hwf]
  case shfl lgw =>
    cases h
    simp only [Instr.wf, Bool.and_eq_true] at hwf
    refine (candidate_of_opcode fld_encA_opcode rfl).trans ?_
    simp (disch := decide) only [fld_encA, BitVec.extractLsb'_append_eq_of_le,
      BitVec.extractLsb'_append_eq_of_add_le, Nat.reduceSub, BitVec.extractLsb'_eq_self]
    simp [hwf, Nat.mod_eq_of_lt (lgw.isLt.trans (by decide : 6 < 8))]
  case fclass mask =>
    cases mask
    case none | some =>
      cases h
      simp only [Instr.wf, Bool.and_eq_true] at hwf
      refine (candidate_of_opcode fld_encA_opcode rfl).trans ?_
      simp -failIfUnchanged (disch := decide) only [flag_encA]
      simp [hwf]
  case iaddI | isubI | imulI | andI | orI | xorI | andnI | shlI | shrI | sarI | rotI | faddI | fmulI | movi =>
    cases h
    simp only [Instr.wf, Bool.and_eq_true] at hwf
    refine (candidate_of_opcode fld_encI_opcode rfl).trans ?_
    simp [hwf]
  case drainnt | ld | lds | ldc | st | stnt | ldb | stb | ldbq | atom | red | batom | pref | cctl | cctlIl1all =>
    cases h
    simp only [Instr.wf, Bool.and_eq_true] at hwf
    refine (candidate_of_opcode fld_encM_opcode rfl).trans ?_
    simp -failIfUnchanged (disch := decide) only [fld_encM, flag_encM, fld_encM_off,
      BitVec.extractLsb'_append_eq_of_le, BitVec.extractLsb'_append_eq_of_add_le,
      Nat.reduceSub, BitVec.extractLsb'_eq_self, getLsbD_append_of_lt, getLsbD_append_of_le, getLsbD_bit1]
    simp [hwf]
  case swap | clleave | yield | nopre | preok | tlback | lstat | attn | coll | refill | bar | bara | barw | barq |
      rdsr | wrsr | arrset | arrwait | arrtest | tenq | tqrd | wlinit | wlinitReg | wlthr | wlthrClr | wlrd |
      wlrdt | wlmrg | wlclr | kvslab | kvslabLen | kvslabRd | kvgrow | smerge | smergeFin | splice | spliceFix |
      spliceClr | fence | cljoin | stream | sleep | fmsg | fpoll | fpollBind | fpollUnbind | cbpost | rnset |
      rnsetClr | brk | trap | errq | errqLog | bblog =>
    cases h
    simp only [Instr.wf, Bool.and_eq_true] at hwf
    refine (candidate_of_opcode fld_encE_opcode rfl).trans ?_
    simp -failIfUnchanged (disch := decide) only [fld_encE, flag_encE, flag_encE_imm, immE_encE,
      BitVec.extractLsb'_append_eq_of_le, BitVec.extractLsb'_append_eq_of_add_le,
      Nat.reduceSub, BitVec.extractLsb'_eq_self, getLsbD_append_of_lt, getLsbD_append_of_le, getLsbD_bit1]
    simp [hwf, Operand.ne_zero_of_vsw, row_getD_zero, four_getElem]
  case meld | trapret | melde | sere =>
    cases h
    obtain rfl := eq_of_beq hwf
    refine (candidate_of_opcode fld_encE_opcode rfl).trans ?_
    simp -failIfUnchanged (disch := decide) only [flag_encE, flag_encE_imm, Nat.reduceSub,
      getLsbD_append_of_lt, getLsbD_bit1]
    simp [gOf_encE Guard.wf_always]
  case serb =>
    cases h
    simp only [Instr.wf, Bool.and_eq_true] at hwf
    obtain rfl := eq_of_beq hwf.1
    refine (candidate_of_opcode fld_encE_opcode rfl).trans ?_
    simp (disch := decide) only [immE_encE, BitVec.extractLsb'_eq_self]
    simp [gOf_encE Guard.wf_always]
  case tlrd tl _ =>
    cases h
    simp only [Instr.wf, Bool.and_eq_true] at hwf
    refine (candidate_of_opcode fld_encE_opcode rfl).trans ?_
    simp (disch := decide) only [flag_encE, immE_encE,
      BitVec.extractLsb'_append_eq_of_add_le, BitVec.extractLsb'_eq_self, getLsbD_append_of_lt, getLsbD_bit1]
    simp [hwf, Nat.mod_eq_of_lt (tl.isLt.trans (by decide : 5 < 8))]
  case sleepReg =>
    cases h
    simp only [Instr.wf, Bool.and_eq_true] at hwf
    refine (candidate_of_opcode fld_encE_opcode rfl).trans ?_
    simp (disch := decide) only [immE_encE, BitVec.extractLsb'_eq_self]
    simp [hwf, bne_iff_ne.mp hwf.2]
  case cekick n =>
    cases n
    case reg | imm =>
      cases h
      simp only [Instr.wf, Bool.and_eq_true] at hwf
      refine (candidate_of_opcode fld_encE_opcode rfl).trans ?_
      simp -failIfUnchanged (disch := decide) only [immE_encE, BitVec.extractLsb'_eq_self]
      simp [hwf, Operand.ne_zero_of_vsw]
  case tlwait tl n =>
    have htl : tl.val % 8 = tl.val := Nat.mod_eq_of_lt (tl.isLt.trans (by decide : 5 < 8))
    cases n
    case reg | imm =>
      cases h
      simp only [Instr.wf, Bool.and_eq_true] at hwf
      refine (candidate_of_opcode fld_encE_opcode rfl).trans ?_
      simp (disch := decide) only [immE_encE,
        BitVec.extractLsb'_append_eq_of_le, BitVec.extractLsb'_append_eq_of_add_le,
        Nat.reduceSub, BitVec.extractLsb'_eq_self]
      simp [hwf, htl, Operand.ne_zero_of_swPair]
  case tlbir asid =>
    cases asid
    case none | some =>
      cases h
      simp only [Instr.wf, Bool.and_eq_true] at hwf
      refine (candidate_of_opcode fld_encE_opcode rfl).trans ?_
      simp -failIfUnchanged (disch := decide) only [flag_encE]
      simp_all
  case bra | brx | ret | exit | call | callIndirect =>
    cases h
    simp only [Instr.wf, Bool.and_eq_true] at hwf
    refine (candidate_of_opcode fld_encB_opcode rfl).trans ?_
    simp [hwf, Operand.ne_zero_of_codeOff]
  all_goals cases h

/-! ### Which words there are (R124 to R129, R133) -/

/-- An opcode that R133 lists. -/
def isListed (op : BitVec 10) : Bool := Machine.listedOpcodes.any fun p => p.1 ≤ op.toNat && op.toNat ≤ p.2

/-- The opcodes of the first four families whose words are of Format A in all their fields. -/
def fourFields (op : BitVec 10) : Bool :=
  op.toNat / 128 ≤ 3 && op.toNat % 128 < 64 && op != 0x181 && op != 0x189 && op != 0x18A

/-- The layouts of R125 to R129, each with its opcodes. -/
inductive Layout : DWord → Prop
  | a {op} (g d a b c cc ha hb hc md) (h : isListed op = true) : Layout (encA op g d a b c cc ha hb hc md)
  | i {op} (g d a i) (h : isListed op = true) (hf : fourFields op = false) : Layout (encI op g d a i)
  | m {op} (g d b off cc hd hb md) (h : isListed op = true) (hf : fourFields op = false) :
      Layout (encM op g d b off cc hd hb md)
  | e {op} (g a b c i md) (h : isListed op = true) (hf : fourFields op = false) : Layout (encE op g a b c i md)
  | b {op} (g l s t) (h : isListed op = true) (hf : fourFields op = false) : Layout (encB op g l s t)

/-- An instruction that has a word is laid out in one of the five formats, under a listed opcode. -/
theorem layout_encode {i : Instr} {w : DWord} (h : encode i = some w) : Layout w := by
  cases i
  case and | or | xor | andn | shl | shr | sar | bfi | popc | clz | brev | frcp | frsq | fexp2 | flog2 | fsin |
      fcos | ftanh | mov | sel | killv | nop | rdlane | strmq | strmend | iadd | isub | imul | imad | iabs |
      iset | lea | lop3 | rot | bfx | fsqrt | idot4 | idot8 | qblk | dqblk | pack | unpk | movx | movxw | setx |
      setxCur | setxAdd | plop3 | pmovGet | pmovSet | vote | lred | lscan | matchL | elect | atomc | normb |
      rotq | noise | imulh | idiv | irem | imin | imax | fadd | fmul | ffma | fmin | fmax | dadd | dmul | dfma |
      dmin | dmax | hadd2 | hmul2 | hfma2 | fset | dset | cvt | shfl =>
    cases h; exact .a _ _ _ _ _ _ _ _ _ _ rfl
  case fclass mask => cases mask <;> (cases h; exact .a _ _ _ _ _ _ _ _ _ _ rfl)
  case iaddI | isubI | imulI | andI | orI | xorI | andnI | shlI | shrI | sarI | rotI | faddI | fmulI | movi =>
    cases h; exact .i _ _ _ _ rfl rfl
  case drainnt | ld | lds | ldc | st | stnt | ldb | stb | ldbq | atom | red | batom | pref | cctl | cctlIl1all =>
    cases h; exact .m _ _ _ _ _ _ _ _ rfl rfl
  case swap | clleave | yield | nopre | preok | tlback | lstat | attn | coll | refill | bar | bara | barw | barq |
      rdsr | wrsr | arrset | arrwait | arrtest | tenq | tqrd | wlinit | wlinitReg | wlthr | wlthrClr | wlrd |
      wlrdt | wlmrg | wlclr | kvslab | kvslabLen | kvslabRd | kvgrow | smerge | smergeFin | splice | spliceFix |
      spliceClr | fence | cljoin | stream | sleep | fmsg | fpoll | fpollBind | fpollUnbind | cbpost | rnset |
      rnsetClr | brk | trap | errq | errqLog | bblog | meld | trapret | melde | sere | serb | tlrd | sleepReg =>
    cases h; exact .e _ _ _ _ _ _ rfl rfl
  case cekick n => cases n <;> (cases h; exact .e _ _ _ _ _ _ rfl rfl)
  case tlwait n => cases n <;> (cases h; exact .e _ _ _ _ _ _ rfl rfl)
  case tlbir asid => cases asid <;> (cases h; exact .e _ _ _ _ _ _ rfl rfl)
  case bra | brx | ret | exit | call | callIndirect =>
    cases h; exact .b _ _ _ _ rfl rfl
  all_goals cases h

theorem Layout.listed {w : DWord} (h : Layout w) : isListed (fld w 54 10) = true := by
  cases h with
  | a => rwa [fld_encA_opcode]
  | i => rwa [fld_encI_opcode]
  | m => rwa [fld_encM_opcode]
  | e => rwa [fld_encE_opcode]
  | b => rwa [fld_encB_opcode]

/-- Under an opcode of four operand fields the word is of Format A. -/
theorem Layout.opAt_isSome {w : DWord} (h : Layout w) (hf : fourFields (fld w 54 10) = true) {lo : Nat}
    (hlo : lo ∈ [14, 23, 32, 41]) : (opAt w lo).isSome = true := by
  cases h with
  | a =>
    simp only [List.mem_cons, List.not_mem_nil, or_false] at hlo
    rcases hlo with rfl | rfl | rfl | rfl <;> simp
  | i _ _ _ _ _ h => rw [fld_encI_opcode, h] at hf; cases hf
  | m _ _ _ _ _ _ _ _ _ h => rw [fld_encM_opcode, h] at hf; cases hf
  | e _ _ _ _ _ _ _ h => rw [fld_encE_opcode, h] at hf; cases hf
  | b _ _ _ _ _ h => rw [fld_encB_opcode, h] at hf; cases hf

theorem layout_of_decode {w : DWord} (h : decode w ≠ none) : Layout w := by
  obtain ⟨i, hi⟩ := Option.ne_none_iff_exists'.mp h
  exact layout_encode (decode_eq_some_iff.mp hi).2.2

/-- What has no word is a step of another agent. -/
theorem isDeviceStep_of_encode_eq_none {i : Instr} (h : encode i = none) : Machine.isDeviceStep i = true := by
  cases i
  case fclass mask => cases mask <;> cases h
  case cekick n => cases n <;> cases h
  case tlwait n => cases n <;> cases h
  case tlbir asid => cases asid <;> cases h
  all_goals cases h <;> rfl

/-- Settles O1: the word's fields say the instruction, and the word is its encoding. -/
theorem decodeEncodedInstruction : Obligations.DecodeEncodedInstruction := by
  intro i hwf hdev
  obtain ⟨w, hw⟩ := Option.ne_none_iff_exists'.mp fun hn =>
    Bool.false_ne_true (hdev.symm.trans (isDeviceStep_of_encode_eq_none hn))
  exact ⟨w, hw, decode_eq_some_iff.mpr ⟨candidate_encode hwf hw, hwf, hw⟩⟩

/-- Settles O3: a word that decodes is an instruction's encoding, so its opcode is listed and its operand fields hold
operands' codes. -/
theorem unlistedWordsRefused : Obligations.UnlistedWordsRefused := by
  refine ⟨fun w hw => ?_, fun c hlo hhi => Operand.ofCode_reserved hlo hhi, fun w lo hfam hop h1 h2 h3 hlo hge hle => ?_⟩
  · by_contra hd
    obtain ⟨p, hp, hin⟩ := List.any_eq_true.mp (layout_of_decode hd).listed
    exact hw p hp (show p.1 ≤ (fld w 54 10).toNat ∧ (fld w 54 10).toNat ≤ p.2 by simpa using hin)
  · by_contra hd
    have hfour : fourFields (fld w 54 10) = true := by
      have hne {n : Nat} (hn : n < 1024) (h : Machine.opcOf w ≠ n) : fld w 54 10 ≠ BitVec.ofNat 10 n := by
        intro he
        exact h ((congrArg BitVec.toNat he).trans (by rw [BitVec.toNat_ofNat, Nat.mod_eq_of_lt hn]))
      have hdiv : (fld w 54 10).toNat / 128 ≤ 3 := fld_family_of_opcode (w := w) rfl ▸ hfam
      simp only [fourFields, Bool.and_eq_true, decide_eq_true_eq, bne_iff_ne]
      exact ⟨⟨⟨⟨hdiv, hop⟩, hne (by decide) h1⟩, hne (by decide) h2⟩, hne (by decide) h3⟩
    have hsome := (layout_of_decode hd).opAt_isSome hfour hlo
    rw [opAt, fld, Operand.ofCode_reserved hge hle] at hsome
    cases hsome

/-- Settles O4, by evaluation. -/
theorem specWordsDecode : Obligations.SpecWordsDecode := by
  refine ⟨?_, ?_, ?_, ?_, ?_, ?_⟩ <;> rfl

end Sys2Proof
end

section
/-!
PROOFS. Transfers (R116, R117, R129, R179 to R181).
-/

namespace Sys2Proof.Machine

/-! ### The checks of a transfer -/

theorem checkIssue_parts {g : Guard} {ops : List Operand} {last : Bool} {s : State} (h : checkIssue g ops last s = .ok ()) :
    ops.any s.curWarp.awaits = false ∧ checkEncoding g ops last s = .ok () ∧ checkState g ops s = .ok () := by
  obtain ⟨_, hawaits, h⟩ := bind_eq_ok h
  obtain ⟨_, hencoding, hstate⟩ := bind_eq_ok h
  exact ⟨stallIf_ok hawaits, hencoding, hstate⟩

section
variable {s : State} {target : Word}

@[simp] theorem sameTarget_get (i : Nat) (h : i < 32) : (sameTarget s target)[i] = directTarget s target := by
  simp [sameTarget]

@[simp] theorem regTargets_get (r : Reading) (i : Nat) (h : i < 32) : (regTargets r)[i] = ((r.w 0)[i].toNat : Int) := by
  simp [regTargets]

theorem jumpTo_sameTarget (m : Mask) (t : State) :
    jumpTo m (sameTarget s target) t = jumpLanes m (fun _ => (directTarget s target).toNat) t := by simp [jumpTo]

theorem jumpTo_regTargets (m : Mask) (r : Reading) (t : State) :
    jumpTo m (regTargets r) t = jumpLanes m (fun l => ((r.w 0)[l]).toNat) t := by simp [jumpTo]

theorem checkDirect_marked (hpos : 0 ≤ directTarget s target)
    (hmark : s.curLaunch.headers.contains (directTarget s target).toNat = true) : checkDirect s target = .ok () :=
  checkDirect_ok (by rw [decide_eq_true hpos]; exact hmark)

/-- A direct target that is no header faults in all lanes of the split (R135). -/
theorem checkDirect_unmarked (hmembers : s.members ≠ 0)
    (hbad : directTarget s target < 0 ∨ s.curLaunch.headers.contains (directTarget s target).toNat = false) :
    checkDirect s target = .error (.trap (s.trapReq 0x03 s.members)) := by
  have hbad' : directTarget s target < 0 ∨ !isHeader s.curLaunch (directTarget s target).toNat := by
    simpa [isHeader] using hbad
  exact (congrArg (trapIf s Kind.targetAlign) (if_pos hbad')).trans (trapIf_some hmembers)

/-- Lanes whose targets are marked, and stay in their region, pass. -/
theorem checkJump_ok {m : Mask} {t : Lanes Int} (hpos : ∀ l : Fin 32, has m l = true → 0 ≤ t[l])
    (hmark : ∀ l : Fin 32, has m l = true → s.curLaunch.headers.contains (t[l]).toNat = true)
    (hregion : leavesRegion s m t = 0) : checkJump s m t = .ok () := by
  have hgood : badTargets s m t = 0 := has_ext fun l => by
    rw [badTargets, has_and, has_maskOf]
    cases hl : has m l with
    | false => simp [has]
    | true => rw [isHeader, hmark l hl, decide_eq_false (not_lt.mpr (hpos l hl))]; simp [has]
  rw [checkJump, hgood, hregion]
  rfl

theorem checkJump_sameTarget_ok {m : Mask} (hpos : 0 ≤ directTarget s target)
    (hmark : s.curLaunch.headers.contains (directTarget s target).toNat = true)
    (hregion : leavesRegion s m (sameTarget s target) = 0) : checkJump s m (sameTarget s target) = .ok () :=
  checkJump_ok (by simp [hpos]) (by simpa using fun _ _ => hmark) hregion

theorem checkJump_regTargets_ok {m : Mask} {r : Reading}
    (hmark : ∀ l : Fin 32, has m l = true → s.curLaunch.headers.contains ((r.w 0)[l]).toNat = true)
    (hregion : leavesRegion s m (regTargets r) = 0) : checkJump s m (regTargets r) = .ok () :=
  checkJump_ok (by simp) (by simpa using hmark) hregion

/-- Lanes that go where no header stands fault. -/
theorem checkJump_regTargets_unmarked {m bad : Mask} {r : Reading} (hbad : bad ≠ 0)
    (h : ∀ l : Fin 32, has bad l = (has m l && !s.curLaunch.headers.contains ((r.w 0)[l]).toNat)) :
    checkJump s m (regTargets r) = .error (.trap (s.trapReq 0x03 bad)) := by
  have hmask : badTargets s m (regTargets r) = bad := has_ext fun l => by
    have hpos : decide (((r.w 0)[l.val].toNat : Int) < 0) = false := decide_eq_false (by omega)
    simp [badTargets, isHeader, h l, hpos]
  rw [checkJump, hmask, bind_error_eq (trapIf_some hbad)]
  rfl

end

/-! ### The transfers -/

section
variable {g : Guard} {target : Word} {s : State} {r : Reading}

theorem execBra_of_marked (hissue : Issuable g false s) (hpos : 0 ≤ directTarget s target)
    (hmark : s.curLaunch.headers.contains (directTarget s target).toNat = true)
    (hregion : leavesRegion s (s.active g) (sameTarget s target) = 0) :
    execBra g target s = .next (advance (jumpLanes (s.active g) (fun _ => (directTarget s target).toNat) s)) := by
  obtain ⟨-, hencoding, hstate⟩ := checkIssue_parts hissue
  rw [execBra, bind_ok_eq hencoding, bind_ok_eq (checkDirect_marked hpos hmark), bind_ok_eq hstate,
    bind_ok_eq (checkJump_sameTarget_ok hpos hmark hregion), jumpTo_sameTarget]
  rfl

theorem execCall_of_marked {link : Operand} (h : Ready g [link] [] [linkPut s link (s.active g)] s r)
    (hpos : 0 ≤ directTarget s target) (hmark : s.curLaunch.headers.contains (directTarget s target).toNat = true)
    (hregion : leavesRegion s (s.active g) (sameTarget s target) = 0) :
    execCall g link target s = .next (advance (jumpLanes (s.active g) (fun _ => (directTarget s target).toNat)
      (written r [linkPut s link (s.active g)] s))) := by
  obtain ⟨hawaits, hencoding, hstate⟩ := checkIssue_parts h.issue
  have hlink : s.curWarp.awaits link = false := by simpa using hawaits
  rw [execCall, hlink, bind_ok_eq stallIf_false, bind_ok_eq hencoding, bind_ok_eq (checkDirect_marked hpos hmark),
    bind_ok_eq hstate, bind_ok_eq (checkJump_sameTarget_ok hpos hmark hregion), bind_ok_eq h.sources,
    bind_ok_eq (commit_ok h.dests), jumpTo_sameTarget]
  rfl

theorem execBra_of_unmarked (hencoding : checkEncoding g [] false s = .ok ()) (hmembers : s.members ≠ 0)
    (hbad : directTarget s target < 0 ∨ s.curLaunch.headers.contains (directTarget s target).toNat = false) :
    execBra g target s = .next (raiseTrap (s.trapReq 0x03 s.members) s) := by
  rw [execBra, bind_ok_eq hencoding, bind_error_eq (checkDirect_unmarked hmembers hbad)]
  rfl

theorem execCall_of_unmarked {link : Operand} (hlink : s.curWarp.awaits link = false)
    (hencoding : checkEncoding g [link] false s = .ok ()) (hmembers : s.members ≠ 0)
    (hbad : directTarget s target < 0 ∨ s.curLaunch.headers.contains (directTarget s target).toNat = false) :
    execCall g link target s = .next (raiseTrap (s.trapReq 0x03 s.members) s) := by
  rw [execCall, hlink, bind_ok_eq stallIf_false, bind_ok_eq hencoding,
    bind_error_eq (checkDirect_unmarked hmembers hbad)]
  rfl

theorem runIndirect_of_marked {a : Operand} (h : Ready g [a] [opSrc a] [] s r)
    (hmark : ∀ l : Fin 32, has (s.active g) l = true → s.curLaunch.headers.contains ((r.w 0)[l]).toNat = true)
    (hregion : leavesRegion s (s.active g) (regTargets r) = 0) :
    runIndirect g a s = .ok (jumpLanes (s.active g) (fun l => ((r.w 0)[l]).toNat) (written r [] s)) := by
  rw [runIndirect, bind_ok_eq h.issue, bind_ok_eq h.sources, bind_ok_eq (checkJump_regTargets_ok hmark hregion),
    bind_ok_eq (commit_ok h.dests), jumpTo_regTargets]
  rfl

theorem execCallIndirect_of_marked {link a : Operand}
    (h : Ready g [link, a] [opSrc a] [linkPut s link (s.active g)] s r)
    (hmark : ∀ l : Fin 32, has (s.active g) l = true → s.curLaunch.headers.contains ((r.w 0)[l]).toNat = true)
    (hregion : leavesRegion s (s.active g) (regTargets r) = 0) :
    execCallIndirect g link a s = .next (advance (jumpLanes (s.active g) (fun l => ((r.w 0)[l]).toNat)
      (written r [linkPut s link (s.active g)] s))) := by
  rw [execCallIndirect, bind_ok_eq h.issue, bind_ok_eq h.sources, bind_ok_eq (checkJump_regTargets_ok hmark hregion),
    bind_ok_eq (commit_ok h.dests), jumpTo_regTargets]
  rfl

section
variable {a : Operand} {bad : Mask} (hread : readAll g [opSrc a] s = .ok r) (hne : bad ≠ 0)
  (hbad : ∀ l : Fin 32, has bad l = (has (s.active g) l && !s.curLaunch.headers.contains ((r.w 0)[l]).toNat))
include hread hne hbad

theorem runIndirect_of_unmarked (hissue : checkIssue g [a] false s = .ok ()) :
    runIndirect g a s = .error (.trap (s.trapReq 0x03 bad)) := by
  rw [runIndirect, bind_ok_eq hissue, bind_ok_eq hread, bind_error_eq (checkJump_regTargets_unmarked hne hbad)]

theorem execCallIndirect_of_unmarked {link : Operand} (hissue : checkIssue g [link, a] false s = .ok ()) :
    execCallIndirect g link a s = .next (raiseTrap (s.trapReq 0x03 bad) s) := by
  rw [execCallIndirect, bind_ok_eq hissue, bind_ok_eq hread, bind_error_eq (checkJump_regTargets_unmarked hne hbad)]
  rfl

end

end

/-- Settles O45: a transfer's checks pass or stop at its target, and then its lanes go where it says. -/
theorem transfersComplete : Obligations.TransfersComplete := by
  refine ⟨fun g target s hissue hpos hmark hregion => execBra_of_marked hissue hpos hmark hregion,
    fun g target s hencoding hmembers hbad => execBra_of_unmarked hencoding hmembers hbad,
    fun g link target s hlink hencoding hmembers hbad => execCall_of_unmarked hlink hencoding hmembers hbad, ?_, ?_,
    fun g link target s r h hpos hmark hregion => execCall_of_marked h hpos hmark hregion,
    fun g link a s r h hmark hregion => execCallIndirect_of_marked h hmark hregion⟩
  · rintro i g ops a s r m (⟨rfl | rfl, rfl⟩ | ⟨link, rfl, rfl⟩) hissue hread hne hbad
    · exact congrArg (finish · s) (runIndirect_of_unmarked hread hne hbad hissue)
    · exact congrArg (finish · s) (runIndirect_of_unmarked hread hne hbad hissue)
    · exact execCallIndirect_of_unmarked hread hne hbad hissue
  · rintro i g a s r (rfl | rfl) h hmark hregion
    · exact congrArg (finish · s) (runIndirect_of_marked h hmark hregion)
    · exact congrArg (finish · s) (runIndirect_of_marked h hmark hregion)

end Sys2Proof.Machine
end

section
/-!
PROOFS. PMOV.set, KILLV and NOP (R122, R145, R149, R159).
-/

namespace Sys2Proof.Machine

theorem AMap.get?_eq_none {α : Type} {m : AMap α} {k : Nat} (h : k ∉ m.map Prod.fst) : AMap.get? m k = none := by
  induction m with
  | nil => rfl
  | cons p t ih =>
    rw [List.map_cons, List.mem_cons, not_or] at h
    rw [AMap.get?, if_neg (Ne.symm h.1), ih h.2]

/-- Where no key stands twice, an erased key is gone. -/
theorem AMap.get?_erase_same {α : Type} {m : AMap α} (k : Nat) (h : (m.map Prod.fst).Nodup) :
    AMap.get? (AMap.erase m k) k = none := by
  induction m with
  | nil => rfl
  | cons p t ih =>
    obtain ⟨hhead, htail⟩ := List.nodup_cons.mp h
    by_cases hk : p.1 = k
    · rw [AMap.erase, if_pos hk]
      exact AMap.get?_eq_none (hk ▸ hhead)
    · rw [AMap.erase, if_neg hk, AMap.get?, if_neg hk, ih htail]

theorem get?_killNames_single {v : AMap Slot} {n : Nat} {m : Mask} {sl : Slot} (hnodup : (v.map Prod.fst).Nodup)
    (hsl : AMap.get? v n = some sl) : AMap.get? (killNames v [(n, m)]) n =
      if sl.mask &&& ~~~ m = 0 then none else some { sl with mask := sl.mask &&& ~~~ m } := by
  simp only [killNames, List.foldl_cons, List.foldl_nil, hsl]
  split
  · exact AMap.get?_erase_same n hnodup
  · exact AMap.get?_set_same v n _

/-- R159: the chosen predicates take the active lanes' bits; the others, and the other lanes, stay. -/
theorem setPreds_eq (p : Vector Mask 7) (m : Mask) (mask : Word) (a : Lanes Word) :
    setPreds p m mask a = Vector.ofFn fun i : Fin 7 => maskOf fun l =>
      if mask.getLsbD i.val && has m l then (a[l]).getLsbD i.val else has p[i] l := by
  refine congrArg Vector.ofFn (funext fun i => has_ext fun l => ?_)
  rw [has_maskOf]
  cases mask.getLsbD i.val with
  | false => rfl
  | true =>
    rw [if_pos rfl, has_or, has_and, has_and, has_not, has_maskOf, Bool.true_and]
    cases has m l <;> simp

theorem execPmovSet_of_ready {g : Guard} {a mask : Src} {s : State} {r : Reading}
    (h : Ready g (opsOf .zero [srcI a, srcU mask]) [srcI a, srcU mask] [] s r) :
    execPmovSet g a mask s = .next (advance (onActive g s
      (fun t => t.updReg fun x => { x with p := setPreds x.p (s.active g) (uval (s.active g) (r.w 1)) (r.w 0) })
      (written r [] s))) := by
  unfold execPmovSet
  dsimp only
  rw [bind_ok_eq h.issue, bind_ok_eq h.sources, bind_ok_eq (commit_ok h.dests)]
  rfl

/-- Settles O20: PMOV.set predicate by predicate, and KILLV name by name. -/
theorem predicatesAndReleasesComplete : Obligations.PredicatesAndReleasesComplete := by
  refine ⟨fun g a mask s r => ?_, fun g a b c s => ?_, fun v n m sl hnodup hsl => get?_killNames_single hnodup hsl,
    fun g s hissue => ?_⟩
  · intro qs m w h
    refine (execPmovSet_of_ready h).trans ?_
    simp only [setPreds_eq]
    rfl
  · intro ks v rel hissue hroom
    change execKillv g a b c s = _
    unfold execKillv
    dsimp only
    rw [bind_ok_eq hissue, hroom, bind_ok_eq stallIf_false]
    rfl
  · change execNop g s = _
    rw [execNop, bind_ok_eq hissue]
    rfl

end Sys2Proof.Machine
end

section
/-!
PROOFS. Sources (R131, R132, R147, R155 to R157, R171, R286).
-/

namespace Sys2Proof.Machine

/-! ### What reading one source comes to -/

/-- The low word of a source, with what reading it does to streams and predicates. -/
def readFirst (m : Mask) (s0 : State) (acc : Reading) (q : SrcSpec) : Except Stop (Lanes Word × State × Vector Mask 7) :=
  match q.op with
  | .z n => readStream m m n s0 acc.st acc.preds
  | o => pure (wordOf s0 q.imm o 0, acc.st, acc.preds)

/-- The words of a source whose low one is known. -/
def wordsOf (s0 : State) (q : SrcSpec) (v : Lanes Word) : Rd :=
  #v[v, if 2 ≤ q.n then wordOf s0 q.imm q.op 1 else splat 0, if 3 ≤ q.n then wordOf s0 q.imm q.op 2 else splat 0,
    if 4 ≤ q.n then wordOf s0 q.imm q.op 3 else splat 0]

theorem readFirst_of_ne_z {m : Mask} {s0 : State} {acc : Reading} {q : SrcSpec} (h : ∀ n, q.op ≠ .z n) :
    readFirst m s0 acc q = .ok (wordOf s0 q.imm q.op 0, acc.st, acc.preds) := by
  unfold readFirst
  split
  · next n hn => exact absurd hn (h n)
  · rfl

theorem readFirst_z {m : Mask} {s0 : State} {acc : Reading} {q : SrcSpec} {n : Fin 8} (h : q.op = .z n) :
    readFirst m s0 acc q = readStream m m n s0 acc.st acc.preds := by
  rw [readFirst, h]

/-- A source that has been read had no latch without a value and no dead lane. -/
theorem readSrc_eq_ok {m rs : Mask} {s0 : State} {acc r : Reading} {q : SrcSpec} (h : readSrc m rs s0 acc q = .ok r) :
    badLatch s0 m q.op = 0 ∧ deadLanes s0 m q.op q.n = 0 ∧ ∃ v st preds, readFirst m s0 acc q = .ok (v, st, preds) ∧
      r = { vals := acc.vals ++ [wordsOf s0 q v], st, preds,
            names := acc.names ++ namesRead s0.curWarp rs q.op q.n,
            holds := if q.hold then acc.holds ++ [v] else acc.holds } := by
  obtain ⟨_, hlatch, h⟩ := bind_eq_ok h
  obtain ⟨_, hdead, h⟩ := bind_eq_ok h
  obtain ⟨⟨v, st, preds⟩, hfirst, h⟩ := bind_eq_ok h
  obtain ⟨_, -, h⟩ := bind_eq_ok h
  cases h
  exact ⟨trapIf_ok hlatch, trapIf_ok hdead, v, st, preds, hfirst, rfl⟩

/-- What an instruction's reads begin from. -/
def readStart (s : State) : Reading := { vals := [], st := s, preds := s.curWarp.reg.p, names := [], holds := [] }

theorem readAll_single {g : Guard} {q : SrcSpec} {s : State} {r : Reading} (h : readAll g [q] s = .ok r) :
    badLatch s (s.active g) q.op = 0 ∧ ∃ st preds, readFirst (s.active g) s (readStart s) q = .ok (r.w 0, st, preds) := by
  obtain ⟨r', hread, h⟩ := bind_eq_ok h
  cases h
  obtain ⟨hlatch, -, v, st, preds, hfirst, rfl⟩ := readSrc_eq_ok hread
  exact ⟨hlatch, st, preds, hfirst⟩

/-- A source that is no stream reads as its low word. -/
theorem readAll_single_of_ne_z {g : Guard} {q : SrcSpec} {s : State} {r : Reading} (h : readAll g [q] s = .ok r)
    (hz : ∀ n, q.op ≠ .z n) : r.w 0 = wordOf s q.imm q.op 0 := by
  obtain ⟨-, st, preds, hfirst⟩ := readAll_single h
  rw [readFirst_of_ne_z hz] at hfirst
  exact (congrArg Prod.fst (Except.ok.inj hfirst)).symm

/-- R155: a latch that has been read holds a value in every active lane. -/
theorem life_of_badLatch {s : State} {m : Mask} {n : Fin 3} (h : badLatch s m (.lat n) = 0) {l : Fin 32}
    (hl : has m l = true) : (s.curWarp.reg.lat[n]).life[l] ≠ 0 := by
  intro hlife
  have hbit := congrArg (has · l) h
  simp [badLatch, hl] at hbit
  simp [has] at hbit
  exact hbit hlife

/-! ### The classes of operands -/

section
variable (s : State) (k : ImmK) (l : Fin 32)

theorem splat_get (x : Word) : (splat x)[l] = x := by simp [splat]

theorem wordOf_s (n : Fin 64) : (wordOf s k (.s n) 0)[l] = s.curWarp.reg.s[n] := by simp [wordOf, splat]

theorem wordOf_w (n : Fin 32) : (wordOf s k (.w n) 0)[l] =
    if s.curBlock.wOwner[n] = some s.cur.warp then s.curBlock.wPend[n] else s.curBlock.w[n] := by
  simp [wordOf, splat, wRead]

theorem wordOf_p (n : Fin 8) : (wordOf s k (.p n) 0)[l] =
    if h : n.val < 7 then (if (s.curWarp.reg.p[n.val]).getLsbD l.val then 1 else 0) else 1 := by
  by_cases h : n.val < 7
  · have hne : n.val ≠ 7 := by omega
    simp [wordOf, h, hne, has]
  · have heq : n.val = 7 := by omega
    simp [wordOf, heq]

theorem wordOf_imm (c : Fin 64) : (wordOf s .int (.imm c) 0)[l] = BitVec.ofInt 32 ((c.val : Int) - 32) := by
  simp [wordOf, splat, immWords, immOf]

theorem wordOf_x (n : Fin 8) : (wordOf s k (.x n) 0)[l] =
    ((s.curWarp.reg.x[n])[l]).limit ++ ((s.curWarp.reg.x[n])[l]).cursor := by
  simp [wordOf]

theorem wordOf_m {n : Fin 16} {v : Fin 256} (h : renameOf s.curWarp n l = some v) :
    (wordOf s k (.m n) 0)[l] = (slotOf s.curWarp.reg v.val).vals[l] := by
  simp [wordOf, mName, h]

end

/-! ### Streams (R286) -/

theorem readStream_unbound {m : Mask} {n : Fin 8} {s : State} {preds : Vector Mask 7} {x : Lanes Word × State × Vector Mask 7}
    (hz : s.curWarp.reg.z[n] = none) (h : readStream m m n s s preds = .ok x) : m = 0 := by
  rw [readStream, hz] at h
  obtain ⟨_, htrap, -⟩ := bind_eq_ok h
  exact trapIf_ok htrap

/-- A stream past its end delivers 0 and stays. -/
theorem readStream_exhausted {m : Mask} {n : Fin 8} {s0 st : State} {preds : Vector Mask 7} {z : Stream}
    (hz : st.curWarp.reg.z[n] = some z) (hend : z.exhausted = true) :
    readStream m m n s0 st preds = .ok (splat 0, st, z.preds m preds) := by
  rw [readStream, hz]
  exact if_pos hend

/-- What is left of a walk once its element is delivered (R286, R287). -/
def walked (n : Fin 8) (z : Stream) (st : State) : State :=
  { st.updReg (fun g => { g with z := g.z.set n (some (Stream.fetch st { z.next with ahead := z.ahead.tail })) }) with
    freeCtr := st.freeCtr + 1 }

theorem readStream_bound {m : Mask} {n : Fin 8} {s0 st : State} {preds : Vector Mask 7} {z : Stream}
    {x : Lanes Word × State × Vector Mask 7} (hz : st.curWarp.reg.z[n] = some z) (hmore : z.exhausted = false)
    (h : readStream m m n s0 st preds = .ok x) :
    ∃ v t, streamLoad st m z = .ok (v, t) ∧ x = (v, walked n z t, z.preds m preds) := by
  rw [readStream, hz] at h
  obtain ⟨⟨v, t⟩, hload, h⟩ := bind_eq_ok ((if_neg (by simp [hmore])).symm.trans h)
  exact ⟨v, t, hload, (Except.ok.inj h).symm⟩

theorem streamLoad_eq_ok {s t : State} {m : Mask} {z : Stream} {v : Lanes Word} (h : streamLoad s m z = .ok (v, t)) :
    ∃ now s1, streamBytes s m z = .ok (now, s1) ∧ t = { s1 with freeCtr := s1.freeCtr + 1 } ∧
      (z.ahead = [] → ∀ (l : Fin 32) (p : Fin 32 × List Byte), (now.find? fun p => p.1 == l) = some p →
        v[l] = elemExtend z.desc.esize (leNat p.2)) := by
  obtain ⟨⟨now, s1⟩, hnow, h⟩ := bind_eq_ok h
  obtain ⟨hv, ht⟩ := Prod.mk.inj (Except.ok.inj h)
  exact ⟨now, s1, hnow, ht.symm, fun hahead l p hp => by rw [← hv, tab_get, hp, hahead]; rfl⟩

/-- A stream that has fetched nothing ahead delivers the element as it is now. -/
theorem readStream_delivers {m : Mask} {n : Fin 8} {s s1 : State} {preds : Vector Mask 7} {z : Stream}
    {x : Lanes Word × State × Vector Mask 7} {now : List (Fin 32 × List Byte)} {p : Fin 32 × List Byte} {l : Fin 32}
    (hz : s.curWarp.reg.z[n] = some z) (hmore : z.exhausted = false) (hahead : z.ahead = [])
    (hnow : streamBytes s m z = .ok (now, s1)) (hp : (now.find? fun p => p.1 == l) = some p)
    (h : readStream m m n s s preds = .ok x) : (x.1)[l] = elemExtend z.desc.esize (leNat p.2) := by
  obtain ⟨v, t, hload, rfl⟩ := readStream_bound hz hmore h
  obtain ⟨now', s1', hnow', -, hv⟩ := streamLoad_eq_ok hload
  cases hnow'.symm.trans hnow
  exact hv hahead l p hp

/-- Settles O9: by what reading one source comes to, for each class of operand. -/
theorem sourcesReadTheirValues : Obligations.SourcesReadTheirValues := by
  intro g a s r h l
  obtain ⟨hlatch, st, preds, hfirst⟩ := readAll_single h
  have hword (hz : ∀ n, a.op ≠ .z n) : r.w 0 = wordOf s .int a.op 0 := readAll_single_of_ne_z h hz
  refine ⟨fun n ha => ?_, fun n ha => ?_, fun n ha => ?_, fun n ha => ?_, fun ha => ?_, fun n ha => ?_, fun n ha => ?_,
    fun n ha => ?_, fun n v ha hv => ?_, fun n ha => ?_⟩
  case refine_10 =>
    rw [readFirst_z ha] at hfirst
    exact ⟨fun hz => readStream_unbound hz hfirst, fun x hz =>
      ⟨fun hend => by
        have hv : r.w 0 = splat 0 :=
          (congrArg Prod.fst (Except.ok.inj ((readStream_exhausted hz hend).symm.trans hfirst))).symm
        rw [hv]; exact splat_get l 0,
       fun hmore hahead now s1 p hnow hp => readStream_delivers hz hmore hahead hnow hp hfirst⟩⟩
  all_goals have hr := hword (by simp [ha]); rw [ha] at hr
  · rw [hr]; rfl
  · rw [hr]; exact wordOf_s s _ l n
  · rw [hr]; exact wordOf_w s _ l n
  · rw [hr]; exact wordOf_p s _ l n
  · rw [hr]; exact splat_get l 0
  · rw [hr]; exact wordOf_imm s l n
  · rw [hr]; exact ⟨rfl, life_of_badLatch (ha ▸ hlatch)⟩
  · rw [hr]; exact wordOf_x s _ l n
  · rw [hr]; exact wordOf_m s _ l hv

end Sys2Proof.Machine
end

section
/-!
PROOFS. Where the statements on the instructions that compute fail: they speak of every instruction, well formed or not, and `FMods`
can hold absolute-value modifiers of an FP64 instruction, which R211 does not have and `Instr.wf` refuses. The meaning of DADD
takes the absolute value; the result that the statements give leaves it out.
-/

namespace Sys2Proof.Machine

/-! ### A DADD with an absolute-value modifier -/

/-- `DADD v0, |s2|, s4`: the modifier has no place in a word. -/
def absDadd : Instr := .dadd (.pred false 7) ⟨.v 0, 0⟩ ⟨.s 2, false⟩ ⟨.s 4, false⟩ .rn ⟨false, false, false, true, false⟩

theorem decode_ne_absDadd (w : DWord) : decode w ≠ some absDadd := fun h =>
  Bool.false_ne_true (decodedWordsEncode w absDadd h).1

/-- What the statements say that it computes: the sum of its two sources as they stand. -/
def plainSum : Compute :=
  cPair (.pred false 7) ⟨.v 0, 0⟩ [srcD ⟨.s 2, false⟩, srcD ⟨.s 4, false⟩]
    (fun r l => FVal.add .rn (signed64 false r 0 l) (signed64 false r 1 l)) .rn

theorem computes_absDadd : computes absDadd = some plainSum := rfl

/-- Warp 0 of block 1 in an alu clause, with minus infinity in the pair s2 and plus infinity in the pair s4. -/
def infinities : State :=
  { placeWord State.reset 0x001C0A030260D000#64 with agenda := [], cur := ⟨1, 0, 0⟩ }.updReg fun r =>
    { r with s := (r.s.set 3 0xFFF00000#32).set 5 0x7FF00000#32 }

def infinitiesRead : Reading :=
  { vals := [#v[splat 0, splat 0xFFF00000#32, splat 0, splat 0], #v[splat 0, splat 0x7FF00000#32, splat 0, splat 0]],
    st := infinities, preds := infinities.curWarp.reg.p, names := [], holds := [] }

theorem eq_ok_unit {ε : Type} {x : Except ε Unit} (h : x.isOk = true) : x = .ok () := by
  cases x with
  | ok => rfl
  | error => cases h

theorem plainSum_normal : plainSum.Normal infinities infinitiesRead :=
  ⟨eq_ok_unit (by decide +kernel), by rfl, eq_ok_unit (by decide +kernel)⟩

theorem infinities_issues : infinities.Issues infinities.curBlock infinities.curWarp infinities.curSplit := by
  refine ⟨?_, ?_, ?_⟩ <;> rfl

/-! ### What comes of it -/

/-- Lane 0 of the high word of the result. -/
def highResult : Host.Outcome State Fault Refusal → Option Word
  | .next t => (AMap.get? t.curWarp.reg.v 1).map fun sl => sl.vals[(0 : Fin 32)]
  | _ => none

/-- The sticky events of the warp. -/
def eventsAfter : Host.Outcome State Fault Refusal → Option Word
  | .next t => some t.curWarp.reg.nstat
  | _ => none

/-- Infinity and infinity make infinity. -/
theorem highResult_absDadd : highResult (exec absDadd infinities) = some 0x7FF00000#32 := by decide +kernel

/-- And no event. -/
theorem eventsAfter_absDadd : eventsAfter (exec absDadd infinities) = some 0#32 := by decide +kernel

/-- The plain sum of minus and plus infinity is a NaN. -/
theorem plainSum_high : (plainSum.val infinities infinitiesRead 0).2.1 = 0x7FF80000#32 := by decide +kernel

/-- It sets the event of an invalid operation. -/
theorem plainSum_events : infinities.curWarp.reg.nstat |||
    w32 (flagsOn (infinities.active plainSum.g) fun l => (plainSum.val infinities infinitiesRead l).2.2).bits ≠ 0#32 := by
  decide +kernel

/-- Refutes O11: `DADD v0, |s2|, s4` of minus and plus infinity puts plus infinity into v1:v0, and not the sum of the sources, a
NaN. The statement does not ask that the instruction be well formed, and this one, which no word decodes to, is not. -/
theorem not_destinationsTakeResult : ¬ Obligations.DestinationsTakeResult := by
  intro h
  obtain ⟨t, -, hexec, -, -, -, hpair⟩ := h.1.1 absDadd plainSum infinities infinitiesRead _ _ _ 0 computes_absDadd
    plainSum_normal infinities_issues rfl (fun _ => by decide) (by decide +kernel)
  obtain ⟨sh, hsh, -, hlanes⟩ := hpair rfl
  have hlane := hlanes 0
  rw [if_pos (by decide +kernel), plainSum_high] at hlane
  have hresult := highResult_absDadd
  rw [hexec, highResult, show (1 : Nat) = (0 : Fin 256).val + 1 from rfl, hsh] at hresult
  exact absurd (hlane.2.symm.trans (Option.some.inj hresult)) (by decide)

/-- Refutes O17: the same DADD sets no event, and the sum of its sources, by which the statement gives NSTAT, is an invalid
operation. Only the clause on NSTAT is used here. -/
theorem not_computingFrame : ¬ Obligations.ComputingFrame := by
  intro h
  obtain ⟨t, hexec, -, -, -, -, -, hnstat, -⟩ := h absDadd plainSum infinities infinitiesRead _ _ _ computes_absDadd
    plainSum_normal infinities_issues
  have hevents := eventsAfter_absDadd
  rw [hexec] at hevents
  exact plainSum_events (hnstat.symm.trans (Option.some.inj hevents))

end Sys2Proof.Machine
end

section
/-!
PROOFS. Index registers (R156, R160).
-/

namespace Sys2Proof.Machine

/-! ### Setting them -/

theorem extractLsb'_low (n : Nat) {k : Nat} (x : BitVec k) : x.extractLsb' 0 n = BitVec.ofNat n x.toNat := rfl

/-- A cursor goes on by the low half of its source. -/
theorem cursor_add_low (c : BitVec 16) (x : Word) : c + x.extractLsb' 0 16 = BitVec.ofNat 16 (c.toNat + x.toNat) := by
  rw [extractLsb'_low, BitVec.ofNat_add, BitVec.ofNat_toNat 16 c, BitVec.setWidth_eq]

section
variable {g : Guard} {x : Fin 8} {a b c : Src} {s : State} {r : Reading}

theorem execSetx_of_ready
    (h : Ready g (opsOf .zero [srcI a, srcI b, srcI c]) [srcI a, srcI b, srcI c] [] s r) :
    execSetx g x a b c s = .next (advance (setX x (s.active g) (fun l _ =>
      { base := BitVec.ofNat 16 ((r.w 0)[l]).toNat, limit := BitVec.ofNat 16 ((r.w 1)[l]).toNat
        cursor := BitVec.ofNat 16 ((r.w 2)[l]).toNat }) (written r [] s))) := by
  unfold execSetx
  dsimp only
  rw [bind_ok_eq h.issue, bind_ok_eq h.sources, bind_ok_eq (commit_ok h.dests)]
  rfl

section
variable (h : Ready g (opsOf .zero [srcI a]) [srcI a] [] s r)
include h

theorem execSetxCur_of_ready : execSetxCur g x a s = .next (advance (setX x (s.active g) (fun l e =>
    { e with cursor := BitVec.ofNat 16 ((r.w 0)[l]).toNat }) (written r [] s))) := by
  unfold execSetxCur
  dsimp only
  rw [bind_ok_eq h.issue, bind_ok_eq h.sources, bind_ok_eq (commit_ok h.dests)]
  rfl

theorem execSetxAdd_of_ready : execSetxAdd g x a s = .next (advance (setX x (s.active g) (fun l e =>
    { e with cursor := BitVec.ofNat 16 (e.cursor.toNat + ((r.w 0)[l]).toNat) }) (written r [] s))) := by
  unfold execSetxAdd
  dsimp only
  rw [bind_ok_eq h.issue, bind_ok_eq h.sources, bind_ok_eq (commit_ok h.dests)]
  simp only [cursor_add_low]
  rfl

end

end

/-! ### The name of a lane, and the lanes that have none -/

theorem indexed_eq (r : Regs) (x : Fin 8) (o : Nat) (l : Fin 32) : indexed r x o l =
    if ((r.x[x])[l]).cursor.toNat + o < ((r.x[x])[l]).limit.toNat ∧
      ((r.x[x])[l]).base.toNat + ((r.x[x])[l]).cursor.toNat + o < 256
    then some (((r.x[x])[l]).base.toNat + ((r.x[x])[l]).cursor.toNat + o) else none := by
  simp only [indexed, Nat.add_assoc]

theorem indexBad_eq {r : Regs} {x : Fin 8} {o : Nat} {m bad : Mask}
    (h : ∀ l : Fin 32, has bad l = (has m l && (indexed r x o l).isNone)) : indexBad r x o m = bad :=
  has_ext fun l => by rw [indexBad, has_and, has_maskOf, h l]

theorem indexBad_eq_zero {r : Regs} {x : Fin 8} {o : Nat} {m : Mask}
    (h : ∀ l : Fin 32, has m l = true → (indexed r x o l).isSome = true) : indexBad r x o m = 0 :=
  indexBad_eq fun l => by
    rw [has_zero]
    cases hl : has m l with
    | false => rfl
    | true => rw [Option.isNone_eq_false_iff.mpr (h l hl)]; rfl

/-- The lanes whose name is dead there. -/
def indexDead (r : Regs) (x : Fin 8) (o : Nat) (m : Mask) : Mask :=
  m &&& maskOf fun l => (indexed r x o l).any fun n => !has (slotOf r n).mask l

theorem indexDead_eq_zero {r : Regs} {x : Fin 8} {o : Nat} {m : Mask}
    (h : ∀ l : Fin 32, has m l = true → ∀ n, indexed r x o l = some n → has (slotOf r n).mask l = true) :
    indexDead r x o m = 0 :=
  has_ext fun l => by
    rw [indexDead, has_and, has_maskOf, has_zero]
    cases hl : has m l with
    | false => rfl
    | true => cases hn : indexed r x o l with
      | none => rfl
      | some n => simp [h l hl n hn]

/-! ### MOVX and MOVXW -/

theorem noLate_ok {s : State} (h : s.curWarp.late = []) : noLate s = .ok () := by rw [noLate, h]; rfl

/-- R160: an instruction whose registers no field names waits while any is awaited. -/
theorem noLate_stall {s : State} (h : s.curWarp.late ≠ []) : noLate s = .error .stall := by
  have hany : (!s.curWarp.late.isEmpty) = true := by simpa using h
  rw [noLate, hany, stallIf_true]

theorem trapIf_of_eq_zero {s : State} {k : Nat} {m : Mask} (h : m = 0) : trapIf s k m = .ok () := by rw [h, trapIf_zero]

section
variable {g : Guard} {d : Dst} {x : Fin 8} {o : Fin 128} {inc : Bool} {s : State}

/-- What MOVX reads. -/
def movxRead (g : Guard) (x : Fin 8) (o : Fin 128) (s : State) : Reading :=
  { vals := [rd1 (tab fun l => match indexed s.curWarp.reg x o.val l with
      | some n => (slotOf s.curWarp.reg n).vals[l]
      | none => 0)]
    st := s, preds := s.curWarp.reg.p, holds := []
    names := ((lanesOf (readers s.curWarp s.curSplit g)).filterMap fun l => indexed s.curWarp.reg x o.val l).eraseDups }

/-- MOVX once its checks at issue have passed: a dead name comes before a bound (R163). -/
theorem execMovx_of_issue (hissue : checkIssue g [d.op] false s = .ok ()) : execMovx g d x o inc s = finish (do
    noLate s
    trapIf s Kind.deadValue (indexDead s.curWarp.reg x o.val (s.active g))
    trapIf s Kind.indexBound (indexBad s.curWarp.reg x o.val (s.active g))
    let t ← commit (movxRead g x o s) [putOf d (s.active g) ((movxRead g x o s).w 0)] s
    pure (if inc then cursorInc x (s.active g) t else t)) s := by
  have hdead : indexDead s.curWarp.reg x o.val (s.active g) = s.active g &&& maskOf fun l =>
      match indexed s.curWarp.reg x o.val l with
      | some n => !has (slotOf s.curWarp.reg n).mask l
      | none => false := by
    refine congrArg (s.active g &&& maskOf ·) (funext fun l => ?_)
    cases indexed s.curWarp.reg x o.val l <;> rfl
  unfold execMovx
  dsimp only
  rw [bind_ok_eq hissue, hdead]
  rfl

theorem execMovx_of_ready (hissue : checkIssue g [d.op] false s = .ok ()) (hlate : s.curWarp.late = [])
    (hlive : ∀ l : Fin 32, has (s.active g) l = true →
      ∃ n, indexed s.curWarp.reg x o.val l = some n ∧ has (slotOf s.curWarp.reg n).mask l = true)
    (hdest : destCheck (movxRead g x o s) [putOf d (s.active g) ((movxRead g x o s).w 0)] s = .ok ()) :
    execMovx g d x o inc s = .next (advance (if inc
      then cursorInc x (s.active g) (written (movxRead g x o s) [putOf d (s.active g) ((movxRead g x o s).w 0)] s)
      else written (movxRead g x o s) [putOf d (s.active g) ((movxRead g x o s).w 0)] s)) := by
  have hdead : indexDead s.curWarp.reg x o.val (s.active g) = 0 := indexDead_eq_zero fun l hl n hn => by
    obtain ⟨k, hk, hmask⟩ := hlive l hl
    cases hn.symm.trans hk
    exact hmask
  have hbad : indexBad s.curWarp.reg x o.val (s.active g) = 0 := indexBad_eq_zero fun l hl => by
    obtain ⟨n, hn, -⟩ := hlive l hl
    rw [hn]; rfl
  rw [execMovx_of_issue hissue, bind_ok_eq (noLate_ok hlate), bind_ok_eq (trapIf_of_eq_zero hdead),
    bind_ok_eq (trapIf_of_eq_zero hbad), bind_ok_eq (commit_ok hdest)]
  rfl

theorem execMovx_of_late (hissue : checkIssue g [d.op] false s = .ok ()) (hlate : s.curWarp.late ≠ []) :
    execMovx g d x o inc s = .next s.waits := by
  rw [execMovx_of_issue hissue, bind_error_eq (noLate_stall hlate), finish_stall]

theorem execMovx_of_bound {bad : Mask} (hissue : checkIssue g [d.op] false s = .ok ()) (hlate : s.curWarp.late = [])
    (hne : bad ≠ 0) (hlive : ∀ l : Fin 32, has (s.active g) l = true → ∀ n,
      indexed s.curWarp.reg x o.val l = some n → has (slotOf s.curWarp.reg n).mask l = true)
    (hbad : ∀ l : Fin 32, has bad l = (has (s.active g) l && (indexed s.curWarp.reg x o.val l).isNone)) :
    execMovx g d x o inc s = .next (raiseTrap (s.trapReq 0x06 bad) s) := by
  rw [execMovx_of_issue hissue, bind_ok_eq (noLate_ok hlate), bind_ok_eq (trapIf_of_eq_zero (indexDead_eq_zero hlive)),
    indexBad_eq hbad, bind_error_eq (trapIf_some hne), finish_trap]
  rfl

variable {a : Src} {cc : Fin 8}

/-- What MOVXW puts into each distinct name that its lanes write. -/
def movxwPuts (g : Guard) (x : Fin 8) (o : Fin 128) (cc : Fin 8) (v : Lanes Word) (s : State) : List Put :=
  (((lanesOf (s.active g)).filterMap fun l => indexed s.curWarp.reg x o.val l).eraseDups).map fun n =>
    ⟨.v (Fin.ofNat 256 n), cc.val, s.active g &&& maskOf fun l => indexed s.curWarp.reg x o.val l == some n, v⟩

theorem execMovxw_of_ready {r : Reading}
    (h : Ready g (opsOf .zero [srcI a]) [srcI a] (movxwPuts g x o cc (r.w 0) s) s r) (hlate : s.curWarp.late = [])
    (hin : ∀ l : Fin 32, has (s.active g) l = true → (indexed s.curWarp.reg x o.val l).isSome = true) :
    execMovxw g x o a cc inc s = .next (advance (if inc
      then cursorInc x (s.active g) (written r (movxwPuts g x o cc (r.w 0) s) s)
      else written r (movxwPuts g x o cc (r.w 0) s) s)) := by
  unfold execMovxw
  dsimp only
  rw [bind_ok_eq h.issue, bind_ok_eq (noLate_ok hlate), bind_ok_eq (trapIf_of_eq_zero (indexBad_eq_zero hin)),
    bind_ok_eq h.sources]
  exact congrArg (finish · s) (bind_ok_eq (commit_ok h.dests) _)

theorem execMovxw_of_late (hissue : checkIssue g [.zero, a.op] false s = .ok ()) (hlate : s.curWarp.late ≠ []) :
    execMovxw g x o a cc inc s = .next s.waits := by
  unfold execMovxw
  dsimp only
  exact (congrArg (finish · s) ((bind_ok_eq hissue _).trans (bind_error_eq (noLate_stall hlate) _))).trans (finish_stall s)

end

/-- Settles O19: an index register takes the low halves of its sources, and MOVX and MOVXW pass their checks, wait at the
first of them, or stop at the bound. -/
theorem indexRegistersComplete : Obligations.IndexRegistersComplete := by
  refine ⟨?setx, ?setxCur, ?setxAdd, ?movx, ?movxw, ?bounds, ?movxWaits, ?movxwWaits, ?movxFaults⟩
  case setx => exact fun g x a b c s r => execSetx_of_ready
  case setxCur => exact fun g x a s r => execSetxCur_of_ready
  case setxAdd => exact fun g x a s r => execSetxAdd_of_ready
  case movx => exact fun g d x o inc s hissue hlate hlive hdest => execMovx_of_ready hissue hlate hlive hdest
  case movxw => exact fun g x o a cc inc s r h hlate hin => execMovxw_of_ready h hlate hin
  case bounds => exact indexed_eq
  case movxWaits => exact fun g d x o inc s => execMovx_of_late
  case movxwWaits => exact fun g x o a cc inc s => execMovxw_of_late
  case movxFaults => exact fun g d x o inc s m hissue hlate hne => execMovx_of_bound hissue hlate hne

end Sys2Proof.Machine
end

section
/-!
PROOFS. The phases of block barriers (R157, R388, R389, R393).
-/

namespace Sys2Proof.Machine

theorem AMap.mem_mapVals {α : Type} {m : AMap α} {f : Nat → α → α} {p : Nat × α} (h : p ∈ AMap.mapVals m f) :
    ∃ q ∈ m, p = (q.1, f q.1 q.2) := by
  obtain ⟨q, hq, e⟩ := List.mem_map.mp h
  exact ⟨q, hq, e.symm⟩

/-! ### What the end of a phase clears (R389) -/

section
variable (b : Bar) (w : Warp)

/-- The end of a phase changes a warp's barrier flags alone. -/
theorem Warp.clearArrived_eq : ∃ o, w.clearArrived b = { w with ord := o } := by
  unfold Warp.clearArrived
  split <;> exact ⟨_, rfl⟩

theorem Warp.arrived_clearArrived : (barFlags (w.clearArrived b) b).arrived = 0 := by
  unfold Warp.clearArrived
  split
  · next h => simp [barFlags, AMap.getD, h, BarFlags.none]
  · simp [barFlags]

@[simp] theorem Warp.lane_clearArrived : (w.clearArrived b).lane = w.lane := by
  obtain ⟨o, h⟩ := w.clearArrived_eq b
  rw [h]

@[simp] theorem Warp.late_clearArrived : (w.clearArrived b).late = w.late := by
  obtain ⟨o, h⟩ := w.clearArrived_eq b
  rw [h]; rfl

end

/-! ### A block barrier's phase (R388) -/

/-- A block whose phase of a block barrier has completed. -/
def Block.phaseEnds (b : Bar) (x : Block) : Block :=
  if b.idx = 0 then (({ x with bphase := vmod x.bphase b.idx.val (· + 1) }).clearArrived b).commitUniform
  else ({ x with bphase := vmod x.bphase b.idx.val (· + 1) }).clearArrived b

section
variable (b : Bar) (x : Block)

theorem Block.bphase_phaseEnds : (x.phaseEnds b).bphase[b.idx] = x.bphase[b.idx] + 1 := by
  have hset : (x.phaseEnds b).bphase = vmod x.bphase b.idx.val (· + 1) := by
    unfold Block.phaseEnds
    split <;> rfl
  simp [hset]

theorem Block.warps_phaseEnds : (x.phaseEnds b).warps = AMap.mapVals x.warps fun _ w => w.clearArrived b := by
  unfold Block.phaseEnds
  split <;> rfl

theorem Block.arrived_phaseEnds : ∀ p ∈ (x.phaseEnds b).warps, (barFlags p.2 b).arrived = 0 := by
  intro p hp
  rw [Block.warps_phaseEnds] at hp
  obtain ⟨q, -, rfl⟩ := AMap.mem_mapVals hp
  exact Warp.arrived_clearArrived b q.2

section
variable {b x} (hb : b.idx = 0)
include hb

theorem Block.w_phaseEnds (n : Fin 32) :
    (x.phaseEnds b).w[n] = if x.wOwner[n].isSome then x.wPend[n] else x.w[n] := by
  rw [Block.phaseEnds, if_pos hb]
  simp [Block.commitUniform, Block.clearArrived]

theorem Block.wOwner_phaseEnds {n : Fin 32}
    (hlate : x.warps.any (fun p => p.2.late.any fun d => d.d == .w n) = false) : (x.phaseEnds b).wOwner[n] = none := by
  rw [Block.phaseEnds, if_pos hb]
  simp only [Block.commitUniform, Block.clearArrived, AMap.mapVals, List.any_map, Function.comp_def, Warp.late_clearArrived,
    Fin.getElem_fin, Vector.getElem_ofFn, Fin.eta, hlate]
  rfl

end

end

section
variable {s : State} {u wn : Nat} {b : Bar} {x : Block} (hscope : b.scope = .blk)
include hscope

theorem settleBarrier_of_unfinished (h : blockArrived (s.block u) b = false) : settleBarrier u wn b s = s := by
  have hphase : phaseComplete s u wn b = false := by rw [phaseComplete, hscope]; exact h
  rw [settleBarrier, hphase]
  rfl

theorem settleBarrier_of_finished (h : blockArrived (s.block u) b = true) :
    settleBarrier u wn b s = s.updBlock u (Block.phaseEnds b) := by
  have hphase : phaseComplete s u wn b = true := by rw [phaseComplete, hscope]; exact h
  rw [settleBarrier, hphase, hscope]
  rfl

end

/-- Settles O41: where the phase is complete, settling the barrier ends it; where it is not, it does nothing. -/
theorem blockBarrierPhase : Obligations.BlockBarrierPhase := by
  intro s u wn b bl hblock hscope
  have hbl : s.block u = bl := State.block_of hblock
  refine ⟨fun harrived => ?_, fun hmissing => settleBarrier_of_unfinished hscope (by rw [hbl]; exact hmissing)⟩
  have hends : (settleBarrier u wn b s).block u = bl.phaseEnds b := by
    rw [settleBarrier_of_finished hscope (by rw [hbl]; exact harrived), State.block_updBlock_of _ hblock]
  dsimp only
  rw [hends]
  exact ⟨bl.bphase_phaseEnds b, bl.arrived_phaseEnds b, fun hb n => ⟨Block.w_phaseEnds hb n, Block.wOwner_phaseEnds hb⟩⟩

end Sys2Proof.Machine
end

section
/-!
PROOFS. The lanes of a warp, which the end of a barrier's phase leaves as they are, and EXIT (R149, R166, R182, R478).
-/

namespace Sys2Proof.Machine

/-! ### The lanes of a warp -/

/-- The lanes of a warp of a block. -/
def Block.laneOf (x : Block) (wn : Nat) : Option LaneState := (AMap.get? x.warps wn).map Warp.lane

/-- The lanes of a warp, where the block and the warp are there. -/
def State.laneOf (s : State) (u wn : Nat) : Option LaneState := (AMap.get? s.blocks u).bind fun x => x.laneOf wn

theorem State.laneOf_eq {s : State} {u wn : Nat} {x : Block} {w : Warp} (hx : AMap.get? s.blocks u = some x)
    (hw : AMap.get? x.warps wn = some w) : s.laneOf u wn = some w.lane := by
  rw [State.laneOf, hx, Option.bind_some, Block.laneOf, hw, Option.map_some]

theorem State.laneOf_eq_some {s : State} {u wn : Nat} {l : LaneState} (h : s.laneOf u wn = some l) :
    ∃ w, AMap.get? (s.block u).warps wn = some w ∧ w.lane = l := by
  obtain ⟨x, hx, h⟩ := Option.bind_eq_some_iff.mp h
  obtain ⟨w, hw, hl⟩ := Option.map_eq_some_iff.mp h
  exact ⟨w, by rw [State.block_of hx]; exact hw, hl⟩

theorem State.lane_of_laneOf {s : State} {u wn : Nat} {l : LaneState} (h : s.laneOf u wn = some l) :
    (AMap.getD (s.block u).warps wn default).lane = l := by
  obtain ⟨w, hw, hl⟩ := State.laneOf_eq_some h
  rw [AMap.getD_of default hw, hl]

/-- A change of the warps that leaves each one's lanes as they are. -/
theorem Block.laneOf_modify {x : Block} {v : Nat} {f : Warp → Warp} (hf : ∀ w, (f w).lane = w.lane) (wn : Nat) :
    (AMap.get? (AMap.modify x.warps v f) wn).map Warp.lane = x.laneOf wn := by
  rw [AMap.get?_modify]
  split
  · next h => rw [h, Option.map_map, Block.laneOf]; congr 1; exact funext hf
  · rfl

theorem Block.laneOf_mapVals {x : Block} {f : Nat → Warp → Warp} (hf : ∀ n w, (f n w).lane = w.lane) (wn : Nat) :
    (AMap.get? (AMap.mapVals x.warps f) wn).map Warp.lane = x.laneOf wn := by
  rw [AMap.get?_mapVals, Option.map_map, Block.laneOf]
  congr 1
  exact funext (hf wn)

@[simp] theorem Block.laneOf_clearArrived (b : Bar) (x : Block) (wn : Nat) : (x.clearArrived b).laneOf wn = x.laneOf wn :=
  Block.laneOf_mapVals (fun _ w => w.lane_clearArrived b) wn

@[simp] theorem Block.laneOf_phaseEnds (b : Bar) (x : Block) (wn : Nat) : (x.phaseEnds b).laneOf wn = x.laneOf wn := by
  rw [Block.laneOf, Block.warps_phaseEnds]
  exact Block.laneOf_mapVals (fun _ w => w.lane_clearArrived b) wn

section
variable {s : State} {v : Nat}

theorem State.laneOf_updBlock {f : Block → Block} (hf : ∀ x wn, (f x).laneOf wn = x.laneOf wn) (u wn : Nat) :
    (s.updBlock v f).laneOf u wn = s.laneOf u wn := by
  rw [State.laneOf, State.updBlock, AMap.get?_modify]
  split
  · next h =>
    rw [h, State.laneOf]
    cases AMap.get? s.blocks v with
    | none => rfl
    | some x => exact hf x wn
  · rfl

theorem State.laneOf_updWarpOf {vn : Nat} {f : Warp → Warp} (hf : ∀ w, (f w).lane = w.lane) (u wn : Nat) :
    (s.updWarpOf v vn f).laneOf u wn = s.laneOf u wn :=
  State.laneOf_updBlock (f := Block.updWarp vn f) (fun _ wn => Block.laneOf_modify hf wn) u wn

theorem State.laneOf_mapVals {f : Nat → Block → Block} (hf : ∀ n x wn, (f n x).laneOf wn = x.laneOf wn) (u wn : Nat) :
    State.laneOf { s with blocks := AMap.mapVals s.blocks f } u wn = s.laneOf u wn := by
  rw [State.laneOf, AMap.get?_mapVals, State.laneOf]
  cases AMap.get? s.blocks u with
  | none => rfl
  | some x => exact hf u x wn

end

/-- The end of a phase leaves every lane as it is. -/
theorem laneOf_settleBarrier (v vn : Nat) (b : Bar) (s : State) (u wn : Nat) :
    (settleBarrier v vn b s).laneOf u wn = s.laneOf u wn := by
  unfold settleBarrier
  split
  · rfl
  · dsimp only
    split
    · refine State.laneOf_updWarpOf (fun w => ?_) u wn
      exact Warp.lane_clearArrived b _
    · exact State.laneOf_updBlock (f := Block.phaseEnds b) (Block.laneOf_phaseEnds b) u wn
    · refine (State.laneOf_mapVals (fun n x k => ?_) u wn).trans rfl
      split
      · exact Block.laneOf_clearArrived b x k
      · rfl

theorem laneOf_settleExit (v vn : Nat) (s : State) (u wn : Nat) : (settleExit v vn s).laneOf u wn = s.laneOf u wn :=
  foldl_keeps (State.laneOf · u wn) _ (fun t k => laneOf_settleBarrier v vn (barOfKey k) t u wn) _ s

theorem laneOf_advance (s : State) (u wn : Nat) : (advance s).laneOf u wn = s.laneOf u wn := by
  refine (State.laneOf_updWarpOf (fun w => ?_) u wn).trans (State.laneOf_updWarpOf (fun w => ?_) u wn) <;> rfl

/-! ### EXIT (R166, R182) -/

/-- A warp after lanes of it exit while others stay and none of it runs a serial region. -/
def Warp.exit (m : Mask) (w : Warp) : Warp :=
  { w with lane := { w.lane with
      live := w.lane.live &&& ~~~ m
      inMeld := w.lane.inMeld &&& ~~~ m
      inSerial := w.lane.inSerial &&& ~~~ m
      serWait := w.lane.serWait &&& ~~~ m
      inHandler := w.lane.inHandler &&& ~~~ m } }.leave m

section
variable {s : State} {u wn : Nat} {m : Mask} {x : Block} {w : Warp} (hx : AMap.get? s.blocks u = some x)
  (hw : AMap.get? x.warps wn = some w)
include hx hw

theorem laneOf_exit : (s.updWarpOf u wn (Warp.exit m)).laneOf u wn = some (w.exit m).lane := by
  refine State.laneOf_eq (x := x.updWarp wn (Warp.exit m)) ?_ ?_
  · rw [State.updWarpOf, State.updBlock, AMap.get?_modify_same, hx, Option.map_some]
  · rw [Block.updWarp, AMap.get?_modify_same, hw, Option.map_some]

/-- Outside a serial region and a handler, and with lanes left, an exit ends its lanes and settles the barriers. -/
theorem exitLanes_of_left (hm : m ≠ 0) (hserial : w.serial = none) (hhandler : w.lane.inHandler = 0)
    (hleft : w.lane.live &&& ~~~ m ≠ 0) :
    exitLanes u wn m s = settleExit u wn (s.updWarpOf u wn (Warp.exit m)) := by
  have hwarp : AMap.getD (s.block u).warps wn default = w := by rw [State.block_of hx]; exact AMap.getD_of default hw
  have hlive : (AMap.getD ((settleExit u wn (s.updWarpOf u wn (Warp.exit m))).block u).warps wn default).lane.live =
      w.lane.live &&& ~~~ m := by
    rw [State.lane_of_laneOf ((laneOf_settleExit u wn _ u wn).trans (laneOf_exit hx hw))]
    rfl
  have hstays : ((AMap.getD ((settleExit u wn (s.updWarpOf u wn (Warp.exit m))).block u).warps wn default).lane.live != 0) =
      true := by
    rw [hlive]
    exact bne_iff_ne.mpr hleft
  have hno : ((w.lane.inHandler &&& m) != 0) = false := by simp [hhandler]
  unfold exitLanes
  rw [if_neg hm]
  dsimp only
  rw [hwarp, hserial, hno]
  exact if_pos hstays

end

/-- The drain of a last lane's exit, and the room for the slots that its end releases, hold nothing back. -/
theorem execExit_of_issuable {g : Guard} {s : State} (hissue : Issuable g false s)
    (hlast : s.active g ≠ 0 → s.curWarp.lane.live &&& ~~~ s.active g = 0 → drainCheck anyPa (s.active g) s = .ok () ∧
      (s.curWarp.refill = none → retireStalls s s.cur.blk s.cur.warp = false)) :
    execExit g s = .next (advance (exitLanes s.cur.blk s.cur.warp (s.active g) s)) := by
  unfold execExit
  dsimp only
  rw [bind_ok_eq hissue]
  split
  · next h =>
    rw [Bool.and_eq_true, bne_iff_ne, beq_iff_eq] at h
    obtain ⟨hdrain, hroom⟩ := hlast h.1 h.2
    have hstall : (s.curWarp.refill.isNone && retireStalls s s.cur.blk s.cur.warp) = false := by
      cases hrefill : s.curWarp.refill with
      | none => exact hroom hrefill
      | some p => rfl
    rw [bind_ok_eq hdrain, hstall, bind_ok_eq stallIf_false]
    rfl
  · rfl

/-- Settles O46: EXIT does what the exit of its lanes does, and where lanes are left that ends them and settles the barriers,
which leaves the lanes as they are. -/
theorem exitCompletes : Obligations.ExitCompletes := by
  refine ⟨fun g s => execExit_of_issuable, fun g s b w sp hissue hissues hactive hleft hserial hhandler => ?_⟩
  have ⟨hb, hw, _⟩ := hissues
  have hlast : s.curWarp.lane.live &&& ~~~ s.active g ≠ 0 := by rw [hissues.curWarp]; exact hleft
  have hlanes : (advance (exitLanes s.cur.blk s.cur.warp (s.active g) s)).laneOf s.cur.blk s.cur.warp =
      some (w.exit (s.active g)).lane := by
    rw [laneOf_advance, exitLanes_of_left hb hw hactive hserial hhandler hleft, laneOf_settleExit, laneOf_exit hb hw]
  obtain ⟨x, hx, hlane⟩ := State.laneOf_eq_some hlanes
  refine ⟨_, x, execExit_of_issuable hissue (fun _ h => absurd h hlast), hx, ?_, ?_⟩ <;> rw [hlane] <;> rfl

end Sys2Proof.Machine
end

section
/-!
PROOFS. Selections, completions and acknowledgements (R161, R167 to R170, R239, R265, R405, R471), and the copy engines (R240,
R241, R290 to R297).
-/

namespace Sys2Proof.Machine

/-! ### Selection and sleep (R168, R405) -/

theorem execSleepEnd_of_due {uid warp split t : Nat} {s : State} (hwait : (s.splitOf ⟨uid, warp, split⟩).wait = .sleep t)
    (hdue : t ≤ s.now) : execSleepEnd uid warp split s = .next (s.updWarpOf uid warp fun w => w.settle split) := by
  rw [execSleepEnd, hwait]
  exact if_pos hdue

/-- What a selection does with what it has chosen. -/
theorem execSelection_of_choice (core : Nat) (sub : Fin 4) (s : State) (el cs : List Cursor) :
    let done := (subSplits s core sub.val).filter fun c => waitDone s c.blk c.warp (s.splitOf c)
    let s1 := done.foldl (fun s c => endWait c s) s
    let ended := (subSplits s1 core sub.val).filter fun c => clauseEnded (s1.splitOf c)
    let voted := ended.foldl (fun s c => s.updWarpOf c.blk c.warp fun w => w.vote c.split) s1
    let s2 := readTlv (tlvDue core sub.val voted) voted
    choose s2 core sub.val = some (el, cs) →
    execSelection core sub s =
      .next (startAll (freePorts s2 core sub.val) cs (clearYields core sub.val (passCounts el cs s2))) := by
  dsimp only
  intro hchoice
  unfold execSelection
  dsimp only
  rw [hchoice]

/-! ### Completions (R161, R265) -/

theorem execMemoryOperationCompletion_of_ended {uid warp op : Nat} {s : State} {o : MemOp}
    (hfind : (AMap.getD (s.block uid).warps warp default).ord.ops.find? (fun o => o.num == op) = some o)
    (hends : opEnds s uid warp o = true) :
    execMemoryOperationCompletion uid warp op s = .next (sendArrivals uid warp (opDone uid warp o s)) := by
  unfold execMemoryOperationCompletion
  dsimp only
  rw [hfind]
  dsimp only
  rw [hends]
  rfl

/-! ### Acknowledgements (R239, R471) -/

section
variable {op holder h : Nat} {s : State} {x : TlbInv} (hinv : AMap.get? s.tlbInvs op = some x)
include hinv

theorem execTlbAcknowledge_of_new (hholder : x.holders.find? (fun h => h.1 == holder) = some (h, none)) :
    execTlbAcknowledge op holder s = .next (dropRange holder x.base x.len x.asid { s with
      tlbInvs := AMap.set s.tlbInvs op { x with
        holders := x.holders.map fun h => if h.1 = holder then (holder, some s.instant) else h } }) := by
  simp only [execTlbAcknowledge, hinv, hholder]

theorem execTlbAcknowledge_of_performed {t : Nat}
    (hholder : x.holders.find? (fun h => h.1 == holder) = some (h, some t)) (hidle : stillUsing s holder t = false) :
    let rest := x.holders.filter fun h => h.1 != holder
    let u := { s with tlbInvs := AMap.set s.tlbInvs op { x with holders := rest } }
    execTlbAcknowledge op holder s = .next (if rest = [] then tlbDone op x.blk x.warp u else u) := by
  simp only [execTlbAcknowledge, hinv, hholder, hidle, Bool.false_eq_true, if_false, List.isEmpty_iff]

end

theorem leaveFree_of_later {s : State} {o : OutItem}
    (h : ∀ x ∈ s.inflight ++ s.cores.flatMap fun p => p.2.lager, windowOf o.blk x = true → o.t < x.t) :
    leaveFree s o = true := by
  rw [leaveFree, Bool.not_eq_true', List.any_eq_false]
  intro x hx
  obtain ⟨hmem, hwindow⟩ := List.mem_filter.mp hx
  simpa using h x hmem hwindow

theorem execLeaveAcknowledge_of_free {uid : Nat} {s : State} {o : OutItem}
    (hfind : s.inflight.find? (fun x => x.blk == uid && x.kind == .leave) = some o) (hfree : leaveFree s o = true) :
    execLeaveAcknowledge uid s = .next (leaveNow o s) := by
  rw [execLeaveAcknowledge, hfind]
  exact if_pos hfree

theorem selectionAndCompletions : Clause.SelectionAndCompletions := by
  refine ⟨execSelection_of_choice, ?sleep, ?completion, ?drops, ?acknowledges, ?leaves⟩
  case sleep => exact fun uid warp split s t => execSleepEnd_of_due
  case completion => exact fun uid warp op s o => execMemoryOperationCompletion_of_ended
  case drops => exact fun op holder s x h => execTlbAcknowledge_of_new
  case acknowledges => exact fun op holder s x h t hinv => execTlbAcknowledge_of_performed hinv
  case leaves => exact fun uid s o hfind hlater => execLeaveAcknowledge_of_free hfind (leaveFree_of_later hlater)

/-! ### The copy engines (R290 to R297) -/

theorem getElem?_mod_length {α : Type} {l : List α} (h : l ≠ []) (n : Nat) : ∃ r ∈ l, l[n % max 1 l.length]? = some r := by
  have hpos : 0 < l.length := List.length_pos_iff.mpr h
  have hlt : n % max 1 l.length < l.length := by
    rw [Nat.max_eq_right hpos]
    exact Nat.mod_lt n hpos
  exact ⟨_, List.getElem_mem hlt, List.getElem?_eq_getElem hlt⟩

/-- What an engine can do now on an operation: start a request, or move a granule of one. -/
def copyMoves (core op : Nat) (s : State) : List State :=
  (startCopy core op s).toList ++ (workingOps s core op).filterMap fun o => copyStep core o s.free.2

theorem copyEvent_mem {core op : Nat} {s : State} (name : String) (h : copyMoves core op s ≠ []) :
    ∃ r ∈ copyMoves core op s, copyEvent core op name s = .next r := by
  obtain ⟨r, hr, hget⟩ := getElem?_mod_length h s.free.1
  refine ⟨r, hr, ?_⟩
  unfold copyMoves at hget
  unfold copyEvent
  dsimp only
  rw [hget]

theorem execRequestRetirement_of_finished {core op u code : Nat} {s : State} {o : CopyOp}
    (hfind : (s.core core).body.copies.find? (fun o => o.id == op) = some o) (hfinished : o.finished = some code)
    (howner : o.kick.owner = .blk u) (hplaced : (s.block u).state ≠ .saved) :
    execRequestRetirement core op s = .next (retireCopy u o code
      (s.updBody core fun k => { k with copies := k.copies.filter fun x => x.id != op })) := by
  unfold execRequestRetirement
  rw [hfind]
  dsimp only
  rw [hfinished]
  dsimp only
  rw [howner]
  exact if_neg hplaced

theorem copyEnginesWork : Clause.CopyEnginesWork := by
  refine ⟨fun core s p hp => ?_, fun core op s o code u => execRequestRetirement_of_finished⟩
  simp only [copyKinds, List.zipIdx_cons, List.zipIdx_nil, List.mem_cons, List.not_mem_nil, or_false, Nat.reduceAdd] at hp
  rcases hp with rfl | rfl | rfl | rfl | rfl | rfl | rfl | rfl | rfl
  all_goals exact copyEvent_mem _

/-- Settles O56: each step by what it answers where its conditions hold, and each engine by what it can do now. -/
theorem selectionsAndCopies : Obligations.SelectionsAndCopies := ⟨selectionAndCompletions, copyEnginesWork⟩

end Sys2Proof.Machine
end

section
/-!
PROOFS. Where the statements on counts and on the faults of operands fail. They too speak of every instruction, well formed or not:
the meaning of DSET takes an absolute value that `FMods` can ask for, R211 does not have and `Instr.wf` refuses, and the result
that the statements give leaves it out. So the lanes of a uniform destination can agree in the one and not in the other (R158).
-/

namespace Sys2Proof.Machine

/-! ### A DSET with an absolute-value modifier -/

/-- `DSET.gt s0, |v0|, s4`: the modifier has no place in a word. -/
def absDset : Instr := .dset (.pred false 7) ⟨.s 0, 0⟩ ⟨.v 0, false⟩ ⟨.s 4, false⟩ .gt ⟨false, false, false, true, false⟩

theorem decode_ne_absDset (w : DWord) : decode w ≠ some absDset := fun h =>
  Bool.false_ne_true (decodedWordsEncode w absDset h).1

/-- What the statements say that it computes: whether its first source, as it stands, is the greater. -/
def plainTest : Compute :=
  { g := .pred false 7, qs := [srcD ⟨.v 0, false⟩, srcD ⟨.s 4, false⟩], d := ⟨.s 0, 0⟩, val := fun _ r l =>
      (truth (FVal.test .gt (signed64 false r 0 l) (signed64 false r 1 l)), 0, {}) }

theorem computes_absDset : computes absDset = some plainTest := rfl

/-- High words of a pair: lane 0's and that of every other lane. -/
def highWords (first rest : Word) : Lanes Word := tab fun l => if l = 0 then first else rest

/-- Warp 0 of block 1 in an alu clause, with two reads to come of the pair v0, whose low words are 0, and 0 in the pair s4. -/
def withPair (first rest : Word) : State :=
  { placeWord State.reset 0x001C0A030260D000#64 with agenda := [], cur := ⟨1, 0, 0⟩ }.updReg fun r =>
    { r with v := [(0, { vals := splat 0, mask := 0xFFFFFFFF#32, count := 2 }),
                   (1, { vals := highWords first rest, mask := 0xFFFFFFFF#32, count := 2 })] }

def pairRead (first rest : Word) : Reading :=
  { vals := [#v[splat 0, highWords first rest, splat 0, splat 0], #v[splat 0, splat 0, splat 0, splat 0]]
    st := withPair first rest, preds := (withPair first rest).curWarp.reg.p, names := [0, 1], holds := [] }

theorem withPair_issues (first rest : Word) : (withPair first rest).Issues (withPair first rest).curBlock
    (withPair first rest).curWarp (withPair first rest).curSplit := by
  refine ⟨?_, ?_, ?_⟩ <;> rfl

/-! ### Counts -/

/-- Minus one in lane 0 and zero in the others: no lane is greater than zero, and of the absolute values lane 0 is. -/
def minusOneAndZeros : State := withPair 0xBFF00000#32 0

theorem plainTest_normal : plainTest.Normal minusOneAndZeros (pairRead 0xBFF00000#32 0) :=
  ⟨eq_ok_unit (by decide +kernel), by rfl, eq_ok_unit (by decide +kernel)⟩

/-- The count of a name of the warp that issues. -/
def countAfter (n : Nat) : Host.Outcome State Fault Refusal → Option Nat
  | .next t => (AMap.get? t.curWarp.reg.v n).map Slot.count
  | _ => none

/-- The non-uniform fault ends the launch, and the slots of its warp are gone. -/
theorem countAfter_absDset : countAfter 0 (exec absDset minusOneAndZeros) = none := by decide +kernel

/-- Refutes O10: `DSET.gt s0, |v0|, s4` of minus one in one lane and zeros faults as non-uniform, where the statement has it
complete with one read of v0 less to come. The statement does not ask that the instruction be well formed, and this one, which
no word decodes to, is not. -/
theorem not_slotsAndCounts : ¬ Obligations.SlotsAndCounts := by
  rintro ⟨hcounts, -⟩
  obtain ⟨t, hexec, hcount⟩ := hcounts absDset plainTest minusOneAndZeros _ _ _ _ 0 _ computes_absDset plainTest_normal
    (withPair_issues _ _) rfl (by decide +kernel) (by decide +kernel)
  have hgone := countAfter_absDset
  rw [hexec, countAfter, hcount] at hgone
  exact absurd hgone (by decide +kernel)

/-! ### Faults of destinations -/

/-- One in lane 0 and minus one in the others: only lane 0 is greater than zero, and of the absolute values every lane is. -/
def onesOfBothSigns : State := withPair 0x3FF00000#32 0xBFF00000#32

/-- The scalar that the instruction writes. -/
def scalarAfter : Host.Outcome State Fault Refusal → Option Word
  | .next t => some t.curWarp.reg.s[0]
  | _ => none

/-- The lanes agree, and the scalar takes their value. -/
theorem scalarAfter_absDset : scalarAfter (exec absDset onesOfBothSigns) = some 1#32 := by decide +kernel

/-- A trap writes nothing. -/
theorem scalarAfter_trap : scalarAfter (.next (raiseTrap
    (onesOfBothSigns.trapReq 0x07 (onesOfBothSigns.active plainTest.g)) onesOfBothSigns)) = some 0#32 := by decide +kernel

theorem plainTest_differs : (plainTest.val onesOfBothSigns (pairRead 0x3FF00000#32 0xBFF00000#32) 0).1 ≠
    (plainTest.val onesOfBothSigns (pairRead 0x3FF00000#32 0xBFF00000#32) 1).1 := by decide +kernel

/-- Refutes O12: `DSET.gt s0, |v0|, s4` of one in one lane and minus one in the others completes, where the statement has it fault
as non-uniform. The statement does not ask that the instruction be well formed, and this one, which no word decodes to, is not.
Only the clause on the lanes of a uniform destination is used here. -/
theorem not_operandFaults : ¬ Obligations.OperandFaults := by
  rintro ⟨-, -, -, hdisagree⟩
  have hexec := hdisagree absDset plainTest onesOfBothSigns (pairRead 0x3FF00000#32 0xBFF00000#32) 0 1 computes_absDset rfl
    (eq_ok_unit (by decide +kernel)) (by rfl) (.inl ⟨0, rfl⟩) (by decide +kernel) (by decide +kernel) plainTest_differs
  have hwritten := scalarAfter_absDset
  rw [hexec, scalarAfter_trap] at hwritten
  exact absurd hwritten (by decide)

end Sys2Proof.Machine
end

section
/-!
PROOFS. Meld regions, serial regions, refilling, and the regions of pre-emption (R171, R172, R175, R176, R178, R183 to R188).
-/

namespace Sys2Proof.Machine

/-! ### Melding (R172, R183, R184) -/

theorem has_ones : ∀ l : Fin 32, has 0xFFFFFFFF#32 l = true := by decide

/-- A predicate by its number, the seventh of which is true, as a guard reads it. -/
theorem has_guardMask_pred (w : Warp) (p : Fin 8) (l : Fin 32) :
    has (guardMask w (.pred false p)) l = if h : p.val < 7 then has w.reg.p[p.val] l else true := by
  by_cases h : p.val < 7
  · simp [guardMask, h]
  · simp [guardMask, h, has_ones]

/-- The lanes of `m` take their bits from `b`, the others keep those of `a`. -/
theorem merge_eq_maskOf (m a b : Mask) : (a &&& ~~~ m) ||| (m &&& b) = maskOf fun l => if has m l then has b l else has a l := by
  refine has_ext fun l => ?_
  rw [has_or, has_and, has_and, has_not, has_maskOf]
  cases has m l <;> simp

/-- The path of a lane that enters a region is its predicate's bit. -/
theorem enterMeld_guardMask (w : Warp) (m : Mask) (p : Fin 8) (t : Bool) (l : LaneState) :
    enterMeld m (guardMask w (.pred false p)) t l = { l with
      inMeld := l.inMeld ||| m
      path := maskOf fun i => if has m i then (if h : p.val < 7 then has w.reg.p[p.val] i else true) else has l.path i
      table := if t then l.table ||| m else l.table &&& ~~~ m } := by
  simp only [enterMeld, merge_eq_maskOf, has_guardMask_pred]

/-- Clearing the two rows of a table clears the renaming of its paths (R171). -/
theorem clearRows_eq {α : Type} (v : Vector α 4) (t : Bool) (e : α) :
    vmod (vmod v (renRow t false) fun _ => e) (renRow t true) (fun _ => e) =
      Vector.ofFn fun k : Fin 4 => if k.val / 2 = Bool.toNat t then e else v[k] := by
  have ht := t.toNat_le
  have hrow : ∀ path, renRow t path < 4 := fun path => by
    have hpath := path.toNat_le
    unfold renRow
    omega
  refine Vector.ext fun i hi => ?_
  have hrows : i / 2 = t.toNat ↔ renRow t true = i ∨ renRow t false = i := by
    simp only [renRow, Bool.toNat_true, Bool.toNat_false]
    omega
  rw [vmod_eq _ _ _ (hrow true), vmod_eq _ _ _ (hrow false), Vector.getElem_set, Vector.getElem_set, Vector.getElem_ofFn]
  by_cases htrue : renRow t true = i
  · rw [if_pos htrue, if_pos (hrows.mpr (.inl htrue))]
  · rw [if_neg htrue]
    simp only [hrows, htrue, false_or]
    rfl

section
variable {g : Guard} {s : State}

theorem execMeld_of_issuable {p : Fin 8} {t : Bool} (h : Issuable g true s) :
    execMeld g p t s = .next (advance (s.updLane (enterMeld s.issuing (guardMask s.curWarp (.pred false p)) t))) := by
  rw [execMeld, bind_ok_eq h]
  rfl

theorem execMelde_of_issuable (h : Issuable g true s) :
    execMelde g s = .next (advance (s.updLane fun l => { l with inMeld := l.inMeld &&& ~~~ s.issuing })) := by
  rw [execMelde, bind_ok_eq h]
  rfl

theorem execRnset_of_issuable {t path : Bool} {first : Fin 16} {va : Fin 256} {vb vc : Option (Fin 256)}
    (h : Issuable g false s) :
    execRnset g t path first va vb vc s = .next (advance (onActive g s (fun x => x.updReg (setEntries (renRow t path) first.val
      (va :: (match vb with | none => [] | some b => b :: vc.toList)))) s)) := by
  unfold execRnset
  rw [bind_ok_eq h]
  rfl

theorem execRnsetClr_of_issuable {t : Bool} (h : Issuable g false s) :
    execRnsetClr g t s = .next (advance (onActive g s (fun x => x.updReg fun r => { r with
      ren := vmod (vmod r.ren (renRow t false) fun _ => Vector.replicate 16 none) (renRow t true) fun _ =>
        Vector.replicate 16 none }) s)) := by
  rw [execRnsetClr, bind_ok_eq h]
  rfl

/-! ### Serial regions (R175, R185) -/

theorem execSerb_of_free {e : BitVec 20} (h : Issuable g true s)
    (hmark : s.curLaunch.headers.contains (s.curSplit.hdr + 8 * e.toNat) = true) (hout : s.issuing &&& s.inRegion = 0)
    (hserial : s.curWarp.serial = none) :
    execSerb g e s = .next (advance (s.updWarp fun w =>
      w.startSerial s.issuing (nextClause s.curSplit.hdr s.header) (s.curSplit.hdr + 8 * e.toNat))) := by
  unfold execSerb
  dsimp only
  rw [bind_ok_eq h, isHeader, if_pos hmark, bind_ok_eq (trapIf_zero s _), hout, bind_ok_eq (trapIf_zero s _), hserial]
  rfl

theorem oneLane_ne_zero : ∀ l : Fin 32, one_ l ≠ 0 := by decide

/-- The running lane at the end of its region passes on. -/
theorem execSere_of_end {r : SerialRegion} (h : Issuable g true s) (hserial : s.curWarp.serial = some r)
    (hlast : r.last = s.curSplit.hdr) (hlane : s.issuing = one_ r.lane) :
    execSere g s = .next (advance (s.updWarp fun w =>
      (w.leave s.issuing).serialNext (nextClause s.curSplit.hdr s.header))) := by
  have hend : atRegionEnd s = true := by simp [atRegionEnd, hserial, hlast, hlane]
  have hissuing : s.issuing ≠ 0 := hlane ▸ oneLane_ne_zero r.lane
  rw [execSere, bind_ok_eq h, if_pos hend, bind_ok_eq (trapIf_zero s _), if_neg hissuing]
  rfl

theorem execSere_of_outside (h : Issuable g true s) (hserial : s.curWarp.serial = none) (hissuing : s.issuing ≠ 0) :
    execSere g s = .next (raiseTrap (s.trapReq 0x10 s.issuing) s) := by
  have hend : atRegionEnd s = false := by simp [atRegionEnd, hserial]
  rw [execSere, bind_ok_eq h, hend, if_neg Bool.false_ne_true, bind_error_eq (trapIf_some hissuing)]
  rfl

end

theorem meldAndSerialComplete : Clause.MeldAndSerialComplete := by
  refine ⟨fun g p t s h => ?meld, fun g s => execMelde_of_issuable, fun g t path first va vb vc s => execRnset_of_issuable,
    fun g t s => ?clears, fun g e s => execSerb_of_free, fun g s r => execSere_of_end, fun g s => execSere_of_outside⟩
  case meld =>
    refine (execMeld_of_issuable h).trans ?_
    rw [funext (enterMeld_guardMask s.curWarp s.issuing p t)]
    rfl
  case clears =>
    intro cleared h
    refine (execRnsetClr_of_issuable h).trans ?_
    simp only [clearRows_eq]
    rfl

/-! ### Refill (R176, R186) -/

section
variable {g : Guard} {s : State}

theorem execRefill_of_inactive {p : Fin 8} (h : Issuable g true s) (hactive : s.active g = 0) :
    execRefill g p s = .next (advance s) := by
  unfold execRefill
  dsimp only
  rw [bind_ok_eq h, if_pos hactive]
  rfl

/-- The items that are popped revive their lanes where v0 has, or finds, its slot. -/
theorem execRefill_of_popped {p : Fin 8} {xs : List (Fin 32 × Word)} {e : Bool} {s1 : State} (h : Issuable g true s)
    (hactive : s.active g ≠ 0) (hawaits : s.curWarp.awaits (.v 0) = false) (hout : s.active g &&& s.inRegion = 0)
    (hheld : popHeld s.cur.blk s.cur.warp 32 s = false)
    (hpop : popFor s.cur.blk s.cur.warp (lanes32.filter fun l => !has s.curWarp.lane.live l) s = .ok (xs, e, s1))
    (hroom : xs ≠ [] → reviveBreaks s s.cur.blk s.curWarp = false ∧ reviveStalls s s.cur.blk s.cur.warp s.curWarp = false) :
    let point := nextClause s.curSplit.hdr s.header
    execRefill g p s = .next (advance (settleExit s.cur.blk s.cur.warp
      ((if xs = [] then s1 else reviveShare s.cur.blk s.cur.warp s.curWarp s1).updWarp fun w =>
        ({ w with refill := some (point, p.val) }.revive xs point).setExhausted p.val (s.active g ||| lanesIn xs) e))) := by
  unfold execRefill
  dsimp only
  rw [bind_ok_eq h, if_neg hactive, hawaits, bind_ok_eq stallIf_false, hout, bind_ok_eq (trapIf_zero s _), hheld,
    bind_ok_eq stallIf_false, hpop]
  cases xs with
  | nil => rfl
  | cons x t =>
    obtain ⟨hbreaks, hstalls⟩ := hroom (List.cons_ne_nil x t)
    rw [if_neg (List.cons_ne_nil x t), hbreaks, hstalls]
    rfl

/-! ### Yield, and non-preemptible regions (R178, R187, R188) -/

theorem execYield_of_issuable (h : Issuable g false s) :
    execYield g s = .next (advance (onActive g s (fun t => t.updSplit fun sp => { sp with yields := true }) s)) := by
  rw [execYield, bind_ok_eq h]
  rfl

theorem execPreok_of_issuable (h : Issuable g false s) :
    execPreok g s = .next (advance (onActive g s (fun t => t.updWarp fun w => { w with noPre := false }) s)) := by
  rw [execPreok, bind_ok_eq h]
  rfl

theorem execNopre_of_done (h : Issuable g false s) (hdone : s.active g = 0 ∨ s.curWarp.noPre = true) :
    execNopre g s = .next (advance s) := by
  rw [execNopre, bind_ok_eq h, if_pos hdone]
  rfl

section
variable (h : Issuable g false s) (hactive : s.active g ≠ 0) (hpre : s.curWarp.noPre = false)
include h hactive hpre

/-- Where a region is to start, it starts unless a request holds it back. -/
theorem execNopre_of_outside : execNopre g s = finish (do
    stallIf (s.curBlock.preReq.isSome || s.curBlock.state == .saving)
    pure (s.updWarp fun w => { w with noPre := true, watchAt := s.now })) s := by
  have hstarts : ¬ (s.active g = 0 ∨ s.curWarp.noPre = true) := not_or.mpr ⟨hactive, by simp [hpre]⟩
  rw [execNopre, bind_ok_eq h, if_neg hstarts]

theorem execNopre_of_free (hreq : s.curBlock.preReq = none) (hsaving : s.curBlock.state ≠ .saving) :
    execNopre g s = .next (advance (s.updWarp fun w => { w with noPre := true, watchAt := s.now })) := by
  rw [execNopre_of_outside h hactive hpre, hreq, beq_false_of_ne hsaving]
  rfl

theorem execNopre_of_requested {q : PreReq} (hreq : s.curBlock.preReq = some q) : execNopre g s = .next s.waits := by
  rw [execNopre_of_outside h hactive hpre, hreq]
  rfl

end

end

theorem refillAndRegionsComplete : Clause.RefillAndRegionsComplete := by
  refine ⟨?refill, fun g p s => execRefill_of_inactive, fun g s => execYield_of_issuable, fun g s => execNopre_of_free,
    fun g s => execNopre_of_done, fun g s q h hactive hpre => execNopre_of_requested h hactive hpre, fun g s => execPreok_of_issuable⟩
  intro g p s xs e s1 point hissue hactive hawaits hout hheld hpop hroom
  exact execRefill_of_popped hissue hactive hawaits hout hheld hpop hroom

/-- Settles O47: each of these instructions passes the checks at issue and then has its effect, a trap or a wait. -/
theorem regionsComplete : Obligations.RegionsComplete := ⟨meldAndSerialComplete, refillAndRegionsComplete⟩

end Sys2Proof.Machine
end

section
/-!
PROOFS. The entry of a user-class trap into its handler (R174, R177, R450, R452, R453).
-/

namespace Sys2Proof.Machine

/-! ### The trap registers (R453) -/

/-- A field of a word that is given by its value. -/
theorem extractLsb'_ofNat {n lo k a b : Nat} (h : a % 2 ^ n / 2 ^ lo % 2 ^ k = b % 2 ^ k) :
    (BitVec.ofNat n a).extractLsb' lo k = BitVec.ofNat k b := by
  refine BitVec.eq_of_toNat_eq ?_
  rw [BitVec.extractLsb'_toNat, BitVec.toNat_ofNat, BitVec.toNat_ofNat, Nat.shiftRight_eq_div_pow, h]

theorem TrapReq.trapPc_hdr (q : TrapReq) : q.trapPc.extractLsb' 0 32 = BitVec.ofNat 32 q.pc.hdr :=
  extractLsb'_ofNat (by omega)

theorem TrapReq.trapPc_idx (q : TrapReq) : q.trapPc.extractLsb' 32 4 = BitVec.ofNat 4 q.pc.idx :=
  extractLsb'_ofNat (by omega)

section
variable (kind cause : Nat) (meld table write pending : Bool)

/-- TRAPINFO by its fields. -/
def trapInfo : Nat :=
  kind * 2 ^ 24 + cause % 16 * 2 ^ 20 + meld.toNat * 2 ^ 19 + table.toNat * 2 ^ 18 + write.toNat * 2 ^ 17 +
    pending.toNat * 2 ^ 16

theorem trapInfo_kind : (w32 (trapInfo kind cause meld table write pending)).extractLsb' 24 8 = BitVec.ofNat 8 kind := by
  have hmeld := meld.toNat_le
  have htable := table.toNat_le
  have hwrite := write.toNat_le
  have hpending := pending.toNat_le
  refine extractLsb'_ofNat ?_
  unfold trapInfo
  omega

theorem trapInfo_meld : (w32 (trapInfo kind cause meld table write pending)).getLsbD 19 = meld := by
  have hmeld := meld.toNat_le
  have htable := table.toNat_le
  have hwrite := write.toNat_le
  have hpending := pending.toNat_le
  have hbit : trapInfo kind cause meld table write pending / 2 ^ 19 % 2 = meld.toNat := by
    unfold trapInfo
    omega
  rw [w32, BitVec.getLsbD_ofNat, Nat.testBit_eq_decide_div_mod_eq, hbit]
  cases meld <;> rfl

end

/-! ### The warp (R174, R452) -/

section
variable (w : Warp) (k : Nat) (q : TrapReq) (off : Nat) (at_ : Option Nat)

/-- The lanes stand as a split of their own at the handler. -/
theorem Warp.get?_splits_deliver : ∃ y, AMap.get? (w.deliver k q off at_).splits w.splitCtr = some y ∧
    y.lanes = q.lanes ∧ y.hdr = off ∧ y.idx = 0 := by
  have hnew : AMap.get? ((w.detach q.lanes).addSplit (Split.start q.lanes off)).splits w.splitCtr =
      some (Split.start q.lanes off) := AMap.get?_set_same _ _ _
  rw [Warp.deliver]
  dsimp only
  rw [AMap.get?_modify]
  split
  · next hk =>
    rw [← hk, hnew]
    exact ⟨_, rfl, rfl, rfl, rfl⟩
  · exact ⟨_, hnew, rfl, rfl, rfl⟩

theorem Warp.inHandler_deliver : (w.deliver k q off at_).lane.inHandler = w.lane.inHandler ||| q.lanes := rfl

theorem Warp.trapHdr_deliver : (w.deliver k q off at_).trap.pc.extractLsb' 0 32 = BitVec.ofNat 32 q.pc.hdr := q.trapPc_hdr

theorem Warp.trapIdx_deliver : (w.deliver k q off at_).trap.pc.extractLsb' 32 4 = BitVec.ofNat 4 q.pc.idx := q.trapPc_idx

theorem Warp.info_deliver : (w.deliver k q off at_).trap.info = w32 (trapInfo q.kind q.cause
    (w.lane.inMeld &&& q.lanes != 0) (w.lane.table &&& w.lane.inMeld &&& q.lanes != 0) q.write w.trap.pending.isSome) := rfl

theorem Warp.trapKind_deliver : (w.deliver k q off at_).trap.info.extractLsb' 24 8 = BitVec.ofNat 8 q.kind := by
  rw [Warp.info_deliver, trapInfo_kind]

theorem Warp.trapMeld_deliver : (w.deliver k q off at_).trap.info.getLsbD 19 = (w.lane.inMeld &&& q.lanes != 0) := by
  rw [Warp.info_deliver, trapInfo_meld]

end

/-! ### The black box (R468) -/

@[simp] theorem sendGnl_blocks (g : GnlWrite) (s : State) : (sendGnl g s).blocks = s.blocks := by
  unfold sendGnl
  split
  · cases g <;> rfl
  · rfl

@[simp] theorem sendGnl_launches (g : GnlWrite) (s : State) : (sendGnl g s).launches = s.launches := by
  unfold sendGnl
  split
  · cases g <;> rfl
  · rfl

section
variable (d : Nat) (e : BbEnt) (s : State)

/-- An entry goes into its box, and to the host where it is mirrored; what neither changes, it does not change. -/
theorem bbWrite_keeps {α : Type} (p : State → α) (hdie : ∀ t f, p (t.updDie d f) = p t) (hgnl : ∀ t g, p (sendGnl g t) = p t) :
    p (bbWrite d e s) = p s := by
  unfold bbWrite
  dsimp only
  split
  · rfl
  · split
    · exact hdie _ _
    · exact (hgnl _ _).trans (hdie _ _)

@[simp] theorem bbWrite_blocks : (bbWrite d e s).blocks = s.blocks :=
  bbWrite_keeps d e s State.blocks (fun _ _ => rfl) fun t g => sendGnl_blocks g t

@[simp] theorem bbWrite_launches : (bbWrite d e s).launches = s.launches :=
  bbWrite_keeps d e s State.launches (fun _ _ => rfl) fun t g => sendGnl_launches g t

/-- Memory stays where the box is not mirrored. -/
theorem bbWrite_mem_of_unmirrored {s : State} (h : (s.die d).bbHost = 0) : (bbWrite d e s).mem = s.mem := by
  unfold bbWrite
  dsimp only
  split
  · rfl
  · rw [if_pos (.inl h)]
    rfl

end

/-! ### Taking it (R177, R450) -/

/-- A handler that R117 marks is entered. -/
theorem enterTrap_of_marked {s : State} {q : TrapReq} (hsome : s.curLaunch.hdr.trapOff ≠ 0xFFFFFFFF)
    (hmark : s.curLaunch.headers.contains s.curLaunch.hdr.trapOff = true) (at_ : Option Nat) :
    enterTrap s.cur q at_ s =
      logTrap s.cur q (s.updWarp fun w => w.deliver s.cur.split q s.curLaunch.hdr.trapOff at_) := by
  have hlaunch : s.launch (s.block s.cur.blk).launch = s.curLaunch := rfl
  unfold enterTrap
  dsimp only
  rw [hlaunch, if_neg hsome, hmark]
  rfl

section
variable {s : State} {q : TrapReq} {b : Block} {w : Warp} {sp : Split} (hissues : s.Issues b w sp)
include hissues

/-- A user-class trap that none comes before enters the handler. -/
theorem raiseTrap_of_user (hkind : q.kind ∉ [0x1A, 0x20, 0x21, 0x22]) (hfirst : othersFirst s.cur q s = false)
    (hrival : w.rival q s.now = false) (hout : w.lane.inHandler = 0) :
    raiseTrap q s = enterTrap s.cur q (some s.now) s := by
  obtain ⟨hsoftware, htranslation, hbreakpoint, huncorrectable⟩ : q.kind ≠ Kind.software ∧ q.kind ≠ Kind.translation ∧
      q.kind ≠ Kind.breakpoint ∧ q.kind ≠ Kind.uncorrectable := by
    simp only [List.mem_cons, List.not_mem_nil, or_false, not_or] at hkind
    exact hkind
  have hwarp : AMap.getD (s.block s.cur.blk).warps s.cur.warp default = w := hissues.curWarp
  have huser : toSystem (s.launch (s.block s.cur.blk).launch) q = false := by
    rw [toSystem, beq_false_of_ne hbreakpoint, beq_false_of_ne hsoftware]
    rfl
  unfold raiseTrap raiseAt takeTrap
  rw [hfirst, if_neg Bool.false_ne_true]
  dsimp only
  rw [if_neg huncorrectable, if_neg htranslation, hwarp, hrival, hout, huser]
  rfl

/-- The other warps and blocks stay through a change of the issuing warp and its entry in the black box. -/
theorem logTrap_updWarp_keeps (f : Warp → Warp) : let t := logTrap s.cur q (s.updWarp f)
    AMap.get? (t.block s.cur.blk).warps s.cur.warp = some (f w) ∧
    (∀ n, n ≠ s.cur.warp → AMap.get? (t.block s.cur.blk).warps n = AMap.get? b.warps n) ∧
    (∀ u, u ≠ s.cur.blk → AMap.get? t.blocks u = AMap.get? s.blocks u) ∧
    ((s.die b.place.die).bbHost = 0 → t.mem = s.mem) ∧ t.launches = s.launches := by
  have hb := hissues.1
  have hblock : (s.updWarp f).block s.cur.blk = b.updWarp s.cur.warp f := State.block_updBlock_of _ hb
  have hlogged : (logTrap s.cur q (s.updWarp f)).block s.cur.blk = b.updWarp s.cur.warp f :=
    (congrArg (AMap.getD · s.cur.blk default) (bbWrite_blocks _ _ _)).trans hblock
  dsimp only
  rw [hlogged]
  refine ⟨?_, fun n hn => AMap.get?_modify_other _ f hn, fun u hu => ?_, fun hhost => ?_, ?_⟩
  · rw [Block.updWarp, AMap.get?_modify_same, hissues.2.1, Option.map_some]
  · rw [logTrap, bbWrite_blocks]
    exact AMap.get?_modify_other _ _ hu
  · rw [logTrap, hblock]
    exact bbWrite_mem_of_unmirrored _ _ hhost
  · rw [logTrap, bbWrite_launches]
    rfl

end

/-- Settles O48: the trap is delivered to the issuing warp, whose fields say the rest. -/
theorem trapEntry : Obligations.TrapEntry := by
  intro s q b w sp hissues hkind _ hout hsome hmark hfirst hrival
  dsimp only
  rw [raiseTrap_of_user hissues hkind hfirst hrival hout, enterTrap_of_marked hsome hmark]
  obtain ⟨hwarp, hframe⟩ := logTrap_updWarp_keeps hissues (q := q) fun w =>
    w.deliver s.cur.split q s.curLaunch.hdr.trapOff (some s.now)
  obtain ⟨y, hsplit, hlanes, hhdr, hidx⟩ := w.get?_splits_deliver s.cur.split q s.curLaunch.hdr.trapOff (some s.now)
  refine ⟨_, y, w.splitCtr, hwarp, hsplit, hlanes, hhdr, hidx, ?handler, rfl, rfl, rfl, rfl, rfl, rfl,
    w.trapHdr_deliver _ q _ _, w.trapIdx_deliver _ q _ _, w.trapKind_deliver _ q _ _, w.trapMeld_deliver _ q _ _, rfl, hframe⟩
  case handler =>
    rw [Warp.inHandler_deliver, hout]
    exact BitVec.zero_or

end Sys2Proof.Machine
end

section
/-!
PROOFS. BREAK and TRAP (R177, R189), and the return from a handler (R155, R174, R470).
-/

namespace Sys2Proof.Machine

/-! ### Breakpoints and software traps (R177, R189) -/

theorem trapAfter_of_issuable {g : Guard} {kind : Nat} {code : BitVec 20} {s : State} (h : Issuable g false s) :
    let q : TrapReq := { s.trapReq kind (s.active g) with code := code.toNat }
    trapAfter g kind code s = .next (if s.active g = 0 then advance s
      else if toSystem s.curLaunch q = true ∨ othersFirst s.cur q s = true then raiseTrap q s
      else takeTrap s.cur q (advance s)) := by
  unfold trapAfter
  rw [h]
  dsimp only
  split
  · rfl
  · simp only [Bool.or_eq_true]
    split <;> rfl

theorem softwareTrapsComplete : Clause.SoftwareTrapsComplete := by
  rintro i g code kind s (⟨rfl, rfl⟩ | ⟨rfl, rfl⟩) h
  · exact trapAfter_of_issuable h
  · exact trapAfter_of_issuable h

/-! ### TRAPRET (R470) -/

section
variable {g : Guard} {skip : Bool} {s : State} (h : checkIssue g [] true s = .ok ())
include h

theorem execTrapret_of_handler (hin : s.issuing &&& ~~~ s.curWarp.lane.inHandler = 0) :
    let pc := resumePc s s.cur.blk s.curWarp.trap skip
    execTrapret g skip s = .next (advance (trapEnds s.cur.blk s.cur.warp (s.updWarp fun w =>
      ({ w with lane := leaveHandler s.issuing s.curWarp.trap w.lane }).resumeAt s.issuing pc
        (peekCode s s.cur.blk pc.hdr)))) := by
  unfold execTrapret
  dsimp only
  rw [bind_ok_eq h, hin, bind_ok_eq (trapIf_zero s _)]
  rfl

theorem execTrapret_of_outside {m : Mask} (hm : m = s.issuing &&& ~~~ s.curWarp.lane.inHandler) (hout : m ≠ 0) :
    execTrapret g skip s = .next (raiseTrap (s.trapReq 0x01 m) s) := by
  unfold execTrapret
  dsimp only
  rw [bind_ok_eq h, ← hm, bind_error_eq (trapIf_some hout)]
  rfl

end

/-- A trap that is none of R189's resumes at its own instruction. -/
theorem resumePc_of_fault (s : State) (u : Nat) {t : TrapState}
    (hkind : (t.info.extractLsb' 24 8).toNat ∉ [0x1A, 0x21]) : resumePc s u t false =
      { hdr := (t.pc.extractLsb' 0 32).toNat, idx := (t.pc.extractLsb' 32 4).toNat } := by
  simp only [List.mem_cons, List.not_mem_nil, or_false] at hkind
  exact if_neg (not_or.mpr ⟨Bool.false_ne_true, hkind⟩)

/-- Lanes that resume inside a clause have their latches as the trap found them. -/
theorem Warp.lat_resumeAt (w : Warp) {m : Mask} {pc : Pc} (h : DWord) (i : Fin 3) (hidx : pc.idx ≠ 0) (hm : m ≠ 0) :
    (w.resumeAt m pc h).reg.lat[i] = { vals := blend m (w.reg.lat[i]).vals (w.trap.lat[i]).vals
                                       life := blend m (w.reg.lat[i]).life (w.trap.lat[i]).life } := by
  have hreg : (w.resumeAt m pc h).reg.lat = Vector.ofFn fun i : Fin 3 =>
      ({ vals := blend m (w.reg.lat[i]).vals (w.trap.lat[i]).vals
         life := blend m (w.reg.lat[i]).life (w.trap.lat[i]).life } : Latch) := by
    unfold Warp.resumeAt
    dsimp only
    rw [if_neg hm, if_neg hidx]
    rfl
  rw [hreg]
  simp

theorem Warp.latch_resumeAt (w : Warp) {m : Mask} {pc : Pc} (h : DWord) (i : Fin 3) (l : Fin 32) (hidx : pc.idx ≠ 0)
    (hm : m ≠ 0) : let x := (w.resumeAt m pc h).reg.lat[i]
      let y := if has m l then w.trap.lat[i] else w.reg.lat[i]
      x.vals[l] = y.vals[l] ∧ x.life[l] = y.life[l] := by
  dsimp only
  rw [w.lat_resumeAt h i hidx hm, blend_get, blend_get]
  cases has m l <;> exact ⟨rfl, rfl⟩

section
variable (m : Mask) (t : TrapState) (l : LaneState)

theorem inHandler_leaveHandler : (leaveHandler m t l).inHandler = l.inHandler &&& ~~~ m := by
  unfold leaveHandler
  dsimp only
  split <;> rfl

section
variable {t} (hmeld : t.info.getLsbD 19 = true)
include hmeld

theorem inMeld_leaveHandler : (leaveHandler m t l).inMeld = l.inMeld ||| m := by
  unfold leaveHandler
  dsimp only
  rw [if_pos hmeld]

theorem path_leaveHandler : (leaveHandler m t l).path = (l.path &&& ~~~ m) ||| (t.path &&& m) := by
  unfold leaveHandler
  dsimp only
  rw [if_pos hmeld]

/-- The lanes have the path that the trap found. -/
theorem has_path_leaveHandler {i : Fin 32} (hi : has m i = true) : has (leaveHandler m t l).path i = has t.path i := by
  rw [path_leaveHandler m l hmeld, has_or, has_and, has_and, has_not, hi]
  simp

end

end

theorem trapReturnCompletes : Clause.TrapReturnCompletes :=
  ⟨fun _ _ _ h hin => execTrapret_of_handler h hin, fun _ _ _ _ h hm hout => execTrapret_of_outside h hm hout,
    fun s u _ hkind => resumePc_of_fault s u hkind, fun w _ _ h i l hidx hm => w.latch_resumeAt h i l hidx hm,
    fun m t l => ⟨inHandler_leaveHandler m t l, fun hmeld =>
      ⟨inMeld_leaveHandler m l hmeld, fun _ hi => has_path_leaveHandler m l hmeld hi⟩⟩⟩

/-- Settles O50: BREAK and TRAP go by the class of their trap; TRAPRET by whether its lanes are in a handler, and then by what the
return makes of each part of the warp. -/
theorem trapsAndReturn : Obligations.TrapsAndReturn := ⟨softwareTrapsComplete, trapReturnCompletes⟩

end Sys2Proof.Machine
end

section
/-!
PROOFS. When an instruction that computes completes (R190), and the lanes of a mask in their order.
-/

namespace Sys2Proof.Machine

/-! ### When an instruction that computes completes -/

/-- What the statements say of an instruction that computes `o`. -/
def Completes (i : Instr) (o : Compute) : Prop := ∀ s r, o.Normal s r → exec i s = .next (o.after s r)

section
variable {i : Instr} {o : Compute}

/-- A meaning of one word for each lane. -/
theorem Completes.of_runAlu {f : State → Reading → Fin 32 → Word × Flags}
    (hexec : ∀ s, exec i s = finish (runAlu o.g o.qs o.d (f s) s) s)
    (hval : ∀ s r l, f s r l = ((o.val s r l).1, (o.val s r l).2.2)) (hnarrow : o.wide = false := by rfl) : Completes i o := by
  rintro s r ⟨hissue, hread, hdest⟩
  have hputs : o.puts s r = [putOf o.d (s.active o.g) (tab fun l => (f s r l).1)] := by
    simp only [Compute.puts, hnarrow, Bool.false_eq_true, if_false, hval, putOf]
  rw [hputs] at hdest
  rw [hexec, runAlu_ok hissue hread hdest, finish_ok, Compute.after, hputs]
  simp only [hval]

/-- A meaning of one word for each lane and no event. -/
theorem Completes.of_runInt {f : State → Reading → Fin 32 → Word}
    (hexec : ∀ s, exec i s = finish (runInt o.g o.qs o.d (f s) s) s) (hval : ∀ s r l, f s r l = (o.val s r l).1)
    (hquiet : ∀ s r l, (o.val s r l).2.2 = {} := by intros; rfl) (hnarrow : o.wide = false := by rfl) : Completes i o :=
  .of_runAlu (f := fun s r l => (f s r l, {})) hexec (fun s r l => by rw [hval, hquiet]) hnarrow

theorem lo32_append (hi lo : Word) : lo32 (hi ++ lo) = lo := BitVec.extractLsb'_append_eq_right

theorem hi32_append (hi lo : Word) : hi32 (hi ++ lo) = hi := BitVec.extractLsb'_append_eq_left

theorem w64_eq_append (x : Nat) : w64 x = BitVec.ofNat 32 (x / 2 ^ 32) ++ BitVec.ofNat 32 x := by
  apply BitVec.eq_of_toNat_eq
  rw [toNat_append_eq_add, w64, BitVec.toNat_ofNat, BitVec.toNat_ofNat, BitVec.toNat_ofNat]
  omega

/-- A meaning of a pair for each lane. -/
theorem Completes.of_runPair {f : State → Reading → Fin 32 → DWord × Flags}
    (hexec : ∀ s, exec i s = finish (runPair o.g o.qs o.d (f s) s) s)
    (hval : ∀ s r l, f s r l = ((o.val s r l).2.1 ++ (o.val s r l).1, (o.val s r l).2.2))
    (hwide : o.wide = true := by rfl) : Completes i o := by
  rintro s r ⟨hissue, hread, hdest⟩
  have hputs : o.puts s r = put2Of o.d (s.active o.g) (tab fun l => (f s r l).1) := by
    simp only [Compute.puts, hwide, if_true, hval, put2Of, tab_get, lo32_append, hi32_append]
  rw [hputs] at hdest
  rw [hexec, runPair_ok hissue hread hdest, finish_ok, Compute.after, hputs]
  simp only [hval]

end

/-! ### The lanes of a mask in their order -/

theorem eq_zero_iff_has {m : Mask} : m = 0 ↔ ∀ l, has m l = false :=
  ⟨fun h l => by rw [h, has_zero], fun h => has_ext fun l => by rw [h, has_zero]⟩

theorem and_maskOf (m : Mask) (f : Fin 32 → Bool) : (m &&& maskOf f) = maskOf fun l => m.getLsbD l.val && f l :=
  has_ext fun l => by rw [has_and, has_maskOf, has_maskOf]; rfl

theorem map_val_lanes32 : lanes32.map Fin.val = List.range 32 := List.map_coe_finRange_eq_range

theorem popcount_eq_countP (m : Mask) : popcount m = (List.range 32).countP fun i => m.getLsbD i := by
  rw [popcount, lanesOf, ← List.countP_eq_length_filter, ← map_val_lanes32, List.countP_map]
  rfl

theorem map_val_lowest (m : Mask) : (lowest m).map Fin.val = (List.range 32).find? fun i => m.getLsbD i := by
  rw [← map_val_lanes32, List.find?_map]
  rfl

theorem highest_eq_findRev? (m : Mask) : highest m = Fin.findRev? (has m) := by
  rw [← Fin.map_rev_find?, Fin.find?_eq_find?_finRange, highest, lanes32, List.finRange_reverse, List.find?_map]
  rfl

theorem highest_eq_some_iff {m : Mask} {l : Fin 32} :
    highest m = some l ↔ has m l = true ∧ ∀ k, l < k → has m k = false := by
  rw [highest_eq_findRev?, Fin.findRev?_eq_some_iff]

theorem highest_eq_none_iff {m : Mask} : highest m = none ↔ m = 0 := by
  rw [highest_eq_findRev?, Fin.findRev?_eq_none_iff, eq_zero_iff_has]

theorem lowest_eq_some_iff {m : Mask} {l : Fin 32} : lowest m = some l ↔ has m l = true ∧ ∀ k < l, has m k = false := by
  rw [lowest, lanes32, ← Fin.find?_eq_find?_finRange, Fin.find?_eq_some_iff]

theorem lowest_eq_none_iff {m : Mask} : lowest m = none ↔ m = 0 := by
  rw [lowest, lanes32, ← Fin.find?_eq_find?_finRange, Fin.find?_eq_none_iff, eq_zero_iff_has]

theorem exists_lowest {m : Mask} (h : m ≠ 0) :
    ∃ l, lowest m = some l ∧ has m l = true ∧ ∀ k, has m k = true → l ≤ k := by
  obtain ⟨l, hl⟩ := Option.ne_none_iff_exists'.mp (mt lowest_eq_none_iff.mp h)
  obtain ⟨hhas, hbelow⟩ := lowest_eq_some_iff.mp hl
  exact ⟨l, hl, hhas, fun k hk => not_lt.mp fun hlt => by simp [hbelow k hlt] at hk⟩

theorem exists_highest {m : Mask} (h : m ≠ 0) :
    ∃ l, highest m = some l ∧ has m l = true ∧ ∀ k, has m k = true → k ≤ l := by
  obtain ⟨l, hl⟩ := Option.ne_none_iff_exists'.mp (mt highest_eq_none_iff.mp h)
  obtain ⟨hhas, habove⟩ := highest_eq_some_iff.mp hl
  exact ⟨l, hl, hhas, fun k hk => not_lt.mp fun hlt => by simp [habove k hlt] at hk⟩

end Sys2Proof.Machine
end

section
/-!
PROOFS. The integer instructions of family 000 (R195 to R204).
-/

namespace Sys2Proof.Machine

/-! ### The arithmetic of R195 to R199 -/

/-- A result that reads its operands as unsigned where the mode does. -/
theorem narrow_eq_narrowed (md : IntMode) (f : Bool → Int) : narrow md (f (isU md)) = narrowed md (f false) (f true) := by
  cases md with
  | wrap => rfl
  | sat =>
    change narrow .sat (f false) = _
    simp only [narrow, narrowed, clampInt, Int.reducePow, Int.reduceNeg, Int.reduceSub]
    split
    · rfl
    · split <;> rfl
  | satU =>
    change narrow .satU (f true) = _
    simp only [narrow, narrowed, clampInt, Int.reducePow, Int.reduceSub]
    split
    · rfl
    · split <;> rfl

theorem intVal_lt (u : Bool) (a b : Word) : (if u then a.ult b else a.slt b) = decide (intVal u a < intVal u b) := by
  cases u <;> simp [intVal, BitVec.ult_eq_decide, BitVec.slt_eq_decide]

theorem intVal_inj {u : Bool} {a b : Word} : intVal u a = intVal u b ↔ a = b := by
  cases u with
  | false => exact BitVec.toInt_inj
  | true => exact Int.ofNat_inj.trans BitVec.toNat_inj

theorem sub_eq_ofInt (x y : Word) : x - y = BitVec.ofInt 32 (x.toNat - y.toNat) := by
  rw [sub_eq_add_neg (x.toNat : Int), BitVec.ofInt_add, BitVec.ofInt_neg, BitVec.ofInt_natCast, BitVec.ofInt_natCast,
    BitVec.ofNat_toNat, BitVec.ofNat_toNat, BitVec.setWidth_eq, BitVec.setWidth_eq, BitVec.sub_eq_add_neg]

/-- The high half of a 64-bit number. -/
theorem extractLsb'_high_ofInt (p : Int) : (BitVec.ofInt 64 p).extractLsb' 32 32 = BitVec.ofInt 32 (p / 2 ^ 32) := by
  apply BitVec.eq_of_toNat_eq
  rw [BitVec.extractLsb'_toNat, BitVec.toNat_ofInt, BitVec.toNat_ofInt, Nat.shiftRight_eq_div_pow]
  omega

theorem mulHigh_eq_highProduct (u : Bool) (a b : Word) : mulHigh u a b = highProduct u a b := by
  rw [mulHigh, ← extractLsb'_high_ofInt, BitVec.ofInt_mul, highProduct]
  cases u with
  | false => rfl
  | true => simp [intVal]

theorem quot_eq_quotient (u : Bool) (a b : Word) : quot u a b = quotient u a b := by
  unfold quot quotient
  split
  · rfl
  · cases u with
    | false =>
      apply BitVec.eq_of_toInt_eq
      simp [intVal, BitVec.toInt_sdiv]
    | true =>
      change BitVec.ofInt 32 ((a.toNat / b.toNat : Nat) : Int) = _
      rw [BitVec.ofInt_natCast]
      rfl

theorem remd_eq_remainder (u : Bool) (a b : Word) : remd u a b = remainder u a b := by
  unfold remd remainder
  split
  · rfl
  · cases u with
    | false =>
      change BitVec.ofInt 32 (a.toInt.tmod b.toInt) = a.srem b
      rw [← BitVec.toInt_srem, BitVec.ofInt_toInt]
    | true =>
      change BitVec.ofInt 32 ((a.toNat % b.toNat : Nat) : Int) = _
      rw [BitVec.ofInt_natCast]
      rfl

theorem minI_eq_lesser (u : Bool) (a b : Word) : minI u a b = lesser u a b := by
  simp only [minI, lesser, intVal_lt, decide_eq_true_eq, ← not_lt, ite_not]

theorem maxI_eq_greater (u : Bool) (a b : Word) : maxI u a b = greater u a b := by
  simp only [maxI, greater, intVal_lt, decide_eq_true_eq, ← not_lt, ite_not]

theorem absI_eq_magnitude (sat : Bool) (a : Word) : absI sat a = magnitude sat a := by
  unfold absI magnitude
  rw [BitVec.msb_eq_toInt]
  by_cases hneg : a.toInt < 0 <;> simp [hneg]

theorem bit01_cmpI (c : Cmp) (u : Bool) (a b : Word) : bit01 (cmpI c u a b) = compared c u a b := by
  have heq : (a == b) = decide (intVal u a = intVal u b) := by simp only [beq_eq_decide, intVal_inj]
  simp only [bit01, cmpI, compared, intVal_lt, bne, heq, beq_eq_decide]
  cases c with
  | eq | ne | lt | num | nan => rfl
  | le => simp only [← Bool.decide_or, le_iff_lt_or_eq]
  | gt => simp only [← Bool.decide_or, ← le_iff_lt_or_eq, Bool.not_eq_true', decide_eq_false_iff_not,
      decide_eq_true_eq, not_le]
  | ge => simp only [Bool.not_eq_true', decide_eq_false_iff_not, decide_eq_true_eq, not_lt]

theorem shiftLeft_add_eq_ofNat (x y : Word) (n : Nat) : (x <<< n) + y = BitVec.ofNat 32 (x.toNat * 2 ^ n + y.toNat) := by
  apply BitVec.eq_of_toNat_eq
  rw [BitVec.toNat_add, BitVec.toNat_shiftLeft, BitVec.toNat_ofNat, Nat.shiftLeft_eq, Nat.mod_add_mod]

/-! ### Bits (R200 to R204) -/

theorem lop3W_eq_tableWord (g0 g1 : BitVec 4) (a b c : Word) : lop3W g0 g1 a b c = tableWord g0 g1 a b c := by
  refine has_ext fun l => ?_
  rw [lop3W, tableWord, has_maskOf, has_maskOf, lutBit]
  cases a.getLsbD l.val <;> cases b.getLsbD l.val <;> rfl

theorem shlW_eq_shiftLeft (a b : Word) : shlW a b = a <<< b := by
  rw [shlW, BitVec.shiftLeft_eq']
  split
  · rfl
  · next h => exact (BitVec.shiftLeft_eq_zero (not_lt.mp h)).symm

theorem shrW_eq_ushiftRight (a b : Word) : shrW a b = a >>> b := by
  rw [shrW, BitVec.ushiftRight_eq']
  split
  · rfl
  · next h => exact (BitVec.ushiftRight_eq_zero (not_lt.mp h)).symm

theorem sarW_eq_sshiftRight (a b : Word) : sarW a b = a.sshiftRight' b := by
  rw [sarW, BitVec.sshiftRight']
  rcases Nat.lt_or_ge b.toNat 32 with h | h
  · rw [Nat.min_eq_left (by omega)]
  · rw [Nat.min_eq_right (by omega)]
    refine has_ext fun l => ?_
    simp only [has, BitVec.getLsbD_sshiftRight, if_neg (show ¬ b.toNat + l.val < 32 by omega)]
    split
    · next hl => rw [BitVec.msb_eq_getLsbD_last, show 31 + l.val = 32 - 1 by omega]
    · rfl

theorem rotW_eq_rotated (r : Bool) (a b : Word) : rotW r a b = rotated r a b := by
  simp only [rotW, rotated, BitVec.rotateLeft_def, BitVec.rotateRight_def, Nat.mod_mod]

theorem fieldPos_eq (f : Word) : fieldPos f = fPos f := by simp [fieldPos, fPos, nbits]

theorem fieldLen_eq (f : Word) : fieldLen f = fLen f := by simp [fieldLen, fLen, nbits]

theorem fLen_le (f : Word) : fLen f ≤ 32 := Nat.min_le_right _ _

/-- A field is a part of its word, shifted down and extended. -/
theorem fieldOf_unsigned (a f : Word) : fieldOf false a f = ((a >>> fPos f).setWidth (fLen f)).setWidth 32 := by
  apply BitVec.eq_of_toNat_eq
  unfold fieldOf
  split
  · next h => simp [h, Nat.mod_one]
  · simp [Nat.shiftRight_eq_div_pow]

theorem fieldOf_signed (a f : Word) : fieldOf true a f = ((a.sshiftRight (fPos f)).setWidth (fLen f)).signExtend 32 := by
  have hsigned : fieldOf true a f = BitVec.ofInt 32 (Int.bmod (a.toInt / 2 ^ fPos f) (2 ^ fLen f)) := by
    unfold fieldOf
    split
    · next h => simp [h]
    · rfl
  rw [hsigned, ← BitVec.signExtend_eq_setWidth_of_le _ (fLen_le f), BitVec.signExtend, BitVec.signExtend, BitVec.toInt_ofInt,
    BitVec.toInt_sshiftRight, Int.shiftRight_eq_div_pow]
  rfl

theorem bfxW_eq_fieldOf (sg : Bool) (a f : Word) : bfxW sg a f = fieldOf sg a f := by
  refine has_ext fun l => ?_
  have hlast : ¬ 32 ≤ fLen f - 1 := by have := fLen_le f; omega
  rw [bfxW, has_maskOf, fieldPos_eq, fieldLen_eq]
  cases sg with
  | false =>
    rw [fieldOf_unsigned, has, BitVec.getLsbD_setWidth, BitVec.getLsbD_setWidth, BitVec.getLsbD_ushiftRight]
    by_cases hin : l.val < fLen f
    · simpa [hin] using BitVec.lt_of_getLsbD
    · simp [hin]
  | true =>
    rw [fieldOf_signed, has, BitVec.getLsbD_signExtend, BitVec.msb_eq_getLsbD_last, BitVec.getLsbD_setWidth,
      BitVec.getLsbD_setWidth, BitVec.getLsbD_sshiftRight, BitVec.getLsbD_sshiftRight, BitVec.msb_eq_getLsbD_last]
    by_cases hin : l.val < fLen f
    · simp [hin]
    · simp [hin, hlast]

theorem has_fieldInto (a b f : Word) (l : Fin 32) : has (fieldInto a b f) l =
    if fPos f ≤ l.val ∧ l.val < fPos f + fLen f then a.getLsbD (l.val - fPos f) else b.getLsbD l.val := by
  have hl := l.isLt
  simp only [has, fieldInto, BitVec.getLsbD_or, BitVec.getLsbD_and, BitVec.getLsbD_not, BitVec.getLsbD_ofNat,
    Nat.testBit_mul_two_pow, Nat.testBit_two_pow_sub_one, BitVec.getLsbD_shiftLeft, decide_eq_true hl, Bool.true_and]
  by_cases hpos : fPos f ≤ l.val
  · by_cases hlen : l.val - fPos f < fLen f
    · simp [hpos, hlen, show l.val < fPos f + fLen f by omega]
    · simp [hpos, hlen, show ¬ l.val < fPos f + fLen f by omega]
  · simp [hpos]

theorem bfiW_eq_fieldInto (a b f : Word) : bfiW a b f = fieldInto a b f := by
  refine has_ext fun l => ?_
  rw [has_fieldInto, bfiW, has_maskOf, fieldPos_eq, fieldLen_eq]

/-- The highest lane of a mask is the binary logarithm of its number. -/
theorem highest_eq_log2 {m : Mask} {l : Fin 32} (h : highest m = some l) : Nat.log2 m.toNat = l.val := by
  obtain ⟨hl, habove⟩ := highest_eq_some_iff.mp h
  have hlow : 2 ^ l.val ≤ m.toNat := Nat.ge_two_pow_of_testBit hl
  have hhigh : m.toNat < 2 ^ (l.val + 1) := by
    refine Nat.lt_pow_two_of_testBit _ fun i hi => ?_
    rcases Nat.lt_or_ge i 32 with h32 | h32
    · exact habove ⟨i, h32⟩ hi
    · exact BitVec.getLsbD_of_ge m i h32
  have hpos := Nat.two_pow_pos l.val
  exact (Nat.log2_eq_iff (by omega)).mpr ⟨hlow, hhigh⟩

theorem clzW_eq_leadingZeros (a : Word) : clzW a = leadingZeros a := by
  unfold clzW leadingZeros
  split
  · next h hh =>
    have hne : a ≠ 0 := fun h0 => by simp [highest_eq_none_iff.mpr h0] at hh
    rw [if_neg hne, highest_eq_log2 hh]
    rfl
  · next hh => rw [if_pos (highest_eq_none_iff.mp hh)]; rfl

theorem brevW_eq_reverse (a : Word) : brevW a = a.reverse := by
  refine has_ext fun l => ?_
  rw [brevW, has_maskOf, has, BitVec.getLsbD_reverse, BitVec.getMsbD, decide_eq_true l.isLt, Bool.true_and]

/-! ### Family 000 -/

section
variable {i : Instr} {o : Compute}

theorem intArith_completes (h : intArith i = some o) : Completes i o := by
  cases i
  case iadd md =>
    cases h
    exact .of_runAlu (fun _ => rfl) fun _ _ _ => narrow_eq_narrowed md fun u => intVal u _ + intVal u _
  case isub md =>
    cases h
    exact .of_runAlu (fun _ => rfl) fun _ _ _ => narrow_eq_narrowed md fun u => intVal u _ - intVal u _
  case imul md =>
    cases h
    exact .of_runAlu (fun _ => rfl) fun _ _ _ => narrow_eq_narrowed md fun u => intVal u _ * intVal u _
  case imad md =>
    cases h
    exact .of_runAlu (fun _ => rfl) fun _ _ _ => narrow_eq_narrowed md fun u => intVal u _ * intVal u _ + intVal u _
  case iaddI | imulI =>
    cases h
    exact .of_runInt (fun _ => rfl) fun _ _ _ => rfl
  case isubI => cases h; exact .of_runInt (fun _ => rfl) fun _ _ _ => sub_eq_ofInt _ _
  case imulh => cases h; exact .of_runInt (fun _ => rfl) fun _ _ _ => mulHigh_eq_highProduct _ _ _
  case idiv => cases h; exact .of_runInt (fun _ => rfl) fun _ _ _ => quot_eq_quotient _ _ _
  case irem => cases h; exact .of_runInt (fun _ => rfl) fun _ _ _ => remd_eq_remainder _ _ _
  case imin => cases h; exact .of_runInt (fun _ => rfl) fun _ _ _ => minI_eq_lesser _ _ _
  case imax => cases h; exact .of_runInt (fun _ => rfl) fun _ _ _ => maxI_eq_greater _ _ _
  case iabs => cases h; exact .of_runAlu (fun _ => rfl) fun _ _ _ => absI_eq_magnitude _ _
  case iset => cases h; exact .of_runInt (fun _ => rfl) fun _ _ _ => bit01_cmpI _ _ _ _
  case lea => cases h; exact .of_runInt (fun _ => rfl) fun _ _ _ => shiftLeft_add_eq_ofNat _ _ _
  all_goals cases h

theorem intBits_completes (h : intBits i = some o) : Completes i o := by
  cases i
  case and | andI | or | orI | xor | xorI | andn | andnI =>
    cases h
    exact .of_runInt (fun _ => rfl) fun _ _ _ => rfl
  case lop3 => cases h; exact .of_runInt (fun _ => rfl) fun _ _ _ => lop3W_eq_tableWord _ _ _ _ _
  case shl | shlI => cases h; exact .of_runInt (fun _ => rfl) fun _ _ _ => shlW_eq_shiftLeft _ _
  case shr | shrI => cases h; exact .of_runInt (fun _ => rfl) fun _ _ _ => shrW_eq_ushiftRight _ _
  case sar | sarI => cases h; exact .of_runInt (fun _ => rfl) fun _ _ _ => sarW_eq_sshiftRight _ _
  case rot | rotI => cases h; exact .of_runInt (fun _ => rfl) fun _ _ _ => rotW_eq_rotated _ _ _
  case bfx => cases h; exact .of_runInt (fun _ => rfl) fun _ _ _ => bfxW_eq_fieldOf _ _ _
  case bfi => cases h; exact .of_runInt (fun _ => rfl) fun _ _ _ => bfiW_eq_fieldInto _ _ _
  case popc => cases h; exact .of_runInt (fun _ => rfl) fun _ _ _ => congrArg w32 (popcount_eq_countP _)
  case clz => cases h; exact .of_runInt (fun _ => rfl) fun _ _ _ => clzW_eq_leadingZeros _
  case brev => cases h; exact .of_runInt (fun _ => rfl) fun _ _ _ => brevW_eq_reverse _
  all_goals cases h

end

/-- Settles O13: each instruction by what its meaning makes of the words of one lane. -/
theorem integerInstructionsComplete : Obligations.IntegerInstructionsComplete :=
  ⟨fun _ _ s r h => intArith_completes h s r, fun _ _ s r h => intBits_completes h s r⟩

end Sys2Proof.Machine
end

section
/-!
PROOFS. The FP32 and FP64 instructions (R205 to R211): the statement on FP32 holds, and that on FP64 holds of the well-formed
instructions and fails of one that is not.
-/

namespace Sys2Proof.Machine

/-! ### FP32 (R205 to R210) -/

/-- The value of an FP32 word by its sign, its exponent field and its fraction field (R28). -/
theorem fv_eq (w : Word) : fv w =
    if w.toNat / 2 ^ 23 % 256 = 255 then if w.toNat % 2 ^ 23 = 0 then .inf (w.getLsbD 31) else .nan
    else if w.toNat / 2 ^ 23 % 256 = 0 then .fin (w.getLsbD 31) (w.toNat % 2 ^ 23) (-149)
    else .fin (w.getLsbD 31) (2 ^ 23 + w.toNat % 2 ^ 23) ((w.toNat / 2 ^ 23 % 256 : Nat) - 150) := by
  have hsign : nbit w.toNat 31 = w.getLsbD 31 := by
    rw [nbit, BitVec.getLsbD, Nat.testBit_eq_decide_div_mod_eq, beq_eq_decide]
  have hexp : w.toNat % 2 ^ 31 / 2 ^ 23 = w.toNat / 2 ^ 23 % 256 := by omega
  have hfrac : w.toNat % 2 ^ 31 % 2 ^ 23 = w.toNat % 2 ^ 23 := by omega
  have hval : fv w = if 255 * 2 ^ 23 < w.toNat % 2 ^ 31 then .nan
      else if w.toNat % 2 ^ 31 = 255 * 2 ^ 23 then .inf (nbit w.toNat 31)
      else if w.toNat % 2 ^ 31 / 2 ^ 23 = 0 then .fin (nbit w.toNat 31) (w.toNat % 2 ^ 31 % 2 ^ 23) (-149)
      else .fin (nbit w.toNat 31) (2 ^ 23 + w.toNat % 2 ^ 31 % 2 ^ 23) ((w.toNat % 2 ^ 31 / 2 ^ 23 : Nat) - 127 - 23) := rfl
  rw [hval, hsign, hexp, hfrac, Int.sub_sub]
  by_cases hmax : w.toNat / 2 ^ 23 % 256 = 255
  · rw [if_pos hmax]
    by_cases hzero : w.toNat % 2 ^ 23 = 0
    · rw [if_pos hzero, if_neg (by omega), if_pos (by omega)]
    · rw [if_neg hzero, if_pos (by omega)]
  · rw [if_neg hmax, if_neg (by omega), if_neg (by omega)]
    rfl

theorem classOf_eq_classWord (w : Word) : classOf w = classWord w := by
  unfold classOf classWord
  split
  · rfl
  dsimp only
  rw [fv_eq]
  by_cases hmax : w.toNat / 2 ^ 23 % 256 = 255
  · rw [if_pos hmax, if_pos hmax]
    by_cases hzero : w.toNat % 2 ^ 23 = 0
    · rw [if_pos hzero, if_neg (not_not.mpr hzero)]
    · rw [if_neg hzero, if_pos hzero]
  · rw [if_neg hmax, if_neg hmax]
    by_cases hsmall : w.toNat / 2 ^ 23 % 256 = 0
    · rw [if_pos hsmall, if_pos hsmall]
      dsimp only
      rw [if_pos hsmall]
    · rw [if_neg hsmall, if_neg hsmall]
      dsimp only
      rw [if_neg (by omega), if_neg hsmall]

theorem bit01_classOf (x y : Word) : bit01 ((classOf x &&& y &&& 0x3FF#32) != 0) =
    truth ((classWord x).toNat &&& y.toNat &&& 0x3FF != 0) := by
  have hzero : ((classWord x &&& y &&& 0x3FF#32) != 0) = ((classWord x).toNat &&& y.toNat &&& 0x3FF != 0) := by
    simp only [bne, beq_eq_decide, ← BitVec.toNat_inj, BitVec.toNat_and]
    rfl
  rw [classOf_eq_classWord, hzero]
  rfl

/-! ### FP64 (R211) -/

section
variable {md : FMods} (h : md.noAbs = true) (r : Reading) (l : Fin 32)
include h

theorem dvA_of_noAbs : dvA md r l = signed64 md.na r 0 l := by
  obtain ⟨ha, -⟩ := Bool.and_eq_true_iff.mp h
  rw [dvA, FVal.mods, (Bool.not_eq_true' _).mp ha]
  rfl

theorem dvB_of_noAbs : dvB md r l = signed64 md.nb r 1 l := by
  obtain ⟨-, hb⟩ := Bool.and_eq_true_iff.mp h
  rw [dvB, FVal.mods, (Bool.not_eq_true' _).mp hb]
  rfl

end

theorem toF64_eq (rm : Rm) (x : FVal × Flags) : toF64 rm x =
    (BitVec.ofNat 32 ((f64.ofVal rm x.1).1 / 2 ^ 32) ++ BitVec.ofNat 32 (f64.ofVal rm x.1).1, x.2.or (f64.ofVal rm x.1).2) :=
  Prod.ext (w64_eq_append _) rfl

section
variable {i : Instr} {o : Compute}

theorem fp32_completes (h : fp32Compute i = some o) : Completes i o := by
  cases i
  case fclass mask =>
    cases mask with
    | none => cases h; exact .of_runInt (fun _ => rfl) fun _ _ _ => classOf_eq_classWord _
    | some k => cases h; exact .of_runInt (fun _ => rfl) fun _ _ _ => bit01_classOf _ _
  case fmin | fmax | fset => cases h; exact .of_runInt (fun _ => rfl) fun _ _ _ => rfl
  case fadd | faddI | fmul | fmulI | ffma | frcp | frsq | fsqrt | fexp2 | flog2 | fsin | fcos | ftanh =>
    cases h
    exact .of_runAlu (fun _ => rfl) fun _ _ _ => rfl
  all_goals cases h

/-- The FP64 instructions complete where no absolute value is asked for, as in every well-formed one. -/
theorem fp64_completes_of_wf (h : fp64Compute i = some o) (hwf : i.wf = true) : Completes i o := by
  cases i
  case dadd | dmul | dfma =>
    cases h
    obtain ⟨-, hno⟩ := Bool.and_eq_true_iff.mp hwf
    refine .of_runPair (fun _ => rfl) fun _ _ _ => ?_
    rw [dvA_of_noAbs hno, dvB_of_noAbs hno]
    exact toF64_eq _ _
  case dmin | dmax =>
    cases h
    obtain ⟨-, hno⟩ := Bool.and_eq_true_iff.mp hwf
    refine .of_runPair (fun _ => rfl) fun _ _ _ => ?_
    rw [dvA_of_noAbs hno, dvB_of_noAbs hno]
    exact Prod.ext (w64_eq_append _) rfl
  case dset =>
    cases h
    obtain ⟨-, hno⟩ := Bool.and_eq_true_iff.mp hwf
    refine .of_runInt (fun _ => rfl) fun _ _ _ => ?_
    rw [dvA_of_noAbs hno, dvB_of_noAbs hno]
    rfl
  all_goals cases h

end

theorem fp32Completes : Clause.Fp32Completes := fun _ _ s r h => fp32_completes h s r

/-! ### Where the statement fails -/

/-- The plain sum of minus and plus infinity leaves the event of an invalid operation in NSTAT. -/
theorem eventsAfter_plainSum : eventsAfter (.next (plainSum.after infinities infinitiesRead)) = some 1#32 := by
  decide +kernel

/-- Refutes O14: `DADD v0, |s2|, s4` of minus and plus infinity sets no event, and the sum of its sources, which the statement has
it give, is an invalid operation. The statement does not ask that the instruction be well formed, and this one, which no word
decodes to, is not. Only the clause on FP64 fails: that on FP32 is `fp32Completes`. -/
theorem not_floatInstructionsComplete : ¬ Obligations.FloatInstructionsComplete := by
  rintro ⟨-, hfp64⟩
  have hevents := eventsAfter_absDadd
  rw [hfp64 absDadd plainSum infinities infinitiesRead rfl plainSum_normal, eventsAfter_plainSum] at hevents
  exact absurd hevents (by decide)

end Sys2Proof.Machine
end

section
/-!
PROOFS. Packed halves, dot products, packing and conversion (R212, R213, R214, R218).
-/

namespace Sys2Proof.Machine

/-! ### Packed halves (R212) -/

theorem packed_eq_halves (md : HMods) (f : Nat → FVal × Flags) : packed md f = halves md f := by
  simp only [packed, halves, w32, Nat.mul_comm, Nat.add_comm]

/-! ### Dot products (R213) -/

/-- The signed value of the low bits of a number. -/
theorem sextN_mod {n : Nat} (x : Nat) (h : 0 < n) : sextN (x % 2 ^ n) n = Int.bmod x (2 ^ n) := by
  rw [← BitVec.toNat_ofNat, sextN_toNat _ h, BitVec.toInt_ofNat']

theorem dotEl_eq_element (x : Word) {w : Nat} (i : Nat) (u : Bool) (h : 0 < w) : dotEl x w i u = element x w i u := by
  cases u with
  | true => rfl
  | false => exact sextN_mod _ h

theorem foldl_add_eq_add_sum {α : Type} [AddMonoid α] (l : List α) (a : α) : l.foldl (· + ·) a = a + l.sum := by
  rw [List.sum_eq_foldl, ← List.foldl_assoc (op := (· + · : α → α → α)), add_zero]

theorem dotSum_eq_dotProduct (n : Nat) {w : Nat} (ua ub : Bool) (a b c : Word) (h : 0 < w) :
    dotSum n w ua ub a b c = dotProduct n w ua ub a b c := by
  simp only [dotSum, dotProduct, dotEl_eq_element _ _ _ h, foldl_add_eq_add_sum]

theorem dotOut_eq_narrowed (sat : Bool) (x : Int) : dotOut sat x = narrowed (if sat then .sat else .wrap) x 0 := by
  cases sat with
  | false => rfl
  | true => exact narrow_eq_narrowed .sat fun u => if u then 0 else x

/-! ### Packing (R218) -/

theorem subBits_eq_bits (w : SubW) : subBits w = w.bits := by cases w <;> rfl

theorem SubW.bits_pos (w : SubW) : 0 < w.bits := by cases w <;> decide

/-- The field word of part `n` of a word. -/
theorem packW_eq_fieldInto (w : SubW) (n : Fin 8) (v b : Word) :
    packW w.bits n.val v b = fieldInto v b (BitVec.ofNat 32 (w.bits * n.val + 256 * w.bits)) := by
  have hpos : fPos (BitVec.ofNat 32 (w.bits * n.val + 256 * w.bits)) = w.bits * n.val := by
    cases w <;> revert n <;> decide
  have hlen : fLen (BitVec.ofNat 32 (w.bits * n.val + 256 * w.bits)) = w.bits := by
    cases w <;> revert n <;> decide
  refine has_ext fun l => ?_
  rw [packW, has_maskOf, has_fieldInto, hpos, hlen]

theorem unpkW_eq_element (w : SubW) (n : Nat) (sg : Bool) (a : Word) :
    unpkW w.bits n sg a = BitVec.ofInt 32 (element a w.bits n (!sg)) := by
  cases sg with
  | true => exact congrArg (BitVec.ofInt 32) (sextN_mod _ (SubW.bits_pos w))
  | false => exact (BitVec.ofInt_natCast 32 _).symm

/-! ### Conversion (R214) -/

section
variable {i : Instr} {o : Compute}

theorem cvt_completes (g : Guard) (d : Dst) (a : Src) (dt st : Ty) (rm : Rm) (ov : CvtSat) (el : Fin 8)
    (h : packedCompute (.cvt g d a dt st rm ov el) = some o) : Completes (.cvt g d a dt st rm ov el) o := by
  cases h
  cases dt
  case f64 => exact .of_runPair (fun _ => rfl) fun _ _ _ => Prod.ext (w64_eq_append _) rfl
  all_goals exact .of_runAlu (fun _ => rfl) fun _ _ _ => rfl

theorem packed_completes (h : packedCompute i = some o) : Completes i o := by
  cases i
  case hadd2 | hmul2 | hfma2 => cases h; exact .of_runAlu (fun _ => rfl) fun _ _ _ => packed_eq_halves _ _
  case idot4 | idot8 =>
    cases h
    refine .of_runAlu (fun _ => rfl) fun _ _ _ => ?_
    rw [dotOut_eq_narrowed, dotSum_eq_dotProduct _ _ _ _ _ _ (by decide)]
    rfl
  case pack =>
    cases h
    refine .of_runAlu (fun _ => rfl) fun _ _ _ => ?_
    rw [subBits_eq_bits]
    exact Prod.ext (packW_eq_fieldInto _ _ _ _) rfl
  case unpk =>
    cases h
    refine .of_runInt (fun _ => rfl) fun _ _ _ => ?_
    rw [subBits_eq_bits]
    exact unpkW_eq_element _ _ _ _
  case cvt => exact cvt_completes _ _ _ _ _ _ _ _ h
  all_goals cases h

end

/-- Settles O15: each instruction by what its meaning makes of the words of one lane. -/
theorem packedAndConversionComplete : Obligations.PackedAndConversionComplete := fun _ _ s r h => packed_completes h s r

end Sys2Proof.Machine
end

section
/-!
PROOFS. Moves, and the lane operations SHFL, VOTE and MATCH (R219, R220, R221, R223).
-/

namespace Sys2Proof.Machine

/-! ### Moves -/

theorem w32_predByte (p : Vector Mask 7) (l : Fin 32) : w32 (predByte p l) = predicateByte p l := by
  rw [predByte, predicateByte, ← foldl_add_eq_add_sum, List.foldl_map]
  simp only [Bool.toNat, Bool.cond_eq_ite, ite_mul, Nat.one_mul, Nat.zero_mul]
  rfl

theorem toNat_bne_zero (x : Word) : (x != 0).toNat = if x ≠ 0 then 1 else 0 := by
  by_cases h : x = 0
  · rw [h]; rfl
  · rw [if_pos h, bne_iff_ne.mpr h, Bool.toNat_true]

theorem bit01_lutBit (g0 g1 : BitVec 4) (x y z : Word) : bit01 (lutBit (if z = 0 then g0 else g1) (x != 0) (y != 0)) =
    truth ((if z ≠ 0 then g1 else g0).getLsbD ((if y ≠ 0 then 2 else 0) + if x ≠ 0 then 1 else 0)) := by
  rw [lutBit, toNat_bne_zero, toNat_bne_zero, mul_ite, ite_not (z = 0)]
  rfl

theorem move_completes {i : Instr} {o : Compute} (h : moveCompute i = some o) : Completes i o := by
  cases i
  case mov | movi => cases h; exact .of_runInt (fun _ => rfl) fun _ _ _ => rfl
  case sel => cases h; exact .of_runInt (fun _ => rfl) fun _ _ _ => (ite_not _ _ _).symm
  case plop3 => cases h; exact .of_runInt (fun _ => rfl) fun _ _ _ => bit01_lutBit _ _ _ _ _
  case pmovGet => cases h; exact .of_runInt (fun _ => rfl) fun _ _ _ => w32_predByte _ _
  all_goals cases h

/-! ### SHFL (R220) -/

/-- A group of lanes lies in the warp. -/
theorem groupEnd_le {w l : Nat} (hw : w ∣ 32) (hl : l < 32) : l / w * w + w ≤ 32 := by
  obtain ⟨c, hc⟩ := hw
  have hlt : l / w < c := Nat.div_lt_of_lt_mul (hc ▸ hl)
  calc l / w * w + w
    _ = w * (l / w + 1) := by ring
    _ ≤ w * c := Nat.mul_le_mul_left w hlt
    _ = 32 := hc.symm

theorem width_dvd : ∀ lgw : Fin 6, 2 ^ lgw.val ∣ 32 := by decide

/-- A lane of a group by its place there. -/
theorem map_val_lane {base w : Nat} (x : Int) (h : base + w ≤ 32) :
    (if 0 ≤ x ∧ x < w then some (Fin.ofNat 32 (base + x.toNat)) else none).map Fin.val =
      if 0 ≤ x ∧ x < w then some (base + x.toNat) else none := by
  split
  · next hx => exact congrArg some (Nat.mod_eq_of_lt (by omega))
  · rfl

theorem map_val_shflSrc (md : ShflMode) (lgw : Fin 6) (l : Fin 32) (d : Word) :
    (shflSrc md lgw.val l d).map Fin.val = shuffleLane md (2 ^ lgw.val) l.val d := by
  have hsplit := Nat.div_add_mod' l.val (2 ^ lgw.val)
  have hend := groupEnd_le (width_dvd lgw) l.isLt
  have hpos := Nat.two_pow_pos lgw.val
  have hplace := Nat.mod_lt l.val hpos
  have hcount := Nat.mod_lt d.toNat hpos
  have hswap := Nat.xor_lt_two_pow hplace hcount
  unfold shflSrc shuffleLane
  dsimp only
  rw [map_val_lane _ hend, show l.val - l.val % 2 ^ lgw.val = l.val / 2 ^ lgw.val * 2 ^ lgw.val by omega]
  cases md with
  | pick =>
    dsimp only
    rw [if_pos (by omega)]
    rfl
  | sh =>
    dsimp only
    split
    · rw [if_pos (by omega), Option.some.injEq]
      omega
    · rw [if_neg (by omega)]
  | rot =>
    have hnonneg := Int.emod_nonneg (((l.val % 2 ^ lgw.val : Nat) : Int) - d.toNat) (Int.natCast_ne_zero.mpr hpos.ne')
    have hlt := Int.emod_lt_of_pos (((l.val % 2 ^ lgw.val : Nat) : Int) - d.toNat) (Int.natCast_pos.mpr hpos)
    dsimp only
    rw [if_pos ⟨hnonneg, hlt⟩]
    exact congrArg some (Int.toNat_add (Int.natCast_nonneg _) hnonneg).symm
  | xsw =>
    dsimp only
    rw [if_pos (by omega)]
    rfl

/-! ### VOTE and MATCH (R221, R223) -/

theorem voteLevel_eq : ∀ a b c d : Bool, a.toNat + 2 * b.toNat + 4 * c.toNat + 8 * d.toNat =
    (if a then 1 else 0) + (if b then 2 else 0) + (if c then 4 else 0) + if d then 8 else 0 := by decide

theorem voteW_eq_voteResult (kd : VoteKind) (m t : Mask) : voteW kd m t = voteResult kd m t := by
  cases kd with
  | mask => rfl
  | count => exact congrArg w32 (popcount_eq_countP t)
  | first => simp only [voteW, voteResult, map_val_lowest]; rfl
  | some | every | same => exact congrArg w32 (voteLevel_eq _ _ _ _)

theorem filter_lt_range : ∀ l : Fin 32, ((List.range 32).filter fun i => decide (i < l.val)) = List.range l.val := by decide

/-- The lanes of a mask below a lane. -/
theorem popcount_below (m : Mask) (l : Fin 32) :
    popcount (m &&& maskOf fun i => decide (i.val < l.val)) = (List.range l.val).countP fun i => m.getLsbD i := by
  rw [popcount_eq_countP, ← filter_lt_range l, List.countP_filter]
  refine List.countP_congr fun i hi => ?_
  have hbit := has_and m (maskOf fun i => decide (i.val < l.val)) ⟨i, List.mem_range.mp hi⟩
  rw [has_maskOf] at hbit
  exact iff_of_eq (congrArg (· = true) hbit)

theorem matchW_eq_matchResult (md : MatchMode) (m : Mask) (v : Lanes Word) (l : Fin 32) :
    matchW md m v l = matchResult md m v l := by
  unfold matchW matchResult
  rw [and_maskOf]
  cases md
  case rank => exact congrArg w32 (popcount_below _ l)
  case leader => simp only [map_val_lowest]; rfl
  all_goals rfl

theorem lane_completes {i : Instr} {o : Compute} (h : laneCompute i = some o) : Completes i o := by
  cases i
  case shfl g d a b c md lgw =>
    cases h
    refine .of_runInt (fun _ => rfl) fun s r l => ?_
    dsimp only
    rw [← map_val_shflSrc]
    cases shflSrc md lgw.val l (r.w 1)[l] with
    | none => rfl
    | some n => simp [has]
  case vote g d a kd =>
    cases h
    refine .of_runInt (fun _ => rfl) fun s r l => (voteW_eq_voteResult _ _ _).trans ?_
    exact congrArg (voteResult kd (s.active g)) (and_maskOf _ _)
  case matchL => cases h; exact .of_runInt (fun _ => rfl) fun _ _ _ => matchW_eq_matchResult _ _ _ _
  all_goals cases h

/-- Settles O16: the moves word by word, SHFL by the lane it reads from, VOTE and MATCH by the lanes they choose. -/
theorem movesAndLaneOperationsComplete : Obligations.MovesAndLaneOperationsComplete :=
  ⟨fun _ _ s r h => move_completes h s r, fun _ _ s r h => lane_completes h s r⟩

end Sys2Proof.Machine
end

section
/-!
PROOFS. Operations across the lanes of a warp: LRED, LSCAN, RDLANE and ELECT (R222, R224, R225).
-/

namespace Sys2Proof.Machine

/-! ### Reductions and scans (R222) -/

section
variable (op : RedOp) (rm : Rm)

/-- One more value in a reduction. -/
def combineNext (acc : Option Word) (y : Word) : Word × Flags :=
  match acc with
  | none => (y, {})
  | some x => redStep op rm x y

theorem combined_append_singleton (xs : List Word) (y : Word) :
    combined op rm (xs ++ [y]) = some (combineNext op rm (combined op rm xs) y).1 := by
  cases xs with
  | nil => rfl
  | cons x t => simp only [List.cons_append, combined, List.foldl_append, List.foldl_cons, List.foldl_nil, combineNext]

variable (v : Lanes Word)

/-- What a scan keeps after some lanes: what each lane found and made, the last value, and the events. -/
def scanOver (ls : List (Fin 32)) : List (Fin 32 × Option Word × Word) × Option Word × Flags :=
  ls.foldl (fun acc l => (acc.1 ++ [(l, acc.2.1, (combineNext op rm acc.2.1 v[l]).1)],
    some (combineNext op rm acc.2.1 v[l]).1, acc.2.2.or (combineNext op rm acc.2.1 v[l]).2)) ([], none, {})

theorem scan_eq_scanOver (m : Mask) : scan op rm m v = scanOver op rm v (lanesOf m) := rfl

theorem scanOver_append_singleton (ls : List (Fin 32)) (l : Fin 32) : scanOver op rm v (ls ++ [l]) =
    ((scanOver op rm v ls).1 ++ [(l, (scanOver op rm v ls).2.1, (combineNext op rm (scanOver op rm v ls).2.1 v[l]).1)],
      some (combineNext op rm (scanOver op rm v ls).2.1 v[l]).1,
      (scanOver op rm v ls).2.2.or (combineNext op rm (scanOver op rm v ls).2.1 v[l]).2) := by
  simp only [scanOver, List.foldl_append, List.foldl_cons, List.foldl_nil]

theorem scanOver_last (ls : List (Fin 32)) : (scanOver op rm v ls).2.1 = combined op rm (ls.map fun l => v[l]) := by
  induction ls using List.reverseRecOn with
  | nil => rfl
  | append_singleton ls l ih =>
    rw [scanOver_append_singleton, ih, List.map_append, List.map_cons, List.map_nil, combined_append_singleton]

theorem scanOver_lanes (ls : List (Fin 32)) : (scanOver op rm v ls).1.map Prod.fst = ls := by
  induction ls using List.reverseRecOn with
  | nil => rfl
  | append_singleton ls l ih => rw [scanOver_append_singleton, List.map_append, ih]; rfl

theorem scanOver_find?_eq_none {ls : List (Fin 32)} {l : Fin 32} (h : l ∉ ls) :
    (scanOver op rm v ls).1.find? (fun x => x.1 == l) = none := by
  rw [List.find?_eq_none]
  intro x hx hl
  rw [beq_iff_eq] at hl
  exact h (by rw [← scanOver_lanes op rm v ls, ← hl]; exact List.mem_map_of_mem hx)

/-- A lane's entry holds the combination of the lanes before it, and that with its own value. -/
theorem scanOver_find?_eq_some {pre post : List (Fin 32)} {l : Fin 32} (h : l ∉ pre) :
    (scanOver op rm v (pre ++ l :: post)).1.find? (fun x => x.1 == l) =
      some (l, combined op rm (pre.map fun k => v[k]),
        (combineNext op rm (combined op rm (pre.map fun k => v[k])) v[l]).1) := by
  induction post using List.reverseRecOn with
  | nil =>
    rw [scanOver_append_singleton, List.find?_append, scanOver_find?_eq_none op rm v h, scanOver_last]
    simp
  | append_singleton post k ih =>
    rw [← List.cons_append, ← List.append_assoc, scanOver_append_singleton, List.find?_append, ih]
    rfl

end

theorem lanesOf_sorted (m : Mask) : (lanesOf m).Pairwise (· < ·) := (List.pairwise_lt_finRange 32).filter _

/-- An active lane among the active lanes. -/
theorem lanesOf_split {m : Mask} {l : Fin 32} (h : has m l = true) :
    ∃ pre post, lanesOf m = pre ++ l :: post ∧ (∀ k ∈ pre, k < l) ∧ ∀ k ∈ post, l < k := by
  obtain ⟨pre, post, hsplit⟩ := List.append_of_mem ((mem_lanesOf m l).mpr h)
  have hsorted := lanesOf_sorted m
  rw [hsplit, List.pairwise_append, List.pairwise_cons] at hsorted
  obtain ⟨-, ⟨hpost, -⟩, hpre⟩ := hsorted
  exact ⟨pre, post, hsplit, fun k hk => hpre k hk l List.mem_cons_self, hpost⟩

/-- The lanes that the scan of a lane takes. -/
def scannedLanes (m : Mask) (excl : Bool) (l : Fin 32) : List (Fin 32) :=
  (lanesOf m).filter fun k => decide (k.val < l.val) || (!excl && k == l)

theorem scannedLanes_of_split {m : Mask} {l : Fin 32} {pre post : List (Fin 32)} (excl : Bool)
    (hsplit : lanesOf m = pre ++ l :: post) (hpre : ∀ k ∈ pre, k < l) (hpost : ∀ k ∈ post, l < k) :
    scannedLanes m excl l = pre ++ if excl then [] else [l] := by
  have hbefore : pre.filter (fun k => decide (k.val < l.val) || (!excl && k == l)) = pre :=
    List.filter_eq_self.mpr fun k hk => Bool.or_eq_true_iff.mpr (.inl (decide_eq_true (hpre k hk)))
  have hafter : post.filter (fun k => decide (k.val < l.val) || (!excl && k == l)) = [] :=
    List.filter_eq_nil_iff.mpr fun k hk => by
      have h := hpost k hk
      simp [h.ne', h.le]
  rw [scannedLanes, hsplit, List.filter_append, hbefore, List.filter_cons, hafter]
  cases excl <;> simp

/-- What LSCAN gives a lane (R222). -/
def scanWord (op : RedOp) (excl : Bool) (rm : Rm) (m : Mask) (v : Lanes Word) (l : Fin 32) : Word :=
  match (scan op rm m v).1.find? fun x => x.1 == l with
  | some x => if excl then x.2.1.getD (redId op) else x.2.2
  | none => 0

theorem scanWord_eq (op : RedOp) (excl : Bool) (rm : Rm) (m : Mask) (v : Lanes Word) (l : Fin 32) :
    scanWord op excl rm m v l = if has m l then
      (combined op rm ((scannedLanes m excl l).map fun k => v[k])).getD (redId op) else 0 := by
  rw [scanWord, scan_eq_scanOver]
  by_cases hl : has m l = true
  · obtain ⟨pre, post, hsplit, hpre, hpost⟩ := lanesOf_split hl
    rw [if_pos hl, scannedLanes_of_split excl hsplit hpre hpost, hsplit,
      scanOver_find?_eq_some op rm v fun hmem => lt_irrefl _ (hpre l hmem)]
    cases excl with
    | true => simp
    | false => simp [combined_append_singleton]
  · rw [if_neg hl, scanOver_find?_eq_none op rm v (mt (mem_lanesOf m l).mp hl)]

/-! ### Elections (R225) -/

/-- The lanes of a mask above the pointer. -/
def lanesAbove (m : Mask) (ptr : Fin 32) : Mask := m &&& maskOf fun l => decide (ptr.val < l.val)

theorem has_lanesAbove (m : Mask) (ptr l : Fin 32) : has (lanesAbove m ptr) l = true ↔ has m l = true ∧ ptr < l := by
  rw [lanesAbove, has_and, has_maskOf, Bool.and_eq_true, decide_eq_true_eq]
  rfl

theorem electLane_rr_of_above {m : Mask} {ptr l : Fin 32} (h : lowest (lanesAbove m ptr) = some l) :
    electLane .rr m ptr = some l := by
  unfold lanesAbove at h
  simp only [electLane, h]

theorem electLane_rr_of_none_above {m : Mask} {ptr : Fin 32} (h : lowest (lanesAbove m ptr) = none) :
    electLane .rr m ptr = lowest m := by
  unfold lanesAbove at h
  simp only [electLane, h]

theorem roundRobin_chooses {m : Mask} (ptr : Fin 32) (h : m ≠ 0) :
    ∃ l, electLane .rr m ptr = some l ∧ has m l = true ∧ ((∃ k, ptr < k ∧ has m k = true) → ptr < l) ∧
      ∀ k, has m k = true → (ptr < k ↔ ptr < l) → l ≤ k := by
  by_cases habove : lanesAbove m ptr = 0
  · have hnone (k : Fin 32) (hk : has m k = true) : ¬ ptr < k := fun hlt => by
      have hmem := (has_lanesAbove m ptr k).mpr ⟨hk, hlt⟩
      rw [habove, has_zero] at hmem
      cases hmem
    obtain ⟨l, hl, hhas, hleast⟩ := exists_lowest h
    have helect := electLane_rr_of_none_above (lowest_eq_none_iff.mpr habove)
    exact ⟨l, helect.trans hl, hhas, fun ⟨k, hlt, hk⟩ => absurd hlt (hnone k hk), fun k hk _ => hleast k hk⟩
  · obtain ⟨l, hl, hhas, hleast⟩ := exists_lowest habove
    obtain ⟨hm, hlt⟩ := (has_lanesAbove m ptr l).mp hhas
    exact ⟨l, electLane_rr_of_above hl, hm, fun _ => hlt,
      fun k hk hside => hleast k ((has_lanesAbove m ptr k).mpr ⟨hk, hside.mpr hlt⟩)⟩

theorem electionChooses : Clause.ElectionChooses := fun _ ptr h =>
  ⟨exists_lowest h, exists_highest h, roundRobin_chooses ptr h⟩

/-! ### The instructions -/

section
variable {g : Guard} {s : State} {r : Reading}

/-- The source of a reduction. -/
def reduced (a : Src) (op : RedOp) : SrcSpec :=
  { srcI a with imm := if op = .fadd ∨ op = .fmin ∨ op = .fmax then .f32 else .int }

/-- The meanings of LRED and LSCAN read their source by the operation. -/
theorem execLred_eq (d : Dst) (a : Src) (op : RedOp) (rm : Rm) : execLred g d a op rm s = finish (do
    checkIssue g (opsOf d.op [reduced a op]) false s
    let r ← readAll g [reduced a op] s
    let t ← commit r [putOf d (s.active g) (splat ((scan op rm (s.active g) (r.w 0)).2.1.getD 0))] s
    pure (setFlags (scan op rm (s.active g) (r.w 0)).2.2 t)) s := by
  cases op <;> rfl

theorem execLscan_eq (d : Dst) (a : Src) (op : RedOp) (excl : Bool) (rm : Rm) : execLscan g d a op excl rm s = finish (do
    checkIssue g (opsOf d.op [reduced a op]) false s
    let r ← readAll g [reduced a op] s
    let t ← commit r [putOf d (s.active g) (tab (scanWord op excl rm (s.active g) (r.w 0)))] s
    pure (setFlags (scan op rm (s.active g) (r.w 0)).2.2 t)) s := by
  cases op <;> rfl

theorem execLred_of_ready {d : Dst} {a : Src} {op : RedOp} {rm : Rm} {v : Word}
    (hv : v = (combined op rm ((lanesOf (s.active g)).map fun l => (r.w 0)[l])).getD 0)
    (h : Ready g (opsOf d.op [reduced a op]) [reduced a op] [putOf d (s.active g) (splat v)] s r) :
    execLred g d a op rm s = .next (advance (setFlags (scan op rm (s.active g) (r.w 0)).2.2
      (written r [putOf d (s.active g) (splat v)] s))) := by
  rw [← scanOver_last, ← scan_eq_scanOver] at hv
  subst hv
  rw [execLred_eq, bind_ok_eq h.issue, bind_ok_eq h.sources, bind_ok_eq (commit_ok h.dests)]
  rfl

theorem execLscan_of_ready {d : Dst} {a : Src} {op : RedOp} {excl : Bool} {rm : Rm} {v : Lanes Word}
    (hv : v = tab (scanWord op excl rm (s.active g) (r.w 0)))
    (h : Ready g (opsOf d.op [reduced a op]) [reduced a op] [putOf d (s.active g) v] s r) :
    execLscan g d a op excl rm s = .next (advance (setFlags (scan op rm (s.active g) (r.w 0)).2.2
      (written r [putOf d (s.active g) v] s))) := by
  subst hv
  rw [execLscan_eq, bind_ok_eq h.issue, bind_ok_eq h.sources, bind_ok_eq (commit_ok h.dests)]
  rfl

/-- What ELECT gives a destination, and where the pointer of the warp comes to stand (R225). -/
def electedWord (d : Operand) (e : Option (Fin 32)) : Lanes Word :=
  match d with
  | .s _ | .w _ => splat (BitVec.ofNat 32 ((e.map Fin.val).getD 0))
  | _ => tab fun l => bit01 (e == some l)

def markElected (md : ElectMode) (e : Option (Fin 32)) (t : State) : State :=
  match md, e with
  | .rr, some l => t.updReg fun x => { x with elect := l }
  | _, _ => t

theorem bit01_beq_some (e : Option (Fin 32)) (l : Fin 32) : bit01 (e == some l) = if e = some l then 1 else 0 := by
  simp only [bit01, beq_iff_eq]

theorem execElect_of_ready {d : Dst} {md : ElectMode} {e : Option (Fin 32)}
    (he : e = electLane md (s.active g) s.curWarp.reg.elect)
    (h : Ready g [d.op] [] [putOf d (s.active g) (electedWord d.op e)] s r) :
    execElect g d md s =
      .next (advance (markElected md e (written r [putOf d (s.active g) (electedWord d.op e)] s))) := by
  subst he
  unfold execElect
  dsimp only
  rw [bind_ok_eq h.issue, bind_ok_eq h.sources]
  exact congrArg (finish · s) (bind_ok_eq (commit_ok h.dests) _)

/-- RDLANE's reading of its source, once lane `n` may be read. -/
def rdlaneSource (g : Guard) (a : Src) (n : Fin 32) (rb : Reading) (s : State) : Except Stop Reading :=
  match a.op with
  | .z z => do
    let (v, st, preds) ← asActive (s.active g)
      (readStream (s.active g) (if s.active g = 0 then 0 else s.active g ||| one_ n) z s rb.st rb.preds)
    pure { rb with vals := [rd1 v], st, preds, holds := if a.hold then [v] else [] }
  | _ => pure { rb with
      vals := [rd1 (wordOf s .int a.op 0)]
      names := rb.names ++ namesRead s.curWarp (readers s.curWarp s.curSplit g) a.op 1
      holds := if a.hold then [wordOf s .int a.op 0] else [] }

/-- Nothing is wrong with lane `n` of the source, or no lane is active. -/
def LaneReadable (g : Guard) (a : Operand) (n : Fin 32) (s : State) : Prop :=
  s.active g ≠ 0 → badNames s.curWarp (one_ n) [a] = 0 ∧ badLatch s (one_ n) a = 0 ∧ deadLanes s (one_ n) a 1 = 0

theorem ite_or_eq_zero {m x : Mask} (h : m ≠ 0 → x = 0) : (if m = 0 ∨ x = 0 then 0 else m) = 0 :=
  if_pos (or_iff_not_imp_left.mpr h)

section
variable {d : Dst} {a b : Src} {rb : Reading} (hissue : checkIssue g [d.op, a.op, b.op] false s = .ok ())
  (hread : readAll g [srcU b] s = .ok rb)
include hissue hread

theorem execRdlane_of_readable {n : Fin 32} (hn : Fin.ofNat 32 ((uval (s.active g) (rb.w 0)).toNat % 32) = n)
    (hlane : LaneReadable g a.op n s) : execRdlane g d a b s = finish (do
      let r ← rdlaneSource g a n rb s
      commit { r with holds := r.holds ++ rb.holds } [putOf d (s.active g) (splat (r.w 0)[n])] s) s := by
  subst hn
  unfold execRdlane
  dsimp only
  rw [bind_ok_eq hissue, bind_ok_eq hread, bind_ok_eq (trapIf_of_eq_zero ?illegal),
    bind_ok_eq (trapIf_of_eq_zero (ite_or_eq_zero fun hm => (hlane hm).2.1)),
    bind_ok_eq (trapIf_of_eq_zero (ite_or_eq_zero fun hm => (hlane hm).2.2))]
  case illegal =>
    split
    · exact ite_or_eq_zero fun hm => (hlane hm).1
    · rfl
  rfl

theorem execRdlane_of_source {n : Fin 32} (hn : Fin.ofNat 32 ((uval (s.active g) (rb.w 0)).toNat % 32) = n)
    (hlane : LaneReadable g a.op n s) {r : Reading} {v : Lanes Word} (hsource : rdlaneSource g a n rb s = .ok r)
    (hv : r.w 0 = v)
    (hdest : destCheck { r with holds := r.holds ++ rb.holds } [putOf d (s.active g) (splat v[n])] s = .ok ()) :
    execRdlane g d a b s = .next (advance
      (written { r with holds := r.holds ++ rb.holds } [putOf d (s.active g) (splat v[n])] s)) := by
  subst hv
  rw [execRdlane_of_readable hissue hread hn hlane, bind_ok_eq hsource, commit_ok hdest, finish_ok]

end

theorem laneReadable_stream (z : Fin 8) (n : Fin 32) : LaneReadable g (.z z) n s :=
  fun _ => ⟨has_ext fun l => by rw [badNames, has_maskOf, has_zero]; exact Bool.and_false _, rfl, rfl⟩

theorem rdlaneSource_stream {a : Src} {z : Fin 8} {n : Fin 32} {rb : Reading} {v : Lanes Word} {st : State}
    {preds : Vector Mask 7} (ha : a.op = .z z) (h : readStream (s.active g)
      (if s.active g = 0 then 0 else s.active g ||| one_ n) z s rb.st rb.preds = .ok (v, st, preds)) :
    rdlaneSource g a n rb s =
      .ok { rb with vals := [rd1 v], st := st, preds := preds, holds := if a.hold then [v] else [] } := by
  rw [rdlaneSource, ha]
  dsimp only
  rw [h]
  rfl

theorem rdlaneSource_register {a : Src} (n : Fin 32) (rb : Reading) (ha : ∀ z, a.op ≠ .z z) :
    rdlaneSource g a n rb s = .ok { rb with
      vals := [rd1 (wordOf s .int a.op 0)]
      names := rb.names ++ namesRead s.curWarp (readers s.curWarp s.curSplit g) a.op 1
      holds := if a.hold then [wordOf s .int a.op 0] else [] } := by
  unfold rdlaneSource
  split
  · next z hz => exact absurd hz (ha z)
  · rfl

end

theorem reductionsAndElectionsComplete : Clause.ReductionsAndElectionsComplete := by
  refine ⟨?lred, ?lscan, ?elect, ?stream, ?register⟩
  case lred =>
    intro g d a op rm s r qs x puts h
    exact execLred_of_ready rfl h
  case lscan =>
    intro g d a op excl rm s r qs upTo puts h
    refine execLscan_of_ready ?_ h
    exact congrArg tab (funext fun l => (scanWord_eq op excl rm _ _ l).symm)
  case elect =>
    intro g d md s r e puts h
    have hputs : puts = [putOf d (s.active g) (electedWord d.op e)] := by
      simp only [puts, electedWord, bit01_beq_some] <;> rfl
    rw [hputs] at h ⊢
    exact execElect_of_ready rfl h
  case stream =>
    intro g d a b s rb z v st preds n r puts hissue hread ha hstream hdest
    have hlane : LaneReadable g a.op n s := by rw [ha]; exact laneReadable_stream z n
    exact (execRdlane_of_source hissue hread rfl hlane (rdlaneSource_stream ha hstream) rfl hdest :)
  case register =>
    intro g d a b s rb n r puts hissue hread ha hlane hdest
    exact (execRdlane_of_source hissue hread rfl hlane (rdlaneSource_register n rb ha) rfl hdest :)

/-- Settles O21: a reduction and a scan by what the running value holds after some lanes, ELECT by the lane it names, and RDLANE by
the kind of its source. -/
theorem reductionsAndElections : Obligations.ReductionsAndElections := ⟨reductionsAndElectionsComplete, electionChooses⟩

end Sys2Proof.Machine
end

section
/-!
PROOFS. Fences, peer sets and sleep (R239, R399, R403 to R405).
-/

namespace Sys2Proof.Machine

/-! ### Fences (R403) -/

section
variable {g : Guard} {od : FenceOrd} {sc : Scope} {s : State}

theorem execFence_of_inactive (h : Issuable g false s) (hactive : s.active g = 0) :
    execFence g od sc s = .next (advance s) := by
  rw [execFence, bind_ok_eq h, if_pos hactive]
  rfl

theorem fenceReady_iff {rel acq : Bool} : fenceReady s sc rel acq = true ↔
    (rel = true → s.curWarp.ord.ops = [] ∧ (3 ≤ scopeNo sc → earlierOut s = false)) ∧
      (acq = true → ∀ o ∈ s.curWarp.ord.ops, o.read = false) := by
  have hwide : scopeNo sc < 3 ∨ earlierOut s = false ↔ (3 ≤ scopeNo sc → earlierOut s = false) := by
    rw [← Nat.not_le]
    exact imp_iff_not_or.symm
  cases rel <;> cases acq <;> simp [fenceReady, hwide]

theorem execFence_of_ready (h : Issuable g false s) (hactive : s.active g ≠ 0)
    (hrel : od ≠ .acq → s.curWarp.ord.ops = [] ∧ (3 ≤ scopeNo sc → earlierOut s = false))
    (hacq : od ≠ .rel → ∀ o ∈ s.curWarp.ord.ops, o.read = false) :
    execFence g od sc s = .next (advance
      (let t := if od = .acq then s else releaseAt (.scope sc) s.cur.blk s.cur.warp s
       if od = .rel then t else acquireAt sc s.cur.blk s.cur.warp t)) := by
  have hready : fenceReady s sc (od != .acq) (od != .rel) = true :=
    fenceReady_iff.mpr ⟨fun hr => hrel (bne_iff_ne.mp hr), fun ha => hacq (bne_iff_ne.mp ha)⟩
  unfold execFence
  dsimp only
  rw [bind_ok_eq h, if_neg hactive, hready]
  cases od <;> rfl

theorem execFence_of_unready (h : Issuable g false s) (hactive : s.active g ≠ 0)
    (hwaits : od ≠ .acq ∧ (s.curWarp.ord.ops ≠ [] ∨ 3 ≤ scopeNo sc ∧ earlierOut s = true) ∨
      od ≠ .rel ∧ ∃ o ∈ s.curWarp.ord.ops, o.read = true) :
    execFence g od sc s = .next (fenceBegins s) := by
  have hready : fenceReady s sc (od != .acq) (od != .rel) = false := by
    rw [← Bool.not_eq_true, fenceReady_iff]
    rintro ⟨hrel, hacq⟩
    rcases hwaits with ⟨hod, hout⟩ | ⟨hod, o, ho, hread⟩
    · obtain ⟨hops, hperformed⟩ := hrel (bne_iff_ne.mpr hod)
      rcases hout with hops' | ⟨hwide, hearlier⟩
      · exact hops' hops
      · simp [hperformed hwide] at hearlier
    · simp [hacq (bne_iff_ne.mpr hod) o ho] at hread
  unfold execFence
  dsimp only
  rw [bind_ok_eq h, if_neg hactive, hready]
  rfl

end

/-- While another split of the warp acquires, a memory instruction waits at issue. -/
theorem memStart_of_acquiring {g : Guard} {ops : List Operand} {s : State} (h : checkIssue g ops false s = .ok ())
    (hactive : s.active g ≠ 0) (hacquiring : s.curWarp.acquiring s.cur.split = true) :
    memStart g ops s = .error .stall := by
  unfold memStart
  dsimp only
  rw [bind_ok_eq h, if_neg hactive, hacquiring]
  rfl

theorem acquiring_of_fence {w : Warp} {k : Nat} (h : ∃ p ∈ w.splits, p.1 ≠ k ∧ p.2.fence = true) :
    w.acquiring k = true := by
  obtain ⟨p, hp, hk, hfence⟩ := h
  exact List.any_eq_true.mpr ⟨p, hp, by simp [hk, hfence]⟩

theorem fenceCompletes : Clause.FenceCompletes := by
  refine ⟨fun g od sc s => execFence_of_ready, fun g od sc s => execFence_of_inactive, fun g od sc s => execFence_of_unready,
    ?holdsBack⟩
  intro g d sz acq base off s hissue hactive hfence
  exact congrArg (finish · s) (bind_error_eq (memStart_of_acquiring hissue hactive (acquiring_of_fence hfence)) _)

/-! ### Peer sets (R239, R399, R404) -/

section
variable {g : Guard} {d : Operand} {set : Fin 8} {s : State} {r : Reading}

/-- The lanes that fault when a block joins set `k`: those of a block that is in another one (R404). -/
def lanesOfOtherSet (peer : Option (Nat × Nat)) (k : Nat) (m : Mask) : Mask :=
  match peer with
  | some (h, _) => if h = k then 0 else m
  | none => 0

/-- CLJOIN with an active lane, once its destination is checked and no other change of the block is under way. -/
theorem execCljoin_of_ready (h : Ready g [d] [] [⟨d, 0, s.active g, splat 0⟩] s r) (hactive : s.active g ≠ 0)
    (hstill : peerChanging s s.cur.blk set.val = false) :
    execCljoin g d set s = finish (do
      trapIf s Kind.peerSet (lanesOfOtherSet s.curBlock.eng.peer set.val (s.active g))
      if s.curLaunch.lagers then do
        stallIf (!lagerRoom s s.curCore 8)
        let q : Put := ⟨d, 0, s.active g, wordOf s .int d 0⟩
        let t ← commit r [q] s
        let (op, t) := t.uid
        pure ((emit true s.curCore (s.outItem (.join set.val op) none none 0) t).updSplit fun sp =>
          { sp with wait := .join op (lateOf s q) })
      else do
        let (w, t) := joinNow s.cur.blk set.val s
        commit { r with st := t } [⟨d, 0, s.active g, splat w⟩] s) s := by
  unfold execCljoin
  dsimp only
  rw [bind_ok_eq h.issue, bind_ok_eq h.sources, if_neg hactive, bind_ok_eq h.dests, hstill, bind_ok_eq stallIf_false]
  rfl

/-- A block that is in no set, or in this one, meets no fault. -/
theorem lanesOfOtherSet_of_own {peer : Option (Nat × Nat)} {m : Mask} {k : Nat} (h : ∀ h i, peer = some (h, i) → h = k) :
    lanesOfOtherSet peer k m = 0 := by
  cases peer with
  | none => rfl
  | some p => exact if_pos (h p.1 p.2 rfl)

theorem execCljoin_of_lagering (h : Ready g [d] [] [⟨d, 0, s.active g, splat 0⟩] s r)
    (hdest : destCheck r [⟨d, 0, s.active g, wordOf s .int d 0⟩] s = .ok ()) (hactive : s.active g ≠ 0)
    (hlagers : s.curLaunch.lagers = true) (hstill : peerChanging s s.cur.blk set.val = false)
    (hpeer : ∀ h i, s.curBlock.eng.peer = some (h, i) → h = set.val) (hroom : lagerRoom s s.curCore 8 = true) :
    let q : Put := ⟨d, 0, s.active g, wordOf s .int d 0⟩
    let t := written r [q] s
    execCljoin g d set s = .next (advance ((emit true s.curCore (s.outItem (.join set.val t.uidCtr) none none 0)
      { t with uidCtr := t.uidCtr + 1 }).updSplit fun sp => { sp with wait := .join t.uidCtr (lateOf s q) })) := by
  dsimp only
  rw [execCljoin_of_ready h hactive hstill, lanesOfOtherSet_of_own hpeer, bind_ok_eq (trapIf_zero s _), if_pos hlagers, hroom]
  exact congrArg (finish · s) (bind_ok_eq (commit_ok hdest) _)

theorem execCljoin_at_once (h : Ready g [d] [] [⟨d, 0, s.active g, splat 0⟩] s r) (hactive : s.active g ≠ 0)
    (hlagers : s.curLaunch.lagers = false) (hstill : peerChanging s s.cur.blk set.val = false)
    (hpeer : ∀ h i, s.curBlock.eng.peer = some (h, i) → h = set.val) :
    let j := joinNow s.cur.blk set.val s
    destCheck { r with st := j.2 } [⟨d, 0, s.active g, splat j.1⟩] s = .ok () →
    execCljoin g d set s = .next (advance (written { r with st := j.2 } [⟨d, 0, s.active g, splat j.1⟩] s)) := by
  intro j hdest
  rw [execCljoin_of_ready h hactive hstill, lanesOfOtherSet_of_own hpeer, bind_ok_eq (trapIf_zero s _), hlagers]
  exact congrArg (finish · s) (commit_ok hdest)

/-- A block in another set faults. -/
theorem execCljoin_of_other {k i : Nat} (h : Ready g [d] [] [⟨d, 0, s.active g, splat 0⟩] s r) (hactive : s.active g ≠ 0)
    (hstill : peerChanging s s.cur.blk set.val = false) (hpeer : s.curBlock.eng.peer = some (k, i)) (hother : k ≠ set.val) :
    execCljoin g d set s = .next (raiseTrap (s.trapReq 0x0D (s.active g)) s) := by
  have hlanes : lanesOfOtherSet s.curBlock.eng.peer set.val (s.active g) = s.active g := by
    rw [hpeer]
    exact if_neg hother
  rw [execCljoin_of_ready h hactive hstill, hlanes, bind_error_eq (trapIf_some hactive)]
  rfl

theorem execCljoin_of_inactive (h : Ready g [d] [] [] s r) (hactive : s.active g = 0) :
    execCljoin g d set s = .next (advance s) := by
  unfold execCljoin
  dsimp only
  rw [bind_ok_eq h.issue, bind_ok_eq h.sources, if_pos hactive]
  rfl

/-- A leave goes out, and takes effect at once with lagering off when no window access holds it back. -/
def leaveSent (s : State) : State :=
  let x := s.outItem .leave none none 0
  let t := (emit s.curLaunch.lagers s.curCore x s).updSplit fun sp => { sp with wait := .leave }
  if s.curLaunch.lagers = false ∧ leaveFree t x = true then leaveNow x t else t

theorem execClleave_of_issuable (h : Issuable g false s) (hstill : s.active g ≠ 0 → joinOrLeave s s.cur.blk = false)
    (hroom : s.curLaunch.lagers = true → lagerRoom s s.curCore 8 = true) :
    execClleave g s =
      .next (advance (if s.active g = 0 ∨ s.curBlock.eng.peer = none then s else leaveSent s)) := by
  unfold execClleave
  rw [bind_ok_eq h]
  by_cases hactive : s.active g = 0
  · rw [if_pos hactive, if_pos (.inl hactive)]
    rfl
  rw [if_neg hactive, hstill hactive, bind_ok_eq stallIf_false]
  cases hpeer : s.curBlock.eng.peer with
  | none => rw [if_pos (Or.inr rfl : s.active g = 0 ∨ (none : Option (Nat × Nat)) = none)]; rfl
  | some p =>
    have hfull : (s.curLaunch.lagers && !lagerRoom s s.curCore 8) = false := by
      cases hlagers : s.curLaunch.lagers with
      | false => rfl
      | true => rw [hroom hlagers]; rfl
    rw [hfull, if_neg (not_or.mpr ⟨hactive, Option.some_ne_none p⟩)]
    exact congrArg (fun t => Host.Outcome.next (advance t)) (if_congr (by simp) rfl rfl)

theorem execClleave_of_changing (h : Issuable g false s) (hactive : s.active g ≠ 0)
    (hchanging : joinOrLeave s s.cur.blk = true) : execClleave g s = .next s.waits := by
  rw [execClleave, bind_ok_eq h, if_neg hactive, hchanging]
  rfl

/-! ### Sleep (R405) -/

theorem execSleep_of_issuable {n : BitVec 20} (h : Issuable g true s) :
    execSleep g n s = .next (advance (onActive g s
      (fun t => t.updSplit fun sp => { sp with wait := .sleep (s.now + n.toNat) }) s)) := by
  rw [execSleep, bind_ok_eq h]
  rfl

theorem execSleepReg_of_ready {a : Operand} (hissue : checkIssue g [a] true s = .ok ())
    (hread : readAll g [opU a] s = .ok r) (hdest : destCheck r [] s = .ok ()) :
    execSleepReg g a s = .next (advance (onActive g s
      (fun t => t.updSplit fun sp => { sp with wait := .sleep (s.now + (uval (s.active g) (r.w 0)).toNat) })
      (written r [] s))) := by
  unfold execSleepReg
  dsimp only
  rw [bind_ok_eq hissue, bind_ok_eq hread, bind_ok_eq (commit_ok hdest)]
  rfl

end

theorem peerSetsAndSleepComplete : Clause.PeerSetsAndSleepComplete := by
  refine ⟨fun g d set s r => execCljoin_of_lagering, fun g d set s r => execCljoin_at_once,
    fun g d set s r h i => execCljoin_of_other, fun g d set s r => execCljoin_of_inactive,
    fun g s => execClleave_of_issuable, fun g s => execClleave_of_changing, fun g n s => execSleep_of_issuable,
    fun g a s r => execSleepReg_of_ready⟩

/-- Settles O43: FENCE by whether the accesses before it are done, CLJOIN and CLLEAVE by the block's set and what changes it, and
SLEEP by the wait that it leaves. -/
theorem fencesPeerSetsSleep : Obligations.FencesPeerSetsSleep := ⟨fenceCompletes, peerSetsAndSleepComplete⟩

end Sys2Proof.Machine
end

section
/-!
PROOFS. The system instructions: TLBIR and TLBACK, ERRQ and BBLOG (R249, R451, R471 to R473).
-/

namespace Sys2Proof.Machine

section
variable {g : Guard} {s : State} {r : Reading}

/-- The secure world may, and so may an instruction with no active lane (R451). -/
theorem needSecure_ok {m : Mask} (h : m ≠ 0 → s.curLaunch.desc.world = true) : needSecure s m = .ok () := by
  have hlanes : (if s.curLaunch.desc.world = true then 0 else m) = 0 := by
    split
    · rfl
    · next hworld => exact not_not.mp fun hm => hworld (h hm)
  rw [needSecure, hlanes, trapIf_zero]

/-! ### Invalidation of translations (R249, R471) -/

theorem allPerformed_of_none (hops : s.curWarp.ord.ops = []) (hpending : warpPending s (fun _ => true) = false) :
    allPerformed s = true := by
  rw [allPerformed, hops, hpending]
  rfl

/-- The sources of TLBIR. -/
def tlbirSources (base len : Operand) (asid : Option Operand) : List SrcSpec :=
  { opU base with n := 2 } :: opU len :: asid.toList.map opU

/-- The warp issues an invalidation of a range to every holder. -/
def invalidate (base len : Nat) (asid : Option Nat) (s t : State) : State :=
  State.updOrd (fun o => { o with tlbOps := o.tlbOps ++ [t.uidCtr] })
    { t with
      uidCtr := t.uidCtr + 1
      tlbInvs := AMap.set t.tlbInvs t.uidCtr ⟨s.cur.blk, s.cur.warp, base, len, asid, allHolders⟩ }

section
variable {base len : Operand} {asid : Option Operand}

theorem execTlbir_of_ready
    (h : Ready g (opsOf .zero (tlbirSources base len asid)) (tlbirSources base len asid) [] s r) (hactive : s.active g ≠ 0)
    (hworld : s.curLaunch.desc.world = true) (hlen : (uval (s.active g) (r.w 1)).toNat ≠ 0)
    (hbase : ((r.at 0).pair ((lowest (s.active g)).getD 0)).toNat % 65536 = 0) (hroom : s.curWarp.ord.tlbOps.length < 8)
    (hops : s.curWarp.ord.ops = []) (hpending : warpPending s (fun _ => true) = false) :
    execTlbir g base len asid s = .next (advance (invalidate ((r.at 0).pair ((lowest (s.active g)).getD 0)).toNat
      ((uval (s.active g) (r.w 1)).toNat * 65536) (asid.map fun _ => (uval (s.active g) (r.w 2)).toNat % 2 ^ 16) s
      (written r [] s))) := by
  have hfree : (decide (8 ≤ s.curWarp.ord.tlbOps.length) || !allPerformed s) = false := by
    rw [allPerformed_of_none hops hpending, decide_eq_false (Nat.not_le.mpr hroom)]
    rfl
  unfold tlbirSources at h
  unfold execTlbir
  dsimp only
  rw [bind_ok_eq h.issue, bind_ok_eq (needSecure_ok fun _ => hworld), bind_ok_eq h.sources, if_neg hactive, if_neg hlen,
    bind_ok_eq (trapIf_zero s _), hbase, hfree]
  exact congrArg (finish · s) (bind_ok_eq (commit_ok h.dests) _)

theorem execTlbir_of_inactive
    (h : Ready g (opsOf .zero (tlbirSources base len asid)) (tlbirSources base len asid) [] s r) (hactive : s.active g = 0) :
    execTlbir g base len asid s = .next (advance (written r [] s)) := by
  unfold tlbirSources at h
  unfold execTlbir
  dsimp only
  rw [bind_ok_eq h.issue, bind_ok_eq (needSecure_ok fun hm => absurd hactive hm), bind_ok_eq h.sources, if_pos hactive,
    commit_ok h.dests, finish_ok]

end

theorem execTlback_of_secure (hissue : checkIssue g [] true s = .ok ())
    (hworld : s.active g ≠ 0 → s.curLaunch.desc.world = true) :
    execTlback g s = .next (advance (onActive g s (fun t => match s.curWarp.ord.tlbOps with
      | [] => acquireAt .sys s.cur.blk s.cur.warp t
      | l => t.updSplit fun sp => { sp with wait := .tlback l }) s)) := by
  unfold execTlback onActive
  dsimp only
  rw [bind_ok_eq hissue, bind_ok_eq (needSecure_ok hworld)]
  split
  · rfl
  · cases s.curWarp.ord.tlbOps <;> rfl

/-! ### The fault queue and the error log (R472) -/

section
variable {d : Operand} {peek : Bool}

theorem execErrq_of_entry {i : Nat} {e : FaultEnt} (h : Ready g [d] [] (errPuts d (s.active g) e.words) s r)
    (hworld : s.active g ≠ 0 → s.curLaunch.desc.world = true)
    (holdest : oldestFault (s.die s.curBlock.place.die) = some (i, e)) :
    execErrq g d peek s = .next (advance (if peek then written r (errPuts d (s.active g) e.words) s else onActive g s
      (fun t => t.updDie s.curBlock.place.die fun x => { x with
        fq := AMap.modify x.fq i fun e => { e with read := true } }) (written r (errPuts d (s.active g) e.words) s))) := by
  unfold execErrq onActive
  dsimp only
  rw [bind_ok_eq h.issue, bind_ok_eq (needSecure_ok hworld), bind_ok_eq h.sources, holdest]
  dsimp only
  rw [bind_ok_eq (commit_ok h.dests)]
  by_cases hactive : s.active g = 0 <;> cases peek <;> simp [hactive] <;> rfl

theorem execErrq_of_no_entry (h : Ready g [d] [] (errPuts d (s.active g) (noEntry s.freeCtr)) s r)
    (hworld : s.active g ≠ 0 → s.curLaunch.desc.world = true)
    (hnone : oldestFault (s.die s.curBlock.place.die) = none) :
    let t := written r (errPuts d (s.active g) (noEntry s.freeCtr)) s
    execErrq g d peek s = .next (advance { t with freeCtr := t.freeCtr + 2 }) := by
  unfold execErrq
  dsimp only
  rw [bind_ok_eq h.issue, bind_ok_eq (needSecure_ok hworld), bind_ok_eq h.sources, hnone]
  exact congrArg (finish · s) (bind_ok_eq (commit_ok h.dests) _)

theorem execErrqLog_of_event {e : Vector Word 4} {rest : List (Vector Word 4)}
    (h : Ready g [d] [] (errPuts d (s.active g) e) s r) (hworld : s.active g ≠ 0 → s.curLaunch.desc.world = true)
    (hlog : (s.die s.curBlock.place.die).errLog = e :: rest) :
    execErrqLog g d peek s = .next (advance (if peek then written r (errPuts d (s.active g) e) s else onActive g s
      (fun t => t.updDie s.curBlock.place.die fun x => { x with errLog := rest })
      (written r (errPuts d (s.active g) e) s))) := by
  unfold execErrqLog onActive
  dsimp only
  rw [bind_ok_eq h.issue, bind_ok_eq (needSecure_ok hworld), bind_ok_eq h.sources, hlog]
  dsimp only
  rw [bind_ok_eq (commit_ok h.dests)]
  by_cases hactive : s.active g = 0 <;> cases peek <;> simp [hactive] <;> rfl

theorem execErrqLog_of_empty (h : Ready g [d] [] (errPuts d (s.active g) (noLog s.freeCtr)) s r)
    (hworld : s.active g ≠ 0 → s.curLaunch.desc.world = true) (hlog : (s.die s.curBlock.place.die).errLog = []) :
    let t := written r (errPuts d (s.active g) (noLog s.freeCtr)) s
    execErrqLog g d peek s = .next (advance { t with freeCtr := t.freeCtr + 2 }) := by
  unfold execErrqLog
  dsimp only
  rw [bind_ok_eq h.issue, bind_ok_eq (needSecure_ok hworld), bind_ok_eq h.sources, hlog]
  exact congrArg (finish · s) (bind_ok_eq (commit_ok h.dests) _)

end

/-! ### The black box (R473) -/

theorem execBblog_of_ready {code : BitVec 6} {a : Operand}
    (h : Ready g (opsOf .zero [{ op := a, n := 2, uni := true }]) [{ op := a, n := 2, uni := true }] [] s r)
    (hroom : s.active g ≠ 0 → s.curLaunch.lagers = true → lagerRoom s s.curCore 8 = true) :
    execBblog g code a s = .next (advance (onActive g s (emit s.curLaunch.lagers s.curCore
      (s.outItem (.bblog code.toNat s.curLaunch.desc.asid ((r.at 0).pair ((lowest (s.active g)).getD 0))) none none 0))
      (written r [] s))) := by
  have hfree : (s.active g != 0 && s.curLaunch.lagers && !lagerRoom s s.curCore 8) = false := by
    rw [← Bool.not_eq_true]
    intro hfull
    simp only [Bool.and_eq_true, bne_iff_ne, Bool.not_eq_true'] at hfull
    obtain ⟨⟨hactive, hlagers⟩, hno⟩ := hfull
    simp [hroom hactive hlagers] at hno
  unfold execBblog
  dsimp only [opU]
  rw [bind_ok_eq h.issue, bind_ok_eq h.sources, hfree, bind_ok_eq stallIf_false, bind_ok_eq (commit_ok h.dests)]
  rfl

end

/-- Settles O52: each instruction by the checks that it passes in the secure world, and what is there for it to deliver. -/
theorem systemInstructionsComplete : Obligations.SystemInstructionsComplete := by
  refine ⟨?invalidates, ?idle, fun g s => execTlback_of_secure, fun g d peek s r i e => execErrq_of_entry,
    fun g d peek s r => execErrq_of_no_entry, fun g d peek s r e rest => execErrqLog_of_event,
    fun g d peek s r => execErrqLog_of_empty, fun g code a s r => execBblog_of_ready⟩
  case invalidates => exact fun g base len asid s r => execTlbir_of_ready
  case idle => exact fun g base len asid s r => execTlbir_of_inactive

end Sys2Proof.Machine
end

section
/-!
PROOFS. Messages and endpoints (R426, R429, R445, R446), collectives at issue (R434, R435, R447), NOISE (R448) and CBPOST
(R449).
-/

namespace Sys2Proof.Machine

theorem faultAt_false (s : State) (k : Nat) (m : Mask) (a : Nat) : faultAt s k m a false = .ok () := rfl

theorem faultAt_true (s : State) (k : Nat) (m : Mask) (a : Nat) :
    faultAt s k m a true = .error (.trap { s.trapReq k m with va := w64 a }) := rfl

/-- With lagering off nothing waits for room, and with it on what has room does not. -/
theorem roomStall_eq_false {lagers room : Bool} (h : lagers = true → room = true) : (lagers && !room) = false := by
  cases lagers with
  | false => rfl
  | true => rw [h rfl]; rfl

section
variable {g : Guard} {s : State} {r : Reading}

/-! ### FMSG (R429, R445) -/

/-- The message that FMSG sends from a state in which its reads are done. -/
def sentMsg (c : Fin 16) (a : Word) (doff : Nat) (data : List Byte) (s t : State) : Msg :=
  { id := t.uidCtr, blk := s.cur.blk, num := s.curBlock.eng.tl[4].enq + 1, srcDie := s.curBlock.place.die
    world := s.curLaunch.desc.world, addr := a, doff, ctr := c.val, data
    agent := engAgent s.curBlock 4 (s.curBlock.eng.tl[4].enq + 1), upTo := t.uid.2.passOn }

theorem execFmsg_of_ready {addr soff doff : Operand} {lenM1 : BitVec 8} {c : Fin 16} {o : Nat} {bs : List (List Byte)}
    {s1 : State} (h : Ready g [addr, soff, doff] [opU addr, opU soff, opU doff] [] s r) (hactive : s.active g ≠ 0)
    (hrange : sendRange s (s.active g) (uval (s.active g) (r.w 1)).toNat (lenM1.toNat + 1) = .ok o)
    (hoffset : ¬ (faEnd (uval (s.active g) (r.w 0)) < 256 ∧ doff = .zero)) (honce : s.curLaunch.desc.replayable = false)
    (hbytes : loadBuf r.st false false (uniReq (s.active g) (lenM1.toNat + 1) (w64 o)) = .ok (bs, s1))
    (hflight : s.curBlock.eng.inFlight < 64)
    (hroom : s.curLaunch.lagers = true → lagerRoom s s.curCore (lenM1.toNat + 1) = true) :
    let t := written { r with st := s1 } [] s
    execFmsg g addr soff doff lenM1 c s = .next (advance (emit s.curLaunch.lagers s.curCore
      (s.outItem (.message (sentMsg c (uval (s.active g) (r.w 0)) (uval (s.active g) (r.w 2)).toNat (bs.head?.getD []) s t))
        none none 0)
      ((enqueue 4 1 t.uid.2).updEng s.cur.blk fun e => { e with inFlight := e.inFlight + 1 }))) := by
  have hdests : destCheck { r with st := s1 } [] s = .ok () := h.dests
  dsimp only
  unfold execFmsg
  dsimp only
  rw [bind_ok_eq h.issue, bind_ok_eq h.sources, if_neg hactive, bind_ok_eq h.dests, bind_ok_eq hrange, if_neg hoffset,
    bind_ok_eq (trapIf_zero s _), honce, if_neg Bool.false_ne_true, bind_ok_eq (trapIf_zero s _),
    decide_eq_false (Nat.not_le.mpr hflight), bind_ok_eq stallIf_false, roomStall_eq_false hroom, bind_ok_eq stallIf_false,
    bind_ok_eq hbytes]
  exact congrArg (finish · s) (bind_ok_eq (commit_ok hdests) _)

/-! ### FPOLL (R426, R446) -/

theorem ctrDone_eq (e : BlkEng) (c : Fin 16) : ctrDone e c.val = decide ((e.c[c]).toInt ≤ 0) := by
  simp [ctrDone]

theorem execFpoll_of_ready {d : Operand} {c : Fin 16} {clr : Bool}
    (h : Ready g [d] [] [⟨d, 0, s.active g, splat (fpollWord s.curBlock.eng c)⟩] s r) :
    execFpoll g d c clr s = .next (advance (onActive g s (fun t =>
      let t := if decide ((s.curBlock.eng.c[c]).toInt ≤ 0) then acquireCtrs (2 ^ c.val) s.cur.blk s.cur.warp t else t
      if clr then t.updEng s.cur.blk fun e => { e with fabFault := false, fabCode := 0 } else t)
      (written r [⟨d, 0, s.active g, splat (fpollWord s.curBlock.eng c)⟩] s))) := by
  unfold execFpoll onActive
  dsimp only
  rw [bind_ok_eq h.issue, bind_ok_eq h.sources, bind_ok_eq (commit_ok h.dests), ← ctrDone_eq]
  split <;> rfl

section
variable {e : Operand} (h : Ready g [e] [opU e] [] s r) (hactive : s.active g ≠ 0)
  (hnumber : (uval (s.active g) (r.w 0)).toNat < 256)
include h hactive hnumber

/-- FPOLL.bind of a number that names an endpoint. -/
theorem execFpollBind_of_number : let x := (uval (s.active g) (r.w 0)).toNat
    execFpollBind g e s = finish (do
      trapIf s Kind.endpointBusy
        (if (AMap.get? (s.die s.curBlock.place.die).endpoints x).any fun u => u != s.cur.blk then s.active g else 0)
      let t ← commit r [] s
      pure (takeEndpoint s.cur.blk x t)) s := by
  dsimp only
  unfold execFpollBind
  dsimp only
  rw [bind_ok_eq h.issue, bind_ok_eq h.sources, if_neg hactive, bind_ok_eq h.dests]
  simp only [if_pos hnumber]

theorem execFpollBind_of_free
    (hfree : ∀ u, AMap.get? (s.die s.curBlock.place.die).endpoints (uval (s.active g) (r.w 0)).toNat = some u →
      u = s.cur.blk) :
    execFpollBind g e s =
      .next (advance (takeEndpoint s.cur.blk (uval (s.active g) (r.w 0)).toNat (written r [] s))) := by
  have hheld : (AMap.get? (s.die s.curBlock.place.die).endpoints (uval (s.active g) (r.w 0)).toNat).any
      (fun u => u != s.cur.blk) = false := by
    rw [Option.any_eq_false]
    intro u hu
    simp [hfree u hu]
  rw [execFpollBind_of_number h hactive hnumber, hheld, if_neg Bool.false_ne_true, bind_ok_eq (trapIf_zero s _),
    bind_ok_eq (commit_ok h.dests)]
  rfl

/-- An endpoint that another block holds is busy. -/
theorem execFpollBind_of_held {u : Nat}
    (hheld : AMap.get? (s.die s.curBlock.place.die).endpoints (uval (s.active g) (r.w 0)).toNat = some u)
    (hother : u ≠ s.cur.blk) :
    execFpollBind g e s = .next (raiseTrap (s.trapReq 0x16 (s.active g)) s) := by
  rw [execFpollBind_of_number h hactive hnumber, hheld, Option.any_some, if_pos (bne_iff_ne.mpr hother),
    bind_error_eq (trapIf_some hactive)]
  rfl

end

theorem execFpollUnbind_of_issuable (h : Issuable g false s) :
    execFpollUnbind g s = .next (advance (onActive g s (dropEndpoint s.cur.blk) s)) := by
  rw [execFpollUnbind, bind_ok_eq h]
  rfl

end

theorem fabricInstructionsComplete : Clause.FabricInstructionsComplete := by
  refine ⟨?message, fun g d c clr s r => execFpoll_of_ready, fun g e s r => execFpollBind_of_free,
    fun g e s r u h hactive hnumber => execFpollBind_of_held h hactive hnumber, fun g s => execFpollUnbind_of_issuable⟩
  exact fun g addr soff doff lenM1 c s r o bs s1 => execFmsg_of_ready

/-! ### COLL (R434, R435, R447) -/

section
variable {g : Guard} {d off : Operand} {s : State} {r : Reading}

/-- The offset of a record in the block's ABUF, and the record there. -/
def collOffset (g : Guard) (s : State) (r : Reading) : Nat := (uval (s.active g) (r.w 0)).toNat
def collRecord (g : Guard) (s : State) (r : Reading) : List Byte := s.curBlock.abuf.data.readN (collOffset g s r) 32

/-- The number that a collective takes on tl3. -/
def collNumber (s : State) : DWord := s.curBlock.eng.tl[3].enq + 1

/-- The word of that number, where COLL has a destination. -/
def collPuts (d : Operand) (g : Guard) (s : State) : List Put := putAll d (s.active g) (lo32 (collNumber s))

/-- A record in its place that passes its check, of a block with an endpoint. -/
structure CollValid (g : Guard) (s : State) (r : Reading) : Prop where
  aligned : collOffset g s r % 32 = 0
  inside : collOffset g s r + 32 ≤ s.curBlock.abuf.size
  fields : collOk s.curBlock (CollF.of (collRecord g s r)) = true
  endpoint : s.curBlock.eng.endpoint.isSome = true

/-- What COLL reads of its group table. -/
def collTable (g : Guard) (s : State) (r : Reading) : Except TabStop (List Byte × State) :=
  readTable r.st s.cur.blk (engAgent s.curBlock 3 (collNumber s)) (CollF.of (collRecord g s r)).gtab

/-- What COLL does once its table has been read, or not. -/
def collGoes (d : Operand) (g : Guard) (s : State) (r : Reading) : Except TabStop (List Byte × State) → Res
  | .error .noTable => do
    faultAt s Kind.descriptor (s.active g) (collOffset g s r) true
    pure s
  | .error .held => .error .stall
  | .error (.poison va) => do
    faultAt s Kind.uncorrectable (s.active g) va true
    pure s
  | .error (.fault va cause) => do
    trapIf s Kind.replayWrite (if s.curLaunch.desc.replayable then s.active g else 0)
    let t ← commit r (collPuts d g s) s
    pure (collFault s.cur.blk (newPart s.cur.blk (collNumber s) (collOffset g s r) (collRecord g s r) s.now)
      (CollF.of (collRecord g s r)).seq va cause
      (engReadBuf s.cur.blk false (engAgent s.curBlock 3 (collNumber s)) (collOffset g s r) 32 (enqueue 3 1 t)))
  | .ok (tab, s1) => do
    let pos := tabPos tab (addrOf s s.curBlock (s.curBlock.eng.endpoint.getD 0))
    faultAt s Kind.descriptor (s.active g) (collOffset g s r) (!tabOk tab || pos.isNone)
    trapIf s Kind.replayWrite (if s.curLaunch.desc.replayable then s.active g else 0)
    let t ← commit { r with st := s1 } (collPuts d g s) s
    pure (joinColl (tabTag tab) (CollF.of (collRecord g s r)).seq
      { newPart s.cur.blk (collNumber s) (collOffset g s r) (collRecord g s r) s.now with
        table := tab, pos := pos.getD 0, fetched := true }
      (engReadBuf s.cur.blk false (engAgent s.curBlock 3 (collNumber s)) (collOffset g s r) 32 (enqueue 3 1 t)))

/-- COLL checks where its record lies, then the record, and then reads the table. -/
theorem execColl_eq (h : Ready g [d, off] [opU off] (collPuts d g s) s r) (hactive : s.active g ≠ 0)
    (hfree : s.curWarp.acquiring s.cur.split = false) :
    execColl g d off s = finish (do
      faultAt s Kind.descriptor (s.active g) (collOffset g s r)
        (decide (collOffset g s r % 32 ≠ 0 ∨ s.curBlock.abuf.size < collOffset g s r + 32))
      faultAt s Kind.descriptor (s.active g) (collOffset g s r)
        (!collOk s.curBlock (CollF.of (collRecord g s r)) || s.curBlock.eng.endpoint.isNone)
      collGoes d g s r (collTable g s r)) s := by
  unfold execColl
  dsimp only
  rw [bind_ok_eq h.issue, bind_ok_eq h.sources, if_neg hactive, hfree]
  refine congrArg (finish · s) ((bind_ok_eq h.dests _).trans ?_)
  rfl

section
variable (h : Ready g [d, off] [opU off] (collPuts d g s) s r) (hactive : s.active g ≠ 0)
  (hfree : s.curWarp.acquiring s.cur.split = false)
include h hactive hfree

theorem execColl_of_valid (hvalid : CollValid g s r) :
    execColl g d off s = finish (collGoes d g s r (collTable g s r)) s := by
  obtain ⟨haligned, hinside, hfields, hendpoint⟩ := hvalid
  have hplace : decide (collOffset g s r % 32 ≠ 0 ∨ s.curBlock.abuf.size < collOffset g s r + 32) = false :=
    decide_eq_false (by omega)
  have hrecord : (!collOk s.curBlock (CollF.of (collRecord g s r)) || s.curBlock.eng.endpoint.isNone) = false := by
    rw [hfields, Option.isNone_eq_false_iff.mpr hendpoint]
    rfl
  rw [execColl_eq h hactive hfree, hplace, bind_ok_eq (faultAt_false _ _ _ _), hrecord, bind_ok_eq (faultAt_false _ _ _ _)]

/-- A record that fails a check faults as a descriptor. -/
theorem execColl_of_invalid (hinvalid : ¬ CollValid g s r) : execColl g d off s =
    .next (raiseTrap { s.trapReq 0x11 (s.active g) with va := w64 (collOffset g s r) } s) := by
  rw [execColl_eq h hactive hfree]
  by_cases hplace : collOffset g s r % 32 ≠ 0 ∨ s.curBlock.abuf.size < collOffset g s r + 32
  · rw [decide_eq_true hplace, bind_error_eq (faultAt_true _ _ _ _)]
    rfl
  · have hrecord : (!collOk s.curBlock (CollF.of (collRecord g s r)) || s.curBlock.eng.endpoint.isNone) = true := by
      rw [← Bool.not_eq_false]
      intro hgood
      rw [Bool.or_eq_false_iff, Bool.not_eq_false', Option.isNone_eq_false_iff] at hgood
      exact hinvalid ⟨by omega, by omega, hgood.1, hgood.2⟩
    rw [decide_eq_false hplace, bind_ok_eq (faultAt_false _ _ _ _), hrecord, bind_error_eq (faultAt_true _ _ _ _)]
    rfl

/-- A table that is no group table, or does not name the block's endpoint, faults as a descriptor too. -/
theorem execColl_of_bad_table (hbad : collTable g s r = .error .noTable ∨ ∃ tab s1, collTable g s r = .ok (tab, s1) ∧
      (tabOk tab = false ∨ tabPos tab (addrOf s s.curBlock (s.curBlock.eng.endpoint.getD 0)) = none)) :
    execColl g d off s = .next (raiseTrap { s.trapReq 0x11 (s.active g) with va := w64 (collOffset g s r) } s) := by
  by_cases hvalid : CollValid g s r
  · rw [execColl_of_valid h hactive hfree hvalid]
    rcases hbad with hnone | ⟨tab, s1, htab, hno⟩
    · rw [hnone]
      rfl
    · have hfault : (!tabOk tab || (tabPos tab (addrOf s s.curBlock (s.curBlock.eng.endpoint.getD 0))).isNone) = true := by
        rcases hno with hno | hno <;> rw [hno]
        · rfl
        · exact Bool.or_true _
      rw [htab]
      unfold collGoes
      dsimp only
      rw [hfault, bind_error_eq (faultAt_true _ _ _ _)]
      rfl
  · exact execColl_of_invalid h hactive hfree hvalid

/-- What COLL comes to when its table stops it. -/
def collStopped (d : Operand) (g : Guard) (s : State) (r : Reading) : TabStop → Host.Outcome State Fault Refusal
  | .noTable => .next (raiseTrap { s.trapReq 0x11 (s.active g) with va := w64 (collOffset g s r) } s)
  | .held => .next s.waits
  | .poison va => .next (raiseTrap { s.trapReq 0x22 (s.active g) with va := w64 va } s)
  | .fault va cause => if s.curLaunch.desc.replayable = true then .next (raiseTrap (s.trapReq 0x18 (s.active g)) s)
    else .next (advance (collFault s.cur.blk
      (newPart s.cur.blk (collNumber s) (collOffset g s r) (collRecord g s r) s.now)
      (CollF.of (collRecord g s r)).seq va cause
      (engReadBuf s.cur.blk false (engAgent s.curBlock 3 (collNumber s)) (collOffset g s r) 32
        (enqueue 3 1 (written r (collPuts d g s) s)))))

omit hfree in
theorem finish_collGoes_error (x : TabStop) : finish (collGoes d g s r (.error x)) s = collStopped d g s r x := by
  cases x with
  | noTable => exact congrArg (finish · s) (bind_error_eq (faultAt_true _ _ _ _) _)
  | held => rfl
  | poison va => exact congrArg (finish · s) (bind_error_eq (faultAt_true _ _ _ _) _)
  | fault va cause =>
    unfold collGoes collStopped
    by_cases hreplay : s.curLaunch.desc.replayable = true
    · simp only [if_pos hreplay]
      rw [bind_error_eq (trapIf_some hactive)]
      rfl
    · simp only [if_neg hreplay]
      rw [bind_ok_eq (trapIf_zero s _), bind_ok_eq (commit_ok h.dests)]
      rfl

theorem execColl_of_unread {x : TabStop} (hvalid : CollValid g s r) (hread : collTable g s r = .error x) :
    execColl g d off s = collStopped d g s r x :=
  (execColl_of_valid h hactive hfree hvalid).trans
    ((congrArg (fun y => finish (collGoes d g s r y) s) hread).trans (finish_collGoes_error h hactive x))

theorem execColl_of_read {tab : List Byte} {s1 : State} {pos : Nat} (hvalid : CollValid g s r)
    (hdests : destCheck { r with st := s1 } (collPuts d g s) s = .ok ()) (honce : s.curLaunch.desc.replayable = false)
    (hread : collTable g s r = .ok (tab, s1)) (htab : tabOk tab = true)
    (hpos : tabPos tab (addrOf s s.curBlock (s.curBlock.eng.endpoint.getD 0)) = some pos) :
    execColl g d off s = .next (advance (joinColl (tabTag tab) (CollF.of (collRecord g s r)).seq
      { newPart s.cur.blk (collNumber s) (collOffset g s r) (collRecord g s r) s.now with
        table := tab, pos := pos, fetched := true }
      (engReadBuf s.cur.blk false (engAgent s.curBlock 3 (collNumber s)) (collOffset g s r) 32
        (enqueue 3 1 (written { r with st := s1 } (collPuts d g s) s))))) := by
  rw [execColl_of_valid h hactive hfree hvalid, hread]
  unfold collGoes
  dsimp only
  rw [htab, hpos, honce, if_neg Bool.false_ne_true]
  exact congrArg (finish · s) (bind_ok_eq (commit_ok hdests) _)

end

/-! ### NOISE and CBPOST (R448, R449) -/

theorem execNoise_of_ready {d : Dst} {key step idx : Src} {kd : NoiseKind} :
    let qs : List SrcSpec := [{ op := key.op, hold := key.hold, n := 2, uni := true }, srcU step, srcI idx]
    let puts := [putOf d (s.active g) (Machine.tab fun l =>
      noiseW kd ((r.at 0)[0])[l] ((r.at 0)[1])[l] (r.w 1)[l] (r.w 2)[l])]
    Ready g (opsOf d.op qs) qs puts s r → execNoise g d key step idx kd s = .next (advance (written r puts s)) := by
  intro qs puts h
  unfold execNoise
  dsimp only
  rw [bind_ok_eq h.issue, bind_ok_eq h.sources, commit_ok h.dests, finish_ok]

theorem execCbpost_of_ready {pred : Operand} {c : Fin 16} {budget : BitVec 16} {o : Nat}
    (h : Ready g [pred, off] [opU pred, opU off] [] s r) (hactive : s.active g ≠ 0)
    (hrange : ownRange s (s.active g) (uval (s.active g) (r.w 1)).toNat 32 32 = .ok o)
    (hroom : s.curLaunch.lagers = true → lagerRoom s s.curCore 8 = true) :
    let num := s.curBlock.eng.tl[4].enq + 1
    execCbpost g pred off c budget s = .next (advance (emit s.curLaunch.lagers s.curCore (s.outItem
      (.post o (uval (s.active g) (r.w 0)).toNat c.val num budget.toNat (s.curBlock.abuf.data.readN o 32)) none none 0)
      (engReadBuf s.cur.blk false (engAgent s.curBlock 4 num) o 32 (enqueue 4 1 (written r [] s))))) := by
  dsimp only
  unfold execCbpost
  dsimp only
  rw [bind_ok_eq h.issue, bind_ok_eq h.sources, if_neg hactive, bind_ok_eq h.dests, bind_ok_eq hrange,
    roomStall_eq_false hroom, bind_ok_eq stallIf_false, bind_ok_eq (commit_ok h.dests)]
  rfl

end

theorem generationInstructionsComplete : Clause.GenerationInstructionsComplete := by
  refine ⟨?joins, ?descriptor, ?unread, fun g d key step idx kd s r => execNoise_of_ready, ?post⟩
  case joins =>
    intro g d off s r tab s1 pos o b num puts bs agent p h hdests hactive haligned hinside hfree hfields hendpoint honce hread htab
      hpos
    exact execColl_of_read h hactive hfree ⟨haligned, hinside, hfields, hendpoint⟩ hdests honce hread htab hpos
  case descriptor =>
    intro g d off s r o b bs puts read h hactive hfree hbad
    rcases hbad with haligned | hinside | hfields | hendpoint | hnone | htable
    · exact execColl_of_invalid h hactive hfree fun hvalid => haligned hvalid.aligned
    · exact execColl_of_invalid h hactive hfree fun hvalid => absurd hvalid.inside (Nat.not_le.mpr hinside)
    · exact execColl_of_invalid h hactive hfree fun hvalid => Bool.false_ne_true (hfields.symm.trans hvalid.fields)
    · exact execColl_of_invalid h hactive hfree fun hvalid => by simpa [b, hendpoint] using hvalid.endpoint
    · exact execColl_of_bad_table h hactive hfree (.inl hnone)
    · exact execColl_of_bad_table h hactive hfree (.inr htable)
  case unread =>
    intro g d off s r x o b bs num puts agent h hactive hfree haligned hinside hfields hendpoint hread
    refine (execColl_of_unread h hactive hfree ⟨haligned, hinside, hfields, hendpoint⟩ hread).trans ?_
    cases x <;> rfl
  case post =>
    intro g pred off c budget s r o b num h hactive hrange hroom
    exact execCbpost_of_ready h hactive hrange hroom

/-- Settles O44: each instruction by its checks in their order and what it sends or delivers, COLL by its record and then by what
reading its table comes to. -/
theorem fabricAndGeneration : Obligations.FabricAndGeneration :=
  ⟨fabricInstructionsComplete, generationInstructionsComplete⟩

end Sys2Proof.Machine
end

section
/-!
PROOFS. Messages, collectives and performed output (R407 to R413, R429 to R442), and what firmware writes (R252, R258, R457).
-/

namespace Sys2Proof.Machine

/-! ### Steps that choose freely -/

/-- A choice modulo the length of a list that is not empty is in the list. -/
theorem getElem?_freeNat {α : Type} {l : List α} (h : l ≠ []) (c : Nat) :
    ∃ r ∈ l, l[Config.freeNat c % max l.length 1]? = some r := by
  rw [Nat.max_comm]
  exact getElem?_mod_length h _

theorem collStep_mem {op : Nat} {tag seq : Word} {s : State} (name : String) :
    let l := (s.colls.filter fun x => x.2.tag == tag && x.2.seq == seq && x.2.op == op).flatMap fun x =>
      x.2.parts.filterMap fun q => partStep x.1 x.2 q s
    l ≠ [] → ∃ t ∈ l, collStep op name tag seq s = .next { t with freeCtr := t.freeCtr + 1 } := by
  intro l h
  obtain ⟨t, ht, hget⟩ := getElem?_freeNat h s.freeCtr
  refine ⟨t, ht, ?_⟩
  unfold collStep
  dsimp only
  rw [hget]

theorem execStorePerformedAtHome_mem {s : State} :
    let l := (readyItems [] s.inflight).filterMap fun o => performItem o s
    l ≠ [] → ∃ t ∈ l, execStorePerformedAtHome s = .next { t with freeCtr := t.freeCtr + 1 } := by
  intro l h
  obtain ⟨t, ht, hget⟩ := getElem?_freeNat h s.freeCtr
  refine ⟨t, ht, ?_⟩
  unfold execStorePerformedAtHome
  dsimp only
  rw [hget]

/-! ### Messages (R429 to R432) -/

/-- The messages of a die that can go on: those at its receivers (true) and those on their way to them (false). -/
def deliverable (d : Nat) (s : State) : List (Bool × Nat) :=
  (nextIngress s d).map (true, ·) ++ (nextMsgs s d).map (false, ·)

theorem execMessageDelivery_mem {die : Fin 4} {s : State} (h : deliverable die.val s ≠ []) :
    ∃ p ∈ deliverable die.val s, execMessageDelivery die none s = .next (if p.1
      then fromIngress die.val p.2 { s with freeCtr := s.freeCtr + 1 }
      else fromTransit die.val p.2 { s with freeCtr := s.freeCtr + 1 }) := by
  obtain ⟨p, hp, hget⟩ := getElem?_freeNat h s.freeCtr
  refine ⟨p, hp, ?_⟩
  unfold deliverable at hget
  unfold execMessageDelivery
  dsimp only
  rw [hget]

/-- What another device sends, under the number that it takes. -/
def remoteMessage (r : RemoteMsg) (s : State) : Msg := { remoteMsg r with id := s.uidCtr }
def State.numbered (s : State) : State := { s with uidCtr := s.uidCtr + 1 }

/-- Whether a message has to wait: for its receiver, or behind others for it. -/
def arrivalWaits (d : Nat) (m : Msg) (s : State) : Bool :=
  isHeld s d m || (s.die d).ingress.any fun x => recvKey s d x == recvKey s d m

section
variable {die : Fin 4} {r : RemoteMsg} {s : State} (hbytes : r.bytes ≠ [])
  (hdevice : ownDevice s (remoteMessage r s).addr = true) (hdie : faDie (remoteMessage r s).addr = die.val)
include hbytes hdevice hdie

/-- A message with bytes to an endpoint of the die arrives, or waits where it may. -/
theorem execMessageDelivery_remote : execMessageDelivery die (some r) s =
    if arrivalWaits die.val (remoteMessage r s) s.numbered then
      if mayEnter s.numbered die.val (remoteMessage r s) then
        .next (s.numbered.updDie die.val fun x => { x with ingress := x.ingress ++ [remoteMessage r s] })
      else .refused (.notEnabled "MESSAGE_DELIVERY")
    else .next (arriveMsg die.val (remoteMessage r s) s.numbered) := by
  refine if_neg ?_
  rintro (hnone | hother | hother)
  · exact hbytes hnone
  · exact Bool.false_ne_true ((congrArg not hdevice).symm.trans hother)
  · exact hother hdie

theorem execMessageDelivery_of_free (hwaits : arrivalWaits die.val (remoteMessage r s) s.numbered = false) :
    execMessageDelivery die (some r) s = .next (arriveMsg die.val (remoteMessage r s) s.numbered) := by
  rw [execMessageDelivery_remote hbytes hdevice hdie, hwaits, if_neg Bool.false_ne_true]

theorem execMessageDelivery_of_waiting (hwaits : arrivalWaits die.val (remoteMessage r s) s.numbered = true)
    (henter : mayEnter s.numbered die.val (remoteMessage r s) = true) :
    execMessageDelivery die (some r) s =
      .next (s.numbered.updDie die.val fun x => { x with ingress := x.ingress ++ [remoteMessage r s] }) := by
  rw [execMessageDelivery_remote hbytes hdevice hdie, if_pos hwaits, if_pos henter]

end

/-- An acknowledgement counts its message down at the sender; a refusal is written to the black box too. -/
theorem execAcknowledge_of_found {msg : Nat} {s : State} {m : Msg} {code : Nat}
    (hfind : (s.acks.find? fun p => p.1.id == msg) = some (m, code)) :
    let t := { s with acks := s.acks.erase (m, code) }
    execAcknowledge msg s = .next (lasting m.blk (fun s => s.updEng m.blk fun e => completeOn 4 m.num { e with
      inFlight := e.inFlight - 1
      fabFault := e.fabFault || code != 0
      fabCode := if code = 0 then e.fabCode else code }) (if code = 0 then t else
        bbWrite m.srcDie (bbEnt 0x0C 0 (s.launch (s.block m.blk).launch).desc.asid m.agent 0 (w64 code)) t)) := by
  unfold execAcknowledge
  dsimp only
  rw [hfind]

theorem messagesAndHome : Clause.MessagesAndHome := by
  refine ⟨fun die s => execMessageDelivery_mem, ?remote, fun r => ⟨rfl, rfl, rfl, rfl, rfl⟩,
    fun msg s m code => execAcknowledge_of_found, ?collectives, fun s => execStorePerformedAtHome_mem⟩
  case remote =>
    exact fun die r s hbytes hdevice hdie => ⟨execMessageDelivery_of_free hbytes hdevice hdie,
      execMessageDelivery_of_waiting hbytes hdevice hdie⟩
  case collectives =>
    intro tag seq s p hp
    simp only [collEvents, List.zipIdx_cons, List.zipIdx_nil, List.mem_cons, List.not_mem_nil, or_false,
      Nat.reduceAdd] at hp
    rcases hp with rfl | rfl | rfl | rfl | rfl | rfl
    all_goals exact collStep_mem _

/-! ### What firmware writes (R252, R258, R457) -/

theorem execFshareHi_of_start {die : Fin 4} {v : Word} {s t : State} (hheld : fshareHeld die.val v s = false)
    (hstart : fshareStart die.val v s = some t) : execFshareHi die true v s = .next t := by
  unfold execFshareHi
  rw [hheld, hstart]
  rfl

/-- Where its page is copied and its leaf written, an operation of FSHARE ends. -/
theorem execFshareOperationEnd_of_copied {die : Fin 4} {s u t : State} {pte frame e : Nat}
    (hpte : (s.die die.val).fsh.pte = some (pte, frame, e)) :
    let lg := if nbits (s.die die.val).fsh.hi.toNat 20 2 = 0 then 16 else 21
    spanHeld s (nbits e 12 36 * 2 ^ 16) (2 ^ lg) = false → spanHeld s pte 8 = false →
    copyPage (nbits e 12 36 * 2 ^ 16) frame (2 ^ lg) s = some u →
    performBytes u (at_ pte (toLe 8 (e % 2 ^ 12 + frame / 2 ^ 16 * 2 ^ 12))) = some t →
    execFshareOperationEnd die s = .next (t.updDie die.val fun x => { x with
      fsh := { x.fsh with busy := false, outcome := 1, pte := none } }) := by
  intro lg hsource hleaf hcopy hperform
  unfold execFshareOperationEnd
  rw [hpte]
  dsimp only
  rw [hsource, hleaf, Bool.or_false, if_neg Bool.false_ne_true, hcopy, Option.bind_some, hperform]

theorem answerStep_of_read {die : Fin 4} {slot : Fin 64} {s : State} {e : FaultEnt} (verdict : Nat) (name : String)
    (hentry : AMap.get? (s.die die.val).fq slot.val = some e) (hread : e.read = true) :
    answerStep die slot verdict name s = .next (answerFault die.val slot.val verdict s) := by
  unfold answerStep
  rw [hentry]
  exact if_pos hread

theorem firmwareWrites : Clause.FirmwareWrites :=
  ⟨fun _ _ _ => ⟨rfl, rfl⟩, fun _ _ _ _ => execFshareHi_of_start, fun _ _ _ => rfl,
    fun _ _ _ _ _ _ hpte hsource hleaf _ => execFshareOperationEnd_of_copied hpte hsource hleaf,
    fun _ _ _ _ hentry hread => ⟨answerStep_of_read 0 _ hentry hread, answerStep_of_read 1 _ hentry hread,
      answerStep_of_read 2 _ hentry hread⟩⟩

/-- Settles O58: free choices are among what can be chosen, and the other steps do what they answer where their conditions hold. -/
theorem messagesMemoryFirmware : Obligations.MessagesMemoryFirmware := ⟨messagesAndHome, firmwareWrites⟩

end Sys2Proof.Machine
end

section
/-!
PROOFS. What the steps of a memory instruction leave unchanged (R233, R267, R270, R271, R273): one relation between states that
every step keeps, with what a kind of instruction may change besides.
-/

namespace Sys2Proof.Machine

/-! ### What is kept -/

/-- What a kind of memory instruction may change besides its warp's ordering state, its latches, its split and the streams'
elements fetched ahead. -/
structure Changes where
  names : Nat → Prop := fun _ => False
  scalars : Fin 64 → Prop := fun _ => False
  lines : Prop := False
  inflight : Prop := False
  lagers : Prop := False
  buffers : Prop := False

/-- What of the issuing warp is kept; `k` is the split that issues. -/
structure WarpKept (A : Changes) (k : Nat) (w w' : Warp) : Prop where
  lane : w'.lane = w.lane
  trap : w'.trap = w.trap
  splits : ∀ n, n ≠ k → AMap.get? w'.splits n = AMap.get? w.splits n
  p : w'.reg.p = w.reg.p
  x : w'.reg.x = w.reg.x
  z : w'.reg.z = w.reg.z ∨ w'.reg.z = w.refetch.reg.z
  k : w'.reg.k = w.reg.k
  ren : w'.reg.ren = w.reg.ren
  elect : w'.reg.elect = w.reg.elect
  nstat : w'.reg.nstat = w.reg.nstat
  v : ∀ n, ¬ A.names n → AMap.get? w'.reg.v n = AMap.get? w.reg.v n
  s : ∀ n : Fin 64, ¬ A.scalars n → w'.reg.s[n] = w.reg.s[n]

/-- What of the block of a cursor is kept. -/
structure BlockKept (A : Changes) (c : Cursor) (b b' : Block) : Prop where
  abuf : ¬ A.buffers → b'.abuf = b.abuf
  cbuf : ¬ A.buffers → b'.cbuf = b.cbuf
  wbuf : b'.wbuf = b.wbuf
  eng : b'.eng = b.eng
  warps : ∀ n, n ≠ c.warp → AMap.get? b'.warps n = AMap.get? b.warps n
  warp : WarpKept A c.split (AMap.getD b.warps c.warp default) (AMap.getD b'.warps c.warp default)

/-- What of the machine is kept. -/
structure Kept (A : Changes) (s t : State) : Prop where
  mem : t.mem = s.mem
  now : t.now = s.now
  cur : t.cur = s.cur
  launches : t.launches = s.launches
  contexts : t.contexts = s.contexts
  msgs : t.msgs = s.msgs
  colls : t.colls = s.colls
  lines : ¬ A.lines → t.lines = s.lines
  inflight : ¬ A.inflight → t.inflight = s.inflight
  lagers : ¬ A.lagers → ∀ c, (t.core c).lager = (s.core c).lager
  blocks : ¬ A.buffers → ∀ u, u ≠ s.cur.blk → AMap.get? t.blocks u = AMap.get? s.blocks u
  block : BlockKept A s.cur s.curBlock t.curBlock

variable {A : Changes} {s t u : State}

/-- Discarding what is fetched ahead depends on the streams alone, and doing it twice is doing it once. -/
theorem Warp.refetch_z_eq {w w' : Warp} (h : w'.reg.z = w.reg.z ∨ w'.reg.z = w.refetch.reg.z) :
    w'.refetch.reg.z = w.refetch.reg.z := by
  rcases h with h | h
  · simp only [Warp.refetch, h]
  · rw [Warp.refetch, h, Warp.refetch]
    simp [Vector.map_map, Function.comp_def, Option.map_map]

/-! ### A warp -/

namespace WarpKept
variable {k : Nat} {w w' w'' : Warp}

theorem refl (w : Warp) : WarpKept A k w w :=
  ⟨rfl, rfl, fun _ _ => rfl, rfl, rfl, .inl rfl, rfl, rfl, rfl, rfl, fun _ _ => rfl, fun _ _ => rfl⟩

theorem trans (h : WarpKept A k w w') (h' : WarpKept A k w' w'') : WarpKept A k w w'' where
  lane := h'.lane.trans h.lane
  trap := h'.trap.trans h.trap
  splits n hn := (h'.splits n hn).trans (h.splits n hn)
  p := h'.p.trans h.p
  x := h'.x.trans h.x
  z := h'.z.elim (fun e => h.z.imp e.trans e.trans) fun e => .inr (e.trans (Warp.refetch_z_eq h.z))
  k := h'.k.trans h.k
  ren := h'.ren.trans h.ren
  elect := h'.elect.trans h.elect
  nstat := h'.nstat.trans h.nstat
  v n hn := (h'.v n hn).trans (h.v n hn)
  s n hn := (h'.s n hn).trans (h.s n hn)

theorem refetch (w : Warp) : WarpKept A k w w.refetch := { refl w with z := .inr rfl }

/-- The ordering state is no part of what is kept. -/
theorem ord (o : OrdState) (w : Warp) : WarpKept A k w { w with ord := o } := { refl w with }

theorem latches (l : Vector Latch 3) (w : Warp) : WarpKept A k w { w with reg := { w.reg with lat := l } } := { refl w with }

theorem split (f : Split → Split) (w : Warp) : WarpKept A k w { w with splits := AMap.modify w.splits k f } :=
  { refl (A := A) (k := k) w with splits := fun _ hn => AMap.get?_modify_other _ f hn }

theorem scalar {n : Fin 64} (hn : A.scalars n) (x : Word) (w : Warp) :
    WarpKept A k w { w with reg := { w.reg with s := w.reg.s.set n x } } :=
  { refl w with
    s := fun j hj => Vector.getElem_set_ne n.isLt j.isLt fun e => hj (Fin.ext e ▸ hn) }

theorem vFile {v : AMap Slot} {p : Vector Mask 7} (hv : ∀ n, ¬ A.names n → AMap.get? v n = AMap.get? w.reg.v n)
    (hp : p = w.reg.p) : WarpKept A k w { w with reg := { w.reg with v := v, p := p } } :=
  { refl w with v := hv, p := hp }

end WarpKept

/-! ### A block -/

/-- The entry of a key after a change of it: the changed one, or, with no entry, the default as before. -/
theorem AMap.getD_modify_same {α : Type} (m : AMap α) (k : Nat) (f : α → α) (d : α) :
    AMap.getD (AMap.modify m k f) k d = f (AMap.getD m k d) ∨ AMap.getD (AMap.modify m k f) k d = AMap.getD m k d := by
  cases h : AMap.get? m k with
  | none => exact .inr (by simp [AMap.getD, h])
  | some a => exact .inl (by simp [AMap.getD, h])

namespace BlockKept
variable {c : Cursor} {b b' b'' : Block}

theorem refl (b : Block) : BlockKept A c b b := ⟨fun _ => rfl, fun _ => rfl, rfl, rfl, fun _ _ => rfl, .refl _⟩

theorem trans (h : BlockKept A c b b') (h' : BlockKept A c b' b'') : BlockKept A c b b'' where
  abuf hA := (h'.abuf hA).trans (h.abuf hA)
  cbuf hA := (h'.cbuf hA).trans (h.cbuf hA)
  wbuf := h'.wbuf.trans h.wbuf
  eng := h'.eng.trans h.eng
  warps n hn := (h'.warps n hn).trans (h.warps n hn)
  warp := h.warp.trans h'.warp

theorem updWarp {f : Warp → Warp}
    (h : WarpKept A c.split (AMap.getD b.warps c.warp default) (f (AMap.getD b.warps c.warp default))) :
    BlockKept A c b (b.updWarp c.warp f) :=
  { refl (A := A) (c := c) b with
    warps := fun _ hn => AMap.get?_modify_other _ f hn
    warp := (AMap.getD_modify_same b.warps c.warp f default).elim (fun e => e ▸ h) fun e => e ▸ .refl _ }

end BlockKept

/-! ### The machine -/

namespace Kept

theorem refl (s : State) : Kept A s s :=
  ⟨rfl, rfl, rfl, rfl, rfl, rfl, rfl, fun _ => rfl, fun _ => rfl, fun _ _ => rfl, fun _ _ _ => rfl, .refl _⟩

theorem trans (h : Kept A s t) (h' : Kept A t u) : Kept A s u where
  mem := h'.mem.trans h.mem
  now := h'.now.trans h.now
  cur := h'.cur.trans h.cur
  launches := h'.launches.trans h.launches
  contexts := h'.contexts.trans h.contexts
  msgs := h'.msgs.trans h.msgs
  colls := h'.colls.trans h.colls
  lines hA := (h'.lines hA).trans (h.lines hA)
  inflight hA := (h'.inflight hA).trans (h.inflight hA)
  lagers hA c := (h'.lagers hA c).trans (h.lagers hA c)
  blocks hA n hn := (h'.blocks hA n (h.cur ▸ hn)).trans (h.blocks hA n hn)
  block := h.block.trans (h.cur ▸ h'.block)

theorem blk (h : Kept A s t) : t.cur.blk = s.cur.blk := congrArg Cursor.blk h.cur

/-- The issuing warp keeps what it keeps. -/
theorem warp (h : Kept A s t) : WarpKept A s.cur.split s.curWarp t.curWarp := by
  unfold State.curWarp
  rw [h.cur]
  exact h.block.warp

theorem updBlock {f : Block → Block} (h : BlockKept A s.cur s.curBlock (f s.curBlock)) :
    Kept A s (s.updBlock s.cur.blk f) := by
  refine { refl s with blocks := fun _ _ hn => AMap.get?_modify_other _ f hn, block := ?_ }
  change BlockKept A s.cur s.curBlock (AMap.getD (AMap.modify s.blocks s.cur.blk f) s.cur.blk default)
  rcases AMap.getD_modify_same s.blocks s.cur.blk f default with hsome | hnone
  · exact hsome ▸ h
  · exact hnone ▸ .refl _

/-- Where buffers may change, what changes any block in the same way is kept. -/
theorem updAnyBlock {f : Block → Block} {n : Nat} (hA : A.buffers) (h : ∀ b, BlockKept A s.cur b (f b)) :
    Kept A s (s.updBlock n f) := by
  by_cases hn : s.cur.blk = n
  · exact hn ▸ updBlock (h _)
  · refine { refl s with blocks := fun hA' => absurd hA hA', block := ?_ }
    have hsame : (s.updBlock n f).curBlock = s.curBlock := State.block_updBlock_other s f hn
    exact hsame ▸ .refl _

theorem updWarp {f : Warp → Warp} (h : WarpKept A s.cur.split s.curWarp (f s.curWarp)) : Kept A s (s.updWarp f) :=
  updBlock (.updWarp h)

theorem updOrd (f : OrdState → OrdState) (s : State) : Kept A s (s.updOrd f) := updWarp (.ord _ _)

theorem updSplit (f : Split → Split) (s : State) : Kept A s (s.updSplit f) := updWarp (.split f _)

theorem updCore {c : Nat} {f : CoreState → CoreState} (h : ∀ k, A.lagers ∨ (f k).lager = k.lager) :
    Kept A s (s.updCore c f) := by
  refine { refl s with lagers := fun hA e => ?_ }
  by_cases he : e = c
  · subst he
    rw [State.core_updCore_same]
    exact (h _).resolve_left hA
  · rw [State.core_updCore_other s f he]

theorem updBody (c : Nat) (f : CoreBody → CoreBody) (s : State) : Kept A s (s.updBody c f) := updCore fun _ => .inr rfl

/-- Time within the cycle and what releases pass on are no part of what is kept, nor is the count of free choices. -/
theorem ticked (s : State) : Kept A s s.ticked := { refl s with }

theorem given (l : List Given) (s : State) : Kept A s { s with given := l } := { refl s with }

theorem chosen (s : State) : Kept A s { s with freeCtr := s.freeCtr + 1 } := { refl s with }

theorem fills (h : OnlyTranslationsFilled s t) : Kept A s t := by
  have hrest := h.rest
  generalize hd : t.dies = dies at hrest
  generalize hc : t.cores = cores at hrest
  subst hrest
  refine { refl s with lagers := fun _ c => ?_ }
  obtain ⟨_, _, _, hcore⟩ := h.core c
  exact hcore ▸ rfl

theorem recorded (hA : A.lines) (l : AMap LineRec) (s : State) : Kept A s { s with lines := l } :=
  { refl s with lines := fun hA' => absurd hA hA' }

theorem ite {c : Prop} [Decidable c] (h : Kept A s t) (h' : Kept A s u) : Kept A s (if c then t else u) := by
  split
  · exact h
  · exact h'

/-- A fold of steps that keep. -/
theorem foldl {α : Type} {f : State → α → State} {l : List α} (h : ∀ a ∈ l, ∀ t, t.cur = s.cur → Kept A t (f t a)) :
    Kept A s (l.foldl f s) := by
  suffices hfrom : ∀ t, Kept A s t → Kept A s (l.foldl f t) from hfrom s (.refl s)
  induction l with
  | nil => exact fun _ ht => ht
  | cons a l ih =>
    exact fun t ht => ih (fun b hb => h b (List.mem_cons_of_mem a hb)) _ (ht.trans (h a List.mem_cons_self t ht.cur))

end Kept

/-! ### The steps of an access -/

theorem escape_kept {n : Nat} (hn : n = s.cur.blk) : Kept A s (escape n s) := by
  subst hn
  exact .updBlock { BlockKept.refl s.curBlock with }

theorem wrote_kept (s : State) : Kept A s (wrote s) := .updWarp (.refetch _)

theorem overNt_kept (l : List (Nat × Byte)) (s : State) : Kept A s (overNt l s) := by
  unfold overNt
  exact .updBody _ _ s

/-- Output goes into the lager buffer, or out of the core. -/
theorem emit_kept {lagers : Bool} {c : Nat} {o : OutItem} (hblk : o.blk = s.cur.blk) (hlagers : lagers = true → A.lagers)
    (hinflight : lagers = false → A.inflight) : Kept A s (emit lagers c o s) := by
  cases lagers with
  | true => exact Kept.updCore (f := fun k => { k with lager := k.lager ++ [o] }) fun _ => .inl (hlagers rfl)
  | false =>
    have hout : Kept A s { s with inflight := s.inflight ++ [o] } :=
      { Kept.refl s with inflight := fun hA => absurd (hinflight rfl) hA }
    exact hout.trans (escape_kept hblk)

theorem fillL1_kept (c l : Nat) (s : State) : Kept A s (fillL1 c l s) := by
  unfold fillL1
  exact .updCore fun _ => .inr rfl

theorem viewLoad_kept (s : State) (c b w : Nat) (cached : Bool) (a n : Nat) :
    Kept A s (viewLoad s c b w cached a n).2.2 := by
  unfold viewLoad loadBase
  dsimp only
  split
  · exact .refl s
  · cases cached with
    | true => exact fillL1_kept _ _ s
    | false => exact .refl s

theorem readAllReqs_kept (a : Acc) (gs : List Got) (s : State) : Kept A s (readAllReqs s a gs).2 := by
  induction gs generalizing s with
  | nil => exact .refl s
  | cons g gs ih =>
    have hview := viewLoad_kept (A := A) s s.curCore s.cur.blk s.cur.warp (g.leaf.cache == 0) g.pa g.req.n
    rw [readAllReqs]
    dsimp only
    exact (hview.trans (.ite (escape_kept hview.blk.symm) (.refl _))).trans (ih _)

theorem recordWords_kept (hA : A.lines) (agent : Word) (t entered : Nat) (write : Bool) (atom : Option Scope) (ws : List Nat)
    (s : State) : Kept A s (recordWords s agent t entered write atom ws) :=
  .foldl fun _ _ _ _ => .recorded hA _ _

theorem recordAt_kept (hA : A.lines) (agent : Word) (t entered : Nat) (write : Bool) (atom : Option Scope) (pa n : Nat)
    (s : State) : Kept A s (recordAt s agent t entered write atom pa n) := by
  unfold recordAt
  exact .ite (.refl s) (recordWords_kept hA _ _ _ _ _ _ s)

/-! ### Acquires and releases -/

theorem takeOrder_kept (c : Cover) (s : State) : Kept A s (takeOrder c s.cur.blk s.cur.warp s) := .updWarp (.ord _ _)

/-- A warp that acquires at an instant discards what is fetched ahead. -/
theorem acquiresAt_kept (sc : Scope) (n : Nat) (h : Kept A s t) : Kept A s (t.updWarpOf s.cur.blk s.cur.warp fun w =>
    { w.refetch with ord := { w.ord with lastAcq := w.ord.lastAcq.setIfInBounds (scopeNo sc) n } }) := by
  rw [← h.cur]
  exact h.trans (.updWarp ((WarpKept.refetch _).trans (.ord _ _)))

theorem acquireAt_kept (sc : Scope) (s : State) : Kept A s (acquireAt sc s.cur.blk s.cur.warp s) := by
  have htake : Kept A s (takeOrder (.scope sc) s.cur.blk s.cur.warp s.ticked) :=
    (Kept.ticked s).trans (takeOrder_kept _ s.ticked)
  have hacquired := (acquiresAt_kept sc (takeOrder (.scope sc) s.cur.blk s.cur.warp s.ticked).instant htake).trans (.ticked _)
  unfold acquireAt
  dsimp only
  exact .ite hacquired (hacquired.trans (.updCore fun _ => .inr rfl))

theorem acquireNow_kept (sc : Option Scope) (s : State) : Kept A s (acquireNow sc s) := by
  cases sc with
  | none => exact .refl s
  | some sc => exact acquireAt_kept sc s

theorem releaseAt_kept (c : Cover) (s : State) : Kept A s (releaseAt c s.cur.blk s.cur.warp s) :=
  ((Kept.ticked s).trans (.given _ s.ticked)).trans (.updOrd _ _)

theorem releaseNow_kept (sc : Option Scope) (s : State) : Kept A s (releaseNow sc s) := by
  cases sc with
  | none => exact .refl s
  | some sc =>
    unfold releaseNow
    exact .ite (releaseAt_kept _ s) (.refl s)

/-! ### Whole accesses -/

theorem loadRecords_kept (hA : A.lines) (gs : List Got) (s : State) :
    Kept A s (gs.foldl (fun s g => recordAt s s.curAgent s.instant s.instant false none g.pa g.req.n) s) :=
  .foldl fun g _ t _ => recordAt_kept hA t.curAgent t.instant t.instant false none g.pa g.req.n t

/-- The end of a load: its free choices are made, and it acquires when it has made an access. -/
theorem loadEnds_kept (acq : Option Scope) (rs : List Req) (s : State) : Kept A s (if rs.isEmpty
    then { s with freeCtr := s.freeCtr + 1 } else acquireNow acq { s with freeCtr := s.freeCtr + 1 }) :=
  .ite (.chosen s) ((Kept.chosen s).trans (acquireNow_kept acq _))

/-- A load fills caches and translations, records its words and acquires. -/
theorem loadGlobal_kept {acq : Option Scope} {align : Bool} {rs : List Req} {bs : List (List Byte)} (hA : A.lines)
    (h : loadGlobal s acq align rs = .ok (bs, t)) : Kept A s t := by
  obtain ⟨⟨gs, s1⟩, hcheck, h⟩ := bind_eq_ok h
  obtain ⟨_, -, h⟩ := bind_eq_ok h
  obtain ⟨_, -, h⟩ := bind_eq_ok h
  cases h
  have hread := (Kept.fills (globalCheck_fills hcheck)).trans (readAllReqs_kept (A := A) ⟨s.who, s.instant, false, none⟩ gs s1)
  exact (hread.trans (loadRecords_kept hA gs _)).trans (loadEnds_kept acq rs _)

/-- A store sends its item, discards what is fetched ahead and releases. -/
theorem storeGlobal_kept {rel : Option Scope} {rs : List Req} {data : List (List Byte)} (hlagers : A.lagers)
    (hinflight : A.inflight) (h : storeGlobal s rel rs data = .ok t) : Kept A s t := by
  obtain ⟨⟨gs, s1⟩, hcheck, h⟩ := bind_eq_ok h
  obtain ⟨_, -, h⟩ := bind_eq_ok h
  obtain ⟨_, -, h⟩ := bind_eq_ok h
  cases h
  have hfills : Kept A s s1 := .fills (globalCheck_fills hcheck)
  have hsent (o : OutItem) (ho : o.blk = s.cur.blk) :
      Kept A s (wrote (emit s.curLaunch.lagers s.curCore o (overNt (storeBytes gs data) s1))) := by
    have hover := hfills.trans (overNt_kept (storeBytes gs data) s1)
    exact (hover.trans (emit_kept (ho.trans hover.blk.symm) (fun _ => hlagers) fun _ => hinflight)).trans (wrote_kept _)
  have hstored := Kept.ite (c := rs.isEmpty = true) hfills
    (hsent (s.outItem (.store (((storeBytes gs data).head?.map Prod.fst).getD 0) (storeBytes gs data))
      (rel.filter fun x => decide (3 ≤ scopeNo x)) none ((rs.head?.map fun r => r.va).getD 0)) rfl)
  exact .ite hstored (hstored.trans (releaseNow_kept rel _))

/-- A non-temporal store keeps its bytes in the core and discards what is fetched ahead. -/
theorem storeNt_kept {k : AccKind} {reads align : Bool} {rs : List Req} {gs : List Got} (c : Nat) (f : CoreBody → CoreBody)
    (h : globalCheck s k reads align rs = .ok (gs, t)) : Kept A s (wrote (t.updBody c f)) :=
  ((Kept.fills (globalCheck_fills h)).trans (.updBody c f t)).trans (wrote_kept _)

/-! ### Typed buffers -/

theorem writeBuf_kept (hA : A.buffers) (n : Nat) (c : Bool) (l : List (Nat × Byte)) (s : State) :
    Kept A s (writeBuf n c l s) :=
  .updAnyBlock hA fun b => by
    cases c <;> exact { BlockKept.refl b with abuf := fun hA' => absurd hA hA', cbuf := fun hA' => absurd hA hA' }

theorem recordGran_kept (hA : A.buffers) (n : Nat) (c : Bool) (agent : Word) (entered : Nat) (write : Bool)
    (atom : Option Scope) (w : Nat) (s : State) : Kept A s (recordGran s n c agent entered write atom w) :=
  .updAnyBlock hA fun b => by cases c <;> exact { BlockKept.refl b with }

theorem recordBuf_kept (hA : A.buffers) (n : Nat) (c : Bool) (agent : Word) (write : Bool) (atom : Option Scope) (off len : Nat)
    (s : State) : Kept A s (recordBuf s n c agent write atom off len) :=
  .foldl fun _ _ _ _ => recordGran_kept hA _ _ _ _ _ _ _ _

/-- A request with the block and the offset that its address names. -/
def bufGot (s : State) (c : Bool) (r : Req) : Option BGot :=
  match bufTarget s s.cur.blk c r.va.toNat r.n with
  | .ok (n, o) => some ⟨r, n, o⟩
  | .error _ => none

theorem bufTarget_of_bufGot {c : Bool} {r : Req} {g : BGot} (h : bufGot s c r = some g) :
    g.req = r ∧ bufTarget s s.cur.blk c r.va.toNat r.n = .ok (g.blk, g.off) := by
  unfold bufGot at h
  cases htarget : bufTarget s s.cur.blk c r.va.toNat r.n with
  | error k => simp [htarget] at h
  | ok x =>
    rw [htarget] at h
    cases h
    exact ⟨rfl, rfl⟩

/-- What a store to a typed buffer does for one request: it writes a buffer of its core, or sends its bytes to another. -/
def storeBufOne (s : State) (c : Bool) (t : State) (p : BGot × List Byte) : State :=
  if s.onCore p.1.blk then
    recordBuf (writeBuf p.1.blk c (at_ p.1.off p.2) t) p.1.blk c s.curAgent true none p.1.off p.1.req.n
  else emit s.curLaunch.lagers s.curCore (s.outItem (.window p.1.blk c p.1.off (at_ p.1.off p.2)) none none p.1.req.va) t

/-- A store to a typed buffer that goes through does its requests' one by one. -/
theorem storeBuf_eq_ok {c : Bool} {rs : List Req} {data : List (List Byte)} (h : storeBuf s c rs data = .ok t) :
    t = wrote (((rs.filterMap (bufGot s c)).zip data).foldl (storeBufOne s c) s) := by
  obtain ⟨gs, hcheck, h⟩ := bind_eq_ok h
  obtain ⟨_, -, h⟩ := bind_eq_ok h
  obtain ⟨_, -, h⟩ := bind_eq_ok h
  cases h
  obtain ⟨_, -, hcheck⟩ := bind_eq_ok hcheck
  obtain ⟨_, -, hcheck⟩ := bind_eq_ok hcheck
  obtain ⟨_, -, hcheck⟩ := bind_eq_ok hcheck
  obtain ⟨_, -, hcheck⟩ := bind_eq_ok hcheck
  obtain ⟨_, -, hcheck⟩ := bind_eq_ok hcheck
  obtain ⟨_, -, hcheck⟩ := bind_eq_ok hcheck
  cases hcheck
  rfl

theorem storeBufOne_kept (hbuffers : A.buffers) (hlagers : A.lagers) (hinflight : A.inflight) (c : Bool) (p : BGot × List Byte)
    (ht : t.cur = s.cur) : Kept A t (storeBufOne s c t p) :=
  .ite ((writeBuf_kept hbuffers _ _ _ t).trans (recordBuf_kept hbuffers _ _ _ _ _ _ _ _))
    (emit_kept (congrArg Cursor.blk ht.symm) (fun _ => hlagers) fun _ => hinflight)

theorem storeBuf_kept {c : Bool} {rs : List Req} {data : List (List Byte)} (hbuffers : A.buffers) (hlagers : A.lagers)
    (hinflight : A.inflight) (h : storeBuf s c rs data = .ok t) : Kept A s t := by
  rw [storeBuf_eq_ok h]
  exact (Kept.foldl fun p _ _ => storeBufOne_kept hbuffers hlagers hinflight c p).trans (wrote_kept _)

/-! ### The bytes of buffers -/

/-- Where buffers may not change, no block's do. -/
theorem Kept.buf (h : Kept A s t) (hA : ¬ A.buffers) (n : Nat) (c : Bool) : (t.block n).buf c = (s.block n).buf c := by
  by_cases hn : n = s.cur.blk
  · have hblock : t.block n = t.curBlock := congrArg t.block (hn.trans h.blk.symm)
    rw [hblock, hn]
    cases c with
    | true => exact h.block.cbuf hA
    | false => exact h.block.abuf hA
  · unfold State.block AMap.getD
    rw [h.blocks hA n hn]

theorem State.buf_updBlock {f : Block → Block} {c : Bool} (hf : ∀ b, (f b).buf c = b.buf c) (m n : Nat) (s : State) :
    ((s.updBlock m f).block n).buf c = (s.block n).buf c := by
  by_cases hn : n = m
  · subst hn
    rcases AMap.getD_modify_same s.blocks n f default with hsome | hnone
    · exact (congrArg (Block.buf · c) hsome).trans (hf _)
    · exact congrArg (Block.buf · c) hnone
  · rw [State.block_updBlock_other s f hn]

theorem recordGran_buf (m : Nat) (c : Bool) (agent : Word) (entered : Nat) (write : Bool) (atom : Option Scope) (w n : Nat)
    (d : Bool) (s : State) : ((recordGran s m c agent entered write atom w).block n).buf d = (s.block n).buf d :=
  State.buf_updBlock (fun b => by cases c <;> rfl) m n s

theorem recordBuf_buf (m : Nat) (c : Bool) (agent : Word) (write : Bool) (atom : Option Scope) (off len n : Nat) (d : Bool)
    (s : State) : ((recordBuf s m c agent write atom off len).block n).buf d = (s.block n).buf d :=
  foldl_keeps (fun t : State => (t.block n).buf d) _ (fun _ _ => recordGran_buf _ _ _ _ _ _ _ _ _ _) _ s

theorem emit_buf (lagers : Bool) (core : Nat) (o : OutItem) (n : Nat) (d : Bool) (s : State) :
    ((emit lagers core o s).block n).buf d = (s.block n).buf d := by
  cases lagers with
  | true => rfl
  | false => exact State.buf_updBlock (f := fun b => { b with escaped := true }) (fun _ => rfl) _ _ _

/-- A write of a buffer changes a byte only of that buffer, at an address that it writes. -/
theorem writeBuf_read {m n : Nat} {c d : Bool} {l : List (Nat × Byte)} {x : Nat}
    (h : n = m → d = c → ∀ p ∈ l, p.1 ≠ x) (s : State) :
    (((writeBuf m c l s).block n).buf d).data.read x = ((s.block n).buf d).data.read x := by
  by_cases hn : n = m
  · by_cases hd : d = c
    · subst hn hd
      rcases AMap.getD_modify_same s.blocks n (fun b => b.setBuf d ((b.buf d).data.writeAll l)) default with hsome | hnone
      · have hread := Mem.read_writeAll_other ((s.block n).buf d).data l (h rfl rfl)
        refine (congrArg (fun b : Block => (b.buf d).data.read x) hsome).trans (Eq.trans ?_ hread)
        cases d <;> rfl
      · exact congrArg (fun b : Block => (b.buf d).data.read x) hnone
    · have hother : ∀ b : Block, (b.setBuf c ((b.buf c).data.writeAll l)).buf d = b.buf d := by
        intro b
        cases c with
        | true => cases d with
          | true => exact absurd rfl hd
          | false => rfl
        | false => cases d with
          | true => rfl
          | false => exact absurd rfl hd
      exact congrArg (fun b : Buffer => b.data.read x) (State.buf_updBlock hother m n s)
  · exact congrArg (fun b : Block => (b.buf d).data.read x) (State.block_updBlock_other s _ hn)

theorem storeBufOne_read {c d : Bool} {p : BGot × List Byte} {n x : Nat}
    (h : n = p.1.blk → d = c → ¬ (p.1.off ≤ x ∧ x < p.1.off + p.2.length)) (t : State) :
    (((storeBufOne s c t p).block n).buf d).data.read x = ((t.block n).buf d).data.read x := by
  have hbytes : n = p.1.blk → d = c → ∀ q ∈ at_ p.1.off p.2, q.1 ≠ x := by
    intro hn hd q hq hx
    obtain ⟨i, hi, hq⟩ := mem_at_.mp hq
    have hlt := (List.getElem?_eq_some_iff.mp hi).1
    exact h hn hd ⟨by omega, by omega⟩
  unfold storeBufOne
  split
  · rw [recordBuf_buf]
    exact writeBuf_read hbytes t
  · rw [emit_buf]

/-- A store to a typed buffer changes no byte of a buffer but those that its requests' addresses name. -/
theorem storeBuf_read {c d : Bool} {m : Mask} {len : Nat} {addr : Fin 32 → DWord} {val : Fin 32 → List Byte} {n x : Nat}
    (hlen : ∀ l, (val l).length = len) (h : storeBuf s c (laneReqs m len addr) ((lanesOf m).map val) = .ok t)
    (hx : ∀ l, has m l = true → ∀ o, bufTarget s s.cur.blk c (addr l).toNat len = .ok (n, o) → d = c →
      ¬ (o ≤ x ∧ x < o + len)) :
    ((t.block n).buf d).data.read x = ((s.block n).buf d).data.read x := by
  have hone : ∀ p ∈ ((laneReqs m len addr).filterMap (bufGot s c)).zip ((lanesOf m).map val),
      n = p.1.blk → d = c → ¬ (p.1.off ≤ x ∧ x < p.1.off + p.2.length) := by
    intro p hp hn hd
    obtain ⟨hgot, hdata⟩ := List.of_mem_zip hp
    obtain ⟨r, hr, hgot⟩ := List.mem_filterMap.mp hgot
    obtain ⟨l, hl, rfl⟩ := List.mem_map.mp hr
    obtain ⟨l', -, hval⟩ := List.mem_map.mp hdata
    rw [← hval, hlen]
    exact hx l ((mem_lanesOf m l).mp hl) _ (hn ▸ (bufTarget_of_bufGot hgot).2) hd
  rw [storeBuf_eq_ok h, (wrote_kept (A := {}) _).buf id]
  generalize ((laneReqs m len addr).filterMap (bufGot s c)).zip ((lanesOf m).map val) = l at hone
  suffices hfrom : ∀ u : State, (((l.foldl (storeBufOne s c) u).block n).buf d).data.read x =
      ((u.block n).buf d).data.read x from hfrom s
  induction l with
  | nil => exact fun _ => rfl
  | cons p l ih =>
    intro u
    exact (ih (fun q hq => hone q (List.mem_cons_of_mem p hq)) _).trans
      (storeBufOne_read (hone p List.mem_cons_self) u)

/-! ### Registers after the reads and the writes (R145 to R150, R155) -/

theorem AMap.get?_foldl_set_other {α β : Type} {key : β → Nat} {val : AMap α → β → α} {n : Nat} {l : List β}
    (h : ∀ x ∈ l, key x ≠ n) (m : AMap α) :
    AMap.get? (l.foldl (fun v x => AMap.set v (key x) (val v x)) m) n = AMap.get? m n := by
  induction l generalizing m with
  | nil => rfl
  | cons x l ih =>
    rw [List.foldl_cons, ih (fun y hy => h y (List.mem_cons_of_mem x hy)),
      AMap.get?_set_other _ _ (h x List.mem_cons_self).symm]

/-- A name that is not read keeps its count, and does not die. -/
theorem get?_decrement_of_unread {v : AMap Slot} {names : List Nat} {n : Nat} (h : n ∉ names) :
    AMap.get? (decrement v names).1 n = AMap.get? v n ∧ n ∉ (decrement v names).2 := by
  have hcount : names.count n = 0 := List.count_eq_zero_of_not_mem h
  constructor
  · unfold decrement
    dsimp only
    rw [AMap.get?_mapVals, hcount]
    cases AMap.get? v n <;> rfl
  · unfold decrement
    simp only [List.mem_map, List.mem_filter, not_exists, not_and]
    rintro ⟨k, sl⟩ ⟨-, hdies⟩ rfl
    simp [hcount] at hdies

/-- A name that is neither read nor written keeps its slot. -/
theorem get?_vFile_other {w : Warp} {names : List Nat} {qs : List Put} {n : Nat} (hread : n ∉ names)
    (hwrite : ∀ q ∈ qs, ∀ x ∈ q.names w, x.1 ≠ n) : AMap.get? (vFile w names qs).1 n = AMap.get? w.reg.v n := by
  obtain ⟨hcount, hlives⟩ := get?_decrement_of_unread (v := w.reg.v) hread
  unfold vFile
  dsimp only
  rw [AMap.get?_foldl_set_other (key := fun x : Nat × Mask × Put => x.1),
    AMap.get?_filter _ (fun k => !(decrement w.reg.v names).2.contains k), hcount]
  · simp [hlives]
  · intro x hx
    obtain ⟨q, hq, hx⟩ := List.mem_flatMap.mp hx
    obtain ⟨p, hp, rfl⟩ := List.mem_map.mp hx
    exact hwrite q hq p hp

/-- What a destination may be where no predicate is written: the s registers written are among those that may change. -/
def PutAllowed (A : Changes) (q : Put) : Prop := (∀ n, q.op ≠ .p n) ∧ ∀ n, q.op = .s n → A.scalars n

theorem putOther_kept {q : Put} (h : PutAllowed A q) (s : State) : Kept A s (putOther q s) := by
  obtain ⟨hpred, hscalar⟩ := h
  unfold putOther
  refine .ite (.refl s) ?_
  split
  · next n hop => exact .updWarp (.scalar (hscalar n hop) _ _)
  · exact .updBlock { BlockKept.refl s.curBlock with }
  · next n hop => exact absurd hop (hpred n)
  · exact .refl s

theorem shareTake_kept (rel : Nat → Nat) (s : State) : Kept A s (shareTake rel s) := by
  unfold shareTake
  exact .ite (.refl s) (.updBody _ _ s)

theorem holdLatches_kept (holds : List (Lanes Word)) (s : State) : Kept A s (holdLatches holds s) := by
  unfold holdLatches
  exact .foldl fun _ _ _ _ => (Kept.updWarp (.latches _ _)).trans (.updSplit _ _)

/-- After an access, the reads and the writes of an instruction change what the register files say, where the predicates are as
they were and none is written. -/
theorem written_kept {r : Reading} {qs : List Put} (hpreds : r.preds = r.st.curWarp.reg.p)
    (hfile : ∀ n, ¬ A.names n → AMap.get? (vFile s.curWarp r.names qs).1 n = AMap.get? r.st.curWarp.reg.v n)
    (hputs : ∀ q ∈ qs, PutAllowed A q) : Kept A r.st (written r qs s) := by
  have hregs : Kept A r.st (r.st.updReg fun g => { g with v := (vFile s.curWarp r.names qs).1, p := r.preds }) :=
    .updWarp (.vFile hfile hpreds)
  have hheld := (hregs.trans (shareTake_kept (releases s.curWarp.reg.v (vFile s.curWarp r.names qs).2.1
    (vFile s.curWarp r.names qs).2.2) _)).trans (holdLatches_kept r.holds _)
  exact hheld.trans (.foldl fun q hq t _ => putOther_kept (hputs q hq) t)

/-! ### The end of the instruction -/

theorem addOpRel_kept (afterOut read : Bool) (rel : Option Scope) (s : State) : Kept A s (addOpRel afterOut read rel s) :=
  .updOrd _ s

theorem countedRel_kept (m : Mask) (afterOut : Bool) (rel : Option Scope) (s : State) :
    Kept A s (countedRel m afterOut rel s) := .ite (.refl s) (addOpRel_kept afterOut false rel s)

theorem counted_kept (m : Mask) (afterOut read : Bool) (s : State) : Kept A s (counted m afterOut read s) :=
  .ite (.refl s) (addOpRel_kept afterOut read none s)

theorem advance_kept (s : State) : Kept A s (advance s) := (Kept.updWarp (.latches _ _)).trans (.updSplit _ _)

/-! ### A load's destinations before and after its access -/

/-- The keys of a map after a key has been set. -/
def insertKey : List Nat → Nat → List Nat
  | [], k => [k]
  | j :: t, k => if j < k then j :: insertKey t k else if j = k then k :: t else k :: j :: t

theorem AMap.keys_set {α : Type} (m : AMap α) (k : Nat) (a : α) :
    (AMap.set m k a).map Prod.fst = insertKey (m.map Prod.fst) k := by
  induction m with
  | nil => rfl
  | cons p m ih =>
    obtain ⟨j, b⟩ := p
    rw [AMap.set, List.map_cons, insertKey]
    split
    · rw [List.map_cons, ih]
    · split <;> rfl

theorem AMap.keys_foldl_set {α β : Type} (key : β → Nat) (val : AMap α → β → α) (l : List β) (m : AMap α) :
    (l.foldl (fun v x => AMap.set v (key x) (val v x)) m).map Prod.fst = (l.map key).foldl insertKey (m.map Prod.fst) := by
  induction l generalizing m with
  | nil => rfl
  | cons x l ih => rw [List.foldl_cons, ih, AMap.keys_set, List.map_cons, List.foldl_cons]

theorem vFile_written (w : Warp) (names : List Nat) (qs : List Put) :
    (vFile w names qs).2.2 = (qs.flatMap (Put.names w)).map Prod.fst := by
  unfold vFile
  simp [List.map_flatMap, Function.comp_def]

/-- Which names live after an instruction's reads and writes depends on the names that it writes, not on the values. -/
theorem keys_vFile_congr {w : Warp} {names : List Nat} {qs qs' : List Put}
    (h : qs.flatMap (Put.names w) = qs'.flatMap (Put.names w)) :
    (vFile w names qs).1.map Prod.fst = (vFile w names qs').1.map Prod.fst := by
  have hwritten : (vFile w names qs).2.2 = (vFile w names qs').2.2 := by rw [vFile_written, vFile_written, h]
  have hkeys (l : List Put) : (vFile w names l).1.map Prod.fst = (vFile w names l).2.2.foldl insertKey
      (((decrement w.reg.v names).1.filter fun p => !(decrement w.reg.v names).2.contains p.1).map Prod.fst) :=
    AMap.keys_foldl_set (fun x : Nat × Mask × Put => x.1) _ _ _
  rw [hkeys, hkeys, hwritten]

theorem heldIn_eq (v : AMap Slot) (bank : Nat) :
    heldIn v bank = ((v.map Prod.fst).filter fun n => n % 4 == bank).length := by
  rw [List.filter_map, List.length_map]
  rfl

/-- No s or w register. -/
def NoScalar (q : Put) : Prop := (∀ n, q.op ≠ .s n) ∧ ∀ n, q.op ≠ .w n

theorem forM_ok {ε α : Type} {f : α → Except ε Unit} {l : List α} (h : ∀ a ∈ l, f a = .ok ()) : l.forM f = .ok () := by
  induction l with
  | nil => rfl
  | cons a l ih =>
    exact (bind_ok_eq (h a List.mem_cons_self) _).trans (ih fun b hb => h b (List.mem_cons_of_mem a hb))

/-- Destinations that are no s and no w registers are checked for the reservation alone. -/
theorem putFaults_of_noScalar {qs : List Put} (h : ∀ q ∈ qs, NoScalar q) (v : AMap Slot) :
    putFaults s qs v = trapIf s Kind.reservation (((qs.flatMap (Put.names s.curWarp)).filter fun p =>
      !(s.curWarp.reg.v.any fun x => x.1 == p.1) && decide (s.perBank < heldIn v (p.1 % 4))).foldl
        (fun m p => m ||| p.2) 0) := by
  unfold putFaults
  refine (bind_ok_eq (forM_ok fun q hq => ?_) _).trans ((bind_ok_eq (forM_ok fun q hq => ?_) _).trans rfl)
  all_goals
    obtain ⟨hs, hw⟩ := h q hq
    cases hop : q.op with
    | s n => exact absurd hop (hs n)
    | w n => exact absurd hop (hw n)
    | _ => rfl

/-- The check of such destinations does not depend on the values. -/
theorem destCheck_congr {r : Reading} {qs qs' : List Put} (h : ∀ q ∈ qs, NoScalar q) (h' : ∀ q ∈ qs', NoScalar q)
    (hnames : qs.flatMap (Put.names s.curWarp) = qs'.flatMap (Put.names s.curWarp)) :
    destCheck r qs s = destCheck r qs' s := by
  have hkeys := keys_vFile_congr (names := r.names) hnames
  unfold destCheck
  dsimp only
  rw [putFaults_of_noScalar h, putFaults_of_noScalar h', vFile_written, vFile_written, hnames]
  simp only [heldIn_eq, hkeys]
  rfl

/-! ### Sources and the start of the instruction -/

/-- Sources that are no streams are read with nothing changed. -/
theorem readAll_of_no_stream {g : Guard} {qs : List SrcSpec} {r : Reading} (h : readAll g qs s = .ok r)
    (hz : ∀ q ∈ qs, ∀ n, q.op ≠ .z n) : r.st = s ∧ r.preds = s.curWarp.reg.p := by
  suffices hfrom : ∀ acc : Reading, qs.foldlM (readSrc (s.active g) (readers s.curWarp s.curSplit g) s) acc = .ok r →
      r.st = acc.st ∧ r.preds = acc.preds from hfrom (readStart s) h
  clear h
  induction qs with
  | nil =>
    intro acc h
    cases h
    exact ⟨rfl, rfl⟩
  | cons q qs ih =>
    intro acc h
    rw [List.foldlM_cons] at h
    obtain ⟨acc', hone, h⟩ := bind_eq_ok h
    obtain ⟨-, -, v, st, preds, hfirst, rfl⟩ := readSrc_eq_ok hone
    rw [readFirst_of_ne_z (hz q List.mem_cons_self)] at hfirst
    cases hfirst
    obtain ⟨hst, hpreds⟩ := ih (fun q' hq => hz q' (List.mem_cons_of_mem q hq)) _ h
    exact ⟨hst, hpreds⟩

theorem ne_z_of_gbase {o : Operand} (h : o.gbase = true) (n : Fin 8) : o ≠ .z n := by
  rintro rfl
  exact Bool.false_ne_true h

theorem ne_z_of_bbaseOk {a : Src} (h : a.bbaseOk = true) (n : Fin 8) : a.op ≠ .z n := by
  intro hop
  rw [Src.bbaseOk, hop] at h
  exact Bool.false_ne_true h

theorem ne_z_of_stOk {a : Src} {n : Nat} (h : a.stOk n = true) (k : Fin 8) : a.op ≠ .z k := by
  intro hop
  rw [Src.stOk, hop] at h
  split at h <;> exact Bool.false_ne_true h

theorem memStart_of_counts {g : Guard} {ops : List Operand} (h : checkIssue g ops false s = .ok ()) (hcounts : Counts g s) :
    memStart g ops s = .ok (s.active g) := by
  unfold memStart
  dsimp only
  rw [bind_ok_eq h]
  rcases hcounts with hnone | ⟨hfree, hroom⟩
  · rw [if_pos hnone]
    rfl
  · have hstall : opRoom s = .ok () := by
      unfold opRoom
      rw [decide_eq_false (by omega)]
      rfl
    rw [hfree, hstall]
    exact ite_self _

/-! ### The instructions -/

/-- The state after the reads and writes of an instruction whose access has come to `t`. -/
def writtenAfter (r : Reading) (qs : List Put) (s t : State) : State := written { r with st := t } qs s

section
variable {g : Guard} {d : Dst} {a base : Src} {b : Operand} {r : Reading} {s1 : State}

theorem execLd_of_ready {sz : LdSize} {acq : Option Scope} {off : BitVec 20} {bs : List (List Byte)}
    (h : MemReady g [d.op, b] [{ op := b, n := 2 }] (ldPuts d sz (s.active g) fun _ => []) s r)
    (hload : loadGlobal r.st acq true (laneReqs (s.active g) (ldBytes sz) (gAddr (r.at 0) off)) = .ok (bs, s1))
    (hdests : destCheck r (ldPuts d sz (s.active g) (pickLane (s.active g) bs [])) s = .ok ()) :
    execLd g d sz acq b off s = .next (advance (counted (s.active g) false true
      (writtenAfter r (ldPuts d sz (s.active g) (pickLane (s.active g) bs [])) s s1))) := by
  have hsources : readAll g [baseSpec b] s = .ok r := h.ready.sources
  unfold execLd
  dsimp only
  rw [bind_ok_eq (memStart_of_counts h.ready.issue h.counts), bind_ok_eq hsources, bind_ok_eq h.ready.dests, bind_ok_eq hload]
  exact congrArg (finish · s) (bind_ok_eq (commit_ok (r := { r with st := s1 }) hdests) _)

theorem mem_laneReqs {m : Mask} {n : Nat} {addr : Fin 32 → DWord} {q : Req} (h : q ∈ laneReqs m n addr) :
    ∃ l, has m l = true ∧ q = ⟨one_ l, addr l, n⟩ := by
  obtain ⟨l, hl, rfl⟩ := List.mem_map.mp h
  exact ⟨l, (mem_lanesOf m l).mp hl, rfl⟩

theorem execLdc_of_ready {sz : LdSize} {off : BitVec 20}
    (h : MemReady g [d.op, base.op] [srcI base] (ldPuts d sz (s.active g) fun _ => []) s r)
    (haddr : ∀ l : Fin 32, has (s.active g) l = true → (bAddr (r.at 0) off l).toNat % ldBytes sz = 0 ∧
      (bAddr (r.at 0) off l).toNat + ldBytes sz ≤ 65536)
    (hdests : destCheck r (ldPuts d sz (s.active g) fun l =>
      s.curLaunch.bank.readN (bAddr (r.at 0) off l).toNat (ldBytes sz)) s = .ok ()) :
    execLdc g d sz base off s = .next (advance (counted (s.active g) false true (writtenAfter r
      (ldPuts d sz (s.active g) fun l => s.curLaunch.bank.readN (bAddr (r.at 0) off l).toNat (ldBytes sz)) s r.st))) := by
  have haligned : misalignedOf (laneReqs (s.active g) (ldBytes sz) (bAddr (r.at 0) off)) = [] := by
    refine List.map_eq_nil_iff.mpr (List.filter_eq_nil_iff.mpr fun q hq => ?_)
    obtain ⟨l, hl, rfl⟩ := mem_laneReqs hq
    simp [(haddr l hl).1]
  have hinside : ((laneReqs (s.active g) (ldBytes sz) (bAddr (r.at 0) off)).filter fun q =>
      decide (65536 < q.va.toNat + q.n)) = [] := by
    refine List.filter_eq_nil_iff.mpr fun q hq => ?_
    obtain ⟨l, hl, rfl⟩ := mem_laneReqs hq
    simp [(haddr l hl).2]
  unfold execLdc
  dsimp only
  rw [bind_ok_eq (memStart_of_counts h.ready.issue h.counts), bind_ok_eq h.ready.sources, bind_ok_eq h.ready.dests, haligned,
    hinside, List.map_nil, bind_ok_eq (failWith_nil _ _ _), bind_ok_eq (failWith_nil _ _ _), bind_ok_eq (commit_ok hdests)]
  rfl

theorem execSt_of_ready {sz : StSize} {rel : Option Scope} {off : BitVec 20}
    (h : MemReady g [a.op, b] [{ op := b, n := 2 }, { op := a.op, hold := a.hold, n := stRegs sz }] [] s r)
    (hstore : storeGlobal r.st rel (laneReqs (s.active g) (stBytes sz) (gAddr (r.at 0) off))
      ((lanesOf (s.active g)).map fun l => stData sz (r.at 1) l) = .ok s1) :
    execSt g a sz rel b off s = .next (advance (countedRel (s.active g) (rel.any fun x => decide (3 ≤ scopeNo x))
      (laterRel s rel) (writtenAfter r [] s s1))) := by
  have hsources : readAll g [baseSpec b, dataSpec a sz] s = .ok r := h.ready.sources
  unfold execSt
  rw [bind_ok_eq (memStart_of_counts h.ready.issue h.counts), bind_ok_eq hsources, bind_ok_eq h.ready.dests, bind_ok_eq hstore]
  exact congrArg (finish · s) (bind_ok_eq (commit_ok (r := { r with st := s1 }) h.ready.dests) _)

/-- A non-temporal store keeps an item for each request in its core. -/
def ntStored (s t : State) (gs : List Got) (data : List (List Byte)) : State :=
  let items := (gs.zip data).map fun p =>
    (⟨s.cur.blk, s.cur.warp, p.1.pa, p.1.req.va, at_ p.1.pa p.2, s.instant⟩ : NtItem)
  wrote (t.updBody s.curCore fun k => { k with nt := k.nt ++ items })

theorem execStnt_of_ready {sz : StSize} {off : BitVec 20} {gs : List Got}
    (h : MemReady g [a.op, b] [{ op := b, n := 2 }, { op := a.op, hold := a.hold, n := stRegs sz }] [] s r)
    (hcheck : globalCheck r.st .write false true (laneReqs (s.active g) (stBytes sz) (gAddr (r.at 0) off)) = .ok (gs, s1)) :
    execStnt g a sz b off s = .next (advance (counted (s.active g) false false (writtenAfter r [] s
      (ntStored s s1 gs ((lanesOf (s.active g)).map fun l => stData sz (r.at 1) l))))) := by
  have hsources : readAll g [baseSpec b, dataSpec a sz] s = .ok r := h.ready.sources
  have hcommit : commit { r with st := ntStored s s1 gs ((lanesOf (s.active g)).map fun l => stData sz (r.at 1) l) } [] s =
      .ok _ := commit_ok h.ready.dests
  unfold execStnt
  dsimp only
  rw [bind_ok_eq (memStart_of_counts h.ready.issue h.counts), bind_ok_eq hsources, bind_ok_eq h.ready.dests, bind_ok_eq hcheck]
  exact congrArg (finish · s) (bind_ok_eq hcommit _)

theorem execStb_of_ready {sz : StSize} {buf : Buf} {off : BitVec 20}
    (h : MemReady g [a.op, base.op] [srcI base, { op := a.op, hold := a.hold, n := stRegs sz }] [] s r)
    (hstore : storeBuf r.st (buf == .cbuf) (laneReqs (s.active g) (stBytes sz) (bAddr (r.at 0) off))
      ((lanesOf (s.active g)).map fun l => stData sz (r.at 1) l) = .ok s1) :
    execStb g a sz buf base off s =
      .next (advance (counted (s.active g) false false (writtenAfter r [] s s1))) := by
  have hsources : readAll g [srcI base, dataSpec a sz] s = .ok r := h.ready.sources
  unfold execStb
  rw [bind_ok_eq (memStart_of_counts h.ready.issue h.counts), bind_ok_eq hsources, bind_ok_eq h.ready.dests, bind_ok_eq hstore]
  exact congrArg (finish · s) (bind_ok_eq (commit_ok (r := { r with st := s1 }) h.ready.dests) _)

end

/-! ### Frames -/

/-- The v names that an instruction reads or writes. -/
def namesTouched (r : Reading) (qs : List Put) (w : Warp) (n : Nat) : Prop :=
  n ∈ r.names ∨ n ∈ (qs.flatMap (Put.names w)).map Prod.fst

theorem untouched {r : Reading} {qs : List Put} {w : Warp} {n : Nat} :
    ¬ namesTouched r qs w n ↔ n ∉ r.names ∧ ∀ q ∈ qs, ∀ x ∈ q.names w, x.1 ≠ n := by
  unfold namesTouched
  simp only [not_or, List.mem_map, List.mem_flatMap, not_exists, not_and, and_imp, forall_exists_index]
  exact and_congr_right fun _ => ⟨fun h q hq x hx => h x q hq hx, fun h x q hq hx => h q hq x hx⟩

/-- After an access that keeps, an instruction that reads no stream and writes no predicate changes the names that it touches. -/
theorem writtenAfter_kept {B : Changes} {r : Reading} {qs : List Put} (haccess : Kept B s t)
    (hread : r.preds = s.curWarp.reg.p) (hnames : ∀ n, ¬ A.names n → ¬ B.names n ∧ ¬ namesTouched r qs s.curWarp n)
    (hputs : ∀ q ∈ qs, PutAllowed A q) : Kept A t (writtenAfter r qs s t) := by
  refine written_kept (r := { r with st := t }) (hread.trans haccess.warp.p.symm) (fun n hn => ?_) hputs
  obtain ⟨hkept, htouched⟩ := hnames n hn
  obtain ⟨hunread, hunwritten⟩ := untouched.mp htouched
  exact (get?_vFile_other hunread hunwritten).trans (haccess.warp.v n hkept).symm

/-- The whole of an instruction whose access keeps. -/
theorem completed_kept {r : Reading} {qs : List Put} (m : Mask) (afterOut read : Bool) (haccess : Kept A s t)
    (hread : r.preds = s.curWarp.reg.p) (hnames : ∀ n, ¬ A.names n → ¬ namesTouched r qs s.curWarp n)
    (hputs : ∀ q ∈ qs, PutAllowed A q) : Kept A s (advance (counted m afterOut read (writtenAfter r qs s t))) :=
  ((haccess.trans (writtenAfter_kept haccess hread (fun n hn => ⟨hn, hnames n hn⟩) hputs)).trans
    (counted_kept m afterOut read _)).trans (advance_kept _)

theorem Kept.memFrame (h : Kept A s t) (hA : ¬ A.buffers) : MemFrame s t where
  mem a := congrArg (Mem.read · a) h.mem
  now := h.now
  cur := h.cur
  blocks := h.blocks hA
  launches := h.launches
  contexts := h.contexts
  msgs := h.msgs
  colls := h.colls
  abuf := h.block.abuf hA
  cbuf := h.block.cbuf hA
  wbuf := h.block.wbuf
  eng := h.block.eng
  warps := h.block.warps
  lane := h.warp.lane
  trap := h.warp.trap
  splits := h.warp.splits
  p := h.warp.p
  x := h.warp.x
  z := h.warp.z
  k := h.warp.k
  ren := h.warp.ren
  elect := h.warp.elect

theorem Kept.scalars (h : Kept A s t) (hA : ∀ n, ¬ A.scalars n) : t.curWarp.reg.s = s.curWarp.reg.s :=
  Vector.ext fun i hi => h.warp.s ⟨i, hi⟩ (hA _)

/-! ### Loads -/

theorem op_of_mem_ldPuts {d : Dst} {sz : LdSize} {m : Mask} {f : Fin 32 → List Byte} {q : Put} (h : q ∈ ldPuts d sz m f) :
    ∃ i, q.op = nextReg d.op i := by
  obtain ⟨i, -, rfl⟩ := List.mem_map.mp h
  exact ⟨i, rfl⟩

/-- The names of a load's destinations do not depend on what it reads. -/
theorem names_ldPuts (d : Dst) (sz : LdSize) (m : Mask) (f f' : Fin 32 → List Byte) (w : Warp) :
    (ldPuts d sz m f).flatMap (Put.names w) = (ldPuts d sz m f').flatMap (Put.names w) := by
  simp only [ldPuts, List.flatMap_map, Put.names]

theorem nextReg_of_vmz {o : Operand} (h : o.vmz = true) (i : Nat) :
    (∀ n, nextReg o i ≠ .s n) ∧ (∀ n, nextReg o i ≠ .w n) ∧ ∀ n, nextReg o i ≠ .p n := by
  cases o with
  | v | m | zero => exact ⟨nofun, nofun, nofun⟩
  | _ => exact absurd h Bool.false_ne_true

theorem nextReg_of_ldcDst {o : Operand} (h : o.ldcDst = true) (i : Nat) : ∀ n, nextReg o i ≠ .p n := by
  cases o with
  | v | s | w | m | zero => exact nofun
  | _ => exact absurd h Bool.false_ne_true

theorem ldOk_class {d : Dst} {n : Nat} {cls : Operand → Bool} (h : d.ldOk n cls = true) : cls d.op = true := by
  unfold Dst.ldOk at h
  rw [Bool.and_eq_true, Bool.and_eq_true] at h
  exact h.1.2

theorem ld_frame {g : Guard} {d : Dst} {sz : LdSize} {acq : Option Scope} {b : Operand} {off : BitVec 20} {r : Reading}
    {bs : List (List Byte)} {s1 : State} (hwf : (Instr.ld g d sz acq b off).wf = true)
    (h : MemReady g [d.op, b] [{ op := b, n := 2 }] (ldPuts d sz (s.active g) fun _ => []) s r)
    (hload : loadGlobal r.st acq true (laneReqs (s.active g) (ldBytes sz) (gAddr (r.at 0) off)) = .ok (bs, s1)) :
    ∃ t, exec (.ld g d sz acq b off) s = .next t ∧
      Kept { names := namesTouched r (ldPuts d sz (s.active g) fun _ => []) s.curWarp, lines := True } s t := by
  simp only [Instr.wf, Bool.and_eq_true] at hwf
  obtain ⟨⟨-, hdst⟩, hbase⟩ := hwf
  have hclass := nextReg_of_vmz (ldOk_class hdst)
  have hscalar (f : Fin 32 → List Byte) : ∀ q ∈ ldPuts d sz (s.active g) f, NoScalar q := by
    intro q hq
    obtain ⟨i, hop⟩ := op_of_mem_ldPuts hq
    exact ⟨hop ▸ (hclass i).1, hop ▸ (hclass i).2.1⟩
  obtain ⟨hst, hpreds⟩ := readAll_of_no_stream h.ready.sources fun q hq => by
    rw [List.mem_singleton.mp hq]
    exact ne_z_of_gbase hbase
  have hnames := names_ldPuts d sz (s.active g) (fun _ => []) (pickLane (s.active g) bs []) s.curWarp
  have haccess : Kept { names := namesTouched r (ldPuts d sz (s.active g) fun _ => []) s.curWarp, lines := True } s s1 :=
    loadGlobal_kept trivial (hst ▸ hload)
  have hdests := (destCheck_congr (r := r) (hscalar _) (hscalar _) hnames).symm.trans h.ready.dests
  refine ⟨_, execLd_of_ready h hload hdests, completed_kept _ _ _ haccess hpreds (fun n hn => ?_) fun q hq => ?_⟩
  · unfold namesTouched
    rw [← hnames]
    exact hn
  · obtain ⟨i, hop⟩ := op_of_mem_ldPuts hq
    exact ⟨hop ▸ (hclass i).2.2, fun n hn => absurd hn ((hscalar _ q hq).1 n)⟩

theorem ldc_frame {g : Guard} {d : Dst} {sz : LdSize} {base : Src} {off : BitVec 20} {r : Reading}
    (hwf : (Instr.ldc g d sz base off).wf = true)
    (h : MemReady g [d.op, base.op] [srcI base] (ldPuts d sz (s.active g) fun _ => []) s r)
    (haddr : ∀ l : Fin 32, has (s.active g) l = true → (bAddr (r.at 0) off l).toNat % ldBytes sz = 0 ∧
      (bAddr (r.at 0) off l).toNat + ldBytes sz ≤ 65536) :
    let puts := ldPuts d sz (s.active g) fun l => s.curLaunch.bank.readN (bAddr (r.at 0) off l).toNat (ldBytes sz)
    destCheck r puts s = .ok () → ∃ t, exec (.ldc g d sz base off) s = .next t ∧
      Kept { names := namesTouched r puts s.curWarp, scalars := fun n => ∃ q ∈ puts, q.op = .s n } s t := by
  intro puts hdests
  simp only [Instr.wf, Bool.and_eq_true] at hwf
  obtain ⟨⟨-, hdst⟩, hbase⟩ := hwf
  obtain ⟨hst, hpreds⟩ := readAll_of_no_stream h.ready.sources fun q hq => by
    rw [List.mem_singleton.mp hq]
    exact ne_z_of_bbaseOk hbase
  have haccess : Kept { names := namesTouched r puts s.curWarp, scalars := fun n => ∃ q ∈ puts, q.op = .s n } s r.st := by
    rw [hst]
    exact .refl s
  refine ⟨_, execLdc_of_ready h haddr hdests,
    completed_kept _ _ _ haccess hpreds (fun n hn => hn) fun q hq => ⟨?_, fun n hn => ⟨q, hq, hn⟩⟩⟩
  obtain ⟨i, hop⟩ := op_of_mem_ldPuts hq
  exact hop ▸ nextReg_of_ldcDst (ldOk_class hdst) i

/-! ### Stores -/

/-- A store reads its address and its data, neither from a stream. -/
theorem store_reads {g : Guard} {q : SrcSpec} {a : Src} {n k : Nat} {r : Reading}
    (h : readAll g [q, { op := a.op, hold := a.hold, n := n }] s = .ok r) (hq : ∀ z, q.op ≠ .z z) (ha : a.stOk k = true) :
    r.st = s ∧ r.preds = s.curWarp.reg.p := by
  refine readAll_of_no_stream h fun p hp => ?_
  rcases List.mem_pair.mp hp with rfl | rfl
  · exact hq
  · exact ne_z_of_stOk ha

theorem namesTouched_of_read {r : Reading} {w : Warp} (n : Nat) (h : ¬ n ∈ r.names) : ¬ namesTouched r [] w n :=
  untouched.mpr ⟨h, List.forall_mem_nil _⟩

theorem st_frame {g : Guard} {a : Src} {sz : StSize} {rel : Option Scope} {b : Operand} {off : BitVec 20} {r : Reading}
    {s1 : State} (hwf : (Instr.st g a sz rel b off).wf = true)
    (h : MemReady g [a.op, b] [{ op := b, n := 2 }, { op := a.op, hold := a.hold, n := stRegs sz }] [] s r)
    (hstore : storeGlobal r.st rel (laneReqs (s.active g) (stBytes sz) (gAddr (r.at 0) off))
      ((lanesOf (s.active g)).map fun l => stData sz (r.at 1) l) = .ok s1) :
    ∃ t, exec (.st g a sz rel b off) s = .next t ∧
      Kept { names := (· ∈ r.names), inflight := True, lagers := True } s t := by
  simp only [Instr.wf, Bool.and_eq_true] at hwf
  obtain ⟨⟨-, hdata⟩, hbase⟩ := hwf
  obtain ⟨hst, hpreds⟩ := store_reads h.ready.sources (ne_z_of_gbase hbase) hdata
  have haccess : Kept { names := (· ∈ r.names), inflight := True, lagers := True } s s1 :=
    storeGlobal_kept trivial trivial (hst ▸ hstore)
  have hwritten := haccess.trans (writtenAfter_kept haccess hpreds (fun n hn => ⟨hn, namesTouched_of_read n hn⟩)
    (List.forall_mem_nil _))
  exact ⟨_, execSt_of_ready h hstore, (hwritten.trans (countedRel_kept _ _ _ _)).trans (advance_kept _)⟩

theorem stnt_frame {g : Guard} {a : Src} {sz : StSize} {b : Operand} {off : BitVec 20} {r : Reading} {gs : List Got}
    {s1 : State} (hwf : (Instr.stnt g a sz b off).wf = true)
    (h : MemReady g [a.op, b] [{ op := b, n := 2 }, { op := a.op, hold := a.hold, n := stRegs sz }] [] s r)
    (hcheck : globalCheck r.st .write false true (laneReqs (s.active g) (stBytes sz) (gAddr (r.at 0) off)) = .ok (gs, s1)) :
    ∃ t, exec (.stnt g a sz b off) s = .next t ∧ Kept { names := (· ∈ r.names) } s t := by
  simp only [Instr.wf, Bool.and_eq_true] at hwf
  obtain ⟨⟨-, hdata⟩, hbase⟩ := hwf
  obtain ⟨hst, hpreds⟩ := store_reads h.ready.sources (ne_z_of_gbase hbase) hdata
  exact ⟨_, execStnt_of_ready h hcheck, completed_kept _ _ _ (storeNt_kept _ _ (hst ▸ hcheck)) hpreds
    namesTouched_of_read (List.forall_mem_nil _)⟩

theorem memoryInstructionFrame : Clause.MemoryInstructionFrame := by
  refine ⟨?ld, ?ldc, ?st, ?stnt⟩
  case ld =>
    intro g d sz acq base off s r bs s1 b w sp hwf hissues h hload
    obtain ⟨t, hexec, hkept⟩ := ld_frame hwf h hload
    rw [← hissues.curWarp]
    exact ⟨t, hexec, hkept.memFrame id, hkept.inflight id, hkept.lagers id, hkept.scalars fun _ => id, hkept.warp.nstat,
      fun n hread hwrite => hkept.warp.v n (untouched.mpr ⟨hread, hwrite⟩)⟩
  case ldc =>
    intro g d sz base off s r b w sp hwf hissues addr puts h haddr hdests
    obtain ⟨t, hexec, hkept⟩ := ldc_frame hwf h haddr hdests
    rw [← hissues.curWarp]
    exact ⟨t, hexec, hkept.memFrame id, hkept.lines id, hkept.inflight id, hkept.lagers id, hkept.warp.nstat,
      fun n hn => hkept.warp.s n fun ⟨q, hq, hop⟩ => hn q hq hop,
      fun n hread hwrite => hkept.warp.v n (untouched.mpr ⟨hread, hwrite⟩)⟩
  case st =>
    intro g a sz rel base off s r s1 b w sp hwf hissues h hstore
    obtain ⟨t, hexec, hkept⟩ := st_frame hwf h hstore
    rw [← hissues.curWarp]
    exact ⟨t, hexec, hkept.memFrame id, hkept.lines id, hkept.scalars fun _ => id, hkept.warp.nstat, hkept.warp.v⟩
  case stnt =>
    intro g a sz base off s r gs s1 b w sp hwf hissues h hcheck
    obtain ⟨t, hexec, hkept⟩ := stnt_frame hwf h hcheck
    rw [← hissues.curWarp]
    exact ⟨t, hexec, hkept.memFrame id, hkept.lines id, hkept.inflight id, hkept.scalars fun _ => id, hkept.warp.nstat,
      hkept.warp.v⟩

/-! ### Stores to typed buffers -/

theorem length_toLe (n x : Nat) : (toLe n x).length = n := by
  induction n generalizing x with
  | zero => rfl
  | succ n ih => rw [toLe, List.length_cons, ih]

/-- STB's store changes buffers; what follows it does not. -/
theorem bufferStoreFrame : Clause.BufferStoreFrame := by
  intro g a sz buf base off s r s1 b w sp hwf hissues h hstore
  simp only [Instr.wf, Bool.and_eq_true] at hwf
  obtain ⟨⟨-, hdata⟩, hbase⟩ := hwf
  obtain ⟨hst, hpreds⟩ := store_reads h.ready.sources (ne_z_of_bbaseOk hbase) hdata
  have hexec := execStb_of_ready h hstore
  rw [hst] at hstore
  have hstored : Kept { names := (· ∈ r.names), inflight := True, lagers := True, buffers := True } s s1 :=
    storeBuf_kept trivial trivial trivial hstore
  have hkept := completed_kept (s.active g) false false hstored hpreds namesTouched_of_read (List.forall_mem_nil _)
  have hwritten := writtenAfter_kept (A := { names := (· ∈ r.names) }) hstored hpreds
    (fun n hn => ⟨hn, namesTouched_of_read n hn⟩) (List.forall_mem_nil _)
  have hafter := (hwritten.trans (counted_kept (s.active g) false false _)).trans (advance_kept _)
  rw [← hissues.curWarp]
  refine ⟨_, hexec, fun x => congrArg (Mem.read · x) hkept.mem, fun u c x hx => ?_, hkept.scalars fun _ => id,
    hkept.warp.p, hkept.warp.nstat, hkept.warp.lane, hkept.launches, hkept.contexts⟩
  exact (congrArg (fun b : Buffer => b.data.read x) (hafter.buf id u c)).trans
    (storeBuf_read (fun l => length_toLe _ _) hstore hx)

/-- Settles O28: the steps of each instruction keep what its kind may not change, and a store to a buffer writes the bytes that
its requests name. -/
theorem memoryFrames : Obligations.MemoryFrames := ⟨memoryInstructionFrame, bufferStoreFrame⟩

end Sys2Proof.Machine
end

section
/-!
PROOFS. What an atomic does to a word, lane after lane (R275, R277, R281).
-/

namespace Sys2Proof.Machine

/-! ### The new value of a word (R275, R281) -/

theorem lesser_signed (a b : Word) : lesser false a b = if a.toInt ≤ b.toInt then a else b := by
  by_cases h : a.toInt ≤ b.toInt
  · simp [lesser, BitVec.slt, h, Int.not_lt.mpr h]
  · simp [lesser, BitVec.slt, h, Int.not_le.mp h]

theorem lesser_unsigned (a b : Word) : lesser true a b = if a.toNat ≤ b.toNat then a else b := by
  by_cases h : a.toNat ≤ b.toNat
  · simp [lesser, BitVec.ult, h, Nat.not_lt.mpr h]
  · simp [lesser, BitVec.ult, h, Nat.not_le.mp h]

theorem greater_signed (a b : Word) : greater false a b = if b.toInt ≤ a.toInt then a else b := by
  by_cases h : b.toInt ≤ a.toInt
  · simp [greater, BitVec.slt, h, Int.not_lt.mpr h]
  · simp [greater, BitVec.slt, h, Int.not_le.mp h]

theorem greater_unsigned (a b : Word) : greater true a b = if b.toNat ≤ a.toNat then a else b := by
  by_cases h : b.toNat ≤ a.toNat
  · simp [greater, BitVec.ult, h, Nat.not_lt.mpr h]
  · simp [greater, BitVec.ult, h, Nat.not_le.mp h]

theorem atomicNewValues : Clause.AtomicNewValues := by
  intro old x cmp
  refine ⟨?add, rfl, (lesser_signed old x).symm, (lesser_unsigned old x).symm, (greater_signed old x).symm,
    (greater_unsigned old x).symm, rfl, rfl, rfl, rfl, ?inc, rfl⟩
  case add => rw [BitVec.ofNat_add, BitVec.ofNat_toNat, BitVec.ofNat_toNat, BitVec.setWidth_eq, BitVec.setWidth_eq]; rfl
  case inc =>
    rw [BitVec.ofNat_add, BitVec.ofNat_toNat, BitVec.setWidth_eq]
    rfl

/-! ### Lanes in order (R277) -/

/-- What lanes that name one word make of it in turn. -/
def atomRun (op : Option AtomOp) (w : Word) (xs : List (Fin 32 × Word × Word)) : Word :=
  xs.foldl (fun w x => (atomStep op w x.2.1 x.2.2).1) w

theorem atomRun_append_singleton (op : Option AtomOp) (w : Word) (xs : List (Fin 32 × Word × Word)) (x : Fin 32 × Word × Word) :
    atomRun op w (xs ++ [x]) = (atomStep op (atomRun op w xs) x.2.1 x.2.2).1 := List.foldl_append

/-- The lanes of an atomic that name the word at `a`, as `atomFold` takes them. -/
def onWord (a : Nat) (xs : List (Fin 32 × Word × Word)) : List (Fin 32 × Nat × Word × Word) :=
  xs.map fun x => (x.1, a, x.2.1, x.2.2)

section
variable (op : Option AtomOp) (start : Nat → Word) (a : Nat)

/-- One lane more: it takes the word as the lanes before it have left it. -/
theorem atomFold_append_singleton (xs : List (Fin 32 × Word × Word)) (x : Fin 32 × Word × Word) :
    let run := atomFold op start (onWord a xs)
    let old := AMap.getD run.2.1 a (start a)
    (atomFold op start (onWord a (xs ++ [x]))).1 = run.1 ++ [(x.1, old)] ∧
      (atomFold op start (onWord a (xs ++ [x]))).2.1 = AMap.set run.2.1 a (atomStep op old x.2.1 x.2.2).1 := by
  simp only [atomFold, onWord, List.map_append, List.foldl_append]
  exact ⟨rfl, rfl⟩

/-- The word after lanes that name it, where it is kept once one has, is what they make of it. -/
theorem getD_atomFold (xs : List (Fin 32 × Word × Word)) :
    AMap.getD (atomFold op start (onWord a xs)).2.1 a (start a) = atomRun op (start a) xs := by
  induction xs using List.reverseRecOn with
  | nil => rfl
  | append_singleton xs x ih =>
    rw [(atomFold_append_singleton op start a xs x).2, AMap.getD_set_same, ih, atomRun_append_singleton]

theorem get?_atomFold {xs : List (Fin 32 × Word × Word)} (h : xs ≠ []) :
    AMap.get? (atomFold op start (onWord a xs)).2.1 a = some (atomRun op (start a) xs) := by
  obtain ⟨ys, y, rfl⟩ := (List.eq_nil_or_concat' xs).resolve_left h
  rw [(atomFold_append_singleton op start a ys y).2, AMap.get?_set_same, getD_atomFold, atomRun_append_singleton]

/-- Each lane's old value is what the lanes before it have made of the word. -/
theorem atomFold_olds (xs : List (Fin 32 × Word × Word)) :
    (atomFold op start (onWord a xs)).1 = xs.zipIdx.map fun x => (x.1.1, atomRun op (start a) (xs.take x.2)) := by
  induction xs using List.reverseRecOn with
  | nil => rfl
  | append_singleton xs x ih =>
    have hbefore : ∀ y ∈ xs.zipIdx, (xs ++ [x]).take y.2 = xs.take y.2 := fun y hy =>
      List.take_append_of_le_length (List.snd_lt_of_mem_zipIdx hy).le
    rw [(atomFold_append_singleton op start a xs x).1, ih, getD_atomFold, List.zipIdx_append, List.map_append]
    refine congrArg₂ (· ++ ·) (List.map_congr_left fun y hy => ?_) ?_
    · rw [hbefore y hy]
    · simp

end

/-- Settles O29: the operations by their definitions, and the lanes in their order by induction on the lanes. -/
theorem atomicSemantics : Obligations.AtomicSemantics :=
  ⟨atomicNewValues, fun op start a xs => ⟨atomFold_olds op start a xs, fun h =>
    (get?_atomFold op start a h).trans (by simp only [List.take_length]; rfl)⟩⟩

end Sys2Proof.Machine
end

section
/-!
PROOFS. What a plain store with lagering on leaves in the core (R267, R464), and what the loads come to (R262, R269 to R272).
-/

namespace Sys2Proof.Machine

/-! ### A plain store with lagering on (R267, R464) -/

section
variable {s t s1 : State} {rs : List Req} {data : List (List Byte)} {gs : List Got}

/-- What a plain store sends out. -/
def plainStoreItem (s : State) (rs : List Req) (gs : List Got) (data : List (List Byte)) : OutItem :=
  s.outItem (.store (((storeBytes gs data).head?.map Prod.fst).getD 0) (storeBytes gs data)) none none
    ((rs.head?.map fun r => r.va).getD 0)

/-- A plain store that makes a request sends one item, behind what its own undrained data lose by it. -/
theorem storeGlobal_plain_eq_ok (h : storeGlobal s none rs data = .ok t)
    (hcheck : globalCheck s .write false true rs = .ok (gs, s1)) (hsome : rs ≠ []) :
    t = wrote (emit s.curLaunch.lagers s.curCore (plainStoreItem s rs gs data) (overNt (storeBytes gs data) s1)) := by
  unfold storeGlobal at h
  rw [bind_ok_eq hcheck] at h
  obtain ⟨_, -, h⟩ := bind_eq_ok h
  obtain ⟨_, -, h⟩ := bind_eq_ok h
  cases h
  rw [List.isEmpty_eq_false_iff.mpr hsome]
  rfl

/-- The item goes to the end of the lager buffer. -/
theorem lager_of_plain_store (c : Nat) (o : OutItem) (l : List (Nat × Byte)) (s : State) :
    ((wrote (emit true c o (overNt l s))).core c).lager = ((overNt l s).core c).lager ++ [o] :=
  congrArg CoreState.lager (State.core_updCore_same (overNt l s) c fun k => { k with lager := k.lager ++ [o] })

theorem overNt_lager (l : List (Nat × Byte)) (s : State) (c : Nat) : ((overNt l s).core c).lager = (s.core c).lager :=
  (overNt_kept (A := {}) l s).lagers id c

theorem storeGlobal_mem {rel : Option Scope} (h : storeGlobal s rel rs data = .ok t) : t.mem = s.mem :=
  (storeGlobal_kept (A := { lagers := True, inflight := True }) trivial trivial h).mem

end

/-- Settles O27: the store's item, put at the end of the lager buffer, is all that it leaves there. -/
theorem storeWaitsInLagerBuffer : Obligations.StoreWaitsInLagerBuffer := by
  intro s rs data t gs s1 hstore hcheck hsome hlagers
  refine ⟨fun a => congrArg (Mem.read · a) (storeGlobal_mem hstore), plainStoreItem s rs gs data, ?_, rfl, rfl, rfl, _, rfl⟩
  rw [storeGlobal_plain_eq_ok hstore hcheck hsome, hlagers, lager_of_plain_store, overNt_lager]

/-! ### Loads (R262, R269 to R272) -/

section
variable {g : Guard} {d : Dst} {a base : Src} {b : Operand} {r : Reading} {s s1 : State}

theorem execLds_of_ready {d : Operand} {sz : LdSize} {acq : Option Scope} {off : BitVec 20} {bs : List (List Byte)}
    (h : MemReady g [d, b] [{ op := b, n := 2, uni := true }] (ldPuts ⟨d, 0⟩ sz (s.active g) fun _ => []) s r)
    (hload : loadGlobal r.st acq true (uniReq (s.active g) (ldBytes sz)
      (gAddr (r.at 0) off ((lowest (s.active g)).getD 0))) = .ok (bs, s1))
    (hdests : destCheck r (ldPuts ⟨d, 0⟩ sz (s.active g) fun _ => bs.head?.getD []) s = .ok ()) :
    execLds g d sz acq b off s = .next (advance (counted (s.active g) false true
      (writtenAfter r (ldPuts ⟨d, 0⟩ sz (s.active g) fun _ => bs.head?.getD []) s s1))) := by
  have hsources : readAll g [{ baseSpec b with uni := true }] s = .ok r := h.ready.sources
  have hpre : destCheck r (ldPuts (dst0 d) sz (s.active g) fun _ => []) s = .ok () := h.ready.dests
  unfold execLds
  dsimp only
  rw [bind_ok_eq (memStart_of_counts h.ready.issue h.counts), bind_ok_eq hsources, bind_ok_eq hpre, bind_ok_eq hload]
  exact congrArg (finish · s) (bind_ok_eq (commit_ok (r := { r with st := s1 }) hdests) _)

theorem execLdb_of_ready {sz : LdSize} {buf : Buf} {off : BitVec 20} {bs : List (List Byte)}
    (h : MemReady g [d.op, base.op] [srcI base] (ldPuts d sz (s.active g) fun _ => []) s r)
    (hload : loadBuf r.st (buf == .cbuf) true (laneReqs (s.active g) (ldBytes sz) (bAddr (r.at 0) off)) = .ok (bs, s1))
    (hdests : destCheck r (ldPuts d sz (s.active g) (pickLane (s.active g) bs [])) s = .ok ()) :
    execLdb g d sz buf base off s = .next (advance (counted (s.active g) false true
      (writtenAfter r (ldPuts d sz (s.active g) (pickLane (s.active g) bs [])) s s1))) := by
  unfold execLdb
  dsimp only
  rw [bind_ok_eq (memStart_of_counts h.ready.issue h.counts), bind_ok_eq h.ready.sources, bind_ok_eq h.ready.dests,
    bind_ok_eq hload]
  exact congrArg (finish · s) (bind_ok_eq (commit_ok (r := { r with st := s1 }) hdests) _)

/-- The block that LDBQ decodes out of the bytes read (R272). -/
def ldbqBlock (c8 : Bool) (bs : List (List Byte)) : List FVal × Bool :=
  decodeBlock c8 (bs.flatten[0]?.getD 0).toNat (bs.flatten[1]?.getD 0).toNat (bs.flatten.drop 2)

/-- The element that a lane takes, as FP32. -/
def ldbqElement (hi : Bool) (rm : Rm) (blk : List FVal × Bool) : Lanes (Word × Flags) :=
  tab fun l => toF32 rm (blk.1[2 * l.val + if hi then 1 else 0]?.getD (.fin false 0 0))

/-- The bytes of the block that LDBQ reads at an address. -/
def ldbqLoad (s : State) (m : Mask) (abuf c8 : Bool) (a : DWord) : Except Stop (List (List Byte) × State) :=
  let n := if c8 then 66 else 34
  if abuf then loadBuf s false false (uniReq m n a)
  else loadGlobal s none false (if m = 0 then [] else (List.range n).map fun i => ⟨m, a + BitVec.ofNat 64 i, 1⟩)

/-- LDBQ's address: that of the lowest active lane. -/
def ldbqAddr (abuf : Bool) (m : Mask) (r : Reading) (off : BitVec 20) : DWord :=
  let l0 := (lowest m).getD 0
  if abuf then bAddr (r.at 0) off l0 else gAddr (r.at 0) off l0

/-- The events of LDBQ: those of the conversions of its active lanes, and a block that is malformed. -/
def ldbqEvents (m : Mask) (hi : Bool) (rm : Rm) (blk : List FVal × Bool) : Flags :=
  (flagsOn m fun l => ((ldbqElement hi rm blk)[l]).2).or { fmterr := blk.2 }

def ldbqPut (d : Dst) (m : Mask) (hi : Bool) (rm : Rm) (blk : List FVal × Bool) : Put :=
  putOf d m (tab fun l => ((ldbqElement hi rm blk)[l]).1)

theorem execLdbq_of_ready {c8 hi strict abuf : Bool} {rm : Rm} {off : BitVec 20} {bs : List (List Byte)}
    (h : MemReady g [d.op, base.op] [if abuf then srcU base else { op := base.op, n := 2, uni := true }]
      [putOf d (s.active g) (splat 0)] s r)
    (hload : ldbqLoad r.st (s.active g) abuf c8 (ldbqAddr abuf (s.active g) r off) = .ok (bs, s1))
    (hstrict : (ldbqBlock c8 bs).2 = true → strict = true → s.active g = 0)
    (hdests : destCheck r [ldbqPut d (s.active g) hi rm (ldbqBlock c8 bs)] s = .ok ()) :
    execLdbq g d c8 hi strict abuf rm base off s = .next (advance (counted (s.active g) false true
      (onActive g s (setFlags (ldbqEvents (s.active g) hi rm (ldbqBlock c8 bs)))
        (writtenAfter r [ldbqPut d (s.active g) hi rm (ldbqBlock c8 bs)] s s1)))) := by
  have hsources : readAll g [if abuf then srcU base else { baseSpec base.op with uni := true }] s = .ok r :=
    h.ready.sources
  have hatAddr (x : DWord) :
      atAddr x (ldbqLoad r.st (s.active g) abuf c8 (ldbqAddr abuf (s.active g) r off)) = .ok (bs, s1) := by
    rw [hload]
    rfl
  unfold execLdbq
  dsimp only
  rw [bind_ok_eq (memStart_of_counts h.ready.issue h.counts), bind_ok_eq hsources, bind_ok_eq h.ready.dests]
  refine (congrArg (finish · s) (bind_ok_eq (hatAddr _) _)).trans ?_
  have hbit (l : Fin 32) : 2 * l.val + hi.toNat = 2 * l.val + if hi then 1 else 0 := by cases hi <;> rfl
  have hsound : (if (ldbqBlock c8 bs).2 && s.active g != 0 && strict then s.active g else 0) = 0 :=
    ite_eq_right_iff.mpr fun h => by
      simp only [Bool.and_eq_true] at h
      exact hstrict h.1.1 h.2
  simp only [List.flatMap_id, hbit]
  refine (congrArg (finish · s) (bind_ok_eq (congrArg (trapIf s Kind.blockFormat) hsound) _)).trans ?_
  refine (congrArg (finish · s) (bind_ok_eq (commit_ok (r := { r with st := s1 }) hdests) _)).trans ?_
  refine congrArg (fun t => Host.Outcome.next (advance (counted (s.active g) false true t))) ?_
  by_cases hactive : s.active g = 0
  · rw [if_pos hactive, onActive, if_pos hactive]
    rfl
  · rw [if_neg hactive, onActive, if_neg hactive, bne_iff_ne.mpr hactive, Bool.and_true]
    rfl

end

/-- Settles O23: each load by its steps; the check of its destinations does not look at the state that the access leaves. -/
theorem loadsComplete : Obligations.LoadsComplete := by
  refine ⟨?ld, ?lds, ?ldc, ?ldb, ?ldbq⟩
  case ld => exact fun g d sz acq base off s r bs s1 h hload hdests => execLd_of_ready h hload hdests
  case lds => exact fun g d sz acq base off s r bs s1 h hload hdests => execLds_of_ready h hload hdests
  case ldc => exact fun g d sz base off s r h haddr hdests => execLdc_of_ready h haddr hdests
  case ldb => exact fun g d sz buf base off s r bs s1 h hload hdests => execLdb_of_ready h hload hdests
  case ldbq =>
    exact fun g d c8 hi strict abuf rm base off s r bs s1 h hload hstrict hdests =>
      execLdbq_of_ready h hload hstrict hdests

end Sys2Proof.Machine
end

section
/-!
PROOFS. What the stores, RED and DRAINNT come to (R265, R269, R271, R273, R274, R280), cache control (R283, R284), and streams
(R285 to R289).
-/

namespace Sys2Proof.Machine

/-! ### The stores, RED and DRAINNT (R265, R269, R271, R273, R274, R280) -/

section
variable {g : Guard} {a : Src} {b : Operand} {r : Reading} {s s1 : State}

theorem execDrainnt_of_ready (h : Issuable g false s) (hcounts : Counts g s)
    (hfree : s.active g ≠ 0 → drainCheck anyPa (s.active g) s = .ok ()) :
    execDrainnt g s = .next (advance (onActive g s
      (fun t => counted (s.active g) false false (drainOf t s.cur.blk s.cur.warp)) s)) := by
  unfold execDrainnt onActive
  rw [bind_ok_eq (memStart_of_counts h hcounts)]
  by_cases hactive : s.active g = 0
  · rw [if_pos hactive, if_pos hactive]
    rfl
  · rw [if_neg hactive, if_neg hactive, bind_ok_eq (hfree hactive)]
    rfl

theorem execRed_of_ready {op : AtomOp} {sc : Scope} {rel : Bool} {off : BitVec 16}
    (h : MemReady g [a.op, b] [{ op := b, n := 2 }, redSrc a op] [] s r)
    (hred : redGlobal s r.st (s.active g) op sc rel (laneReqs (s.active g) 4 (gAddr16 (r.at 0) off)) (fun l => (r.w 1)[l]) =
      .ok s1) :
    execRed g a op sc rel b off s = .next (advance (counted (s.active g) false false (writtenAfter r [] s s1))) := by
  have hsources : readAll g [baseSpec b, { op := a.op, hold := a.hold, imm := if op = .fadd then .f32 else .int }] s = .ok r :=
    h.ready.sources
  unfold execRed
  rw [bind_ok_eq (memStart_of_counts h.ready.issue h.counts), bind_ok_eq hsources, bind_ok_eq h.ready.dests, bind_ok_eq hred]
  exact congrArg (finish · s) (bind_ok_eq (commit_ok (r := { r with st := s1 }) h.ready.dests) _)

end

/-- Settles O26: each by its steps. -/
theorem storesComplete : Obligations.StoresComplete := by
  refine ⟨?st, ?stnt, ?drainnt, ?stb, ?red⟩
  case st => exact fun g a sz rel base off s r s1 h hstore => execSt_of_ready h hstore
  case stnt => exact fun g a sz base off s r gs s1 h hcheck => execStnt_of_ready h hcheck
  case drainnt => exact fun g s h hcounts hfree => execDrainnt_of_ready h hcounts hfree
  case stb => exact fun g a sz buf base off s r s1 h hstore => execStb_of_ready h hstore
  case red => exact fun g a op sc rel base off s r s1 h hred => execRed_of_ready h hred

/-! ### How a stream walks (R286, R287) -/

/-- A dimension whose index is not at its last. -/
def Stream.more (z : Stream) (j : Fin 4) : Bool := decide (z.idx[j] + 1 < z.desc.counts[j])

/-- One dimension of a walk's step: its index moves on, or goes back to 0 with the carry going on. -/
def Stream.carryInto (z : Stream) (acc : Vector Nat 4 × Bool) (j : Nat) : Vector Nat 4 × Bool :=
  if !acc.2 then acc
  else
    let i := acc.1[j]?.getD 0
    if i + 1 < z.desc.counts[j]?.getD 1 then (acc.1.setIfInBounds j (i + 1), false)
    else (acc.1.setIfInBounds j 0, true)

/-- The step as far as dimension `n`. -/
def Stream.carried (z : Stream) (n : Nat) : Vector Nat 4 × Bool := (List.range n).foldl z.carryInto (z.idx, true)

section
variable {z : Stream}

theorem Stream.next_eq (z : Stream) :
    z.next = { z with idx := (z.carried 4).1, exhausted := (z.carried 4).2, delivered := z.delivered + 1 } := rfl

theorem Stream.carried_succ (z : Stream) (n : Nat) : z.carried (n + 1) = z.carryInto (z.carried n) n := by
  rw [carried, List.range_succ, List.foldl_append]
  rfl

theorem Stream.carryInto_stopped {acc : Vector Nat 4 × Bool} (h : acc.2 = false) (j : Nat) : z.carryInto acc j = acc := by
  simp [carryInto, h]

theorem Stream.carryInto_carrying {acc : Vector Nat 4 × Bool} {j : Fin 4} (h : acc.2 = true) (hidx : acc.1[j] = z.idx[j]) :
    z.carryInto acc j = (acc.1.set j (if z.more j then z.idx[j] + 1 else 0), !z.more j) := by
  have hi : acc.1[j.val]?.getD 0 = z.idx[j] := by simpa using hidx
  have hc : z.desc.counts[j.val]?.getD 1 = z.desc.counts[j] := by simp
  have hset (x : Nat) : acc.1.setIfInBounds j x = acc.1.set j x := by simp [Vector.setIfInBounds, Vector.set, Array.setIfInBounds]
  simp only [carryInto, h, hi, hc, hset, more]
  by_cases hmore : z.idx[j.val] + 1 < z.desc.counts[j.val] <;> simp [hmore]

/-- As far as dimension `n`, the carry goes on while every index is at its last, and moves the first that is not. -/
theorem Stream.carried_spec {n : Nat} (hn : n ≤ 4) :
    ((z.carried n).2 = true ↔ ∀ k : Fin 4, k.val < n → z.more k = false) ∧
      ∀ j : Fin 4, (z.carried n).1[j] =
        if j.val < n ∧ ∀ k < j, z.more k = false then (if z.more j then z.idx[j] + 1 else 0) else z.idx[j] := by
  induction n with
  | zero => exact ⟨by simp [carried], fun j => by simp [carried]⟩
  | succ n ih =>
    obtain ⟨hcarry, hidx⟩ := ih (by omega)
    obtain ⟨i, rfl⟩ : ∃ i : Fin 4, i.val = n := ⟨⟨n, by omega⟩, rfl⟩
    have hlt (k : Fin 4) : k.val < i.val + 1 ↔ k.val < i ∨ k = i := by rw [Fin.ext_iff]; omega
    rw [carried_succ]
    by_cases hgoes : (z.carried i).2 = true
    · have hbefore := hcarry.mp hgoes
      rw [carryInto_carrying hgoes (by rw [hidx, if_neg (by simp)])]
      refine ⟨?_, fun j => ?_⟩
      · simp only [hlt, Bool.not_eq_true', or_imp, forall_and, forall_eq]
        exact ⟨fun h => ⟨hbefore, h⟩, And.right⟩
      · by_cases hj : j = i
        · subst hj
          have hfirst : j.val < j.val + 1 ∧ ∀ k < j, z.more k = false := ⟨Nat.lt_succ_self _, hbefore⟩
          rw [if_pos hfirst]
          exact Vector.getElem_set_self j.isLt
        · have hsame : ((z.carried i).1.set i (if z.more i then z.idx[i] + 1 else 0))[j] = (z.carried i).1[j] := by
            exact Vector.getElem_set_ne i.isLt j.isLt fun e => hj (Fin.ext e.symm)
          simp only [hlt, hj, or_false]
          exact hsame.trans (hidx j)
    · rw [carryInto_stopped (by simpa using hgoes)]
      have hstop : ¬ ∀ k : Fin 4, k.val < i → z.more k = false := fun h => hgoes (hcarry.mpr h)
      refine ⟨⟨fun h => absurd h hgoes, fun h => hcarry.mpr fun k hk => h k (by omega)⟩, fun j => ?_⟩
      rw [hidx]
      by_cases hj : j = i
      · subst hj
        rw [if_neg (by simp), if_neg fun h => hstop h.2]
      · simp only [hlt, hj, or_false]

theorem Stream.more_eq_false_iff {j : Fin 4} : z.more j = false ↔ ¬ z.idx[j] + 1 < z.desc.counts[j] :=
  decide_eq_false_iff_not

theorem Stream.next_exhausted : z.next.exhausted = true ↔ ∀ j : Fin 4, ¬ z.idx[j] + 1 < z.desc.counts[j] := by
  rw [next_eq]
  refine (carried_spec le_rfl).1.trans (forall_congr' fun j => ?_)
  rw [← more_eq_false_iff]
  exact forall_prop_of_true j.isLt

theorem Stream.next_idx (j : Fin 4) : z.next.idx[j] =
    if ∀ k : Fin 4, k < j → ¬ z.idx[k] + 1 < z.desc.counts[k] then
      (if z.idx[j] + 1 < z.desc.counts[j] then z.idx[j] + 1 else 0)
    else z.idx[j] := by
  rw [next_eq]
  refine ((carried_spec le_rfl).2 j).trans ?_
  simp only [more, decide_eq_false_iff_not, decide_eq_true_eq, j.isLt, true_and]

/-- R287: an element that was not fetched ahead is read as it is now. -/
theorem streamLoad_of_not_ahead {s s1 : State} {m : Mask} {now : List (Fin 32 × List Byte)} (hahead : z.ahead = [])
    (hnow : streamBytes s m z = .ok (now, s1)) : ∃ v t, streamLoad s m z = .ok (v, t) ∧ t.mem = s1.mem ∧
      ∀ l p, (now.find? fun p => p.1 == l) = some p → v[l] = elemExtend z.desc.esize (leNat p.2) := by
  obtain ⟨v, t, hload⟩ : ∃ v t, streamLoad s m z = .ok (v, t) := ⟨_, _, bind_ok_eq hnow _⟩
  obtain ⟨now', s1', hnow', ht, hv⟩ := streamLoad_eq_ok hload
  cases hnow'.symm.trans hnow
  exact ⟨v, t, hload, by rw [ht], hv hahead⟩

theorem streamWalk : Clause.StreamWalk :=
  ⟨fun _ => ⟨rfl, Stream.next_exhausted, Stream.next_idx⟩, fun _ _ _ _ _ => streamLoad_of_not_ahead⟩

end

/-! ### Prefetch and cache control (R283, R284) -/

section
variable {g : Guard} {b : Operand} {r : Reading} {s : State}

theorem fillL1_blocks (c l : Nat) (s : State) : (fillL1 c l s).blocks = s.blocks := rfl

theorem OnlyTranslationsFilled.blocks {s t : State} (h : OnlyTranslationsFilled s t) : t.blocks = s.blocks :=
  (congrArg State.blocks h.rest :)

/-- Prefetching changes what caches hold. -/
theorem prefL1_keeps (va : DWord) (s : State) : (prefL1 va s).mem = s.mem ∧ (prefL1 va s).blocks = s.blocks := by
  unfold prefL1
  dsimp only
  split
  · exact ⟨rfl, rfl⟩
  · next htranslate =>
    have hfills := translate_fills htranslate
    split
    · exact ⟨hfills.mem, hfills.blocks⟩
    · exact ⟨hfills.mem, hfills.blocks⟩

/-- What PREF does once its source is read. -/
def prefetched (lv : PrefLevel) (m : Mask) (addr : Fin 32 → DWord) (t : State) : State :=
  match lv with
  | .l1 => (lanesOf m).foldl (fun t l => prefL1 (addr l) t) t
  | _ => t

theorem prefetched_keeps (lv : PrefLevel) (m : Mask) (addr : Fin 32 → DWord) (t : State) :
    (prefetched lv m addr t).mem = t.mem ∧ (prefetched lv m addr t).blocks = t.blocks := by
  cases lv with
  | l1 =>
    exact ⟨foldl_keeps State.mem _ (fun t l => (prefL1_keeps (addr l) t).1) _ t,
      foldl_keeps State.blocks _ (fun t l => (prefL1_keeps (addr l) t).2) _ t⟩
  | _ => exact ⟨rfl, rfl⟩

theorem prefetched_of_not_l1 {lv : PrefLevel} (h : lv ≠ .l1) (m : Mask) (addr : Fin 32 → DWord) (t : State) :
    prefetched lv m addr t = t := by
  cases lv with
  | l1 => exact absurd rfl h
  | _ => rfl

theorem execPref_of_ready {lv : PrefLevel} {off : BitVec 20} (h : MemReady g [b] [{ op := b, n := 2 }] [] s r) :
    execPref g lv b off s = .next (advance (prefetched lv (s.active g) (gAddr (r.at 0) off) (written r [] s))) := by
  have hsources : readAll g [baseSpec b] s = .ok r := h.ready.sources
  unfold execPref
  rw [bind_ok_eq (memStart_of_counts h.ready.issue h.counts), bind_ok_eq hsources, bind_ok_eq (commit_ok h.ready.dests)]
  cases lv <;> rfl

/-- The copies of a core that are of none of the lines translated. -/
def dropLines (gs : List Got) (k : CoreState) : CoreState :=
  { k with l1 := k.l1.filter fun c => !(gs.any fun x => x.pa / 64 == c.line) }

/-- What CCTL does to the copies: it drops the core's, those of every core, or none. -/
def cacheControlled (op : CctlOp) (c : Nat) (gs : List Got) (s : State) : State :=
  match op with
  | .il1 => s.updCore c (dropLines gs)
  | .wb => s
  | .wbi => { s with cores := AMap.mapVals s.cores fun _ k => dropLines gs k }

theorem cacheControlled_mem (op : CctlOp) (c : Nat) (gs : List Got) (s : State) :
    (cacheControlled op c gs s).mem = s.mem := by cases op <;> rfl

theorem cacheControlled_blocks (op : CctlOp) (c : Nat) (gs : List Got) (s : State) :
    (cacheControlled op c gs s).blocks = s.blocks := by cases op <;> rfl

theorem mem_dropLines {gs : List Got} {k : CoreState} {x : L1Line} :
    x ∈ (dropLines gs k).l1 ↔ x ∈ k.l1 ∧ ∀ y ∈ gs, y.pa / 64 ≠ x.line := by
  simp [dropLines]

/-- A core that is not there holds no copy. -/
theorem core_dropEverywhere (gs : List Got) (s : State) (c : Nat) :
    ({ s with cores := AMap.mapVals s.cores fun _ k => dropLines gs k } : State).core c = dropLines gs (s.core c) := by
  simp only [State.core, AMap.getD, AMap.get?_mapVals]
  cases AMap.get? s.cores c <;> rfl

theorem cacheControlled_core_same {op : CctlOp} (h : op ≠ .wb) (c : Nat) (gs : List Got) (s : State) :
    (cacheControlled op c gs s).core c = dropLines gs (s.core c) := by
  cases op with
  | il1 => exact State.core_updCore_same s c _
  | wb => exact absurd rfl h
  | wbi => exact core_dropEverywhere gs s c

/-- CCTL brings nothing into any L1. -/
theorem mem_l1_of_cacheControlled {op : CctlOp} {c e : Nat} {gs : List Got} {x : L1Line}
    (h : x ∈ ((cacheControlled op c gs s).core e).l1) : x ∈ (s.core e).l1 := by
  by_cases hsame : (cacheControlled op c gs s).core e = s.core e
  · exact hsame ▸ h
  · have hdrop : (cacheControlled op c gs s).core e = dropLines gs (s.core e) := by
      cases op with
      | il1 =>
        by_cases he : e = c
        · exact he ▸ State.core_updCore_same s c _
        · exact absurd (State.core_updCore_other s _ he) hsame
      | wb => exact absurd rfl hsame
      | wbi => exact core_dropEverywhere gs s e
    exact (mem_dropLines.mp (hdrop ▸ h)).1

/-- Whether CCTL waits for stores of the warp to its lines that have not left the core. -/
def cctlWaits (s : State) (op : CctlOp) (gs : List Got) : Bool :=
  match op with
  | .il1 => false
  | _ => gs.any fun x => lagersLine s (x.pa / 64)

theorem cctlWaits_of_sent {op : CctlOp} {gs : List Got} (h : op ≠ .il1 → ∀ x ∈ gs, lagersLine s (x.pa / 64) = false) :
    cctlWaits s op gs = false := by
  have hnone (hop : op ≠ .il1) : (gs.any fun x => lagersLine s (x.pa / 64)) = false :=
    List.any_eq_false.mpr fun x hx => by simp [h hop x hx]
  cases op with
  | il1 => rfl
  | wb => exact hnone (by decide)
  | wbi => exact hnone (by decide)

theorem execCctl_of_ready {op : CctlOp} {off : BitVec 20} {gs : List Got} {s1 : State}
    (h : MemReady g [b] [{ op := b, n := 2 }] [] s r)
    (hxlate : xlateAll r.st (.core s.curCore) s.curLaunch.desc.asid s.curLaunch.desc.world .read
      (laneReqs (s.active g) 1 (gAddr (r.at 0) off)) = (gs, [], s1))
    (hsent : op ≠ .il1 → ∀ x ∈ gs, lagersLine s (x.pa / 64) = false) :
    execCctl g op b off s = .next (advance (counted (s.active g) false false
      (writtenAfter r [] s (cacheControlled op s.curCore gs s1)))) := by
  have hsources : readAll g [baseSpec b] s = .ok r := h.ready.sources
  have hnowait : stallIf (cctlWaits s op gs) = .ok () := congrArg stallIf (cctlWaits_of_sent hsent)
  unfold execCctl
  dsimp only
  rw [bind_ok_eq (memStart_of_counts h.ready.issue h.counts), bind_ok_eq hsources, bind_ok_eq h.ready.dests, hxlate,
    bind_ok_eq (failWith_nil _ _ _)]
  refine (congrArg (finish · s) (bind_ok_eq hnowait _)).trans ?_
  exact congrArg (finish · s) (bind_ok_eq (commit_ok (r := { r with st := cacheControlled op s.curCore gs s1 })
    h.ready.dests) _)

theorem execCctlIl1all_of_issuable (h : Issuable g false s) (hcounts : Counts g s) :
    execCctlIl1all g s = .next (advance (counted (s.active g) false false
      (onActive g s (fun t => t.updCore s.curCore fun k => { k with l1 := [] }) s))) := by
  unfold execCctlIl1all
  rw [bind_ok_eq (memStart_of_counts h hcounts)]
  rfl

end

/-! ### Binding streams (R285, R288, R289) -/

section
variable {g : Guard} {z : Fin 8} {desc d : Operand} {r : Reading} {s s1 : State}

theorem execStream_of_ready {pd : Vector (BitVec 3) 4} {a : DWord} {bs : List (List Byte)} {x : StreamDesc}
    (h : MemReady g [desc] [{ op := desc, uni := true }] [] s r) (ha : a = (uval (s.active g) (r.w 0)).setWidth 64)
    (hactive : s.active g ≠ 0) (haligned : a.toNat % 64 = 0) (hinside : a.toNat < 2 ^ 20)
    (hload : loadBuf r.st false true (uniReq (s.active g) 64 a) = .ok (bs, s1))
    (hparse : parseStream (bs.head?.getD []) = some x) :
    execStream g z desc pd s = .next (advance (counted (s.active g) false true
      ((writtenAfter r [] s s1).updReg fun y => { y with z := y.z.set z (some (Stream.bind x pd)) }))) := by
  have hsources : readAll g [opU desc] s = .ok r := h.ready.sources
  have hreq : uniReq (s.active g) 64 a = [⟨s.active g, a, 64⟩] := if_neg hactive
  have hmisaligned : misalignedOf (uniReq (s.active g) 64 a) = [] := by
    rw [hreq]
    simp [misalignedOf, haligned]
  have houtside : (uniReq (s.active g) 64 a).filter (fun q => decide (2 ^ 20 ≤ q.va.toNat)) = [] := by
    rw [hreq]
    simpa using hinside
  unfold execStream
  dsimp only
  rw [bind_ok_eq (memStart_of_counts h.ready.issue h.counts), bind_ok_eq hsources, bind_ok_eq h.ready.dests, ← ha,
    hmisaligned, houtside, List.map_nil, bind_ok_eq (failWith_nil _ _ _), bind_ok_eq (failWith_nil _ _ _), bind_ok_eq hload,
    if_neg hactive, hparse]
  exact congrArg (finish · s) (bind_ok_eq (commit_ok (r := { r with st := s1 }) h.ready.dests) _)

theorem execStream_of_inactive {pd : Vector (BitVec 3) 4} (h : MemReady g [desc] [{ op := desc, uni := true }] [] s r)
    (hactive : s.active g = 0) (hload : loadBuf r.st false true [] = .ok ([], s1)) :
    execStream g z desc pd s = .next (advance (writtenAfter r [] s s1)) := by
  have hsources : readAll g [opU desc] s = .ok r := h.ready.sources
  have hreq (a : DWord) : uniReq (s.active g) 64 a = [] := if_pos hactive
  unfold execStream
  dsimp only
  rw [bind_ok_eq (memStart_of_counts h.ready.issue h.counts), bind_ok_eq hsources, bind_ok_eq h.ready.dests, hreq,
    show misalignedOf [] = [] from rfl, List.filter_nil, List.map_nil, bind_ok_eq (failWith_nil _ _ _),
    bind_ok_eq (failWith_nil _ _ _), bind_ok_eq hload, if_pos hactive, commit_ok (r := { r with st := s1 }) h.ready.dests]
  rfl

/-- The word of STRMQ, in the words of R289. -/
theorem strmWord_eq (x : Option Stream) : strmWord x = match x with
    | none => 0
    | some x => BitVec.ofNat 32 (2 ^ 31 + (if x.exhausted then 2 ^ 30 else 0) + min x.delivered (2 ^ 30 - 1)) := by
  cases x with
  | none => rfl
  | some x => cases hend : x.exhausted <;> simp [strmWord, hend, w32]

theorem execStrmq_of_ready (h : MemReady g [d] [] [⟨d, 0, s.active g, splat (strmWord s.curWarp.reg.z[z])⟩] s r) :
    execStrmq g d z s = .next (advance (counted (s.active g) false false
      (written r [⟨d, 0, s.active g, splat (strmWord s.curWarp.reg.z[z])⟩] s))) := by
  unfold execStrmq
  rw [bind_ok_eq (memStart_of_counts h.ready.issue h.counts), bind_ok_eq h.ready.sources, bind_ok_eq (commit_ok h.ready.dests)]
  rfl

theorem execStrmend_of_issuable (h : Issuable g false s) (hcounts : Counts g s) :
    execStrmend g z s = .next (advance (counted (s.active g) false false
      (onActive g s (fun t => t.updReg fun x => { x with z := x.z.set z none }) s))) := by
  unfold execStrmend
  rw [bind_ok_eq (memStart_of_counts h hcounts)]
  rfl

end

theorem cacheAndStreamsComplete : Clause.CacheAndStreamsComplete := by
  refine ⟨?pref, ?cctl, ?il1all, ?stream, ?inactive, ?strmq, ?strmend⟩
  case pref =>
    intro g lv base off s r h
    obtain ⟨hmem, hblocks⟩ := prefetched_keeps lv (s.active g) (gAddr (r.at 0) off) (written r [] s)
    exact ⟨_, execPref_of_ready h, hmem, hblocks, fun hlv => prefetched_of_not_l1 hlv _ _ _⟩
  case cctl =>
    intro g op base off s r gs s1 h hxlate hsent
    refine ⟨cacheControlled op s.curCore gs s1, cacheControlled_mem .., cacheControlled_blocks .., fun c x hx =>
      mem_l1_of_cacheControlled hx, fun hop x hx => ?_, execCctl_of_ready h hxlate hsent⟩
    rw [cacheControlled_core_same hop] at hx
    exact (mem_dropLines.mp hx).2
  case il1all => exact fun g s h hcounts => execCctlIl1all_of_issuable h hcounts
  case stream =>
    exact fun g z desc pd s r bs s1 d h hactive haligned hinside hload hparse =>
      execStream_of_ready h rfl hactive haligned hinside hload hparse
  case inactive => exact fun g z desc pd s r s1 h hactive hload => execStream_of_inactive h hactive hload
  case strmq =>
    intro g d z s r w h
    have hw : w = strmWord s.curWarp.reg.z[z] := (strmWord_eq _).symm
    rw [hw] at h ⊢
    exact execStrmq_of_ready h
  case strmend => exact fun g z s h hcounts => execStrmend_of_issuable h hcounts

/-- Settles O31: each instruction by its steps, and the walk dimension by dimension. -/
theorem cachesAndStreams : Obligations.CachesAndStreams := ⟨cacheAndStreamsComplete, streamWalk⟩

end Sys2Proof.Machine
end

section
/-!
PROOFS. A misaligned request faults before anything else of the access (R264, R268, R271). A source may be a stream, whose read
fills caches and moves the walk on; the fault is that of the split that issues all the same.
-/

namespace Sys2Proof.Machine

/-! ### The split that issues, through the reading of sources -/

/-- The cursor, and the splits of the warp that it names. -/
def State.issuer (s : State) : Cursor × AMap Split := (s.cur, s.curWarp.splits)

section
variable {s t : State}

theorem issuer_congr (hcur : t.cur = s.cur) (hblocks : t.blocks = s.blocks) : t.issuer = s.issuer := by
  simp only [State.issuer, State.curWarp, State.curBlock, State.block, hcur, hblocks]

theorem issuer_updBlock {f : Block → Block} {u : Nat} (hf : ∀ (b : Block) (n : Nat),
    (AMap.getD (f b).warps n default).splits = (AMap.getD b.warps n default).splits) (s : State) :
    (s.updBlock u f).issuer = s.issuer := by
  refine congrArg (Prod.mk s.cur) ?_
  change (AMap.getD ((s.updBlock u f).block s.cur.blk).warps s.cur.warp default).splits = _
  by_cases hu : s.cur.blk = u
  · rw [hu]
    rcases AMap.getD_modify_same s.blocks u f default with hsome | hnone
    · exact (congrArg (fun b : Block => (AMap.getD b.warps s.cur.warp default).splits) hsome).trans
        ((hf _ _).trans (by rw [← hu]; rfl))
    · exact (congrArg (fun b : Block => (AMap.getD b.warps s.cur.warp default).splits) hnone).trans (by rw [← hu]; rfl)
  · rw [State.block_updBlock_other s f hu]
    rfl

theorem issuer_updReg (f : Regs → Regs) (s : State) : (s.updReg f).issuer = s.issuer := by
  refine issuer_updBlock (fun b n => ?_) s
  by_cases hn : n = s.cur.warp
  · subst hn
    rcases AMap.getD_modify_same b.warps s.cur.warp (fun w : Warp => { w with reg := f w.reg }) default with hsome | hnone
    · exact (congrArg Warp.splits hsome :)
    · exact (congrArg Warp.splits hnone :)
  · exact congrArg Warp.splits (AMap.getD_modify_other _ _ _ hn)

theorem OnlyTranslationsFilled.issuer (h : OnlyTranslationsFilled s t) : t.issuer = s.issuer :=
  issuer_congr (congrArg State.cur h.rest :) (congrArg State.blocks h.rest :)

theorem issuer_escape (u : Nat) (s : State) : (escape u s).issuer = s.issuer :=
  issuer_updBlock (f := fun b => { b with escaped := true }) (fun _ _ => rfl) s

theorem issuer_viewLoad (s : State) (c b w : Nat) (cached : Bool) (a n : Nat) :
    (viewLoad s c b w cached a n).2.2.issuer = s.issuer := by
  unfold viewLoad loadBase
  dsimp only
  split
  · rfl
  · cases cached <;> exact issuer_congr rfl rfl

theorem issuer_readAllReqs (a : Acc) (gs : List Got) (s : State) : (readAllReqs s a gs).2.issuer = s.issuer := by
  induction gs generalizing s with
  | nil => rfl
  | cons g gs ih =>
    rw [readAllReqs]
    dsimp only
    rw [ih]
    split
    · rw [issuer_escape, issuer_viewLoad]
    · rw [issuer_viewLoad]

theorem issuer_farRead (gs : List BGot) (s : State) : (farRead s gs).issuer = s.issuer := by
  unfold farRead
  split
  · exact issuer_escape _ s
  · rfl

variable {m : Mask} {z : Stream}

theorem issuer_streamBytes {now : List (Fin 32 × List Byte)} (h : streamBytes s m z = .ok (now, t)) :
    t.issuer = s.issuer := by
  unfold streamBytes at h
  dsimp only at h
  split at h
  · obtain ⟨⟨gs, s1⟩, hcheck, h⟩ := bind_eq_ok h
    obtain ⟨_, -, h⟩ := bind_eq_ok h
    cases h
    exact (issuer_readAllReqs _ gs s1).trans (globalCheck_fills hcheck).issuer
  · obtain ⟨gs, -, h⟩ := bind_eq_ok h
    obtain ⟨_, -, h⟩ := bind_eq_ok h
    cases h
    exact issuer_farRead gs s

theorem issuer_walked (n : Fin 8) (z : Stream) (s : State) : (walked n z s).issuer = s.issuer :=
  issuer_updReg (fun g => { g with z := g.z.set n (some (Stream.fetch s { z.next with ahead := z.ahead.tail })) }) s

theorem issuer_readStream {n : Fin 8} {s0 : State} {preds : Vector Mask 7} {x : Lanes Word × State × Vector Mask 7}
    (h : readStream m m n s0 s preds = .ok x) : x.2.1.issuer = s.issuer := by
  cases hz : s.curWarp.reg.z[n] with
  | none =>
    rw [readStream, hz] at h
    obtain ⟨_, -, h⟩ := bind_eq_ok h
    cases h
    rfl
  | some z =>
    cases hend : z.exhausted with
    | true =>
      rw [readStream_exhausted hz hend] at h
      cases h
      rfl
    | false =>
      obtain ⟨v, t, hload, rfl⟩ := readStream_bound hz hend h
      obtain ⟨now, s1, hnow, rfl, -⟩ := streamLoad_eq_ok hload
      exact (issuer_walked n z _).trans ((issuer_congr (s := s1) rfl rfl).trans (issuer_streamBytes hnow))

theorem issuer_readFirst {s0 : State} {acc : Reading} {q : SrcSpec} {x : Lanes Word × State × Vector Mask 7}
    (h : readFirst m s0 acc q = .ok x) : x.2.1.issuer = acc.st.issuer := by
  by_cases hz : ∃ n, q.op = .z n
  · obtain ⟨n, hn⟩ := hz
    rw [readFirst_z hn] at h
    exact issuer_readStream h
  · rw [readFirst_of_ne_z (not_exists.mp hz)] at h
    cases h
    rfl

/-- Reading sources leaves the split that issues. -/
theorem issuer_readAll {g : Guard} {qs : List SrcSpec} {r : Reading} (h : readAll g qs s = .ok r) :
    r.st.issuer = s.issuer := by
  suffices hfrom : ∀ acc : Reading, qs.foldlM (readSrc (s.active g) (readers s.curWarp s.curSplit g) s) acc = .ok r →
      r.st.issuer = acc.st.issuer from hfrom (readStart s) h
  clear h
  induction qs with
  | nil =>
    intro acc h
    cases h
    rfl
  | cons q qs ih =>
    intro acc h
    rw [List.foldlM_cons] at h
    obtain ⟨acc', hone, h⟩ := bind_eq_ok h
    obtain ⟨-, -, v, st, preds, hfirst, rfl⟩ := readSrc_eq_ok hone
    exact (ih _ h).trans (issuer_readFirst hfirst)

theorem acquiring_of_issuer (h : t.issuer = s.issuer) :
    t.curWarp.acquiring t.cur.split = s.curWarp.acquiring s.cur.split := by
  obtain ⟨hcur, hsplits⟩ := Prod.mk.inj h
  unfold Warp.acquiring
  rw [hcur, hsplits]

theorem trapReq_of_issuer (h : t.issuer = s.issuer) (k : Nat) (m : Mask) : t.trapReq k m = s.trapReq k m := by
  obtain ⟨hcur, hsplits⟩ := Prod.mk.inj h
  unfold State.trapReq State.curSplit
  rw [hcur, hsplits]

end

/-! ### The fault -/

/-- The trap of misaligned requests in lanes `m`, the first of them at `va`. -/
def misalignedTrap (s : State) (m : Mask) (va : DWord) (write : Bool) : TrapReq :=
  { s.trapReq 0x0A m with va := va, write := write }

theorem has_foldl_or {α : Type} (f : α → Mask) (l : List α) (m : Mask) (k : Fin 32) :
    has (l.foldl (fun m a => m ||| f a) m) k = (has m k || l.any fun a => has (f a) k) := by
  induction l generalizing m with
  | nil => simp
  | cons a l ih => rw [List.foldl_cons, ih, has_or, List.any_cons, Bool.or_assoc]

/-- Which requests are misaligned, and the trap that they make. -/
structure MisalignedAt (rs : List Req) (m : Mask) (q0 : Req) : Prop where
  lanes : ∀ k : Fin 32, has m k = true ↔ ∃ q ∈ rs, has q.lanes k = true ∧ q.va.toNat % q.n ≠ 0
  first : (rs.find? fun q => q.va.toNat % q.n != 0) = some q0

theorem failWith_misaligned {s t : State} {rs : List Req} {m : Mask} {q0 : Req} (h : MisalignedAt rs m q0)
    (hissuer : t.issuer = s.issuer) (write : Bool) :
    failWith t Kind.misaligned write (misalignedOf rs) = .error (.trap (misalignedTrap s m q0.va write)) := by
  have hmask : (misalignedOf rs).foldl (fun m b => m ||| b.1.lanes) 0 = m := by
    refine has_ext fun k => ?_
    rw [has_foldl_or (fun b : Req × Nat => b.1.lanes), has_zero, Bool.false_or, Bool.eq_iff_iff, h.lanes k]
    simp [misalignedOf, and_comm]
  obtain ⟨rest, hrest⟩ : ∃ rest, misalignedOf rs = (q0, 0) :: rest := by
    obtain ⟨tail, htail⟩ := List.head?_eq_some_iff.mp ((List.head?_filter ..).trans h.first)
    exact ⟨tail.map fun q => (q, 0), congrArg (List.map fun q => (q, 0)) htail⟩
  rw [hrest] at hmask ⊢
  rw [failWith, hmask, trapReq_of_issuer hissuer]
  rfl

section
variable {s t : State} {rs : List Req} {m : Mask} {q0 : Req}

/-- The checks of global memory come to the alignment with nothing done. -/
theorem globalCheck_misaligned {k : AccKind} (h : MisalignedAt rs m q0) (hissuer : t.issuer = s.issuer)
    (hacquiring : s.curWarp.acquiring s.cur.split = false)
    (hfree : ∀ q ∈ rs, sbHits t t.curCore 0 t.curLaunch.desc.asid q.va.toNat q.n = false) (reads : Bool) :
    globalCheck t k reads true rs = .error (.trap (misalignedTrap s m q0.va (k == .write))) := by
  have hacq : stallIf (!rs.isEmpty && t.curWarp.acquiring t.cur.split) = .ok () := by
    rw [acquiring_of_issuer hissuer, hacquiring, Bool.and_false]
    rfl
  have hcopy : stallIf (rs.any fun q => sbHits t t.curCore 0 t.curLaunch.desc.asid q.va.toNat q.n) = .ok () := by
    rw [List.any_eq_false.mpr fun q hq => by simp [hfree q hq]]
    rfl
  unfold globalCheck
  dsimp only
  rw [bind_ok_eq hacq, bind_ok_eq hcopy]
  exact bind_error_eq (failWith_misaligned h hissuer _) _

/-- No copy under way meets a request to the typed buffer, where its address names one. -/
def bufferFree (t : State) (c : Bool) (q : Req) : Prop :=
  ∀ u o, bufTarget t t.cur.blk c q.va.toNat q.n = .ok (u, o) → sbHits t t.curCore (if c then 2 else 1) u o q.n = false

/-- So do those of a typed buffer. -/
theorem bufCheck_misaligned {c : Bool} (h : MisalignedAt rs m q0) (hissuer : t.issuer = s.issuer)
    (hacquiring : s.curWarp.acquiring s.cur.split = false) (hfree : ∀ q ∈ rs, bufferFree t c q) (reads write : Bool) :
    bufCheck t c reads write true rs = .error (.trap (misalignedTrap s m q0.va write)) := by
  have hacq : stallIf (!rs.isEmpty && t.curWarp.acquiring t.cur.split) = .ok () := by
    rw [acquiring_of_issuer hissuer, hacquiring, Bool.and_false]
    rfl
  have hcopy : stallIf (rs.any fun q => match bufTarget t t.cur.blk c q.va.toNat q.n with
      | .ok (u, o) => sbHits t t.curCore (if c then 2 else 1) u o q.n
      | .error _ => false) = .ok () := by
    refine congrArg stallIf (List.any_eq_false.mpr fun q hq => ?_)
    cases htarget : bufTarget t t.cur.blk c q.va.toNat q.n with
    | error k => exact Bool.false_ne_true
    | ok x => exact ne_true_of_eq_false (hfree q hq x.1 x.2 htarget)
  unfold bufCheck
  dsimp only
  refine (bind_ok_eq hacq _).trans ((bind_ok_eq hcopy _).trans ?_)
  exact bind_error_eq (failWith_misaligned h hissuer _) _

end

/-- An instruction whose operands are ready and whose access traps. -/
theorem traps_of_access {i : Instr} {s : State} {g : Guard} {ops : List Operand} {qs : List SrcSpec} {pre : Mask → List Put}
    {r : Reading} {q : TrapReq} {k : Mask → Reading → Res}
    (hi : exec i s = finish (do
      let m ← memStart g ops s
      let r ← readAll g qs s
      destCheck r (pre m) s
      k m r) s)
    (h : MemReady g ops qs (pre (s.active g)) s r) (hk : k (s.active g) r = .error (.trap q)) :
    exec i s = .next (raiseTrap q s) := by
  rw [hi, bind_ok_eq (memStart_of_counts h.ready.issue h.counts), bind_ok_eq h.ready.sources, bind_ok_eq h.ready.dests, hk]
  rfl

theorem reqs_of_inactive {i : Instr} {s : State} {r : Reading} {x : Access} (h : accessOf s r i = some x)
    (hactive : s.active x.g = 0) : x.reqs = [] := by
  have hlanes (m : Mask) (n : Nat) (a : Fin 32 → DWord) (hm : m = 0) : laneReqs m n a = [] := by
    subst hm
    rfl
  unfold accessOf at h
  split at h <;> cases h
  case h_2 => exact if_pos hactive
  all_goals exact hlanes _ _ _ hactive

/-- What is supposed of an access with a misaligned request. -/
structure MisalignedAccess (i : Instr) (s : State) (r : Reading) (x : Access) (m : Mask) (q0 : Req) : Prop where
  access : accessOf s r i = some x
  ready : MemReady x.g x.ops x.qs x.pre s r
  free : x.free r.st
  misaligned : MisalignedAt x.reqs m q0

namespace MisalignedAccess
variable {i : Instr} {s : State} {r : Reading} {x : Access} {m : Mask} {q0 : Req}

theorem acquiring (h : MisalignedAccess i s r x m q0) : s.curWarp.acquiring s.cur.split = false := by
  rcases h.ready.counts with hnone | ⟨hfree, -⟩
  · have hmem := List.mem_of_find?_eq_some h.misaligned.first
    rw [reqs_of_inactive h.access hnone] at hmem
    cases hmem
  · exact hfree

theorem global (h : MisalignedAccess i s r x m q0) (hspace : x.space = 0) {k : AccKind} (hk : (k == .write) = x.write)
    (reads : Bool) :
    globalCheck r.st k reads true x.reqs = .error (.trap (misalignedTrap s m q0.va x.write)) := by
  rw [← hk]
  refine globalCheck_misaligned h.misaligned (issuer_readAll h.ready.ready.sources) h.acquiring (fun q hq => ?_) reads
  have hfree := h.free q hq
  rwa [if_pos hspace] at hfree

theorem buffer (h : MisalignedAccess i s r x m q0) {c : Bool} (hspace : x.space = if c then 2 else 1) (reads : Bool) :
    bufCheck r.st c reads x.write true x.reqs = .error (.trap (misalignedTrap s m q0.va x.write)) := by
  refine bufCheck_misaligned h.misaligned (issuer_readAll h.ready.ready.sources) h.acquiring (fun q hq => ?_) reads x.write
  have hfree := h.free q hq
  rw [hspace] at hfree
  cases c <;> exact hfree

end MisalignedAccess

/-- R264: the fault comes first, whatever the access is. -/
theorem exec_misaligned {i : Instr} {s : State} {r : Reading} {x : Access} {m : Mask} {q0 : Req}
    (h : MisalignedAccess i s r x m q0) : exec i s = .next (raiseTrap (misalignedTrap s m q0.va x.write) s) := by
  have hx := h.access
  have hready := h.ready
  unfold accessOf at hx
  -- The forms in the order of `accessOf`: LD, LDS, LDC, LDB, ST, STNT, STB, RED, ATOM, ATOMC on global memory, ATOMC on a typed
  -- buffer, BATOM.
  split at hx <;> cases hx
  case h_1 => exact traps_of_access rfl hready (bind_error_eq (bind_error_eq (h.global (k := .read) rfl rfl true) _) _)
  case h_2 => exact traps_of_access rfl hready (bind_error_eq (bind_error_eq (h.global (k := .read) rfl rfl true) _) _)
  case h_3 => exact traps_of_access rfl hready (bind_error_eq (failWith_misaligned h.misaligned rfl false) _)
  case h_4 => exact traps_of_access rfl hready (bind_error_eq (bind_error_eq (h.buffer rfl true) _) _)
  case h_5 => exact traps_of_access rfl hready (bind_error_eq (bind_error_eq (h.global (k := .write) rfl rfl false) _) _)
  case h_6 => exact traps_of_access rfl hready (bind_error_eq (h.global (k := .write) rfl rfl false) _)
  case h_7 => exact traps_of_access rfl hready (bind_error_eq (bind_error_eq (h.buffer rfl false) _) _)
  case h_8 => exact traps_of_access rfl hready (bind_error_eq (bind_error_eq (h.global (k := .write) rfl rfl true) _) _)
  case h_9 => exact traps_of_access rfl hready (bind_error_eq (h.global (k := .write) rfl rfl true) _)
  case h_10 => exact traps_of_access rfl hready (bind_error_eq (h.global (k := .write) rfl rfl true) _)
  case h_11 sp hsp =>
    have hcheck := h.buffer (c := sp == .cbuf) rfl true
    cases sp with
    | global => exact (hsp rfl).elim
    | abuf => exact traps_of_access rfl hready (bind_error_eq hcheck _)
    | cbuf => exact traps_of_access rfl hready (bind_error_eq hcheck _)
  case h_12 => exact traps_of_access rfl hready (bind_error_eq (h.buffer rfl true) _)

theorem accessOf_isSome (i : Instr) (s : State) (r : Reading) : (match i with
    | .ld .. | .lds .. | .ldc .. | .ldb .. | .st .. | .stnt .. | .stb .. | .red .. | .atom .. | .atomc .. | .batom .. => true
    | _ => false) = (accessOf s r i).isSome := by
  cases i with
  | atomc g d a cmp x sc od sp => cases sp <;> rfl
  | _ => rfl

/-- Settles O25: the checks before the alignment hold nothing back, and the fault is that of the split that issues. -/
theorem misalignedFaults : Obligations.MisalignedFaults :=
  ⟨fun _ _ _ _ _ _ haccess hready hfree hlanes hfirst => exec_misaligned ⟨haccess, hready, hfree, hlanes, hfirst⟩,
    accessOf_isSome⟩

end Sys2Proof.Machine
end

section
/-!
PROOFS. ATOM, ATOMC and BATOM complete (R269, R280 to R282). Where the statement on atomics fails: it gives the bookkeeping of a
write by the record of the address that is written, and the machine keeps a sector's by the record of the sector's first byte (R256,
R257). They are the same where every area of chunk records begins and ends between sectors, which the statement does not ask and a
state need not meet.
-/

namespace Sys2Proof.Machine

/-! ### ATOM, ATOMC and BATOM (R269, R280 to R282) -/

/-- An instruction whose sources can be read ends as its access does. -/
theorem completes_of_access {i : Instr} {g : Guard} {ops : List Operand} {qs : List SrcSpec} {s t : State} {r : Reading}
    {k : Mask → Reading → Res}
    (hi : exec i s = finish (do
      let m ← memStart g ops s
      let r ← readAll g qs s
      k m r) s)
    (hissue : checkIssue g ops false s = .ok ()) (hcounts : Counts g s) (hsources : readAll g qs s = .ok r)
    (hk : k (s.active g) r = .ok t) : exec i s = .next (advance t) := by
  rw [hi, bind_ok_eq (memStart_of_counts hissue hcounts), bind_ok_eq hsources, hk]
  rfl

theorem atomicsComplete : Clause.AtomicsComplete := by
  refine ⟨?atom, ?atomc, ?atomcBuffer, ?batom⟩
  case atom =>
    exact fun g d hold op sc od base off s r t hissue hcounts hsources hperformed =>
      completes_of_access rfl hissue hcounts hsources hperformed
  case atomc =>
    exact fun g d a cmp x sc od s r t hissue hcounts hsources hperformed =>
      completes_of_access rfl hissue hcounts hsources hperformed
  case atomcBuffer =>
    intro g d a cmp x sc od sp s r t hsp hissue hcounts hsources hperformed
    cases sp with
    | global => exact absurd rfl hsp
    | abuf => exact completes_of_access rfl hissue hcounts hsources hperformed
    | cbuf => exact completes_of_access rfl hissue hcounts hsources hperformed
  case batom =>
    exact fun g d hold op sc od buf base off s r t hissue hcounts hsources hperformed =>
      completes_of_access rfl hissue hcounts hsources hperformed

/-! ### A RED at its home (R278) -/

section
variable {s s0 s1 t : State} {m : Mask} {op : AtomOp} {sc : Scope} {rs : List Req} {gs : List Got} {x : Fin 32 → Word}
  {olds : List (Fin 32 × Word)}

/-- A RED with no release, of lanes at their homes, that nothing holds back and that meets no race is performed at once. -/
theorem redGlobal_at_home (hcheck : globalCheck s0 .write true true rs = .ok (gs, s1))
    (hsome : atomLanes m gs (fun _ => 0) x ≠ []) (hhome : ∀ y ∈ atomLanes m gs (fun _ => 0) x, atomAt s y.got.pa sc = .home)
    (hnt : ntOn s ((atomLanes m gs (fun _ => 0) x).map fun y => y.got) = false)
    (hrace : ∀ y ∈ atomLanes m gs (fun _ => 0) x, ∀ home, raceOf s ⟨s.who, s.instant, true, some sc⟩ y.got none home = none)
    (hwaits : atomWaits s false ((atomLanes m gs (fun _ => 0) x).map fun y => y.got) = false)
    (hstarves : atomStarves s ((atomLanes m gs (fun _ => 0) x).map fun y => y.got) = false)
    (hquar : ∀ y ∈ atomLanes m gs (fun _ => 0) x, quarantined s s.curCore y.got.pa = false)
    (hperformed : atomHome s1 (some op) (atomLanes m gs (fun _ => 0) x) sc = some (olds, t)) :
    redGlobal s s0 m op sc false rs x = .ok (if m = 0 then t else wrote t) := by
  unfold redGlobal
  rw [bind_ok_eq hcheck]
  dsimp only
  generalize atomLanes m gs (fun _ => 0) x = ls at *
  have hpick (w : AtomAt) : (ls.filter fun y => atomAt s y.got.pa sc == w) = if w = .home then ls else [] := by
    split
    · next hw => exact List.filter_eq_self.mpr fun y hy => by simp [hhome y hy, hw]
    · next hw => exact List.filter_eq_nil_iff.mpr fun y hy => by simpa [hhome y hy] using Ne.symm hw
  have hraces : (ls.filterMap fun y => (raceOf s ⟨s.who, s.instant, true, some sc⟩ y.got none false).map
      fun z => (y.got.req, z.1, z.2)) = [] := List.filterMap_eq_nil_iff.mpr fun y hy => by simp [hrace y hy]
  have hheld : (ls.any fun y => (raceOf s ⟨s.who, s.instant, true, some sc⟩ y.got none true).isSome) = false :=
    List.any_eq_false.mpr fun y hy => by simp [hrace y hy]
  have hquarantined : (ls.any fun y => quarantined s s.curCore y.got.pa) = false :=
    List.any_eq_false.mpr fun y hy => by simp [hquar y hy]
  have hne : ls.isEmpty = false := List.isEmpty_eq_false_iff.mpr hsome
  simp only [hpick, if_true, reduceCtorEq, if_false, List.append_nil, hnt, hraces, hheld, hquarantined, Bool.false_and,
    Bool.or_false, hne, hwaits, hstarves, Bool.and_false, Bool.false_eq_true, bne_self_eq_false]
  rw [hperformed]
  rfl

theorem flagWarp_mem (u wn : Nat) (f : Flags) (s : State) : (flagWarp u wn f s).mem = s.mem := by
  unfold flagWarp
  split <;> rfl

theorem recordWords_mem (agent : Word) (t entered : Nat) (write : Bool) (atom : Option Scope) (ws : List Nat) (s : State) :
    (recordWords s agent t entered write atom ws).mem = s.mem :=
  (recordWords_kept (A := { lines := True }) trivial agent t entered write atom ws s).mem

/-- What an atomic does at its home besides its write leaves memory. -/
theorem atomHome_of_performed {op : Option AtomOp} {ls : List AtomLane} {u : State}
    (h : performBytes s (wordBytes (atomFold op (fun a => w32 (leNat (s.mem.readN a 4))) (AtomLane.args ls)).2.1) = some u) :
    ∃ olds t, atomHome s op ls sc = some (olds, t) ∧ t.mem = u.mem := by
  unfold atomHome
  dsimp only
  rw [h]
  refine ⟨_, _, rfl, ?_⟩
  rw [escape_mem, flagWarp_mem, recordWords_mem, writeThrough_mem]
  split <;> rfl

end

/-! ### The bookkeeping of the last spilled sector of a chunk (R258) -/

/-- A sector whose chunk has a page, and no other spilled sector: where it packs the page goes back, and where it does not its check
bytes go into the page. -/
theorem sectorWritten_of_last_spilled {s : State} {sec a : Nat} (hrec : recordOf s (sec * 32) = some a)
    (hpage : (readChunk s a).ovf ≠ 0) (hlast : (readChunk s a).mode &&& ~~~ (1#64 <<< (sec % 64)) = 0) :
    sectorWritten s sec false = some (if packs (s.mem.readN (sec * 32) 32) then
        writeChunk a { readChunk s a with mode := 0, ovf := 0 }
          (s.updDie (((tierOf s (sec * 32)).map Prod.snd).getD 0) fun d => { d with ovfPool := (readChunk s a).ovf :: d.ovfPool })
      else spillTo a (readChunk s a) sec (readChunk s a).ovf s) := by
  unfold sectorWritten
  dsimp only
  rw [hrec]
  dsimp only
  rw [if_neg Bool.false_ne_true, if_pos (And.intro hlast hpage), if_pos hpage, apply_ite some]

/-! ### An area that ends within a sector -/

/-- The area of chunk records serves the first word of the sector at 0x2_0000, and no more. The record, at 0x4_0000, has the sector
spilled, with an overflow page at 0x8_0000. Core 0 holds a translation of the page to itself. -/
def shortArea : State :=
  { State.reset with mem := [(0x40000, 1), (0x4001A, 8)], recAreas := [⟨0x20000, 4, 0x40000⟩] }.updCore 0 fun k =>
    { k with tlb := [{ asid := 0, world := false, vbase := 0x20000, lg := 16, leaf := 0x2007 }] }

/-- A request of lane 0 for the second word of that sector. -/
def secondWord : Got := ⟨⟨one_ 0, 0x20004, 4⟩, 0x20004, ⟨0x2007, 0, 16⟩⟩

theorem eq_ok_of_toOption {ε α : Type} {x : Except ε α} {a : α} (h : x.toOption = some a) : x = .ok a := by
  cases x with
  | ok b => exact congrArg Except.ok (Option.some.inj h)
  | error e => cases h

theorem shortArea_check : globalCheck shortArea .write true true (laneReqs (one_ 0) 4 fun _ => 0x20004) =
    .ok ([secondWord], shortArea) := eq_ok_of_toOption (by decide +kernel)

/-- The write of 5 into the second word, and the state with it in memory. -/
def storedWord : List (Nat × Byte) := at_ 0x20004 (toLe 4 5)
def wordStored : State := { shortArea with mem := shortArea.mem.writeAll storedWord }

theorem performBytes_storedWord : performBytes shortArea storedWord = sectorWritten wordStored 0x1000 false := by
  have hsnapshots : ((storedWord.map fun p => p.1 / 65536).eraseDups).foldl
      (fun os g => os.bind fun s => snapshotFor s (g * 65536)) (some shortArea) = some shortArea := by decide +kernel
  have hsectors : (storedWord.map fun p => p.1 / 32).eraseDups = [0x1000] := by decide +kernel
  have hpart : coversSector storedWord 0x1000 = false := by decide +kernel
  rw [performBytes, hsnapshots, hsectors, Option.bind_some, sectorsWritten, List.foldl_cons, List.foldl_nil,
    Option.bind_some, hpart]
  rfl

/-- Performing it clears the mode bit in the record of the first word, or writes check bytes into the overflow page. -/
theorem shortArea_performs : ∃ u, performBytes shortArea storedWord = some u ∧
    (u.mem.read 0x40000 = 0 ∨ u.mem.read 0x80000 ≠ 0) := by
  refine ⟨_, performBytes_storedWord.trans (sectorWritten_of_last_spilled (a := 0x40000) (by decide +kernel) (by decide +kernel)
    (by decide +kernel)), ?_⟩
  split
  · exact .inl (by decide +kernel)
  · exact .inr (by decide +kernel)

theorem atomLanes_secondWord : atomLanes (one_ 0) [secondWord] (fun _ => 0) (fun _ => 5) = [⟨secondWord, 0, 0, 5⟩] := by
  decide +kernel

/-- A RED of lane 0 that adds 5 to the second word does that. -/
theorem shortArea_red : ∃ t, redGlobal shortArea shortArea (one_ 0) .add .sys false
    (laneReqs (one_ 0) 4 fun _ => 0x20004) (fun _ => 5) = .ok t ∧ (t.mem.read 0x40000 = 0 ∨ t.mem.read 0x80000 ≠ 0) := by
  obtain ⟨u, hu, hread⟩ := shortArea_performs
  have hwords : wordBytes (atomFold (some .add) (fun a => w32 (leNat (shortArea.mem.readN a 4)))
      (AtomLane.args [⟨secondWord, 0, 0, 5⟩])).2.1 = storedWord := by decide +kernel
  obtain ⟨olds, t, hhome, hmem⟩ := atomHome_of_performed (sc := .sys) (hwords ▸ hu)
  refine ⟨_, redGlobal_at_home shortArea_check ?_ ?_ ?_ ?_ ?_ ?_ ?_ (atomLanes_secondWord ▸ hhome), ?_⟩
  case refine_8 =>
    rw [← hmem] at hread
    exact hread
  all_goals rw [atomLanes_secondWord]
  all_goals decide +kernel

/-- The address of the second word is in no area, so that its write has no bookkeeping. -/
theorem shortArea_not_bookkept (a : Nat) : ¬ Bookkept shortArea 0x20004 a := by
  rintro ⟨r, hrec, -⟩
  rw [show recordOf shortArea 0x20004 = none from by decide +kernel] at hrec
  cases hrec

/-- Refutes O30: in a state whose area of chunk records ends within a sector, a RED on a word of the sector that the area does not
serve changes the record of the sector's first byte. The statement allows a change of the record of the word's own address only,
and that word has none. It does not ask that areas begin and end between sectors. Only the clause on where RED is performed is used
here; that ATOM, ATOMC and BATOM complete is `atomicsComplete`. -/
theorem not_atomicsPerformed : ¬ Obligations.AtomicsPerformed := by
  rintro ⟨-, hred, -⟩
  obtain ⟨t, hperformed, hread⟩ := shortArea_red
  obtain ⟨-, hwide⟩ := hred shortArea (one_ 0) .add .sys (fun _ => 0x20004) (fun _ => 5) secondWord shortArea 0 t
    (by decide +kernel) (by decide +kernel) rfl shortArea_check rfl (by decide +kernel) (by decide +kernel) hperformed
  obtain ⟨hkept, -⟩ := hwide (by decide) (by decide +kernel) fun a _ _ => shortArea_not_bookkept a
  rcases hread with hrecord | hcheck
  · rw [hkept 0x40000 (by decide) (shortArea_not_bookkept _)] at hrecord
    exact absurd hrecord (by decide +kernel)
  · rw [hkept 0x80000 (by decide) (shortArea_not_bookkept _)] at hcheck
    exact hcheck (by decide +kernel)

end Sys2Proof.Machine
end

section
/-!
PROOFS. Stops and partial operations, and what of a state's operations keeps memory in its canonical form (log 3).
-/

namespace Sys2Proof.Machine

-- The whole text is compiled in one process under a memory limit: elaborate one proof after the other.
set_option Elab.async false

theorem wf_of_mem_eq {s t : State} (h : t.mem = s.mem) (w : s.mem.wf = true) : t.mem.wf = true := h ▸ w

/-- A stop that keeps memory in its canonical form: one that goes on with another state has to carry a canonical one. -/
def Stop.Wf : Stop → Prop
  | .again t => t.mem.wf = true
  | _ => True

theorem bind_eq_error {α β ε : Type} {x : Except ε α} {f : α → Except ε β} {e : ε} (h : (x >>= f) = .error e) :
    x = .error e ∨ ∃ a, x = .ok a ∧ f a = .error e := by
  cases x with
  | error e' => cases h; exact .inl rfl
  | ok a => exact .inr ⟨a, rfl, h⟩

theorem foldlM_stop {α β : Type} {f : β → α → Except Stop β} (hf : ∀ b a e, f b a = .error e → e.Wf) {l : List α} {b : β}
    {e : Stop} (h : l.foldlM f b = .error e) : e.Wf := by
  induction l generalizing b with
  | nil => cases h
  | cons a l ih =>
    obtain h | ⟨c, -, h⟩ := bind_eq_error h
    · exact hf b a e h
    · exact ih h

theorem forM_stop {α : Type} {f : α → Except Stop Unit} (hf : ∀ a e, f a = .error e → e.Wf) {l : List α}
    {e : Stop} (h : l.forM f = .error e) : e.Wf := by
  induction l with
  | nil => cases h
  | cons a l ih =>
    obtain h | ⟨_, -, h⟩ := bind_eq_error h
    · exact hf a e h
    · exact ih h

theorem wf_ite {p : Prop} [Decidable p] {a b : State} (wa : a.mem.wf = true) (wb : b.mem.wf = true) :
    (if p then a else b).mem.wf = true := by
  split
  · exact wa
  · exact wb

/-! ### Ends of an instruction -/

theorem finish_stop {e : Stop} {s t : State} (w : s.mem.wf = true) (he : e.Wf) (h : finish (.error e) s = .next t) :
    t.mem.wf = true := by
  cases e with
  | trap q => cases h; exact raiseTrap_wf w q
  | stall => cases h; simpa using w
  | again u => cases h; exact he

theorem finish_done {s t u : State} (w : u.mem.wf = true) (h : finish (.ok u) s = .next t) : t.mem.wf = true := by
  cases h; simpa using w

theorem foldl_wf {α : Type} {f : State → α → State} (hf : ∀ s a, s.mem.wf = true → (f s a).mem.wf = true) (l : List α)
    {s : State} (w : s.mem.wf = true) : (l.foldl f s).mem.wf = true := by
  induction l generalizing s with
  | nil => exact w
  | cons a r ih => exact ih (hf s a w)

/-- What a partial operation leaves: its value satisfies `P`, and a state it stops with has canonical memory. -/
def LeavesWf {α : Type} (P : α → Prop) : Except Stop α → Prop
  | .ok a => P a
  | .error e => e.Wf

theorem LeavesWf.bind {α β : Type} {P : α → Prop} {Q : β → Prop} {x : Except Stop α} {f : α → Except Stop β}
    (hx : LeavesWf P x) (hf : ∀ a, P a → LeavesWf Q (f a)) : LeavesWf Q (x >>= f) := by
  cases x with
  | ok a => exact hf a hx
  | error e => exact hx

theorem LeavesWf.after {α β : Type} {Q : β → Prop} {x : Except Stop α} {f : α → Except Stop β}
    (hx : ∀ e, x = .error e → e.Wf) (hf : ∀ a, LeavesWf Q (f a)) : LeavesWf Q (x >>= f) := by
  cases x with
  | ok a => exact hf a
  | error e => exact hx e rfl

theorem LeavesWf.ite {α : Type} {P : α → Prop} {p : Prop} [Decidable p] {x y : Except Stop α} (hx : LeavesWf P x)
    (hy : LeavesWf P y) : LeavesWf P (if p then x else y) := by
  split
  · exact hx
  · exact hy

/-- Whatever an optional step gives has canonical memory. -/
def SomeWf : Option State → Prop
  | some t => t.mem.wf = true
  | none => True

theorem SomeWf.elim {x : Option State} {t : State} (hx : SomeWf x) (h : x = some t) : t.mem.wf = true := by
  subst h
  exact hx

theorem SomeWf.of {x : Option State} (h : ∀ t, x = some t → t.mem.wf = true) : SomeWf x := by
  cases x with
  | none => trivial
  | some t => exact h t rfl

theorem SomeWf.ite {p : Prop} [Decidable p] {x y : Option State} (hx : SomeWf x) (hy : SomeWf y) :
    SomeWf (if p then x else y) := by
  split
  · exact hx
  · exact hy

theorem SomeWf.map {x : Option State} {f : State → State} (hx : SomeWf x)
    (hf : ∀ t, t.mem.wf = true → (f t).mem.wf = true) : SomeWf (x.map f) := by
  cases x with
  | none => trivial
  | some t => exact hf t hx

/-- Whatever state an event comes to has canonical memory. -/
def NextWf : Host.Outcome State Fault Refusal → Prop
  | .next t => t.mem.wf = true
  | _ => True

theorem NextWf.elim {x : Host.Outcome State Fault Refusal} {t : State} (hx : NextWf x) (h : x = .next t) : t.mem.wf = true := by
  subst h
  exact hx

theorem NextWf.of {x : Host.Outcome State Fault Refusal} (h : ∀ t, x = .next t → t.mem.wf = true) : NextWf x := by
  cases x with
  | next t => exact h t rfl
  | _ => trivial

theorem NextWf.ite {p : Prop} [Decidable p] {x y : Host.Outcome State Fault Refusal} (hx : NextWf x) (hy : NextWf y) :
    NextWf (if p then x else y) := by
  split
  · exact hx
  · exact hy

theorem LeavesWf.ok {α : Type} {P : α → Prop} {x : Except Stop α} {a : α} (hx : LeavesWf P x) (h : x = .ok a) : P a := by
  subst h
  exact hx

theorem LeavesWf.error {α : Type} {P : α → Prop} {x : Except Stop α} {e : Stop} (hx : LeavesWf P x) (h : x = .error e) :
    e.Wf := by
  subst h
  exact hx

theorem LeavesWf.of_eqs {α : Type} {P : α → Prop} {x : Except Stop α} (hok : ∀ a, x = .ok a → P a)
    (hstop : ∀ e, x = .error e → e.Wf) : LeavesWf P x := by
  cases x with
  | ok a => exact hok a rfl
  | error e => exact hstop e rfl

/-- What a partial operation of another kind gives satisfies `P`. -/
def Gives {α ε : Type} (P : α → Prop) : Except ε α → Prop
  | .ok a => P a
  | .error _ => True

theorem Gives.elim {α ε : Type} {P : α → Prop} {x : Except ε α} {a : α} (hx : Gives P x) (h : x = .ok a) : P a := by
  subst h
  exact hx

theorem Gives.any {α ε : Type} {x : Except ε α} : Gives (fun _ => True) x := by
  cases x <;> trivial

theorem Gives.ite {α ε : Type} {P : α → Prop} {p : Prop} [Decidable p] {x y : Except ε α} (hx : Gives P x) (hy : Gives P y) :
    Gives P (if p then x else y) := by
  split
  · exact hx
  · exact hy

theorem Gives.bind {α β ε : Type} {P : α → Prop} {Q : β → Prop} {x : Except ε α} {f : α → Except ε β}
    (hx : Gives P x) (hf : ∀ a, P a → Gives Q (f a)) : Gives Q (x >>= f) := by
  cases x with
  | ok a => exact hf a hx
  | error _ => trivial

theorem mem_ite {p : Prop} [Decidable p] {a b : State} {m : Mem} (ha : a.mem = m) (hb : b.mem = m) :
    (if p then a else b).mem = m := by
  split
  · exact ha
  · exact hb

@[simp] theorem inCkpts_mem (u : Nat) (f : State → State) (s : State) : (inCkpts u f s).mem = s.mem := rfl

theorem lasting_mem (u : Nat) {f : State → State} (hf : ∀ s, (f s).mem = s.mem) (s : State) :
    (lasting u f s).mem = s.mem := hf _

theorem lasting_wf (u : Nat) {f : State → State} (hf : ∀ s, s.mem.wf = true → (f s).mem.wf = true) {s : State}
    (w : s.mem.wf = true) : (lasting u f s).mem.wf = true := hf _ w

@[simp] theorem State.ticked_mem (s : State) : (State.ticked s).mem = s.mem := rfl

theorem deliverGnl_wf {s : State} (w : s.mem.wf = true) (g : GnlWrite) : (deliverGnl g s).mem.wf = true := by
  cases g with
  | irq n => exact w
  | mirror pa bs => exact Mem.wf_writeAll w _

theorem trapIf_stop {s : State} {kind : Nat} {lanes : Mask} {e : Stop} (h : trapIf s kind lanes = .error e) : e.Wf := by
  unfold trapIf at h
  grind [Stop.Wf]

theorem stallIf_stop {c : Bool} {e : Stop} (h : stallIf c = .error e) : e.Wf := by
  unfold stallIf at h
  grind [Stop.Wf]

@[simp] theorem advanceAt_mem (c : Cursor) (s : State) : (advanceAt c s).mem = s.mem := rfl

@[simp] theorem State.waits_mem (s : State) : (State.waits s).mem = s.mem := rfl

theorem checkEncoding_stop {g : Guard} {ops : List Operand} {last : Bool} {s : State} {e : Stop}
    (h : checkEncoding g ops last s = .error e) : e.Wf := by
  unfold checkEncoding at h
  simp only [bind, Except.bind] at h
  grind [trapIf_stop, Stop.Wf]

theorem checkState_stop {g : Guard} {ops : List Operand} {s : State} {e : Stop} (h : checkState g ops s = .error e)
    : e.Wf := by
  unfold checkState at h
  simp only [bind, Except.bind] at h
  grind [trapIf_stop, Stop.Wf]

theorem checkIssue_stop {g : Guard} {ops : List Operand} {last : Bool} {s : State} {e : Stop}
    (h : checkIssue g ops last s = .error e) : e.Wf := by
  unfold checkIssue at h
  simp only [bind, Except.bind] at h
  grind [stallIf_stop, checkEncoding_stop, checkState_stop, Stop.Wf]

@[simp] theorem enqueue_mem (t : Fin 5) (n : Nat) (s : State) : (enqueue t n s).mem = s.mem := rfl

/-! ### Translation -/

theorem leafOf_mem {who : TlbOf} {asid : Nat} {secure : Bool} {va : Nat} {x0 : Leaf} {s t : State}
    (h : leafOf s who asid secure va = .ok (x0, t)) : t.mem = s.mem := by
  refine (?_ : Gives (fun x => x.2.mem = s.mem) (leafOf s who asid secure va)).elim h
  unfold leafOf
  extract_lets near
  split
  · rfl
  rename_i fill d _ _
  have hfill (e : TlbEnt) (u : State) : (fill e u).mem = u.mem := by
    unfold fill
    cases who <;> rfl
  clear_value fill
  split
  · exact hfill _ _
  split
  · trivial
  · exact (hfill _ _).trans (State.updDie_mem ..)

theorem translate_mem {who : TlbOf} {asid : Nat} {secure : Bool} {k : AccKind} {va : DWord} {x0 : Nat} {x1 : Leaf}
    {s t : State} (h : translate s who asid secure k va = .ok (x0, x1, t)) : t.mem = s.mem := by
  unfold translate at h
  simp only [bind, Except.bind, pure, Except.pure] at h
  grind [leafOf_mem]

/-! ### Race records -/

@[simp] theorem evictRecords_mem (s : State) : (evictRecords s).mem = s.mem := rfl

@[simp] theorem recordGran_mem (u : Nat) (c : Bool) (agent : Word) (entered : Nat) (write : Bool) (atom : Option Scope)
    (w : Nat) (s : State) : (recordGran s u c agent entered write atom w).mem = s.mem := rfl

@[simp] theorem linesPerformed_mem (agent : Word) (t0 : Nat) (ws : List Nat) (s : State) :
    (linesPerformed agent t0 ws s).mem = s.mem := rfl

@[simp] theorem gransPerformed_mem (u : Nat) (c : Bool) (agent : Word) (t0 : Nat) (ws : List Nat) (s : State) :
    (gransPerformed u c agent t0 ws s).mem = s.mem := rfl

/-! ### Accesses of memory -/

theorem failWith_stop {s : State} {kind : Nat} {write : Bool} {bad : Bad} {e : Stop}
    (h : failWith s kind write bad = .error e) : e.Wf := by
  unfold failWith at h
  grind [Stop.Wf]

theorem failRace_stop {s : State} {write : Bool} {bad : List (Req × DWord × RaceWith)} {e : Stop}
    (h : failRace s write bad = .error e) : e.Wf := by
  unfold failRace at h
  grind [Stop.Wf]

theorem xlateAll_mem (s : State) (who : TlbOf) (asid : Nat) (secure : Bool) (k : AccKind) (rs : List Req) :
    (xlateAll s who asid secure k rs).2.2.mem = s.mem := (xlateAll_fills s who asid secure k rs).mem

theorem globalCheck_mem {s t : State} {k : AccKind} {reads align : Bool} {rs : List Req} {gs : List Got}
    (h : globalCheck s k reads align rs = .ok (gs, t)) : t.mem = s.mem := (globalCheck_fills h).mem

theorem globalCheck_stop {s : State} {k : AccKind} {reads align : Bool} {rs : List Req} {e : Stop}
    (h : globalCheck s k reads align rs = .error e) : e.Wf := by
  refine (?_ : LeavesWf (fun _ => True) (globalCheck s k reads align rs)).error h
  refine .after (fun _ => stallIf_stop) fun _ => .after (fun _ => stallIf_stop) fun _ => .after (fun _ => failWith_stop) fun _ =>
    .after (fun _ => failWith_stop) fun _ => .after (fun _ => failWith_stop) fun _ => .after (fun _ => stallIf_stop) fun _ =>
    .after (fun _ => failWith_stop) fun _ => trivial

@[simp] theorem fillL1_mem (core line : Nat) (s : State) : (fillL1 core line s).mem = s.mem := rfl

@[simp] theorem recordAt_mem (agent : Word) (t entered : Nat) (write : Bool) (atom : Option Scope) (pa n : Nat)
    (s : State) : (recordAt s agent t entered write atom pa n).mem = s.mem := by
  unfold recordAt
  grind [recordWords_mem]

theorem noteOverflow_wf {s : State} (w : s.mem.wf = true) (d : Nat) : (noteOverflow d s).mem.wf = true := by
  unfold noteOverflow
  grind [State.updDie_mem, sendIrq_mem, bbWrite_wf]

theorem overflowAt_wf {pa : Nat} {s t : State} (w : s.mem.wf = true) (h : overflowAt pa s = some t) : t.mem.wf = true := by
  obtain ⟨p, -, h⟩ := Option.bind_eq_some_iff.mp h
  grind [noteOverflow_wf]

@[simp] theorem engEscape_mem (u : Nat) (s : State) : (engEscape u s).mem = s.mem := by
  unfold engEscape
  grind [escape_mem]

@[simp] theorem dropCopies_mem (l : List (Nat × Byte)) (s : State) : (dropCopies l s).mem = s.mem := rfl

@[simp] theorem releaseDone_mem (sc : Option Scope) (s : State) : (releaseDone sc s).mem = s.mem := by
  unfold releaseDone
  grind [releaseAt_mem]

theorem stallFrom_stop {s : State} {c : Bool} {e : Stop} (w : s.mem.wf = true) (h : stallFrom s c = .error e) : e.Wf := by
  unfold stallFrom at h
  split at h
  · cases h; exact w
  · cases h

@[simp] theorem addOpRel_mem (afterOut read : Bool) (rel : Option Scope) (s : State) :
    (addOpRel afterOut read rel s).mem = s.mem := rfl

theorem opRoom_stop {s : State} {e : Stop} (h : opRoom s = .error e) : e.Wf := by
  unfold opRoom at h
  grind [stallIf_stop, Stop.Wf]

def AnyChange : Changes := ⟨fun _ => True, fun _ => True, True, True, True, True⟩

theorem readAllReqs_mem (s : State) (a : Acc) (gs : List Got) : (readAllReqs s a gs).2.mem = s.mem :=
  (readAllReqs_kept (A := AnyChange) a gs s).mem

theorem loadGlobal_mem {s t : State} {acq : Option Scope} {align : Bool} {rs : List Req} {bs : List (List Byte)}
    (h : loadGlobal s acq align rs = .ok (bs, t)) : t.mem = s.mem := (loadGlobal_kept (A := AnyChange) trivial h).mem

theorem loadGlobal_stop {s : State} {acq : Option Scope} {align : Bool} {rs : List Req} {e : Stop}
    (h : loadGlobal s acq align rs = .error e) : e.Wf := by
  obtain h | ⟨_, -, h⟩ := bind_eq_error h
  · exact globalCheck_stop h
  obtain h | ⟨_, -, h⟩ := bind_eq_error h
  · exact stallIf_stop h
  obtain h | ⟨_, -, h⟩ := bind_eq_error h
  · exact failRace_stop h
  · cases h

@[simp] theorem overNt_mem (l : List (Nat × Byte)) (s : State) : (overNt l s).mem = s.mem := rfl

@[simp] theorem wrote_mem (s : State) : (wrote s).mem = s.mem := rfl

theorem storeGlobal_stop {s : State} {rel : Option Scope} {rs : List Req} {data : List (List Byte)} {e : Stop}
    (h : storeGlobal s rel rs data = .error e) : e.Wf := by
  refine (?_ : LeavesWf (fun _ => True) (storeGlobal s rel rs data)).error h
  exact .after (fun _ => globalCheck_stop) fun _ => .after (fun _ => failRace_stop) fun _ =>
    .after (fun _ => stallIf_stop) fun _ => trivial

@[simp] theorem drainPart_mem (pick : Nat → Bool) (blk warp : Nat) (s : State) :
    (drainPart pick s blk warp).mem = s.mem := by
  unfold drainPart
  grind [State.updBody_mem, emit_mem]

@[simp] theorem drainOf_mem (blk warp : Nat) (s : State) : (drainOf s blk warp).mem = s.mem := by
  unfold drainOf
  grind [drainPart_mem]

@[simp] theorem dropNt_mem (blk warp : Nat) (s : State) : (dropNt s blk warp).mem = s.mem := rfl

theorem atomHome_wf {s t : State} {op : Option AtomOp} {ls : List AtomLane} {sc : Scope} {xs : List (Fin 32 × Word)}
    (w : s.mem.wf = true) (h : atomHome s op ls sc = some (xs, t)) : t.mem.wf = true := by
  obtain ⟨u, hu, h⟩ := Option.map_eq_some_iff.mp h
  have ht := (Prod.mk.inj h).2
  subst ht
  have hw := performBytes_wf w _ hu
  simp only [escape_mem, flagWarp_mem, recordWords_mem, writeThrough_mem]
  split <;> exact hw

theorem atomNote_wf {s : State} (w : s.mem.wf = true) (op : Option AtomOp) (ls : List AtomLane) :
    (atomNote s op ls).mem.wf = true := by
  unfold atomNote
  dsimp only
  cases h : overflowAt
    (lackAt s (wordBytes (atomFold op (fun a => w32 (leNat (s.mem.readN a 4))) (AtomLane.args ls)).2.1)) s with
  | none => exact w
  | some t => exact overflowAt_wf w h

theorem atomL1_mem (s : State) (op : Option AtomOp) (ls : List AtomLane) (sc : Scope) (va : DWord) :
    (atomL1 s op ls sc va).2.mem = s.mem := by
  unfold atomL1
  simp [flagWarp_mem, overNt_mem]

theorem bufCheck_stop {s : State} {c reads write align : Bool} {rs : List Req} {e : Stop}
    (h : bufCheck s c reads write align rs = .error e) : e.Wf := by
  refine (?_ : LeavesWf (fun _ => True) (bufCheck s c reads write align rs)).error h
  exact .after (fun _ => stallIf_stop) fun _ => .after (fun _ => stallIf_stop) fun _ => .after (fun _ => failWith_stop) fun _ =>
    .after (fun _ => failWith_stop) fun _ => .after (fun _ => failWith_stop) fun _ => .after (fun _ => stallIf_stop) fun _ =>
    trivial

theorem recordBuf_mem (u : Nat) (c : Bool) (agent : Word) (write : Bool) (atom : Option Scope) (off n : Nat) (s : State) :
    (recordBuf s u c agent write atom off n).mem = s.mem :=
  foldl_keeps State.mem (fun s w => recordGran s u c agent s.instant write atom w) (fun _ _ => rfl) _ _

@[simp] theorem farRead_mem (gs : List BGot) (s : State) : (farRead s gs).mem = s.mem := by
  unfold farRead
  grind [escape_mem]

theorem loadBuf_keeps {s : State} {c align : Bool} {rs : List Req} :
    LeavesWf (fun x => x.2.mem = s.mem) (loadBuf s c align rs) := by
  exact .after (fun _ => bufCheck_stop) fun _ => .after (fun _ => stallIf_stop) fun _ => .after (fun _ => failRace_stop) fun _ =>
    (foldl_keeps State.mem _ (fun t g => recordBuf_mem ..) _ _).trans (farRead_mem ..)

theorem loadBuf_mem {s t : State} {c align : Bool} {rs : List Req} {bs : List (List Byte)}
    (h : loadBuf s c align rs = .ok (bs, t)) : t.mem = s.mem :=
  loadBuf_keeps.ok h

theorem loadBuf_stop {s : State} {c align : Bool} {rs : List Req} {e : Stop} (h : loadBuf s c align rs = .error e)
    : e.Wf :=
  loadBuf_keeps.error h

@[simp] theorem writeBuf_mem (u : Nat) (c : Bool) (l : List (Nat × Byte)) (s : State) : (writeBuf u c l s).mem = s.mem := rfl

theorem storeBuf_mem {s t : State} {c : Bool} {rs : List Req} {data : List (List Byte)}
    (h : storeBuf s c rs data = .ok t) : t.mem = s.mem := (storeBuf_kept (A := AnyChange) trivial trivial trivial h).mem

theorem storeBuf_stop {s : State} {c : Bool} {rs : List Req} {data : List (List Byte)} {e : Stop}
    (h : storeBuf s c rs data = .error e) : e.Wf := by
  refine (?_ : LeavesWf (fun _ => True) (storeBuf s c rs data)).error h
  exact .after (fun _ => bufCheck_stop) fun _ => .after (fun _ => failRace_stop) fun _ => .after (fun _ => stallIf_stop) fun _ =>
    trivial

theorem atomBuf_mem (c : Bool) (op : Option AtomOp) (sc : Scope) (xs : List (BGot × Fin 32 × Word × Word)) (s : State) :
    (atomBuf s c op sc xs).2.mem = s.mem := by
  unfold atomBuf
  simp only [flagWarp_mem]
  exact foldl_keeps State.mem _ (fun t p => by rw [recordBuf_mem, writeBuf_mem]) _ _

/-! ### Operands and destinations -/

theorem streamBytes_keeps {s : State} {m : Mask} {z : Stream} :
    LeavesWf (fun x => x.2.mem = s.mem) (streamBytes s m z) := by
  refine .ite (.bind (P := fun x => x.2.mem = s.mem) (.of_eqs (fun _ => globalCheck_mem) fun _ => globalCheck_stop) fun x hx => ?_)
    (.after (fun _ => bufCheck_stop) fun gs => ?_)
  · exact .after (fun _ => stallIf_stop) fun _ => (readAllReqs_mem ..).trans hx
  · exact .after (fun _ => stallIf_stop) fun _ => farRead_mem ..

theorem streamBytes_mem {s t : State} {m : Mask} {z : Stream} {x : List (Fin 32 × List Byte)}
    (h : streamBytes s m z = .ok (x, t)) : t.mem = s.mem :=
  streamBytes_keeps.ok h

theorem streamBytes_stop {s : State} {m : Mask} {z : Stream} {e : Stop} (h : streamBytes s m z = .error e) : e.Wf :=
  streamBytes_keeps.error h

@[simp] theorem fetchStreams_mem (s : State) : (fetchStreams s).mem = s.mem := by
  unfold fetchStreams
  exact mem_ite rfl rfl

theorem streamLoad_keeps {s : State} {m : Mask} {z : Stream} :
    LeavesWf (fun x => x.2.mem = s.mem) (streamLoad s m z) :=
  .bind (P := fun x => x.2.mem = s.mem) (.of_eqs (fun _ => streamBytes_mem) fun _ => streamBytes_stop) fun _ hx => by exact hx

theorem streamLoad_mem {s t : State} {m : Mask} {z : Stream} {x : Lanes Word} (h : streamLoad s m z = .ok (x, t))
    : t.mem = s.mem :=
  streamLoad_keeps.ok h

theorem streamLoad_stop {s : State} {m : Mask} {z : Stream} {e : Stop} (h : streamLoad s m z = .error e) : e.Wf :=
  streamLoad_keeps.error h

theorem readStream_keeps {m ml : Mask} {n : Fin 8} {s0 st : State} {preds : Vector Mask 7} :
    LeavesWf (fun x => x.2.1.mem = st.mem) (readStream m ml n s0 st preds) := by
  unfold readStream
  split
  · exact .after (fun _ => trapIf_stop) fun _ => rfl
  · refine .ite rfl (.bind (P := fun x => x.2.mem = st.mem) ?_ fun x hx => ?_)
    · exact .of_eqs (fun _ => streamLoad_mem) fun _ => streamLoad_stop
    · exact hx

theorem readStream_mem {m ml : Mask} {n : Fin 8} {s0 st t : State} {preds p : Vector Mask 7} {x : Lanes Word}
    (h : readStream m ml n s0 st preds = .ok (x, t, p)) : t.mem = st.mem :=
  readStream_keeps.ok h

theorem readStream_stop {m ml : Mask} {n : Fin 8} {s0 st : State} {preds : Vector Mask 7} {e : Stop}
    (h : readStream m ml n s0 st preds = .error e) : e.Wf :=
  readStream_keeps.error h

theorem readSrc_keeps {m r : Mask} {s0 : State} {acc : Reading} {q : SrcSpec} :
    LeavesWf (fun x => x.st.mem = acc.st.mem) (readSrc m r s0 acc q) := by
  refine .after (fun _ => trapIf_stop) fun _ => .after (fun _ => trapIf_stop) fun _ =>
    .bind (P := fun x => x.2.1.mem = acc.st.mem) ?_ fun x hx => .after (fun _ => trapIf_stop) fun _ => ?_
  · split
    · exact readStream_keeps
    · rfl
  · exact hx

theorem readSrc_mem {m r : Mask} {s0 : State} {acc x : Reading} {q : SrcSpec}
    (h : readSrc m r s0 acc q = .ok x) : x.st.mem = acc.st.mem :=
  readSrc_keeps.ok h

theorem readSrc_stop {m r : Mask} {s0 : State} {acc : Reading} {q : SrcSpec} {e : Stop}
    (h : readSrc m r s0 acc q = .error e) : e.Wf :=
  readSrc_keeps.error h

theorem readSrcs_mem {m r : Mask} {s0 : State} {qs : List SrcSpec} {acc x : Reading}
    (h : qs.foldlM (readSrc m r s0) acc = .ok x) : x.st.mem = acc.st.mem := by
  induction qs generalizing acc with
  | nil => cases h; rfl
  | cons q qs ih =>
    obtain ⟨y, hy, h⟩ := bind_eq_ok h
    exact (ih h).trans (readSrc_mem hy)

theorem readAll_mem {g : Guard} {qs : List SrcSpec} {s : State} {r : Reading} (h : readAll g qs s = .ok r)
    : r.st.mem = s.mem :=
  readSrcs_mem h

theorem readAll_stop {g : Guard} {qs : List SrcSpec} {s : State} {e : Stop} (h : readAll g qs s = .error e) : e.Wf :=
  foldlM_stop (fun _ _ _ => readSrc_stop) h

theorem putFaults_stop {s : State} {qs : List Put} {vAfter : AMap Slot} {e : Stop} (h : putFaults s qs vAfter = .error e) :
    e.Wf := by
  obtain h | ⟨_, -, h⟩ := bind_eq_error h
  · exact forM_stop (fun _ _ => trapIf_stop) h
  obtain h | ⟨_, -, h⟩ := bind_eq_error h
  · exact forM_stop (fun _ _ => trapIf_stop) h
  · exact trapIf_stop h

theorem destCheck_stop {r : Reading} {qs : List Put} {s : State} {e : Stop} (h : destCheck r qs s = .error e) : e.Wf := by
  unfold destCheck at h
  simp only [bind, Except.bind] at h
  grind [stallIf_stop, putFaults_stop, Stop.Wf]

theorem commit_mem {r : Reading} {qs : List Put} {s t : State} (h : commit r qs s = .ok t) : t.mem = r.st.mem := by
  obtain ⟨-, rfl⟩ := commit_eq_ok h
  exact written_mem r qs s

theorem commit_stop {r : Reading} {qs : List Put} {s : State} {e : Stop} (h : commit r qs s = .error e) : e.Wf := by
  unfold commit at h
  simp only [bind, Except.bind, pure, Except.pure] at h
  grind [destCheck_stop, Stop.Wf]

@[simp] theorem fillLate_mem (u wn : Nat) (d : Late) (m : Mask) (val : Lanes Word) (s : State) :
    (fillLate u wn d m val s).mem = s.mem := by
  unfold fillLate
  split <;> rfl

theorem noLate_stop {s : State} {e : Stop} (h : noLate s = .error e) : e.Wf := by
  unfold noLate at h
  grind [stallIf_stop, Stop.Wf]

theorem runAlu_mem {g : Guard} {qs : List SrcSpec} {d : Dst} {f : Reading → Fin 32 → Word × Flags} {s t : State}
    (h : runAlu g qs d f s = .ok t) : t.mem = s.mem := by
  obtain ⟨_, -, h⟩ := bind_eq_ok h
  obtain ⟨r, hr, h⟩ := bind_eq_ok h
  obtain ⟨u, hu, h⟩ := bind_eq_ok h
  cases h
  rw [setFlags_mem, commit_mem hu, readAll_mem hr]

theorem runAlu_stop {g : Guard} {qs : List SrcSpec} {d : Dst} {f : Reading → Fin 32 → Word × Flags} {s : State} {e : Stop}
    (h : runAlu g qs d f s = .error e) : e.Wf := by
  unfold runAlu at h
  simp only [bind, Except.bind, pure, Except.pure] at h
  grind [checkIssue_stop, readAll_stop, commit_stop, Stop.Wf]

theorem runPair_mem {g : Guard} {qs : List SrcSpec} {d : Dst} {f : Reading → Fin 32 → DWord × Flags} {s t : State}
    (h : runPair g qs d f s = .ok t) : t.mem = s.mem := by
  obtain ⟨_, -, h⟩ := bind_eq_ok h
  obtain ⟨r, hr, h⟩ := bind_eq_ok h
  obtain ⟨u, hu, h⟩ := bind_eq_ok h
  cases h
  rw [setFlags_mem, commit_mem hu, readAll_mem hr]

theorem runPair_stop {g : Guard} {qs : List SrcSpec} {d : Dst} {f : Reading → Fin 32 → DWord × Flags} {s : State}
    {e : Stop} (h : runPair g qs d f s = .error e) : e.Wf := by
  unfold runPair at h
  simp only [bind, Except.bind, pure, Except.pure] at h
  grind [checkIssue_stop, readAll_stop, commit_stop, Stop.Wf]

/-! ### Streams and clauses -/

theorem fetchWord_mem {core : Nat} {la : Launch} {off : Nat} {x0 : DWord} {s t : State}
    (h : fetchWord s core la off = .ok (x0, t)) : t.mem = s.mem := by
  unfold fetchWord at h
  simp only [bind, Except.bind, pure, Except.pure] at h
  grind [translate_mem]

theorem fetchClause_mem {s t : State} {core off n : Nat} {la : Launch} {ws : List DWord}
    (h : fetchClause s core la off n = .ok (ws, t)) : t.mem = s.mem := by
  refine (?_ : Gives (fun x => x.2.mem = s.mem) (fetchClause s core la off n)).elim h
  clear h
  induction n generalizing s off with
  | zero => rfl
  | succ n ih =>
    refine .ite trivial ?_
    split
    · trivial
    · next hw =>
      split
      · trivial
      · next hc => exact (ih.elim hc).trans (fetchWord_mem hw)

theorem popItem_mem {u wn : Nat} {x0 : Option Word} {s t : State} (h : popItem u wn s = .ok (x0, t)) : t.mem = s.mem := by
  refine (?_ : Gives (fun x => x.2.mem = s.mem) (popItem u wn s)).elim h
  unfold popItem
  extract_lets b la core
  split
  · rfl
  refine .ite rfl ?_
  extract_lets
  split
  · trivial
  · next ht =>
    have hmem := translate_mem ht
    exact .ite trivial hmem

theorem popFor_mem {u wn : Nat} {l : List (Fin 32)} {s t : State} {xs : List (Fin 32 × Word)} {e : Bool}
    (h : popFor u wn l s = .ok (xs, e, t)) : t.mem = s.mem := by
  refine (?_ : Gives (fun x => x.2.2.mem = s.mem) (popFor u wn l s)).elim h
  clear h
  induction l generalizing s with
  | nil => rfl
  | cons a l ih =>
    unfold popFor
    split
    · trivial
    · next hp => exact popItem_mem hp
    · next hp =>
      split
      · trivial
      · next hl => exact (ih.elim hl).trans (popItem_mem hp)

@[simp] theorem reviveShare_mem (u wn : Nat) (w : Warp) (s : State) : (reviveShare u wn w s).mem = s.mem := by
  unfold reviveShare
  grind [State.updBody_mem]

theorem retireWarp_wf {s : State} (w : s.mem.wf = true) (u wn : Nat) : (retireWarp u wn s).mem.wf = true := by
  unfold retireWarp
  grind [State.updBody_mem, State.updWarpOf_mem]

theorem postRefill_wf {s : State} (w : s.mem.wf = true) (u wn : Nat) (e : PopFail) :
    (postRefill u wn e s).mem.wf = true := by
  unfold postRefill
  grind [State.updWarpOf_mem, postFault_mem, worldNote_wf]

theorem endWarp_wf {s : State} (w : s.mem.wf = true) (u wn : Nat) : (endWarp u wn s).mem.wf = true := by
  unfold endWarp
  grind [State.updWarpOf_mem, retireWarp_wf]

theorem autoRefill_wf {s : State} (w : s.mem.wf = true) (u wn : Nat) : (autoRefill u wn s).mem.wf = true := by
  unfold autoRefill
  extract_lets b x
  split
  · exact endWarp_wf w _ _
  refine wf_ite w ?_
  split
  · exact wf_ite (terminate_wf w _ _ _ _ _) (postRefill_wf w _ _ _)
  · next hp =>
    have w1 := wf_of_mem_eq (popFor_mem hp) w
    exact wf_ite (endWarp_wf w1 _ _) (wf_ite (terminate_wf w _ _ _ _ _) (wf_ite w
      (wf_of_mem_eq ((settleExit_mem ..).trans ((State.updWarpOf_mem ..).trans (reviveShare_mem ..))) w1)))

theorem exitLanes_wf {s : State} (w : s.mem.wf = true) (u wn : Nat) (m : Mask) : (exitLanes u wn m s).mem.wf = true := by
  refine wf_ite w ?_
  extract_lets x turn after s1 s2 s3 y
  have w2 : s2.mem.wf = true := wf_ite (trapEnds_wf (s := s1) w _ _) w
  have w3 : s3.mem.wf = true := wf_of_mem_eq (settleExit_mem ..) w2
  exact wf_ite w3 (autoRefill_wf (wf_of_mem_eq ((State.updWarpOf_mem ..).trans (drainOf_mem ..)) w3) _ _)

/-! ### Memory instructions -/

theorem memStart_stop {g : Guard} {ops : List Operand} {s : State} {e : Stop} (h : memStart g ops s = .error e) : e.Wf := by
  refine (?_ : LeavesWf (fun _ => True) (memStart g ops s)).error h
  exact .after (fun _ => checkIssue_stop) fun _ => .ite trivial <| .after (fun _ => stallIf_stop) fun _ =>
    .after (fun _ => opRoom_stop) fun _ => trivial

@[simp] theorem countedRel_mem (m : Mask) (afterOut : Bool) (rel : Option Scope) (s : State) :
    (countedRel m afterOut rel s).mem = s.mem := by
  unfold countedRel
  grind [addOpRel_mem]

theorem drainCheck_stop {pick : Nat → Bool} {m : Mask} {s : State} {e : Stop} (h : drainCheck pick m s = .error e)
    : e.Wf := by
  unfold drainCheck at h
  simp only [bind, Except.bind] at h
  grind [stallIf_stop, failRace_stop, Stop.Wf]

@[simp] theorem waitAtomic_mem (num : Nat) (d : Late) (acq : Option Scope) (s : State) :
    (waitAtomic num d acq s).mem = s.mem := rfl

theorem emitHost_mem (op : Option AtomOp) (ls : List AtomLane) (sc : Scope) (rel : Option Scope) (d : Option Dst) (num : Nat)
    (s : State) : (emitHost op ls sc rel d num s).mem = s.mem :=
  foldl_keeps State.mem _ (fun _ _ => emit_mem _ _ _ _) _ _

theorem atomHomeIf_wf {s t : State} {p : Prop} [Decidable p] {op : Option AtomOp} {ls : List AtomLane} {sc : Scope}
    {xs : List (Fin 32 × Word)} (w : s.mem.wf = true) (h : (if p then some ([], s) else atomHome s op ls sc) = some (xs, t))
      :
    t.mem.wf = true := by
  split at h
  · cases h; exact w
  · exact atomHome_wf w h

theorem wroteIf_mem (m : Mask) (s : State) : (if m = 0 then s else wrote s).mem = s.mem := by
  split
  · rfl
  · exact wrote_mem s

theorem acquiredIf_mem (p : Prop) [Decidable p] (a b : Option Scope) (s : State) :
    (if p then s else acquireNow a (releaseDone b s)).mem = s.mem := by
  split
  · rfl
  · rw [acquireNow_mem, releaseDone_mem]

/-! ### Accesses of memory -/

theorem globalCheck_leaves {s : State} {k : AccKind} {reads align : Bool} {rs : List Req} (w : s.mem.wf = true) :
    LeavesWf (fun x => x.2.mem.wf = true) (globalCheck s k reads align rs) := by
  cases h : globalCheck s k reads align rs with
  | ok x => exact wf_of_mem_eq (globalCheck_mem h) w
  | error e => exact globalCheck_stop h

/-! ### Operands and destinations -/

theorem commit_leaves {r : Reading} {qs : List Put} {s : State} (w : r.st.mem.wf = true) :
    LeavesWf (fun t : State => t.mem.wf = true) (commit r qs s) := by
  cases h : commit r qs s with
  | ok x => exact wf_of_mem_eq (commit_mem h) w
  | error e => exact commit_stop h

theorem drained_leaves {α β : Type} {P : α → Prop} {s : State} (w : s.mem.wf = true) (pick : Nat → Bool) (m : Mask)
    {f : β → Except Stop α} :
    LeavesWf P (do drainCheck pick m s; let x ← .error (.again (drainPart pick s s.cur.blk s.cur.warp)); f x) :=
  LeavesWf.after (fun _ => drainCheck_stop) fun _ => wf_of_mem_eq (drainPart_mem ..) w

/-! ### Memory instructions -/

theorem atomGlobal_leaves {s : State} {r : Reading} {m : Mask} {d : Dst} {op : Option AtomOp} {sc : Scope} {od : AOrder}
    {addr : Fin 32 → DWord} {cmp x : Fin 32 → Word} (w : s.mem.wf = true) (wr : r.st.mem.wf = true) :
    LeavesWf (fun t : State => t.mem.wf = true) (atomGlobal s r m d op sc od addr cmp x) := by
  refine .after (fun _ => destCheck_stop) fun _ => (globalCheck_leaves wr).bind fun y wy => ?_
  refine .ite (drained_leaves w _ _) ?_
  refine LeavesWf.after (fun _ => stallFrom_stop w) fun _ => LeavesWf.after (fun _ => stallIf_stop) fun _ =>
    LeavesWf.after (fun _ => stallIf_stop) fun _ => LeavesWf.after (fun _ => stallIf_stop) fun _ =>
    LeavesWf.after (fun _ => failRace_stop) fun _ => LeavesWf.after (fun _ => stallIf_stop) fun _ => ?_
  extract_lets num l1 host va
  split
  · exact atomNote_wf w _ _
  · next xs v hv =>
    have wv := atomHomeIf_wf wy hv
    refine (commit_leaves ?_).bind fun t wt => ?_
    · have w3 : (if l1.isEmpty = true then ([], v) else atomL1 v op l1 sc va).2.mem.wf = true := by
        split
        · exact wv
        · exact wf_of_mem_eq (atomL1_mem ..) wv
      exact wf_of_mem_eq ((wroteIf_mem ..).trans (acquiredIf_mem ..)) (wf_ite w3 (wf_of_mem_eq (emitHost_mem ..) w3))
    · exact wf_ite (wf_of_mem_eq (counted_mem ..) wt) (wf_of_mem_eq ((waitAtomic_mem ..).trans (counted_mem ..)) wt)

theorem atomBuffer_leaves {s : State} {r : Reading} {m : Mask} {d : Dst} {c : Bool} {op : Option AtomOp} {sc : Scope}
    {od : AOrder} {addr : Fin 32 → DWord} {cmp x : Fin 32 → Word} (w : s.mem.wf = true) (wr : r.st.mem.wf = true) :
    LeavesWf (fun t : State => t.mem.wf = true) (atomBuffer s r m d c op sc od addr cmp x) := by
  unfold atomBuffer
  refine LeavesWf.after (fun _ => destCheck_stop) fun _ => LeavesWf.after (fun _ => bufCheck_stop) fun gs =>
    LeavesWf.after (fun _ => failRace_stop) fun _ => ?_
  dsimp only
  refine LeavesWf.after (fun _ => stallIf_stop) fun _ => LeavesWf.after (fun _ => stallFrom_stop w) fun _ =>
    LeavesWf.after (fun _ => stallIf_stop) fun _ => (commit_leaves ?_).bind fun t wt => ?_
  · dsimp only
    rw [wroteIf_mem, acquiredIf_mem, foldl_keeps State.mem _ (fun _ _ => emit_mem ..), atomBuf_mem]
    exact wr
  · split
    · exact wf_of_mem_eq (counted_mem ..) wt
    · exact wf_of_mem_eq ((waitAtomic_mem ..).trans (counted_mem ..)) wt

theorem emitRed_mem (op : AtomOp) (ls : List AtomLane) (sc : Scope) (rel : Option Scope) (s : State) :
    (emitRed op ls sc rel s).mem = s.mem :=
  foldl_keeps State.mem _ (fun _ _ => emit_mem _ _ _ _) _ _

theorem redGlobal_leaves {s s0 : State} {m : Mask} {op : AtomOp} {sc : Scope} {rel : Bool} {rs : List Req}
    {x : Fin 32 → Word} (w : s.mem.wf = true) (w0 : s0.mem.wf = true) :
    LeavesWf (fun t : State => t.mem.wf = true) (redGlobal s s0 m op sc rel rs x) := by
  unfold redGlobal
  refine (globalCheck_leaves w0).bind fun y wy => ?_
  dsimp only
  split
  · exact drained_leaves w _ _
  refine LeavesWf.after (fun _ => failRace_stop) fun _ => LeavesWf.after (fun _ => stallFrom_stop w) fun _ =>
    LeavesWf.after (fun _ => stallIf_stop) fun _ => LeavesWf.after (fun _ => stallIf_stop) fun _ =>
    LeavesWf.after (fun _ => stallIf_stop) fun _ => LeavesWf.after (fun _ => stallIf_stop) fun _ => ?_
  split
  · exact atomNote_wf w _ _
  · next v hv =>
    have wv := atomHomeIf_wf wy hv
    refine wf_ite ?_ (wf_of_mem_eq (wrote_mem _) (wf_ite (wf_of_mem_eq (releaseDone_mem ..) ?_) ?_))
    all_goals
      exact wf_of_mem_eq ((emitHost_mem ..).trans (emitRed_mem ..)) (wf_ite wv (wf_of_mem_eq (atomL1_mem ..) wv))

theorem redGlobal_wf {s s0 t : State} {m : Mask} {op : AtomOp} {sc : Scope} {rel : Bool} {rs : List Req} {x : Fin 32 → Word}
    (w : s.mem.wf = true) (w0 : s0.mem.wf = true) (h : redGlobal s s0 m op sc rel rs x = .ok t) : t.mem.wf = true := by
  have hl := redGlobal_leaves (m := m) (op := op) (sc := sc) (rel := rel) (rs := rs) (x := x) w w0
  rw [h] at hl
  exact hl

@[simp] theorem prefL1_mem (va : DWord) (s : State) : (prefL1 va s).mem = s.mem := by
  unfold prefL1
  grind [translate_mem, fillL1_mem]

/-! ### Control -/

theorem checkJump_stop {s : State} {m : Mask} {t : Lanes Int} {e : Stop} (h : checkJump s m t = .error e) : e.Wf := by
  unfold checkJump at h
  simp only [bind, Except.bind] at h
  grind [trapIf_stop, Stop.Wf]

@[simp] theorem jumpTo_mem (m : Mask) (t : Lanes Int) (s : State) : (jumpTo m t s).mem = s.mem := rfl

theorem checkDirect_stop {s : State} {target : Word} {e : Stop} (h : checkDirect s target = .error e) : e.Wf := by
  unfold checkDirect at h
  grind [trapIf_stop, Stop.Wf]

theorem runIndirect_mem {g : Guard} {a : Operand} {s t : State} (h : runIndirect g a s = .ok t) : t.mem = s.mem := by
  obtain ⟨_, -, h⟩ := bind_eq_ok h
  obtain ⟨r, hr, h⟩ := bind_eq_ok h
  obtain ⟨_, -, h⟩ := bind_eq_ok h
  obtain ⟨u, hu, h⟩ := bind_eq_ok h
  cases h
  rw [jumpTo_mem, commit_mem hu, readAll_mem hr]

theorem runIndirect_stop {g : Guard} {a : Operand} {s : State} {e : Stop} (h : runIndirect g a s = .error e) : e.Wf := by
  unfold runIndirect at h
  simp only [bind, Except.bind, pure, Except.pure] at h
  grind [checkIssue_stop, readAll_stop, commit_stop, checkJump_stop, Stop.Wf]

/-! ### Barriers, fences and peer sets -/

theorem checkBar_stop {s : State} {b : Bar} {arrives waits : Bool} {m : Mask} {e : Stop}
    (h : checkBar s b arrives waits m = .error e) : e.Wf := by
  unfold checkBar at h
  simp only [bind, Except.bind] at h
  grind [trapIf_stop, Stop.Wf]

theorem sendArrivals_mem (u wn : Nat) (s : State) : (sendArrivals u wn s).mem = s.mem := by
  refine foldl_keeps State.mem _ (fun t p => ?_) _ _
  refine mem_ite rfl ?_
  extract_lets b
  split
  · exact countArrival_mem ..
  · exact countArrival_mem ..
  · exact (emit_mem ..).trans (State.updWarpOf_mem ..)

@[simp] theorem arrive_mem (b : Bar) (m : Mask) (s : State) : (arrive b m s).mem = s.mem := by
  unfold arrive
  grind [State.updOrd_mem, escape_mem, sendArrivals_mem]

@[simp] theorem waitAt_mem (b : Bar) (m : Mask) (s : State) : (waitAt b m s).mem = s.mem := by
  unfold waitAt
  grind [State.updSplit_mem]

@[simp] theorem fenceBegins_mem (s : State) : (fenceBegins s).mem = s.mem := rfl

@[simp] theorem joinNow_mem (u g : Nat) (s : State) : (joinNow u g s).2.mem = s.mem := by
  unfold joinNow
  extract_lets b l
  split
  · rfl
  · split
    · rfl
    · exact (State.updEng_mem ..).trans (State.updDie_mem ..)

@[simp] theorem joinResult_mem (u wn op : Nat) (w : Word) (s : State) : (joinResult u wn op w s).mem = s.mem := by
  unfold joinResult
  split
  · split
    · exact (State.updWarpOf_mem ..).trans (fillLate_mem ..)
    · rfl
  · rfl

@[simp] theorem joinLeaves_mem (u wn g op : Nat) (s : State) : (joinLeaves u wn g op s).mem = s.mem := by
  unfold joinLeaves
  grind [lasting_mem, joinNow_mem, joinResult_mem]

@[simp] theorem leaveNow_mem (o : OutItem) (s : State) : (leaveNow o s).mem = s.mem := by
  unfold leaveNow
  grind [State.updBlock_mem, lasting_mem, dropPeer_mem]

@[simp] theorem opDone_mem (u wn : Nat) (o : MemOp) (s : State) : (opDone u wn o s).mem = s.mem := by
  unfold opDone
  grind [State.updWarpOf_mem, releaseAt_mem]

/-! ### Engines and their queues -/

theorem faultAt_stop {s : State} {kind : Nat} {m : Mask} {a : Nat} {c : Bool} {e : Stop}
    (h : faultAt s kind m a c = .error e) : e.Wf := by
  unfold faultAt at h
  grind [Stop.Wf]

theorem joinGroup_mem (core u rg : Nat) (x : Nat × DWord × List Byte) (s : State) :
    (joinGroup core u rg x s).mem = s.mem := by
  refine (foldl_keeps State.mem _ (fun t c => ?_) _ _).trans rfl
  split <;> rfl

@[simp] theorem engWriteBuf_mem (u : Nat) (c : Bool) (agent : Word) (off : Nat) (bs : List Byte) (s : State) :
    (engWriteBuf u c agent off bs s).mem = s.mem := by
  unfold engWriteBuf
  grind [recordBuf_mem, writeBuf_mem]

@[simp] theorem engReadBuf_mem (u : Nat) (c : Bool) (agent : Word) (off n : Nat) (s : State) :
    (engReadBuf u c agent off n s).mem = s.mem := by
  unfold engReadBuf
  grind [recordBuf_mem]

@[simp] theorem retireRecord_mem (u : Nat) (x : Nat × DWord × List Byte) (code flags passes mstat : Nat) (s : State) :
    (retireRecord u x code flags passes mstat s).mem = s.mem := by
  unfold retireRecord
  grind [State.updEng_mem, engWriteBuf_mem]

theorem recordAt64_stop {s : State} {m : Mask} {o : Nat} {e : Stop} (h : recordAt64 s m o = .error e) : e.Wf := by
  refine (?_ : LeavesWf (fun _ => True) (recordAt64 s m o)).error h
  refine .after (fun _ => stallIf_stop) fun _ => ?_
  split
  · exact .after (fun _ => faultAt_stop) fun _ => trivial
  · exact .after (fun _ => faultAt_stop) fun _ => .after (fun _ => faultAt_stop) fun _ => trivial

/-! ### Winner lists -/

theorem touchCheck_stop {s : State} {ts : List WTouch} {e : Stop} (h : touchCheck s ts = .error e) : e.Wf := by
  unfold touchCheck at h
  simp only [bind, Except.bind] at h
  grind [stallIf_stop, failRace_stop, Stop.Wf]

theorem touchRecord_mem (ts : List WTouch) (s : State) : (touchRecord ts s).mem = s.mem := by
  refine (foldl_keeps State.mem _ (fun t x => recordBuf_mem ..) _ _).trans ?_
  split <;> rfl

theorem handleOk_stop {s : State} {m : Mask} {h : DWord} {e : Stop} (h : handleOk s m h = .error e) : e.Wf := by
  unfold handleOk at h
  grind [trapIf_stop, Stop.Wf]

theorem rowsOk_stop {s : State} {m : Mask} {h : DWord} {row : Fin 32 → Nat} {e : Stop} (h : rowsOk s m h row = .error e)
    : e.Wf := by
  unfold rowsOk at h
  grind [failWith_stop, Stop.Wf]

@[simp] theorem putCbuf_mem (off : Nat) (bs : List Byte) (s : State) : (putCbuf off bs s).mem = s.mem := rfl

theorem wlinitOp_keeps {m : Mask} {k : Fin 8} {kw : BitVec 6} {f32 : Bool} {o n : Nat} {r : Reading} {s : State} :
    LeavesWf (fun t => t.mem = r.st.mem) (wlinitOp m k kw f32 o n r s) := by
  refine .after (fun _ => destCheck_stop) fun _ => .after (fun _ => trapIf_stop) fun _ => .after (fun _ => faultAt_stop) fun _ =>
    .after (fun _ => faultAt_stop) fun _ => .after (fun _ => faultAt_stop) fun _ => .after (fun _ => touchCheck_stop) fun _ =>
    .bind (P := fun t => t.mem = r.st.mem) ?_ fun t ht => ?_
  · exact .of_eqs (fun _ => commit_mem) fun _ => commit_stop
  · change State.mem _ = _
    rw [State.updReg_mem, touchRecord_mem]
    exact (foldl_keeps State.mem _ (fun t i => putCbuf_mem _ _ t) _ _).trans ht

theorem wlinitOp_mem {m : Mask} {k : Fin 8} {kw : BitVec 6} {f32 : Bool} {o n : Nat} {r : Reading} {s t : State}
    (h : wlinitOp m k kw f32 o n r s = .ok t) : t.mem = r.st.mem :=
  wlinitOp_keeps.ok h

theorem wlinitOp_stop {m : Mask} {k : Fin 8} {kw : BitVec 6} {f32 : Bool} {o n : Nat} {r : Reading} {s : State} {e : Stop}
    (h : wlinitOp m k kw f32 o n r s = .error e) : e.Wf :=
  wlinitOp_keeps.error h

theorem mapHeaders_mem (m : Mask) (h : DWord) (row : Fin 32 → Nat) (f : Fin 32 → Nat → Nat) (s : State) :
    (mapHeaders m h row f s).mem = s.mem :=
  foldl_keeps State.mem _ (fun _ _ => putCbuf_mem _ _ _) _ _

@[simp] theorem mergeRow_mem (hd : DWord) (i : Nat) (hs : DWord) (j : Nat) (s : State) :
    (mergeRow hd i hs j s).mem = s.mem := by
  unfold mergeRow
  grind [putCbuf_mem]

@[simp] theorem clearRow_mem (h : DWord) (seed : Bool) (i : Nat) (s : State) : (clearRow h seed i s).mem = s.mem := rfl

/-! ### Slabs and splices -/

@[simp] theorem setSlab_mem (u n : Nat) (f : Slab → Slab) (s : State) : (setSlab u n f s).mem = s.mem := rfl

@[simp] theorem growEnds_mem (u : Nat) (n : Fin 8) (base : Nat) (ok : Bool) (s : State) :
    (growEnds u n base ok s).mem = s.mem := rfl

theorem softRange_stop {s : State} {m : Mask} {o n : Nat} {e : Stop} (h : softRange s m o n = .error e) : e.Wf := by
  unfold softRange at h
  simp only [bind, Except.bind] at h
  grind [faultAt_stop, Stop.Wf]

@[simp] theorem setSplice_mem (u : Nat) (n e : Fin 8) (f : SpliceEnt → Slab → SpliceEnt) (s : State) :
    (setSplice u n e f s).mem = s.mem := rfl

theorem spliceOp_mem {g : Guard} {n : Fin 8} {f : State → State} {s t : State} (hf : ∀ s, (f s).mem = s.mem)
    (h : spliceOp g n f s = .ok t) : t.mem = s.mem := by
  obtain ⟨_, -, h⟩ := bind_eq_ok h
  obtain ⟨_, -, h⟩ := bind_eq_ok h
  cases h
  split
  · rfl
  · exact hf s

theorem spliceOp_stop {g : Guard} {n : Fin 8} {f : State → State} {s : State} {e : Stop}
    (h : spliceOp g n f s = .error e) : e.Wf := by
  unfold spliceOp at h
  simp only [bind, Except.bind, pure, Except.pure] at h
  grind [checkIssue_stop, trapIf_stop]

/-! ### Messages and collectives -/

theorem ownRange_stop {s : State} {m : Mask} {o n align : Nat} {e : Stop} (h : ownRange s m o n align = .error e)
    : e.Wf := by
  refine (?_ : LeavesWf (fun _ => True) (ownRange s m o n align)).error h
  refine .after (fun _ => stallIf_stop) fun _ => ?_
  split
  · exact .after (fun _ => faultAt_stop) fun _ => trivial
  · exact .after (fun _ => faultAt_stop) fun _ => .after (fun _ => faultAt_stop) fun _ => trivial

theorem sendRange_stop {s : State} {m : Mask} {o n : Nat} {e : Stop} (h : sendRange s m o n = .error e) : e.Wf := by
  obtain h | ⟨_, -, h⟩ := bind_eq_error h
  · exact faultAt_stop h
  · exact ownRange_stop h

@[simp] theorem takeEndpoint_mem (u e : Nat) (s : State) : (takeEndpoint u e s).mem = s.mem := by
  unfold takeEndpoint
  grind [State.updDie_mem, State.updEng_mem, dropEndpoint_mem]

theorem readDieBytes_mem {s t : State} {u va n : Nat} {agent : Word} {bs : List Byte}
    (h : readDieBytes s u agent va n = .ok (bs, t)) : t.mem = s.mem := by
  refine (?_ : Gives (fun x => x.2.mem = s.mem) (readDieBytes s u agent va n)).elim h
  clear h
  induction n with
  | zero => rfl
  | succ n ih =>
    unfold readDieBytes
    split
    · trivial
    · next hn =>
      have hmem := ih.elim hn
      extract_lets b la
      split
      · trivial
      · next ht =>
        exact .ite trivial (.ite trivial (.ite trivial ((recordAt_mem ..).trans ((translate_mem ht).trans hmem))))

theorem readTable_mem {s t : State} {u va : Nat} {agent : Word} {bs : List Byte} (h : readTable s u agent va = .ok (bs, t)) :
    t.mem = s.mem := by
  obtain ⟨⟨hd, v⟩, hv, h⟩ := bind_eq_ok h
  obtain ⟨⟨tl, v'⟩, hv', h⟩ := bind_eq_ok h
  cases h
  rw [readDieBytes_mem hv', readDieBytes_mem hv]

@[simp] theorem joinColl_mem (tag seq : Word) (p : CollPart) (s : State) : (joinColl tag seq p s).mem = s.mem := by
  unfold joinColl
  split <;> rfl

theorem collFault_wf {s : State} (w : s.mem.wf = true) (u : Nat) (p : CollPart) (seq : Word) (va cause : Nat) :
    (collFault u p seq va cause s).mem.wf = true := by
  unfold collFault
  grind [State.uid_mem, postFault_mem, worldNote_wf]

@[simp] theorem pushCall_mem (d : Nat) (c : Call) (s : State) : (pushCall d c s).mem = s.mem := rfl

@[simp] theorem popCall_mem (d : Nat) (s : State) : (popCall d s).mem = s.mem := rfl

@[simp] theorem logMsg_mem (u src : Nat) (m : Msg) (s : State) : (logMsg u src m s).mem = s.mem := rfl

@[simp] theorem deliverTo_mem (u : Nat) (m : Msg) (s : State) : (deliverTo u m s).mem = s.mem := by
  unfold deliverTo
  grind [State.updEng_mem, engWriteBuf_mem, logMsg_mem]

/-! ### Nodes and timelines -/

theorem raiseTimeline_wf {s : State} (w : s.mem.wf = true) (c n : Nat) (v : DWord) :
    (raiseTimeline c n v s).mem.wf = true := by
  unfold raiseTimeline
  grind [State.updCtx_mem, sendIrq_mem]

@[simp] theorem haltEarly_mem (c q status : Nat) (s : State) : (haltEarly c q status s).mem = s.mem := rfl

@[simp] theorem haltLate_mem (c q : Nat) (entry : Word) (fnode status : Nat) (s : State) :
    (haltLate c q entry fnode status s).mem = s.mem := rfl

@[simp] theorem State.updGraph_mem (d gr : Nat) (f : Graph → Graph) (s : State) :
    (State.updGraph d gr f s).mem = s.mem := rfl

theorem settleGraph_wf {s : State} (w : s.mem.wf = true) (d gr : Nat) : (settleGraph d gr s).mem.wf = true := by
  unfold settleGraph
  grind [State.updDie_mem, raiseTimeline_wf]

@[simp] theorem failGraph_mem (d gr node status : Nat) (s : State) : (failGraph d gr node status s).mem = s.mem := by
  unfold failGraph
  split
  · rfl
  · exact mem_ite rfl (State.updDie_mem ..)

theorem endNode_wf {s : State} (w : s.mem.wf = true) (d gr i : Nat) (fail : Option Nat) (skip : List Nat) :
    (endNode d gr i fail skip s).mem.wf = true := by
  unfold endNode
  grind [State.updGraph_mem, settleGraph_wf, failGraph_mem]

/-! ### Launches and queues -/

theorem NoPage.waiting_wf {p : NoPage} {s t : State} (w : s.mem.wf = true) (h : NoPage.waiting p s = some t)
    : t.mem.wf = true := by
  unfold NoPage.waiting at h
  grind [overflowAt_wf]

theorem spanOk_mem {s t : State} {d asid : Nat} {world : Bool} {k : AccKind} {a n : Nat}
    (h : spanOk s d asid world k a n = .ok t) : t.mem = s.mem := by
  refine (?_ : Gives (fun t => t.mem = s.mem) (spanOk s d asid world k a n)).elim h
  refine List.foldlRecOn (motive := fun r : Except NoPage State => Gives (fun t => t.mem = s.mem) r) _ _ ?_
    fun r hr u _ => hr.bind fun x hx => ?_
  · rfl
  split
  · trivial
  · next ht => exact (translate_mem ht).trans hx

theorem readSpan_mem {s t : State} {d asid : Nat} {world : Bool} {a n : Nat} {bs : List Byte}
    (h : readSpan s d asid world a n = .ok (bs, t)) : t.mem = s.mem := by
  refine (?_ : Gives (fun x => x.2.mem = s.mem) (readSpan s d asid world a n)).elim h
  refine List.foldlRecOn (motive := fun r : Except NoPage (List Byte × State) => Gives (fun x => x.2.mem = s.mem) r)
    _ _ ?_ fun r hr u _ => hr.bind fun x hx => ?_
  · rfl
  split
  split
  · trivial
  · next ht => exact .ite trivial ((translate_mem ht).trans hx)

theorem noteNoPage_wf {s : State} (w : s.mem.wf = true) (c : Nat) (p : NoPage) : (noteNoPage c p s).mem.wf = true := by
  unfold noteNoPage
  grind [bbWrite_wf]

theorem noteRefuse_wf {s : State} (w : s.mem.wf = true) (c : Nat) (r : Refuse) : (noteRefuse c r s).mem.wf = true := by
  unfold noteRefuse
  grind [noteNoPage_wf]

theorem markCow_wf {on : Bool} {ptes : List Nat} {s t : State} (w : s.mem.wf = true) (h : markCow on ptes s = some t) :
    t.mem.wf = true :=
  foldl_some_keeps (fun t : State => t.mem.wf = true) _ (fun _ _ _ w h => performBytes_wf w _ h) _ _
    (by rintro _ ⟨⟩; exact w) h

theorem sourceDone_wf {s : State} (w : s.mem.wf = true) (src : Source) : (sourceDone src s).mem.wf = true := by
  unfold sourceDone
  grind [endNode_wf]

@[simp] theorem leaveGang_mem (la : Launch) (s : State) : (leaveGang la s).mem = s.mem := by
  unfold leaveGang
  grind [State.updCtx_mem]

theorem disarm_wf {u : Nat} {s t : State} (w : s.mem.wf = true) (h : disarm u s = some t) : t.mem.wf = true := by
  obtain ⟨v, hv, h⟩ := Option.map_eq_some_iff.mp h
  have wv := markCow_wf w hv
  cases h
  exact wv

@[simp] theorem dropPlanes_mem (u : Nat) (s : State) : (dropPlanes u s).mem = s.mem := rfl

theorem bbFailed_wf {s : State} (w : s.mem.wf = true) (d : Nat) (status asid : Nat) :
    (bbFailed d status asid s).mem.wf = true := by
  unfold bbFailed
  grind [bbWrite_wf, freeze_mem]

theorem restoreFrames_wf {fs : List (Nat × Nat × Nat)} {s t : State} (w : s.mem.wf = true)
    (h : restoreFrames fs s = some t) :
    t.mem.wf = true :=
  foldl_some_keeps (fun t : State => t.mem.wf = true) _ (fun _ _ _ w h => copyPage_wf w _ _ _ h) _ _
    (by rintro _ ⟨⟩; exact w) h

@[simp] theorem headMoves_mem (c q : Nat) (s : State) : (headMoves c q s).mem = s.mem := rfl

theorem writeControl_mem (c : Nat) (secure : Bool) (v : DWord) (s : State) : (writeControl c secure v s).mem = s.mem := by
  unfold writeControl
  dsimp only
  split
  · rfl
  · exact foldl_keeps State.mem _ (fun _ _ => failGraph_mem ..) _ _

@[simp] theorem writeTail_mem (c q : Nat) (tail : Word) (s : State) : (writeTail c q tail s).mem = s.mem := rfl

@[simp] theorem skipQueue_mem (c q : Nat) (s : State) : (skipQueue c q s).mem = s.mem := rfl

/-! ### Copy engine -/

theorem engStore_wf {core : Nat} {blk : Option Nat} {agent : Word} {l : List (Nat × Byte)} {s t : State}
    (w : s.mem.wf = true) (h : engStore core blk agent l s = some t) : t.mem.wf = true := by
  refine (?_ : SomeWf (engStore core blk agent l s)).elim h
  cases blk with
  | none => exact .of fun _ => performBytes_wf w _
  | some u =>
    refine .ite w (.ite trivial ?_)
    exact wf_ite (wf_of_mem_eq (emit_mem ..) w) (wf_of_mem_eq ((State.updBlock_mem ..).trans (emit_mem ..)) w)

@[simp] theorem pairMoved_mem (u f n : Nat) (s : State) : (pairMoved u f n s).mem = s.mem := rfl

@[simp] theorem putOp_mem (core : Nat) (o : CopyOp) (s : State) : (putOp core o s).mem = s.mem := rfl

@[simp] theorem takeKick_mem (core : Nat) (k : Kick) (s : State) : (takeKick core k s).mem = s.mem := rfl

theorem startReads_mem (u : Nat) (b : Block) (k : Kick) (f : CopyF) (s : State) : (startReads u b k f s).mem = s.mem :=
  foldl_keeps State.mem _ (fun _ _ => engReadBuf_mem ..) _ _

theorem startCopy_mem {core op : Nat} {s t : State} (h : startCopy core op s = some t) : t.mem = s.mem := by
  unfold startCopy at h
  replace h := (Option.ite_none_left_eq_some.mp h).2
  split at h
  · cases h
  split at h
  · cases h
  replace h := (Option.ite_none_left_eq_some.mp (Option.ite_none_left_eq_some.mp h).2).2
  cases h
  split <;> simp only [State.updBody_mem, State.updEng_mem, takeKick_mem, startReads_mem]

/-- What moving a granule leaves keeps memory in its canonical form, whether the move ends or stops. -/
def CopyKeeps {α : Type} (st : α → Cw) : CopyM α → Prop
  | .ok a => (st a).s.mem.wf = true
  | .error (_, c) => c.s.mem.wf = true

theorem CopyKeeps.bind {α β : Type} {st : α → Cw} {st' : β → Cw} {x : CopyM α} {f : α → CopyM β} (hx : CopyKeeps st x)
    (hf : ∀ a, (st a).s.mem.wf = true → CopyKeeps st' (f a)) : CopyKeeps st' (x >>= f) := by
  cases x with
  | ok a => exact hf a hx
  | error e => exact hx

/-- A copy that notes a miss or does not. -/
theorem missNoted_wf {b : Bool} {o o' : CopyOp} {owner : Option Nat} {engine va : Nat} {s : State} (w : s.mem.wf = true) :
    (if b = true then ({ o := o, s := match owner with
      | some u => noteMiss u engine va s
      | none => s } : Cw) else { o := o', s := s }).s.mem.wf = true := by
  split
  · cases owner <;> exact w
  · exact w

theorem CopyKeeps.ite {α : Type} {st : α → Cw} {p : Prop} [Decidable p] {x y : CopyM α} (hx : CopyKeeps st x)
    (hy : CopyKeeps st y) : CopyKeeps st (if p then x else y) := by
  split
  · exact hx
  · exact hy

theorem copyAt_keeps {core va : Nat} {k : AccKind} {c : Cw} (w : c.s.mem.wf = true) :
    CopyKeeps Prod.snd (copyAt core k va c) := by
  unfold copyAt
  dsimp only
  split
  · exact w
  · next pa l s hs =>
    have ws : s.mem.wf = true := wf_of_mem_eq (translate_mem hs) w
    exact .ite ws (.ite (missNoted_wf ws) (.ite (missNoted_wf ws) (.ite (missNoted_wf ws) (missNoted_wf ws))))

theorem copyAddrs_keeps {core : Nat} {k : AccKind} {l : List (Nat × Nat)} {c : Cw} (w : c.s.mem.wf = true) :
    CopyKeeps Prod.snd (copyAddrs core k l c) := by
  induction l generalizing c with
  | nil => exact w
  | cons p l ih => exact (copyAt_keeps w).bind fun a wa => (ih wa).bind fun _ wb => wb

theorem copyPieces_mem (core u : Nat) (l : List (Nat × Nat × Nat)) (c : Cw) : (copyPieces core u l c).2.s.mem = c.s.mem := by
  induction l generalizing c with
  | nil => rfl
  | cons p l ih =>
    unfold copyPieces
    simp only [ih]
    split
    · rw [engEscape_mem, recordAt_mem]
    · rfl

theorem bufPieces_mem (u : Nat) (cb : Bool) (l : List (Nat × Nat)) (c : Cw) : (bufPieces u cb l c).2.s.mem = c.s.mem := by
  induction l generalizing c with
  | nil => rfl
  | cons p l ih =>
    unfold bufPieces
    simp only [ih, engReadBuf_mem]

theorem copyRead_keeps {core space a n : Nat} {c : Cw} (w : c.s.mem.wf = true) :
    CopyKeeps Prod.snd (copyRead core space a n c) := by
  unfold copyRead
  split
  · refine (copyAddrs_keeps w).bind fun x wx => ?_
    dsimp only
    split
    · exact wx
    · exact wf_of_mem_eq (copyPieces_mem ..) wx
  · exact wf_of_mem_eq (bufPieces_mem ..) w
  · exact wf_of_mem_eq (bufPieces_mem ..) w
  · exact w

theorem copyWrite_keeps {core space a : Nat} {bs : List Byte} {c : Cw} (w : c.s.mem.wf = true) :
    CopyKeeps id (copyWrite core space a bs c) := by
  unfold copyWrite
  split
  · refine (copyAddrs_keeps w).bind fun x wx => ?_
    dsimp only
    split
    · exact wx
    · next h => exact engStore_wf wx h
  · exact wf_of_mem_eq (engWriteBuf_mem ..) w
  · exact wf_of_mem_eq (engWriteBuf_mem ..) w
  · exact w
  · exact w

theorem copyArrive_mem (pos : Nat) (c : Cw) : (copyArrive pos c).s.mem = c.s.mem := by
  unfold copyArrive
  grind [State.updEng_mem]

theorem moveOne_keeps {core n : Nat} {src dst : Nat × Nat} {c : Cw} (w : c.s.mem.wf = true) :
    CopyKeeps id (moveOne core src dst n c) :=
  (copyRead_keeps w).bind fun _ wa => copyWrite_keeps wa

theorem linear_keeps {core : Nat} {f : CopyF} {c : Cw} (w : c.s.mem.wf = true) : CopyKeeps id (linear core f c) :=
  (moveOne_keeps w).bind fun _ wa => wf_of_mem_eq (copyArrive_mem ..) wa

theorem copyRow_keeps {core : Nat} {f : CopyF} {c : Cw} (w : c.s.mem.wf = true) : CopyKeeps id (copyRow core f c) := by
  unfold copyRow
  refine (copyRead_keeps w).bind fun a wa => ?_
  dsimp only
  split
  · exact (copyRead_keeps wa).bind fun b wb => (copyWrite_keeps wb).bind fun _ wc =>
      wf_of_mem_eq (copyArrive_mem ..) wc
  · exact (copyWrite_keeps wa).bind fun _ wc => wf_of_mem_eq (copyArrive_mem ..) wc

theorem copyIndexed_keeps {core : Nat} {f : CopyF} {scatter : Bool} {c : Cw} (w : c.s.mem.wf = true) :
    CopyKeeps id (copyIndexed core f scatter c) :=
  (moveOne_keeps w).bind fun _ wa => wf_of_mem_eq (copyArrive_mem ..) wa

theorem filled_keeps {core : Nat} {f : CopyF} {c : Cw} (w : c.s.mem.wf = true) : CopyKeeps id (filled core f c) :=
  (copyWrite_keeps w).bind fun _ wa => wf_of_mem_eq (copyArrive_mem ..) wa

theorem compacted_keeps {core : Nat} {f : CopyF} {c : Cw} (w : c.s.mem.wf = true) : CopyKeeps id (compacted core f c) := by
  unfold compacted
  dsimp only
  split
  · exact w
  · exact (moveOne_keeps w).bind fun _ wa => wa

theorem decoded_keeps {core : Nat} {f : CopyF} {c : Cw} (w : c.s.mem.wf = true) : CopyKeeps id (decoded core f c) := by
  unfold decoded
  refine (copyRead_keeps w).bind fun a wa => ?_
  dsimp only
  split
  · exact wa
  · exact (copyWrite_keeps wa).bind fun _ wb => wf_of_mem_eq (copyArrive_mem ..) wb

theorem copyGranule_keeps {core : Nat} {c : Cw} (w : c.s.mem.wf = true) : CopyKeeps id (copyGranule core c) := by
  unfold copyGranule
  dsimp only
  split
  · exact copyRow_keeps w
  · exact copyIndexed_keeps w
  · exact copyIndexed_keeps w
  · exact filled_keeps w
  · exact decoded_keeps w
  · exact compacted_keeps w
  · exact (linear_keeps w).bind fun _ wa => wf_of_mem_eq (pairMoved_mem ..) wa
  · exact linear_keeps w

theorem copyFaults_wf {c : Cw} (w : c.s.mem.wf = true) (core va cause : Nat) (write : Bool) :
    (copyFaults core va cause write c).mem.wf = true := by
  unfold copyFaults
  grind [postFault_mem, putOp_mem, bbWrite_wf]

theorem copyPoison_wf {c : Cw} (w : c.s.mem.wf = true) (core va : Nat) : (copyPoison core va c).mem.wf = true := by
  unfold copyPoison
  grind [putOp_mem, terminate_wf]

theorem copyStep_wf {core : Nat} {o : CopyOp} {s t : State} (w : s.mem.wf = true) (h : copyStep core o s = some t) :
    t.mem.wf = true := by
  have hk := copyGranule_keeps (core := core) (c := ⟨o, s⟩) w
  unfold copyStep at h
  grind [CopyKeeps, putOp_mem, copyFaults_wf, copyPoison_wf]

@[simp] theorem retireCopy_mem (u : Nat) (o : CopyOp) (code : Nat) (s : State) : (retireCopy u o code s).mem = s.mem := by
  unfold retireCopy
  extract_lets f s1 s2 s3
  have h2 : s2.mem = s.mem := engWriteBuf_mem ..
  have h3 : s3.mem = s.mem := by
    unfold s3
    split
    · exact (growEnds_mem ..).trans h2
    · exact h2
  exact h3

theorem retireNode_wf {core gr node : Nat} {o : CopyOp} {code : Nat} {s t : State} (w : s.mem.wf = true)
    (h : retireNode core gr node o code s = some t) : t.mem.wf = true := by
  refine (SomeWf.map ?_ fun t wt => endNode_wf wt _ _ _ _ _ : SomeWf (retireNode core gr node o code s)).elim h
  split
  · next ht => exact .ite trivial (.of fun _ => performBytes_wf (wf_of_mem_eq (translate_mem ht) w) _)
  · exact w

/-! ### Selection of clauses -/

@[simp] theorem waitAcquires_mem (u wn : Nat) (x : Wait) (s : State) : (waitAcquires u wn x s).mem = s.mem := by
  unfold waitAcquires
  grind [acquireCtrs_mem, acquireTl_mem, depart_mem]

@[simp] theorem endWait_mem (c : Cursor) (s : State) : (endWait c s).mem = s.mem := by
  unfold endWait
  grind [State.updWarpOf_mem, waitAcquires_mem]

theorem splitFault_wf {s : State} (w : s.mem.wf = true) (c : Cursor) (kind cause : Nat) (va : DWord) (m : Mask) :
    (splitFault c kind cause va m s).mem.wf = true := by
  unfold splitFault
  grind [raiseAt_wf]

@[simp] theorem headerAcquires_mem (c : Cursor) (h : DWord) (s : State) : (headerAcquires c h s).mem = s.mem := by
  unfold headerAcquires
  grind [acquireCtrs_mem, acquireTl_mem]

@[simp] theorem takePort_mem (c : Cursor) (p : Fin 2) (h : DWord) (code : List DWord) (s : State) :
    (takePort c p h code s).mem = s.mem := rfl

/-! ### Streams and clauses -/

theorem startClause_mem {s t : State} {u hdr : Nat} {h : DWord} {ws : List DWord} (hs : startClause s u hdr = .ok h ws t) :
    t.mem = s.mem := by
  unfold startClause at hs
  extract_lets b la at hs
  split at hs
  · cases hs
  · next h1 =>
    dsimp only at hs
    split at hs
    · cases hs
    split at hs
    · cases hs
    · next h2 =>
      split at hs
      · cases hs
        rw [fetchClause_mem h2, fetchClause_mem h1]
      · cases hs

theorem resumeClause_mem {s t : State} {u hdr idx : Nat} {h : DWord} {ws : List DWord}
    (hs : resumeClause s u hdr idx = .ok h ws t) : t.mem = s.mem := by
  unfold resumeClause at hs
  dsimp only at hs
  split at hs
  · cases hs
  · next h1 =>
    split at hs
    · cases hs
    · next h2 =>
      cases hs
      rw [fetchClause_mem h2, fetchClause_mem h1]

/-! ### Selection of clauses -/

theorem startSplit_wf {s : State} (w : s.mem.wf = true) (c : Cursor) (p : Fin 2) : (startSplit c p s).mem.wf = true := by
  unfold startSplit
  extract_lets x sp m
  refine wf_ite w (wf_ite ?_ (wf_ite (splitFault_wf w _ _ _ _ _) ?_))
  · split
    · exact splitFault_wf w _ _ _ _ _
    · next hc => exact wf_of_mem_eq ((takePort_mem ..).trans (resumeClause_mem hc)) w
  · split
    · exact splitFault_wf w _ _ _ _ _
    · next hc => exact wf_of_mem_eq ((takePort_mem ..).trans ((headerAcquires_mem ..).trans (startClause_mem hc))) w

theorem passCounts_mem (el chosen : List Cursor) (s : State) : (passCounts el chosen s).mem = s.mem :=
  foldl_keeps State.mem _ (fun _ _ => State.updWarpOf_mem ..) _ _

theorem clearYields_mem (core sub : Nat) (s : State) : (clearYields core sub s).mem = s.mem :=
  foldl_keeps State.mem _ (fun _ _ => State.updWarpOf_mem ..) _ _

theorem startAll_wf {s : State} (w : s.mem.wf = true) (ports : List (Fin 2)) (cs : List Cursor) :
    (startAll ports cs s).mem.wf = true :=
  foldl_wf (fun _ _ w => startSplit_wf w _ _) _ w

theorem readTlv_mem (l : List (Cursor × DWord)) (s : State) : (readTlv l s).mem = s.mem :=
  foldl_keeps State.mem _ (fun _ _ => State.updWarpOf_mem ..) _ _

/-! ### Tile tasks -/

@[simp] theorem readPassOf_mem (x : TileRec) (p i : Nat) (s : State) : (readPassOf x p i s).mem = s.mem := by
  unfold readPassOf
  grind [engReadBuf_mem]

theorem readsOfA_mem (x : TileRec) (s : State) : (readsOfA x s).mem = s.mem :=
  foldl_keeps State.mem _ (fun _ _ => foldl_keeps State.mem _ (fun _ _ => engReadBuf_mem ..) _ _) _ _

@[simp] theorem leaveArray_mem (core : Nat) (r : TileRun) (s : State) : (leaveArray core r s).mem = s.mem := rfl

@[simp] theorem abortedRun_mem (r : TileRun) (mstat : Nat) (s : State) : (abortedRun r mstat s).2.mem = s.mem := rfl

@[simp] theorem runMma_mem (core : Nat) (r : TileRun) (s : State) : (runMma core r s).mem = s.mem := by
  unfold runMma
  grind [readsOfA_mem, leaveArray_mem, abortedRun_mem]

theorem runTopk_mem (core : Nat) (r : TileRun) (s : State) : (runTopk core r s).mem = s.mem := by
  unfold runTopk
  dsimp only
  split
  · exact leaveArray_mem ..
  · split
    · rw [leaveArray_mem, abortedRun_mem]
      exact foldl_keeps State.mem _ (fun _ _ => readPassOf_mem ..) _ _
    · rw [leaveArray_mem]
      exact foldl_keeps State.mem _ (fun _ _ => readPassOf_mem ..) _ _

@[simp] theorem commitRow_mem (u : Nat) (h : DWord) (agent : Word) (i : Nat) (es : List WEnt) (s : State) :
    (commitRow u h agent i es s).2.mem = s.mem := by
  unfold commitRow
  grind [engWriteBuf_mem]

theorem commitResults_mem (r : TileRun) (s : State) : (commitResults r s).2.mem = s.mem := by
  unfold commitResults
  dsimp only
  split
  · rfl
  · split
    · refine foldl_keeps (fun a : Bool × State => a.2.mem) _ (fun a y => ?_) _ _
      exact commitRow_mem ..
    · split
      · rfl
      · rw [recordBuf_mem, writeBuf_mem]

theorem commitTask_mem (r : TileRun) (s : State) : (commitTask r s).mem = s.mem :=
  (foldl_keeps State.mem _ (fun _ _ => retireRecord_mem ..) _ _).trans (commitResults_mem r s)

@[simp] theorem topReads_mem (x : TileRec) (s : State) : (topReads x s).mem = s.mem := by
  unfold topReads
  grind [engReadBuf_mem]

@[simp] theorem dispatchTo_mem (array : Nat) (x : TileRec) (s : State) : (dispatchTo array x s).mem = s.mem := by
  unfold dispatchTo
  grind [State.updCore_mem, State.updBody_mem, topReads_mem]

@[simp] theorem wakeLoad_mem (x : Nat × Nat × Nat) (bad : Bool) (s : State) : (wakeLoad x bad s).mem = s.mem := rfl

/-! ### Attention tasks -/

@[simp] theorem attnBufReads_mem (u : Nat) (agent : Word) (k : Slab) (a : AttnF) (s : State) :
    (attnBufReads u agent k a s).mem = s.mem := by
  unfold attnBufReads
  grind [engReadBuf_mem]

@[simp] theorem setAttn_mem (core : Nat) (r : AttnRun) (s : State) : (setAttn core r s).mem = s.mem := rfl

/-- An attention task's read leaves memory as it is, whether it stops or not. -/
def AttnKeeps (s : State) : Except (AttnStop × Aw) (List Byte × Aw) → Prop
  | .ok (_, v) => v.s.mem = s.mem
  | .error (_, v) => v.s.mem = s.mem

theorem AttnKeeps.ite {s : State} {p : Prop} [Decidable p] {x y : Except (AttnStop × Aw) (List Byte × Aw)}
    (hx : AttnKeeps s x) (hy : AttnKeeps s y) : AttnKeeps s (if p then x else y) := by
  split
  · exact hx
  · exact hy

theorem missNoted_mem {b : Bool} {ps ps' : List Nat} {u engine va : Nat} {s : State} :
    (if b = true then ({ pages := ps, s := noteMiss u engine va s } : Aw) else { pages := ps', s := s }).s.mem = s.mem := by
  split <;> rfl

theorem attnGranule_keeps {core u va : Nat} {agent : Word} {defer : Bool} {w : Aw} :
    AttnKeeps w.s (attnGranule core u agent defer va w) := by
  unfold attnGranule
  dsimp only
  split
  · rfl
  · next pa l s hs =>
    refine .ite ?_ (.ite ?_ (.ite ?_ ?_))
    · exact missNoted_mem.trans (translate_mem hs)
    · exact missNoted_mem.trans (translate_mem hs)
    · exact missNoted_mem.trans (translate_mem hs)
    · exact ((engEscape_mem ..).trans (recordAt_mem ..)).trans (missNoted_mem.trans (translate_mem hs))

theorem attnGranule_mem {core u va : Nat} {agent : Word} {defer : Bool} {w : Aw} :
    (∀ bs v, attnGranule core u agent defer va w = .ok (bs, v) → v.s.mem = w.s.mem) ∧
      ∀ e v, attnGranule core u agent defer va w = .error (e, v) → v.s.mem = w.s.mem := by
  have hk := attnGranule_keeps (core := core) (u := u) (va := va) (agent := agent) (defer := defer) (w := w)
  refine ⟨fun bs v h => ?_, fun e v h => ?_⟩
  all_goals
    rw [h] at hk
    exact hk

theorem attnGranules_mem {core u : Nat} {agent : Word} {defer : Bool} {l : List Nat} {w : Aw} :
    (∀ bs v, attnGranules core u agent defer l w = .ok (bs, v) → v.s.mem = w.s.mem) ∧
      ∀ e v, attnGranules core u agent defer l w = .error (e, v) → v.s.mem = w.s.mem := by
  induction l generalizing w with
  | nil => exact ⟨fun _ _ h => by cases h; rfl, fun _ _ h => by cases h⟩
  | cons va l ih =>
    constructor
    · intro bs v h
      obtain ⟨⟨b, w1⟩, h1, h⟩ := bind_eq_ok h
      obtain ⟨⟨b', w2⟩, h2, h⟩ := bind_eq_ok h
      cases h
      rw [ih.1 _ _ h2, attnGranule_mem.1 _ _ h1]
    · intro e v h
      obtain h | ⟨⟨b, w1⟩, h1, h⟩ := bind_eq_error h
      · exact attnGranule_mem.2 _ _ h
      obtain h | ⟨⟨b', w2⟩, h2, h⟩ := bind_eq_error h
      · rw [ih.2 _ _ h, attnGranule_mem.1 _ _ h1]
      · cases h

theorem readKeys_wf {core : Nat} {x : AttnRec} {r : AttnRun} {s t : State} (w : s.mem.wf = true)
    (h : readKeys core x r s = some t) : t.mem.wf = true := by
  refine (?_ : SomeWf (readKeys core x r s)).elim h
  unfold readKeys
  extract_lets a agent t0 addrs
  split
  · next hg => exact wf_of_mem_eq (attnGranules_mem.1 _ _ hg) w
  · trivial
  · next hg =>
    have wv := wf_of_mem_eq (attnGranules_mem.2 _ _ hg) w
    extract_lets y u
    have wu : u.mem.wf = true := wv
    clear_value u
    split
    · exact wu
    · exact terminate_wf wu _ _ _ _ _
    · exact wf_ite (bbWrite_wf (wf_of_mem_eq ((setAttn_mem ..).trans (postFault_mem ..)) wu) _ _)
        (wf_of_mem_eq ((setAttn_mem ..).trans (postFault_mem ..)) wu)
    · trivial

@[simp] theorem formState_mem (core : Nat) (x : AttnRec) (r : AttnRun) (s : State) : (formState core x r s).mem = s.mem := by
  unfold formState
  grind [attnBufReads_mem, setAttn_mem]

@[simp] theorem commitAttn_mem (core : Nat) (x : AttnRec) (r : AttnRun) (s : State) :
    (commitAttn core x r s).mem = s.mem := by
  unfold commitAttn
  grind [State.updBody_mem, State.updEng_mem, engWriteBuf_mem]

/-! ### Graphs -/

theorem walkRead_mem {ctx va n : Nat} {x0 : List Byte} {s t : State} (h : walkRead ctx va n s = .ok (x0, t))
    : t.mem = s.mem := by
  unfold walkRead at h
  grind [readSpan_mem]

theorem walkWrite_wf {ctx va : Nat} {bs : List Byte} {s t : State} (w : s.mem.wf = true)
    (h : walkWrite ctx va bs s = .ok t) :
    t.mem.wf = true := by
  unfold walkWrite at h
  dsimp only at h
  split at h
  · cases h
  · next hs =>
    split at h
    · cases h
    split at h
    · next hp =>
      cases h
      exact performBytes_wf ((spanOk_mem hs).symm ▸ w) _ hp
    · cases h

theorem walkWrites_wf {ctx : Nat} {l : List (Nat × List Byte)} {s t : State} (w : s.mem.wf = true)
    (h : walkWrites ctx l s = .ok t) : t.mem.wf = true := by
  induction l generalizing s with
  | nil => cases h; exact w
  | cons p l ih =>
    obtain ⟨u, hu, h⟩ := bind_eq_ok h
    exact ih (walkWrite_wf w hu) h

theorem nodeNoPage_wf {d gr i ctx : Nat} {p : NoPage} {s t : State} (w : s.mem.wf = true)
    (h : nodeNoPage d gr i ctx p s = some t) : t.mem.wf = true := by
  unfold nodeNoPage at h
  grind [State.waits_mem, endNode_wf, NoPage.waiting_wf, noteNoPage_wf]

theorem awaited_wf {s t : State} {r : Except NoPage State} (w : s.mem.wf = true) (hr : ∀ t, r = .ok t → t.mem.wf = true)
    (h : awaited s r = .ok t) : t.mem.wf = true := by
  unfold awaited at h
  grind

theorem clearCounts_wf {g : Graph} {s t : State} (w : s.mem.wf = true) (h : clearCounts g s = .ok t) : t.mem.wf = true := by
  have inv : ∀ t, clearCounts g s = .ok t → t.mem.wf = true := by
    unfold clearCounts
    refine List.foldlRecOn (motive := fun (r : Except NoPage State) => ∀ t, r = .ok t → t.mem.wf = true) _ _ ?_ ?_
    · rintro _ ⟨⟩; exact w
    · intro r ih p _ t h
      obtain ⟨v, hv, h⟩ := bind_eq_ok h
      have wv := ih v hv
      dsimp only at h
      split at h
      · cases h; exact wv
      · refine awaited_wf wv (fun u hu => ?_) h
        obtain ⟨⟨bs, v'⟩, hr, hu⟩ := bind_eq_ok hu
        exact walkWrite_wf ((walkRead_mem hr).symm ▸ wv) hu
  exact inv t h

theorem paged_ok {α : Type} {r : Except NoPage α} {a : α} (h : paged r = .ok a) : r = .ok a := by
  unfold paged at h
  grind

theorem startGraph_wf {c q : Nat} {n : Word} {e : Entry} {s t : State} (w : s.mem.wf = true)
    (h : startGraph c q n e s = .ok t) : t.mem.wf = true := by
  obtain ⟨⟨bs, u⟩, hread, h⟩ := bind_eq_ok h
  have wu : u.mem.wf = true := (walkRead_mem (paged_ok hread)).symm ▸ w
  dsimp only at h
  split at h
  · cases h
  · obtain ⟨v, hv, h⟩ := bind_eq_ok h
    have wv := clearCounts_wf wu (paged_ok hv)
    cases h
    exact wv

@[simp] theorem nodeRuns_mem (d gr i : Nat) (s : State) : (nodeRuns d gr i s).mem = s.mem := rfl

theorem addTimeline_wf {s : State} (w : s.mem.wf = true) (c n : Nat) (v : DWord) : (addTimeline c n v s).mem.wf = true := by
  unfold addTimeline
  grind [raiseTimeline_wf]

theorem noteStop_wf {s : State} (w : s.mem.wf = true) (d asid : Nat) (agent : Word) (v : Verdict) (cause : Nat) :
    (noteStop d asid agent v cause s).mem.wf = true := by
  unfold noteStop
  grind [bbWrite_wf]

@[simp] theorem setCall_mem (d gr node : Nat) (c : List Call) (s : State) : (setCall d gr node c s).mem = s.mem := rfl

/-! ### Preemption, save and flush -/

@[simp] theorem freeArea_mem (u : Nat) (s : State) : (freeArea u s).mem = s.mem := by
  unfold freeArea
  grind [State.updDie_mem, State.updBlock_mem]

theorem startMethod_wf {s : State} (w : s.mem.wf = true) (m u : Nat) : (startMethod m u s).mem.wf = true := by
  unfold startMethod
  grind [State.updDie_mem, State.updBlock_mem, bbWrite_wf]

theorem holdRequest_mem (us : List Nat) (bound : Nat) (saveOnly : Bool) (s : State) :
    (holdRequest us bound saveOnly s).mem = s.mem :=
  foldl_keeps State.mem _ (fun _ _ => State.updBlock_mem ..) _ _

theorem answerRequest_wf {us : List Nat} {bound : Nat} {saveOnly : Bool} {s t : State} (w : s.mem.wf = true)
    (h : answerRequest us bound saveOnly s = some t) : t.mem.wf = true := by
  obtain ⟨m, -, rfl⟩ := Option.map_eq_some_iff.mp h
  exact foldl_wf (fun _ _ w => startMethod_wf w _ _) _ w

theorem preempt_wf {s : State} (w : s.mem.wf = true) (u bound : Nat) (saveOnly : Bool) :
    (preempt u bound saveOnly s).mem.wf = true := by
  unfold preempt
  dsimp only
  split
  · exact w
  split
  · exact wf_of_mem_eq (holdRequest_mem ..) w
  · cases h : answerRequest (preGroup s u) bound saveOnly s with
    | none => exact wf_of_mem_eq (holdRequest_mem ..) w
    | some t => exact answerRequest_wf w h

@[simp] theorem withdrawFaults_mem (u : Nat) (s : State) : (withdrawFaults u s).mem = s.mem := rfl

@[simp] theorem fitArea_mem (u n : Nat) (s : State) : (fitArea u n s).mem = s.mem := by
  unfold fitArea
  grind [State.updDie_mem, State.updBlock_mem, freeArea_mem]

@[simp] theorem sendImage_mem (u : Nat) (s : State) : (sendImage u s).mem = s.mem := by
  unfold sendImage
  grind [State.updBlock_mem, emit_mem]

@[simp] theorem writeImage_mem (u : Nat) (work : BlkWork) (s : State) : (writeImage u work s).mem = s.mem := by
  unfold writeImage
  grind [State.updBlock_mem, fitArea_mem, sendImage_mem]

theorem drainBlock_mem (u : Nat) (s : State) : (drainBlock u s).mem = s.mem :=
  foldl_keeps State.mem _ (fun _ _ => drainOf_mem ..) _ _

theorem flushBlock_wf {s : State} (w : s.mem.wf = true) (u : Nat) : (flushBlock u s).mem.wf = true := by
  unfold flushBlock
  grind [State.updLaunch_mem, discardBlock_mem, NoPage.waiting_wf, drainBlock_mem]

@[simp] theorem checkpointBlock_mem (u : Nat) (work : BlkWork) (s : State) : (checkpointBlock u work s).mem = s.mem := rfl

@[simp] theorem freshCore_mem (core : Nat) (world : Bool) (s : State) : (freshCore core world s).mem = s.mem := rfl

theorem resumeBlock_wf {s : State} (w : s.mem.wf = true) (u : Nat) (p : Place) : (resumeBlock u p s).mem.wf = true := by
  unfold resumeBlock
  dsimp only
  refine foldl_wf (fun t x wt => ?_) _ ?_
  · split
    · exact autoRefill_wf wt _ _
    · exact wt
  · simpa [checkpointBlock_mem, freshCore_mem, freeArea_mem] using w

theorem runTest_wf {die cl : Nat} {x : TestRun} {s t : State} (w : s.mem.wf = true) (h : runTest die cl x s = some t) :
    t.mem.wf = true := by
  unfold runTest at h
  split at h
  · cases h; exact foldl_wf (fun _ _ w => preempt_wf w _ _ _) _ w
  split at h
  · cases h
  · cases h; exact bbWrite_wf w _ _

@[simp] theorem endTest_mem (die cl : Nat) (s : State) : (endTest die cl s).mem = s.mem := rfl

/-! ### Messages and collectives at work -/

@[simp] theorem answerMsg_mem (m : Msg) (code : Nat) (s : State) : (answerMsg m code s).mem = s.mem := by
  unfold answerMsg
  grind

@[simp] theorem deliverMail_mem (d box : Nat) (m : Msg) (s : State) : (deliverMail d box m s).mem = s.mem := rfl

@[simp] theorem arriveMsg_mem (d : Nat) (m : Msg) (s : State) : (arriveMsg d m s).mem = s.mem := by
  unfold arriveMsg
  refine mem_ite (deliverTo_mem ..) (mem_ite ?_ ?_)
  · split
    · exact answerMsg_mem ..
    · exact answerMsg_mem ..
  · split
    · split
      · exact (answerMsg_mem ..).trans (deliverTo_mem ..)
      · exact (answerMsg_mem ..).trans (deliverMail_mem ..)
    · exact answerMsg_mem ..

@[simp] theorem fromIngress_mem (d j : Nat) (s : State) : (fromIngress d j s).mem = s.mem := by
  unfold fromIngress
  grind [State.updDie_mem, arriveMsg_mem]

@[simp] theorem fromTransit_mem (d j : Nat) (s : State) : (fromTransit d j s).mem = s.mem := by
  unfold fromTransit
  split
  · rfl
  · exact mem_ite rfl (arriveMsg_mem ..)

@[simp] theorem updPart_mem (i u : Nat) (num : DWord) (f : CollPart → CollPart) (s : State) :
    (updPart i u num f s).mem = s.mem := rfl

@[simp] theorem failMates_mem (i : Nat) (p : CollPart) (s : State) : (failMates i p s).mem = s.mem := rfl

theorem refetch_wf {i : Nat} {p : CollPart} {s t : State} (w : s.mem.wf = true) (h : refetch i p s = some t)
    : t.mem.wf = true := by
  refine (?_ : SomeWf (refetch i p s)).elim h
  unfold refetch
  extract_lets b f agent s0
  split
  · trivial
  · exact wf_of_mem_eq (failMates_mem ..) w
  · exact terminate_wf w _ _ _ _ _
  · exact collFault_wf (s := s0) w _ _ _ _ _
  · next ht =>
    have w1 := wf_of_mem_eq (readTable_mem ht) w
    split
    · exact .ite (wf_of_mem_eq (joinColl_mem ..) w1) (wf_of_mem_eq (failMates_mem ..) w)
    · exact wf_of_mem_eq (failMates_mem ..) w

theorem contribute_mem {i : Nat} {p : CollPart} {s t : State} (h : contribute i p s = some t) : t.mem = s.mem := by
  unfold contribute at h
  grind [emit_mem, engReadBuf_mem, updPart_mem]

@[simp] theorem deliverColl_mem (i : Nat) (p : CollPart) (code : Nat) (ps : List CollPart) (s : State) :
    (deliverColl i p code ps s).mem = s.mem := by
  unfold deliverColl
  grind [State.updEng_mem, engWriteBuf_mem, updPart_mem]

theorem partStep_wf {i : Nat} {c : Coll} {p : CollPart} {s t : State} (w : s.mem.wf = true)
    (h : partStep i c p s = some t) : t.mem.wf = true := by
  refine (?_ : SomeWf (partStep i c p s)).elim h
  refine .ite trivial (.ite (.ite trivial (.ite (wf_of_mem_eq (failMates_mem ..) w) (.of fun _ => refetch_wf w)))
    (.ite (wf_of_mem_eq (deliverColl_mem ..) w) (.ite (.of fun _ h => wf_of_mem_eq (contribute_mem h) w)
      (.ite trivial (.of fun t h => ?_)))))
  obtain ⟨r, -, rfl⟩ := Option.map_eq_some_iff.mp h
  exact wf_of_mem_eq (deliverColl_mem ..) w

/-! ### Conversion -/

theorem deliverBlock_keeps {s : State} {m : Mask} {d : Dst} {r : Reading} {hi strict : Bool} {rm : Rm} {es : List FVal}
    {bad : Bool} : LeavesWf (fun t => t.mem = r.st.mem) (deliverBlock s m d r hi strict rm es bad) := by
  refine .after (fun _ => trapIf_stop) fun _ => .bind (P := fun t => t.mem = r.st.mem)
    (.of_eqs (fun _ => commit_mem) fun _ => commit_stop) fun t ht => ?_
  change State.mem _ = _
  exact mem_ite ht ((setFlags_mem ..).trans ht)

theorem deliverBlock_mem {s t : State} {m : Mask} {d : Dst} {r : Reading} {hi strict : Bool} {rm : Rm} {es : List FVal}
    {bad : Bool} (h : deliverBlock s m d r hi strict rm es bad = .ok t) : t.mem = r.st.mem :=
  deliverBlock_keeps.ok h

theorem deliverBlock_stop {s : State} {m : Mask} {d : Dst} {r : Reading} {hi strict : Bool} {rm : Rm} {es : List FVal}
    {bad : Bool} {e : Stop} (h : deliverBlock s m d r hi strict rm es bad = .error e) : e.Wf :=
  deliverBlock_keeps.error h

/-! ### System registers -/

theorem raiseAlarm_wf {s : State} (w : s.mem.wf = true) (d : Nat) : (raiseAlarm d s).mem.wf = true := by
  unfold raiseAlarm
  grind [State.updDie_mem, sendIrq_mem, bbWrite_wf]

theorem settleAlarm_wf {s : State} (w : s.mem.wf = true) (d : Nat) : (settleAlarm d s).mem.wf = true := by
  unfold settleAlarm
  grind [State.updDie_mem, raiseAlarm_wf]

theorem fshareStart_wf {d : Nat} {v : Word} {s t : State} (w : s.mem.wf = true) (h : fshareStart d v s = some t) :
    t.mem.wf = true := by
  refine (?_ : SomeWf (fshareStart d v s)).elim h
  refine .ite w (.ite w (.ite (.map (.of fun _ => performBytes_wf w _) fun _ w => w) ?_))
  extract_lets lg
  split
  · exact w
  · exact w

@[simp] theorem addOverflow_mem (d : Nat) (v : Word) (s : State) : (addOverflow d v s).mem = s.mem := rfl

@[simp] theorem copyAnswer_mem (core id : Nat) (retry : Bool) (s : State) : (copyAnswer core id retry s).mem = s.mem := rfl

@[simp] theorem attnAnswer_mem (core : Nat) (retry : Bool) (s : State) : (attnAnswer core retry s).mem = s.mem := rfl

@[simp] theorem collAnswer_mem (inst blk : Nat) (retry : Bool) (s : State) : (collAnswer inst blk retry s).mem = s.mem := rfl

theorem failPoster_wf {s : State} (w : s.mem.wf = true) (p : Poster) (kind : Nat) (va : DWord) :
    (failPoster p kind va s).mem.wf = true := by
  unfold failPoster
  split
  · exact terminate_wf w _ _ _ _ _
  · exact terminate_wf w _ _ _ _ _
  · split
    · split
      · exact terminate_wf w _ _ _ _ _
      · exact wf_of_mem_eq (copyAnswer_mem ..) w
    · exact w
  · split
    · exact terminate_wf w _ _ _ _ _
    · exact w
  · exact terminate_wf w _ _ _ _ _

@[simp] theorem wakeSplit_mem (u wn k : Nat) (s : State) : (wakeSplit u wn k s).mem = s.mem := rfl

theorem answerFault_wf {s : State} (w : s.mem.wf = true) (d slot verdict : Nat) :
    (answerFault d slot verdict s).mem.wf = true := by
  unfold answerFault
  split
  · exact w
  refine wf_ite w ?_
  extract_lets u kind va
  have wu : u.mem.wf = true := w
  clear_value u
  refine wf_ite (failPoster_wf wu _ _ _) ?_
  split
  · extract_lets c after t
    have wa : after.mem.wf = true := wf_ite wu (wf_of_mem_eq (advanceAt_mem ..) wu)
    have wt : t.mem.wf = true := wf_of_mem_eq (wakeSplit_mem ..) wa
    clear_value after t
    exact wf_ite (wf_ite wt (trapEnds_wf wt _ _)) (wf_ite (doubleFault_wf wu _ _)
      (wf_of_mem_eq (wakeSplit_mem ..) (enterTrap_wf wa _ _ _)))
  · exact wf_ite (autoRefill_wf wu _ _) (failPoster_wf wu _ _ _)
  · exact wf_of_mem_eq (copyAnswer_mem ..) wu
  · exact wf_of_mem_eq (attnAnswer_mem ..) wu
  · exact wf_of_mem_eq (collAnswer_mem ..) wu

theorem gnlRecover_wf {s : State} (w : s.mem.wf = true)  : (gnlRecover s).mem.wf = true := by
  unfold gnlRecover
  grind [bbWrite_wf]

theorem writeBbctl_wf {s : State} (w : s.mem.wf = true) (d : Nat) (v : Nat) : (writeBbctl d v s).mem.wf = true := by
  unfold writeBbctl
  grind [State.updDie_mem, freeze_mem]

theorem writeDieReg_wf {s : State} (w : s.mem.wf = true) (d n : Nat) (v : DWord) : (writeDieReg d n v s).mem.wf = true := by
  unfold writeDieReg
  refine wf_ite w <| wf_ite w <| wf_ite w <| wf_ite w <| wf_ite ?_ <| wf_ite (wf_ite w w) <| wf_ite w <| wf_ite w <|
    wf_ite w <| wf_ite (answerFault_wf w _ _ _) <| wf_ite (writeBbctl_wf w _ _) <| wf_ite w <| wf_ite ?_ <| wf_ite ?_ <|
    wf_ite (wf_ite w w) w
  · exact wf_of_mem_eq (addOverflow_mem ..) w
  · exact settleAlarm_wf (s := s.updDie d _) w _
  · exact wf_ite (gnlRecover_wf (s := { s with gnl := _ }) w) w

theorem writeReg_wf {s : State} (w : s.mem.wf = true) (n : Nat) (v : Word) : (writeReg n v s).mem.wf = true := by
  unfold writeReg
  grind [State.updEng_mem, State.updReg_mem, emit_mem, writeDieReg_wf]

/-! ### Items at their home -/

theorem recordItem_mem (o : OutItem) (s : State) : (recordItem o s).mem = s.mem := by
  unfold recordItem
  split
  · exact lasting_mem _ (fun _ => foldl_keeps State.mem _ (fun _ _ => recordGran_mem ..) _ _) _
  · exact recordWords_mem ..

@[simp] theorem restamp_mem (o : OutItem) (t0 : Nat) (s : State) : (restamp o t0 s).mem = s.mem := by
  unfold restamp
  grind [lasting_mem, linesPerformed_mem, gransPerformed_mem]

@[simp] theorem releaseItem_mem (o : OutItem) (s : State) : (releaseItem o s).mem = s.mem := by
  unfold releaseItem
  grind [lasting_mem, releaseAt_mem]

@[simp] theorem atomReturns_mem (u wn op : Nat) (olds : List (Fin 32 × Word)) (last : Bool) (s : State) :
    (atomReturns u wn op olds last s).mem = s.mem := by
  unfold atomReturns
  extract_lets w
  split
  · rfl
  split
  · extract_lets s1 s2
    refine mem_ite (fillLate_mem ..) ?_
    split
    · exact (acquireAt_mem ..).trans (fillLate_mem ..)
    · exact fillLate_mem ..
  · rfl

theorem hostPerforms_wf {o : OutItem} {pa : Nat} {op : Option AtomOp} {xs : List (Fin 32 × Word × Word)} {num : Nat}
    {d : Option Dst} {s t : State} (w : s.mem.wf = true) (h : hostPerforms o pa op xs num d s = some t) : t.mem.wf = true :=
      by
  refine (?_ : SomeWf (hostPerforms o pa op xs num d s)).elim h
  refine .ite (wf_ite (terminate_wf w _ _ _ _ _) w) (.map (.of fun _ => performBytes_wf w _) fun u wu => ?_)
  exact wf_of_mem_eq (lasting_mem _ (fun t => (atomReturns_mem ..).trans (flagWarp_mem ..)) _) wu

theorem windowPerforms_mem (o : OutItem) (v : Nat) (c : Bool) (off : Nat) (op : Option AtomOp)
    (xs : List (Fin 32 × Word × Word))
    (num : Nat) (s : State) : (windowPerforms o v c off op xs num s).mem = s.mem := by
  unfold windowPerforms
  dsimp only
  rw [lasting_mem _ fun t => by rw [atomReturns_mem, flagWarp_mem],
    lasting_mem _ fun t => foldl_keeps State.mem _ (fun _ _ => writeBuf_mem ..) _ _]

theorem redPerforms_wf {o : OutItem} {pa : Nat} {op : AtomOp} {xs : List Word} {s t : State} (w : s.mem.wf = true)
    (h : redPerforms o pa op xs s = some t) : t.mem.wf = true := by
  unfold redPerforms at h
  split at h
  · cases h; exact terminate_wf w _ _ _ _ _
  · obtain ⟨u, hu, rfl⟩ := Option.map_eq_some_iff.mp h
    rw [lasting_mem _ fun t => flagWarp_mem ..]
    exact performBytes_wf w _ hu

@[simp] theorem arrivalPerforms_mem (o : OutItem) (b : Bar) (lanes : Mask) (s : State) :
    (arrivalPerforms o b lanes s).mem = s.mem := by
  unfold arrivalPerforms
  grind [inCkpts_mem, State.updWarpOf_mem, State.ticked_mem, countArrival_mem, counted_mem]

theorem itemEffect_wf {o : OutItem} {s t : State} (w : s.mem.wf = true) (h : itemEffect o s = some t) : t.mem.wf = true := by
  refine (?_ : SomeWf (itemEffect o s)).elim h
  unfold itemEffect
  split
  · exact .of fun _ => performBytes_wf w _
  · exact .of fun _ => redPerforms_wf w
  · exact .of fun _ => hostPerforms_wf w
  · exact lasting_wf _ (fun _ w => wf_of_mem_eq (writeBuf_mem ..) w) w
  · exact wf_of_mem_eq (windowPerforms_mem ..) w
  · exact wf_of_mem_eq (arrivalPerforms_mem ..) w
  · exact w
  · exact w
  · exact wf_of_mem_eq (pushCall_mem ..) w
  · exact wf_of_mem_eq (joinLeaves_mem ..) w
  · trivial
  · exact .of fun _ => fshareStart_wf w
  · exact bbWrite_wf w _ _

theorem overflowNote_wf {o : OutItem} {s t : State} (w : s.mem.wf = true) (h : overflowNote o s = some t)
    : t.mem.wf = true := by
  unfold overflowNote at h
  grind [overflowAt_wf]

theorem performItem_wf {o : OutItem} {s t : State} (w : s.mem.wf = true) (h : performItem o s = some t)
    : t.mem.wf = true := by
  refine (?_ : SomeWf (performItem o s)).elim h
  refine .ite trivial ?_
  extract_lets race
  clear_value race
  split
  · exact terminate_wf (s := { s with inflight := s.inflight.erase o }) w _ _ _ _ _
  split
  · next u hu =>
    have wu := itemEffect_wf w hu
    refine wf_of_mem_eq (releaseItem_mem ..) ?_
    split
    · exact wf_of_mem_eq ((restamp_mem ..).trans (writeThrough_mem ..)) wu
    · exact wf_of_mem_eq ((recordItem_mem ..).trans (writeThrough_mem ..)) wu
  · exact .of fun _ => overflowNote_wf w

/-! ### Traps and TLB -/

@[simp] theorem dropRange_mem (holder base len : Nat) (asid : Option Nat) (s : State) :
    (dropRange holder base len asid s).mem = s.mem := by
  unfold dropRange
  grind [State.updDie_mem, State.updCore_mem]

theorem needSecure_stop {s : State} {m : Mask} {e : Stop} (h : needSecure s m = .error e) : e.Wf := by
  unfold needSecure at h
  grind [trapIf_stop, Stop.Wf]

theorem tlbDone_mem (op u wn : Nat) (s : State) : (tlbDone op u wn s).mem = s.mem := by
  unfold tlbDone
  dsimp only
  split
  · exact State.updWarpOf_mem ..
  · rw [acquireAt_mem, foldl_keeps State.mem _ (fun _ _ => State.updWarpOf_mem ..), State.updWarpOf_mem]

/-! ### Epochs and rollback -/

theorem leaveItem_mem {core : Nat} {o : OutItem} {s t : State} (h : leaveItem core o s = .ok t) : t.mem = s.mem := by
  refine (?_ : Gives (fun t => t.mem = s.mem) (leaveItem core o s)).elim h
  unfold leaveItem
  split
  · trivial
  · exact mem_ite (escape_mem ..) ((recordItem_mem ..).trans (escape_mem ..))

theorem leaveItems_wf {core : Nat} {l : List OutItem} {s t : State} (w : s.mem.wf = true) (h : leaveItems core l s = .ok t) :
    t.mem.wf = true := by
  induction l generalizing s with
  | nil => cases h; exact w
  | cons o l ih =>
    obtain ⟨u, hu, h⟩ := bind_eq_ok h
    exact ih ((leaveItem_mem hu).symm ▸ w) h

theorem leaveAll_wf {s t : State} (w : s.mem.wf = true) (h : leaveAll s = .ok t) : t.mem.wf = true := by
  have inv : ∀ t, leaveAll s = .ok t → t.mem.wf = true := by
    unfold leaveAll
    refine List.foldlRecOn (motive := fun (r : Except LeaveRace State) => ∀ t, r = .ok t → t.mem.wf = true) _ _ ?_ ?_
    · rintro _ ⟨⟩; exact w
    · intro r ih c _ t h
      obtain ⟨v, hv, h⟩ := bind_eq_ok h
      exact leaveItems_wf (ih v hv) h
  exact inv t h

@[simp] theorem changeItem_mem (o : OutItem) (s : State) : (changeItem o s).mem = s.mem := by
  unfold changeItem
  grind [joinLeaves_mem, leaveNow_mem]

theorem changesLeave_mem (s : State) : (changesLeave s).mem = s.mem :=
  foldl_keeps State.mem _ (fun _ _ => foldl_keeps State.mem _ (fun _ _ => changeItem_mem ..) _ _) _ _

@[simp] theorem retireBlock_mem (u : Nat) (s : State) : (retireBlock u s).mem = s.mem := by
  unfold retireBlock
  grind [State.updLaunch_mem, discardBlock_mem]

theorem retireBlocks_mem (s : State) : (retireBlocks s).mem = s.mem :=
  foldl_keeps State.mem _ (fun _ _ => retireBlock_mem ..) _ _

theorem retryRefills_wf {s : State} (w : s.mem.wf = true) : (retryRefills s).mem.wf = true := by
  refine foldl_wf (fun t p wt => ?_) _ w
  split
  · exact wt
  · refine foldl_wf (fun t x wt => ?_) _ wt
    split
    · exact autoRefill_wf wt _ _
    · exact wt

theorem retryArrivals_mem (s : State) : (retryArrivals s).mem = s.mem := by
  refine foldl_keeps State.mem _ (fun t p => ?_) _ _
  split
  · rfl
  · exact foldl_keeps State.mem _ (fun _ _ => sendArrivals_mem ..) _ _

theorem beginEpoch_wf {s : State} (w : s.mem.wf = true) (e : Nat) : (beginEpoch e s).mem.wf = true := by
  unfold beginEpoch
  grind [retryRefills_wf, retryArrivals_mem]

@[simp] theorem endpointBack_mem (u : Nat) (old : Option Nat) (s : State) : (endpointBack u old s).mem = s.mem := by
  unfold endpointBack
  grind [dropEndpoint_mem, takeEndpoint_mem]

theorem tlbBack_mem (u : Nat) (s : State) : (tlbBack u s).mem = s.mem :=
  foldl_keeps State.mem _ (fun _ _ => foldl_keeps State.mem _ (fun _ _ => tlbDone_mem ..) _ _) _ _

@[simp] theorem collsBack_mem (u : Nat) (c : Ctx) (s : State) : (collsBack u c s).mem = s.mem := rfl

@[simp] theorem undoRecord_mem (q : Quarantine) (s : State) : (undoRecord q s).mem = s.mem := rfl

theorem undoQuarantine_wf {s : State} (w : s.mem.wf = true) (cores : List Nat) : (undoQuarantine cores s).mem.wf = true := by
  refine foldl_wf (fun t q wt => ?_) _ w
  rw [undoRecord_mem]
  split
  · next h => exact performBytes_wf wt _ h
  · exact Mem.wf_writeAll wt _

@[simp] theorem redeliver_mem (core : Nat) (us : List Nat) (from_ : Nat) (s : State) :
    (redeliver core us from_ s).mem = s.mem := rfl

theorem coreBack_wf {s : State} (w : s.mem.wf = true) (core : Nat) (tasks : List TileRec) :
    (coreBack core tasks s).mem.wf = true := by
  unfold coreBack
  simp only [State.updCore_mem]
  simp only [redeliver_mem]
  refine foldl_wf (fun t u wt => ?_) _ (foldl_wf (fun t u wt => wf_of_mem_eq (withdrawFaults_mem ..) wt) _ w)
  rw [tlbBack_mem, endpointBack_mem, collsBack_mem]
  exact wt

theorem endUnlagered_mem (cores : List Nat) (s : State) : (endUnlagered cores s).mem = s.mem :=
  foldl_keeps State.mem _ (fun _ _ => endLaunch_mem ..) _ _

theorem rollback_wf {s : State} (w : s.mem.wf = true) (cores : List Nat) (agent : Word) :
    (rollback cores agent s).mem.wf = true :=
  foldl_wf (fun _ _ w => coreBack_wf w _ _) _ (undoQuarantine_wf (wf_of_mem_eq (endUnlagered_mem ..) (bbWrite_wf w _ _)) _)

/-! ### Moves -/

@[simp] theorem cursorInc_mem (x : Fin 8) (m : Mask) (s : State) : (cursorInc x m s).mem = s.mem := rfl

@[simp] theorem setX_mem (x : Fin 8) (m : Mask) (f : Fin 32 → XReg → XReg) (s : State) : (setX x m f s).mem = s.mem := rfl

/-! ### Placement -/

@[simp] theorem startBlock_mem (u : Nat) (p : Place) (s : State) : (startBlock u p s).mem = s.mem := rfl

theorem placeSpots_mem (u : Nat) (l : List Spot) (s : State) : (placeSpots u l s).mem = s.mem :=
  (State.updLaunch_mem ..).trans (foldl_keeps State.mem _ (fun _ _ => startBlock_mem ..) _ _)

theorem priorityRequest_wf {u k : Nat} {s t : State} (w : s.mem.wf = true) (h : priorityRequest u k s = some t) :
    t.mem.wf = true := by
  unfold priorityRequest at h
  dsimp only at h
  split at h
  · cases h
  split at h
  · cases h
  split at h
  · cases h
  · cases h
    rw [State.updLaunch_mem]
    exact foldl_wf (fun _ _ w => preempt_wf w _ _ _) _ (wf_of_mem_eq (State.free_mem s) w)

@[simp] theorem State.updGang_mem (c g : Nat) (f : Gang → Gang) (s : State) : (State.updGang c g f s).mem = s.mem := rfl

theorem armGang_wf {s : State} (w : s.mem.wf = true) (c g : Nat) : (armGang c g s).mem.wf = true := by
  unfold armGang
  split
  · exact w
  · exact foldl_wf (fun _ _ w => preempt_wf w _ _ _) _ w

@[simp] theorem releaseGang_mem (c g : Nat) (s : State) : (releaseGang c g s).mem = s.mem := rfl

/-! ### Package -/

theorem powerCycled_wf {s : State} (w : s.mem.wf = true) : (powerCycled s).mem.wf = true := Mem.wf_filter w _

@[simp] theorem coverArea_mem (r : RecArea) (s : State) : (coverArea r s).mem = s.mem := by
  unfold coverArea
  split
  · rfl
  split
  · rfl
  · rfl

theorem linkEvent_wf {s : State} (w : s.mem.wf = true) (d : Nat) : (linkEvent d s).mem.wf = true := by
  unfold linkEvent
  grind [sendIrq_mem, bbWrite_wf]

theorem linkServes_wf {s : State} (w : s.mem.wf = true) : (linkServes s).mem.wf = true :=
  foldl_wf (fun _ _ w => deliverGnl_wf w _) _ w

@[simp] theorem linkTo_mem (st : Nat) (s : State) : (linkTo st s).mem = s.mem := rfl

@[simp] theorem writeQueue_mem (c q i : Nat) (v : DWord) (s : State) : (writeQueue c q i v s).mem = s.mem := by
  unfold writeQueue
  extract_lets x upd
  split
  · rfl
  · exact mem_ite (skipQueue_mem ..) rfl
  · exact writeTail_mem ..
  · rfl

theorem writeGang_wf {s : State} (w : s.mem.wf = true) (c g i : Nat) (v : DWord) : (writeGang c g i v s).mem.wf = true := by
  unfold writeGang
  extract_lets x idle
  split
  · next u _ =>
    have wu : u.mem.wf = true := wf_ite w w
    exact wf_ite (armGang_wf wu _ _) (wf_of_mem_eq (releaseGang_mem ..) wu)
  · exact wf_ite w w
  · exact w

theorem writeTimeline_wf {s : State} (w : s.mem.wf = true) (c n i : Nat) (v : DWord) :
    (writeTimeline c n i v s).mem.wf = true := by
  unfold writeTimeline
  grind [State.updCtx_mem, State.freeBool_mem, raiseTimeline_wf]

theorem writePage_wf {s : State} (w : s.mem.wf = true) (c off : Nat) (secure : Bool) (v : DWord) :
    (writePage c off secure v s).mem.wf = true := by
  unfold writePage
  grind [writeControl_mem, writeQueue_mem, writeGang_wf, writeTimeline_wf]

theorem hostWorldFault_wf {s : State} (w : s.mem.wf = true) (pa : Nat) : (hostWorldFault pa s).mem.wf = true := by
  unfold hostWorldFault
  grind [bbWrite_wf]

theorem hostWrite_wf {pa : Nat} {secure : Bool} {bs : List Byte} {s t : State} (w : s.mem.wf = true)
    (h : hostWrite pa secure bs s = some t) : t.mem.wf = true := by
  unfold hostWrite at h
  split at h
  · cases h; exact hostWorldFault_wf w _
  · obtain ⟨u, hu, rfl⟩ := Option.map_eq_some_iff.mp h
    exact wf_of_mem_eq (dropCopies_mem ..) (performBytes_wf w _ hu)

theorem ownWrite_wf {s : State} (w : s.mem.wf = true) (pa : Nat) (bs : List Byte) : (ownWrite pa bs s).mem.wf = true :=
  Mem.wf_writeAll w _

@[simp] theorem attest_mem (n : BitVec 256) (s : State) : (attest n s).mem = s.mem := rfl

@[simp] theorem answerHost_mem (bs : List Byte) (s : State) : (answerHost bs s).mem = s.mem := rfl

/-! ### The schedule -/

@[simp] theorem updShadows_mem (f : List ShadowRec → List ShadowRec) (s : State) : (updShadows f s).mem = s.mem := by
  unfold updShadows
  grind

@[simp] theorem shadowsMove_mem (s : State) : (shadowsMove s).mem = s.mem := by
  unfold shadowsMove
  grind [updShadows_mem]

theorem memoryNews_wf {s : State} (w : s.mem.wf = true)  : (memoryNews s).mem.wf = true := by
  unfold memoryNews
  extract_lets s1 s2
  have w1 : s1.mem.wf = true := by
    unfold s1
    split
    · exact dramShows_wf w _ _
    · exact w
  have w2 : s2.mem.wf = true := by
    unfold s2
    split
    · exact wf_ite (setPoison_wf w1 _) w1
    · exact w1
  split
  · exact wf_ite w2 w2
  · exact w2

@[simp] theorem takeReading_mem (s : State) : (takeReading s).mem = s.mem := by
  unfold takeReading
  split
  · rfl
  · exact mem_ite rfl rfl

theorem timeMoves_wf {s : State} (w : s.mem.wf = true)  : (timeMoves s).mem.wf = true := by
  unfold timeMoves
  extract_lets u
  have wu : u.mem.wf = true := wf_of_mem_eq (shadowsMove_mem ..) w
  refine wf_ite (wf_ite wu wu) ?_
  exact wf_of_mem_eq (takeReading_mem ..) (memoryNews_wf (wf_of_mem_eq (evictRecords_mem ..) wu))

@[simp] theorem happens_mem (s : State) : (happens s).mem = s.mem := by
  unfold happens
  grind [State.free_mem]

theorem plan_wf {s : State} (w : s.mem.wf = true)  : (plan s).mem.wf = true := by
  unfold plan
  grind [timeMoves_wf, happens_mem]

end Sys2Proof.Machine
end


section
/-!
PROOFS. Every instruction and every event keeps memory in its canonical form (log 3).
-/

namespace Sys2Proof.Machine

-- The whole text is compiled in one process under a memory limit: elaborate one proof after the other.
set_option Elab.async false

/-! ### Ends of an instruction -/

theorem finish_leaves {x : Except Stop State} {s t : State} (w : s.mem.wf = true)
    (hx : LeavesWf (fun u : State => u.mem.wf = true) x) (h : finish x s = .next t) : t.mem.wf = true := by
  cases x with
  | ok u => exact finish_done hx h
  | error e => exact finish_stop w hx h

theorem LeavesWf.of {x : Except Stop State} {s : State} (w : s.mem.wf = true) (hok : ∀ t, x = .ok t → t.mem = s.mem)
    (hstop : ∀ e, x = .error e → e.Wf) : LeavesWf (fun u : State => u.mem.wf = true) x := by
  cases x with
  | ok u => exact wf_of_mem_eq (hok u rfl) w
  | error e => exact hstop e rfl

theorem runAlu_next {g : Guard} {qs : List SrcSpec} {d : Dst} {f : Reading → Fin 32 → Word × Flags} {s t : State}
    (w : s.mem.wf = true) (h : finish (runAlu g qs d f s) s = .next t) : t.mem.wf = true :=
  finish_leaves w (.of w (fun _ => runAlu_mem) fun _ => runAlu_stop) h

theorem runInt_next {g : Guard} {qs : List SrcSpec} {d : Dst} {f : Reading → Fin 32 → Word} {s t : State}
    (w : s.mem.wf = true) (h : finish (runInt g qs d f s) s = .next t) : t.mem.wf = true :=
  runAlu_next w h

theorem runPair_next {g : Guard} {qs : List SrcSpec} {d : Dst} {f : Reading → Fin 32 → DWord × Flags} {s t : State}
    (w : s.mem.wf = true) (h : finish (runPair g qs d f s) s = .next t) : t.mem.wf = true :=
  finish_leaves w (.of w (fun _ => runPair_mem) fun _ => runPair_stop) h

/-! ### Copy engine -/

theorem copyEvent_wf {core op : Nat} {name : String} {s t : State} (w : s.mem.wf = true)
    (h : copyEvent core op name s = .next t) : t.mem.wf = true := by
  unfold copyEvent at h
  dsimp only at h
  split at h
  · next r hr =>
    cases h
    rcases List.mem_append.mp (List.mem_of_getElem? hr) with hstart | hmove
    · exact wf_of_mem_eq (startCopy_mem (Option.mem_toList.mp hstart)) w
    · obtain ⟨o, -, ho⟩ := List.mem_filterMap.mp hmove
      exact copyStep_wf (wf_of_mem_eq (State.free_mem s) w) ho
  · cases h

/-! ### Messages and collectives at work -/

theorem collStep_wf {op : Nat} {name : String} {tag seq : Word} {s t : State} (w : s.mem.wf = true)
    (h : collStep op name tag seq s = .next t) : t.mem.wf = true := by
  unfold collStep at h
  dsimp only at h
  split at h
  · next r hr =>
    obtain ⟨x, -, hx⟩ := List.mem_flatMap.mp (List.mem_of_getElem? hr)
    obtain ⟨p, -, hp⟩ := List.mem_filterMap.mp hx
    have wr := partStep_wf w hp
    cases h
    exact wr
  · cases h

/-! ### System registers -/

theorem answerStep_wf {die : Fin 4} {slot : Fin 64} {verdict : Nat} {name : String} {s t : State} (w : s.mem.wf = true)
    (h : answerStep die slot verdict name s = .next t) : t.mem.wf = true := by
  unfold answerStep at h
  split at h
  · cases h
  · split at h
    · cases h; exact answerFault_wf w _ _ _
    · cases h

/-! ### Control -/

theorem trapAfter_wf {g : Guard} {kind : Nat} {code : BitVec 20} {s t : State} (w : s.mem.wf = true)
    (h : trapAfter g kind code s = .next t) : t.mem.wf = true := by
  unfold trapAfter at h
  split at h
  · next hc => exact finish_stop w (checkIssue_stop hc) h
  · dsimp only at h
    split at h
    · cases h; exact wf_of_mem_eq (advance_mem s) w
    split at h
    · cases h; exact raiseTrap_wf w _
    · cases h; exact takeTrap_wf (wf_of_mem_eq (advance_mem s) w) _ _

/-! ### Launches and queues -/

theorem launchStep_wf {name : String} {la : Launch} {r : Option State} {s t : State} (w : s.mem.wf = true)
    (hr : ∀ t, r = some t → t.mem.wf = true) (h : launchStep name la r s = .next t) : t.mem.wf = true := by
  unfold launchStep at h
  cases r with
  | some u => cases h; exact hr _ rfl
  | none =>
    cases ho : overflowAt la.markAt s with
    | some u => rw [ho] at h; cases h; exact overflowAt_wf w ho
    | none => rw [ho] at h; cases h

/-- What a queue's head comes to: a state that goes on, or that halts the queue, has canonical memory. -/
def Head.Wf : Head → Prop
  | .nothing => True
  | .halt _ _ t => t.mem.wf = true
  | .start _ t => t.mem.wf = true

theorem headOf_leaves {s : State} (w : s.mem.wf = true) (c q : Nat) : (headOf s c q).Wf := by
  unfold headOf
  dsimp only
  split
  · trivial
  split
  · exact w
  split
  · trivial
  split
  · split
    · trivial
    · exact noteNoPage_wf w _ _
  · next bs u hu =>
    have wu : u.mem.wf = true := wf_of_mem_eq (readSpan_mem hu) w
    split
    · exact wu
    split
    · exact wu
    · trivial

theorem headOf_wf {s : State} (w : s.mem.wf = true) (c q : Nat) :
    (∀ st k t, headOf s c q = .halt st k t → t.mem.wf = true) ∧ ∀ e t, headOf s c q = .start e t → t.mem.wf = true := by
  have hw := headOf_leaves w c q
  refine ⟨fun st k t h => ?_, fun e t h => ?_⟩
  all_goals
    rw [h] at hw
    exact hw

theorem firstHead_mem {s : State} {d c q : Nat} {h : Head} (hh : firstHead s d = some (c, q, h)) : headOf s c q = h := by
  obtain ⟨p, -, hp⟩ := List.exists_of_findSome?_eq_some hh
  grind

theorem startEntry_wf {d kind : Nat} {name : String} {start : Nat → Nat → Word → Entry → State → Except Refuse State}
    {s t : State}
    (hstart : ∀ c q n e s t, s.mem.wf = true → start c q n e s = .ok t → t.mem.wf = true) (w : s.mem.wf = true)
    (h : startEntry d kind name start s = .next t) : t.mem.wf = true := by
  refine (?_ : NextWf (startEntry d kind name start s)).elim h
  unfold startEntry
  split
  · next c q st k u hh =>
    have wu := (headOf_wf w c q).1 st k u (firstHead_mem hh)
    exact .ite (wf_of_mem_eq (haltEarly_mem ..) wu) trivial
  · next c q e u hh =>
    have wu := (headOf_wf w c q).2 e u (firstHead_mem hh)
    refine .ite trivial ?_
    split
    · split
      · split
        · next hw => exact NoPage.waiting_wf wu hw
        · trivial
      · exact wf_of_mem_eq ((State.updDie_mem ..).trans (haltEarly_mem ..)) (noteRefuse_wf wu _ _)
    · next hs => exact wf_of_mem_eq (headMoves_mem ..) (hstart _ _ _ _ _ _ wu hs)
  · trivial

theorem paged_gives {α : Type} {P : α → Prop} {r : Except NoPage α} (h : ∀ a, r = .ok a → P a) : Gives P (paged r) := by
  cases r with
  | error _ => trivial
  | ok a => exact h a rfl

theorem readSpan_keeps {m : Mem} {s : State} (hs : s.mem = m) {d asid a n : Nat} {world : Bool} :
    Gives (fun x => x.2.mem = m) (paged (readSpan s d asid world a n)) :=
  paged_gives fun _ h => (readSpan_mem h).trans hs

theorem spanOk_keeps {m : Mem} {s : State} (hs : s.mem = m) {d asid a n : Nat} {world : Bool} {k : AccKind} :
    Gives (fun t => t.mem = m) (paged (spanOk s d asid world k a n)) :=
  paged_gives fun _ h => (spanOk_mem h).trans hs

theorem checkLaunch_mem {s : State} {ctx : Nat} {addr : DWord} {p : Passed} (h : checkLaunch s ctx addr = .ok p) :
    p.st.mem = s.mem := by
  refine (?_ : Gives (fun p : Passed => p.st.mem = s.mem) (checkLaunch s ctx addr)).elim h
  refine (readSpan_keeps rfl).bind fun x h1 => (spanOk_keeps h1).bind fun x h2 => (spanOk_keeps h2).bind fun x h3 =>
    .ite trivial <| (readSpan_keeps h3).bind fun x h4 => .ite trivial <| (spanOk_keeps h4).bind fun x h5 =>
    (spanOk_keeps h5).bind fun x h6 => (readSpan_keeps h6).bind fun x h7 => (readSpan_keeps h7).bind fun x h8 =>
    (readSpan_keeps h8).bind fun x h9 => .ite trivial <| .ite trivial <| .ite trivial <| .ite trivial ?_
  split
  · trivial
  · exact .ite (.bind (P := fun _ => True) .any fun _ _ => .ite trivial h9) (.ite trivial h9)

theorem acceptLaunch_wf {ctx : Nat} {src : Source} {p : Passed} {t : State} (w : p.st.mem.wf = true)
    (h : acceptLaunch ctx src p = some t) : t.mem.wf = true := by
  refine (?_ : SomeWf (acceptLaunch ctx src p)).elim h
  refine .ite (sourceDone_wf (raiseTimeline_wf w _ _ _) _) ?_
  refine .map (.of fun u hu => ?_) fun u wu => ?_
  · exact markCow_wf (s := { p.st.uid.2 with launches := _ }) w hu
  · split
    · exact wu
    · exact wu

/-! ### Graphs -/

theorem readyNode_wf {d gr i type : Nat} {name : String} {f : Graph → Node → Option State} {s t : State}
    (hf : ∀ g n t, f g n = some t → t.mem.wf = true) (h : readyNode d gr i type name s f = .next t) : t.mem.wf = true := by
  unfold readyNode at h
  grind

theorem applyVerdict_wf {d gr i cause : Nat} {desc : List Byte} {v : Verdict} {held s t : State} (wh : held.mem.wf = true)
    (w : s.mem.wf = true) (h : applyVerdict d gr i desc v cause held s = some t) : t.mem.wf = true := by
  refine (?_ : SomeWf (applyVerdict d gr i desc v cause held s)).elim h
  unfold applyVerdict
  split
  · exact w
  refine .ite (endNode_wf w _ _ _ _ _) ?_
  extract_lets f u code tok stop no finish done
  have wu : u.mem.wf = true := wf_ite w (noteStop_wf w _ _ _ _ _)
  have hno (p : NoPage) : SomeWf (no p) := .ite (.of fun _ => NoPage.waiting_wf wh) (.of fun _ => nodeNoPage_wf wu)
  have hfinish {r : Except NoPage State} {k : State → State} (hr : ∀ t, r = .ok t → (k t).mem.wf = true) :
      SomeWf (finish r k) := by
    cases r with
    | error p => exact hno p
    | ok t => exact hr t rfl
  clear_value u code tok no
  split
  · exact hfinish fun t ht => endNode_wf (walkWrite_wf wu ht) _ _ _ _ _
  · exact hfinish fun t ht => endNode_wf (walkWrites_wf wu ht) _ _ _ _ _
  · exact hfinish fun t ht => endNode_wf (walkWrites_wf wu ht) _ _ _ _ _
  · split
    · refine .ite (hfinish fun t ht => endNode_wf (walkWrites_wf wu ht) _ _ _ _ _) (hfinish fun t ht => ?_)
      exact wf_of_mem_eq (State.updGraph_mem ..) (walkWrites_wf wu ht)
    · exact hno _
    · exact hno _

theorem endCallback_wf {d cause : Nat} {v : Verdict} {name : String} {s t : State} (w : s.mem.wf = true)
    (h : endCallback d v cause name s = .next t) : t.mem.wf = true := by
  unfold endCallback at h
  split at h
  · split at h
    · next ha => cases h; exact applyVerdict_wf w (wf_of_mem_eq (popCall_mem ..) w) ha
    · cases h
  · cases h

theorem endPost_wf {d cause : Nat} {v : Verdict} {name : String} {s t : State} (w : s.mem.wf = true)
    (h : endPost d v cause name s = .next t) : t.mem.wf = true := by
  refine (?_ : NextWf (endPost d v cause name s)).elim h
  unfold endPost
  split
  · extract_lets b agent known good s1 s2 wd msg
    have w1 : s1.mem.wf = true := wf_of_mem_eq (popCall_mem ..) w
    have w2 : s2.mem.wf = true := wf_ite w1 (noteStop_wf w1 _ _ _ _ _)
    exact wf_ite w2 (wf_of_mem_eq (deliverTo_mem ..) w2)
  · trivial

/-! ### The schedule -/

theorem handOver_mem (s t : State) : (handOver s t).mem = t.mem := by
  unfold handOver
  grind [State.updWarpOf_mem]

/-! ### Operands and destinations -/

theorem readAll_leaves {g : Guard} {qs : List SrcSpec} {s : State} (w : s.mem.wf = true) :
    LeavesWf (fun r : Reading => r.st.mem.wf = true) (readAll g qs s) := by
  cases h : readAll g qs s with
  | ok r => exact wf_of_mem_eq (readAll_mem h) w
  | error e => exact readAll_stop h

/-! ### Accesses of memory -/

theorem loadGlobal_leaves {s : State} {acq : Option Scope} {align : Bool} {rs : List Req} (w : s.mem.wf = true) :
    LeavesWf (fun x => x.2.mem.wf = true) (loadGlobal s acq align rs) := by
  cases h : loadGlobal s acq align rs with
  | ok x => exact wf_of_mem_eq (loadGlobal_mem h) w
  | error e => exact loadGlobal_stop h

theorem loadBuf_leaves {s : State} {c align : Bool} {rs : List Req} (w : s.mem.wf = true) :
    LeavesWf (fun x => x.2.mem.wf = true) (loadBuf s c align rs) := by
  cases h : loadBuf s c align rs with
  | ok x => exact wf_of_mem_eq (loadBuf_mem h) w
  | error e => exact loadBuf_stop h

theorem storeBuf_leaves {s : State} {c : Bool} {rs : List Req} {data : List (List Byte)} (w : s.mem.wf = true) :
    LeavesWf (fun t : State => t.mem.wf = true) (storeBuf s c rs data) := by
  cases h : storeBuf s c rs data with
  | ok x => exact wf_of_mem_eq (storeBuf_mem h) w
  | error e => exact storeBuf_stop h

theorem storeGlobal_leaves {s : State} {rel : Option Scope} {rs : List Req} {data : List (List Byte)} (w : s.mem.wf = true) :
    LeavesWf (fun t : State => t.mem.wf = true) (storeGlobal s rel rs data) := by
  cases h : storeGlobal s rel rs data with
  | ok x => exact wf_of_mem_eq (storeGlobal_mem h) w
  | error e => exact storeGlobal_stop h

/-! ### Memory instructions -/

theorem atAddr_leaves {α : Type} {P : α → Prop} {a : DWord} {x : Except Stop α} (hx : LeavesWf P x) : LeavesWf P
    (atAddr a x) := by
  unfold atAddr
  split
  · trivial
  · exact hx

/-! ### Lane operations -/

theorem asActive_leaves {α : Type} {P : α → Prop} {m : Mask} {x : Except Stop α} (hx : LeavesWf P x) : LeavesWf P
    (asActive m x) := by
  unfold asActive
  split
  · trivial
  · exact hx

/-! ### Operands and destinations -/

theorem readStream_leaves {m ml : Mask} {n : Fin 8} {s0 st : State} {preds : Vector Mask 7} (w : st.mem.wf = true) :
    LeavesWf (fun x => x.2.1.mem.wf = true) (readStream m ml n s0 st preds) := by
  cases h : readStream m ml n s0 st preds with
  | ok x => exact wf_of_mem_eq (readStream_mem h) w
  | error e => exact readStream_stop h

/-! ### Winner lists -/

theorem wlinitOp_leaves {m : Mask} {k : Fin 8} {kw : BitVec 6} {f32 : Bool} {o n : Nat} {r : Reading} {s : State}
    (w : r.st.mem.wf = true) : LeavesWf (fun t : State => t.mem.wf = true) (wlinitOp m k kw f32 o n r s) := by
  cases h : wlinitOp m k kw f32 o n r s with
  | ok x => exact wf_of_mem_eq (wlinitOp_mem h) w
  | error e => exact wlinitOp_stop h

/-! ### Memory instructions -/

theorem execLd_wf {g : Guard} {d : Dst} {sz : LdSize} {acq : Option Scope} {base : Operand} {off : BitVec 20} {s t : State}
    (w : s.mem.wf = true) (h : execLd g d sz acq base off s = .next t) : t.mem.wf = true := by
  refine finish_leaves w ?_ h
  refine .after (fun _ => memStart_stop) fun _ => (readAll_leaves w).bind fun r wr => .after
    (fun _ => destCheck_stop) fun _ => (loadGlobal_leaves wr).bind fun ⟨bs, s1⟩ ws1 =>
    (commit_leaves ws1).bind fun t wt => ?_
  · change (State.mem _).wf = true
    grind [counted_mem]

theorem execLds_wf {g : Guard} {d : Operand} {sz : LdSize} {acq : Option Scope} {base : Operand} {off : BitVec 20}
    {s t : State} (w : s.mem.wf = true) (h : execLds g d sz acq base off s = .next t) : t.mem.wf = true := by
  refine finish_leaves w ?_ h
  refine .after (fun _ => memStart_stop) fun _ => (readAll_leaves w).bind fun r wr => .after
    (fun _ => destCheck_stop) fun _ => (loadGlobal_leaves wr).bind fun ⟨bs, s1⟩ ws1 =>
    (commit_leaves ws1).bind fun t wt => ?_
  · change (State.mem _).wf = true
    grind [counted_mem]

theorem execLdc_wf {g : Guard} {d : Dst} {sz : LdSize} {base : Src} {off : BitVec 20} {s t : State} (w : s.mem.wf = true)
    (h : execLdc g d sz base off s = .next t) : t.mem.wf = true := by
  refine finish_leaves w ?_ h
  refine .after (fun _ => memStart_stop) fun _ => (readAll_leaves w).bind fun r wr => .after
    (fun _ => destCheck_stop) fun _ => .after (fun _ => failWith_stop) fun _ => .after (fun _ => failWith_stop) fun _ =>
    (commit_leaves wr).bind fun t wt => ?_
  · change (State.mem _).wf = true
    grind [counted_mem]

theorem execLdb_wf {g : Guard} {d : Dst} {sz : LdSize} {buf : Buf} {base : Src} {off : BitVec 20} {s t : State}
    (w : s.mem.wf = true) (h : execLdb g d sz buf base off s = .next t) : t.mem.wf = true := by
  refine finish_leaves w ?_ h
  refine .after (fun _ => memStart_stop) fun _ => (readAll_leaves w).bind fun r wr => .after
    (fun _ => destCheck_stop) fun _ => (loadBuf_leaves wr).bind fun ⟨bs, s1⟩ ws1 => (commit_leaves ws1).bind fun t wt => ?_
  · change (State.mem _).wf = true
    grind [counted_mem]

theorem execLdbq_wf {g : Guard} {d : Dst} {c8 hi strict abuf : Bool} {rm : Rm} {base : Src} {off : BitVec 20} {s t : State}
    (w : s.mem.wf = true) (h : execLdbq g d c8 hi strict abuf rm base off s = .next t) : t.mem.wf = true := by
  refine finish_leaves w ?_ h
  refine .after (fun _ => memStart_stop) fun m => (readAll_leaves w).bind fun r wr => .after
    (fun _ => destCheck_stop) fun _ =>
    LeavesWf.bind (P := fun x => x.2.mem.wf = true) (atAddr_leaves (.ite (loadBuf_leaves wr) (loadGlobal_leaves wr)))
      fun x wx => .after (fun _ => trapIf_stop) fun _ => (commit_leaves wx).bind fun t wt => ?_
  exact wf_of_mem_eq (counted_mem ..) (wf_ite wt (wf_of_mem_eq (setFlags_mem ..) wt))

theorem execSt_wf {g : Guard} {a : Src} {sz : StSize} {rel : Option Scope} {base : Operand} {off : BitVec 20} {s t : State}
    (w : s.mem.wf = true) (h : execSt g a sz rel base off s = .next t) : t.mem.wf = true := by
  refine finish_leaves w ?_ h
  refine .after (fun _ => memStart_stop) fun _ => (readAll_leaves w).bind fun r wr => .after
    (fun _ => destCheck_stop) fun _ => (storeGlobal_leaves wr).bind fun s1 ws1 => (commit_leaves ws1).bind fun t wt => ?_
  · change (State.mem _).wf = true
    grind [storeGlobal_mem, countedRel_mem]

theorem execStnt_wf {g : Guard} {a : Src} {sz : StSize} {base : Operand} {off : BitVec 20} {s t : State}
    (w : s.mem.wf = true) (h : execStnt g a sz base off s = .next t) : t.mem.wf = true := by
  refine finish_leaves w ?_ h
  refine .after (fun _ => memStart_stop) fun _ => (readAll_leaves w).bind fun r wr => .after
    (fun _ => destCheck_stop) fun _ => (globalCheck_leaves wr).bind fun ⟨gs, s1⟩ ws1 =>
    (commit_leaves ?_).bind fun t wt => ?_
  · grind [State.updBody_mem, wrote_mem, counted_mem]
  · change (State.mem _).wf = true
    grind [State.updBody_mem, wrote_mem, counted_mem]

theorem execDrainnt_wf {g : Guard} {s t : State} (w : s.mem.wf = true) (h : execDrainnt g s = .next t)
    : t.mem.wf = true := by
  refine finish_leaves w ?_ h
  refine .after (fun _ => memStart_stop) fun _ => .ite (w) <| .after (fun _ => drainCheck_stop) fun _ => ?_
  · change (State.mem _).wf = true
    grind [drainOf_mem, counted_mem]

theorem execStb_wf {g : Guard} {a : Src} {sz : StSize} {buf : Buf} {base : Src} {off : BitVec 20} {s t : State}
    (w : s.mem.wf = true) (h : execStb g a sz buf base off s = .next t) : t.mem.wf = true := by
  refine finish_leaves w ?_ h
  refine .after (fun _ => memStart_stop) fun _ => (readAll_leaves w).bind fun r wr => .after
    (fun _ => destCheck_stop) fun _ => (storeBuf_leaves wr).bind fun s1 ws1 => (commit_leaves ws1).bind fun t wt => ?_
  · change (State.mem _).wf = true
    grind [counted_mem]

theorem execAtom_wf {g : Guard} {d : Dst} {hold : Bool} {op : AtomOp} {sc : Scope} {od : AOrder} {base : Operand}
    {off : BitVec 16} {s t : State} (w : s.mem.wf = true) (h : execAtom g d hold op sc od base off s = .next t)
    : t.mem.wf = true := by
  refine finish_leaves w ?_ h
  exact .after (fun _ => memStart_stop) fun _ => (readAll_leaves w).bind fun r wr => atomGlobal_leaves w wr

theorem execAtomc_wf {g : Guard} {d : Dst} {a cmp x : Src} {sc : Scope} {od : AOrder} {sp : ASpace} {s t : State}
    (w : s.mem.wf = true) (h : execAtomc g d a cmp x sc od sp s = .next t) : t.mem.wf = true := by
  refine finish_leaves w ?_ h
  refine .after (fun _ => memStart_stop) fun m => (readAll_leaves w).bind fun r wr => ?_
  split
  · exact atomGlobal_leaves w wr
  · exact atomBuffer_leaves w wr

theorem execBatom_wf {g : Guard} {d : Dst} {hold : Bool} {op : AtomOp} {sc : Scope} {od : AOrder} {buf : Buf} {base : Src}
    {off : BitVec 16} {s t : State} (w : s.mem.wf = true) (h : execBatom g d hold op sc od buf base off s = .next t)
    : t.mem.wf = true := by
  refine finish_leaves w ?_ h
  exact .after (fun _ => memStart_stop) fun _ => (readAll_leaves w).bind fun r wr => atomBuffer_leaves w wr

theorem execRed_wf {g : Guard} {a : Src} {op : AtomOp} {sc : Scope} {rel : Bool} {base : Operand} {off : BitVec 16}
    {s t : State} (w : s.mem.wf = true) (h : execRed g a op sc rel base off s = .next t) : t.mem.wf = true := by
  refine finish_leaves w ?_ h
  refine .after (fun _ => memStart_stop) fun _ => (readAll_leaves w).bind fun r wr => .after
    (fun _ => destCheck_stop) fun _ => (redGlobal_leaves w wr).bind fun s1 ws1 => (commit_leaves ws1).bind fun t wt => ?_
  · change (State.mem _).wf = true
    grind [counted_mem, redGlobal_wf]

theorem execPref_wf {g : Guard} {lv : PrefLevel} {base : Operand} {off : BitVec 20} {s t : State} (w : s.mem.wf = true)
    (h : execPref g lv base off s = .next t) : t.mem.wf = true := by
  refine finish_leaves w ?_ h
  refine .after (fun _ => memStart_stop) fun _ => (readAll_leaves w).bind fun r wr => (commit_leaves wr).bind fun t wt => ?_
  split
  · exact wf_of_mem_eq (foldl_keeps State.mem _ (fun _ _ => prefL1_mem ..) _ _) wt
  · exact wt

theorem execCctl_wf {g : Guard} {op : CctlOp} {base : Operand} {off : BitVec 20} {s t : State} (w : s.mem.wf = true)
    (h : execCctl g op base off s = .next t) : t.mem.wf = true := by
  refine finish_leaves w ?_ h
  refine .after (fun _ => memStart_stop) fun _ => (readAll_leaves w).bind fun r wr => .after
    (fun _ => destCheck_stop) fun _ => .after (fun _ => failWith_stop) fun _ => .after (fun _ => stallIf_stop) fun _ =>
    (commit_leaves ?_).bind fun t wt => ?_
  · cases op <;> exact wf_of_mem_eq (xlateAll_mem ..) wr
  · exact wf_of_mem_eq (counted_mem ..) wt

theorem execCctlIl1all_wf {g : Guard} {s t : State} (w : s.mem.wf = true) (h : execCctlIl1all g s = .next t)
    : t.mem.wf = true := by
  refine finish_leaves w ?_ h
  refine .after (fun _ => memStart_stop) fun _ => ?_
  · change (State.mem _).wf = true
    grind [State.updCore_mem, counted_mem]

theorem execStream_wf {g : Guard} {z : Fin 8} {desc : Operand} {pd : Vector (BitVec 3) 4} {s t : State}
    (w : s.mem.wf = true) (h : execStream g z desc pd s = .next t) : t.mem.wf = true := by
  refine finish_leaves w ?_ h
  refine .after (fun _ => memStart_stop) fun m => (readAll_leaves w).bind fun r wr => .after
    (fun _ => destCheck_stop) fun _ =>
    .after (fun _ => failWith_stop) fun _ => .after (fun _ => failWith_stop) fun _ =>
    (loadBuf_leaves wr).bind fun ⟨bs, s1⟩ ws1 => .ite (commit_leaves ws1) ?_
  split
  · trivial
  · exact (commit_leaves ws1).bind fun t wt => wf_of_mem_eq (counted_mem ..) wt

theorem execStrmq_wf {g : Guard} {d : Operand} {z : Fin 8} {s t : State} (w : s.mem.wf = true)
    (h : execStrmq g d z s = .next t) : t.mem.wf = true := by
  refine finish_leaves w ?_ h
  refine .after (fun _ => memStart_stop) fun _ => (readAll_leaves w).bind fun r wr => (commit_leaves wr).bind fun t wt => ?_
  · change (State.mem _).wf = true
    grind [counted_mem]

theorem execStrmend_wf {g : Guard} {z : Fin 8} {s t : State} (w : s.mem.wf = true) (h : execStrmend g z s = .next t)
    : t.mem.wf = true := by
  refine finish_leaves w ?_ h
  refine .after (fun _ => memStart_stop) fun _ => ?_
  · change (State.mem _).wf = true
    grind [State.updReg_mem, counted_mem]

/-! ### Control -/

theorem execBra_wf {g : Guard} {target : Word} {s t : State} (w : s.mem.wf = true) (h : execBra g target s = .next t)
    : t.mem.wf = true := by
  refine finish_leaves w ?_ h
  refine .after (fun _ => checkEncoding_stop) fun _ => .after (fun _ => checkDirect_stop) fun _ => .after
    (fun _ => checkState_stop) fun _ => .after (fun _ => checkJump_stop) fun _ => ?_
  · change (State.mem _).wf = true
    grind [jumpTo_mem]

theorem execBrx_wf {g : Guard} {a : Operand} {s t : State} (w : s.mem.wf = true) (h : execBrx g a s = .next t)
    : t.mem.wf = true :=
  finish_leaves w (.of w (fun _ => runIndirect_mem) fun _ => runIndirect_stop) h

theorem execRet_wf {g : Guard} {a : Operand} {s t : State} (w : s.mem.wf = true) (h : execRet g a s = .next t)
    : t.mem.wf = true :=
  finish_leaves w (.of w (fun _ => runIndirect_mem) fun _ => runIndirect_stop) h

theorem execCall_wf {g : Guard} {link : Operand} {target : Word} {s t : State} (w : s.mem.wf = true)
    (h : execCall g link target s = .next t) : t.mem.wf = true := by
  refine finish_leaves w ?_ h
  refine .after (fun _ => stallIf_stop) fun _ => .after (fun _ => checkEncoding_stop) fun _ => .after
    (fun _ => checkDirect_stop) fun _ => .after (fun _ => checkState_stop) fun _ => .after
    (fun _ => checkJump_stop) fun _ => (readAll_leaves w).bind fun r wr => (commit_leaves wr).bind fun t wt => ?_
  · change (State.mem _).wf = true
    grind [jumpTo_mem]

theorem execCallIndirect_wf {g : Guard} {link : Operand} {a : Operand} {s t : State} (w : s.mem.wf = true)
    (h : execCallIndirect g link a s = .next t) : t.mem.wf = true := by
  refine finish_leaves w ?_ h
  refine .after (fun _ => checkIssue_stop) fun _ => (readAll_leaves w).bind fun r wr => .after
    (fun _ => checkJump_stop) fun _ => (commit_leaves wr).bind fun t wt => ?_
  · change (State.mem _).wf = true
    grind [jumpTo_mem]

theorem execExit_wf {g : Guard} {s t : State} (w : s.mem.wf = true) (h : execExit g s = .next t) : t.mem.wf = true := by
  refine finish_leaves w ?_ h
  refine .after (fun _ => checkIssue_stop) fun _ => .ite ?_ (exitLanes_wf w _ _ _)
  exact .after (fun _ => drainCheck_stop) fun _ => .after (fun _ => stallIf_stop) fun _ => exitLanes_wf w _ _ _

theorem execMeld_wf {g : Guard} {p : Fin 8} {x_t : Bool} {s t : State} (w : s.mem.wf = true)
    (h : execMeld g p x_t s = .next t) : t.mem.wf = true := by
  refine finish_leaves w ?_ h
  refine .after (fun _ => checkIssue_stop) fun _ => ?_
  · change (State.mem _).wf = true
    grind [State.updLane_mem]

theorem execMelde_wf {g : Guard} {s t : State} (w : s.mem.wf = true) (h : execMelde g s = .next t) : t.mem.wf = true := by
  refine finish_leaves w ?_ h
  refine .after (fun _ => checkIssue_stop) fun _ => ?_
  · change (State.mem _).wf = true
    grind [State.updLane_mem]

theorem execRnset_wf {g : Guard} {x_t path : Bool} {first : Fin 16} {va : Fin 256} {vb vc : Option (Fin 256)} {s t : State}
    (w : s.mem.wf = true) (h : execRnset g x_t path first va vb vc s = .next t) : t.mem.wf = true := by
  refine finish_leaves w ?_ h
  refine .after (fun _ => checkIssue_stop) fun _ => ?_
  · change (State.mem _).wf = true
    grind [State.updReg_mem]

theorem execRnsetClr_wf {g : Guard} {x_t : Bool} {s t : State} (w : s.mem.wf = true) (h : execRnsetClr g x_t s = .next t)
    : t.mem.wf = true := by
  refine finish_leaves w ?_ h
  refine .after (fun _ => checkIssue_stop) fun _ => ?_
  · change (State.mem _).wf = true
    grind [State.updReg_mem]

theorem execSerb_wf {g : Guard} {e : BitVec 20} {s t : State} (w : s.mem.wf = true) (h : execSerb g e s = .next t)
    : t.mem.wf = true := by
  refine finish_leaves w ?_ h
  refine .after (fun _ => checkIssue_stop) fun _ => .after (fun _ => trapIf_stop) fun _ =>
    .after (fun _ => trapIf_stop) fun _ => .ite ?_ w
  exact w

theorem execSere_wf {g : Guard} {s t : State} (w : s.mem.wf = true) (h : execSere g s = .next t) : t.mem.wf = true := by
  refine finish_leaves w ?_ h
  refine .after (fun _ => checkIssue_stop) fun _ => .after (fun _ => trapIf_stop) fun _ => ?_
  · change (State.mem _).wf = true
    grind [State.updWarp_mem]

theorem execRefill_wf {g : Guard} {p : Fin 8} {s t : State} (w : s.mem.wf = true) (h : execRefill g p s = .next t)
    : t.mem.wf = true := by
  refine finish_leaves w ?_ h
  refine .after (fun _ => checkIssue_stop) fun _ => .ite w <| .after (fun _ => stallIf_stop) fun _ =>
    .after (fun _ => trapIf_stop) fun _ => .after (fun _ => stallIf_stop) fun _ => ?_
  split
  · trivial
  · next hp =>
    refine .after (fun _ => trapIf_stop) fun _ => .after (fun _ => stallIf_stop) fun _ => ?_
    have wu := wf_of_mem_eq (popFor_mem hp) w
    exact wf_of_mem_eq ((settleExit_mem ..).trans (State.updWarp_mem ..)) (wf_ite (wf_of_mem_eq (reviveShare_mem ..) wu) wu)

theorem execYield_wf {g : Guard} {s t : State} (w : s.mem.wf = true) (h : execYield g s = .next t) : t.mem.wf = true := by
  refine finish_leaves w ?_ h
  refine .after (fun _ => checkIssue_stop) fun _ => ?_
  · change (State.mem _).wf = true
    grind [State.updSplit_mem]

theorem execNopre_wf {g : Guard} {s t : State} (w : s.mem.wf = true) (h : execNopre g s = .next t) : t.mem.wf = true := by
  refine finish_leaves w ?_ h
  refine .after (fun _ => checkIssue_stop) fun _ => .ite (w) <| .after (fun _ => stallIf_stop) fun _ => ?_
  · change (State.mem _).wf = true
    grind [State.updWarp_mem]

theorem execPreok_wf {g : Guard} {s t : State} (w : s.mem.wf = true) (h : execPreok g s = .next t) : t.mem.wf = true := by
  refine finish_leaves w ?_ h
  refine .after (fun _ => checkIssue_stop) fun _ => ?_
  · change (State.mem _).wf = true
    grind [State.updWarp_mem]

/-! ### Barriers, fences and peer sets -/

theorem execBar_wf {g : Guard} {b : Bar} {s t : State} (w : s.mem.wf = true) (h : execBar g b s = .next t)
    : t.mem.wf = true := by
  refine finish_leaves w ?_ h
  refine .after (fun _ => checkIssue_stop) fun _ => .after (fun _ => checkBar_stop) fun _ => .after
    (fun _ => stallIf_stop) fun _ => ?_
  · change (State.mem _).wf = true
    grind [arrive_mem, waitAt_mem]

theorem execBara_wf {g : Guard} {b : Bar} {s t : State} (w : s.mem.wf = true) (h : execBara g b s = .next t)
    : t.mem.wf = true := by
  refine finish_leaves w ?_ h
  refine .after (fun _ => checkIssue_stop) fun _ => .after (fun _ => checkBar_stop) fun _ => .after
    (fun _ => stallIf_stop) fun _ => ?_
  · change (State.mem _).wf = true
    grind [arrive_mem]

theorem execBarw_wf {g : Guard} {b : Bar} {s t : State} (w : s.mem.wf = true) (h : execBarw g b s = .next t)
    : t.mem.wf = true := by
  refine finish_leaves w ?_ h
  refine .after (fun _ => checkIssue_stop) fun _ => .after (fun _ => checkBar_stop) fun _ => ?_
  · change (State.mem _).wf = true
    grind [waitAt_mem]

theorem execBarq_wf {g : Guard} {d : Operand} {b : Bar} {s t : State} (w : s.mem.wf = true)
    (h : execBarq g d b s = .next t) : t.mem.wf = true := by
  refine finish_leaves w ?_ h
  refine .after (fun _ => checkIssue_stop) fun _ => .after (fun _ => checkBar_stop) fun _ =>
    (readAll_leaves w).bind fun r wr => (commit_leaves wr).bind fun t wt => ?_
  · change (State.mem _).wf = true
    grind [depart_mem]

theorem execFence_wf {g : Guard} {od : FenceOrd} {sc : Scope} {s t : State} (w : s.mem.wf = true)
    (h : execFence g od sc s = .next t) : t.mem.wf = true := by
  refine finish_leaves w ?_ h
  refine .after (fun _ => checkIssue_stop) fun _ => .ite w <| .ite ?_ ?_
  · exact wf_of_mem_eq (fenceBegins_mem s) w
  · change (State.mem _).wf = true
    grind [acquireAt_mem, releaseAt_mem]

theorem execCljoin_wf {g : Guard} {d : Operand} {set : Fin 8} {s t : State} (w : s.mem.wf = true)
    (h : execCljoin g d set s = .next t) : t.mem.wf = true := by
  refine finish_leaves w ?_ h
  refine .after (fun _ => checkIssue_stop) fun _ => (readAll_leaves w).bind fun r wr => .ite w <|
    .after (fun _ => destCheck_stop) fun _ => .after (fun _ => stallIf_stop) fun _ => .after (fun _ => trapIf_stop) fun _ =>
      .ite ?_ ?_
  · refine .after (fun _ => stallIf_stop) fun _ => (commit_leaves wr).bind fun t wt => ?_
    exact wf_of_mem_eq (emit_mem ..) wt
  · exact commit_leaves (wf_of_mem_eq (joinNow_mem ..) w)

theorem execClleave_wf {g : Guard} {s t : State} (w : s.mem.wf = true) (h : execClleave g s = .next t)
    : t.mem.wf = true := by
  refine finish_leaves w ?_ h
  refine .after (fun _ => checkIssue_stop) fun _ => .ite w <| .after (fun _ => stallIf_stop) fun _ => .ite w <|
    .after (fun _ => stallIf_stop) fun _ => ?_
  exact wf_ite (wf_of_mem_eq ((leaveNow_mem ..).trans (emit_mem ..)) w) (wf_of_mem_eq (emit_mem ..) w)

theorem execLeaveAcknowledge_wf {uid : Nat} {s t : State} (w : s.mem.wf = true) (h : execLeaveAcknowledge uid s = .next t)
    : t.mem.wf = true := by
  unfold execLeaveAcknowledge at h
  grind [State.uid_mem, leaveNow_mem]

theorem execSleep_wf {g : Guard} {n : BitVec 20} {s t : State} (w : s.mem.wf = true) (h : execSleep g n s = .next t)
    : t.mem.wf = true := by
  refine finish_leaves w ?_ h
  refine .after (fun _ => checkIssue_stop) fun _ => ?_
  · change (State.mem _).wf = true
    grind [State.updSplit_mem]

theorem execSleepReg_wf {g : Guard} {a : Operand} {s t : State} (w : s.mem.wf = true) (h : execSleepReg g a s = .next t)
    : t.mem.wf = true := by
  refine finish_leaves w ?_ h
  refine .after (fun _ => checkIssue_stop) fun _ => (readAll_leaves w).bind fun r wr =>
    (commit_leaves wr).bind fun t wt => ?_
  · change (State.mem _).wf = true
    grind [State.updSplit_mem]

theorem execMemoryOperationCompletion_wf {uid warp op : Nat} {s t : State} (w : s.mem.wf = true)
    (h : execMemoryOperationCompletion uid warp op s = .next t) : t.mem.wf = true := by
  unfold execMemoryOperationCompletion at h
  grind [State.uid_mem, sendArrivals_mem, opDone_mem]

/-! ### Engines and their queues -/

theorem execCekick_wf {g : Guard} {d off : Operand} {count : CountArg} {s t : State} (w : s.mem.wf = true)
    (h : execCekick g d off count s = .next t) : t.mem.wf = true := by
  refine finish_leaves w ?_ h
  refine .after (fun _ => checkIssue_stop) fun _ => (readAll_leaves w).bind fun r wr => .ite (commit_leaves wr) <| .after
    (fun _ => destCheck_stop) fun _ => .after (fun _ => faultAt_stop) fun _ => .after
    (fun _ => faultAt_stop) fun _ => .after (fun _ => stallIf_stop) fun _ => .after (fun _ => stallIf_stop) fun _ =>
    (commit_leaves wr).bind fun t wt => ?_
  exact wf_ite wt (wf_of_mem_eq ((State.updBody_mem ..).trans (enqueue_mem ..)) wt)

theorem execArrset_wf {g : Guard} {c : Fin 16} {a : Operand} {add : Bool} {s t : State} (w : s.mem.wf = true)
    (h : execArrset g c a add s = .next t) : t.mem.wf = true := by
  refine finish_leaves w ?_ h
  refine .after (fun _ => checkIssue_stop) fun _ => (readAll_leaves w).bind fun r wr =>
    (commit_leaves wr).bind fun t wt => ?_
  · change (State.mem _).wf = true
    grind [State.updEng_mem]

theorem execArrwait_wf {g : Guard} {mask : BitVec 16} {s t : State} (w : s.mem.wf = true)
    (h : execArrwait g mask s = .next t) : t.mem.wf = true := by
  refine finish_leaves w ?_ h
  refine .after (fun _ => checkIssue_stop) fun _ => ?_
  · change (State.mem _).wf = true
    grind [State.updSplit_mem]

theorem execArrtest_wf {g : Guard} {d : Operand} {mask : BitVec 16} {s t : State} (w : s.mem.wf = true)
    (h : execArrtest g d mask s = .next t) : t.mem.wf = true := by
  refine finish_leaves w ?_ h
  refine .after (fun _ => checkIssue_stop) fun _ => (readAll_leaves w).bind fun r wr =>
    (commit_leaves wr).bind fun t wt => ?_
  · change (State.mem _).wf = true
    grind [acquireCtrs_mem]

theorem execTlrd_wf {g : Guard} {d : Operand} {tl : Fin 5} {enq : Bool} {s t : State} (w : s.mem.wf = true)
    (h : execTlrd g d tl enq s = .next t) : t.mem.wf = true := by
  refine finish_leaves w ?_ h
  exact .after (fun _ => checkIssue_stop) fun _ => (readAll_leaves w).bind fun r wr => commit_leaves wr

theorem execTlwait_wf {g : Guard} {tl : Fin 5} {val : TlArg} {s t : State} (w : s.mem.wf = true)
    (h : execTlwait g tl val s = .next t) : t.mem.wf = true := by
  refine finish_leaves w ?_ h
  refine .after (fun _ => checkIssue_stop) fun _ => (readAll_leaves w).bind fun r wr =>
    (commit_leaves wr).bind fun t wt => ?_
  · change (State.mem _).wf = true
    grind [State.updSplit_mem]

theorem execTenq_wf {g : Guard} {d off : Operand} {high : Bool} {s t : State} (w : s.mem.wf = true)
    (h : execTenq g d off high s = .next t) : t.mem.wf = true := by
  refine finish_leaves w ?_ h
  refine .after (fun _ => checkIssue_stop) fun _ => (readAll_leaves w).bind fun r wr => .ite (commit_leaves wr) <| .after
    (fun _ => destCheck_stop) fun _ => .after (fun _ => recordAt64_stop) fun _ => .after
    (fun _ => faultAt_stop) fun _ => .after (fun _ => faultAt_stop) fun _ => .after (fun _ => stallIf_stop) fun _ =>
    (commit_leaves wr).bind fun t1 wt1 => ?_
  extract_lets t2 x
  have wt2 : t2.mem.wf = true := wf_of_mem_eq ((engReadBuf_mem ..).trans (enqueue_mem ..)) wt1
  change (State.mem _).wf = true
  split
  · exact wf_ite (wf_of_mem_eq (joinGroup_mem ..) wt2) (wf_of_mem_eq (retireRecord_mem ..) wt2)
  · exact wt2

theorem execLstat_wf {g : Guard} {woff gen fmt : Operand} {s t : State} (w : s.mem.wf = true)
    (h : execLstat g woff gen fmt s = .next t) : t.mem.wf = true := by
  refine finish_leaves w ?_ h
  refine .after (fun _ => checkIssue_stop) fun _ => (readAll_leaves w).bind fun r wr => .ite (commit_leaves wr) ?_
  dsimp only
  split
  · exact .after (fun _ => trapIf_stop) fun _ => commit_leaves wr
  · refine .after (fun _ => faultAt_stop) fun _ => .after (fun _ => faultAt_stop) fun _ => .after (fun _ => faultAt_stop)
      fun _ =>
      .after (fun _ => stallIf_stop) fun _ => .ite ?_ ((commit_leaves wr).bind fun t wt => wt)
    exact w

theorem execSwap_wf {g : Guard} {s t : State} (w : s.mem.wf = true) (h : execSwap g s = .next t) : t.mem.wf = true := by
  refine finish_leaves w ?_ h
  refine .after (fun _ => checkIssue_stop) fun _ => ?_
  · change (State.mem _).wf = true
    grind [State.updBody_mem]

theorem execTqrd_wf {g : Guard} {d : Operand} {sel : Fin 4} {clr : Bool} {s t : State} (w : s.mem.wf = true)
    (h : execTqrd g d sel clr s = .next t) : t.mem.wf = true := by
  refine finish_leaves w ?_ h
  refine .after (fun _ => checkIssue_stop) fun _ => (readAll_leaves w).bind fun r wr =>
    (commit_leaves wr).bind fun t wt => ?_
  · change (State.mem _).wf = true
    grind [State.updEng_mem]

/-! ### Winner lists -/

theorem execWlinit_wf {g : Guard} {k : Fin 8} {off : Operand} {kw : BitVec 6} {f32 : Bool} {rowsM1 : BitVec 13}
    {s t : State} (w : s.mem.wf = true) (h : execWlinit g k off kw f32 rowsM1 s = .next t) : t.mem.wf = true := by
  refine finish_leaves w ?_ h
  refine .after (fun _ => checkIssue_stop) fun _ => (readAll_leaves w).bind fun r wr => .ite (commit_leaves wr) ?_
  exact wlinitOp_leaves wr

theorem execWlinitReg_wf {g : Guard} {k : Fin 8} {off : Operand} {kw : BitVec 6} {f32 : Bool} {rows : Operand}
    {s t : State} (w : s.mem.wf = true) (h : execWlinitReg g k off kw f32 rows s = .next t) : t.mem.wf = true := by
  refine finish_leaves w ?_ h
  refine .after (fun _ => checkIssue_stop) fun _ => (readAll_leaves w).bind fun r wr => .ite (commit_leaves wr) ?_
  exact wlinitOp_leaves wr

theorem execWlthr_wf {g : Guard} {k : Fin 8} {row val : Operand} {max : Bool} {s t : State} (w : s.mem.wf = true)
    (h : execWlthr g k row val max s = .next t) : t.mem.wf = true := by
  refine finish_leaves w ?_ h
  refine .after (fun _ => checkIssue_stop) fun _ => (readAll_leaves w).bind fun r wr => .ite (commit_leaves wr) <| .after
    (fun _ => destCheck_stop) fun _ => .after (fun _ => handleOk_stop) fun _ => .after
    (fun _ => rowsOk_stop) fun _ => .after (fun _ => touchCheck_stop) fun _ => (commit_leaves wr).bind fun t wt => ?_
  · change (State.mem _).wf = true
    grind [touchRecord_mem, mapHeaders_mem]

theorem execWlthrClr_wf {g : Guard} {k : Fin 8} {row : Operand} {s t : State} (w : s.mem.wf = true)
    (h : execWlthrClr g k row s = .next t) : t.mem.wf = true := by
  refine finish_leaves w ?_ h
  refine .after (fun _ => checkIssue_stop) fun _ => (readAll_leaves w).bind fun r wr => .ite (commit_leaves wr) <| .after
    (fun _ => destCheck_stop) fun _ => .after (fun _ => handleOk_stop) fun _ => .after
    (fun _ => rowsOk_stop) fun _ => .after (fun _ => touchCheck_stop) fun _ => (commit_leaves wr).bind fun t wt => ?_
  · change (State.mem _).wf = true
    grind [touchRecord_mem, mapHeaders_mem]

theorem execWlrd_wf {g : Guard} {d : Operand} {k : Fin 8} {row : Operand} {e : Fin 32} {lane : Bool} {s t : State}
    (w : s.mem.wf = true) (h : execWlrd g d k row e lane s = .next t) : t.mem.wf = true := by
  refine finish_leaves w ?_ h
  refine .after (fun _ => checkIssue_stop) fun _ => (readAll_leaves w).bind fun r wr => .ite (commit_leaves wr) <| .after
    (fun _ => handleOk_stop) fun _ => .after (fun _ => rowsOk_stop) fun _ => .after
    (fun _ => destCheck_stop) fun _ => .after (fun _ => touchCheck_stop) fun _ => (commit_leaves wr).bind fun t wt => ?_
  exact wf_of_mem_eq (touchRecord_mem ..) wt

theorem execWlrdt_wf {g : Guard} {d : Operand} {k : Fin 8} {row : Operand} {seed : Bool} {s t : State}
    (w : s.mem.wf = true) (h : execWlrdt g d k row seed s = .next t) : t.mem.wf = true := by
  refine finish_leaves w ?_ h
  refine .after (fun _ => checkIssue_stop) fun _ => (readAll_leaves w).bind fun r wr => .ite (commit_leaves wr) <| .after
    (fun _ => handleOk_stop) fun _ => .after (fun _ => rowsOk_stop) fun _ => .after
    (fun _ => destCheck_stop) fun _ => .after (fun _ => touchCheck_stop) fun _ => (commit_leaves wr).bind fun t wt => ?_
  · change (State.mem _).wf = true
    grind [touchRecord_mem]

theorem execWlmrg_wf {g : Guard} {kd ks : Fin 8} {row : Operand} {soff : BitVec 13} {s t : State} (w : s.mem.wf = true)
    (h : execWlmrg g kd ks row soff s = .next t) : t.mem.wf = true := by
  refine finish_leaves w ?_ h
  refine .after (fun _ => checkIssue_stop) fun _ => (readAll_leaves w).bind fun r wr => .ite (commit_leaves wr) <|
    .after (fun _ => destCheck_stop) fun _ => .after (fun _ => handleOk_stop) fun _ => .after (fun _ => handleOk_stop) fun _
      =>
    .after (fun _ => trapIf_stop) fun _ => .after (fun _ => rowsOk_stop) fun _ => .after (fun _ => rowsOk_stop) fun _ =>
    .after (fun _ => touchCheck_stop) fun _ => (commit_leaves wr).bind fun t wt => ?_
  exact wf_of_mem_eq ((touchRecord_mem ..).trans (foldl_keeps State.mem _ (fun _ _ => mergeRow_mem ..) _ _)) wt

theorem execWlclr_wf {g : Guard} {k : Fin 8} {row : Option Operand} {seed : Bool} {s t : State} (w : s.mem.wf = true)
    (h : execWlclr g k row seed s = .next t) : t.mem.wf = true := by
  refine finish_leaves w ?_ h
  refine .after (fun _ => checkIssue_stop) fun _ => (readAll_leaves w).bind fun r wr => .ite (commit_leaves wr) <|
    .after (fun _ => destCheck_stop) fun _ => .after (fun _ => handleOk_stop) fun _ => .ite (.after (fun _ => rowsOk_stop)
      fun _ => ?_) ?_
  all_goals
    refine .after (fun _ => touchCheck_stop) fun _ => (commit_leaves wr).bind fun t wt => ?_
    exact wf_of_mem_eq ((touchRecord_mem ..).trans (foldl_keeps State.mem _ (fun _ _ => clearRow_mem ..) _ _)) wt

theorem execNormb_wf {g : Guard} {d : Dst} {a b : Src} {kd : NormKind} {s t : State} (w : s.mem.wf = true)
    (h : execNormb g d a b kd s = .next t) : t.mem.wf = true := by
  refine finish_leaves w ?_ h
  refine .after (fun _ => checkIssue_stop) fun _ => (readAll_leaves w).bind fun r wr =>
    (commit_leaves wr).bind fun t wt => ?_
  exact wf_ite wt (wf_of_mem_eq (setFlags_mem ..) wt)

/-! ### Slabs and splices -/

theorem execAttn_wf {g : Guard} {d off : Operand} {s t : State} (w : s.mem.wf = true) (h : execAttn g d off s = .next t)
    : t.mem.wf = true := by
  refine finish_leaves w ?_ h
  refine .after (fun _ => checkIssue_stop) fun _ => (readAll_leaves w).bind fun r wr => .ite (commit_leaves wr) <| .after
    (fun _ => destCheck_stop) fun _ => .after (fun _ => recordAt64_stop) fun _ => .after
    (fun _ => faultAt_stop) fun _ => .after (fun _ => trapIf_stop) fun _ => .after (fun _ => stallIf_stop) fun _ =>
    (commit_leaves wr).bind fun t wt => ?_
  exact wf_of_mem_eq ((State.updBody_mem ..).trans ((engReadBuf_mem ..).trans (enqueue_mem ..))) wt

theorem execRotq_wf {g : Guard} {d : Dst} {a b : Src} {sin : Bool} {s t : State} (w : s.mem.wf = true)
    (h : execRotq g d a b sin s = .next t) : t.mem.wf = true := by
  refine finish_leaves w ?_ h
  refine .after (fun _ => checkIssue_stop) fun _ => (readAll_leaves w).bind fun r wr => .after
    (fun _ => destCheck_stop) fun _ => .after (fun _ => trapIf_stop) fun _ => (commit_leaves wr).bind fun t wt => ?_
  · change (State.mem _).wf = true
    grind [setFlags_mem]

theorem execKvslab_wf {g : Guard} {n : Fin 8} {off : Operand} {s t : State} (w : s.mem.wf = true)
    (h : execKvslab g n off s = .next t) : t.mem.wf = true := by
  refine finish_leaves w ?_ h
  refine .after (fun _ => checkIssue_stop) fun _ => (readAll_leaves w).bind fun r wr => .ite (commit_leaves wr) <|
    .after (fun _ => destCheck_stop) fun _ => .after (fun _ => faultAt_stop) fun _ => .after (fun _ => faultAt_stop) fun _ =>
    (loadBuf_leaves wr).bind fun ⟨bs, s1⟩ ws1 => ?_
  dsimp only
  split
  · exact .after (fun _ => faultAt_stop) fun _ => w
  · exact .after (fun _ => stallIf_stop) fun _ => (commit_leaves ws1).bind fun t wt => wf_of_mem_eq (setSlab_mem ..) wt

theorem execKvslabLen_wf {g : Guard} {n : Fin 8} {len : Operand} {s t : State} (w : s.mem.wf = true)
    (h : execKvslabLen g n len s = .next t) : t.mem.wf = true := by
  refine finish_leaves w ?_ h
  refine .after (fun _ => checkIssue_stop) fun _ => (readAll_leaves w).bind fun r wr => .ite (commit_leaves wr) <| .after
    (fun _ => destCheck_stop) fun _ => .after (fun _ => trapIf_stop) fun _ => (commit_leaves wr).bind fun t wt => ?_
  · change (State.mem _).wf = true
    grind [setSlab_mem]

theorem execKvslabRd_wf {g : Guard} {d : Operand} {n : Fin 8} {s t : State} (w : s.mem.wf = true)
    (h : execKvslabRd g d n s = .next t) : t.mem.wf = true := by
  refine finish_leaves w ?_ h
  exact .after (fun _ => checkIssue_stop) fun _ => (readAll_leaves w).bind fun r wr => commit_leaves wr

theorem execKvgrow_wf {g : Guard} {d : Operand} {n : Fin 8} {base off : Operand} {fw : Fin 4} {c : Fin 16} {s t : State}
    (w : s.mem.wf = true) (h : execKvgrow g d n base off fw c s = .next t) : t.mem.wf = true := by
  refine finish_leaves w ?_ h
  refine .after (fun _ => checkIssue_stop) fun _ => (readAll_leaves w).bind fun r wr => .ite (commit_leaves wr) <| .after
    (fun _ => destCheck_stop) fun _ => .after (fun _ => trapIf_stop) fun _ => .after
    (fun _ => faultAt_stop) fun _ => .after (fun _ => faultAt_stop) fun _ => .after (fun _ => stallIf_stop) fun _ => .after
    (fun _ => stallIf_stop) fun _ => (commit_leaves wr).bind fun t wt => ?_
  exact wf_of_mem_eq ((State.updBody_mem ..).trans ((setSlab_mem ..).trans ((enqueue_mem ..).trans (engWriteBuf_mem ..)))) wt

theorem execSmerge_wf {g : Guard} {d a : Operand} {rowsM1 : BitVec 7} {hd : Bool} {s t : State} (w : s.mem.wf = true)
    (h : execSmerge g d a rowsM1 hd s = .next t) : t.mem.wf = true := by
  refine finish_leaves w ?_ h
  refine .after (fun _ => checkIssue_stop) fun _ => (readAll_leaves w).bind fun r wr => .ite (commit_leaves wr) <|
    .after (fun _ => destCheck_stop) fun _ => .after (fun _ => softRange_stop) fun _ => .after (fun _ => softRange_stop) fun
      _ =>
    .after (fun _ => trapIf_stop) fun _ => .after (fun _ => touchCheck_stop) fun _ => (commit_leaves wr).bind fun t wt => ?_
  refine wf_of_mem_eq ((setFlags_mem ..).trans ((touchRecord_mem ..).trans
    (foldl_keeps (fun a : State × Flags => a.1.mem) _ (fun a i => ?_) _ _))) wt
  exact putCbuf_mem ..

theorem execSmergeFin_wf {g : Guard} {d : Operand} {rowsM1 : BitVec 7} {hd : Bool} {rm : Rm} {s t : State}
    (w : s.mem.wf = true) (h : execSmergeFin g d rowsM1 hd rm s = .next t) : t.mem.wf = true := by
  refine finish_leaves w ?_ h
  refine .after (fun _ => checkIssue_stop) fun _ => (readAll_leaves w).bind fun r wr => .ite (commit_leaves wr) <|
    .after (fun _ => destCheck_stop) fun _ => .after (fun _ => softRange_stop) fun _ =>
    .after (fun _ => touchCheck_stop) fun _ => (commit_leaves wr).bind fun t wt => ?_
  refine wf_of_mem_eq ((setFlags_mem ..).trans ((touchRecord_mem ..).trans
    (foldl_keeps (fun a : State × Flags => a.1.mem) _ (fun a i => ?_) _ _))) wt
  exact putCbuf_mem ..

theorem execSplice_wf {g : Guard} {n e : Fin 8} {first delta : Operand} {s t : State} (w : s.mem.wf = true)
    (h : execSplice g n e first delta s = .next t) : t.mem.wf = true := by
  refine finish_leaves w ?_ h
  refine .after (fun _ => checkIssue_stop) fun _ => (readAll_leaves w).bind fun r wr => .ite (commit_leaves wr) <| .after
    (fun _ => destCheck_stop) fun _ => .after (fun _ => trapIf_stop) fun _ => (commit_leaves wr).bind fun t wt => ?_
  · change (State.mem _).wf = true
    grind [setSplice_mem]

theorem execSpliceFix_wf {g : Guard} {n e : Fin 8} {s t : State} (w : s.mem.wf = true)
    (h : execSpliceFix g n e s = .next t) : t.mem.wf = true :=
  finish_leaves w (.of w (fun _ => spliceOp_mem fun _ => setSplice_mem ..) fun _ => spliceOp_stop) h

theorem execSpliceClr_wf {g : Guard} {n e : Fin 8} {s t : State} (w : s.mem.wf = true)
    (h : execSpliceClr g n e s = .next t) : t.mem.wf = true :=
  finish_leaves w (.of w (fun _ => spliceOp_mem fun _ => setSplice_mem ..) fun _ => spliceOp_stop) h

/-! ### Messages and collectives -/

theorem execFmsg_wf {g : Guard} {addr soff doff : Operand} {lenM1 : BitVec 8} {c : Fin 16} {s t : State}
    (w : s.mem.wf = true) (h : execFmsg g addr soff doff lenM1 c s = .next t) : t.mem.wf = true := by
  refine finish_leaves w ?_ h
  refine .after (fun _ => checkIssue_stop) fun _ => (readAll_leaves w).bind fun r wr => .ite (commit_leaves wr) <| .after
    (fun _ => destCheck_stop) fun _ => .after (fun _ => sendRange_stop) fun _ => .after
    (fun _ => trapIf_stop) fun _ => .after (fun _ => trapIf_stop) fun _ => .after (fun _ => stallIf_stop) fun _ => .after
    (fun _ => stallIf_stop) fun _ => (loadBuf_leaves wr).bind fun x wx => (commit_leaves wx).bind fun t wt => ?_
  exact wf_of_mem_eq ((emit_mem ..).trans ((State.updEng_mem ..).trans ((enqueue_mem ..).trans (State.uid_mem t)))) wt

theorem execFpoll_wf {g : Guard} {d : Operand} {c : Fin 16} {clr : Bool} {s t : State} (w : s.mem.wf = true)
    (h : execFpoll g d c clr s = .next t) : t.mem.wf = true := by
  refine finish_leaves w ?_ h
  refine .after (fun _ => checkIssue_stop) fun _ => (readAll_leaves w).bind fun r wr =>
    (commit_leaves wr).bind fun t wt => .ite (wt) <| ?_
  · change (State.mem _).wf = true
    grind [State.updEng_mem, acquireCtrs_mem]

theorem execFpollBind_wf {g : Guard} {e : Operand} {s t : State} (w : s.mem.wf = true) (h : execFpollBind g e s = .next t)
    : t.mem.wf = true := by
  refine finish_leaves w ?_ h
  refine .after (fun _ => checkIssue_stop) fun _ => (readAll_leaves w).bind fun r wr => .ite (commit_leaves wr) <| .after
    (fun _ => destCheck_stop) fun _ => .after (fun _ => trapIf_stop) fun _ => (commit_leaves wr).bind fun t wt => ?_
  exact wf_of_mem_eq (takeEndpoint_mem ..) (wf_ite wt wt)

theorem execFpollUnbind_wf {g : Guard} {s t : State} (w : s.mem.wf = true) (h : execFpollUnbind g s = .next t)
    : t.mem.wf = true := by
  refine finish_leaves w ?_ h
  refine .after (fun _ => checkIssue_stop) fun _ => ?_
  · change (State.mem _).wf = true
    grind [dropEndpoint_mem]

theorem execColl_wf {g : Guard} {d off : Operand} {s t : State} (w : s.mem.wf = true) (h : execColl g d off s = .next t)
    : t.mem.wf = true := by
  refine finish_leaves w ?_ h
  refine .after (fun _ => checkIssue_stop) fun _ => (readAll_leaves w).bind fun r wr => .ite (commit_leaves wr) <|
    .after (fun _ => destCheck_stop) fun _ => .after (fun _ => faultAt_stop) fun _ => .after (fun _ => stallIf_stop) fun _ =>
    .after (fun _ => faultAt_stop) fun _ => ?_
  dsimp only
  split
  · exact .after (fun _ => faultAt_stop) fun _ => w
  · trivial
  · exact .after (fun _ => faultAt_stop) fun _ => w
  · refine .after (fun _ => trapIf_stop) fun _ => (commit_leaves wr).bind fun t wt => ?_
    exact collFault_wf (wf_of_mem_eq ((engReadBuf_mem ..).trans (enqueue_mem ..)) wt) _ _ _ _ _
  · next ht =>
    refine .after (fun _ => faultAt_stop) fun _ => .after (fun _ => trapIf_stop) fun _ =>
      (commit_leaves (wf_of_mem_eq (readTable_mem ht) wr)).bind fun t wt => ?_
    exact wf_of_mem_eq ((joinColl_mem ..).trans ((engReadBuf_mem ..).trans (enqueue_mem ..))) wt

theorem execNoise_wf {g : Guard} {d : Dst} {key step idx : Src} {kd : NoiseKind} {s t : State} (w : s.mem.wf = true)
    (h : execNoise g d key step idx kd s = .next t) : t.mem.wf = true := by
  refine finish_leaves w ?_ h
  exact .after (fun _ => checkIssue_stop) fun _ => (readAll_leaves w).bind fun r wr => commit_leaves wr

theorem execCbpost_wf {g : Guard} {pred off : Operand} {c : Fin 16} {budget : BitVec 16} {s t : State}
    (w : s.mem.wf = true) (h : execCbpost g pred off c budget s = .next t) : t.mem.wf = true := by
  refine finish_leaves w ?_ h
  refine .after (fun _ => checkIssue_stop) fun _ => (readAll_leaves w).bind fun r wr => .ite (commit_leaves wr) <| .after
    (fun _ => destCheck_stop) fun _ => .after (fun _ => ownRange_stop) fun _ => .after (fun _ => stallIf_stop) fun _ =>
    (commit_leaves wr).bind fun t wt => ?_
  · change (State.mem _).wf = true
    grind [enqueue_mem, emit_mem, engReadBuf_mem]

/-! ### Launches and queues -/

theorem execLaunchCompletion_wf {uid : Nat} {s t : State} (w : s.mem.wf = true) (h : execLaunchCompletion uid s = .next t)
    : t.mem.wf = true := by
  unfold execLaunchCompletion at h
  dsimp only at h
  split at h
  · cases h
  · refine launchStep_wf w (fun t ht => ?_) h
    obtain ⟨u, hu, rfl⟩ := Option.map_eq_some_iff.mp ht
    refine sourceDone_wf (raiseTimeline_wf ?_ _ _ _) _
    exact wf_of_mem_eq ((leaveGang_mem ..).trans (dropPlanes_mem ..)) (disarm_wf w hu)

theorem execLaunchFailure_wf {uid : Nat} {s t : State} (w : s.mem.wf = true) (h : execLaunchFailure uid s = .next t)
    : t.mem.wf = true := by
  refine (?_ : NextWf (execLaunchFailure uid s)).elim h
  unfold execLaunchFailure
  extract_lets la
  split
  · trivial
  refine .ite trivial ?_
  extract_lets s1
  have w1 : s1.mem.wf = true := bbFailed_wf (s := { s with launches := AMap.erase s.launches uid }) w _ _ _
  change (State.mem _).wf = true
  split
  · exact wf_of_mem_eq (haltLate_mem ..) w1
  · exact endNode_wf w1 _ _ _ _ _

theorem execLaunchReplay_wf {uid : Nat} {s t : State} (w : s.mem.wf = true) (h : execLaunchReplay uid s = .next t)
    : t.mem.wf = true := by
  unfold execLaunchReplay at h
  dsimp only at h
  split at h
  · cases h
  · refine launchStep_wf w (fun t ht => ?_) h
    obtain ⟨u, hu, ht⟩ := Option.bind_eq_some_iff.mp ht
    obtain ⟨v, hv, rfl⟩ := Option.map_eq_some_iff.mp ht
    have wu := restoreFrames_wf w hu
    refine bbWrite_wf (markCow_wf ?_ hv) _ _
    exact wu

theorem execEntryNop_wf {die : Fin 4} {s t : State} (w : s.mem.wf = true) (h : execEntryNop die s = .next t)
    : t.mem.wf = true := by
  unfold execEntryNop at h
  grind [startEntry_wf]

theorem execEntryLaunch_wf {die : Fin 4} {s t : State} (w : s.mem.wf = true) (h : execEntryLaunch die s = .next t)
    : t.mem.wf = true := by
  refine startEntry_wf (fun c q n e u v wu hs => ?_) w h
  obtain ⟨p, hp, hs⟩ := bind_eq_ok hs
  unfold roomy at hs
  split at hs
  · cases hs
  · next ha =>
    cases hs
    exact acceptLaunch_wf (wf_of_mem_eq (checkLaunch_mem hp) wu) ha

theorem execEntryWait_wf {die : Fin 4} {s t : State} (w : s.mem.wf = true) (h : execEntryWait die s = .next t)
    : t.mem.wf = true := by
  unfold execEntryWait at h
  grind [startEntry_wf]

theorem execEntrySignal_wf {die : Fin 4} {s t : State} (w : s.mem.wf = true) (h : execEntrySignal die s = .next t)
    : t.mem.wf = true := by
  unfold execEntrySignal at h
  grind [raiseTimeline_wf, startEntry_wf]

theorem execControlWordWrite_wf {ctx : Fin 64} {secure : Bool} {v : DWord} {s t : State} (w : s.mem.wf = true)
    (h : execControlWordWrite ctx secure v s = .next t) : t.mem.wf = true := by
  unfold execControlWordWrite at h
  grind [writeControl_mem]

theorem execDoorbell_wf {ctx : Fin 64} {q : Fin 8} {tail : Word} {s t : State} (w : s.mem.wf = true)
    (h : execDoorbell ctx q tail s = .next t) : t.mem.wf = true := by
  unfold execDoorbell at h
  grind [writeTail_mem]

theorem execSkip_wf {ctx : Fin 64} {q : Fin 8} {s t : State} (w : s.mem.wf = true) (h : execSkip ctx q s = .next t)
    : t.mem.wf = true := by
  unfold execSkip at h
  grind [skipQueue_mem]

theorem execTimelineValueWrite_wf {ctx : Fin 64} {n : Fin 16} {v : DWord} {s t : State} (w : s.mem.wf = true)
    (h : execTimelineValueWrite ctx n v s = .next t) : t.mem.wf = true := by
  unfold execTimelineValueWrite at h
  grind [raiseTimeline_wf]

/-! ### Copy engine -/

theorem execRequestRetirement_wf {core op : Nat} {s t : State} (w : s.mem.wf = true)
    (h : execRequestRetirement core op s = .next t) : t.mem.wf = true := by
  refine (?_ : NextWf (execRequestRetirement core op s)).elim h
  unfold execRequestRetirement
  split
  · trivial
  split
  · trivial
  extract_lets u
  split
  · exact .ite trivial (wf_of_mem_eq (retireCopy_mem ..) w)
  split
  · next hr => exact retireNode_wf (s := u) w hr
  · trivial

/-! ### Selection of clauses -/

theorem execSelection_wf {core : Nat} {sub : Fin 4} {s t : State} (w : s.mem.wf = true)
    (h : execSelection core sub s = .next t) : t.mem.wf = true := by
  unfold execSelection at h
  dsimp only at h
  split at h
  · split at h
    · cases h
    · rw [← Host.Outcome.next.inj h, readTlv_mem, foldl_keeps State.mem _ (fun _ _ => State.updWarpOf_mem ..),
        foldl_keeps State.mem _ (fun _ _ => endWait_mem ..)]
      exact w
  · rw [← Host.Outcome.next.inj h]
    refine startAll_wf ?_ _ _
    rw [clearYields_mem, passCounts_mem, readTlv_mem, foldl_keeps State.mem _ (fun _ _ => State.updWarpOf_mem ..),
      foldl_keeps State.mem _ (fun _ _ => endWait_mem ..)]
    exact w

theorem execSleepEnd_wf {uid warp split : Nat} {s t : State} (w : s.mem.wf = true)
    (h : execSleepEnd uid warp split s = .next t) : t.mem.wf = true := by
  unfold execSleepEnd at h
  grind [State.updWarpOf_mem, State.uid_mem]

/-! ### Tile tasks -/

theorem execMma_wf {core : Nat} {s t : State} (w : s.mem.wf = true) (h : execMma core s = .next t) : t.mem.wf = true := by
  unfold execMma at h
  grind [runMma_mem]

theorem execRaggedMma_wf {core : Nat} {s t : State} (w : s.mem.wf = true) (h : execRaggedMma core s = .next t)
    : t.mem.wf = true := by
  refine (?_ : NextWf (execRaggedMma core s)).elim h
  unfold execRaggedMma
  extract_lets no
  split
  · split
    · exact .ite w trivial
    · exact .ite (wf_of_mem_eq (runMma_mem ..) w) trivial
  · trivial

theorem execMtopk_wf {core : Nat} {s t : State} (w : s.mem.wf = true) (h : execMtopk core s = .next t)
    : t.mem.wf = true := by
  unfold execMtopk at h
  grind [runTopk_mem]

theorem execTaskCommit_wf {core : Nat} {s t : State} (w : s.mem.wf = true) (h : execTaskCommit core s = .next t)
    : t.mem.wf = true := by
  unfold execTaskCommit at h
  grind [State.updBody_mem, commitTask_mem]

theorem execDispatchPoint_wf {die : Fin 4} {cluster : Fin 12} {s t : State} (w : s.mem.wf = true)
    (h : execDispatchPoint die cluster s = .next t) : t.mem.wf = true := by
  refine (?_ : NextWf (execDispatchPoint die cluster s)).elim h
  unfold execDispatchPoint
  extract_lets d c
  refine .ite trivial ?_
  extract_lets
  refine .ite w ?_
  split
  · exact w
  extract_lets u
  change (State.mem _).wf = true
  split
  · exact wf_of_mem_eq (s := u) (foldl_keeps State.mem _ (fun _ _ => retireRecord_mem ..) _ _) w
  · exact wf_of_mem_eq (s := u) (dispatchTo_mem ..) w

theorem execSwapTakesEffect_wf {core : Nat} {s t : State} (w : s.mem.wf = true) (h : execSwapTakesEffect core s = .next t)
    : t.mem.wf = true := by
  unfold execSwapTakesEffect at h
  grind [State.updDie_mem, State.updBody_mem]

theorem execPlaneLoadEnd_wf {core : Nat} {s t : State} (w : s.mem.wf = true) (h : execPlaneLoadEnd core s = .next t)
    : t.mem.wf = true := by
  refine (?_ : NextWf (execPlaneLoadEnd core s)).elim h
  unfold execPlaneLoadEnd
  extract_lets a
  split
  · trivial
  · change (State.mem _).wf = true
    split
    · exact wf_of_mem_eq (wakeLoad_mem ..) w
    · exact w

theorem execNarrowMode_wf {core : Nat} {s t : State} (w : s.mem.wf = true) (h : execNarrowMode core s = .next t)
    : t.mem.wf = true := by
  unfold execNarrowMode at h
  grind [State.updBody_mem]

/-! ### Attention tasks -/

theorem execAttentionTask_wf {core : Nat} {s t : State} (w : s.mem.wf = true) (h : execAttentionTask core s = .next t)
    : t.mem.wf = true := by
  refine (?_ : NextWf (execAttentionTask core s)).elim h
  unfold execAttentionTask
  extract_lets no k
  split
  · trivial
  split
  · exact .ite w trivial
  refine .ite trivial (.ite w (.ite ?_ (.ite (wf_of_mem_eq (formState_mem ..) w) trivial)))
  split
  · next hr => exact readKeys_wf w hr
  · trivial

theorem execAttentionCommit_wf {core : Nat} {s t : State} (w : s.mem.wf = true) (h : execAttentionCommit core s = .next t)
    : t.mem.wf = true := by
  unfold execAttentionCommit at h
  grind [commitAttn_mem]

/-! ### Graphs -/

theorem execEntryGraph_wf {die : Fin 4} {s t : State} (w : s.mem.wf = true) (h : execEntryGraph die s = .next t)
    : t.mem.wf = true := by
  unfold execEntryGraph at h
  grind [startEntry_wf, startGraph_wf]

theorem execKernelNode_wf {die : Fin 4} {gr node : Nat} {s t : State} (w : s.mem.wf = true)
    (h : execKernelNode die gr node s = .next t) : t.mem.wf = true := by
  refine readyNode_wf (fun g n u hu => ?_) h
  split at hu
  · cases hu
  split at hu
  · split at hu
    · exact NoPage.waiting_wf w hu
    · cases hu; exact endNode_wf (noteRefuse_wf w _ _) _ _ _ _ _
  · next hp =>
    rcases Option.or_eq_some_iff.mp hu with hu | ⟨-, hu⟩
    · refine acceptLaunch_wf ?_ hu
      exact wf_of_mem_eq ((nodeRuns_mem ..).trans (checkLaunch_mem hp)) w
    · exact overflowAt_wf w hu

theorem execCopyNode_wf {die : Fin 4} {gr node : Nat} {s t : State} (w : s.mem.wf = true)
    (h : execCopyNode die gr node s = .next t) : t.mem.wf = true := by
  refine readyNode_wf (fun g n u hu => (?_ : SomeWf _).elim hu) h
  refine .ite trivial ?_
  split
  · trivial
  split
  · exact .of fun _ => nodeNoPage_wf w
  · next hw =>
    have wv := wf_of_mem_eq (walkRead_mem hw) w
    exact .ite (endNode_wf wv _ _ _ _ _) wv

theorem execCondNode_wf {die : Fin 4} {gr node : Nat} {s t : State} (w : s.mem.wf = true)
    (h : execCondNode die gr node s = .next t) : t.mem.wf = true := by
  unfold execCondNode at h
  grind [endNode_wf, walkRead_mem, nodeNoPage_wf, readyNode_wf]

theorem execWhileNode_wf {die : Fin 4} {gr node : Nat} {s t : State} (w : s.mem.wf = true)
    (h : execWhileNode die gr node s = .next t) : t.mem.wf = true := by
  refine readyNode_wf (fun g n u hu => (?_ : SomeWf _).elim hu) h
  refine .ite trivial ?_
  split
  · exact .of fun _ => nodeNoPage_wf w
  · next hw =>
    have wv := wf_of_mem_eq (walkRead_mem hw) w
    exact .ite (endNode_wf wv _ _ _ _ _) (.ite (endNode_wf wv _ _ _ _ _) wv)

theorem execWaitmsgNode_wf {die : Fin 4} {gr node : Nat} {s t : State} (w : s.mem.wf = true)
    (h : execWaitmsgNode die gr node s = .next t) : t.mem.wf = true := by
  refine readyNode_wf (fun g n u hu => (?_ : SomeWf _).elim hu) h
  refine .ite (.ite trivial w) (.ite (.ite trivial ?_) trivial)
  extract_lets msgs
  split
  · exact .of fun _ => nodeNoPage_wf w
  · next hw =>
    have wv := walkWrites_wf w hw
    exact endNode_wf (s := State.updDie ..) wv _ _ _ _ _

theorem execSignalNode_wf {die : Fin 4} {gr node : Nat} {s t : State} (w : s.mem.wf = true)
    (h : execSignalNode die gr node s = .next t) : t.mem.wf = true := by
  unfold execSignalNode at h
  grind [raiseTimeline_wf, endNode_wf, readyNode_wf, addTimeline_wf]

theorem execCallbackNode_wf {die : Fin 4} {gr node : Nat} {s t : State} (w : s.mem.wf = true)
    (h : execCallbackNode die gr node s = .next t) : t.mem.wf = true := by
  refine readyNode_wf (fun g n u hu => (?_ : SomeWf _).elim hu) h
  refine .ite trivial ?_
  split
  · exact .of fun _ => nodeNoPage_wf w
  · next hw =>
    have wv := wf_of_mem_eq (walkRead_mem hw) w
    exact .ite (endNode_wf wv _ _ _ _ _) (.ite (.of fun _ => applyVerdict_wf wv (wf_of_mem_eq (setCall_mem ..) wv))
      (wf_of_mem_eq (setCall_mem ..) wv))

theorem execCallbackVerdict_wf {die : Fin 4} {v : Verdict} {s t : State} (w : s.mem.wf = true)
    (h : execCallbackVerdict die v s = .next t) : t.mem.wf = true := by
  unfold execCallbackVerdict at h
  grind [endCallback_wf]

theorem execPostVerdict_wf {die : Fin 4} {v : Verdict} {s t : State} (w : s.mem.wf = true)
    (h : execPostVerdict die v s = .next t) : t.mem.wf = true := by
  unfold execPostVerdict at h
  grind [endPost_wf]

theorem execPredicateBudgetOverrun_wf {die : Fin 4} {s t : State} (w : s.mem.wf = true)
    (h : execPredicateBudgetOverrun die s = .next t) : t.mem.wf = true := by
  unfold execPredicateBudgetOverrun at h
  grind [endCallback_wf, endPost_wf]

theorem execGraphFailure_wf {die : Fin 4} {gr : Nat} {s t : State} (w : s.mem.wf = true)
    (h : execGraphFailure die gr s = .next t) : t.mem.wf = true := by
  unfold execGraphFailure at h
  grind [State.updDie_mem, haltLate_mem, bbFailed_wf]

/-! ### Preemption, save and flush -/

theorem execPreEmptionRequest_wf {uid bound : Nat} {saveOnly : Bool} {s t : State} (w : s.mem.wf = true)
    (h : execPreEmptionRequest uid bound saveOnly s = .next t) : t.mem.wf = true := by
  refine (?_ : NextWf (execPreEmptionRequest uid bound saveOnly s)).elim h
  unfold execPreEmptionRequest
  extract_lets no
  refine .ite trivial ?_
  split
  · refine .ite trivial ?_
    split
    · next ha => exact answerRequest_wf w ha
    · trivial
  · exact .ite (preempt_wf w _ _ _) trivial

theorem execNonPreemptibleOverrun_wf {uid warp : Nat} {s t : State} (w : s.mem.wf = true)
    (h : execNonPreemptibleOverrun uid warp s = .next t) : t.mem.wf = true := by
  unfold execNonPreemptibleOverrun at h
  grind [State.updWarpOf_mem, State.uid_mem]

theorem execSave_wf {uid : Nat} {s t : State} (w : s.mem.wf = true) (h : execSave uid s = .next t) : t.mem.wf = true := by
  refine (?_ : NextWf (execSave uid s)).elim h
  refine .ite trivial (.ite (.ite (wf_of_mem_eq (sendImage_mem ..) w) trivial) (.ite trivial ?_))
  extract_lets u
  have wu : u.mem.wf = true := w
  clear_value u
  split
  · exact raiseAt_wf (wf_of_mem_eq (dropNt_mem ..) wu) _ _
  · next v _ _ =>
    have wv : v.mem.wf = true := wf_of_mem_eq ((writeImage_mem ..).trans (drainBlock_mem ..)) wu
    clear_value v
    exact wv

theorem execFlush_wf {uid : Nat} {s t : State} (w : s.mem.wf = true) (h : execFlush uid s = .next t) : t.mem.wf = true := by
  unfold execFlush at h
  dsimp only at h
  split at h
  · cases h
  · cases h
    exact foldl_wf (fun _ _ w => flushBlock_wf w _) _ w

theorem execInFieldTest_wf {die : Fin 4} {cluster : Fin 12} {s t : State} (w : s.mem.wf = true)
    (h : execInFieldTest die cluster s = .next t) : t.mem.wf = true := by
  unfold execInFieldTest at h
  dsimp only at h
  have answer (x : TestRun) (h : (match runTest die.val cluster.val x s with
      | some u => Host.Outcome.next u
      | none => .refused (.notEnabled "IN_FIELD_TEST")) = (.next t : Host.Outcome State Fault Refusal)) : t.mem.wf = true :=
        by
    split at h
    · next hr => cases h; exact runTest_wf w hr
    · cases h
  split at h
  · split at h
    · cases h
    · exact answer _ h
  split at h
  · split at h
    · cases h; exact w
    · exact answer _ h
  · cases h

theorem execClusterTestPass_wf {die : Fin 4} {cluster : Fin 12} {s t : State} (w : s.mem.wf = true)
    (h : execClusterTestPass die cluster s = .next t) : t.mem.wf = true := by
  unfold execClusterTestPass at h
  grind [endTest_mem]

theorem execClusterTestFailure_wf {die : Fin 4} {cluster : Fin 12} {s t : State} (w : s.mem.wf = true)
    (h : execClusterTestFailure die cluster s = .next t) : t.mem.wf = true := by
  unfold execClusterTestFailure at h
  split at h
  · cases h
  · dsimp only at h
    cases h
    rw [State.updDie_mem, foldl_keeps State.mem _ (fun _ _ => dropPeer_mem ..)]
    exact bbWrite_wf (wf_of_mem_eq ((State.free_mem _).trans (endTest_mem ..)) w) _ _

/-! ### Messages and collectives at work -/

theorem execMessageDelivery_wf {die : Fin 4} {remote : Option RemoteMsg} {s t : State} (w : s.mem.wf = true)
    (h : execMessageDelivery die remote s = .next t) : t.mem.wf = true := by
  refine (?_ : NextWf (execMessageDelivery die remote s)).elim h
  unfold execMessageDelivery
  extract_lets d
  split
  · exact .ite trivial (.ite (.ite w trivial) (wf_of_mem_eq (arriveMsg_mem ..) w))
  · split
    · trivial
    · exact wf_ite (wf_of_mem_eq (fromIngress_mem ..) w) (wf_of_mem_eq (fromTransit_mem ..) w)

theorem execAcknowledge_wf {msg : Nat} {s t : State} (w : s.mem.wf = true) (h : execAcknowledge msg s = .next t)
    : t.mem.wf = true := by
  refine (?_ : NextWf (execAcknowledge msg s)).elim h
  unfold execAcknowledge
  split
  · trivial
  · extract_lets asid s1 s2
    have w2 : s2.mem.wf = true := wf_ite (a := s1) w (bbWrite_wf (s := s1) w _ _)
    exact lasting_wf _ (fun _ w => wf_of_mem_eq (State.updEng_mem ..) w) w2

/-! ### Conversion -/

theorem execCvt_wf {g : Guard} {d : Dst} {a : Src} {dt st : Ty} {rm : Rm} {ov : CvtSat} {el : Fin 8} {s t : State}
    (w : s.mem.wf = true) (h : execCvt g d a dt st rm ov el s = .next t) : t.mem.wf = true := by
  unfold execCvt at h
  dsimp only at h
  split at h
  · exact runPair_next w h
  · exact runAlu_next w h

theorem execQblk_wf {g : Guard} {d : Dst} {a b c : Src} {fmt : BFmt} {rm : Rm} {s t : State} (w : s.mem.wf = true)
    (h : execQblk g d a b c fmt rm s = .next t) : t.mem.wf = true := by
  refine finish_leaves w ?_ h
  refine .after (fun _ => checkIssue_stop) fun _ => (readAll_leaves w).bind fun r wr =>
    (commit_leaves wr).bind fun t wt => ?_
  exact wf_ite wt (wf_of_mem_eq (setFlags_mem ..) wt)

theorem execDqblk_wf {g : Guard} {d : Dst} {a : Src} {hi : Bool} {rm : Rm} {strict : Bool} {s t : State}
    (w : s.mem.wf = true) (h : execDqblk g d a hi rm strict s = .next t) : t.mem.wf = true := by
  refine finish_leaves w ?_ h
  refine .after (fun _ => checkIssue_stop) fun _ => (readAll_leaves w).bind fun r wr => .after
    (fun _ => trapIf_stop) fun _ => ?_
  dsimp only
  exact LeavesWf.of wr (fun _ => deliverBlock_mem) fun _ => deliverBlock_stop

/-! ### System registers -/

theorem execRdsr_wf {g : Guard} {d : Operand} {num : BitVec 12} {wide : Bool} {s t : State} (w : s.mem.wf = true)
    (h : execRdsr g d num wide s = .next t) : t.mem.wf = true := by
  refine finish_leaves w ?_ h
  exact .after (fun _ => checkIssue_stop) fun _ => .after (fun _ => trapIf_stop) fun _ =>
    (readAll_leaves w).bind fun r wr => commit_leaves wr

theorem execFshareHi_wf {die : Fin 4} {secure : Bool} {v : Word} {s t : State} (w : s.mem.wf = true)
    (h : execFshareHi die secure v s = .next t) : t.mem.wf = true := by
  unfold execFshareHi at h
  dsimp only at h
  split at h
  · cases h; exact w
  split at h
  · cases h
  split at h
  · next hu =>
    cases h
    rcases Option.or_eq_some_iff.mp hu with hu | ⟨-, hu⟩
    · exact fshareStart_wf w hu
    · exact overflowAt_wf w hu
  · cases h

theorem execFshareOperationEnd_wf {die : Fin 4} {s t : State} (w : s.mem.wf = true)
    (h : execFshareOperationEnd die s = .next t) : t.mem.wf = true := by
  refine (?_ : NextWf (execFshareOperationEnd die s)).elim h
  unfold execFshareOperationEnd
  split
  · trivial
  extract_lets lg src e' made
  refine .ite trivial ?_
  split
  · split
    · next ho => exact overflowAt_wf w ho
    · trivial
  · next hb =>
    obtain ⟨u, hu, hb⟩ := Option.bind_eq_some_iff.mp hb
    have wb := performBytes_wf (copyPage_wf w _ _ _ hu) _ hb
    exact wb

theorem execOvfadd_wf {die : Fin 4} {secure : Bool} {v : Word} {s t : State} (w : s.mem.wf = true)
    (h : execOvfadd die secure v s = .next t) : t.mem.wf = true := by
  unfold execOvfadd at h
  grind [addOverflow_mem]

theorem execRecover_wf {secure : Bool} {s t : State} (w : s.mem.wf = true) (h : execRecover secure s = .next t)
    : t.mem.wf = true := by
  unfold execRecover at h
  grind [gnlRecover_wf]

theorem execWrsr_wf {g : Guard} {a : Operand} {num : BitVec 12} {s t : State} (w : s.mem.wf = true)
    (h : execWrsr g a num s = .next t) : t.mem.wf = true := by
  refine finish_leaves w ?_ h
  refine .after (fun _ => checkIssue_stop) fun _ => .after (fun _ => trapIf_stop) fun _ =>
    (readAll_leaves w).bind fun r wr => .ite (commit_leaves wr) <| .after (fun _ => stallIf_stop) fun _ =>
    (commit_leaves wr).bind fun t wt => ?_
  · change (State.mem _).wf = true
    grind [writeReg_wf]

theorem execRegisterWrite_wf {die : Fin 4} {num : BitVec 12} {secure : Bool} {v : DWord} {s t : State}
    (w : s.mem.wf = true) (h : execRegisterWrite die num secure v s = .next t) : t.mem.wf = true := by
  unfold execRegisterWrite at h
  grind [writeDieReg_wf]

/-! ### Items at their home -/

theorem execStorePerformedAtHome_wf  {s t : State} (w : s.mem.wf = true) (h : execStorePerformedAtHome s = .next t)
    : t.mem.wf = true := by
  unfold execStorePerformedAtHome at h
  dsimp only at h
  split at h
  · next hr =>
    obtain ⟨o, -, ho⟩ := List.mem_filterMap.mp (List.mem_of_getElem? hr)
    have wr := performItem_wf w ho
    cases h
    exact wr
  · cases h

/-! ### Traps and TLB -/

theorem execTrapret_wf {g : Guard} {skip : Bool} {s t : State} (w : s.mem.wf = true) (h : execTrapret g skip s = .next t)
    : t.mem.wf = true := by
  refine finish_leaves w ?_ h
  refine .after (fun _ => checkIssue_stop) fun _ => .after (fun _ => trapIf_stop) fun _ => ?_
  · change (State.mem _).wf = true
    grind [State.updWarp_mem, trapEnds_wf]

theorem execTlbir_wf {g : Guard} {base len : Operand} {asid : Option Operand} {s t : State} (w : s.mem.wf = true)
    (h : execTlbir g base len asid s = .next t) : t.mem.wf = true := by
  refine finish_leaves w ?_ h
  refine .after (fun _ => checkIssue_stop) fun _ => .after (fun _ => needSecure_stop) fun _ =>
    (readAll_leaves w).bind fun r wr =>
    .ite (commit_leaves wr) <| .after (fun _ => trapIf_stop) fun _ => .ite ?_ ?_
  · trivial
  · refine .after (fun _ => stallIf_stop) fun _ => (commit_leaves wr).bind fun t wt => ?_
    exact wt

theorem execTlback_wf {g : Guard} {s t : State} (w : s.mem.wf = true) (h : execTlback g s = .next t) : t.mem.wf = true := by
  refine finish_leaves w ?_ h
  refine .after (fun _ => checkIssue_stop) fun _ => .after (fun _ => needSecure_stop) fun _ => .ite w ?_
  split
  · exact wf_of_mem_eq (acquireAt_mem ..) w
  · exact w

theorem execTlbAcknowledge_wf {op holder : Nat} {s t : State} (w : s.mem.wf = true)
    (h : execTlbAcknowledge op holder s = .next t) : t.mem.wf = true := by
  refine (?_ : NextWf (execTlbAcknowledge op holder s)).elim h
  unfold execTlbAcknowledge
  split
  · trivial
  split
  · trivial
  · exact wf_of_mem_eq (dropRange_mem ..) w
  · exact .ite trivial (wf_ite (wf_of_mem_eq (tlbDone_mem ..) w) w)

theorem execErrq_wf {g : Guard} {d : Operand} {peek : Bool} {s t : State} (w : s.mem.wf = true)
    (h : execErrq g d peek s = .next t) : t.mem.wf = true := by
  refine finish_leaves w ?_ h
  refine .after (fun _ => checkIssue_stop) fun _ => .after (fun _ => needSecure_stop) fun _ =>
    (readAll_leaves w).bind fun r wr => ?_
  split
  · exact (commit_leaves wr).bind fun t wt => wt
  · exact (commit_leaves wr).bind fun t wt => wf_ite wt wt

theorem execErrqLog_wf {g : Guard} {d : Operand} {peek : Bool} {s t : State} (w : s.mem.wf = true)
    (h : execErrqLog g d peek s = .next t) : t.mem.wf = true := by
  refine finish_leaves w ?_ h
  refine .after (fun _ => checkIssue_stop) fun _ => .after (fun _ => needSecure_stop) fun _ =>
    (readAll_leaves w).bind fun r wr => ?_
  split
  · exact (commit_leaves wr).bind fun t wt => wt
  · exact (commit_leaves wr).bind fun t wt => wf_ite wt wt

theorem execBblog_wf {g : Guard} {code : BitVec 6} {a : Operand} {s t : State} (w : s.mem.wf = true)
    (h : execBblog g code a s = .next t) : t.mem.wf = true := by
  refine finish_leaves w ?_ h
  refine .after (fun _ => checkIssue_stop) fun _ => (readAll_leaves w).bind fun r wr => .after
    (fun _ => stallIf_stop) fun _ => (commit_leaves wr).bind fun t wt => ?_
  · change (State.mem _).wf = true
    grind [emit_mem]

/-! ### Epochs and rollback -/

theorem execEpochBoundary_wf  {s t : State} (w : s.mem.wf = true) (h : execEpochBoundary s = .next t) : t.mem.wf = true := by
  unfold execEpochBoundary at h
  grind [leaveAll_wf, changesLeave_mem, retireBlocks_mem, beginEpoch_wf]

theorem execRaceCheckAtHome_wf  {s t : State} (w : s.mem.wf = true) (h : execRaceCheckAtHome s = .next t)
    : t.mem.wf = true := by
  unfold execRaceCheckAtHome at h
  grind [State.updWarpOf_mem, leaveAll_wf, rollback_wf]

theorem execStrike_wf {die : Fin 4} {core : Option (Fin 48)} {cluster : Fin 12} {s t : State} (w : s.mem.wf = true)
    (h : execStrike die core cluster s = .next t) : t.mem.wf = true := by
  unfold execStrike at h
  grind [bbWrite_wf, logError_mem, rollback_wf]

theorem execShadowMismatch_wf {uid warp : Nat} {s t : State} (w : s.mem.wf = true)
    (h : execShadowMismatch uid warp s = .next t) : t.mem.wf = true := by
  unfold execShadowMismatch at h
  grind [State.uid_mem, bbWrite_wf, logError_mem, rollback_wf]

/-! ### FP32 -/

theorem execFclass_wf {g : Guard} {d : Dst} {a : Src} {mask : Option Src} {s t : State} (w : s.mem.wf = true)
    (h : execFclass g d a mask s = .next t) : t.mem.wf = true := by
  cases mask with
  | none => exact runInt_next w h
  | some k => exact runInt_next w h

/-! ### Lane operations -/

theorem execLred_wf {g : Guard} {d : Dst} {a : Src} {op : RedOp} {rm : Rm} {s t : State} (w : s.mem.wf = true)
    (h : execLred g d a op rm s = .next t) : t.mem.wf = true := by
  refine finish_leaves w ?_ h
  refine .after (fun _ => checkIssue_stop) fun _ => (readAll_leaves w).bind fun r wr =>
    (commit_leaves wr).bind fun t wt => ?_
  · change (State.mem _).wf = true
    grind [setFlags_mem]

theorem execLscan_wf {g : Guard} {d : Dst} {a : Src} {op : RedOp} {excl : Bool} {rm : Rm} {s t : State}
    (w : s.mem.wf = true) (h : execLscan g d a op excl rm s = .next t) : t.mem.wf = true := by
  refine finish_leaves w ?_ h
  refine .after (fun _ => checkIssue_stop) fun _ => (readAll_leaves w).bind fun r wr =>
    (commit_leaves wr).bind fun t wt => ?_
  · change (State.mem _).wf = true
    grind [setFlags_mem]

theorem execRdlane_wf {g : Guard} {d : Dst} {a b : Src} {s t : State} (w : s.mem.wf = true)
    (h : execRdlane g d a b s = .next t) : t.mem.wf = true := by
  refine finish_leaves w ?_ h
  refine .after (fun _ => checkIssue_stop) fun _ => (readAll_leaves w).bind fun rb wrb => .after
    (fun _ => trapIf_stop) fun _ =>
    .after (fun _ => trapIf_stop) fun _ => .after (fun _ => trapIf_stop) fun _ =>
    LeavesWf.bind (P := fun r : Reading => r.st.mem.wf = true) ?_ fun r wr => commit_leaves wr
  split
  · refine LeavesWf.bind (P := fun x => x.2.1.mem.wf = true) (asActive_leaves (readStream_leaves wrb)) fun ⟨v, st, preds⟩ wx
      => ?_
    exact wx
  · exact wrb

theorem execElect_wf {g : Guard} {d : Dst} {md : ElectMode} {s t : State} (w : s.mem.wf = true)
    (h : execElect g d md s = .next t) : t.mem.wf = true := by
  refine finish_leaves w ?_ h
  refine .after (fun _ => checkIssue_stop) fun _ => (readAll_leaves w).bind fun r wr =>
    (commit_leaves wr).bind fun t wt => ?_
  · change (State.mem _).wf = true
    grind [State.updReg_mem]

/-! ### Moves -/

theorem execPmovSet_wf {g : Guard} {a mask : Src} {s t : State} (w : s.mem.wf = true)
    (h : execPmovSet g a mask s = .next t) : t.mem.wf = true := by
  refine finish_leaves w ?_ h
  refine .after (fun _ => checkIssue_stop) fun _ => (readAll_leaves w).bind fun r wr =>
    (commit_leaves wr).bind fun t wt => ?_
  · change (State.mem _).wf = true
    grind [State.updReg_mem]

theorem execMovx_wf {g : Guard} {d : Dst} {x : Fin 8} {o : Fin 128} {inc : Bool} {s t : State} (w : s.mem.wf = true)
    (h : execMovx g d x o inc s = .next t) : t.mem.wf = true := by
  refine finish_leaves w ?_ h
  refine .after (fun _ => checkIssue_stop) fun _ => .after (fun _ => noLate_stop) fun _ => .after
    (fun _ => trapIf_stop) fun _ =>
    .after (fun _ => trapIf_stop) fun _ => (commit_leaves w).bind fun t wt => ?_
  exact wf_ite (wf_of_mem_eq (cursorInc_mem ..) wt) wt

theorem execMovxw_wf {g : Guard} {x : Fin 8} {o : Fin 128} {a : Src} {cc : Fin 8} {inc : Bool} {s t : State}
    (w : s.mem.wf = true) (h : execMovxw g x o a cc inc s = .next t) : t.mem.wf = true := by
  refine finish_leaves w ?_ h
  refine .after (fun _ => checkIssue_stop) fun _ => .after (fun _ => noLate_stop) fun _ => .after
    (fun _ => trapIf_stop) fun _ => (readAll_leaves w).bind fun r wr => (commit_leaves wr).bind fun t wt => ?_
  · change (State.mem _).wf = true
    grind [cursorInc_mem]

theorem execSetx_wf {g : Guard} {x : Fin 8} {a b c : Src} {s t : State} (w : s.mem.wf = true)
    (h : execSetx g x a b c s = .next t) : t.mem.wf = true := by
  refine finish_leaves w ?_ h
  refine .after (fun _ => checkIssue_stop) fun _ => (readAll_leaves w).bind fun r wr =>
    (commit_leaves wr).bind fun t wt => ?_
  · change (State.mem _).wf = true
    grind [setX_mem]

theorem execSetxCur_wf {g : Guard} {x : Fin 8} {a : Src} {s t : State} (w : s.mem.wf = true)
    (h : execSetxCur g x a s = .next t) : t.mem.wf = true := by
  refine finish_leaves w ?_ h
  refine .after (fun _ => checkIssue_stop) fun _ => (readAll_leaves w).bind fun r wr =>
    (commit_leaves wr).bind fun t wt => ?_
  · change (State.mem _).wf = true
    grind [setX_mem]

theorem execSetxAdd_wf {g : Guard} {x : Fin 8} {a : Src} {s t : State} (w : s.mem.wf = true)
    (h : execSetxAdd g x a s = .next t) : t.mem.wf = true := by
  refine finish_leaves w ?_ h
  refine .after (fun _ => checkIssue_stop) fun _ => (readAll_leaves w).bind fun r wr =>
    (commit_leaves wr).bind fun t wt => ?_
  · change (State.mem _).wf = true
    grind [setX_mem]

theorem execKillv_wf {g : Guard} {a b c : Operand} {s t : State} (w : s.mem.wf = true) (h : execKillv g a b c s = .next t)
    : t.mem.wf = true := by
  refine finish_leaves w ?_ h
  refine .after (fun _ => checkIssue_stop) fun _ => .after (fun _ => stallIf_stop) fun _ => ?_
  · change (State.mem _).wf = true
    grind [State.updReg_mem, shareTake_mem]

theorem execNop_wf {g : Guard} {s t : State} (w : s.mem.wf = true) (h : execNop g s = .next t) : t.mem.wf = true := by
  refine finish_leaves w ?_ h
  exact .after (fun _ => checkIssue_stop) fun _ => w

/-! ### Placement -/

theorem execPlacement_wf {die : Fin 4} {s t : State} (w : s.mem.wf = true) (h : execPlacement die s = .next t) :
    t.mem.wf = true := by
  refine (?_ : NextWf (execPlacement die s)).elim h
  unfold execPlacement
  extract_lets no
  split
  · exact wf_of_mem_eq (placeSpots_mem ..) w
  split
  · trivial
  refine .ite trivial ?_
  split
  · exact wf_of_mem_eq (placeSpots_mem ..) w
  refine .ite trivial ?_
  split
  · next hp => exact priorityRequest_wf w hp
  · trivial

theorem execResume_wf {uid : Nat} {s t : State} (w : s.mem.wf = true) (h : execResume uid s = .next t)
    : t.mem.wf = true := by
  unfold execResume at h
  dsimp only at h
  split at h
  · cases h
  split at h
  · cases h
  · cases h
    exact foldl_wf (fun _ _ w => resumeBlock_wf w _ _) _ w

theorem execArm_wf {ctx : Fin 64} {gang : Fin 4} {s t : State} (w : s.mem.wf = true) (h : execArm ctx gang s = .next t)
    : t.mem.wf = true := by
  unfold execArm at h
  grind [armGang_wf]

theorem execRelease_wf {ctx : Fin 64} {gang : Fin 4} {s t : State} (w : s.mem.wf = true)
    (h : execRelease ctx gang s = .next t) : t.mem.wf = true := by
  unfold execRelease at h
  grind [releaseGang_mem]

theorem execGangArmed_wf {ctx : Fin 64} {gang : Fin 4} {s t : State} (w : s.mem.wf = true)
    (h : execGangArmed ctx gang s = .next t) : t.mem.wf = true := by
  unfold execGangArmed at h
  grind [State.updGang_mem]

theorem execGangAdmission_wf {ctx : Fin 64} {gang : Fin 4} {s t : State} (w : s.mem.wf = true)
    (h : execGangAdmission ctx gang s = .next t) : t.mem.wf = true := by
  refine (?_ : NextWf (execGangAdmission ctx gang s)).elim h
  unfold execGangAdmission
  refine .ite trivial ?_
  dsimp only
  split
  · trivial
  split
  · trivial
  · exact wf_of_mem_eq ((State.updGang_mem ..).trans (foldl_keeps State.mem _ (fun _ _ => placeSpots_mem ..) _ _)) w

/-! ### Package -/

theorem execPowerAlarmRise_wf {die : Fin 4} {temp : List (BitVec 16)} {vmon : List (BitVec 16)} {board : Bool}
    {s t : State} (w : s.mem.wf = true) (h : execPowerAlarmRise die temp vmon board s = .next t) : t.mem.wf = true := by
  unfold execPowerAlarmRise at h
  grind [State.updDie_mem, raiseAlarm_wf]

theorem execPowerAlarmFall_wf {die : Fin 4} {temp : List (BitVec 16)} {vmon : List (BitVec 16)} {board : Bool}
    {s t : State} (w : s.mem.wf = true) (h : execPowerAlarmFall die temp vmon board s = .next t) : t.mem.wf = true := by
  unfold execPowerAlarmFall at h
  grind [State.updDie_mem]

theorem execThermalShutdown_wf {die : Fin 4} {cluster : Fin 12} {temp : BitVec 16} {s t : State} (w : s.mem.wf = true)
    (h : execThermalShutdown die cluster temp s = .next t) : t.mem.wf = true := by
  unfold execThermalShutdown at h
  grind [State.updDie_mem, freeze_mem, settleAlarm_wf]

theorem execMainPowerLoss_wf  {s t : State} (w : s.mem.wf = true) (h : execMainPowerLoss s = .next t) : t.mem.wf = true := by
  unfold execMainPowerLoss at h
  grind [powerCycled_wf]

theorem execBoot_wf {image : List Byte} {s t : State} (w : s.mem.wf = true) (h : execBoot image s = .next t)
    : t.mem.wf = true := by
  unfold execBoot at h
  split at h
  · cases h
  split at h
  · cases h; exact w
  · cases h
    rw [sendIrq_mem, foldl_keeps State.mem _ (fun _ _ => coverArea_mem ..), foldl_keeps State.mem _ (fun _ _ =>
      State.updDie_mem ..)]
    exact w

theorem execGnlTrain_wf  {s t : State} (w : s.mem.wf = true) (h : execGnlTrain s = .next t) : t.mem.wf = true := by
  unfold execGnlTrain at h
  grind [linkTo_mem]

theorem execGnlActive_wf {lanes : BitVec 6} {s t : State} (w : s.mem.wf = true) (h : execGnlActive lanes s = .next t)
    : t.mem.wf = true := by
  unfold execGnlActive at h
  grind [sendIrq_mem, linkServes_wf, linkTo_mem]

theorem execGnlRetrain_wf  {s t : State} (w : s.mem.wf = true) (h : execGnlRetrain s = .next t) : t.mem.wf = true := by
  unfold execGnlRetrain at h
  grind [linkEvent_wf, linkTo_mem]

theorem execGnlDown_wf  {s t : State} (w : s.mem.wf = true) (h : execGnlDown s = .next t) : t.mem.wf = true := by
  unfold execGnlDown at h
  grind [linkEvent_wf, linkTo_mem]

theorem execGnlWakeN_wf {cycles : Nat} {s t : State} (w : s.mem.wf = true) (h : execGnlWakeN cycles s = .next t)
    : t.mem.wf = true := by
  unfold execGnlWakeN at h
  grind [gnlRecover_wf]

theorem execPortDown_wf {p : Fin 12} {s t : State} (w : s.mem.wf = true) (h : execPortDown p s = .next t)
    : t.mem.wf = true := by
  unfold execPortDown at h
  grind [linkEvent_wf]

theorem execHostAccess_wf {a : HostAcc} {s t : State} (w : s.mem.wf = true) (h : execHostAccess a s = .next t)
    : t.mem.wf = true := by
  refine (?_ : NextWf (execHostAccess a s)).elim h
  unfold execHostAccess
  extract_lets no
  refine .ite trivial ?_
  split
  · exact ownWrite_wf w _ _
  · exact .ite (writePage_wf w _ _ _ _) trivial
  · exact .ite (wf_of_mem_eq (answerHost_mem ..) w) trivial
  · exact wf_of_mem_eq (answerHost_mem ..) w
  · exact wf_of_mem_eq (answerHost_mem ..) w
  · exact wf_of_mem_eq (answerHost_mem ..) w
  · exact w
  · exact wf_of_mem_eq (attest_mem ..) w
  · refine .ite trivial ?_
    split
    · next hu =>
      obtain hu | ⟨-, hu⟩ := Option.or_eq_some_iff.mp hu
      · exact hostWrite_wf w hu
      · exact overflowAt_wf w hu
    · trivial
  · refine .ite trivial ?_
    split
    · exact hostWorldFault_wf w _
    · exact wf_of_mem_eq (answerHost_mem ..) w

theorem exec_selection (core : Nat) (sub : Fin 4) (s : State) : exec
    (.selection core sub) s = execSelection core sub s := rfl

/-! ### Any instruction or event -/

theorem exec_wf {s t : State} (w : s.mem.wf = true) (i : Instr) (h : exec i s = .next t) : t.mem.wf = true := by
  cases i
  case iadd | isub | imul | imad | iabs | fadd | faddI | fmul | fmulI | ffma | frcp | frsq | fsqrt | fexp2 | flog2 |
    fsin | fcos | ftanh | hadd2 | hmul2 | hfma2 | idot4 | idot8 | pack => exact runAlu_next w h
  case iaddI | isubI | imulI | imulh | idiv | irem | imin | imax | iset | lea | and | andI | or | orI | xor | xorI |
    andn | andnI | lop3 | shl | shlI | shr | shrI | sar | sarI | rot | rotI | bfx | bfi | popc | clz | brev | fmin |
    fmax | fset | dset | unpk | mov | movi | sel | plop3 | pmovGet | shfl | vote | matchL => exact runInt_next w h
  case dadd | dmul | dfma | dmin | dmax => exact runPair_next w h
  case brk | trap => exact trapAfter_wf w h
  case copy | copy2d | gather | scatter | fill | decode | compact | relocate | pagein => exact copyEvent_wf w h
  case collSum | collMax | collMin | collWlmerge | collArgmax | collAccept => exact collStep_wf w h
  case fqrespRetry | fqrespDeliver | fqrespFail => exact answerStep_wf w h
  case fclass => exact execFclass_wf w h
  case cvt => exact execCvt_wf w h
  case qblk => exact execQblk_wf w h
  case dqblk => exact execDqblk_wf w h
  case movx => exact execMovx_wf w h
  case movxw => exact execMovxw_wf w h
  case setx => exact execSetx_wf w h
  case setxCur => exact execSetxCur_wf w h
  case setxAdd => exact execSetxAdd_wf w h
  case pmovSet => exact execPmovSet_wf w h
  case killv => exact execKillv_wf w h
  case rdsr => exact execRdsr_wf w h
  case wrsr => exact execWrsr_wf w h
  case nop => exact execNop_wf w h
  case lred => exact execLred_wf w h
  case lscan => exact execLscan_wf w h
  case rdlane => exact execRdlane_wf w h
  case elect => exact execElect_wf w h
  case ld => exact execLd_wf w h
  case lds => exact execLds_wf w h
  case ldc => exact execLdc_wf w h
  case st => exact execSt_wf w h
  case stnt => exact execStnt_wf w h
  case drainnt => exact execDrainnt_wf w h
  case ldb => exact execLdb_wf w h
  case stb => exact execStb_wf w h
  case ldbq => exact execLdbq_wf w h
  case atom => exact execAtom_wf w h
  case atomc => exact execAtomc_wf w h
  case red => exact execRed_wf w h
  case batom => exact execBatom_wf w h
  case pref => exact execPref_wf w h
  case cctl => exact execCctl_wf w h
  case cctlIl1all => exact execCctlIl1all_wf w h
  case stream => exact execStream_wf w h
  case strmq => exact execStrmq_wf w h
  case strmend => exact execStrmend_wf w h
  case cekick => exact execCekick_wf w h
  case arrset => exact execArrset_wf w h
  case arrwait => exact execArrwait_wf w h
  case arrtest => exact execArrtest_wf w h
  case tlrd => exact execTlrd_wf w h
  case tlwait => exact execTlwait_wf w h
  case lstat => exact execLstat_wf w h
  case swap => exact execSwap_wf w h
  case tenq => exact execTenq_wf w h
  case tqrd => exact execTqrd_wf w h
  case wlinit => exact execWlinit_wf w h
  case wlinitReg => exact execWlinitReg_wf w h
  case wlthr => exact execWlthr_wf w h
  case wlthrClr => exact execWlthrClr_wf w h
  case wlrd => exact execWlrd_wf w h
  case wlrdt => exact execWlrdt_wf w h
  case wlmrg => exact execWlmrg_wf w h
  case wlclr => exact execWlclr_wf w h
  case normb => exact execNormb_wf w h
  case attn => exact execAttn_wf w h
  case rotq => exact execRotq_wf w h
  case kvslab => exact execKvslab_wf w h
  case kvslabLen => exact execKvslabLen_wf w h
  case kvslabRd => exact execKvslabRd_wf w h
  case kvgrow => exact execKvgrow_wf w h
  case smerge => exact execSmerge_wf w h
  case smergeFin => exact execSmergeFin_wf w h
  case splice => exact execSplice_wf w h
  case spliceFix => exact execSpliceFix_wf w h
  case spliceClr => exact execSpliceClr_wf w h
  case bar => exact execBar_wf w h
  case bara => exact execBara_wf w h
  case barw => exact execBarw_wf w h
  case barq => exact execBarq_wf w h
  case fence => exact execFence_wf w h
  case cljoin => exact execCljoin_wf w h
  case clleave => exact execClleave_wf w h
  case sleep => exact execSleep_wf w h
  case sleepReg => exact execSleepReg_wf w h
  case fmsg => exact execFmsg_wf w h
  case fpoll => exact execFpoll_wf w h
  case fpollBind => exact execFpollBind_wf w h
  case fpollUnbind => exact execFpollUnbind_wf w h
  case coll => exact execColl_wf w h
  case noise => exact execNoise_wf w h
  case cbpost => exact execCbpost_wf w h
  case bra => exact execBra_wf w h
  case brx => exact execBrx_wf w h
  case ret => exact execRet_wf w h
  case call => exact execCall_wf w h
  case callIndirect => exact execCallIndirect_wf w h
  case exit => exact execExit_wf w h
  case meld => exact execMeld_wf w h
  case melde => exact execMelde_wf w h
  case rnset => exact execRnset_wf w h
  case rnsetClr => exact execRnsetClr_wf w h
  case serb => exact execSerb_wf w h
  case sere => exact execSere_wf w h
  case refill => exact execRefill_wf w h
  case yield => exact execYield_wf w h
  case nopre => exact execNopre_wf w h
  case preok => exact execPreok_wf w h
  case trapret => exact execTrapret_wf w h
  case tlbir => exact execTlbir_wf w h
  case tlback => exact execTlback_wf w h
  case errq => exact execErrq_wf w h
  case errqLog => exact execErrqLog_wf w h
  case bblog => exact execBblog_wf w h
  case entryNop => exact execEntryNop_wf w h
  case entryLaunch => exact execEntryLaunch_wf w h
  case entryGraph => exact execEntryGraph_wf w h
  case entryWait => exact execEntryWait_wf w h
  case entrySignal => exact execEntrySignal_wf w h
  case launchCompletion => exact execLaunchCompletion_wf w h
  case launchFailure => exact execLaunchFailure_wf w h
  case launchReplay => exact execLaunchReplay_wf w h
  case kernelNode => exact execKernelNode_wf w h
  case copyNode => exact execCopyNode_wf w h
  case condNode => exact execCondNode_wf w h
  case whileNode => exact execWhileNode_wf w h
  case waitmsgNode => exact execWaitmsgNode_wf w h
  case signalNode => exact execSignalNode_wf w h
  case callbackNode => exact execCallbackNode_wf w h
  case graphFailure => exact execGraphFailure_wf w h
  case placement => exact execPlacement_wf w h
  case gangAdmission => exact execGangAdmission_wf w h
  case gangArmed => exact execGangArmed_wf w h
  case save => exact execSave_wf w h
  case flush => exact execFlush_wf w h
  case resume => exact execResume_wf w h
  case nonPreemptibleOverrun => exact execNonPreemptibleOverrun_wf w h
  case inFieldTest => exact execInFieldTest_wf w h
  case selection core sub => exact execSelection_wf w ((exec_selection core sub s).symm.trans h)
  case sleepEnd => exact execSleepEnd_wf w h
  case requestRetirement => exact execRequestRetirement_wf w h
  case dispatchPoint => exact execDispatchPoint_wf w h
  case mma => exact execMma_wf w h
  case mtopk => exact execMtopk_wf w h
  case raggedMma => exact execRaggedMma_wf w h
  case taskCommit => exact execTaskCommit_wf w h
  case swapTakesEffect => exact execSwapTakesEffect_wf w h
  case planeLoadEnd => exact execPlaneLoadEnd_wf w h
  case narrowMode => exact execNarrowMode_wf w h
  case attentionTask => exact execAttentionTask_wf w h
  case attentionCommit => exact execAttentionCommit_wf w h
  case messageDelivery => exact execMessageDelivery_wf w h
  case acknowledge => exact execAcknowledge_wf w h
  case tlbAcknowledge => exact execTlbAcknowledge_wf w h
  case leaveAcknowledge => exact execLeaveAcknowledge_wf w h
  case memoryOperationCompletion => exact execMemoryOperationCompletion_wf w h
  case fshareOperationEnd => exact execFshareOperationEnd_wf w h
  case predicateBudgetOverrun => exact execPredicateBudgetOverrun_wf w h
  case clusterTestPass => exact execClusterTestPass_wf w h
  case preEmptionRequest => exact execPreEmptionRequest_wf w h
  case controlWordWrite => exact execControlWordWrite_wf w h
  case doorbell => exact execDoorbell_wf w h
  case skip => exact execSkip_wf w h
  case timelineValueWrite => exact execTimelineValueWrite_wf w h
  case arm => exact execArm_wf w h
  case release => exact execRelease_wf w h
  case fshareHi => exact execFshareHi_wf w h
  case ovfadd => exact execOvfadd_wf w h
  case recover => exact execRecover_wf w h
  case registerWrite => exact execRegisterWrite_wf w h
  case callbackVerdict => exact execCallbackVerdict_wf w h
  case clusterTestFailure => exact execClusterTestFailure_wf w h
  case strike => exact execStrike_wf w h
  case shadowMismatch => exact execShadowMismatch_wf w h
  case postVerdict => exact execPostVerdict_wf w h
  case powerAlarmRise => exact execPowerAlarmRise_wf w h
  case powerAlarmFall => exact execPowerAlarmFall_wf w h
  case thermalShutdown => exact execThermalShutdown_wf w h
  case boot => exact execBoot_wf w h
  case gnlActive => exact execGnlActive_wf w h
  case gnlWakeN => exact execGnlWakeN_wf w h
  case hostAccess => exact execHostAccess_wf w h
  case portDown => exact execPortDown_wf w h
  case epochBoundary => exact execEpochBoundary_wf w h
  case raceCheckAtHome => exact execRaceCheckAtHome_wf w h
  case gnlTrain => exact execGnlTrain_wf w h
  case gnlRetrain => exact execGnlRetrain_wf w h
  case gnlDown => exact execGnlDown_wf w h
  case storePerformedAtHome => exact execStorePerformedAtHome_wf w h
  case mainPowerLoss => exact execMainPowerLoss_wf w h

end Sys2Proof.Machine
end


section
/-!
PROOFS. Every step keeps memory in its canonical form (log 3).
-/

namespace Sys2Proof.Machine

-- The whole text is compiled in one process under a memory limit: elaborate one proof after the other.
set_option Elab.async false

theorem handed_wf {s t : State} {o : Host.Outcome State Fault Refusal} (ho : ∀ u, o = .next u → u.mem.wf = true)
    (h : handed s o = .next t) : t.mem.wf = true := by
  unfold handed at h
  split at h
  · cases h; exact wf_of_mem_eq (handOver_mem ..) (ho _ rfl)
  · exact ho t h

theorem issue_wf {c : Cursor} {s t : State} (w : s.mem.wf = true) (h : issue c s = .next t) : t.mem.wf = true := by
  refine (?_ : NextWf (issue c s)).elim h
  unfold issue
  extract_lets u
  refine .ite w (.ite (wf_of_mem_eq (State.waits_mem u) w) ?_)
  split
  · exact wf_of_mem_eq (handOver_mem ..) (raiseTrap_wf (s := u) w _)
  · exact .of fun t h => handed_wf (fun v hv => exec_wf (wf_of_mem_eq (fetchStreams_mem u) w) _ hv) h

theorem cameAbout_wf {o : Host.Outcome State Fault Refusal} {s t : State} (w : s.mem.wf = true)
    (ho : ∀ u, o = .next u → u.mem.wf = true) (h : cameAbout o s = .next t) : t.mem.wf = true := by
  unfold cameAbout at h
  split at h
  · cases h; exact w
  · exact ho t h

theorem runTurn_wf {x : Turn} {s t : State} (w : s.mem.wf = true) (h : runTurn x s = .next t) : t.mem.wf = true := by
  cases x with
  | issue c => exact issue_wf w h
  | event i => exact cameAbout_wf w (fun u => exec_wf w i) h

theorem stepOnce_wf {s t : State} (w : s.mem.wf = true) (h : stepOnce s = .next t) : t.mem.wf = true := by
  unfold stepOnce at h
  split at h
  · cases h; exact plan_wf w
  · refine runTurn_wf ?_ h
    exact w

/-- Settles O6: every operation of the model that stores writes through `Mem.writeAll`, `Mem.copyRange` or a filter, each of
which keeps the canonical form, and every other one leaves memory as it was. -/
theorem stepKeepsMemoryCanonical : Obligations.StepKeepsMemoryCanonical := fun _ _ w h => stepOnce_wf w h

end Sys2Proof.Machine
end

section
/-!
PROOFS. The system instructions of a launch of the non-secure world (R451).
-/

namespace Sys2Proof.Machine

-- The whole text is compiled in one process under a memory limit: elaborate one proof after the other.
set_option Elab.async false

section
variable {g : Guard} {ops : List Operand} {last : Bool} {s : State}

theorem needSecure_of_nonsecure {m : Mask} (hm : m ≠ 0) (hworld : s.curLaunch.desc.world = false) :
    needSecure s m = .error (.trap (s.trapReq 0x1B m)) := by
  rw [needSecure, hworld]
  exact trapIf_some hm

/-- The check of the world comes right after the checks at issue, before any source is read. -/
theorem finish_needSecure_of_nonsecure (hissue : checkIssue g ops last s = .ok ()) (hactive : s.active g ≠ 0)
    (hworld : s.curLaunch.desc.world = false) (k : Unit → Res) :
    finish (do checkIssue g ops last s; let u ← needSecure s (s.active g); k u) s =
      .next (raiseTrap (s.trapReq 0x1B (s.active g)) s) := by
  rw [bind_ok_eq hissue, bind_error_eq (needSecure_of_nonsecure hactive hworld)]
  rfl

end

/-- Settles O51, by the check of the world that each of the four makes at once after those at issue. -/
theorem privilegedFaults : Obligations.PrivilegedFaults := by
  rintro i g ops last s (⟨b, n, rfl, rfl, rfl⟩ | ⟨b, n, a, rfl, rfl, rfl⟩ | ⟨rfl, rfl, rfl⟩ | ⟨d, p, rfl, rfl, rfl⟩ |
    ⟨d, p, rfl, rfl, rfl⟩) hissue hactive hworld
  all_goals exact finish_needSecure_of_nonsecure hissue hactive hworld _

end Sys2Proof.Machine
end

section
/-!
PROOFS. Departures from barriers (R389, R390).
-/

namespace Sys2Proof.Machine

-- The whole text is compiled in one process under a memory limit: elaborate one proof after the other.
set_option Elab.async false

/-! ### A warp after an update of the state -/

section
variable (s : State) (u v n : Nat)

theorem State.warpOf_eq : s.warpOf u n = ((AMap.get? s.blocks u).bind fun b => AMap.get? b.warps n).getD default := by
  cases h : AMap.get? s.blocks u with
  | none => simp only [State.warpOf, State.block, AMap.getD, h]; rfl
  | some b => simp [State.warpOf, State.block, AMap.getD, h]

theorem State.warpOf_of {s : State} {u n : Nat} {b : Block} {w : Warp} (hb : AMap.get? s.blocks u = some b)
    (hw : AMap.get? b.warps n = some w) : s.warpOf u n = w := by
  simp [State.warpOf_eq, hb, hw]

/-- Where every block's warp is left alone or changed by `g`, so is the state's. -/
theorem State.warpOf_of_blocks {s t : State} {f : Nat → Block → Block} {g : Warp → Warp} {v n : Nat}
    (ht : AMap.get? t.blocks v = (AMap.get? s.blocks v).map (f v))
    (hf : ∀ b, AMap.get? (f v b).warps n = AMap.get? b.warps n ∨ AMap.get? (f v b).warps n = (AMap.get? b.warps n).map g) :
    t.warpOf v n = s.warpOf v n ∨ t.warpOf v n = g (s.warpOf v n) := by
  simp only [State.warpOf_eq, ht]
  cases AMap.get? s.blocks v with
  | none => exact .inl rfl
  | some b =>
    rcases hf b with h | h
    · exact .inl (congrArg (Option.getD · default) h)
    · cases hw : AMap.get? b.warps n <;> simp [h, hw]

theorem State.warpOf_of_mapVals {s t : State} {f : Nat → Block → Block} {g : Warp → Warp} {v n : Nat}
    (ht : t.blocks = AMap.mapVals s.blocks f)
    (hf : ∀ b, AMap.get? (f v b).warps n = AMap.get? b.warps n ∨ AMap.get? (f v b).warps n = (AMap.get? b.warps n).map g) :
    t.warpOf v n = s.warpOf v n ∨ t.warpOf v n = g (s.warpOf v n) :=
  State.warpOf_of_blocks (by rw [ht, AMap.get?_mapVals]) hf

/-- An update of one block changes a warp as it says, or not at all. -/
theorem State.warpOf_updBlock {f : Block → Block} {g : Warp → Warp} {n : Nat}
    (hf : ∀ b, AMap.get? (f b).warps n = AMap.get? b.warps n ∨ AMap.get? (f b).warps n = (AMap.get? b.warps n).map g) :
    (s.updBlock u f).warpOf v n = s.warpOf v n ∨ (s.updBlock u f).warpOf v n = g (s.warpOf v n) := by
  by_cases h : v = u
  · subst h
    exact State.warpOf_of_blocks (f := fun _ => f) (AMap.get?_modify_same _ _ _) hf
  · exact .inl (congrArg (fun b : Block => AMap.getD b.warps n default) (s.block_updBlock_other f h))

theorem State.warpOf_updWarpOf (w : Nat) (f : Warp → Warp) :
    (s.updWarpOf u w f).warpOf v n = s.warpOf v n ∨ (s.updWarpOf u w f).warpOf v n = f (s.warpOf v n) := by
  refine s.warpOf_updBlock u v fun b => ?_
  simp only [Block.updWarp, AMap.get?_modify]
  split
  · next h => exact .inr (by rw [h])
  · exact .inl rfl

theorem State.get?_updWarpOf {s : State} {u n : Nat} {b : Block} (f : Warp → Warp) (hb : AMap.get? s.blocks u = some b) :
    AMap.get? (s.updWarpOf u n f).blocks u = some (b.updWarp n f) := by
  simp [State.updWarpOf, State.updBlock, hb]

theorem Block.get?_updWarp {n : Nat} {b : Block} {w : Warp} (f : Warp → Warp) (hw : AMap.get? b.warps n = some w) :
    AMap.get? (b.updWarp n f).warps n = some (f w) := by
  simp [Block.updWarp, hw]

theorem State.warpOf_updWarpOf_of {s : State} {u n : Nat} {b : Block} {w : Warp} (f : Warp → Warp)
    (hb : AMap.get? s.blocks u = some b) (hw : AMap.get? b.warps n = some w) : (s.updWarpOf u n f).warpOf u n = f w :=
  State.warpOf_of (State.get?_updWarpOf f hb) (Block.get?_updWarp f hw)

end

/-! ### What ends with a phase -/

/-- A lane's pending flag and target of a barrier are as they were. -/
def SamePending (b : Bar) (w x : Warp) : Prop :=
  (barFlags x b).pending = (barFlags w b).pending ∧ (barFlags x b).target = (barFlags w b).target

theorem Warp.clearArrived_samePending (b c : Bar) (w : Warp) : SamePending c w (w.clearArrived b) := by
  unfold Warp.clearArrived SamePending
  split
  · exact ⟨rfl, rfl⟩
  · next f h =>
    simp only [barFlags, AMap.getD, AMap.get?_set]
    split
    · next hkey => rw [hkey, h]; exact ⟨rfl, rfl⟩
    · exact ⟨rfl, rfl⟩

theorem Block.get?_clearArrived (b : Bar) (x : Block) (n : Nat) :
    AMap.get? (x.clearArrived b).warps n = (AMap.get? x.warps n).map (Warp.clearArrived b) :=
  AMap.get?_mapVals x.warps (fun _ w => w.clearArrived b) n

theorem Block.get?_phaseEnds (b : Bar) (x : Block) (n : Nat) :
    AMap.get? (x.phaseEnds b).warps n = (AMap.get? x.warps n).map (Warp.clearArrived b) := by
  rw [Block.warps_phaseEnds]
  exact AMap.get?_mapVals x.warps (fun _ w => w.clearArrived b) n

/-- What the end of a phase of a barrier wider than a block makes of each block. -/
def clearInGroup (s : State) (u : Nat) (b : Bar) (x : Block) : Block :=
  let la := s.launch (s.block u).launch
  if x.launch = (s.block u).launch ∧ groupOf la x b.scope = groupOf la (s.block u) b.scope then x.clearArrived b else x

theorem settleBarrier_samePending (s : State) (u wn : Nat) (b c : Bar) (v n : Nat) :
    SamePending c (s.warpOf v n) ((settleBarrier u wn b s).warpOf v n) := by
  have of_or {t : State} (h : t.warpOf v n = s.warpOf v n ∨ t.warpOf v n = (s.warpOf v n).clearArrived b) :
      SamePending c (s.warpOf v n) (t.warpOf v n) := by
    rcases h with h | h
    · rw [h]; exact ⟨rfl, rfl⟩
    · rw [h]; exact Warp.clearArrived_samePending b c _
  unfold settleBarrier
  split
  · exact ⟨rfl, rfl⟩
  dsimp only
  split
  · rcases s.warpOf_updWarpOf u v n wn fun w =>
      ({ w with ord := { w.ord with wrpPhase := vmod w.ord.wrpPhase b.idx.val (· + 1) } }).clearArrived b with h | h
    · rw [h]; exact ⟨rfl, rfl⟩
    · rw [h]; exact Warp.clearArrived_samePending b c { s.warpOf v n with ord := _ }
  · exact of_or (s.warpOf_updBlock (f := Block.phaseEnds b) u v fun x => .inr (x.get?_phaseEnds b n))
  · refine of_or (State.warpOf_of_mapVals (f := fun _ => clearInGroup s u b) rfl fun x => ?_)
    unfold clearInGroup
    dsimp only
    split
    · exact .inr (x.get?_clearArrived b n)
    · exact .inl rfl

/-! ### Departing -/

theorem canDepart_getLsbD (s : State) (u wn : Nat) (b : Bar) (m : Mask) (l : Fin 32) :
    (canDepart s u wn b m).getLsbD l.val = (m.getLsbD l.val && (barFlags (s.warpOf u wn) b).pending.getLsbD l.val &&
      decide ((barFlags (s.warpOf u wn) b).target[l].toNat ≤ (phaseOf s u wn b).toNat)) :=
  has_maskOf _ l

theorem depart_zero (u wn : Nat) (b : Bar) (s : State) : depart u wn b 0 s = s := rfl

/-- The state of a departure before the copies of a core that acquires at more than block scope are dropped. -/
def departedState (s : State) (u wn : Nat) (b : Bar) (m : Mask) : State :=
  let t := takeOrder (.bar b) u wn s.ticked
  (t.updWarpOf u wn fun w =>
    { w.refetch with ord := { w.ord with
      bars := AMap.set w.ord.bars (barKey b) { barFlags w b with pending := (barFlags w b).pending &&& ~~~ m }
      barAcq := AMap.set w.ord.barAcq (barKey b) t.instant } }).ticked

/-- What a departure makes of the flags of its warp. -/
theorem barFlags_depart {s : State} {u wn : Nat} {b : Bar} {m : Mask} {bl : Block} {w : Warp}
    (hb : AMap.get? s.blocks u = some bl) (hw : AMap.get? bl.warps wn = some w) (hm : m ≠ 0) :
    barFlags ((depart u wn b m s).warpOf u wn) b = { barFlags w b with pending := (barFlags w b).pending &&& ~~~ m } := by
  have key : ∀ t : State, t.blocks = (departedState s u wn b m).blocks → barFlags (t.warpOf u wn) b =
      { barFlags w b with pending := (barFlags w b).pending &&& ~~~ m } := by
    intro t ht
    have hordered : AMap.get? (takeOrder (.bar b) u wn s.ticked).blocks u = some (bl.updWarp wn _) :=
      State.get?_updWarpOf (s := s.ticked) _ hb
    rw [State.warpOf_eq, ht, ← State.warpOf_eq]
    refine (congrArg (barFlags · b) (State.warpOf_updWarpOf_of _ hordered (Block.get?_updWarp _ hw))).trans ?_
    simp only [barFlags, AMap.getD, AMap.get?_set_same]
    rfl
  unfold depart
  rw [if_neg hm]
  dsimp only
  split
  · exact key _ rfl
  · exact key _ rfl
  · exact key _ rfl

/-- Settles O42. -/
theorem barrierDepartures : Obligations.BarrierDepartures := by
  refine ⟨canDepart_getLsbD, fun s u wn b m bl w hb hw hm => ?_, fun s u wn sp b m hwait hnone => ?_,
    settleBarrier_samePending⟩
  · simp only [barFlags_depart hb hw hm, and_self]
  · constructor
    · simp only [waitDone, hwait, hnone]
      simp
    · simp only [waitAcquires, hwait, hnone]
      exact depart_zero u wn b s

end Sys2Proof.Machine
end

section
/-!
PROOFS. The barrier instructions (R389, R395, R396, R401, R402, R464).
-/

namespace Sys2Proof.Machine

-- The whole text is compiled in one process under a memory limit: elaborate one proof after the other.
set_option Elab.async false

/-! ### The checks of a barrier -/

section
variable {s : State} {b : Bar} {arrives waits : Bool} {m : Mask}

theorem checkBar_of_undeclared (h : declared s.curLaunch.hdr b.scope ≤ b.idx.val) (hm : m ≠ 0) :
    checkBar s b arrives waits m = .error (.trap (s.trapReq 0x0F m)) := by
  unfold checkBar
  rw [if_neg (Nat.not_lt.mpr h), bind_error_eq (trapIf_some hm)]
  rfl

theorem checkBar_of_inRegion (h : b.idx.val < declared s.curLaunch.hdr b.scope) (hm : m &&& s.inRegion ≠ 0) :
    checkBar s b arrives true m = .error (.trap (s.trapReq 0x10 (m &&& s.inRegion))) := by
  unfold checkBar
  rw [if_pos h, bind_ok_eq (trapIf_zero _ _), if_pos rfl, bind_error_eq (trapIf_some hm)]
  rfl

theorem checkBar_of_arrived (h : b.idx.val < declared s.curLaunch.hdr b.scope)
    (hm : m &&& (barFlags s.curWarp b).arrived ≠ 0) :
    checkBar s b true false m = .error (.trap (s.trapReq 0x0E (m &&& (barFlags s.curWarp b).arrived))) := by
  unfold checkBar
  rw [if_pos h, bind_ok_eq (trapIf_zero _ _), if_neg Bool.false_ne_true, bind_ok_eq (trapIf_zero _ _), if_pos rfl]
  exact trapIf_some hm

theorem arrivalStall_false (h : m ≠ 0 → arrivalRoom s s.cur.blk b = true) :
    stallIf (m != 0 && !arrivalRoom s s.cur.blk b) = .ok () := by
  by_cases hm : m = 0
  · simp [hm]
  · simp [h hm]

end

/-! ### The four instructions -/

section
variable {g : Guard} {b : Bar} {s : State}

theorem execBar_of_room (hissue : Issuable g true s) (hcheck : checkBar s b true true (s.active g) = .ok ())
    (hroom : s.active g ≠ 0 → arrivalRoom s s.cur.blk b = true) :
    execBar g b s = .next (advance (waitAt b (s.active g) (arrive b (s.active g) s))) := by
  unfold execBar
  rw [bind_ok_eq hissue]
  dsimp only
  rw [bind_ok_eq hcheck, bind_ok_eq (arrivalStall_false hroom)]
  rfl

theorem execBara_of_room (hissue : Issuable g false s) (hcheck : checkBar s b true false (s.active g) = .ok ())
    (hroom : s.active g ≠ 0 → arrivalRoom s s.cur.blk b = true) :
    execBara g b s = .next (advance (arrive b (s.active g) s)) := by
  unfold execBara
  rw [bind_ok_eq hissue]
  dsimp only
  rw [bind_ok_eq hcheck, bind_ok_eq (arrivalStall_false hroom)]
  rfl

theorem execBarw_of_checked (hissue : Issuable g true s) (hcheck : checkBar s b false true (s.active g) = .ok ()) :
    execBarw g b s = .next (advance (waitAt b (s.active g) s)) := by
  unfold execBarw
  rw [bind_ok_eq hissue]
  dsimp only
  rw [bind_ok_eq hcheck]
  rfl

/-- What a stopped check of the barrier makes of an instruction that is in order at issue. -/
theorem finish_checkBar_error {last arrives waits : Bool} {e : Stop} (hissue : Issuable g last s)
    (hcheck : checkBar s b arrives waits (s.active g) = .error e) (k : Unit → Res) :
    finish (do checkIssue g [] last s; let u ← checkBar s b arrives waits (s.active g); k u) s = finish (.error e) s := by
  rw [bind_ok_eq hissue, bind_error_eq hcheck]

/-- R402: bit 1 is the arrived flag, bit 0 whether the lane may depart. -/
theorem barWord_eq (ready : Mask) (l : Fin 32) :
    barWord s b ready l = BitVec.ofNat 32 ((phaseOf s s.cur.blk s.cur.warp b).toNat % 2 ^ 16 * 2 ^ 16 +
      (if (barFlags s.curWarp b).arrived.getLsbD l.val then 2 else 0) + if ready.getLsbD l.val then 1 else 0) := by
  unfold barWord has
  cases (barFlags s.curWarp b).arrived.getLsbD l.val <;> cases ready.getLsbD l.val <;> rfl

theorem execBarq_of_ready {d : Operand} {r : Reading} {ready : Mask} {puts : List Put}
    (hready : ready = canDepart s s.cur.blk s.cur.warp b (s.active g))
    (hputs : puts = [⟨d, 0, s.active g, tab fun l => barWord s b ready l⟩]) (h : Ready g [d] [] puts s r)
    (hcheck : checkBar s b false false (s.active g) = .ok ()) :
    execBarq g d b s = .next (advance (depart s.cur.blk s.cur.warp b ready (written r puts s))) := by
  subst hready hputs
  unfold execBarq
  rw [bind_ok_eq h.issue]
  dsimp only
  rw [bind_ok_eq hcheck, bind_ok_eq h.sources, bind_ok_eq (commit_ok h.dests)]
  rfl

end

/-- Settles O40: each instruction past its checks, and the three checks that fault. -/
theorem barriersComplete : Obligations.BarriersComplete := by
  refine ⟨fun g b s => execBar_of_room, fun g b s => execBara_of_room, fun g b s => execBarw_of_checked,
    fun g d b s r => ?_, fun g b s hissue hactive hrange => ?_, fun i g b s m hi hissue hrange hm hlanes => ?_,
    fun g b s m hissue hrange hm hlanes => ?_⟩
  · exact execBarq_of_ready rfl (by simp only [barWord_eq])
  · exact finish_checkBar_error hissue (checkBar_of_undeclared hrange hactive) _
  · subst hlanes
    rcases hi with rfl | rfl
    · exact finish_checkBar_error hissue (checkBar_of_inRegion hrange hm) _
    · exact finish_checkBar_error hissue (checkBar_of_inRegion hrange hm) _
  · subst hlanes
    exact finish_checkBar_error hissue (checkBar_of_arrived hrange hm) _

end Sys2Proof.Machine
end

section
/-!
PROOFS. Instructions of an engine with no active lane (R293, R322, R323, R348, R378, R380 to R383, R445 to R449).
-/

namespace Sys2Proof.Machine

-- The whole text is compiled in one process under a memory limit: elaborate one proof after the other.
set_option Elab.async false

/-- What such an instruction comes to: its checks at issue, its sources, and then nothing when no lane is active. -/
theorem finish_of_idle {g : Guard} {ops : List Operand} {qs : List SrcSpec} {s : State} {r : Reading}
    (h : Ready g ops qs [] s r) (hidle : s.active g = 0) (k : Reading → Res) :
    finish (do checkIssue g ops false s; let r ← readAll g qs s; if s.active g = 0 then commit r [] s else k r) s =
      .next (advance (written r [] s)) := by
  rw [bind_ok_eq h.issue, bind_ok_eq h.sources, if_pos hidle, commit_ok h.dests]
  rfl

/-- Settles O32: each of these instructions looks, once its sources are read, at whether a lane is active. -/
theorem idleEngineInstructions : Obligations.IdleEngineInstructions := by
  intro i g ops qs s r hform h hidle
  cases i
  case cekick g d off count => cases count <;> cases hform <;> exact finish_of_idle h hidle _
  case wlclr g k row seed =>
    cases row with
    | none => cases hform
    | some row => cases hform; exact finish_of_idle h hidle _
  all_goals cases hform
  all_goals exact finish_of_idle h hidle _

end Sys2Proof.Machine
end

section
/-!
PROOFS. Timelines, counters and copy-engine requests (R298 to R301, R318 to R321).
-/

namespace Sys2Proof.Machine

-- The whole text is compiled in one process under a memory limit: elaborate one proof after the other.
set_option Elab.async false

/-- One value for every lane, as a pair destination takes it. -/
theorem tab_const (w : Word) : (tab fun _ => w) = splat w := by
  apply Vector.ext
  intro i hi
  simp [tab, splat]

theorem clampInt_eq_max_min {x lo hi : Int} (h : lo ≤ hi) : (clampInt x lo hi).1 = max lo (min hi x) := by
  unfold clampInt
  split
  · omega
  · split <;> simp only <;> omega

theorem nbit_eq_getLsbD {n : Nat} (x : BitVec n) (i : Nat) : nbit x.toNat i = x.getLsbD i := by
  rw [BitVec.getLsbD, Nat.testBit_eq_decide_div_mod_eq]
  rfl

theorem ctrsDone_eq_all (e : BlkEng) (mask : BitVec 16) :
    ctrsDone e mask.toNat = (List.finRange 16).all fun i => !mask.getLsbD i.val || decide ((e.c[i]).toInt ≤ 0) := by
  rw [Bool.eq_iff_iff]
  simp only [ctrsDone, List.all_eq_true, List.mem_range, List.mem_finRange, true_implies, nbit_eq_getLsbD]
  constructor
  · intro h i
    simpa [ctrDone] using h i.val i.isLt
  · intro h i hi
    simpa [ctrDone, hi] using h ⟨i, hi⟩

/-! ### An enqueue (R300) -/

theorem enqueue_eng {s : State} {x : Fin 5} {n : Nat} {b : Block} (h : AMap.get? s.blocks s.cur.blk = some b) :
    (enqueue x n s).curBlock.eng = { b.eng with
      tl := b.eng.tl.set x { b.eng.tl[x] with enq := b.eng.tl[x].enq + w64 n }
      orders := b.eng.orders ++ [⟨x.val, b.eng.tl[x].enq + 1, n, s.passOn⟩] } := by
  have hblock : (enqueue x n s).curBlock = (s.updEng s.cur.blk fun e => { e with
      tl := vmod e.tl x fun c => { c with enq := c.enq + w64 n }
      orders := e.orders ++ [⟨x.val, e.tl[x].enq + 1, n, s.passOn⟩] }).block s.cur.blk := rfl
  rw [hblock, State.updEng, State.block_updBlock_of _ h]
  simp

theorem enqueue_tl {s : State} {x : Fin 5} {n : Nat} {b : Block} (h : AMap.get? s.blocks s.cur.blk = some b) (y : Fin 5) :
    (enqueue x n s).curBlock.eng.tl[y] =
      if y = x then { b.eng.tl[x] with enq := b.eng.tl[x].enq + BitVec.ofNat 64 n } else b.eng.tl[y] := by
  rw [enqueue_eng h]
  by_cases hy : y = x
  · subst hy
    simp [w64]
  · simp [hy, Fin.val_inj, Ne.symm hy]

/-! ### The instructions -/

theorem faultAt_of_false {s : State} {k : Nat} {m : Mask} {a : Nat} {c : Bool} (h : c = false) : faultAt s k m a c = .ok () := by
  subst h
  rfl

theorem stallIf_of_false {c : Bool} (h : c = false) : stallIf c = .ok () := by
  subst h
  rfl

section
variable {g : Guard} {d a : Operand} {s : State} {r : Reading}

theorem execCekick_of_room {off : Operand} {count : CountArg} {o n : Nat} {num : DWord} {puts : List Put}
    (ho : o = (uval (s.active g) (r.w 0)).toNat)
    (hn : n = match count with | .reg _ => (uval (s.active g) (r.w 1)).toNat | .imm i => i.toNat)
    (hnum : num = s.curBlock.eng.tl[0].enq + w64 n) (hputs : puts = putAll d (s.active g) (lo32 num))
    (h : Ready g (opsOf d (opU off :: countOp count)) (opU off :: countOp count) puts s r) (hactive : s.active g ≠ 0)
    (hlimit : o < 2 ^ 20) (hsize : o + 32 * n ≤ s.curBlock.abuf.size) (haligned : o % 32 = 0)
    (hacq : s.curWarp.acquiring s.cur.split = false) (hroom : (s.core s.curCore).body.kicks.length < 32) :
    execCekick g d off count s = .next (advance (if n = 0 then written r puts s else
      (enqueue 0 n (written r puts s)).updBody s.curCore fun k =>
        { k with kicks := k.kicks ++ [⟨.blk s.cur.blk, o, num - w64 n + 1, n, none⟩] })) := by
  subst ho hnum hputs
  have hbounds : (decide (2 ^ 20 ≤ (uval (s.active g) (r.w 0)).toNat) ||
      decide (s.curBlock.abuf.size < (uval (s.active g) (r.w 0)).toNat + 32 * n)) = false := by
    rw [decide_eq_false (Nat.not_le.mpr hlimit), decide_eq_false (Nat.not_lt.mpr hsize)]
    rfl
  subst hn
  unfold execCekick
  cases count
  all_goals
    dsimp only at h hbounds ⊢
    rw [bind_ok_eq h.issue, bind_ok_eq h.sources, if_neg hactive, bind_ok_eq h.dests, bind_ok_eq (faultAt_of_false hbounds),
      bind_ok_eq (faultAt_of_false (bne_eq_false_iff_eq.mpr haligned)), bind_ok_eq (stallIf_of_false hacq),
      bind_ok_eq (stallIf_of_false (decide_eq_false (Nat.not_le.mpr hroom))), bind_ok_eq (commit_ok h.dests)]
    rfl

theorem execArrset_of_ready {c : Fin 16} {add : Bool} (h : Ready g [a] [opU a] [] s r) :
    execArrset g c a add s = .next (advance (onActive g s (fun t => t.updEng s.cur.blk fun e =>
      { e with sets := e.sets.set c (e.sets[c] + 1), c := e.c.set c (if add then
          BitVec.ofInt 32 (max (-(2 ^ 31)) (min (2 ^ 31 - 1) ((e.c[c]).toInt + (uval (s.active g) (r.w 0)).toInt)))
        else uval (s.active g) (r.w 0)) }) (written r [] s))) := by
  unfold execArrset
  dsimp only
  rw [bind_ok_eq h.issue, bind_ok_eq h.sources, bind_ok_eq (commit_ok h.dests)]
  simp only [vmod_eq _ _ _ c.isLt, clampInt_eq_max_min (show (-(2 ^ 31) : Int) ≤ 2 ^ 31 - 1 by decide)]
  rfl

theorem execArrwait_of_issuable {mask : BitVec 16} (h : Issuable g true s) :
    execArrwait g mask s =
      .next (advance (onActive g s (fun t => t.updSplit fun sp => { sp with wait := .arr mask }) s)) := by
  unfold execArrwait
  rw [bind_ok_eq h]
  rfl

theorem execArrtest_of_ready {mask : BitVec 16} {yes : Bool} (hyes : yes = ctrsDone s.curBlock.eng mask.toNat)
    (h : Ready g [d] [] [⟨d, 0, s.active g, splat (if yes then 1 else 0)⟩] s r) :
    execArrtest g d mask s = .next (advance (if yes then
      onActive g s (acquireCtrs mask.toNat s.cur.blk s.cur.warp) (written r [⟨d, 0, s.active g, splat (if yes then 1 else 0)⟩] s)
      else written r [⟨d, 0, s.active g, splat (if yes then 1 else 0)⟩] s)) := by
  subst hyes
  unfold execArrtest
  dsimp only
  rw [bind_ok_eq h.issue, bind_ok_eq h.sources, bind_ok_eq (commit_ok h.dests)]
  unfold onActive
  cases ctrsDone s.curBlock.eng mask.toNat
  · rfl
  · simp only [Bool.true_and, bne_iff_ne, ne_eq, ite_not]
    rfl

/-- R318: the number that TLRD reads of a timeline. -/
def timelineRead (s : State) (tl : Fin 5) (enq : Bool) : DWord :=
  if enq then s.curBlock.eng.tl[tl].enq else s.curBlock.eng.tl[tl].done

theorem execTlrd_of_ready {tl : Fin 5} {enq : Bool} {v : DWord} (hv : v = timelineRead s tl enq)
    (h : Ready g [d] [] [⟨d, 0, s.active g, splat (lo32 v)⟩, ⟨nextReg d 1, 0, s.active g, splat (hi32 v)⟩] s r) :
    execTlrd g d tl enq s = .next (advance (written r
      [⟨d, 0, s.active g, splat (lo32 v)⟩, ⟨nextReg d 1, 0, s.active g, splat (hi32 v)⟩] s)) := by
  have hputs : put2Of (dst0 d) (s.active g) (tab fun _ => timelineRead s tl enq) =
      [⟨d, 0, s.active g, splat (lo32 v)⟩, ⟨nextReg d 1, 0, s.active g, splat (hi32 v)⟩] := by
    subst hv
    simp [put2Of, dst0, tab_const]
  unfold execTlrd
  dsimp only
  rw [bind_ok_eq h.issue, bind_ok_eq h.sources]
  change finish (commit r (put2Of (dst0 d) (s.active g) (tab fun _ => timelineRead s tl enq)) s) s = _
  rw [hputs, commit_ok h.dests]
  rfl

end

/-- Settles O33: each instruction passes its checks, and then does its one step. -/
theorem countersComplete : Obligations.CountersComplete := by
  refine ⟨fun s x n b h => ⟨enqueue_tl h, ?_, rfl⟩, ?_, fun g c a add s r => execArrset_of_ready,
    fun g mask s => execArrwait_of_issuable, ?_, fun g d tl enq s r => execTlrd_of_ready rfl, ?_⟩
  · rw [enqueue_eng h]
  · intro g d off count s r o n num puts qs h hactive hlimit hsize haligned hacq hroom
    have hqs : qs = opU off :: countOp count := by cases count <;> rfl
    have hnum : num - w64 n + 1 = s.curBlock.eng.tl[0].enq + 1 := by
      show s.curBlock.eng.tl[0].enq + w64 n - w64 n + 1 = _
      rw [BitVec.add_sub_cancel]
    rw [hqs] at h
    rw [← hnum]
    exact execCekick_of_room rfl rfl rfl rfl h hactive hlimit hsize haligned hacq hroom
  · intro g d mask s r yes puts h
    exact execArrtest_of_ready (ctrsDone_eq_all _ _).symm h
  · intro g tl val s r qs v hissue hsources hdests
    show execTlwait g tl val s = _
    unfold execTlwait
    dsimp only
    rw [bind_ok_eq hissue, bind_ok_eq hsources, bind_ok_eq (commit_ok hdests)]
    rfl

end Sys2Proof.Machine
end

section
/-!
PROOFS. Plane loads, swaps and the task queue's status (R313, R315, R316, R322, R324).
-/

namespace Sys2Proof.Machine

-- The whole text is compiled in one process under a memory limit: elaborate one proof after the other.
set_option Elab.async false

/-- The load that an LSTAT starts (R322). -/
def lstatLoad (g : Guard) (s : State) (r : Reading) (k : ArrayState) : ArrayState :=
  startLoad s.cur.blk s.curBlock.launch (s.cur.blk, s.cur.warp, s.cur.split) (uval (s.active g) (r.w 0)).toNat
    ((uval (s.active g) (r.w 1)).setWidth 16) (uval (s.active g) (r.w 2))
    (s.curBlock.wbuf.data.readN (uval (s.active g) (r.w 0)).toNat (PlaneFmt.of (uval (s.active g) (r.w 2))).bytes) k

def lstatStart (g : Guard) (s : State) (r : Reading) (t : State) : State :=
  t.updBody s.curCore fun k => { k with array := lstatLoad g s r k.array }

/-- A format and a place of WBUF that LSTAT takes. -/
structure LstatInOrder (g : Guard) (s : State) (r : Reading) : Prop where
  format : planeOk (uval (s.active g) (r.w 2)) = true
  aligned : (uval (s.active g) (r.w 0)).toNat % 64 = 0
  inside : (uval (s.active g) (r.w 0)).toNat + (PlaneFmt.of (uval (s.active g) (r.w 2))).bytes ≤ s.curBlock.wbuf.size

section
variable {g : Guard} {woff gen fmt : Operand} {s : State} {r : Reading}

/-- What LSTAT waits for at issue. -/
def lstatStalls (g : Guard) (s : State) (r : Reading) : Bool :=
  !s.curSplit.stalled || (s.core s.curCore).body.array.lstatWaits ||
    wbufBusy s s.curCore s.cur.blk (uval (s.active g) (r.w 0)).toNat (PlaneFmt.of (uval (s.active g) (r.w 2))).bytes

/-- An LSTAT with no load of its own under way: its waits, and then its start. -/
theorem execLstat_of_inOrder (h : Ready g [woff, gen, fmt] [opU woff, opU gen, opU fmt] [] s r) (hactive : s.active g ≠ 0)
    (hplane : s.curSplit.plane = none) (hin : LstatInOrder g s r) :
    execLstat g woff gen fmt s = finish (do
      stallIf (lstatStalls g s r)
      if (PlaneFmt.of (uval (s.active g) (r.w 2))).strict then
        .error (.again ((lstatStart g s r s).updSplit fun sp => { sp with wait := .planeLoad, stalled := false }))
      else do
        let t ← commit r [] s
        pure (lstatStart g s r t)) s := by
  have hformat : (!planeOk (uval (s.active g) (r.w 2))) = false := by rw [hin.format]; rfl
  unfold execLstat
  dsimp only
  rw [bind_ok_eq h.issue, bind_ok_eq h.sources, if_neg hactive, hplane]
  dsimp only
  rw [bind_ok_eq (faultAt_of_false hformat), bind_ok_eq (faultAt_of_false (bne_eq_false_iff_eq.mpr hin.aligned)),
    bind_ok_eq (faultAt_of_false (decide_eq_false (Nat.not_lt.mpr hin.inside)))]
  rfl

theorem execLstat_starts (h : Ready g [woff, gen, fmt] [opU woff, opU gen, opU fmt] [] s r) (hactive : s.active g ≠ 0)
    (hplane : s.curSplit.plane = none) (hin : LstatInOrder g s r) (hwaits : lstatStalls g s r = false) :
    execLstat g woff gen fmt s = .next (if (PlaneFmt.of (uval (s.active g) (r.w 2))).strict
      then (lstatStart g s r s).updSplit fun sp => { sp with wait := .planeLoad, stalled := false }
      else advance (lstatStart g s r (written r [] s))) := by
  rw [execLstat_of_inOrder h hactive hplane hin, bind_ok_eq (stallIf_of_false hwaits)]
  split
  · rfl
  · rw [bind_ok_eq (commit_ok h.dests)]
    rfl

theorem execLstat_waits (h : Ready g [woff, gen, fmt] [opU woff, opU gen, opU fmt] [] s r) (hactive : s.active g ≠ 0)
    (hplane : s.curSplit.plane = none) (hin : LstatInOrder g s r) (hfirst : s.curSplit.stalled = false) :
    execLstat g woff gen fmt s = .next s.waits := by
  have hwaits : lstatStalls g s r = true := by simp [lstatStalls, hfirst]
  rw [execLstat_of_inOrder h hactive hplane hin, hwaits, bind_error_eq stallIf_true]
  rfl

/-- A strict load that has ended (R316). -/
theorem execLstat_loaded {bad : Bool} (h : Ready g [woff, gen, fmt] [opU woff, opU gen, opU fmt] [] s r)
    (hactive : s.active g ≠ 0) (hplane : s.curSplit.plane = some bad) :
    execLstat g woff gen fmt s = finish (do
      trapIf s Kind.blockFormat (if bad then s.active g else 0)
      commit r [] s) s := by
  unfold execLstat
  dsimp only
  rw [bind_ok_eq h.issue, bind_ok_eq h.sources, if_neg hactive, hplane]

theorem execLstat_complete (h : Ready g [woff, gen, fmt] [opU woff, opU gen, opU fmt] [] s r)
    (hactive : s.active g ≠ 0) (hplane : s.curSplit.plane = some false) :
    execLstat g woff gen fmt s = .next (advance (written r [] s)) := by
  rw [execLstat_loaded h hactive hplane, if_neg Bool.false_ne_true, bind_ok_eq (trapIf_zero ..), commit_ok h.dests]
  rfl

theorem execLstat_malformed (h : Ready g [woff, gen, fmt] [opU woff, opU gen, opU fmt] [] s r)
    (hactive : s.active g ≠ 0) (hplane : s.curSplit.plane = some true) :
    execLstat g woff gen fmt s = .next (raiseTrap (s.trapReq 0x12 (s.active g)) s) := by
  rw [execLstat_loaded h hactive hplane, if_pos rfl, bind_error_eq (trapIf_some hactive)]
  rfl

theorem execSwap_of_issuable (h : Issuable g false s) :
    execSwap g s = .next (advance (onActive g s (fun t => t.updBody s.curCore fun k =>
      { k with array := { k.array with
        swapPending := k.array.swapPending || (k.array.shadow.tag.isSome || k.array.loading.isSome) } }) s)) := by
  unfold execSwap
  rw [bind_ok_eq h]
  simp only [Bool.or_assoc]
  rfl

theorem execTqrd_of_ready {d : Operand} {sel : Fin 4} {clr : Bool}
    (h : Ready g [d] [] [⟨d, 0, s.active g, splat (tqrdWord s sel)⟩] s r) :
    execTqrd g d sel clr s = .next (advance (if clr then onActive g s
      (fun t => t.updEng s.cur.blk fun e => { e with tileFault := false, copyFault := false })
        (written r [⟨d, 0, s.active g, splat (tqrdWord s sel)⟩] s)
      else written r [⟨d, 0, s.active g, splat (tqrdWord s sel)⟩] s)) := by
  unfold execTqrd
  dsimp only
  rw [bind_ok_eq h.issue, bind_ok_eq h.sources, bind_ok_eq (commit_ok h.dests)]
  cases clr
  · rfl
  · simp only [Bool.true_and, bne_iff_ne, ne_eq, ite_not]
    rfl

end

/-- Settles O34: LSTAT by whether its split has a load of its own, and then by its waits; SWAP and TQRD in one step. -/
theorem planesComplete : Obligations.PlanesComplete := by
  refine ⟨?_, ?_, fun g woff gen fmt s r => execLstat_complete, fun g woff gen fmt s r => execLstat_malformed,
    fun g s => execSwap_of_issuable, fun g d sel clr s r => execTqrd_of_ready⟩
  · intro g woff gen fmt s r o fw n a go start h hactive hplane hformat haligned hinside hstalled hlstat hbusy
    have hwaits : lstatStalls g s r = false := by
      unfold lstatStalls
      rw [hstalled, hlstat, hbusy]
      rfl
    have hgo : go = lstatLoad g s r := by
      funext k
      show startLoad _ _ _ _ (BitVec.ofNat 16 (uval (s.active g) (r.w 1)).toNat) _ _ k = _
      rw [BitVec.ofNat_toNat]
      rfl
    have hstart : start = lstatStart g s r := by
      funext t
      show (t.updBody s.curCore fun k => { k with array := go k.array }) = _
      rw [hgo]
      rfl
    rw [hstart]
    exact execLstat_starts h hactive hplane ⟨hformat, haligned, hinside⟩ hwaits
  · intro g woff gen fmt s r o fw h hactive hplane hformat haligned hinside hfirst
    exact execLstat_waits h hactive hplane ⟨hformat, haligned, hinside⟩ hfirst

end Sys2Proof.Machine
end

section
/-!
PROOFS. Tile enqueues (R302, R305, R309, R311, R323).
-/

namespace Sys2Proof.Machine

-- The whole text is compiled in one process under a memory limit: elaborate one proof after the other.
set_option Elab.async false

/-- The bytes of a record. -/
def tenqBytes (s : State) (o : Nat) : List Byte := s.curBlock.abuf.data.readN o 64

/-- The number that an enqueued record takes on tl1. -/
def tenqNumber (s : State) : DWord := s.curBlock.eng.tl[1].enq + 1

/-- The word of that number, where TENQ has a destination. -/
def tenqPuts (d : Operand) (g : Guard) (s : State) : List Put := putAll d (s.active g) (lo32 (tenqNumber s))

/-- The handle that a record names. -/
def tenqHandle (s : State) (o : Nat) : DWord := s.curWarp.reg.k[(TileF.of (tenqBytes s o)).whandle]?.getD 0

/-- The open group that a ragged record is for. -/
def tenqGroup (s : State) (o : Nat) : Option TileRec :=
  if (TileF.of (tenqBytes s o)).type = 2 then groupFind s s.curCore s.cur.blk (TileF.of (tenqBytes s o)).rgroup else none

/-- Its queue. -/
def tenqQueue (high : Bool) (s : State) : List TileRec :=
  if high then (s.core s.curCore).body.high else (s.core s.curCore).body.normal

/-- The record as its queue holds it. -/
def tenqRecord (high : Bool) (s : State) (o : Nat) : TileRec :=
  { blk := s.cur.blk, off := o, num := tenqNumber s, bytes := tenqBytes s o
    handle := if (TileF.of (tenqBytes s o)).type = 1 then tenqHandle s o else 0, high, members := [] }

/-- The record numbered and read. -/
def tenqTaken (d : Operand) (g : Guard) (o : Nat) (r : Reading) (s : State) : State :=
  engReadBuf s.cur.blk false (engAgent s.curBlock 1 (tenqNumber s)) o 64 (enqueue 1 1 (written r (tenqPuts d g s) s))

/-- The state in which a task of its own stands in its queue. -/
def tenqQueued (high : Bool) (o : Nat) (s t : State) : State :=
  t.updBody s.curCore fun k =>
    if high then { k with high := k.high ++ [tenqRecord high s o] } else { k with normal := k.normal ++ [tenqRecord high s o] }

section
variable {g : Guard} {d off : Operand} {high : Bool} {s : State} {r : Reading} {o : Nat}

/-- What TENQ does once its record has been found. -/
def tenqGoes (d : Operand) (high : Bool) (g : Guard) (o : Nat) (r : Reading) (s : State) (grp : Option TileRec) : Res := do
  let t := TileF.of (tenqBytes s o)
  faultAt s Kind.descriptor (s.active g) o (!tileOk s.curBlock (tenqHandle s o) grp.isSome t)
  let matches_ := grp.all fun x => groupMatch (TileF.of x.bytes) t
  faultAt s Kind.descriptor (s.active g) o
    (matches_ && grp.any fun x => !tileDst s.curBlock (TileF.of x.bytes) (groupRows x + t.m))
  stallIf (grp.isNone && decide (64 ≤ (tenqQueue high s).length))
  let t1 ← commit r (tenqPuts d g s) s
  let t2 := engReadBuf s.cur.blk false (engAgent s.curBlock 1 (tenqNumber s)) o 64 (enqueue 1 1 t1)
  pure (match grp with
    | some _ => if matches_ then joinGroup s.curCore s.cur.blk t.rgroup (o, tenqNumber s, tenqBytes s o) t2
      else retireRecord s.cur.blk (o, tenqNumber s, tenqBytes s o) 3 0 0 0 t2
    | none => tenqQueued high o s t2)

theorem execTenq_of_placed (h : Ready g [d, off] [opU off] (tenqPuts d g s) s r) (hactive : s.active g ≠ 0)
    (hplace : recordAt64 s (s.active g) (uval (s.active g) (r.w 0)).toNat = .ok o) :
    execTenq g d off high s = finish (tenqGoes d high g o r s (tenqGroup s o)) s := by
  unfold execTenq
  dsimp only
  rw [bind_ok_eq h.issue, bind_ok_eq h.sources, if_neg hactive]
  change finish (destCheck r (tenqPuts d g s) s >>= _) s = _
  rw [bind_ok_eq h.dests, bind_ok_eq hplace]
  rfl

theorem tenqGoes_alone (hdests : destCheck r (tenqPuts d g s) s = .ok ())
    (hok : tileOk s.curBlock (tenqHandle s o) false (TileF.of (tenqBytes s o)) = true)
    (hroom : (tenqQueue high s).length < 64) :
    tenqGoes d high g o r s none = .ok (tenqQueued high o s (tenqTaken d g o r s)) := by
  have hrecord : (!tileOk s.curBlock (tenqHandle s o) (none : Option TileRec).isSome (TileF.of (tenqBytes s o))) = false := by
    rw [Option.isSome_none, hok]
    rfl
  have hfree : (true && decide (64 ≤ (tenqQueue high s).length)) = false := by
    rw [decide_eq_false (Nat.not_le.mpr hroom)]
    rfl
  unfold tenqGoes
  dsimp only [Option.all_none, Option.any_none, Option.isNone_none]
  rw [bind_ok_eq (faultAt_of_false hrecord), bind_ok_eq (faultAt_of_false (Bool.and_false _)),
    bind_ok_eq (stallIf_of_false hfree), bind_ok_eq (commit_ok hdests)]
  rfl

theorem tenqGoes_grouped {x : TileRec} (hdests : destCheck r (tenqPuts d g s) s = .ok ())
    (hok : tileOk s.curBlock (tenqHandle s o) true (TileF.of (tenqBytes s o)) = true)
    (hrows : groupMatch (TileF.of x.bytes) (TileF.of (tenqBytes s o)) = true →
      tileDst s.curBlock (TileF.of x.bytes) (groupRows x + (TileF.of (tenqBytes s o)).m) = true) :
    tenqGoes d high g o r s (some x) = .ok (if groupMatch (TileF.of x.bytes) (TileF.of (tenqBytes s o))
      then joinGroup s.curCore s.cur.blk (TileF.of (tenqBytes s o)).rgroup (o, tenqNumber s, tenqBytes s o) (tenqTaken d g o r s)
      else retireRecord s.cur.blk (o, tenqNumber s, tenqBytes s o) 3 0 0 0 (tenqTaken d g o r s)) := by
  have hrecord : (!tileOk s.curBlock (tenqHandle s o) (some x).isSome (TileF.of (tenqBytes s o))) = false := by
    rw [Option.isSome_some, hok]
    rfl
  have hplace : (groupMatch (TileF.of x.bytes) (TileF.of (tenqBytes s o)) &&
      !tileDst s.curBlock (TileF.of x.bytes) (groupRows x + (TileF.of (tenqBytes s o)).m)) = false := by
    cases hmatch : groupMatch (TileF.of x.bytes) (TileF.of (tenqBytes s o))
    · rfl
    · rw [hrows hmatch]
      rfl
  unfold tenqGoes
  dsimp only [Option.all_some, Option.any_some, Option.isNone_some]
  rw [bind_ok_eq (faultAt_of_false hrecord), bind_ok_eq (faultAt_of_false hplace), bind_ok_eq (stallIf_of_false (Bool.false_and _)),
    bind_ok_eq (commit_ok hdests)]
  rfl

end

theorem taskEnqueueCompletes : Clause.TaskEnqueueCompletes := by
  intro g d off high s r o b num puts bs t h q t1 hready hactive hplace hgroup hok hroom
  have hnone : tenqGroup s o = none := by
    unfold tenqGroup
    split
    · exact hgroup ‹_›
    · rfl
  show execTenq g d off high s = _
  rw [execTenq_of_placed hready hactive hplace, hnone, tenqGoes_alone hready.dests hok hroom]
  rfl

theorem raggedJoinCompletes : Clause.RaggedJoinCompletes := by
  intro g d off high s r o x b num puts bs t t1 hready hactive hplace htype hgroup hok hrows
  have hsome : tenqGroup s o = some x := (if_pos htype).trans hgroup
  show execTenq g d off high s = _
  rw [execTenq_of_placed hready hactive hplace, hsome, tenqGoes_grouped hready.dests hok hrows]
  rfl

/-- Settles O35: a record in its place goes by whether a group of its block is open for it. -/
theorem taskEnqueues : Obligations.TaskEnqueues := ⟨taskEnqueueCompletes, raggedJoinCompletes⟩

end Sys2Proof.Machine
end

section
/-!
PROOFS. The winner-list instructions (R348 to R353).
-/

namespace Sys2Proof.Machine

-- The whole text is compiled in one process under a memory limit: elaborate one proof after the other.
set_option Elab.async false

/-- Goes through the first part of a meaning, of which the goal may write a term out. -/
theorem finish_bind_ok {α : Type} {x : Except Stop α} {a : α} {f : α → Res} {s : State} {t : Host.Outcome State Fault Refusal}
    (hx : x = .ok a) (h : finish (f a) s = t) : finish (x >>= f) s = t := by
  rw [bind_ok_eq hx]
  exact h

section
variable {s : State} {m : Mask} {h : DWord}

theorem handleOk_of_valid (hvalid : hValid h = true) : handleOk s m h = .ok () := by
  unfold handleOk
  rw [hvalid]
  exact trapIf_zero _ _

theorem rowsOk_of_below {row : Fin 32 → Nat} (hrows : ∀ l : Fin 32, m.getLsbD l.val = true → row l < hRows h) :
    rowsOk s m h row = .ok () := by
  have hnone : ((lanesOf m).filter fun l => decide (hRows h ≤ row l)) = [] := by
    rw [List.filter_eq_nil_iff]
    intro l hl
    have hlane : m.getLsbD l.val = true := (List.mem_filter.mp hl).2
    simpa using hrows l hlane
  unfold rowsOk
  rw [hnone]
  rfl

end

/-! ### WLINIT (R349) -/

section
variable {g : Guard} {k : Fin 8} {off rows : Operand} {kw : BitVec 6} {f32 : Bool} {s : State} {r : Reading} {m : Mask} {o n : Nat}

/-- The whole list that WLINIT writes. -/
def wlinitTouches (m : Mask) (h : DWord) (o n : Nat) : List WTouch := [⟨m, o, rowLen h * n, true⟩]

/-- The list written: its rows empty, its handle made. -/
def wlinitDone (m : Mask) (k : Fin 8) (h : DWord) (o n : Nat) (t : State) : State :=
  (touchRecord (wlinitTouches m h o n) ((List.range n).foldl (fun t i => putCbuf (rowOff h i) (rowBytesOf h 0 []) t) t)).updReg
    fun x => { x with k := x.k.set k h }

/-- The sizes and the place that WLINIT takes. -/
structure WlinitInOrder (s : State) (kw : BitVec 6) (o n : Nat) : Prop where
  width : kw ≠ 0
  narrow : kw.toNat ≤ 32
  some_ : 1 ≤ n
  few : n ≤ 4096
  aligned : o % 8 = 0
  inside : o + 8 * (kw.toNat + 1) * n ≤ s.curBlock.cbuf.size

theorem wlinitOp_of_inOrder (hdests : destCheck r [] s = .ok ()) (hin : WlinitInOrder s kw o n)
    (htouch : touchCheck s (wlinitTouches m (mkHandle f32 kw.toNat n o) o n) = .ok ()) :
    wlinitOp m k kw f32 o n r s = .ok (wlinitDone m k (mkHandle f32 kw.toNat n o) o n (written r [] s)) := by
  have hkw : ¬ (kw = 0 ∨ 32 < kw.toNat) := by
    rintro (h | h)
    · exact hin.width h
    · exact absurd hin.narrow (Nat.not_le.mpr h)
  have hrows : (n == 0 || decide (4096 < n)) = false := by
    rw [decide_eq_false (Nat.not_lt.mpr hin.few), Bool.or_false]
    exact beq_eq_false_iff_ne.mpr (Nat.ne_of_gt hin.some_)
  unfold wlinitOp
  rw [bind_ok_eq hdests, if_neg hkw, bind_ok_eq (trapIf_zero ..), bind_ok_eq (faultAt_of_false hrows),
    bind_ok_eq (faultAt_of_false (bne_eq_false_iff_eq.mpr hin.aligned)),
    bind_ok_eq (faultAt_of_false (decide_eq_false (Nat.not_lt.mpr hin.inside)))]
  change (touchCheck s (wlinitTouches m (mkHandle f32 kw.toNat n o) o n) >>= _) = _
  rw [bind_ok_eq htouch, bind_ok_eq (commit_ok hdests)]
  rfl

theorem execWlinit_of_inOrder {rowsM1 : BitVec 13} (h : Ready g [off] [opU off] [] s r) (hactive : s.active g ≠ 0)
    (hin : WlinitInOrder s kw (uval (s.active g) (r.w 0)).toNat (rowsM1.toNat + 1))
    (htouch : touchCheck s (wlinitTouches (s.active g)
      (mkHandle f32 kw.toNat (rowsM1.toNat + 1) (uval (s.active g) (r.w 0)).toNat)
      (uval (s.active g) (r.w 0)).toNat (rowsM1.toNat + 1)) = .ok ()) :
    execWlinit g k off kw f32 rowsM1 s = .next (advance (wlinitDone (s.active g) k
      (mkHandle f32 kw.toNat (rowsM1.toNat + 1) (uval (s.active g) (r.w 0)).toNat)
      (uval (s.active g) (r.w 0)).toNat (rowsM1.toNat + 1) (written r [] s))) := by
  unfold execWlinit
  dsimp only
  rw [bind_ok_eq h.issue, bind_ok_eq h.sources, if_neg hactive, wlinitOp_of_inOrder h.dests hin htouch]
  rfl

theorem execWlinitReg_of_inOrder (h : Ready g [off, rows] [opU off, opU rows] [] s r) (hactive : s.active g ≠ 0)
    (hin : WlinitInOrder s kw (uval (s.active g) (r.w 0)).toNat (uval (s.active g) (r.w 1)).toNat)
    (htouch : touchCheck s (wlinitTouches (s.active g)
      (mkHandle f32 kw.toNat (uval (s.active g) (r.w 1)).toNat (uval (s.active g) (r.w 0)).toNat)
      (uval (s.active g) (r.w 0)).toNat (uval (s.active g) (r.w 1)).toNat) = .ok ()) :
    execWlinitReg g k off kw f32 rows s = .next (advance (wlinitDone (s.active g) k
      (mkHandle f32 kw.toNat (uval (s.active g) (r.w 1)).toNat (uval (s.active g) (r.w 0)).toNat)
      (uval (s.active g) (r.w 0)).toNat (uval (s.active g) (r.w 1)).toNat (written r [] s))) := by
  unfold execWlinitReg
  dsimp only
  rw [bind_ok_eq h.issue, bind_ok_eq h.sources, if_neg hactive, wlinitOp_of_inOrder h.dests hin htouch]
  rfl

end

/-! ### WLTHR, WLRD, WLRDT, WLMRG and WLCLR (R350 to R353) -/

section
variable {g : Guard} {d row val : Operand} {k kd ks : Fin 8} {s : State} {r : Reading}

/-- The row that each lane names. -/
def wlRow (r : Reading) (l : Fin 32) : Nat := ((r.w 0)[l]).toNat

/-- Every active lane names a row of the list. -/
def RowsBelow (m : Mask) (h : DWord) (row : Fin 32 → Nat) : Prop := ∀ l : Fin 32, m.getLsbD l.val = true → row l < hRows h

/-- The seed that WLTHR gives a lane's row. -/
def wlthrSeed (max : Bool) (h : DWord) (r : Reading) (l : Fin 32) (hd : Nat) : Nat :=
  withSeed hd (if max && nbit hd 40 then higher (hFloat h) (w32 (nbits hd 0 32)) (r.w 1)[l] else (r.w 1)[l])

theorem execWlthr_of_valid {max : Bool} (h : Ready g [row, val] [opSrc row, opSrc val] [] s r) (hactive : s.active g ≠ 0)
    (hvalid : hValid (s.handle k) = true) (hrows : RowsBelow (s.active g) (s.handle k) (wlRow r))
    (htouch : touchCheck s (hdrTouches (s.active g) (s.handle k) (wlRow r)) = .ok ()) :
    execWlthr g k row val max s = .next (advance (touchRecord (hdrTouches (s.active g) (s.handle k) (wlRow r))
      (mapHeaders (s.active g) (s.handle k) (wlRow r) (wlthrSeed max (s.handle k) r) (written r [] s)))) := by
  unfold execWlthr
  dsimp only
  rw [bind_ok_eq h.issue, bind_ok_eq h.sources, if_neg hactive, bind_ok_eq h.dests, bind_ok_eq (handleOk_of_valid hvalid)]
  exact finish_bind_ok (rowsOk_of_below hrows) (finish_bind_ok htouch (finish_bind_ok (commit_ok h.dests) rfl))

theorem execWlthrClr_of_valid (h : Ready g [row] [opSrc row] [] s r) (hactive : s.active g ≠ 0)
    (hvalid : hValid (s.handle k) = true) (hrows : RowsBelow (s.active g) (s.handle k) (wlRow r))
    (htouch : touchCheck s (hdrTouches (s.active g) (s.handle k) (wlRow r)) = .ok ()) :
    execWlthrClr g k row s = .next (advance (touchRecord (hdrTouches (s.active g) (s.handle k) (wlRow r))
      (mapHeaders (s.active g) (s.handle k) (wlRow r) (fun _ hd => noSeed hd false) (written r [] s)))) := by
  unfold execWlthrClr
  dsimp only
  rw [bind_ok_eq h.issue, bind_ok_eq h.sources, if_neg hactive, bind_ok_eq h.dests, bind_ok_eq (handleOk_of_valid hvalid)]
  exact finish_bind_ok (rowsOk_of_below hrows) (finish_bind_ok htouch (finish_bind_ok (commit_ok h.dests) rfl))

/-- The place that WLRD reads in a lane's row. -/
def wlrdIdx (e : Fin 32) (lane : Bool) (l : Fin 32) : Nat := e.val + if lane then l.val else 0

def wlrdEnt (s : State) (h : DWord) (e : Fin 32) (lane : Bool) (r : Reading) (l : Fin 32) : WEnt :=
  ((readRow s.cbuf h (wlRow r l)).ents[wlrdIdx e lane l]?).getD (emptyEnt (hFloat h))

def wlrdPuts (d : Operand) (m : Mask) (s : State) (h : DWord) (e : Fin 32) (lane : Bool) (r : Reading) : List Put :=
  putPair d m (tab fun l => (wlrdEnt s h e lane r l).1) (tab fun l => (wlrdEnt s h e lane r l).2)

def wlrdTouches (m : Mask) (h : DWord) (e : Fin 32) (lane : Bool) (r : Reading) : List WTouch :=
  (lanesOf m).flatMap fun l => ⟨one_ l, rowOff h (wlRow r l), 8, false⟩ ::
    (if wlrdIdx e lane l < hKw h then [⟨one_ l, rowOff h (wlRow r l) + 8 + 8 * wlrdIdx e lane l, 8, false⟩] else [])

theorem execWlrd_of_valid {e : Fin 32} {lane : Bool}
    (h : Ready g [d, row] [opSrc row] (wlrdPuts d (s.active g) s (s.handle k) e lane r) s r) (hactive : s.active g ≠ 0)
    (hvalid : hValid (s.handle k) = true) (hrows : RowsBelow (s.active g) (s.handle k) (wlRow r))
    (htouch : touchCheck s (wlrdTouches (s.active g) (s.handle k) e lane r) = .ok ()) :
    execWlrd g d k row e lane s = .next (advance (touchRecord (wlrdTouches (s.active g) (s.handle k) e lane r)
      (written r (wlrdPuts d (s.active g) s (s.handle k) e lane r) s))) := by
  unfold execWlrd
  dsimp only
  rw [bind_ok_eq h.issue, bind_ok_eq h.sources, if_neg hactive, bind_ok_eq (handleOk_of_valid hvalid)]
  exact finish_bind_ok (rowsOk_of_below hrows) (finish_bind_ok h.dests (finish_bind_ok htouch
    (finish_bind_ok (commit_ok h.dests) rfl)))

def wlrdtWords (s : State) (h : DWord) (seed : Bool) (r : Reading) (l : Fin 32) : Word × Word :=
  thetaWords h seed (readRow s.cbuf h (wlRow r l))

def wlrdtPuts (d : Operand) (m : Mask) (s : State) (h : DWord) (seed : Bool) (r : Reading) : List Put :=
  putPair d m (tab fun l => (wlrdtWords s h seed r l).1) (tab fun l => (wlrdtWords s h seed r l).2)

def wlrdtTouches (m : Mask) (h : DWord) (seed : Bool) (r : Reading) : List WTouch :=
  (lanesOf m).flatMap fun l => ⟨one_ l, rowOff h (wlRow r l), 8, false⟩ ::
    (if seed then [] else [⟨one_ l, rowOff h (wlRow r l) + rowLen h - 8, 8, false⟩])

theorem execWlrdt_of_valid {seed : Bool}
    (h : Ready g [d, row] [opSrc row] (wlrdtPuts d (s.active g) s (s.handle k) seed r) s r) (hactive : s.active g ≠ 0)
    (hvalid : hValid (s.handle k) = true) (hrows : RowsBelow (s.active g) (s.handle k) (wlRow r))
    (htouch : touchCheck s (wlrdtTouches (s.active g) (s.handle k) seed r) = .ok ()) :
    execWlrdt g d k row seed s = .next (advance (touchRecord (wlrdtTouches (s.active g) (s.handle k) seed r)
      (written r (wlrdtPuts d (s.active g) s (s.handle k) seed r) s))) := by
  unfold execWlrdt
  dsimp only
  rw [bind_ok_eq h.issue, bind_ok_eq h.sources, if_neg hactive, bind_ok_eq (handleOk_of_valid hvalid)]
  exact finish_bind_ok (rowsOk_of_below hrows) (finish_bind_ok h.dests (finish_bind_ok htouch
    (finish_bind_ok (commit_ok h.dests) rfl)))

/-- The row that each lane merges from. -/
def wlmrgFrom (r : Reading) (soff : BitVec 13) (l : Fin 32) : Nat := wlRow r l + soff.toNat

def wlmrgTouches (m : Mask) (hd hs : DWord) (soff : BitVec 13) (r : Reading) : List WTouch :=
  (lanesOf m).flatMap fun l =>
    [⟨one_ l, rowOff hs (wlmrgFrom r soff l), rowLen hs, false⟩, ⟨one_ l, rowOff hd (wlRow r l), rowLen hd, true⟩]

theorem execWlmrg_of_valid {soff : BitVec 13} (h : Ready g [row] [opSrc row] [] s r) (hactive : s.active g ≠ 0)
    (hinto : hValid (s.handle kd) = true) (hfrom : hValid (s.handle ks) = true)
    (hscore : hFloat (s.handle kd) = hFloat (s.handle ks)) (hrows : RowsBelow (s.active g) (s.handle kd) (wlRow r))
    (hrowsFrom : RowsBelow (s.active g) (s.handle ks) (wlmrgFrom r soff))
    (htouch : touchCheck s (wlmrgTouches (s.active g) (s.handle kd) (s.handle ks) soff r) = .ok ()) :
    execWlmrg g kd ks row soff s = .next (advance (touchRecord
      (wlmrgTouches (s.active g) (s.handle kd) (s.handle ks) soff r) ((lanesOf (s.active g)).foldl
        (fun t l => mergeRow (s.handle kd) (wlRow r l) (s.handle ks) (wlmrgFrom r soff l) t) (written r [] s)))) := by
  unfold execWlmrg
  dsimp only
  rw [bind_ok_eq h.issue, bind_ok_eq h.sources, if_neg hactive, bind_ok_eq h.dests, bind_ok_eq (handleOk_of_valid hinto),
    bind_ok_eq (handleOk_of_valid hfrom), if_pos hscore, bind_ok_eq (trapIf_zero ..)]
  exact finish_bind_ok (rowsOk_of_below hrows) (finish_bind_ok (rowsOk_of_below hrowsFrom) (finish_bind_ok htouch
    (finish_bind_ok (commit_ok h.dests) rfl)))

def wlclrTouches (m : Mask) (h : DWord) (r : Reading) : List WTouch :=
  (lanesOf m).map fun l => ⟨one_ l, rowOff h (wlRow r l), rowLen h, true⟩

theorem execWlclr_row {seed : Bool} (h : Ready g (opsOf .zero [opSrc row]) [opSrc row] [] s r) (hactive : s.active g ≠ 0)
    (hvalid : hValid (s.handle k) = true) (hrows : RowsBelow (s.active g) (s.handle k) (wlRow r))
    (htouch : touchCheck s (wlclrTouches (s.active g) (s.handle k) r) = .ok ()) :
    execWlclr g k (some row) seed s = .next (advance (touchRecord (wlclrTouches (s.active g) (s.handle k) r)
      ((lanesOf (s.active g)).foldl (fun t l => clearRow (s.handle k) seed (wlRow r l) t) (written r [] s)))) := by
  unfold execWlclr
  simp only [rowSpec, Option.isSome_some, ↓reduceIte]
  rw [bind_ok_eq h.issue, bind_ok_eq h.sources, if_neg hactive, bind_ok_eq h.dests, bind_ok_eq (handleOk_of_valid hvalid)]
  refine finish_bind_ok (rowsOk_of_below hrows) (finish_bind_ok htouch (finish_bind_ok (commit_ok h.dests) ?_))
  rw [List.foldl_map]
  rfl

/-- The whole list that WLCLR writes. -/
def wlclrAll (m : Mask) (h : DWord) : List WTouch := [⟨m, hOff h, rowLen h * hRows h, true⟩]

theorem execWlclr_list {seed : Bool} (h : Ready g (opsOf .zero []) [] [] s r) (hactive : s.active g ≠ 0)
    (hvalid : hValid (s.handle k) = true) (htouch : touchCheck s (wlclrAll (s.active g) (s.handle k)) = .ok ()) :
    execWlclr g k none seed s = .next (advance (touchRecord (wlclrAll (s.active g) (s.handle k))
      ((List.range (hRows (s.handle k))).foldl (fun t i => clearRow (s.handle k) seed i t) (written r [] s)))) := by
  unfold execWlclr
  simp only [rowSpec, Option.isSome_none, Bool.false_eq_true, ↓reduceIte]
  rw [bind_ok_eq h.issue, bind_ok_eq h.sources, if_neg hactive, bind_ok_eq h.dests, bind_ok_eq (handleOk_of_valid hvalid)]
  exact finish_bind_ok htouch (finish_bind_ok (commit_ok h.dests) rfl)

end

/-- The obligation writes a header's seeded bit and seed from its bits. -/
theorem wlthrSeed_eq (max : Bool) (h : DWord) (r : Reading) : wlthrSeed max h r = fun l hd =>
    withSeed hd (if max && hd.testBit 40 then higher (hFloat h) (BitVec.ofNat 32 hd) (r.w 1)[l] else (r.w 1)[l]) := by
  funext l hd
  have hbit : nbit hd 40 = hd.testBit 40 := by
    rw [Nat.testBit_eq_decide_div_mod_eq]
    rfl
  have hseed : w32 (nbits hd 0 32) = BitVec.ofNat 32 hd := by
    apply BitVec.eq_of_toNat_eq
    simp [w32, nbits]
  unfold wlthrSeed
  rw [hbit, hseed]

/-- Settles O36: valid handles, rows of the list and free bytes pass the checks, and the instruction does its one step. -/
theorem winnerListsComplete : Obligations.WinnerListsComplete := by
  refine ⟨?_, ?_, ?_, fun g k row s r => execWlthrClr_of_valid, fun g d k row e lane s r => execWlrd_of_valid,
    fun g d k row seed s r => execWlrdt_of_valid, ?_, fun g k row seed s r => execWlclr_row,
    fun g k seed s r => execWlclr_list⟩
  · intro g k off kw f32 rowsM1 s r o n h ts hready hactive hwidth hnarrow hfew haligned hinside
    exact execWlinit_of_inOrder hready hactive ⟨hwidth, hnarrow, Nat.le_add_left 1 _, hfew, haligned, hinside⟩
  · intro g k off kw f32 rows s r o n h ts hready hactive hwidth hnarrow hsome hfew haligned hinside
    exact execWlinitReg_of_inOrder hready hactive ⟨hwidth, hnarrow, hsome, hfew, haligned, hinside⟩
  · intro g k row val max s r h at_ ts hready hactive hvalid hrows htouch
    rw [← wlthrSeed_eq]
    exact execWlthr_of_valid hready hactive hvalid hrows htouch
  · intro g kd ks row soff s r hd hs into ts hready hactive hinto hfrom hscore hrows
    exact execWlmrg_of_valid hready hactive hinto hfrom hscore (fun l hl => (hrows l hl).1) fun l hl => (hrows l hl).2

end Sys2Proof.Machine
end

section
/-!
PROOFS. The entries of a merged row (R327 to R329).
-/

namespace Sys2Proof.Machine

-- The whole text is compiled in one process under a memory limit: elaborate one proof after the other.
set_option Elab.async false

/-! ### An entry's number -/

theorem key32_bit (x : Word) {i : Nat} (hi : i < 32) : (key32 x).getLsbD i =
    if x.getLsbD 31 then !x.getLsbD i else x.getLsbD i || (0x80000000#32).getLsbD i := by
  unfold key32
  split
  · rw [BitVec.getLsbD_not, decide_eq_true hi, Bool.true_and]
  · exact BitVec.getLsbD_or

/-- A key's top bit is the score's sign, turned over. -/
theorem key32_sign (x : Word) : (key32 x).getLsbD 31 = !x.getLsbD 31 := by
  rw [key32_bit x (by decide)]
  cases x.getLsbD 31 <;> rfl

theorem key32_injective : Function.Injective key32 := by
  intro x y h
  have hsign : x.getLsbD 31 = y.getLsbD 31 := by
    have := congrArg (BitVec.getLsbD · 31) h
    simpa only [key32_sign, Bool.not_inj_iff] using this
  unfold key32 at h
  rw [← hsign] at h
  cases hx : x.getLsbD 31
  · rw [if_neg (hx ▸ Bool.false_ne_true), if_neg (hx ▸ Bool.false_ne_true)] at h
    apply BitVec.eq_of_getLsbD_eq
    intro i hi
    by_cases hlast : i = 31
    · rw [hlast, hsign]
    · have hclear : (0x80000000#32).getLsbD i = false := by
        have := Nat.lt_of_le_of_ne (Nat.le_of_lt_succ hi) hlast
        interval_cases i <;> rfl
      simpa [hclear] using congrArg (BitVec.getLsbD · i) h
  · rw [if_pos hx, if_pos hx] at h
    exact BitVec.not_inj.mp h

theorem scoreKey_lt (f : Bool) (x : Word) : scoreKey f x < 2 ^ 32 := by
  cases f
  · exact (x ^^^ 0x80000000#32).isLt
  · exact (key32 x).isLt

theorem scoreKey_injective (f : Bool) : Function.Injective (scoreKey f) := by
  intro x y h
  cases f
  · exact (BitVec.xor_left_inj _).mp (BitVec.eq_of_toNat_eq h)
  · exact key32_injective (BitVec.eq_of_toNat_eq h)

theorem entRank_injective (f : Bool) : Function.Injective (entRank f) := by
  rintro ⟨a, i⟩ ⟨b, j⟩ h
  have ha := scoreKey_lt f a
  have hb := scoreKey_lt f b
  have hi : i.toNat < 2 ^ 32 := i.isLt
  have hj : j.toNat < 2 ^ 32 := j.isLt
  simp only [entRank] at h
  have hscore : scoreKey f a = scoreKey f b := by omega
  have hindex : i.toNat = j.toNat := by omega
  rw [scoreKey_injective f hscore, BitVec.eq_of_toNat_eq hindex]

/-! ### Sorting -/

/-- In the order of R328, no entry twice. -/
def EntsSorted (f : Bool) (l : List WEnt) : Prop := l.Pairwise fun a b => entRank f a < entRank f b

theorem mem_insertEnt {f : Bool} {x e : WEnt} {l : List WEnt} : e ∈ insertEnt f x l ↔ e = x ∨ e ∈ l := by
  induction l with
  | nil => simp [insertEnt]
  | cons y t ih =>
    unfold insertEnt
    split
    · exact List.mem_cons
    split
    · next heq =>
      rw [entRank_injective f heq]
      exact (or_iff_right_of_imp fun h => List.mem_cons.mpr (Or.inl h)).symm
    · rw [List.mem_cons, ih, List.mem_cons]
      exact or_left_comm

theorem insertEnt_sorted {f : Bool} {x : WEnt} {l : List WEnt} (h : EntsSorted f l) : EntsSorted f (insertEnt f x l) := by
  induction l with
  | nil => exact List.pairwise_singleton ..
  | cons y t ih =>
    obtain ⟨hy, ht⟩ := List.pairwise_cons.mp h
    unfold insertEnt
    split
    · next hlt =>
      refine List.pairwise_cons.mpr ⟨fun z hz => ?_, h⟩
      rcases List.mem_cons.mp hz with rfl | hz
      · exact hlt
      · exact hlt.trans (hy z hz)
    split
    · exact h
    · next hnlt hne =>
      refine List.pairwise_cons.mpr ⟨fun z hz => ?_, ih ht⟩
      rcases mem_insertEnt.mp hz with rfl | hz
      · exact lt_of_le_of_ne (not_lt.mp hnlt) (Ne.symm hne)
      · exact hy z hz

theorem mem_sortEnts {f : Bool} {e : WEnt} {l : List WEnt} : e ∈ sortEnts f l ↔ e ∈ l := by
  induction l with
  | nil => simp [sortEnts]
  | cons y t ih => exact mem_insertEnt.trans ((or_congr_right ih).trans List.mem_cons.symm)

theorem sortEnts_sorted (f : Bool) (l : List WEnt) : EntsSorted f (sortEnts f l) := by
  induction l with
  | nil => exact List.Pairwise.nil
  | cons y t ih => exact insertEnt_sorted ih

/-- An entry of a sorted list that the first n leave out comes after each of them. -/
theorem EntsSorted.left_out {f : Bool} {l : List WEnt} (h : EntsSorted f l) {n : Nat} {e : WEnt} (he : e ∈ l)
    (hout : e ∉ l.take n) : (l.take n).length = n ∧ ∀ x ∈ l.take n, entRank f x < entRank f e := by
  have hdrop : e ∈ l.drop n := by
    rw [← List.take_append_drop n l] at he
    exact (List.mem_append.mp he).resolve_left hout
  refine ⟨?_, fun x hx => ?_⟩
  · rw [List.length_take]
    have := List.length_pos_of_mem hdrop
    rw [List.length_drop] at this
    omega
  · unfold EntsSorted at h
    rw [← List.take_append_drop n l, List.pairwise_append] at h
    exact h.2.2 x hx e hdrop

/-! ### Merging -/

/-- An entry of the row, or an incoming one that its seed lets pass (R329). -/
def MergeCandidate (h : DWord) (row : WRow) (inc : List WEnt) (e : WEnt) : Prop :=
  e ∈ row.ents ∨ e ∈ inc ∧ (row.seeded = true → scoreKey (hFloat h) row.seed ≤ scoreKey (hFloat h) e.1)

/-- All the candidates in order. -/
def mergedAll (h : DWord) (row : WRow) (inc : List WEnt) : List WEnt :=
  sortEnts (hFloat h) (row.ents ++ inc.filter fun e =>
    !row.seeded || decide (scoreKey (hFloat h) row.seed ≤ scoreKey (hFloat h) e.1))

theorem mem_mergedAll {h : DWord} {row : WRow} {inc : List WEnt} {e : WEnt} :
    e ∈ mergedAll h row inc ↔ MergeCandidate h row inc e := by
  unfold mergedAll MergeCandidate
  rw [mem_sortEnts, List.mem_append, List.mem_filter]
  cases row.seeded <;> simp

/-- Settles O37: a merge takes the first kw of the candidates in order. -/
theorem mergeKeepsBest : Obligations.MergeKeepsBest := by
  intro h row inc f out
  have hout : out = (mergedAll h row inc).take (hKw h) := rfl
  have hsorted : EntsSorted f (mergedAll h row inc) := sortEnts_sorted _ _
  rw [hout]
  exact ⟨List.length_take_le _ _, hsorted.sublist (List.take_sublist _ _),
    fun e he => mem_mergedAll.mp (List.mem_of_mem_take he),
    fun e he hleft => hsorted.left_out (mem_mergedAll.mpr he) hleft⟩

end Sys2Proof.Machine
end

section
/-!
PROOFS. Norms, rotations and attention (R354, R368, R376, R378, R379, R382).
-/

namespace Sys2Proof.Machine

-- The whole text is compiled in one process under a memory limit: elaborate one proof after the other.
set_option Elab.async false

/-! ### NORMB and ROTQ (R354, R379) -/

section
variable {g : Guard} {d : Dst} {a b : Src} {sin : Bool} {s : State} {r : Reading}

/-- The norm of the active lanes' elements, with its events. -/
def normbOf (g : Guard) (s : State) (r : Reading) (kd : NormKind) : Word × Flags :=
  normbW kd ((lanesOf (s.active g)).flatMap fun l => [(r.w 0)[l], (r.w 1)[l]])

/-- The sources of NORMB. -/
def normbSpecs (a b : Src) (kd : NormKind) : List SrcSpec := if kd = .int then [srcI a, srcI b] else [srcF a, srcF b]

theorem execNormb_of_ready {kd : NormKind} (h : Ready g (opsOf d.op (normbSpecs a b kd)) (normbSpecs a b kd)
      [putOf d (s.active g) (splat (normbOf g s r kd).1)] s r) :
    execNormb g d a b kd s = .next (advance (onActive g s (setFlags (normbOf g s r kd).2)
      (written r [putOf d (s.active g) (splat (normbOf g s r kd).1)] s))) := by
  unfold execNormb
  exact finish_bind_ok h.issue (finish_bind_ok h.sources (finish_bind_ok (commit_ok h.dests) rfl))

/-- A lane's rotation, with its events. -/
def rotqOf (sin : Bool) (r : Reading) (l : Fin 32) : Word × Flags := rotary sin ((r.w 0)[l]).toNat (r.w 1)[l]

def rotqPuts (d : Dst) (g : Guard) (s : State) (sin : Bool) (r : Reading) : List Put :=
  [putOf d (s.active g) (tab fun l => (rotqOf sin r l).1)]

/-- The lanes of a position of 2^24 or more. -/
def rotqFar (g : Guard) (s : State) (r : Reading) : Mask :=
  s.active g &&& maskOf fun l => decide (2 ^ 24 ≤ ((r.w 0)[l]).toNat)

theorem rotqFar_bit (l : Fin 32) : (rotqFar g s r).getLsbD l.val =
    ((s.active g).getLsbD l.val && decide (2 ^ 24 ≤ ((r.w 0)[l]).toNat)) := by
  unfold rotqFar
  rw [and_maskOf]
  exact has_maskOf _ l

theorem mask_ext {m n : Mask} (h : ∀ l : Fin 32, m.getLsbD l.val = n.getLsbD l.val) : m = n :=
  BitVec.eq_of_getLsbD_eq fun i hi => h ⟨i, hi⟩

/-- ROTQ once its sources are read and its destination is in order: a lane too far, or the rotations. -/
theorem execRotq_of_ready (h : Ready g (opsOf d.op [srcI a, srcF b]) [srcI a, srcF b] (rotqPuts d g s sin r) s r) :
    execRotq g d a b sin s = finish (do
      trapIf s Kind.positionRange (rotqFar g s r)
      pure (setFlags (flagsOn (s.active g) fun l => (rotqOf sin r l).2) (written r (rotqPuts d g s sin r) s))) s := by
  unfold execRotq
  dsimp only
  rw [bind_ok_eq h.issue, bind_ok_eq h.sources]
  simp only [tab_get]
  change finish (destCheck r (rotqPuts d g s sin r) s >>= fun _ => trapIf s Kind.positionRange (rotqFar g s r) >>= fun _ =>
    commit r (rotqPuts d g s sin r) s >>= _) s = _
  rw [bind_ok_eq h.dests, commit_ok h.dests]
  rfl

theorem execRotq_near (h : Ready g (opsOf d.op [srcI a, srcF b]) [srcI a, srcF b] (rotqPuts d g s sin r) s r)
    (hnear : ∀ l : Fin 32, (s.active g).getLsbD l.val = true → ((r.w 0)[l]).toNat < 2 ^ 24) :
    execRotq g d a b sin s =
      .next (advance (setFlags (flagsOn (s.active g) fun l => (rotqOf sin r l).2) (written r (rotqPuts d g s sin r) s))) := by
  have hnone : rotqFar g s r = 0 := by
    refine mask_ext fun l => ?_
    rw [rotqFar_bit, show (0 : Mask).getLsbD l.val = false from BitVec.getLsbD_zero]
    cases hl : (s.active g).getLsbD l.val
    · rfl
    · exact decide_eq_false (Nat.not_le.mpr (hnear l hl))
  rw [execRotq_of_ready h, hnone, bind_ok_eq (trapIf_zero ..)]
  rfl

theorem execRotq_far {m : Mask} (h : Ready g (opsOf d.op [srcI a, srcF b]) [srcI a, srcF b] (rotqPuts d g s sin r) s r)
    (hm : m ≠ 0) (hfar : ∀ l : Fin 32, m.getLsbD l.val = ((s.active g).getLsbD l.val && decide (2 ^ 24 ≤ ((r.w 0)[l]).toNat))) :
    execRotq g d a b sin s = .next (raiseTrap (s.trapReq 0x13 m) s) := by
  have hsome : rotqFar g s r = m := mask_ext fun l => (rotqFar_bit l).trans (hfar l).symm
  rw [execRotq_of_ready h, hsome, bind_error_eq (trapIf_some hm)]
  rfl

end

theorem normsAndRotationsComplete : Clause.NormsAndRotationsComplete :=
  ⟨fun _ _ _ _ _ _ _ => execNormb_of_ready, fun _ _ _ _ _ _ _ => execRotq_near, fun _ _ _ _ _ _ _ _ => execRotq_far⟩

/-! ### ATTN (R368, R378) -/

section
variable {g : Guard} {d off : Operand} {s : State} {r : Reading} {o : Nat}

/-- The record and its slab. -/
def attnFields (s : State) (o : Nat) : AttnF := AttnF.of (s.curBlock.abuf.data.readN o 64)
def attnSlab (s : State) (o : Nat) : Slab := (s.curBlock.eng.kv[(attnFields s o).kv]?).getD Slab.reset

/-- The number that it takes on tl2. -/
def attnNumber (s : State) : DWord := s.curBlock.eng.tl[2].enq + 1

/-- The word of that number, where ATTN has a destination. -/
def attnPuts (d : Operand) (g : Guard) (s : State) : List Put := putAll d (s.active g) (lo32 (attnNumber s))

/-- The state in which the record stands in its core's queue. -/
def attnQueued (o : Nat) (s t : State) : State :=
  (engReadBuf s.cur.blk false (engAgent s.curBlock 2 (attnNumber s)) o 64 (enqueue 2 1 t)).updBody s.curCore fun x =>
    { x with attn := x.attn ++ [{ blk := s.cur.blk, off := o, num := attnNumber s
                                  bytes := s.curBlock.abuf.data.readN o 64, slab := attnSlab s o
                                  stale := (attnSlab s o).hasStale (attnFields s o).t0 (attnFields s o).t1, pages := [] }] }

theorem execAttn_of_room (h : Ready g [d, off] [opU off] (attnPuts d g s) s r) (hactive : s.active g ≠ 0)
    (hplace : recordAt64 s (s.active g) (uval (s.active g) (r.w 0)).toNat = .ok o)
    (hok : attnOk s.curBlock (attnSlab s o) (attnFields s o) = true)
    (hpos : (attnSlab s o).posOk (attnFields s o).t0 (attnFields s o).t1 = true)
    (hroom : (s.core s.curCore).body.attn.length <
      16 + ((s.core s.curCore).body.attnRun.any fun r => r.holds).toNat) :
    execAttn g d off s = .next (advance (attnQueued o s (written r (attnPuts d g s) s))) := by
  have hrecord : (!attnOk s.curBlock (attnSlab s o) (attnFields s o)) = false := by
    rw [hok]
    rfl
  have hfits : trapIf s Kind.positionRange
      (if (attnSlab s o).posOk (attnFields s o).t0 (attnFields s o).t1 then 0 else s.active g) = .ok () := by
    rw [if_pos hpos]
    exact trapIf_zero _ _
  unfold execAttn
  dsimp only
  rw [bind_ok_eq h.issue, bind_ok_eq h.sources, if_neg hactive]
  exact finish_bind_ok h.dests (finish_bind_ok hplace (finish_bind_ok (faultAt_of_false hrecord) (finish_bind_ok hfits
    (finish_bind_ok (stallIf_of_false (decide_eq_false (Nat.not_le.mpr hroom))) (finish_bind_ok (commit_ok h.dests) rfl)))))

end

/-! ### SMERGE (R376, R382) -/

section
variable {g : Guard} {d a : Operand} {rowsM1 : BitVec 7} {s : State} {r : Reading} {m : Mask} {o n : Nat}

theorem softRange_of_inside (haligned : o % 8 = 0) (hlimit : o < 2 ^ 18) (hinside : o + n ≤ s.curBlock.cbuf.size) :
    softRange s m o n = .ok () := by
  have hbounds : (decide (2 ^ 18 ≤ o) || decide (s.curBlock.cbuf.size < o + n)) = false := by
    rw [decide_eq_false (Nat.not_le.mpr hlimit), decide_eq_false (Nat.not_lt.mpr hinside)]
    rfl
  unfold softRange
  rw [bind_ok_eq (faultAt_of_false (bne_eq_false_iff_eq.mpr haligned)), hbounds]
  rfl

theorem overlaps_of_apart {a n b m : Nat} (h : a + n ≤ b ∨ b + m ≤ a) : overlaps a n b m = false := by
  unfold overlaps
  rcases h with h | h
  · rw [decide_eq_false (Nat.not_lt.mpr h), Bool.and_false]
  · rw [decide_eq_false (Nat.not_lt.mpr h), Bool.false_and]

/-- The dimension of a head. -/
def headDim (hd : Bool) : Nat := if hd then 128 else 64

/-- One row of an SMERGE, with the events so far. -/
def smergeRow (od os dim : Nat) (acc : State × Flags) (i : Nat) : State × Flags :=
  let x := mergeSoft (readSoft acc.1.cbuf (od + i * stateRow dim) dim) (readSoft acc.1.cbuf (os + i * stateRow dim) dim)
  (putCbuf (od + i * stateRow dim) x.1.bytes acc.1, acc.2.or x.2)

/-- The same of its form that divides by the sums. -/
def smergeFinRow (rm : Rm) (od dim : Nat) (acc : State × Flags) (i : Nat) : State × Flags :=
  let x := finishSoft rm (readSoft acc.1.cbuf (od + i * stateRow dim) dim)
  (putCbuf (od + i * stateRow dim) x.1.bytes acc.1, acc.2.or x.2)

/-- The bytes of SMERGE's rows. -/
def smergeSize (rowsM1 : BitVec 7) (hd : Bool) : Nat := (rowsM1.toNat + 1) * stateRow (headDim hd)

theorem execSmerge_of_inside {hd : Bool} {od os : Nat} {x : State × Flags}
    (hod : od = (uval (s.active g) (r.w 0)).toNat) (hos : os = (uval (s.active g) (r.w 1)).toNat)
    (h : Ready g [d, a] [opU d, opU a] [] s r) (hactive : s.active g ≠ 0)
    (hto : softRange s (s.active g) od (smergeSize rowsM1 hd) = .ok ())
    (hfrom : softRange s (s.active g) os (smergeSize rowsM1 hd) = .ok ())
    (hapart : od = os ∨ od + smergeSize rowsM1 hd ≤ os ∨ os + smergeSize rowsM1 hd ≤ od)
    (htouch : touchCheck s [⟨s.active g, os, smergeSize rowsM1 hd, false⟩, ⟨s.active g, od, smergeSize rowsM1 hd, true⟩] = .ok ())
    (hx : x = (List.range (rowsM1.toNat + 1)).foldl (smergeRow od os (headDim hd)) (written r [] s, {})) :
    execSmerge g d a rowsM1 hd s = .next (advance (setFlags x.2 (touchRecord
      [⟨s.active g, os, smergeSize rowsM1 hd, false⟩, ⟨s.active g, od, smergeSize rowsM1 hd, true⟩] x.1))) := by
  subst hod hos hx
  have hdistinct : trapIf s Kind.descriptor (if (uval (s.active g) (r.w 0)).toNat != (uval (s.active g) (r.w 1)).toNat &&
      overlaps (uval (s.active g) (r.w 0)).toNat (smergeSize rowsM1 hd) (uval (s.active g) (r.w 1)).toNat
        (smergeSize rowsM1 hd) then s.active g else 0) = .ok () := by
    rcases hapart with heq | hapart
    · rw [heq, bne_self_eq_false, Bool.false_and, if_neg Bool.false_ne_true]
      exact trapIf_zero _ _
    · rw [overlaps_of_apart hapart, Bool.and_false, if_neg Bool.false_ne_true]
      exact trapIf_zero _ _
  unfold execSmerge
  dsimp only
  rw [bind_ok_eq h.issue, bind_ok_eq h.sources, if_neg hactive]
  exact finish_bind_ok h.dests (finish_bind_ok hto (finish_bind_ok hfrom (finish_bind_ok hdistinct (finish_bind_ok htouch
    (finish_bind_ok (commit_ok h.dests) rfl)))))

theorem execSmergeFin_of_inside {hd : Bool} {rm : Rm} {od : Nat} {x : State × Flags}
    (hod : od = (uval (s.active g) (r.w 0)).toNat)
    (h : Ready g [d] [opU d] [] s r) (hactive : s.active g ≠ 0)
    (hto : softRange s (s.active g) od (smergeSize rowsM1 hd) = .ok ())
    (htouch : touchCheck s [⟨s.active g, od, smergeSize rowsM1 hd, true⟩] = .ok ())
    (hx : x = (List.range (rowsM1.toNat + 1)).foldl (smergeFinRow rm od (headDim hd)) (written r [] s, {})) :
    execSmergeFin g d rowsM1 hd rm s = .next (advance (setFlags x.2 (touchRecord
      [⟨s.active g, od, smergeSize rowsM1 hd, true⟩] x.1))) := by
  subst hod hx
  unfold execSmergeFin
  dsimp only
  rw [bind_ok_eq h.issue, bind_ok_eq h.sources, if_neg hactive]
  exact finish_bind_ok h.dests (finish_bind_ok hto (finish_bind_ok htouch (finish_bind_ok (commit_ok h.dests) rfl)))

end

theorem attentionInstructionsComplete : Clause.AttentionInstructionsComplete := by
  refine ⟨?_, ?_, ?_⟩
  · intro g d off s r o b num puts bs a k h hactive hplace hok hpos hroom
    have hholds : (if (s.core s.curCore).body.attnRun.any (fun r => r.holds) then 1 else 0) =
        ((s.core s.curCore).body.attnRun.any fun r => r.holds).toNat := by
      cases (s.core s.curCore).body.attnRun.any fun r => r.holds <;> rfl
    rw [hholds] at hroom
    exact execAttn_of_room h hactive hplace hok hpos hroom
  · intro g d a rowsM1 hd s r dim row n od os ts h hactive hod hos hodLimit hosLimit hodInside hosInside hapart htouch
    exact ⟨_, _, execSmerge_of_inside rfl rfl h hactive (softRange_of_inside hod hodLimit hodInside)
      (softRange_of_inside hos hosLimit hosInside) hapart htouch rfl, rfl⟩
  · intro g d rowsM1 hd rm s r dim row n od ts h hactive hod hodLimit hodInside htouch
    exact ⟨_, _, execSmergeFin_of_inside rfl h hactive (softRange_of_inside hod hodLimit hodInside) htouch rfl, rfl⟩

/-- Settles O39: the instructions pass their checks in turn, and then do their one step. -/
theorem normsRotationsAttention : Obligations.NormsRotationsAttention :=
  ⟨normsAndRotationsComplete, attentionInstructionsComplete⟩

end Sys2Proof.Machine
end

section
/-!
PROOFS. Slab registers, growth and splices (R357, R359, R380, R381, R383).
-/

namespace Sys2Proof.Machine

-- The whole text is compiled in one process under a memory limit: elaborate one proof after the other.
set_option Elab.async false

/-- An update of a slab register that the block has. -/
theorem setSlab_eq (u : Nat) (n : Fin 8) (f : Slab → Slab) (s : State) :
    setSlab u n f s = s.updEng u fun e => { e with kv := e.kv.set n (f e.kv[n]) } := by
  unfold setSlab
  simp only [vmod_eq _ _ _ n.isLt]
  rfl

section
variable {g : Guard} {d off len base first delta : Operand} {n e : Fin 8} {s s1 : State} {r : Reading}

/-! ### KVSLAB (R357, R380) -/

theorem execKvslab_of_record {bs : List (List Byte)} {k : Slab} (h : Ready g [off] [opU off] [] s r) (hactive : s.active g ≠ 0)
    (haligned : (uval (s.active g) (r.w 0)).toNat % 16 = 0) (hlimit : (uval (s.active g) (r.w 0)).toNat < 2 ^ 20)
    (hload : loadBuf r.st false true (uniReq (s.active g) 16 (w64 (uval (s.active g) (r.w 0)).toNat)) = .ok (bs, s1))
    (hparse : parseSlab (bs.head?.getD []) = some k) (hidle : (s.slab n).growing = false) :
    execKvslab g n off s = .next (advance (setSlab s.cur.blk n (fun _ => k) (written { r with st := s1 } [] s))) := by
  unfold execKvslab
  dsimp only
  rw [bind_ok_eq h.issue, bind_ok_eq h.sources, if_neg hactive, bind_ok_eq h.dests,
    bind_ok_eq (faultAt_of_false (bne_eq_false_iff_eq.mpr haligned)),
    bind_ok_eq (faultAt_of_false (decide_eq_false (Nat.not_le.mpr hlimit))), bind_ok_eq hload]
  dsimp only
  rw [hparse]
  exact finish_bind_ok (stallIf_of_false hidle) (finish_bind_ok (commit_ok h.dests) rfl)

theorem execKvslabLen_of_fits (h : Ready g [len] [opU len] [] s r) (hactive : s.active g ≠ 0) (hvalid : (s.slab n).valid = true)
    (hfits : (uval (s.active g) (r.w 0)).toNat ≤ 2 ^ ((s.slab n).lg + (s.slab n).growing.toNat)) :
    execKvslabLen g n len s = .next (advance (setSlab s.cur.blk n
      (fun k => { k with len := (uval (s.active g) (r.w 0)).toNat }) (written r [] s))) := by
  unfold execKvslabLen
  dsimp only
  rw [bind_ok_eq h.issue, bind_ok_eq h.sources, if_neg hactive, bind_ok_eq h.dests, hvalid, decide_eq_true hfits,
    Bool.true_and, if_pos rfl, bind_ok_eq (trapIf_zero ..), bind_ok_eq (commit_ok h.dests)]
  rfl

theorem execKvslabRd_of_ready
    (h : Ready g [d] [] [⟨d, 0, s.active g, splat (if (s.slab n).valid then w32 (s.slab n).len else 0xFFFFFFFF#32)⟩] s r) :
    execKvslabRd g d n s = .next (advance (written r
      [⟨d, 0, s.active g, splat (if (s.slab n).valid then w32 (s.slab n).len else 0xFFFFFFFF#32)⟩] s)) := by
  unfold execKvslabRd
  dsimp only
  rw [bind_ok_eq h.issue, bind_ok_eq h.sources, commit_ok h.dests]
  rfl

/-! ### KVGROW (R381) -/

/-- The new base that KVGROW takes. -/
def growBase (g : Guard) (s : State) (r : Reading) : Nat := (Rd.pair (r.at 0) ((lowest (s.active g)).getD 0)).toNat

/-- The word of its request's number, where KVGROW has a destination. -/
def growPuts (d : Operand) (g : Guard) (s : State) : List Put := putAll d (s.active g) (lo32 (s.curBlock.eng.tl[0].enq + 1))

/-- A slab and a base that KVGROW takes. -/
structure GrowInOrder (g : Guard) (n : Fin 8) (s : State) (r : Reading) : Prop where
  valid : (s.slab n).valid = true
  length : (s.slab n).lg ≤ 22
  size : 2 ^ (s.slab n).lg * (s.slab n).eb ≤ 2 ^ 30
  base : growBase g s r % 65536 = 0

/-- KVGROW's request written, numbered and kicked. -/
def growKicked (g : Guard) (n : Fin 8) (fw : Fin 4) (c : Fin 16) (r : Reading) (s t : State) : State :=
  (setSlab s.cur.blk n (fun k => { k with link := some fw, growing := true })
    (enqueue 0 1 (engWriteBuf s.cur.blk false (engAgent s.curBlock 0 (s.curBlock.eng.tl[0].enq + 1))
      (uval (s.active g) (r.w 1)).toNat
      (growRequest (s.slab n).base (growBase g s r) (2 ^ (s.slab n).lg * (s.slab n).eb) fw c) t))).updBody s.curCore
    fun x => { x with kicks := x.kicks ++
      [⟨.blk s.cur.blk, (uval (s.active g) (r.w 1)).toNat, s.curBlock.eng.tl[0].enq + 1, 1, some (n, growBase g s r)⟩] }

theorem execKvgrow_of_room {fw : Fin 4} {c : Fin 16}
    (h : Ready g [d, base, off] [{ op := base, n := 2, uni := true }, opU off] (growPuts d g s) s r) (hactive : s.active g ≠ 0)
    (hin : GrowInOrder g n s r) (haligned : (uval (s.active g) (r.w 1)).toNat % 32 = 0)
    (hlimit : (uval (s.active g) (r.w 1)).toNat < 2 ^ 20)
    (hinside : (uval (s.active g) (r.w 1)).toNat + 32 ≤ s.curBlock.abuf.size)
    (hacq : s.curWarp.acquiring s.cur.split = false) (hidle : (s.slab n).growing = false)
    (hroom : (s.core s.curCore).body.kicks.length < 32) :
    execKvgrow g d n base off fw c s = .next (advance (growKicked g n fw c r s (written r (growPuts d g s) s))) := by
  have horder : trapIf s Kind.descriptor (if (s.slab n).valid && decide ((s.slab n).lg ≤ 22) &&
      decide (2 ^ (s.slab n).lg * (s.slab n).eb ≤ 2 ^ 30) && growBase g s r % 65536 == 0 then 0 else s.active g) = .ok () := by
    rw [hin.valid, decide_eq_true hin.length, decide_eq_true hin.size, hin.base]
    exact trapIf_zero _ _
  have hbounds : (decide (2 ^ 20 ≤ (uval (s.active g) (r.w 1)).toNat) ||
      decide (s.curBlock.abuf.size < (uval (s.active g) (r.w 1)).toNat + 32)) = false := by
    rw [decide_eq_false (Nat.not_le.mpr hlimit), decide_eq_false (Nat.not_lt.mpr hinside)]
    rfl
  have hkicks : ((s.slab n).growing || decide (32 ≤ (s.core s.curCore).body.kicks.length)) = false := by
    rw [hidle, decide_eq_false (Nat.not_le.mpr hroom)]
    rfl
  unfold execKvgrow
  dsimp only
  rw [bind_ok_eq h.issue, bind_ok_eq h.sources, if_neg hactive]
  exact finish_bind_ok h.dests (finish_bind_ok horder (finish_bind_ok (faultAt_of_false (bne_eq_false_iff_eq.mpr haligned))
    (finish_bind_ok (faultAt_of_false hbounds) (finish_bind_ok (stallIf_of_false hacq)
      (finish_bind_ok (stallIf_of_false hkicks) (finish_bind_ok (commit_ok h.dests) rfl))))))

/-! ### SPLICE (R359, R383) -/

/-- Whether another valid entry has this first token. -/
def spliceTaken (k : Slab) (e : Fin 8) (fst : Nat) : Bool :=
  (List.finRange 8).any fun i => i != e && (k.splices[i]).valid && (k.splices[i]).first == fst

theorem spliceTaken_false {k : Slab} {fst : Nat}
    (h : ∀ i : Fin 8, i ≠ e → (k.splices[i]).valid = true → (k.splices[i]).first ≠ fst) : spliceTaken k e fst = false := by
  unfold spliceTaken
  rw [List.any_eq_false]
  intro i _ hi
  obtain ⟨⟨hne, hvalid⟩, hfirst⟩ : (i ≠ e ∧ (k.splices[i]).valid = true) ∧ (k.splices[i]).first = fst := by
    simpa only [Bool.and_eq_true, bne_iff_ne, beq_iff_eq] using hi
  exact h i hne hvalid hfirst

/-- The entry that SPLICE sets. -/
def spliceEntry (g : Guard) (s : State) (r : Reading) (k : Slab) : SpliceEnt :=
  { valid := true, first := (uval (s.active g) (r.w 0)).toNat, delta := (uval (s.active g) (r.w 1)).toInt, stale := k.wrec }

theorem execSplice_of_free (h : Ready g [first, delta] [opU first, opU delta] [] s r) (hactive : s.active g ≠ 0)
    (hvalid : (s.slab n).valid = true) (hlimit : (uval (s.active g) (r.w 0)).toNat < 2 ^ 23)
    (hfree : spliceTaken (s.slab n) e (uval (s.active g) (r.w 0)).toNat = false) :
    execSplice g n e first delta s = .next (advance (setSplice s.cur.blk n e (fun _ => spliceEntry g s r) (written r [] s))) := by
  have horder : trapIf s Kind.descriptor (if (s.slab n).valid && decide ((uval (s.active g) (r.w 0)).toNat < 2 ^ 23) &&
      !spliceTaken (s.slab n) e (uval (s.active g) (r.w 0)).toNat then 0 else s.active g) = .ok () := by
    rw [hvalid, decide_eq_true hlimit, hfree]
    exact trapIf_zero _ _
  unfold execSplice
  dsimp only
  rw [bind_ok_eq h.issue, bind_ok_eq h.sources, if_neg hactive]
  exact finish_bind_ok h.dests (finish_bind_ok horder (finish_bind_ok (commit_ok h.dests) rfl))

theorem finish_spliceOp_of_valid {f : State → State} (h : Issuable g false s) (hvalid : (s.slab n).valid = true) :
    finish (spliceOp g n f s) s = .next (advance (onActive g s f s)) := by
  unfold spliceOp
  rw [bind_ok_eq h, hvalid]
  exact finish_bind_ok (trapIf_zero ..) rfl

end

/-- Settles O38: valid slabs and operands in order pass the checks, and each instruction makes its one update of the slab. -/
theorem slabsComplete : Obligations.SlabsComplete := by
  refine ⟨?_, ?_, fun g d n s r => execKvslabRd_of_ready, ?_, ?_, fun g n e s h hvalid => finish_spliceOp_of_valid h hvalid,
    fun g n e s h hvalid => finish_spliceOp_of_valid h hvalid⟩
  · intro g n off s r bs s1 k o h hactive haligned hlimit hload hparse hidle
    rw [← setSlab_eq s.cur.blk n fun _ => k]
    exact execKvslab_of_record h hactive haligned hlimit hload hparse hidle
  · intro g n len s r x k h hactive hvalid hfits
    have hgrown : (if k.growing then 1 else 0) = k.growing.toNat := by cases k.growing <;> rfl
    rw [hgrown] at hfits
    rw [← setSlab_eq s.cur.blk n fun k => { k with len := x }]
    exact execKvslabLen_of_fits h hactive hvalid hfits
  · intro g d n base off fw c s r k nb o num puts h hactive hvalid hlength hsize hbase haligned hlimit hinside hacq hidle hroom
    exact execKvgrow_of_room h hactive ⟨hvalid, hlength, hsize, hbase⟩ haligned hlimit hinside hacq hidle hroom
  · intro g n e first delta s r k fst h hactive hvalid hlimit hfree
    exact execSplice_of_free h hactive hvalid hlimit (spliceTaken_false hfree)

end Sys2Proof.Machine
end

section
/-!
PROOFS. Faults with no handler, and faults that go to system software (R455, R456, R459, R474).
-/

namespace Sys2Proof.Machine

-- The whole text is compiled in one process under a memory limit: elaborate one proof after the other.
set_option Elab.async false

/-! ### The blocks of a launch that ends (R459) -/

/-- Each block of the second table stands in the first, of the same launch. -/
def BlocksFrom (m n : AMap Block) : Prop := ∀ p ∈ n, ∃ q ∈ m, q.1 = p.1 ∧ q.2.launch = p.2.launch

theorem BlocksFrom.refl (m : AMap Block) : BlocksFrom m m := fun p hp => ⟨p, hp, rfl, rfl⟩

theorem BlocksFrom.trans {l m n : AMap Block} (h : BlocksFrom l m) (h' : BlocksFrom m n) : BlocksFrom l n := by
  intro p hp
  obtain ⟨q, hq, hkey, hlaunch⟩ := h' p hp
  obtain ⟨x, hx, hkey', hlaunch'⟩ := h q hq
  exact ⟨x, hx, hkey'.trans hkey, hlaunch'.trans hlaunch⟩

theorem BlocksFrom.of_sublist {m n : AMap Block} (h : ∀ p ∈ n, p ∈ m) : BlocksFrom m n := fun p hp => ⟨p, h p hp, rfl, rfl⟩

theorem AMap.mem_of_mem_modify {α : Type} {m : AMap α} {k : Nat} {f : α → α} {p : Nat × α} (h : p ∈ AMap.modify m k f) :
    ∃ q ∈ m, q.1 = p.1 ∧ (p.2 = q.2 ∨ p.2 = f q.2) := by
  induction m with
  | nil => exact absurd h List.not_mem_nil
  | cons x t ih =>
    unfold AMap.modify at h
    split at h
    · rcases List.mem_cons.mp h with rfl | h
      · exact ⟨x, List.mem_cons_self, rfl, .inr rfl⟩
      · exact ⟨p, List.mem_cons_of_mem _ h, rfl, .inl rfl⟩
    · rcases List.mem_cons.mp h with rfl | h
      · exact ⟨x, List.mem_cons_self, rfl, .inl rfl⟩
      · obtain ⟨q, hq, hkey, hval⟩ := ih h
        exact ⟨q, List.mem_cons_of_mem _ hq, hkey, hval⟩

theorem blocksFrom_updEng (u : Nat) (f : BlkEng → BlkEng) (s : State) : BlocksFrom s.blocks (s.updEng u f).blocks := by
  intro p hp
  obtain ⟨q, hq, hkey, hval⟩ := AMap.mem_of_mem_modify hp
  refine ⟨q, hq, hkey, ?_⟩
  rcases hval with hval | hval <;> rw [hval]

theorem blocksFrom_dropPeer (u : Nat) (s : State) : BlocksFrom s.blocks (dropPeer u s).blocks := by
  unfold dropPeer
  dsimp only
  split
  · exact .refl _
  · exact blocksFrom_updEng u _ (s.updDie _ _)

theorem blocksFrom_dropEndpoint (u : Nat) (s : State) : BlocksFrom s.blocks (dropEndpoint u s).blocks := by
  unfold dropEndpoint
  dsimp only
  split
  · exact .refl _
  · exact blocksFrom_updEng u _ (s.updDie _ _)

/-- A discarded block is gone, and no other has come. -/
theorem discardBlock_blocks (u : Nat) (s : State) :
    BlocksFrom s.blocks (discardBlock u s).blocks ∧ ∀ p ∈ (discardBlock u s).blocks, p.1 ≠ u := by
  have hblocks : (discardBlock u s).blocks = (dropEndpoint u (dropPeer u s)).blocks.filter fun p => p.1 != u := by
    unfold discardBlock
    dsimp only
    split <;> rfl
  rw [hblocks]
  refine ⟨?_, fun p hp => by simpa using (List.mem_filter.mp hp).2⟩
  exact ((blocksFrom_dropPeer u s).trans (blocksFrom_dropEndpoint u _)).trans
    (.of_sublist fun p hp => (List.mem_filter.mp hp).1)

theorem foldl_discardBlock_blocks (us : List Nat) (s : State) :
    BlocksFrom s.blocks (us.foldl (fun s u => discardBlock u s) s).blocks ∧
      ∀ p ∈ (us.foldl (fun s u => discardBlock u s) s).blocks, p.1 ∉ us := by
  induction us generalizing s with
  | nil => exact ⟨.refl _, fun _ _ => List.not_mem_nil⟩
  | cons u us ih =>
    obtain ⟨hfrom, hgone⟩ := discardBlock_blocks u s
    obtain ⟨hfrom', hgone'⟩ := ih (discardBlock u s)
    refine ⟨hfrom.trans hfrom', fun p hp => ?_⟩
    rw [List.mem_cons, not_or]
    obtain ⟨q, hq, hkey, _⟩ := hfrom' p hp
    exact ⟨hkey ▸ hgone q hq, hgone' p hp⟩

theorem discardLaunch_blocks (l : Nat) (s : State) : BlocksFrom s.blocks (discardLaunch l s).blocks ∧
    ∀ p ∈ (discardLaunch l s).blocks, ∀ q ∈ s.blocks, q.2.launch = l → p.1 ≠ q.1 := by
  obtain ⟨hfrom, hgone⟩ := foldl_discardBlock_blocks ((s.blocks.filter fun p => p.2.launch == l).map Prod.fst) s
  refine ⟨hfrom, fun p hp q hq hl hkey => hgone p hp ?_⟩
  exact List.mem_map.mpr ⟨q, List.mem_filter.mpr ⟨hq, beq_iff_eq.mpr hl⟩, hkey.symm⟩

theorem discardBlock_launches (u : Nat) (s : State) : (discardBlock u s).launches = s.launches := by
  have hpeer : (dropPeer u s).launches = s.launches := by
    unfold dropPeer
    dsimp only
    split <;> rfl
  have hendpoint : (dropEndpoint u (dropPeer u s)).launches = (dropPeer u s).launches := by
    unfold dropEndpoint
    dsimp only
    split <;> rfl
  rw [← hpeer, ← hendpoint]
  unfold discardBlock
  dsimp only
  split <;> rfl

theorem discardLaunch_launches (l : Nat) (s : State) : (discardLaunch l s).launches = s.launches :=
  foldl_keeps State.launches (fun t u => discardBlock u t) (fun t u => discardBlock_launches u t) _ s

/-- What it is for the launch of a block to have ended: no block of it, and an ending on its record. -/
structure LaunchEnded (l u : Nat) (t : State) : Prop where
  gone : ∀ v x, AMap.get? t.blocks v = some x → x.launch ≠ l
  block : AMap.get? t.blocks u = none
  ending : (AMap.get? t.launches l).any (fun la => la.ending.isSome) = true

theorem AMap.mem_of_get? {α : Type} {m : AMap α} {k : Nat} {a : α} (h : AMap.get? m k = some a) : (k, a) ∈ m := by
  induction m with
  | nil => cases h
  | cons x t ih =>
    unfold AMap.get? at h
    split at h
    · next hk =>
      cases h
      exact List.mem_cons.mpr (.inl (by rw [← hk]))
    · exact List.mem_cons_of_mem _ (ih h)

theorem endLaunch_ends {l u : Nat} {s : State} {b : Block} {la : Launch} (hblock : AMap.get? s.blocks u = some b)
    (hl : b.launch = l) (hlaunch : AMap.get? s.launches l = some la) (hending : la.ending = none) :
    LaunchEnded l u (endLaunch l s) := by
  obtain ⟨hfrom, hgone⟩ := discardLaunch_blocks l s
  have hnone : ∀ v x, AMap.get? (discardLaunch l s).blocks v = some x → x.launch ≠ l := by
    intro v x hx hxl
    obtain ⟨q, hq, hkey, hql⟩ := hfrom _ (AMap.mem_of_get? hx)
    exact hgone _ (AMap.mem_of_get? hx) q hq (hql.trans hxl) hkey.symm
  have hcur : AMap.get? (discardLaunch l s).blocks u = none := by
    cases hu : AMap.get? (discardLaunch l s).blocks u with
    | none => rfl
    | some x => exact absurd rfl (hgone (u, x) (AMap.mem_of_get? hu) (u, b) (AMap.mem_of_get? hblock) hl)
  have hrec : s.launch l = la := State.launch_of hlaunch
  unfold endLaunch
  dsimp only
  rw [hrec, hending, Option.isSome_none, if_neg Bool.false_ne_true]
  refine ⟨hnone, hcur, ?_⟩
  dsimp only [State.updLaunch]
  rw [AMap.get?_modify_same, discardLaunch_launches, hlaunch]
  rfl

theorem terminate_ends {u type kind : Nat} {agent : Word} {data : DWord} {s : State} {b : Block} {la : Launch}
    (hblock : AMap.get? s.blocks u = some b) (hlaunch : AMap.get? s.launches b.launch = some la) (hending : la.ending = none) :
    LaunchEnded b.launch u (terminate u type kind agent data s) := by
  have hb : s.block u = b := State.block_of hblock
  unfold terminate
  rw [hb]
  refine endLaunch_ends (b := b) ?_ rfl ?_ hending
  · rw [bbWrite_blocks]
    exact hblock
  · rw [bbWrite_launches]
    exact hlaunch

/-! ### Faults that no handler takes (R455, R459) -/

section
variable {s : State} {q : TrapReq} {b : Block} {w : Warp} {sp : Split} (hissues : s.Issues b w sp)
include hissues

/-- A user-class trap while a handler runs is a double fault. -/
theorem raiseTrap_in_handler (hkind : q.kind ∉ [0x1A, 0x20, 0x21, 0x22]) (hfirst : othersFirst s.cur q s = false)
    (hrival : w.rival q s.now = false) (hin : w.lane.inHandler ≠ 0) : raiseTrap q s = doubleFault s.cur q s := by
  have htranslation : q.kind ≠ Kind.translation := fun h => hkind (by simp [h, Kind.translation])
  have huncorrectable : q.kind ≠ Kind.uncorrectable := fun h => hkind (by simp [h, Kind.uncorrectable])
  have hwarp : AMap.getD (s.block s.cur.blk).warps s.cur.warp default = w := hissues.curWarp
  unfold raiseTrap raiseAt takeTrap
  rw [hfirst, if_neg Bool.false_ne_true]
  dsimp only
  rw [if_neg huncorrectable, if_neg htranslation, hwarp, hrival, bne_iff_ne.mpr hin]
  rfl

/-- A trap of a launch with no handler, or with one that no header marks, terminates the block. -/
theorem enterTrap_terminates {la : Launch} (hlaunch : AMap.get? s.launches b.launch = some la)
    (hnone : la.hdr.trapOff = 0xFFFFFFFF ∨ la.headers.contains la.hdr.trapOff = false) (at_ : Option Nat) :
    ∃ type kind agent data, enterTrap s.cur q at_ s = terminate s.cur.blk type kind agent data s := by
  have hb : s.block s.cur.blk = b := State.block_of hissues.1
  have hla : s.launch b.launch = la := State.launch_of hlaunch
  unfold enterTrap
  dsimp only
  rw [hb, hla]
  split
  · exact ⟨_, _, _, _, rfl⟩
  · next hoff =>
    rw [hnone.resolve_left hoff]
    exact ⟨_, _, _, _, rfl⟩

theorem raiseTrap_terminates {la : Launch} (hkind : q.kind ∉ [0x1A, 0x20, 0x21, 0x22])
    (hlaunch : AMap.get? s.launches b.launch = some la) (hfirst : othersFirst s.cur q s = false)
    (hrival : w.rival q s.now = false)
    (hnone : w.lane.inHandler ≠ 0 ∨ la.hdr.trapOff = 0xFFFFFFFF ∨ la.headers.contains la.hdr.trapOff = false) :
    ∃ type kind agent data, raiseTrap q s = terminate s.cur.blk type kind agent data s := by
  by_cases hin : w.lane.inHandler = 0
  · rw [raiseTrap_of_user hissues hkind hfirst hrival hin]
    exact enterTrap_terminates hissues hlaunch (hnone.resolve_left (not_not.mpr hin)) _
  · exact ⟨_, _, _, _, raiseTrap_in_handler hissues hkind hfirst hrival hin⟩

end

theorem unhandledFaultEndsLaunch : Clause.UnhandledFaultEndsLaunch := by
  intro s q b w sp la hissues hkind hlaunch hending hfirst hrival hnone
  obtain ⟨type, kind, agent, data, hterm⟩ := raiseTrap_terminates hissues hkind hlaunch hfirst hrival hnone
  obtain ⟨hgone, hblock, hend⟩ := terminate_ends (type := type) (kind := kind) (agent := agent) (data := data)
    hissues.1 hlaunch hending
  dsimp only
  rw [hterm]
  exact ⟨hgone, hblock, hend⟩

/-! ### Translation faults (R456, R474) -/

section
variable (asid cause source : Nat) (write world : Bool) (agent : Word) (va kind : Nat)

theorem faultWords_kind : ((faultWords asid cause source write world agent va kind)[3]).extractLsb' 24 8 = BitVec.ofNat 8 kind :=
  extractLsb'_ofNat (by omega)

theorem faultWords_va : ((faultWords asid cause source write world agent va kind)[3]).extractLsb' 0 24 ++
    (faultWords asid cause source write world agent va kind)[2] = BitVec.ofNat 56 va := by
  apply BitVec.eq_of_toNat_eq
  have hhigh : ((faultWords asid cause source write world agent va kind)[3]).extractLsb' 0 24 =
      BitVec.ofNat 24 (va / 2 ^ 32) := extractLsb'_ofNat (by omega)
  have hlow : (faultWords asid cause source write world agent va kind)[2] = BitVec.ofNat 32 (va % 2 ^ 32) := rfl
  rw [hhigh, hlow, BitVec.toNat_append, ← Nat.shiftLeft_add_eq_or_of_lt (BitVec.isLt _), Nat.shiftLeft_eq]
  simp only [BitVec.toNat_ofNat]
  omega

/-- The slot's number leaves the cause as it is. -/
theorem faultWords_cause {i : Nat} (hi : i < 64) :
    ((faultWords asid cause source write world agent va kind)[0] ||| w32 i).extractLsb' 12 4 = BitVec.ofNat 4 cause := by
  have hslot : (w32 i).extractLsb' 12 4 = 0#4 := (extractLsb'_ofNat (b := 0) (by omega))
  have hcause : ((faultWords asid cause source write world agent va kind)[0]).extractLsb' 12 4 = BitVec.ofNat 4 cause := by
    have hwrite := write.toNat_le
    have hworld := world.toNat_le
    exact extractLsb'_ofNat (by omega)
  rw [BitVec.extractLsb'_or, hcause, hslot, BitVec.or_zero]

end

theorem freeSlot_lt {d : Die} {i : Nat} (h : freeSlot d = some i) : i < 64 := List.mem_range.mp (List.mem_of_find?_eq_some h)

/-- A split that waits for a fault's verdict. -/
def Split.faulted (i : Nat) (sp : Split) : Split :=
  { sp with wait := .fault i, port := none, fence := false, mark := none, stalled := false, plane := none }

/-- A fault whose queue has a slot, and which is no world fault, is posted and holds its split. -/
theorem systemTrap_of_slot {c : Cursor} {q : TrapReq} {s : State} {i : Nat}
    (hslot : freeSlot (s.die (s.block c.blk).place.die) = some i) (hkind : q.kind = Kind.translation) (hcause : q.cause ≠ 5) :
    systemTrap c q s = (s.updDie (s.block c.blk).place.die (fillSlot i
      (faultWords (s.launch (s.block c.blk).launch).desc.asid q.cause 0 q.write (s.launch (s.block c.blk).launch).desc.world
        (warpAgent (s.block c.blk) c.warp) (q.va.toNat % 2 ^ 56) q.kind) (.warp c.blk c.warp c.split q))).updWarpOf c.blk c.warp
      fun w => { w with splits := AMap.modify w.splits c.split (Split.faulted i) } := by
  unfold systemTrap worldNote postFault
  dsimp only
  rw [if_pos hkind, if_pos hkind, if_neg hcause, hslot]
  rfl

/-- A posted entry holds its words, with the slot's number in the first. -/
theorem updDie_fillSlot (d i : Nat) (words : Vector Word 4) (p : Poster) (s : State) :
    ∃ e, AMap.get? ((s.updDie d (fillSlot i words p)).die d).fq i = some e ∧ e.read = false ∧
      e.words = words.set 0 (words[0] ||| w32 i) := by
  refine ⟨{ words := words.set 0 (words[0] ||| w32 i), read := false, order := (s.die d).fqOrder, poster := p }, ?_, rfl, rfl⟩
  simp only [State.die, State.updDie, AMap.getD_set_same, fillSlot, AMap.get?_set_same]

theorem systemFaultPosts : Clause.SystemFaultPosts := by
  intro s q b w sp i hissues hkind' hcause hslot
  have hkind : q.kind = Kind.translation := hkind'
  have hb : s.block s.cur.blk = b := State.block_of hissues.1
  have hfirst : othersFirst s.cur q s = false := by
    have htranslation : (q.kind != Kind.translation) = false := bne_eq_false_iff_eq.mpr hkind
    unfold othersFirst
    dsimp only
    rw [htranslation, Bool.and_false, Bool.false_and]
  have huncorrectable : q.kind ≠ Kind.uncorrectable := by
    rw [hkind]
    decide
  have hraise : raiseTrap q s = systemTrap s.cur q s := by
    unfold raiseTrap raiseAt takeTrap
    rw [hfirst, if_neg Bool.false_ne_true]
    dsimp only
    rw [if_neg huncorrectable, if_pos hkind]
  dsimp only
  rw [hraise, systemTrap_of_slot (hb.symm ▸ hslot) hkind hcause, hb, hkind]
  obtain ⟨e, hposted, hread, hwords⟩ := updDie_fillSlot b.place.die i (faultWords (s.launch b.launch).desc.asid q.cause 0
    q.write (s.launch b.launch).desc.world (warpAgent b s.cur.warp) (q.va.toNat % 2 ^ 56) Kind.translation)
    (.warp s.cur.blk s.cur.warp s.cur.split q) s
  refine ⟨{ w with splits := AMap.modify w.splits s.cur.split (Split.faulted i) }, e, hposted, hread, ?_, ?_, ?_, ?_, ?_, ?_, rfl⟩
  · rw [hwords]
    rfl
  · rw [hwords, Vector.getElem_set_ne _ _ (by decide)]
    exact faultWords_kind _ _ _ _ _ _ _ _
  · rw [hwords, Vector.getElem_set_self]
    exact faultWords_cause _ _ _ _ _ _ _ _ (freeSlot_lt hslot)
  · rw [hwords, Vector.getElem_set_ne _ _ (by decide), Vector.getElem_set_ne _ _ (by decide), faultWords_va]
    exact BitVec.eq_of_toNat_eq (by simp)
  · exact (congrArg (AMap.get? ·.warps s.cur.warp) (State.block_updBlock_of _ hissues.1)).trans
      (Block.get?_updWarp _ hissues.2.1)
  · rw [AMap.get?_modify_same, hissues.2.2]
    rfl

/-- Settles O49: what ends a launch discards each of its blocks, and a translation fault goes to the die's queue. -/
theorem faultDelivery : Obligations.FaultDelivery := ⟨unhandledFaultEndsLaunch, systemFaultPosts⟩

end Sys2Proof.Machine
end

section
/-!
PROOFS. Epoch boundaries and rollback (R407, R410, R414 to R420, R462 to R467).
-/

namespace Sys2Proof.Machine

-- The whole text is compiled in one process under a memory limit: elaborate one proof after the other.
set_option Elab.async false

section
variable {s : State}

theorem execEpochBoundary_of_left {t : State} (hlast : s.now % 1024 = 1023) (hleft : leaveAll s = .ok t) :
    execEpochBoundary s =
      .next (beginEpoch (s.epoch + 1) (retireBlocks (changesLeave { t with freeCtr := t.freeCtr + 1 }))) := by
  unfold execEpochBoundary
  rw [if_neg (not_not.mpr hlast), hleft]

theorem execRaceCheckAtHome_of_race {r : LeaveRace} (hlast : s.now % 1024 = 1023) (hrace : leaveAll s = .error r) :
    execRaceCheckAtHome s =
      .next (rollback (region (s.updWarpOf r.item.blk r.item.warp fun w =>
        { w with recheck := (r.watch :: w.recheck).eraseDups }) r.core) (coreAgent r.core)
        (s.updWarpOf r.item.blk r.item.warp fun w => { w with recheck := (r.watch :: w.recheck).eraseDups })) := by
  unfold execRaceCheckAtHome
  rw [if_neg (not_not.mpr hlast), hrace]

/-- A shadow that a warp of a paired launch has, of a block that is not saved. -/
theorem execShadowMismatch_of_shadow {uid warp : Nat} {b : Block} {w : Warp} (hb : AMap.get? s.blocks uid = some b)
    (hstate : b.state ≠ .saved) (hw : AMap.get? b.warps warp = some w) (hpaired : (s.launch b.launch).hdr.paired = true)
    (hshadow : w.shadow ≠ []) :
    let u := bbWrite b.place.die (bbEnt 0x10 0 (s.launch b.launch).desc.asid (warpAgent b warp) 0 0) s
    let t := logError b.place.die 4 (w32 b.place.core) (w64 u.now) u
    execShadowMismatch uid warp s = .next (rollback (region t b.place.coreNo) (coreAgent b.place.coreNo) t) := by
  have hblock : s.block uid = b := State.block_of hb
  have hwarp : AMap.getD b.warps warp default = w := AMap.getD_of _ hw
  have henabled : ((AMap.get? s.blocks uid).isNone || b.state == .saved || (AMap.get? b.warps warp).isNone ||
      !(s.launch b.launch).hdr.paired || w.shadow.isEmpty) = false := by
    rw [hb, hw, hpaired, beq_false_of_ne hstate, List.isEmpty_eq_false_iff.mpr hshadow]
    rfl
  unfold execShadowMismatch
  dsimp only
  rw [hblock, hwarp, henabled]
  rfl

end

/-- Settles O59: at an epoch's last cycle all the output leaves or the first race rolls its region back; a strike and a mismatch
log their entries and roll theirs back. -/
theorem epochsAndRollback : Obligations.EpochsAndRollback :=
  ⟨fun _ _ => execEpochBoundary_of_left, fun _ _ => execRaceCheckAtHome_of_race, fun _ _ _ _ => rfl, fun _ _ _ => rfl,
    fun _ _ _ _ _ => execShadowMismatch_of_shadow⟩

end Sys2Proof.Machine
end

section
/-!
PROOFS. The task engines: dispatch, tile tasks, planes, narrow mode and attention (R305 to R317, R333 to R346, R370 to R375).
-/

namespace Sys2Proof.Machine

-- The whole text is compiled in one process under a memory limit: elaborate one proof after the other.
set_option Elab.async false

/-! ### Dispatch (R305, R306) -/

/-- A change of a hardware cluster of a die. -/
def noteCluster (d c : Nat) (f : Cluster → Cluster) (t : State) : State :=
  t.updDie d fun y => { y with clusters := vmod y.clusters c f }

/-- The queues that a dispatch point looks at, in their order. -/
def dispatchHeads (s : State) (d c : Nat) : List (Nat × Bool) :=
  (dispatchOrder (s.cluster d c).rr).filter fun y => !(poppedNow s d c).contains y

/-- The cluster has seen how its cores stand. -/
def dispatchNoted (s : State) (d c : Nat) : State := noteCluster d c (fun y => { y with seen := seenNow s d c, swapped := [] }) s

/-- A head taken from its queue. -/
def dispatchPopped (s : State) (d c i : Nat) (q : Bool) : State :=
  noteCluster d c (fun y => { y with at_ := s.now, popped := (i, q) :: poppedNow s d c }) (popHead (48 * d + 4 * c + i) q s)

section
variable {die : Fin 4} {cluster : Fin 12} {s : State}

theorem execDispatchPoint_of_news (hnews : dispatchNews s die.val cluster.val = true) : execDispatchPoint die cluster s =
    if !isDispatchPoint (s.cluster die.val cluster.val).seen (seenNow s die.val cluster.val) (s.cluster die.val cluster.val).swapped
    then .next (dispatchNoted s die.val cluster.val)
    else match firstHeadOf s (48 * die.val + 4 * cluster.val) (dispatchHeads s die.val cluster.val) with
      | none => .next (dispatchNoted s die.val cluster.val)
      | some (i, q, r, .retire code) =>
        .next (r.all.foldl (fun s p => retireRecord r.blk p code 0 0 0 s) (dispatchPopped s die.val cluster.val i q))
      | some (i, q, r, .dispatch a) => .next (noteCluster die.val cluster.val (fun y => { y with rr := i })
          (dispatchTo a r (dispatchPopped s die.val cluster.val i q))) := by
  unfold execDispatchPoint
  dsimp only
  rw [hnews, Bool.not_true, if_neg Bool.false_ne_true]
  split
  · rfl
  · change (match firstHeadOf s (48 * die.val + 4 * cluster.val) (dispatchHeads s die.val cluster.val) with
      | none => _
      | some (i, q, r, v) => _) = _
    rcases firstHeadOf s (48 * die.val + 4 * cluster.val) (dispatchHeads s die.val cluster.val) with
      _ | ⟨i, q, r, code | a⟩ <;> rfl

/-- At no dispatch point, or with no head that something becomes, the cluster only sees. -/
theorem execDispatchPoint_notes (hnews : dispatchNews s die.val cluster.val = true)
    (hnone : isDispatchPoint (s.cluster die.val cluster.val).seen (seenNow s die.val cluster.val)
        (s.cluster die.val cluster.val).swapped = false ∨
      firstHeadOf s (48 * die.val + 4 * cluster.val) (dispatchHeads s die.val cluster.val) = none) :
    execDispatchPoint die cluster s = .next (dispatchNoted s die.val cluster.val) := by
  rw [execDispatchPoint_of_news hnews]
  rcases hnone with hnone | hnone <;> rw [hnone]
  · rfl
  · exact ite_self _

section
variable {i : Nat} {q : Bool} {r : TileRec} (hnews : dispatchNews s die.val cluster.val = true)
  (hpoint : isDispatchPoint (s.cluster die.val cluster.val).seen (seenNow s die.val cluster.val)
    (s.cluster die.val cluster.val).swapped = true)
include hnews hpoint

theorem execDispatchPoint_retires {code : Nat}
    (hhead : firstHeadOf s (48 * die.val + 4 * cluster.val) (dispatchHeads s die.val cluster.val) =
      some (i, q, r, .retire code)) :
    execDispatchPoint die cluster s = .next (r.all.foldl (fun s p => retireRecord r.blk p code 0 0 0 s)
      (dispatchPopped s die.val cluster.val i q)) := by
  rw [execDispatchPoint_of_news hnews, hpoint, hhead]
  rfl

theorem execDispatchPoint_dispatches {a : Nat}
    (hhead : firstHeadOf s (48 * die.val + 4 * cluster.val) (dispatchHeads s die.val cluster.val) =
      some (i, q, r, .dispatch a)) :
    execDispatchPoint die cluster s = .next (noteCluster die.val cluster.val (fun y => { y with rr := i })
      (dispatchTo a r (dispatchPopped s die.val cluster.val i q))) := by
  rw [execDispatchPoint_of_news hnews, hpoint, hhead]
  rfl

end
end

/-! ### Tile tasks, swaps and planes (R308 to R317, R333 to R346) -/

section
variable {core : Nat} {s : State}

theorem runningTask_of {r : TileRun} {type : Nat} (hrun : (s.core core).body.array.run = some r)
    (htype : (TileF.of r.task.bytes).type = type) : runningTask s core type = some r := by
  unfold runningTask
  rw [hrun, Option.filter_some, if_pos (beq_iff_eq.mpr htype)]

theorem execMma_of_running {r : TileRun} (hrun : (s.core core).body.array.run = some r)
    (htype : (TileF.of r.task.bytes).type = 0) : execMma core s = .next (runMma core r s) := by
  unfold execMma
  rw [runningTask_of hrun htype]

theorem execMtopk_of_running {r : TileRun} (hrun : (s.core core).body.array.run = some r)
    (htype : (TileF.of r.task.bytes).type = 1) : execMtopk core s = .next (runTopk core r s) := by
  unfold execMtopk
  rw [runningTask_of hrun htype]

theorem execRaggedMma_streams {r : TileRun} {p : Nat × DWord × List Byte} (hrun : (s.core core).body.array.run = some r)
    (htype : (TileF.of r.task.bytes).type = 2) (hrecord : r.task.all[r.streamed]? = some p)
    (hwaits : recWaits s r.task.blk p.2.2 = true) :
    execRaggedMma core s = .next (setRun core { r with streamed := r.streamed + 1 } s) := by
  unfold execRaggedMma
  dsimp only
  rw [runningTask_of hrun htype]
  dsimp only
  rw [hrecord]
  exact if_pos hwaits

theorem execRaggedMma_closes {r : TileRun} (hrun : (s.core core).body.array.run = some r)
    (htype : (TileF.of r.task.bytes).type = 2) (hall : r.task.all.length ≤ r.streamed)
    (hclose : ∃ p ∈ r.task.all, (TileF.of p.2.2).close = true) : execRaggedMma core s = .next (runMma core r s) := by
  unfold execRaggedMma
  dsimp only
  rw [runningTask_of hrun htype]
  dsimp only
  rw [List.getElem?_eq_none hall]
  exact if_pos (List.any_eq_true.mpr hclose)

theorem execTaskCommit_of_waiting {r : TileRun} {t : List TileRun} (hcommits : (s.core core).body.array.commits = r :: t) :
    execTaskCommit core s =
      .next (commitTask r (s.updBody core fun k => { k with array := { k.array with commits := t } })) := by
  unfold execTaskCommit
  rw [hcommits]

theorem execSwapTakesEffect_of_idle (hpending : (s.core core).body.array.swapPending = true)
    (hloading : (s.core core).body.array.loading = none) (hrun : (s.core core).body.array.run = none) :
    execSwapTakesEffect core s = .next ((s.updBody core fun k => { k with array := { k.array with
      active := k.array.shadow, shadow := k.array.active, swapPending := false } }).updDie (core / 48) fun d =>
      { d with clusters := vmod d.clusters (clusterOf core) fun y => { y with swapped := core % 4 :: y.swapped } }) := by
  unfold execSwapTakesEffect
  dsimp only
  rw [hpending, hloading, hrun]
  rfl

/-- The bytes of a load that ends: each as WBUF held it at some time of the load. -/
def loadedBytes (core : Nat) (s : State) (u : Nat) (fw : Word) (woff : Nat) : List Byte :=
  mixed s.free.1 (s.core core).body.array.shadow.bytes (match AMap.get? s.blocks u with
    | some b => b.wbuf.data.readN woff (PlaneFmt.of fw).bytes
    | none => (s.core core).body.array.shadow.bytes)

/-- A strict format finds the bytes of its blocks in no order. -/
def loadedBad (core : Nat) (s : State) (u : Nat) (fw : Word) (woff : Nat) : Bool :=
  (PlaneFmt.of fw).strict && planeBad (PlaneFmt.of fw) (loadedBytes core s u fw woff)

/-- The shadow plane once its load has ended. -/
def planeLoaded (core : Nat) (s : State) (u launch : Nat) (gen : BitVec 16) (fw : Word) (woff : Nat) : State :=
  s.free.2.updBody core fun k => { k with array := { k.array with
    shadow := if loadedBad core s u fw woff then Plane.reset
      else { tag := some (launch, gen), fmt := fw, bytes := loadedBytes core s u fw woff }
    swapPending := k.array.swapPending && !loadedBad core s u fw woff, loading := none, strictSplit := none } }

theorem execPlaneLoadEnd_of_loading {u launch : Nat} {gen : BitVec 16} {fw : Word} {woff : Nat}
    (hloading : (s.core core).body.array.loading = some (u, launch, gen, fw, woff)) :
    execPlaneLoadEnd core s = .next (match (s.core core).body.array.strictSplit with
      | some x => wakeLoad x (loadedBad core s u fw woff) (planeLoaded core s u launch gen fw woff)
      | none => planeLoaded core s u launch gen fw woff) := by
  unfold execPlaneLoadEnd
  dsimp only
  rw [hloading]
  rfl

theorem execNarrowMode_of_pass {k : CoreBody} (hchange : (s.core core).body.array.narrow ≠ (s.die (core / 48)).mon.alarm)
    (hpass : passEnds (s.core core).body = some k) : execNarrowMode core s = .next (s.updBody core fun _ => { k with
      array := { k.array with narrow := (s.die (core / 48)).mon.alarm } }) := by
  unfold execNarrowMode
  dsimp only
  rw [if_neg hchange, hpass]

end

/-! ### Attention (R370 to R375) -/

section
variable {core : Nat} {s : State} {x : AttnRec} {rest : List AttnRec} (hhead : (s.core core).body.attn = x :: rest)
include hhead

theorem execAttentionTask_starts (hrun : (s.core core).body.attnRun = none) (hstale : x.stale = false)
    (hwaits : attnWaits s x = true) : execAttentionTask core s = .next (setAttn core AttnRun.fresh s) := by
  unfold execAttentionTask
  dsimp only
  rw [hhead, hrun]
  dsimp only
  rw [hstale, hwaits]
  rfl

/-- What a started task that waits for no fault does: it takes the array, reads keys, or ends its passes. -/
theorem execAttentionTask_of_run {r : AttnRun} (hrun : (s.core core).body.attnRun = some r) (hcomputed : r.computed = false)
    (hslot : r.waitSlot = none) : execAttentionTask core s =
      if attnTakes (s.core core).body r then .next (setAttn core { r with holds := true } (s.updBody core fun k =>
        { k with array := { k.array with narrow := (s.die (core / 48)).mon.alarm } }))
      else if attnReads x r then
        match readKeys core x r s with
        | some t => .next t
        | none => .refused (.notEnabled "ATTENTION_TASK")
      else if r.holds then .next (formState core x r s)
      else .refused (.notEnabled "ATTENTION_TASK") := by
  unfold execAttentionTask
  dsimp only
  rw [hhead, hrun]
  dsimp only
  rw [hcomputed, hslot]
  rfl

theorem execAttentionCommit_of_computed {r : AttnRun} (hrun : (s.core core).body.attnRun = some r)
    (hcomputed : r.computed = true) : execAttentionCommit core s = .next (commitAttn core x r s) := by
  unfold execAttentionCommit
  dsimp only
  rw [hhead, hrun]
  exact if_pos hcomputed

theorem execAttentionCommit_of_stale (hrun : (s.core core).body.attnRun = none) (hstale : x.stale = true)
    (hwaits : attnWaits s x = true) : execAttentionCommit core s = .next (commitAttn core x (attnCode 1 0 x) s) := by
  unfold execAttentionCommit
  dsimp only
  rw [hhead, hrun]
  dsimp only
  rw [hstale, hwaits]
  rfl

end

/-- An array that an attention task holds is not for it to take again. -/
theorem attnTakes_of_holds {k : CoreBody} {r : AttnRun} (h : r.holds = true) : attnTakes k r = false := by
  unfold attnTakes
  rw [h]
  rfl

/-- Settles O57: each event of the task engines finds what enables it, and does its one step. -/
theorem taskEnginesWork : Obligations.TaskEnginesWork := by
  refine ⟨?_, fun core s r => execMma_of_running, fun core s r => execMtopk_of_running,
    fun core s r hrun htype => ⟨fun p => execRaggedMma_streams hrun htype, execRaggedMma_closes hrun htype⟩,
    fun core s r t => execTaskCommit_of_waiting, fun core s => execSwapTakesEffect_of_idle, ?_,
    fun core s k => execNarrowMode_of_pass, fun core s x rest hhead => execAttentionTask_starts hhead, ?_,
    fun core s x rest r hhead => execAttentionCommit_of_computed hhead, fun core s x rest hhead => execAttentionCommit_of_stale hhead⟩
  · intro die cluster s d c x heads note hnews
    refine ⟨execDispatchPoint_notes hnews, fun i q r v hpoint hhead => ⟨fun code hv => ?_, fun a hv => ?_⟩⟩
    · subst hv
      exact execDispatchPoint_retires hnews hpoint hhead
    · subst hv
      exact execDispatchPoint_dispatches hnews hpoint hhead
  · intro core s u launch gen fw woff a f bytes bad t hloading
    refine ⟨fun hsplit => ?_, fun x hsplit => ?_⟩
    all_goals
      refine (execPlaneLoadEnd_of_loading hloading).trans ?_
      rw [hsplit]
      rfl
  · intro core s x rest r hhead hrun hcomputed hslot
    refine ⟨fun htakes => ?_, fun t htakes hreads hkeys => ?_, fun hholds hreads => ?_⟩
    · exact (execAttentionTask_of_run hhead hrun hcomputed hslot).trans (if_pos htakes)
    · refine (execAttentionTask_of_run hhead hrun hcomputed hslot).trans ?_
      rw [htakes, if_neg Bool.false_ne_true, if_pos hreads, hkeys]
    · refine (execAttentionTask_of_run hhead hrun hcomputed hslot).trans ?_
      rw [attnTakes_of_holds hholds, if_neg Bool.false_ne_true, hreads, if_neg Bool.false_ne_true, if_pos hholds]

end Sys2Proof.Machine
end

section
/-!
PROOFS. The package: alarm, power, boot, the link, ports, recovery and the host (R485 to R496).
-/

namespace Sys2Proof.Machine

-- The whole text is compiled in one process under a memory limit: elaborate one proof after the other.
set_option Elab.async false

theorem AMap.set_set {α : Type} (m : AMap α) (k : Nat) (a b : α) : AMap.set (AMap.set m k a) k b = AMap.set m k b := by
  induction m with
  | nil => simp [AMap.set]
  | cons p t ih =>
    obtain ⟨j, c⟩ := p
    by_cases hlt : j < k
    · simp only [AMap.set, if_pos hlt, ih]
    · by_cases heq : j = k <;> simp [AMap.set, hlt, heq]

/-- Two changes of a die make one. -/
theorem State.updDie_updDie (d : Nat) (f g : Die → Die) (s : State) : (s.updDie d f).updDie d g = s.updDie d fun x => g (f x) := by
  simp only [State.updDie, State.die, AMap.getD_set_same, AMap.set_set]

section
variable {s : State}

/-! ### Alarm and power (R485, R486, R496) -/

section
variable {die : Fin 4} {temp vmon : List (BitVec 16)} {board : Bool} {m : Monitors}

theorem execPowerAlarmRise_of_cause (hm : m = (s.die die.val).mon.read temp vmon board) (hquiet : m.alarm = false)
    (hcold : tooHot m = false) (hcause : alarmCause m = true) :
    execPowerAlarmRise die temp vmon board s = .next (sendIrq 66 (bbWrite die.val
      (bbEnt 0x09 0 0 (agentCode false ⟨0, 0, die.val, 0, 0⟩ 0 0) 0 0) (s.updDie die.val fun d =>
        { d with mon := { m with alarm := true } }))) := by
  unfold execPowerAlarmRise
  dsimp only
  rw [← hm, hquiet, hcold, hcause]
  unfold raiseAlarm
  rw [State.updDie_updDie]
  rfl

theorem execPowerAlarmFall_of_cooled (hm : m = (s.die die.val).mon.read temp vmon board) (hloud : m.alarm = true)
    (hcause : alarmCause m = false) (hcooled : cooled m = true) :
    execPowerAlarmFall die temp vmon board s = .next (s.updDie die.val fun d => { d with mon := { m with alarm := false } }) := by
  unfold execPowerAlarmFall
  dsimp only
  rw [← hm, hloud, hcause, hcooled]
  rfl

end

theorem execThermalShutdown_of_hot {die : Fin 4} {cluster : Fin 12} {temp : BitVec 16} (hhot : 120 * 16 ≤ tempOf temp) :
    execThermalShutdown die cluster temp s = .next (freeze die.val ((settleAlarm die.val (s.updDie die.val fun d =>
      { d with mon := { d.mon with temp := d.mon.temp.set cluster temp } })).updDie die.val fun d => { d with stopped := true })) := by
  unfold execThermalShutdown
  rw [if_neg (not_lt.mpr hhot)]

/-- Device memory reads as zero after a power loss: only the host's is kept. -/
theorem powerCycled_read {a : Nat} (ha : a < 0x8000000000000) : (powerCycled s).mem.read a = 0 := by
  have hnone : AMap.get? (powerCycled s).mem a = none := by
    show AMap.get? (s.mem.filter fun p => decide (0x8000000000000 ≤ p.1)) a = none
    rw [AMap.get?_filter s.mem (fun i => decide (0x8000000000000 ≤ i)), if_neg (by simpa using ha)]
  unfold Mem.read AMap.getD
  rw [hnone]
  rfl

/-! ### Boot (R488) -/

/-- The record areas of an image. -/
def bootAreas (img : ImageCfg) : List RecArea := img.records.map fun r => { base := r.1, size := r.2.1, recs := r.2.2 }

/-- The state with an image's settings, before its dies and its record areas. -/
def bootSettings (image : List Byte) (img : ImageCfg) (s : State) : State :=
  { s with booted := true, fabid := img.fabid.setWidth 32, imageSha := shaNat image, image := img, recAreas := bootAreas img }

theorem execBoot_of_unbooted {image : List Byte} (hbooted : s.booted = false) (hfail : s.gnl.bootFail = false) :
    execBoot image s = .next (if imageOk image
      then sendIrq 68 ((bootAreas (Config.imageBody (image.drop 784))).foldl (fun s r => coverArea r s)
        ((List.range 4).foldl (fun s d => s.updDie d (bootDie (Config.imageBody (image.drop 784)) d))
          (bootSettings image (Config.imageBody (image.drop 784)) s)))
      else { s with gnl := { s.gnl with bootFail := true } }) := by
  unfold execBoot
  rw [hbooted, hfail, Bool.or_false, if_neg Bool.false_ne_true]
  cases imageOk image
  · rfl
  · dsimp only
    rw [foldl_keeps State.recAreas (fun s d => s.updDie d (bootDie (Config.imageBody (image.drop 784)) d)) (fun _ _ => rfl)]
    rfl

/-- An image whose header is not in order is refused. -/
theorem imageOk_of_header {image : List Byte} (h : image.length < 784 ∨ leNat (image.take 4) ≠ 0x49474D4B ∨
    leNat ((image.drop 4).take 4) ≠ 1 ∨ leNat ((image.drop 8).take 4) ≠ image.length - 784 ∨
    leNat ((image.drop 12).take 4) ≠ 0 ∨ shaNat ((image.drop 16).take 384) ≠ Config.romKeyHash) : imageOk image = false := by
  rw [Bool.eq_false_iff]
  intro hok
  unfold imageOk imageAt at hok
  simp only [Bool.and_eq_true, decide_eq_true_eq, beq_iff_eq] at hok
  obtain ⟨⟨⟨⟨⟨⟨hsize, hmagic⟩, hversion⟩, hbody⟩, hzero⟩, hkey⟩, _⟩ := hok
  rcases h with h | h | h | h | h | h
  · exact absurd hsize (Nat.not_le.mpr h)
  · exact h hmagic
  · exact h hversion
  · exact h hbody
  · exact h hzero
  · exact h hkey

/-! ### The link and the ports (R490 to R493) -/

theorem execGnlTrain_of_down (h : s.gnl.state = 0) :
    execGnlTrain s = .next { s with gnl := { s.gnl with state := 1, since := s.now } } := if_pos h

theorem execGnlActive_of_training {lanes : BitVec 6} (hstate : s.gnl.state = 1 ∨ s.gnl.state = 3)
    (hlanes : lanes = 16 ∨ lanes = 32) {t : State}
    (ht : t = { s with gnl := { s.gnl with state := 2, since := s.now, lanes := lanes.toNat, recovering := false } }) :
    execGnlActive lanes s = .next (if s.gnl.recovering then sendIrq 67 (linkServes t) else linkServes t) := by
  subst ht
  have henabled : ¬ ((s.gnl.state ≠ 1 ∧ s.gnl.state ≠ 3) ∨ (lanes ≠ 16 ∧ lanes ≠ 32)) := by
    rintro (⟨h1, h3⟩ | ⟨h16, h32⟩)
    · exact hstate.elim h1 h3
    · exact hlanes.elim h16 h32
  unfold execGnlActive
  rw [if_neg henabled]
  rfl

theorem execGnlRetrain_of_active (h : s.gnl.state = 2) : execGnlRetrain s = .next (linkEvent 0 { s with gnl := { s.gnl with
    state := 3, since := s.now, retrains := min 255 (s.gnl.retrains + 1) } }) := if_neg (not_not.mpr h)

theorem execGnlDown_of_late (hstate : s.gnl.state = 1 ∨ s.gnl.state = 3) (hlate : s.gnl.since + 95000 < s.now) :
    execGnlDown s = .next (linkEvent 0 { s with gnl := dropMirrors { s.gnl with state := 4, since := s.now, lanes := 0 } }) :=
  if_pos ⟨hstate, hlate⟩

theorem gnlRecover_of_down (hstate : s.gnl.state = 4) (hheld : s.gnl.holdDown = false) : gnlRecover s =
    bbWrite 0 (bbEnt 0x08 0 0 0 0 0) { s with gnl := { s.gnl with state := 0, since := s.now, recovering := true } } := by
  unfold gnlRecover
  rw [hstate, hheld]
  rfl

theorem execGnlWakeN_of_down {n : Nat} (hlong : 1900 ≤ n) (hstate : s.gnl.state = 4) (hheld : s.gnl.holdDown = false) :
    execGnlWakeN n s = .next (bbWrite 0 (bbEnt 0x08 0 0 0 0 0)
      { s with gnl := { s.gnl with state := 0, since := s.now, recovering := true } }) := by
  unfold execGnlWakeN
  rw [if_pos hlong, gnlRecover_of_down hstate hheld]

theorem execPortDown_of_up {p : Fin 12} (h : s.ports.getLsbD p.val = true) :
    execPortDown p s = .next (linkEvent (p.val / 3) { s with ports := s.ports &&& ~~~ (1#12 <<< p.val) }) := by
  unfold execPortDown
  rw [h]
  rfl

/-! ### Accesses of the host (R495, R496) -/

section
variable (hstate : s.gnl.state = 2)
include hstate

/-- An access is taken over a link that is active. -/
theorem not_refused_of_active (own : Bool) : ¬ (s.gnl.state ≠ 2 ∧ (!own) = true) := fun h => h.1 hstate

theorem execHostAccess_pageWrite {ctx : Fin 64} {off : BitVec 12} {secure : Bool} {v : DWord} (haligned : off.toNat % 8 = 0) :
    execHostAccess (.pageWrite ctx off secure v) s = .next (writePage ctx.val off.toNat secure v s) := by
  unfold execHostAccess
  rw [if_neg (not_refused_of_active hstate _)]
  exact if_pos haligned

theorem execHostAccess_pageRead {ctx : Fin 64} {off : BitVec 12} (haligned : off.toNat % 8 = 0) :
    execHostAccess (.pageRead ctx off) s = .next (answerHost (toLe 8 (readPage s ctx.val off.toNat).toNat) s) := by
  unfold execHostAccess
  rw [if_neg (not_refused_of_active hstate _)]
  exact if_pos haligned

theorem execHostAccess_memWrite {pa : Nat} {secure : Bool} {bs : List Byte} {t : State}
    (hreach : windowReach s pa bs.length = true) (hwrite : hostWrite pa secure bs s = some t) :
    execHostAccess (.memWrite pa secure bs) s = .next t := by
  unfold execHostAccess
  rw [if_neg (not_refused_of_active hstate _)]
  dsimp only
  rw [hreach, hwrite]
  rfl

/-- A read of memory: a world fault, or the bytes. -/
theorem execHostAccess_memRead {pa n : Nat} {secure : Bool} (hreach : windowReach s pa n = true) :
    execHostAccess (.memRead pa n secure) s = .next (match if secure then none else secureByte s pa n with
      | some x => hostWorldFault x s
      | none => answerHost (s.mem.readN pa n) s) := by
  unfold execHostAccess
  rw [if_neg (not_refused_of_active hstate _)]
  dsimp only
  rw [hreach, Bool.not_true, if_neg Bool.false_ne_true]
  cases (if secure then none else secureByte s pa n) <;> rfl

theorem execHostAccess_memRead_allowed {pa n : Nat} {secure : Bool} (hreach : windowReach s pa n = true)
    (hworld : secure = true ∨ secureByte s pa n = none) :
    execHostAccess (.memRead pa n secure) s = .next (answerHost (s.mem.readN pa n) s) := by
  have hnone : (if secure then none else secureByte s pa n) = none := by
    rcases hworld with h | h <;> rw [h]
    · rfl
    · exact ite_self _
  rw [execHostAccess_memRead hstate hreach, hnone]

theorem execHostAccess_memRead_fault {pa n x : Nat} (hreach : windowReach s pa n = true) (hbyte : secureByte s pa n = some x) :
    execHostAccess (.memRead pa n false) s = .next (hostWorldFault x s) := by
  rw [execHostAccess_memRead hstate hreach, if_neg Bool.false_ne_true, hbyte]

theorem execHostAccess_told : execHostAccess .gnlstRead s = .next (answerHost (toLe 4 (gnlst s.gnl)) s) ∧
    execHostAccess .reportRead s = .next (answerHost ((s.page.report.map Report.bytes).getD []) s) ∧
    (∀ n, execHostAccess (.vectorRead n) s = .next (answerHost (toLe 8 (AMap.getD s.page.vectors n.val (0, 0)).1.toNat ++
      toLe 4 (AMap.getD s.page.vectors n.val (0, 0)).2.toNat) s)) ∧
    (∀ n addr data, execHostAccess (.vectorWrite n addr data) s = .next { s with page := { s.page with
      vectors := AMap.set s.page.vectors n.val (addr, data) } }) ∧
    ∀ nonce, execHostAccess (.nonceWrite nonce) s = .next (attest nonce s) :=
  ⟨if_neg (not_refused_of_active hstate _), if_neg (not_refused_of_active hstate _),
    fun _ => if_neg (not_refused_of_active hstate _), fun _ _ _ => if_neg (not_refused_of_active hstate _),
    fun _ => if_neg (not_refused_of_active hstate _)⟩

end

theorem execHostAccess_ownWrite (pa : Nat) (bs : List Byte) :
    execHostAccess (.ownWrite pa bs) s = .next (ownWrite pa bs s) := if_neg fun h => Bool.false_ne_true h.2

end

/-- Settles O60: each event finds what enables it, and does its one step. -/
theorem packageEventsComplete : Obligations.PackageEvents :=
  ⟨fun _ _ _ _ _ => execPowerAlarmRise_of_cause rfl, fun _ _ _ _ _ => execPowerAlarmFall_of_cooled rfl,
    fun _ _ _ _ => execThermalShutdown_of_hot, fun _ => ⟨rfl, rfl, rfl, fun _ => powerCycled_read⟩,
    fun _ _ => execBoot_of_unbooted, fun _ => imageOk_of_header, fun _ => execGnlTrain_of_down,
    fun _ _ hstate hlanes => execGnlActive_of_training hstate hlanes rfl, fun _ => execGnlRetrain_of_active,
    fun _ => execGnlDown_of_late, fun _ _ => execGnlWakeN_of_down, fun _ => ⟨rfl, rfl⟩, fun _ _ => execPortDown_of_up,
    fun _ _ _ _ _ hstate => execHostAccess_pageWrite hstate, fun pa bs _ => execHostAccess_ownWrite pa bs,
    fun _ _ _ _ _ hstate => execHostAccess_memWrite hstate, fun _ _ _ hstate => execHostAccess_pageRead hstate,
    fun _ _ _ _ hstate => execHostAccess_memRead_allowed hstate, fun _ _ _ _ hstate => execHostAccess_memRead_fault hstate,
    fun s hstate => by
      obtain ⟨hstatus, hreport, hvector, hset, hnonce⟩ := execHostAccess_told hstate
      exact ⟨hstatus, hreport, hvector, hset, fun nonce => ⟨_, hnonce nonce, rfl, _, rfl, rfl, rfl, rfl, rfl⟩⟩,
    fun _ _ => rfl⟩

end Sys2Proof.Machine
end
